-- ==== Sys2Proof/Word.lean ====
section
/-! DEFINITION. The word types of the model and their plainest arithmetic (R3, R6). -/
namespace Sys2Proof

/-- A 32-bit word: the unit in which the Host Port, the engines and the dictionary carry an object (R481). -/
abbrev Word := BitVec 32

/-- A byte of an SRAM bank, of the flash or of a message. -/
abbrev Byte := BitVec 8

/-- A 32-bit word from a natural number, wrapping at 2^32. -/
abbrev w32 (n : Nat) : Word := BitVec.ofNat 32 n

/-- A 32-bit word from an integer, in two's complement. -/
abbrev i32 (n : Int) : Word := BitVec.ofInt 32 n

/-- Low half of a 64-bit object (R9). -/
def lo32 (n : Nat) : Word := BitVec.ofNat 32 n

/-- High half of a 64-bit object (R9). -/
def hi32 (n : Nat) : Word := BitVec.ofNat 32 (n / 4294967296)

/-- The bit range [msb:lsb] of a word as a number. -/
def fld (w : Word) (msb lsb : Nat) : Nat := (w.toNat / 2 ^ lsb) % 2 ^ (msb + 1 - lsb)

/-- Bit `n` of a number. -/
def nbit (x n : Nat) : Bool := x.testBit n

/-- 1 for true and 0 for false. -/
def b2n (b : Bool) : Nat := if b then 1 else 0

/-- An integer limited to [lo, hi]. -/
def clampInt (lo hi x : Int) : Int := if x < lo then lo else if hi < x then hi else x

/-- Integer division rounding towards minus infinity: `floor (a / b)`. -/
def floorDiv (a b : Int) : Int := a.fdiv b

/-- Integer division rounding towards plus infinity on natural numbers. -/
def ceilDiv (a b : Nat) : Nat := (a + b - 1) / b

/-- Little-endian bytes of a number, `n` of them (R3). -/
def leBytes : Nat → Nat → List Byte
  | 0, _ => []
  | n + 1, x => BitVec.ofNat 8 x :: leBytes n (x / 256)

/-- The number that little-endian bytes spell (R3). -/
def ofLeBytes : List Byte → Nat
  | [] => 0
  | b :: bs => b.toNat + 256 * ofLeBytes bs

end Sys2Proof
end

