-- ==== Sys2Proof/Syntax.lean ====
section
/-! DEFINITION. The commands of the S9: one constructor per row of the table of operations and events. What comes from
outside the part (received words, times at a ball, measured values, verdicts of a check the part makes on data that is not
held in the state) is an operand. -/
namespace Sys2Proof

/-- The access paths to the dictionary (R9, R479): the Host Port, the mailbox of the field network, its process data, and
an engine's DICT_DATA port. -/
inductive Path where
  | host
  | mailbox
  | processData
  | cupola (engine : Nat)
  deriving DecidableEq, Repr

/-- A command: an operation or an event that acts on the block. -/
inductive Instr where
  /-- PWRGOOD_RISE (R528): PWRGOOD rises once the station supervisor finds every rail in range, and the device waits 100 µs before RESET_N may take effect. -/
  | pwrgoodRise
  /-- PWRGOOD_FALL (R528): A fall of PWRGOOD acts within 100 ns as an assertion of RESET_N, with RESET_CAUSE 1 reported at the next BOOT. -/
  | pwrgoodFall
  /-- RESET_N_ASSERT (R528): A low pulse of at least 1 µs on RESET_N resets the device, and SAFE_BLK_A/B stay asserted. -/
  | resetNAssert
  /-- RESET_N_RELEASE (R55): Release of RESET_N starts BOOT: BOOT_SEL is sampled, the Watchtower starts and the clocks begin to lock. Operands: `sel` is BOOT_SEL as sampled, `tamper` the TAMPER_N inputs that were active at PWRGOOD. -/
  | resetNRelease (sel : BitVec 2) (tamper : BitVec 2)
  /-- CLOCKS_LOCKED (R55): XTAL, the core PLL, the fabric clock and the SerDes PLLs lock, and BOOT moves on to the fuse read. -/
  | clocksLocked
  /-- FUSE_READ_DONE (R55): The life-cycle state and product code have been read and the secure bank has been checked, which may wipe it with cause 7. Operands: `ecc`: the secure bank holds an uncorrectable word. -/
  | fuseReadDone (ecc : Bool)
  /-- STARTUP_MARCH_DONE (R454): The destructive start-up march of every bank except the secure bank completes, remapping failing rows or ending BOOT with MEMORY_FAIL. Operands: the bank and the number of each failing row. -/
  | startupMarchDone (rows : List (Nat × Nat))
  /-- WT_SELF_TEST_DONE (R55): The Watchtower self-test completes; a failure ends BOOT with WATCHTOWER_FAIL. Operands: whether the self-test passed. -/
  | wtSelfTestDone (pass : Bool)
  /-- SLOT_HEADERS_READ (R62): Both flash slot headers have been read and the boot slot is chosen by validity and SEQ. -/
  | slotHeadersRead
  /-- PAYLOAD_LOAD_DONE (R63): The payload load ends; CRC and HMAC are checked, there is a fallback to the other slot, and the manifest lanes are enabled. -/
  | payloadLoadDone
  /-- LANE_WAIT_EXPIRE (R55): LANE_WAIT_MS expires during BOOT and discovery proceeds with the lanes that have reached DATA. -/
  | laneWaitExpire
  /-- TIME_WAIT_EXPIRE (R55): TIME_WAIT_MS expires before the selected domain locks, and BOOT continues with C running on L. -/
  | timeWaitExpire
  /-- BOOT_VALIDATION_DONE (R68): Validation of the loaded configuration as commit sequence 1 completes, or refuses the image and tries the other slot. -/
  | bootValidationDone
  /-- FIRST_TICK (R19): S_0 rings at the first instant at which C is a multiple of T_F, and the device leaves BOOT for CHARGE or MIRROR. -/
  | firstTick
  /-- MIRROR_WAIT_EXPIRE (R416): MIRROR_WAIT_MS passes without a pair train from an ACTIVE partner, so C is set by R316 alone and PAIR_OFFSET is 0. -/
  | mirrorWaitExpire
  /-- TICK (R20): The Belfry rings S_k: the frame count becomes k and every block acts on the tick. -/
  | tick
  /-- FRAME_RELEASE (R31): FRAME tasks are released at t_rel, 20 ns after the last gating record or at S_k + 170 ns, with the frozen summaries. -/
  | frameRelease
  /-- MEAS_DEADLINE (R32): At S_k + 150 ns missing gating records are counted, undeposited mailbox entries age, and MEAS_LATE_3 may be raised. -/
  | measDeadline
  /-- DECISION_CUT (R27): At D_k the references, forces, mask and mode are sampled and the notch stage, modulator and Selector build slot k + P. -/
  | decisionCut
  /-- CARAVAN_SEND (R27): At D_k + 150 ns the caravans for slot k + P start on all lanes in DATA, and the heartbeat, ARB_HB and pair train follow. -/
  | caravanSend
  /-- HALT (R21): The JTAG HALT instruction stops the frame plan and the engines while ticks continue, and Local PWM pairs freeze. -/
  | halt
  /-- HALT_END (R21): The debug halt ends and the plan resumes at the next tick as a fresh frame using the last references. -/
  | haltEnd
  /-- MODE_REQ_CHARGE (R48): A write of 1 to MODE_REQ requests CHARGE for evaluation at the next D_k. Operands: the path. -/
  | modeReqCharge (p : Path)
  /-- MODE_REQ_READY (R48): A write of 2 to MODE_REQ requests READY for evaluation at the next D_k. Operands: the path. -/
  | modeReqReady (p : Path)
  /-- MODE_REQ_RUN (R48): A write of 3 to MODE_REQ requests RUN for evaluation at the next D_k. Operands: the path. -/
  | modeReqRun (p : Path)
  /-- MODE_REQ_TEST (R48): A write of 6 to MODE_REQ requests TEST for evaluation at the next D_k. Operands: the path. -/
  | modeReqTest (p : Path)
  /-- MODE_REQ_SAFE (R48): A write of 7 to MODE_REQ enters SAFE when the write retires, outside BOOT. Operands: the path. -/
  | modeReqSafe (p : Path)
  /-- MODE_REQ_WITHDRAW (R48): A write of 0xFF to MODE_REQ withdraws a pending request, and MODE_REQ_RESULT reads 9. Operands: the path. -/
  | modeReqWithdraw (p : Path)
  /-- MODE_REQ_NOT_LISTED (R47): A write to MODE_REQ of a code that names no allowed target is answered NOT_ALLOWED at the next D_k. Operands: the path and the code written: 0, 4 or 5. -/
  | modeReqNotListed (p : Path) (code : Nat)
  /-- SAFE_ACK (R52): A write of 0x01 to SAFE_ACK acknowledges SAFE and clears NO_ACK in SAFE_EXIT_BLOCKERS. Operands: the path. -/
  | safeAck (p : Path)
  /-- RT_REQ_DC (R51): A write of 1 to RT_REQ requests ridethrough for a DC fault, evaluated at D_k. Operands: the path. -/
  | rtReqDc (p : Path)
  /-- RT_REQ_AC (R51): A write of 2 to RT_REQ requests ridethrough for an AC fault, evaluated at D_k. Operands: the path. -/
  | rtReqAc (p : Path)
  /-- RT_REQ_EXIT (R51): A write of 3 to RT_REQ requests the exit from RIDETHROUGH to RUN. Operands: the path. -/
  | rtReqExit (p : Path)
  /-- COMMIT_REQUEST (R67): A write of COMMIT_SEQ + 1 to COMMIT_REQ starts validation of the staged copy. Operands: `v` is the value written. -/
  | commitRequest (p : Path) (v : Word)
  /-- COMMIT_REVERT (R67): A write of 0 to COMMIT_REQ copies the active values over the staged copy, the Watchtower's K-class copies included. -/
  | commitRevert (p : Path)
  /-- COMMIT_VALIDATION_DONE (R68): Validation ends within 200 µs, either PENDING for the next tick or refused back to OPEN with a reason code. -/
  | commitValidationDone
  /-- COMMIT_SYNC_DONE (R67): Copying the new active content into the staged bank ends and COMMIT_STATE returns to OPEN. -/
  | commitSyncDone
  /-- IMG_ERASE_A (R64): IMG_CTRL = 1 erases flash slot A, and the write is refused with IMG_STATUS 3 when A is the running slot. -/
  | imgEraseA (p : Path)
  /-- IMG_ERASE_B (R64): IMG_CTRL = 2 erases flash slot B, and the write is refused with IMG_STATUS 3 when B is the running slot. -/
  | imgEraseB (p : Path)
  /-- IMG_FINISH_A (R64): IMG_CTRL = 3 checks slot A without its marker and then programs the marker. -/
  | imgFinishA (p : Path)
  /-- IMG_FINISH_B (R64): IMG_CTRL = 4 checks slot B without its marker and then programs the marker. -/
  | imgFinishB (p : Path)
  /-- IMG_HOST_LOAD (R58): IMG_CTRL = 5 submits a host-loaded image for checking and continues BOOT from it. -/
  | imgHostLoad (p : Path)
  /-- IMG_SAVE_ACTIVE (R64): IMG_CTRL = 6 writes the active configuration as a new image into the slot that is not running. -/
  | imgSaveActive (p : Path)
  /-- IMG_DATA (R64): A write to IMG_DATA stores 4 bytes at IMG_OFFSET, advances the offset and is dropped with OVERRUN while busy. Operands: `v` is the value written. -/
  | imgData (p : Path) (v : Word)
  /-- FLASH_OP_DONE (R64): A flash erase, page program or marker program completes and IMG_STATUS is updated. Operands: `ok`: the flash reported no error. -/
  | flashOpDone (ok : Bool)
  /-- LANE_ENABLE (R85): Setting ENABLE in LANE_CTRL makes the lane enter CDR_ACQ at the next block boundary. Operands: the path and the lane, as in every command on a lane here: 0 to 31 Waljor, 32 and 33 the Mirror Link, 34 to 37 EN0 to EN3. -/
  | laneEnable (p : Path) (n : Fin 38)
  /-- LANE_DISABLE (R85): Clearing ENABLE makes the lane DISABLED within 10 ns, drops test settings and clears EQ_VALID. Operands: the path and the lane. -/
  | laneDisable (p : Path) (n : Fin 38)
  /-- LANE_PRBS_SET (R88): Setting or clearing the PRBS generator and checker enables moves the lane into or out of PRBS. Operands: the path, the lane, the two enables and PRBS_SEL. -/
  | lanePrbsSet (p : Path) (n : Fin 38) (gen chk : Bool) (sel : BitVec 2)
  /-- LANE_LOOPBACK_SET (R90): Writing a LOOPBACK code places the lane in the selected loop, or leaves it when the code returns to 0. Operands: the path, the lane and the LOOPBACK code. -/
  | laneLoopbackSet (p : Path) (n : Fin 38) (code : BitVec 3)
  /-- LANE_INJECT_ERR (R88): Writing INJECT_ERR inverts one generated PRBS bit. Operands: the path and the lane. -/
  | laneInjectErr (p : Path) (n : Fin 38)
  /-- RETRAIN_FULL (R82): Host request RETRAIN_FULL takes the lane out of DATA with cause 6 for a full retraining. Operands: the path and the lane. -/
  | retrainFull (p : Path) (n : Fin 38)
  /-- RETRAIN_FAST (R82): Host request RETRAIN_FAST takes the lane out of DATA with cause 5 for a fast retraining where EQ_VALID permits. Operands: the path and the lane. -/
  | retrainFast (p : Path) (n : Fin 38)
  /-- LANE_POLARITY_SET (R87): A write of TX_POL_INV or RX_POL_INV changes the lane polarity and is refused while the lane is enabled. Operands: the path, the lane, TX_POL_INV and RX_POL_INV. -/
  | lanePolaritySet (p : Path) (n : Fin 38) (tx rx : Bool)
  /-- CDR_LOCK (R80): The CDR locks to the received line and the lane moves to EQ_ADAPT, or to BLOCK_ACQ in a fast retraining. Operands: the lane. -/
  | cdrLock (n : Fin 38)
  /-- EQ_ADAPT_DONE (R80): After 2,400 µs the equaliser adaptation ends, EQ_VALID is set and the lane searches for block lock. Operands: the lane. -/
  | eqAdaptDone (n : Fin 38)
  /-- BLOCK_LOCK (R80): 64 consecutive valid sync headers give block lock and the lane enters TRAIN_EXCH. Operands: the lane. -/
  | blockLock (n : Fin 38)
  /-- LANE_ENTER_DATA (R80): After 128 TRAIN blocks with READY received and sent, the lane enters DATA. Operands: the lane. -/
  | laneEnterData (n : Fin 34)
  /-- TRAIN_EXCH_TIMEOUT (R82): 950 µs in TRAIN_EXCH without success is cause 7 and forces a full retraining. Operands: the lane. -/
  | trainExchTimeout (n : Fin 34)
  /-- FAST_RETRAIN_TIMEOUT (R83): A fast retraining not in DATA within 300 µs becomes full and EQ_VALID is cleared. Operands: the lane. -/
  | fastRetrainTimeout (n : Fin 34)
  /-- RETRAIN_BACKOFF_EXPIRE (R83): After 8 failed full retrainings the 100 ms wait in CDR_ACQ ends and a further attempt begins. Operands: the lane. -/
  | retrainBackoffExpire (n : Fin 34)
  /-- LOS_DETECT (R82): Received amplitude below 65 mVppd for 100 ns takes the lane out of DATA with cause 1. Operands: the lane, how long the amplitude has been too low in ns, and the instant in converter time. -/
  | losDetect (n : Fin 38) (dur t : Nat)
  /-- BLOCK_LOCK_LOSS (R82): 16 invalid sync headers within 64 blocks, or an elastic-buffer overflow or underflow, takes the lane out of DATA with cause 2. Operands: the lane and the instant in converter time. -/
  | blockLockLoss (n : Fin 34) (t : Nat)
  /-- HI_BER (R82): More than 16 invalid sync headers within 125 µs takes the lane out of DATA with cause 3. Operands: the lane and the instant in converter time. -/
  | hiBer (n : Fin 34) (t : Nat)
  /-- TRAIN_BLOCK_RECEIVE (R82): A TRAIN block received from the partner in DATA takes the lane out of DATA with cause 4. Operands: the lane, FAST of the block, the consecutive TRAIN blocks decoded with this one, and the instant in converter time. -/
  | trainBlockReceive (n : Fin 34) (fast : Bool) (run t : Nat)
  /-- CC_BLOCK_RECEIVE (R77): A received CC block is deleted or repeated by the elastic buffer to keep its fill centred, counting CC_SLIP_CNT. Operands: the lane and the fill of its elastic buffer. -/
  | ccBlockReceive (n : Fin 34) (fill : Nat)
  /-- UNKNOWN_CONTROL_BLOCK (R74): A control block of an unlisted type increments BLOCK_ERR_CNT and is discarded. Operands: the lane. -/
  | unknownControlBlock (n : Fin 34)
  /-- SRCLK_LOSS (R75): A SerDes reference stops or leaves ±500 ppm, raising SRCLK_LOSS and holding its lanes in CDR_ACQ. Operands: the reference and the instant in converter time. -/
  | srclkLoss (src : Fin 2) (t : Nat)
  /-- SRCLK_RESTORE (R75): A reference back in range for 100 µs releases its lanes from CDR_ACQ. Operands: the reference. -/
  | srclkRestore (src : Fin 2)
  /-- PRBS_LOCK (R89): The PRBS checker declares lock after 64 consecutive error-free bits and starts counting. Operands: the lane and the last 95 bits received, the newest in bit 0. -/
  | prbsLock (n : Fin 38) (w : BitVec 95)
  /-- PRBS_RESYNC (R89): 32 errors within 64 bits lose checker lock, increment PRBS_RESYNC_CNT and reseed the checker. Operands: the lane, and the bits and bits in error since the last command that counted them. -/
  | prbsResync (n : Fin 38) (bits errs : Nat)
  /-- PRBS_BITS_LO_READ (R89): A read of PRBS_BITS_LO latches PRBS_BITS_HI and PRBS_ERR for the access path. Operands: the path, the lane, and the bits and bits in error since the last command that counted them. -/
  | prbsBitsLoRead (p : Path) (n : Fin 38) (bits errs : Nat)
  /-- UPLINK_TRAIN_RECEIVE (R129): The header of an uplink train is checked for CRC, lateness and count, and SLOT is extended to a frame number. Operands: the lane and the header as received. -/
  | uplinkTrainReceive (n : Fin 32) (header : BitVec 128)
  /-- UPLINK_GROUP_RECEIVE (R113): A group of 16 uplink records passes or fails its CRC, and its records count as arrived or missing. Operands: the lane, the group, its records in order with their CRC, and the converter time of the check in 0.25 ns. -/
  | uplinkGroupReceive (n : Fin 32) (g : Fin 32) (recs : List Word) (crc : Word) (t : Nat)
  /-- UPLINK_TRAIN_END (R173): The end of a lane's uplink train closes frame j, counting misses for entries whose record was not accepted. Operands: the lane, and the EOT block that ended the train, if there was one. -/
  | uplinkTrainEnd (n : Fin 32) (eot : Option (BitVec 64))
  /-- FRAME_CLOSE_TIMEOUT (R173): At S_(j+P) with no train for SLOT j begun, frame j of the lane closes. Operands: the lane. -/
  | frameCloseTimeout (n : Fin 32)
  /-- LONG_SEGMENT_RECEIVE (R111): A long segment is checked and its diagnostic record goes to the long-record ring, or its discovery reply is handled. Operands: the lane, the segment with its CRC, and for a ping reply the stamps of R124 in 0.25 ns. -/
  | longSegmentReceive (n : Fin 32) (w0 w1 w2 w3 : Word) (crc : Word) (t0 t3 : Nat)
  /-- DISC_REPLY_RECEIVE (R123): A discovery reply is matched to its request tag and advances the walk, including ping delay stamping. Operands: the lane, the header, the reply with its CRC, the EOT block if there was one, and for a ping the stamps of R124 in 0.25 ns. -/
  | discReplyReceive (n : Fin 32) (header : BitVec 128) (w0 w1 w2 w3 : Word) (crc : Word) (eot : Option (BitVec 64)) (t0 t3 : Nat)
  /-- DISC_TIMEOUT (R120): A discovery request without a reply is abandoned, repeated once, and its unit is then treated as absent. Operands: the lane and the request's tag. -/
  | discTimeout (n : Fin 32) (tag : Nat)
  /-- AUTO_VERIFY_TRIGGER (R119): Every position of a unit missing for 16 frames starts a VERIFYING walk of its subtree when AUTO_VERIFY is 1. Operands: the lane and the manifest entry of the unit. -/
  | autoVerifyTrigger (n : Fin 32) (x : Nat)
  /-- DISC_REDISCOVER (R135): DISC_CTRL = 1 starts a DISCOVERING walk with assignment and is refused outside the permitted modes. Operands: the path and the lane. -/
  | discRediscover (p : Path) (n : Fin 32)
  /-- DISC_VERIFY (R135): DISC_CTRL = 2 starts a full-route VERIFYING walk. Operands: the path and the lane. -/
  | discVerify (p : Path) (n : Fin 32)
  /-- DISC_ABORT (R135): DISC_CTRL = 3 ends the walk and sets the route to MISMATCH with result 9. Operands: the path and the lane. -/
  | discAbort (p : Path) (n : Fin 32)
  /-- UPSTREAM_CARAVAN_RECEIVE (R131): As a grouped unit, the device takes its tick, slot and frame timing from a caravan on its upstream port. Operands: the header as received, each group of slots with its CRC-16, the EOT block if there was one, and the arrival of the SOT in 0.25 ns of converter time. -/
  | upstreamCaravanReceive (header : BitVec 128) (groups : List (List (BitVec 16) × BitVec 16)) (eot : Option (BitVec 64)) (t : Nat)
  /-- UPSTREAM_DISC_REQ_RECEIVE (R131): As a grouped unit, the device answers a discovery request on its upstream port as type 0x09. Operands: the header as received, and the turnaround of the reply in 0.25 ns. -/
  | upstreamDiscReqReceive (header : BitVec 128) (turn : Nat)
  /-- COURIER_REQ_HOLD (R151): COURIER_REQ = 2 queues a HOLD courier on the lanes in COURIER_LANES, or is refused by mode or role. Operands: the path. -/
  | courierReqHold (p : Path)
  /-- COURIER_REQ_RELEASE_HOLD (R151): COURIER_REQ = 3 queues a RELEASE_HOLD courier on the lanes in COURIER_LANES, or is refused by mode or role. Operands: the path. -/
  | courierReqReleaseHold (p : Path)
  /-- COURIER_SEND (R148): A queued courier is inserted on a lane in DATA at the next 66-bit boundary, ahead of any other block. Operands: the lane and the departure at the ball in 0.25 ns of converter time. -/
  | courierSend (n : Nat) (dep : Nat)
  /-- BEACON_SEND (R155): A write to BEACON_SEND originates a beacon of the given event with its origin at the write's retirement. Operands: the path and the event written. -/
  | beaconSend (p : Path) (v : Word)
  /-- BEACON_TRANSMIT (R156): A queued beacon is sent after an EOT and before the next SOT, one per 66-bit boundary. Operands: the port: 0 to 31 a lane, 32 and 33 the Mirror Link lanes, 34 the upstream port; and the departure in 0.25 ns of converter time. -/
  | beaconTransmit (port : Nat) (t : Nat)
  /-- BEACON_RECEIVE (R157): A received beacon is checked, de-duplicated, renamed, relayed and scheduled for its compensated instant. Operands: the port and the block's payload. -/
  | beaconReceive (port : Nat) (payload : BitVec 64)
  /-- BEACON_ACT (R158): At origin + BEACON_COMP_NS[e] the consumers of event e act, counted late when already past. Operands: the event. -/
  | beaconAct (e : Fin 64)
  /-- TRIG_IN_EDGE (R159): A filtered TRIG_IN edge is stamped and becomes a beacon of TRIG_IN_EVENT. Operands: whether the edge rises, and its stamp. -/
  | trigInEdge (rising : Bool) (stamp : Nat)
  /-- TRIG_OUT_START (R160): TRIG_OUT goes active at the compensated instant of an enabled event less TRIG_OUT_LEAD_NS. Operands: the event. -/
  | trigOutStart (e : Nat)
  /-- TRIG_OUT_END (R160): TRIG_OUT returns inactive when the pulse width ends. -/
  | trigOutEnd
  /-- HEALTH_RETIRE (R177): HEALTH_CMD = 1 retires the selected Ledger entry with HCAUSE 10. Operands: the path. -/
  | healthRetire (p : Path)
  /-- HEALTH_RESTORE (R177): HEALTH_CMD = 2 reinitialises the selected entry to UNSEEN with HCAUSE 11 in the permitted modes. Operands: the path. -/
  | healthRestore (p : Path)
  /-- HEALTH_SUSPECT (R177): HEALTH_CMD = 3 makes an UNSEEN or ACTIVE entry SUSPECT with HCAUSE 12. Operands: the path. -/
  | healthSuspect (p : Path)
  /-- CFG_WORD (R168): A write to CFG_WORD stages W3[31:14] for the entry selected by CFG_INDEX and advances CFG_INDEX. Operands: the path and the word written. -/
  | cfgWord (p : Path) (v : Word)
  /-- LEDGER_W0_READ (R182): A Host Port read of W0 captures all four words of the entry for consistent reads of W1 to W3. Operands: the entry. -/
  | ledgerW0Read (x : Nat)
  /-- FORCE_ARM (R200): A FORCE_CTRL write with DEFER = 0 checks the pending set and copies it into the armed set. Operands: the path, the arm and the code written. -/
  | forceArm (p : Path) (a : Nat) (v : Word)
  /-- FORCE_DEFER (R201): A FORCE_CTRL write with DEFER = 1 checks the pending set and copies it into the deferred set. Operands: the path, the arm and the code written. -/
  | forceDefer (p : Path) (a : Nat) (v : Word)
  /-- FORCE_CLEAR (R200): A FORCE_CTRL write with code 0 clears the arm's armed set. Operands: the path and the arm. -/
  | forceClear (p : Path) (a : Nat)
  /-- FORCE_COMMIT_ALL (R201): A write of 0x01 moves every arm's deferred set into its armed set in one fabric cycle. Operands: the path and the arm whose object is written. -/
  | forceCommitAll (p : Path) (a : Nat)
  /-- MASK_CLEAR (R208): A write of 0x01 ends a latched commutation mask, and is refused while the mask input is active. Operands: the path and the arm. -/
  | maskClear (p : Path) (a : Nat)
  /-- GPIO_LEVEL_ACCEPT (R205): A GPIO level change held for the arm's filter time is accepted, starting or ending the commutation mask. Operands: the arm, the input, the accepted level, and the acceptance instant in converter time. -/
  | gpioLevelAccept (a : Nat) (g : Nat) (high : Bool) (te : Nat)
  /-- NOTCH_RESTART (R298): A write of 0x01 to NOTCH_RESTART restarts the arm's notches at the next D_k. Operands: the path and the arm. -/
  | notchRestart (p : Path) (a : Nat)
  /-- AIDS_STICKY_CLEAR (R299): A write of 1 to an AIDS_STICKY bit clears it unless a new setting falls in the same cycle. Operands: the path and the value written. -/
  | aidsStickyClear (p : Path) (v : Word)
  /-- PULSE_EDGE_ACCEPT (R291): A filtered rising edge on PULSE_A or PULSE_B is stamped for the set-point frequency measurement. Operands: the input, and the stamp at the ball in ns of converter time. -/
  | pulseEdgeAccept (n : Fin 2) (t : Nat)
  /-- LANTERN_ARM (R302): LANTERN_CMD = 1 resets the write pointer and PRE_RECORDS and enters RUNNING. Operands: the path. -/
  | lanternArm (p : Path)
  /-- LANTERN_TRIGGER (R302): LANTERN_CMD = 2 triggers the Lantern, marking the record of the current frame. Operands: the path. -/
  | lanternTrigger (p : Path)
  /-- LANTERN_STOP (R302): LANTERN_CMD = 3 enters STOPPED. Operands: the path. -/
  | lanternStop (p : Path)
  /-- LANTERN_DISARM (R302): LANTERN_CMD = 4 enters IDLE. Operands: the path. -/
  | lanternDisarm (p : Path)
  /-- NOP (R261): NOP performs no arithmetic and carries up to two parallel moves. Operands: the engine, the stall cycles that other users of a bank or of the dictionary cause, and the instruction word. -/
  | nop (e : Nat) (st : Nat) (w : BitVec 64)
  /-- MPY (R261): MPY sets ACCa to the product of two D registers. Operands: the engine, the stall cycles that other users of a bank or of the dictionary cause, and the instruction word. -/
  | mpy (e : Nat) (st : Nat) (w : BitVec 64)
  /-- MAC (R261): MAC adds the product of two D registers to ACCa. Operands: the engine, the stall cycles that other users of a bank or of the dictionary cause, and the instruction word. -/
  | mac (e : Nat) (st : Nat) (w : BitVec 64)
  /-- MSU (R261): MSU subtracts the product of two D registers from ACCa. Operands: the engine, the stall cycles that other users of a bank or of the dictionary cause, and the instruction word. -/
  | msu (e : Nat) (st : Nat) (w : BitVec 64)
  /-- MPY4 (R261): MPY4 sets four accumulators to one D register times a quad of D registers. Operands: the engine, the stall cycles that other users of a bank or of the dictionary cause, and the instruction word. -/
  | mpy4 (e : Nat) (st : Nat) (w : BitVec 64)
  /-- MAC4 (R261): MAC4 adds one D register times a quad of D registers to four accumulators. Operands: the engine, the stall cycles that other users of a bank or of the dictionary cause, and the instruction word. -/
  | mac4 (e : Nat) (st : Nat) (w : BitVec 64)
  /-- MSU4 (R261): MSU4 subtracts one D register times a quad of D registers from four accumulators. Operands: the engine, the stall cycles that other users of a bank or of the dictionary cause, and the instruction word. -/
  | msu4 (e : Nat) (st : Nat) (w : BitVec 64)
  /-- CLR (R261): CLR clears ACCa. Operands: the engine, the stall cycles that other users of a bank or of the dictionary cause, and the instruction word. -/
  | clr (e : Nat) (st : Nat) (w : BitVec 64)
  /-- ADDA (R261): ADDA adds ACCb to ACCa. Operands: the engine, the stall cycles that other users of a bank or of the dictionary cause, and the instruction word. -/
  | adda (e : Nat) (st : Nat) (w : BitVec 64)
  /-- SUBA (R261): SUBA subtracts ACCb from ACCa. Operands: the engine, the stall cycles that other users of a bank or of the dictionary cause, and the instruction word. -/
  | suba (e : Nat) (st : Nat) (w : BitVec 64)
  /-- ASLA (R261): ASLA shifts ACCa left with saturation at 72 bits. Operands: the engine, the stall cycles that other users of a bank or of the dictionary cause, and the instruction word. -/
  | asla (e : Nat) (st : Nat) (w : BitVec 64)
  /-- ASRA (R261): ASRA shifts ACCa arithmetically right. Operands: the engine, the stall cycles that other users of a bank or of the dictionary cause, and the instruction word. -/
  | asra (e : Nat) (st : Nat) (w : BitVec 64)
  /-- LDACC (R244): LDACC loads ACCa from a D register, scaled by FM. Operands: the engine, the stall cycles that other users of a bank or of the dictionary cause, and the instruction word. -/
  | ldacc (e : Nat) (st : Nat) (w : BitVec 64)
  /-- RND (R244): RND converts ACCa to 32 bits with rounding and saturation into Dd. Operands: the engine, the stall cycles that other users of a bank or of the dictionary cause, and the instruction word. -/
  | rnd (e : Nat) (st : Nat) (w : BitVec 64)
  /-- NEGA (R261): NEGA negates ACCa. Operands: the engine, the stall cycles that other users of a bank or of the dictionary cause, and the instruction word. -/
  | nega (e : Nat) (st : Nat) (w : BitVec 64)
  /-- ABSA (R261): ABSA takes the absolute value of ACCa. Operands: the engine, the stall cycles that other users of a bank or of the dictionary cause, and the instruction word. -/
  | absa (e : Nat) (st : Nat) (w : BitVec 64)
  /-- CLR4 (R261): CLR4 clears all four accumulators. Operands: the engine, the stall cycles that other users of a bank or of the dictionary cause, and the instruction word. -/
  | clr4 (e : Nat) (st : Nat) (w : BitVec 64)
  /-- MOV (R261): MOV copies one D register to another. Operands: the engine, the stall cycles that other users of a bank or of the dictionary cause, and the instruction word. -/
  | mov (e : Nat) (st : Nat) (w : BitVec 64)
  /-- ADD (R261): ADD adds two D registers, saturating when SATD is 1. Operands: the engine, the stall cycles that other users of a bank or of the dictionary cause, and the instruction word. -/
  | add (e : Nat) (st : Nat) (w : BitVec 64)
  /-- SUB (R261): SUB subtracts two D registers, saturating when SATD is 1. Operands: the engine, the stall cycles that other users of a bank or of the dictionary cause, and the instruction word. -/
  | sub (e : Nat) (st : Nat) (w : BitVec 64)
  /-- NEG (R261): NEG negates a D register. Operands: the engine, the stall cycles that other users of a bank or of the dictionary cause, and the instruction word. -/
  | neg (e : Nat) (st : Nat) (w : BitVec 64)
  /-- ABS (R261): ABS takes the absolute value of a D register. Operands: the engine, the stall cycles that other users of a bank or of the dictionary cause, and the instruction word. -/
  | abs (e : Nat) (st : Nat) (w : BitVec 64)
  /-- MIN (R261): MIN writes the signed minimum of two D registers. Operands: the engine, the stall cycles that other users of a bank or of the dictionary cause, and the instruction word. -/
  | min (e : Nat) (st : Nat) (w : BitVec 64)
  /-- MAX (R261): MAX writes the signed maximum of two D registers. Operands: the engine, the stall cycles that other users of a bank or of the dictionary cause, and the instruction word. -/
  | max (e : Nat) (st : Nat) (w : BitVec 64)
  /-- CMP (R261): CMP sets the flags of a subtraction without writing a result. Operands: the engine, the stall cycles that other users of a bank or of the dictionary cause, and the instruction word. -/
  | cmp (e : Nat) (st : Nat) (w : BitVec 64)
  /-- AND (R261): AND performs a bitwise AND of two D registers. Operands: the engine, the stall cycles that other users of a bank or of the dictionary cause, and the instruction word. -/
  | and (e : Nat) (st : Nat) (w : BitVec 64)
  /-- OR (R261): OR performs a bitwise OR of two D registers. Operands: the engine, the stall cycles that other users of a bank or of the dictionary cause, and the instruction word. -/
  | or (e : Nat) (st : Nat) (w : BitVec 64)
  /-- XOR (R261): XOR performs a bitwise XOR of two D registers. Operands: the engine, the stall cycles that other users of a bank or of the dictionary cause, and the instruction word. -/
  | xor (e : Nat) (st : Nat) (w : BitVec 64)
  /-- NOT (R261): NOT performs a bitwise complement of a D register. Operands: the engine, the stall cycles that other users of a bank or of the dictionary cause, and the instruction word. -/
  | not (e : Nat) (st : Nat) (w : BitVec 64)
  /-- ASLI (R261): ASLI shifts a D register left by an immediate amount. Operands: the engine, the stall cycles that other users of a bank or of the dictionary cause, and the instruction word. -/
  | asli (e : Nat) (st : Nat) (w : BitVec 64)
  /-- ASRI (R261): ASRI shifts a D register arithmetically right by an immediate amount. Operands: the engine, the stall cycles that other users of a bank or of the dictionary cause, and the instruction word. -/
  | asri (e : Nat) (st : Nat) (w : BitVec 64)
  /-- LSRI (R261): LSRI shifts a D register logically right by an immediate amount. Operands: the engine, the stall cycles that other users of a bank or of the dictionary cause, and the instruction word. -/
  | lsri (e : Nat) (st : Nat) (w : BitVec 64)
  /-- ASHV (R261): ASHV shifts a D register by a signed amount held in another D register. Operands: the engine, the stall cycles that other users of a bank or of the dictionary cause, and the instruction word. -/
  | ashv (e : Nat) (st : Nat) (w : BitVec 64)
  /-- NORM (R261): NORM counts the redundant sign bits of a D register. Operands: the engine, the stall cycles that other users of a bank or of the dictionary cause, and the instruction word. -/
  | norm (e : Nat) (st : Nat) (w : BitVec 64)
  /-- MPYD (R261): MPYD writes a converted product of two D registers into Dd. Operands: the engine, the stall cycles that other users of a bank or of the dictionary cause, and the instruction word. -/
  | mpyd (e : Nat) (st : Nat) (w : BitVec 64)
  /-- CLAMP (R261): CLAMP limits a D register to the magnitude held in another D register. Operands: the engine, the stall cycles that other users of a bank or of the dictionary cause, and the instruction word. -/
  | clamp (e : Nat) (st : Nat) (w : BitVec 64)
  /-- LDI (R262): LDI loads a 32-bit immediate into a D register. Operands: the engine, the stall cycles that other users of a bank or of the dictionary cause, and the instruction word. -/
  | ldi (e : Nat) (st : Nat) (w : BitVec 64)
  /-- ADDI (R262): ADDI adds an immediate to a D register. Operands: the engine, the stall cycles that other users of a bank or of the dictionary cause, and the instruction word. -/
  | addi (e : Nat) (st : Nat) (w : BitVec 64)
  /-- ANDI (R262): ANDI performs a bitwise AND with an immediate. Operands: the engine, the stall cycles that other users of a bank or of the dictionary cause, and the instruction word. -/
  | andi (e : Nat) (st : Nat) (w : BitVec 64)
  /-- ORI (R262): ORI performs a bitwise OR with an immediate. Operands: the engine, the stall cycles that other users of a bank or of the dictionary cause, and the instruction word. -/
  | ori (e : Nat) (st : Nat) (w : BitVec 64)
  /-- XORI (R262): XORI performs a bitwise XOR with an immediate. Operands: the engine, the stall cycles that other users of a bank or of the dictionary cause, and the instruction word. -/
  | xori (e : Nat) (st : Nat) (w : BitVec 64)
  /-- CMPI (R262): CMPI sets the flags of a D register minus an immediate. Operands: the engine, the stall cycles that other users of a bank or of the dictionary cause, and the instruction word. -/
  | cmpi (e : Nat) (st : Nat) (w : BitVec 64)
  /-- LDAI (R262): LDAI loads an address register from an immediate. Operands: the engine, the stall cycles that other users of a bank or of the dictionary cause, and the instruction word. -/
  | ldai (e : Nat) (st : Nat) (w : BitVec 64)
  /-- LDMI (R262): LDMI loads a modifier register from an immediate. Operands: the engine, the stall cycles that other users of a bank or of the dictionary cause, and the instruction word. -/
  | ldmi (e : Nat) (st : Nat) (w : BitVec 64)
  /-- LDBI (R262): LDBI loads a circular base register from an immediate. Operands: the engine, the stall cycles that other users of a bank or of the dictionary cause, and the instruction word. -/
  | ldbi (e : Nat) (st : Nat) (w : BitVec 64)
  /-- LDLI (R262): LDLI loads a circular length register from an immediate. Operands: the engine, the stall cycles that other users of a bank or of the dictionary cause, and the instruction word. -/
  | ldli (e : Nat) (st : Nat) (w : BitVec 64)
  /-- ADDAI (R262): ADDAI adds an immediate to an address register, wrapping at 20 bits. Operands: the engine, the stall cycles that other users of a bank or of the dictionary cause, and the instruction word. -/
  | addai (e : Nat) (st : Nat) (w : BitVec 64)
  /-- TFR (R262): TFR transfers a register between register files. Operands: the engine, the stall cycles that other users of a bank or of the dictionary cause, and the instruction word. -/
  | tfr (e : Nat) (st : Nat) (w : BitVec 64)
  /-- SETF (R262): SETF sets FLG bits named by an immediate. Operands: the engine, the stall cycles that other users of a bank or of the dictionary cause, and the instruction word. -/
  | setf (e : Nat) (st : Nat) (w : BitVec 64)
  /-- CLRF (R262): CLRF clears FLG bits named by an immediate, sticky flags included. Operands: the engine, the stall cycles that other users of a bank or of the dictionary cause, and the instruction word. -/
  | clrf (e : Nat) (st : Nat) (w : BitVec 64)
  /-- BRA (R263): BRA jumps to TARGET when COND holds, popping loops whose body excludes the target. Operands: the engine, the stall cycles that other users of a bank or of the dictionary cause, and the instruction word. -/
  | bra (e : Nat) (st : Nat) (w : BitVec 64)
  /-- CALL (R263): CALL pushes the return address and jumps when COND holds. Operands: the engine, the stall cycles that other users of a bank or of the dictionary cause, and the instruction word. -/
  | call (e : Nat) (st : Nat) (w : BitVec 64)
  /-- RET (R263): RET pops the return stack and jumps when COND holds. Operands: the engine, the stall cycles that other users of a bank or of the dictionary cause, and the instruction word. -/
  | ret (e : Nat) (st : Nat) (w : BitVec 64)
  /-- LOOP (R263): LOOP runs the following instructions up to TARGET CNT times. Operands: the engine, the stall cycles that other users of a bank or of the dictionary cause, and the instruction word. -/
  | loop (e : Nat) (st : Nat) (w : BitVec 64)
  /-- LOOPD (R263): LOOPD runs a loop whose count comes from a D register. Operands: the engine, the stall cycles that other users of a bank or of the dictionary cause, and the instruction word. -/
  | loopd (e : Nat) (st : Nat) (w : BitVec 64)
  /-- DONE (R263): DONE signals done for the task's arms, ends the task and lets the engine dispatch its next work. Operands: the engine, the stall cycles that other users of a bank or of the dictionary cause, the converter time of its EX stage in ns, and the instruction word. -/
  | done (e : Nat) (st : Nat) (t : Nat) (w : BitVec 64)
  /-- SYNC (R263): SYNC stalls the engine until its store buffer is empty. Operands: the engine, the stall cycles that other users of a bank or of the dictionary cause, and the instruction word. -/
  | sync (e : Nat) (st : Nat) (w : BitVec 64)
  /-- TRAP (R263): TRAP raises exception 11 with CNT recorded. Operands: the engine, the stall cycles that other users of a bank or of the dictionary cause, and the instruction word. -/
  | trap (e : Nat) (st : Nat) (w : BitVec 64)
  /-- BKPT (R263): BKPT halts the engine when JTAG debug is enabled, and is otherwise no operation. Operands: the engine, the stall cycles that other users of a bank or of the dictionary cause, and the instruction word. -/
  | bkpt (e : Nat) (st : Nat) (w : BitVec 64)
  /-- REGFILE_PARITY_ERROR (R258): A register-file parity error raises exception 12 and drives the engine's error line. Operands: the engine. -/
  | regfileParityError (e : Nat)
  /-- OUT_ARM_REF (R264): OUT to ports 0x00 to 0x0B writes an arm reference register under the cut and discard rules. Operands: the engine, the stall cycles that other users of a bank or of the dictionary cause, and the instruction word. -/
  | outArmRef (e : Nat) (st : Nat) (w : BitVec 64)
  /-- OUT_SEL_IDIR_FW (R264): OUT to ports 0x10 to 0x1B writes an arm's firmware current direction. Operands: the engine, the stall cycles that other users of a bank or of the dictionary cause, and the instruction word. -/
  | outSelIdirFw (e : Nat) (st : Nat) (w : BitVec 64)
  /-- OUT_RT_REQ (R264): OUT to port 0x20 writes RT_REQ, and a refused write sets PR. Operands: the engine, the stall cycles that other users of a bank or of the dictionary cause, and the instruction word. -/
  | outRtReq (e : Nat) (st : Nat) (w : BitVec 64)
  /-- OUT_BEACON_SEND (R264): OUT to port 0x21 originates a beacon as BEACON_SEND does. Operands: the engine, the stall cycles that other users of a bank or of the dictionary cause, and the instruction word. -/
  | outBeaconSend (e : Nat) (st : Nat) (w : BitVec 64)
  /-- OUT_PROBE (R301): OUT to a PROBE port records a Lantern probe value for the frame. Operands: the engine, the stall cycles that other users of a bank or of the dictionary cause, and the instruction word. -/
  | outProbe (e : Nat) (st : Nat) (w : BitVec 64)
  /-- OUT_SEM (R248): OUT to a semaphore port clears the semaphore. Operands: the engine, the stall cycles that other users of a bank or of the dictionary cause, and the instruction word. -/
  | outSem (e : Nat) (st : Nat) (w : BitVec 64)
  /-- IN_SEM (R248): IN from a semaphore port returns its value and sets it to 1 in the same cycle. Operands: the engine, the stall cycles that other users of a bank or of the dictionary cause, and the instruction word. -/
  | inSem (e : Nat) (st : Nat) (w : BitVec 64)
  /-- OUT_TASK_RELEASE (R278): OUT to port 0x60 releases an EVENT descriptor, refused with PR when there is no room. Operands: the engine, the stall cycles that other users of a bank or of the dictionary cause, and the instruction word. -/
  | outTaskRelease (e : Nat) (st : Nat) (w : BitVec 64)
  /-- OUT_DICT_SEL (R264): OUT to port 0x80 selects a dictionary object for DICT_DATA. Operands: the engine, the stall cycles that other users of a bank or of the dictionary cause, and the instruction word. -/
  | outDictSel (e : Nat) (st : Nat) (w : BitVec 64)
  /-- OUT_DICT_DATA (R265): OUT to port 0x81 writes the selected dictionary object, stalling until it is served. Operands: the engine, the stall cycles that the dictionary controller causes, and the instruction word. -/
  | outDictData (e : Nat) (st : Nat) (w : BitVec 64)
  /-- IN_DICT_DATA (R265): IN from port 0x81 reads the selected dictionary object, stalling until it is served. Operands: the engine, the stall cycles that the dictionary controller causes, and the instruction word. -/
  | inDictData (e : Nat) (st : Nat) (w : BitVec 64)
  /-- IN_DICT_RESULT (R265): IN from port 0x82 returns the outcome of the last DICT_DATA access. Operands: the engine, the stall cycles that other users of a bank or of the dictionary cause, and the instruction word. -/
  | inDictResult (e : Nat) (st : Nat) (w : BitVec 64)
  /-- IN_FRAME_COUNT_LO (R264): IN from port 0x22 returns FRAME_COUNT_LO and latches the high half. Operands: the engine, the stall cycles that other users of a bank or of the dictionary cause, and the instruction word. -/
  | inFrameCountLo (e : Nat) (st : Nat) (w : BitVec 64)
  /-- IN_FRAME_COUNT_HI (R264): IN from port 0x23 returns the latched high half of the frame count. Operands: the engine, the stall cycles that other users of a bank or of the dictionary cause, and the instruction word. -/
  | inFrameCountHi (e : Nat) (st : Nat) (w : BitVec 64)
  /-- IN_CTIME_LO (R264): IN from port 0x24 returns converter time low and latches the high half. Operands: the engine, the stall cycles that other users of a bank or of the dictionary cause, and the instruction word. -/
  | inCtimeLo (e : Nat) (st : Nat) (w : BitVec 64)
  /-- IN_CTIME_HI (R264): IN from port 0x25 returns the latched high half of converter time. Operands: the engine, the stall cycles that other users of a bank or of the dictionary cause, and the instruction word. -/
  | inCtimeHi (e : Nat) (st : Nat) (w : BitVec 64)
  /-- IN_ENGINE_ID (R264): IN from port 0x26 returns the engine number. Operands: the engine, the stall cycles that other users of a bank or of the dictionary cause, and the instruction word. -/
  | inEngineId (e : Nat) (st : Nat) (w : BitVec 64)
  /-- IN_TASK_ID (R264): IN from port 0x27 returns the running descriptor number. Operands: the engine, the stall cycles that other users of a bank or of the dictionary cause, and the instruction word. -/
  | inTaskId (e : Nat) (st : Nat) (w : BitVec 64)
  /-- IN_TASK_CYCLES (R264): IN from port 0x28 returns the cycles executed by this instance. Operands: the engine, the stall cycles that other users of a bank or of the dictionary cause, and the instruction word. -/
  | inTaskCycles (e : Nat) (st : Nat) (w : BitVec 64)
  /-- IN_UNLISTED_PORT (R264): IN from an unlisted port returns 0 and sets PR. Operands: the engine, the stall cycles that other users of a bank or of the dictionary cause, and the instruction word. -/
  | inUnlistedPort (e : Nat) (st : Nat) (w : BitVec 64)
  /-- OUT_UNLISTED_PORT (R264): OUT to an unlisted port is discarded and sets PR. Operands: the engine, the stall cycles that other users of a bank or of the dictionary cause, and the instruction word. -/
  | outUnlistedPort (e : Nat) (st : Nat) (w : BitVec 64)
  /-- PROG_MEM_WRITE (R267): A host write to program memory is latched per 64-bit word and discarded in RUN and RIDETHROUGH. Operands: the engine that CUP_PAGE selects, the program word, the half and the value written. -/
  | progMemWrite (e : Fin 8) (x : BitVec 13) (hi : Bool) (v : Word)
  /-- HOST_RELEASE (R278): A write to HOST_RELEASE releases an EVENT descriptor or refuses it with a result code. Operands: the path and the word written, a descriptor number. -/
  | hostRelease (p : Path) (v : Word)
  /-- DELAY_ARM (R275): A write to DELAY_ARM arms a DELAY descriptor on the delay list for n frames. Operands: the path and the word written. -/
  | delayArm (p : Path) (v : Word)
  /-- DELAY_CANCEL (R275): A write to DELAY_CANCEL removes a descriptor's delay arming. Operands: the path and the word written, a descriptor number. -/
  | delayCancel (p : Path) (v : Word)
  /-- DESC_W3 (R272): A write to DESC_W3 stores all four window words into the staged descriptor and advances DESC_INDEX. Operands: the path and the word written. -/
  | descW3 (p : Path) (v : Word)
  /-- TASK_SELECTION_DONE (R282): The 4-cycle selection ends and the drain, save or load of the switch begins. Operands: the engine. -/
  | taskSelectionDone (e : Nat)
  /-- PREFETCH_REFILL_DONE (R281): A 24 ns prefetch-slot refill completes with the instance and its first 8 instruction words. Operands: the engine. -/
  | prefetchRefillDone (e : Nat)
  /-- CONTEXT_SAVE_DONE (R282): The 12-cycle save of a preempted context completes and the load of the new instance can begin. Operands: the engine. -/
  | contextSaveDone (e : Nat)
  /-- TASK_LOAD_DONE (R282): The load completes, registers are initialised and the instance's first instruction enters FE. Operands: the engine. -/
  | taskLoadDone (e : Nat)
  /-- CONTEXT_RESTORE_DONE (R282): The 12-cycle restore completes and the saved instance resumes at its refetched instruction. Operands: the engine. -/
  | contextRestoreDone (e : Nat)
  /-- CYC_WARN_EXCEED (R281): An instance's cycle count passes CYC_WARN, setting the flag and incrementing CYC_WARN_CNT. Operands: the engine. -/
  | cycWarnExceed (e : Nat)
  /-- PTP_SYNC_RECEIVE (R313): A Sync message is stamped and, for a one-step master, yields an offset that drives the domain servo. Operands: on EN3 or EN2: domain number, sequenceId, two-step flag, origin time and correction in ns, and the ingress stamp in L at the balls. -/
  | ptpSyncReceive (port3 : Bool) (domain : Nat) (seq : Nat) (twoStep : Bool) (origin : Nat) (corr : Int) (l : Nat)
  /-- PTP_FOLLOW_UP_RECEIVE (R313): A Follow_Up completes a two-step Sync and yields an offset for the servo. Operands: on EN3 or EN2: domain number, sequenceId, origin time and correction in ns. -/
  | ptpFollowUpReceive (port3 : Bool) (domain : Nat) (seq : Nat) (origin : Nat) (corr : Int)
  /-- PTP_ANNOUNCE_RECEIVE (R309): An Announce message updates the master selection of the domain and its reported UTC and leap flags. Operands: on EN3 or EN2: domain number, grandmasterIdentity, rank of the data set (smaller is better), currentUtcOffset, flags [3] ptpTimescale [2] leap59 [1] leap61 [0] currentUtcOffsetValid, and totalTimeInaccuracy. -/
  | ptpAnnounceReceive (port3 : Bool) (domain : Nat) (gm : Nat) (rank : Nat) (utc : Int) (flags : BitVec 4) (inacc : Option Nat)
  /-- PDELAY_REQ_RECEIVE (R309): A received Pdelay_Req is answered with a two-step Pdelay_Resp and Pdelay_Resp_Follow_Up. Operands: on EN3 or EN2: domain number and sequenceId, the ingress stamp, and the egress stamp of the response, in L at the balls. -/
  | pdelayReqReceive (port3 : Bool) (domain : Nat) (seq : Nat) (l : Nat) (tx : Nat)
  /-- PDELAY_RESP_RECEIVE (R309): A Pdelay_Resp to the S9's request is stamped for the peer-delay measurement. Operands: on EN3 or EN2: sequenceId, receipt time and correction in ns, ingress stamp in L at the balls. -/
  | pdelayRespReceive (port3 : Bool) (seq : Nat) (t2 : Nat) (corr : Int) (l : Nat)
  /-- PDELAY_RESP_FOLLOW_UP_RECEIVE (R309): A Pdelay_Resp_Follow_Up completes a peer-delay measurement of the port. Operands: on EN3 or EN2: sequenceId, response time and correction in ns. -/
  | pdelayRespFollowUpReceive (port3 : Bool) (seq : Nat) (t3 : Nat) (corr : Int)
  /-- PTP_UNSUPPORTED_RECEIVE (R309): An unsupported PTP message to an enabled domain is discarded and MSG_DROP_CNT increments. Operands: on EN3 or EN2: domain number. -/
  | ptpUnsupportedReceive (port3 : Bool) (domain : Nat)
  /-- PDELAY_REQ_SEND (R309): Every 1 s the S9 sends Pdelay_Req on each enabled port. Operands: on EN3 or EN2: egress stamp in L at the balls. -/
  | pdelayReqSend (port3 : Bool) (l : Nat)
  /-- ANNOUNCE_TIMEOUT (R314): The master's Announce times out on a port, changing the port choice or leading to HOLDOVER. Operands: the domain (0 A, 1 B) and the port. -/
  | announceTimeout (d : Fin 2) (port3 : Bool)
  /-- OFFSET_TIMEOUT (R314): 3 s without a valid offset puts a stepped domain in HOLDOVER or returns an acquiring one to LISTENING. Operands: the domain (0 A, 1 B). -/
  | offsetTimeout (d : Fin 2)
  /-- HOLDOVER_EXPIRED (R314): HOLDOVER_LIMIT_S after leaving LOCKED the domain stops being usable and a C1 fault is raised. Operands: the domain (0 A, 1 B). -/
  | holdoverExpired (d : Fin 2)
  /-- PPS_IN_EDGE (R321): An accepted PPS_IN edge is stamped, reports PPS_IN_ERR_NS and supplies domain A an offset in PPS mode. Operands: whether the edge falls, and its stamp in L at the ball. -/
  | ppsInEdge (falling : Bool) (l : Nat)
  /-- PPS_OUT_RISE (R322): PPS_OUT rises when its source reaches a whole second less PPS_OUT_COMP_NS. -/
  | ppsOutRise
  /-- PPS_OUT_FALL (R322): PPS_OUT falls after PPS_OUT_WIDTH_NS. -/
  | ppsOutFall
  /-- PHASOR_PUBLISH (R334): After the latency of a report instant all channels' results are published together and EVENT 0x4D is released. -/
  | phasorPublish
  /-- WAVE_TAG_WRITE (R338): Once sample j + 1 is formed or missing, the onset is computed and the tag is journalled, stored and beaconed. Operands: the channel. -/
  | waveTagWrite (w : Fin 12)
  /-- RESULT_LATCH_READ (R487): A read of a result object's latch sub copies the current result into the path's latch with FRESH. Operands: the path and the latch sub. -/
  | resultLatchRead (p : Path) (key : Nat)
  /-- ACQ_ARM (R348): ACQ_CMD = 1 clears the capture and enters REARM until S_(j+2). Operands: the path. -/
  | acqArm (p : Path)
  /-- ACQ_TRIGGER (R350): ACQ_CMD = 2 is a host trigger with its origin at the write's retirement. Operands: the path. -/
  | acqTrigger (p : Path)
  /-- ACQ_STOP (R347): ACQ_CMD = 3 ends a capture in PRETRIG or POST as DONE with STOPPED set. Operands: the path. -/
  | acqStop (p : Path)
  /-- ACQ_DISARM (R347): ACQ_CMD = 4 enters IDLE. Operands: the path. -/
  | acqDisarm (p : Path)
  /-- ACQ_BLOCK_FORM (R346): A frame block is formed once its frame has closed and enters the input FIFO, or overflows it. -/
  | acqBlockForm
  /-- ACQ_BLOCK_WRITE (R346): The FIFO drain writes a block into its ring slot, advancing the post count. -/
  | acqBlockWrite
  /-- ADC_REG_START (R358): REG_START in ADC_CTRL starts the regular sequence and restarts its filters. Operands: the path, the converter and the CONT bit written. -/
  | adcRegStart (p : Path) (x : Nat) (cont : Bool)
  /-- ADC_REG_STOP (R358): REG_STOP ends the regular sequence after the conversion in progress and clears CONT. Operands: the path and the converter. -/
  | adcRegStop (p : Path) (x : Nat)
  /-- ADC_CAL_REQ (R364): CAL_REQ requests a calibration that starts when the converter is free. Operands: the path, the converter and the CONT bit written. -/
  | adcCalReq (p : Path) (x : Nat) (cont : Bool)
  /-- ADC_PERIODIC_START (R358): A periodic regular start falls due, starting the sequence or counting a slip. Operands: the converter. -/
  | adcPeriodicStart (x : Nat)
  /-- ADC_CONVERSION_DONE (R363): A conversion completes and its result goes to the filter, tap and data register, with sequence-end events. Operands: the converter, and in µV the input and VREFP, both above VREFN. -/
  | adcConversionDone (x : Nat) (v vref : Int)
  /-- ADC_CAL_DONE (R364): A 64 µs calibration completes, applies new coefficients and releases queued work. Operands: the converter and the coefficients measured. -/
  | adcCalDone (x : Nat) (coef : Word)
  /-- PWM_WRAP (R371): The pair counter wraps, reloading timing and force words and ending a cleared trip. Operands: the pair. -/
  | pwmWrap (p : Nat)
  /-- PWM_DUTY_MATCH (R372): The counter reaches DUTY and the pair reference goes inactive. Operands: the pair. -/
  | pwmDutyMatch (p : Nat)
  /-- DEAD_TIME_EXPIRE (R376): A dead-time count ends and the waiting output turns on. Operands: the pair. -/
  | deadTimeExpire (p : Nat)
  /-- PWM_TIMING_WRITE (R373): A write to PWM_TIMING stores the shadow word or is refused for a zero or non-dividing period. Operands: the path, the pair and the word written. -/
  | pwmTimingWrite (path : Path) (p : Nat) (v : Word)
  /-- PWM_FORCE_WRITE (R378): A write to PWM_FORCE makes the code pending for the next wrap. Operands: the path, the pair and the word written. -/
  | pwmForceWrite (path : Path) (p : Nat) (v : Word)
  /-- PAIR_START (R375): START in PAIR_CTRL sets the counter to 0 in the cycle after the write lands. Operands: the path and the pair. -/
  | pairStart (path : Path) (p : Nat)
  /-- PAIR_STOP (R375): STOP in PAIR_CTRL turns both outputs off at the next wrap and holds the counter at 0. Operands: the path and the pair. -/
  | pairStop (path : Path) (p : Nat)
  /-- PWM_SYNC_START (R375): A write to PWM_SYNC_START starts every named pair in the same cycle. Operands: the path and the mask written. -/
  | pwmSyncStart (path : Path) (v : Word)
  /-- TRIP_INPUT_ACCEPT (R379): A filtered TRIP_N level change is accepted; an active level sets the latch, trips pairs and may demand SBK. Operands: the input, the accepted level and the filter-input edge stamp in converter time. -/
  | tripInputAccept (n : Nat) (active : Bool) (edge : Nat)
  /-- TRIP_CLEAR (R382): TRIP_CLEAR clears a trip latch whose input is accepted inactive, and is otherwise refused and counted. Operands: the path and the word written. -/
  | tripClear (path : Path) (v : Word)
  /-- SW_OPEN (R402): A write to SW_OPEN opens a safety write sequence for a K-class object with a new challenge. Operands: the path, the word written and the value of the random source. -/
  | swOpen (p : Path) (v : Word) (challenge : BitVec 16)
  /-- SW_VALUE_WRITE (R402): A write to the opened K-class object during the sequence is held without being applied. Operands: the path, the object's key and the word written. -/
  | swValueWrite (p : Path) (key : Nat) (v : Word)
  /-- SW_CONFIRM (R402): A write to SW_CONFIRM with the matching CRC completes the sequence and applies or stages the value. Operands: the path and the word written. -/
  | swConfirm (p : Path) (v : Word)
  /-- SW_TIMEOUT (R402): An open safety write sequence not completed within 1,000 µs is aborted with SW_RESULT 6. -/
  | swTimeout
  /-- DEBUG_PERMIT_EXPIRE (R400): DEBUG_PERMIT_S elapses on the Watchtower clock, the permit clears and heartbeat supervision resumes. -/
  | debugPermitExpire
  /-- WT_CHANNEL_DISAGREE (R389): The two Watchtower channels disagree and the Watchtower enters WT_FAULT with code 1. -/
  | wtChannelDisagree
  /-- WT_OSC_FAULT (R389): The Watchtower oscillator deviates or the core reference is absent for 10 µs, entering WT_FAULT with code 2. -/
  | wtOscFault
  /-- OUT_TEST_PULSE (R388): Every 8 ms a released SAFE_BLK output is pulsed high for 200 ns and read back. Operands: the output and whether its read-back followed the pulse. -/
  | outTestPulse (chanB : Bool) (agree : Bool)
  /-- READBACK_ERROR (R389): A SAFE_BLK read-back disagrees for more than 50 ns and the Watchtower enters WT_FAULT. Operands: the output. -/
  | readbackError (chanB : Bool)
  /-- KCOPY_CRC_CHECK (R389): Every 10 ms the active K-class copies are rechecked, and a CRC failure enters WT_FAULT with code 5. Operands: both copies pass. -/
  | kcopyCrcCheck (good : Bool)
  /-- HEARTBEAT_TIMEOUT (R399): No valid heartbeat within HB_LIMIT_FRAMES × T_F raises cause HEARTBEAT. -/
  | heartbeatTimeout
  /-- WT_RECORD_ACCEPT (R394): The Watchtower accepts a named measurement record and runs SLC, SLV and SDI checks on its samples. Operands: the stream and the record, which has passed the group CRC and the SEQ check. -/
  | wtRecordAccept (stream : Nat) (r : BitVec 128)
  /-- MEAS_LOST_EXPIRE (R394): A supervised stream lost for MEAS_LOSS_FRAMES consecutive frames raises cause MEAS_LOST. Operands: the stream. -/
  | measLostExpire (stream : Nat)
  /-- SLV_DISC_EXPIRE (R396): Stream and ADC-B pole voltages differing continuously for SLV_DISC_US raise cause SLV_DISC. Operands: the channel. -/
  | slvDiscExpire (v : Nat)
  /-- WT_PULSE_EDGE (R398): An accepted rising edge on the Watchtower's PULSE receiver yields a period checked against SLS_MIN_PERIOD_NS. Operands: the receiver and the time of the edge in ns of the Watchtower's clock. -/
  | wtPulseEdge (n : Nat) (t : Nat)
  /-- SLS_DISC_EXPIRE (R398): A PULSE period discrepancy or one-sided timeout held for SLS_DISC_US raises cause SLS_DISC. -/
  | slsDiscExpire
  /-- SAFETY_PDU_RECEIVE (R405): A safety PDU is checked for CRC, identity and sequence, and CONNECT or DATA is acted on. Operands: the connection, the port, the sequence number of the PRP trailer where the frame carries one, and the bytes of the PDU. -/
  | safetyPduReceive (c : Nat) (en3 : Bool) (prp : Option (BitVec 16)) (bytes : List Byte)
  /-- SD_WATCHDOG_EXPIRE (R405): An RX connection's watchdog expires, the connection enters FAILED and SD_FAIL or WT_WARN is raised. Operands: the connection. -/
  | sdWatchdogExpire (c : Nat)
  /-- SD_TX_SEND (R406): A TX connection sends a DATA PDU every WDT_US and within 1 µs of any change of SBK_ACTIVE. Operands: the connection. -/
  | sdTxSend (c : Nat)
  /-- PAIR_TRAIN_RECEIVE (R421): A pair train from the partner is checked and, in MIRROR, adopted into the built queue, LAST_CMD, budgets and shared memory. Operands: the blocks that arrive on the two Mirror Link lanes, and the arrival of the first data block in 0.25 ns of converter time. -/
  | pairTrainReceive (a b : List (BitVec 64)) (t : Nat)
  /-- MIRROR_PING_SEND (R418): On Mirror Link entry to DATA and every 1 s, 8 PING trains are sent to measure ML_DELAY. Operands: the departures of the 8 PINGs in 0.25 ns of L. -/
  | mirrorPingSend (ts : Vector Nat 8)
  /-- MIRROR_PING_RECEIVE (R418): A received PING is answered with a PING_REPLY carrying its turnaround time. Operands: the SOT block, its arrival, and the departure of the reply, both in 0.25 ns of L. -/
  | mirrorPingReceive (sot : BitVec 64) (t tx : Nat)
  /-- MIRROR_PING_REPLY_RECEIVE (R418): A PING_REPLY contributes to the ML_DELAY measurement. Operands: the SOT block, and its arrival in 0.25 ns of L. -/
  | mirrorPingReplyReceive (sot : BitVec 64) (t : Nat)
  /-- PARTNER_LOST (R421): No valid pair train for MIRROR_LOSS_FRAMES frames sets PARTNER_LOST and clears PAIR_LOCKED and SYNCED. -/
  | partnerLost
  /-- ARB_ACT_CHANGE (R423): A filtered change of ARB_ACT is accepted, counted, and sampled at the next D_k. Operands: the accepted level, and the instant in converter time. -/
  | arbActChange (level : Bool) (t : Nat)
  /-- SWAP_REQ (R435): A write of 0x01 to SWAP_REQ on the ACTIVE device drops ARB_ROLE to hand over, or is refused. Operands: the path. -/
  | swapReq (p : Path)
  /-- SWAP_TIMEOUT (R435): 1 ms without withdrawal of ARB_ACT ends the swap with SWAP_RESULT 5. -/
  | swapTimeout
  /-- FAULT_ACK (R442): A write of FAULT_ACK_HI after FAULT_ACK_LO acknowledges the named sources that are not active. Operands: the path and the word written to FAULT_ACK_HI. -/
  | faultAck (p : Path) (hi : Word)
  /-- FAULT_FORCE (R443): A write of FAULT_FORCE_HI after FAULT_FORCE_LO raises the named sources as forced occurrences. Operands: the path and the word written to FAULT_FORCE_HI. -/
  | faultForce (p : Path) (hi : Word)
  /-- SELF_TEST_E_DONE (R444): A word scrub and row march test completes as TRANSIENT or LASTING. Operands: both reads and the row march were free of errors. -/
  | selfTestEDone (good : Bool)
  /-- SELF_TEST_L_DONE (R444): The 16-frame shadow check of a lane completes against LANE_ST_THR. Operands: the lane and the faulty blocks its receiver counted. -/
  | selfTestLDone (lane : Nat) (blocks : Nat)
  /-- SELF_TEST_K_DONE (R444): The known-answer kernel of an engine completes and its signature is compared. Operands: the engine and whether the signature matched. -/
  | selfTestKDone (engine : Nat) (good : Bool)
  /-- SELF_TEST_SKIP (R444): An E test beyond the queue, or a K test not done within 65,536 frames, is skipped with ST_RESULT 7. Operands: the engine. -/
  | selfTestSkip (engine : Nat)
  /-- ECC_CORRECTED (R452): A read finds a correctable error, returns corrected data and latches ECC_CORR. Operands: the bank and the word. -/
  | eccCorrected (bank : Nat) (word : Nat)
  /-- ECC_UNCORRECTABLE (R452): A read finds an uncorrectable error and latches ECC_UNCORR with its C2 reaction. Operands: the bank, the word and its bits as they are stored. -/
  | eccUncorrectable (bank : Nat) (word : Nat) (bits : Word)
  /-- MARCH_REQUEST (R455): A MARCH_CTRL write with START = 1 starts a requested march of one bank, or is refused. Operands: the path and the word written to MARCH_CTRL. -/
  | marchRequest (p : Path) (v : Word)
  /-- MARCH_DONE (R455): A requested march completes as passed or failed, with row repair. Operands: the failing words found. -/
  | marchDone (words : List Nat)
  /-- MARCH_BG_ROW (R456): Every MARCH_BG_GAP_US the background march tests one row in preserving March SS. Operands: the correctable errors scrubbed and the first failing word of the row. -/
  | marchBgRow (corr : Nat) (fail : Option Nat)
  /-- BANK_WAKE_DONE (R450): A bank completes its wake from retention or its power-up from off, and waiting accesses proceed. Operands: the bank. -/
  | bankWakeDone (b : Nat)
  /-- BANK_RETENTION_ENTER (R450): A bank returns to retention after 1 µs without access while its owner calls for retention. Operands: the bank. -/
  | bankRetentionEnter (b : Nat)
  /-- TAMPER_ACCEPT (R460): A filtered TAMPER_N active level latches TAMPER and wipes the secure bank when enabled. Operands: the input. -/
  | tamperAccept (n : Nat)
  /-- SUPPLY_OUT_OF_RANGE (R458): VDD_CORE or VDD_SAFE outside 0.70 V to 0.90 V for 1 µs wipes the secure bank with cause 3. Operands: the supply: VDD_SAFE, or VDD_CORE. -/
  | supplyOutOfRange (safe : Bool)
  /-- TEMP_OUT_OF_RANGE (R458): Die temperature outside −50 °C to 140 °C wipes the secure bank with cause 4. -/
  | tempOutOfRange
  /-- KEY_INSTALL (R459): A 32-byte write to KEY_INSTALL stores the configuration key when the key is absent and the state allows. Operands: the path and the bytes written. -/
  | keyInstall (p : Path) (bytes : List Byte)
  /-- LC_REQ_PROVISION (R463): LC_REQ with target PROVISIONED requests the transition from BLANK after a provisioning boot. Operands: the path. -/
  | lcReqProvision (p : Path)
  /-- LC_REQ_DEPLOY (R463): LC_REQ with target DEPLOYED requests the transition from PROVISIONED with the key present. Operands: the path. -/
  | lcReqDeploy (p : Path)
  /-- LC_REQ_RETURN (R463): LC_REQ with target RETURNED requests the transition from PROVISIONED or DEPLOYED. Operands: the path. -/
  | lcReqReturn (p : Path)
  /-- LC_REQ_SCRAP (R463): LC_REQ with target SCRAPPED requests the transition from any state but SCRAPPED. Operands: the path. -/
  | lcReqScrap (p : Path)
  /-- LC_FUSE_DONE (R462): Fuse programming of a life-cycle transition completes, with the wipe and journal record. Operands: both fuses blew, or at least the primary one. -/
  | lcFuseDone (good : Bool) (primary : Bool)
  /-- COMPLETE (R469): A write to COMPLETE clears a level source's ACTIVE bit and re-pends it when the condition still holds. Operands: the path and the word written, group × 256 + bit. -/
  | complete (p : Path) (v : Word)
  /-- PEND_WRITE (R472): A write to a PEND register stores the word and counts a race for bits set since that path's last read. Operands: the path, the group and the word written. -/
  | pendWrite (p : Path) (g : Nat) (v : Word)
  /-- PEND_READ (R472): A read of a PEND register clears that path's race shadow. Operands: the path and the group. -/
  | pendRead (p : Path) (g : Nat)
  /-- HCLK_STOP (R473): HCLK shows no edge for 100 ns and IRQ_N is driven directly from the latches. -/
  | hclkStop
  /-- HCLK_RESUME (R473): The first HCLK edge after a stop moves the latches into PEND and registered operation resumes. -/
  | hclkResume
  /-- JOURNAL_RECORD_WRITE (R476): A staged journal record is written to the ring, or dropped when the ring is full. -/
  | journalRecordWrite
  /-- JRN_POP (R477): A write of n to JRN_POP frees the n oldest records, refused for 0 or too many. Operands: the path and the word written. -/
  | jrnPop (p : Path) (v : Word)
  /-- HOST_ACCESS (R482): A Host Port access begins when HCS_N is sampled low and ends at the HRDY edge. Operands: `wr`: a write; the byte address, the enabled bytes, the data, and the period of HCLK in ns. -/
  | hostAccess (wr : Bool) (addr : BitVec 22) (be : BitVec 4) (v : Word) (clk : Nat)
  /-- HOST_ACCESS_ABANDON (R485): HCS_N raised before the access ends abandons it and HP_ABANDON_CNT increments. -/
  | hostAccessAbandon
  /-- DICT_SERVICE (R489): The controller serves one queue entry under the per-frame budget, retiring a posted write or answering a read or SDO. -/
  | dictService
  /-- HP_FENCE_READ (R484): A read of HP_FENCE returns once every earlier Host Port write has retired. Operands: the period of HCLK in ns. -/
  | hpFenceRead (clk : Nat)
  /-- WIDE_LOW_READ (R9): Reading the low half of a 64-bit object latches its high half for that path. Operands: the path and the low half. -/
  | wideLowRead (p : Path) (key : Nat)
  /-- WIDE_HIGH_WRITE (R9): Writing the high half of a 64-bit object applies both halves together. Operands: the path, the high half and the word written. -/
  | wideHighWrite (p : Path) (key : Nat) (v : Word)
  /-- DOM_PTR_WRITE (R488): A write to DOM_PTR sets the DOMAIN byte pointer. Operands: the path and the value written. -/
  | domPtrWrite (p : Path) (v : Word)
  /-- DOMAIN_READ (R488): A DOMAIN sub read returns 4 bytes of the snapshot, taking a new snapshot at DOM_PTR = 0. Operands: the DOMAIN object. -/
  | domainRead (key : Nat)
  /-- DOMAIN_WRITE (R488): A DOMAIN sub write fills the Host Port DOMAIN buffer, opening it at DOM_PTR = 0. Operands: the DOMAIN object and the word written. -/
  | domainWrite (key : Nat) (v : Word)
  /-- DOM_END (R488): A write of the length to DOM_END applies the DOMAIN buffer to its object, or is refused with reason 8. Operands: the length written. -/
  | domEnd (v : Word)
  /-- OBJ_DATA_ACCESS (R486): A read or write of OBJ_DATA accesses the object selected by OBJ_SEL and reports OBJ_RESULT. Operands: the word written; `none` for a read. -/
  | objDataAccess (v : Option Word)
  /-- SDO_DOWNLOAD_INITIATE (R492): An SDO download initiate writes an expedited value or opens a segmented transfer. Operands: the object, whether it is expedited, the size, and the bytes in the request. -/
  | sdoDownloadInitiate (idx : BitVec 16) (sub : BitVec 8) (expedited : Bool) (size : Nat) (bytes : List Byte)
  /-- SDO_DOWNLOAD_SEGMENT (R488): An SDO download segment adds data, and the last segment applies the transfer. Operands: the toggle bit, whether it is the last segment, and its bytes. -/
  | sdoDownloadSegment (toggle last : Bool) (bytes : List Byte)
  /-- SDO_UPLOAD_INITIATE (R492): An SDO upload initiate returns an expedited value or takes a snapshot for segmented upload. Operands: the object. -/
  | sdoUploadInitiate (idx : BitVec 16) (sub : BitVec 8)
  /-- SDO_UPLOAD_SEGMENT (R492): An SDO upload segment returns the next bytes of the snapshot. Operands: the toggle bit. -/
  | sdoUploadSegment (toggle : Bool)
  /-- SDO_ABORT_RECEIVE (R492): An SDO abort from the master ends the open transfer. -/
  | sdoAbortReceive
  /-- SDO_UNSUPPORTED (R480): An SDO block transfer, complete access or non-CoE mailbox request is refused with its abort or error. Operands: `coe`: a block transfer or complete access, else another protocol. -/
  | sdoUnsupported (coe : Bool)
  /-- SDO_IDLE_TIMEOUT (R492): A segmented transfer idle for 1 s is aborted with 0x0504_0000. -/
  | sdoIdleTimeout
  /-- AL_REQ_INIT (R492): The master requests the field-network state INIT. -/
  | alReqInit
  /-- AL_REQ_PREOP (R492): The master requests the field-network state PRE-OP. -/
  | alReqPreop
  /-- AL_REQ_SAFEOP (R492): The master requests the field-network state SAFE-OP. -/
  | alReqSafeop
  /-- AL_REQ_OP (R493): The master requests OP, refused when an assigned PDO mapping is invalid. -/
  | alReqOp
  /-- RXPDO_RECEIVE (R495): A frame with a valid RxPDO writes every mapped object in one fabric cycle within 1,000 ns. Operands: the data received. -/
  | rxpdoReceive (bytes : List Byte)
  /-- PD_WATCHDOG_EXPIRE (R493): No RxPDO in OP for PD_WDT_MS sends the subdevice to SAFE-OP with AL status 0x001B. -/
  | pdWatchdogExpire
  /-- MDIO_POLL (R497): Every 10 ms each enabled PHY's register 1 is read for link status. Operands: bit 2 of register 1 of the PHYs of EN3 to EN0. -/
  | mdioPoll (links : BitVec 4)
  /-- MDIO_CMD (R497): MDIO_CMD with START = 1 runs one management frame, refused while a frame runs. Operands: the path and the word written. -/
  | mdioCmd (p : Path) (v : Word)
  /-- MDIO_FRAME_DONE (R497): A 25.6 µs management frame completes and MDIO_RESULT reads 2. Operands: the data read. -/
  | mdioFrameDone (data : BitVec 16)
  /-- TJ_SAMPLE (R511): Every 100 µs the die temperature is read, driving TEMP_HIGH, TEMP_CRIT and TJ_OVER_WARN_S. Operands: the die temperature in 0.25 °C. -/
  | tjSample (t : BitVec 16)
  /-- POWER_ESTIMATE (R510): Every millisecond the block power estimates and POWER_EST_MW are recomputed. Operands: what host and flash activity draws in mW, VDD_CORE and VDD_SAFE in mV, and the deviation of XTAL in ppb. -/
  | powerEstimate (io coreMv safeMv : Nat) (ppb : Int)
  /-- PLL_UNLOCK (R507): Loss of core PLL lock raises the fixed C3 source PLL_UNLOCK. -/
  | pllUnlock
  /-- XTAL_FAULT (R507): XTAL absent or outside ±200 ppm against the Watchtower oscillator raises XTAL_FAULT. Operands: the deviation in ppb. -/
  | xtalFault (ppb : Int)
  /-- EXTEST (R526): JTAG EXTEST is accepted only while RESET_N is held low, otherwise executed as BYPASS. -/
  | extest
  /-- IDCODE (R526): JTAG IDCODE returns 0x1940_1B2D. -/
  | idcode
  /-- SAMPLE_PRELOAD (R526): JTAG SAMPLE/PRELOAD captures and preloads the boundary cells. Operands: the boundary cells. -/
  | samplePreload (cells : List Word)
  /-- SYSRESET (R526): JTAG SYSRESET resets the device as RESET_N does, with RESET_CAUSE 3. Operands: BOOT_SEL as sampled. -/
  | sysreset (sel : BitVec 2)
  /-- BYPASS (R526): JTAG BYPASS selects the bypass register. -/
  | bypass
  /-- TAP_RESET (R526): TRST_N low, or 5 TCK cycles with TMS high, resets the TAP. -/
  | tapReset
  /-- TABLE_WRITE_DISCARD (R183): A Host Port write to a read-only table region is discarded and counted. Operands: the byte address. -/
  | tableWriteDiscard (addr : Nat)
  /-- REGISTER_WRITE (R532): A write to an object without a row of its own is checked by access, class and range, then staged or applied. Operands: `key` is index × 256 + sub. -/
  | registerWrite (p : Path) (key : Nat) (v : Word)
  /-- WT_ADCB_CALIBRATE (R396): While the Watchtower claims ADC-B it starts a calibration of ADC-B every 10 s. -/
  | wtAdcbCalibrate
  /-- SLS_TIMEOUT (R398): One PULSE input has had no edge for SLS_TIMEOUT_US while the other has had one, so an SLS discrepancy becomes present. Operands: the receiver. -/
  | slsTimeout (n : Nat)
  /-- PAR_WINDOW_EXPIRE (R407): In parallel mode, a safety PDU copy whose twin has not arrived within PAR_WINDOW_US is discarded and SD_PAR_MISMATCH_CNT increments. Operands: the connection. -/
  | parWindowExpire (c : Nat)
  /-- SGMII_SYNC_CHANGE (R497): The SGMII receiver of an EN port gains or loses synchronisation, which changes the port's up state and may increment LINK_DOWN_CNT. Operands: the port and its state. -/
  | sgmiiSyncChange (port : Fin 4) (sync : Bool)
  /-- SUPPLY_MON_CHANGE (R519): VDD_CORE leaves 0.760 V to 0.840 V for 1 µs, or returns to it, which starts or ends the fixed C3 level source SUPPLY_MON. Operands: VDD_CORE in mV. -/
  | supplyMonChange (mv : Nat)
  /-- TAMPER_RELEASE (R460): A TAMPER_N input's inactive level is accepted after TAMPER_FILT_US, which clears its bit in TAMPER_STATUS. Operands: the input. -/
  | tamperRelease (n : Nat)
  /-- CORE_PLL_RELOCK (R507): The core PLL regains lock, CORE_PLL_LOCK is set and the PLL_UNLOCK level source stops being active, so it can be acknowledged. -/
  | corePllRelock
  /-- XTAL_RECOVER (R507): XTAL returns within ±200 ppm against the Watchtower oscillator, XTAL_OK is set and the XTAL_FAULT level source stops being active. Operands: the deviation in ppb. -/
  | xtalRecover (ppb : Int)
  /-- LOOP_BLOCK_RECEIVE (R91): With lane 31 as its upstream port, the device receives 64 consecutive LOOP blocks and starts looping its received line bits back upstream within 1 µs. Operands: the consecutive LOOP blocks received with this one. -/
  | loopBlockReceive (run : Nat)
  deriving DecidableEq, Repr

end Sys2Proof
end

