-- ==== Sys2Proof/Decode.lean ====
section
/-! DEFINITION. The command a table word spells. The table of operations and events gives no row any bits: its `fields` are empty, and the
S9's commands are events at its ports and inside it, not words. So no word spells a command, and every word is answered with none. -/
namespace Sys2Proof

/-- The command that a word of the table's bits spells: none, as no row has bits. -/
def decodeTableWord (_nbits _w : Nat) : Option Instr := none

end Sys2Proof
end

