-- ==== Sys2Proof/Machine/Crypto.lean ====
section
/-! DEFINITION. The checks the chapters compute over bytes: CRC-32 (R60), CRC-32C and CRC-16 (R102), CRC-8 (R101), and HMAC-SHA-256 of the
configuration key (R61). -/
namespace Sys2Proof.Machine

/-! ### Reflected CRCs of 32 bits -/

/-- One bit of a reflected CRC with polynomial `poly` (given reflected). -/
def crcBit (poly c : Word) : Word := if c.getLsbD 0 then (c >>> 1) ^^^ poly else c >>> 1

/-- One byte. -/
def crcByte (poly : Word) (c : Word) (b : Byte) : Word :=
  let c0 := c ^^^ b.zeroExtend 32
  crcBit poly (crcBit poly (crcBit poly (crcBit poly (crcBit poly (crcBit poly (crcBit poly (crcBit poly c0)))))))

/-- A reflected CRC with initial value and final XOR 0xFFFFFFFF. -/
def crcRefl (poly : Word) (bs : List Byte) : Word := bs.foldl (crcByte poly) 0xFFFFFFFF ^^^ 0xFFFFFFFF

/-- CRC-32C: polynomial 0x1EDC6F41 (R102). -/
def crc32c (bs : List Byte) : Word := crcRefl 0x82F63B78 bs
/-- CRC-32: polynomial 0x04C11DB7 (R60). -/
def crc32 (bs : List Byte) : Word := crcRefl 0xEDB88320 bs

/-! ### CRC-8 of headers, couriers and beacons (R101) -/

/-- One bit of the CRC-8 with polynomial 0x2F, most significant bit first. -/
def crc8Bit (c : Byte) : Byte := if c.getLsbD 7 then (c <<< 1) ^^^ 0x2F else c <<< 1
def crc8Byte (c b : Byte) : Byte := Nat.repeat crc8Bit 8 (c ^^^ b)
/-- CRC-8 over bytes in order (R101). -/
def crc8 (bs : List Byte) : Byte := bs.foldl crc8Byte 0xFF ^^^ 0xFF

/-! ### CRC-16 of a caravan's groups (R102) -/

/-- One bit, the most significant first, with polynomial 0x1021. -/
def crc16Bit (c : BitVec 16) : BitVec 16 := if c.getLsbD 15 then (c <<< 1) ^^^ 0x1021 else c <<< 1
/-- One byte. -/
def crc16Byte (c : BitVec 16) (b : Byte) : BitVec 16 := Nat.repeat crc16Bit 8 (c ^^^ (b.zeroExtend 16 <<< 8))
/-- CRC-16 with initial value 0xFFFF and no final XOR (R102). -/
def crc16 (bs : List Byte) : BitVec 16 := bs.foldl crc16Byte 0xFFFF

/-! ### SHA-256 and HMAC (R61 names them; FIPS 180-4 and FIPS 198-1 define them) -/

/-- The greatest `r` below `2 ^ bits` above `r0` with `r ^ pow` at most `x`, bit by bit. -/
def rootBits (pow x : Nat) : Nat → Nat → Nat
  | 0, r => r
  | k + 1, r => rootBits pow x k (if (r + 2 ^ k) ^ pow ≤ x then r + 2 ^ k else r)

/-- The first 32 bits after the point of the `pow`-th root of a prime, which is below 32. -/
def rootWord (pow p : Nat) : Word := w32 (rootBits pow (p * 2 ^ (32 * pow)) 37 0)

/-- No smaller number from 2 on divides it. -/
def isPrime (n : Nat) : Bool := decide (2 ≤ n) && ((List.range n).drop 2).all fun d => decide (n % d ≠ 0)

/-- The first 64 primes, the last of which is 311. -/
def shaPrimes : List Nat := (List.range 312).filter isPrime

/-- One constant per round: from the cube roots of the primes. -/
def shaRoundWords : List Word := shaPrimes.map (rootWord 3)

/-- The exclusive or of rotations to the right. -/
def rotXor (x : Word) (l : List Nat) : Word := l.foldl (fun y n => y ^^^ x.rotateRight n) 0

/-- Message words, newest first, one longer: the 2nd, 7th, 15th and 16th last give the next. -/
def nextMessageWord (w : List Word) : List Word :=
  let at1 (n : Nat) : Word := w.getD (n - 1) 0
  (at1 16 + at1 7 + (rotXor (at1 15) [7, 18] ^^^ (at1 15 >>> 3)) + (rotXor (at1 2) [17, 19] ^^^ (at1 2 >>> 10))) :: w

/-- The words that the rounds have made, newest first: `hi` enters at the head of the working words, `lo` at their middle, and the four
newest of each are the working words. -/
structure ShaTrail where
  hi : List Word
  lo : List Word
  deriving DecidableEq, Repr

/-- One round with the sum of its constant and its message word. -/
def ShaTrail.round (t : ShaTrail) (kw : Word) : ShaTrail :=
  let x (n : Nat) : Word := t.hi.getD n 0
  let y (n : Nat) : Word := t.lo.getD n 0
  let pick := (y 0 &&& y 1) ||| (~~~(y 0) &&& y 2)
  let most := (x 0 &&& (x 1 ||| x 2)) ||| (x 1 &&& x 2)
  let sum := kw + y 3 + pick + rotXor (y 0) [6, 11, 25]
  { hi := (sum + most + rotXor (x 0) [2, 13, 22]) :: t.hi.take 3, lo := (sum + x 3) :: t.lo.take 3 }

/-- The trail before the first block: from the square roots of the first eight primes. -/
def shaStart : ShaTrail :=
  let l := (shaPrimes.take 8).map (rootWord 2)
  { hi := l.take 4, lo := l.drop 4 }

/-- One block of 16 words: 64 rounds, whose words are added to those before them. -/
def ShaTrail.block (t : ShaTrail) (m : List Word) : ShaTrail :=
  let w := (Nat.repeat nextMessageWord 48 m.reverse).reverse
  let r := (List.zipWith (· + ·) shaRoundWords w).foldl ShaTrail.round t
  { hi := List.zipWith (· + ·) t.hi r.hi, lo := List.zipWith (· + ·) t.lo r.lo }

/-- Consecutive pieces of `n` elements, the last one shorter. -/
def pieces {α : Type} (n : Nat) (l : List α) : List (List α) :=
  (List.range ((l.length + n - 1) / n)).map fun i => (l.drop (n * i)).take n

/-- SHA-256 of a byte string: a one bit, zeros and the length in bits fill the last block. -/
def sha256 (m : List Byte) : List Byte :=
  let zeros := (119 - m.length % 64) % 64
  let padded := m ++ 0x80 :: List.replicate zeros 0 ++ (leBytes 8 (8 * m.length)).reverse
  let words := (pieces 4 padded).map fun b => w32 (ofLeBytes b.reverse)
  let t := (pieces 16 words).foldl ShaTrail.block shaStart
  (t.hi ++ t.lo).flatMap fun w => (leBytes 4 w.toNat).reverse

/-- HMAC-SHA-256 under a key of at most 64 bytes. -/
def hmacSha256 (key m : List Byte) : List Byte :=
  let k := key ++ List.replicate (64 - key.length) 0
  sha256 (k.map (· ^^^ 0x5C) ++ sha256 (k.map (· ^^^ 0x36) ++ m))

end Sys2Proof.Machine
end

