-- ==== Sys2Proof/Config.lean ====
section
/-! DEFINITION. What one implementation fixes and the values the chapters leave open. Each constant here has no body, so
nothing can be proved about the value: a statement holds whatever it is. -/
namespace Sys2Proof.Config

/-- Free values: the n-th value the model draws where a chapter gives an effect but no value (log entry 3). -/
opaque freeWord : Nat → Word

/-- Impulse response of the low-pass of class M (R330) in 2^-30, by nominal frequency, reporting rate and distance from its middle: its
cut-off is not given (log entry 4). -/
opaque lowPass : Nat → Nat → Nat → Int

/-- Compensation of the gain and phase of the mean of an interval (R328), by nominal frequency, measured deviation in µHz and report: a
factor in 2^-30 and an angle in 2^-48 of a turn (log entry 4). -/
opaque meanComp : Nat → Int → Nat → Nat × Int

/-- How far a result of the estimator lies from the model's fixed-point value in its last place (R330), by result and report: one of
three codes standing for -1, 0 or 1 (log entry 4). -/
opaque phasorLsb : Nat → Nat → Nat

/-- A result of the estimator that lies outside its 32 bits (log entry 4). -/
opaque outOfRange : Int → Word

/-- How far the two poles of a notch's coefficients lie from the exact values before their rounding (R296), by F0, BW and T_F:
one of nine codes, its quotient and remainder by 3 standing for -1, 0 or 1 LSB of A1 and A2 (log entry 3). -/
opaque notchLsb : Nat → Nat → Nat → Nat

/-- How many pair trains back the spacing of the partner's ticks is measured, less 1 (R415): the measurement is not given (log entry 51). -/
opaque tickSpan : Nat

/-- How the coefficients in force correct a conversion's code (R356, R369): bit 0, the gain before the offset; bit 1, a code that is no whole
number goes to the next one. Neither is given (log entry 4). -/
opaque calOrder : Word → Nat → Nat

/-- SRAM leakage in mW at a die temperature in 0.25 °C, of banks that leak so many times 50 µW at 85 °C: the scaling is not given (R510,
log entry 4). -/
opaque leakAt : Nat → Int → Nat

/-- The object whose active copy (banks 168, 169) or staged copy (170, 171) a word of a dictionary bank holds (R449): their layout is not
given (log entry 147). -/
opaque dictKey : Nat → Nat → Option Nat

/-- FW_REV that the device reports as a grouped unit (R111): its chapters give no firmware revision (log entry 3). -/
opaque fwRev : Word

/-- The part is a VS9-4C-H (R1, R519). -/
opaque gradeH : Bool

/-- SERIAL of the device (1018.04). -/
opaque serial : Word

end Sys2Proof.Config
end

