-- ==== Sys2Proof/Machine/DictRows.lean ====
section
/-! DEFINITION. The object tables of all chapters (R6 to R8, R479, R532): per index range the subs with type, access,
commit class, reset value, own range and the bits that are not reserved. -/
namespace Sys2Proof.Machine

/-- Dictionary data types (R6). -/
inductive OTy where
  | u8 | u16 | u32 | s16 | s32 | q15 | q31 | enum8 | bool | domain
  deriving DecidableEq, Repr

/-- Access codes (R7). -/
inductive Acc where
  | ro | wo | rw
  deriving DecidableEq, Repr

/-- Commit classes (R8). -/
inductive Cls where
  | f | s | l | k
  deriving DecidableEq, Repr

/-- Reset values: a number, one number per instance, a number plus the place in the sub range, or one of the objects
whose value a chapter gives in words (MASK and LEVEL_MAP of R478, PRODUCT_CODE and SERIAL of R500). -/
inductive ODef where
  | val (n : Nat)
  | byInst (l : List Nat)
  | plusSub (n : Nat)
  | maskOf | levelMap | product | serial
  deriving DecidableEq, Repr

/-- An object's own range beyond its type (R532). -/
inductive Rng where
  | any
  | nat (lo hi : Nat)
  | natOr (lo hi other : Nat)
  | zeroOr (lo hi : Nat)
  | int (lo hi : Int)
  | step (lo hi st : Nat)
  | oneOf (l : List Nat)
  /-- Bit fields (msb, lsb) with the least and greatest code of each. -/
  | fields (l : List (Nat × Nat × Nat × Nat))
  /-- 0xFFFFFFFF, or a multiple of 8 (of 512) below 1 MiB. -/
  | shmOff
  | shmOff512
  /-- LANTERN_TRIG (R306): a beacon event of 0 to 63, and an edge where the probe condition is enabled. -/
  | trig
  /-- LANTERN_PROBE (R301): a listed KIND, and an address or node code that it can read. -/
  | probe
  /-- ACQ_CH_CFG (R345): a listed KIND, and a source in its range. -/
  | channel
  deriving DecidableEq, Repr

/-- One row of an object table. `bits` are the bits that are not reserved (R4). -/
structure ORow where
  lo : Nat
  hi : Nat
  ty : OTy
  acc : Acc
  cls : Cls
  dflt : ODef
  rng : Rng
  bits : Nat
  deriving DecidableEq, Repr

/-- The rows of `n` consecutive indices from `base` on. -/
structure OIndex where
  base : Nat
  n : Nat
  rows : List ORow
  deriving DecidableEq, Repr

/-- Objects of chapter 02. Re-arming MIN_SLACK_NS takes 0 alone (R40, log entry 158). -/
def dictRows02 : List OIndex :=
  [⟨0x2100, 1,
    [⟨0x00, 0x00, .u8, .ro, .f, .val 3, .any, 0xFFFFFFFF⟩,
     ⟨0x01, 0x01, .u32, .ro, .f, .val 0x0, .any, 0xFFFFFFFF⟩,
     ⟨0x02, 0x02, .u32, .ro, .f, .val 0x0, .any, 0xFFFFFFFF⟩,
     ⟨0x03, 0x03, .u32, .ro, .f, .val 0x0, .any, 0xFFFFFFFF⟩]⟩,
   ⟨0x2101, 1,
    [⟨0x00, 0x00, .u8, .ro, .f, .val 4, .any, 0xFFFFFFFF⟩,
     ⟨0x01, 0x01, .u32, .rw, .s, .val 0x3E8, .step 500 25000 10, 0xFFFFFFFF⟩,
     ⟨0x02, 0x02, .u32, .rw, .s, .val 0x0, .any, 0xFFFFFFFF⟩,
     ⟨0x03, 0x03, .u8, .rw, .s, .val 0x0, .any, 0xFFFFFFFF⟩,
     ⟨0x04, 0x04, .u32, .rw, .s, .val 0x0, .any, 0xFFFFFFFF⟩]⟩,
   ⟨0x2102, 1,
    [⟨0x00, 0x00, .u8, .ro, .f, .val 6, .any, 0xFFFFFFFF⟩,
     ⟨0x01, 0x01, .u32, .ro, .f, .val 0x3E8, .any, 0xFFFFFFFF⟩,
     ⟨0x02, 0x02, .u32, .ro, .f, .val 0x226, .any, 0xFFFFFFFF⟩,
     ⟨0x03, 0x03, .u8, .ro, .f, .val 0x2, .any, 0xFFFFFFFF⟩,
     ⟨0x04, 0x04, .u32, .ro, .f, .val 0x0, .any, 0xFFFFFFFF⟩,
     ⟨0x05, 0x05, .s32, .ro, .f, .val 0x0, .any, 0xFFFFFFFF⟩,
     ⟨0x06, 0x06, .u16, .ro, .f, .val 0x800, .any, 0xFFFFFFFF⟩]⟩,
   ⟨0x2103, 1,
    [⟨0x00, 0x00, .u8, .ro, .f, .val 12, .any, 0xFFFFFFFF⟩,
     ⟨0x01, 0x0C, .u32, .rw, .l, .val 0x0, .oneOf [0], 0xFFFFFFFF⟩]⟩,
   ⟨0x2104, 1,
    [⟨0x00, 0x00, .u8, .ro, .f, .val 5, .any, 0xFFFFFFFF⟩,
     ⟨0x01, 0x01, .u32, .rw, .l, .val 0x0, .oneOf [0], 0xFFFFFFFF⟩,
     ⟨0x02, 0x02, .u32, .rw, .l, .val 0x0, .oneOf [0], 0xFFFFFFFF⟩,
     ⟨0x03, 0x03, .u32, .rw, .l, .val 0x0, .oneOf [0], 0xFFFFFFFF⟩,
     ⟨0x04, 0x04, .u32, .rw, .l, .val 0x0, .oneOf [0], 0xFFFFFFFF⟩,
     ⟨0x05, 0x05, .u32, .rw, .l, .val 0x0, .oneOf [0], 0xFFFFFFFF⟩]⟩,
   ⟨0x2105, 1,
    [⟨0x00, 0x00, .u8, .ro, .f, .val 8, .any, 0xFFFFFFFF⟩,
     ⟨0x01, 0x01, .u32, .ro, .f, .val 0x0, .any, 0xFFFFFFFF⟩,
     ⟨0x02, 0x02, .u8, .ro, .f, .val 0x0, .any, 0xFFFFFFFF⟩,
     ⟨0x03, 0x03, .u32, .ro, .f, .val 0x0, .any, 0xFFFFFFFF⟩,
     ⟨0x04, 0x04, .u16, .ro, .f, .val 0x0, .any, 0xFFFFFFFF⟩,
     ⟨0x05, 0x05, .u16, .ro, .f, .val 0x0, .any, 0xFFFFFFFF⟩,
     ⟨0x06, 0x06, .u16, .ro, .f, .val 0x0, .any, 0xFFFFFFFF⟩,
     ⟨0x07, 0x07, .u16, .ro, .f, .val 0x0, .any, 0xFFFFFFFF⟩,
     ⟨0x08, 0x08, .u16, .ro, .f, .val 0x0, .any, 0xFFFFFFFF⟩]⟩,
   ⟨0x2106, 1,
    [⟨0x00, 0x00, .u8, .ro, .f, .val 1, .any, 0xFFFFFFFF⟩,
     ⟨0x01, 0x01, .s32, .rw, .l, .val 0x7FFFFFFF, .oneOf [0], 0xFFFFFFFF⟩]⟩]

/-- Objects of chapter 03. -/
def dictRows03 : List OIndex :=
  [⟨0x2000, 1,
    [⟨0x00, 0x00, .u8, .ro, .f, .val 9, .any, 0xFFFFFFFF⟩,
     ⟨0x01, 0x01, .enum8, .ro, .f, .val 0x0, .any, 0xFFFFFFFF⟩,
     ⟨0x02, 0x02, .enum8, .ro, .f, .val 0x0, .any, 0xFFFFFFFF⟩,
     ⟨0x03, 0x03, .enum8, .rw, .l, .val 0xFF, .oneOf [0,1,2,3,4,5,6,7,255], 0xFFFFFFFF⟩,
     ⟨0x04, 0x04, .enum8, .ro, .f, .val 0x0, .any, 0xFFFFFFFF⟩,
     ⟨0x05, 0x05, .u32, .ro, .f, .val 0x0, .any, 0xFFFFFFFF⟩,
     ⟨0x06, 0x06, .u32, .ro, .f, .val 0x0, .any, 0xFFFFFFFF⟩,
     ⟨0x07, 0x07, .enum8, .ro, .f, .val 0x0, .any, 0xFFFFFFFF⟩,
     ⟨0x08, 0x08, .u8, .wo, .l, .val 0x0, .oneOf [1], 0xFFFFFFFF⟩,
     ⟨0x09, 0x09, .u32, .ro, .f, .val 0x10, .any, 0xFFFFFFFF⟩]⟩,
   ⟨0x2001, 1,
    [⟨0x00, 0x00, .u8, .ro, .f, .val 8, .any, 0xFFFFFFFF⟩,
     ⟨0x01, 0x01, .u32, .wo, .l, .val 0x0, .any, 0xFFFFFFFF⟩,
     ⟨0x02, 0x02, .u32, .ro, .f, .val 0x0, .any, 0xFFFFFFFF⟩,
     ⟨0x03, 0x03, .enum8, .ro, .f, .val 0x0, .any, 0xFFFFFFFF⟩,
     ⟨0x04, 0x04, .enum8, .ro, .f, .val 0x0, .any, 0xFFFFFFFF⟩,
     ⟨0x05, 0x05, .u32, .ro, .f, .val 0x0, .any, 0xFFFFFFFF⟩,
     ⟨0x06, 0x06, .u32, .ro, .f, .val 0x0, .any, 0xFFFFFFFF⟩,
     ⟨0x07, 0x07, .u32, .ro, .f, .val 0x0, .any, 0xFFFFFFFF⟩,
     ⟨0x08, 0x08, .u32, .rw, .l, .val 0x0, .oneOf [0], 0xFFFFFFFF⟩]⟩,
   ⟨0x2002, 1,
    [⟨0x00, 0x00, .u8, .ro, .f, .val 8, .any, 0xFFFFFFFF⟩,
     ⟨0x01, 0x01, .enum8, .ro, .f, .val 0x1, .any, 0xFFFFFFFF⟩,
     ⟨0x02, 0x02, .enum8, .ro, .f, .val 0x0, .any, 0xFFFFFFFF⟩,
     ⟨0x03, 0x03, .u32, .ro, .f, .val 0x0, .any, 0xFFFFFFFF⟩,
     ⟨0x04, 0x04, .u32, .ro, .f, .val 0xFFFFFFFF, .any, 0xFFFFFFFF⟩,
     ⟨0x05, 0x05, .u32, .ro, .f, .val 0xFFFFFFFF, .any, 0xFFFFFFFF⟩,
     ⟨0x06, 0x06, .u8, .ro, .f, .val 0x0, .any, 0xFFFFFFFF⟩,
     ⟨0x07, 0x07, .u32, .ro, .f, .val 0x0, .any, 0xFFFFFFFF⟩,
     ⟨0x08, 0x08, .u8, .ro, .f, .val 0x0, .any, 0xFFFFFFFF⟩]⟩,
   ⟨0x2003, 1,
    [⟨0x00, 0x00, .u8, .ro, .f, .val 12, .any, 0xFFFFFFFF⟩,
     ⟨0x01, 0x01, .u16, .rw, .s, .val 0xA, .any, 0xFFFFFFFF⟩,
     ⟨0x02, 0x02, .u32, .rw, .s, .val 0x0, .any, 0xFFFFFFFF⟩,
     ⟨0x03, 0x03, .u16, .rw, .s, .val 0x0, .any, 0xFFFFFFFF⟩,
     ⟨0x04, 0x04, .u32, .rw, .s, .val 0x3E8, .any, 0xFFFFFFFF⟩,
     ⟨0x05, 0x05, .u8, .rw, .s, .val 0x0, .any, 0x3⟩,
     ⟨0x06, 0x06, .u16, .rw, .s, .val 0xFFFF, .any, 0xFFFFFFFF⟩,
     ⟨0x07, 0x07, .q15, .rw, .s, .val 0x7FFF, .any, 0xFFFFFFFF⟩,
     ⟨0x08, 0x08, .u32, .rw, .s, .val 0x30D40, .any, 0xFFFFFFFF⟩,
     ⟨0x09, 0x09, .u32, .rw, .s, .val 0x2710, .any, 0xFFFFFFFF⟩,
     ⟨0x0A, 0x0A, .enum8, .wo, .l, .val 0x0, .nat 1 3, 0xFFFFFFFF⟩,
     ⟨0x0B, 0x0B, .u16, .rw, .k, .val 0x32, .any, 0xFFFFFFFF⟩,
     ⟨0x0C, 0x0C, .bool, .rw, .s, .val 0x0, .any, 0xFFFFFFFF⟩]⟩,
   ⟨0x2004, 1,
    [⟨0x00, 0x00, .u8, .ro, .f, .val 4, .any, 0xFFFFFFFF⟩,
     ⟨0x01, 0x01, .enum8, .wo, .l, .val 0x0, .nat 1 6, 0xFFFFFFFF⟩,
     ⟨0x02, 0x02, .u32, .rw, .l, .val 0x0, .any, 0xFFFFFFFF⟩,
     ⟨0x03, 0x03, .u32, .wo, .l, .val 0x0, .any, 0xFFFFFFFF⟩,
     ⟨0x04, 0x04, .enum8, .ro, .f, .val 0x0, .any, 0xFFFFFFFF⟩]⟩]

/-- Objects of chapter 04. -/
def dictRows04 : List OIndex :=
  [⟨0x2200, 38,
    [⟨0x00, 0x00, .u8, .ro, .f, .val 12, .any, 0xFFFFFFFF⟩,
     ⟨0x01, 0x01, .u32, .rw, .l, .val 0x0, .any, 0x1FFF⟩,
     ⟨0x02, 0x02, .u32, .ro, .f, .val 0x0, .any, 0xFFFFFFFF⟩,
     ⟨0x03, 0x03, .u32, .rw, .l, .val 0x0, .oneOf [0], 0xFFFFFFFF⟩,
     ⟨0x04, 0x04, .u32, .rw, .l, .val 0x0, .oneOf [0], 0xFFFFFFFF⟩,
     ⟨0x05, 0x05, .u32, .rw, .l, .val 0x0, .oneOf [0], 0xFFFFFFFF⟩,
     ⟨0x06, 0x06, .u32, .rw, .l, .val 0x0, .oneOf [0], 0xFFFFFFFF⟩,
     ⟨0x07, 0x07, .u32, .ro, .f, .val 0x0, .any, 0xFFFFFFFF⟩,
     ⟨0x08, 0x08, .u32, .ro, .f, .val 0x0, .any, 0xFFFFFFFF⟩,
     ⟨0x09, 0x09, .u32, .rw, .l, .val 0x0, .oneOf [0], 0xFFFFFFFF⟩,
     ⟨0x0A, 0x0A, .u32, .rw, .l, .val 0x0, .oneOf [0], 0xFFFFFFFF⟩,
     ⟨0x0B, 0x0B, .u32, .rw, .s, .val 0xC40, .fields [(15,8,0,12)], 0xFFFF⟩,
     ⟨0x0C, 0x0C, .u32, .rw, .l, .val 0x0, .oneOf [0], 0xFFFFFFFF⟩]⟩,
   ⟨0x2230, 1,
    [⟨0x00, 0x00, .u8, .ro, .f, .val 4, .any, 0xFFFFFFFF⟩,
     ⟨0x01, 0x01, .u32, .ro, .f, .val 0x0, .any, 0xFFFFFFFF⟩,
     ⟨0x02, 0x02, .u32, .ro, .f, .val 0x0, .any, 0xFFFFFFFF⟩,
     ⟨0x03, 0x03, .u8, .ro, .f, .val 0x0, .any, 0xFFFFFFFF⟩,
     ⟨0x04, 0x04, .u32, .rw, .l, .val 0x0, .oneOf [0], 0xFFFFFFFF⟩]⟩]

/-- Objects of chapter 05. -/
def dictRows05 : List OIndex :=
  [⟨0x2240, 32,
    [⟨0x00, 0x00, .u8, .ro, .f, .val 18, .any, 0xFFFFFFFF⟩,
     ⟨0x01, 0x01, .u32, .ro, .f, .val 0x0, .any, 0xFFFFFFFF⟩,
     ⟨0x02, 0x02, .u32, .ro, .f, .val 0x0, .any, 0xFFFFFFFF⟩,
     ⟨0x03, 0x03, .u16, .ro, .f, .val 0x0, .any, 0xFFFFFFFF⟩,
     ⟨0x04, 0x04, .enum8, .ro, .f, .val 0x0, .any, 0xFFFFFFFF⟩,
     ⟨0x05, 0x05, .u32, .ro, .f, .val 0x0, .any, 0xFFFFFFFF⟩,
     ⟨0x06, 0x06, .enum8, .wo, .l, .val 0x0, .nat 1 3, 0xFFFFFFFF⟩,
     ⟨0x07, 0x07, .u32, .rw, .l, .val 0x0, .oneOf [0], 0xFFFFFFFF⟩,
     ⟨0x08, 0x08, .u32, .rw, .l, .val 0x0, .oneOf [0], 0xFFFFFFFF⟩,
     ⟨0x09, 0x09, .u32, .rw, .l, .val 0x0, .oneOf [0], 0xFFFFFFFF⟩,
     ⟨0x0A, 0x0A, .u32, .rw, .l, .val 0x0, .oneOf [0], 0xFFFFFFFF⟩,
     ⟨0x0B, 0x0B, .u32, .rw, .l, .val 0x0, .oneOf [0], 0xFFFFFFFF⟩,
     ⟨0x0C, 0x0C, .u32, .rw, .l, .val 0x0, .oneOf [0], 0xFFFFFFFF⟩,
     ⟨0x0D, 0x0D, .u32, .rw, .l, .val 0x0, .oneOf [0], 0xFFFFFFFF⟩,
     ⟨0x0E, 0x0E, .u32, .rw, .l, .val 0x0, .oneOf [0], 0xFFFFFFFF⟩,
     ⟨0x0F, 0x0F, .u32, .rw, .l, .val 0x0, .oneOf [0], 0xFFFFFFFF⟩,
     ⟨0x10, 0x10, .u32, .rw, .l, .val 0x0, .oneOf [0], 0xFFFFFFFF⟩,
     ⟨0x11, 0x11, .u32, .rw, .l, .val 0x0, .oneOf [0], 0xFFFFFFFF⟩,
     ⟨0x12, 0x12, .u32, .ro, .f, .val 0x0, .any, 0xFFFFFFFF⟩]⟩,
   ⟨0x2280, 1,
    [⟨0x00, 0x00, .u8, .ro, .f, .val 7, .any, 0xFFFFFFFF⟩,
     ⟨0x01, 0x01, .u8, .rw, .s, .val 0x8, .nat 4 16, 0xFFFFFFFF⟩,
     ⟨0x02, 0x02, .u8, .rw, .s, .val 0x8, .any, 0xFFFFFFFF⟩,
     ⟨0x03, 0x03, .u16, .rw, .s, .val 0x32, .any, 0xFFFFFFFF⟩,
     ⟨0x04, 0x04, .u16, .rw, .s, .val 0x40, .any, 0xFFFFFFFF⟩,
     ⟨0x05, 0x05, .bool, .rw, .s, .val 0x1, .any, 0xFFFFFFFF⟩,
     ⟨0x06, 0x06, .bool, .rw, .s, .val 0x1, .any, 0xFFFFFFFF⟩,
     ⟨0x07, 0x07, .u8, .rw, .s, .val 0x8, .any, 0xFFFFFFFF⟩]⟩,
   ⟨0x2281, 1,
    [⟨0x00, 0x00, .u8, .ro, .f, .val 5, .any, 0xFFFFFFFF⟩,
     ⟨0x01, 0x01, .bool, .rw, .s, .val 0x0, .any, 0xFFFFFFFF⟩,
     ⟨0x02, 0x02, .u8, .rw, .s, .val 0x4, .step 4 64 4, 0xFFFFFFFF⟩,
     ⟨0x03, 0x03, .u32, .rw, .s, .val 0x0, .any, 0xFFFFFFFF⟩,
     ⟨0x04, 0x04, .u32, .rw, .s, .val 0x0, .any, 0xFFFFFFFF⟩,
     ⟨0x05, 0x05, .u8, .ro, .f, .val 0x0, .any, 0xFFFFFFFF⟩]⟩,
   ⟨0x2282, 1,
    [⟨0x00, 0x00, .u8, .ro, .f, .val 16, .any, 0xFFFFFFFF⟩,
     ⟨0x01, 0x10, .u32, .rw, .s, .val 0x0, .step 0 1048192 8, 0xFFFFFFFF⟩]⟩,
   ⟨0x2283, 1,
    [⟨0x00, 0x00, .u8, .ro, .f, .val 2, .any, 0xFFFFFFFF⟩,
     ⟨0x01, 0x01, .domain, .ro, .l, .val 0x0, .any, 0xFFFFFFFF⟩,
     ⟨0x02, 0x02, .u8, .ro, .f, .val 0x0, .any, 0xFFFFFFFF⟩]⟩,
   ⟨0x2284, 1,
    [⟨0x00, 0x00, .u8, .ro, .f, .val 3, .any, 0xFFFFFFFF⟩,
     ⟨0x01, 0x01, .u8, .rw, .l, .val 0x0, .nat 0 31, 0xFFFFFFFF⟩,
     ⟨0x02, 0x02, .domain, .rw, .s, .val 0x0, .any, 0xFFFFFFFF⟩,
     ⟨0x03, 0x03, .domain, .ro, .l, .val 0x0, .any, 0xFFFFFFFF⟩]⟩]

/-- Objects of chapter 06. -/
def dictRows06 : List OIndex :=
  [⟨0x22A0, 1,
    [⟨0x00, 0x00, .u8, .ro, .f, .val 32, .any, 0xFFFFFFFF⟩,
     ⟨0x01, 0x20, .s16, .rw, .s, .val 0x0, .int (-4000) 4000, 0xFFFFFFFF⟩]⟩,
   ⟨0x22A1, 1,
    [⟨0x00, 0x00, .u8, .ro, .f, .val 4, .any, 0xFFFFFFFF⟩,
     ⟨0x01, 0x01, .u8, .rw, .s, .val 0x4, .nat 2 64, 0xFFFFFFFF⟩,
     ⟨0x02, 0x02, .enum8, .wo, .l, .val 0x0, .nat 2 3, 0xFFFFFFFF⟩,
     ⟨0x03, 0x03, .u32, .rw, .l, .val 0xFFFFFFFF, .any, 0xFFFFFFFF⟩,
     ⟨0x04, 0x04, .enum8, .ro, .f, .val 0x0, .any, 0xFFFFFFFF⟩]⟩,
   ⟨0x22A2, 1,
    [⟨0x00, 0x00, .u8, .ro, .f, .val 6, .any, 0xFFFFFFFF⟩,
     ⟨0x01, 0x01, .u32, .rw, .l, .val 0x0, .oneOf [0], 0xFFFFFFFF⟩,
     ⟨0x02, 0x02, .u32, .rw, .l, .val 0x0, .oneOf [0], 0xFFFFFFFF⟩,
     ⟨0x03, 0x03, .u32, .rw, .l, .val 0x0, .oneOf [0], 0xFFFFFFFF⟩,
     ⟨0x04, 0x04, .u16, .ro, .f, .val 0x0, .any, 0xFFFFFFFF⟩,
     ⟨0x05, 0x05, .u16, .rw, .l, .val 0x0, .oneOf [0], 0xFFFFFFFF⟩,
     ⟨0x06, 0x06, .u32, .ro, .f, .val 0x0, .any, 0xFFFFFFFF⟩]⟩,
   ⟨0x22A3, 1,
    [⟨0x00, 0x00, .u8, .ro, .f, .val 4, .any, 0xFFFFFFFF⟩,
     ⟨0x01, 0x01, .u8, .rw, .s, .val 0x0, .nat 0 126, 0xFFFFFFFF⟩,
     ⟨0x02, 0x02, .u32, .rw, .s, .val 0x0, .any, 0xFFFFFFFF⟩,
     ⟨0x03, 0x03, .u8, .rw, .s, .val 0x0, .any, 0x7⟩,
     ⟨0x04, 0x04, .u8, .wo, .l, .val 0x0, .nat 0 63, 0xFFFFFFFF⟩]⟩,
   ⟨0x22A4, 1,
    [⟨0x00, 0x00, .u8, .ro, .f, .val 64, .any, 0xFFFFFFFF⟩,
     ⟨0x01, 0x40, .u32, .rw, .s, .val 0x0, .nat 0 100000, 0xFFFFFFFF⟩]⟩,
   ⟨0x22A5, 1,
    [⟨0x00, 0x00, .u8, .ro, .f, .val 6, .any, 0xFFFFFFFF⟩,
     ⟨0x01, 0x01, .u32, .rw, .l, .val 0x0, .oneOf [0], 0xFFFFFFFF⟩,
     ⟨0x02, 0x02, .u32, .rw, .l, .val 0x0, .oneOf [0], 0xFFFFFFFF⟩,
     ⟨0x03, 0x03, .u32, .rw, .l, .val 0x0, .oneOf [0], 0xFFFFFFFF⟩,
     ⟨0x04, 0x04, .u32, .rw, .l, .val 0x0, .oneOf [0], 0xFFFFFFFF⟩,
     ⟨0x05, 0x05, .u32, .rw, .l, .val 0x0, .oneOf [0], 0xFFFFFFFF⟩,
     ⟨0x06, 0x06, .u32, .rw, .l, .val 0x0, .oneOf [0], 0xFFFFFFFF⟩]⟩,
   ⟨0x22A6, 1,
    [⟨0x00, 0x00, .u8, .ro, .f, .val 10, .any, 0xFFFFFFFF⟩,
     ⟨0x01, 0x01, .u8, .rw, .s, .val 0x0, .any, 0x3⟩,
     ⟨0x02, 0x02, .u8, .rw, .s, .val 0x0, .nat 0 63, 0xFFFFFFFF⟩,
     ⟨0x03, 0x03, .u16, .rw, .s, .val 0x20, .nat 0 1000, 0xFFFFFFFF⟩,
     ⟨0x04, 0x04, .u32, .rw, .s, .val 0x0, .nat 0 100000, 0xFFFFFFFF⟩,
     ⟨0x05, 0x05, .u32, .rw, .s, .val 0x0, .any, 0xFFFFFFFF⟩,
     ⟨0x06, 0x06, .u32, .rw, .s, .val 0x0, .any, 0xFFFFFFFF⟩,
     ⟨0x07, 0x07, .u32, .rw, .s, .val 0x0, .nat 0 100000, 0xFFFFFFFF⟩,
     ⟨0x08, 0x08, .u32, .rw, .s, .val 0x3E8, .nat 10 1000000, 0xFFFFFFFF⟩,
     ⟨0x09, 0x09, .bool, .rw, .s, .val 0x0, .any, 0xFFFFFFFF⟩,
     ⟨0x0A, 0x0A, .u32, .rw, .l, .val 0x0, .oneOf [0], 0xFFFFFFFF⟩]⟩,
   ⟨0x22A7, 1,
    [⟨0x00, 0x00, .u8, .ro, .f, .val 4, .any, 0xFFFFFFFF⟩,
     ⟨0x01, 0x01, .u32, .rw, .l, .val 0x0, .oneOf [0], 0xFFFFFFFF⟩,
     ⟨0x02, 0x02, .u32, .rw, .l, .val 0x0, .oneOf [0], 0xFFFFFFFF⟩,
     ⟨0x03, 0x03, .u32, .rw, .l, .val 0x0, .oneOf [0], 0xFFFFFFFF⟩,
     ⟨0x04, 0x04, .u32, .rw, .l, .val 0x0, .oneOf [0], 0xFFFFFFFF⟩]⟩]

/-- Objects of chapter 07. -/
def dictRows07 : List OIndex :=
  [⟨0x2300, 1,
    [⟨0x00, 0x00, .u8, .ro, .f, .val 8, .any, 0xFFFFFFFF⟩,
     ⟨0x01, 0x01, .u16, .rw, .s, .val 0xFFFF, .any, 0xFFFFFFFF⟩,
     ⟨0x02, 0x02, .u16, .rw, .s, .val 0x0, .any, 0xFFFFFFFF⟩,
     ⟨0x03, 0x03, .u16, .rw, .s, .val 0x9C00, .any, 0xBDC0⟩,
     ⟨0x04, 0x04, .u16, .rw, .s, .val 0x8400, .any, 0xBDC0⟩,
     ⟨0x05, 0x05, .u8, .rw, .s, .val 0x8, .nat 0 15, 0xFFFFFFFF⟩,
     ⟨0x06, 0x06, .u8, .rw, .s, .val 0x10, .nat 1 64, 0xFFFFFFFF⟩,
     ⟨0x07, 0x07, .u8, .rw, .s, .val 0x2, .nat 0 64, 0xFFFFFFFF⟩,
     ⟨0x08, 0x08, .u16, .rw, .s, .val 0x3E8, .zeroOr 16 4000, 0xFFFFFFFF⟩]⟩,
   ⟨0x2301, 1,
    [⟨0x00, 0x00, .u8, .ro, .f, .val 3, .any, 0xFFFFFFFF⟩,
     ⟨0x01, 0x01, .u16, .rw, .l, .val 0x0, .any, 0xFFFFFFFF⟩,
     ⟨0x02, 0x02, .enum8, .wo, .l, .val 0x0, .nat 1 3, 0xFFFFFFFF⟩,
     ⟨0x03, 0x03, .enum8, .ro, .f, .val 0x0, .any, 0xFFFFFFFF⟩]⟩,
   ⟨0x2302, 1,
    [⟨0x00, 0x00, .u8, .ro, .f, .val 2, .any, 0xFFFFFFFF⟩,
     ⟨0x01, 0x01, .u16, .rw, .l, .val 0x0, .nat 0 12287, 0xFFFFFFFF⟩,
     ⟨0x02, 0x02, .u32, .rw, .s, .val 0x0, .step 0 4294950912 16384, 0xFFFFFFFF⟩]⟩,
   ⟨0x2303, 1,
    [⟨0x00, 0x00, .u8, .ro, .f, .val 12, .any, 0xFFFFFFFF⟩,
     ⟨0x01, 0x0C, .u32, .ro, .f, .val 0x0, .any, 0xFFFFFFFF⟩]⟩,
   ⟨0x2304, 1,
    [⟨0x00, 0x00, .u8, .ro, .f, .val 12, .any, 0xFFFFFFFF⟩,
     ⟨0x01, 0x0C, .u32, .ro, .f, .val 0x0, .any, 0xFFFFFFFF⟩]⟩,
   ⟨0x2305, 1,
    [⟨0x00, 0x00, .u8, .ro, .f, .val 5, .any, 0xFFFFFFFF⟩,
     ⟨0x01, 0x01, .u32, .rw, .l, .val 0x0, .oneOf [0], 0xFFFFFFFF⟩,
     ⟨0x02, 0x02, .u32, .rw, .l, .val 0x0, .oneOf [0], 0xFFFFFFFF⟩,
     ⟨0x03, 0x03, .u16, .ro, .f, .val 0x0, .any, 0xFFFFFFFF⟩,
     ⟨0x04, 0x04, .u16, .ro, .f, .val 0x0, .any, 0xFFFFFFFF⟩,
     ⟨0x05, 0x05, .u32, .rw, .l, .val 0x0, .oneOf [0], 0xFFFFFFFF⟩]⟩]

/-- Objects of chapter 08. -/
def dictRows08 : List OIndex :=
  [⟨0x2400, 12,
    [⟨0x00, 0x00, .u8, .ro, .f, .val 7, .any, 0xFFFFFFFF⟩,
     ⟨0x01, 0x01, .u32, .rw, .s, .val 0x0, .any, 0xFFFFFFFF⟩,
     ⟨0x02, 0x02, .enum8, .rw, .s, .val 0x0, .nat 0 2, 0xFFFFFFFF⟩,
     ⟨0x03, 0x03, .u16, .rw, .s, .val 0x0, .any, 0xFFFFFFFF⟩,
     ⟨0x04, 0x04, .u16, .rw, .s, .val 0x800, .nat 0 2048, 0xFFFFFFFF⟩,
     ⟨0x05, 0x05, .u8, .rw, .s, .val 0x0, .nat 0 200, 0xFFFFFFFF⟩,
     ⟨0x06, 0x06, .bool, .rw, .s, .val 0x0, .any, 0xFFFFFFFF⟩,
     ⟨0x07, 0x07, .bool, .rw, .k, .val 0x0, .any, 0xFFFFFFFF⟩]⟩,
   ⟨0x2410, 12,
    [⟨0x00, 0x00, .u8, .ro, .f, .val 13, .any, 0xFFFFFFFF⟩,
     ⟨0x01, 0x01, .q31, .rw, .l, .val 0x0, .any, 0xFFFFFFFF⟩,
     ⟨0x02, 0x02, .q31, .ro, .f, .val 0x0, .any, 0xFFFFFFFF⟩,
     ⟨0x03, 0x03, .q31, .ro, .f, .val 0x0, .any, 0xFFFFFFFF⟩,
     ⟨0x04, 0x04, .u32, .ro, .f, .val 0x0, .any, 0xFFFFFFFF⟩,
     ⟨0x05, 0x05, .s16, .ro, .f, .val 0x0, .any, 0xFFFFFFFF⟩,
     ⟨0x06, 0x06, .u16, .ro, .f, .val 0x0, .any, 0xFFFFFFFF⟩,
     ⟨0x07, 0x07, .s16, .ro, .f, .val 0x0, .any, 0xFFFFFFFF⟩,
     ⟨0x08, 0x08, .u16, .ro, .f, .val 0x0, .any, 0xFFFFFFFF⟩,
     ⟨0x09, 0x09, .u32, .ro, .f, .val 0x0, .any, 0xFFFFFFFF⟩,
     ⟨0x0A, 0x0A, .u32, .rw, .l, .val 0x0, .oneOf [0], 0xFFFFFFFF⟩,
     ⟨0x0B, 0x0B, .u32, .rw, .l, .val 0x0, .oneOf [0], 0xFFFFFFFF⟩,
     ⟨0x0C, 0x0C, .u32, .rw, .l, .val 0x0, .oneOf [0], 0xFFFFFFFF⟩,
     ⟨0x0D, 0x0D, .u32, .rw, .l, .val 0x0, .oneOf [0], 0xFFFFFFFF⟩]⟩,
   ⟨0x2420, 12,
    [⟨0x00, 0x00, .u8, .ro, .f, .val 15, .any, 0xFFFFFFFF⟩,
     ⟨0x01, 0x01, .u8, .rw, .l, .val 0x0, .any, 0x87⟩,
     ⟨0x02, 0x02, .s16, .rw, .l, .val 0x0, .any, 0xFFFFFFFF⟩,
     ⟨0x03, 0x03, .u16, .rw, .l, .val 0x0, .any, 0xFFFFFFFF⟩,
     ⟨0x04, 0x0B, .u32, .rw, .l, .val 0x0, .any, 0xBFFFDFFF⟩,
     ⟨0x0C, 0x0C, .u8, .ro, .f, .val 0x0, .any, 0xFFFFFFFF⟩,
     ⟨0x0D, 0x0D, .enum8, .ro, .f, .val 0x0, .any, 0xFFFFFFFF⟩,
     ⟨0x0E, 0x0E, .u32, .ro, .f, .val 0x0, .any, 0xFFFFFFFF⟩,
     ⟨0x0F, 0x0F, .u8, .wo, .l, .val 0x0, .oneOf [1], 0xFFFFFFFF⟩]⟩,
   ⟨0x2430, 12,
    [⟨0x00, 0x00, .u8, .ro, .f, .val 11, .any, 0xFFFFFFFF⟩,
     ⟨0x01, 0x01, .u8, .rw, .s, .val 0x0, .any, 0xF⟩,
     ⟨0x02, 0x02, .u8, .rw, .s, .val 0x0, .any, 0xF⟩,
     ⟨0x03, 0x03, .u16, .rw, .s, .val 0x20, .nat 0 10000, 0xFFFFFFFF⟩,
     ⟨0x04, 0x04, .enum8, .rw, .s, .val 0x0, .nat 0 2, 0xFFFFFFFF⟩,
     ⟨0x05, 0x05, .enum8, .rw, .s, .val 0x0, .nat 0 1, 0xFFFFFFFF⟩,
     ⟨0x06, 0x06, .u8, .wo, .l, .val 0x0, .oneOf [1], 0xFFFFFFFF⟩,
     ⟨0x07, 0x07, .u8, .ro, .f, .val 0x0, .any, 0xFFFFFFFF⟩,
     ⟨0x08, 0x08, .u32, .rw, .l, .val 0x0, .oneOf [0], 0xFFFFFFFF⟩,
     ⟨0x09, 0x09, .u32, .ro, .f, .val 0x0, .any, 0xFFFFFFFF⟩,
     ⟨0x0A, 0x0A, .u32, .rw, .l, .val 0x0, .oneOf [0], 0xFFFFFFFF⟩,
     ⟨0x0B, 0x0B, .u8, .rw, .s, .val 0xFF, .any, 0xFFFFFFFF⟩]⟩]

/-- Objects of chapter 09. -/
def dictRows09 : List OIndex :=
  [⟨0x2500, 1,
    [⟨0x00, 0x00, .u8, .ro, .f, .val 4, .any, 0xFFFFFFFF⟩,
     ⟨0x01, 0x01, .u8, .rw, .s, .val 0x3, .any, 0x7⟩,
     ⟨0x02, 0x02, .u16, .rw, .s, .val 0x100, .nat 32 4096, 0xFFFFFFFF⟩,
     ⟨0x03, 0x03, .u16, .rw, .s, .val 0x40, .nat 1 1024, 0xFFFFFFFF⟩,
     ⟨0x04, 0x04, .u32, .rw, .s, .val 0x186A0, .any, 0xFFFFFFFF⟩]⟩,
   ⟨0x2510, 12,
    [⟨0x00, 0x00, .u8, .ro, .f, .val 13, .any, 0xFFFFFFFF⟩,
     ⟨0x01, 0x01, .enum8, .rw, .s, .val 0x1, .nat 0 1, 0xFFFFFFFF⟩,
     ⟨0x02, 0x02, .u8, .rw, .s, .val 0xFF, .natOr 0 63 255, 0xFFFFFFFF⟩,
     ⟨0x03, 0x03, .u16, .rw, .s, .val 0xA0, .any, 0xFFFFFFFF⟩,
     ⟨0x04, 0x04, .u8, .rw, .s, .val 0x2, .nat 0 16, 0xFFFFFFFF⟩,
     ⟨0x05, 0x05, .u16, .rw, .s, .val 0x0, .any, 0xFFFFFFFF⟩,
     ⟨0x06, 0x06, .u16, .rw, .s, .val 0x0, .any, 0xFFFFFFFF⟩,
     ⟨0x07, 0x07, .u16, .rw, .s, .val 0x0, .any, 0xFFFFFFFF⟩,
     ⟨0x08, 0x08, .u16, .rw, .s, .val 0xFFFF, .any, 0xFFFFFFFF⟩,
     ⟨0x09, 0x09, .u8, .rw, .s, .val 0x1, .nat 1 255, 0xFFFFFFFF⟩,
     ⟨0x0A, 0x0A, .q15, .rw, .s, .val 0x100, .any, 0xFFFFFFFF⟩,
     ⟨0x0B, 0x0B, .enum8, .rw, .l, .val 0x0, .nat 0 2, 0xFFFFFFFF⟩,
     ⟨0x0C, 0x0C, .u16, .rw, .s, .val 0x0, .any, 0xFFFFFFFF⟩,
     ⟨0x0D, 0x0D, .bool, .rw, .s, .val 0x0, .any, 0xFFFFFFFF⟩]⟩,
   ⟨0x2520, 12,
    [⟨0x00, 0x00, .u8, .ro, .f, .val 14, .any, 0xFFFFFFFF⟩,
     ⟨0x01, 0x01, .u32, .ro, .f, .val 0x0, .any, 0xFFFFFFFF⟩,
     ⟨0x02, 0x02, .u32, .ro, .f, .val 0x0, .any, 0xFFFFFFFF⟩,
     ⟨0x03, 0x03, .u16, .ro, .f, .val 0xFFFF, .any, 0xFFFFFFFF⟩,
     ⟨0x04, 0x04, .u16, .ro, .f, .val 0x0, .any, 0xFFFFFFFF⟩,
     ⟨0x05, 0x05, .u32, .ro, .f, .val 0x0, .any, 0xFFFFFFFF⟩,
     ⟨0x06, 0x06, .s32, .ro, .f, .val 0x0, .any, 0xFFFFFFFF⟩,
     ⟨0x07, 0x07, .u32, .rw, .l, .val 0x0, .oneOf [0], 0xFFFFFFFF⟩,
     ⟨0x08, 0x08, .u32, .rw, .l, .val 0x0, .oneOf [0], 0xFFFFFFFF⟩,
     ⟨0x09, 0x09, .u32, .rw, .l, .val 0x0, .oneOf [0], 0xFFFFFFFF⟩,
     ⟨0x0A, 0x0A, .u32, .rw, .l, .val 0x0, .oneOf [0], 0xFFFFFFFF⟩,
     ⟨0x0B, 0x0B, .u32, .rw, .l, .val 0x0, .oneOf [0], 0xFFFFFFFF⟩,
     ⟨0x0C, 0x0C, .u32, .rw, .l, .val 0x0, .oneOf [0], 0xFFFFFFFF⟩,
     ⟨0x0D, 0x0D, .u32, .rw, .l, .val 0x0, .oneOf [0], 0xFFFFFFFF⟩,
     ⟨0x0E, 0x0E, .u32, .rw, .l, .val 0x0, .oneOf [0], 0xFFFFFFFF⟩]⟩]

/-- Objects of chapter 10. -/
def dictRows10 : List OIndex :=
  [⟨0x2600, 1,
    [⟨0x00, 0x00, .u8, .ro, .f, .val 6, .any, 0xFFFFFFFF⟩,
     ⟨0x01, 0x01, .u8, .rw, .s, .val 0xFF, .any, 0xFFFFFFFF⟩,
     ⟨0x02, 0x02, .enum8, .rw, .s, .val 0x1, .nat 0 3, 0xFFFFFFFF⟩,
     ⟨0x03, 0x03, .enum8, .rw, .s, .val 0xFF, .natOr 0 3 255, 0xFFFFFFFF⟩,
     ⟨0x04, 0x04, .u8, .rw, .s, .val 0x3, .any, 0xF⟩,
     ⟨0x05, 0x05, .u32, .rw, .l, .val 0x0, .oneOf [0], 0xFFFFFFFF⟩,
     ⟨0x06, 0x06, .u16, .ro, .f, .val 0x0, .any, 0xFFFFFFFF⟩]⟩,
   ⟨0x2601, 1,
    [⟨0x00, 0x00, .u8, .ro, .f, .val 2, .any, 0xFFFFFFFF⟩,
     ⟨0x01, 0x01, .u8, .rw, .l, .val 0x0, .any, 0x73⟩,
     ⟨0x02, 0x02, .u8, .rw, .l, .val 0x0, .nat 0 1, 0xFFFFFFFF⟩]⟩,
   ⟨0x2610, 8,
    [⟨0x00, 0x00, .u8, .ro, .f, .val 11, .any, 0xFFFFFFFF⟩,
     ⟨0x01, 0x01, .u32, .ro, .f, .val 0x0, .any, 0xFFFFFFFF⟩,
     ⟨0x02, 0x02, .u32, .ro, .f, .val 0x0, .any, 0xFFFFFFFF⟩,
     ⟨0x03, 0x03, .u32, .ro, .f, .val 0x0, .any, 0xFFFFFFFF⟩,
     ⟨0x04, 0x04, .u32, .ro, .f, .val 0x0, .any, 0xFFFFFFFF⟩,
     ⟨0x05, 0x05, .u32, .ro, .f, .val 0x0, .any, 0xFFFFFFFF⟩,
     ⟨0x06, 0x06, .u32, .ro, .f, .val 0x0, .any, 0xFFFFFFFF⟩,
     ⟨0x07, 0x07, .u32, .ro, .f, .val 0x0, .any, 0xFFFFFFFF⟩,
     ⟨0x08, 0x08, .u32, .rw, .l, .val 0x0, .oneOf [0], 0xFFFFFFFF⟩,
     ⟨0x09, 0x09, .u32, .ro, .f, .val 0x0, .any, 0xFFFFFFFF⟩,
     ⟨0x0A, 0x0A, .u8, .rw, .l, .val 0x0, .oneOf [0], 0xFFFFFFFF⟩,
     ⟨0x0B, 0x0B, .u32, .rw, .l, .val 0x0, .oneOf [0], 0xFFFFFFFF⟩]⟩,
   ⟨0x2680, 8,
    [⟨0x00, 0x00, .u8, .ro, .f, .val 34, .any, 0xFFFFFFFF⟩,
     ⟨0x01, 0x10, .u32, .rw, .l, .val 0x0, .any, 0xFFFFFFFF⟩,
     ⟨0x11, 0x11, .u32, .rw, .l, .val 0x0, .any, 0xFFFFFFFF⟩,
     ⟨0x12, 0x21, .u32, .ro, .f, .val 0x0, .any, 0xFFFFFFFF⟩,
     ⟨0x22, 0x22, .u32, .ro, .f, .val 0x0, .any, 0xFFFFFFFF⟩]⟩,
   ⟨0x2688, 1,
    [⟨0x00, 0x00, .u8, .ro, .f, .val 3, .any, 0xFFFFFFFF⟩,
     ⟨0x01, 0x01, .u32, .rw, .l, .val 0x0, .oneOf [0], 0xFFFFFFFF⟩,
     ⟨0x02, 0x02, .u32, .ro, .f, .val 0x0, .any, 0xFFFFFFFF⟩,
     ⟨0x03, 0x03, .u32, .ro, .f, .val 0x0, .any, 0xFFFFFFFF⟩]⟩]

/-- Objects of chapter 11. -/
def dictRows11 : List OIndex :=
  [⟨0x2140, 1,
    [⟨0x00, 0x00, .u8, .ro, .f, .val 9, .any, 0xFFFFFFFF⟩,
     ⟨0x01, 0x01, .u32, .ro, .f, .val 0x0, .any, 0xFFFFFFFF⟩,
     ⟨0x02, 0x02, .u32, .rw, .l, .val 0x0, .oneOf [0], 0xFFFFFFFF⟩,
     ⟨0x03, 0x03, .u32, .rw, .l, .val 0x0, .oneOf [0], 0xFFFFFFFF⟩,
     ⟨0x04, 0x04, .u32, .rw, .l, .val 0x0, .oneOf [0], 0xFFFFFFFF⟩,
     ⟨0x05, 0x05, .u32, .rw, .l, .val 0x0, .oneOf [0], 0xFFFFFFFF⟩,
     ⟨0x06, 0x06, .u32, .rw, .l, .val 0x0, .oneOf [0], 0xFFFFFFFF⟩,
     ⟨0x07, 0x07, .u32, .rw, .l, .val 0x0, .oneOf [0], 0xFFFFFFFF⟩,
     ⟨0x08, 0x08, .u32, .rw, .l, .val 0x0, .oneOf [0], 0xFFFFFFFF⟩,
     ⟨0x09, 0x09, .u32, .rw, .l, .val 0x0, .oneOf [0], 0xFFFFFFFF⟩]⟩,
   ⟨0x2141, 1,
    [⟨0x00, 0x00, .u8, .ro, .f, .val 5, .any, 0xFFFFFFFF⟩,
     ⟨0x01, 0x01, .u8, .wo, .l, .val 0x0, .any, 0xFFFFFFFF⟩,
     ⟨0x02, 0x02, .enum8, .ro, .f, .val 0x0, .any, 0xFFFFFFFF⟩,
     ⟨0x03, 0x03, .u32, .wo, .l, .val 0x0, .fields [(15,8,0,0)], 0xFFFFFFFF⟩,
     ⟨0x04, 0x04, .u8, .wo, .l, .val 0x0, .any, 0xFFFFFFFF⟩,
     ⟨0x05, 0x05, .enum8, .ro, .f, .val 0x0, .any, 0xFFFFFFFF⟩]⟩,
   ⟨0x2142, 1,
    [⟨0x00, 0x00, .u8, .ro, .f, .val 7, .any, 0xFFFFFFFF⟩,
     ⟨0x01, 0x01, .u8, .rw, .l, .val 0x0, .any, 0xFFFFFFFF⟩,
     ⟨0x02, 0x02, .u32, .rw, .s, .val 0x0, .any, 0xFFFFFFFF⟩,
     ⟨0x03, 0x03, .u32, .rw, .s, .val 0x0, .any, 0xFFFFFFFF⟩,
     ⟨0x04, 0x04, .u32, .rw, .s, .val 0x0, .any, 0xFFFFFFFF⟩,
     ⟨0x05, 0x05, .u32, .rw, .s, .val 0x0, .any, 0xFFFFFFFF⟩,
     ⟨0x06, 0x06, .u32, .ro, .f, .val 0x0, .any, 0xFFFFFFFF⟩,
     ⟨0x07, 0x07, .u32, .ro, .f, .val 0x0, .any, 0xFFFFFFFF⟩]⟩,
   ⟨0x2143, 1,
    [⟨0x00, 0x00, .u8, .ro, .f, .val 16, .any, 0xFFFFFFFF⟩,
     ⟨0x01, 0x10, .u16, .rw, .l, .val 0x0, .oneOf [0], 0xFFFFFFFF⟩]⟩,
   ⟨0x2144, 1,
    [⟨0x00, 0x00, .u8, .ro, .f, .val 16, .any, 0xFFFFFFFF⟩,
     ⟨0x01, 0x10, .u8, .ro, .f, .val 0x0, .any, 0xFFFFFFFF⟩]⟩]

/-- Objects of chapter 12. -/
def dictRows12 : List OIndex :=
  [⟨0x2700, 1,
    [⟨0x00, 0x00, .u8, .ro, .f, .val 4, .any, 0xFFFFFFFF⟩,
     ⟨0x01, 0x01, .u32, .rw, .l, .val 0x0, .any, 0xFCFFFFFF⟩,
     ⟨0x02, 0x02, .u32, .rw, .s, .val 0x0, .any, 0xFCFFFFFF⟩,
     ⟨0x03, 0x03, .enum8, .rw, .s, .val 0xFF, .natOr 0 3 255, 0xFFFFFFFF⟩,
     ⟨0x04, 0x04, .u8, .rw, .s, .val 0x8, .any, 0xFFFFFFFF⟩]⟩,
   ⟨0x2701, 4,
    [⟨0x00, 0x00, .u8, .ro, .f, .val 16, .any, 0xFFFFFFFF⟩,
     ⟨0x01, 0x01, .enum8, .rw, .s, .val 0x0, .nat 0 11, 0xFFFFFFFF⟩,
     ⟨0x02, 0x02, .s32, .rw, .s, .val 0x10000, .any, 0xFFFFFFFF⟩,
     ⟨0x03, 0x03, .q31, .rw, .s, .val 0x0, .any, 0xFFFFFFFF⟩,
     ⟨0x04, 0x04, .q31, .rw, .s, .val 0x80000000, .any, 0xFFFFFFFF⟩,
     ⟨0x05, 0x05, .q31, .rw, .s, .val 0x7FFFFFFF, .any, 0xFFFFFFFF⟩,
     ⟨0x06, 0x06, .u32, .rw, .s, .val 0x0, .any, 0xFFFFFFFF⟩,
     ⟨0x07, 0x07, .u32, .rw, .s, .val 0x0, .any, 0xFFFFFFFF⟩,
     ⟨0x08, 0x08, .u16, .rw, .s, .val 0x10, .nat 1 65535, 0xFFFFFFFF⟩,
     ⟨0x09, 0x09, .enum8, .rw, .s, .val 0x0, .nat 0 1, 0xFFFFFFFF⟩,
     ⟨0x0A, 0x0A, .q31, .rw, .s, .val 0x0, .any, 0xFFFFFFFF⟩,
     ⟨0x0B, 0x0B, .q31, .rw, .l, .val 0x0, .any, 0xFFFFFFFF⟩,
     ⟨0x0C, 0x0C, .u32, .rw, .s, .val 0xFFFFFFFF, .shmOff, 0xFFFFFFFF⟩,
     ⟨0x0D, 0x0D, .q31, .ro, .f, .val 0x0, .any, 0xFFFFFFFF⟩,
     ⟨0x0E, 0x0E, .q31, .ro, .f, .val 0x0, .any, 0xFFFFFFFF⟩,
     ⟨0x0F, 0x0F, .u32, .ro, .f, .val 0x0, .any, 0xFFFFFFFF⟩,
     ⟨0x10, 0x10, .u8, .ro, .f, .val 0x0, .any, 0xFFFFFFFF⟩]⟩,
   ⟨0x2705, 1,
    [⟨0x00, 0x00, .u8, .ro, .f, .val 15, .any, 0xFFFFFFFF⟩,
     ⟨0x01, 0x01, .u8, .rw, .s, .val 0x10, .nat 1 16, 0xFFFFFFFF⟩,
     ⟨0x02, 0x02, .u16, .rw, .s, .val 0x1, .nat 1 65535, 0xFFFFFFFF⟩,
     ⟨0x03, 0x03, .u32, .rw, .s, .val 0x0, .any, 0xFFFFFFFF⟩,
     ⟨0x04, 0x04, .u32, .rw, .s, .val 0x0, .trig, 0xFFFF⟩,
     ⟨0x05, 0x05, .s32, .rw, .s, .val 0x0, .any, 0xFFFFFFFF⟩,
     ⟨0x06, 0x06, .bool, .rw, .s, .val 0x0, .any, 0xFFFFFFFF⟩,
     ⟨0x07, 0x07, .enum8, .wo, .l, .val 0x0, .nat 1 4, 0xFFFFFFFF⟩,
     ⟨0x08, 0x08, .enum8, .ro, .f, .val 0x0, .any, 0xFFFFFFFF⟩,
     ⟨0x09, 0x09, .u16, .ro, .f, .val 0xE38, .any, 0xFFFFFFFF⟩,
     ⟨0x0A, 0x0A, .u16, .ro, .f, .val 0x0, .any, 0xFFFFFFFF⟩,
     ⟨0x0B, 0x0B, .u16, .ro, .f, .val 0x0, .any, 0xFFFFFFFF⟩,
     ⟨0x0C, 0x0C, .u16, .ro, .f, .val 0x0, .any, 0xFFFFFFFF⟩,
     ⟨0x0D, 0x0D, .u32, .ro, .f, .val 0x0, .any, 0xFFFFFFFF⟩,
     ⟨0x0E, 0x0E, .u32, .ro, .f, .val 0x0, .any, 0xFFFFFFFF⟩,
     ⟨0x0F, 0x0F, .u32, .rw, .l, .val 0x0, .oneOf [0], 0xFFFFFFFF⟩]⟩,
   ⟨0x2706, 1,
    [⟨0x00, 0x00, .u8, .ro, .f, .val 16, .any, 0xFFFFFFFF⟩,
     ⟨0x01, 0x10, .u32, .rw, .s, .val 0x0, .probe, 0xF70FFFFF⟩]⟩,
   ⟨0x2710, 12,
    [⟨0x00, 0x00, .u8, .ro, .f, .val 6, .any, 0xFFFFFFFF⟩,
     ⟨0x01, 0x01, .u8, .rw, .s, .val 0x0, .fields [(3,2,0,2)], 0xF⟩,
     ⟨0x02, 0x02, .u32, .rw, .s, .val 0x0, .any, 0xFFFFFFFF⟩,
     ⟨0x03, 0x03, .u32, .rw, .s, .val 0x0, .any, 0xFFFFFFFF⟩,
     ⟨0x04, 0x04, .u32, .rw, .s, .val 0x0, .any, 0xFFFFFFFF⟩,
     ⟨0x05, 0x05, .u32, .rw, .s, .val 0x0, .any, 0xFFFFFFFF⟩,
     ⟨0x06, 0x06, .u8, .wo, .l, .val 0x0, .oneOf [1], 0xFFFFFFFF⟩]⟩,
   ⟨0x2720, 12,
    [⟨0x00, 0x00, .u8, .ro, .f, .val 10, .any, 0xFFFFFFFF⟩,
     ⟨0x01, 0x05, .s32, .ro, .f, .val 0x0, .any, 0xFFFFFFFF⟩,
     ⟨0x06, 0x0A, .s32, .ro, .f, .val 0x0, .any, 0xFFFFFFFF⟩]⟩,
   ⟨0x2730, 12,
    [⟨0x00, 0x00, .u8, .ro, .f, .val 8, .any, 0xFFFFFFFF⟩,
     ⟨0x01, 0x04, .q31, .rw, .l, .val 0x0, .any, 0xFFFFFFFF⟩,
     ⟨0x05, 0x08, .q31, .rw, .l, .val 0x0, .any, 0xFFFFFFFF⟩]⟩]

/-- Objects of chapter 13. -/
def dictRows13 : List OIndex :=
  [⟨0x2800, 1,
    [⟨0x00, 0x00, .u8, .ro, .f, .val 5, .any, 0xFFFFFFFF⟩,
     ⟨0x01, 0x01, .enum8, .rw, .s, .val 0x2, .nat 0 2, 0xFFFFFFFF⟩,
     ⟨0x02, 0x02, .u8, .rw, .s, .val 0x32, .nat 1 100, 0xFFFFFFFF⟩,
     ⟨0x03, 0x03, .u32, .rw, .s, .val 0xF4240, .nat 1000 1000000000, 0xFFFFFFFF⟩,
     ⟨0x04, 0x04, .u32, .ro, .f, .val 0x0, .any, 0xFFFFFFFF⟩,
     ⟨0x05, 0x05, .u32, .rw, .l, .val 0x0, .oneOf [0], 0xFFFFFFFF⟩]⟩,
   ⟨0x2801, 1,
    [⟨0x00, 0x00, .u8, .ro, .f, .val 8, .any, 0xFFFFFFFF⟩,
     ⟨0x01, 0x01, .u32, .ro, .f, .val 0x0, .any, 0xFFFFFFFF⟩,
     ⟨0x02, 0x02, .u32, .ro, .f, .val 0x0, .any, 0xFFFFFFFF⟩,
     ⟨0x03, 0x03, .u32, .ro, .f, .val 0x0, .any, 0xFFFFFFFF⟩,
     ⟨0x04, 0x04, .u32, .ro, .f, .val 0x0, .any, 0xFFFFFFFF⟩,
     ⟨0x05, 0x05, .u32, .ro, .f, .val 0x0, .any, 0xFFFFFFFF⟩,
     ⟨0x06, 0x06, .u32, .ro, .f, .val 0x0, .any, 0xFFFFFFFF⟩,
     ⟨0x07, 0x07, .s32, .ro, .f, .val 0x0, .any, 0xFFFFFFFF⟩,
     ⟨0x08, 0x08, .s32, .ro, .f, .val 0x0, .any, 0xFFFFFFFF⟩]⟩,
   ⟨0x2802, 1,
    [⟨0x00, 0x00, .u8, .ro, .f, .val 6, .any, 0xFFFFFFFF⟩,
     ⟨0x01, 0x01, .u16, .rw, .s, .val 0x0, .any, 0xFFFFFFFF⟩,
     ⟨0x02, 0x02, .u16, .rw, .s, .val 0x0, .any, 0xFFFFFFFF⟩,
     ⟨0x03, 0x03, .u16, .rw, .s, .val 0x0, .any, 0xFFFFFFFF⟩,
     ⟨0x04, 0x04, .u16, .rw, .s, .val 0x0, .any, 0xFFFFFFFF⟩,
     ⟨0x05, 0x05, .s16, .rw, .s, .val 0x0, .any, 0xFFFFFFFF⟩,
     ⟨0x06, 0x06, .s16, .rw, .s, .val 0x0, .any, 0xFFFFFFFF⟩]⟩,
   ⟨0x2810, 2,
    [⟨0x00, 0x00, .u8, .ro, .f, .val 13, .any, 0xFFFFFFFF⟩,
     ⟨0x01, 0x01, .bool, .rw, .s, .byInst [1,0], .any, 0xFFFFFFFF⟩,
     ⟨0x02, 0x02, .enum8, .rw, .s, .val 0x0, .nat 0 1, 0xFFFFFFFF⟩,
     ⟨0x03, 0x03, .u8, .rw, .s, .byInst [0,1], .any, 0xFFFFFFFF⟩,
     ⟨0x04, 0x04, .enum8, .rw, .s, .val 0x0, .nat 0 1, 0xFFFFFFFF⟩,
     ⟨0x05, 0x05, .u8, .rw, .s, .val 0x3, .any, 0x3⟩,
     ⟨0x06, 0x06, .u16, .rw, .s, .val 0x64, .any, 0xFFFFFFFF⟩,
     ⟨0x07, 0x07, .u8, .rw, .s, .val 0x8, .nat 2 64, 0xFFFFFFFF⟩,
     ⟨0x08, 0x08, .u32, .rw, .s, .val 0x3E8, .any, 0xFFFFFFFF⟩,
     ⟨0x09, 0x09, .u16, .rw, .s, .val 0x4000, .any, 0xFFFFFFFF⟩,
     ⟨0x0A, 0x0A, .u16, .rw, .s, .val 0x400, .any, 0xFFFFFFFF⟩,
     ⟨0x0B, 0x0B, .u8, .rw, .s, .val 0xC8, .nat 1 200, 0xFFFFFFFF⟩,
     ⟨0x0C, 0x0C, .u16, .rw, .s, .val 0x5, .nat 1 3600, 0xFFFFFFFF⟩,
     ⟨0x0D, 0x0D, .u16, .rw, .s, .val 0x3E8, .any, 0xFFFFFFFF⟩]⟩,
   ⟨0x2820, 2,
    [⟨0x00, 0x00, .u8, .ro, .f, .val 19, .any, 0xFFFFFFFF⟩,
     ⟨0x01, 0x01, .enum8, .ro, .f, .val 0x0, .any, 0xFFFFFFFF⟩,
     ⟨0x02, 0x02, .u16, .ro, .f, .val 0x0, .any, 0xFFFFFFFF⟩,
     ⟨0x03, 0x03, .u32, .ro, .f, .val 0x0, .any, 0xFFFFFFFF⟩,
     ⟨0x04, 0x04, .u32, .ro, .f, .val 0x0, .any, 0xFFFFFFFF⟩,
     ⟨0x05, 0x05, .s32, .ro, .f, .val 0x0, .any, 0xFFFFFFFF⟩,
     ⟨0x06, 0x06, .u32, .ro, .f, .val 0x0, .any, 0xFFFFFFFF⟩,
     ⟨0x07, 0x07, .s32, .ro, .f, .val 0x0, .any, 0xFFFFFFFF⟩,
     ⟨0x08, 0x08, .u32, .ro, .f, .val 0x0, .any, 0xFFFFFFFF⟩,
     ⟨0x09, 0x09, .u32, .ro, .f, .val 0x0, .any, 0xFFFFFFFF⟩,
     ⟨0x0A, 0x0A, .s16, .ro, .f, .val 0x0, .any, 0xFFFFFFFF⟩,
     ⟨0x0B, 0x0B, .u32, .ro, .f, .val 0xFFFFFFFF, .any, 0xFFFFFFFF⟩,
     ⟨0x0C, 0x0C, .u32, .rw, .l, .val 0x0, .oneOf [0], 0xFFFFFFFF⟩,
     ⟨0x0D, 0x0D, .u32, .rw, .l, .val 0x0, .oneOf [0], 0xFFFFFFFF⟩,
     ⟨0x0E, 0x0E, .u32, .rw, .l, .val 0x0, .oneOf [0], 0xFFFFFFFF⟩,
     ⟨0x0F, 0x0F, .u32, .rw, .l, .val 0x0, .oneOf [0], 0xFFFFFFFF⟩,
     ⟨0x10, 0x10, .u32, .rw, .l, .val 0x0, .oneOf [0], 0xFFFFFFFF⟩,
     ⟨0x11, 0x11, .u32, .rw, .l, .val 0x0, .oneOf [0], 0xFFFFFFFF⟩,
     ⟨0x12, 0x12, .u32, .ro, .f, .val 0x0, .any, 0xFFFFFFFF⟩,
     ⟨0x13, 0x13, .u32, .ro, .f, .val 0x0, .any, 0xFFFFFFFF⟩]⟩,
   ⟨0x2830, 1,
    [⟨0x00, 0x00, .u8, .ro, .f, .val 12, .any, 0xFFFFFFFF⟩,
     ⟨0x01, 0x01, .enum8, .rw, .s, .val 0x0, .nat 0 4, 0xFFFFFFFF⟩,
     ⟨0x02, 0x02, .u32, .rw, .s, .val 0x5F5E100, .nat 100 900000000, 0xFFFFFFFF⟩,
     ⟨0x03, 0x03, .u32, .rw, .s, .val 0x0, .nat 0 100000, 0xFFFFFFFF⟩,
     ⟨0x04, 0x04, .bool, .rw, .s, .val 0x0, .any, 0xFFFFFFFF⟩,
     ⟨0x05, 0x05, .bool, .rw, .s, .val 0x0, .any, 0xFFFFFFFF⟩,
     ⟨0x06, 0x06, .u8, .rw, .s, .val 0x0, .any, 0x3⟩,
     ⟨0x07, 0x07, .u32, .rw, .s, .val 0x0, .nat 0 100000, 0xFFFFFFFF⟩,
     ⟨0x08, 0x08, .u32, .rw, .l, .val 0x0, .any, 0xFFFFFFFF⟩,
     ⟨0x09, 0x09, .u32, .rw, .l, .val 0x0, .any, 0xFFFFFFFF⟩,
     ⟨0x0A, 0x0A, .s32, .ro, .f, .val 0x0, .any, 0xFFFFFFFF⟩,
     ⟨0x0B, 0x0B, .u32, .rw, .l, .val 0x0, .oneOf [0], 0xFFFFFFFF⟩,
     ⟨0x0C, 0x0C, .u32, .rw, .l, .val 0x0, .oneOf [0], 0xFFFFFFFF⟩]⟩]

/-- Objects of chapter 14. -/
def dictRows14 : List OIndex :=
  [⟨0x2840, 1,
    [⟨0x00, 0x00, .u8, .ro, .f, .val 6, .any, 0xFFFFFFFF⟩,
     ⟨0x01, 0x01, .bool, .rw, .s, .val 0x0, .any, 0xFFFFFFFF⟩,
     ⟨0x02, 0x02, .enum8, .rw, .s, .val 0x0, .nat 0 1, 0xFFFFFFFF⟩,
     ⟨0x03, 0x03, .u16, .rw, .s, .val 0x32, .any, 0xFFFFFFFF⟩,
     ⟨0x04, 0x04, .u8, .rw, .s, .val 0x2, .nat 0 8, 0xFFFFFFFF⟩,
     ⟨0x05, 0x05, .u32, .rw, .s, .val 0xFFFFFFFF, .shmOff512, 0xFFFFFFFF⟩,
     ⟨0x06, 0x06, .u16, .rw, .s, .val 0x40, .any, 0xFFFFFFFF⟩]⟩,
   ⟨0x2841, 1,
    [⟨0x00, 0x00, .u8, .ro, .f, .val 4, .any, 0xFFFFFFFF⟩,
     ⟨0x01, 0x01, .u32, .ro, .f, .val 0x0, .any, 0xFFFFFFFF⟩,
     ⟨0x02, 0x02, .u32, .ro, .f, .val 0x0, .any, 0xFFFFFFFF⟩,
     ⟨0x03, 0x03, .u32, .rw, .l, .val 0x0, .oneOf [0], 0xFFFFFFFF⟩,
     ⟨0x04, 0x04, .u32, .rw, .l, .val 0x0, .oneOf [0], 0xFFFFFFFF⟩]⟩,
   ⟨0x2842, 1,
    [⟨0x00, 0x00, .u8, .ro, .f, .val 24, .any, 0xFFFFFFFF⟩,
     ⟨0x01, 0x18, .u32, .rw, .s, .val 0x0, .any, 0xF0007FFF⟩]⟩,
   ⟨0x2843, 1,
    [⟨0x00, 0x00, .u8, .ro, .f, .val 24, .any, 0xFFFFFFFF⟩,
     ⟨0x01, 0x18, .s32, .rw, .s, .val 0x0, .any, 0xFFFFFFFF⟩]⟩,
   ⟨0x2844, 1,
    [⟨0x00, 0x00, .u8, .ro, .f, .val 24, .any, 0xFFFFFFFF⟩,
     ⟨0x01, 0x18, .u32, .rw, .s, .val 0x10000, .any, 0xFFFFFFFF⟩]⟩,
   ⟨0x2850, 24,
    [⟨0x00, 0x00, .u8, .ro, .f, .val 8, .any, 0xFFFFFFFF⟩,
     ⟨0x01, 0x01, .u32, .ro, .f, .val 0x0, .any, 0xFFFFFFFF⟩,
     ⟨0x02, 0x02, .u16, .ro, .f, .val 0x0, .any, 0xFFFFFFFF⟩,
     ⟨0x03, 0x03, .u32, .ro, .f, .val 0x0, .any, 0xFFFFFFFF⟩,
     ⟨0x04, 0x04, .u32, .ro, .f, .val 0x0, .any, 0xFFFFFFFF⟩,
     ⟨0x05, 0x05, .u32, .ro, .f, .val 0x0, .any, 0xFFFFFFFF⟩,
     ⟨0x06, 0x06, .s32, .ro, .f, .val 0x0, .any, 0xFFFFFFFF⟩,
     ⟨0x07, 0x07, .s32, .ro, .f, .val 0x0, .any, 0xFFFFFFFF⟩,
     ⟨0x08, 0x08, .s32, .ro, .f, .val 0x0, .any, 0xFFFFFFFF⟩]⟩,
   ⟨0x2870, 1,
    [⟨0x00, 0x00, .u8, .ro, .f, .val 2, .any, 0xFFFFFFFF⟩,
     ⟨0x01, 0x01, .u32, .ro, .f, .val 0x0, .any, 0xFFFFFFFF⟩,
     ⟨0x02, 0x02, .u32, .rw, .l, .val 0x0, .oneOf [0], 0xFFFFFFFF⟩]⟩,
   ⟨0x2871, 1,
    [⟨0x00, 0x00, .u8, .ro, .f, .val 12, .any, 0xFFFFFFFF⟩,
     ⟨0x01, 0x0C, .u32, .rw, .s, .val 0x0, .any, 0xFFC0FF3F⟩]⟩,
   ⟨0x2872, 1,
    [⟨0x00, 0x00, .u8, .ro, .f, .val 12, .any, 0xFFFFFFFF⟩,
     ⟨0x01, 0x0C, .q15, .rw, .s, .val 0x7FFF, .any, 0xFFFFFFFF⟩]⟩,
   ⟨0x2873, 1,
    [⟨0x00, 0x00, .u8, .ro, .f, .val 12, .any, 0xFFFFFFFF⟩,
     ⟨0x01, 0x0C, .q15, .rw, .s, .val 0x100, .any, 0xFFFFFFFF⟩]⟩,
   ⟨0x2874, 1,
    [⟨0x00, 0x00, .u8, .ro, .f, .val 12, .any, 0xFFFFFFFF⟩,
     ⟨0x01, 0x0C, .u16, .rw, .s, .val 0x0, .nat 0 10000, 0xFFFFFFFF⟩]⟩,
   ⟨0x2875, 1,
    [⟨0x00, 0x00, .u8, .ro, .f, .val 12, .any, 0xFFFFFFFF⟩,
     ⟨0x01, 0x0C, .u32, .rw, .l, .val 0x0, .oneOf [0], 0xFFFFFFFF⟩]⟩,
   ⟨0x2876, 1,
    [⟨0x00, 0x00, .u8, .ro, .f, .val 5, .any, 0xFFFFFFFF⟩,
     ⟨0x01, 0x01, .u32, .ro, .f, .val 0x0, .any, 0xFFFFFFFF⟩,
     ⟨0x02, 0x02, .u32, .ro, .f, .val 0x0, .any, 0xFFFFFFFF⟩,
     ⟨0x03, 0x03, .u32, .ro, .f, .val 0x0, .any, 0xFFFFFFFF⟩,
     ⟨0x04, 0x04, .u32, .ro, .f, .val 0x0, .any, 0xFFFFFFFF⟩,
     ⟨0x05, 0x05, .u8, .ro, .f, .val 0x0, .any, 0xFFFFFFFF⟩]⟩]

/-- Objects of chapter 15. -/
def dictRows15 : List OIndex :=
  [⟨0x2900, 1,
    [⟨0x00, 0x00, .u8, .ro, .f, .val 4, .any, 0xFFFFFFFF⟩,
     ⟨0x01, 0x01, .enum8, .wo, .l, .val 0x0, .nat 1 4, 0xFFFFFFFF⟩,
     ⟨0x02, 0x02, .enum8, .ro, .f, .val 0x0, .any, 0xFFFFFFFF⟩,
     ⟨0x03, 0x03, .bool, .rw, .s, .val 0x0, .any, 0xFFFFFFFF⟩,
     ⟨0x04, 0x04, .u8, .rw, .l, .val 0x0, .nat 0 31, 0xFFFFFFFF⟩]⟩,
   ⟨0x2901, 1,
    [⟨0x00, 0x00, .u8, .ro, .f, .val 11, .any, 0xFFFFFFFF⟩,
     ⟨0x01, 0x01, .u8, .rw, .s, .val 0x10, .nat 1 64, 0xFFFFFFFF⟩,
     ⟨0x02, 0x02, .u8, .rw, .s, .val 0x6, .nat 1 6, 0xFFFFFFFF⟩,
     ⟨0x03, 0x03, .u16, .rw, .s, .val 0x1, .nat 1 65535, 0xFFFFFFFF⟩,
     ⟨0x04, 0x04, .u32, .rw, .s, .val 0x4E20, .any, 0xFFFFFFFF⟩,
     ⟨0x05, 0x05, .u8, .rw, .s, .val 0x2, .any, 0xFFFFFFFF⟩,
     ⟨0x06, 0x06, .u8, .rw, .s, .val 0x0, .nat 0 63, 0xFFFFFFFF⟩,
     ⟨0x07, 0x07, .u8, .rw, .s, .val 0x0, .any, 0xFFFFFFFF⟩,
     ⟨0x08, 0x08, .s16, .rw, .s, .val 0x7FFF, .any, 0xFFFFFFFF⟩,
     ⟨0x09, 0x09, .enum8, .rw, .s, .val 0x1, .nat 1 3, 0xFFFFFFFF⟩,
     ⟨0x0A, 0x0A, .u8, .rw, .s, .val 0x0, .any, 0xF⟩,
     ⟨0x0B, 0x0B, .u16, .rw, .s, .val 0x0, .any, 0xFFF⟩]⟩,
   ⟨0x2902, 1,
    [⟨0x00, 0x00, .u8, .ro, .f, .val 64, .any, 0xFFFFFFFF⟩,
     ⟨0x01, 0x40, .u32, .rw, .s, .val 0x0, .channel, 0xF0003FFF⟩]⟩,
   ⟨0x2903, 1,
    [⟨0x00, 0x00, .u8, .ro, .f, .val 12, .any, 0xFFFFFFFF⟩,
     ⟨0x01, 0x01, .u32, .ro, .f, .val 0x0, .any, 0xFFFFFFFF⟩,
     ⟨0x02, 0x02, .u32, .ro, .f, .val 0x0, .any, 0xFFFFFFFF⟩,
     ⟨0x03, 0x03, .u32, .ro, .f, .val 0x0, .any, 0xFFFFFFFF⟩,
     ⟨0x04, 0x04, .u32, .ro, .f, .val 0x0, .any, 0xFFFFFFFF⟩,
     ⟨0x05, 0x05, .u32, .ro, .f, .val 0x0, .any, 0xFFFFFFFF⟩,
     ⟨0x06, 0x06, .u32, .ro, .f, .val 0x0, .any, 0xFFFFFFFF⟩,
     ⟨0x07, 0x07, .u32, .ro, .f, .val 0x0, .any, 0xFFFFFFFF⟩,
     ⟨0x08, 0x08, .u32, .ro, .f, .val 0x0, .any, 0xFFFFFFFF⟩,
     ⟨0x09, 0x09, .u32, .ro, .f, .val 0x0, .any, 0xFFFFFFFF⟩,
     ⟨0x0A, 0x0A, .u32, .ro, .f, .val 0x0, .any, 0xFFFFFFFF⟩,
     ⟨0x0B, 0x0B, .u32, .ro, .f, .val 0x9D76, .any, 0xFFFFFFFF⟩,
     ⟨0x0C, 0x0C, .u16, .ro, .f, .val 0xD0, .any, 0xFFFFFFFF⟩]⟩,
   ⟨0x2904, 1,
    [⟨0x00, 0x00, .u8, .ro, .f, .val 5, .any, 0xFFFFFFFF⟩,
     ⟨0x01, 0x01, .u32, .rw, .l, .val 0x0, .oneOf [0], 0xFFFFFFFF⟩,
     ⟨0x02, 0x02, .u32, .rw, .l, .val 0x0, .oneOf [0], 0xFFFFFFFF⟩,
     ⟨0x03, 0x03, .u32, .rw, .l, .val 0x0, .oneOf [0], 0xFFFFFFFF⟩,
     ⟨0x04, 0x04, .u32, .rw, .l, .val 0x0, .oneOf [0], 0xFFFFFFFF⟩,
     ⟨0x05, 0x05, .u32, .rw, .l, .val 0x0, .oneOf [0], 0xFFFFFFFF⟩]⟩,
   ⟨0x2905, 1,
    [⟨0x00, 0x00, .u8, .ro, .f, .val 10, .any, 0xFFFFFFFF⟩,
     ⟨0x01, 0x08, .u32, .ro, .f, .val 0x0, .any, 0xFFFFFFFF⟩,
     ⟨0x09, 0x09, .u16, .ro, .f, .val 0x0, .any, 0xFFFFFFFF⟩,
     ⟨0x0A, 0x0A, .u8, .ro, .f, .val 0x0, .any, 0xFFFFFFFF⟩]⟩]

/-- Objects of chapter 16. -/
def dictRows16 : List OIndex :=
  [⟨0x2A00, 1,
    [⟨0x00, 0x00, .u8, .ro, .f, .val 2, .any, 0xFFFFFFFF⟩,
     ⟨0x01, 0x01, .bool, .ro, .f, .val 0x0, .any, 0xFFFFFFFF⟩,
     ⟨0x02, 0x02, .u32, .rw, .l, .val 0x0, .oneOf [0], 0xFFFFFFFF⟩]⟩,
   ⟨0x2A01, 2,
    [⟨0x00, 0x00, .u8, .ro, .f, .val 8, .any, 0xFFFFFFFF⟩,
     ⟨0x01, 0x01, .u8, .rw, .l, .val 0x0, .any, 0xF⟩,
     ⟨0x02, 0x02, .u8, .rw, .s, .val 0x1, .nat 1 16, 0xFFFFFFFF⟩,
     ⟨0x03, 0x03, .u32, .rw, .s, .val 0x0, .any, 0xFFFFFFFF⟩,
     ⟨0x04, 0x04, .u8, .rw, .s, .val 0x0, .nat 0 4, 0xFFFFFFFF⟩,
     ⟨0x05, 0x05, .enum8, .rw, .s, .val 0x0, .nat 0 3, 0xFFFFFFFF⟩,
     ⟨0x06, 0x06, .u8, .rw, .s, .val 0x0, .any, 0xFFFFFFFF⟩,
     ⟨0x07, 0x07, .u32, .ro, .f, .val 0x0, .any, 0xFFFFFFFF⟩,
     ⟨0x08, 0x08, .u32, .ro, .f, .val 0x0, .any, 0xFFFFFFFF⟩]⟩,
   ⟨0x2A03, 2,
    [⟨0x00, 0x00, .u8, .ro, .f, .val 20, .any, 0xFFFFFFFF⟩,
     ⟨0x01, 0x10, .u8, .rw, .s, .val 0x0, .nat 0 7, 0xFFFFFFFF⟩,
     ⟨0x11, 0x14, .u8, .rw, .s, .val 0x0, .nat 0 7, 0xFFFFFFFF⟩]⟩,
   ⟨0x2A05, 2,
    [⟨0x00, 0x00, .u8, .ro, .f, .val 2, .any, 0xFFFFFFFF⟩,
     ⟨0x01, 0x01, .q31, .ro, .f, .val 0x0, .any, 0xFFFFFFFF⟩,
     ⟨0x02, 0x02, .u32, .ro, .f, .val 0x0, .any, 0xFFFFFFFF⟩]⟩,
   ⟨0x2A07, 2,
    [⟨0x00, 0x00, .u8, .ro, .f, .val 9, .any, 0xFFFFFFFF⟩,
     ⟨0x01, 0x01, .u32, .rw, .l, .val 0x0, .oneOf [0], 0xFFFFFFFF⟩,
     ⟨0x02, 0x02, .u32, .rw, .l, .val 0x0, .oneOf [0], 0xFFFFFFFF⟩,
     ⟨0x03, 0x03, .u32, .rw, .l, .val 0x0, .oneOf [0], 0xFFFFFFFF⟩,
     ⟨0x04, 0x04, .u32, .rw, .l, .val 0x0, .oneOf [0], 0xFFFFFFFF⟩,
     ⟨0x05, 0x05, .u32, .rw, .l, .val 0x0, .oneOf [0], 0xFFFFFFFF⟩,
     ⟨0x06, 0x06, .u32, .rw, .l, .val 0x0, .oneOf [0], 0xFFFFFFFF⟩,
     ⟨0x07, 0x07, .u32, .rw, .l, .val 0x0, .oneOf [0], 0xFFFFFFFF⟩,
     ⟨0x08, 0x08, .u32, .rw, .l, .val 0x0, .oneOf [0], 0xFFFFFFFF⟩,
     ⟨0x09, 0x09, .u32, .rw, .l, .val 0x0, .oneOf [0], 0xFFFFFFFF⟩]⟩,
   ⟨0x2A09, 2,
    [⟨0x00, 0x00, .u8, .ro, .f, .val 8, .any, 0xFFFFFFFF⟩,
     ⟨0x01, 0x08, .u32, .rw, .s, .val 0x0, .any, 0x8003FFFF⟩]⟩]

/-- Objects of chapter 17. -/
def dictRows17 : List OIndex :=
  [⟨0x2A40, 1,
    [⟨0x00, 0x00, .u8, .ro, .f, .val 4, .any, 0xFFFFFFFF⟩,
     ⟨0x01, 0x01, .u16, .wo, .l, .val 0x0, .any, 0xFFFFFFFF⟩,
     ⟨0x02, 0x02, .u16, .ro, .f, .val 0x0, .any, 0xFFFFFFFF⟩,
     ⟨0x03, 0x03, .u16, .ro, .f, .val 0x0, .any, 0xFFFFFFFF⟩,
     ⟨0x04, 0x04, .u16, .ro, .f, .val 0x0, .any, 0xFFFFFFFF⟩]⟩,
   ⟨0x2A50, 16,
    [⟨0x00, 0x00, .u8, .ro, .f, .val 4, .any, 0xFFFFFFFF⟩,
     ⟨0x01, 0x01, .u32, .rw, .s, .val 0x0, .any, 0x33F⟩,
     ⟨0x02, 0x02, .u8, .rw, .s, .val 0x0, .any, 0xFFFFFFFF⟩,
     ⟨0x03, 0x03, .u16, .rw, .s, .val 0x0, .nat 0 4095, 0xFFFFFFFF⟩,
     ⟨0x04, 0x04, .u8, .rw, .s, .val 0xF, .any, 0xF⟩]⟩,
   ⟨0x2A60, 16,
    [⟨0x00, 0x00, .u8, .ro, .f, .val 7, .any, 0xFFFFFFFF⟩,
     ⟨0x01, 0x01, .u32, .rw, .l, .val 0x3E70000, .any, 0xFFFFFFFF⟩,
     ⟨0x02, 0x02, .enum8, .rw, .l, .val 0x0, .nat 0 3, 0xFFFFFFFF⟩,
     ⟨0x03, 0x03, .u8, .wo, .l, .val 0x0, .any, 0x3⟩,
     ⟨0x04, 0x04, .u32, .ro, .f, .val 0x0, .any, 0xFFFFFFFF⟩,
     ⟨0x05, 0x05, .u32, .ro, .f, .val 0x3E70000, .any, 0xFFFFFFFF⟩,
     ⟨0x06, 0x06, .u32, .rw, .l, .val 0x0, .oneOf [0], 0xFFFFFFFF⟩,
     ⟨0x07, 0x07, .u32, .rw, .l, .val 0x0, .oneOf [0], 0xFFFFFFFF⟩]⟩,
   ⟨0x2A70, 1,
    [⟨0x00, 0x00, .u8, .ro, .f, .val 4, .any, 0xFFFFFFFF⟩,
     ⟨0x01, 0x04, .u16, .rw, .s, .val 0x20, .nat 32 10000, 0xFFFFFFFF⟩]⟩,
   ⟨0x2A71, 1,
    [⟨0x00, 0x00, .u8, .ro, .f, .val 3, .any, 0xFFFFFFFF⟩,
     ⟨0x01, 0x01, .u8, .ro, .f, .val 0x0, .any, 0xFFFFFFFF⟩,
     ⟨0x02, 0x02, .u8, .wo, .l, .val 0x0, .any, 0xF⟩,
     ⟨0x03, 0x03, .u32, .rw, .l, .val 0x0, .oneOf [0], 0xFFFFFFFF⟩]⟩,
   ⟨0x2A72, 1,
    [⟨0x00, 0x00, .u8, .ro, .f, .val 4, .any, 0xFFFFFFFF⟩,
     ⟨0x01, 0x04, .u32, .rw, .l, .val 0x0, .oneOf [0], 0xFFFFFFFF⟩]⟩,
   ⟨0x2A73, 1,
    [⟨0x00, 0x00, .u8, .ro, .f, .val 2, .any, 0xFFFFFFFF⟩,
     ⟨0x01, 0x01, .u8, .rw, .k, .val 0x0, .any, 0xF⟩,
     ⟨0x02, 0x02, .u8, .rw, .s, .val 0x55, .any, 0xFFFFFFFF⟩]⟩]

/-- Objects of chapter 18. -/
def dictRows18 : List OIndex :=
  [⟨0x2B00, 1,
    [⟨0x00, 0x00, .u8, .ro, .f, .val 7, .any, 0xFFFFFFFF⟩,
     ⟨0x01, 0x01, .u32, .ro, .f, .val 0x0, .any, 0xFFFFFFFF⟩,
     ⟨0x02, 0x02, .u32, .ro, .f, .val 0x0, .any, 0xFFFFFFFF⟩,
     ⟨0x03, 0x03, .u32, .ro, .f, .val 0x0, .any, 0xFFFFFFFF⟩,
     ⟨0x04, 0x04, .u16, .ro, .f, .val 0xFFFF, .any, 0xFFFFFFFF⟩,
     ⟨0x05, 0x05, .enum8, .ro, .f, .val 0x0, .any, 0xFFFFFFFF⟩,
     ⟨0x06, 0x06, .u32, .rw, .l, .val 0x0, .oneOf [0], 0xFFFFFFFF⟩,
     ⟨0x07, 0x07, .u32, .rw, .l, .val 0x0, .oneOf [0], 0xFFFFFFFF⟩]⟩,
   ⟨0x2B01, 1,
    [⟨0x00, 0x00, .u8, .ro, .f, .val 6, .any, 0xFFFFFFFF⟩,
     ⟨0x01, 0x01, .u32, .wo, .l, .val 0x0, .any, 0xFFFFFFFF⟩,
     ⟨0x02, 0x02, .u16, .ro, .f, .val 0x0, .any, 0xFFFFFFFF⟩,
     ⟨0x03, 0x03, .u32, .wo, .l, .val 0x0, .any, 0xFFFFFFFF⟩,
     ⟨0x04, 0x04, .enum8, .ro, .f, .val 0x0, .any, 0xFFFFFFFF⟩,
     ⟨0x05, 0x05, .u32, .rw, .l, .val 0x0, .oneOf [0], 0xFFFFFFFF⟩,
     ⟨0x06, 0x06, .u32, .rw, .l, .val 0x0, .oneOf [0], 0xFFFFFFFF⟩]⟩,
   ⟨0x2B02, 1,
    [⟨0x00, 0x00, .u8, .ro, .f, .val 4, .any, 0xFFFFFFFF⟩,
     ⟨0x01, 0x01, .u8, .wo, .k, .val 0x0, .oneOf [1], 0xFFFFFFFF⟩,
     ⟨0x02, 0x02, .bool, .rw, .k, .val 0x0, .any, 0xFFFFFFFF⟩,
     ⟨0x03, 0x03, .bool, .rw, .k, .val 0x0, .any, 0xFFFFFFFF⟩,
     ⟨0x04, 0x04, .u16, .rw, .k, .val 0x258, .nat 1 3600, 0xFFFFFFFF⟩]⟩,
   ⟨0x2B03, 1,
    [⟨0x00, 0x00, .u8, .ro, .f, .val 3, .any, 0xFFFFFFFF⟩,
     ⟨0x01, 0x01, .u8, .rw, .k, .val 0xF, .any, 0xF⟩,
     ⟨0x02, 0x02, .u8, .rw, .k, .val 0x4, .nat 2 64, 0xFFFFFFFF⟩,
     ⟨0x03, 0x03, .u8, .rw, .k, .val 0x3, .nat 1 255, 0xFFFFFFFF⟩]⟩,
   ⟨0x2B10, 12,
    [⟨0x00, 0x00, .u8, .ro, .f, .val 4, .any, 0xFFFFFFFF⟩,
     ⟨0x01, 0x01, .u8, .rw, .k, .val 0xFF, .natOr 0 63 255, 0xFFFFFFFF⟩,
     ⟨0x02, 0x02, .q15, .rw, .k, .val 0x7FFF, .any, 0xFFFFFFFF⟩,
     ⟨0x03, 0x03, .u8, .rw, .k, .val 0x2, .nat 1 255, 0xFFFFFFFF⟩,
     ⟨0x04, 0x04, .enum8, .rw, .k, .val 0x0, .nat 0 2, 0xFFFFFFFF⟩]⟩,
   ⟨0x2B20, 4,
    [⟨0x00, 0x00, .u8, .ro, .f, .val 9, .any, 0xFFFFFFFF⟩,
     ⟨0x01, 0x01, .u8, .rw, .k, .val 0xFF, .natOr 0 63 255, 0xFFFFFFFF⟩,
     ⟨0x02, 0x02, .u8, .rw, .k, .val 0xFF, .natOr 0 7 255, 0xFFFFFFFF⟩,
     ⟨0x03, 0x03, .u16, .rw, .k, .val 0x0, .any, 0xFFFFFFFF⟩,
     ⟨0x04, 0x04, .u16, .rw, .k, .val 0x0, .any, 0xFFFFFFFF⟩,
     ⟨0x05, 0x05, .u16, .rw, .k, .val 0xFFFF, .any, 0xFFFFFFFF⟩,
     ⟨0x06, 0x06, .u8, .rw, .k, .val 0x2, .nat 1 255, 0xFFFFFFFF⟩,
     ⟨0x07, 0x07, .u16, .rw, .k, .val 0xFFFF, .any, 0xFFFFFFFF⟩,
     ⟨0x08, 0x08, .u32, .rw, .k, .val 0x3E8, .any, 0xFFFFFFFF⟩,
     ⟨0x09, 0x09, .enum8, .rw, .k, .val 0x0, .nat 0 2, 0xFFFFFFFF⟩]⟩,
   ⟨0x2B30, 4,
    [⟨0x00, 0x00, .u8, .ro, .f, .val 5, .any, 0xFFFFFFFF⟩,
     ⟨0x01, 0x01, .u8, .rw, .k, .val 0xFF, .natOr 0 63 255, 0xFFFFFFFF⟩,
     ⟨0x02, 0x02, .enum8, .rw, .k, .val 0x0, .nat 0 1, 0xFFFFFFFF⟩,
     ⟨0x03, 0x03, .q15, .rw, .k, .val 0x400, .any, 0xFFFFFFFF⟩,
     ⟨0x04, 0x04, .u8, .rw, .k, .val 0x2, .nat 1 255, 0xFFFFFFFF⟩,
     ⟨0x05, 0x05, .enum8, .rw, .k, .val 0x0, .nat 0 2, 0xFFFFFFFF⟩]⟩,
   ⟨0x2B38, 1,
    [⟨0x00, 0x00, .u8, .ro, .f, .val 8, .any, 0xFFFFFFFF⟩,
     ⟨0x01, 0x01, .u32, .rw, .k, .val 0x0, .any, 0xFFFFFFFF⟩,
     ⟨0x02, 0x02, .u8, .rw, .k, .val 0x2, .nat 1 255, 0xFFFFFFFF⟩,
     ⟨0x03, 0x03, .q15, .rw, .k, .val 0xCCD, .any, 0xFFFFFFFF⟩,
     ⟨0x04, 0x04, .u32, .rw, .k, .val 0x186A0, .any, 0xFFFFFFFF⟩,
     ⟨0x05, 0x05, .u32, .rw, .k, .val 0x186A0, .any, 0xFFFFFFFF⟩,
     ⟨0x06, 0x06, .enum8, .rw, .k, .val 0x0, .nat 0 2, 0xFFFFFFFF⟩,
     ⟨0x07, 0x07, .u32, .ro, .f, .val 0x0, .any, 0xFFFFFFFF⟩,
     ⟨0x08, 0x08, .u32, .ro, .f, .val 0x0, .any, 0xFFFFFFFF⟩]⟩,
   ⟨0x2B3C, 1,
    [⟨0x00, 0x00, .u8, .ro, .f, .val 5, .any, 0xFFFFFFFF⟩,
     ⟨0x01, 0x01, .u32, .rw, .l, .val 0x0, .oneOf [0], 0xFFFFFFFF⟩,
     ⟨0x02, 0x02, .u32, .rw, .l, .val 0x0, .oneOf [0], 0xFFFFFFFF⟩,
     ⟨0x03, 0x03, .u32, .rw, .l, .val 0x0, .oneOf [0], 0xFFFFFFFF⟩,
     ⟨0x04, 0x04, .u32, .rw, .l, .val 0x0, .oneOf [0], 0xFFFFFFFF⟩,
     ⟨0x05, 0x05, .u32, .rw, .l, .val 0x0, .oneOf [0], 0xFFFFFFFF⟩]⟩,
   ⟨0x2B40, 64,
    [⟨0x00, 0x00, .u8, .ro, .f, .val 11, .any, 0xFFFFFFFF⟩,
     ⟨0x01, 0x01, .u32, .rw, .k, .val 0x0, .fields [(27,24,0,8)], 0xFFF00000⟩,
     ⟨0x02, 0x02, .u32, .rw, .k, .val 0x0, .any, 0xFFFFFFFF⟩,
     ⟨0x03, 0x03, .u16, .rw, .k, .val 0x3E8, .nat 1 65535, 0xFFFFFFFF⟩,
     ⟨0x04, 0x04, .u16, .rw, .k, .val 0x64, .nat 1 65535, 0xFFFFFFFF⟩,
     ⟨0x05, 0x05, .enum8, .ro, .f, .val 0x0, .any, 0xFFFFFFFF⟩,
     ⟨0x06, 0x06, .u16, .ro, .f, .val 0x0, .any, 0xFFFFFFFF⟩,
     ⟨0x07, 0x07, .u32, .ro, .f, .val 0x0, .any, 0xFFFFFFFF⟩,
     ⟨0x08, 0x08, .u32, .ro, .f, .val 0x0, .any, 0xFFFFFFFF⟩,
     ⟨0x09, 0x09, .u32, .ro, .f, .val 0x0, .any, 0xFFFFFFFF⟩,
     ⟨0x0A, 0x0A, .u32, .ro, .f, .val 0x0, .any, 0xFFFFFFFF⟩,
     ⟨0x0B, 0x0B, .u32, .rw, .l, .val 0x0, .oneOf [0], 0xFFFFFFFF⟩]⟩]

/-- Objects of chapter 19. -/
def dictRows19 : List OIndex :=
  [⟨0x2C00, 1,
    [⟨0x00, 0x00, .u8, .ro, .f, .val 10, .any, 0xFFFFFFFF⟩,
     ⟨0x01, 0x01, .bool, .rw, .s, .val 0x0, .any, 0xFFFFFFFF⟩,
     ⟨0x02, 0x02, .u16, .rw, .s, .val 0x200, .nat 0 896, 0xFFFFFFFF⟩,
     ⟨0x03, 0x03, .u16, .rw, .s, .val 0x100, .step 32 1024 32, 0xFFFFFFFF⟩,
     ⟨0x04, 0x04, .u32, .rw, .s, .val 0x0, .step 0 1048568 8, 0xFFFFFFFF⟩,
     ⟨0x05, 0x05, .u16, .rw, .s, .val 0x0, .step 0 65528 8, 0xFFFFFFFF⟩,
     ⟨0x06, 0x06, .u32, .rw, .s, .val 0x0, .step 0 1048568 8, 0xFFFFFFFF⟩,
     ⟨0x07, 0x07, .u16, .rw, .s, .val 0x64, .nat 16 10000, 0xFFFFFFFF⟩,
     ⟨0x08, 0x08, .u8, .rw, .s, .val 0x3, .nat 2 64, 0xFFFFFFFF⟩,
     ⟨0x09, 0x09, .s16, .rw, .s, .val 0x0, .any, 0xFFFFFFFF⟩,
     ⟨0x0A, 0x0A, .u16, .rw, .s, .val 0x64, .any, 0xFFFFFFFF⟩]⟩,
   ⟨0x2C01, 1,
    [⟨0x00, 0x00, .u8, .ro, .f, .val 8, .any, 0xFFFFFFFF⟩,
     ⟨0x01, 0x01, .u32, .ro, .f, .val 0x0, .any, 0xFFFFFFFF⟩,
     ⟨0x02, 0x02, .u8, .ro, .f, .val 0x0, .any, 0xFFFFFFFF⟩,
     ⟨0x03, 0x03, .u32, .ro, .f, .val 0x0, .any, 0xFFFFFFFF⟩,
     ⟨0x04, 0x04, .u32, .ro, .f, .val 0x0, .any, 0xFFFFFFFF⟩,
     ⟨0x05, 0x05, .u32, .ro, .f, .val 0x0, .any, 0xFFFFFFFF⟩,
     ⟨0x06, 0x06, .s32, .ro, .f, .val 0x0, .any, 0xFFFFFFFF⟩,
     ⟨0x07, 0x07, .u16, .ro, .f, .val 0x5E4, .any, 0xFFFFFFFF⟩,
     ⟨0x08, 0x08, .u16, .ro, .f, .val 0x0, .any, 0xFFFFFFFF⟩]⟩,
   ⟨0x2C02, 1,
    [⟨0x00, 0x00, .u8, .ro, .f, .val 2, .any, 0xFFFFFFFF⟩,
     ⟨0x01, 0x01, .u8, .wo, .l, .val 0x0, .oneOf [1], 0xFFFFFFFF⟩,
     ⟨0x02, 0x02, .enum8, .ro, .f, .val 0x0, .any, 0xFFFFFFFF⟩]⟩,
   ⟨0x2C03, 1,
    [⟨0x00, 0x00, .u8, .ro, .f, .val 11, .any, 0xFFFFFFFF⟩,
     ⟨0x01, 0x01, .u32, .rw, .l, .val 0x0, .oneOf [0], 0xFFFFFFFF⟩,
     ⟨0x02, 0x02, .u32, .rw, .l, .val 0x0, .oneOf [0], 0xFFFFFFFF⟩,
     ⟨0x03, 0x03, .u32, .rw, .l, .val 0x0, .oneOf [0], 0xFFFFFFFF⟩,
     ⟨0x04, 0x04, .u32, .rw, .l, .val 0x0, .oneOf [0], 0xFFFFFFFF⟩,
     ⟨0x05, 0x05, .u32, .rw, .l, .val 0x0, .oneOf [0], 0xFFFFFFFF⟩,
     ⟨0x06, 0x06, .u32, .rw, .l, .val 0x0, .oneOf [0], 0xFFFFFFFF⟩,
     ⟨0x07, 0x07, .u32, .rw, .l, .val 0x0, .oneOf [0], 0xFFFFFFFF⟩,
     ⟨0x08, 0x08, .u32, .rw, .l, .val 0x0, .oneOf [0], 0xFFFFFFFF⟩,
     ⟨0x09, 0x09, .u32, .rw, .l, .val 0x0, .oneOf [0], 0xFFFFFFFF⟩,
     ⟨0x0A, 0x0A, .u32, .rw, .l, .val 0x0, .oneOf [0], 0xFFFFFFFF⟩,
     ⟨0x0B, 0x0B, .u32, .rw, .l, .val 0x0, .oneOf [0], 0xFFFFFFFF⟩]⟩]

/-- Objects of chapter 20. -/
def dictRows20 : List OIndex :=
  [⟨0x2D00, 1,
    [⟨0x00, 0x00, .u8, .ro, .f, .val 10, .any, 0xFFFFFFFF⟩,
     ⟨0x01, 0x01, .u32, .ro, .f, .val 0x0, .any, 0xFFFFFFFF⟩,
     ⟨0x02, 0x02, .u32, .ro, .f, .val 0x0, .any, 0xFFFFFFFF⟩,
     ⟨0x03, 0x03, .u32, .ro, .f, .val 0x0, .any, 0xFFFFFFFF⟩,
     ⟨0x04, 0x04, .u32, .ro, .f, .val 0x0, .any, 0xFFFFFFFF⟩,
     ⟨0x05, 0x05, .u32, .wo, .l, .val 0x0, .any, 0xFFFFFFFF⟩,
     ⟨0x06, 0x06, .u32, .wo, .l, .val 0x0, .any, 0xFFFFFFFF⟩,
     ⟨0x07, 0x07, .u32, .wo, .l, .val 0x0, .any, 0xFFFFFFFF⟩,
     ⟨0x08, 0x08, .u32, .wo, .l, .val 0x0, .any, 0xFFFFFFFF⟩,
     ⟨0x09, 0x09, .enum8, .ro, .f, .val 0xFF, .any, 0xFFFFFFFF⟩,
     ⟨0x0A, 0x0A, .u8, .ro, .f, .val 0x0, .any, 0xFFFFFFFF⟩]⟩,
   ⟨0x2D01, 1,
    [⟨0x00, 0x00, .u8, .ro, .f, .val 10, .any, 0xFFFFFFFF⟩,
     ⟨0x01, 0x01, .u32, .rw, .s, .val 0x5A800028, .any, 0xFFC0003F⟩,
     ⟨0x02, 0x02, .u32, .rw, .s, .val 0xF95555DA, .any, 0xFFFFFFFF⟩,
     ⟨0x03, 0x03, .u32, .rw, .s, .val 0x601F7001, .any, 0xFFFFF003⟩,
     ⟨0x04, 0x04, .u32, .rw, .s, .val 0x94044011, .any, 0xFFFFFFFF⟩,
     ⟨0x05, 0x05, .u32, .rw, .s, .val 0x4001, .any, 0xFFFFFFFF⟩,
     ⟨0x06, 0x06, .u32, .rw, .s, .val 0x400, .any, 0xFFFFFFFF⟩,
     ⟨0x07, 0x07, .u8, .rw, .s, .val 0x0, .any, 0xFFFFFFFF⟩,
     ⟨0x08, 0x08, .bool, .rw, .s, .val 0x1, .any, 0xFFFFFFFF⟩,
     ⟨0x09, 0x09, .u16, .rw, .s, .val 0x2, .any, 0xFFFFFFFF⟩,
     ⟨0x0A, 0x0A, .u8, .rw, .s, .val 0x64, .nat 60 125, 0xFFFFFFFF⟩]⟩,
   ⟨0x2D02, 1,
    [⟨0x00, 0x00, .u8, .ro, .f, .val 9, .any, 0xFFFFFFFF⟩,
     ⟨0x01, 0x01, .u32, .rw, .l, .val 0x0, .oneOf [0], 0xFFFFFFFF⟩,
     ⟨0x02, 0x02, .u32, .rw, .l, .val 0x0, .oneOf [0], 0xFFFFFFFF⟩,
     ⟨0x03, 0x03, .u32, .rw, .l, .val 0x0, .oneOf [0], 0xFFFFFFFF⟩,
     ⟨0x04, 0x04, .u32, .rw, .l, .val 0x0, .oneOf [0], 0xFFFFFFFF⟩,
     ⟨0x05, 0x05, .u32, .rw, .l, .val 0x0, .oneOf [0], 0xFFFFFFFF⟩,
     ⟨0x06, 0x06, .u32, .rw, .l, .val 0x0, .oneOf [0], 0xFFFFFFFF⟩,
     ⟨0x07, 0x07, .u32, .rw, .l, .val 0x0, .oneOf [0], 0xFFFFFFFF⟩,
     ⟨0x08, 0x08, .u32, .rw, .l, .val 0x0, .oneOf [0], 0xFFFFFFFF⟩,
     ⟨0x09, 0x09, .u32, .rw, .l, .val 0x0, .oneOf [0], 0xFFFFFFFF⟩]⟩,
   ⟨0x2D03, 1,
    [⟨0x00, 0x00, .u8, .ro, .f, .val 4, .any, 0xFFFFFFFF⟩,
     ⟨0x01, 0x04, .u32, .ro, .f, .val 0x0, .any, 0xFFFFFFFF⟩]⟩,
   ⟨0x2D10, 1,
    [⟨0x00, 0x00, .u8, .ro, .f, .val 64, .any, 0xFFFFFFFF⟩,
     ⟨0x01, 0x40, .u32, .rw, .l, .val 0x0, .oneOf [0], 0xFFFFFFFF⟩]⟩,
   ⟨0x2D11, 1,
    [⟨0x00, 0x00, .u8, .ro, .f, .val 8, .any, 0xFFFFFFFF⟩,
     ⟨0x01, 0x08, .u32, .ro, .f, .val 0x0, .any, 0xFFFFFFFF⟩]⟩]

/-- Objects of chapter 21. -/
def dictRows21 : List OIndex :=
  [⟨0x2E00, 1,
    [⟨0x00, 0x00, .u8, .ro, .f, .val 5, .any, 0xFFFFFFFF⟩,
     ⟨0x01, 0x01, .u8, .rw, .l, .val 0x0, .nat 0 172, 0xFFFFFFFF⟩,
     ⟨0x02, 0x02, .u32, .ro, .f, .val 0x0, .any, 0xFFFFFFFF⟩,
     ⟨0x03, 0x03, .u32, .rw, .l, .val 0x0, .oneOf [0], 0xFFFFFFFF⟩,
     ⟨0x04, 0x04, .u32, .rw, .l, .val 0x0, .oneOf [0], 0xFFFFFFFF⟩,
     ⟨0x05, 0x05, .u32, .ro, .f, .val 0x0, .any, 0xFFFFFFFF⟩]⟩,
   ⟨0x2E01, 1,
    [⟨0x00, 0x00, .u8, .ro, .f, .val 7, .any, 0xFFFFFFFF⟩,
     ⟨0x01, 0x01, .u32, .wo, .l, .val 0x0, .any, 0xF00000FF⟩,
     ⟨0x02, 0x02, .enum8, .ro, .f, .val 0x0, .any, 0xFFFFFFFF⟩,
     ⟨0x03, 0x03, .u32, .ro, .f, .val 0x0, .any, 0xFFFFFFFF⟩,
     ⟨0x04, 0x04, .bool, .rw, .s, .val 0x1, .any, 0xFFFFFFFF⟩,
     ⟨0x05, 0x05, .u16, .rw, .s, .val 0x64, .nat 10 10000, 0xFFFFFFFF⟩,
     ⟨0x06, 0x06, .u32, .rw, .l, .val 0x0, .oneOf [0], 0xFFFFFFFF⟩,
     ⟨0x07, 0x07, .u32, .rw, .l, .val 0x0, .oneOf [0], 0xFFFFFFFF⟩]⟩,
   ⟨0x2E02, 1,
    [⟨0x00, 0x00, .u8, .ro, .f, .val 7, .any, 0xFFFFFFFF⟩,
     ⟨0x01, 0x01, .enum8, .ro, .f, .val 0x0, .any, 0xFFFFFFFF⟩,
     ⟨0x02, 0x02, .u32, .wo, .l, .val 0x0, .any, 0xFFFFFFFF⟩,
     ⟨0x03, 0x03, .enum8, .ro, .f, .val 0x0, .any, 0xFFFFFFFF⟩,
     ⟨0x04, 0x04, .domain, .wo, .l, .val 0x0, .any, 0xFFFFFFFF⟩,
     ⟨0x05, 0x05, .enum8, .ro, .f, .val 0x0, .any, 0xFFFFFFFF⟩,
     ⟨0x06, 0x06, .u32, .ro, .f, .val 0x0, .any, 0xFFFFFFFF⟩,
     ⟨0x07, 0x07, .enum8, .ro, .f, .val 0x0, .any, 0xFFFFFFFF⟩]⟩,
   ⟨0x2E03, 1,
    [⟨0x00, 0x00, .u8, .ro, .f, .val 6, .any, 0xFFFFFFFF⟩,
     ⟨0x01, 0x01, .u8, .rw, .s, .val 0x3, .any, 0x3⟩,
     ⟨0x02, 0x02, .u16, .rw, .s, .val 0xA, .nat 1 1000, 0xFFFFFFFF⟩,
     ⟨0x03, 0x03, .u8, .ro, .f, .val 0x0, .any, 0xFFFFFFFF⟩,
     ⟨0x04, 0x04, .u32, .rw, .l, .val 0x0, .oneOf [0], 0xFFFFFFFF⟩,
     ⟨0x05, 0x05, .domain, .ro, .l, .val 0x0, .any, 0xFFFFFFFF⟩,
     ⟨0x06, 0x06, .u32, .ro, .f, .val 0x0, .any, 0xFFFFFFFF⟩]⟩]

/-- Objects of chapter 22. -/
def dictRows22 : List OIndex :=
  [⟨0x2F00, 1,
    [⟨0x00, 0x00, .u8, .ro, .f, .val 9, .any, 0xFFFFFFFF⟩,
     ⟨0x01, 0x01, .u32, .ro, .f, .val 0x0, .any, 0xFFFFFFFF⟩,
     ⟨0x02, 0x02, .u32, .rw, .l, .val 0xFFFFFFFC, .any, 0xFFFFFFFF⟩,
     ⟨0x03, 0x03, .u16, .wo, .l, .val 0x0, .any, 0xFFFFFFFF⟩,
     ⟨0x04, 0x04, .u32, .rw, .l, .val 0x0, .oneOf [0], 0xFFFFFFFF⟩,
     ⟨0x05, 0x05, .u32, .rw, .l, .val 0x0, .oneOf [0], 0xFFFFFFFF⟩,
     ⟨0x06, 0x06, .u16, .ro, .f, .val 0x0, .any, 0xFFFFFFFF⟩,
     ⟨0x07, 0x07, .u32, .ro, .f, .val 0x0, .any, 0xFFFFFFFF⟩,
     ⟨0x08, 0x08, .bool, .ro, .f, .val 0x0, .any, 0xFFFFFFFF⟩,
     ⟨0x09, 0x09, .u32, .rw, .l, .val 0x0, .oneOf [0], 0xFFFFFFFF⟩]⟩,
   ⟨0x2F01, 1,
    [⟨0x00, 0x00, .u8, .ro, .f, .val 7, .any, 0xFFFFFFFF⟩,
     ⟨0x01, 0x01, .u16, .ro, .f, .val 0x0, .any, 0xFFFFFFFF⟩,
     ⟨0x02, 0x02, .u16, .ro, .f, .val 0x0, .any, 0xFFFFFFFF⟩,
     ⟨0x03, 0x03, .u16, .ro, .f, .val 0x0, .any, 0xFFFFFFFF⟩,
     ⟨0x04, 0x04, .u32, .ro, .f, .val 0x0, .any, 0xFFFFFFFF⟩,
     ⟨0x05, 0x05, .u16, .wo, .l, .val 0x0, .any, 0xFFFFFFFF⟩,
     ⟨0x06, 0x06, .u32, .rw, .l, .val 0x0, .oneOf [0], 0xFFFFFFFF⟩,
     ⟨0x07, 0x07, .u16, .rw, .s, .val 0xC00, .nat 1 4096, 0xFFFFFFFF⟩]⟩,
   ⟨0x2F10, 32,
    [⟨0x00, 0x00, .u8, .ro, .f, .val 4, .any, 0xFFFFFFFF⟩,
     ⟨0x01, 0x01, .u32, .rw, .l, .val 0x0, .any, 0xFFFFFFFF⟩,
     ⟨0x02, 0x02, .u32, .rw, .l, .maskOf, .any, 0xFFFFFFFF⟩,
     ⟨0x03, 0x03, .u32, .ro, .f, .val 0x0, .any, 0xFFFFFFFF⟩,
     ⟨0x04, 0x04, .u32, .ro, .f, .levelMap, .any, 0xFFFFFFFF⟩]⟩]

/-- Objects of chapter 23. -/
def dictRows23 : List OIndex :=
  [⟨0x1000, 1,
    [⟨0x00, 0x00, .u32, .ro, .f, .val 0x0, .any, 0xFFFFFFFF⟩]⟩,
   ⟨0x1001, 1,
    [⟨0x00, 0x00, .u8, .ro, .f, .val 0x0, .any, 0xFFFFFFFF⟩]⟩,
   ⟨0x1008, 1,
    [⟨0x00, 0x00, .domain, .ro, .l, .val 0x0, .any, 0xFFFFFFFF⟩]⟩,
   ⟨0x1009, 1,
    [⟨0x00, 0x00, .domain, .ro, .l, .val 0x0, .any, 0xFFFFFFFF⟩]⟩,
   ⟨0x1018, 1,
    [⟨0x00, 0x00, .u8, .ro, .f, .val 4, .any, 0xFFFFFFFF⟩,
     ⟨0x01, 0x01, .u32, .ro, .f, .val 0xB2D, .any, 0xFFFFFFFF⟩,
     ⟨0x02, 0x02, .u32, .ro, .f, .product, .any, 0xFFFFFFFF⟩,
     ⟨0x03, 0x03, .u32, .ro, .f, .val 0xB0, .any, 0xFFFFFFFF⟩,
     ⟨0x04, 0x04, .u32, .ro, .f, .serial, .any, 0xFFFFFFFF⟩]⟩,
   ⟨0x1600, 4,
    [⟨0x00, 0x00, .u8, .rw, .l, .val 0x0, .nat 0 8, 0xFFFFFFFF⟩,
     ⟨0x01, 0x08, .u32, .rw, .l, .val 0x0, .any, 0xFFFFFFFF⟩]⟩,
   ⟨0x1A00, 4,
    [⟨0x00, 0x00, .u8, .rw, .l, .val 0x0, .nat 0 8, 0xFFFFFFFF⟩,
     ⟨0x01, 0x08, .u32, .rw, .l, .val 0x0, .any, 0xFFFFFFFF⟩]⟩,
   ⟨0x1C00, 1,
    [⟨0x00, 0x00, .u8, .ro, .f, .val 4, .any, 0xFFFFFFFF⟩,
     ⟨0x01, 0x04, .u8, .ro, .f, .plusSub 1, .any, 0xFFFFFFFF⟩]⟩,
   ⟨0x1C12, 1,
    [⟨0x00, 0x00, .u8, .rw, .l, .val 0x0, .nat 0 4, 0xFFFFFFFF⟩,
     ⟨0x01, 0x04, .u16, .rw, .l, .plusSub 0x1600, .nat 5632 5635, 0xFFFFFFFF⟩]⟩,
   ⟨0x1C13, 1,
    [⟨0x00, 0x00, .u8, .rw, .l, .val 0x0, .nat 0 4, 0xFFFFFFFF⟩,
     ⟨0x01, 0x04, .u16, .rw, .l, .plusSub 0x1A00, .nat 6656 6659, 0xFFFFFFFF⟩]⟩,
   ⟨0x3000, 1,
    [⟨0x00, 0x00, .u8, .ro, .f, .val 10, .any, 0xFFFFFFFF⟩,
     ⟨0x01, 0x01, .u32, .ro, .f, .val 0x0, .any, 0xFFFFFFFF⟩,
     ⟨0x02, 0x02, .u32, .ro, .l, .val 0x0, .any, 0xFFFFFFFF⟩,
     ⟨0x03, 0x03, .u32, .rw, .l, .val 0x0, .oneOf [0], 0xFFFFFFFF⟩,
     ⟨0x04, 0x04, .u32, .ro, .f, .val 0x0, .any, 0xFFFFFFFF⟩,
     ⟨0x05, 0x05, .u32, .rw, .l, .val 0x0, .oneOf [0], 0xFFFFFFFF⟩,
     ⟨0x06, 0x06, .u32, .rw, .l, .val 0x0, .oneOf [0], 0xFFFFFFFF⟩,
     ⟨0x07, 0x07, .u32, .rw, .l, .val 0x0, .oneOf [0], 0xFFFFFFFF⟩,
     ⟨0x08, 0x08, .u16, .rw, .l, .val 0x0, .step 0 65532 4, 0xFFFFFFFF⟩,
     ⟨0x09, 0x09, .u16, .wo, .l, .val 0x0, .any, 0xFFFFFFFF⟩,
     ⟨0x0A, 0x0A, .u16, .ro, .l, .val 0x0, .any, 0xFFFFFFFF⟩]⟩,
   ⟨0x3001, 1,
    [⟨0x00, 0x00, .u8, .ro, .f, .val 3, .any, 0xFFFFFFFF⟩,
     ⟨0x01, 0x01, .u32, .rw, .l, .val 0x100000, .any, 0xFFFFFFFF⟩,
     ⟨0x02, 0x02, .u32, .rw, .l, .val 0x0, .any, 0xFFFFFFFF⟩,
     ⟨0x03, 0x03, .enum8, .ro, .f, .val 0x0, .any, 0xFFFFFFFF⟩]⟩,
   ⟨0x3002, 1,
    [⟨0x00, 0x00, .u8, .ro, .f, .val 7, .any, 0xFFFFFFFF⟩,
     ⟨0x01, 0x01, .u8, .rw, .s, .val 0x4, .nat 1 32, 0xFFFFFFFF⟩,
     ⟨0x02, 0x02, .u8, .rw, .s, .val 0x1, .any, 0xFFFFFFFF⟩,
     ⟨0x03, 0x03, .bool, .rw, .s, .val 0x1, .any, 0xFFFFFFFF⟩,
     ⟨0x04, 0x04, .u32, .ro, .f, .val 0x0, .any, 0xFFFFFFFF⟩,
     ⟨0x05, 0x05, .u32, .rw, .l, .val 0x0, .oneOf [0], 0xFFFFFFFF⟩,
     ⟨0x06, 0x06, .u8, .rw, .l, .val 0x0, .oneOf [0], 0xFFFFFFFF⟩,
     ⟨0x07, 0x07, .u32, .rw, .l, .val 0x0, .oneOf [0], 0xFFFFFFFF⟩]⟩,
   ⟨0x3003, 1,
    [⟨0x00, 0x00, .u8, .ro, .f, .val 8, .any, 0xFFFFFFFF⟩,
     ⟨0x01, 0x01, .u32, .ro, .f, .val 0x1, .any, 0xFFFFFFFF⟩,
     ⟨0x02, 0x02, .u16, .rw, .s, .val 0x0, .any, 0xFFFFFFFF⟩,
     ⟨0x03, 0x03, .u16, .rw, .s, .val 0x64, .nat 0 10000, 0xFFFFFFFF⟩,
     ⟨0x04, 0x04, .u32, .rw, .l, .val 0x0, .oneOf [0], 0xFFFFFFFF⟩,
     ⟨0x05, 0x05, .u32, .rw, .l, .val 0x0, .oneOf [0], 0xFFFFFFFF⟩,
     ⟨0x06, 0x06, .u32, .rw, .l, .val 0x0, .oneOf [0], 0xFFFFFFFF⟩,
     ⟨0x07, 0x07, .u32, .rw, .l, .val 0x0, .oneOf [0], 0xFFFFFFFF⟩,
     ⟨0x08, 0x08, .u32, .rw, .l, .val 0x0, .oneOf [0], 0xFFFFFFFF⟩]⟩,
   ⟨0x3004, 1,
    [⟨0x00, 0x00, .u8, .ro, .f, .val 9, .any, 0xFFFFFFFF⟩,
     ⟨0x01, 0x01, .u32, .rw, .s, .val 0x83828180, .any, 0x9F9F9F9F⟩,
     ⟨0x02, 0x02, .u8, .ro, .f, .val 0x0, .any, 0xFFFFFFFF⟩,
     ⟨0x03, 0x03, .u32, .wo, .l, .val 0x0, .any, 0xC3FFFFFF⟩,
     ⟨0x04, 0x04, .u16, .ro, .f, .val 0x0, .any, 0xFFFFFFFF⟩,
     ⟨0x05, 0x05, .enum8, .ro, .f, .val 0x0, .any, 0xFFFFFFFF⟩,
     ⟨0x06, 0x09, .u32, .rw, .l, .val 0x0, .oneOf [0], 0xFFFFFFFF⟩]⟩]

/-- Objects of chapter 24. -/
def dictRows24 : List OIndex :=
  [⟨0x3010, 1,
    [⟨0x00, 0x00, .u8, .ro, .f, .val 3, .any, 0xFFFFFFFF⟩,
     ⟨0x01, 0x01, .u32, .ro, .f, .val 0x0, .any, 0xFFFFFFFF⟩,
     ⟨0x02, 0x02, .s32, .ro, .f, .val 0x0, .any, 0xFFFFFFFF⟩,
     ⟨0x03, 0x03, .u32, .rw, .l, .val 0x0, .oneOf [0], 0xFFFFFFFF⟩]⟩,
   ⟨0x3020, 1,
    [⟨0x00, 0x00, .u8, .ro, .f, .val 6, .any, 0xFFFFFFFF⟩,
     ⟨0x01, 0x01, .s16, .ro, .f, .val 0x0, .any, 0xFFFFFFFF⟩,
     ⟨0x02, 0x02, .s16, .rw, .l, .val 0x0, .oneOf [0], 0xFFFFFFFF⟩,
     ⟨0x03, 0x03, .s16, .rw, .l, .val 0x0, .oneOf [0], 0xFFFFFFFF⟩,
     ⟨0x04, 0x04, .u16, .ro, .f, .val 0x0, .any, 0xFFFFFFFF⟩,
     ⟨0x05, 0x05, .u16, .ro, .f, .val 0x0, .any, 0xFFFFFFFF⟩,
     ⟨0x06, 0x06, .u32, .ro, .f, .val 0x0, .any, 0xFFFFFFFF⟩]⟩,
   ⟨0x3021, 1,
    [⟨0x00, 0x00, .u8, .ro, .f, .val 8, .any, 0xFFFFFFFF⟩,
     ⟨0x01, 0x08, .u16, .ro, .f, .val 0x0, .any, 0xFFFFFFFF⟩]⟩,
   ⟨0x3030, 1,
    [⟨0x00, 0x00, .u8, .ro, .f, .val 5, .any, 0xFFFFFFFF⟩,
     ⟨0x01, 0x01, .enum8, .ro, .f, .val 0x1, .any, 0xFFFFFFFF⟩,
     ⟨0x02, 0x02, .u32, .ro, .f, .val 0x0, .any, 0xFFFFFFFF⟩,
     ⟨0x03, 0x03, .u32, .ro, .f, .val 0x0, .any, 0xFFFFFFFF⟩,
     ⟨0x04, 0x04, .u32, .rw, .l, .val 0x0, .oneOf [0], 0xFFFFFFFF⟩,
     ⟨0x05, 0x05, .u32, .rw, .l, .val 0x0, .oneOf [0], 0xFFFFFFFF⟩]⟩]

/-- All object tables. -/
def dictRows : List OIndex :=
  dictRows02 ++ dictRows03 ++ dictRows04 ++ dictRows05 ++ dictRows06 ++ dictRows07 ++ dictRows08 ++ dictRows09 ++ dictRows10 ++ dictRows11 ++ dictRows12 ++ dictRows13 ++ dictRows14 ++ dictRows15 ++ dictRows16 ++ dictRows17 ++ dictRows18 ++ dictRows19 ++ dictRows20 ++ dictRows21 ++ dictRows22 ++ dictRows23 ++ dictRows24

end Sys2Proof.Machine
end

