-- ==== Sys2Proof/Machine/Dict.lean ====
section
/-! DEFINITION. Looking an object up in the tables, its reset value, and the checks of a written value that need no state
(R6, R481, R532). -/
namespace Sys2Proof.Machine

/-- The index range that holds an index. -/
def findIndex (idx : Nat) : List OIndex → Option OIndex
  | [] => none
  | r :: rs => if decide (r.base ≤ idx) && decide (idx < r.base + r.n) then some r else findIndex idx rs

/-- The row that holds a sub. -/
def findSub (sub : Nat) : List ORow → Option ORow
  | [] => none
  | r :: rs => if decide (r.lo ≤ sub) && decide (sub ≤ r.hi) then some r else findSub sub rs

/-- The row of an object, with its instance and its place in the row's range of subs. -/
def rowOf (key : Nat) : Option (ORow × Nat × Nat) :=
  match findIndex (key / 256) dictRows with
  | none => none
  | some x =>
    match findSub (key % 256) x.rows with
    | none => none
    | some r => some (r, key / 256 - x.base, key % 256 - r.lo)

/-- LEVEL_MAP of a group (R468): the level sources. -/
def levelMapOf (g : Nat) : Nat :=
  match g with
  | 0 => 7 | 1 => 3 | 3 => 0xFFFFFFFF | 6 => 1 | 11 => 3 | 12 => 2 | 13 => 0xF | _ => 0

/-- Default MASK of a group (R478). -/
def maskDefault (g : Nat) : Nat :=
  match g with
  | 0 => 0xFFFFFFF0 | 1 => 0xFFFFFFFE | _ => 0xFFFFFFFF

/-- Reset value of a row's object. -/
def ORow.default (r : ORow) (inst sub : Nat) : Word :=
  match r.dflt with
  | .val n => w32 n
  | .byInst l => w32 (l.getD inst 0)
  | .plusSub n => w32 (n + sub)
  | .maskOf => w32 (maskDefault inst)
  | .levelMap => w32 (levelMapOf inst)
  | .product => if Config.gradeH then 0x00090402 else 0x00090401
  | .serial => Config.serial

/-- Reset value of an object; 0 for a key that names none. -/
def dfltW (key : Nat) : Word :=
  match rowOf key with
  | none => 0
  | some (r, i, j) => r.default i j

/-- A 32-bit word is the extension of a value of the type (R481). -/
def OTy.fits (t : OTy) (v : Word) : Bool :=
  match t with
  | .u8 | .enum8 => decide (v.toNat < 256)
  | .u16 => decide (v.toNat < 65536)
  | .bool => decide (v.toNat < 2)
  | .s16 | .q15 => decide (-32768 ≤ v.toInt) && decide (v.toInt ≤ 32767)
  | .u32 | .s32 | .q31 => true
  | .domain => false

/-- Bytes of a value of the type on the mailbox and in process data (R481). -/
def OTy.bytes (t : OTy) : Nat :=
  match t with
  | .u8 | .enum8 | .bool => 1
  | .u16 | .s16 | .q15 => 2
  | .u32 | .s32 | .q31 => 4
  | .domain => 0

/-- Little-endian value of `n` bytes as the 32-bit word of the type (R481). -/
def OTy.extend (t : OTy) (v : Nat) : Word :=
  match t with
  | .s16 | .q15 => i32 (BitVec.ofNat 16 v).toInt
  | _ => w32 v

/-- One bit field lies within its codes. -/
def fieldOk (v : Word) (f : Nat × Nat × Nat × Nat) : Bool :=
  decide (f.2.2.1 ≤ fld v f.1 f.2.1) && decide (fld v f.1 f.2.1 ≤ f.2.2.2)

/-- A node code is listed (R301). -/
def nodeListed (code : Nat) : Bool :=
  (decide (code / 16 < 6) && decide (code % 16 < 12)) || (decide (0x60 ≤ code) && decide (code ≤ 0x63)) || decide (code = 0x70) || decide (code = 0x71)

/-- A probe names what exists (R301, R245). -/
def probeOk (v : Word) : Bool :=
  let a := fld v 19 0
  match fld v 31 28 with
  | 0 | 1 => true
  | 2 => decide (a < 0x2400)
  | 3 => decide (a ≤ 0x2010) || (decide (0x40000 ≤ a) && decide (a < 0x80000))
  | 4 => nodeListed a
  | _ => false

/-- A recorded channel names what exists (R345). -/
def channelOk (v : Word) : Bool :=
  let a := fld v 13 0
  match fld v 31 28 with
  | 0 => true
  | 1 => decide (a ≤ 63)
  | 2 => decide (a ≤ 15)
  | 3 => nodeListed a
  | 4 => decide (a ≤ 12287)
  | _ => false

/-- The object's own range (R532). -/
def Rng.ok (r : Rng) (v : Word) : Bool :=
  match r with
  | .any => true
  | .nat lo hi => decide (lo ≤ v.toNat) && decide (v.toNat ≤ hi)
  | .natOr lo hi o => (decide (lo ≤ v.toNat) && decide (v.toNat ≤ hi)) || decide (v.toNat = o)
  | .zeroOr lo hi => decide (v.toNat = 0) || (decide (lo ≤ v.toNat) && decide (v.toNat ≤ hi))
  | .int lo hi => decide (lo ≤ v.toInt) && decide (v.toInt ≤ hi)
  | .step lo hi st => decide (lo ≤ v.toNat) && decide (v.toNat ≤ hi) && decide ((v.toNat - lo) % st = 0)
  | .oneOf l => l.contains v.toNat
  | .fields l => l.all (fieldOk v)
  | .shmOff => decide (v.toNat = 0xFFFFFFFF) || (decide (v.toNat < 1048576) && decide (v.toNat % 8 = 0))
  | .shmOff512 => decide (v.toNat = 0xFFFFFFFF) || decide (v.toNat % 512 = 0)
  | .trig => decide (fld v 15 8 < 64) && !(nbit v.toNat 1 && decide (fld v 3 2 = 0))
  | .probe => probeOk v
  | .channel => channelOk v

end Sys2Proof.Machine
end

