-- ==== Sys2Proof/Machine/Obj.lean ====
section
/-! DEFINITION. Names of the dictionary objects (R479): the key of an object is `index * 256 + sub`. The first argument
of a repeated object is its instance (lane, arm, engine, channel, pair, group), the last its place in a range of subs,
both counted from 0. -/
namespace Sys2Proof.Machine.Obj

/-- 2100.01 FRAME_COUNT_LO. -/
def FRAME_COUNT_LO : Nat := 0x210001
/-- 2100.02 FRAME_COUNT_HI. -/
def FRAME_COUNT_HI : Nat := 0x210002
/-- 2100.03 FRAME_STATUS. -/
def FRAME_STATUS : Nat := 0x210003
/-- 2101.01 TF_NS. -/
def TF_NS : Nat := 0x210101
/-- 2101.02 DK_OFFSET_NS. -/
def DK_OFFSET_NS : Nat := 0x210102
/-- 2101.03 P_SET. -/
def P_SET : Nat := 0x210103
/-- 2101.04 REL_GATE_LANES. -/
def REL_GATE_LANES : Nat := 0x210104
/-- 2102.01 TF_ACTIVE_NS. -/
def TF_ACTIVE_NS : Nat := 0x210201
/-- 2102.02 DK_ACTIVE_NS. -/
def DK_ACTIVE_NS : Nat := 0x210202
/-- 2102.03 P_ACTIVE. -/
def P_ACTIVE : Nat := 0x210203
/-- 2102.04 ROUTE_DELAY_MAX_NS. -/
def ROUTE_DELAY_MAX_NS : Nat := 0x210204
/-- 2102.05 ARRIVAL_SLACK_NS. -/
def ARRIVAL_SLACK_NS : Nat := 0x210205
/-- 2102.06 MIRROR_LIMIT_BYTES. -/
def MIRROR_LIMIT_BYTES : Nat := 0x210206
/-- 2103.01–0C FRAME_LATE_CNT. -/
def FRAME_LATE_CNT (j : Nat) : Nat := 0x210301 + j
/-- 2104.01 FRAME_ABORT_CNT. -/
def FRAME_ABORT_CNT : Nat := 0x210401
/-- 2104.02 REF_WRITE_DISCARD_CNT. -/
def REF_WRITE_DISCARD_CNT : Nat := 0x210402
/-- 2104.03 MEAS_LATE_CNT. -/
def MEAS_LATE_CNT : Nat := 0x210403
/-- 2104.04 CARAVAN_CUT_CNT. -/
def CARAVAN_CUT_CNT : Nat := 0x210404
/-- 2104.05 CARAVAN_SKIP_CNT. -/
def CARAVAN_SKIP_CNT : Nat := 0x210405
/-- 2105.01 SNAP_SEQ. -/
def SNAP_SEQ : Nat := 0x210501
/-- 2105.02 SNAP_FLAGS. -/
def SNAP_FLAGS : Nat := 0x210502
/-- 2105.03 SNAP_FRAME_LO. -/
def SNAP_FRAME_LO : Nat := 0x210503
/-- 2105.04 T_RELEASE_NS. -/
def T_RELEASE_NS : Nat := 0x210504
/-- 2105.05 T_DONE_NS. -/
def T_DONE_NS : Nat := 0x210505
/-- 2105.06 T_SELECT_NS. -/
def T_SELECT_NS : Nat := 0x210506
/-- 2105.07 T_CARAVAN_END_NS. -/
def T_CARAVAN_END_NS : Nat := 0x210507
/-- 2105.08 T_MIRROR_END_NS. -/
def T_MIRROR_END_NS : Nat := 0x210508
/-- 2106.01 MIN_SLACK_NS. -/
def MIN_SLACK_NS : Nat := 0x210601
/-- 2000.01 MODE. -/
def MODE : Nat := 0x200001
/-- 2000.02 ROLE. -/
def ROLE : Nat := 0x200002
/-- 2000.03 MODE_REQ. -/
def MODE_REQ : Nat := 0x200003
/-- 2000.04 MODE_REQ_RESULT. -/
def MODE_REQ_RESULT : Nat := 0x200004
/-- 2000.05 MODE_ENTRY_FRAME_LO. -/
def MODE_ENTRY_FRAME_LO : Nat := 0x200005
/-- 2000.06 MODE_ENTRY_FRAME_HI. -/
def MODE_ENTRY_FRAME_HI : Nat := 0x200006
/-- 2000.07 MODE_CAUSE. -/
def MODE_CAUSE : Nat := 0x200007
/-- 2000.08 SAFE_ACK. -/
def SAFE_ACK : Nat := 0x200008
/-- 2000.09 SAFE_EXIT_BLOCKERS. -/
def SAFE_EXIT_BLOCKERS : Nat := 0x200009
/-- 2001.01 COMMIT_REQ. -/
def COMMIT_REQ : Nat := 0x200101
/-- 2001.02 COMMIT_SEQ. -/
def COMMIT_SEQ : Nat := 0x200102
/-- 2001.03 COMMIT_STATE. -/
def COMMIT_STATE : Nat := 0x200103
/-- 2001.04 COMMIT_RESULT. -/
def COMMIT_RESULT : Nat := 0x200104
/-- 2001.05 COMMIT_DETAIL. -/
def COMMIT_DETAIL : Nat := 0x200105
/-- 2001.06 COMMIT_TICK_LO. -/
def COMMIT_TICK_LO : Nat := 0x200106
/-- 2001.07 COMMIT_TICK_HI. -/
def COMMIT_TICK_HI : Nat := 0x200107
/-- 2001.08 STAGE_WRITE_REFUSED_CNT. -/
def STAGE_WRITE_REFUSED_CNT : Nat := 0x200108
/-- 2002.01 BOOT_STATUS. -/
def BOOT_STATUS : Nat := 0x200201
/-- 2002.02 BOOT_SLOT. -/
def BOOT_SLOT : Nat := 0x200202
/-- 2002.03 IMAGE_SEQ. -/
def IMAGE_SEQ : Nat := 0x200203
/-- 2002.04 SLOT_A_SEQ. -/
def SLOT_A_SEQ : Nat := 0x200204
/-- 2002.05 SLOT_B_SEQ. -/
def SLOT_B_SEQ : Nat := 0x200205
/-- 2002.06 SLOT_FLAGS. -/
def SLOT_FLAGS : Nat := 0x200206
/-- 2002.07 BOOT_TIME_US. -/
def BOOT_TIME_US : Nat := 0x200207
/-- 2002.08 BOOT_SEL_PINS. -/
def BOOT_SEL_PINS : Nat := 0x200208
/-- 2003.01 LANE_WAIT_MS. -/
def LANE_WAIT_MS : Nat := 0x200301
/-- 2003.02 TIME_WAIT_MS. -/
def TIME_WAIT_MS : Nat := 0x200302
/-- 2003.03 READY_VCELL_MIN. -/
def READY_VCELL_MIN : Nat := 0x200303
/-- 2003.04 READY_DWELL_FRAMES. -/
def READY_DWELL_FRAMES : Nat := 0x200304
/-- 2003.05 RT_ENABLE. -/
def RT_ENABLE : Nat := 0x200305
/-- 2003.06 RT_IDC_SRC. -/
def RT_IDC_SRC : Nat := 0x200306
/-- 2003.07 RT_IDC_THR. -/
def RT_IDC_THR : Nat := 0x200307
/-- 2003.08 RT_MAX_FRAMES. -/
def RT_MAX_FRAMES : Nat := 0x200308
/-- 2003.09 RT_EXIT_FRAMES. -/
def RT_EXIT_FRAMES : Nat := 0x200309
/-- 2003.0A RT_REQ. -/
def RT_REQ : Nat := 0x20030A
/-- 2003.0B TEST_VDC_MAX. -/
def TEST_VDC_MAX : Nat := 0x20030B
/-- 2003.0C TEST_SELECT. -/
def TEST_SELECT : Nat := 0x20030C
/-- 2004.01 IMG_CTRL. -/
def IMG_CTRL : Nat := 0x200401
/-- 2004.02 IMG_OFFSET. -/
def IMG_OFFSET : Nat := 0x200402
/-- 2004.03 IMG_DATA. -/
def IMG_DATA : Nat := 0x200403
/-- 2004.04 IMG_STATUS. -/
def IMG_STATUS : Nat := 0x200404
/-- 22nn.01 LANE_CTRL. -/
def LANE_CTRL (i : Nat) : Nat := 0x220001 + 256 * i
/-- 22nn.02 LANE_STATUS. -/
def LANE_STATUS (i : Nat) : Nat := 0x220002 + 256 * i
/-- 22nn.03 RETRAIN_CNT. -/
def RETRAIN_CNT (i : Nat) : Nat := 0x220003 + 256 * i
/-- 22nn.04 BLOCK_ERR_CNT. -/
def BLOCK_ERR_CNT (i : Nat) : Nat := 0x220004 + 256 * i
/-- 22nn.05 LOS_CNT. -/
def LOS_CNT (i : Nat) : Nat := 0x220005 + 256 * i
/-- 22nn.06 PRBS_ERR. -/
def PRBS_ERR (i : Nat) : Nat := 0x220006 + 256 * i
/-- 22nn.07 PRBS_BITS_LO. -/
def PRBS_BITS_LO (i : Nat) : Nat := 0x220007 + 256 * i
/-- 22nn.08 PRBS_BITS_HI. -/
def PRBS_BITS_HI (i : Nat) : Nat := 0x220008 + 256 * i
/-- 22nn.09 PRBS_RESYNC_CNT. -/
def PRBS_RESYNC_CNT (i : Nat) : Nat := 0x220009 + 256 * i
/-- 22nn.0A CC_SLIP_CNT. -/
def CC_SLIP_CNT (i : Nat) : Nat := 0x22000A + 256 * i
/-- 22nn.0B TX_CFG. -/
def TX_CFG (i : Nat) : Nat := 0x22000B + 256 * i
/-- 22nn.0C LANE_CTRL_REFUSED_CNT. -/
def LANE_CTRL_REFUSED_CNT (i : Nat) : Nat := 0x22000C + 256 * i
/-- 2230.01 LANE_DATA_MASK. -/
def LANE_DATA_MASK : Nat := 0x223001
/-- 2230.02 LANE_ENABLED_MASK. -/
def LANE_ENABLED_MASK : Nat := 0x223002
/-- 2230.03 SRCLK_STATUS. -/
def SRCLK_STATUS : Nat := 0x223003
/-- 2230.04 SRCLK_LOSS_CNT. -/
def SRCLK_LOSS_CNT : Nat := 0x223004
/-- 22nn.01 ROUTE_STATUS. -/
def ROUTE_STATUS (i : Nat) : Nat := 0x224001 + 256 * i
/-- 22nn.02 ROUTE_DELAY_Q. -/
def ROUTE_DELAY_Q (i : Nat) : Nat := 0x224002 + 256 * i
/-- 22nn.03 UNITS_FOUND. -/
def UNITS_FOUND (i : Nat) : Nat := 0x224003 + 256 * i
/-- 22nn.04 DISC_RESULT. -/
def DISC_RESULT (i : Nat) : Nat := 0x224004 + 256 * i
/-- 22nn.05 DISC_DETAIL. -/
def DISC_DETAIL (i : Nat) : Nat := 0x224005 + 256 * i
/-- 22nn.06 DISC_CTRL. -/
def DISC_CTRL (i : Nat) : Nat := 0x224006 + 256 * i
/-- 22nn.07 UP_HDR_ERR_CNT. -/
def UP_HDR_ERR_CNT (i : Nat) : Nat := 0x224007 + 256 * i
/-- 22nn.08 UP_GROUP_ERR_CNT. -/
def UP_GROUP_ERR_CNT (i : Nat) : Nat := 0x224008 + 256 * i
/-- 22nn.09 UP_LATE_CNT. -/
def UP_LATE_CNT (i : Nat) : Nat := 0x224009 + 256 * i
/-- 22nn.0A EOT_ERR_CNT. -/
def EOT_ERR_CNT (i : Nat) : Nat := 0x22400A + 256 * i
/-- 22nn.0B FILL_CNT. -/
def FILL_CNT (i : Nat) : Nat := 0x22400B + 256 * i
/-- 22nn.0C MISS_CNT. -/
def MISS_CNT (i : Nat) : Nat := 0x22400C + 256 * i
/-- 22nn.0D LONG_RX_CNT. -/
def LONG_RX_CNT (i : Nat) : Nat := 0x22400D + 256 * i
/-- 22nn.0E LONG_ERR_CNT. -/
def LONG_ERR_CNT (i : Nat) : Nat := 0x22400E + 256 * i
/-- 22nn.0F DISC_TIMEOUT_CNT. -/
def DISC_TIMEOUT_CNT (i : Nat) : Nat := 0x22400F + 256 * i
/-- 22nn.10 UNIT_NEW_CNT. -/
def UNIT_NEW_CNT (i : Nat) : Nat := 0x224010 + 256 * i
/-- 22nn.11 COUNT_ERR_CNT. -/
def COUNT_ERR_CNT (i : Nat) : Nat := 0x224011 + 256 * i
/-- 22nn.12 TREE_SIG. -/
def TREE_SIG (i : Nat) : Nat := 0x224012 + 256 * i
/-- 2280.01 DISC_PINGS. -/
def DISC_PINGS : Nat := 0x228001
/-- 2280.02 DISC_SPREAD_Q. -/
def DISC_SPREAD_Q : Nat := 0x228002
/-- 2280.03 DISC_TIMEOUT_US. -/
def DISC_TIMEOUT_US : Nat := 0x228003
/-- 2280.04 DISC_TIMEOUT_FRAMES. -/
def DISC_TIMEOUT_FRAMES : Nat := 0x228004
/-- 2280.05 AUTO_VERIFY. -/
def AUTO_VERIFY : Nat := 0x228005
/-- 2280.06 LONG_GRANT_EN. -/
def LONG_GRANT_EN : Nat := 0x228006
/-- 2280.07 DRIFT_Q. -/
def DRIFT_Q : Nat := 0x228007
/-- 2281.01 UPLINK_EN. -/
def UPLINK_EN : Nat := 0x228101
/-- 2281.02 GROUP_SLOTS. -/
def GROUP_SLOTS : Nat := 0x228102
/-- 2281.03 GROUP_TX_OFF. -/
def GROUP_TX_OFF : Nat := 0x228103
/-- 2281.04 GROUP_RX_OFF. -/
def GROUP_RX_OFF : Nat := 0x228104
/-- 2281.05 UPLINK_STATUS. -/
def UPLINK_STATUS : Nat := 0x228105
/-- 2282.01–10 GROUP_BUF_OFF. -/
def GROUP_BUF_OFF (j : Nat) : Nat := 0x228201 + j
/-- 2283.01 LONG_RING. -/
def LONG_RING : Nat := 0x228301
/-- 2283.02 LONG_RING_WR. -/
def LONG_RING_WR : Nat := 0x228302
/-- 2284.01 MAN_LANE. -/
def MAN_LANE : Nat := 0x228401
/-- 2284.02 MAN_STAGED. -/
def MAN_STAGED : Nat := 0x228402
/-- 2284.03 MAN_ACTIVE. -/
def MAN_ACTIVE : Nat := 0x228403
/-- 22A0.01–20 ROUTE_ASYM_Q. -/
def ROUTE_ASYM_Q (j : Nat) : Nat := 0x22A001 + j
/-- 22A1.01 CELL_HOLD_LIMIT. -/
def CELL_HOLD_LIMIT : Nat := 0x22A101
/-- 22A1.02 COURIER_REQ. -/
def COURIER_REQ : Nat := 0x22A102
/-- 22A1.03 COURIER_LANES. -/
def COURIER_LANES : Nat := 0x22A103
/-- 22A1.04 COURIER_REQ_RESULT. -/
def COURIER_REQ_RESULT : Nat := 0x22A104
/-- 22A2.01 BLOCK_COURIER_CNT. -/
def BLOCK_COURIER_CNT : Nat := 0x22A201
/-- 22A2.02 HOLD_COURIER_CNT. -/
def HOLD_COURIER_CNT : Nat := 0x22A202
/-- 22A2.03 RELEASE_COURIER_CNT. -/
def RELEASE_COURIER_CNT : Nat := 0x22A203
/-- 22A2.04 LAST_TRIP_LAT_NS. -/
def LAST_TRIP_LAT_NS : Nat := 0x22A204
/-- 22A2.05 MAX_TRIP_LAT_NS. -/
def MAX_TRIP_LAT_NS : Nat := 0x22A205
/-- 22A2.06 HOLD_LANES. -/
def HOLD_LANES : Nat := 0x22A206
/-- 22A3.01 BEACON_SRC_ID. -/
def BEACON_SRC_ID : Nat := 0x22A301
/-- 22A3.02 BEACON_TX_LANES. -/
def BEACON_TX_LANES : Nat := 0x22A302
/-- 22A3.03 BEACON_RELAY. -/
def BEACON_RELAY : Nat := 0x22A303
/-- 22A3.04 BEACON_SEND. -/
def BEACON_SEND : Nat := 0x22A304
/-- 22A4.01–40 BEACON_COMP_NS. -/
def BEACON_COMP_NS (j : Nat) : Nat := 0x22A401 + j
/-- 22A5.01 BEACON_RX_CNT. -/
def BEACON_RX_CNT : Nat := 0x22A501
/-- 22A5.02 BEACON_TX_CNT. -/
def BEACON_TX_CNT : Nat := 0x22A502
/-- 22A5.03 BEACON_LATE_CNT. -/
def BEACON_LATE_CNT : Nat := 0x22A503
/-- 22A5.04 BEACON_DUP_CNT. -/
def BEACON_DUP_CNT : Nat := 0x22A504
/-- 22A5.05 BEACON_CRC_ERR_CNT. -/
def BEACON_CRC_ERR_CNT : Nat := 0x22A505
/-- 22A5.06 BEACON_Q_DROP_CNT. -/
def BEACON_Q_DROP_CNT : Nat := 0x22A506
/-- 22A6.01 TRIG_IN_CFG. -/
def TRIG_IN_CFG : Nat := 0x22A601
/-- 22A6.02 TRIG_IN_EVENT. -/
def TRIG_IN_EVENT : Nat := 0x22A602
/-- 22A6.03 TRIG_IN_FILTER_NS. -/
def TRIG_IN_FILTER_NS : Nat := 0x22A603
/-- 22A6.04 TRIG_IN_COMP_NS. -/
def TRIG_IN_COMP_NS : Nat := 0x22A604
/-- 22A6.05 TRIG_OUT_EVENTS_LO. -/
def TRIG_OUT_EVENTS_LO : Nat := 0x22A605
/-- 22A6.06 TRIG_OUT_EVENTS_HI. -/
def TRIG_OUT_EVENTS_HI : Nat := 0x22A606
/-- 22A6.07 TRIG_OUT_LEAD_NS. -/
def TRIG_OUT_LEAD_NS : Nat := 0x22A607
/-- 22A6.08 TRIG_OUT_WIDTH_NS. -/
def TRIG_OUT_WIDTH_NS : Nat := 0x22A608
/-- 22A6.09 TRIG_OUT_POL. -/
def TRIG_OUT_POL : Nat := 0x22A609
/-- 22A6.0A BEACON_HOPS_DROP_CNT. -/
def BEACON_HOPS_DROP_CNT : Nat := 0x22A60A
/-- 22A7.01 TRIG_IN_CNT. -/
def TRIG_IN_CNT : Nat := 0x22A701
/-- 22A7.02 TRIG_IN_IGNORED_CNT. -/
def TRIG_IN_IGNORED_CNT : Nat := 0x22A702
/-- 22A7.03 TRIG_OUT_CNT. -/
def TRIG_OUT_CNT : Nat := 0x22A703
/-- 22A7.04 TRIG_OUT_LATE_CNT. -/
def TRIG_OUT_LATE_CNT : Nat := 0x22A704
/-- 2300.01 VMAX. -/
def VMAX : Nat := 0x230001
/-- 2300.02 VMIN. -/
def VMIN : Nat := 0x230002
/-- 2300.03 SUSPECT_MASK. -/
def SUSPECT_MASK : Nat := 0x230003
/-- 2300.04 RETIRE_MASK. -/
def RETIRE_MASK : Nat := 0x230004
/-- 2300.05 RETIRE_FAULT_RECORDS. -/
def RETIRE_FAULT_RECORDS : Nat := 0x230005
/-- 2300.06 CLEAR_RUN. -/
def CLEAR_RUN : Nat := 0x230006
/-- 2300.07 STALE_EXTRA. -/
def STALE_EXTRA : Nat := 0x230007
/-- 2300.08 ABSENT_RETIRE_FRAMES. -/
def ABSENT_RETIRE_FRAMES : Nat := 0x230008
/-- 2301.01 HEALTH_CMD_INDEX. -/
def HEALTH_CMD_INDEX : Nat := 0x230101
/-- 2301.02 HEALTH_CMD. -/
def HEALTH_CMD : Nat := 0x230102
/-- 2301.03 HEALTH_CMD_RESULT. -/
def HEALTH_CMD_RESULT : Nat := 0x230103
/-- 2302.01 CFG_INDEX. -/
def CFG_INDEX : Nat := 0x230201
/-- 2302.02 CFG_WORD. -/
def CFG_WORD : Nat := 0x230202
/-- 2303.01–0C ARM_CNT_A. -/
def ARM_CNT_A (j : Nat) : Nat := 0x230301 + j
/-- 2304.01–0C ARM_CNT_B. -/
def ARM_CNT_B (j : Nat) : Nat := 0x230401 + j
/-- 2305.01 HEALTH_EVT_CNT. -/
def HEALTH_EVT_CNT : Nat := 0x230501
/-- 2305.02 HOST_WR_DISCARD_CNT. -/
def HOST_WR_DISCARD_CNT : Nat := 0x230502
/-- 2305.03 STALE_NOW. -/
def STALE_NOW : Nat := 0x230503
/-- 2305.04 ENABLED_CNT. -/
def ENABLED_CNT : Nat := 0x230504
/-- 2305.05 REINIT_CNT. -/
def REINIT_CNT : Nat := 0x230505
/-- 240n.01 ARM_VRATED. -/
def ARM_VRATED (i : Nat) : Nat := 0x240001 + 256 * i
/-- 240n.02 MEAN_SEL. -/
def MEAN_SEL (i : Nat) : Nat := 0x240002 + 256 * i
/-- 240n.03 VCELL_NOM. -/
def VCELL_NOM (i : Nat) : Nat := 0x240003 + 256 * i
/-- 240n.04 ARM_NMAX. -/
def ARM_NMAX (i : Nat) : Nat := 0x240004 + 256 * i
/-- 240n.05 EDGE_MIN_NS. -/
def EDGE_MIN_NS (i : Nat) : Nat := 0x240005 + 256 * i
/-- 240n.06 NEG_ENABLE. -/
def NEG_ENABLE (i : Nat) : Nat := 0x240006 + 256 * i
/-- 240n.07 FORCE_IN_RUN. -/
def FORCE_IN_RUN (i : Nat) : Nat := 0x240007 + 256 * i
/-- 241n.01 ARM_REF. -/
def ARM_REF (i : Nat) : Nat := 0x241001 + 256 * i
/-- 241n.02 REF_SAMPLED. -/
def REF_SAMPLED (i : Nat) : Nat := 0x241002 + 256 * i
/-- 241n.03 REF_NOTCHED. -/
def REF_NOTCHED (i : Nat) : Nat := 0x241003 + 256 * i
/-- 241n.04 BUILT_SLOT_LO. -/
def BUILT_SLOT_LO (i : Nat) : Nat := 0x241004 + 256 * i
/-- 241n.05 BUILT_COUNT. -/
def BUILT_COUNT (i : Nat) : Nat := 0x241005 + 256 * i
/-- 241n.06 BUILT_EDGE. -/
def BUILT_EDGE (i : Nat) : Nat := 0x241006 + 256 * i
/-- 241n.07 EXEC_COUNT. -/
def EXEC_COUNT (i : Nat) : Nat := 0x241007 + 256 * i
/-- 241n.08 EXEC_EDGE. -/
def EXEC_EDGE (i : Nat) : Nat := 0x241008 + 256 * i
/-- 241n.09 MOD_STATUS. -/
def MOD_STATUS (i : Nat) : Nat := 0x241009 + 256 * i
/-- 241n.0A SAT_CNT. -/
def SAT_CNT (i : Nat) : Nat := 0x24100A + 256 * i
/-- 241n.0B NEG_CLAMP_CNT. -/
def NEG_CLAMP_CNT (i : Nat) : Nat := 0x24100B + 256 * i
/-- 241n.0C MINPULSE_ADJ_CNT. -/
def MINPULSE_ADJ_CNT (i : Nat) : Nat := 0x24100C + 256 * i
/-- 241n.0D NO_MEAN_CNT. -/
def NO_MEAN_CNT (i : Nat) : Nat := 0x24100D + 256 * i
/-- 242n.01 FORCE_CTRL. -/
def FORCE_CTRL (i : Nat) : Nat := 0x242001 + 256 * i
/-- 242n.02 FORCE_COUNT. -/
def FORCE_COUNT (i : Nat) : Nat := 0x242002 + 256 * i
/-- 242n.03 FORCE_EDGE. -/
def FORCE_EDGE (i : Nat) : Nat := 0x242003 + 256 * i
/-- 242n.04–0B FORCE_CELL. -/
def FORCE_CELL (i j : Nat) : Nat := 0x242004 + 256 * i + j
/-- 242n.0C FORCE_ARMED. -/
def FORCE_ARMED (i : Nat) : Nat := 0x24200C + 256 * i
/-- 242n.0D FORCE_RESULT. -/
def FORCE_RESULT (i : Nat) : Nat := 0x24200D + 256 * i
/-- 242n.0E FORCE_APPLIED_SLOT_LO. -/
def FORCE_APPLIED_SLOT_LO (i : Nat) : Nat := 0x24200E + 256 * i
/-- 242n.0F FORCE_COMMIT_ALL. -/
def FORCE_COMMIT_ALL (i : Nat) : Nat := 0x24200F + 256 * i
/-- 243n.01 MASK_SRC. -/
def MASK_SRC (i : Nat) : Nat := 0x243001 + 256 * i
/-- 243n.02 MASK_POL. -/
def MASK_POL (i : Nat) : Nat := 0x243002 + 256 * i
/-- 243n.03 MASK_FILTER_NS. -/
def MASK_FILTER_NS (i : Nat) : Nat := 0x243003 + 256 * i
/-- 243n.04 MASK_MODE. -/
def MASK_MODE (i : Nat) : Nat := 0x243004 + 256 * i
/-- 243n.05 MASK_STATE. -/
def MASK_STATE (i : Nat) : Nat := 0x243005 + 256 * i
/-- 243n.06 MASK_CLEAR. -/
def MASK_CLEAR (i : Nat) : Nat := 0x243006 + 256 * i
/-- 243n.07 MASK_STATUS. -/
def MASK_STATUS (i : Nat) : Nat := 0x243007 + 256 * i
/-- 243n.08 MASK_EVT_CNT. -/
def MASK_EVT_CNT (i : Nat) : Nat := 0x243008 + 256 * i
/-- 243n.09 MASK_FIRST_SLOT_LO. -/
def MASK_FIRST_SLOT_LO (i : Nat) : Nat := 0x243009 + 256 * i
/-- 243n.0A MASK_CLEAR_REFUSED_CNT. -/
def MASK_CLEAR_REFUSED_CNT (i : Nat) : Nat := 0x24300A + 256 * i
/-- 243n.0B MASK_BEACON. -/
def MASK_BEACON (i : Nat) : Nat := 0x24300B + 256 * i
/-- 2500.01 SEL_CFG. -/
def SEL_CFG : Nat := 0x250001
/-- 2500.02 SEL_LEAK_FRAMES. -/
def SEL_LEAK_FRAMES : Nat := 0x250002
/-- 2500.03 SEL_EVENT_INC. -/
def SEL_EVENT_INC : Nat := 0x250003
/-- 2500.04 SEL_WARMUP_FRAMES. -/
def SEL_WARMUP_FRAMES : Nat := 0x250004
/-- 251n.01 SEL_IDIR_SRC. -/
def SEL_IDIR_SRC (i : Nat) : Nat := 0x251001 + 256 * i
/-- 251n.02 SEL_I_STREAM. -/
def SEL_I_STREAM (i : Nat) : Nat := 0x251002 + 256 * i
/-- 251n.03 SEL_HYST_V. -/
def SEL_HYST_V (i : Nat) : Nat := 0x251003 + 256 * i
/-- 251n.04 SEL_SWAP_MAX. -/
def SEL_SWAP_MAX (i : Nat) : Nat := 0x251004 + 256 * i
/-- 251n.05 SEL_BIAS_GAIN. -/
def SEL_BIAS_GAIN (i : Nat) : Nat := 0x251005 + 256 * i
/-- 251n.06 SEL_BIAS_MAX. -/
def SEL_BIAS_MAX (i : Nat) : Nat := 0x251006 + 256 * i
/-- 251n.07 SEL_BIAS_FLOOR. -/
def SEL_BIAS_FLOOR (i : Nat) : Nat := 0x251007 + 256 * i
/-- 251n.08 SEL_CEIL. -/
def SEL_CEIL (i : Nat) : Nat := 0x251008 + 256 * i
/-- 251n.09 SEL_FRAC_DWELL. -/
def SEL_FRAC_DWELL (i : Nat) : Nat := 0x251009 + 256 * i
/-- 251n.0A SEL_I_DEADBAND. -/
def SEL_I_DEADBAND (i : Nat) : Nat := 0x25100A + 256 * i
/-- 251n.0B SEL_IDIR_FW. -/
def SEL_IDIR_FW (i : Nat) : Nat := 0x25100B + 256 * i
/-- 251n.0C SEL_NMIN. -/
def SEL_NMIN (i : Nat) : Nat := 0x25100C + 256 * i
/-- 251n.0D SEL_I_INVERT. -/
def SEL_I_INVERT (i : Nat) : Nat := 0x25100D + 256 * i
/-- 252n.01 SEL_STATUS. -/
def SEL_STATUS (i : Nat) : Nat := 0x252001 + 256 * i
/-- 252n.02 SEL_AVAIL. -/
def SEL_AVAIL (i : Nat) : Nat := 0x252002 + 256 * i
/-- 252n.03 FRAC_INDEX. -/
def FRAC_INDEX (i : Nat) : Nat := 0x252003 + 256 * i
/-- 252n.04 N_PROMOTED. -/
def N_PROMOTED (i : Nat) : Nat := 0x252004 + 256 * i
/-- 252n.05 WARMUP_LEFT. -/
def WARMUP_LEFT (i : Nat) : Nat := 0x252005 + 256 * i
/-- 252n.06 SEP_END. -/
def SEP_END (i : Nat) : Nat := 0x252006 + 256 * i
/-- 252n.07 SWAP_CNT. -/
def SWAP_CNT (i : Nat) : Nat := 0x252007 + 256 * i
/-- 252n.08 SWAP_LIMIT_CNT. -/
def SWAP_LIMIT_CNT (i : Nat) : Nat := 0x252008 + 256 * i
/-- 252n.09 CEIL_BLOCK_CNT. -/
def CEIL_BLOCK_CNT (i : Nat) : Nat := 0x252009 + 256 * i
/-- 252n.0A CEIL_OVERRIDE_CNT. -/
def CEIL_OVERRIDE_CNT (i : Nat) : Nat := 0x25200A + 256 * i
/-- 252n.0B SUSPECT_USE_CNT. -/
def SUSPECT_USE_CNT (i : Nat) : Nat := 0x25200B + 256 * i
/-- 252n.0C SWITCH_EVT_CNT. -/
def SWITCH_EVT_CNT (i : Nat) : Nat := 0x25200C + 256 * i
/-- 252n.0D HELD_EXCESS_CNT. -/
def HELD_EXCESS_CNT (i : Nat) : Nat := 0x25200D + 256 * i
/-- 252n.0E BLOCK_CLEAR_CNT. -/
def BLOCK_CLEAR_CNT (i : Nat) : Nat := 0x25200E + 256 * i
/-- 2600.01 ENGINE_EN. -/
def ENGINE_EN : Nat := 0x260001
/-- 2600.02 EXC_CLASS. -/
def EXC_CLASS : Nat := 0x260002
/-- 2600.03 STICKY_CLASS. -/
def STICKY_CLASS : Nat := 0x260003
/-- 2600.04 STICKY_MASK. -/
def STICKY_MASK : Nat := 0x260004
/-- 2600.05 PROG_WR_DISCARD_CNT. -/
def PROG_WR_DISCARD_CNT : Nat := 0x260005
/-- 2600.06 SEM_STATE. -/
def SEM_STATE : Nat := 0x260006
/-- 2601.01 CUP_PAGE. -/
def CUP_PAGE : Nat := 0x260101
/-- 2601.02 SHM_PAGE. -/
def SHM_PAGE : Nat := 0x260102
/-- 261e.01 ENG_STATUS. -/
def ENG_STATUS (i : Nat) : Nat := 0x261001 + 256 * i
/-- 261e.02 BUSY_CYC_LO. -/
def BUSY_CYC_LO (i : Nat) : Nat := 0x261002 + 256 * i
/-- 261e.03 BUSY_CYC_HI. -/
def BUSY_CYC_HI (i : Nat) : Nat := 0x261003 + 256 * i
/-- 261e.04 STALL_CYC_LO. -/
def STALL_CYC_LO (i : Nat) : Nat := 0x261004 + 256 * i
/-- 261e.05 STALL_CYC_HI. -/
def STALL_CYC_HI (i : Nat) : Nat := 0x261005 + 256 * i
/-- 261e.06 INSTR_LO. -/
def INSTR_LO (i : Nat) : Nat := 0x261006 + 256 * i
/-- 261e.07 INSTR_HI. -/
def INSTR_HI (i : Nat) : Nat := 0x261007 + 256 * i
/-- 261e.08 EXC_CNT. -/
def EXC_CNT (i : Nat) : Nat := 0x261008 + 256 * i
/-- 261e.09 LAST_EXC. -/
def LAST_EXC (i : Nat) : Nat := 0x261009 + 256 * i
/-- 261e.0A STICKY_OR. -/
def STICKY_OR (i : Nat) : Nat := 0x26100A + 256 * i
/-- 261e.0B DICT_ACC_CNT. -/
def DICT_ACC_CNT (i : Nat) : Nat := 0x26100B + 256 * i
/-- 268e.01–10 TO_WORD. -/
def TO_WORD (i j : Nat) : Nat := 0x268001 + 256 * i + j
/-- 268e.11 TO_SEQ. -/
def TO_SEQ (i : Nat) : Nat := 0x268011 + 256 * i
/-- 268e.12–21 FROM_WORD. -/
def FROM_WORD (i j : Nat) : Nat := 0x268012 + 256 * i + j
/-- 268e.22 FROM_SEQ. -/
def FROM_SEQ (i : Nat) : Nat := 0x268022 + 256 * i
/-- 2688.01 MB_DEPOSIT_CNT. -/
def MB_DEPOSIT_CNT : Nat := 0x268801
/-- 2688.02 MB_VALID_LO. -/
def MB_VALID_LO : Nat := 0x268802
/-- 2688.03 MB_VALID_HI. -/
def MB_VALID_HI : Nat := 0x268803
/-- 2140.01 SCHED_STATUS. -/
def SCHED_STATUS : Nat := 0x214001
/-- 2140.02 PREEMPT_CNT. -/
def PREEMPT_CNT : Nat := 0x214002
/-- 2140.03 REDIRECT_CNT. -/
def REDIRECT_CNT : Nat := 0x214003
/-- 2140.04 TAILCHAIN_CNT. -/
def TAILCHAIN_CNT : Nat := 0x214004
/-- 2140.05 HW_PEND_CNT. -/
def HW_PEND_CNT : Nat := 0x214005
/-- 2140.06 HW_MERGE_CNT. -/
def HW_MERGE_CNT : Nat := 0x214006
/-- 2140.07 HOST_REFUSE_CNT. -/
def HOST_REFUSE_CNT : Nat := 0x214007
/-- 2140.08 MODE_DROP_CNT. -/
def MODE_DROP_CNT : Nat := 0x214008
/-- 2140.09 CYC_WARN_CNT. -/
def CYC_WARN_CNT : Nat := 0x214009
/-- 2141.01 HOST_RELEASE. -/
def HOST_RELEASE : Nat := 0x214101
/-- 2141.02 HOST_RELEASE_RESULT. -/
def HOST_RELEASE_RESULT : Nat := 0x214102
/-- 2141.03 DELAY_ARM. -/
def DELAY_ARM : Nat := 0x214103
/-- 2141.04 DELAY_CANCEL. -/
def DELAY_CANCEL : Nat := 0x214104
/-- 2141.05 DELAY_RESULT. -/
def DELAY_RESULT : Nat := 0x214105
/-- 2142.01 DESC_INDEX. -/
def DESC_INDEX : Nat := 0x214201
/-- 2142.02 DESC_W0. -/
def DESC_W0 : Nat := 0x214202
/-- 2142.03 DESC_W1. -/
def DESC_W1 : Nat := 0x214203
/-- 2142.04 DESC_W2. -/
def DESC_W2 : Nat := 0x214204
/-- 2142.05 DESC_W3. -/
def DESC_W3 : Nat := 0x214205
/-- 2142.06 DESC_STATE. -/
def DESC_STATE : Nat := 0x214206
/-- 2142.07 DESC_REL_CNT. -/
def DESC_REL_CNT : Nat := 0x214207
/-- 2143.01–10 MAX_LAT_NS. -/
def MAX_LAT_NS (j : Nat) : Nat := 0x214301 + j
/-- 2144.01–10 READY_DEPTH. -/
def READY_DEPTH (j : Nat) : Nat := 0x214401 + j
/-- 2700.01 AIDS_STICKY. -/
def AIDS_STICKY : Nat := 0x270001
/-- 2700.02 AIDS_STICKY_MASK. -/
def AIDS_STICKY_MASK : Nat := 0x270002
/-- 2700.03 AIDS_STICKY_CLASS. -/
def AIDS_STICKY_CLASS : Nat := 0x270003
/-- 2700.04 PULSE_FILTER_NS. -/
def PULSE_FILTER_NS : Nat := 0x270004
/-- 270x.01 SP_SRC. -/
def SP_SRC (i : Nat) : Nat := 0x270101 + 256 * i
/-- 270x.02 SP_GAIN. -/
def SP_GAIN (i : Nat) : Nat := 0x270102 + 256 * i
/-- 270x.03 SP_OFFSET. -/
def SP_OFFSET (i : Nat) : Nat := 0x270103 + 256 * i
/-- 270x.04 SP_MIN. -/
def SP_MIN (i : Nat) : Nat := 0x270104 + 256 * i
/-- 270x.05 SP_MAX. -/
def SP_MAX (i : Nat) : Nat := 0x270105 + 256 * i
/-- 270x.06 SP_RAMP_UP. -/
def SP_RAMP_UP (i : Nat) : Nat := 0x270106 + 256 * i
/-- 270x.07 SP_RAMP_DN. -/
def SP_RAMP_DN (i : Nat) : Nat := 0x270107 + 256 * i
/-- 270x.08 SP_GATE_FRAMES. -/
def SP_GATE_FRAMES (i : Nat) : Nat := 0x270108 + 256 * i
/-- 270x.09 SP_START. -/
def SP_START (i : Nat) : Nat := 0x270109 + 256 * i
/-- 270x.0A SP_INIT. -/
def SP_INIT (i : Nat) : Nat := 0x27010A + 256 * i
/-- 270x.0B SP_HOST. -/
def SP_HOST (i : Nat) : Nat := 0x27010B + 256 * i
/-- 270x.0C SP_SHM_OFF. -/
def SP_SHM_OFF (i : Nat) : Nat := 0x27010C + 256 * i
/-- 270x.0D SP_RAW. -/
def SP_RAW (i : Nat) : Nat := 0x27010D + 256 * i
/-- 270x.0E SP_OUT. -/
def SP_OUT (i : Nat) : Nat := 0x27010E + 256 * i
/-- 270x.0F SP_SEQ. -/
def SP_SEQ (i : Nat) : Nat := 0x27010F + 256 * i
/-- 270x.10 SP_FLAGS. -/
def SP_FLAGS (i : Nat) : Nat := 0x270110 + 256 * i
/-- 2705.01 LANTERN_NPROBES. -/
def LANTERN_NPROBES : Nat := 0x270501
/-- 2705.02 LANTERN_DECIM. -/
def LANTERN_DECIM : Nat := 0x270502
/-- 2705.03 LANTERN_POST. -/
def LANTERN_POST : Nat := 0x270503
/-- 2705.04 LANTERN_TRIG. -/
def LANTERN_TRIG : Nat := 0x270504
/-- 2705.05 TRIG_LEVEL. -/
def TRIG_LEVEL : Nat := 0x270505
/-- 2705.06 LANTERN_AUTOARM. -/
def LANTERN_AUTOARM : Nat := 0x270506
/-- 2705.07 LANTERN_CMD. -/
def LANTERN_CMD : Nat := 0x270507
/-- 2705.08 LANTERN_STATE. -/
def LANTERN_STATE : Nat := 0x270508
/-- 2705.09 LANTERN_R_CAP. -/
def LANTERN_R_CAP : Nat := 0x270509
/-- 2705.0A TRIG_REC. -/
def TRIG_REC : Nat := 0x27050A
/-- 2705.0B PRE_RECORDS. -/
def PRE_RECORDS : Nat := 0x27050B
/-- 2705.0C WR_REC. -/
def WR_REC : Nat := 0x27050C
/-- 2705.0D LANTERN_TRIG_FRAME_LO. -/
def LANTERN_TRIG_FRAME_LO : Nat := 0x27050D
/-- 2705.0E LANTERN_TRIG_FRAME_HI. -/
def LANTERN_TRIG_FRAME_HI : Nat := 0x27050E
/-- 2705.0F LANTERN_TRIG_IGN_CNT. -/
def LANTERN_TRIG_IGN_CNT : Nat := 0x27050F
/-- 2706.01–10 LANTERN_PROBE. -/
def LANTERN_PROBE (j : Nat) : Nat := 0x270601 + j
/-- 271a.01 NOTCH_CFG. -/
def NOTCH_CFG (i : Nat) : Nat := 0x271001 + 256 * i
/-- 271a.02 N1_F0. -/
def N1_F0 (i : Nat) : Nat := 0x271002 + 256 * i
/-- 271a.03 N1_BW. -/
def N1_BW (i : Nat) : Nat := 0x271003 + 256 * i
/-- 271a.04 N2_F0. -/
def N2_F0 (i : Nat) : Nat := 0x271004 + 256 * i
/-- 271a.05 N2_BW. -/
def N2_BW (i : Nat) : Nat := 0x271005 + 256 * i
/-- 271a.06 NOTCH_RESTART. -/
def NOTCH_RESTART (i : Nat) : Nat := 0x271006 + 256 * i
/-- 272a.01–05 N1_COEF. -/
def N1_COEF (i j : Nat) : Nat := 0x272001 + 256 * i + j
/-- 272a.06–0A N2_COEF. -/
def N2_COEF (i j : Nat) : Nat := 0x272006 + 256 * i + j
/-- 273a.01–04 N1_PRE. -/
def N1_PRE (i j : Nat) : Nat := 0x273001 + 256 * i + j
/-- 273a.05–08 N2_PRE. -/
def N2_PRE (i j : Nat) : Nat := 0x273005 + 256 * i + j
/-- 2800.01 DOM_SEL. -/
def DOM_SEL : Nat := 0x280001
/-- 2800.02 C_SLEW_PPM. -/
def C_SLEW_PPM : Nat := 0x280002
/-- 2800.03 C_CAPTURE_NS. -/
def C_CAPTURE_NS : Nat := 0x280003
/-- 2800.04 TIME_STATUS. -/
def TIME_STATUS : Nat := 0x280004
/-- 2800.05 DOM_SWITCH_CNT. -/
def DOM_SWITCH_CNT : Nat := 0x280005
/-- 2801.01 L_LO. -/
def L_LO : Nat := 0x280101
/-- 2801.02 L_HI. -/
def L_HI : Nat := 0x280102
/-- 2801.03 C_LO. -/
def C_LO : Nat := 0x280103
/-- 2801.04 C_HI. -/
def C_HI : Nat := 0x280104
/-- 2801.05 C_OFF_LO. -/
def C_OFF_LO : Nat := 0x280105
/-- 2801.06 C_OFF_HI. -/
def C_OFF_HI : Nat := 0x280106
/-- 2801.07 C_RATE_PPB. -/
def C_RATE_PPB : Nat := 0x280107
/-- 2801.08 C_SLEW_PPB. -/
def C_SLEW_PPB : Nat := 0x280108
/-- 2802.01 EN2_TX_LAT_NS. -/
def EN2_TX_LAT_NS : Nat := 0x280201
/-- 2802.02 EN2_RX_LAT_NS. -/
def EN2_RX_LAT_NS : Nat := 0x280202
/-- 2802.03 EN3_TX_LAT_NS. -/
def EN3_TX_LAT_NS : Nat := 0x280203
/-- 2802.04 EN3_RX_LAT_NS. -/
def EN3_RX_LAT_NS : Nat := 0x280204
/-- 2802.05 EN2_ASYM_NS. -/
def EN2_ASYM_NS : Nat := 0x280205
/-- 2802.06 EN3_ASYM_NS. -/
def EN3_ASYM_NS : Nat := 0x280206
/-- 281d.01 DOM_EN. -/
def DOM_EN (i : Nat) : Nat := 0x281001 + 256 * i
/-- 281d.02 DOM_SRC. -/
def DOM_SRC (i : Nat) : Nat := 0x281002 + 256 * i
/-- 281d.03 PTP_DOMAIN. -/
def PTP_DOMAIN (i : Nat) : Nat := 0x281003 + 256 * i
/-- 281d.04 PROFILE. -/
def PROFILE (i : Nat) : Nat := 0x281004 + 256 * i
/-- 281d.05 PORTS. -/
def PORTS (i : Nat) : Nat := 0x281005 + 256 * i
/-- 281d.06 LOCK_THR_NS. -/
def LOCK_THR_NS (i : Nat) : Nat := 0x281006 + 256 * i
/-- 281d.07 LOCK_COUNT. -/
def LOCK_COUNT (i : Nat) : Nat := 0x281007 + 256 * i
/-- 281d.08 STEP_THR_NS. -/
def STEP_THR_NS (i : Nat) : Nat := 0x281008 + 256 * i
/-- 281d.09 SERVO_KP. -/
def SERVO_KP (i : Nat) : Nat := 0x281009 + 256 * i
/-- 281d.0A SERVO_KI. -/
def SERVO_KI (i : Nat) : Nat := 0x28100A + 256 * i
/-- 281d.0B RATE_LIMIT_PPM. -/
def RATE_LIMIT_PPM (i : Nat) : Nat := 0x28100B + 256 * i
/-- 281d.0C HOLDOVER_LIMIT_S. -/
def HOLDOVER_LIMIT_S (i : Nat) : Nat := 0x28100C + 256 * i
/-- 281d.0D ACQ_SPREAD_NS. -/
def ACQ_SPREAD_NS (i : Nat) : Nat := 0x28100D + 256 * i
/-- 282d.01 DOM_STATE. -/
def DOM_STATE (i : Nat) : Nat := 0x282001 + 256 * i
/-- 282d.02 DOM_FLAGS. -/
def DOM_FLAGS (i : Nat) : Nat := 0x282002 + 256 * i
/-- 282d.03 DOM_TIME_LO. -/
def DOM_TIME_LO (i : Nat) : Nat := 0x282003 + 256 * i
/-- 282d.04 DOM_TIME_HI. -/
def DOM_TIME_HI (i : Nat) : Nat := 0x282004 + 256 * i
/-- 282d.05 OFFSET_NS. -/
def OFFSET_NS (i : Nat) : Nat := 0x282005 + 256 * i
/-- 282d.06 MEAN_PATH_NS. -/
def MEAN_PATH_NS (i : Nat) : Nat := 0x282006 + 256 * i
/-- 282d.07 RATE_PPB. -/
def RATE_PPB (i : Nat) : Nat := 0x282007 + 256 * i
/-- 282d.08 GM_ID_LO. -/
def GM_ID_LO (i : Nat) : Nat := 0x282008 + 256 * i
/-- 282d.09 GM_ID_HI. -/
def GM_ID_HI (i : Nat) : Nat := 0x282009 + 256 * i
/-- 282d.0A UTC_OFFSET_S. -/
def UTC_OFFSET_S (i : Nat) : Nat := 0x28200A + 256 * i
/-- 282d.0B GM_INACC_NS. -/
def GM_INACC_NS (i : Nat) : Nat := 0x28200B + 256 * i
/-- 282d.0C SYNC_RX_CNT. -/
def SYNC_RX_CNT (i : Nat) : Nat := 0x28200C + 256 * i
/-- 282d.0D SYNC_TIMEOUT_CNT. -/
def SYNC_TIMEOUT_CNT (i : Nat) : Nat := 0x28200D + 256 * i
/-- 282d.0E GM_CHANGE_CNT. -/
def GM_CHANGE_CNT (i : Nat) : Nat := 0x28200E + 256 * i
/-- 282d.0F OFFSET_ALARM_CNT. -/
def OFFSET_ALARM_CNT (i : Nat) : Nat := 0x28200F + 256 * i
/-- 282d.10 HOLDOVER_CNT. -/
def HOLDOVER_CNT (i : Nat) : Nat := 0x282010 + 256 * i
/-- 282d.11 MSG_DROP_CNT. -/
def MSG_DROP_CNT (i : Nat) : Nat := 0x282011 + 256 * i
/-- 282d.12 STEP_L_LO. -/
def STEP_L_LO (i : Nat) : Nat := 0x282012 + 256 * i
/-- 282d.13 STEP_L_HI. -/
def STEP_L_HI (i : Nat) : Nat := 0x282013 + 256 * i
/-- 2830.01 PPS_OUT_SRC. -/
def PPS_OUT_SRC : Nat := 0x283001
/-- 2830.02 PPS_OUT_WIDTH_NS. -/
def PPS_OUT_WIDTH_NS : Nat := 0x283002
/-- 2830.03 PPS_OUT_COMP_NS. -/
def PPS_OUT_COMP_NS : Nat := 0x283003
/-- 2830.04 PPS_OUT_FREE. -/
def PPS_OUT_FREE : Nat := 0x283004
/-- 2830.05 CLK10_EN. -/
def CLK10_EN : Nat := 0x283005
/-- 2830.06 PPS_IN_CFG. -/
def PPS_IN_CFG : Nat := 0x283006
/-- 2830.07 PPS_IN_COMP_NS. -/
def PPS_IN_COMP_NS : Nat := 0x283007
/-- 2830.08 PPS_TOD_LO. -/
def PPS_TOD_LO : Nat := 0x283008
/-- 2830.09 PPS_TOD_HI. -/
def PPS_TOD_HI : Nat := 0x283009
/-- 2830.0A PPS_IN_ERR_NS. -/
def PPS_IN_ERR_NS : Nat := 0x28300A
/-- 2830.0B PPS_IN_CNT. -/
def PPS_IN_CNT : Nat := 0x28300B
/-- 2830.0C PPS_TOD_MISS_CNT. -/
def PPS_TOD_MISS_CNT : Nat := 0x28300C
/-- 2840.01 PH_EN. -/
def PH_EN : Nat := 0x284001
/-- 2840.02 PH_F0. -/
def PH_F0 : Nat := 0x284002
/-- 2840.03 PH_RATE. -/
def PH_RATE : Nat := 0x284003
/-- 2840.04 PH_GAP_FILL. -/
def PH_GAP_FILL : Nat := 0x284004
/-- 2840.05 PH_SHM_OFF. -/
def PH_SHM_OFF : Nat := 0x284005
/-- 2840.06 PH_RING_LEN. -/
def PH_RING_LEN : Nat := 0x284006
/-- 2841.01 PH_STATUS. -/
def PH_STATUS : Nat := 0x284101
/-- 2841.02 REPORT_SEQ. -/
def REPORT_SEQ : Nat := 0x284102
/-- 2841.03 GAP_CNT. -/
def GAP_CNT : Nat := 0x284103
/-- 2841.04 EXT_REPORT_CNT. -/
def EXT_REPORT_CNT : Nat := 0x284104
/-- 2842.01–18 PH_CHAN_CFG. -/
def PH_CHAN_CFG (j : Nat) : Nat := 0x284201 + j
/-- 2843.01–18 PH_ANGLE_COMP. -/
def PH_ANGLE_COMP (j : Nat) : Nat := 0x284301 + j
/-- 2844.01–18 PH_MAG_GAIN. -/
def PH_MAG_GAIN (j : Nat) : Nat := 0x284401 + j
/-- 285c.01 RES_SEQ. -/
def RES_SEQ (i : Nat) : Nat := 0x285001 + 256 * i
/-- 285c.02 RES_FLAGS. -/
def RES_FLAGS (i : Nat) : Nat := 0x285002 + 256 * i
/-- 285c.03 TAG_LO. -/
def TAG_LO (i : Nat) : Nat := 0x285003 + 256 * i
/-- 285c.04 TAG_HI. -/
def TAG_HI (i : Nat) : Nat := 0x285004 + 256 * i
/-- 285c.05 MAG. -/
def MAG (i : Nat) : Nat := 0x285005 + 256 * i
/-- 285c.06 ANG. -/
def ANG (i : Nat) : Nat := 0x285006 + 256 * i
/-- 285c.07 FREQ_DEV. -/
def FREQ_DEV (i : Nat) : Nat := 0x285007 + 256 * i
/-- 285c.08 ROCOF. -/
def ROCOF (i : Nat) : Nat := 0x285008 + 256 * i
/-- 2870.01 WT_SEQ. -/
def WT_SEQ : Nat := 0x287001
/-- 2870.02 WT_FALLBACK_CNT. -/
def WT_FALLBACK_CNT : Nat := 0x287002
/-- 2871.01–0C WT_CFG. -/
def WT_CFG (j : Nat) : Nat := 0x287101 + j
/-- 2872.01–0C WT_THR. -/
def WT_THR (j : Nat) : Nat := 0x287201 + j
/-- 2873.01–0C WT_ARM. -/
def WT_ARM (j : Nat) : Nat := 0x287301 + j
/-- 2874.01–0C WT_COMP_NS. -/
def WT_COMP_NS (j : Nat) : Nat := 0x287401 + j
/-- 2875.01–0C WT_TAG_CNT. -/
def WT_TAG_CNT (j : Nat) : Nat := 0x287501 + j
/-- 2876.01 WT_LAST_SEQ. -/
def WT_LAST_SEQ : Nat := 0x287601
/-- 2876.02 WT_LAST_TAG_LO. -/
def WT_LAST_TAG_LO : Nat := 0x287602
/-- 2876.03 WT_LAST_TAG_HI. -/
def WT_LAST_TAG_HI : Nat := 0x287603
/-- 2876.04 WT_LAST_DATA. -/
def WT_LAST_DATA : Nat := 0x287604
/-- 2876.05 WT_LAST_STREAM. -/
def WT_LAST_STREAM : Nat := 0x287605
/-- 2900.01 ACQ_CMD. -/
def ACQ_CMD : Nat := 0x290001
/-- 2900.02 ACQ_STATE. -/
def ACQ_STATE : Nat := 0x290002
/-- 2900.03 ACQ_AUTOARM. -/
def ACQ_AUTOARM : Nat := 0x290003
/-- 2900.04 ACQ_PAGE. -/
def ACQ_PAGE : Nat := 0x290004
/-- 2901.01 ACQ_NCH. -/
def ACQ_NCH : Nat := 0x290101
/-- 2901.02 ACQ_NSUB. -/
def ACQ_NSUB : Nat := 0x290102
/-- 2901.03 ACQ_DECIM. -/
def ACQ_DECIM : Nat := 0x290103
/-- 2901.04 ACQ_POST. -/
def ACQ_POST : Nat := 0x290104
/-- 2901.05 ACQ_TRIG_SRC. -/
def ACQ_TRIG_SRC : Nat := 0x290105
/-- 2901.06 ACQ_TRIG_EVT. -/
def ACQ_TRIG_EVT : Nat := 0x290106
/-- 2901.07 ACQ_LVL_CH. -/
def ACQ_LVL_CH : Nat := 0x290107
/-- 2901.08 ACQ_LVL. -/
def ACQ_LVL : Nat := 0x290108
/-- 2901.09 ACQ_LVL_DIR. -/
def ACQ_LVL_DIR : Nat := 0x290109
/-- 2901.0A ACQ_TRIP_MASK. -/
def ACQ_TRIP_MASK : Nat := 0x29010A
/-- 2901.0B ACQ_WT_MASK. -/
def ACQ_WT_MASK : Nat := 0x29010B
/-- 2902.01–40 ACQ_CH_CFG. -/
def ACQ_CH_CFG (j : Nat) : Nat := 0x290201 + j
/-- 2903.01 CAP_SEQ. -/
def CAP_SEQ : Nat := 0x290301
/-- 2903.02 CFLAGS. -/
def CFLAGS : Nat := 0x290302
/-- 2903.03 TRIG_ORIGIN_LO. -/
def TRIG_ORIGIN_LO : Nat := 0x290303
/-- 2903.04 TRIG_ORIGIN_HI. -/
def TRIG_ORIGIN_HI : Nat := 0x290304
/-- 2903.05 TRIG_FRAME_LO. -/
def TRIG_FRAME_LO : Nat := 0x290305
/-- 2903.06 TRIG_FRAME_HI. -/
def TRIG_FRAME_HI : Nat := 0x290306
/-- 2903.07 FIRST_SLOT. -/
def FIRST_SLOT : Nat := 0x290307
/-- 2903.08 PRE_BLOCKS. -/
def PRE_BLOCKS : Nat := 0x290308
/-- 2903.09 POST_BLOCKS. -/
def POST_BLOCKS : Nat := 0x290309
/-- 2903.0A WR_SLOT. -/
def WR_SLOT : Nat := 0x29030A
/-- 2903.0B ACQ_R_CAP. -/
def ACQ_R_CAP : Nat := 0x29030B
/-- 2903.0C BLOCK_BYTES. -/
def BLOCK_BYTES : Nat := 0x29030C
/-- 2904.01 CAPTURE_CNT. -/
def CAPTURE_CNT : Nat := 0x290401
/-- 2904.02 TRIG_LOST_CNT. -/
def TRIG_LOST_CNT : Nat := 0x290402
/-- 2904.03 ACQ_TRIG_IGN_CNT. -/
def ACQ_TRIG_IGN_CNT : Nat := 0x290403
/-- 2904.04 OVERFLOW_CNT. -/
def OVERFLOW_CNT : Nat := 0x290404
/-- 2904.05 EVT_DROP_CNT. -/
def EVT_DROP_CNT : Nat := 0x290405
/-- 2905.01–08 LOG_ORIGIN. -/
def LOG_ORIGIN (j : Nat) : Nat := 0x290501 + j
/-- 2905.09 LOG_SRC. -/
def LOG_SRC : Nat := 0x290509
/-- 2905.0A LOG_WR. -/
def LOG_WR : Nat := 0x29050A
/-- 2A00.01 ADCB_CLAIMED. -/
def ADCB_CLAIMED : Nat := 0x2A0001
/-- 2A00.02 CLAIM_REFUSED_CNT. -/
def CLAIM_REFUSED_CNT : Nat := 0x2A0002
/-- 2A01.01 ADC_CTRL. -/
def ADC_CTRL (i : Nat) : Nat := 0x2A0101 + 256 * i
/-- 2A01.02 REG_LEN. -/
def REG_LEN (i : Nat) : Nat := 0x2A0102 + 256 * i
/-- 2A01.03 REG_PERIOD_NS. -/
def REG_PERIOD_NS (i : Nat) : Nat := 0x2A0103 + 256 * i
/-- 2A01.04 INJ_LEN. -/
def INJ_LEN (i : Nat) : Nat := 0x2A0104 + 256 * i
/-- 2A01.05 INJ_TRIG. -/
def INJ_TRIG (i : Nat) : Nat := 0x2A0105 + 256 * i
/-- 2A01.06 INJ_TRIG_SEL. -/
def INJ_TRIG_SEL (i : Nat) : Nat := 0x2A0106 + 256 * i
/-- 2A01.07 ADC_STATUS. -/
def ADC_STATUS (i : Nat) : Nat := 0x2A0107 + 256 * i
/-- 2A01.08 CAL_COEF. -/
def CAL_COEF (i : Nat) : Nat := 0x2A0108 + 256 * i
/-- 2A03.01–10 REG_SEQ. -/
def REG_SEQ (i j : Nat) : Nat := 0x2A0301 + 256 * i + j
/-- 2A03.11–14 INJ_SEQ. -/
def INJ_SEQ (i j : Nat) : Nat := 0x2A0311 + 256 * i + j
/-- 2A05.01 ADC_DATA_LO. -/
def ADC_DATA_LO (i : Nat) : Nat := 0x2A0501 + 256 * i
/-- 2A05.02 ADC_DATA_HI. -/
def ADC_DATA_HI (i : Nat) : Nat := 0x2A0502 + 256 * i
/-- 2A07.01 REG_START_IGN_CNT. -/
def REG_START_IGN_CNT (i : Nat) : Nat := 0x2A0701 + 256 * i
/-- 2A07.02 REG_SLIP_CNT. -/
def REG_SLIP_CNT (i : Nat) : Nat := 0x2A0702 + 256 * i
/-- 2A07.03 INJ_QUEUED_CNT. -/
def INJ_QUEUED_CNT (i : Nat) : Nat := 0x2A0703 + 256 * i
/-- 2A07.04 INJ_LOST_CNT. -/
def INJ_LOST_CNT (i : Nat) : Nat := 0x2A0704 + 256 * i
/-- 2A07.05 INJ_DELAYED_CNT. -/
def INJ_DELAYED_CNT (i : Nat) : Nat := 0x2A0705 + 256 * i
/-- 2A07.06 OVERRUN_CNT. -/
def OVERRUN_CNT (i : Nat) : Nat := 0x2A0706 + 256 * i
/-- 2A07.07 OVER_RANGE_CNT. -/
def OVER_RANGE_CNT (i : Nat) : Nat := 0x2A0707 + 256 * i
/-- 2A07.08 CAL_CNT. -/
def CAL_CNT (i : Nat) : Nat := 0x2A0708 + 256 * i
/-- 2A07.09 CAL_REQ_IGN_CNT. -/
def CAL_REQ_IGN_CNT (i : Nat) : Nat := 0x2A0709 + 256 * i
/-- 2A09.01–08 FILT_CFG. -/
def FILT_CFG (i j : Nat) : Nat := 0x2A0901 + 256 * i + j
/-- 2A40.01 PWM_SYNC_START. -/
def PWM_SYNC_START : Nat := 0x2A4001
/-- 2A40.02 PWM_RUNNING. -/
def PWM_RUNNING : Nat := 0x2A4002
/-- 2A40.03 PWM_TRIPPED. -/
def PWM_TRIPPED : Nat := 0x2A4003
/-- 2A40.04 PWM_FORCED. -/
def PWM_FORCED : Nat := 0x2A4004
/-- 2A5p.01 PAIR_CFG. -/
def PAIR_CFG (i : Nat) : Nat := 0x2A5001 + 256 * i
/-- 2A5p.02 PSC. -/
def PSC (i : Nat) : Nat := 0x2A5002 + 256 * i
/-- 2A5p.03 DEAD_TIME_NS. -/
def DEAD_TIME_NS (i : Nat) : Nat := 0x2A5003 + 256 * i
/-- 2A5p.04 TRIP_MAP. -/
def TRIP_MAP (i : Nat) : Nat := 0x2A5004 + 256 * i
/-- 2A6p.01 PWM_TIMING. -/
def PWM_TIMING (i : Nat) : Nat := 0x2A6001 + 256 * i
/-- 2A6p.02 PWM_FORCE. -/
def PWM_FORCE (i : Nat) : Nat := 0x2A6002 + 256 * i
/-- 2A6p.03 PAIR_CTRL. -/
def PAIR_CTRL (i : Nat) : Nat := 0x2A6003 + 256 * i
/-- 2A6p.04 PWM_PAIR_STATUS. -/
def PWM_PAIR_STATUS (i : Nat) : Nat := 0x2A6004 + 256 * i
/-- 2A6p.05 TIMING_ACTIVE. -/
def TIMING_ACTIVE (i : Nat) : Nat := 0x2A6005 + 256 * i
/-- 2A6p.06 RELOAD_LATE_CNT. -/
def RELOAD_LATE_CNT (i : Nat) : Nat := 0x2A6006 + 256 * i
/-- 2A6p.07 PERIOD_CNT. -/
def PERIOD_CNT (i : Nat) : Nat := 0x2A6007 + 256 * i
/-- 2A70.01–04 TRIP_FILT_NS. -/
def TRIP_FILT_NS (j : Nat) : Nat := 0x2A7001 + j
/-- 2A71.01 TRIP_STATE_IN. -/
def TRIP_STATE_IN : Nat := 0x2A7101
/-- 2A71.02 TRIP_CLEAR. -/
def TRIP_CLEAR : Nat := 0x2A7102
/-- 2A71.03 TRIP_CLEAR_REFUSED_CNT. -/
def TRIP_CLEAR_REFUSED_CNT : Nat := 0x2A7103
/-- 2A72.01–04 TRIP_CNT. -/
def TRIP_CNT (j : Nat) : Nat := 0x2A7201 + j
/-- 2A73.01 TRIP_SBK_MASK. -/
def TRIP_SBK_MASK : Nat := 0x2A7301
/-- 2A73.02 TRIP_CLASS. -/
def TRIP_CLASS : Nat := 0x2A7302
/-- 2B00.01 WT_STATUS. -/
def WT_STATUS : Nat := 0x2B0001
/-- 2B00.02 SBK_CAUSE. -/
def SBK_CAUSE : Nat := 0x2B0002
/-- 2B00.03 SBK_ACTIVE. -/
def SBK_ACTIVE : Nat := 0x2B0003
/-- 2B00.04 VDC_WT. -/
def VDC_WT : Nat := 0x2B0004
/-- 2B00.05 WT_FAULT_CODE. -/
def WT_FAULT_CODE : Nat := 0x2B0005
/-- 2B00.06 SBK_CNT. -/
def SBK_CNT : Nat := 0x2B0006
/-- 2B00.07 SBK_RESET_REFUSED_CNT. -/
def SBK_RESET_REFUSED_CNT : Nat := 0x2B0007
/-- 2B01.01 SW_OPEN. -/
def SW_OPEN : Nat := 0x2B0101
/-- 2B01.02 SW_CHALLENGE. -/
def SW_CHALLENGE : Nat := 0x2B0102
/-- 2B01.03 SW_CONFIRM. -/
def SW_CONFIRM : Nat := 0x2B0103
/-- 2B01.04 SW_RESULT. -/
def SW_RESULT : Nat := 0x2B0104
/-- 2B01.05 SW_DONE_CNT. -/
def SW_DONE_CNT : Nat := 0x2B0105
/-- 2B01.06 SW_FAIL_CNT. -/
def SW_FAIL_CNT : Nat := 0x2B0106
/-- 2B02.01 SBK_RESET. -/
def SBK_RESET : Nat := 0x2B0201
/-- 2B02.02 TEST_PERMIT. -/
def TEST_PERMIT : Nat := 0x2B0202
/-- 2B02.03 DEBUG_PERMIT. -/
def DEBUG_PERMIT : Nat := 0x2B0203
/-- 2B02.04 DEBUG_PERMIT_S. -/
def DEBUG_PERMIT_S : Nat := 0x2B0204
/-- 2B03.01 WT_FUNC_EN. -/
def WT_FUNC_EN : Nat := 0x2B0301
/-- 2B03.02 HB_LIMIT_FRAMES. -/
def HB_LIMIT_FRAMES : Nat := 0x2B0302
/-- 2B03.03 MEAS_LOSS_FRAMES. -/
def MEAS_LOSS_FRAMES : Nat := 0x2B0303
/-- 2B1a.01 SLC_STREAM. -/
def SLC_STREAM (i : Nat) : Nat := 0x2B1001 + 256 * i
/-- 2B1a.02 SLC_LIMIT. -/
def SLC_LIMIT (i : Nat) : Nat := 0x2B1002 + 256 * i
/-- 2B1a.03 SLC_COUNT. -/
def SLC_COUNT (i : Nat) : Nat := 0x2B1003 + 256 * i
/-- 2B1a.04 SLC_REACT. -/
def SLC_REACT (i : Nat) : Nat := 0x2B1004 + 256 * i
/-- 2B2v.01 SLV_STREAM. -/
def SLV_STREAM (i : Nat) : Nat := 0x2B2001 + 256 * i
/-- 2B2v.02 SLV_ADC_IN. -/
def SLV_ADC_IN (i : Nat) : Nat := 0x2B2002 + 256 * i
/-- 2B2v.03 SLV_FS_STREAM. -/
def SLV_FS_STREAM (i : Nat) : Nat := 0x2B2003 + 256 * i
/-- 2B2v.04 SLV_FS_ADC. -/
def SLV_FS_ADC (i : Nat) : Nat := 0x2B2004 + 256 * i
/-- 2B2v.05 SLV_MAX. -/
def SLV_MAX (i : Nat) : Nat := 0x2B2005 + 256 * i
/-- 2B2v.06 SLV_COUNT. -/
def SLV_COUNT (i : Nat) : Nat := 0x2B2006 + 256 * i
/-- 2B2v.07 SLV_DISC. -/
def SLV_DISC (i : Nat) : Nat := 0x2B2007 + 256 * i
/-- 2B2v.08 SLV_DISC_US. -/
def SLV_DISC_US (i : Nat) : Nat := 0x2B2008 + 256 * i
/-- 2B2v.09 SLV_REACT. -/
def SLV_REACT (i : Nat) : Nat := 0x2B2009 + 256 * i
/-- 2B3i.01 SDI_STREAM. -/
def SDI_STREAM (i : Nat) : Nat := 0x2B3001 + 256 * i
/-- 2B3i.02 SDI_DIR. -/
def SDI_DIR (i : Nat) : Nat := 0x2B3002 + 256 * i
/-- 2B3i.03 SDI_DEADBAND. -/
def SDI_DEADBAND (i : Nat) : Nat := 0x2B3003 + 256 * i
/-- 2B3i.04 SDI_COUNT. -/
def SDI_COUNT (i : Nat) : Nat := 0x2B3004 + 256 * i
/-- 2B3i.05 SDI_REACT. -/
def SDI_REACT (i : Nat) : Nat := 0x2B3005 + 256 * i
/-- 2B38.01 SLS_MIN_PERIOD_NS. -/
def SLS_MIN_PERIOD_NS : Nat := 0x2B3801
/-- 2B38.02 SLS_COUNT. -/
def SLS_COUNT : Nat := 0x2B3802
/-- 2B38.03 SLS_DISC. -/
def SLS_DISC : Nat := 0x2B3803
/-- 2B38.04 SLS_DISC_US. -/
def SLS_DISC_US : Nat := 0x2B3804
/-- 2B38.05 SLS_TIMEOUT_US. -/
def SLS_TIMEOUT_US : Nat := 0x2B3805
/-- 2B38.06 SLS_REACT. -/
def SLS_REACT : Nat := 0x2B3806
/-- 2B38.07 SLS_PERIOD_A_NS. -/
def SLS_PERIOD_A_NS : Nat := 0x2B3807
/-- 2B38.08 SLS_PERIOD_B_NS. -/
def SLS_PERIOD_B_NS : Nat := 0x2B3808
/-- 2B3C.01 SD_RX_CNT. -/
def SD_RX_CNT : Nat := 0x2B3C01
/-- 2B3C.02 SD_CRC_ERR_CNT. -/
def SD_CRC_ERR_CNT : Nat := 0x2B3C02
/-- 2B3C.03 SD_SEQ_ERR_CNT. -/
def SD_SEQ_ERR_CNT : Nat := 0x2B3C03
/-- 2B3C.04 SD_MASQ_CNT. -/
def SD_MASQ_CNT : Nat := 0x2B3C04
/-- 2B3C.05 SD_PAR_MISMATCH_CNT. -/
def SD_PAR_MISMATCH_CNT : Nat := 0x2B3C05
/-- 2Bcc.01 CONN_CFG. -/
def CONN_CFG (i : Nat) : Nat := 0x2B4001 + 256 * i
/-- 2Bcc.02 CONN_ID. -/
def CONN_ID (i : Nat) : Nat := 0x2B4002 + 256 * i
/-- 2Bcc.03 WDT_US. -/
def WDT_US (i : Nat) : Nat := 0x2B4003 + 256 * i
/-- 2Bcc.04 PAR_WINDOW_US. -/
def PAR_WINDOW_US (i : Nat) : Nat := 0x2B4004 + 256 * i
/-- 2Bcc.05 CONN_STATE. -/
def CONN_STATE (i : Nat) : Nat := 0x2B4005 + 256 * i
/-- 2Bcc.06 LAST_SEQ. -/
def LAST_SEQ (i : Nat) : Nat := 0x2B4006 + 256 * i
/-- 2Bcc.07 RX_DATA_01. -/
def RX_DATA_01 (i : Nat) : Nat := 0x2B4007 + 256 * i
/-- 2Bcc.08 RX_DATA_23. -/
def RX_DATA_23 (i : Nat) : Nat := 0x2B4008 + 256 * i
/-- 2Bcc.09 RX_DATA_45. -/
def RX_DATA_45 (i : Nat) : Nat := 0x2B4009 + 256 * i
/-- 2Bcc.0A RX_DATA_67. -/
def RX_DATA_67 (i : Nat) : Nat := 0x2B400A + 256 * i
/-- 2Bcc.0B CONN_FAIL_CNT. -/
def CONN_FAIL_CNT (i : Nat) : Nat := 0x2B400B + 256 * i
/-- 2C00.01 PAIR_EN. -/
def PAIR_EN : Nat := 0x2C0001
/-- 2C00.02 MIR_DELTA_MAX. -/
def MIR_DELTA_MAX : Nat := 0x2C0002
/-- 2C00.03 MIR_ROLL_BYTES. -/
def MIR_ROLL_BYTES : Nat := 0x2C0003
/-- 2C00.04 MIR_FW_OFF. -/
def MIR_FW_OFF : Nat := 0x2C0004
/-- 2C00.05 MIR_FW_LEN. -/
def MIR_FW_LEN : Nat := 0x2C0005
/-- 2C00.06 MIR_FW_RX_OFF. -/
def MIR_FW_RX_OFF : Nat := 0x2C0006
/-- 2C00.07 ARB_FILT_NS. -/
def ARB_FILT_NS : Nat := 0x2C0007
/-- 2C00.08 MIRROR_LOSS_FRAMES. -/
def MIRROR_LOSS_FRAMES : Nat := 0x2C0008
/-- 2C00.09 ML_ASYM_Q. -/
def ML_ASYM_Q : Nat := 0x2C0009
/-- 2C00.0A MIRROR_WAIT_MS. -/
def MIRROR_WAIT_MS : Nat := 0x2C000A
/-- 2C01.01 PAIR_STATUS. -/
def PAIR_STATUS : Nat := 0x2C0101
/-- 2C01.02 EPOCH. -/
def EPOCH : Nat := 0x2C0102
/-- 2C01.03 PAIR_OFFSET_LO. -/
def PAIR_OFFSET_LO : Nat := 0x2C0103
/-- 2C01.04 PAIR_OFFSET_HI. -/
def PAIR_OFFSET_HI : Nat := 0x2C0104
/-- 2C01.05 ML_DELAY_Q. -/
def ML_DELAY_Q : Nat := 0x2C0105
/-- 2C01.06 PAIR_ERR_Q. -/
def PAIR_ERR_Q : Nat := 0x2C0106
/-- 2C01.07 MIR_LEN. -/
def MIR_LEN : Nat := 0x2C0107
/-- 2C01.08 LAST_DELTA_COUNT. -/
def LAST_DELTA_COUNT : Nat := 0x2C0108
/-- 2C02.01 SWAP_REQ. -/
def SWAP_REQ : Nat := 0x2C0201
/-- 2C02.02 SWAP_RESULT. -/
def SWAP_RESULT : Nat := 0x2C0202
/-- 2C03.01 MIRROR_TX_CNT. -/
def MIRROR_TX_CNT : Nat := 0x2C0301
/-- 2C03.02 MIRROR_RX_CNT. -/
def MIRROR_RX_CNT : Nat := 0x2C0302
/-- 2C03.03 MIRROR_ERR_CNT. -/
def MIRROR_ERR_CNT : Nat := 0x2C0303
/-- 2C03.04 MIR_LAYOUT_CNT. -/
def MIR_LAYOUT_CNT : Nat := 0x2C0304
/-- 2C03.05 DELTA_OVERFLOW_CNT. -/
def DELTA_OVERFLOW_CNT : Nat := 0x2C0305
/-- 2C03.06 TAKEOVER_CNT. -/
def TAKEOVER_CNT : Nat := 0x2C0306
/-- 2C03.07 TAKEOVER_UNSYNC_CNT. -/
def TAKEOVER_UNSYNC_CNT : Nat := 0x2C0307
/-- 2C03.08 RELINQUISH_CNT. -/
def RELINQUISH_CNT : Nat := 0x2C0308
/-- 2C03.09 DUAL_ACTIVE_CNT. -/
def DUAL_ACTIVE_CNT : Nat := 0x2C0309
/-- 2C03.0A PARTNER_LOST_CNT. -/
def PARTNER_LOST_CNT : Nat := 0x2C030A
/-- 2C03.0B ARB_EDGE_CNT. -/
def ARB_EDGE_CNT : Nat := 0x2C030B
/-- 2D00.01 FAULT_STATUS_LO. -/
def FAULT_STATUS_LO : Nat := 0x2D0001
/-- 2D00.02 FAULT_STATUS_HI. -/
def FAULT_STATUS_HI : Nat := 0x2D0002
/-- 2D00.03 FAULT_ACTIVE_LO. -/
def FAULT_ACTIVE_LO : Nat := 0x2D0003
/-- 2D00.04 FAULT_ACTIVE_HI. -/
def FAULT_ACTIVE_HI : Nat := 0x2D0004
/-- 2D00.05 FAULT_ACK_LO. -/
def FAULT_ACK_LO : Nat := 0x2D0005
/-- 2D00.06 FAULT_ACK_HI. -/
def FAULT_ACK_HI : Nat := 0x2D0006
/-- 2D00.07 FAULT_FORCE_LO. -/
def FAULT_FORCE_LO : Nat := 0x2D0007
/-- 2D00.08 FAULT_FORCE_HI. -/
def FAULT_FORCE_HI : Nat := 0x2D0008
/-- 2D00.09 HIGHEST_UNACK. -/
def HIGHEST_UNACK : Nat := 0x2D0009
/-- 2D00.0A REACT_STATUS. -/
def REACT_STATUS : Nat := 0x2D000A
/-- 2D01.01 FAULT_CLASS_0. -/
def FAULT_CLASS_0 : Nat := 0x2D0101
/-- 2D01.02 FAULT_CLASS_1. -/
def FAULT_CLASS_1 : Nat := 0x2D0102
/-- 2D01.03 FAULT_CLASS_2. -/
def FAULT_CLASS_2 : Nat := 0x2D0103
/-- 2D01.04 FAULT_CLASS_3. -/
def FAULT_CLASS_3 : Nat := 0x2D0104
/-- 2D01.05 AUTO_ACK_LO. -/
def AUTO_ACK_LO : Nat := 0x2D0105
/-- 2D01.06 AUTO_ACK_HI. -/
def AUTO_ACK_HI : Nat := 0x2D0106
/-- 2D01.07 SHED_PRIO. -/
def SHED_PRIO : Nat := 0x2D0107
/-- 2D01.08 FAILOVER_EN. -/
def FAILOVER_EN : Nat := 0x2D0108
/-- 2D01.09 LANE_ST_THR. -/
def LANE_ST_THR : Nat := 0x2D0109
/-- 2D01.0A TJ_WARN_C. -/
def TJ_WARN_C : Nat := 0x2D010A
/-- 2D02.01 ESCALATE_CNT. -/
def ESCALATE_CNT : Nat := 0x2D0201
/-- 2D02.02 ACK_REFUSED_CNT. -/
def ACK_REFUSED_CNT : Nat := 0x2D0202
/-- 2D02.03 ACK_RACE_CNT. -/
def ACK_RACE_CNT : Nat := 0x2D0203
/-- 2D02.04 FORCE_REFUSED_CNT. -/
def FORCE_REFUSED_CNT : Nat := 0x2D0204
/-- 2D02.05 SHED_DROP_CNT. -/
def SHED_DROP_CNT : Nat := 0x2D0205
/-- 2D02.06 ST_TRANSIENT_CNT. -/
def ST_TRANSIENT_CNT : Nat := 0x2D0206
/-- 2D02.07 ST_LASTING_CNT. -/
def ST_LASTING_CNT : Nat := 0x2D0207
/-- 2D02.08 ST_SKIP_CNT. -/
def ST_SKIP_CNT : Nat := 0x2D0208
/-- 2D02.09 ROW_REPAIR_CNT. -/
def ROW_REPAIR_CNT : Nat := 0x2D0209
/-- 2D03.01–04 EFF_CLASS. -/
def EFF_CLASS (j : Nat) : Nat := 0x2D0301 + j
/-- 2D10.01–40 OCC_CNT. -/
def OCC_CNT (j : Nat) : Nat := 0x2D1001 + j
/-- 2D11.01–08 ST_RESULT. -/
def ST_RESULT (j : Nat) : Nat := 0x2D1101 + j
/-- 2E00.01 BANK_SEL. -/
def BANK_SEL : Nat := 0x2E0001
/-- 2E00.02 BANK_STATUS. -/
def BANK_STATUS : Nat := 0x2E0002
/-- 2E00.03 ECC_CORR_CNT. -/
def ECC_CORR_CNT : Nat := 0x2E0003
/-- 2E00.04 ECC_UNCORR_CNT. -/
def ECC_UNCORR_CNT : Nat := 0x2E0004
/-- 2E00.05 LAST_ECC_ADDR. -/
def LAST_ECC_ADDR : Nat := 0x2E0005
/-- 2E01.01 MARCH_CTRL. -/
def MARCH_CTRL : Nat := 0x2E0101
/-- 2E01.02 MARCH_RESULT. -/
def MARCH_RESULT : Nat := 0x2E0102
/-- 2E01.03 MARCH_FAIL_ADDR. -/
def MARCH_FAIL_ADDR : Nat := 0x2E0103
/-- 2E01.04 MARCH_BG_EN. -/
def MARCH_BG_EN : Nat := 0x2E0104
/-- 2E01.05 MARCH_BG_GAP_US. -/
def MARCH_BG_GAP_US : Nat := 0x2E0105
/-- 2E01.06 MARCH_BG_SWEEP_CNT. -/
def MARCH_BG_SWEEP_CNT : Nat := 0x2E0106
/-- 2E01.07 MARCH_DONE_CNT. -/
def MARCH_DONE_CNT : Nat := 0x2E0107
/-- 2E02.01 LC_STATE. -/
def LC_STATE : Nat := 0x2E0201
/-- 2E02.02 LC_REQ. -/
def LC_REQ : Nat := 0x2E0202
/-- 2E02.03 LC_RESULT. -/
def LC_RESULT : Nat := 0x2E0203
/-- 2E02.04 KEY_INSTALL. -/
def KEY_INSTALL : Nat := 0x2E0204
/-- 2E02.05 KEY_STATE. -/
def KEY_STATE : Nat := 0x2E0205
/-- 2E02.06 WIPE_CNT. -/
def WIPE_CNT : Nat := 0x2E0206
/-- 2E02.07 LAST_WIPE_CAUSE. -/
def LAST_WIPE_CAUSE : Nat := 0x2E0207
/-- 2E03.01 TAMPER_EN. -/
def TAMPER_EN : Nat := 0x2E0301
/-- 2E03.02 TAMPER_FILT_US. -/
def TAMPER_FILT_US : Nat := 0x2E0302
/-- 2E03.03 TAMPER_STATUS. -/
def TAMPER_STATUS : Nat := 0x2E0303
/-- 2E03.04 TAMPER_CNT. -/
def TAMPER_CNT : Nat := 0x2E0304
/-- 2E03.05 TAMPER_LOG. -/
def TAMPER_LOG : Nat := 0x2E0305
/-- 2E03.06 TAMPER_LOG_CNT. -/
def TAMPER_LOG_CNT : Nat := 0x2E0306
/-- 2F00.01 SUMMARY. -/
def SUMMARY : Nat := 0x2F0001
/-- 2F00.02 SUMMARY_MASK. -/
def SUMMARY_MASK : Nat := 0x2F0002
/-- 2F00.03 COMPLETE. -/
def COMPLETE : Nat := 0x2F0003
/-- 2F00.04 CLEAR_RACE_CNT. -/
def CLEAR_RACE_CNT : Nat := 0x2F0004
/-- 2F00.05 SPURIOUS_COMPLETE_CNT. -/
def SPURIOUS_COMPLETE_CNT : Nat := 0x2F0005
/-- 2F00.06 LAST_RACE_GRP. -/
def LAST_RACE_GRP : Nat := 0x2F0006
/-- 2F00.07 LAST_RACE_BITS. -/
def LAST_RACE_BITS : Nat := 0x2F0007
/-- 2F00.08 IRQ_LEVEL. -/
def IRQ_LEVEL : Nat := 0x2F0008
/-- 2F00.09 HCLK_STOP_CNT. -/
def HCLK_STOP_CNT : Nat := 0x2F0009
/-- 2F01.01 JRN_COUNT. -/
def JRN_COUNT : Nat := 0x2F0101
/-- 2F01.02 JRN_RD. -/
def JRN_RD : Nat := 0x2F0102
/-- 2F01.03 JRN_WR. -/
def JRN_WR : Nat := 0x2F0103
/-- 2F01.04 JRN_SEQ. -/
def JRN_SEQ : Nat := 0x2F0104
/-- 2F01.05 JRN_POP. -/
def JRN_POP : Nat := 0x2F0105
/-- 2F01.06 JRN_DROP_CNT. -/
def JRN_DROP_CNT : Nat := 0x2F0106
/-- 2F01.07 JRN_HWM. -/
def JRN_HWM : Nat := 0x2F0107
/-- 2F10+g.01 PEND. -/
def PEND (i : Nat) : Nat := 0x2F1001 + 256 * i
/-- 2F10+g.02 MASK. -/
def MASK (i : Nat) : Nat := 0x2F1002 + 256 * i
/-- 2F10+g.03 ACTIVE. -/
def ACTIVE (i : Nat) : Nat := 0x2F1003 + 256 * i
/-- 2F10+g.04 LEVEL_MAP. -/
def LEVEL_MAP (i : Nat) : Nat := 0x2F1004 + 256 * i
/-- 1000.00 DEVICE_TYPE. -/
def DEVICE_TYPE : Nat := 0x100000
/-- 1001.00 ERROR_REGISTER. -/
def ERROR_REGISTER : Nat := 0x100100
/-- 1008.00 DEVICE_NAME. -/
def DEVICE_NAME : Nat := 0x100800
/-- 1009.00 HW_VERSION. -/
def HW_VERSION : Nat := 0x100900
/-- 1018.01 VENDOR_ID. -/
def VENDOR_ID : Nat := 0x101801
/-- 1018.02 PRODUCT_CODE. -/
def PRODUCT_CODE : Nat := 0x101802
/-- 1018.03 REVISION. -/
def REVISION : Nat := 0x101803
/-- 1018.04 SERIAL. -/
def SERIAL : Nat := 0x101804
/-- 160x.00 RXPDO_N. -/
def RXPDO_N (i : Nat) : Nat := 0x160000 + 256 * i
/-- 160x.01–08 RXPDO_MAP. -/
def RXPDO_MAP (i j : Nat) : Nat := 0x160001 + 256 * i + j
/-- 1A0x.00 TXPDO_N. -/
def TXPDO_N (i : Nat) : Nat := 0x1A0000 + 256 * i
/-- 1A0x.01–08 TXPDO_MAP. -/
def TXPDO_MAP (i j : Nat) : Nat := 0x1A0001 + 256 * i + j
/-- 1C00.01–04 SM_TYPE. -/
def SM_TYPE (j : Nat) : Nat := 0x1C0001 + j
/-- 1C12.00 RXPDO_ASSIGNED. -/
def RXPDO_ASSIGNED : Nat := 0x1C1200
/-- 1C12.01–04 RXPDO_ASSIGN. -/
def RXPDO_ASSIGN (j : Nat) : Nat := 0x1C1201 + j
/-- 1C13.00 TXPDO_ASSIGNED. -/
def TXPDO_ASSIGNED : Nat := 0x1C1300
/-- 1C13.01–04 TXPDO_ASSIGN. -/
def TXPDO_ASSIGN (j : Nat) : Nat := 0x1C1301 + j
/-- 3000.01 HP_STATUS. -/
def HP_STATUS : Nat := 0x300001
/-- 3000.02 HP_FENCE. -/
def HP_FENCE : Nat := 0x300002
/-- 3000.03 HP_WR_REFUSE_CNT. -/
def HP_WR_REFUSE_CNT : Nat := 0x300003
/-- 3000.04 HP_LAST_REFUSE. -/
def HP_LAST_REFUSE : Nat := 0x300004
/-- 3000.05 HP_RD_NOOBJ_CNT. -/
def HP_RD_NOOBJ_CNT : Nat := 0x300005
/-- 3000.06 HP_ABANDON_CNT. -/
def HP_ABANDON_CNT : Nat := 0x300006
/-- 3000.07 HP_WAIT_MAX_NS. -/
def HP_WAIT_MAX_NS : Nat := 0x300007
/-- 3000.08 DOM_PTR. -/
def DOM_PTR : Nat := 0x300008
/-- 3000.09 DOM_END. -/
def DOM_END : Nat := 0x300009
/-- 3000.0A DOM_LEN. -/
def DOM_LEN : Nat := 0x30000A
/-- 3001.01 OBJ_SEL. -/
def OBJ_SEL : Nat := 0x300101
/-- 3001.02 OBJ_DATA. -/
def OBJ_DATA : Nat := 0x300102
/-- 3001.03 OBJ_RESULT. -/
def OBJ_RESULT : Nat := 0x300103
/-- 3002.01 DICT_BUDGET. -/
def DICT_BUDGET : Nat := 0x300201
/-- 3002.02 FN_MIN. -/
def FN_MIN : Nat := 0x300202
/-- 3002.03 HOST_FIRST. -/
def HOST_FIRST : Nat := 0x300203
/-- 3002.04 Q_STATUS. -/
def Q_STATUS : Nat := 0x300204
/-- 3002.05 Q_FULL_CNT. -/
def Q_FULL_CNT : Nat := 0x300205
/-- 3002.06 Q_FILL_MAX. -/
def Q_FILL_MAX : Nat := 0x300206
/-- 3002.07 SERVED_CNT. -/
def SERVED_CNT : Nat := 0x300207
/-- 3003.01 FN_STATUS. -/
def FN_STATUS : Nat := 0x300301
/-- 3003.02 FN_ALIAS. -/
def FN_ALIAS : Nat := 0x300302
/-- 3003.03 PD_WDT_MS. -/
def PD_WDT_MS : Nat := 0x300303
/-- 3003.04 PD_WDT_CNT. -/
def PD_WDT_CNT : Nat := 0x300304
/-- 3003.05 PD_REFUSE_CNT. -/
def PD_REFUSE_CNT : Nat := 0x300305
/-- 3003.06 SDO_ABORT_CNT. -/
def SDO_ABORT_CNT : Nat := 0x300306
/-- 3003.07 SDO_CNT. -/
def SDO_CNT : Nat := 0x300307
/-- 3003.08 MBX_BUSY_CNT. -/
def MBX_BUSY_CNT : Nat := 0x300308
/-- 3004.01 PHY_ADDR. -/
def PHY_ADDR : Nat := 0x300401
/-- 3004.02 PHY_LINK. -/
def PHY_LINK : Nat := 0x300402
/-- 3004.03 MDIO_CMD. -/
def MDIO_CMD : Nat := 0x300403
/-- 3004.04 MDIO_DATA. -/
def MDIO_DATA : Nat := 0x300404
/-- 3004.05 MDIO_RESULT. -/
def MDIO_RESULT : Nat := 0x300405
/-- 3004.06–09 LINK_DOWN_CNT. -/
def LINK_DOWN_CNT (j : Nat) : Nat := 0x300406 + j
/-- 3010.01 CLK_STATUS. -/
def CLK_STATUS : Nat := 0x301001
/-- 3010.02 XTAL_DEV_PPB. -/
def XTAL_DEV_PPB : Nat := 0x301002
/-- 3010.03 PLL_UNLOCK_CNT. -/
def PLL_UNLOCK_CNT : Nat := 0x301003
/-- 3020.01 TJ_NOW. -/
def TJ_NOW : Nat := 0x302001
/-- 3020.02 TJ_MAX. -/
def TJ_MAX : Nat := 0x302002
/-- 3020.03 TJ_MIN. -/
def TJ_MIN : Nat := 0x302003
/-- 3020.04 VDD_CORE_MV. -/
def VDD_CORE_MV : Nat := 0x302004
/-- 3020.05 VDD_SAFE_MV. -/
def VDD_SAFE_MV : Nat := 0x302005
/-- 3020.06 POWER_EST_MW. -/
def POWER_EST_MW : Nat := 0x302006
/-- 3021.01–08 BLOCK_EST_MW. -/
def BLOCK_EST_MW (j : Nat) : Nat := 0x302101 + j
/-- 3030.01 RESET_CAUSE. -/
def RESET_CAUSE : Nat := 0x303001
/-- 3030.02 RUN_FRAMES_LO. -/
def RUN_FRAMES_LO : Nat := 0x303002
/-- 3030.03 RUN_FRAMES_HI. -/
def RUN_FRAMES_HI : Nat := 0x303003
/-- 3030.04 SAFE_ENTRY_CNT. -/
def SAFE_ENTRY_CNT : Nat := 0x303004
/-- 3030.05 TJ_OVER_WARN_S. -/
def TJ_OVER_WARN_S : Nat := 0x303005

end Sys2Proof.Machine.Obj
end

