-- ==== Sys2Proof/Machine/Tab.lean ====
section
/-! DEFINITION. Sparse tables in one canonical form: keys strictly rising, no entry equal to what an
unlisted key reads as. Objects, SRAM bytes, flash bytes and Ledger entries are held this way. -/
namespace Sys2Proof.Machine

/-- Value at key `k`; an unlisted key reads as `d k`. -/
def tget {α : Type} (d : Nat → α) : List (Nat × α) → Nat → α
  | [], k => d k
  | (j, v) :: t, k => if k < j then d k else if k = j then v else tget d t k

/-- The table with `v` at key `k`. Storing what an unlisted key reads as removes the entry. -/
def tput {α : Type} [DecidableEq α] (d : Nat → α) : List (Nat × α) → Nat → α → List (Nat × α)
  | [], k, v => if v = d k then [] else [(k, v)]
  | (j, u) :: t, k, v =>
    if k < j then (if v = d k then (j, u) :: t else (k, v) :: (j, u) :: t)
    else if k = j then (if v = d k then t else (k, v) :: t)
    else (j, u) :: tput d t k v

/-- Every key is above `b`, and keys rise strictly. -/
def tabove {α : Type} : Nat → List (Nat × α) → Bool
  | _, [] => true
  | b, (j, _) :: t => decide (b < j) && tabove j t

/-- The canonical form of a sparse table. -/
def twf {α : Type} [DecidableEq α] (d : Nat → α) : List (Nat × α) → Bool
  | [] => true
  | (j, u) :: t => tabove j t && decide (u ≠ d j) && twf d t

/-- Canonical form of a byte memory whose unlisted bytes read as `z`. -/
abbrev Memory.wf (z : Byte) (m : List (Nat × Byte)) : Bool := twf (fun _ => z) m

/-- Store consecutive values from key `k` on. -/
def tputs {α : Type} [DecidableEq α] (d : Nat → α) (t : List (Nat × α)) (k : Nat) : List α → List (Nat × α)
  | [] => t
  | v :: vs => tputs d (tput d t k v) (k + 1) vs

/-- Read `n` consecutive values from key `k` on. -/
def tgets {α : Type} (d : Nat → α) (t : List (Nat × α)) : Nat → Nat → List α
  | _, 0 => []
  | k, n + 1 => tget d t k :: tgets d t (k + 1) n

/-- The entries whose key does not lie in [lo, hi). They read as unlisted afterwards. -/
def tclear {α : Type} (lo hi : Nat) (t : List (Nat × α)) : List (Nat × α) :=
  t.filter fun e => decide (e.1 < lo) || decide (hi ≤ e.1)

end Sys2Proof.Machine
end

