-- ==== Sys2Proof/Machine/State.lean ====
section
/-! DEFINITION. The state of the S9: every register, buffer, queue and memory the chapters name, as plain data.
Scalar dictionary objects whose only home is their own register live in the object stores (`live` for classes L and F,
`act` and `stg` for the active and staged copies of class S, `kAct`/`kStg` for the Watchtower's copies of class K);
everything with structure of its own is a typed field of its block. -/
namespace Sys2Proof.Machine

/-- Reasons for which a step could stop with a fault. No meaning of this model stops with one: each command the
chapters describe has an effect or is refused inside the machine (a next state). -/
inductive Fault where
  /-- Raised by nobody: the block has no event that stops it (R21 keeps the tick running through everything).
  Safe: a run never ends here. -/
  | none_raised
  deriving DecidableEq, Repr

/-- Reasons for which the model could refuse a command. -/
inductive Refusal where
  /-- Raised by an arm of `exec` whose command has no meaning yet. Safe: the run stops. -/
  | notModelled (mnemonic : String)
  deriving DecidableEq, Repr

/-- The eight modes (R43). -/
inductive Mode where
  | boot | charge | ready | run | ridethrough | mirror | test | safe
  deriving DecidableEq, Repr

/-- Mode code (R43). -/
def Mode.code : Mode → Nat
  | .boot => 0 | .charge => 1 | .ready => 2 | .run => 3 | .ridethrough => 4 | .mirror => 5 | .test => 6 | .safe => 7

/-- Redundancy role (2000.02 ROLE). -/
inductive Role where
  | alone | active | standby
  deriving DecidableEq, Repr

/-- Role code (2000.02 ROLE). -/
def Role.code : Role → Nat
  | .alone => 0 | .active => 1 | .standby => 2

/-- Life-cycle states (R462). -/
inductive LifeCycle where
  | blank | provisioned | deployed | returned | scrapped
  deriving DecidableEq, Repr

/-- Life-cycle code (R462). -/
def LifeCycle.code : LifeCycle → Nat
  | .blank => 0 | .provisioned => 1 | .deployed => 2 | .returned => 3 | .scrapped => 4

/-- Steps of BOOT with the codes of BOOT_STATUS (R56, R57). -/
inductive BootStep where
  | clocks | fuses | march | headers | payload | lanes | discovery | validation | done
  | watchtowerFail | memoryFail | noImage | configRefused
  deriving DecidableEq, Repr

/-- BOOT_STATUS code (R56, R57). -/
def BootStep.code : BootStep → Nat
  | .done => 0 | .clocks => 1 | .fuses => 2 | .march => 3 | .headers => 4 | .payload => 5 | .lanes => 6
  | .discovery => 7 | .validation => 8 | .watchtowerFail => 0xE1 | .memoryFail => 0xE2 | .noImage => 0xE3
  | .configRefused => 0xE4

/-- States of a commit (R67). -/
inductive CommitState where
  | opened | validating | pending | syncing
  deriving DecidableEq, Repr

/-- COMMIT_STATE code (R67). -/
def CommitState.code : CommitState → Nat
  | .opened => 0 | .validating => 1 | .pending => 2 | .syncing => 3

/-- The commit in progress (R67): its state, the P that its validation found (R24), and whether it was validated in a mode in which P may
change (R25). -/
structure CommitSt where
  st : CommitState
  p : Nat
  plan : Bool
  deriving DecidableEq, Repr

/-- BOOT, the flash image service and resets (R55 to R65, R528). -/
structure BootSt where
  step : BootStep
  /-- BOOT_SEL pins, and the code sampled at the release of RESET_N (R58). -/
  selPins : BitVec 2
  /-- PWRGOOD is high (R528). -/
  pwrgood : Bool
  /-- RESET_N is held low (R528). -/
  resetLow : Bool
  /-- Reset cause that the next BOOT reports (R512, R528). -/
  cause : Nat
  /-- The loaded configuration has been accepted as commit 1 (R55). -/
  accepted : Bool
  /-- The Watchtower self-test of R55 has passed. -/
  wtTested : Bool
  /-- The start-up march of R454 has ended. -/
  marched : Bool
  /-- Manifest lanes still awaited, and time still awaited (R55). -/
  lanesWaited : Bool
  timeWaited : Bool
  /-- A slot was refused at validation, so the other one was tried (R63). -/
  triedOther : Bool
  /-- A host load is open: the acquisition banks take IMG_DATA (R58). -/
  hostLoad : Bool
  /-- Provisioning boot in progress (R464). -/
  provisioning : Bool
  /-- BOOT ends in MIRROR and waits for a pair train from an ACTIVE partner (R416). -/
  mirrorWait : Bool
  /-- L at the release of RESET_N, for BOOT_TIME_US (R55). -/
  startL : Nat
  /-- The running slot: 0 A, 1 B, 2 host, 3 none (2002.02). -/
  slot : Nat
  /-- A slot is running. -/
  slotRuns : Bool
  /-- A host-loaded image was submitted (R58). -/
  submitted : Bool
  /-- The slot whose payload is being loaded. -/
  loading : Nat
  /-- An image has been refused at validation in this BOOT (R57). -/
  refused : Bool
  /-- Code and detail that the validation reports because of the image's sections (R60, R61). -/
  bad : Option (Nat × Option Nat)
  deriving DecidableEq, Repr

/-- A flash operation of the image service (R64). -/
inductive FlashOp where
  | erase (slot : Nat)
  /-- Program one page of 256 bytes at a flash address. -/
  | page (addr : Nat) (bytes : List Byte)
  | finish (slot : Nat)
  | save (slot : Nat)
  deriving DecidableEq, Repr

/-- The image service (R64): operations in progress or waiting, and the page being filled. -/
structure ImgSt where
  ops : List FlashOp
  /-- Slot the erase selected for the words of IMG_DATA. -/
  slot : Nat
  /-- Flash address of the page being filled, and its words so far. -/
  pageAddr : Nat
  page : List Byte
  deriving DecidableEq, Repr

/-- A FRAME task released in the frame in progress (R33): its descriptor, its arms, and whether it signalled done. -/
structure FrameTask where
  desc : Nat
  arms : BitVec 12
  done : Bool
  deriving DecidableEq, Repr

/-- Times of one frame awaiting publication (R41). -/
structure Snap where
  frame : Nat
  tRelease : Nat
  tDone : Nat
  tSelect : Nat
  tCaravanEnd : Nat
  tMirrorEnd : Nat
  deriving DecidableEq, Repr

/-- The Frame Sequencer and the Belfry tick (R19 to R42). -/
structure FrameSt where
  /-- S_0 has rung (FRAME_STATUS.TICKING). -/
  ticking : Bool
  /-- The frame count. -/
  count : Nat
  /-- Converter time of S_k of the frame in progress, in ns. -/
  tickC : Nat
  /-- Converter times of the S_k before it, newest first. -/
  ticks : List Nat
  /-- JTAG debug halt in force, and frame k stopped by one (R21). -/
  halted : Bool
  planStopped : Bool
  /-- FRAME tasks were released in this frame; D_k has passed; the caravans of this frame were sent. -/
  released : Bool
  cut : Bool
  sent : Bool
  /-- D_k is being worked off, all arms in parallel (R225): the model's own field. -/
  cutting : Bool
  /-- The measurement deadline S_k + 150 ns has passed. -/
  measClosed : Bool
  tasks : List FrameTask
  reused : BitVec 12
  /-- Consecutive reuses per arm, and consecutive missing frames per gating lane (R32, R35). -/
  lateRun : Vector Nat 12
  measRun : Vector Nat 32
  /-- The largest count of missing frames of a gating lane as of the last D_k (R42). -/
  measMax : Nat
  /-- Streams whose record was deposited in this frame. -/
  deposited : List Nat
  /-- Latest arrival among the deposited records of gating lanes, in ns after S_k (R31). -/
  gateAt : Nat
  /-- Lanes for which ROUTE_DOWN, once signalled at a D_k, has not ended (R37, R38). -/
  downHeld : BitVec 32
  snaps : List Snap
  /-- P_ACTIVE comes from P_SET (R42). -/
  pFromSet : Bool
  deriving DecidableEq, Repr

/-- A pending host mode request and the firmware request of this frame (R48, R51), and the ready and ridethrough
counts (R47, R51). -/
structure ModeSt where
  /-- SAFE was entered since the last D_k (R49). -/
  safeNew : Bool
  /-- Pending MODE_REQ code. -/
  req : Option Nat
  /-- RT_REQ written in this frame. -/
  rtReq : Option Nat
  /-- SAFE_ACK written since SAFE was entered (R52). -/
  acked : Bool
  readyRun : Nat
  rtFrames : Nat
  rtQuiet : Nat
  /-- Consecutive samples of RT_IDC_SRC above its threshold (R51), and the entry it raised in this frame. -/
  idcRun : Nat
  idcHit : Bool
  /-- The stream's record was deposited in this frame. -/
  idcSeen : Bool
  deriving DecidableEq, Repr

/-- Lane states (R79). -/
inductive LaneState where
  | disabled | cdrAcq | eqAdapt | blockAcq | trainExch | data | prbs | loopback
  deriving DecidableEq, Repr

/-- LANE_STATUS.STATE (R79). -/
def LaneState.code : LaneState → Nat
  | .disabled => 0 | .cdrAcq => 1 | .eqAdapt => 2 | .blockAcq => 3 | .trainExch => 4 | .data => 5 | .prbs => 6
  | .loopback => 7

/-- One lane of the SerDes macro (R73 to R95). Lanes 0 to 31 are Waljor, 32 and 33 the Mirror Link, 34 to 37 the
Ethernet lanes EN0 to EN3. LANE_CTRL and the counters are objects of the live store. -/
structure Lane where
  st : LaneState
  lastCause : Nat
  eqValid : Bool
  cdrLock : Bool
  blockLock : Bool
  los : Bool
  prbsLock : Bool
  /-- The training in progress is a fast one (R80). -/
  fast : Bool
  /-- Consecutive failed full retrainings, and the 100 ms wait of R83. -/
  fails : Nat
  waiting : Bool
  /-- Fill of the elastic buffer (R77). -/
  fill : Nat
  /-- The 64-bit PRBS bit count (R89). -/
  prbsBits : Nat
  /-- The checker has been locked since its bits were last counted (R89): the model's own field. -/
  prbsDue : Bool
  /-- The transmitter returns the received bits to the owner (R91, lane 31 as upstream port). -/
  looping : Bool
  /-- FAST of the partner's last TRAIN block, which a tail echoes (R81). -/
  peerFast : Bool
  /-- C in ns at which the lane took up its state. -/
  since : Nat
  /-- Block boundary, as C in ns, at which the lane last left DATA, with the lowest retraining cause there; 0 for none (R84). -/
  left : Option (Nat × Nat)
  /-- Blocks sent since the last CC block, up to which instant in 0.01 ns of C they are counted, and CC blocks sent (R76). -/
  ccRun : Nat
  ccFrom : Nat
  ccSent : Nat
  /-- Payloads of the blocks of the last train sent: the model's own observation of the ball (R100). -/
  train : List (BitVec 64)
  deriving DecidableEq, Repr

/-- A manifest (R116): FLAGS, DELAY_MAX_NS and the 4-byte entries of R117. No manifest is the empty entry list. -/
structure Manifest where
  flags : Nat
  delayMax : Nat
  entries : List Word
  /-- SLOT_COUNT as written; a commit checks it against the sum (R118). -/
  slotCount : Nat
  deriving DecidableEq, Repr

/-- Route states (R136). -/
inductive RouteState where
  | unused | down | discovering | verifying | inService | mismatch | delayRefused
  deriving DecidableEq, Repr

def RouteState.code : RouteState → Nat
  | .unused => 0 | .down => 1 | .discovering => 2 | .verifying => 3 | .inService => 4 | .mismatch => 5
  | .delayRefused => 6

/-- Kinds of walk (R119). -/
inductive WalkKind where
  | discovering | verifying
  /-- VERIFYING of one unit's subtree, at this depth and path (R126). -/
  | subtree (path : Nat)
  deriving DecidableEq, Repr

/-- A unit found by a walk (R124). Delays in 0.25 ns. -/
structure WalkUnit where
  path : Nat
  type : Nat
  slots : Nat
  portUp : Nat
  serial : Word
  assigned : Bool
  dualHomed : Bool
  heldDelay : Nat
  /-- Round trips measured so far, in 0.25 ns, and whether the set was repeated. -/
  pings : List Nat
  repeated : Bool
  d : Option Nat
  dUp : Nat
  deriving DecidableEq, Repr

/-- An outstanding discovery request (R120 to R123). -/
structure DiscReq where
  tag : Nat
  path : Nat
  op : Nat
  arg : Nat
  tries : Nat
  deriving DecidableEq, Repr

/-- A walk in progress (R119 to R128). -/
structure Walk where
  kind : WalkKind
  units : List WalkUnit
  reqs : List DiscReq
  /-- Requests waiting for a free tag. -/
  todo : List DiscReq
  /-- The tree has been compared and the assignments are being written. -/
  assigning : Bool
  /-- A held delay was reassigned (ROUTE_STATUS.DELAY_DRIFT). -/
  drift : Bool
  /-- ROUTE_ASYM_Q of the lane when the walk began (R142). -/
  asym : Int
  deriving DecidableEq, Repr

/-- An uplink train being received (R129). -/
structure UpTrain where
  frame : Nat
  /-- SLOT of the header, COUNT, FILL_CNT and LONG_PRESENT (R107). -/
  slot : Nat
  count : Nat
  fillCnt : Nat
  long : Bool
  deriving DecidableEq, Repr

/-- Hold-off of subtree walks of one unit (R126): its path and the frame in which its last walk ended. -/
structure HoldOff where
  path : Nat
  frame : Nat
  deriving DecidableEq, Repr

/-- One route (R97 to R138). -/
structure Route where
  st : RouteState
  /-- Route state when the lane left DATA (R119). -/
  heldSt : RouteState
  /-- The walk of the whole route that was in progress then, and a manifest change that still awaits its walk (R119). -/
  heldWalk : Option Walk
  rediscover : Bool
  inServiceSinceBoot : Bool
  follow : Bool
  conflict : Bool
  portLoss : Bool
  drift : Bool
  /-- The last completed walk's signature counts for code 0x0A (R118). -/
  walked : Bool
  walk : Option Walk
  /-- Tag of the next request; a superseded walk's replies then match nothing. -/
  nextTag : Nat
  /-- Downlink delay of the depth-0 unit in 0.25 ns, as the last full walk measured it. -/
  homeD : Nat
  lastSlot : Option Nat
  train : Option UpTrain
  /-- Records of the train being received by position, and the first positions of the leaves accepted from it. -/
  recv : List (Nat × Word)
  got : List Nat
  /-- Frames below `nextClose` have closed on the lane, and those listed (R173). -/
  nextClose : Nat
  closedAhead : List Nat
  /-- Missing run per manifest position that is missing (R119). -/
  missRun : List (Nat × Nat)
  holdOff : List HoldOff
  grantAfter : Nat
  longPending : List Nat
  /-- A hold courier sent here has not been followed by a release (R103). -/
  hold : Bool
  /-- Consecutive ticks at which the route was IN_SERVICE, saturating at 4,095 (R175). -/
  serviceRun : Nat
  /-- The route's first stale transition was journalled (R179). -/
  staleLogged : Bool
  deriving DecidableEq, Repr

/-- An entry of the long-record ring (R138). -/
structure LongEntry where
  w0 : Word
  w1 : Word
  w2 : Word
  w3 : Word
  lane : Nat
  addr : Nat
  frameLo : Word
  deriving DecidableEq, Repr

/-- A caravan as it left a lane: the model's own observation of the ball. -/
structure CaravanOut where
  slot : Nat
  mode : Nat
  active : Bool
  hold : Bool
  epoch : Nat
  tmark : Nat
  p : Nat
  tf10 : Nat
  grant : Option Nat
  slots : List (BitVec 16)
  deriving DecidableEq, Repr

/-- What the header of the device's own uplink train carries (R107): the owner's frame, EPOCH and ROUTE_ID of the last caravan, and the
number of its records. It follows its one upstream port, has no ports below it and sends no fill records. -/
structure UpOut where
  slot : Nat
  epoch : Nat
  route : Nat
  recs : List Word
  long : Option (List Word)
  deriving DecidableEq, Repr

/-- Routes, manifests, long records and the grouped unit (R97 to R138). -/
structure RouteSt where
  routes : Vector Route 32
  manStaged : Vector Manifest 32
  manActive : Vector Manifest 32
  longRing : List (Nat × LongEntry)
  /-- Caravans built at D_k and not yet started, by lane. -/
  built : Vector (Option CaravanOut) 32
  /-- Caravan last started on each lane, and the converter time in ns at which its last bit leaves (R27). -/
  sentCar : Vector (Option CaravanOut) 32
  sentEnd : Vector Nat 32
  /-- UPLINK_STATUS: TF_MISMATCH, ticking from upstream, assigned (R138). -/
  upTfMismatch : Bool
  upTicking : Bool
  upAssigned : Bool
  /-- This device's own assignment as a grouped unit: address, slots, delay in 0.25 ns, and its home delay where it stands at
  depth 0. -/
  ownAddr : Nat
  ownSlots : Nat
  ownDelay : Nat
  ownHome : Option Nat
  /-- Owner frame number less the own count, from the last caravan accepted, and downlink words waiting for their slot. -/
  upDelta : Int
  upSlots : List (Nat × List (Option (BitVec 16)))
  /-- Last uplink train sent as a grouped unit, and the last discovery reply; replies that wait for a long segment (R114, R120). -/
  upOut : Option UpOut
  upReply : List Word
  upHeld : List (List Word)
  /-- EPOCH and ROUTE_ID of the last caravan, and the SLOTs received in the last 2^31 (R107, R130). -/
  upEpoch : Nat
  upRoute : Nat
  upSeen : List Nat
  /-- Leaf timer of the upstream port (R140): locked, consecutive good or bad caravans, its rate in ppb, the part of S_k below
  1 ns in 2^-16 ns, and the own frame of the last valid caravan. -/
  upLocked : Bool
  upRun : Nat
  upRate : Int
  upPhase : Nat
  upLast : Option Nat
  /-- P and T_F of the last upstream caravan (R141). -/
  upP : Nat
  upTf10 : Nat
  deriving DecidableEq, Repr

/-- Courier kinds (R147). -/
inductive CourierKind where
  | block | hold | releaseHold
  deriving DecidableEq, Repr

/-- A courier (R147). `fromReq` marks the courier of the current COURIER_REQ (R151); `edge` is the filter-input stamp
of the TRIP_N edge behind a trip courier (R153). -/
structure Courier where
  kind : CourierKind
  wtOrigin : Bool
  epoch : BitVec 8
  blkSlot : BitVec 24
  holdLimit : BitVec 8
  fromReq : Bool
  edge : Option Nat
  deriving DecidableEq, Repr

/-- A beacon (R154). -/
structure Beacon where
  event : BitVec 6
  hops : BitVec 2
  originFrame : BitVec 16
  originOff : BitVec 17
  source : BitVec 7
  deriving DecidableEq, Repr

/-- A beacon awaiting its consumers (R158): the event and the origin in converter time in 0.25 ns. -/
structure BeaconAct where
  event : BitVec 6
  originQ : Nat
  /-- Late on delivery for its consumers, and for the TRIG_OUT pulse (R158, R160). -/
  late : Bool
  trigLate : Bool
  /-- The consumers have still to act, and the pulse has still to start. -/
  act : Bool
  pulse : Bool
  deriving DecidableEq, Repr

/-- The measurement of a trip courier (R153): the stamp of its edge in ns of C, the lanes that it is still to leave, and its latest
departure so far in 0.25 ns. -/
structure TripMeas where
  edge : Nat
  lanes : BitVec 32
  last : Nat
  deriving DecidableEq, Repr

/-- Couriers, beacons and the trigger pins (R146 to R160). Lanes 0 to 31 are the Waljor lanes; beacon queues 32 and 33
are the Mirror Link lanes and 34 the upstream port. -/
structure LaunchSt where
  queue : Vector (List Courier) 32
  /-- Block couriers being repeated, oldest first: the repetitions left, and the frame in which each was sent last (R149). -/
  repeats : List (Courier × Nat × Nat)
  /-- Lanes on which the courier of COURIER_REQ is still queued, and whether it left on any lane (R151). -/
  reqLanes : BitVec 32
  reqLeft : Bool
  beacons : Vector (List Beacon) 35
  /-- The last 16 beacons received, newest first (R157). -/
  dup : List Beacon
  acts : List BeaconAct
  trigInLast : Option Nat
  /-- TRIG_OUT is at its active level, until this converter time (R160). -/
  trigOut : Option Nat
  /-- What last left on each lane: the model's own observation of the ball, not a register. -/
  lastCourier : Vector (Option (BitVec 64)) 32
  lastBeacon : Vector (Option (BitVec 64)) 35
  /-- Trip couriers that are still to leave a lane, oldest first (R153). -/
  trips : List TripMeas
  deriving DecidableEq, Repr

/-- A Ledger entry: its four words (R162 to R166). -/
structure Entry where
  w0 : Word
  w1 : Word
  w2 : Word
  w3 : Word
  deriving DecidableEq, Repr

/-- What an entry that nothing configured holds: disabled, all zero (R167, R184). -/
def Entry.empty : Entry := ⟨0, 0, 0, 0⟩

/-- The figures of R181 for one arm. -/
structure Summary where
  sumAll : Nat
  sumIns : Nat
  nAll : Nat
  nIns : Nat
  meanAll : Nat
  meanIns : Nat
  minAll : Nat
  maxAll : Nat
  minIns : Nat
  maxIns : Nat
  nSuspect : Nat
  nNeg : Nat
  deriving DecidableEq, Repr

/-- Summary of an arm with no enabled entry (R180, R181). -/
def Summary.none : Summary := ⟨0, 0, 0, 0, 0, 0, 0xFFFF, 0, 0xFFFF, 0, 0, 0⟩

/-- The Cell Ledger (R162 to R187): entries by index, staged configurations, the summaries frozen at S_k and those of
the last D_k, and the host capture of R182. -/
structure LedgerSt where
  entries : List (Nat × Entry)
  /-- Staged W3[31:14] by index. -/
  staged : List (Nat × Word)
  frozen : Vector Summary 12
  frozenFrame : Nat
  atCut : Vector Summary 12
  /-- VCELL frozen at S_k with its staleness for the Acquisition Engine is read from the entries themselves. -/
  capture : Option (Nat × Entry)
  deriving DecidableEq, Repr

/-- A built-queue entry (R196). -/
structure Built where
  slot : Nat
  count : Int
  edge : Nat
  src : Nat
  flags : Nat
  deriving DecidableEq, Repr

/-- A force set (R200): the code, the count, the edge and the 8 FORCE_CELL words. -/
structure ForceSet where
  code : Nat
  count : Int
  edge : Nat
  cells : List Word
  deriving DecidableEq, Repr

/-- One arm's modulator, force and mask state (R188 to R214). -/
structure Arm where
  queue : Vector (Option Built) 16
  /-- The executing pair and its build source (R196); the flags of the slot built last (R212). -/
  execCount : Int
  execEdge : Nat
  execSrc : Nat
  builtFlags : Nat
  /-- The armed set (R200). -/
  armed : Option ForceSet
  /-- FORCE_APPLIED_SLOT_LO is still to be written for the armed set. -/
  armedFresh : Bool
  deferred : Option ForceSet
  /-- Levels of GPIO[3:0] accepted active by this arm's filter (R205). -/
  gpio : BitVec 4
  latch : Bool
  /-- A mask is in force for the next slot to be built (R206, R207). -/
  mask : Bool
  /-- The slot built at the last D_k is masked (R214). -/
  masking : Bool
  deriving DecidableEq, Repr

/-- The Selector's own state of one arm (R215 to R239). FRAC_INDEX, SEP_END and the counters are live objects. -/
structure SelArm where
  /-- Fractional holder and its dwell count (R228). -/
  holder : Option Nat
  dwell : Nat
  /-- Warm-up frames left; `none` until the arm is first selected (R236). -/
  warmup : Option Nat
  /-- The slot before used a tier-2 cell (R229). -/
  suspectRun : Bool
  cellsLow : Bool
  status : Word
  avail : Word
  deriving DecidableEq, Repr

/-- The Selector (R215 to R239): working budgets that differ from W2, promoted spares, route counts and the
write-back of a leak. -/
structure SelSt where
  arms : Vector SelArm 12
  /-- Working copy of BUDGET by Ledger index; unlisted: 0. -/
  budget : List (Nat × Nat)
  promoted : List Nat
  /-- Consecutive D_k at which each route was unreachable (R216). -/
  unreach : Vector Nat 32
  /-- Next Ledger index of a leak write-back in progress (R224). -/
  leakAt : Option Nat
  deriving DecidableEq, Repr

/-- The four words of a task descriptor (R271). -/
structure Desc where
  w0 : Word
  w1 : Word
  w2 : Word
  w3 : Word
  deriving DecidableEq, Repr

/-- A disabled descriptor (R271). -/
def Desc.empty : Desc := ⟨0, 0, 0, 0⟩

/-- Dynamic state of one descriptor (R277, R278, R288). -/
structure DescDyn where
  pend : Bool
  cycWarn : Bool
  lastEngine : Nat
  relCnt : Word
  deriving DecidableEq, Repr

/-- A released instance (R277): its number, its descriptor and the words it was released with (R273). -/
structure Inst where
  id : Nat
  desc : Nat
  words : Desc
  /-- L in ns of the release (R282), and the frame in which it happened (R34). -/
  rel : Nat
  frame : Nat
  deriving DecidableEq, Repr

/-- Phases of a switch on one engine (R282 to R284). -/
inductive Entering where
  /-- The 4-cycle selection. -/
  | select (i : Inst)
  /-- The 12-cycle save of the preempted context before the load of `i`. -/
  | save (i : Inst)
  | load (i : Inst)
  /-- Restore of the engine's most recently saved context. -/
  | restore
  deriving DecidableEq, Repr

/-- The Task Scheduler (R271 to R288). -/
structure SchedSt where
  /-- Active and staged descriptors that are not empty, by number. -/
  active : List (Nat × Desc)
  staged : List (Nat × Desc)
  dyn : List (Nat × DescDyn)
  /-- Window latch of DESC_W0 to DESC_W2 per access path (R272). -/
  window : Vector Desc 3
  nextId : Nat
  /-- Instances that hold a pool entry, and outstanding FRAME instances. -/
  pool : List Inst
  frames : List Inst
  /-- Ready lists by priority, oldest first (R280). -/
  ready : Vector (List Inst) 16
  /-- Delay list: descriptor and frames left, sorted (R275). -/
  delays : List (Nat × Nat)
  /-- Prefetch slot per engine, and a refill in progress (R281). -/
  slot : Vector (Option Nat) 8
  /-- The first 8 instruction words that the slot holds (R281). -/
  slotWords : Vector (List (BitVec 64)) 8
  refill : Vector (Option Nat) 8
  entering : Vector (Option Entering) 8
  /-- Running instance per engine. -/
  running : Vector (Option Inst) 8
  deriving DecidableEq, Repr

/-- A hardware loop (R255): its body from `start` to `stop`, and the passes left. -/
structure LoopRec where
  start : Nat
  stop : Nat
  count : Nat
  /-- Its end costs a cycle: the body is longer than the loop cache, or another loop has run in it (R256). -/
  slow : Bool
  deriving DecidableEq, Repr

/-- A posted shared-memory store waiting in the store buffer (R247): word address and data. -/
structure PostedStore where
  addr : Nat
  data : Word
  deriving DecidableEq, Repr

/-- The registers of one Cupola engine (R242 to R245), which a preemption saves whole (R284). -/
structure EngRegs where
  d : Vector Word 16
  acc : Vector (BitVec 72) 4
  a : Vector (BitVec 20) 8
  m : Vector (BitVec 20) 8
  b : Vector (BitVec 20) 8
  l : Vector (BitVec 16) 8
  flg : Word
  pc : BitVec 13
  loops : List LoopRec
  rets : List (BitVec 13)
  stores : List PostedStore
  /-- The engine's 64-bit read latch (R9, R259, R264): the key of the high half and its value. -/
  latch : Option (Nat × Word)
  /-- Cycles executed by this instance (port 0x28). -/
  cycles : Nat
  /-- CYC_WARN has been passed by this instance (R281). -/
  warned : Bool
  deriving DecidableEq, Repr

/-- A preempted context (R283, R284). -/
structure SavedCtx where
  inst : Inst
  regs : EngRegs
  deriving DecidableEq, Repr

/-- The interlocks of an engine (R255): its count of cycles, and the cycle from which each result can be read, as an operand or a stored
value, as a LOOPD count, as a stored accumulator, in address formation (8 × file + number) and as a condition. -/
structure Hazards where
  clk : Nat
  d : Vector Nat 16
  loop : Vector Nat 16
  acc : Vector Nat 4
  adr : Vector Nat 32
  cc : Nat
  deriving DecidableEq, Repr

/-- One engine. -/
structure Engine where
  r : EngRegs
  /-- DICT_SEL and DICT_RESULT of its dictionary port (R264), outside the saved context (R259). -/
  dictSel : Word
  dictResult : Word
  hazards : Hazards
  /-- Local time until which it is stalled on shared memory or the dictionary (R269). -/
  stalledTo : Nat
  saved : List SavedCtx
  /-- Stopped by BKPT (R258). -/
  bkpt : Bool
  deriving DecidableEq, Repr

/-- A measurement entry of the mailbox (R251). -/
structure MbxMeas where
  words : Vector Word 4
  frameLo : Word
  age : Nat
  lane : Nat
  arrNs : Nat
  fresh : Bool
  deriving DecidableEq, Repr

/-- The eight engines and what they share (R240 to R270). The program, X, Y and shared memories are SRAM banks. -/
structure CupolaSt where
  eng : Vector Engine 8
  /-- The 16 semaphores (R248). -/
  sem : BitVec 16
  /-- Frame information and summaries of the mailbox, as frozen (R250). -/
  mbx : Vector MbxMeas 64
  /-- The frame-information block (R250). -/
  info : Vector Word 16
  /-- Low half of a program word per access path: word address and data (R267). -/
  progLatch : Vector (Option (Nat × Word)) 3
  deriving DecidableEq, Repr

/-- A set-point channel (R289 to R294): the output y, the last raw value and the run of ticks without a result. -/
structure SpChan where
  y : Int
  raw : Int
  noNew : Nat
  /-- Source at the last tick. -/
  src : Nat
  started : Bool
  valid : Bool
  flags : Nat
  seq : Word
  deriving DecidableEq, Repr

/-- State words and coefficients of one notch (R296, R297), and whether it starts at the next D_k (R298). -/
structure Notch where
  x1 : Int
  x2 : Int
  y1 : Int
  y2 : Int
  start : Bool
  b0 : Int
  a1 : Int
  a2 : Int
  deriving DecidableEq, Repr

/-- Lantern states (R302). -/
inductive LanternState where
  | idle | running | post | stopped
  deriving DecidableEq, Repr

def LanternState.code : LanternState → Nat
  | .idle => 0 | .running => 1 | .post => 2 | .stopped => 3

/-- The Lantern (R300 to R303). Its records are banks 163 to 166. -/
structure LanternSt where
  st : LanternState
  wr : Nat
  /-- Records written since ARM. -/
  written : Nat
  postLeft : Nat
  trigRec : Nat
  pre : Nat
  trigFrame : Nat
  /-- A trigger has been accepted and marks the record of this frame (R302). -/
  mark : Option Nat
  /-- Last value of each port probe and whether it was written in this frame (R301). -/
  port : Vector Word 16
  portWritten : BitVec 16
  /-- Node and port values recorded last, for the probe condition. -/
  last : Option (List Word)
  /-- Node values at D_k + 150 ns of the frame in progress. -/
  nodes : List (Nat × Word)
  /-- Triggers of the frame in progress that ARM may still put behind itself (R304): the frame, the records they would mark, and how many
  were counted as ignored. -/
  trigsAt : Nat
  trigs : List Nat
  ignored : Nat
  deriving DecidableEq, Repr

/-- Control-law aids (R289 to R306). -/
structure AidsSt where
  chans : Vector SpChan 4
  n1 : Vector Notch 12
  n2 : Vector Notch 12
  /-- Stamps of accepted PULSE edges, newest first, in ns of converter time (R291). -/
  pulses : Vector (List Nat) 2
  /-- Results counted per ADC-A input at the last tick (R290). -/
  taken : Vector Nat 8
  lantern : LanternSt
  /-- Fabric cycle of the last change of AIDS_STICKY, and the bits that events set and that writes cleared in it (R299): the model's own
  fields. -/
  stickyAt : Nat
  stickySet : Word
  stickyClr : Word
  deriving DecidableEq, Repr

/-- Domain states (R312). -/
inductive DomState where
  | idle | listening | acquiring | tracking | locked | holdover | offsetAlarm
  deriving DecidableEq, Repr

/-- DOM_STATE code (R312). -/
def DomState.code : DomState → Nat
  | .idle => 0 | .listening => 1 | .acquiring => 2 | .tracking => 3 | .locked => 4 | .holdover => 5
  | .offsetAlarm => 6

/-- A master's announced data set, as one port carries it (R309, R311, R320). `rank` orders data sets by the
comparison of IEEE 1588-2019: the smaller rank is the better master. -/
structure Master where
  gmId : Nat
  rank : Nat
  utcOffset : Int
  utcValid : Bool
  leap59 : Bool
  leap61 : Bool
  ptpTimescale : Bool
  inacc : Option Nat
  deriving DecidableEq, Repr

/-- One of the domains A and B (R307 to R314). Rates are in 2^-16 ppb, the counter in 2^-32 ns. -/
structure Dom where
  ctr : Nat
  st : DomState
  stepped : Bool
  rate : Int
  integ : Int
  /-- Offsets with their L time, newest first: those that ACQUIRING keeps. -/
  offs : List (Int × Nat)
  /-- L of the last valid offset. -/
  lastOff : Option Nat
  /-- Runs of offsets within and above LOCK_THR_NS. -/
  inRun : Nat
  outRun : Nat
  /-- HOLDOVER_LIMIT_S has passed since LOCKED was left (R314). -/
  expired : Bool
  /-- The domain has been LOCKED at least once since it was last unusable. -/
  wasLocked : Bool
  /-- L at which LOCKED was entered for the run of R319. -/
  lockedSince : Option Nat
  /-- Announced master of EN2 and of EN3, and the port in use: `true` is EN3. -/
  master2 : Option Master
  master3 : Option Master
  port3 : Bool
  portChosen : Bool
  oneStep : Bool
  gmSeen : Option Nat
  /-- A two-step Sync awaiting its Follow_Up: port, sequence, ingress time, correction. -/
  sync : Option (Bool × Nat × Int × Int)
  offsetNs : Int
  stepL : Nat
  deriving DecidableEq, Repr

/-- Kinds of peer-delay messages that the S9 sends (R309). -/
inductive PdelayKind where
  | req | resp | followUp
  deriving DecidableEq, Repr

/-- A peer-delay message sent (R309, R310): destination address, EtherType, priority of a tag with VLAN 0 (untagged without), domain
number, sequenceId, and the stamp that it carries, at the medium, in L. -/
structure PdelaySent where
  kind : PdelayKind
  dest : Nat
  etherType : Nat
  tag : Option Nat
  domain : Nat
  seq : Nat
  stamp : Nat
  deriving DecidableEq, Repr

/-- C_OFF from an instant of C on (R317, R318), all in 2^-32 ns: its value there, the advance of the selected domain and of C per ns of L
from there on, and TRACEABLE. -/
structure OffSeg where
  start : Nat
  off : Int
  domWord : Nat
  cWord : Nat
  trace : Bool
  deriving DecidableEq, Repr

/-- Peer-delay state of one port (R309, R310): the outstanding request with its egress L time, the turnaround stamps of
the response, and the mean path delay. -/
structure PtpPort where
  reqSeq : Nat
  reqT1 : Option Nat
  /-- Sequence, request receipt at the partner and ingress of the response. -/
  resp : Option (Nat × Nat × Nat)
  meanPath : Int
  /-- The newest Pdelay_Req sent, and the newest Pdelay_Resp with its Pdelay_Resp_Follow_Up. -/
  reqSent : Option PdelaySent
  respSent : List PdelaySent
  deriving DecidableEq, Repr

/-- The Belfry counters and the time controller (R307 to R325). -/
structure TimeSt where
  /-- L in ns since the release of RESET_N. -/
  l : Nat
  /-- C in 2^-32 ns, and whether BOOT has set it. -/
  c : Nat
  cSet : Bool
  dom : Vector Dom 2
  port : Vector PtpPort 2
  selB : Bool
  /-- A domain has been usable since reset, so that C_OFF counts (R318). -/
  used : Bool
  /-- r_C, the rate part of its last target, and the slew term, in ppb (R317). -/
  rC : Int
  rBase : Int
  slew : Int
  held : Bool
  /-- The selected domain has been usable since it was selected (capture rule of R317). -/
  captured : Bool
  traceable : Bool
  /-- C_OFF over the last frames, newest first (R318). -/
  offs : List OffSeg
  /-- Changes of TRACEABLE, newest first, each with its converter time in ns (R318). -/
  traces : List (Nat × Bool)
  /-- Steps of C_OFF by a domain that the Phasor Unit has not taken up: converter time, and selected-domain time before and after (R336). -/
  offSteps : List (Nat × Nat × Nat)
  /-- L of the last accepted PPS_IN edge, and L of the PPS_TOD write since (R321). -/
  ppsLast : Option Nat
  todAt : Option Nat
  ppsErr : Int
  /-- A pulse of PPS_OUT is in progress, and L of its end (R322). -/
  ppsOut : Bool
  ppsEnd : Nat
  deriving DecidableEq, Repr

/-- An accepted measurement record (R109, R326): its samples in order, its over-range and its fault mark. -/
structure StreamRec where
  stream : Nat
  frame : Nat
  vals : List Int
  ovr : Bool
  bad : Bool
  deriving DecidableEq, Repr

/-- A processing sample (R328): its grid index, the sum and number of the stream samples placed in its interval, its value in 2^-31 of full
scale, and its marks. -/
structure PhSmp where
  idx : Nat
  sum : Int
  cnt : Nat
  val : Int
  interp : Bool
  sat : Bool
  sens : Bool
  deriving DecidableEq, Repr

/-- One stream at the Phasor Unit (R326 to R329): the processing interval being filled with the sum, count and marks of its samples, the
empty intervals just before it, the processing samples formed, and the gaps seen, newest first. -/
structure PhStream where
  next : Nat
  sum : Int
  cnt : Nat
  sat : Bool
  sens : Bool
  run : Nat
  inGap : Bool
  win : List PhSmp
  gaps : List (Nat × Nat)
  /-- What is placed already in intervals after `next`, which a step back of C_OFF has opened again (R336), in order. -/
  held : List PhSmp
  deriving DecidableEq, Repr

/-- The windows under one group of settings (R333): the streams in use; the processing index at which each channel's window started, and
whether it has filled; report instants that await publication from before a commit or a change of domain, in 1/28,800 s, with the
converter time at which their latency has elapsed. -/
structure PhWin where
  streams : List (Nat × PhStream)
  start : Vector (Option Nat) 24
  filled : Vector Bool 24
  due : List (Nat × Nat)
  deriving DecidableEq, Repr

/-- Settings under which reports are made (R336) and their windows: those in force, or those that ended at a commit with the reports
before it. -/
structure PhSet where
  f0 : Nat
  rate : Nat
  fill : Nat
  shmOff : Nat
  ringLen : Nat
  cfg : Vector Word 24
  ang : Vector Word 24
  gain : Vector Word 24
  win : PhWin
  deriving DecidableEq, Repr

/-- The Phasor Unit (R328 to R336). -/
structure PhasorSt where
  win : PhWin
  /-- No report instant before this one is still to come, in 1/28,800 s of selected-domain time. -/
  nextAt : Nat
  /-- Earlier settings with reports still to publish, oldest first (R336). -/
  old : List PhSet
  /-- Changes of C_OFF by a domain (R336): converter time, and selected-domain time before and after. -/
  domChg : List (Nat × Nat × Nat)

  running : Bool
  deriving DecidableEq, Repr

/-- One Wave Tagger channel (R337): last samples with placed time in 1/60 ns and over-range mark, newest first; arm count;
armed. -/
structure WtChan where
  samples : List (Int × Nat × Bool)
  armCnt : Nat
  armed : Bool
  /-- A detection at the newest sample awaits the next one (R338). -/
  detected : Bool
  /-- Tags computed and not yet written, oldest first: the tag and its data word. -/
  tags : List (Nat × Word)
  deriving DecidableEq, Repr

/-- Wave Tagger (R337 to R340). -/
structure WaveSt where
  chan : Vector WtChan 12
  deriving DecidableEq, Repr

/-- States of the Acquisition Engine (R347). -/
inductive AcqState where
  | idle | rearm | pretrig | post | done
  deriving DecidableEq, Repr

/-- ACQ_STATE code (R347). -/
def AcqState.code : AcqState → Nat
  | .idle => 0 | .rearm => 1 | .pretrig => 2 | .post => 3 | .done => 4

/-- A block in the input FIFO (R346). -/
structure AcqBlock where
  frame : Nat
  bytes : List Byte
  deriving DecidableEq, Repr

/-- An accepted trigger (R350). -/
structure AcqTrig where
  src : Nat
  origin : Nat
  frame : Nat
  slot : Nat
  /-- Blocks written before the trigger block and the post count Q (R351). -/
  pre : Nat
  q : Nat
  clamped : Bool
  postClamped : Bool
  preShort : Bool
  traceable : Bool
  /-- S_k of the trigger block as TIME64. -/
  frameTime : Nat
  deriving DecidableEq, Repr

/-- The Acquisition Engine (R343 to R353). -/
structure AcqSt where
  st : AcqState
  /-- Frame in which ARM retired (R348). -/
  armFrame : Nat
  /-- Blocks written since ARM, next slot, frame of the newest block written. -/
  written : Nat
  wrSlot : Nat
  lastFrame : Nat
  trig : Option AcqTrig
  /-- Post blocks written. -/
  postDone : Nat
  fifo : List AcqBlock
  /-- Last value of channel ACQ_LVL_CH, for the level trigger (R350). -/
  lastLvl : Option Int
  /-- What blocks not formed yet will need: per frame and channel the value with its mark in bit 16; channel 64 the
  NOT_TRACEABLE flag, channel 65 the PLAN_STOPPED flag (R344, R345). -/
  snap : List (Nat × Nat × Nat)
  /-- Event list: entries held, next entry (R352). -/
  evtCount : Nat
  evtNext : Nat
  /-- S_k of the frames that qualify since ARM, newest first, as far back as the ring reaches: the frame, and S_k as TIME64 (R350 to R352). -/
  stamps : List (Nat × Nat)
  deriving DecidableEq, Repr

/-- Sinc filter of one input (R362): samples since the start, the samples the next output spans, newest first. -/
structure AdcFilt where
  /-- Samples since the start. -/
  n : Nat
  hist : List (Nat × Bool)
  settled : Bool
  deriving DecidableEq, Repr

/-- What a converter is doing (R358 to R365). -/
inductive AdcWork where
  | idle
  | reg
  | inj
  | cal
  deriving DecidableEq, Repr

/-- One converter (R356 to R370). -/
structure Adc where
  work : AdcWork
  /-- A regular sequence is in progress or suspended; its next entry; entries of the running sequence (R367). -/
  regRun : Bool
  regEntry : Nat
  regSeq : List Nat
  cont : Bool
  /-- REG_STOP awaits the conversion in progress; the next pass under CONT, and a REG_START (R359), await the end of other work. -/
  stopping : Bool
  startWait : Bool
  softWait : Bool
  /-- L of the software start, for periodic starts. -/
  startL : Option Nat
  injEntry : Nat
  injPending : Bool
  injDelayed : Bool
  /-- A delayed trigger is the queued one (R365). -/
  pendDelayed : Bool
  calPending : Bool
  calDone : Bool
  coef : Word
  filt : Vector AdcFilt 8
  tap : Vector Word 8
  /-- Number of tap updates per input, which the set-point channels compare. -/
  tapSeq : Vector Nat 8
  data : Word
  tag : Word
  seq : Nat
  written : Bool
  read : Bool
  deriving DecidableEq, Repr

/-- Both converters; the Watchtower's claim of ADC-B (R368). -/
structure AdcSt where
  conv : Vector Adc 2
  /-- Results that the taps took, newest first, for the blocks of recent frames (R345): input 0 to 15, converter time, bits [31:16], OVER_RANGE. -/
  tapLog : List (Nat × Nat × Nat × Bool)
  claimed : Bool
  /-- ADC-B runs the Watchtower's own sequence. -/
  own : Bool
  deriving DecidableEq, Repr

/-- One Local PWM pair (R371 to R383). -/
structure PwmPair where
  /-- Counter value as of the last counter event. -/
  counter : BitVec 16
  running : Bool
  /-- STOP awaits the next wrap (R375). -/
  stopping : Bool
  active : Word
  shadow : Word
  /-- L of the last counter event. -/
  since : Nat
  forceActive : BitVec 2
  forcePending : BitVec 2
  /-- Settings in force since the last wrap (R384). -/
  cfg : Word
  psc : Nat
  deadTime : Nat
  ref : Bool
  hOn : Bool
  lOn : Bool
  /-- Dead-time counts running towards PWMH or PWML turning on, and L at which the one that runs began. -/
  dtH : Bool
  dtL : Bool
  dtAt : Nat
  /-- Writes that have retired and land at a cycle to come (R373, R378), in order: L of that cycle, whether it is PWM_FORCE, and the word. -/
  landing : List (Nat × Bool × Word)
  /-- Writes of PAIR_CTRL that no wrap has taken up (R375), in order: L of the cycle in which they land, and whether it is STOP. -/
  ctrl : List (Nat × Bool)
  /-- The pair holds TRIP_STATE: tripped, or waiting for the wrap that ends the trip (R382). -/
  held : Bool
  deriving DecidableEq, Repr

/-- Local PWM and trip inputs (R371 to R386). -/
structure PwmSt where
  pairs : Vector PwmPair 16
  /-- Accepted active levels and latches of TRIP_N[3:0] (R379). -/
  level : BitVec 4
  latch : BitVec 4
  /-- The balls are driven low until BOOT applies the configuration (R377). -/
  configured : Bool
  deriving DecidableEq, Repr

/-- Safety connection states (R405). -/
inductive ConnState where
  | idle | wait | run | failed
  deriving DecidableEq, Repr

/-- CONN_STATE code (R405). -/
def ConnState.code : ConnState → Nat
  | .idle => 0 | .wait => 1 | .run => 2 | .failed => 3

/-- One safety connection (R404 to R408). -/
structure Conn where
  st : ConnState
  lastSeq : Nat
  /-- Words 01, 23, 45 and 67 of the last PDU. -/
  rxData : Vector Word 4
  resetReq : Bool
  /-- Parallel copy awaiting its twin: its port (EN3 is `true`) and bytes. -/
  half : Option (Bool × List Byte)
  /-- TX: sequence of the next PDU. -/
  txSeq : Nat
  /-- The PDU sent last, and the frames on EN2 and EN3 that carried it, from the EtherType on: the model's own observation of the ports. -/
  sent : List Byte
  frames : List Byte × List Byte
  /-- PRP trailers received in the last 400 ms whose twin has not come: sequence number, port (EN3 is `true`), L of receipt (R405). -/
  prp : List (BitVec 16 × Bool × Nat)
  deriving DecidableEq, Repr

/-- An open safety write sequence (R402). -/
structure SwOpen where
  path : Nat
  key : Nat
  challenge : Word
  value : Option Word
  openedAt : Nat
  deriving DecidableEq, Repr

/-- One PULSE receiver of the Watchtower (R398). -/
structure SlsIn where
  last : Option Nat
  period : Option Nat
  run : Nat
  deriving DecidableEq, Repr

/-- The Watchtower (R387 to R412). SBK_CAUSE and SBK_ACTIVE have the bits of R393. -/
structure WtSt where
  sbkCause : BitVec 16
  sbkActive : BitVec 16
  fault : Bool
  faultCode : Nat
  outA : Bool
  outB : Bool
  testPermit : Bool
  testEntered : Bool
  debugPermit : Bool
  sw : Option SwOpen
  swResult : Nat
  slcRun : Vector Nat 12
  slvRun : Vector Nat 4
  slvAdcRun : Vector Nat 4
  /-- Latest readings of each SLV channel: stream and ADC-B, in 0.1 kV. -/
  slvReading : Vector (Option Nat) 4
  slvAdc : Vector (Option Nat) 4
  sdiRun : Vector Nat 4
  sls : Vector SlsIn 2
  slvDisc : BitVec 4
  /-- SLV channels whose two voltages have differed for SLV_DISC_US, and still do (R396). -/
  slvHeld : BitVec 4
  /-- L of each SLV channel's latest ADC-B result, or of the start of its wait for one (R387). -/
  slvAt : Vector Nat 4
  /-- PRP sequence number of the next frame that carries a trailer (R405). -/
  prpSeq : BitVec 16
  /-- PULSE inputs without an edge for SLS_TIMEOUT_US. -/
  slsTimeout : BitVec 2
  hbLast : Option Nat
  hbSuspended : Bool
  hbTimeout : Bool
  /-- Frames in a row without a good record, by stream; supervised streams; streams with a good record in this frame. -/
  lostRun : List (Nat × Nat)
  supervised : List Nat
  seen : List Nat
  conns : Vector Conn 64
  deriving DecidableEq, Repr

/-- The pair state of one device (R413 to R437). -/
structure PairSt where
  role : Role
  epoch : BitVec 8
  offset : Nat
  /-- E in 0.25 ns, ML_DELAY in 0.25 ns. -/
  errQ : Int
  delayQ : Int
  rollBase : Nat
  locked : Bool
  synced : Bool
  lockRun : Nat
  unlockRun : Nat
  /-- Consecutive adopted trains without DELTA_OVERFLOW (R421). -/
  syncRun : Nat
  partnerLost : Bool
  /-- Whole frames without a valid train of any role, and without one from an ACTIVE partner; whether this frame has had them. -/
  silent : Nat
  silentActive : Nat
  heard : Bool
  heardActive : Bool
  overflow : Bool
  /-- FLAGS of the partner's last valid train, and SBK of its last accepted one (R434, R437). -/
  partnerFlags : Nat
  partnerSbk : Bool
  /-- The partner's recent ticks, newest first: its frame, its tick in 0.25 ns of L, and T_F (R415). -/
  ticks : List (Nat × Int × Nat)
  /-- A tick that the partner rang before the own S_0: its frame, and its place in frames of the clock that R416 has set. -/
  startRef : Option (Nat × Int)
  /-- LAST_CMD of the cells when the last train had been adopted (R431). -/
  adoptedCmd : List (Nat × Nat)
  lastMode : Option Nat
  /-- Newest adopted slot (R431). -/
  lastSlot : Option Nat
  /-- The first slot in the role ACTIVE is being built (R431). -/
  takeover : Bool
  /-- Accepted ARB_ACT level, and the level sampled at D_k. -/
  arbIn : Bool
  arbSampled : Bool
  hb : Bool
  swap : Bool
  /-- PINGs outstanding: tag and departure in 0.25 ns of L; round trips collected of this set. -/
  pings : List (Nat × Nat)
  trips : List Int
  nextTag : Nat
  epochDiff : Vector Nat 32
  /-- STATE per cell in the slot before the one built at the last D_k (R420), by Ledger index; unlisted: 0. -/
  lastStates : List (Nat × Nat)
  /-- An ACTIVE partner's train was adopted in this frame. -/
  adopted : Bool
  /-- Bytes of the pair train sent last, and the SOT block of the PING_REPLY sent last: the model's own observation of the Mirror Link. -/
  sent : List Byte
  pingReply : Option (BitVec 64)
  deriving DecidableEq, Repr

/-- A running or queued self-test (R444): its code as a letter of the Test column, its source and resource. -/
inductive TestCode where
  | e | l | k | m | n
  deriving DecidableEq, Repr

structure SelfTest where
  code : TestCode
  source : Nat
  resource : Nat
  /-- Frame in which it started, and errors counted so far (test L). -/
  frame : Nat
  errors : Nat
  deriving DecidableEq, Repr

/-- The Fault Collector (R438 to R447). -/
structure FaultSt where
  status : BitVec 64
  active : BitVec 64
  eff : Vector (BitVec 2) 64
  result : Vector (BitVec 4) 64
  tests : List SelfTest
  failover : Bool
  /-- Per access path (Host Port, mailbox, Cupola): sources whose OCC_CNT changed since that path last read
  FAULT_STATUS_LO (R442). -/
  changed : Vector (BitVec 64) 3
  /-- A C3 source latched during BOOT, and a demand of the Watchtower there: SAFE follows at S_0 (R390, R440). -/
  bootC3 : Bool
  bootSbk : Bool
  /-- MODE_CAUSE of a SAFE trigger that came while D_k was being worked off (R225). -/
  safeHeld : Option Nat
  /-- Fabric cycle of the last occurrence or acknowledge, and in that cycle: the sources that occurred, those that a force latched or
  made active, and those acknowledged (R442, R443, R447). -/
  cycle : Nat
  occNow : BitVec 64
  forcedNow : BitVec 64
  forcedAct : BitVec 64
  ackNow : BitVec 64
  deriving DecidableEq, Repr

/-- Power state of a bank (R450). `waking on?` tells a wake from retention from a power-up from off. -/
inductive Pwr where
  | off | retention | on | waking (fromOff : Bool)
  deriving DecidableEq, Repr

/-- BANK_STATUS.PWR (R467). -/
def Pwr.code : Pwr → Nat
  | .off => 0 | .retention => 1 | .on => 2 | .waking _ => 3

/-- The registers of one bank. -/
structure Bank where
  pwr : Pwr
  /-- Its row-repair map (R446): the rows that its spares replace, in the order of the spares. -/
  repaired : List Nat
  failed : Bool
  marchBusy : Bool
  deriving DecidableEq, Repr

/-- A requested march (R455). -/
structure March where
  bank : Nat
  destructive : Bool
  alg : Nat
  /-- Local time at which it began. -/
  since : Nat
  deriving DecidableEq, Repr

/-- Banks, march test engine, secure bank registers and life cycle (R449 to R467). -/
structure MemSt where
  banks : Vector Bank 173
  march : Option March
  /-- Row the background march visits next, counted over all banks in order (R456). -/
  bgRow : Nat
  /-- Accepted levels of TAMPER_N[1:0] (R460). -/
  tamper : BitVec 2
  life : LifeCycle
  /-- Fuse programming in progress towards this state (R462). -/
  fusing : Option LifeCycle
  /-- Causes of the tamper inputs accepted meanwhile, which the wipe of the transition serves too (R465). -/
  fuseTamper : List Nat
  deriving DecidableEq, Repr

/-- A journal record awaiting its place in the ring (R474, R476). -/
structure JRec where
  time : Nat
  data : Word
  traceable : Bool
  cont : Bool
  lTime : Bool
  source : Nat
  seq : Nat
  deriving DecidableEq, Repr

/-- The cause tree (R468 to R473). Access paths are 0 Host Port, 1 field network, 2 Cupola. -/
structure IrqSt where
  pend : Vector Word 32
  active : Vector Word 32
  /-- Conditions of level sources as they stand now. -/
  level : Vector Word 32
  /-- Asynchronous set latches, filled while HCLK is stopped (R473). -/
  latch : Vector Word 32
  /-- Per access path: the bits hardware set since that path last read the group's PEND (R472). -/
  shadow : Vector (Vector Word 32) 3
  hclkRuns : Bool
  deriving DecidableEq, Repr

/-- The Event Journal (R474 to R477). Its ring is bank 167. -/
structure JrnSt where
  rd : Nat
  wr : Nat
  count : Nat
  seq : Nat
  staging : List JRec
  /-- The fabric cycle in which a record last entered the queue, and how many entered it then (R476). -/
  cycle : Nat
  inCycle : Nat
  deriving DecidableEq, Repr

/-- An entry of the request queue (R489, R490). -/
inductive QReq where
  /-- A posted Host Port write: byte address, byte enables (1 = enabled) and data. -/
  | hostWrite (addr : Nat) (be : BitVec 4) (data : Word)
  | hostRead (addr : Nat)
  | sdoDownload (index sub : Nat) (bytes : List Byte)
  | sdoUpload (index sub : Nat)
  /-- The last segment of a segmented download applies the transfer (R488). -/
  | sdoApply (index sub : Nat) (bytes : List Byte) (toggle : Bool)
  deriving DecidableEq, Repr

/-- A mailbox response waiting for the master (R480, R492). -/
inductive SdoResp where
  | downloaded (index sub : Nat)
  | segment (toggle : Bool) (bytes : List Byte) (last : Bool)
  | uploaded (index sub : Nat) (bytes : List Byte)
  | uploadStarted (index sub size : Nat)
  | downloadStarted (index sub : Nat)
  | segmentAck (toggle : Bool)
  | abort (code : Word)
  | mailboxError
  deriving DecidableEq, Repr

/-- A segmented SDO transfer (R492). -/
structure SdoXfer where
  index : Nat
  sub : Nat
  upload : Bool
  size : Nat
  bytes : List Byte
  toggle : Bool
  deriving DecidableEq, Repr

/-- Field-network states with their codes (R502). -/
inductive AlState where
  | init | preOp | safeOp | op
  deriving DecidableEq, Repr

def AlState.code : AlState → Nat
  | .init => 1 | .preOp => 2 | .safeOp => 4 | .op => 8

/-- One path's copy of a result object: the latched subs by key, and the sequence number copied last (R487). -/
structure ResultLatch where
  latchKey : Nat
  seq : Word
  vals : List (Nat × Word)
  deriving DecidableEq, Repr

/-- The 64-bit latch of one path (R9). -/
structure WideLatch where
  /-- High half latched by the last read of a low half: its key and value. -/
  read : Option (Nat × Word)
  /-- Low half written and waiting for its high half. -/
  write : Option (Nat × Word)
  /-- PRBS_ERR latched by the last read of PRBS_BITS_LO: its key and value (R89). -/
  prbsErr : Option (Nat × Word)
  deriving DecidableEq, Repr

/-- The dictionary controller, Host Port, field network and PHY management (R479 to R502). -/
structure DictSt where
  queue : List QReq
  /-- Entries served in this frame, and of these the Host Port's before D_k (R489). -/
  served : Nat
  hostServed : Nat
  /-- Host Port writes posted and retired so far (HP_FENCE). -/
  fence : Nat
  /-- A Host Port access that waits on HRDY: the request that found no free entry (R490), or a read in the queue. -/
  hostWait : Option QReq
  /-- L at the edge E0 of the access that waits, and the period of HCLK in ns (R482, R483). -/
  hostStart : Nat
  hostClk : Nat
  /-- Number of the 1,000 ns of L that the budget counts for, before S_0 (R489). -/
  window : Nat
  /-- Data the Host Port last drove on HD at the end of a read. -/
  hostData : Word
  /-- An access abandoned after it entered the queue: its data is lost (R485). -/
  abandoned : Bool
  wide : Vector WideLatch 3
  results : Vector (List ResultLatch) 3
  /-- DOMAIN buffer of the Host Port: the object, the bytes, open for writing (R488). -/
  domKey : Option Nat
  domBytes : List Byte
  domOpen : Bool
  al : AlState
  alCode : Nat
  pdWdt : Bool
  /-- Since an SDO has found the queue full, the mailbox takes one SDO for each entry that frees (R490, R491). -/
  mbxHeld : Bool
  xfer : Option SdoXfer
  responses : List SdoResp
  /-- Responses that wait for those of earlier requests (R490), each with the number of field-network entries still before it. -/
  waiting : List (Nat × SdoResp)
  /-- Newest complete TxPDO sample (R496), and the sequence numbers of the previous sample. -/
  txSample : List Byte
  txSeqs : List (Nat × Word)
  /-- The management frame running on MDC and MDIO (R497), and whether it is a poll. -/
  mdio : Option (Bool × Word)
  phyLink : BitVec 4
  sgmiiSync : BitVec 4
  portUp : BitVec 4
  deriving DecidableEq, Repr

/-- Temperature, supplies and clocks (R507 to R513). -/
structure PowerSt where
  /-- TJ_NOW in 0.25 °C. -/
  tj : Int
  /-- A sample has been taken since the reset. -/
  tjSampled : Bool
  /-- Samples of 100 µs at or above TJ_WARN_C since the last whole second (R511). -/
  overRun : Nat
  corePll : Bool
  fabric : Bool
  sdPll : BitVec 2
  xtalOk : Bool
  wtOsc : Bool
  supplyBad : Bool
  /-- VDD_SAFE lies outside 0.70 V to 0.90 V: SAFE_BLK_A and SAFE_BLK_B are undriven (R388). -/
  safeOut : Bool
  /-- The die temperature lies outside -50 to 140 °C, which has wiped the secure bank (R458). -/
  tempOut : Bool
  /-- Local time of the last power estimate, and BUSY_CYC of the engines then (R510). -/
  estAt : Nat
  estBusy : Vector Nat 8
  deriving DecidableEq, Repr

/-- The JTAG port (R526). -/
inductive JtagInstr where
  | extest | idcode | samplePreload | halt | sysreset | bypass
  deriving DecidableEq, Repr

/-- TAP state: the instruction in force, the data register selected last, and the preloaded boundary cells. -/
structure JtagSt where
  ir : JtagInstr
  dr : Word
  preload : List Word
  /-- EXTEST drives the pins from the preloaded cells. -/
  driving : Bool
  deriving DecidableEq, Repr

/-- The machine (R2 to R531). -/
structure State where
  /-- Commands waiting, first in first out. -/
  pending : List Instr
  /-- Object stores by key `index * 256 + sub`: live values (classes L and F), active and staged copies of class S, and
  the Watchtower's active and staged copies of class K. An unlisted key reads as the object's default. -/
  live : List (Nat × Word)
  act : List (Nat × Word)
  stg : List (Nat × Word)
  kAct : List (Nat × Word)
  kStg : List (Nat × Word)
  /-- SRAM banks (R449): address `bank * 65536 + offset`; unlisted bytes read 0. -/
  sram : List Host.Cell
  /-- The 8 MiB boot flash (R59); unlisted bytes read 0xFF. -/
  flash : List Host.Cell
  /-- The model's own counter of free values drawn so far: not state of the S9. -/
  free : Nat
  mode : Mode
  boot : BootSt
  commit : CommitSt
  img : ImgSt
  frame : FrameSt
  modes : ModeSt
  lanes : Vector Lane 38
  routes : RouteSt
  launch : LaunchSt
  ledger : LedgerSt
  arms : Vector Arm 12
  sel : SelSt
  cup : CupolaSt
  sched : SchedSt
  aids : AidsSt
  time : TimeSt
  /-- Measurement records of recent frames, newest first (R326, R344). -/
  samples : List StreamRec
  phasor : PhasorSt
  wave : WaveSt
  acq : AcqSt
  adc : AdcSt
  pwm : PwmSt
  wt : WtSt
  pair : PairSt
  fault : FaultSt
  mem : MemSt
  irq : IrqSt
  jrn : JrnSt
  dict : DictSt
  power : PowerSt
  jtag : JtagSt
  deriving DecidableEq, Repr

/-- A lane after reset: DISABLED, no cause (R85, R95). -/
def Lane.reset : Lane :=
  { st := .disabled, lastCause := 0, eqValid := false, cdrLock := false, blockLock := false, los := false,
    prbsLock := false, fast := false, fails := 0, waiting := false, fill := 8, prbsBits := 0, prbsDue := false,
    looping := false, peerFast := false, since := 0, left := none, ccRun := 0, ccFrom := 0, ccSent := 0, train := [] }

/-- A route after reset: UNUSED (R136). -/
def Route.reset : Route :=
  { st := .unused, heldSt := .unused, heldWalk := none, rediscover := false, inServiceSinceBoot := false, follow := false, conflict := false,
    portLoss := false, drift := false, walked := false, walk := none, nextTag := 0,
    homeD := 0, lastSlot := none, train := none, recv := [], got := [], nextClose := 0, closedAhead := [], missRun := [], holdOff := [], grantAfter := 0, longPending := [], hold := false, serviceRun := 0,
    staleLogged := false }

/-- The empty manifest (R116). -/
def Manifest.empty : Manifest := { flags := 0, delayMax := 0, entries := [], slotCount := 0 }

/-- An arm after reset: no slot built, no force set, no mask (R197, R200, R205). -/
def Arm.reset : Arm :=
  { queue := Vector.replicate 16 none, execCount := 0, execEdge := 0, execSrc := 0, builtFlags := 0, armed := none,
    armedFresh := false, deferred := none, gpio := 0, latch := false, mask := false,
    masking := false }

/-- The registers of an engine after reset (R243): FLG as for a fresh task (R241). -/
def EngRegs.reset : EngRegs :=
  { d := Vector.replicate 16 0, acc := Vector.replicate 4 0, a := Vector.replicate 8 0, m := Vector.replicate 8 0,
    b := Vector.replicate 8 0, l := Vector.replicate 8 0, flg := 0x03000000, pc := 0, loops := [], rets := [],
    stores := [], latch := none, cycles := 0, warned := false }

/-- Nothing is outstanding in an engine's pipeline. -/
def Hazards.none : Hazards :=
  { clk := 0, d := Vector.replicate 16 0, loop := Vector.replicate 16 0, acc := Vector.replicate 4 0, adr := Vector.replicate 32 0, cc := 0 }

/-- An engine after reset. -/
def Engine.reset : Engine :=
  { r := EngRegs.reset, dictSel := 0, dictResult := 0, hazards := Hazards.none, stalledTo := 0, saved := [], bkpt := false }

/-- A domain after reset (R307): IDLE, counting on from 0. -/
def Dom.reset : Dom :=
  { ctr := 0, st := .idle, stepped := false, rate := 0, integ := 0, offs := [], lastOff := none, inRun := 0, outRun := 0,
    expired := false, wasLocked := false, lockedSince := none, master2 := none, master3 := none, port3 := false,
    portChosen := false, oneStep := false, gmSeen := none, sync := none, offsetNs := 0, stepL := 0 }

/-- A converter after reset (R358 to R366). -/
def Adc.reset : Adc :=
  { work := .idle, regRun := false, regEntry := 0, regSeq := [], cont := false, stopping := false, startWait := false, softWait := false,
    startL := none, injEntry := 0, injPending := false, injDelayed := false, pendDelayed := false, calPending := false,
    calDone := false, coef := 0,
    filt := Vector.replicate 8 { n := 0, hist := [], settled := false },
    tap := Vector.replicate 8 0, tapSeq := Vector.replicate 8 0, data := 0, tag := 0, seq := 0, written := false,
    read := true }

/-- A Local PWM pair after reset (R377, R386): PWM_TIMING 0x03E7_0000. -/
def PwmPair.reset : PwmPair :=
  { counter := 0, running := false, stopping := false, active := 0x03E70000, shadow := 0x03E70000, since := 0,
    forceActive := 0, forcePending := 0, cfg := 0, psc := 0, deadTime := 0, ref := false, hOn := false, lOn := false,
    dtH := false, dtL := false, dtAt := 0, landing := [], ctrl := [], held := false }

/-- A safety connection after reset: IDLE (R405). -/
def Conn.reset : Conn :=
  { st := .idle, lastSeq := 0, rxData := Vector.replicate 4 0, resetReq := false, half := none, txSeq := 0, sent := [],
    frames := ([], []), prp := [] }

/-- The Watchtower after reset (R387, R388, R390): both outputs asserted. -/
def WtSt.reset : WtSt :=
  { sbkCause := 0, sbkActive := 0, fault := false, faultCode := 0, outA := true, outB := true, testPermit := false,
    testEntered := false, debugPermit := false, sw := none, swResult := 0, slcRun := Vector.replicate 12 0,
    slvRun := Vector.replicate 4 0, slvAdcRun := Vector.replicate 4 0, slvReading := Vector.replicate 4 none,
    slvAdc := Vector.replicate 4 none, sdiRun := Vector.replicate 4 0,
    sls := Vector.replicate 2 { last := none, period := none, run := 0 }, slvDisc := 0, slvHeld := 0,
    slvAt := Vector.replicate 4 0, prpSeq := 0, slsTimeout := 0, hbLast := none, hbSuspended := false, hbTimeout := false, lostRun := [], supervised := [], seen := [], conns := Vector.replicate 64 Conn.reset }

/-- A bank after reset (R449): the acquisition and Lantern banks are off until the first ARM. -/
def Bank.reset (b : Nat) : Bank :=
  { pwr := if 35 ≤ b ∧ b ≤ 166 then .off else .on, repaired := [], failed := false, marchBusy := false }

/-- The machine after a power-up reset: PWRGOOD high, RESET_N released, BOOT in its first step (R55, R528). -/
def State.reset : State :=
  { pending := [], live := [], act := [], stg := [], kAct := [], kStg := [], sram := [], flash := [], free := 0,
    mode := .boot,
    boot := { step := .clocks, selPins := 0, pwrgood := true, resetLow := false, cause := 1, accepted := false, wtTested := false,
              marched := false, lanesWaited := false, timeWaited := false, triedOther := false, hostLoad := false,
              provisioning := false, mirrorWait := false, startL := 0, slot := 0, slotRuns := false, submitted := false, loading := 0,
              refused := false, bad := none },
    commit := { st := .opened, p := 2, plan := false },
    img := { ops := [], slot := 0, pageAddr := 0, page := [] },
    frame := { ticking := false, count := 0, tickC := 0, ticks := [], halted := false, planStopped := false, released := false,
               cut := false, sent := false, cutting := false, measClosed := false, tasks := [], reused := 0,
               lateRun := Vector.replicate 12 0, measRun := Vector.replicate 32 0, measMax := 0, deposited := [], gateAt := 0,
               downHeld := 0, snaps := [],
               pFromSet := false },
    modes := { safeNew := false, req := none, rtReq := none, acked := false, readyRun := 0, rtFrames := 0, rtQuiet := 0, idcRun := 0,
               idcHit := false, idcSeen := false },
    lanes := Vector.replicate 38 Lane.reset,
    routes := { routes := Vector.replicate 32 Route.reset, manStaged := Vector.replicate 32 Manifest.empty,
                manActive := Vector.replicate 32 Manifest.empty, longRing := [], built := Vector.replicate 32 none,
                sentCar := Vector.replicate 32 none, sentEnd := Vector.replicate 32 0, upTfMismatch := false, upTicking := false,
                upAssigned := false, ownAddr := 0, ownSlots := 0, ownDelay := 0, ownHome := none, upDelta := 0, upSlots := [],
                upOut := none, upReply := [], upHeld := [], upEpoch := 0, upRoute := 0, upSeen := [], upLocked := false, upRun := 0, upRate := 0, upPhase := 0, upLast := none, upP := 0, upTf10 := 0 },
    launch := { queue := Vector.replicate 32 [], repeats := [], reqLanes := 0, reqLeft := false,
                beacons := Vector.replicate 35 [], dup := [], acts := [], trigInLast := none, trigOut := none,
                lastCourier := Vector.replicate 32 none, lastBeacon := Vector.replicate 35 none, trips := [] },
    ledger := { entries := [], staged := [], frozen := Vector.replicate 12 Summary.none, frozenFrame := 0,
                atCut := Vector.replicate 12 Summary.none, capture := none },
    arms := Vector.replicate 12 Arm.reset,
    sel := { arms := Vector.replicate 12 { holder := none, dwell := 0, warmup := none, suspectRun := false,
                                           cellsLow := false, status := 0, avail := 0 },
             budget := [], promoted := [], unreach := Vector.replicate 32 0, leakAt := none },
    cup := { eng := Vector.replicate 8 Engine.reset, sem := 0,
             mbx := Vector.replicate 64 { words := Vector.replicate 4 0, frameLo := 0, age := 0, lane := 0, arrNs := 0,
                                          fresh := false },
             info := Vector.replicate 16 0, progLatch := Vector.replicate 3 none },
    sched := { active := [], staged := [], dyn := [], window := Vector.replicate 3 Desc.empty, nextId := 0, pool := [],
               frames := [], ready := Vector.replicate 16 [], delays := [], slot := Vector.replicate 8 none,
               slotWords := Vector.replicate 8 [], refill := Vector.replicate 8 none, entering := Vector.replicate 8 none,
               running := Vector.replicate 8 none },
    aids := { chans := Vector.replicate 4 { y := 0, raw := 0, noNew := 0, src := 0, started := false,
                                            valid := false, flags := 0, seq := 0 },
              n1 := Vector.replicate 12 { x1 := 0, x2 := 0, y1 := 0, y2 := 0, start := false, b0 := 0, a1 := 0, a2 := 0 },
              n2 := Vector.replicate 12 { x1 := 0, x2 := 0, y1 := 0, y2 := 0, start := false, b0 := 0, a1 := 0, a2 := 0 },
              pulses := Vector.replicate 2 [],
              taken := Vector.replicate 8 0
              lantern := { st := .idle, wr := 0, written := 0, postLeft := 0, trigRec := 0, pre := 0, trigFrame := 0,
                           mark := none, port := Vector.replicate 16 0, portWritten := 0, last := none,
                           nodes := [], trigsAt := 0, trigs := [], ignored := 0 }
              stickyAt := 0, stickySet := 0, stickyClr := 0 },
    time := { l := 0, c := 0, cSet := false, dom := Vector.replicate 2 Dom.reset,
              port := Vector.replicate 2 { reqSeq := 0, reqT1 := none, resp := none, meanPath := 0, reqSent := none, respSent := [] },
              selB := false, used := false, rC := 0, rBase := 0, slew := 0, held := false, captured := false, traceable := false,
              offs := [], traces := [], offSteps := [], ppsLast := none, todAt := none, ppsErr := 0, ppsOut := false, ppsEnd := 0 },
    samples := [],
    phasor := { win := { streams := [], start := Vector.replicate 24 none, filled := Vector.replicate 24 false, due := [] }, nextAt := 0, old := [], domChg := [], running := false },
    wave := { chan := Vector.replicate 12 { samples := [], armCnt := 0, armed := false, detected := false, tags := [] } },
    acq := { st := .idle, armFrame := 0, written := 0, wrSlot := 0, lastFrame := 0, trig := none, postDone := 0,
             fifo := [], lastLvl := none, snap := [], evtCount := 0, evtNext := 0, stamps := [] },
    adc := { conv := Vector.replicate 2 Adc.reset, tapLog := [], claimed := false, own := false },
    pwm := { pairs := Vector.replicate 16 PwmPair.reset, level := 0, latch := 0, configured := false },
    wt := WtSt.reset,
    pair := { role := .alone, epoch := 0, offset := 0, errQ := 0, delayQ := 0, rollBase := 0, locked := false,
              synced := false, lockRun := 0, unlockRun := 0, syncRun := 0, partnerLost := false, silent := 0,
              silentActive := 0, heard := false, heardActive := false, overflow := false, partnerFlags := 0, partnerSbk := false,
              ticks := [], startRef := none, adoptedCmd := [], lastMode := none, lastSlot := none,
              takeover := false, arbIn := false, arbSampled := false, hb := false, swap := false, pings := [], trips := [], nextTag := 0,
              epochDiff := Vector.replicate 32 0, lastStates := [], adopted := false, sent := [], pingReply := none },
    fault := { status := 0, active := 0, eff := Vector.replicate 64 0, result := Vector.replicate 64 0, tests := [],
               failover := false, changed := Vector.replicate 3 0, bootC3 := false, bootSbk := false, safeHeld := none, cycle := 0, occNow := 0,
               forcedNow := 0, forcedAct := 0, ackNow := 0 },
    mem := { banks := Vector.ofFn fun (b : Fin 173) => Bank.reset b.val,
             march := none, bgRow := 0, tamper := 0, life := .blank, fusing := none, fuseTamper := [] },
    irq := { pend := Vector.replicate 32 0, active := Vector.replicate 32 0, level := Vector.replicate 32 0,
             latch := Vector.replicate 32 0, shadow := Vector.replicate 3 (Vector.replicate 32 0), hclkRuns := false },
    jrn := { rd := 0, wr := 0, count := 0, seq := 0, staging := [], cycle := 0, inCycle := 0 },
    dict := { queue := [], served := 0, hostServed := 0, fence := 0, hostWait := none, hostStart := 0, hostClk := 10, window := 0, hostData := 0,
              abandoned := false, wide := Vector.replicate 3 { read := none, write := none, prbsErr := none },
              results := Vector.replicate 3 [], domKey := none, domBytes := [], domOpen := false, al := .init,
              alCode := 0, pdWdt := false, mbxHeld := false, xfer := none, responses := [], waiting := [], txSample := [], txSeqs := [],
              mdio := none, phyLink := 0, sgmiiSync := 0, portUp := 0 },
    power := { tj := 0, tjSampled := false, overRun := 0, corePll := false, fabric := false, sdPll := 0, xtalOk := false, wtOsc := false,
               supplyBad := false, safeOut := false, tempOut := false, estAt := 0, estBusy := Vector.replicate 8 0 },
    jtag := { ir := .idcode, dr := 0, preload := [], driving := false } }

end Sys2Proof.Machine
end

