-- ==== Sys2Proof/Machine/Ops.lean ====
section
/-! DEFINITION. The named operations every block uses: the object stores, counters, banks and flash, the clocks, the cause
tree (R468 to R473) and the journal's staging queue (R474 to R476). -/
namespace Sys2Proof.Machine

/-! ### Elements of the register files -/

/-- Element `i` of a register file, `d` beyond its end. -/
def vget {α : Type} {n : Nat} (d : α) (v : Vector α n) (i : Nat) : α := (v[i]?).getD d

/-- Register file with `x` as element `i`; unchanged beyond its end. -/
def vset {α : Type} {n : Nat} (v : Vector α n) (i : Nat) (x : α) : Vector α n := v.setIfInBounds i x

/-- Bit `i` of a bit vector set to `b`. -/
def bset {w : Nat} (x : BitVec w) (i : Nat) (b : Bool) : BitVec w :=
  if b then x ||| BitVec.ofNat w (2 ^ i) else x &&& ~~~(BitVec.ofNat w (2 ^ i))

/-- The first `n` numbers at which `p` holds, in order. -/
def idxs (n : Nat) (p : Nat → Bool) : List Nat := (List.range n).filter p

/-! ### Object stores -/

/-- Live value of an object of class L or F. -/
def State.gl (s : State) (k : Nat) : Word := tget dfltW s.live k
/-- Active value of an object of class S. -/
def State.ga (s : State) (k : Nat) : Word := tget dfltW s.act k
/-- Staged value of an object of class S. -/
def State.gs (s : State) (k : Nat) : Word := tget dfltW s.stg k
/-- Active Watchtower copy of an object of class K. -/
def State.gk (s : State) (k : Nat) : Word := tget dfltW s.kAct k
/-- Staged Watchtower copy of an object of class K (R403). -/
def State.gks (s : State) (k : Nat) : Word := tget dfltW s.kStg k
/-- The same as numbers. -/
def State.nl (s : State) (k : Nat) : Nat := (s.gl k).toNat
def State.na (s : State) (k : Nat) : Nat := (s.ga k).toNat
def State.ns (s : State) (k : Nat) : Nat := (s.gs k).toNat
def State.nk (s : State) (k : Nat) : Nat := (s.gk k).toNat
/-- The same as two's-complement integers. -/
def State.il (s : State) (k : Nat) : Int := (s.gl k).toInt
def State.ia (s : State) (k : Nat) : Int := (s.ga k).toInt
def State.is (s : State) (k : Nat) : Int := (s.gs k).toInt
def State.ik (s : State) (k : Nat) : Int := (s.gk k).toInt

/-- Store a live object. -/
def State.setL (s : State) (k : Nat) (v : Word) : State := { s with live := tput dfltW s.live k v }
/-- Store the active copy of an object. -/
def State.setA (s : State) (k : Nat) (v : Word) : State := { s with act := tput dfltW s.act k v }
/-- Store the staged copy of an object. -/
def State.setS (s : State) (k : Nat) (v : Word) : State := { s with stg := tput dfltW s.stg k v }
/-- Store the active Watchtower copy of an object. -/
def State.setK (s : State) (k : Nat) (v : Word) : State := { s with kAct := tput dfltW s.kAct k v }
/-- Store the staged Watchtower copy of an object. -/
def State.setKS (s : State) (k : Nat) (v : Word) : State := { s with kStg := tput dfltW s.kStg k v }
/-- Store a live object as a number or an integer. -/
def State.setLN (s : State) (k n : Nat) : State := s.setL k (w32 n)
def State.setLI (s : State) (k : Nat) (n : Int) : State := s.setL k (i32 n)
/-- Store both halves of a 64-bit live object (R9). -/
def State.setL64 (s : State) (k n : Nat) : State := (s.setL k (lo32 n)).setL (k + 1) (hi32 n)
/-- A 64-bit live object (R9). -/
def State.nl64 (s : State) (k : Nat) : Nat := s.nl k + 4294967296 * s.nl (k + 1)
/-- A counter goes up by `n`, wrapping at 2^32 (R504). -/
def State.addL (s : State) (k n : Nat) : State := s.setL k (s.gl k + w32 n)
/-- A counter goes up by 1, wrapping at 2^32 (R504). -/
def State.incL (s : State) (k : Nat) : State := s.addL k 1
/-- A counter goes up by 1 when the condition holds. -/
def State.incIf (s : State) (c : Bool) (k : Nat) : State := if c then s.incL k else s

/-- A further free value (log entry 3). -/
def State.draw (s : State) : Word × State := (Config.freeWord s.free, { s with free := s.free + 1 })

/-! ### SRAM banks and flash -/

/-- What an unlisted SRAM byte reads as (log entry 5). -/
def sramDefault : Nat → Byte := fun _ => 0
/-- What an unlisted flash byte reads as: erased (log entry 6). -/
def flashDefault : Nat → Byte := fun _ => 0xFF

/-- Address of a byte of a bank. -/
def bankAddr (bank off : Nat) : Nat := bank * 65536 + off

/-- Bytes of the SRAM from an address on. -/
def State.rdBytes (s : State) (a n : Nat) : List Byte := tgets sramDefault s.sram a n
/-- Store bytes in the SRAM from an address on. -/
def State.wrBytes (s : State) (a : Nat) (bs : List Byte) : State := { s with sram := tputs sramDefault s.sram a bs }
/-- Little-endian 32-bit word of the SRAM (R3). -/
def State.rdW (s : State) (a : Nat) : Word := w32 (ofLeBytes (s.rdBytes a 4))
/-- Store a little-endian 32-bit word in the SRAM (R3). -/
def State.wrW (s : State) (a : Nat) (v : Word) : State := s.wrBytes a (leBytes 4 v.toNat)
/-- Little-endian 64-bit number of the SRAM. -/
def State.rdQ (s : State) (a : Nat) : Nat := ofLeBytes (s.rdBytes a 8)
/-- Bytes of the flash. -/
def State.rdFlash (s : State) (a n : Nat) : List Byte := tgets flashDefault s.flash a n
/-- Store bytes in the flash. -/
def State.wrFlash (s : State) (a : Nat) (bs : List Byte) : State := { s with flash := tputs flashDefault s.flash a bs }

/-- Shared memory starts at bank 19 (R449). -/
def shmAddr (off : Nat) : Nat := bankAddr 19 off
/-- Acquisition memory starts at bank 35 (R449). -/
def acqAddr (off : Nat) : Nat := bankAddr 35 off
/-- Lantern memory starts at bank 163 (R449). -/
def lanternAddr (off : Nat) : Nat := bankAddr 163 off
/-- The secure bank is bank 172 (R449). -/
def secAddr (off : Nat) : Nat := bankAddr 172 off

/-! ### Blocks with several copies -/

def State.lane (s : State) (n : Nat) : Lane := vget Lane.reset s.lanes n
def State.setLane (s : State) (n : Nat) (l : Lane) : State := { s with lanes := vset s.lanes n l }
def State.route (s : State) (n : Nat) : Route := vget Route.reset s.routes.routes n
def State.setRoute (s : State) (n : Nat) (r : Route) : State :=
  { s with routes := { s.routes with routes := vset s.routes.routes n r } }
def State.arm (s : State) (a : Nat) : Arm := vget Arm.reset s.arms a
def State.setArm (s : State) (a : Nat) (x : Arm) : State := { s with arms := vset s.arms a x }
def State.eng (s : State) (e : Nat) : Engine := vget Engine.reset s.cup.eng e
def State.setEng (s : State) (e : Nat) (x : Engine) : State := { s with cup := { s.cup with eng := vset s.cup.eng e x } }
def State.pwmPair (s : State) (p : Nat) : PwmPair := vget PwmPair.reset s.pwm.pairs p
def State.setPair (s : State) (p : Nat) (x : PwmPair) : State := { s with pwm := { s.pwm with pairs := vset s.pwm.pairs p x } }
def State.conv (s : State) (i : Nat) : Adc := vget Adc.reset s.adc.conv i
def State.setConv (s : State) (i : Nat) (x : Adc) : State := { s with adc := { s.adc with conv := vset s.adc.conv i x } }
def State.dom (s : State) (d : Nat) : Dom := vget Dom.reset s.time.dom d
def State.setDom (s : State) (d : Nat) (x : Dom) : State := { s with time := { s.time with dom := vset s.time.dom d x } }
def State.conn (s : State) (c : Nat) : Conn := vget Conn.reset s.wt.conns c
def State.setConn (s : State) (c : Nat) (x : Conn) : State := { s with wt := { s.wt with conns := vset s.wt.conns c x } }
def State.bank (s : State) (b : Nat) : Bank :=
  vget (Bank.reset 0) s.mem.banks b
def State.setBank (s : State) (b : Nat) (x : Bank) : State := { s with mem := { s.mem with banks := vset s.mem.banks b x } }
/-! ### Banks (R449, R450) -/

/-- The owner wants the bank on, or an access finds it in retention (R450). -/
def State.wakeBank (s : State) (b : Nat) : State :=
  let x := s.bank b
  match x.pwr with
  | .off => s.setBank b { x with pwr := .waking true }
  | .retention => s.setBank b { x with pwr := .waking false }
  | _ => s

/-- An access by a party that is not the owner wakes a bank in retention only. -/
def State.touchBank (s : State) (b : Nat) : State := if (s.bank b).pwr = .retention then s.wakeBank b else s

/-- A class S object's copy in a dictionary bank becomes `v`. -/
def State.putCopy (s : State) (b k : Nat) (v : Word) : State :=
  match rowOf k with
  | some (r, _, _) =>
    if r.cls ≠ .s then s
    else if b < 170 then { s with act := tput dfltW s.act k v }
    else { s with stg := tput dfltW s.stg k v }
  | none => s

/-- A Ledger entry with word `w` replaced. -/
def Entry.setWord (e : Entry) (w : Nat) (v : Word) : Entry :=
  match w with
  | 0 => { e with w0 := v }
  | 1 => { e with w1 := v }
  | 2 => { e with w2 := v }
  | _ => { e with w3 := v }

/-- The stored bits of a word of a bank become `v`: the Ledger's entries lie in banks 0 to 2 (R162), the copies of the dictionary in
banks 168 to 171. -/
def State.putBank (s : State) (b w : Nat) (v : Word) : State :=
  if b ≤ 2 then
    let i := b * 4096 + w / 4
    let e := (tget (fun _ => Entry.empty) s.ledger.entries i).setWord (w % 4) v
    { s with ledger := { s.ledger with entries := tput (fun _ => Entry.empty) s.ledger.entries i e } }
  else if 168 ≤ b ∧ b ≤ 171 then
    match Config.dictKey b w with
    | some k => s.putCopy b k v
    | none => s
  else s.wrW (bankAddr b (4 * w)) v

/-- Every word of a bank of plain memory becomes 0. -/
def State.clearSram (s : State) (b : Nat) : State := { s with sram := tclear (bankAddr b 0) (bankAddr (b + 1) 0) s.sram }

/-- Every word of a bank becomes 0. -/
def State.clearBank (s : State) (b : Nat) : State :=
  if b ≤ 2 then
    { s with ledger := { s.ledger with entries := tclear (b * 4096) ((b + 1) * 4096) s.ledger.entries } }
  else if 168 ≤ b ∧ b ≤ 171 then (List.range 16384).foldl (fun t w => t.putBank b w 0) s
  else s.clearSram b

/-- The wake of a bank is over (R450): one that was off has been cleared. Only plain memory is ever off (R449). -/
def State.wakeDone (s : State) (b : Nat) : State :=
  match (s.bank b).pwr with
  | .waking true => (s.clearSram b).setBank b { s.bank b with pwr := .on }
  | .waking false => s.setBank b { s.bank b with pwr := .on }
  | _ => s

/-- An owner's access waits until its bank is on (R450). -/
def State.ownerOn (s : State) (b : Nat) : State := (s.touchBank b).wakeDone b

def State.manifest (s : State) (n : Nat) : Manifest := vget Manifest.empty s.routes.manActive n

/-- Apply `f` for every number of a list in order. -/
def State.each (s : State) (l : List Nat) (f : State → Nat → State) : State := l.foldl f s

/-! ### Clocks -/

/-- L in ns. -/
def State.nowL (s : State) : Nat := s.time.l
/-- C in ns. -/
def State.nowC (s : State) : Nat := s.time.c / 4294967296
/-- A domain's time in ns. -/
def State.domTime (s : State) (d : Nat) : Nat := (s.dom d).ctr / 4294967296
/-- Index of the selected domain. -/
def State.selDom (s : State) : Nat := b2n s.time.selB

/-- Advance of a counter in 2^-32 ns per ns of L at a rate in 2^-16 ppb (R307). -/
def rateWord (r : Int) : Nat := (4294967296 + floorDiv (r * 65536) 1000000000).toNat

/-- RATE_LIMIT_PPM in 2^-16 ppb. -/
def State.rateLimit (s : State) (d : Nat) : Int := s.na (Obj.RATE_LIMIT_PPM d) * 65536000
/-- Advance of C, and of a domain within RATE_LIMIT_PPM, per ns of L (R307). -/
def State.cWord (s : State) : Nat := rateWord (s.time.rC * 65536)
def State.domWord (s : State) (d : Nat) : Nat := rateWord (max (-(s.rateLimit d)) (min (s.rateLimit d) (s.dom d).rate))

/-- Let `n` ns of L pass: A, B and C advance at their rates (R307, R317). -/
def State.passNs (s : State) (n : Nat) : State :=
  { s with time := { s.time with l := s.time.l + n, c := s.time.c + n * s.cWord,
                                 dom := Vector.ofFn fun (d : Fin 2) => { s.time.dom[d] with ctr := s.time.dom[d].ctr + n * s.domWord d.val } } }

/-! ### Blocks on a lane -/

/-- Time of a 66-bit block at 12.5 Gbit/s in 0.01 ns (R73). -/
def blockTime : Nat := 528
/-! ### Time passing -/

/-- Let time pass until L has the given value; nothing when it has passed it. -/
def State.toL (s : State) (l : Nat) : State := s.passNs (l - s.time.l)

/-- Let time pass until C has reached the given value in ns: the first cycle at which it has (R307); nothing when it has passed it. -/
def State.toC (s : State) (c : Nat) : State := s.passNs (ceilDiv (c * 4294967296 - s.time.c) s.cWord)

/-- C_OFF (R317, R318), in 2^-32 ns and in ns: the selected domain's time less C, and 0 while no domain has been usable. -/
def State.cOffQ (s : State) : Int := if s.time.used then ((s.dom s.selDom).ctr : Int) - s.time.c else 0
def State.cOff (s : State) : Int := floorDiv s.cOffQ 4294967296

/-- C_OFF of a stretch at an instant of C, in 2^-32 ns. -/
def OffSeg.value (x : OffSeg) (c : Nat) : Int :=
  x.off + floorDiv (((c : Int) - x.start) * ((x.domWord : Int) - x.cWord)) x.cWord

/-- C_OFF has changed, or runs on at another rate, from now on (R318); what is older than 32 frames is dropped. -/
def State.noteOff (s : State) : State :=
  let x : OffSeg := { start := s.time.c, off := s.cOffQ, domWord := if s.time.used then s.domWord s.selDom else s.cWord
                      cWord := s.cWord, trace := s.time.traceable }
  let old := s.time.offs
  let goesOn := match old.head? with
    | some y => decide (y.value s.time.c = x.off) && decide (y.domWord = x.domWord) && decide (y.cWord = x.cWord) && decide (y.trace = x.trace)
    | none => false
  let recent (y : OffSeg) : Bool := decide (s.time.c < y.start + 32 * s.nl Obj.TF_ACTIVE_NS * 4294967296)
  if goesOn then s
  else { s with time := { s.time with offs := x :: (old.takeWhile recent ++ (old.dropWhile recent).take 1) } }

/-- The stretch of C_OFF that holds at converter time `c` in ns: one that begins within that nanosecond holds from its start on. -/
def State.offSeg (s : State) (c : Nat) : Option OffSeg := s.time.offs.find? fun x => decide (x.start < (c + 1) * 4294967296)
/-- C_OFF in ns at converter time `c` (R318). -/
def State.cOffAt (s : State) (c : Nat) : Int :=
  match s.offSeg c with
  | some x => floorDiv (x.value (c * 4294967296)) 4294967296
  | none => s.cOff
/-- TRACEABLE has changed, or C has been set (R316, R318). -/
def State.noteTrace (s : State) : State :=
  if (s.time.traces.head?.map (·.2)) = some s.time.traceable then s
  else { s with time := { s.time with traces := ((s.nowC, s.time.traceable) :: s.time.traces).take 1024 } }
/-- A domain has moved C_OFF since `o` (R336): a change of the selected one, or the first usable one. -/
def State.offStep (s o : State) : State :=
  if s.time.selB = o.time.selB ∧ s.time.used = o.time.used then s
  else
    let c := s.nowC
    { s with time := { s.time with offSteps := (c, ((c : Int) + o.cOff).toNat, ((c : Int) + s.cOff).toNat) :: s.time.offSteps } }
/-- TRACEABLE at converter time `c` (R318): 0 before the first change. -/
def State.traceAt (s : State) (c : Nat) : Bool := ((s.time.traces.find? fun x => decide (x.1 ≤ c)).map (·.2)).getD false

/-- TIME64 of an event at converter time `c` (R318): `c + C_OFF` at that instant. -/
def State.time64 (s : State) (c : Nat) : Nat := ((c : Int) + s.cOffAt c).toNat

/-- Converter time of an event whose TIME64 is given: C_OFF at that instant is taken off (R318). -/
def State.convOf (s : State) (t : Int) : Int := t - s.cOffAt (t - s.cOff).toNat

/-- T_F of the frame in progress. -/
def State.tf (s : State) : Nat := s.nl Obj.TF_ACTIVE_NS

/-- Converter time of S_j: as it rang for the recent frames, and T_F apart beyond them. -/
def State.tickOf (s : State) (j : Nat) : Int :=
  let c := s.frame.count
  if c ≤ j then (s.frame.tickC : Int) + ((j - c : Nat) : Int) * s.tf
  else match s.frame.ticks[c - 1 - j]? with
    | some t => t
    | none => ((s.frame.ticks.getLastD s.frame.tickC : Nat) : Int) - ((c - j - s.frame.ticks.length : Nat) : Int) * s.tf

/-- The frame k whose interval (S_{k-1}, S_k] holds a converter time (R350). -/
def State.frameOf (s : State) (t : Int) : Nat :=
  let f : Int := max 1 s.tf
  let c : Int := s.frame.count
  if (s.frame.tickC : Int) < t then (c - floorDiv (s.frame.tickC - t) f).toNat
  else
    let l := s.frame.ticks
    let m := (l.takeWhile fun (x : Nat) => decide (t ≤ (x : Int))).length
    if m < l.length then (c - m).toNat
    else (c - m - floorDiv (((l.getLastD s.frame.tickC : Nat) : Int) - t) f).toNat
/-- D_k as an offset from S_k. -/
def State.dk (s : State) : Nat := s.nl Obj.DK_ACTIVE_NS
/-- The active pipeline depth P. -/
def State.p (s : State) : Nat := s.nl Obj.P_ACTIVE
/-- The pair frame number of a frame count (R414). -/
def State.pairFrame (s : State) (k : Nat) : Nat := if s.pair.role = .alone then k else (k + s.pair.offset) % 2 ^ 64

/-! ### Cause tree -/

/-- PEND of a group. -/
def State.pendOf (s : State) (g : Nat) : Word := vget 0 s.irq.pend g

/-- Hardware sets bits of a group (R469, R473): into PEND and every path's shadow while HCLK runs, else into the latches. -/
def State.irqBits (s : State) (g : Nat) (bits : Word) : State :=
  if s.irq.hclkRuns then
    { s with irq := { s.irq with pend := vset s.irq.pend g (vget 0 s.irq.pend g ||| bits),
                                 shadow := s.irq.shadow.map fun v => vset v g (vget 0 v g ||| bits) } }
  else { s with irq := { s.irq with latch := vset s.irq.latch g (vget 0 s.irq.latch g ||| bits) } }

/-- An occurrence of an edge source (R469). -/
def State.irqEdge (s : State) (g b : Nat) : State := s.irqBits g (w32 (2 ^ b))

/-- An occurrence when the condition holds. -/
def State.irqIf (s : State) (c : Bool) (g b : Nat) : State := if c then s.irqEdge g b else s

/-- The condition of a level source becomes `c` (R469): its start sets the pending bit and ACTIVE unless ACTIVE is 1. -/
def State.irqLevel (s : State) (g b : Nat) (c : Bool) : State :=
  let lv := vget 0 s.irq.level g
  let s1 : State := { s with irq := { s.irq with level := vset s.irq.level g (bset lv b c) } }
  if c && !(nbit lv.toNat b) && !(nbit (vget 0 s.irq.active g).toNat b) then
    let s2 := s1.irqEdge g b
    { s2 with irq := { s2.irq with active := vset s2.irq.active g (bset (vget 0 s2.irq.active g) b true) } }
  else s1

/-- The groups of which a pending word has a bit that MASK lets through. -/
def State.groupsUp (s : State) (pend : Nat → Word) : Word :=
  w32 (((List.range 32).map fun g => if pend g &&& ~~~(s.gl (Obj.MASK g)) = 0 then 0 else 2 ^ g).sum)

/-- SUMMARY (R470). -/
def State.summary (s : State) : Word := s.groupsUp s.pendOf

/-- IRQ_N is asserted (R470); while HCLK is stopped the latches drive it as well (R473). -/
def State.irqAsserted (s : State) : Bool :=
  let up := s.groupsUp fun g => s.pendOf g ||| (if s.irq.hclkRuns then 0 else vget 0 s.irq.latch g)
  decide (up &&& ~~~(s.gl Obj.SUMMARY_MASK) ≠ 0)

/-- Lock of a SerDes PLL (R513): it follows its reference (R75). -/
def State.sdPllLock (s : State) (i : Nat) (on : Bool) : State := { s with power := { s.power with sdPll := bset s.power.sdPll i on } }

/-- The level sources of group 1 follow the ring (R468). -/
def State.jrnLevels (s : State) : State :=
  (s.irqLevel 1 0 (decide (0 < s.jrn.count))).irqLevel 1 1 (decide (s.na Obj.JRN_HWM ≤ s.jrn.count))

/-! ### Secure bank, tags -/

/-- The key is present in the secure bank (R457): the KEY_STATE word. -/
def State.keyPresent (s : State) : Bool := decide (s.rdW (secAddr 0x20) = 1)

/-- Low 24 bits and other narrow fields of a frame number. -/
def lowBits (n w : Nat) : Nat := n % 2 ^ w

/-- Sign-extended `w`-bit field. -/
def sext (w x : Nat) : Int := (BitVec.ofNat w x).toInt

end Sys2Proof.Machine
end

