-- ==== Sys2Proof/Machine/Sched.lean ====
section
/-! DEFINITION. The Task Scheduler's operations (R271 to R286): descriptor fields, releases, the pool, and the choice of the
next instance on an engine. Where a release finds no room, the caller's `occ` takes the occurrence of SCHED_PEND (R438). -/
namespace Sys2Proof.Machine

/-! ### Descriptor fields (R271) -/

def Desc.en (d : Desc) : Bool := nbit d.w0.toNat 31
def Desc.cls (d : Desc) : Nat := fld d.w0 30 29
def Desc.prio (d : Desc) : Nat := fld d.w0 27 24
def Desc.engines (d : Desc) : Nat := fld d.w0 23 16
def Desc.entry (d : Desc) : Nat := fld d.w0 12 0
def Desc.modeMask (d : Desc) : Nat := fld d.w1 31 24
def Desc.qdepth (d : Desc) : Nat := fld d.w1 17 16
def Desc.armMask (d : Desc) : Nat := fld d.w1 11 0
def Desc.period (d : Desc) : Nat := fld d.w2 31 16
/-- PHASE, DELAY_FRAMES or EVENT_SRC. -/
def Desc.low (d : Desc) : Nat := fld d.w2 15 0
def Desc.cycWarn (d : Desc) : Nat := fld d.w3 15 0
/-- MODE_MASK includes the mode. -/
def Desc.allows (d : Desc) (m : Mode) : Bool := nbit d.modeMask m.code

/-- Descriptor `n` of a table; descriptors not listed are 0 (R271). -/
def descGet (t : List (Nat × Desc)) (n : Nat) : Desc := tget (fun _ => Desc.empty) t n
/-- Active descriptor `n`. -/
def State.desc (s : State) (n : Nat) : Desc := descGet s.sched.active n

/-- Dynamic state of a descriptor that has none yet. -/
def DescDyn.reset : DescDyn := ⟨false, false, 0, 0⟩
def State.descDyn (s : State) (n : Nat) : DescDyn := tget (fun _ => DescDyn.reset) s.sched.dyn n
def State.setDescDyn (s : State) (n : Nat) (x : DescDyn) : State :=
  { s with sched := { s.sched with dyn := tput (fun _ => DescDyn.reset) s.sched.dyn n x } }

/-- Outstanding instances of a descriptor (R277). -/
def State.outstanding (s : State) (n : Nat) : Nat := (s.sched.pool.filter fun i => i.desc == n).length

/-- The pool has room for an instance of the descriptor (R277). -/
def State.poolRoom (s : State) (n : Nat) : Bool :=
  decide (s.sched.pool.length < 64) && decide (s.outstanding n ≤ (s.desc n).qdepth)

/-- POOL_FULL follows the pool (R468, group 6). -/
def State.poolLevel (s : State) : State := s.irqLevel 6 0 (decide (64 ≤ s.sched.pool.length))

/-! ### Engines and their next work -/

def State.engEnabled (s : State) (e : Nat) : Bool := nbit (s.na Obj.ENGINE_EN) e
def State.running (s : State) (e : Nat) : Option Inst := vget none s.sched.running e
def State.entering (s : State) (e : Nat) : Option Entering := vget none s.sched.entering e
def State.setEntering (s : State) (e : Nat) (x : Option Entering) : State :=
  { s with sched := { s.sched with entering := vset s.sched.entering e x } }
def State.setRunning (s : State) (e : Nat) (x : Option Inst) : State :=
  { s with sched := { s.sched with running := vset s.sched.running e x } }

/-- Priority of an instance. -/
def Inst.prio (i : Inst) : Nat := i.words.prio
/-- The instance may run on engine `e`. -/
def Inst.mayRun (i : Inst) (e : Nat) : Bool := nbit i.words.engines e

/-- The instance an engine is entering. -/
def Entering.inst? : Entering → Option Inst
  | .select i => some i | .save i => some i | .load i => some i | .restore => none

/-- Identifiers of FRAME instances: one per descriptor, so that a prefetch slot can hold a FRAME descriptor before its
release (R281). -/
def frameId (desc : Nat) : Nat := 2 ^ 40 + desc

/-- Enabled FRAME descriptors of an engine that are due under the mode. -/
def State.frameDue (s : State) (e : Nat) : List Nat :=
  idxs 256 fun n => (s.desc n).en && decide ((s.desc n).cls = 0) && nbit (s.desc n).engines e && (s.desc n).allows s.mode

/-- From S_k until the release of its last FRAME descriptor an engine takes no other instance (R281). -/
def State.frameReserved (s : State) (e : Nat) : Bool :=
  s.frame.ticking && !s.frame.released && !s.frame.planStopped && !(s.frameDue e).isEmpty

/-- Priority of what an engine runs or enters; `none` when idle. -/
def State.engPrio (s : State) (e : Nat) : Option Nat :=
  match s.entering e with
  | some .restore => ((s.eng e).saved.head?).map fun c => c.inst.prio
  | some x => x.inst?.map Inst.prio
  | none => (s.running e).map Inst.prio

/-- The instance is being entered on some engine. -/
def State.claimed (s : State) (id : Nat) : Bool :=
  (List.range 8).any fun e =>
    match s.entering e with
    | some x => match x.inst? with
      | some i => i.id == id
      | none => false
    | none => false

/-- The head of the highest non-empty ready list that an engine may serve (R280). -/
def State.readyFor (s : State) (e : Nat) : Option Inst :=
  ((List.range 16).reverse.flatMap fun p => vget [] s.sched.ready p).find? fun i => i.mayRun e && !s.claimed i.id

/-- The prefetch slot follows the instance the engine would take next (R281). -/
def State.prefetch (s : State) (e : Nat) : State :=
  let want : Option Nat :=
    match s.entering e with
    | some x => (x.inst?).map Inst.id
    | none =>
      if s.frameReserved e then
        ((s.frameDue e).foldl (fun best n =>
          match best with
          | none => some n
          | some b => if (s.desc b).prio < (s.desc n).prio then some n else some b) none).map frameId
      else (s.readyFor e).map Inst.id
  if vget none s.sched.slot e = want ∧ vget none s.sched.refill e = none then s
  else if want.isSome ∧ vget none s.sched.refill e = want then s
  else { s with sched := { s.sched with
    slot := vset s.sched.slot e none, slotWords := vset s.sched.slotWords e [], refill := vset s.sched.refill e want } }

def State.prefetchAll (s : State) : State := s.each (List.range 8) State.prefetch

/-- The engine that takes a new instance (R280): the lowest idle one, else the one with the lowest running priority below
that of the instance, else none. -/
def State.pickEngine (s : State) (i : Inst) : Option Nat :=
  let ok := idxs 8 fun e => s.engEnabled e && i.mayRun e && !(s.eng e).bkpt
    && (decide (i.words.cls = 0) || !s.frameReserved e)
  match ok.find? fun e => (s.engPrio e).isNone with
  | some e => some e
  | none =>
    ok.foldl (fun best e =>
      match s.engPrio e with
      | none => best
      | some p =>
        if p < i.prio then
          match best with
          | none => some e
          | some b => match s.engPrio b with
            | some q => if p < q then some e else some b
            | none => some e
        else best) none

/-- An instance whose entry is redirected returns to the head of its ready list (R283). -/
def State.toHead (s : State) (i : Inst) : State :=
  let p := i.prio
  { s with sched := { s.sched with ready := vset s.sched.ready p (i :: (vget [] s.sched.ready p).filter fun j => j.id != i.id) } }

/-- The instance goes to an engine: the switch begins, or is redirected to it (R280, R283, R284). -/
def State.enterOn (s : State) (e : Nat) (i : Inst) : State :=
  match s.entering e with
  | none => (s.setEntering e (some (.select i))).prefetch e
  | some .restore => ((s.incL Obj.TAILCHAIN_CNT).setEntering e (some (.select i))).prefetch e
  | some (.save l) => (((s.incL Obj.REDIRECT_CNT).toHead l).setEntering e (some (.save i))).prefetch e
  | some (.select l) => (((s.incL Obj.REDIRECT_CNT).toHead l).setEntering e (some (.select i))).prefetch e
  | some (.load l) => (((s.incL Obj.REDIRECT_CNT).toHead l).setEntering e (some (.select i))).prefetch e

/-- Place a new instance (R280): on an engine, or in its ready list. It stays in the list until it is loaded (R281). -/
def State.place (s : State) (i : Inst) : State :=
  let p := i.prio
  let s1 : State := { s with sched := { s.sched with ready := vset s.sched.ready p (vget [] s.sched.ready p ++ [i]) } }
  let s2 := match s1.pickEngine i with
    | some e => s1.enterOn e i
    | none => s1
  s2.prefetchAll

/-- The instance of a release of descriptor `n` in this cycle, with the words in force (R273). -/
def State.newInst (s : State) (n : Nat) : Inst :=
  { id := if (s.desc n).cls = 0 then frameId n else s.sched.nextId, desc := n, words := s.desc n, rel := s.nowL, frame := s.frame.count }

/-- A release that found room is counted, and its instance takes its pool entry (R277); an instance of a FRAME descriptor needs none
(R274). -/
def State.enroll (s : State) (n : Nat) : State :=
  let i := s.newInst n
  let x := s.descDyn n
  let s1 := s.setDescDyn n { x with relCnt := x.relCnt + 1 }
  if i.words.cls = 0 then { s1 with sched := { s1.sched with frames := s1.sched.frames ++ [i] } }
  else { s1 with sched := { s1.sched with pool := s1.sched.pool ++ [i], nextId := s1.sched.nextId + 1 } }

/-- A release that found room: its instance is placed (R280). -/
def State.start (s : State) (n : Nat) : State := ((s.enroll n).place (s.newInst n)).poolLevel

/-- Instances of one cycle are placed by priority, those of one priority in ascending descriptor number (R285). -/
def State.placeAll (s : State) (l : List Inst) : State :=
  (((List.range 16).reverse.flatMap fun p => l.filter fun i => decide (i.prio = p)).foldl State.place s).poolLevel

/-- Releases of one cycle that need no room. -/
def State.startAll (s : State) (l : List Nat) : State := (s.each l State.enroll).placeAll (l.map s.newInst)

/-- A source of effective class C2 or C3 is unacknowledged (R440). -/
def State.severe (s : State) : Bool :=
  (List.range 64).any fun n => nbit s.fault.status.toNat n && decide (2 ≤ (vget 0 s.fault.eff n).toNat)

/-- A release of the descriptor is shed (R440). -/
def State.shed (s : State) (n : Nat) : Bool := s.severe && decide ((s.desc n).prio < s.na Obj.SHED_PRIO)

/-- A hardware release of a MULTI, DELAY or EVENT descriptor (R277, R278): the instances of this cycle that have found room come with the
state, still to be placed. -/
def hwRelease (occ : State → State) (x : State × List Inst) (n : Nat) : State × List Inst :=
  let s := x.1
  let d := s.desc n
  if !d.en then x
  else if !d.allows s.mode then (s.incL Obj.MODE_DROP_CNT, x.2)
  else if s.shed n then (s.incL Obj.SHED_DROP_CNT, x.2)
  else if s.poolRoom n then (s.enroll n, x.2 ++ [s.newInst n])
  else
    let y := s.descDyn n
    if y.pend then (s.incL Obj.HW_MERGE_CNT, x.2)
    else (occ (((s.setDescDyn n { y with pend := true }).incL Obj.HW_PEND_CNT).irqEdge 6 1), x.2)

/-- Hardware releases of one cycle: they find room in ascending descriptor number (R276), and the instances go to the engines by priority
(R285). -/
def releaseAll (occ : State → State) (l : List Nat) (s : State) : State :=
  let r := l.foldl (hwRelease occ) (s, [])
  r.1.placeAll r.2

/-- An occurrence of an EVENT source releases every enabled EVENT descriptor that names it (R276). -/
def releaseEvent (occ : State → State) (src : Nat) (s : State) : State :=
  releaseAll occ (idxs 256 fun n => (s.desc n).en && decide ((s.desc n).cls = 3) && decide (fld (s.desc n).w2 7 0 = src)) s

/-- Order in which pending latches enter (R278): higher priority first, then the lower number. -/
def State.pendOrder (s : State) : List Nat :=
  (List.range 16).reverse.flatMap fun p => idxs 256 fun n => (s.descDyn n).pend && decide ((s.desc n).prio = p)

/-- Room has freed: pending latches enter the pool (R278). Each entry is a release, which shedding discards (R440). -/
def State.enterPending (s : State) : State :=
  s.each s.pendOrder fun s n =>
    if s.poolRoom n then
      let s1 := s.setDescDyn n { s.descDyn n with pend := false }
      if s1.shed n then s1.incL Obj.SHED_DROP_CNT else s1.start n
    else s

/-- Remove an instance from the pool, the outstanding FRAME instances and every list. -/
def State.dropInst (s : State) (id : Nat) : State :=
  { s with sched := { s.sched with
      pool := s.sched.pool.filter (fun i => i.id != id)
      frames := s.sched.frames.filter (fun i => i.id != id)
      ready := s.sched.ready.map (fun l => l.filter (fun i => i.id != id)) } }

/-- What an engine takes next after its task has ended (R280): a ready instance of higher priority than its newest saved
context is loaded directly, else the saved context is restored. An engine that is not enabled receives nothing (R268). -/
def State.nextOn (s : State) (e : Nat) : State :=
  let cand := if s.engEnabled e && !s.frameReserved e then s.readyFor e else none
  let saved := if s.engEnabled e then (s.eng e).saved.head? else none
  match cand, saved with
  | some i, some c =>
    if c.inst.prio < i.prio then ((s.incL Obj.TAILCHAIN_CNT).setEntering e (some (.load i))).prefetch e
    else s.setEntering e (some .restore)
  | some i, none => ((s.incL Obj.TAILCHAIN_CNT).setEntering e (some (.load i))).prefetch e
  | none, some _ => s.setEntering e (some .restore)
  | none, none => (s.setEntering e none).prefetch e

/-- An engine that a commit enables takes what waits for it, as an engine that is idle (R268, R280). -/
def State.wake (s : State) (e : Nat) : State :=
  if (s.running e).isSome || (s.entering e).isSome then s
  else
    let saved := (s.eng e).saved.head?
    match (if s.frameReserved e then none else s.readyFor e) with
    | some i => if saved.any fun c => decide (i.prio ≤ c.inst.prio) then s.setEntering e (some .restore) else s.enterOn e i
    | none => if saved.isSome then s.setEntering e (some .restore) else s.prefetch e

/-- Where a reservation has ended (R281), the engines that are idle take what waits for them. -/
def State.wakeAll (s : State) : State := s.each (idxs 8 s.engEnabled) State.wake

/-- The engine's store buffer drains, oldest store first (R247). -/
def State.drainStores (s : State) (e : Nat) : State :=
  let x := s.eng e
  (x.r.stores.foldl (fun s st => s.wrW (shmAddr (4 * st.addr)) st.data) s).setEng e
    { x with r := { x.r with stores := [] } }

/-- A task ends on an engine by DONE, an exception or termination (R280). The comparison takes in an instance that was about to preempt it,
which stands in its ready list (R281, R285). -/
def State.taskEnd (s : State) (e : Nat) : State :=
  match s.running e with
  | none => s
  | some i =>
    let s1 := (((s.drainStores e).dropInst i.id).setRunning e none).setLN (Obj.ENG_STATUS e) (i.desc * 65536 + i.prio * 4096)
    let r := (s1.eng e).r
    let s2 := s1.setEng e { s1.eng e with r := { r with loops := [], rets := [] }, bkpt := false }
    (((s2.setEntering e none).nextOn e).enterPending).poolLevel

/-- Remaining frames of an armed DELAY descriptor. -/
def State.delayLeft (s : State) (n : Nat) : Option Nat := (s.sched.delays.find? fun d => d.1 == n).map (·.2)

/-- Insert into the delay list, sorted by remaining frames (R275). -/
def delayInsert (n f : Nat) : List (Nat × Nat) → List (Nat × Nat)
  | [] => [(n, f)]
  | (m, g) :: t => if f < g then (n, f) :: (m, g) :: t else (m, g) :: delayInsert n f t

end Sys2Proof.Machine
end

