-- ==== Sys2Proof/Machine/FaultOps.lean ====
section
/-! DEFINITION. The Fault Collector's latching, escalation, self-test outcomes and acknowledge (R438 to R446), and the
journal's producers (R474 to R476). A C3 latch is followed by SAFE entry in Safe.lean. -/
namespace Sys2Proof.Machine

/-! ### Status bits -/

def State.fSet (s : State) (n : Nat) : Bool := nbit s.fault.status.toNat n
def State.fActive (s : State) (n : Nat) : Bool := nbit s.fault.active.toNat n
/-- The sources of type L (R438). -/
def faultIsLevel (n : Nat) : Bool :=
  [13, 16, 17, 28, 30, 31, 33, 34, 35, 36, 38, 39, 40, 41, 48, 63].contains n
/-- The present fabric cycle (2 ns). -/
def State.fabricCycle (s : State) : Nat := s.nowL / 2
/-- What the collector notes of the present cycle, empty when the last note is of an earlier one. -/
def State.inCycle (s : State) (m : FaultSt → BitVec 64) (n : Nat) : Bool :=
  decide (s.fault.cycle = s.fabricCycle) && nbit (m s.fault).toNat n
/-- The notes of an earlier cycle are dropped. -/
def State.newCycle (s : State) : State :=
  if s.fault.cycle = s.fabricCycle then s
  else { s with fault := { s.fault with cycle := s.fabricCycle, occNow := 0, forcedNow := 0, forcedAct := 0, ackNow := 0 } }
/-- FAULT_ACTIVE: a forced level source counts as active for its fabric cycle (R443). -/
def State.activeNow (s : State) (n : Nat) : Bool := s.fActive n || (faultIsLevel n && s.inCycle (·.forcedAct) n)
def State.fEff (s : State) (n : Nat) : Nat := (vget 0 s.fault.eff n).toNat
/-- Some source is set with this effective class. -/
def State.fAny (s : State) (c : Nat) : Bool := (List.range 64).any fun n => s.fSet n && decide (s.fEff n = c)
def State.setResult (s : State) (n r : Nat) : State :=
  { s with fault := { s.fault with result := vset s.fault.result n (BitVec.ofNat 4 r) } }

/-- Group 0 of the cause tree follows FAULT_STATUS (R468); FAILOVER_REQ ends with the last C2 or C3 source (R440). -/
def State.faultLevels (s : State) : State :=
  let s1 := ((s.irqLevel 0 0 (s.fAny 1)).irqLevel 0 1 (s.fAny 2)).irqLevel 0 2 (s.fAny 3)
  if s1.severe then s1 else { s1 with fault := { s1.fault with failover := false } }

/-- Base class of a source by FAULT_CLASS (R448); the sources marked fixed are C3 (R438). -/
def State.faultClass (s : State) (n : Nat) : Nat :=
  if n = 30 ∨ n = 31 ∨ n = 38 ∨ n = 40 ∨ n = 41 then 3
  else if 33 ≤ n ∧ n ≤ 36 then (s.na Obj.TRIP_CLASS / 4 ^ (n - 33)) % 4
  else fld (s.ga (Obj.FAULT_CLASS_0 + n / 16)) (2 * (n % 16) + 1) (2 * (n % 16))

/-- OCC_CNT of a source goes up, and every path has an unseen change (R439, R442). -/
def State.occur (s : State) (n : Nat) : State :=
  let s1 := (s.incL (Obj.OCC_CNT n)).newCycle
  { s1 with fault := { s1.fault with
    changed := s1.fault.changed.map fun c => bset c n true, occNow := bset s1.fault.occNow n true } }

/-- Some source is set with this effective class, or was acknowledged in this very cycle (R441, R447). -/
def State.escalates (s : State) (c : Nat) : Bool :=
  s.fAny c || (List.range 64).any fun n => s.inCycle (·.ackNow) n && decide (s.fEff n = c)

/-- The latch itself (R439, R441): status bit, effective class, OCC_CNT, ESCALATE_CNT, the cause tree and the fail-over
request (R440). Answers the effective class and whether it was escalated. -/
def State.latch (s : State) (n base : Nat) : State × Nat × Bool :=
  let esc := decide (base < 3) && s.escalates base
  let eff := if esc then base + 1 else base
  let s1 : State := { s with fault := { s.fault with
    status := bset s.fault.status n true, eff := vset s.fault.eff n (BitVec.ofNat 2 eff) } }
  let s2 := (s1.occur n).incIf esc Obj.ESCALATE_CNT
  let s3 := (s2.irqIf (decide (1 ≤ eff)) 0 3).faultLevels
  let s4 := if decide (2 ≤ eff) && decide (s3.ga Obj.PAIR_EN = 1) && decide (s3.ga Obj.FAILOVER_EN = 1)
      && decide (s3.pair.role = .active)
    then { s3 with fault := { s3.fault with failover := true } } else s3
  (s4, eff, esc)

/-! ### Journal -/

/-- A record among the records of its fabric cycle: in ascending source code, those of one source in the order in which they came, a
record that continues another one behind it (R475, R476). -/
def insertRec (r : JRec) : List JRec → List JRec
  | [] => [r]
  | x :: l => if r.source < x.source ∧ x.cont = false then r :: x :: l else x :: insertRec r l

/-- A record takes the next sequence number and the records that entered in the same fabric cycle (2 ns) keep their numbers in ascending
source code (R476); a queue of 64 loses the last of them. -/
def State.stageRec (s : State) (r : JRec) : State :=
  let q := s.jrn.seq
  let same := if s.jrn.cycle = s.nowL / 2 then min s.jrn.inCycle s.jrn.staging.length else 0
  let old := s.jrn.staging.take (s.jrn.staging.length - same)
  let now := s.jrn.staging.drop (s.jrn.staging.length - same)
  let next := ((insertRec r now).zip (now.map (·.seq) ++ [q])).map fun x => { x.1 with seq := x.2 }
  { s with jrn := { s.jrn with
    seq := (q + 1) % 4294967296, staging := (old ++ next).take 64, cycle := s.nowL / 2, inCycle := min (same + 1) (64 - old.length) } }

/-- A record of an event of this instant (R474): TIME64, or L before C is set. -/
def State.recNow (s : State) (src : Nat) (data : Word) (cont : Bool) : JRec :=
  { time := if s.time.cSet then s.time64 s.nowC else s.nowL, data := data,
    traceable := s.time.cSet && s.time.traceable, cont := cont, lTime := !s.time.cSet, source := src, seq := 0 }

/-- Latch record of a source (R475). -/
def latchData (res eff : Nat) (esc forced : Bool) : Word :=
  w32 (res * 256 + (if forced then 8 else 0) + (if esc then 4 else 0) + eff)

/-- A record that follows a dropped one enters the queue where it has room, and is dropped as a repeat of JOURNAL_FULL where it has
none (R476). -/
def State.stageOrLose (s : State) (r : JRec) : State :=
  if s.jrn.staging.length < 64 then s.stageRec r
  else (({ s with jrn := { s.jrn with seq := (s.jrn.seq + 1) % 4294967296 } }).incL Obj.JRN_DROP_CNT).occur 44

/-- Occurrence of SCHED_PEND by the release that a latch has caused (R276, R278, EVENT source 0x50), `put` being what takes its record. -/
def schedPendBy (put : State → JRec → State) (s : State) : State :=
  if s.fSet 53 then s.occur 53
  else
    let l := s.latch 53 (s.faultClass 53)
    let s1 := (put l.1 (l.1.recNow 0x45 (latchData 0 l.2.1 l.2.2 false) false)).setResult 53 5
    if 1 ≤ l.2.1 then releaseEvent (fun s => s.occur 53) 0x50 s1 else s1

/-- A record that found no room (R476): it has taken its sequence number, and occurs as JOURNAL_FULL. The latch record of that source
follows what the cycle has staged. -/
def State.dropRecord (s : State) : State :=
  let s1 := (s.incL Obj.JRN_DROP_CNT).irqEdge 1 2
  if s1.fSet 44 then s1.occur 44
  else
    let l := s1.latch 44 (s1.faultClass 44)
    let s2 : State := { l.1.setResult 44 5 with jrn := { s1.jrn with inCycle := 0 } }
    let s3 := s2.stageOrLose (s1.recNow 0x3C (latchData 0 l.2.1 l.2.2 false) false)
    if 1 ≤ l.2.1 then releaseEvent (schedPendBy State.stageOrLose) 0x50 s3 else s3

/-- A record enters the staging queue, or is dropped (R476). -/
def State.journalRec (s : State) (r : JRec) : State :=
  if s.jrn.staging.length < 64 then s.stageRec r else (s.stageRec r).dropRecord

/-- A record of an event of this instant (R474). -/
def State.journalNow (s : State) (src : Nat) (data : Word) (cont : Bool := false) : State := s.journalRec (s.recNow src data cont)

/-- A record of an event at converter time `c` (R474), in L before C is set. -/
def State.journalEdge (s : State) (src : Nat) (data : Word) (c : Nat) : State :=
  s.journalRec {
    time := if s.time.cSet then s.time64 c else s.nowL - (s.nowC - c), data := data, traceable := s.time.cSet && s.traceAt c
    cont := false, lTime := !s.time.cSet, source := src, seq := 0 }

/-- A record whose TIME is given as TIME64. -/
def State.journalAt (s : State) (src : Nat) (data : Word) (t : Nat) (trace : Bool) : State :=
  s.journalRec { time := t, data := data, traceable := trace, cont := false, lTime := !s.time.cSet, source := src, seq := 0 }

/-! ### Self-test (R444 to R446) -/

/-- RESOURCE of a bank word (R475). -/
def bankRes (bank word : Nat) : Nat := bank * 16384 + word

/-- Spare rows of a bank (R446). -/
def spares (b : Nat) : Nat := if b = 172 then 2 else 4

/-- Remap the failing row to the next free spare (R446); answers whether there was one. -/
def State.repairRow (s : State) (b row : Nat) : State × Bool :=
  let x := s.bank b
  if x.repaired.length < spares b then ((s.setBank b { x with repaired := x.repaired ++ [row] }).incL Obj.ROW_REPAIR_CNT, true)
  else (s.setBank b { x with failed := true }, false)

/-- Outcome TRANSIENT (R445): acknowledged automatically where AUTO_ACK says so and the source is not active. -/
def State.transient (s : State) (n res : Nat) : State :=
  let s1 := ((s.setResult n 2).incL Obj.ST_TRANSIENT_CNT).journalNow (0x50 + n) (w32 (res * 256 + 2))
  let auto := nbit (s1.na (Obj.AUTO_ACK_LO + n / 32)) (n % 32)
  if auto && !s1.activeNow n && !s1.inCycle (·.occNow) n && s1.fSet n then
    ({ s1 with fault := { s1.fault with status := bset s1.fault.status n false } }).faultLevels
  else s1

/-- Occurrence of SCHED_PEND inside the release that an occurrence causes. -/
def schedPendInner (s : State) : State := schedPendBy State.journalRec s

/-- The re-latch of a source whose resource has no spare (R445): it latches at C1 or higher (R276). -/
def State.relatch (s : State) (n res : Nat) : State :=
  let e := s.fEff n
  if e < 3 then
    let s1 : State := { s with fault := { s.fault with
      status := bset s.fault.status n true, eff := vset s.fault.eff n (BitVec.ofNat 2 (e + 1)) } }
    let s2 := ((s1.incL Obj.ESCALATE_CNT).journalNow (0x10 + n) (latchData res (e + 1) true false)).irqEdge 0 3
    let s3 := s2.faultLevels
    let s4 : State := if decide (1 ≤ e) && decide (s3.ga Obj.PAIR_EN = 1) && decide (s3.ga Obj.FAILOVER_EN = 1)
        && decide (s3.pair.role = .active)
      then { s3 with fault := { s3.fault with failover := true } } else s3
    releaseEvent schedPendInner 0x50 s4
  else s

/-- Outcome LASTING (R445): repaired from a spare where the resource is a bank row with one left, else latched again one
class higher. -/
def State.lasting (s : State) (n res : Nat) (bankRow : Bool) : State :=
  let s1 := s.incL Obj.ST_LASTING_CNT
  let rep := if bankRow then s1.repairRow (res / 16384) (res % 16384 / 64) else (s1, false)
  let code := if rep.2 then 3 else 4
  let s2 := (rep.1.setResult n code).journalNow (0x50 + n) (w32 (res * 256 + code))
  if rep.2 then s2 else s2.relatch n res

/-- The self-test that follows a latch (R444): E tests queue up to 4 addresses, one test runs per resource and serves every source
that names it, M has its outcome at once, N tests nothing. -/
def State.startTest (s : State) (n res : Nat) (t : TestCode) : State :=
  match t with
  | .n => s.setResult n 5
  | .m => s.lasting n res true
  | c =>
    let on := s.fault.tests.find? fun x => x.code == c && x.resource == res
    if on.isNone && decide (c = .e) && decide (4 ≤ (((s.fault.tests.filter fun x => x.code == .e).map (·.resource)).eraseDups).length) then
      ((s.setResult n 7).incL Obj.ST_SKIP_CNT)
    else
      let s1 := s.setResult n 1
      let t : SelfTest := { on.getD ⟨c, n, res, s1.frame.count, 0⟩ with source := n }
      if s1.fault.tests.any fun x => x.code == t.code && x.resource == t.resource && x.source == n then s1
      else { s1 with fault := { s1.fault with tests := s1.fault.tests ++ [t] } }

/-- A real occurrence in the cycle of a force of its source is the one that is handled (R447): the record of the latch is its record,
and its self-test starts. -/
def State.realAfterForce (s : State) (n res : Nat) (t : TestCode) : State :=
  let s1 : State := { s with
    fault := { s.fault with forcedNow := bset s.fault.forcedNow n false }
    jrn := { s.jrn with staging := s.jrn.staging.map fun r =>
      if r.source = 0x10 + n ∧ nbit r.data.toNat 3 then { r with data := latchData res (fld r.data 1 0) (nbit r.data.toNat 2) false } else r } }
  s1.startTest n res t

/-! ### Occurrences -/

/-- A force makes its source active for this cycle, whether or not it latches (R443). -/
def State.forceActive (s : State) (n : Nat) (forced : Bool) : State :=
  if forced then { s with fault := { s.fault with forcedAct := bset s.fault.forcedAct n true } } else s

/-- One occurrence without the EVENT release it may cause (R439): the state, and the effective class when it latched. -/
def State.raiseCore (s : State) (n base res : Nat) (t : TestCode) (forced : Bool) : State × Option Nat :=
  if s.fSet n then
    let s1 := (s.occur n).forceActive n forced
    (if !forced && s1.inCycle (·.forcedNow) n then s1.realAfterForce n res t else s1, none)
  else
    let l := s.latch n base
    let s1 := (l.1.forceActive n forced).journalNow (0x10 + n) (latchData res l.2.1 l.2.2 forced)
    (if forced then
      { s1.setResult n 6 with fault := { (s1.setResult n 6).fault with forcedNow := bset s1.fault.forcedNow n true } }
     else s1.startTest n res t, some l.2.1)


/-- One occurrence of a source with its base class (R439 to R441, R444), SAFE entry excepted. -/
def State.raise0 (s : State) (n base res : Nat) (t : TestCode) (forced : Bool) : State :=
  let r := s.raiseCore n base res t forced
  match r.2 with
  | some e => if 1 ≤ e then releaseEvent schedPendInner 0x50 r.1 else r.1
  | none => r.1

/-- SCHED_PEND as an occurrence, SAFE entry excepted. -/
def schedPend0 (s : State) : State := s.raise0 53 (s.faultClass 53) 0 .n false

/-- The sources that are set with effective class C3. -/
def State.c3Set (s : State) : BitVec 64 :=
  (List.range 64).foldl (fun b n => if s.fSet n && decide (s.fEff n = 3) then bset b n true else b) 0

/-- Acknowledge one source (R442) for a path: refused and counted for one that is active or has occurred in this very cycle. -/
def State.ackOne (s : State) (path n : Nat) : State :=
  if !s.fSet n then s
  else if s.activeNow n then s.incL Obj.ACK_REFUSED_CNT
  else if s.inCycle (·.occNow) n then s.incL Obj.ACK_RACE_CNT
  else
    let s0 := s.newCycle
    let s1 : State := { s0 with fault := { s0.fault with
      status := bset s0.fault.status n false, ackNow := bset s0.fault.ackNow n true } }
    (s1.incIf (nbit (vget 0 s1.fault.changed path).toNat n) Obj.ACK_RACE_CNT).faultLevels

end Sys2Proof.Machine
end

