-- ==== Sys2Proof/Machine/AcqOps.lean ====
section
/-! DEFINITION. The Acquisition Engine's triggers and the end of a capture (R343, R347 to R352). `occ` takes the
occurrence of SCHED_PEND of the EVENT release at DONE. -/
namespace Sys2Proof.Machine

/-- Bytes of a block (R343). -/
def State.acqB (s : State) : Nat := 16 + 8 * ceilDiv (s.na Obj.ACQ_NCH * s.na Obj.ACQ_NSUB * 2) 8
/-- Blocks of the ring (R343). -/
def State.acqRcap (s : State) : Nat := 8384512 / s.acqB
/-- ACQ_DECIM. -/
def State.acqDecim (s : State) : Nat := max 1 (s.na Obj.ACQ_DECIM)
/-- First frame at or after `k` that qualifies under ACQ_DECIM (R344). -/
def State.acqQual (s : State) (k : Nat) : Nat := ceilDiv k s.acqDecim * s.acqDecim
/-- Frame of the first block of the capture (R348). -/
def State.acqFirst (s : State) : Nat :=
  if s.acq.written = 0 then s.acqQual (s.acq.armFrame + 3) else s.acq.lastFrame - s.acqDecim * (s.acq.written - 1)
/-- Frame of the oldest block kept. -/
def State.acqOldest (s : State) : Nat := s.acq.lastFrame - s.acqDecim * (min s.acq.written s.acqRcap - 1)
/-- Slot of the block of a frame already written. -/
def State.acqSlotOf (s : State) (f : Nat) : Nat :=
  (s.acq.wrSlot + s.acqRcap - 1 - ((s.acq.lastFrame - f) / s.acqDecim) % s.acqRcap) % s.acqRcap
/-- Byte of a slot in acquisition memory (R343). -/
def State.acqSlotAddr (s : State) (b : Nat) : Nat := acqAddr (4096 + b * s.acqB)


/-- S_k of a qualifying frame as TIME64, as it rang where that is kept (R351, R352). -/
def State.acqTime (s : State) (k : Nat) : Nat :=
  match s.acq.stamps.find? fun x => x.1 == k with
  | some x => x.2
  | none => s.time64 (s.tickOf k).toNat
/-- The first qualifying frame whose S_k lies at or after an origin (R350): by the ticks as they rang, beyond them by converter time. -/
def State.acqFrameAt (s : State) (origin : Nat) : Nat :=
  let later := s.acq.stamps.takeWhile fun x => decide (origin ≤ x.2)
  match later.getLast? with
  | some x => if later.length < s.acq.stamps.length then x.1 else s.acqQual (s.frameOf (s.convOf origin))
  | none => s.acqQual (s.frameOf (s.convOf origin))

/-- Trigger logged in REARM, POST and DONE (R349). -/
def State.acqLog (s : State) (code origin : Nat) : State :=
  let w := s.nl Obj.LOG_WR
  let s1 := (s.setLN (Obj.LOG_ORIGIN (2 * w)) (origin % 4294967296)).setLN (Obj.LOG_ORIGIN (2 * w + 1)) (origin / 4294967296)
  let src := s1.nl Obj.LOG_SRC
  (s1.setLN Obj.LOG_SRC (src - ((src / 16 ^ w) % 16) * 16 ^ w + code * 16 ^ w)).setLN Obj.LOG_WR ((w + 1) % 4)

/-- Entry `i` of the event list (R352): its tag. -/
def State.acqEvtTag (s : State) (i : Nat) : Nat := s.rdQ (acqAddr (64 + 16 * i))

/-- First event-list entry and count of the entries whose tags lie at or after a time (R352). -/
def State.acqEvents (s : State) (t : Nat) : Nat × Nat :=
  let n := s.acq.evtCount
  let first := (s.acq.evtNext + 252 - n) % 252
  let old := ((List.range n).takeWhile fun i => s.acqEvtTag ((first + i) % 252) < t).length
  ((first + old) % 252, n - old)

/-- The capture ends (R351): header, CAPTURE_CNT, journal record and EVENT 0x4F. -/
def acqDone (occ : State → State) (stopped overflow : Bool) (s : State) : State :=
  let a := s.acq
  let rcap := s.acqRcap
  let seq := (s.gl Obj.CAP_SEQ + 1).toNat
  let tr := a.trig
  let flags : Nat := match tr with
    | some t => t.src * 4096 + (if stopped then 64 else 0) + (if t.traceable then 0 else 32) + (if t.clamped then 16 else 0)
        + (if overflow then 8 else 0) + (if t.preShort then 4 else 0) + (if t.postClamped then 2 else 0) + 1
    | none => (if stopped then 64 else 0) + (if overflow then 8 else 0)
  let origin := match tr with | some t => t.origin | none => 0
  let tframe := match tr with | some t => t.frame | none => 0
  let ttime := match tr with | some t => t.frameTime | none => 0
  let pre := match tr with | some t => t.pre | none => 0
  let post := match tr with | some _ => a.postDone | none => 0
  let first := match tr with
    | some t => (t.slot + rcap - pre % rcap) % rcap
    | none => if rcap ≤ a.written then a.wrSlot else 0
  let oldestT := match tr with
    | some t => s.acqTime (t.frame - pre * s.acqDecim)
    | none => s.acqTime s.acqOldest
  let ev := s.acqEvents oldestT
  let s1 : State := { s with acq := { a with st := .done, fifo := [] } }
  let hdr := leBytes 4 seq ++ leBytes 4 flags ++ leBytes 8 origin ++ leBytes 8 ttime ++ leBytes 8 tframe
    ++ leBytes 4 first ++ leBytes 4 pre ++ leBytes 4 post ++ leBytes 2 s.acqB ++ leBytes 1 (s.na Obj.ACQ_NCH)
    ++ leBytes 1 (s.na Obj.ACQ_NSUB) ++ leBytes 2 s.acqDecim ++ leBytes 2 0 ++ leBytes 4 s.tf ++ leBytes 2 ev.1
    ++ leBytes 2 ev.2 ++ leBytes 4 seq
  let s2 := (s1.ownerOn 35).wrBytes (acqAddr 0) hdr
  let s3 := ((((((s2.setLN Obj.CFLAGS flags).setL64 Obj.TRIG_ORIGIN_LO origin).setL64 Obj.TRIG_FRAME_LO tframe).setLN
    Obj.FIRST_SLOT first).setLN Obj.PRE_BLOCKS pre).setLN Obj.POST_BLOCKS post).setLN Obj.CAP_SEQ seq
  releaseEvent occ 0x4F (((s3.incL Obj.CAPTURE_CNT).irqEdge 9 0).journalNow 0xD0 (w32 seq))

/-- Set BFLAGS.TRIG of the block in a slot (R344). -/
def State.acqMarkTrig (s : State) (slot : Nat) : State :=
  let a := s.acqSlotAddr slot + 4
  let t := s.ownerOn (a / 65536)
  t.wrW a (t.rdW a ||| 0x80000000)

/-- The trigger block is written and its post count reached (R351): DONE. -/
def acqCheckDone (occ : State → State) (s : State) : State :=
  match s.acq.st, s.acq.trig with
  | .post, some t =>
    if decide (0 < s.acq.written) && decide (t.frame ≤ s.acq.lastFrame) && decide (t.q ≤ s.acq.postDone) then acqDone occ false false s
    else s
  | _, _ => s

/-- A trigger of an enabled source (R349 to R351): `origin` as TIME64 in the selected domain. -/
def acqTrigger (occ : State → State) (code origin : Nat) (s : State) : State :=
  if !nbit (s.na Obj.ACQ_TRIG_SRC) code then s
  else match s.acq.st with
  | .idle => s
  | .rearm => ((s.incL Obj.TRIG_LOST_CNT).acqLog code origin).irqEdge 9 1
  | .post | .done => ((s.incL Obj.ACQ_TRIG_IGN_CNT).acqLog code origin).irqEdge 9 1
  | .pretrig =>
    let a := s.acq
    let rcap := s.acqRcap
    let at0 := s.convOf origin
    let k0 := s.acqFrameAt origin
    let low := if a.written = 0 then s.acqFirst else s.acqOldest
    let clamped := decide (k0 < low)
    let k := if clamped then low else k0
    let w := (k - s.acqFirst) / s.acqDecim
    let q0 := s.na Obj.ACQ_POST
    let pc := decide (rcap - 1 < q0)
    let q := if pc then rcap - 1 else q0
    let pre := min w (rcap - 1 - q)
    let isWritten := decide (0 < a.written) && decide (k ≤ a.lastFrame)
    let present := if isWritten then (a.lastFrame - k) / s.acqDecim else 0
    let slot := if isWritten then s.acqSlotOf k
      else (a.wrSlot + (if a.written = 0 then (k - s.acqFirst) / s.acqDecim else (k - a.lastFrame) / s.acqDecim - 1)) % rcap
    let ft := s.acqTime k
    let t : AcqTrig := { src := code, origin := origin, frame := k, slot := slot, pre := pre, q := q, clamped := clamped,
                         postClamped := pc, preShort := decide (pre < rcap - 1 - q), traceable := s.traceAt at0.toNat,
                         frameTime := ft }
    let s1 : State := { s with acq := { a with st := .post, trig := some t, postDone := present } }
    let s2 := if isWritten then s1.acqMarkTrig slot else s1
    acqCheckDone occ s2

end Sys2Proof.Machine
end

