-- ==== Sys2Proof/Machine/Safe.lean ====
section
/-! DEFINITION. Entry to SAFE (R45) with what it starts: block couriers (R147 to R149), trips of Local PWM pairs (R380,
R381), the end of force sets (R204), the acquisition trigger (R350) and the clearing of the permits (R400). Then every
occurrence of a fault source, which a C3 latch turns into SAFE entry (R440). -/
namespace Sys2Proof.Machine

/-! ### Couriers (R147 to R149) -/

/-- A Waljor lane is in DATA. -/
def State.inData (s : State) (n : Nat) : Bool := decide ((s.lane n).st = .data)

/-- Put a courier request on a lane (R148): a BLOCK request removes queued HOLD and RELEASE_HOLD requests, and a lane that
is not in DATA drops it. -/
def State.queueCourier (s : State) (c : Courier) (n : Nat) : State :=
  if s.inData n then
    let q := vget [] s.launch.queue n
    let q1 := if c.kind = .block then q.filter fun x => x.kind == .block else q
    { s with launch := { s.launch with queue := vset s.launch.queue n (q1 ++ [c]) } }
  else s

/-- First slot built after an event of this instant (R149, R206): k + P before D_k, else k + P + 1. -/
def State.nextSlot (s : State) : Nat := s.frame.count + s.p + b2n s.frame.cut

/-- Request a block courier on every lane in DATA with two repetitions (R149). A device of role STANDBY sends only those
of the Watchtower; the trigger counts all the same (R161). `edge` is the filter-input stamp of a trip, whose courier is measured
(R153). -/
def State.blockCourier (s : State) (wt : Bool) (edge : Option Nat) : State :=
  if s.pair.role = .standby ∧ wt = false then s.incL Obj.BLOCK_COURIER_CNT
  else
    let c : Courier := { kind := .block, wtOrigin := wt, epoch := s.pair.epoch,
                         blkSlot := BitVec.ofNat 24 (s.pairFrame s.nextSlot), holdLimit := 0, fromReq := false,
                         edge := edge }
    let s1 := s.each (List.range 32) fun s n => s.queueCourier c n
    let s2 : State := if s1.launch.reqLanes ≠ 0 then
        { s1.setLN Obj.COURIER_REQ_RESULT 4 with launch := { s1.launch with reqLanes := 0, reqLeft := false } }
      else s1
    let lanes := BitVec.ofNat 32 ((idxs 32 s2.inData).foldl (fun x n => x + 2 ^ n) 0)
    ({ s2 with launch := { s2.launch with
        repeats := s2.launch.repeats ++ [(c, 2, s2.frame.count)]
        trips := match edge with
          | some e => if lanes = 0 then s2.launch.trips else s2.launch.trips ++ [({ edge := e, lanes := lanes, last := 0 } : TripMeas)]
          | none => s2.launch.trips } }).incL
      Obj.BLOCK_COURIER_CNT

/-! ### Local PWM trips (R380, R381) -/

/-- The pair is tripped now (R380): by a latch its active TRIP_MAP names, or by SAFE with SAFE_TRIP, from the trigger on; in BOOT that is
a demand of the Watchtower (R390). -/
def State.pairTripped (s : State) (p : Nat) : Bool :=
  decide (s.ga (Obj.TRIP_MAP p) &&& (s.pwm.latch.zeroExtend 32) ≠ 0) ||
  (nbit (s.pwmPair p).cfg.toNat 5 && (decide (s.mode = .safe) || (decide (s.mode = .boot) && s.fault.bootSbk)))

/-- The pair drives its outputs: enabled and running. -/
def PwmPair.live (x : PwmPair) : Bool := x.running && nbit x.cfg.toNat 0

/-- The outputs move to TRIP_STATE (R381). -/
def PwmPair.toTrip (x : PwmPair) (ts : Nat) : PwmPair :=
  if ts = 1 then
    if x.lOn then
      (if x.deadTime = 0 then { x with held := true, lOn := false, hOn := true, dtL := false, dtH := false }
       else { x with held := true, lOn := false, hOn := false, dtL := false, dtH := true })
    else { x with held := true, hOn := true, lOn := false, dtH := false, dtL := false }
  else if ts = 2 then
    if x.hOn then
      (if x.deadTime = 0 then { x with held := true, hOn := false, lOn := true, dtL := false, dtH := false }
       else { x with held := true, lOn := false, hOn := false, dtH := false, dtL := true })
    else { x with held := true, lOn := true, hOn := false, dtH := false, dtL := false }
  else { x with held := true, hOn := false, lOn := false, dtH := false, dtL := false }

/-- A pair's new outputs: a dead-time count that begins is stamped. -/
def State.putPair (s : State) (p : Nat) (x : PwmPair) : State :=
  let o := s.pwmPair p
  s.setPair p { x with dtAt := if (x.dtH && !o.dtH) || (x.dtL && !o.dtL) then s.nowL else x.dtAt }

/-- A pair that holds a trip is in TRIP_STATE, or on the way there. -/
def PwmPair.inTrip (x : PwmPair) (ts : Nat) : Bool :=
  x.held && ((x.hOn || x.dtH) == decide (ts = 1)) && ((x.lOn || x.dtL) == decide (ts = 2))

/-- TRIP_STATE of a pair (R386). -/
def State.tripState (s : State) (p : Nat) : Nat := fld (s.ga (Obj.PAIR_CFG p)) 9 8

/-- Pairs that a trip reaches take TRIP_STATE, or another one that a commit has set (R380, R381, R384). -/
def State.applyTrips (s : State) : State :=
  s.each (List.range 16) fun s p =>
    let x := s.pwmPair p
    if s.pairTripped p && x.live && !x.inTrip (s.tripState p) then s.putPair p (x.toTrip (s.tripState p)) else s

/-! ### Forces and permits -/

/-- Clear an arm's armed and deferred sets because of the mode (R204). -/
def State.clearForce (s : State) (a : Nat) : State :=
  let x := s.arm a
  if x.armed.isSome || x.deferred.isSome then
    (s.setArm a { x with armed := none, deferred := none, armedFresh := false }).setLN (Obj.FORCE_RESULT a) 7
  else s

/-- DEBUG_PERMIT is cleared (R400): supervision of the heartbeat resumes from this instant. -/
def State.clearDebug (s : State) : State :=
  if s.wt.debugPermit then
    (({ s with wt := { s.wt with debugPermit := false, hbSuspended := false, hbLast := none } }).setK Obj.DEBUG_PERMIT 0).irqEdge 11 4
  else s

/-- TEST_PERMIT is cleared (R400), and DEBUG_PERMIT with it. -/
def State.clearTest (s : State) : State :=
  (if s.wt.testPermit then
    (({ s with wt := { s.wt with testPermit := false, testEntered := false } }).setK Obj.TEST_PERMIT 0).irqEdge 11 4
  else s).clearDebug

/-! ### Entry to SAFE -/

/-- The mode changes at this instant (R44): MODE_CAUSE, the entry frame, the journal record and the cause tree. Leaving TEST
clears the permits (R400). -/
def State.setMode (s : State) (m : Mode) (cause : Nat) : State :=
  let old := s.mode
  let s1 : State := { s with mode := m, modes := { s.modes with readyRun := 0 } }
  let s2 := (s1.setLN Obj.MODE_CAUSE cause).setL64 Obj.MODE_ENTRY_FRAME_LO s1.frame.count
  let s3 := ((s2.journalNow 0x0100 (w32 (cause * 65536 + old.code * 256 + m.code))).irqEdge 2 5).wakeAll
  if old = .test ∧ m ≠ .test ∧ s3.wt.testEntered then s3.clearTest else s3

/-- SAFE_BLK_A and SAFE_BLK_B follow R388. -/
def State.safeOutputs (s : State) : State :=
  let on := decide (s.wt.sbkCause ≠ 0) || s.wt.fault || decide (s.mode = .boot) || decide (s.mode = .safe)
  { s with wt := { s.wt with outA := on, outB := on } }

/-- The ball of SAFE_BLK_A or SAFE_BLK_B as the S9 drives it (R388): undriven while VDD_SAFE is out of range. -/
def State.safeBlk (s : State) (chanB : Bool) : Option Bool :=
  if s.power.safeOut then none else some (if chanB then s.wt.outB else s.wt.outA)

/-- SAFE is entered (R45). -/
def State.enterSafe (s : State) (cause : Nat) (wt : Bool) (edge : Option Nat) : State :=
  let s1 := s.setMode .safe cause
  let s2 : State := { s1 with modes := { s1.modes with acked := false, safeNew := true } }
  let s3 := ((s2.incL Obj.SAFE_ENTRY_CNT).safeOutputs).blockCourier wt edge
  let s4 := (s3.each (List.range 12) State.clearForce).applyTrips
  acqTrigger schedPend0 6 (s4.time64 s4.nowC) s4

/-- A SAFE trigger in BOOT: SAFE follows at S_0 (R440). A demand of the Watchtower sends its courier and trips its pairs now (R390). -/
def State.safeInBoot (s : State) (wt : Bool) (edge : Option Nat) : State :=
  if wt then (({ s with fault := { s.fault with bootSbk := true } } : State).blockCourier true edge).applyTrips
  else { s with fault := { s.fault with bootC3 := true } }

/-- A SAFE trigger (R45). In SAFE only a Watchtower demand requests a courier; one that comes while D_k is being worked off acts after it,
the first of them (R225). -/
def State.safeEntry (s : State) (cause : Nat) (wt : Bool) (edge : Option Nat) : State :=
  if s.mode = .safe then (if wt then s.blockCourier true edge else s)
  else if s.mode = .boot then s.safeInBoot wt edge
  else if s.frame.cutting then { s with fault := { s.fault with safeHeld := some (s.fault.safeHeld.getD cause) } }
  else s.enterSafe cause wt edge

/-- After an occurrence: a source newly set with effective class C3 enters SAFE with MODE_CAUSE 4 (R440), or 8 for
RT_TIMEOUT, which only RIDETHROUGH raises and where nothing can force it (R51, R71, R443). -/
def reactC3 (s0 s1 : State) : State :=
  let new := s1.c3Set &&& ~~~ s0.c3Set
  if new = 0 then s1 else s1.safeEntry (if new = 0x80000 ∧ s0.mode = .ridethrough then 8 else 4) false none

/-- An occurrence of a fault source with a given base class, resource and test (R439 to R441). -/
def State.raiseAs (s : State) (n base res : Nat) (t : TestCode) : State := reactC3 s (s.raise0 n base res t false)

/-- An occurrence of a fault source whose class FAULT_CLASS gives and which starts no test. -/
def State.raise (s : State) (n : Nat) : State := s.raiseAs n (s.faultClass n) 0 .n

/-- An occurrence when the condition holds. -/
def State.raiseIf (s : State) (c : Bool) (n : Nat) : State := if c then s.raise n else s

/-- A journal record, with SAFE entry should JOURNAL_FULL latch at C3. -/
def State.journal (s : State) (src : Nat) (data : Word) (cont : Bool := false) : State :=
  reactC3 s (s.journalNow src data cont)

/-- An EVENT source occurs (R276). -/
def State.event (s : State) (src : Nat) : State :=
  releaseEvent (fun s => s.raise 53) src s

/-- The condition of a type-L source becomes `c` (R438, R439): its start is one occurrence. -/
def State.faultLevel (s : State) (n : Nat) (c : Bool) : State :=
  let was := s.fActive n
  let s1 : State := { s with fault := { s.fault with active := bset s.fault.active n c } }
  if c && !was then s1.raise n else s1

end Sys2Proof.Machine
end

