-- ==== Sys2Proof/Machine/DictW.lean ====
section
/-! DEFINITION. A write to an object on any path (R7, R8, R480, R481, R532): the checks in their order, and the report of
the outcome. The effect of a write is a function from the state to the new state and a reason of R480, 0 for done. -/
namespace Sys2Proof.Machine

/-- Outcome of an access: the state, and the reason of R480 (0 done). -/
abbrev WOut := State × Nat

/-- Number of a path's latches: 0 Host Port, 1 field network, 2 Cupola (R9). Process data goes through the field network's (log entry
108). -/
def pathNum (p : Path) : Nat :=
  match p with
  | .host => 0
  | .mailbox | .processData => 1
  | .cupola _ => 2

/-- Host Port byte address of an object (R10). -/
def keyAddr (key : Nat) : Nat := (key / 256 - 0x2000) * 256 + (key % 256) * 4

/-- Key of the object at a Host Port byte address below the tables (R10). -/
def addrKey (addr : Nat) : Nat := (0x2000 + addr / 256) * 256 + (addr % 256) / 4

/-- SDO abort code of a refusal (R480). -/
def abortCode (key reason : Nat) : Word :=
  match reason with
  | 1 => 0x06010002
  | 2 => if (findIndex (key / 256) dictRows).isSome then 0x06090011 else 0x06020000
  | 3 => 0x06090030
  | 4 => 0x08000021
  | 5 => 0x08000020
  | 6 => 0x08000022
  | 7 => 0x06070010
  | 8 => 0x06070010
  | 9 => 0x06040041
  | 10 => 0x06040042
  | _ => 0

/-- DICT_RESULT of a refusal (R265, R480). -/
def dictCode (reason : Nat) : Nat :=
  match reason with
  | 0 => 0
  | 1 => 1
  | 2 => 3
  | 4 => 2
  | 5 => 5
  | 8 => 1
  | _ => 4

/-- Host Port reason of an internal reason: the mapping refusals 9 and 10 of R494 are refusals of the value. -/
def hostReason (reason : Nat) : Nat := if reason = 9 ∨ reason = 10 then 3 else reason

/-- A mailbox response waits for the master. -/
def State.respond (s : State) (r : SdoResp) : State :=
  { s with dict := { s.dict with responses := s.dict.responses ++ [r] } }

/-- The SDO is answered with an abort code (R480). -/
def State.abort (s : State) (code : Word) : State := (s.incL Obj.SDO_ABORT_CNT).respond (.abort code)

/-- DICT_RESULT of an engine (R265). -/
def State.setDictResult (s : State) (e : Nat) (v : Nat) : State :=
  s.setEng e { s.eng e with dictResult := w32 v }

/-- A refused Host Port write is counted, with its byte address (R480, R502). -/
def State.hostRefuse (s : State) (addr reason : Nat) : State :=
  (s.incL Obj.HP_WR_REFUSE_CNT).setLN Obj.HP_LAST_REFUSE (hostReason reason * 16777216 + addr % 4194304)

/-- A Host Port write has retired (R484): HP_FENCE counts it, refused or not. -/
def State.hostRetire (s : State) : State := { s with dict := { s.dict with fence := s.dict.fence + 1 } }

/-- The path's report of a write (R480). -/
def State.report (s : State) (p : Path) (key reason : Nat) : State :=
  match p with
  | .host => (if reason = 0 then s else s.hostRefuse (keyAddr key) reason).hostRetire
  | .mailbox =>
    let s1 := s.incL Obj.SDO_CNT
    if reason = 0 then s1.respond (.downloaded (key / 256) (key % 256)) else s1.abort (abortCode key reason)
  | .processData => if reason = 0 then s else s.incL Obj.PD_REFUSE_CNT
  | .cupola e => s.setDictResult e (dictCode reason)

/-- The checks that every write of a scalar object passes (R7, R66, R481, R532), in this order: R66 refuses every write to a staged object
outside OPEN, whatever its value. The safety write sequence checks a value of class K
itself (R402). -/
def State.checkWrite (s : State) (key : Nat) (v : Word) : Nat :=
  match rowOf key with
  | none => 2
  | some (r, _, _) =>
    if r.acc = .ro then 1
    else if r.ty = .domain then 8
    else if r.cls = .k then 0
    else if r.cls = .s ∧ s.commit.st ≠ .opened then 5
    else if !(r.ty.fits v) then 3
    else if !(r.rng.ok (v &&& w32 r.bits)) then 3
    else 0

/-- The bits of a written word that are not reserved (R4). -/
def keepBits (key : Nat) (v : Word) : Word :=
  match rowOf key with
  | none => v
  | some (r, _, _) => v &&& w32 r.bits

/-- An object of ADC-B (R369), refused while the Watchtower claims the converter (R368). -/
def isAdcB (key : Nat) : Bool := [0x2A02, 0x2A04, 0x2A06, 0x2A08, 0x2A0A].contains (key / 256)

/-- The Watchtower's claim of ADC-B refuses a write to this object (R368). -/
def State.claims (s : State) (key : Nat) : Bool := s.adc.claimed && isAdcB key

/-- A write to an ADC-B object is refused for a reason while the Watchtower claims the converter (R368). -/
def State.countClaim (s : State) (key reason : Nat) : State := s.incIf (s.claims key && decide (reason ≠ 2)) Obj.CLAIM_REFUSED_CNT

/-- A write that passed its checks takes its effect; a write to a staged object outside OPEN is counted (R66), and so is every write to
an ADC-B object that the Watchtower claims (R368). -/
def State.tryWrite (s : State) (key : Nat) (v : Word) (eff : State → WOut) : WOut :=
  let r := s.checkWrite key v
  if decide (r = 0) && !s.claims key then eff s
  else ((s.incIf (decide (r = 5)) Obj.STAGE_WRITE_REFUSED_CNT).countClaim key r,
    if r = 0 then 6 else r)

/-- A write on a path: checks, effect, report. Nothing is served while RESET_N is low. -/
def State.guardWrite (s : State) (p : Path) (key : Nat) (v : Word) (eff : State → WOut) : State :=
  if s.boot.resetLow then s
  else
    let r := s.tryWrite key v eff
    r.1.report p key r.2

/-- The effect of a write is done. -/
def done (s : State) : WOut := (s, 0)

/-- The effect of a write is refused by the owning chapter (R480, reason 6). -/
def refused6 (s : State) : WOut := (s, 6)

end Sys2Proof.Machine
end

