-- ==== Sys2Proof/Machine/Wide.lean ====
section
/-! DEFINITION. The 64-bit latches of the access paths (R9): reading a low half latches the high half, writing a low half
holds it, writing the high half applies both. -/
namespace Sys2Proof.Machine

/-- The low halves of the 64-bit objects, single ones: the high half is the next sub (R9). -/
def wideKeys : List Nat :=
  [0x210001, 0x200005, 0x200106, 0x22A605, 0x268802, 0x27050D, 0x280101, 0x280103, 0x280105, 0x283008, 0x287602, 0x290303,
   0x290305, 0x290501, 0x290503, 0x290505, 0x290507, 0x2C0103, 0x2D0001, 0x2D0003, 0x2D0005, 0x2D0007, 0x2D0105, 0x303002]

/-- The object is the low half of a 64-bit object: those of `wideKeys`, and PRBS_BITS, the engine counters, and the domains' time,
grandmaster and step, and the tags of the phasor channels. -/
def wideLow (k : Nat) : Bool :=
  wideKeys.contains k
  || (decide (0x2200 ≤ k / 256 ∧ k / 256 < 0x2226) && decide (k % 256 = 7))
  || (decide (0x2610 ≤ k / 256 ∧ k / 256 < 0x2618) && decide (k % 256 = 2 ∨ k % 256 = 4 ∨ k % 256 = 6))
  || (decide (0x2820 ≤ k / 256 ∧ k / 256 < 0x2822) && decide (k % 256 = 3 ∨ k % 256 = 8 ∨ k % 256 = 0x12))
  || (decide (0x2850 ≤ k / 256 ∧ k / 256 < 0x2868) && decide (k % 256 = 3))

/-- The object is the high half of a 64-bit object. -/
def wideHigh (k : Nat) : Bool := decide (0 < k) && wideLow (k - 1)

/-- A path's latch. -/
def State.wideOf (s : State) (p : Path) : WideLatch := vget { read := none, write := none, prbsErr := none } s.dict.wide (pathNum p)
def State.setWide (s : State) (p : Path) (w : WideLatch) : State :=
  { s with dict := { s.dict with wide := vset s.dict.wide (pathNum p) w } }

/-- The low half written is held (R9). -/
def State.holdLow (s : State) (p : Path) (key : Nat) (v : Word) : State :=
  s.setWide p { s.wideOf p with write := some (key, v) }

/-- The low half that a write of the high half applies: the one held, else the object's current one. -/
def State.lowHeld (s : State) (p : Path) (key : Nat) (cur : Word) : Word :=
  match (s.wideOf p).write with
  | some (k, v) => if k = key then v else cur
  | none => cur

/-- The held low half has been used. -/
def State.dropLow (s : State) (p : Path) : State := s.setWide p { s.wideOf p with write := none }

/-- A path's latch of a high half: each engine has its own (R259). -/
def State.readLatch (s : State) (p : Path) : Option (Nat × Word) :=
  match p with
  | .cupola e => (s.eng e).r.latch
  | _ => (s.wideOf p).read
def State.setReadLatch (s : State) (p : Path) (x : Option (Nat × Word)) : State :=
  match p with
  | .cupola e => let g := s.eng e; s.setEng e { g with r := { g.r with latch := x } }
  | _ => s.setWide p { s.wideOf p with read := x }

/-- Reading the low half latches the high half as it stands (R9). -/
def State.latchHigh (s : State) (p : Path) (keyHi : Nat) (hi : Word) : State := s.setReadLatch p (some (keyHi, hi))

/-- What a read of the high half returns: the latched value, else the current one. -/
def State.highRead (s : State) (p : Path) (keyHi : Nat) (cur : Word) : Word :=
  match s.readLatch p with
  | some (k, v) => if k = keyHi then v else cur
  | none => cur

/-- The read of the high half uses the latched value up (R9). -/
def State.useHigh (s : State) (p : Path) (k : Nat) : State :=
  if (s.readLatch p).any fun x => x.1 == k then s.setReadLatch p none else s

end Sys2Proof.Machine
end

