-- ==== Sys2Proof/Machine/WtOps.lean ====
section
/-! DEFINITION. The Watchtower's causes (R389, R390), its supervised quantities (R394 to R398), permits (R400), and the reset
of the safe-block latch (R391). -/
namespace Sys2Proof.Machine

/-! ### Causes (R390) -/

/-- SBK_DEMAND and WT_SBK follow the latch, WT_SBK's occurrence excepted. -/
def State.sbkLevels (s : State) : State :=
  let c := decide (s.wt.sbkCause ≠ 0)
  let s1 := s.irqLevel 11 0 c
  { s1 with fault := { s1.fault with active := bset s1.fault.active 30 c } }

/-- A cause arises (R390): latched, both outputs asserted, WT_SBK raised, then SAFE entry with MODE_CAUSE 5. -/
def State.sbkDemand (s : State) (b : Nat) (edge : Option Nat) : State :=
  let was := s.fActive 30
  let s1 : State := { s with wt := { s.wt with sbkCause := bset s.wt.sbkCause b true } }
  let s2 := (s1.incL Obj.SBK_CNT).safeOutputs.sbkLevels
  let s3 := if was then s2 else s2.raise0 30 3 0 .n false
  s3.safeEntry 5 true edge

/-- The condition of a cause is present or not (SBK_ACTIVE); its start is the cause. -/
def State.cause (s : State) (b : Nat) (present : Bool) (edge : Option Nat := none) : State :=
  let was := nbit s.wt.sbkActive.toNat b
  let s1 : State := { s with wt := { s.wt with sbkActive := bset s.wt.sbkActive b present } }
  if present && !was then s1.sbkDemand b edge else s1

/-- A violation that is only reported (R392). -/
def State.wtWarn (s : State) : State := s.raise 32

/-- The Watchtower enters WT_FAULT (R389): left only by RESET_N. -/
def State.wtFail (s : State) (code : Nat) : State :=
  if s.wt.fault then s
  else
    let s1 : State := { s with wt := { s.wt with fault := true, faultCode := code } }
    let s2 := s1.safeOutputs.irqLevel 11 1 true
    let s3 : State := { s2 with fault := { s2.fault with active := bset s2.fault.active 31 true } }
    (s3.raise0 31 3 0 .n false).cause 15 true

/-- The reset of the latch (R391): answers whether it was accepted. -/
def State.sbkReset (s : State) : State × Bool :=
  if s.wt.sbkActive ≠ 0 then (s.incL Obj.SBK_RESET_REFUSED_CNT, false)
  else
    let s1 : State := { s with wt := { s.wt with sbkCause := 0 } }
    (s1.safeOutputs.sbkLevels, true)

/-! ### Channels -/

def State.slvEnabled (s : State) (v : Nat) : Bool := decide (s.nk (Obj.SLV_REACT v) ≠ 0)

/-- VDC_WT in 0.1 kV (R396). -/
def State.vdcWt (s : State) : Nat :=
  let on := idxs 4 s.slvEnabled
  let get (v : Nat) := [vget none s.wt.slvReading v, vget none s.wt.slvAdc v].filterMap id
  if on.isEmpty || on.any (fun v => (get v).isEmpty) then 0xFFFF
  else (on.flatMap get).foldl max 0

/-- TEST_PERMIT's own conditions on the voltage fail (R400). -/
def State.vdcHigh (s : State) : Bool := decide (s.nk Obj.TEST_VDC_MAX ≤ s.vdcWt)

/-- In TEST a cleared permit or a voltage at its limit enters SAFE (R53). -/
def State.testLimit (s : State) : State :=
  if s.mode = .test ∧ (s.wt.testPermit = false ∨ s.vdcHigh) then s.safeEntry 7 false none else s

/-- The Watchtower clears TEST_PERMIT when the voltage reaches its limit (R400). -/
def State.vdcCheck (s : State) : State := (if s.wt.testPermit && s.vdcHigh then s.clearTest else s).testLimit

/-- Absolute value of a sample. -/
def absN (x : Int) : Nat := x.natAbs

/-- Saturating run: one more violation, or none. -/
def runOf (n : Nat) (bad : Bool) : Nat := if bad then n + 1 else 0

/-- The condition of cause SLC (R395): some channel that reacts with SBK is in violation. -/
def State.slcPresent (s : State) : Bool :=
  (List.range 12).any fun a => decide (s.nk (Obj.SLC_REACT a) = 2) && decide (s.nk (Obj.SLC_COUNT a) ≤ vget 0 s.wt.slcRun a)
/-- The condition of cause SLV (R396). -/
def State.slvPresent (s : State) : Bool :=
  (List.range 4).any fun v => decide (s.nk (Obj.SLV_REACT v) = 2) &&
    (decide (s.nk (Obj.SLV_COUNT v) ≤ vget 0 s.wt.slvRun v) || decide (s.nk (Obj.SLV_COUNT v) ≤ vget 0 s.wt.slvAdcRun v))
/-- The condition of cause SDI (R397). -/
def State.sdiPresent (s : State) : Bool :=
  (List.range 4).any fun i => decide (s.nk (Obj.SDI_REACT i) = 2) && decide (s.nk (Obj.SDI_COUNT i) ≤ vget 0 s.wt.sdiRun i)

/-- A run has just become a violation of a channel that only reports (R392). -/
def newWarn (react count old new : Nat) : Bool := decide (react = 1) && decide (old < count) && decide (count ≤ new)

/-- SLC of one arm for one sample (R395). -/
def State.slcSample (s : State) (stream : Nat) (x : Int) (a : Nat) : State :=
  if s.nk (Obj.SLC_STREAM a) = stream ∧ s.nk (Obj.SLC_REACT a) ≠ 0 then
    let old := vget 0 s.wt.slcRun a
    let new := runOf old (decide (s.ik (Obj.SLC_LIMIT a) < (absN x : Int)))
    let s1 : State := { s with wt := { s.wt with slcRun := vset s.wt.slcRun a new } }
    if newWarn (s.nk (Obj.SLC_REACT a)) (s.nk (Obj.SLC_COUNT a)) old new then s1.wtWarn else s1
  else s

/-- SLV of one channel for one stream sample (R396). -/
def State.slvSample (s : State) (stream : Nat) (x : Int) (v : Nat) : State :=
  if s.nk (Obj.SLV_STREAM v) = stream ∧ s.slvEnabled v then
    let r := absN x * s.nk (Obj.SLV_FS_STREAM v) / 32768
    let old := vget 0 s.wt.slvRun v
    let new := runOf old (decide (s.nk (Obj.SLV_MAX v) < r))
    let s1 : State := { s with wt := { s.wt with slvRun := vset s.wt.slvRun v new, slvReading := vset s.wt.slvReading v (some r) } }
    if newWarn (s.nk (Obj.SLV_REACT v)) (s.nk (Obj.SLV_COUNT v)) old new then s1.wtWarn else s1
  else s

/-- SDI of one channel for one sample (R397). -/
def State.sdiSample (s : State) (stream : Nat) (x : Int) (i : Nat) : State :=
  if s.nk (Obj.SDI_STREAM i) = stream ∧ s.nk (Obj.SDI_REACT i) ≠ 0 then
    let y := if s.nk (Obj.SDI_DIR i) = 1 then -x else x
    let old := vget 0 s.wt.sdiRun i
    let new := runOf old (decide (y < -(s.ik (Obj.SDI_DEADBAND i))))
    let s1 : State := { s with wt := { s.wt with sdiRun := vset s.wt.sdiRun i new } }
    if newWarn (s.nk (Obj.SDI_REACT i)) (s.nk (Obj.SDI_COUNT i)) old new then s1.wtWarn else s1
  else s

/-- Causes SLC, SLV and SDI follow their channels, and the permits follow the voltage. -/
def State.wtChannels (s : State) : State :=
  (((s.cause 4 s.slcPresent).cause 5 s.slvPresent).cause 7 s.sdiPresent).vdcCheck

/-- One sample of a stream passes SLC, SLV and SDI (R394 to R397). -/
def State.wtSample (s : State) (stream : Nat) (x : Int) : State :=
  let s1 := s.each (List.range 12) fun s a => s.slcSample stream x a
  let s2 := s1.each (List.range 4) fun s v => s.slvSample stream x v
  (s2.each (List.range 4) fun s i => s.sdiSample stream x i).wtChannels

/-- A stream that some channel with REACT 2 names (R394). -/
def State.reacts2 (s : State) (stream : Nat) : Bool :=
  ((List.range 12).any fun a => decide (s.nk (Obj.SLC_STREAM a) = stream) && decide (s.nk (Obj.SLC_REACT a) = 2)) ||
  ((List.range 4).any fun v => decide (s.nk (Obj.SLV_STREAM v) = stream) && decide (s.nk (Obj.SLV_REACT v) = 2)) ||
  ((List.range 4).any fun i => decide (s.nk (Obj.SDI_STREAM i) = stream) && decide (s.nk (Obj.SDI_REACT i) = 2))

/-- Frames in a row in which a stream was lost. -/
def State.lostFrames (s : State) (stream : Nat) : Nat := tget (fun _ => 0) s.wt.lostRun stream

/-- The condition of cause MEAS_LOST for one stream (R394). -/
def State.streamLost (s : State) (stream : Nat) : Bool :=
  nbit (s.nk Obj.WT_FUNC_EN) 2 && s.wt.supervised.contains stream && s.reacts2 stream
    && decide (s.nk Obj.MEAS_LOSS_FRAMES ≤ s.lostFrames stream)

/-- The condition of cause SLV_DISC (R396). -/
def State.slvDiscPresent (s : State) : Bool :=
  (List.range 4).any fun v => nbit s.wt.slvHeld.toNat v && decide (s.nk (Obj.SLV_REACT v) = 2)

/-- An ADC-B result while claimed (R396): every channel that names the input. `q` is the result as Q31. -/
def State.slvAdcSample (s : State) (input : Nat) (q : Int) : State :=
  let s1 := s.each (idxs 4 fun v => decide (s.nk (Obj.SLV_ADC_IN v) = input) && s.slvEnabled v) fun s v =>
    let r := absN q * s.nk (Obj.SLV_FS_ADC v) / 2147483648
    let old := vget 0 s.wt.slvAdcRun v
    let new := runOf old (decide (s.nk (Obj.SLV_MAX v) < r))
    let far : Bool := match vget none s.wt.slvReading v with
      | some x => decide (s.nk (Obj.SLV_DISC v) < (if x ≤ r then r - x else x - r))
      | none => false
    let s2 : State := { s with wt := { s.wt with
      slvAdcRun := vset s.wt.slvAdcRun v new, slvAdc := vset s.wt.slvAdc v (some r), slvDisc := bset s.wt.slvDisc v far
      slvHeld := bset s.wt.slvHeld v (far && nbit s.wt.slvHeld.toNat v), slvAt := vset s.wt.slvAt v s.nowL } }
    if newWarn (s.nk (Obj.SLV_REACT v)) (s.nk (Obj.SLV_COUNT v)) old new then s2.wtWarn else s2
  (s1.cause 6 s1.slvDiscPresent).wtChannels

/-- Whether the Watchtower claims ADC-B (R396), and the inputs it converts. -/
def State.claimInputs (s : State) : List Nat :=
  idxs 8 fun i => (List.range 4).any fun v => s.slvEnabled v && decide (s.nk (Obj.SLV_ADC_IN v) = i)

/-- No ADC-B result has come for a channel that the Watchtower converts, for SLV_DISC_US (R387). -/
def State.slvAbsent (s : State) (v : Nat) : Bool :=
  s.adc.claimed && s.slvEnabled v && decide (s.nk (Obj.SLV_ADC_IN v) ≤ 7)
    && decide (vget 0 s.wt.slvAt v + 1000 * s.nk (Obj.SLV_DISC_US v) ≤ s.nowL)

/-- The object with one of `n` keys from `base` on has changed in the Watchtower's copy since `o`. -/
def State.kDiffers (s o : State) (base n : Nat) : Bool := (List.range n).any fun j => decide (o.gk (base + j) ≠ s.gk (base + j))

/-- The condition of cause SLS (R398). -/
def State.slsPresent (s : State) : Bool :=
  decide (s.nk Obj.SLS_REACT = 2) && (List.range 2).any fun i => decide (s.nk Obj.SLS_COUNT ≤ (vget ⟨none, none, 0⟩ s.wt.sls i).run)

/-- Consecutive counts of each function whose settings a commit has changed restart at 0 (R410). `o` is the state before. -/
def State.wtRestart (s o : State) : State :=
  { s with wt := { s.wt with
      slcRun := Vector.ofFn fun a => if s.kDiffers o (Obj.SLC_STREAM a) 4 then 0 else s.wt.slcRun[a]
      slvRun := Vector.ofFn fun v => if s.kDiffers o (Obj.SLV_STREAM v) 9 then 0 else s.wt.slvRun[v]
      slvAdcRun := Vector.ofFn fun v => if s.kDiffers o (Obj.SLV_STREAM v) 9 then 0 else s.wt.slvAdcRun[v]
      sdiRun := Vector.ofFn fun i => if s.kDiffers o (Obj.SDI_STREAM i) 5 then 0 else s.wt.sdiRun[i]
      sls := if s.kDiffers o Obj.SLS_MIN_PERIOD_NS 6 then s.wt.sls.map fun x => { x with run := 0 } else s.wt.sls
      lostRun := if s.kDiffers o Obj.WT_FUNC_EN 3 then [] else s.wt.lostRun } }

/-- At S_k the frame that ends is judged for every supervised stream (R394). -/
def State.wtFrame (s : State) (k : Nat) : State :=
  let all := idxs 64 s.reacts2
  let sup := if 1024 ≤ k then all ++ s.wt.supervised.filter (fun x => !all.contains x) else s.wt.supervised
  let runs := s.wt.supervised.foldl (fun t x =>
    tput (fun _ => 0) t x (if s.wt.seen.contains x then 0 else tget (fun _ => 0) t x + 1)) s.wt.lostRun
  { s with wt := { s.wt with lostRun := runs, supervised := sup, seen := [] } }

/-- The heartbeat of frame k reaches the Watchtower (R399). -/
def State.heartbeat (s : State) (k : Nat) : State :=
  let v := k % 16
  let ok := match s.wt.hbLast with
    | none => true
    | some x => decide ((x + 1) % 16 = v)
  let s1 : State := { s with wt := { s.wt with hbLast := some v, hbTimeout := s.wt.hbTimeout && !ok } }
  if ok then s1.cause 11 false else s1

/-! ### Safe-data connections (R404 to R408) -/

/-- CONN_CFG of the active copy. -/
def State.connEn (s : State) (c : Nat) : Bool := nbit (s.nk (Obj.CONN_CFG c)) 31
def State.connTx (s : State) (c : Nat) : Bool := nbit (s.nk (Obj.CONN_CFG c)) 30
def State.connPar (s : State) (c : Nat) : Bool := nbit (s.nk (Obj.CONN_CFG c)) 29
def State.connReact (s : State) (c : Nat) : Bool := nbit (s.nk (Obj.CONN_CFG c)) 28
def State.connWin (s : State) (c : Nat) : Nat := fld (s.gk (Obj.CONN_CFG c)) 23 20
/-- An enabled RX connection whose failure is SD_FAIL. -/
def State.connRx1 (s : State) (c : Nat) : Bool := s.connEn c && !s.connTx c && s.connReact c

/-- The CONN_ID in force: the copy in the secure bank (R411, R457). -/
def State.connId (s : State) (c : Nat) : Word := s.rdW (secAddr (0x100 + 4 * c))

/-- SD_READY (R412): every enabled RX connection with REACT = 1 is in RUN. -/
def State.sdReady (s : State) : Bool := (idxs 64 s.connRx1).all fun c => decide ((s.conn c).st = .run)

/-- Causes SD_CMD and SD_FAIL follow the connections (R405, R406). -/
def State.sdCauses (s : State) : State :=
  let cmd := (List.range 64).any fun c => s.connEn c && !s.connTx c && nbit (vget 0 (s.conn c).rxData 0).toNat 0
  let fail := (List.range 64).any fun c => s.connRx1 c && decide ((s.conn c).st = .failed)
  (s.cause 13 cmd).cause 12 fail

/-- At S_0 and at a commit the connections follow CONN_CFG: an enabled one starts in WAIT, a disabled one is IDLE. -/
def State.connSync (s : State) : State :=
  (s.each (List.range 64) fun s c =>
    if s.connEn c then (if (s.conn c).st = .idle then s.setConn c { Conn.reset with st := .wait } else s)
    else if (s.conn c).st = .idle then s else s.setConn c Conn.reset).sdCauses

end Sys2Proof.Machine
end

