-- ==== Sys2Proof/Machine/Memory.lean ====
section
/-! DEFINITION. Banks and their power states, ECC reports, marches, the secure bank, tamper inputs and the life cycle
(R449 to R467). -/
namespace Sys2Proof.Machine

/-! ### Power states (R449, R450) -/

/-- OWNER code of a bank (R467). -/
def bankOwner (b : Nat) : Nat :=
  if b ≤ 2 then 0 else if b ≤ 10 then 1 else if b ≤ 18 then 2 else if b ≤ 34 then 3 else if b ≤ 162 then 4
  else if b ≤ 166 then 5 else if b = 167 then 6 else if b ≤ 171 then 7 else 8

/-- Engine that owns a program or X/Y bank. -/
def bankEngine (b : Nat) : Nat := if b ≤ 10 then b - 3 else b - 11

/-- The owner's state calls for retention (R449). -/
def State.wantsRetention (s : State) (b : Nat) : Bool :=
  match bankOwner b with
  | 1 | 2 => !s.engEnabled (bankEngine b)
  | 4 => decide (s.acq.st = .idle) || decide (s.acq.st = .done)
  | 5 => decide (s.aids.lantern.st = .idle) || decide (s.aids.lantern.st = .stopped)
  | _ => false

/-- An engine's banks wake when it becomes enabled (R449, R450). -/
def State.wakeEngine (s : State) (e : Nat) : State := (s.wakeBank (3 + e)).wakeBank (11 + e)

/-- BANK_WAKE_DONE (R450). -/
def execBankWakeDone (b : Nat) (s : State) : Host.Outcome State Fault Refusal := .next (s.wakeDone b)

/-- BANK_RETENTION_ENTER (R450). -/
def execBankRetentionEnter (b : Nat) (s : State) : Host.Outcome State Fault Refusal :=
  .next (if (s.bank b).pwr = .on ∧ s.wantsRetention b then s.setBank b { s.bank b with pwr := .retention } else s)

/-! ### ECC (R452) -/

/-- Layout of LAST_ECC_ADDR (R467). -/
def eccAddr (bank word : Nat) (un : Bool) : Nat := b2n un * 2147483648 + bank * 65536 + word

/-- ECC_CORRECTED (R452). -/
def execEccCorrected (bank word : Nat) (s : State) : Host.Outcome State Fault Refusal :=
  .next (((s.incL Obj.ECC_CORR_CNT).setLN Obj.LAST_ECC_ADDR (eccAddr bank word false)).raiseAs 0 (s.faultClass 0)
    (bankRes bank word) .e)

/-- ECC_UNCORRECTABLE (R452): the word reads as its bits are stored, until a write replaces them. -/
def execEccUncorrectable (bank word : Nat) (bits : Word) (s : State) : Host.Outcome State Fault Refusal :=
  .next ((((s.putBank bank word bits).incL Obj.ECC_UNCORR_CNT).setLN Obj.LAST_ECC_ADDR (eccAddr bank word true)).raiseAs 1
    (s.faultClass 1) (bankRes bank word) .e)

/-! ### Marches (R453 to R456) -/

/-- MARCH_RESULT is written (R468, group 14). -/
def State.marchResult (s : State) (code : Nat) : State := (s.setLN Obj.MARCH_RESULT code).irqEdge 14 2

/-- The requested march is over. -/
def State.marchEnd (s : State) : State :=
  match s.mem.march with
  | none => s
  | some m =>
    let s1 := s.setBank m.bank { s.bank m.bank with marchBusy := false }
    { s1 with mem := { s1.mem with march := none } }

/-- The owner of banks becomes active: a destructive march of one of them is aborted and the bank cleared (R455). The owners that do are
those of plain memory. -/
def State.abortMarch (s : State) (own : Nat → Bool) : State :=
  match s.mem.march with
  | some m => if m.destructive && own m.bank then ((s.clearSram m.bank).marchEnd).marchResult 9 else s
  | none => s

/-- A failing word of a requested or background march (R455, R444 test M). -/
def State.marchFail (s : State) (bank word : Nat) : State :=
  let s1 := s.setLN Obj.MARCH_FAIL_ADDR (eccAddr bank word true)
  if s1.fSet 46 then reactC3 s1 ((s1.occur 46).lasting 46 (bankRes bank word) true)
  else s1.raiseAs 46 (s1.faultClass 46) (bankRes bank word) .m

/-- The owner of the bank is not idle for a destructive march (R455). -/
def State.ownerBusy (s : State) (b : Nat) : Bool :=
  match bankOwner b with
  | 1 | 2 => s.engEnabled (bankEngine b)
  | 3 => (List.range 8).any s.engEnabled
  | 4 => decide (s.acq.st ≠ .idle)
  | 5 => decide (s.aids.lantern.st ≠ .idle)
  | 8 => true
  | _ => false

/-- Write of MARCH_CTRL (R455). -/
def wrMarchCtrl (v : Word) (s : State) : WOut :=
  let b := fld v 7 0
  let d := nbit v.toNat 30
  if !nbit v.toNat 31 then done s
  else if 172 < b ∨ 1 < fld v 29 28 then refused6 (s.marchResult 6)
  else if s.mem.march.isSome then refused6 (s.marchResult 7)
  else if d && s.ownerBusy b then refused6 (s.marchResult 5)
  else if d && (decide (s.mode = .run) || decide (s.mode = .ridethrough)) && (decide (b ≤ 34) || decide (167 ≤ b)) then
    refused6 (s.marchResult 8)
  else
    let s1 := (s.setBank b { s.bank b with marchBusy := true }).marchResult 1
    done { s1 with mem := { s1.mem with march := some ⟨b, d, fld v 29 28, s1.nowL⟩ } }

/-- MARCH_REQUEST (R455). -/
def execMarchRequest (p : Path) (v : Word) (s : State) : Host.Outcome State Fault Refusal :=
  .next (s.guardWrite p Obj.MARCH_CTRL v (wrMarchCtrl v))

/-- The first failing word of each row. -/
def firstOfRow : List Nat → List Nat
  | [] => []
  | w :: ws => w :: (firstOfRow ws).filter fun x => decide (x / 64 ≠ w / 64)

/-- MARCH_DONE (R455): the failing words that the march found, in order; each failing row is one failure. -/
def execMarchDone (words : List Nat) (s : State) : Host.Outcome State Fault Refusal :=
  .next (
    match s.mem.march with
    | none => s
    | some m =>
      let s1 := if m.destructive then s.clearBank m.bank else s
      let s2 := s1.each (firstOfRow words) fun s w => s.marchFail m.bank w
      let code := if words.isEmpty then 2 else if (s2.bank m.bank).failed then 4 else 3
      (s2.marchEnd.marchResult code).incL Obj.MARCH_DONE_CNT)

/-- Rows of banks 0 to 172 in order (R456). -/
def bgRows : Nat := 44160

/-- Time for which a contents-preserving march holds one row (R453). -/
def rowNs (alg : Nat) : Nat := if alg = 0 then 1536 else 3072

/-- A requested march holds this row (R453): a destructive one the whole bank, a preserving one the row it has reached. -/
def State.rowHeld (s : State) (b row : Nat) : Bool :=
  match s.mem.march with
  | none => false
  | some m => decide (m.bank = b) && (m.destructive || decide ((s.nowL - m.since) / rowNs m.alg = row))

/-- The first row from `r` on whose bank is not off and which no requested march holds, and whether the walk passed the last row on
the way; `none` if there is none within the fuel. -/
def State.bgFind (s : State) : Nat → Nat → Bool → Option (Nat × Bool)
  | 0, _, _ => none
  | n + 1, r, lap =>
    if bgRows ≤ r then s.bgFind n 0 true
    else if (s.bank (r / 256)).pwr = .off then s.bgFind n ((r / 256 + 1) * 256) lap
    else if s.rowHeld (r / 256) (r % 256) then s.bgFind n (r + 1) lap
    else some (r, lap)

/-- MARCH_BG_ROW (R456): one row is marched. `corr` correctable errors were scrubbed; `fail` is the first word of the row
that failed. -/
def execMarchBgRow (corr : Nat) (fail : Option Nat) (s : State) : Host.Outcome State Fault Refusal :=
  .next (
    if s.ga Obj.MARCH_BG_EN = 1 then
      match s.bgFind 432 s.mem.bgRow false with
      | none => s
      | some (row, lap) =>
        let s1 := s.addL Obj.ECC_CORR_CNT corr
        let s2 := match fail with
          | some w => s1.marchFail (row / 256) (row % 256 * 64 + w % 64)
          | none => s1
        let s3 : State := { s2 with mem := { s2.mem with bgRow := (row + 1) % bgRows } }
        s3.incIf (decide (row + 1 = bgRows) || lap) Obj.MARCH_BG_SWEEP_CNT
    else s)

/-! ### Secure bank (R457 to R461) -/

/-- A tamper-log entry (R461). -/
def State.tamperLog (s : State) (cause : Nat) : State :=
  let n := s.nl Obj.TAMPER_LOG_CNT
  let rings := s.frame.ticking
  let t := if rings then s.time64 s.nowC else s.nowL
  let flags := b2n (!rings) * 2 + b2n (rings && s.time.traceable)
  let bs := leBytes 8 t ++ leBytes 1 cause ++ leBytes 1 s.mem.life.code ++ leBytes 1 flags ++ [0] ++ leBytes 4 (n + 1)
  (s.wrBytes (secAddr (0x400 + 16 * (n % 64))) bs).setLN Obj.TAMPER_LOG_CNT (n + 1)

/-- A wipe (R458). -/
def State.wipe (s : State) (cause : Nat) : State :=
  let cl (lo hi : Nat) (t : List Host.Cell) : List Host.Cell := tclear (secAddr lo) (secAddr hi) t
  let s1 : State := { s with sram := cl 0 0x24 (cl 0x100 0x200 (cl 0x800 0x8000 s.sram)) }
  let s2 := (((s1.incL Obj.WIPE_CNT).setLN Obj.LAST_WIPE_CAUSE cause).tamperLog cause).irqEdge 14 3
  (s2.each (idxs 64 fun c => s2.connEn c && decide ((s2.conn c).st ≠ .failed)) fun s c =>
    (s.setConn c { s.conn c with st := .failed }).irqEdge 11 2).sdCauses

/-- LC_RESULT is written (R468, group 14). -/
def State.lcResult (s : State) (code : Nat) : State := (s.setLN Obj.LC_RESULT code).irqEdge 14 1

/-- The 32 bytes written to KEY_INSTALL (R459). -/
def wrKeyInstall (bs : List Byte) (s : State) : WOut :=
  if bs.length ≠ 32 then (s, 8)
  else if s.keyPresent then refused6 (s.lcResult 5)
  else if (s.mem.life ≠ .provisioned ∧ s.mem.life ≠ .deployed) ∨ s.mode = .run ∨ s.mode = .ridethrough ∨ s.mode = .mirror then
    refused6 (s.lcResult 2)
  else done ((((s.wrBytes (secAddr 0) bs).wrW (secAddr 0x20) 1).tamperLog 6).raise 47)

/-- KEY_INSTALL (R459). -/
def execKeyInstall (p : Path) (bytes : List Byte) (s : State) : Host.Outcome State Fault Refusal :=
  .next (
    let r := wrKeyInstall bytes s
    if s.boot.resetLow then s else r.1.report p Obj.KEY_INSTALL r.2)

/-- An active level of TAMPER_N is accepted (R460). During fuse programming the wipe of the transition serves it too (R465). -/
def State.tamperAccept (s : State) (n : Nat) : State :=
  let s1 : State := { s with mem := { s.mem with tamper := bset s.mem.tamper n true } }
  let s2 := (s1.incL Obj.TAMPER_CNT).raise 47
  if !nbit (s2.na Obj.TAMPER_EN) n then s2
  else if s2.mem.fusing.isSome then { s2 with mem := { s2.mem with fuseTamper := s2.mem.fuseTamper ++ [n + 1] } }
  else s2.wipe (n + 1)

/-- TAMPER_ACCEPT (R460): a level that is accepted already stays so. -/
def execTamperAccept (n : Nat) (s : State) : Host.Outcome State Fault Refusal :=
  .next (if s.boot.resetLow || nbit s.mem.tamper.toNat n then s else s.tamperAccept n)

/-- TAMPER_RELEASE (R460). -/
def execTamperRelease (n : Nat) (s : State) : Host.Outcome State Fault Refusal :=
  .next { s with mem := { s.mem with tamper := bset s.mem.tamper n false } }

/-- SUPPLY_OUT_OF_RANGE (R388, R458). -/
def execSupplyOutOfRange (safe : Bool) (s : State) : Host.Outcome State Fault Refusal :=
  .next (({ s with power := { s.power with safeOut := s.power.safeOut || safe } } : State).wipe 3)

/-- The die temperature leaves or re-enters -50 to 140 °C: leaving wipes the secure bank, once (R458, R511). -/
def State.tempRange (s : State) (out : Bool) : State :=
  let s1 : State := { s with power := { s.power with tempOut := out } }
  if out && !s.power.tempOut then s1.wipe 4 else s1

/-- TEMP_OUT_OF_RANGE (R458): an excursion that a reading has shown already (R511) wipes no second time. -/
def execTempOutOfRange (s : State) : Host.Outcome State Fault Refusal := .next (s.tempRange true)

/-! ### Life cycle (R462, R463) -/

/-- Target state of a code. -/
def lifeOf (n : Nat) : Option LifeCycle :=
  match n with
  | 1 => some .provisioned
  | 2 => some .deployed
  | 3 => some .returned
  | 4 => some .scrapped
  | _ => none

/-- A transition that the table of R463 lists. -/
def lcListed (a b : LifeCycle) : Bool :=
  match b with
  | .provisioned => decide (a = .blank)
  | .deployed => decide (a = .provisioned)
  | .returned => decide (a = .provisioned) || decide (a = .deployed)
  | .scrapped => decide (a ≠ .scrapped)
  | .blank => false

/-- LC_RESULT of a request for a target (R463); 7: the fuses are being programmed. -/
def State.lcRequest (s : State) (t : Option LifeCycle) : Nat :=
  if s.mode = .run ∨ s.mode = .ridethrough ∨ s.mode = .mirror then 2
  else match t with
    | none => 3
    | some b =>
      if !lcListed s.mem.life b || (decide (b = .provisioned) && decide (s.boot.selPins ≠ 3)) then 3
      else if b = .deployed ∧ s.keyPresent = false then 5
      else 7

/-- Write of LC_REQ (R463); a request while fuses are being programmed changes nothing. -/
def wrLcReq (v : Word) (s : State) : WOut :=
  if s.mem.fusing.isSome then refused6 s
  else if fld v 31 16 ≠ 0x4C43 then refused6 (s.lcResult 4)
  else
    let code := s.lcRequest (lifeOf (fld v 7 0))
    if code = 7 then done { s.lcResult 7 with mem := { s.mem with fusing := lifeOf (fld v 7 0) } }
    else refused6 (s.lcResult code)

/-- LC_REQ_PROVISION (R463). -/
def execLcReqProvision (p : Path) (s : State) : Host.Outcome State Fault Refusal :=
  .next (s.guardWrite p Obj.LC_REQ 0x4C430001 (wrLcReq 0x4C430001))

/-- LC_REQ_DEPLOY (R463). -/
def execLcReqDeploy (p : Path) (s : State) : Host.Outcome State Fault Refusal :=
  .next (s.guardWrite p Obj.LC_REQ 0x4C430002 (wrLcReq 0x4C430002))

/-- LC_REQ_RETURN (R463). -/
def execLcReqReturn (p : Path) (s : State) : Host.Outcome State Fault Refusal :=
  .next (s.guardWrite p Obj.LC_REQ 0x4C430003 (wrLcReq 0x4C430003))

/-- LC_REQ_SCRAP (R463). -/
def execLcReqScrap (p : Path) (s : State) : Host.Outcome State Fault Refusal :=
  .next (s.guardWrite p Obj.LC_REQ 0x4C430004 (wrLcReq 0x4C430004))

/-- Tamper causes accepted during fuse programming (R465): logged beside the wipe of the transition, or wiped for where the
programming failed and no transition wipes. -/
def State.fuseTampers (s : State) (wiped : Bool) : State :=
  let s1 := s.each s.mem.fuseTamper fun s c => if wiped then s.tamperLog c else s.wipe c
  { s1 with mem := { s1.mem with fuseTamper := [] } }

/-- LC_FUSE_DONE (R462, R463): `good` when both fuses of the pair are blown; else `primary` tells whether the primary one is,
which already reads as the later state. -/
def execLcFuseDone (good primary : Bool) (s : State) : Host.Outcome State Fault Refusal :=
  .next (
    match s.mem.fusing with
    | none => s
    | some t =>
      let old := s.mem.life
      let s1 : State := { s with mem := { s.mem with fusing := none, life := if good || primary then t else old } }
      if good then (((s1.wipe 5).fuseTampers true).journal 0x0101 (w32 (old.code * 256 + t.code))).lcResult 1
      else (s1.fuseTampers false).lcResult 6)

/-! ### Objects (R466, R467) -/

/-- BANK_STATUS of a bank. -/
def State.bankStatus (s : State) (b : Nat) : Nat :=
  let x := s.bank b
  b2n x.failed * 65536 + bankOwner b * 4096 + x.repaired.length * 64 + b2n x.marchBusy * 4 + x.pwr.code

/-- Objects of the 2E00 block that the banks and fuses hold. -/
def view21 (s : State) (key : Nat) : Option Word :=
  if key = Obj.BANK_STATUS then some (w32 (s.bankStatus (s.nl Obj.BANK_SEL)))
  else if key = Obj.LC_STATE then some (w32 s.mem.life.code)
  else if key = Obj.KEY_STATE then some (w32 (b2n s.keyPresent))
  else if key = Obj.TAMPER_STATUS then some (s.mem.tamper.zeroExtend 32)
  else none

end Sys2Proof.Machine
end

