-- ==== Sys2Proof/Machine/Trains.lean ====
section
/-! DEFINITION. Trains on the line (R100 to R103, R106, R107, R121, R123): headers with their HCRC, record areas with the CRC of
each group, EOT blocks, and the blocks that a lane sends. -/
namespace Sys2Proof.Machine

/-- TYPE of an SOT and of an EOT block (R74). -/
def sotType : Nat := 0x66
def eotType : Nat := 0x78

/-- HCRC of a header (R101). -/
def headerCrc (h : BitVec 128) : Byte := crc8 (leBytes 15 h.toNat)

/-- A header of this kind with a good HCRC and the format of R100. -/
def headerOk (h : BitVec 128) (kind : Nat) : Bool :=
  decide (headerCrc h = h.extractLsb' 120 8) && decide (h.extractLsb' 0 8 = BitVec.ofNat 8 sotType)
    && decide (h.extractLsb' 8 4 = BitVec.ofNat 4 kind) && decide (h.extractLsb' 12 4 = 3)

/-- A header from its fields above bit 15, with TYPE, KIND, FMT and HCRC (R100, R101). -/
def mkHeader (kind fields : Nat) : BitVec 128 :=
  let h := (fields * 65536 + 0x3000 + kind * 256 + sotType) % 2 ^ 120
  BitVec.ofNat 128 ((headerCrc (BitVec.ofNat 128 h)).toNat * 2 ^ 120 + h)

/-- Record area of a caravan: each group of 16 slots with its CRC-16 (R102). -/
def areaDown (slots : List (BitVec 16)) : List Byte :=
  (pieces 16 slots).flatMap fun g =>
    let b := g.flatMap fun x => leBytes 2 x.toNat
    b ++ leBytes 2 (crc16 b).toNat

/-- Words in little-endian bytes with their CRC-32C (R102). -/
def withCrc32c (ws : List Word) : List Byte :=
  let b := ws.flatMap fun x => leBytes 4 x.toNat
  b ++ leBytes 4 (crc32c b).toNat

/-- Record area of an uplink train: each group of 16 records with its CRC-32C, then the long segment if there is one (R102, R111). -/
def areaUp (recs : List Word) (long : Option (List Word)) : List Byte :=
  (pieces 16 recs).flatMap withCrc32c ++ (long.map withCrc32c).getD []

/-- The EOT block (R106): `tail` is the copy of SLOT, or the TAG. -/
def eotBlock (kind count : Nat) (long : Bool) (tail : Nat) : BitVec 64 :=
  BitVec.ofNat 64 (tail % 4294967296 * 4294967296 + b2n long * 67108864 + count % 1024 * 65536 + kind % 16 * 256 + eotType)

/-- A valid EOT of a train (R106, log entry 123). -/
def eotOk (eot : Option (BitVec 64)) (kind count : Nat) (long : Bool) (tail : Nat) : Bool :=
  match eot with
  | none => false
  | some e => decide (e.extractLsb' 0 12 = (eotBlock kind count long tail).extractLsb' 0 12)
      && decide (e.extractLsb' 16 11 = (eotBlock kind count long tail).extractLsb' 16 11)
      && decide (e.extractLsb' 32 32 = (eotBlock kind count long tail).extractLsb' 32 32)

/-- A valid EOT of a DISC_REPLY train (R106, log entry 123). -/
def replyEotOk (eot : Option (BitVec 64)) (tag : Nat) : Bool :=
  match eot with
  | none => false
  | some e => decide (e.extractLsb' 0 12 = (eotBlock 4 0 false tag).extractLsb' 0 12)
      && decide (e.extractLsb' 32 32 = (eotBlock 4 0 false tag).extractLsb' 32 32)

/-- The payloads of a train's blocks in order (R100): SOT, the upper half of the header, the record area filled up with zeros, EOT. -/
def trainBlocks (h : BitVec 128) (area : List Byte) (eot : BitVec 64) : List (BitVec 64) :=
  h.extractLsb' 0 64 :: h.extractLsb' 64 64 :: ((pieces 8 area).map fun b => BitVec.ofNat 64 (ofLeBytes b)) ++ [eot]

/-! ### The trains of this device -/

/-- Header of a caravan on lane `n` (R103). -/
def CaravanOut.header (c : CaravanOut) (n : Nat) : BitVec 128 :=
  mkHeader 1 (c.slot % 2 ^ 32 + c.mode % 8 * 2 ^ 32 + b2n c.active * 2 ^ 35 + b2n c.hold * 2 ^ 36 + c.epoch % 256 * 2 ^ 40
    + n % 256 * 2 ^ 48 + c.tmark % 2 ^ 18 * 2 ^ 56 + c.tf10 % 4096 * 2 ^ 74 + c.p % 32 * 2 ^ 86
    + (match c.grant with
       | some a => 512 + a % 512
       | none => 0) * 2 ^ 91)

/-- A caravan (R100, R102 to R106). -/
def CaravanOut.blocks (c : CaravanOut) (n : Nat) : List (BitVec 64) :=
  trainBlocks (c.header n) (areaDown c.slots) (eotBlock 1 c.slots.length false c.slot)

/-- Header of a request (R121); HOME is written by the depth-0 unit (R112). -/
def DiscReq.header (q : DiscReq) : BitVec 128 :=
  mkHeader 3 (q.tag % 2 ^ 16 + q.path % 2 ^ 14 * 2 ^ 16 + q.op % 256 * 2 ^ 32 + q.arg % 2 ^ 56 * 2 ^ 48)

/-- A request has no record area (R121). -/
def DiscReq.blocks (q : DiscReq) : List (BitVec 64) := trainBlocks q.header [] (eotBlock 3 0 false (q.tag % 65536))

/-- Header of an own uplink train (R107). -/
def UpOut.header (u : UpOut) : BitVec 128 :=
  mkHeader 2 (u.slot % 2 ^ 32 + u.epoch % 256 * 2 ^ 32 + b2n u.long.isSome * 2 ^ 43 + u.route % 256 * 2 ^ 48 + u.recs.length % 1024 * 2 ^ 56)

/-- An own uplink train (R100, R102, R106, R107). -/
def UpOut.blocks (u : UpOut) : List (BitVec 64) :=
  trainBlocks u.header (areaUp u.recs u.long) (eotBlock 2 u.recs.length u.long.isSome u.slot)

/-- A DISC_REPLY train with the four words of a reply (R123). -/
def replyBlocks (tag : Nat) (ws : List Word) : List (BitVec 64) :=
  trainBlocks (mkHeader 4 (tag % 65536)) (withCrc32c ws) (eotBlock 4 ws.length false (tag % 65536))

/-! ### Sending -/

/-- The blocks between trains up to an instant (0.01 ns of C): the last of every 1,024 is a CC block (R76, log entry 118). -/
def Lane.idleTo (l : Lane) (t : Nat) : Lane :=
  let b := (t - l.ccFrom) / blockTime
  { l with ccRun := (l.ccRun + b) % 1024, ccSent := l.ccSent + (l.ccRun + b) / 1024, ccFrom := l.ccFrom + b * blockTime }

/-- `b` blocks without a gap: a CC block precedes them when the 1,024 would end within them (R76). -/
def Lane.sendBlocks (l : Lane) (b : Nat) : Lane :=
  if l.ccRun + b < 1024 then { l with ccRun := l.ccRun + b, ccFrom := l.ccFrom + b * blockTime }
  else { l with ccRun := b, ccSent := l.ccSent + 1, ccFrom := l.ccFrom + (b + 1) * blockTime }

/-- A train from SOT to EOT. -/
def Lane.sendTrain (l : Lane) (t : List (BitVec 64)) : Lane := { l.sendBlocks t.length with train := t }

/-- A train starts on a lane at C = `c` ns. -/
def State.trainOut (s : State) (n : Nat) (t : List (BitVec 64)) (c : Nat) : State :=
  s.setLane n (((s.lane n).idleTo (c * 100)).sendTrain t)

/-- A courier or a beacon leaves on a lane at C = `c` ns as one block more (R148, R156). -/
def State.blockOut (s : State) (n c : Nat) : State :=
  s.setLane n (((s.lane n).idleTo (c * 100)).sendBlocks 1)

/-- A train, or a courier or beacon, is being sent on the lane at C = `c` ns. -/
def State.laneBusy (s : State) (n c : Nat) : Bool := decide (c * 100 < (s.lane n).ccFrom)

/-! ### Couriers and beacons as blocks -/

/-- A control block with its check code in the last byte (R101, R147, R154). -/
def checkedBlock (x : Nat) : BitVec 64 :=
  BitVec.ofNat 64 ((crc8 (leBytes 7 x)).toNat * 2 ^ 56 + x % 2 ^ 56)

/-- CKIND (R147). -/
def CourierKind.code : CourierKind → Nat
  | .block => 1 | .hold => 2 | .releaseHold => 3

/-- The COURIER block (R147). -/
def Courier.payload (c : Courier) : BitVec 64 :=
  checkedBlock (0x87 + c.kind.code * 2 ^ 8 + b2n c.wtOrigin * 2 ^ 12 + c.epoch.toNat * 2 ^ 16 + c.blkSlot.toNat * 2 ^ 24
    + c.holdLimit.toNat * 2 ^ 48)

/-- The BEACON block (R154). -/
def Beacon.payload (b : Beacon) : BitVec 64 :=
  checkedBlock (0x99 + b.event.toNat * 2 ^ 8 + b.hops.toNat * 2 ^ 14 + b.originFrame.toNat * 2 ^ 16 + b.originOff.toNat * 2 ^ 32
    + b.source.toNat * 2 ^ 49)

end Sys2Proof.Machine
end

