-- ==== Sys2Proof/Machine/RouteOps.lean ====
section
/-! DEFINITION. Manifests (R116 to R118), route states (R136), and walks: what discovery asks, what it does with an answer or
with none, and how it ends (R119 to R128). -/
namespace Sys2Proof.Machine

/-! ### Manifests (R116 to R118) -/

/-- KIND, DEPTH with PATH, TARGET and own slots of a manifest entry (R117). -/
def entKind (e : Word) : Nat := fld e 31 28
def entPath (e : Word) : Nat := fld e 13 0
def entTarget (e : Word) : Nat := fld e 27 14
def entStream (e : Word) : Nat := fld e 19 14
def entGroup (e : Word) : Nat := fld e 17 14
def entSlots (e : Word) : Nat :=
  match entKind e with
  | 1 | 2 => 1
  | 3 => 4
  | 4 => 4 * (fld e 21 18 + 1)
  | _ => 0

/-- Sum of the slots of all entries (R116). -/
def slotSum (l : List Word) : Nat := (l.map entSlots).sum

/-- The entries with the position of each one's first slot (R98). -/
def withFirst (at0 : Nat) : List Word → List (Nat × Word)
  | [] => []
  | e :: t => (at0, e) :: withFirst (at0 + entSlots e) t

/-- The manifest in force for a lane: during BOOT, until validation, that of the loaded image (R55, R86). -/
def State.man (s : State) (n : Nat) : Manifest := s.manifest n

/-- The lane is in the manifest. -/
def State.inMan (s : State) (n : Nat) : Bool := !(s.man n).entries.isEmpty

/-- Leaves of a lane: first slot and entry of everything with slots of its own. -/
def State.leaves (s : State) (n : Nat) : List (Nat × Word) :=
  (withFirst 0 (s.man n).entries).filter fun x => decide (entSlots x.2 ≠ 0)

/-- Streams of the measurement units on a lane. -/
def State.laneStreams (s : State) (n : Nat) : List Nat :=
  ((s.manifest n).entries.filter fun w => decide (entKind w = 3)).map entStream

/-- A frame of a lane has closed (R173). -/
def Route.closed (r : Route) (j : Nat) : Bool := decide (j < r.nextClose) || r.closedAhead.contains j

/-- The word of a unit in the tree signature (R118). -/
def sigWord (kind slots path : Nat) : Nat := kind * 268435456 + slots * 262144 + path

/-- Tree signature over one word per unit (R118). -/
def treeSig (l : List Nat) : Word := crc32c (l.flatMap (leBytes 4))

/-- Signature of a manifest. -/
def manSig (l : List Word) : Word := treeSig (l.map fun e => sigWord (entKind e) (entSlots e) (entPath e))

/-! ### Paths (R98, R117) -/

def pathDepth (p : Nat) : Nat := p / 4096 % 4
/-- Port nibble at a depth from 1 on. -/
def pathPort (p d : Nat) : Nat := p / 16 ^ (d - 1) % 16
/-- The unit on a port of the waystation at `p`. -/
def pathChild (p port : Nat) : Nat := (pathDepth p + 1) * 4096 + p % 4096 + port * 16 ^ pathDepth p
/-- Depth-first order: the smaller key comes first. -/
def pathKey (p : Nat) : Nat :=
  let d (i : Nat) : Nat := if i ≤ pathDepth p then pathPort p i + 1 else 0
  d 1 * 289 + d 2 * 17 + d 3
/-- `q` is `p` or lies below it. -/
def pathUnder (p q : Nat) : Bool :=
  decide (pathDepth p ≤ pathDepth q) && decide (q % 16 ^ pathDepth p = p % 16 ^ pathDepth p)

/-! ### Route state (R119, R136) -/

/-- A RELEASE_HOLD courier with CELL_HOLD_LIMIT is sent on the lanes (R146); a device of role STANDBY sends none (R149). -/
def State.releaseHold (s : State) (lanes : List Nat) : State :=
  if s.pair.role = .standby then s
  else
    let c : Courier := { kind := .releaseHold, wtOrigin := false, epoch := s.pair.epoch, blkSlot := 0,
                         holdLimit := BitVec.ofNat 8 (s.na Obj.CELL_HOLD_LIMIT), fromReq := false, edge := none }
    (s.each lanes fun s n => s.queueCourier c n).incL Obj.RELEASE_COURIER_CNT

/-- ROUTE_STATE changes (R136, R468 group 4): a refusal is DISC_MISMATCH (R438), a route that enters IN_SERVICE gets a
RELEASE_HOLD courier (R146). -/
def State.setRouteSt (s : State) (n : Nat) (st : RouteState) : State :=
  let r := s.route n
  if r.st = st then s
  else
    let s1 := (s.setRoute n { r with st := st, inServiceSinceBoot := r.inServiceSinceBoot || decide (st = .inService) }).irqEdge 4 n
    if st = .mismatch ∨ st = .delayRefused then s1.raise 55
    else if st = .inService then s1.releaseHold [n]
    else s1

/-- The Frame Sequencer builds a caravan for the route (R216): its lane is in DATA and the route IN_SERVICE or VERIFYING. -/
def State.reachable (s : State) (n : Nat) : Bool :=
  s.inMan n && s.inData n && (decide ((s.route n).st = .inService) || decide ((s.route n).st = .verifying))

/-- ROUTE_DOWN is signalled for a manifest lane (R37, R119); once signalled at a D_k it lasts until D_j + 150 ns of the frame that sends
a caravan there again (R38). -/
def State.routeDown (s : State) (n : Nat) : Bool := s.inMan n && (!s.reachable n || nbit s.frame.downHeld.toNat n)

/-- Caravan duration in ns (R24). -/
def tCv (slots : Nat) : Nat := ceilDiv ((17 * slots + 256) * 1000) 12121

/-- Arrival of the caravan at the farthest leaf, relative to S_k, for a delay in 0.25 ns (R24). -/
def State.arrival (s : State) (slots delayQ : Nat) : Nat := s.dk + 150 + tCv slots + ceilDiv delayQ 4

/-- First delay check that fails (R137): R128, DELAY_MAX_NS, R24 at the active P; 0 when all pass. R24 waits for the validation of the
loaded configuration. -/
def State.delayCheck (s : State) (n delayQ : Nat) : Nat :=
  let m := s.man n
  if 40960 < delayQ then 11
  else if m.delayMax ≠ 0 ∧ 4 * m.delayMax < delayQ then 7
  else if ¬(s.mode = .boot ∧ s.boot.accepted = false) ∧ s.p * s.tf < s.arrival (slotSum m.entries) delayQ + 50 then 12
  else 0

/-! ### Requests (R120 to R123) -/

/-- The walk runs beside caravans (R119, R120): none is sent in a frame that a debug halt stops (R21). -/
def State.walkWithCaravans (s : State) (n : Nat) : Bool := s.reachable n && s.frame.ticking && !s.frame.planStopped

/-- The request reassigns a delay that a unit holds, in a walk that is no DISCOVERING (R125, R136). -/
def Walk.reassigns (w : Walk) (q : DiscReq) : Bool :=
  decide (w.kind ≠ .discovering) && (decide (q.op = 3) || decide (q.op = 6)) && w.units.any fun u => u.path == q.path && u.assigned

/-- Up to `lim` requests leave, each with a tag of its own. -/
def State.discSend (s : State) (n lim : Nat) : State :=
  let r := s.route n
  match r.walk with
  | none => s
  | some w =>
    let m := min lim (64 - w.reqs.length)
    let out := (w.todo.take m).zipIdx.map fun x => { x.1 with tag := (r.nextTag + x.2) % 65536 }
    let s1 := s.setRoute n { r with
      walk := some { w with reqs := w.reqs ++ out, todo := w.todo.drop m, drift := w.drift || out.any w.reassigns }
      nextTag := (r.nextTag + out.length) % 65536 }
    if out.isEmpty then s1 else s1.trainOut n (out.flatMap DiscReq.blocks) s.nowC

/-- Requests leave at once while no caravans run, and one per frame after the caravan while they run (R120). -/
def State.discPump (s : State) (n : Nat) : State := if s.walkWithCaravans n then s else s.discSend n 64

/-- A request that waits to leave. -/
def newReq (path op arg : Nat) : DiscReq := { tag := 0, path := path, op := op, arg := arg, tries := 0 }

/-- The walk of a route is gone; a VERIFYING one leaves in DELAY_DRIFT whether it reassigned a delay (R136), and after one of a unit's
subtree the unit's hold-off runs, whatever its outcome (R126). -/
def State.dropWalk (s : State) (n : Nat) : State :=
  let r := s.route n
  let off := match r.walk.map (·.kind) with
    | some (.subtree p) => ⟨p, s.frame.count⟩ :: r.holdOff.filter fun h => h.path != p
    | _ => r.holdOff
  let drift := match r.walk with
    | some w => if w.kind = .discovering then r.drift else w.drift
    | none => r.drift
  s.setRoute n { r with walk := none, heldWalk := none, holdOff := off, drift := drift }

/-- A walk of a route begins with the identity of its first unit (R124); one in progress is superseded (R119). -/
def State.startWalk (s : State) (n : Nat) (k : WalkKind) : State :=
  let root := match k with
    | .subtree p => p
    | _ => 0
  let w : Walk := { kind := k, units := [], reqs := [], todo := [newReq root 1 0], assigning := false, drift := false
                    asym := s.ia (Obj.ROUTE_ASYM_Q n) }
  let s0 := s.dropWalk n
  let s1 := s0.setRoute n { s0.route n with
    walk := some w
    rediscover := (s0.route n).rediscover && decide (k ≠ .discovering) }
  let s2 := match k with
    | .discovering => s1.setRouteSt n .discovering
    | .verifying => s1.setRouteSt n .verifying
    | .subtree _ => s1
  s2.discPump n

/-- The lane step of BOOT is over (R55): every manifest lane is in DATA or LANE_WAIT_MS has passed, and the selected domain is LOCKED
or TIME_WAIT_MS has passed. -/
def State.laneStepOver (s : State) : Bool :=
  let sel := s.na Obj.DOM_SEL
  let lockedAt (d : Nat) : Bool := decide ((s.dom d).st = .locked)
  (!s.boot.lanesWaited || (List.range 32).all fun n => !s.inMan n || s.inData n)
    && (!s.boot.timeWaited || (if sel = 2 then lockedAt 0 || lockedAt 1 else lockedAt sel))

/-- BOOT goes on to discovery at the end of the lane step, and to validation when no walk is left (R55, R119). -/
def State.bootAdvance (s : State) : State :=
  let s1 :=
    if s.mode = .boot ∧ s.boot.step = .lanes ∧ s.laneStepOver then
      ({ s with boot := { s.boot with step := .discovery } }).each (idxs 32 fun n => s.inMan n && s.inData n)
        fun s n => s.startWalk n .discovering
    else s
  if s1.mode = .boot ∧ s1.boot.step = .discovery ∧ (List.range 32).all (fun n => (s1.route n).walk.isNone) then
    { s1 with boot := { s1.boot with step := .validation } }
  else s1

/-- The lane has reached DATA (R119). In BOOT the walks wait for the end of the lane step (R55). -/
def State.routeUp (s : State) (n : Nat) (full : Bool) : State :=
  let r := s.route n
  if !s.inMan n then s
  else if s.mode = .boot ∧ s.boot.step = .lanes then s.bootAdvance
  else if !r.inServiceSinceBoot ∨ r.rediscover then s.startWalk n .discovering
  else if full then s.startWalk n .verifying
  else
    let back := r.heldWalk.map fun w => { w with reqs := [], todo := w.reqs ++ w.todo }
    ((s.setRoute n { r with walk := back, heldWalk := none }).setRouteSt n r.heldSt).discPump n

/-- The lane has left DATA: the route is DOWN, and what it was is kept, with a walk of the whole route that was in progress (R119, log
entry 124). -/
def State.routeLost (s : State) (n : Nat) : State :=
  let r := s.route n
  if !s.inMan n ∨ r.st = .down then s
  else
    let keep := r.walk.bind fun w => match w.kind with
      | .subtree _ => none
      | _ => some w
    let s1 := s.dropWalk n
    ((s1.setRoute n { s1.route n with heldSt := r.st, heldWalk := keep }).setRouteSt n .down).bootAdvance

/-! ### Ends of a walk (R124 to R126, R137) -/

/-- Manifest entry of a path: its number, first slot and word. -/
def State.entryAt (s : State) (n path : Nat) : Option (Nat × Nat × Word) :=
  ((withFirst 0 (s.man n).entries).zipIdx.find? fun x => entPath x.1.2 == path).map fun x => (x.2, x.1.1, x.1.2)

/-- DISC_DETAIL of a path (R135). For a unit that the manifest does not list, its entry number is a free value. -/
def State.discDetail (s : State) (n path : Nat) : Nat :=
  (match s.entryAt n path with
   | some x => x.1
   | none => s.draw.1.toNat % 65536) * 65536 + path % 16384

/-- DISC_RESULT and DISC_DETAIL. -/
def State.discResult (s : State) (n code detail : Nat) : State :=
  (s.setLN (Obj.DISC_RESULT n) code).setLN (Obj.DISC_DETAIL n) detail

/-- KIND of a unit type; 15 for one that R97 does not list. -/
def kindOfType (t : Nat) : Nat :=
  match t with
  | 1 => 1 | 2 => 2 | 4 => 0 | 6 => 3 | 9 => 4 | _ => 15

/-- First difference between the manifest entries and the units found, both in depth-first order (R137). -/
def treeDiff (dual : Bool) : List Word → List WalkUnit → Option (Nat × Nat)
  | [], [] => none
  | e :: _, [] => some (2, entPath e)
  | [], u :: _ => some (3, u.path)
  | e :: es, u :: us =>
    if entPath e = u.path then
      if entKind e ≠ kindOfType u.type then some (4, u.path)
      else if entSlots e ≠ u.slots then some (5, u.path)
      else if dual && decide (u.path = 0) && !u.dualHomed then some (10, u.path)
      else treeDiff dual es us
    else if pathKey (entPath e) < pathKey u.path then some (2, entPath e)
    else some (3, u.path)

/-- The walk ends with this result. A subtree walk leaves ROUTE_STATE, but for a delay that is refused (R126, R128, R137). -/
def State.endWalk (s : State) (n code path : Nat) (st : RouteState) : State :=
  match (s.route n).walk with
  | none => s
  | some w =>
    let s1 := (s.draw.2.discResult n code (if code = 1 then 0 else s.discDetail n path)).dropWalk n
    match w.kind with
    | .subtree p =>
      let s2 := if code = 2 ∧ path = p then s1.journal 0xC4 (w32 (n * 16777216 + p)) else s1
      if code = 7 ∨ code = 11 ∨ code = 12 then s2.setRouteSt n .delayRefused else s2
    | _ => (s1.setRouteSt n st).bootAdvance

/-- Largest downlink delay of the units of a walk. -/
def maxDelay (us : List WalkUnit) : Nat := us.foldl (fun m u => max m (u.d.getD 0)) 0

/-- Tree found and assigned: the route delay is checked (R124, R137). -/
def State.finishWalk (s : State) (n : Nat) : State :=
  let r := s.route n
  match r.walk with
  | none => s
  | some w =>
    let whole := match w.kind with
      | .subtree p => decide (p = 0)
      | _ => true
    let d := if whole then maxDelay w.units else max (s.nl (Obj.ROUTE_DELAY_Q n)) (maxDelay w.units)
    let code := s.delayCheck n d
    let s1 := if whole then s.setRoute n { r with homeD := ((w.units.head?).bind fun u => u.d).getD 0 } else s
    (s1.setLN (Obj.ROUTE_DELAY_Q n) d).endWalk n (if code = 0 then 1 else code) 0 (if code = 0 then .inService else .delayRefused)

/-! ### Assignment (R124, R125) -/

/-- The device may write assignments: not in the roles STANDBY and MIRROR (R119). -/
def State.mayAssign (s : State) : Bool := decide (s.pair.role ≠ .standby) && decide (s.mode ≠ .mirror)

/-- Held delay that the unit should have: HOME_DELAY at depth 0, else DELAY. -/
def WalkUnit.wanted (u : WalkUnit) (home : Nat) : Nat := if u.path = 0 then u.d.getD 0 else u.d.getD 0 - home

/-- The unit is unassigned, or its held delay has drifted (R125). -/
def State.unitOff (s : State) (home : Nat) (u : WalkUnit) : Bool :=
  !u.assigned || decide (s.na Obj.DRIFT_Q < (if u.wanted home ≤ u.heldDelay then u.heldDelay - u.wanted home else u.wanted home - u.heldDelay))

/-- Requests that assign a unit in full (R124): ASSIGN_UNIT, and for a waystation its ports and UP_START. -/
def State.assignReqs (s : State) (n home : Nat) (us : List WalkUnit) (u : WalkUnit) : List DiscReq :=
  let ents := withFirst 0 (s.man n).entries
  let firstOf (p : Nat) : Nat := ((ents.find? fun x => entPath x.2 == p).map (·.1)).getD 0
  let countOf (p : Nat) : Nat := ((ents.filter fun x => pathUnder p (entPath x.2)).map fun x => entSlots x.2).sum
  let below := us.filter fun v => pathUnder u.path v.path && v.path != u.path
  let leafs := below.filter fun v => v.type != 4
  let up := leafs.foldl (fun m v => max m ((v.dUp : Int) - u.dUp)) (0 : Int)
  let kids := below.filter fun v => pathDepth v.path == pathDepth u.path + 1
  newReq u.path 3 (firstOf u.path % 512 + countOf u.path % 1024 * 512 + (u.d.getD 0 - home) % 2097152 * 524288)
    :: (if u.type = 4 then
          (kids.map fun c => newReq u.path 4 (pathPort c.path (pathDepth c.path) + firstOf c.path % 512 * 16 + countOf c.path % 1024 * 8192))
            ++ [newReq u.path 5 ((40 + up).toNat % 2097152)]
        else [])

/-- A unit that VERIFYING assigns is recorded (R125); an unassigned one counts as new. -/
def State.noteUnit (s : State) (n : Nat) (u : WalkUnit) : State :=
  let s1 := if u.assigned then s else (s.incL (Obj.UNIT_NEW_CNT n)).raise 56
  if s1.mayAssign then
    (s1.journal 0xC2 (w32 (n * 16777216 + u.path))).journal 0xC3 u.serial true
  else s1

/-- The requests that follow a tree that matches: SET_HOME, and the assignments (R124, R125). -/
def State.assignAll (s : State) (n : Nat) (w : Walk) : State :=
  let full := decide (w.kind = .discovering)
  let head := ((w.units.head?).bind fun u => u.d).getD 0
  let home := match w.kind with
    | .subtree p => if p = 0 then head else (s.route n).homeD
    | _ => head
  let off := w.units.filter fun u => full || s.unitOff home u
  let homes := (off.filter fun u => u.path == 0).map fun u => newReq u.path 6 (u.d.getD 0 % 2097152)
  let units := if s.mayAssign then off.flatMap (s.assignReqs n home w.units) else []
  let s1 := if full then s else off.foldl (fun s u => s.noteUnit n u) s
  let w1 : Walk := { w with todo := homes ++ units, assigning := true }
  s1.setRoute n { s1.route n with walk := some w1 }

/-- The visit of every unit is over (R124): the tree is compared, then the assignments leave. -/
def State.visitDone (s : State) (n : Nat) (w : Walk) : State :=
  let m := s.man n
  let ents := match w.kind with
    | .subtree p => m.entries.filter fun e => pathUnder p (entPath e)
    | _ => m.entries
  let whole := match w.kind with
    | .subtree _ => false
    | _ => true
  if whole && w.units.isEmpty then (s.setLN (Obj.UNITS_FOUND n) 0).endWalk n 8 0 .mismatch
  else
    let s1 := if whole then
        ((s.setLN (Obj.UNITS_FOUND n) w.units.length).setL (Obj.TREE_SIG n)
          (treeSig (w.units.map fun u => sigWord (kindOfType u.type) u.slots u.path))).setRoute n { s.route n with walked := true }
      else s
    match treeDiff (nbit m.flags 0) ents w.units with
    | some d => s1.endWalk n d.1 d.2 .mismatch
    | none => s1.assignAll n w

/-- A walk with nothing outstanding goes on to its next part, or ends; `fuel` parts at most. -/
def State.discAdvance (fuel : Nat) (s : State) (n : Nat) : State :=
  match fuel with
  | 0 => s
  | f + 1 =>
    match (s.route n).walk with
    | none => s
    | some w =>
      if !w.reqs.isEmpty || !w.todo.isEmpty then s.discPump n
      else if w.assigning then s.finishWalk n
      else (s.visitDone n w).discAdvance f n

/-! ### Replies and timeouts (R120, R123, R124) -/

/-- Insert a unit in depth-first order. -/
def insertUnit (u : WalkUnit) : List WalkUnit → List WalkUnit
  | [] => [u]
  | v :: t => if pathKey u.path < pathKey v.path then u :: v :: t else v :: insertUnit u t

/-- An identity has answered (R127): its pings and the identities of its ports are asked. -/
def State.onIdentify (s : State) (w : Walk) (path : Nat) (w1 w2 w3 : Word) : Walk :=
  let u : WalkUnit := { path := path, type := fld w1 31 24, slots := fld w3 15 6, portUp := fld w3 31 16, serial := w2,
                        assigned := nbit w3.toNat 5, dualHomed := nbit w3.toNat 4, heldDelay := 0, pings := [],
                        repeated := false, d := none, dUp := 0 }
  let kids := if u.type = 4 ∧ pathDepth path ≤ 2 then
      (idxs 16 fun q => nbit u.portUp q).map fun q => newReq (pathChild path q) 1 0
    else []
  { w with units := insertUnit u w.units, todo := w.todo ++ List.replicate (s.na Obj.DISC_PINGS) (newReq path 2 0) ++ kids }

/-- Downlink delay in 0.25 ns from the sum of round trips (R124, R142), rounded to the nearest. -/
def downDelay (asym : Int) (sum cnt : Nat) : Nat := (floorDiv ((sum : Int) + cnt * asym + cnt) (2 * cnt)).toNat

/-- A round trip of a unit has been measured (R124); `none`: the second set exceeds the spread too. -/
def State.onPing (s : State) (w : Walk) (path rtt : Nat) (w3 : Word) : Option Walk :=
  match w.units.find? fun u => u.path == path with
  | none => some w
  | some u =>
    let ps := rtt :: u.pings
    let u1 : WalkUnit := { u with pings := ps, assigned := nbit w3.toNat 31, heldDelay := fld w3 20 0 }
    let put (v : WalkUnit) : Walk := { w with units := w.units.map fun x => if x.path = path then v else x }
    let want := s.na Obj.DISC_PINGS
    if ps.length < want then some (put u1)
    else
      let mx := ps.foldl max 0
      let mn := ps.foldl min rtt
      if mx - mn ≤ s.na Obj.DISC_SPREAD_Q then
        let d := downDelay w.asym ps.sum ps.length
        some (put { u1 with d := some d, dUp := ps.sum / ps.length - d })
      else if u.repeated then none
      else
        let w1 := put { u1 with pings := [], repeated := true }
        some { w1 with todo := w1.todo ++ List.replicate want (newReq path 2 0) }

/-- The unit at a path is absent (R120): it and what lies below it leave the list and the requests. While assignments are
written the walk ends; one of a subtree ends with result 2 (R126), one of a route whose first unit is silent with 8 (R137). -/
def State.unitAbsent (s : State) (n : Nat) (w : Walk) (path : Nat) : State :=
  let w1 : Walk := { w with
    units := w.units.filter fun u => !pathUnder path u.path
    reqs := w.reqs.filter fun q => !pathUnder path q.path
    todo := w.todo.filter fun q => !pathUnder path q.path }
  let s1 := s.setRoute n { s.route n with walk := some w1 }
  let whole : Bool := match w.kind with
    | .subtree _ => false
    | _ => true
  if w.assigning then s1.endWalk n (if whole && decide (path = 0) then 8 else 2) path .mismatch
  else s1.discAdvance 3 n

/-- A reply with a good CRC (R123): matched to its tag; `t0` and `t3` are the stamps of R124 in 0.25 ns. -/
def State.discReply (s : State) (n : Nat) (w0 w1 w2 w3 : Word) (t0 t3 : Nat) : State :=
  let r := s.route n
  match r.walk with
  | none => s
  | some w =>
    match w.reqs.find? fun q => q.tag == fld w0 23 8 && q.op % 16 == fld w0 7 4 with
    | none => s
    | some q =>
      let wk : Walk := { w with reqs := w.reqs.filter fun x => x.tag != q.tag }
      let bad := decide (fld w0 3 1 ≠ 0)
      let put (x : Walk) : State := s.setRoute n { r with walk := some x }
      if q.op = 1 then
        if bad then (put wk).unitAbsent n wk q.path
        else (put (s.onIdentify wk q.path w1 w2 w3)).discAdvance 3 n
      else if q.op = 2 then
        if bad then (put wk).unitAbsent n wk q.path
        else match s.onPing wk q.path (t3 - t0 - w1.toNat - w2.toNat) w3 with
          | some x => (put x).discAdvance 3 n
          | none => (put wk).endWalk n 6 q.path .delayRefused
      else (put wk).discAdvance 3 n

/-- A request is abandoned (R120): repeated once, then its unit is absent. -/
def State.discTimeout (s : State) (n tag : Nat) : State :=
  let r := s.route n
  match r.walk with
  | none => s
  | some w =>
    match w.reqs.find? fun q => q.tag == tag with
    | none => s
    | some q =>
      let wk : Walk := { w with reqs := w.reqs.filter fun x => x.tag != tag }
      let s1 := s.incL (Obj.DISC_TIMEOUT_CNT n)
      if q.tries = 0 then
        (s1.setRoute n { r with walk := some { wk with todo := { q with tries := 1 } :: wk.todo } }).discPump n
      else (s1.setRoute n { r with walk := some wk }).unitAbsent n wk q.path

end Sys2Proof.Machine
end

