-- ==== Sys2Proof/Machine/Adc.lean ====
section
/-! DEFINITION. The converters ADC-A (0) and ADC-B (1): sequences, urgent triggers, filters, taps, calibration, the data
register and the Watchtower's claim (R356 to R370). The code of a conversion is measured outside and given. -/
namespace Sys2Proof.Machine

/-! ### Filters (R362, R363) -/

def filtEn (w : Word) : Bool := nbit w.toNat 31
def filtN (w : Word) : Nat := fld w 17 16
def filtD (w : Word) : Nat := fld w 15 0

/-- Sum of the first `d` results of `f` over the sample history from each of its first `d` places. -/
def sincSum : Nat → Nat → List Nat → Nat
  | 0, _, h => h.headD 0
  | n + 1, d, h => ((List.range d).map fun j => sincSum n d (h.drop j)).sum

/-- A filter that starts with its state cleared. -/
def AdcFilt.start : AdcFilt := { n := 0, hist := [], settled := false }

/-- Start the filters of a converter that `f` selects. -/
def Adc.restartFilters (x : Adc) (f : Nat → Bool) : Adc :=
  { x with filt := Vector.ofFn fun (j : Fin 8) => if f j then AdcFilt.start else x.filt[j] }

/-! ### Data register (R366) -/

/-- A result enters the data register. -/
def State.adcDeliver (s : State) (i : Nat) (q : Word) (input : Nat) (ovr inj delayed filtered : Bool) : State :=
  let x := s.conv i
  let lost := x.written && !x.read
  let seq := (x.seq + 1) % 65536
  let tag := w32 (0x80000000 + b2n lost * 0x20000000 + b2n ovr * 0x10000000 + b2n inj * 0x08000000
    + b2n delayed * 0x04000000 + b2n filtered * 0x02000000 + (input % 8) * 65536 + seq)
  let s1 := s.setConv i { x with data := q, tag := tag, seq := seq, written := true, read := false }
  ((s1.irqEdge 7 i).incIf lost (Obj.OVERRUN_CNT i)).irqIf lost 7 (2 + i)

/-- ADC_DATA_LO has been read (R366). -/
def State.adcDataRead (s : State) (i : Nat) : State := s.setConv i { s.conv i with read := true }

/-- The tap of an input takes a regular result, and the Acquisition Engine reads it there (R345, R363): of each input its results of the
last 40 frames stay known, and the newest in any case. -/
def State.adcTap (s : State) (i input : Nat) (q : Word) (ovr : Bool) : State :=
  let x := s.conv i
  let s1 := s.setConv i { x with tap := vset x.tap input q, tapSeq := vset x.tapSeq input (vget 0 x.tapSeq input + 1) }
  let a := 8 * i + input
  let old := s.adc.tapLog.filter fun y => decide (y.1 ≠ a) || decide (s.nowC < y.2.1 + 40 * s.tf) || s.adc.tapLog.find? (·.1 == a) == some y
  { s1 with adc := { s1.adc with tapLog := (a, s.nowC, q.toNat / 65536, ovr) :: old } }

/-- A regular result passes its filter, if it has one, to the tap and the data register (R362, R363). The Watchtower's
own sequence has no filters (R396). -/
def State.adcRegular (s : State) (i input code : Nat) (ovr : Bool) : State :=
  let cfg := s.ga (Obj.FILT_CFG i input)
  if filtEn cfg && !(decide (i = 1) && s.adc.own) then
    let n := filtN cfg
    let d := filtD cfg
    let x := s.conv i
    let f := vget AdcFilt.start x.filt input
    let h := ((code, ovr) :: f.hist).take (n * d)
    let due := decide (n * d ≤ f.n + 1) && decide ((f.n + 1 - n * d) % d = 0)
    let s1 := s.setConv i { x with filt := vset x.filt input ⟨f.n + 1, h, f.settled || due⟩ }
    if due then
      let q := w32 (sincSum n d (h.map (·.1)) * 524288 / d ^ n)
      let o := h.any (·.2)
      (s1.adcTap i input q o).adcDeliver i q input o false false true
    else s1
  else
    let q := w32 (code * 524288)
    (s.adcTap i input q ovr).adcDeliver i q input ovr false false false

/-! ### Sequencers (R358 to R361, R364, R365) -/

/-- A regular sequence begins at entry 0 (R358). -/
def State.adcBegin (s : State) (i : Nat) : State :=
  let x := s.conv i
  let seq := if i = 1 ∧ s.adc.own then s.claimInputs
    else (List.range (s.na (Obj.REG_LEN i))).map fun j => s.na (Obj.REG_SEQ i j)
  s.setConv i { x with work := .reg, regRun := true, regEntry := 0, regSeq := seq, startWait := false, softWait := false }

/-- A software start takes effect (R358, R362): the filters start, and periodic starts count from here. -/
def State.softStart (s : State) (i : Nat) : State :=
  (s.setConv i { (s.conv i).restartFilters (fun _ => true) with startL := some s.nowL }).adcBegin i

/-- The Watchtower's own sequence takes over ADC-B, once nothing converts (R368). -/
def State.adcbSwitch (s : State) : State :=
  let s1 : State := { s with adc := { s.adc with own := true }, wt := { s.wt with slvAt := Vector.replicate 4 s.nowL } }
  let x := s1.conv 1
  (s1.setConv 1 { x with
    work := .idle, regRun := false, cont := false, stopping := false, startWait := false, softWait := false, startL := none, injPending := false, injDelayed := false, pendDelayed := false }).adcBegin 1

/-- An injected sequence starts (R360, R365). -/
def State.injStart (s : State) (i : Nat) (delayed : Bool) : State :=
  let x := s.conv i
  (s.setConv i { x with work := .inj, injEntry := 0, injDelayed := delayed }).incIf delayed (Obj.INJ_DELAYED_CNT i)

/-- INJ_LEN = 0 turns the injected sequence off, a queued trigger with it (R360). -/
def State.injOff (s : State) (i : Nat) : State :=
  let x := s.conv i
  if s.na (Obj.INJ_LEN i) = 0 ∧ x.injPending then s.setConv i { x with injPending := false, pendDelayed := false } else s

/-- The converter is free (R359, R360, R361, R364, R367): a queued trigger, then a calibration, then the regular sequence. -/
def State.adcNext (s : State) (i : Nat) : State :=
  let x := s.conv i
  if x.injPending then (s.setConv i { x with injPending := false, pendDelayed := false }).injStart i x.pendDelayed
  else if x.calPending then s.setConv i { x with work := .cal, calPending := false }
  else if x.softWait then s.softStart i
  else if x.startWait then s.adcBegin i
  else s.setConv i { x with work := if x.regRun then .reg else .idle }

/-- The regular sequence has ended (R358): its EVENT source, and the next pass under CONT without a period. -/
def State.adcRegEnd (s : State) (i : Nat) (again : Bool) : State :=
  let x := s.conv i
  let s1 := (s.setConv i { x with regRun := false, stopping := false, regEntry := 0 }).event (0x4B + i)
  if again then
    let y := s1.conv i
    s1.setConv i { y with startWait := true }
  else s1

/-- A regular conversion has delivered its result: the next entry, or the end of the sequence. -/
def State.adcAdvance (s : State) (i : Nat) : State :=
  let x := s.conv i
  if x.stopping then s.adcRegEnd i false
  else if x.regEntry + 1 < x.regSeq.length then s.setConv i { x with regEntry := x.regEntry + 1 }
  else s.adcRegEnd i ((x.cont && decide (s.na (Obj.REG_PERIOD_NS i) = 0)) || (decide (i = 1) && s.adc.own))

/-- An injected conversion has delivered its result. -/
def State.injAdvance (s : State) (i : Nat) : State :=
  let x := s.conv i
  if x.injEntry + 1 < s.na (Obj.INJ_LEN i) then s.setConv i { x with injEntry := x.injEntry + 1 }
  else (s.event (0x49 + i)).adcNext i

/-- An urgent trigger fires (R360, R361, R365). -/
def State.adcTrigger (s : State) (code sel i : Nat) : State :=
  let x := s.conv i
  let hit := decide (s.na (Obj.INJ_TRIG i) = code) && (decide (code = 3) || decide (s.na (Obj.INJ_TRIG_SEL i) = sel))
  if !hit || decide (s.na (Obj.INJ_LEN i) = 0) || (decide (i = 1) && s.adc.claimed) then s
  else match x.work with
    | .inj | .cal =>
      if x.injPending then s.incL (Obj.INJ_LOST_CNT i)
      else (s.setConv i { x with injPending := true, pendDelayed := decide (x.work = .cal) }).incL (Obj.INJ_QUEUED_CNT i)
    | _ => s.injStart i false

/-- The trigger reaches both converters. -/
def State.adcTriggers (s : State) (code sel : Nat) : State := (s.adcTrigger code sel 0).adcTrigger code sel 1

/-- CAL_REQ (R364). -/
def State.calRequest (s : State) (i : Nat) : State :=
  let x := s.conv i
  if x.work = .cal ∨ x.calPending then s.incL (Obj.CAL_REQ_IGN_CNT i)
  else if x.work = .idle then s.setConv i { x with work := .cal }
  else s.setConv i { x with calPending := true }

/-- REG_START (R358, R359): ignored while a sequence runs or is suspended; it waits for the end of other work. -/
def State.regStart (s : State) (i : Nat) : State :=
  let x := s.conv i
  if x.regRun then s.incL (Obj.REG_START_IGN_CNT i)
  else if x.work = .idle then s.softStart i
  else s.setConv i { x with softWait := true }

/-- REG_STOP (R358): after the conversion in progress, or at once when the sequence is suspended. -/
def State.regStop (s : State) (i : Nat) : State :=
  let x := s.conv i
  let s1 := s.setConv i { x with cont := false, startWait := false, softWait := false, startL := none, stopping := x.stopping || decide (x.work = .reg) }
  if x.regRun ∧ x.work ≠ .reg then s1.adcRegEnd i false else s1

/-- Write of ADC_CTRL (R359, R370). -/
def wrAdcCtrl (i : Nat) (v : Word) (s : State) : WOut :=
  if nbit v.toNat 0 && nbit v.toNat 2 then (s, 3)
  else
    let s1 := s.setConv i { s.conv i with cont := nbit v.toNat 1 }
    let s2 := if nbit v.toNat 0 then s1.regStart i else s1
    let s3 := if nbit v.toNat 2 then s2.regStop i else s2
    done (if nbit v.toNat 3 then s3.calRequest i else s3)

/-- ADC_REG_START (R358): REG_START with the CONT bit written beside it. -/
def execAdcRegStart (p : Path) (i : Nat) (cont : Bool) (s : State) : Host.Outcome State Fault Refusal :=
  let v := w32 (1 + 2 * b2n cont)
  .next (s.guardWrite p (Obj.ADC_CTRL i) v (wrAdcCtrl i v))

/-- ADC_REG_STOP (R358). -/
def execAdcRegStop (p : Path) (i : Nat) (s : State) : Host.Outcome State Fault Refusal :=
  .next (s.guardWrite p (Obj.ADC_CTRL i) 4 (wrAdcCtrl i 4))

/-- ADC_CAL_REQ (R364): CAL_REQ with the CONT bit written beside it. -/
def execAdcCalReq (p : Path) (i : Nat) (cont : Bool) (s : State) : Host.Outcome State Fault Refusal :=
  let v := w32 (8 + 2 * b2n cont)
  .next (s.guardWrite p (Obj.ADC_CTRL i) v (wrAdcCtrl i v))

/-- ADC_PERIODIC_START (R358, R365, R367): the next start falls due under CONT with a period, REG_PERIOD_NS of L after the one before, and L
runs to it. -/
def execAdcPeriodicStart (i : Nat) (s : State) : Host.Outcome State Fault Refusal :=
  .next (
    match (s.conv i).startL with
    | none => s
    | some l =>
      if (s.conv i).cont && decide (s.na (Obj.REG_PERIOD_NS i) ≠ 0) && !(decide (i = 1) && s.adc.claimed) then
        let due := l + s.na (Obj.REG_PERIOD_NS i)
        let x := { s.conv i with startL := some due }
        let s1 := (s.toL due).setConv i x
        if x.regRun || x.startWait || x.softWait || decide (x.work = .cal) then s1.incL (Obj.REG_SLIP_CNT i)
        else if x.work = .inj then s1.setConv i { x with startWait := true }
        else s1.adcBegin i
      else s)

/-- A code as calibration corrects it (R356, R369), in 2^-19: the gain's Q15 offset from 1, and the offset in 1/16 LSB. -/
def calibrated (coef : Word) (code : Nat) : Nat :=
  let gain : Int := 32768 + sext 16 (coef.toNat / 65536)
  let off : Int := sext 16 (coef.toNat % 65536)
  let how := Config.calOrder coef code
  let x := if nbit how 0 then code * 16 * gain + off * 32768 else (code * 16 + off) * gain
  (if nbit how 1 then -floorDiv (-x) 524288 else floorDiv x 524288).toNat

/-- The code of a conversion, and the window comparator's finding (R356, R357): `v` and `vref` are the input and VREFP in µV above VREFN. -/
def Adc.code (x : Adc) (v vref : Int) : Nat × Bool :=
  if vref + 12500 < v then (4095, true)
  else if v < -12500 then (0, true)
  else (min 4095 (calibrated x.coef (clampInt 0 4095 (floorDiv (v * 4096) (max 1 vref))).toNat), false)

/-- ADC_CONVERSION_DONE (R356, R357, R363): a conversion of the input voltage `v` against `vref` completes. -/
def execAdcConversionDone (i : Nat) (v vref : Int) (s : State) : Host.Outcome State Fault Refusal :=
  .next (
    let x := s.conv i
    let code := (x.code v vref).1
    let ovr := (x.code v vref).2
    match x.work with
    | .reg =>
      let input := x.regSeq.getD x.regEntry 0
      let s1 := ((s.incIf ovr (Obj.OVER_RANGE_CNT i)).adcRegular i input code ovr).adcAdvance i
      let s2 := if decide (i = 1) && s.adc.own then s1.slvAdcSample input ((code * 524288 : Nat) : Int) else s1
      if decide (i = 1) && s2.adc.claimed && !s2.adc.own then s2.adcbSwitch else s2.adcNext i
    | .inj =>
      let input := s.na (Obj.INJ_SEQ i x.injEntry)
      let s1 := (s.incIf ovr (Obj.OVER_RANGE_CNT i)).adcDeliver i (w32 (code * 524288)) input ovr true x.injDelayed false
      if decide (i = 1) && s1.adc.claimed && !s1.adc.own then s1.adcbSwitch else s1.injAdvance i
    | _ => s)

/-- ADC_CAL_DONE (R364): `coef` are the coefficients measured. -/
def execAdcCalDone (i : Nat) (coef : Word) (s : State) : Host.Outcome State Fault Refusal :=
  .next (
    let x := s.conv i
    if x.work = .cal then
      let s1 := (((s.setConv i { x with calDone := true, coef := coef }).incL (Obj.CAL_CNT i)).irqEdge 7 (4 + i))
      if decide (i = 1) && s1.adc.claimed && !s1.adc.own then s1.adcbSwitch else s1.adcNext i
    else s)

/-- WT_ADCB_CALIBRATE: every 10 s while ADC-B is claimed (R396). -/
def execWtAdcbCalibrate (s : State) : Host.Outcome State Fault Refusal :=
  .next (if s.adc.claimed then s.calRequest 1 else s)

/-! ### Claim (R368) -/

/-- The claim follows the enabled SLV channels, from S_0 on (R396). -/
def State.adcbClaim (s : State) : State :=
  let want := !s.claimInputs.isEmpty
  if want && !s.adc.claimed then
    let s1 : State := { s with adc := { s.adc with claimed := true }, wt := { s.wt with slvAt := Vector.replicate 4 s.nowL } }
    if (s1.conv 1).work = .idle then s1.adcbSwitch else s1
  else if !want && s.adc.claimed then
    let s1 : State := { s with adc := { s.adc with claimed := false, own := false } }
    let x := s1.conv 1
    s1.setConv 1 { x.restartFilters (fun _ => true) with
      work := .idle, regRun := false, regEntry := 0, regSeq := [], cont := false, stopping := false, startWait := false, softWait := false,
      startL := none, injPending := false, injDelayed := false, pendDelayed := false, calPending := false }
  else s

/-! ### Objects (R370) -/

/-- ADC_STATUS. -/
def State.adcStatus (s : State) (i : Nat) : Nat :=
  let x := s.conv i
  let settling := ((List.range 8).map fun j =>
    b2n (filtEn (s.ga (Obj.FILT_CFG i j)) && !(vget AdcFilt.start x.filt j).settled) * 2 ^ j).sum
  (x.regEntry % 16) * 1048576 + (x.injEntry % 4) * 262144 + b2n x.injPending * 131072
    + b2n (decide (i = 1) && s.adc.claimed) * 65536 + settling * 256 + b2n x.calDone * 128 + b2n x.calPending * 64
    + b2n (decide (x.work = .cal)) * 32 + b2n (decide (x.work = .inj)) * 16 + b2n x.regRun * 8

/-- Objects of 2A00 to 2A02. -/
def view16 (s : State) (key : Nat) : Option Word :=
  if key = Obj.ADCB_CLAIMED then some (w32 (b2n s.adc.claimed))
  else if 0x2A01 ≤ key / 256 ∧ key / 256 ≤ 0x2A02 then
    let i := key / 256 - 0x2A01
    match key % 256 with
    | 1 => some (w32 (2 * b2n (s.conv i).cont))
    | 7 => some (w32 (s.adcStatus i))
    | 8 => some (s.conv i).coef
    | _ => none
  else if 0x2A05 ≤ key / 256 ∧ key / 256 ≤ 0x2A06 then
    let i := key / 256 - 0x2A05
    match key % 256 with
    | 1 => some (s.conv i).data
    | 2 => some (s.conv i).tag
    | _ => none
  else none

end Sys2Proof.Machine
end

