-- ==== Sys2Proof/Machine/Pwm.lean ====
section
/-! DEFINITION. The Local PWM pairs and the clearing of trip latches (R371 to R386). A wrap, a duty match and the end of a
dead-time count are commands: each is the clock cycle in which it happens. -/
namespace Sys2Proof.Machine

/-! ### Pair state -/

def PwmPair.duty (x : PwmPair) : Nat := fld x.active 15 0
def PwmPair.periodM1 (x : PwmPair) : Nat := fld x.active 31 16
def PwmPair.compl (x : PwmPair) : Bool := nbit x.cfg.toNat 1

/-- The counter's value now (R371). -/
def State.pwmCount (s : State) (p : Nat) : Nat :=
  let x := s.pwmPair p
  if x.running && !s.frame.halted then min x.periodM1 (x.counter.toNat + (s.nowL - x.since) / (x.psc + 1)) else x.counter.toNat

/-- What the reference or the active force asks of PWMH and PWML (R376, R378). -/
def PwmPair.wantH (x : PwmPair) : Bool :=
  if x.forceActive = 0 then x.ref else decide (x.forceActive = 2)
def PwmPair.wantL (x : PwmPair) : Bool :=
  x.compl && (if x.forceActive = 0 then !x.ref else decide (x.forceActive = 3))

/-- The writes that have landed by cycle `l` are in the shadow and in the pending force (R373, R378). -/
def PwmPair.landed (x : PwmPair) (l : Nat) : PwmPair :=
  (x.landing.filter fun y => decide (y.1 ≤ l)).foldl
    (fun x y => if y.2.1 then { x with forcePending := y.2.2.truncate 2 } else { x with shadow := y.2.2 })
    { x with landing := x.landing.filter fun y => decide (l < y.1) }

/-- L of the wrap in which the running counter returns to 0 (R371), and of the wrap of the first START that has been written (R375). -/
def PwmPair.returnAt (x : PwmPair) : Nat := x.since + (x.periodM1 + 1 - x.counter.toNat) * (x.psc + 1)
def PwmPair.startAt (x : PwmPair) : Option Nat := (x.ctrl.find? fun y => !y.2).map (·.1 + 1)
/-- L of the pair's next wrap, and of the cycle in which its counter reaches DUTY. -/
def PwmPair.wrapAt (x : PwmPair) : Option Nat :=
  match x.startAt with
  | some w => some (if x.running then min w x.returnAt else w)
  | none => if x.running then some x.returnAt else none
def PwmPair.dutyAt (x : PwmPair) : Nat := x.since + (x.duty - x.counter.toNat) * (x.psc + 1)

/-- The outputs follow what is asked (R376): off at once, on after the dead time. -/
def PwmPair.follow (x : PwmPair) : PwmPair :=
  { x with
    hOn := x.wantH && (x.hOn || decide (x.deadTime = 0))
    dtH := x.wantH && !x.hOn && decide (x.deadTime ≠ 0)
    lOn := x.wantL && (x.lOn || decide (x.deadTime = 0))
    dtL := x.wantL && !x.lOn && decide (x.deadTime ≠ 0) }

/-- Both outputs off: a disabled or stopped pair (R377). -/
def PwmPair.off (x : PwmPair) : PwmPair := { x with hOn := false, lOn := false, dtH := false, dtL := false, held := false }

/-- The outputs after a change of what is asked, or of the trip. -/
def State.pairOutputs (s : State) (p : Nat) (x : PwmPair) : PwmPair :=
  if !x.live then x.off
  else if x.held then x
  else if s.pairTripped p then x.toTrip (s.tripState p)
  else x.follow

/-- One write of PAIR_CTRL that has landed by a wrap (R375): START makes the wrap its own, and a STOP after it awaits the next one. Answers
whether the pair starts. -/
def PwmPair.ctrlStep (x : PwmPair × Bool) (stop : Bool) : PwmPair × Bool :=
  if stop then (if x.2 then { x.1 with stopping := true } else { x.1 with running := false, stopping := false }, x.2)
  else ({ x.1 with running := true, stopping := false }, true)

/-- START and STOP as they stand at wrap `w` (R375): those that landed before it. -/
def PwmPair.control (x : PwmPair) (w : Nat) : PwmPair :=
  let due := x.ctrl.filter fun y => decide (y.1 < w)
  let x0 : PwmPair := { x with running := x.running && !x.stopping, stopping := false, ctrl := x.ctrl.filter fun y => decide (w ≤ y.1) }
  (due.foldl (fun z y => PwmPair.ctrlStep z y.2) (x0, false)).1

/-- The wrap cycle `w` of a pair (R371, R373, R375, R378, R382, R384): settings are taken, and timing and force words as they stood before
it; a write that lands in it waits for the next wrap. A trip that has ended is left, each turn-on counted from here; while it holds the
active force stays. -/
def State.pairWrap (s : State) (p w : Nat) : State :=
  let x := ((s.pwmPair p).landed (w - 1)).control w
  let late := x.landing.any fun y => decide (y.1 = w) && !y.2.1
  let x1 : PwmPair := { x with
    cfg := s.ga (Obj.PAIR_CFG p), psc := s.na (Obj.PSC p), deadTime := s.na (Obj.DEAD_TIME_NS p), active := x.shadow, counter := 0
    since := w }
  let x2 : PwmPair := { x1 with ref := x1.running && decide (0 < x1.duty) }
  let s1 := s.setPair p x2
  let trip := s1.pairTripped p
  let ends := x2.held && !trip
  let x3 : PwmPair := { x2 with
    held := x2.held && trip, forceActive := if trip then x2.forceActive else x2.forcePending
    dtH := x2.dtH && !ends, dtL := x2.dtL && !ends }
  let s2 := s1.setPair p x3
  ((s2.putPair p (s2.pairOutputs p x3)).incL (Obj.PERIOD_CNT p)).incIf late (Obj.RELOAD_LATE_CNT p)

/-- PWM_WRAP (R371): L runs to the pair's next wrap. -/
def execPwmWrap (p : Nat) (s : State) : Host.Outcome State Fault Refusal :=
  .next (
    match (s.pwmPair p).wrapAt with
    | some w => if s.frame.halted then s else (s.toL w).pairWrap p w
    | none => s)

/-- PWM_DUTY_MATCH: L runs to the cycle in which the counter reaches DUTY (R372). -/
def execPwmDutyMatch (p : Nat) (s : State) : Host.Outcome State Fault Refusal :=
  .next (
    let x := s.pwmPair p
    if x.running && !s.frame.halted && x.ref && decide (x.duty ≤ x.periodM1) then
      let s1 := s.toL x.dutyAt
      s1.putPair p (s1.pairOutputs p { x with ref := false, counter := BitVec.ofNat 16 x.duty, since := x.dutyAt })
    else s)

/-- DEAD_TIME_EXPIRE: DEAD_TIME_NS after the count began the waiting output turns on (R376, R381). In a debug halt only a trip's count runs
(R383). -/
def execDeadTimeExpire (p : Nat) (s : State) : Host.Outcome State Fault Refusal :=
  .next (
    let x := s.pwmPair p
    if (x.dtH || x.dtL) && (!s.frame.halted || x.held) then
      (s.toL (x.dtAt + x.deadTime)).setPair p { x with hOn := x.hOn || x.dtH, lOn := x.lOn || x.dtL, dtH := false, dtL := false }
    else s)

/-- What BOOT applies at S_0 (R377). -/
def State.pwmConfigure (s : State) : State :=
  let s1 := s.each (List.range 16) fun s p =>
    s.setPair p { s.pwmPair p with cfg := s.ga (Obj.PAIR_CFG p), psc := s.na (Obj.PSC p), deadTime := s.na (Obj.DEAD_TIME_NS p) }
  { s1 with pwm := { s1.pwm with configured := true } }


/-- Levels of the balls PWMH and PWML (R376, R377): low until BOOT applies the configuration. -/
def State.pwmBalls (s : State) (p : Nat) : Bool × Bool :=
  let x := s.pwmPair p
  (s.pwm.configured && (x.hOn != nbit x.cfg.toNat 2), s.pwm.configured && (x.lOn != nbit x.cfg.toNat 3))

/-! ### Writes (R373, R375, R378) -/

/-- A write lands 6 cycles after it has retired (R373). -/
def State.pairLand (s : State) (p : Nat) (force : Bool) (v : Word) : State :=
  let x := (s.pwmPair p).landed s.nowL
  s.setPair p { x with landing := x.landing ++ [(s.nowL + 6, force, v)] }

/-- Write of PWM_TIMING: on its way to the shadow, or refused (R373). -/
def wrPwmTiming (p : Nat) (v : Word) (s : State) : WOut :=
  let per := (s.na (Obj.PSC p) + 1) * (fld v 31 16 + 1)
  if fld v 31 16 = 0 then (s, 3)
  else if nbit (s.na (Obj.PAIR_CFG p)) 4 && decide (s.tf % per ≠ 0) then refused6 s
  else done (s.pairLand p false v)

/-- PWM_TIMING_WRITE (R373). -/
def execPwmTimingWrite (path : Path) (p : Nat) (v : Word) (s : State) : Host.Outcome State Fault Refusal :=
  .next (s.guardWrite path (Obj.PWM_TIMING p) v (wrPwmTiming p v))

/-- Write of PWM_FORCE: pending for the next wrap; code 3 needs COMPL (R378). -/
def wrPwmForce (p : Nat) (v : Word) (s : State) : WOut :=
  if v = 3 ∧ nbit (s.na (Obj.PAIR_CFG p)) 1 = false then refused6 s
  else done (s.pairLand p true v)

/-- PWM_FORCE_WRITE (R378). -/
def execPwmForceWrite (path : Path) (p : Nat) (v : Word) (s : State) : Host.Outcome State Fault Refusal :=
  .next (s.guardWrite path (Obj.PWM_FORCE p) v (wrPwmForce p v))

/-- A START or STOP on its way (R375): it lands 6 cycles after it has retired (R373). -/
def State.pairCtrl (s : State) (p : Nat) (stop : Bool) : State :=
  let x := s.pwmPair p
  s.setPair p { x with ctrl := x.ctrl ++ [(s.nowL + 6, stop)] }

/-- START (R375): the cycle after the write lands is a wrap, and the counter is 0. -/
def State.pairStart (s : State) (p : Nat) : State := s.pairCtrl p false

/-- STOP takes effect at the next wrap (R375); there is none ahead of a pair that stands and is not to start. -/
def State.pairStop (s : State) (p : Nat) : State := if (s.pwmPair p).wrapAt.isSome then s.pairCtrl p true else s

/-- Write of PAIR_CTRL (R375). -/
def wrPairCtrl (p : Nat) (v : Word) (s : State) : WOut :=
  if v = 3 then (s, 3)
  else if v = 1 then done (s.pairStart p)
  else if v = 2 then done (s.pairStop p)
  else done s

/-- PAIR_START (R375). -/
def execPairStart (path : Path) (p : Nat) (s : State) : Host.Outcome State Fault Refusal :=
  .next (s.guardWrite path (Obj.PAIR_CTRL p) 1 (wrPairCtrl p 1))

/-- PAIR_STOP (R375). -/
def execPairStop (path : Path) (p : Nat) (s : State) : Host.Outcome State Fault Refusal :=
  .next (s.guardWrite path (Obj.PAIR_CTRL p) 2 (wrPairCtrl p 2))

/-- Write of PWM_SYNC_START: every named pair starts in the same cycle (R375). -/
def wrPwmSyncStart (v : Word) (s : State) : WOut :=
  done (s.each (idxs 16 fun p => nbit v.toNat p) State.pairStart)

/-- PWM_SYNC_START (R375). -/
def execPwmSyncStart (path : Path) (v : Word) (s : State) : Host.Outcome State Fault Refusal :=
  .next (s.guardWrite path Obj.PWM_SYNC_START v (wrPwmSyncStart v))

/-- At S_k every running pair with SYNC_TICK is forced to 0: a wrap, which a natural wrap of the same cycle has been (R374). -/
def State.pwmTick (s : State) : State :=
  s.each (idxs 16 fun p =>
    let x := s.pwmPair p
    x.running && nbit x.cfg.toNat 4 && !(decide (x.since = s.nowL) && decide (x.counter = 0))) fun s p => s.pairWrap p s.nowL

/-- The pairs stand still from here: their counters hold (R383). -/
def State.pwmFreeze (s : State) : State :=
  s.each (List.range 16) fun s p => s.setPair p { s.pwmPair p with counter := BitVec.ofNat 16 (s.pwmCount p), since := s.nowL }
/-- The counters resume from their held values, and a dead-time count that the halt stopped goes on; that of a trip has run (R383). A START
or STOP that landed in the halt acts from here. -/
def State.pwmThaw (s : State) : State :=
  s.each (List.range 16) fun s p =>
    let x := s.pwmPair p
    s.setPair p { x with
      since := s.nowL, dtAt := if x.held then x.dtAt else x.dtAt + (s.nowL - x.since)
      ctrl := x.ctrl.map fun y => (max y.1 (s.nowL - 1), y.2) }

/-! ### Trip latches (R382) -/

/-- Clear latch `n` when its input is accepted inactive. -/
def State.tripClear (s : State) (n : Nat) : State :=
  if nbit s.pwm.level.toNat n then s.incL Obj.TRIP_CLEAR_REFUSED_CNT
  else
    let s1 : State := { s with pwm := { s.pwm with latch := bset s.pwm.latch n false } }
    (s1.irqLevel 13 n false).faultLevel (33 + n) false

/-- Write of TRIP_CLEAR (R382). -/
def wrTripClear (v : Word) (s : State) : WOut :=
  let s1 := s.each (idxs 4 fun n => nbit v.toNat n) State.tripClear
  if (List.range 4).any fun n => nbit v.toNat n && nbit s.pwm.level.toNat n then refused6 s1 else done s1

/-- TRIP_CLEAR (R382). -/
def execTripClear (path : Path) (v : Word) (s : State) : Host.Outcome State Fault Refusal :=
  .next (s.guardWrite path Obj.TRIP_CLEAR v (wrTripClear v))

/-! ### Objects (R385, R386) -/

/-- Bit per pair. -/
def pairBits (f : Nat → Bool) : Word := w32 (((List.range 16).map fun p => b2n (f p) * 2 ^ p).sum)

/-- PAIR_STATUS. -/
def State.pairStatus (s : State) (p : Nat) : Nat :=
  let x := (s.pwmPair p).landed s.nowL
  s.pwmCount p * 65536 + b2n s.frame.halted * 4096 + b2n (decide (x.shadow ≠ x.active)) * 2048
    + x.forceActive.toNat * 512 + b2n (s.pairTripped p) * 256 + b2n x.hOn * 32 + b2n x.lOn * 16
    + b2n (x.dtH || x.dtL) * 8 + b2n x.running * 4

/-- Objects of 2A40, 2A60 to 2A6F and 2A71. -/
def view17 (s : State) (key : Nat) : Option Word :=
  if key = Obj.PWM_RUNNING then some (pairBits fun p => (s.pwmPair p).running)
  else if key = Obj.PWM_TRIPPED then some (pairBits s.pairTripped)
  else if key = Obj.PWM_FORCED then some (pairBits fun p => decide ((s.pwmPair p).forceActive ≠ 0))
  else if key = Obj.TRIP_STATE_IN then some (w32 (s.pwm.level.toNat * 16 + s.pwm.latch.toNat))
  else if 0x2A60 ≤ key / 256 ∧ key / 256 ≤ 0x2A6F then
    let p := key / 256 - 0x2A60
    let x := (s.pwmPair p).landed s.nowL
    match key % 256 with
    | 1 => some x.shadow
    | 2 => some (x.forcePending.zeroExtend 32)
    | 4 => some (w32 (s.pairStatus p))
    | 5 => some x.active
    | _ => none
  else none

end Sys2Proof.Machine
end

