-- ==== Sys2Proof/Machine/Trips.lean ====
section
/-! DEFINITION. The acceptance of a TRIP_N level (R379) with all that it starts: the latch, the trip of pairs, the urgent
triggers, the capture and the demand on the Watchtower. -/
namespace Sys2Proof.Machine

/-- SCHED_PEND as an occurrence with SAFE entry. -/
def occPend (s : State) : State := s.raise 53

/-- A low level is accepted (R379): `edge` is the filter-input stamp in converter time. Of the triggers of one cycle the lowest code wins,
so the input's own comes before that of SAFE (R350). -/
def State.tripAccept (s : State) (n edge : Nat) : State :=
  let was := s.fActive (33 + n)
  let s1 : State := { s with pwm := { s.pwm with level := bset s.pwm.level n true, latch := bset s.pwm.latch n true } }
  let s2 := (s1.incL (Obj.TRIP_CNT n)).irqLevel 13 n true
  let s3 : State := { s2 with fault := { s2.fault with active := bset s2.fault.active (33 + n) true } }
  let s4 := if was then s3 else s3.raise0 (33 + n) (s3.faultClass (33 + n)) 0 .n false
  let s5 := s4.journalEdge (0xB0 + n) (s4.gl (Obj.TRIP_CNT n)) edge
  let s6 := reactC3 s (if nbit (s5.na Obj.ACQ_TRIP_MASK) n then acqTrigger occPend 5 (s5.time64 edge) s5 else s5)
  let s7 := ((s6.applyTrips).event (0x41 + n)).adcTriggers 1 n
  if nbit (s7.nk Obj.TRIP_SBK_MASK) n then s7.cause n true (some edge) else s7

/-- The high level is accepted: the latch stays (R382). -/
def State.tripLevelOff (s : State) (n : Nat) : State :=
  ({ s with pwm := { s.pwm with level := bset s.pwm.level n false } }).cause n false

/-- TRIP_INPUT_ACCEPT (R379): the level that came at `edge` has held for TRIP_FILT_NS. -/
def execTripInputAccept (n : Nat) (active : Bool) (edge : Nat) (s : State) : Host.Outcome State Fault Refusal :=
  .next (
    let s0 := s.toC (edge + s.na (Obj.TRIP_FILT_NS n))
    if active then (if nbit s0.pwm.level.toNat n then s0 else s0.tripAccept n edge) else s0.tripLevelOff n)

end Sys2Proof.Machine
end

