-- ==== Sys2Proof/Machine/Acq.lean ====
section
/-! DEFINITION. The Acquisition Engine's commands and blocks (R343 to R355). -/
namespace Sys2Proof.Machine

/-! ### Commands (R347, R348) -/

/-- ARM (R347 to R349, R449): header, event list and write pointer are cleared; the banks come on. -/
def State.acqArm (s : State) : State :=
  let s0 := s.abortMarch fun b => decide (35 ≤ b) && decide (b ≤ 162)
  let s1 : State := { s0 with
    sram := tclear (acqAddr 0) (acqAddr 4096) s0.sram
    acq := { s0.acq with
      st := .rearm, armFrame := s0.frame.count, written := 0, wrSlot := 0, lastFrame := 0, trig := none, postDone := 0
      fifo := [], lastLvl := none, snap := [], evtCount := 0, evtNext := 0, stamps := [] } }
  let s2 := s1.each ([Obj.CFLAGS, Obj.TRIG_ORIGIN_LO, Obj.TRIG_ORIGIN_LO + 1, Obj.TRIG_FRAME_LO, Obj.TRIG_FRAME_LO + 1,
    Obj.FIRST_SLOT, Obj.PRE_BLOCKS, Obj.POST_BLOCKS]) fun s k => s.setL k 0
  s2.each ((List.range 128).map (35 + ·)) State.wakeBank

/-- Write of ACQ_CMD (R347, R355): a command that does not apply in the state is ignored. -/
def wrAcqCmd (v : Word) (s : State) : WOut :=
  if v = 1 then done s.acqArm
  else if v = 2 then done (acqTrigger occPend 1 (s.time64 s.nowC) s)
  else if v = 3 then
    done (if s.acq.st = .pretrig ∨ s.acq.st = .post then acqDone occPend true false s else s)
  else done { s with acq := { s.acq with st := .idle, fifo := [] } }

/-- ACQ_ARM (R348). -/
def execAcqArm (p : Path) (s : State) : Host.Outcome State Fault Refusal := .next (s.guardWrite p Obj.ACQ_CMD 1 (wrAcqCmd 1))
/-- ACQ_TRIGGER (R350). -/
def execAcqTrigger (p : Path) (s : State) : Host.Outcome State Fault Refusal := .next (s.guardWrite p Obj.ACQ_CMD 2 (wrAcqCmd 2))
/-- ACQ_STOP (R347). -/
def execAcqStop (p : Path) (s : State) : Host.Outcome State Fault Refusal := .next (s.guardWrite p Obj.ACQ_CMD 3 (wrAcqCmd 3))
/-- ACQ_DISARM (R347). -/
def execAcqDisarm (p : Path) (s : State) : Host.Outcome State Fault Refusal := .next (s.guardWrite p Obj.ACQ_CMD 4 (wrAcqCmd 4))

/-! ### Values that a frame leaves for its block (R344, R345) -/

/-- Hold a value of a frame for its block, and forget frames that have passed. -/
def State.acqHold (s : State) (k c v : Nat) : State :=
  { s with acq := { s.acq with snap := (k, c, v) :: s.acq.snap.filter fun e => decide (k < e.1 + 32) && !(e.1 == k && e.2.1 == c) } }

/-- What a frame left for a channel; a value that is not there reads 0 and is marked. -/
def State.acqHeld (s : State) (k c : Nat) : Nat :=
  match s.acq.snap.find? fun e => e.1 == k && e.2.1 == c with
  | some e => e.2.2
  | none => 65536

/-- S_k of a frame that qualifies is kept, and is the trigger block's when it is that frame's (R351). -/
def State.acqStamp (s : State) : State :=
  let k := s.frame.count
  if s.acq.st = .idle ∨ s.acqQual k ≠ k then s
  else
    let t := s.time64 s.nowC
    { s with acq := { s.acq with
        stamps := (k, t) :: s.acq.stamps.take (s.acqRcap + 63)
        trig := s.acq.trig.map fun x => if x.frame = k then { x with frameTime := t } else x } }

/-- KIND and SRC of a channel (R355). -/
def State.acqKind (s : State) (c : Nat) : Nat := fld (s.ga (Obj.ACQ_CH_CFG c)) 31 28
def State.acqSrc (s : State) (c : Nat) : Nat := fld (s.ga (Obj.ACQ_CH_CFG c)) 13 0

/-! ### Blocks (R343 to R346) -/

/-- Converter time of row `r` of the block of frame `k` (R344), in 1/60 ns. -/
def State.rowTime (s : State) (k r : Nat) : Int :=
  let from0 := if k = 0 then s.tickOf 0 - s.tf else s.tickOf (k - 1)
  60 * from0 + floorDiv ((r + 1 : Nat) * 60 * (s.tickOf k - from0)) (max 1 (s.na Obj.ACQ_NSUB) : Nat)

/-- Sample of a stream at a row of frame `k` (R345): the latest one placed at or before the row, which lies in the frame before when none
of frame `k` is that early; 0 and marked where it is missing. -/
def State.acqStream (s : State) (k st r : Nat) : Nat × Bool :=
  let rec? (j : Nat) : Option StreamRec := s.samples.find? fun x => decide (x.stream = st) && decide (x.frame = j)
  match rec? k with
  | none => (0, true)
  | some x =>
    let m := (r + 1) * x.vals.length / max 1 (s.na Obj.ACQ_NSUB)
    let v : Option (Int × Bool) :=
      if 0 < m then x.vals[m - 1]?.map (·, x.ovr || x.bad)
      else if k = 0 then none
      else (rec? (k - 1)).bind fun y => y.vals.getLast?.map (·, y.ovr || y.bad)
    match v with
    | some (a, b) => ((BitVec.ofInt 16 a).toNat, b)
    | none => (0, true)

/-- Newest result of a converter input at or before a row of frame `k` (R345, R363). -/
def State.acqInput (s : State) (k i r : Nat) : Nat × Bool :=
  match s.adc.tapLog.find? fun x => decide (x.1 = i) && decide (60 * (x.2.1 : Int) ≤ s.rowTime k r) with
  | some x => (x.2.2.1, x.2.2.2)
  | none => (0, true)

/-- Value and mark of channel `c` in row `r` of the block of frame `k` (R345). -/
def State.acqCell (s : State) (k c r : Nat) : Nat × Bool :=
  match s.acqKind c with
  | 0 => (0, false)
  | 1 => s.acqStream k (s.acqSrc c) r
  | 2 => s.acqInput k (s.acqSrc c) r
  | _ => let v := s.acqHeld k c; (v % 65536, decide (65536 ≤ v))

/-- The bytes of the block of frame `k`. -/
def State.acqBytes (s : State) (k : Nat) : List Byte :=
  let nch := s.na Obj.ACQ_NCH
  let rows := List.range (s.na Obj.ACQ_NSUB)
  let body := rows.flatMap fun r => (List.range nch).flatMap fun c => leBytes 2 (s.acqCell k c r).1
  let mask := ((List.range nch).map fun c => b2n (rows.any fun r => (s.acqCell k c r).2) * 2 ^ c).sum
  let trig := match s.acq.trig with
    | some t => decide (t.frame = k)
    | none => false
  let flag (c : Nat) : Bool := decide (s.acqHeld k c = 1)
  let hdr := leBytes 4 k ++ leBytes 4 (b2n trig * 2147483648 + b2n (flag 65) * 1073741824 + b2n (flag 64) * 536870912)
    ++ leBytes 8 mask
  hdr ++ body ++ List.replicate (s.acqB - 16 - body.length) 0

/-- Newest frame whose block has been formed. -/
def State.acqFormed (s : State) : Option Nat :=
  match s.acq.fifo.getLast? with
  | some b => some b.frame
  | none => if 0 < s.acq.written then some s.acq.lastFrame else none

/-- The frame whose block is formed next (R344, R348). -/
def State.acqNextFrame (s : State) : Nat :=
  match s.acqFormed with
  | some f => f + s.acqDecim
  | none => s.acqQual (s.acq.armFrame + 3)

/-- Everything that the block of frame `k` records is there (R346): the frame has begun, and has closed on every lane that carries a
kind-1 source; with a kind-3 channel D_k + 150 ns has passed. -/
def State.acqReady (s : State) (k : Nat) : Bool :=
  let chans (kind : Nat) : List Nat := (List.range (s.na Obj.ACQ_NCH)).filter fun c => decide (s.acqKind c = kind)
  let lanes := (List.range 32).filter fun n => s.inMan n && (chans 1).any fun c => (s.laneStreams n).contains (s.acqSrc c)
  decide (k ≤ s.frame.count) && lanes.all (fun n => (s.route n).closed k)
    && ((chans 3).isEmpty || decide (s.tickOf k + s.dk + 150 ≤ s.nowC))

/-- ACQ_BLOCK_FORM (R346, R353): the next block is formed and enters the FIFO, or finds it full. -/
def execAcqBlockForm (s : State) : Host.Outcome State Fault Refusal :=
  .next (
    let k := s.acqNextFrame
    if (decide (s.acq.st = .pretrig) || decide (s.acq.st = .post)) && s.acqReady k then
      if (s.acq.fifo.map fun b => b.bytes.length).sum + s.acqB ≤ 1024 then
        { s with acq := { s.acq with fifo := s.acq.fifo ++ [⟨k, s.acqBytes k⟩] } }
      else (acqDone occPend false true (s.incL Obj.OVERFLOW_CNT)).raise 45
    else s)

/-- Level trigger on the rows of a block (R350): the time of the later row is its origin. -/
def State.acqLevel (s : State) (k : Nat) (rows : List Int) : State :=
  if s.na Obj.ACQ_NCH ≤ s.na Obj.ACQ_LVL_CH then s else
  let n := s.na Obj.ACQ_NSUB
  let lvl := s.ia Obj.ACQ_LVL
  let dir := s.na Obj.ACQ_LVL_DIR
  (List.range n).foldl (fun s r =>
    let cur := rows.getD r 0
    let hit := match s.acq.lastLvl with
      | none => false
      | some prev => (nbit dir 0 && decide (prev < lvl) && decide (lvl ≤ cur)) || (nbit dir 1 && decide (lvl < prev) && decide (cur ≤ lvl))
    let s1 : State := { s with acq := { s.acq with lastLvl := some cur } }
    if hit then acqTrigger occPend 3 (s1.time64 (s1.rowTime k r / 60).toNat) s1 else s1) s

/-- Row values of a channel in a block's bytes, as signed numbers. -/
def State.acqRowsOf (s : State) (bytes : List Byte) (c : Nat) : List Int :=
  let nch := s.na Obj.ACQ_NCH
  (List.range (s.na Obj.ACQ_NSUB)).map fun r => sext 16 (ofLeBytes ((bytes.drop (16 + 2 * (r * nch + c))).take 2))

/-- ACQ_BLOCK_WRITE (R346, R348, R351): the oldest block of the FIFO goes to the next slot once its bank is on. -/
def execAcqBlockWrite (s : State) : Host.Outcome State Fault Refusal :=
  .next (
    match s.acq.fifo with
    | [] => s
    | b :: rest =>
      let bank := s.acqSlotAddr s.acq.wrSlot / 65536
      if (s.bank bank).pwr = .on ∧ (s.acq.st = .pretrig ∨ s.acq.st = .post) then
        let slot := s.acq.wrSlot
        let s1 := s.wrBytes (s.acqSlotAddr slot) b.bytes
        let isTrig := match s.acq.trig with
          | some t => decide (t.frame = b.frame)
          | none => false
        let past := match s.acq.trig with
          | some t => decide (t.frame < b.frame)
          | none => false
        let s2 : State := { s1 with acq := { s1.acq with
          fifo := rest, written := s.acq.written + 1, lastFrame := b.frame, wrSlot := (slot + 1) % s.acqRcap
          postDone := s.acq.postDone + b2n past } }
        let s3 := if isTrig then s2.acqMarkTrig slot else s2
        acqCheckDone occPend (s3.acqLevel b.frame (s3.acqRowsOf b.bytes (s3.na Obj.ACQ_LVL_CH)))
      else s)

/-! ### Event list (R352) -/

/-- A Wave Tagger record enters the event list in PRETRIG and POST. -/
def State.acqTag (s : State) (stream tag : Nat) (data : Word) : State :=
  let n := s.acq.evtCount
  if s.acq.st = .pretrig ∨ (s.acq.st = .post ∧ n < 252) then
    let s1 := (s.ownerOn 35).wrBytes (acqAddr (64 + 16 * s.acq.evtNext)) (leBytes 8 tag ++ leBytes 4 data.toNat ++ leBytes 1 stream ++ [0, 0, 0])
    { s1 with acq := { s1.acq with evtCount := min 252 (n + 1), evtNext := (s1.acq.evtNext + 1) % 252 } }
  else if s.acq.st = .post then s.incL Obj.EVT_DROP_CNT
  else s

/-! ### Objects (R355) -/

/-- Objects of 2900 and 2903 that the engine computes. -/
def view15 (s : State) (key : Nat) : Option Word :=
  if key = Obj.ACQ_STATE then some (w32 s.acq.st.code)
  else if key = Obj.WR_SLOT then some (w32 s.acq.wrSlot)
  else if key = Obj.ACQ_R_CAP then some (w32 s.acqRcap)
  else if key = Obj.BLOCK_BYTES then some (w32 s.acqB)
  else none

end Sys2Proof.Machine
end

