-- ==== Sys2Proof/Machine/Launch.lean ====
section
/-! DEFINITION. Couriers, beacons and the trigger pins (R146 to R161). The consumers of a beacon act in Beacons.lean. Times of
departures and edges at the balls are given, in ns of converter time. -/
namespace Sys2Proof.Machine

/-! ### Host and firmware couriers (R151) -/

/-- The result of COURIER_REQ once its courier has left, or was dropped, on every lane (R151). -/
def State.courierEnd (s : State) : State :=
  if s.launch.reqLanes = 0 then s.setLN Obj.COURIER_REQ_RESULT (if s.launch.reqLeft then 1 else 6) else s

/-- The couriers of an earlier request no longer report. -/
def State.forgetReq (s : State) : State :=
  { s with launch := { s.launch with queue := s.launch.queue.map fun q => q.map fun c => { c with fromReq := false } } }

/-- Write of COURIER_REQ (R151): 2 HOLD, 3 RELEASE_HOLD on the lanes of COURIER_LANES. -/
def wrCourierReq (v : Word) (s : State) : WOut :=
  if s.mode = .boot ∨ s.mode = .test ∨ s.mode = .safe ∨ s.mode = .mirror then refused6 (s.setLN Obj.COURIER_REQ_RESULT 2)
  else if s.pair.role = .standby then refused6 (s.setLN Obj.COURIER_REQ_RESULT 3)
  else
    let c : Courier := { kind := if v = 2 then .hold else .releaseHold, wtOrigin := false, epoch := s.pair.epoch, blkSlot := 0,
                         holdLimit := BitVec.ofNat 8 (s.na Obj.CELL_HOLD_LIMIT), fromReq := true, edge := none }
    let lanes := idxs 32 fun n => nbit (s.nl Obj.COURIER_LANES) n && s.inData n
    let s1 := (s.forgetReq.each lanes fun s n => s.queueCourier c n).incL
      (if v = 2 then Obj.HOLD_COURIER_CNT else Obj.RELEASE_COURIER_CNT)
    let mask := BitVec.ofNat 32 ((lanes.map fun n => 2 ^ n).sum)
    done (({ s1.setLN Obj.COURIER_REQ_RESULT 5 with launch := { s1.launch with reqLanes := mask, reqLeft := false } }).courierEnd)

/-- COURIER_REQ_HOLD (R151). -/
def execCourierReqHold (p : Path) (s : State) : Host.Outcome State Fault Refusal :=
  .next (s.guardWrite p Obj.COURIER_REQ 2 (wrCourierReq 2))
/-- COURIER_REQ_RELEASE_HOLD (R151). -/
def execCourierReqReleaseHold (p : Path) (s : State) : Host.Outcome State Fault Refusal :=
  .next (s.guardWrite p Obj.COURIER_REQ 3 (wrCourierReq 3))

/-! ### Departures (R148, R153) -/

/-- A trip courier has left its last lane, or that lane was lost: the latency is reported, rounded up to ns (R78, R153). -/
def State.tripLatency (s : State) (m : TripMeas) : State :=
  if m.last = 0 then s
  else
    let lat := min 65535 (ceilDiv (m.last - 4 * m.edge) 4)
    ((s.setLN Obj.LAST_TRIP_LAT_NS lat).setLN Obj.MAX_TRIP_LAT_NS (max lat (s.nl Obj.MAX_TRIP_LAT_NS))).raiseIf (decide (250 < lat)) 50

/-- A courier of COURIER_REQ no longer waits on a lane (R151). -/
def State.reqGone (s : State) (n : Nat) (left : Bool) : State :=
  if nbit s.launch.reqLanes.toNat n then
    ({ s with launch := { s.launch with reqLanes := bset s.launch.reqLanes n false, reqLeft := s.launch.reqLeft || left } }).courierEnd
  else s

/-- The first measurement of an edge that still awaits lane `n`, taken out of the list. -/
def takeTrip (n edge : Nat) : List TripMeas → Option TripMeas × List TripMeas
  | [] => (none, [])
  | m :: t =>
    if m.edge = edge ∧ nbit m.lanes.toNat n then (some m, t)
    else
      let r := takeTrip n edge t
      (r.1, m :: r.2)

/-- The trip courier of an edge leaves lane `n` at `dep`, in 0.25 ns, or never will. -/
def State.tripGone (s : State) (n : Nat) (edge : Nat) (dep : Option Nat) : State :=
  let r := takeTrip n edge s.launch.trips
  match r.1 with
  | none => s
  | some m =>
    let m1 : TripMeas := { m with lanes := bset m.lanes n false, last := max m.last (dep.getD 0) }
    let s1 : State := { s with launch := { s.launch with trips := if m1.lanes = 0 then r.2 else m1 :: r.2 } }
    if m1.lanes = 0 then s1.tripLatency m1 else s1

/-- HOLD of the caravans follows what left the lane (R103). -/
def State.holdFlag (s : State) (n : Nat) (k : CourierKind) : State :=
  match k with
  | .block => s
  | .hold => s.setRoute n { s.route n with hold := true }
  | .releaseHold => s.setRoute n { s.route n with hold := false }

/-- COURIER_SEND (R147, R148): the first courier of the lane leaves at `dep`, in 0.25 ns (R78). -/
def execCourierSend (n dep : Nat) (s : State) : Host.Outcome State Fault Refusal :=
  .next (
    match vget [] s.launch.queue n with
    | [] => s
    | c :: rest =>
      if s.inData n then
        let s0 := s.toC (dep / 4)
        let s1 : State := { s0 with launch := { s0.launch with
          queue := vset s0.launch.queue n rest, lastCourier := vset s0.launch.lastCourier n (some c.payload) } }
        let s2 := (s1.blockOut n (dep / 4)).holdFlag n c.kind
        let s3 := if c.fromReq then s2.reqGone n true else s2
        match c.edge with
        | some e => s3.tripGone n e (some dep)
        | none => s3
      else s)

/-- A lane leaves DATA: its courier requests are dropped (R148). -/
def State.dropCouriers (s : State) (n : Nat) : State :=
  let q := vget [] s.launch.queue n
  let s1 : State := { s with launch := { s.launch with queue := vset s.launch.queue n [] } }
  let s2 := if q.any (·.fromReq) then s1.reqGone n false else s1
  (q.filterMap (·.edge)).foldl (fun s e => s.tripGone n e none) s2

/-- The repeats of each block courier, once in each of the 2 next frames: after its caravans, or without them in a frame that a debug
halt stops (R21, R149). -/
def State.repeatCourier (s : State) : State :=
  let k := s.frame.count
  let due := s.launch.repeats.filter fun x => decide (x.2.2 < k)
  let s1 := due.foldl (fun s x => s.each (List.range 32) fun s n => s.queueCourier { x.1 with edge := none } n) s
  { s1 with launch := { s1.launch with
    repeats := s1.launch.repeats.filterMap fun x =>
      if x.2.2 < k then (if x.2.1 ≤ 1 then none else some (x.1, x.2.1 - 1, k)) else some x } }

/-! ### Beacons (R154 to R157) -/

/-- Converter time in 0.25 ns. -/
def State.nowCQ (s : State) : Nat := s.time.c / 1073741824

/-- Frame count whose interval from its tick to the next holds a converter time in 0.25 ns, and the offset in it. -/
def State.frameAt (s : State) (q : Nat) : Nat × Nat :=
  let d : Int := (q : Int) - 4 * s.frame.tickC
  let f : Int := max 1 (4 * s.tf)
  ((s.frame.count + floorDiv d f).toNat, (d - floorDiv d f * f).toNat)

/-- Frame number that a beacon port uses for a frame of this device (R155, R414): the pair's on the lanes and the Mirror
Link, the owner's on the upstream port. -/
def State.portFrame (s : State) (port k : Nat) : Nat :=
  if port = 34 then ((k : Int) + s.routes.upDelta).toNat else s.pairFrame k

/-- Queue a beacon on a port (R156): a full queue drops it. -/
def State.queueBeacon (s : State) (b : Beacon) (port : Nat) : State :=
  let q := vget [] s.launch.beacons port
  if q.length < 8 then { s with launch := { s.launch with beacons := vset s.launch.beacons port (q ++ [b]) } }
  else s.incL Obj.BEACON_Q_DROP_CNT

/-- Ports that a beacon leaves on: the lanes of BEACON_TX_LANES when `lanes` holds, the Mirror Link and the upstream port
by BEACON_RELAY. -/
def State.beaconPorts (s : State) (lanes : Bool) : List Nat :=
  let r := s.na Obj.BEACON_RELAY
  (if lanes then idxs 32 fun n => nbit (s.na Obj.BEACON_TX_LANES) n else [])
    ++ (if nbit r 2 then [32, 33] else []) ++ (if nbit r 1 then [34] else [])

/-- Send a beacon of an event with its origin on every port of a list. -/
def State.sendBeacon (s : State) (event hops source originQ : Nat) (ports : List Nat) : State :=
  let f := s.frameAt originQ
  s.each ports fun s p =>
    s.queueBeacon { event := BitVec.ofNat 6 event, hops := BitVec.ofNat 2 hops, originFrame := BitVec.ofNat 16 (s.portFrame p f.1),
                    originOff := BitVec.ofNat 17 f.2, source := BitVec.ofNat 7 source } p

/-- BEACON_COMP_NS of an event. -/
def State.comp (s : State) (e : Nat) : Nat := s.na (Obj.BEACON_COMP_NS e)
/-- TRIG_OUT_EVENTS names the event. -/
def State.trigOutHas (s : State) (e : Nat) : Bool :=
  if e < 32 then nbit (s.na Obj.TRIG_OUT_EVENTS_LO) e else nbit (s.na Obj.TRIG_OUT_EVENTS_HI) (e - 32)

/-- Delivery of an event (R158, R160, R350): its consumers are due at origin + BEACON_COMP_NS, the pulse TRIG_OUT_LEAD_NS
before; the acquisition trigger acts now. -/
def State.deliver (s : State) (e originQ : Nat) : State :=
  let now := s.nowC
  let at0 : Int := (originQ / 4 + s.comp e : Nat)
  let a : BeaconAct := { event := BitVec.ofNat 6 e, originQ := originQ, late := decide (at0 < now + 10)
                         trigLate := decide (at0 - s.na Obj.TRIG_OUT_LEAD_NS < now), act := true, pulse := s.trigOutHas e }
  let s1 : State := { s with launch := { s.launch with acts := s.launch.acts ++ [a] } }
  if s1.na Obj.ACQ_TRIG_EVT = e then acqTrigger occPend 2 (s1.time64 (originQ / 4)) s1 else s1

/-- The S9 originates a beacon (R155) and delivers it to its own consumers. -/
def State.originate (s : State) (e originQ : Nat) : State :=
  (s.sendBeacon e 0 (s.na Obj.BEACON_SRC_ID) originQ (s.beaconPorts true)).deliver e originQ

/-- Write of BEACON_SEND (R155): the origin is the write's retirement. -/
def wrBeaconSend (v : Word) (s : State) : WOut := done (s.originate v.toNat s.nowCQ)

/-- BEACON_SEND (R155). -/
def execBeaconSend (p : Path) (v : Word) (s : State) : Host.Outcome State Fault Refusal :=
  .next (s.guardWrite p Obj.BEACON_SEND v (wrBeaconSend v))

/-- A port carries beacons now: a lane in DATA; the upstream port is lane 31. -/
def State.beaconPortUp (s : State) (port : Nat) : Bool :=
  if port < 32 then s.inData port else if port < 34 then s.inData port else s.inData 31 && decide (s.na Obj.UPLINK_EN = 1)

/-- The lane of a beacon port. -/
def portLane (port : Nat) : Nat := if port = 34 then 31 else port

/-- BEACON_TRANSMIT (R154, R156): the first beacon of a port leaves at `t`, in 0.25 ns; not within a train or another block, and not while
a courier waits. -/
def execBeaconTransmit (port t : Nat) (s : State) : Host.Outcome State Fault Refusal :=
  .next (
    match vget [] s.launch.beacons port with
    | [] => s
    | b :: rest =>
      let n := portLane port
      if s.beaconPortUp port && !s.laneBusy n (t / 4) && (vget [] s.launch.queue n).isEmpty then
        let s0 := (s.toC (t / 4)).blockOut n (t / 4)
        ({ s0 with launch := { s0.launch with
          beacons := vset s0.launch.beacons port rest, lastBeacon := vset s0.launch.lastBeacon port (some b.payload) } }).incL
            Obj.BEACON_TX_CNT
      else s)

/-- Fields of a beacon's payload (R154). -/
def beaconOf (x : BitVec 64) : Beacon :=
  { event := x.extractLsb' 8 6, hops := x.extractLsb' 14 2, originFrame := x.extractLsb' 16 16, originOff := x.extractLsb' 32 17
    source := x.extractLsb' 49 7 }

/-- The frame number at or before `now` whose low 16 bits are given (R154). -/
def extend16 (low now : Nat) : Nat := now - (now + 65536 - low % 65536) % 65536

/-- The same beacon by R157. -/
def Beacon.same (a b : Beacon) : Bool :=
  decide (a.event = b.event) && decide (a.source = b.source) && decide (a.originFrame = b.originFrame) && decide (a.originOff = b.originOff)

/-- A beacon with a good BCRC that is no duplicate acts, and is relayed (R157). -/
def State.takeBeacon (s : State) (port : Nat) (b : Beacon) : State :=
  let nowF := s.portFrame port s.frame.count
  let back := nowF - extend16 b.originFrame.toNat nowF
  let originQ := (4 * (s.frame.tickC : Int) - 4 * (back * s.tf : Nat) + b.originOff.toNat).toNat
  let s1 := s.deliver b.event.toNat originQ
  if b.hops = 3 then s1.incL Obj.BEACON_HOPS_DROP_CNT
  else s1.sendBeacon b.event.toNat (b.hops.toNat + 1) b.source.toNat originQ (s1.beaconPorts (nbit (s1.na Obj.BEACON_RELAY) 0))

/-- BEACON_RECEIVE (R79, R154, R157): a BEACON block arrives on a port whose lane is in DATA. An ignored one is received as well. -/
def execBeaconReceive (port : Nat) (payload : BitVec 64) (s : State) : Host.Outcome State Fault Refusal :=
  .next (
    if !s.beaconPortUp port ∨ payload.extractLsb' 0 8 ≠ 0x99 then s
    else if crc8 (leBytes 7 payload.toNat) ≠ payload.extractLsb' 56 8 then s.incL Obj.BEACON_CRC_ERR_CNT
    else
      let own := BitVec.ofNat 7 (s.na Obj.BEACON_SRC_ID)
      let b0 := beaconOf payload
      let b : Beacon := if b0.source = 127 then { b0 with source := own } else b0
      let s1 := s.incL Obj.BEACON_RX_CNT
      let s2 : State := { s1 with launch := { s1.launch with dup := (b :: s1.launch.dup).take 16 } }
      if s1.launch.dup.any (Beacon.same b) then s2.incL Obj.BEACON_DUP_CNT
      else if b0.source = own then s2
      else s2.takeBeacon port b)

/-! ### Trigger pins (R159, R160) -/

/-- TRIG_IN_EDGE (R159): an edge has held for the filter time, `rising` or not; `stamp` is its stamp at the ball. One of the polarity that
is not selected has no effect. -/
def execTrigInEdge (rising : Bool) (stamp : Nat) (s : State) : Host.Outcome State Fault Refusal :=
  .next (
    if nbit (s.na Obj.TRIG_IN_CFG) 0 && (nbit (s.na Obj.TRIG_IN_CFG) 1 != rising) then
      let s0 := s.toC stamp
      let early := match s0.launch.trigInLast with
        | some t => decide (stamp < t + 100)
        | none => false
      if early then s0.incL Obj.TRIG_IN_IGNORED_CNT
      else
        let s1 : State := { s0 with launch := { s0.launch with trigInLast := some stamp } }
        (s1.incL Obj.TRIG_IN_CNT).originate (s1.na Obj.TRIG_IN_EVENT)
          (4 * (stamp - s1.na Obj.TRIG_IN_FILTER_NS - s1.na Obj.TRIG_IN_COMP_NS))
    else s)

/-- The acts without those that are over. -/
def liveActs (l : List BeaconAct) : List BeaconAct := l.filter fun a => a.act || a.pulse

/-- Replace the first act that satisfies `f`. -/
def setFirst (f : BeaconAct → Bool) (g : BeaconAct → BeaconAct) : List BeaconAct → List BeaconAct
  | [] => []
  | a :: t => if f a then g a :: t else a :: setFirst f g t

/-- TRIG_OUT_START (R160): the pulse of a delivered event starts. -/
def execTrigOutStart (e : Nat) (s : State) : Host.Outcome State Fault Refusal :=
  .next (
    let f (a : BeaconAct) : Bool := a.pulse && decide (a.event.toNat = e)
    match s.launch.acts.find? f with
    | none => s
    | some a =>
      let t := a.originQ / 4 + s.comp e - s.na Obj.TRIG_OUT_LEAD_NS
      let s0 := if a.trigLate then s else s.toC t
      let stop := s0.nowC + s0.na Obj.TRIG_OUT_WIDTH_NS
      let s1 : State := { s0 with launch := { s0.launch with
        acts := liveActs (setFirst f (fun x => { x with pulse := false }) s0.launch.acts)
        trigOut := some (max stop (s0.launch.trigOut.getD 0)) } }
      (s1.incL Obj.TRIG_OUT_CNT).incIf a.trigLate Obj.TRIG_OUT_LATE_CNT)

/-- TRIG_OUT_END (R160). -/
def execTrigOutEnd (s : State) : Host.Outcome State Fault Refusal :=
  .next (
    match s.launch.trigOut with
    | none => s
    | some t => { s.toC t with launch := { s.launch with trigOut := none } })

/-- The level of the TRIG_OUT ball (R160, R161): active while a pulse lasts, TRIG_OUT_POL 0 being active high. -/
def State.trigOutPin (s : State) : Bool := s.launch.trigOut.isSome != decide (s.ga Obj.TRIG_OUT_POL = 1)

/-! ### Objects (R161) -/

/-- Objects of the 22A0 block that the route controllers hold. -/
def view06 (s : State) (key : Nat) : Option Word :=
  if key = Obj.HOLD_LANES then some (w32 ((idxs 32 fun n => (s.route n).hold && s.inMan n).map fun n => 2 ^ n).sum)
  else none

end Sys2Proof.Machine
end

