-- ==== Sys2Proof/Machine/Ledger.lean ====
section
/-! DEFINITION. The Cell Ledger (R162 to R187): entries, updates from records, misses, staleness, health transitions, the
per-arm figures, host health commands and the staging of configurations. -/
namespace Sys2Proof.Machine

/-! ### Entries (R162 to R166) -/

def State.entry (s : State) (i : Nat) : Entry := tget (fun _ => Entry.empty) s.ledger.entries i
def State.setEntry (s : State) (i : Nat) (e : Entry) : State :=
  { s with ledger := { s.ledger with entries := tput (fun _ => Entry.empty) s.ledger.entries i e } }

def Entry.vcell (e : Entry) : Nat := fld e.w0 31 16
def Entry.status (e : Entry) (b : Nat) : Bool := nbit e.w0.toNat b
def Entry.echo (e : Entry) : Nat := fld e.w0 5 4
def Entry.lastSeen (e : Entry) : Nat := fld e.w1 31 16
def Entry.missRun (e : Entry) : Nat := fld e.w1 15 4
def Entry.faultRun (e : Entry) : Nat := fld e.w1 3 0
def Entry.lastCmd (e : Entry) : Nat := fld e.w2 31 16
def Entry.budget (e : Entry) : Nat := fld e.w2 15 0
def Entry.arm (e : Entry) : Nat := fld e.w3 31 28
def Entry.pos (e : Entry) : Nat := fld e.w3 27 17
def Entry.fullBridge (e : Entry) : Bool := nbit e.w3.toNat 16
def Entry.enabled (e : Entry) : Bool := nbit e.w3.toNat 15
def Entry.spare (e : Entry) : Bool := nbit e.w3.toNat 14
def Entry.health (e : Entry) : Nat := fld e.w3 13 11
def Entry.cleanRun (e : Entry) : Nat := fld e.w3 10 4
def Entry.hcause (e : Entry) : Nat := fld e.w3 3 0

/-- W1 from its fields (R164). -/
def mkW1 (seen miss fault : Nat) : Word := w32 (seen % 65536 * 65536 + miss * 16 + fault)
/-- W3 with new health fields (R166). -/
def Entry.withHealth (e : Entry) (h clean cause : Nat) : Entry :=
  { e with w3 := w32 (e.w3.toNat / 16384 * 16384 + h * 2048 + clean * 16 + cause) }
/-- W2 from its fields (R165). -/
def mkW2 (cmd budget : Nat) : Word := w32 (cmd * 65536 + budget)
/-- The entry as reinitialised (R169). -/
def Entry.reinit (e : Entry) (cause : Nat) : Entry :=
  { w0 := 0, w1 := 0, w2 := 0xC0000000, w3 := w32 (e.w3.toNat / 16384 * 16384 + cause) }

/-- Enabled entries with their indices, in order. -/
def State.enabledEntries (s : State) : List (Nat × Entry) := s.ledger.entries.filter fun x => x.2.enabled
/-- Enabled entries of an arm. -/
def State.armEntries (s : State) (a : Nat) : List (Nat × Entry) := s.enabledEntries.filter fun x => x.2.arm == a

/-- Lane whose manifest places a cell, and its position. -/
def State.cellSite (s : State) (i : Nat) : Option (Nat × Nat) :=
  (List.range 32).findSome? fun n =>
    (s.leaves n).findSome? fun x =>
      if (entKind x.2 = 1 ∨ entKind x.2 = 2) ∧ entTarget x.2 = i then some (n, x.1) else none

/-! ### Health (R170 to R179) -/

/-- A health transition of an entry (R179), journalled when `j` says so. -/
def State.healthEvent (s : State) (i : Nat) (j : Bool) : State :=
  let e := s.entry i
  let s1 := s.incL Obj.HEALTH_EVT_CNT
  if j then s1.journal 0xC0 (w32 (e.hcause * 1048576 + e.health * 65536 + i)) else s1

/-- HEALTH changes for a cause. -/
def State.goHealth (s : State) (i h cause : Nat) (j : Bool := true) : State :=
  let e := s.entry i
  (s.setEntry i (e.withHealth h e.cleanRun cause)).healthEvent i j

/-- The entry is reinitialised with a cause (R169, R177, R179): a transition when it is enabled. -/
def State.reinitEntry (s : State) (i : Nat) (e : Entry) (cause : Nat) : State :=
  let s1 := (s.setEntry i (e.reinit cause)).incL Obj.REINIT_CNT
  let s2 : State := { s1 with sel := { s1.sel with budget := tput (fun _ => 0) s1.sel.budget i 0 } }
  if e.enabled then s2.healthEvent i true else s2

/-- A record's bits that a mask of R171 names: bit 15 counts when DRV_OK is 0; reserved mask bits count nothing. -/
def maskHits (mask rec : Nat) : Bool := decide ((w32 rec ^^^ 0x8000) &&& w32 mask &&& 0xBDC0 ≠ 0)

/-- Modes in which VMIN applies (R171). -/
def State.vminMode (s : State) : Bool := decide (s.mode = .run) || decide (s.mode = .ridethrough)
/-- Modes in which entries retire (R175, R176). -/
def State.retireMode (s : State) : Bool := s.vminMode || decide (s.mode = .ready) || decide (s.mode = .mirror)

/-- HCAUSE of an unclean record (R175 rows 2, 3 and 4), 0 when it is clean (R171). -/
def State.uncleanCause (s : State) (rec : Nat) : Nat :=
  if maskHits (s.na Obj.SUSPECT_MASK) rec then 2
  else if s.na Obj.VMAX < rec / 65536 then 3
  else if s.vminMode && decide (rec / 65536 < s.na Obj.VMIN) then 4
  else 0

/-- AGE at frame k (R174). -/
def Entry.age (e : Entry) (k : Nat) : Nat := if e.missRun < 4095 then (k + 65536 - e.lastSeen) % 65536 else 65535
/-- The entry is stale (R174). -/
def State.isStale (s : State) (e : Entry) : Bool :=
  decide (e.health ≠ 0) && decide (s.p + s.na Obj.STALE_EXTRA < e.age (s.frame.count % 65536))

/-- The record-time rows of R175 on an updated entry: the first that applies. -/
def State.recordRow (s : State) (i : Nat) (unclean : Nat) : State :=
  let e := s.entry i
  let h := e.health
  let retire := s.na Obj.RETIRE_FAULT_RECORDS
  if h ≠ 3 ∧ h ≠ 4 ∧ e.status 14 then s.goHealth i 4 9
  else if (h = 1 ∨ h = 2) ∧ s.retireMode ∧ retire ≠ 0 ∧ retire ≤ e.faultRun then s.goHealth i 3 7
  else if h = 0 ∧ unclean = 0 then s.goHealth i 1 1
  else if (h = 0 ∨ h = 1) ∧ unclean ≠ 0 then s.goHealth i 2 unclean
  else if h = 2 ∧ s.na Obj.CLEAR_RUN ≤ e.cleanRun ∧ s.isStale e = false then s.goHealth i 1 6
  else s

/-- An accepted record of frame j updates its entry (R172). -/
def State.ledgerRecord (s : State) (i : Nat) (rec : Word) (j : Nat) : State :=
  let e := s.entry i
  if e.enabled then
    let unclean := s.uncleanCause rec.toNat
    let fault := if maskHits (s.na Obj.RETIRE_MASK) rec.toNat then min 15 (e.faultRun + 1) else 0
    let clean := if unclean = 0 then min 64 (e.cleanRun + 1) else 0
    let e1 : Entry := { e with w0 := rec, w1 := mkW1 j 0 fault }
    (s.setEntry i (e1.withHealth e.health clean e.hcause)).recordRow i unclean
  else s

/-- A frame closed without a record of the entry (R173). -/
def State.ledgerMiss (s : State) (i : Nat) : State :=
  let e := s.entry i
  if e.enabled then
    let e1 : Entry := { e with w1 := mkW1 e.lastSeen (min 4095 (e.missRun + 1)) 0 }
    s.setEntry i (e1.withHealth e.health 0 e.hcause)
  else s

/-! ### Figures of the arms (R180, R181, R187) -/

/-- One entry enters the summary of its arm (R180, R181). -/
def Summary.add (x : Summary) (e : Entry) : Summary :=
  let x1 : Summary := { x with nSuspect := x.nSuspect + b2n (decide (e.health = 2)) }
  if e.health = 1 ∧ e.spare = false then
    let v := e.vcell
    let x2 : Summary := { x1 with sumAll := x1.sumAll + v, nAll := x1.nAll + 1, minAll := min x1.minAll v, maxAll := max x1.maxAll v }
    if e.echo = 1 ∨ e.echo = 2 then
      { x2 with sumIns := x2.sumIns + v, nIns := x2.nIns + 1, minIns := min x2.minIns v, maxIns := max x2.maxIns v
                nNeg := x2.nNeg + b2n (decide (e.echo = 2)) }
    else x2
  else x1

/-- Mean rounded to nearest, 0 over nothing (R180). -/
def mean (sum n : Nat) : Nat := if n = 0 then 0 else (sum + n / 2) / n

/-- Summary of an arm over the entries as they stand (R180, R181). -/
def State.summarise (s : State) (a : Nat) : Summary :=
  let x := (s.armEntries a).foldl (fun x e => x.add e.2) Summary.none
  { x with meanAll := mean x.sumAll x.nAll, meanIns := mean x.sumIns x.nIns }

/-- All twelve. -/
def State.summaries (s : State) : Vector Summary 12 := Vector.ofFn fun (a : Fin 12) => s.summarise a.val

/-- The 32 bytes of a summary (R181). -/
def Summary.bytes (x : Summary) (frame : Nat) : List Byte :=
  leBytes 4 x.sumAll ++ leBytes 4 x.sumIns ++ leBytes 2 x.nAll ++ leBytes 2 x.nIns ++ leBytes 2 x.meanAll ++ leBytes 2 x.meanIns
    ++ leBytes 2 x.minAll ++ leBytes 2 x.maxAll ++ leBytes 2 x.minIns ++ leBytes 2 x.maxIns ++ leBytes 2 x.nSuspect
    ++ leBytes 2 x.nNeg ++ leBytes 4 frame

/-- At S_k the summaries are frozen (R180), and each route's run of IN_SERVICE ticks goes on (R175). -/
def State.ledgerTick (s : State) : State :=
  let s1 : State := { s with ledger := { s.ledger with frozen := s.summaries, frozenFrame := s.frame.count } }
  s1.each (List.range 32) fun s n =>
    let r := s.route n
    s.setRoute n { r with serviceRun := if r.st = .inService then min 4095 (r.serviceRun + 1) else 0 }

/-- ARM_CNT_A and ARM_CNT_B of an arm (R187). -/
def State.armCounts (s : State) (a : Nat) : State :=
  let n (h : Nat) : Nat := ((s.armEntries a).filter fun x => x.2.health == h).length
  (s.setLN (Obj.ARM_CNT_A a) (n 1 * 65536 + n 2)).setLN (Obj.ARM_CNT_B a) (n 0 * 65536 + n 3 + n 4)

/-- The D_k rows of R175 for one entry; answers the lane of an entry made stale under ROUTE_DOWN. -/
def State.staleRow (s : State) (i : Nat) : State × Option Nat :=
  let e := s.entry i
  let absent := s.na Obj.ABSENT_RETIRE_FRAMES
  let lane := (s.cellSite i).map (·.1)
  let down : Bool := match lane with
    | some n => s.routeDown n
    | none => false
  if e.health = 1 ∧ s.isStale e then (s.goHealth i 2 5 (!down), if down then lane else none)
  else if (e.health = 1 ∨ e.health = 2) ∧ s.retireMode ∧ absent ≠ 0 ∧ absent ≤ e.missRun ∧
      absent ≤ (match lane with
        | some n => (s.route n).serviceRun
        | none => 0) then (s.goHealth i 3 8, none)
  else (s, none)

/-- The one record of a route whose entries went stale under ROUTE_DOWN (R179). -/
def State.staleRecord (s : State) (made : List Nat) (n : Nat) : State :=
  let c := (made.filter fun x => x == n).length
  if c ≠ 0 ∧ (s.route n).staleLogged = false then
    (s.setRoute n { s.route n with staleLogged := true }).journal 0xC1 (w32 (min 65535 c * 65536 + n))
  else s

/-- At D_k: staleness and absence (R174, R175), the counts of R187 and the figures for the modulator and the Selector. -/
def State.ledgerCut (s : State) : State :=
  let s0 := s.each (idxs 32 fun n => !s.routeDown n) fun s n => s.setRoute n { s.route n with staleLogged := false }
  let r := (s0.enabledEntries.map (·.1)).foldl (fun (a : State × List Nat) i =>
    let x := a.1.staleRow i
    (x.1, match x.2 with
      | some n => n :: a.2
      | none => a.2)) (s0, [])
  let stale := (s0.enabledEntries.filter fun x => s0.isStale x.2).length
  let s1 := (r.1.each (List.range 32) fun s n => s.staleRecord r.2 n).setLN Obj.STALE_NOW (min 65535 stale)
  let s2 := s1.each (List.range 12) State.armCounts
  { s2 with ledger := { s2.ledger with atCut := s2.summaries } }

/-! ### Host health commands (R177) -/

/-- A refusal of HEALTH_CMD with its result code. -/
def healthRefuse (code : Nat) (s : State) : WOut := refused6 (s.setLN Obj.HEALTH_CMD_RESULT code)
/-- HEALTH_CMD is done. -/
def healthDone (s : State) : WOut := done (s.setLN Obj.HEALTH_CMD_RESULT 1)

/-- Modes in which a health command is permitted (R177). -/
def State.healthMode (s : State) (v : Word) : Bool :=
  if v = 2 then decide (s.mode = .charge) || decide (s.mode = .ready) || decide (s.mode = .test) || decide (s.mode = .safe)
  else decide (s.mode ≠ .boot)

/-- Write of HEALTH_CMD (R177); of several refusals the lowest code stands (log entry 161). -/
def wrHealthCmd (v : Word) (s : State) : WOut :=
  let i := s.nl Obj.HEALTH_CMD_INDEX
  let e := s.entry i
  if 12287 < i ∨ e.enabled = false then healthRefuse 2 s
  else if s.healthMode v = false then healthRefuse 3 s
  else if v = 1 then healthDone (if e.health = 3 then s else s.goHealth i 3 10)
  else if v = 2 then
    if e.status 14 then healthRefuse 4 s else healthDone (s.reinitEntry i e 11)
  else if e.health = 0 ∨ e.health = 1 then
    healthDone ((s.setEntry i (e.withHealth 2 0 12)).healthEvent i true)
  else healthDone s

/-- HEALTH_RETIRE (R177). -/
def execHealthRetire (p : Path) (s : State) : Host.Outcome State Fault Refusal :=
  .next (s.guardWrite p Obj.HEALTH_CMD 1 (wrHealthCmd 1))
/-- HEALTH_RESTORE (R177). -/
def execHealthRestore (p : Path) (s : State) : Host.Outcome State Fault Refusal :=
  .next (s.guardWrite p Obj.HEALTH_CMD 2 (wrHealthCmd 2))
/-- HEALTH_SUSPECT (R177). -/
def execHealthSuspect (p : Path) (s : State) : Host.Outcome State Fault Refusal :=
  .next (s.guardWrite p Obj.HEALTH_CMD 3 (wrHealthCmd 3))

/-! ### Configuration (R168, R169) -/

/-- Staged W3[31:14] of an entry, in place. -/
def State.stagedCfg (s : State) (i : Nat) : Word := tget (fun _ => 0) s.ledger.staged i

/-- Write of CFG_WORD (R168). -/
def wrCfgWord (v : Word) (s : State) : WOut :=
  let i := s.nl Obj.CFG_INDEX
  let s1 : State := { s with ledger := { s.ledger with staged := tput (fun _ => 0) s.ledger.staged i v } }
  done (s1.setLN Obj.CFG_INDEX ((i + 1) % 12288))

/-- CFG_WORD (R168). -/
def execCfgWord (p : Path) (v : Word) (s : State) : Host.Outcome State Fault Refusal :=
  .next (s.guardWrite p Obj.CFG_WORD v (wrCfgWord v))

/-- The staged configuration of one entry becomes active (R169). -/
def State.applyCfg (s : State) (i : Nat) : State :=
  let e := s.entry i
  let v := s.stagedCfg i
  let e1 : Entry := { e with w3 := w32 (v.toNat + e.w3.toNat % 16384) }
  if e.w3.toNat / 32768 = v.toNat / 32768 then s.setEntry i e1 else s.reinitEntry i e1 13

/-- A number in a rising list. -/
def insertNat (n : Nat) : List Nat → List Nat
  | [] => [n]
  | m :: t => if n < m then n :: m :: t else if n = m then m :: t else m :: insertNat n t

/-- Indices with an entry or a staged configuration, in order. -/
def State.cfgIndices (s : State) : List Nat :=
  (s.ledger.staged.map (·.1)).foldl (fun l i => insertNat i l) (s.ledger.entries.map (·.1))

/-! ### Host access to the table (R162, R182, R183) -/

/-- Word `w` of an entry. -/
def Entry.word (e : Entry) (w : Nat) : Word := if w = 0 then e.w0 else if w = 1 then e.w1 else if w = 2 then e.w2 else e.w3

/-- What a Host Port read of word `w` of entry `i` returns (R182). -/
def State.ledgerRead (s : State) (i w : Nat) : Word :=
  if 12287 < i then 0
  else match s.ledger.capture with
    | some (j, e) => if w ≠ 0 ∧ j = i then e.word w else (s.entry i).word w
    | none => (s.entry i).word w

/-- A Host Port read of W0 captures the entry (R182). -/
def State.ledgerCapture (s : State) (i : Nat) : State :=
  { s with ledger := { s.ledger with capture := some (i, s.entry i) } }

/-- LEDGER_W0_READ (R182). -/
def execLedgerW0Read (i : Nat) (s : State) : Host.Outcome State Fault Refusal :=
  .next (if i ≤ 12287 then { s.ledgerCapture i with dict := { s.dict with hostData := (s.entry i).w0 } } else s)

/-! ### Objects (R186) -/

/-- Objects of the 2300 block that the Ledger computes. -/
def view07 (s : State) (key : Nat) : Option Word :=
  if key = Obj.CFG_WORD then some (w32 ((s.entry (s.nl Obj.CFG_INDEX)).w3.toNat / 16384 * 16384))
  else if key = Obj.ENABLED_CNT then some (w32 s.enabledEntries.length)
  else none

end Sys2Proof.Machine
end

