-- ==== Sys2Proof/Machine/Arms.lean ====
section
/-! DEFINITION. The modulator's arithmetic (R188 to R192), the force registers (R200 to R204, R213), the commutation-event
mask (R205 to R209, R214), and writes of the arm references (R33, R34, R211). -/
namespace Sys2Proof.Machine

/-! ### From reference to count and edge (R189 to R192) -/

/-- MOD_STATUS bits of the slot built last (R212). -/
def mNoMean : Nat := 2048
def mSatPos : Nat := 1024
def mSatNeg : Nat := 512
def mNegClamped : Nat := 256
def mMinPulse : Nat := 128
def mReused : Nat := 64
def mForcedNamed : Nat := 32

/-- What the modulator asks of the Selector for one arm: the sign, whole cells, the edge, and the flags it set. -/
structure Demand where
  neg : Bool
  n : Nat
  edge : Nat
  flags : Nat
  deriving DecidableEq, Repr

/-- The divisor M (R189). -/
def State.divisor (s : State) (a : Nat) : Nat :=
  let x := vget Summary.none s.ledger.atCut a
  match s.na (Obj.MEAN_SEL a) with
  | 1 => if x.nIns = 0 then x.meanAll else x.meanIns
  | 2 => s.na (Obj.VCELL_NOM a)
  | _ => x.meanAll

/-- Insertion demand in 1/4,096 cell (R190): rounded to nearest; 0 when M is 0 (R189). -/
def demandX (r : Int) (v m : Nat) : Nat :=
  if m = 0 then 0 else (r.natAbs * v * 8192 + 2147483648 * m) / (4294967296 * m)

/-- Minimum pulse (R192): count and edge, and whether they were adjusted. -/
def minPulse (m tf n edge lim : Nat) : Nat × Nat × Bool :=
  let t := (edge * tf + 2048) / 4096
  if m = 0 ∨ edge = 0 then (n, edge, false)
  else if t < m then
    if 2 * t < m then (n, 0, true) else (n, ceilDiv (m * 4096) tf, true)
  else if tf - t < m then
    if 2 * (tf - t) < m ∧ n + 1 ≤ lim then (n + 1, 0, true) else (n, (tf - m) * 4096 / tf, true)
  else (n, edge, false)

/-- Steps 2 and 3 of R191 on a demand X of one sign, against the cells that can be inserted. -/
def State.limitDemand (s : State) (a : Nat) (neg : Bool) (x cells flags : Nat) : State × Demand :=
  let lim := min (s.na (Obj.ARM_NMAX a)) cells
  let sat := decide (4096 * lim < x)
  let x1 := if sat then 4096 * lim else x
  let mp := minPulse (s.na (Obj.EDGE_MIN_NS a)) s.tf (x1 / 4096) (x1 % 4096) lim
  let fl := flags + (if sat then (if neg then mSatNeg else mSatPos) else 0) + (if mp.2.2 then mMinPulse else 0)
  let s1 := ((s.incIf sat (Obj.SAT_CNT a)).raiseIf sat 59).incIf mp.2.2 (Obj.MINPULSE_ADJ_CNT a)
  (s1, { neg := neg, n := mp.1, edge := mp.2.1, flags := fl })

/-- Mode of a code (R43); BOOT for any other. -/
def modeOf (c : Nat) : Mode :=
  match c with
  | 1 => .charge | 2 => .ready | 3 => .run | 4 => .ridethrough | 5 => .mirror | 6 => .test | 7 => .safe | _ => .boot

/-- The mode under which slots are built (R199): in MIRROR, the one carried by the mirror state. -/
def State.buildMode (s : State) : Mode := if s.mode = .mirror then modeOf (s.pair.lastMode.getD 0) else s.mode

/-- The modulator's output for a notch output `r` (R189 to R192); `cells` counts what the Selector can insert with a sign. -/
def State.modulate (s : State) (a : Nat) (r : Int) (cells : Bool → Nat) : State × Demand :=
  let m := s.divisor a
  let neg := decide (r < 0)
  let x := demandX r (s.na (Obj.ARM_VRATED a)) m
  let ok := decide (s.buildMode = .ridethrough) && decide (s.ga (Obj.NEG_ENABLE a) = 1)
  let clamp := neg && !ok
  let s1 := ((s.incIf (decide (m = 0)) (Obj.NO_MEAN_CNT a)).incIf clamp (Obj.NEG_CLAMP_CNT a)).raiseIf clamp 60
  s1.limitDemand a (neg && ok) (if clamp then 0 else x) (cells (neg && ok))
    ((if m = 0 then mNoMean else 0) + (if clamp then mNegClamped else 0))

/-- A forced count (R191, R199 row 5). -/
def State.forceDemand (s : State) (a : Nat) (f : ForceSet) (cells : Bool → Nat) : State × Demand :=
  let neg := decide (f.count < 0)
  s.limitDemand a neg (4096 * f.count.natAbs + f.edge) (cells neg) 0

/-! ### Built queue (R196, R198) -/

/-- The built-queue entry of a slot, if it was built. -/
def State.builtFor (s : State) (a slot : Nat) : Option Built :=
  match vget none (s.arm a).queue (slot % 16) with
  | some b => if b.slot = slot then some b else none
  | none => none

/-- Put an entry into the queue, and describe it in the objects (R196, R211, R212). -/
def State.putBuilt (s : State) (a : Nat) (b : Built) : State :=
  let x := s.arm a
  let s1 := s.setArm a { x with queue := vset x.queue (b.slot % 16) (some b), builtFlags := b.flags, masking := decide (b.src = 4) }
  ((s1.setLN (Obj.BUILT_SLOT_LO a) b.slot).setLI (Obj.BUILT_COUNT a) b.count).setLN (Obj.BUILT_EDGE a) b.edge

/-- Previous count of the Selector for a slot (R198); for the first slot in the role ACTIVE, the count adopted last (R431). -/
def State.prevCount (s : State) (a slot : Nat) (neg : Bool) : Nat :=
  let j := if s.pair.takeover then s.pair.lastSlot.getD (slot - 1) else slot - 1
  if slot = 0 then 0
  else match s.builtFor a j with
    | some b =>
      if b.src = 0 ∨ b.src = 3 ∨ b.src = 4 then 0
      else if decide (b.count < 0) = neg then b.count.natAbs else 0
    | none => 0

/-- At S_j the executing pair takes the entry of slot j (R196). -/
def State.execReload (s : State) (a : Nat) : State :=
  let x := s.arm a
  match s.builtFor a s.frame.count with
  | some b => s.setArm a { x with execCount := b.count, execEdge := b.edge, execSrc := b.src }
  | none => s.setArm a { x with execCount := 0, execEdge := 0, execSrc := 6 }

/-! ### Force registers (R200 to R204) -/

def fcValid (c : Word) : Bool := nbit c.toNat 31
def fcState (c : Word) : Nat := fld c 29 28
def fcIndex (c : Word) : Nat := fld c 27 14
def fcFrac (c : Word) : Bool := nbit c.toNat 12
def fcEdge (c : Word) : Nat := fld c 11 0
/-- The slot word a named cell receives, HOLD_PERMIT aside (R203). -/
def fcSlot (c : Word) : Nat := fcState c * 16384 + b2n (fcFrac c) * 8192 + (if fcFrac c then fcEdge c else 0)

/-- Bits of the code: NAMED, ALL_BYPASS, COUNT (R213). -/
def ForceSet.named (f : ForceSet) : Bool := nbit f.code 2
def ForceSet.allBypass (f : ForceSet) : Bool := nbit f.code 1
def ForceSet.counts (f : ForceSet) : Bool := nbit f.code 0

/-- The pending set of an arm with a code (R200). -/
def State.pendingForce (s : State) (a : Nat) (code : Nat) : ForceSet :=
  { code := code, count := (BitVec.ofNat 16 (s.nl (Obj.FORCE_COUNT a))).toInt, edge := s.nl (Obj.FORCE_EDGE a)
    cells := (List.range 8).map fun j => s.gl (Obj.FORCE_CELL a j) }

/-- A valid FORCE_CELL that R202 refuses. -/
def State.badCell (s : State) (a : Nat) (c : Word) : Bool :=
  let e := s.entry (fcIndex c)
  decide (12287 < fcIndex c) || !e.enabled || decide (e.arm ≠ a) || (decide (fcState c = 2) && !e.fullBridge)
    || (fcFrac c && decide (s.mode ≠ .test))

/-- FORCE_RESULT of a check (R202); 1: it passes. -/
def State.checkForce (s : State) (a : Nat) (f : ForceSet) : Nat :=
  let valid := f.cells.filter fcValid
  if s.mode ≠ .test ∧ s.vminMode = false then 2
  else if s.vminMode ∧ s.gk (Obj.FORCE_IN_RUN a) = 0 then 3
  else if f.named ∧ (valid.any (s.badCell a) ∨ 2 ≤ (valid.filter fcFrac).length) then 4
  else if f.counts ∧ (s.na (Obj.ARM_NMAX a) < f.count.natAbs ∨ 4095 < f.edge ∨ (f.count < 0 ∧ s.ga (Obj.NEG_ENABLE a) = 0)) then 5
  else if f.counts ∧ s.mode = .test ∧ s.ga Obj.TEST_SELECT = 0 then 6
  else 1

/-- The armed set becomes `f`; a code of 0 clears it (R200). -/
def State.armForce (s : State) (a : Nat) (f : ForceSet) : State :=
  (s.setArm a { s.arm a with armed := if f.code = 0 then none else some f, armedFresh := decide (f.code ≠ 0) }).setLN (Obj.FORCE_RESULT a) 1

/-- Write of FORCE_CTRL (R200 to R202). -/
def wrForceCtrl (a : Nat) (v : Word) (s : State) : WOut :=
  let f := s.pendingForce a (fld v 2 0)
  let code := s.checkForce a f
  if code ≠ 1 then refused6 (s.setLN (Obj.FORCE_RESULT a) code)
  else
    let s1 := s.setL (Obj.FORCE_CTRL a) (v &&& 0x87)
    if nbit v.toNat 7 then done ((s1.setArm a { s1.arm a with deferred := some f }).setLN (Obj.FORCE_RESULT a) 8)
    else done (s1.armForce a f)

/-- Write of FORCE_COMMIT_ALL (R201): every deferred set moves. -/
def wrForceCommitAll (s : State) : WOut :=
  done (s.each (List.range 12) fun s a =>
    match (s.arm a).deferred with
    | some f => (s.setArm a { s.arm a with deferred := none }).armForce a f
    | none => s)

/-- FORCE_ARM (R200): a FORCE_CTRL write with DEFER = 0. -/
def execForceArm (p : Path) (a : Nat) (v : Word) (s : State) : Host.Outcome State Fault Refusal :=
  let w := v &&& 0x7F
  .next (s.guardWrite p (Obj.FORCE_CTRL a) w (wrForceCtrl a w))
/-- FORCE_DEFER (R201): a FORCE_CTRL write with DEFER = 1. -/
def execForceDefer (p : Path) (a : Nat) (v : Word) (s : State) : Host.Outcome State Fault Refusal :=
  let w := v &&& 0x7F ||| 0x80
  .next (s.guardWrite p (Obj.FORCE_CTRL a) w (wrForceCtrl a w))
/-- FORCE_CLEAR (R200): a FORCE_CTRL write with code 0. -/
def execForceClear (p : Path) (a : Nat) (s : State) : Host.Outcome State Fault Refusal :=
  .next (s.guardWrite p (Obj.FORCE_CTRL a) 0 (wrForceCtrl a 0))
/-- FORCE_COMMIT_ALL (R201). -/
def execForceCommitAll (p : Path) (a : Nat) (s : State) : Host.Outcome State Fault Refusal :=
  .next (s.guardWrite p (Obj.FORCE_COMMIT_ALL a) 1 wrForceCommitAll)

/-- At D_k, sets that the mode or FORCE_IN_RUN makes refusable are cleared (R204). -/
def State.forceModeClear (s : State) : State :=
  s.each (List.range 12) fun s a =>
    if s.mode = .test ∨ (s.vminMode ∧ s.gk (Obj.FORCE_IN_RUN a) = 1) then s else s.clearForce a

/-! ### Commutation-event mask (R205 to R209) -/

/-- The arm's mask input is active (R205). -/
def State.maskInput (s : State) (a : Nat) : Bool :=
  (List.range 4).any fun g => nbit (s.na (Obj.MASK_SRC a)) g && nbit (s.arm a).gpio.toNat g

/-- The mask input becomes active at `te` (R206, R209). -/
def State.maskActivate (s : State) (a te : Nat) : State :=
  let mode := s.na (Obj.MASK_MODE a)
  if mode = 0 then s
  else
    let x := s.arm a
    let starts := !x.masking && !x.mask
    let s1 := s.setArm a { x with mask := true, latch := x.latch || decide (mode = 2) }
    let s2 := (s1.incL (Obj.MASK_EVT_CNT a)).irqEdge 13 (16 + a)
    let s3 := if starts then s2.setLN (Obj.MASK_FIRST_SLOT_LO a) s2.nextSlot else s2
    let b := s3.na (Obj.MASK_BEACON a)
    if b < 64 then s3.originate b (4 * (te - s3.na (Obj.MASK_FILTER_NS a))) else s3

/-- The mask input becomes inactive (R207). -/
def State.maskRelease (s : State) (a : Nat) : State :=
  if s.na (Obj.MASK_MODE a) = 1 then s.setArm a { s.arm a with mask := false } else s

/-- GPIO_LEVEL_ACCEPT (R205, R276): arm `a` accepts a level of input `g` at `te`; MASK_POL says whether it is the active one. -/
def execGpioLevelAccept (a g : Nat) (high : Bool) (te : Nat) (s : State) : Host.Outcome State Fault Refusal :=
  .next (
    if s.mode = .boot ∨ nbit (s.na (Obj.MASK_SRC a)) g = false then s
    else
      let s0 := s.toC te
      let active := high != nbit (s.na (Obj.MASK_POL a)) g
      let was := s0.maskInput a
      let first := active && !((List.range 12).any fun b => nbit (s0.arm b).gpio.toNat g)
      let s1 := s0.setArm a { s0.arm a with gpio := bset (s0.arm a).gpio g active }
      let s2 := if !was && s1.maskInput a then s1.maskActivate a te
        else if was && !s1.maskInput a then s1.maskRelease a else s1
      if first then s2.event (0x45 + g) else s2)

/-- Write of MASK_CLEAR (R207, R208). -/
def wrMaskClear (a : Nat) (s : State) : WOut :=
  if s.na (Obj.MASK_MODE a) ≠ 2 then done s
  else if s.maskInput a then refused6 (s.incL (Obj.MASK_CLEAR_REFUSED_CNT a))
  else done (s.setArm a { s.arm a with latch := false, mask := false })

/-- MASK_CLEAR (R208). -/
def execMaskClear (p : Path) (a : Nat) (s : State) : Host.Outcome State Fault Refusal :=
  .next (s.guardWrite p (Obj.MASK_CLEAR a) 1 (wrMaskClear a))

/-- A commit changes the inputs of an arm or their polarity (R205), `o` being the state before: an accepted level stays, a newly selected
input counts as inactive until it is accepted (log entry 130). Unless MASK_MODE changes too, the mask input's change at S_c starts or
ends the mask like any other. -/
def State.maskPinsChange (s o : State) (a : Nat) : State :=
  let n (v : Nat) : BitVec 4 := BitVec.ofNat 4 v
  let x := s.arm a
  let g := (x.gpio ^^^ n (o.na (Obj.MASK_POL a)) ^^^ n (s.na (Obj.MASK_POL a))) &&& n (o.na (Obj.MASK_SRC a)) &&& n (s.na (Obj.MASK_SRC a))
  let s1 := s.setArm a { x with gpio := g }
  if o.na (Obj.MASK_MODE a) ≠ s.na (Obj.MASK_MODE a) then s1
  else if !o.maskInput a && s1.maskInput a then s1.maskActivate a s1.nowC
  else if o.maskInput a && !s1.maskInput a then s1.maskRelease a
  else s1

/-- A commit changes MASK_MODE (R207): the latch is dropped, and the new mode decides. -/
def State.maskModeChange (s : State) (a : Nat) : State :=
  let x := s.arm a
  let on := s.maskInput a
  match s.na (Obj.MASK_MODE a) with
  | 0 => s.setArm a { x with latch := false, mask := false }
  | 1 => s.setArm a { x with latch := false, mask := x.mask && on }
  | _ => s.setArm a { x with latch := on, mask := on }

/-! ### Arm references (R33, R34, R211) -/

/-- A reference write that R34 discards. -/
def State.refDiscard (s : State) : State := (s.incL Obj.REF_WRITE_DISCARD_CNT).raise 52

/-- The engine runs a FRAME task whose reference writes still count: released in this frame, before D_k (R34). One of an earlier frame,
which a debug halt has let go on, has passed its D_k. -/
def State.refOpen (s : State) (e : Nat) : Bool :=
  match s.running e with
  | some i => decide (i.words.cls = 0) && decide (i.frame = s.frame.count) && !s.frame.cut
  | none => false

/-- Write of ARM_REF (R34, R211). -/
def wrArmRef (p : Path) (a : Nat) (v : Word) (s : State) : WOut :=
  match p with
  | .cupola e => if s.refOpen e then done (s.setL (Obj.ARM_REF a) v) else refused6 s.refDiscard
  | _ => if s.mode = .test then done (s.setL (Obj.ARM_REF a) v) else refused6 s

/-! ### Objects (R211 to R214) -/

/-- Objects of 2410 to 243B that the modulator holds. -/
def view08 (s : State) (key : Nat) : Option Word :=
  let a := key / 256 % 16
  let x := s.arm a
  if 0x2410 ≤ key / 256 ∧ key / 256 ≤ 0x241B then
    match key % 256 with
    | 7 => some (i32 x.execCount)
    | 8 => some (w32 x.execEdge)
    | 9 => some (w32 (x.execSrc * 4096 + x.builtFlags))
    | _ => none
  else if 0x2420 ≤ key / 256 ∧ key / 256 ≤ 0x242B then
    match key % 256 with
    | 12 => some (w32 ((x.armed.map (·.code)).getD 0))
    | _ => none
  else if 0x2430 ≤ key / 256 ∧ key / 256 ≤ 0x243B then
    match key % 256 with
    | 7 => some (w32 (b2n x.masking * 4 + b2n x.latch * 2 + b2n (s.maskInput a)))
    | _ => none
  else none

end Sys2Proof.Machine
end

