-- ==== Sys2Proof/Machine/Flags.lean ====
section
/-! DEFINITION. The arithmetic of a Cupola engine and its flags (R242 to R244, R261, R262). Functions are pure: from operands
and FLG to a result and a new FLG. -/
namespace Sys2Proof.Machine

/-! ### FLG (R243) -/

/-- The bits of FLG that are not reserved. -/
def flgBits : Word := 0x03000F1F
def flgSatd (f : Word) : Bool := nbit f.toNat 25
def flgFm (f : Word) : Bool := nbit f.toNat 24
/-- A sticky bit is set when the event happens, else kept. -/
def flgSticky (f : Word) (n : Nat) (b : Bool) : Word := if b then bset f n true else f
/-- Z and N of a 32-bit result. -/
def flgZN (f r : Word) : Word := bset (bset f 0 (decide (r = 0))) 1 (r.getLsbD 31)
/-- C and V. -/
def flgCV (f : Word) (c v : Bool) : Word := bset (bset f 2 c) 3 v

/-- A condition holds (R263). -/
def condHolds (f : Word) (c : BitVec 4) : Bool :=
  let z := nbit f.toNat 0
  let n := nbit f.toNat 1
  let cc := nbit f.toNat 2
  let v := nbit f.toNat 3
  let gu := nbit f.toNat 4
  match c.toNat with
  | 0 => true
  | 1 => z
  | 2 => !z
  | 3 => n != v
  | 4 => n == v
  | 5 => !z && n == v
  | 6 => z || n != v
  | 7 => cc
  | 8 => !cc
  | 9 => n
  | 10 => !n
  | 11 => v
  | 12 => !v
  | 13 => gu
  | 14 => !gu
  | _ => false

/-! ### 32-bit results (R243, R261) -/

/-- A saturating D operation with the exact result `x` and the carry `c`: the result with FLG (R261). -/
def satD (f : Word) (x : Int) (c : Bool) : Word × Word :=
  let v := decide (x < -2147483648) || decide (2147483647 < x)
  let r := if flgSatd f then i32 (clampInt (-2147483648) 2147483647 x) else i32 x
  (r, flgSticky (flgCV (flgZN f r) c v) 10 (v && flgSatd f))

/-- Dx + Dy. -/
def opAdd (f x y : Word) : Word × Word := satD f (x.toInt + y.toInt) (decide (4294967296 ≤ x.toNat + y.toNat))
/-- Dx - Dy. -/
def opSub (f x y : Word) : Word × Word := satD f (x.toInt - y.toInt) (decide (x.toNat < y.toNat))
/-- -Dx. -/
def opNeg (f x : Word) : Word × Word := opSub f 0 x
/-- The absolute value; its carry is open (log entry 3). -/
def opAbs (f x : Word) (c : Bool) : Word × Word := satD f (x.toInt.natAbs : Int) c
/-- Flags of Dx - Dy without a result. -/
def opCmp (f x y : Word) : Word :=
  let d := x.toInt - y.toInt
  flgCV (flgZN f (i32 d)) (decide (x.toNat < y.toNat)) (decide (d < -2147483648) || decide (2147483647 < d))
/-- A bitwise result: Z and N, C and V cleared. -/
def opBits (f r : Word) : Word × Word := (r, flgCV (flgZN f r) false false)
/-- A result that sets Z and N only. -/
def opZN (f r : Word) : Word × Word := (r, flgZN f r)
/-- MOV: Z and N, V cleared. -/
def opMov (f r : Word) : Word × Word := (r, bset (flgZN f r) 3 false)
/-- Left shift by `n`; `c` is the carry of a shift by 0 (log entry 3). -/
def opShl (f x : Word) (n : Nat) (c : Bool) : Word × Word :=
  satD f (x.toInt * 2 ^ n) (if n = 0 then c else decide (n ≤ 32) && x.getLsbD (32 - n))
/-- Arithmetic right shift by `n` up to 32. -/
def opAsr (f x : Word) (n : Nat) (c : Bool) : Word × Word :=
  let r := i32 (floorDiv x.toInt (2 ^ n))
  (r, flgCV (flgZN f r) (if n = 0 then c else x.getLsbD (n - 1)) false)
/-- Logical right shift by `n`. -/
def opLsr (f x : Word) (n : Nat) (c : Bool) : Word × Word :=
  let r := w32 (x.toNat / 2 ^ n)
  (r, flgCV (flgZN f r) (if n = 0 then c else x.getLsbD (n - 1)) false)
/-- Shift by a signed amount limited to -32 to 32. -/
def opShv (f x y : Word) (c : Bool) : Word × Word :=
  let n := clampInt (-32) 32 y.toInt
  if n < 0 then opAsr f x n.natAbs c else opShl f x n.toNat c
/-- Redundant sign bits: of the bits below the sign, those from the top that equal it. -/
def redundant (x : Word) : Nat :=
  ((List.range 31).reverse.takeWhile fun i => x.getLsbD i == x.getLsbD 31).length
/-- CLAMP to the magnitude of the second operand. -/
def opClamp (f x y : Word) : Word × Word :=
  let m : Int := min (y.toInt.natAbs : Int) 2147483647
  let r := clampInt (-m) m x.toInt
  (i32 r, flgSticky (flgZN f (i32 r)) 3 (decide (r ≠ x.toInt)))

/-! ### Accumulators (R242, R244) -/

/-- The contribution of a product (R242). -/
def product (f x y : Word) : Int := if flgFm f then 2 * (x.toInt * y.toInt) else x.toInt * y.toInt

/-- 72-bit limits: the value, and whether the exact result was replaced. -/
def sat72 (x : Int) : BitVec 72 × Bool :=
  let r := clampInt (-(2 ^ 71)) (2 ^ 71 - 1) x
  (BitVec.ofInt 72 r, decide (r ≠ x))

/-- The guard bits are in use. -/
def guard (x : Int) : Bool := decide (x < -(2 ^ 63)) || decide (2 ^ 63 ≤ x)

/-- Flag code ACC: an accumulator result from its exact value. -/
def accFlags (f : Word) (x : Int) : Word :=
  let r := sat72 x
  flgSticky (bset (bset (bset f 0 (decide (r.1 = 0))) 1 (r.1.getLsbD 71)) 4 (guard x)) 9 r.2

/-- Flag code Q: four accumulator results from their exact values. -/
def quadFlags (f : Word) (xs : List Int) : Word :=
  flgSticky (bset f 4 (xs.any guard)) 9 (xs.any fun x => (sat72 x).2)

/-- Conversion of an accumulator value to 32 bits (R244), and whether it saturated. -/
def convert (f : Word) (v : Int) : Word × Bool :=
  let u :=
    if flgFm f then
      let u := floorDiv v 4294967296
      let r := v - u * 4294967296
      if 2147483648 < r ∨ (r = 2147483648 ∧ u % 2 = 1) then u + 1 else u
    else v
  let c := clampInt (-2147483648) 2147483647 u
  (i32 c, decide (c ≠ u))

/-- LDACC (R244). -/
def accLoad (f x : Word) : Int := if flgFm f then x.toInt * 4294967296 else x.toInt

end Sys2Proof.Machine
end

