-- ==== Sys2Proof/Machine/Operands.lean ====
section
/-! DEFINITION. The operand forms of a Cupola engine: its memories and address map (R245 to R252), the moves with their
addressing modes (R253, R260), the instruction words (R260), what they read and produce (R255) and the register files of TFR (R262). -/
namespace Sys2Proof.Machine

/-! ### Instruction words (R260) -/

/-- Operand fields of a word of format P: F1 to F4 and the two moves. -/
structure PWord where
  f1 : BitVec 4
  f2 : BitVec 4
  f3 : BitVec 4
  f4 : BitVec 3
  mx : BitVec 20
  my : BitVec 20
  deriving DecidableEq, Repr

/-- Operand fields of a word of format I, the unused ones included. -/
structure IWord where
  ra : BitVec 4
  rb : BitVec 4
  fa : BitVec 4
  fb : BitVec 4
  un : BitVec 8
  imm : Word
  deriving DecidableEq, Repr

/-- Operand fields of a word of format C, the unused ones included. -/
structure CWord where
  cond : BitVec 4
  dr : BitVec 4
  cnt : BitVec 16
  un : BitVec 19
  target : BitVec 13
  deriving DecidableEq, Repr

/-- Fields of IN and OUT: CNT above PORT, PORT, and the rest of format C. -/
structure PortWord where
  cond : BitVec 4
  dr : BitVec 4
  hi : BitVec 8
  port : BitVec 8
  un : BitVec 19
  target : BitVec 13
  deriving DecidableEq, Repr

/-- The fields of a word (R260). -/
def PWord.of (w : BitVec 64) : PWord :=
  { f1 := w.extractLsb' 51 4, f2 := w.extractLsb' 47 4, f3 := w.extractLsb' 43 4, f4 := w.extractLsb' 40 3
    mx := w.extractLsb' 20 20, my := w.extractLsb' 0 20 }
def IWord.of (w : BitVec 64) : IWord :=
  { ra := w.extractLsb' 52 4, rb := w.extractLsb' 48 4, fa := w.extractLsb' 44 4, fb := w.extractLsb' 40 4
    un := w.extractLsb' 32 8, imm := w.extractLsb' 0 32 }
def CWord.of (w : BitVec 64) : CWord :=
  { cond := w.extractLsb' 52 4, dr := w.extractLsb' 48 4, cnt := w.extractLsb' 32 16, un := w.extractLsb' 13 19
    target := w.extractLsb' 0 13 }
def PortWord.of (w : BitVec 64) : PortWord :=
  { cond := w.extractLsb' 52 4, dr := w.extractLsb' 48 4, hi := w.extractLsb' 40 8, port := w.extractLsb' 32 8
    un := w.extractLsb' 13 19, target := w.extractLsb' 0 13 }

/-- Format, in bits [63:62], and opcode of a word, as format × 256 + opcode: AOP of format P, IOP of I, COP of C (R260). -/
def opOf (w : BitVec 64) : Nat :=
  if w.extractLsb' 62 2 = 0 then (w.extractLsb' 55 7).toNat else (w.extractLsb' 62 2).toNat * 256 + (w.extractLsb' 56 6).toNat

/-- The opcode is one of the tables of R261 (0 on), R262 (256 on) and R263 (512 on). -/
def opListed (op : Nat) : Bool :=
  decide (op ≤ 6) || (decide (8 ≤ op) && decide (op ≤ 0x11)) || (decide (0x18 ≤ op) && decide (op ≤ 0x2A))
  || (decide (257 ≤ op) && decide (op ≤ 262)) || (decide (264 ≤ op) && decide (op ≤ 268)) || [272, 274, 275].contains op
  || (decide (513 ≤ op) && decide (op ≤ 517)) || [520, 521].contains op || (decide (524 ≤ op) && decide (op ≤ 527))

/-! ### Memories (R245, R247, R249 to R251) -/

/-- SRAM address of a word of program, X, Y or shared memory. -/
def progAddr (e w : Nat) : Nat := bankAddr (3 + e) (8 * w)
def xAddr (e w : Nat) : Nat := bankAddr (11 + e) (4 * w)
def yAddr (e w : Nat) : Nat := bankAddr (11 + e) (32768 + 4 * w)

/-- A word of a measurement entry (R251). -/
def MbxMeas.word (m : MbxMeas) (i : Nat) : Word :=
  match i with
  | 4 => m.frameLo
  | 5 => w32 (m.lane * 16777216 + b2n m.fresh * 65536 + m.age)
  | 6 => w32 m.arrNs
  | 7 => 0
  | i => vget 0 m.words i

/-- A word of the mailbox region of an engine, from its start (R249). -/
def State.mailbox (s : State) (e w : Nat) : Word :=
  if w < 16 then vget 0 s.cup.info w
  else if w < 112 then
    let b := (vget Summary.none s.ledger.frozen ((w - 16) / 8)).bytes (s.ledger.frozenFrame % 4294967296)
    w32 (ofLeBytes ((b.drop (4 * ((w - 16) % 8))).take 4))
  else if w < 128 then 0
  else if w < 144 then s.gl (Obj.TO_WORD e (w - 128))
  else if w = 144 then s.gl (Obj.TO_SEQ e)
  else if w < 256 then 0
  else if w < 768 then
    (vget { words := Vector.replicate 4 0, frameLo := 0, age := 0, lane := 0, arrNs := 0, fresh := false } s.cup.mbx
      ((w - 256) / 8)).word (w % 8)
  else 0

/-- An address of the X bus that can be read, or written (R245). -/
def xReadable (a : Nat) : Bool := decide (a < 0x2400)
def xWritable (a : Nat) : Bool := decide (a < 0x2000)
/-- An address of the Y bus that can be accessed. -/
def yMapped (a : Nat) : Bool := decide (a ≤ 0x2010) || (decide (0x40000 ≤ a) && decide (a < 0x80000))

/-- Word of the X bus. -/
def State.readX (s : State) (e a : Nat) : Word := if a < 0x2000 then s.rdW (xAddr e a) else s.mailbox e (a - 0x2000)

/-- Word of shared memory in its bank. -/
def State.readShm (s : State) (w : Nat) : Word := s.rdW (shmAddr (4 * w))

/-- Word of the Y bus as the bank or the register array holds it. -/
def State.readYBank (s : State) (e a : Nat) : Word :=
  if a < 0x2000 then s.rdW (yAddr e a)
  else if a < 0x40000 then s.gl (Obj.FROM_WORD e (a - 0x2000))
  else s.readShm (a - 0x40000)

/-- Word of the Y bus as engine `e` reads it: its own posted stores come first (R247). -/
def State.readY (s : State) (e a : Nat) : Word :=
  match (s.eng e).r.stores.reverse.find? fun p => decide (0x40000 ≤ a) && decide (p.addr = a - 0x40000) with
  | some p => p.data
  | none => s.readYBank e a

/-- The oldest posted store reaches its bank (R247). -/
def State.drainOne (s : State) (e : Nat) : State :=
  let x := s.eng e
  match x.r.stores with
  | [] => s
  | p :: rest => (s.wrW (shmAddr (4 * p.addr)) p.data).setEng e { x with r := { x.r with stores := rest } }

/-- A store is posted; a fifth waits until an entry has drained (R247). A pair store posts two (log entry 151). -/
def State.postStore (s : State) (e w : Nat) (v : Word) : State :=
  let s1 := if 4 ≤ (s.eng e).r.stores.length then s.drainOne e else s
  let x := s1.eng e
  s1.setEng e { x with r := { x.r with stores := x.r.stores ++ [⟨w, v⟩] } }

/-- Store on the Y bus. A write of FROM_SEQ is a source of the cause tree (R468). -/
def State.writeY (s : State) (e a : Nat) (v : Word) : State :=
  if a < 0x2000 then s.wrW (yAddr e a) v
  else if a < 0x40000 then
    (s.setL (Obj.FROM_WORD e (a - 0x2000)) v).irqIf (decide (a = 0x2010)) 5 (8 + e)
  else s.postStore e (a - 0x40000) v

/-! ### Moves (R253, R260) -/

/-- A decoded move. -/
structure Move where
  mt : Nat
  reg : Nat
  areg : Nat
  am : Nat
  disp : BitVec 8
  deriving DecidableEq, Repr

/-- The fields of a move (R260). -/
def moveOf (m : BitVec 20) : Move :=
  { mt := (m.extractLsb' 17 3).toNat, reg := (m.extractLsb' 13 4).toNat, areg := (m.extractLsb' 10 3).toNat
    am := (m.extractLsb' 8 2).toNat, disp := m.extractLsb' 0 8 }

/-- The move uses its bus. -/
def Move.bus (m : Move) : Bool := decide (1 ≤ m.mt) && decide (m.mt ≤ 5)
def Move.pair (m : Move) : Bool := decide (m.mt = 2) || decide (m.mt = 4)
def Move.stores (m : Move) : Bool := decide (3 ≤ m.mt) && decide (m.mt ≤ 5)
/-- Type 0b111, or a field that the type leaves unused is not 0 (R258, cause 1). -/
def Move.illegal (m : Move) : Bool :=
  match m.mt with
  | 0 => decide (m.reg ≠ 0) || decide (m.areg ≠ 0) || decide (m.am ≠ 0) || decide (m.disp ≠ 0)
  | 5 => decide (4 ≤ m.reg) || (decide (m.am ≠ 0) && decide (m.disp ≠ 0))
  | 6 => decide (m.areg ≠ 0) || decide (m.am ≠ 0) || decide (m.disp.extractLsb' 0 4 ≠ 0)
  | 7 => true
  | _ => decide (m.am ≠ 0) && decide (m.disp ≠ 0)
/-- D registers that the move writes. -/
def Move.dst (m : Move) : List Nat :=
  match m.mt with
  | 1 => [m.reg]
  | 2 => [m.reg, m.reg + 1]
  | 6 => [m.reg]
  | _ => []
/-- A pair named by an odd register (R253). -/
def Move.oddReg (m : Move) : Bool := m.pair && decide (m.reg % 2 = 1)
/-- The address register that the move updates. -/
def Move.updates (m : Move) : Bool := m.bus && decide (m.am ≠ 0)

/-- Effective address (R253). -/
def Move.ea (m : Move) (r : EngRegs) : Nat :=
  let a := vget 0 r.a m.areg
  if m.am = 0 then (a + BitVec.ofInt 20 m.disp.toInt).toNat else a.toNat

/-- The address register afterwards (R253). -/
def Move.after (m : Move) (r : EngRegs) : BitVec 20 :=
  let a := vget 0 r.a m.areg
  let mm := vget 0 r.m m.areg
  let b := vget 0 r.b m.areg
  let l := vget 0 r.l m.areg
  match m.am with
  | 0 => a
  | 1 => a + (if m.pair then 2 else 1)
  | 2 => a + mm
  | _ =>
    if l = 0 then a + mm
    else BitVec.ofInt 20 ((b.toNat : Int) + ((a.toNat : Int) - b.toNat + mm.toInt) % (l.toNat : Int))

/-- Addresses of an access. -/
def Move.addrs (m : Move) (r : EngRegs) : List Nat := if m.pair then [m.ea r, m.ea r + 1] else [m.ea r]

/-- Exception of an access (R258): 0 none. -/
def Move.fault (m : Move) (isX : Bool) (r : EngRegs) : Nat :=
  if m.bus = false then 0
  else if m.pair ∧ m.ea r % 2 = 1 then 5
  else if isX then
    (if m.stores then
      (if (m.addrs r).all xWritable then 0 else if (m.addrs r).all xReadable then 4 else 2)
     else if (m.addrs r).all xReadable then 0 else 2)
  else if (m.addrs r).all yMapped then 0 else 3

/-- Exception of an instruction's two moves, with the D register that its operation writes (R258). -/
def movesFault (r : EngRegs) (mx my : Move) (wr : Option Nat) : Nat :=
  let dst := mx.dst ++ my.dst ++ wr.toList
  if mx.illegal ∨ my.illegal ∨ ¬ dst.Nodup then 1
  else if mx.oddReg ∨ my.oddReg then 5
  else if mx.updates ∧ my.updates ∧ mx.areg = my.areg then 6
  else if mx.fault true r ≠ 0 then mx.fault true r
  else my.fault false r

/-- What a move writes into D. -/
def State.moveLoads (s : State) (e : Nat) (isX : Bool) (m : Move) (r : EngRegs) : List (Nat × Word) :=
  let rd (a : Nat) : Word := if isX then s.readX e a else s.readY e a
  match m.mt with
  | 1 => [(m.reg, rd (m.ea r))]
  | 2 => [(m.reg, rd (m.ea r)), (m.reg + 1, rd (m.ea r + 1))]
  | 6 => [(m.reg, vget 0 r.d (m.disp.extractLsb' 4 4).toNat)]
  | _ => []

/-- What a move stores. -/
def Move.storeData (m : Move) (r : EngRegs) : List (Nat × Word) :=
  match m.mt with
  | 3 => [(m.ea r, vget 0 r.d m.reg)]
  | 4 => [(m.ea r, vget 0 r.d m.reg), (m.ea r + 1, vget 0 r.d (m.reg + 1))]
  | 5 => [(m.ea r, (convert r.flg (vget 0 r.acc m.reg).toInt).1)]
  | _ => []

/-- A store of an accumulator saturates (R244). -/
def Move.satStore (m : Move) (r : EngRegs) : Bool := decide (m.mt = 5) && (convert r.flg (vget 0 r.acc m.reg).toInt).2

/-- A move's stores take place. -/
def State.moveStores (s : State) (e : Nat) (isX : Bool) (l : List (Nat × Word)) : State :=
  l.foldl (fun s x => if isX then s.wrW (xAddr e x.1) x.2 else s.writeY e x.1 x.2) s

/-- D registers written. -/
def EngRegs.setDs (r : EngRegs) (l : List (Nat × Word)) : EngRegs :=
  { r with d := l.foldl (fun d x => vset d x.1 x.2) r.d }

/-- Address register updated. -/
def EngRegs.setA (r : EngRegs) (m : Move) (v : BitVec 20) : EngRegs :=
  if m.updates then { r with a := vset r.a m.areg v } else r

/-! ### Interlocks (R255) -/

/-- What an instruction reads early: D registers at RD, the D register of LOOPD at DC, accumulators stored, registers of address formation
(8 × file + number: A 0, M 1, B 2, L 3), and the condition codes. -/
structure Reads where
  d : List Nat := []
  loop : List Nat := []
  acc : List Nat := []
  adr : List Nat := []
  cc : Bool := false
  deriving DecidableEq, Repr

/-- What an instruction produces: D registers at the end of EX, D registers at the end of RD (loads and register moves), accumulators,
registers of address formation by an I-format operation, and condition codes. -/
structure Makes where
  d : List Nat := []
  load : List Nat := []
  acc : List Nat := []
  adr : List Nat := []
  cc : Bool := false
  deriving DecidableEq, Repr

/-- D registers that a move reads, and the registers that form its address (R253). -/
def Move.readsD (m : Move) : List Nat :=
  match m.mt with
  | 3 => [m.reg]
  | 4 => [m.reg, m.reg + 1]
  | 6 => [(m.disp.extractLsb' 4 4).toNat]
  | _ => []
def Move.readsAdr (m : Move) : List Nat :=
  if m.bus = false then []
  else match m.am with
    | 0 | 1 => [m.areg]
    | 2 => [m.areg, 8 + m.areg]
    | _ => [m.areg, 8 + m.areg, 16 + m.areg, 24 + m.areg]

/-- D operands of the operation of a P-format word (R261). -/
def aluReads (op : Nat) (x : PWord) : List Nat :=
  if op = 1 ∨ op = 2 ∨ op = 3 then [x.f2.toNat, x.f3.toNat]
  else if 4 ≤ op ∧ op ≤ 6 then x.f2.toNat :: (List.range 4).map (x.f3.toNat + ·)
  else if op = 0x0D ∨ op = 0x18 ∨ op = 0x1B ∨ op = 0x1C ∨ (0x23 ≤ op ∧ op ≤ 0x26) ∨ op = 0x28 then [x.f2.toNat]
  else if 0x19 ≤ op ∧ op ≤ 0x2A then [x.f2.toNat, x.f3.toNat]
  else []

/-- Operations of format P that write D(F1), those that write the accumulator F4, and those that write all four (R261). -/
def writesD (op : Nat) : Bool := decide (op = 0x0E) || (decide (0x18 ≤ op) && decide (op ≤ 0x2A) && decide (op ≠ 0x1F))
def accWritten (op : Nat) (x : PWord) : List Nat :=
  if (4 ≤ op ∧ op ≤ 6) ∨ op = 0x11 then [0, 1, 2, 3]
  else if (1 ≤ op ∧ op ≤ 0x10) ∧ op ≠ 0x0E then [x.f4.toNat]
  else []

/-- The reads of a word. -/
def readsOf (w : BitVec 64) : Reads :=
  let op := opOf w
  if op < 256 then
    let x := PWord.of w
    let mx := moveOf x.mx
    let my := moveOf x.my
    { d := aluReads op x ++ mx.readsD ++ my.readsD
      acc := (if mx.mt = 5 then [mx.reg] else []) ++ (if my.mt = 5 then [my.reg] else [])
      adr := mx.readsAdr ++ my.readsAdr }
  else if op < 512 then
    let x := IWord.of w
    if 258 ≤ op ∧ op ≤ 262 then { d := [x.ra.toNat] } else if op = 272 ∧ x.fb = 0 then { d := [x.rb.toNat] } else {}
  else
    let x := CWord.of w
    if op = 517 then { loop := [x.dr.toNat] }
    else if op = 521 then { d := [x.dr.toNat] }
    else { cc := (decide (513 ≤ op) && decide (op ≤ 515)) && decide (x.cond ≠ 0) }

/-- What a word produces. -/
def makesOf (w : BitVec 64) : Makes :=
  let op := opOf w
  if op < 256 then
    let x := PWord.of w
    { d := if writesD op then [x.f1.toNat] else [], load := (moveOf x.mx).dst ++ (moveOf x.my).dst, acc := accWritten op x
      cc := decide (op ≠ 0) && decide (op ≠ 0x11) }
  else if op < 512 then
    let x := IWord.of w
    if op = 257 then { d := [x.ra.toNat] }
    else if 258 ≤ op ∧ op ≤ 261 then { d := [x.ra.toNat], cc := true }
    else if op = 262 ∨ op = 274 ∨ op = 275 then { cc := true }
    else if 264 ≤ op ∧ op ≤ 267 then { adr := [8 * (op - 264) + x.ra.toNat] }
    else if op = 268 then { adr := [x.ra.toNat] }
    else if x.fa = 0 then { d := [x.ra.toNat] }
    else if x.fa = 5 then { cc := true }
    else { adr := [8 * (x.fa.toNat - 1) + x.ra.toNat] }
  else if op = 520 then { d := [(CWord.of w).dr.toNat] }
  else {}

/-- First issue cycle in which everything that is read is available. -/
def Hazards.ready (h : Hazards) (r : Reads) : Nat :=
  ((r.d.map fun n => vget 0 h.d n) ++ (r.loop.map fun n => vget 0 h.loop n) ++ (r.acc.map fun n => vget 0 h.acc n)
    ++ (r.adr.map fun n => vget 0 h.adr n) ++ (if r.cc then [h.cc] else [])).foldl max h.clk

/-- The instruction issues in cycle `t`: by the table of R255 the result of an ALU operation can be stored or read one cycle late and
count a loop two cycles late, loaded data count a loop one cycle late, a stored accumulator comes one cycle late, and address registers
and condition codes two cycles late. -/
def Hazards.after (h : Hazards) (t : Nat) (m : Makes) : Hazards :=
  { clk := t + 1
    d := m.d.foldl (fun v n => vset v n (t + 2)) h.d
    loop := m.load.foldl (fun v n => vset v n (t + 2)) (m.d.foldl (fun v n => vset v n (t + 3)) h.loop)
    acc := m.acc.foldl (fun v n => vset v n (t + 2)) h.acc
    adr := m.adr.foldl (fun v n => vset v n (t + 3)) h.adr
    cc := if m.cc then t + 3 else h.cc }

/-- Cycles that a word may wait for its bank or for the dictionary, at most (R247, R263, R265): a load from shared memory waits up to 26
cycles, a store that finds the buffer full and SYNC wait for entries to drain, and a DICT_DATA access takes up to 240 cycles. -/
def State.waitMax (s : State) (e : Nat) (w : BitVec 64) : Nat :=
  let r := (s.eng e).r
  let op := opOf w
  if op < 256 then
    let m := moveOf (PWord.of w).my
    let shared := m.bus && decide (0x40000 ≤ m.ea r)
    if shared && m.stores then 26 * (r.stores.length + (m.addrs r).length - 4) else if shared then 26 else 0
  else if op = 525 then 26 * r.stores.length
  else if (op = 520 ∨ op = 521) ∧ (PortWord.of w).port = 0x81 then 240
  else 0

/-- Cycles that it waits at least (R247): 8 for a load that takes a word from shared memory and not from the engine's store buffer. -/
def State.waitMin (s : State) (e : Nat) (w : BitVec 64) : Nat :=
  let r := (s.eng e).r
  if opOf w < 256 then
    let m := moveOf (PWord.of w).my
    if m.bus && decide (0x40000 ≤ m.ea r) && !m.stores && (m.addrs r).any fun a => !(r.stores.any fun p => p.addr == a - 0x40000) then 8
    else 0
  else 0

/-! ### Register files of TFR (R260, R262) -/

/-- The register named by a file code and number exists. -/
def fileOk (f n : BitVec 4) : Bool :=
  decide (f = 0) || (decide (f.toNat ≤ 4) && decide (n.toNat < 8)) || (decide (f = 5) && decide (n = 0))

/-- A register zero-extended. -/
def EngRegs.readFile (r : EngRegs) (f n : BitVec 4) : Word :=
  match f.toNat with
  | 0 => vget 0 r.d n.toNat
  | 1 => (vget 0 r.a n.toNat).zeroExtend 32
  | 2 => (vget 0 r.m n.toNat).zeroExtend 32
  | 3 => (vget 0 r.b n.toNat).zeroExtend 32
  | 4 => (vget 0 r.l n.toNat).zeroExtend 32
  | _ => r.flg

/-- A register written, truncated to its width. -/
def EngRegs.writeFile (r : EngRegs) (f n : BitVec 4) (v : Word) : EngRegs :=
  match f.toNat with
  | 0 => { r with d := vset r.d n.toNat v }
  | 1 => { r with a := vset r.a n.toNat (v.truncate 20) }
  | 2 => { r with m := vset r.m n.toNat (v.truncate 20) }
  | 3 => { r with b := vset r.b n.toNat (v.truncate 20) }
  | 4 => { r with l := vset r.l n.toNat (v.truncate 16) }
  | _ => { r with flg := v &&& flgBits }

end Sys2Proof.Machine
end

