-- ==== Sys2Proof/Machine/Cupola.lean ====
section
/-! DEFINITION. The Cupola engines' arithmetic, transfers and control (R240 to R263), and exceptions (R258, R270). The command of
an instruction stands for its issue on one engine: the word fetched at the program counter comes with it. -/
namespace Sys2Proof.Machine

/-! ### Issue, retirement and exceptions -/

/-- Engine `e` can issue an instruction: it is not clock-gated (R268), its banks are on (R450), a task runs on it, no save is in progress, and
neither BKPT nor a debug halt has stopped it. -/
def State.canIssue (s : State) (e : Nat) : Bool :=
  s.engEnabled e && decide ((s.bank (3 + e)).pwr = .on) && decide ((s.bank (11 + e)).pwr = .on) && (s.running e).isSome &&
    !(s.eng e).bkpt && !s.frame.halted &&
    (match s.entering e with
     | some (.save _) => false
     | _ => true)

/-- An issue cycle with the stall cycles before it: those of the interlocks (R255), and `st`, within its bounds, for a word that waits for a
bank or the dictionary. The counters of R268 and the interlocks follow, and one posted store may reach its bank meanwhile. -/
def State.issue (s : State) (e st : Nat) (w : BitVec 64) : State :=
  let x := s.eng e
  let wait := max (s.waitMin e w) (min st (s.waitMax e w))
  let at1 := x.hazards.ready (readsOf w) + wait
  let stall := at1 - x.hazards.clk
  let s1 := s.setEng e { x with r := { x.r with cycles := x.r.cycles + 1 }, hazards := x.hazards.after at1 (makesOf w)
                                stalledTo := s.nowL + wait }
  let s2 := (s1.setL64 (Obj.BUSY_CYC_LO e) (s1.nl64 (Obj.BUSY_CYC_LO e) + stall + 1)).drainOne e
  s2.setL64 (Obj.STALL_CYC_LO e) (s2.nl64 (Obj.STALL_CYC_LO e) + stall)

/-- The instruction has retired (R254, R268). -/
def State.retire (s : State) (e : Nat) (r : EngRegs) : State :=
  (s.setL64 (Obj.INSTR_LO e) (s.nl64 (Obj.INSTR_LO e) + 1)).setEng e { s.eng e with r := r }

/-- Further cycles of a control instruction or a loop end (R256). -/
def State.extraCyc (s : State) (e n : Nat) : State :=
  let x := s.eng e
  (s.setL64 (Obj.BUSY_CYC_LO e) (s.nl64 (Obj.BUSY_CYC_LO e) + n)).setEng e
    { x with r := { x.r with cycles := x.r.cycles + n }, hazards := { x.hazards with clk := x.hazards.clk + n } }

/-- An exception ends the task (R258, R270). LAST_EXC of TRAP holds CNT in [23:16], over the low bits of PC, and its journal record has CNT
there and no TASK (log entry 25). -/
def State.exception (s : State) (e cause : Nat) (cnt : BitVec 16 := 0) : State :=
  match s.running e with
  | none => s
  | some i =>
    let pc := (s.eng e).r.pc.toNat
    let top := if cause = 11 then (pc / 256) * 16777216 + (cnt.toNat % 256) * 65536 else pc * 65536
    let last := top + i.desc * 256 + cause
    let rec16 := if cause = 11 then top + cause else last
    let s1 := (((s.incL (Obj.EXC_CNT e)).setLN (Obj.LAST_EXC e) last).journal (0x90 + e) (w32 rec16)).irqEdge 5 e
    (s1.taskEnd e).raiseAs (3 + e) (s.na Obj.EXC_CLASS) (if cause = 12 then e else 0) (if cause = 12 then .k else .n)

/-- The word issues under the command of the opcode `op`: `k` is what it does. A word of no listed opcode is an illegal instruction
whatever the command (R258, cause 1); one of another listed opcode is not this command's, and nothing happens. -/
def State.issued (s : State) (e st : Nat) (w : BitVec 64) (op : Nat) (k : State → State) : State :=
  if !s.canIssue e || (decide (opOf w ≠ op) && opListed (opOf w)) then s
  else
    let s1 := s.issue e st w
    if opOf w = op then k s1 else s1.exception e 1

/-- The program counter after an instruction that does not jump: the end of the innermost loop's body starts another pass
or leaves the loop (R256). Answers the extra cycle as well. -/
def EngRegs.step (r : EngRegs) : EngRegs × Nat :=
  match r.loops with
  | l :: rest =>
    if r.pc.toNat = l.stop then
      (if l.count ≤ 1 then { r with pc := r.pc + 1, loops := rest }
       else { r with pc := BitVec.ofNat 13 l.start, loops := { l with count := l.count - 1 } :: rest }, b2n l.slow)
    else ({ r with pc := r.pc + 1 }, 0)
  | [] => ({ r with pc := r.pc + 1 }, 0)

/-- The instruction at the program counter ends the body of the innermost loop (R257). -/
def EngRegs.atEnd (r : EngRegs) : Bool :=
  match r.loops with
  | l :: _ => decide (r.pc.toNat = l.stop)
  | [] => false

/-! ### Registers -/

def EngRegs.rd (r : EngRegs) (n : BitVec 4) : Word := vget 0 r.d n.toNat
def EngRegs.accI (r : EngRegs) (a : Nat) : Int := (vget 0 r.acc a).toInt
/-- A D result with FLG. -/
def EngRegs.setRes (r : EngRegs) (n : BitVec 4) (x : Word × Word) : EngRegs := { r with d := vset r.d n.toNat x.1, flg := x.2 }
/-- A conversion of R244 into a D register: Z and N, and SV when it saturates. -/
def EngRegs.setConv (r : EngRegs) (n : BitVec 4) (v : Int) : EngRegs :=
  let c := convert r.flg v
  { r with d := vset r.d n.toNat c.1, flg := flgSticky (flgZN r.flg c.1) 8 c.2 }
/-- An accumulator result with the flags of code ACC. -/
def EngRegs.setAcc (r : EngRegs) (a : Nat) (v : Int) : EngRegs :=
  { r with acc := vset r.acc a (sat72 v).1, flg := accFlags r.flg v }
/-- Four accumulator results with the flags of code Q. -/
def EngRegs.setQuad (r : EngRegs) (v : Nat → Int) : EngRegs :=
  { r with acc := (((vset r.acc 0 (sat72 (v 0)).1 |> (vset · 1 (sat72 (v 1)).1)) |> (vset · 2 (sat72 (v 2)).1))
             |> (vset · 3 (sat72 (v 3)).1)),
           flg := quadFlags r.flg [v 0, v 1, v 2, v 3] }

/-- SHIFT of the shift-immediate operations: bits [46:42] (R261). -/
def shiftOf (x : PWord) : Nat := x.f3.toNat * 2 + x.f4.toNat / 4

/-! ### Format P (R261) -/

/-- The instruction ends with the registers `r`: it retires, the pc goes on by the loop rules (R257) and their cycles count. -/
def State.finish (s : State) (e : Nat) (r : EngRegs) : State :=
  let n := r.step
  (s.retire e n.1).extraCyc e n.2

/-- An instruction of format P with its two moves: `op` reads D before the moves write it (R254). -/
def State.withMoves (s : State) (e : Nat) (x : PWord) (op : EngRegs → EngRegs) : State :=
  let r := (s.eng e).r
  let mx := moveOf x.mx
  let my := moveOf x.my
  let loads := s.moveLoads e true mx r ++ s.moveLoads e false my r
  let s2 := (s.moveStores e true (mx.storeData r)).moveStores e false (my.storeData r)
  let r1 := (((op r).setDs loads).setA mx (mx.after r)).setA my (my.after r)
  s2.finish e { r1 with flg := flgSticky r1.flg 8 (mx.satStore r || my.satStore r), stores := (s2.eng e).r.stores }

/-- An instruction of format P: `ok` says that its fields are as the table has them, `wr` that it writes D(F1), `f` what it
does to the registers. The operation reads D before the moves write it (R254). -/
def State.pInstr (s : State) (e st : Nat) (w : BitVec 64) (op : Nat) (ok wr : Bool) (f : EngRegs → EngRegs) : State :=
  s.issued e st w op fun s1 =>
    let x := PWord.of w
    let c := movesFault (s1.eng e).r (moveOf x.mx) (moveOf x.my) (if wr then some x.f1.toNat else none)
    if !ok then s1.exception e 1
    else if c ≠ 0 then s1.exception e c
    else s1.withMoves e x f

/-- NOP (R261): nothing but the moves. -/
def execNop (e st : Nat) (w : BitVec 64) (s : State) : Host.Outcome State Fault Refusal :=
  let x := PWord.of w
  .next (s.pInstr e st w 0x00 (decide (x.f1 = 0) && decide (x.f2 = 0) && decide (x.f3 = 0) && decide (x.f4 = 0)) false fun r => r)

/-- MPY (R261): ACCa := Ds1 × Ds2. -/
def execMpy (e st : Nat) (w : BitVec 64) (s : State) : Host.Outcome State Fault Refusal :=
  let x := PWord.of w
  .next (s.pInstr e st w 0x01 (decide (x.f1 = 0) && decide (x.f4.toNat < 4)) false fun r => r.setAcc x.f4.toNat (product r.flg (r.rd x.f2) (r.rd x.f3)))

/-- MAC (R261): ACCa += Ds1 × Ds2. -/
def execMac (e st : Nat) (w : BitVec 64) (s : State) : Host.Outcome State Fault Refusal :=
  let x := PWord.of w
  .next (s.pInstr e st w 0x02 (decide (x.f1 = 0) && decide (x.f4.toNat < 4)) false fun r => r.setAcc x.f4.toNat (r.accI x.f4.toNat + product r.flg (r.rd x.f2) (r.rd x.f3)))

/-- MSU (R261): ACCa −= Ds1 × Ds2. -/
def execMsu (e st : Nat) (w : BitVec 64) (s : State) : Host.Outcome State Fault Refusal :=
  let x := PWord.of w
  .next (s.pInstr e st w 0x03 (decide (x.f1 = 0) && decide (x.f4.toNat < 4)) false fun r => r.setAcc x.f4.toNat (r.accI x.f4.toNat - product r.flg (r.rd x.f2) (r.rd x.f3)))

/-- MPY4 (R261): ACCi := Ds × D(q+i). -/
def execMpy4 (e st : Nat) (w : BitVec 64) (s : State) : Host.Outcome State Fault Refusal :=
  let x := PWord.of w
  .next (s.pInstr e st w 0x04 (decide (x.f1 = 0) && decide (x.f4 = 0) && decide (x.f3.toNat % 4 = 0)) false fun r => r.setQuad fun i => let p := product r.flg (r.rd x.f2) (vget 0 r.d (x.f3.toNat + i)); p)

/-- MAC4 (R261): ACCi += Ds × D(q+i). -/
def execMac4 (e st : Nat) (w : BitVec 64) (s : State) : Host.Outcome State Fault Refusal :=
  let x := PWord.of w
  .next (s.pInstr e st w 0x05 (decide (x.f1 = 0) && decide (x.f4 = 0) && decide (x.f3.toNat % 4 = 0)) false fun r => r.setQuad fun i => let p := product r.flg (r.rd x.f2) (vget 0 r.d (x.f3.toNat + i)); r.accI i + p)

/-- MSU4 (R261): ACCi −= Ds × D(q+i). -/
def execMsu4 (e st : Nat) (w : BitVec 64) (s : State) : Host.Outcome State Fault Refusal :=
  let x := PWord.of w
  .next (s.pInstr e st w 0x06 (decide (x.f1 = 0) && decide (x.f4 = 0) && decide (x.f3.toNat % 4 = 0)) false fun r => r.setQuad fun i => let p := product r.flg (r.rd x.f2) (vget 0 r.d (x.f3.toNat + i)); r.accI i - p)

/-- CLR (R261): ACCa := 0. -/
def execClr (e st : Nat) (w : BitVec 64) (s : State) : Host.Outcome State Fault Refusal :=
  let x := PWord.of w
  .next (s.pInstr e st w 0x08 (decide (x.f1 = 0) && decide (x.f2 = 0) && decide (x.f3 = 0) && decide (x.f4.toNat < 4)) false fun r => r.setAcc x.f4.toNat 0)

/-- ADDA (R261): ACCa += ACCb. -/
def execAdda (e st : Nat) (w : BitVec 64) (s : State) : Host.Outcome State Fault Refusal :=
  let x := PWord.of w
  .next (s.pInstr e st w 0x09 (decide (x.f1 = 0) && decide (x.f2 = 0) && decide (x.f4.toNat < 4) && decide (x.f3.toNat < 4)) false fun r => r.setAcc x.f4.toNat (r.accI x.f4.toNat + r.accI x.f3.toNat))

/-- SUBA (R261): ACCa −= ACCb. -/
def execSuba (e st : Nat) (w : BitVec 64) (s : State) : Host.Outcome State Fault Refusal :=
  let x := PWord.of w
  .next (s.pInstr e st w 0x0A (decide (x.f1 = 0) && decide (x.f2 = 0) && decide (x.f4.toNat < 4) && decide (x.f3.toNat < 4)) false fun r => r.setAcc x.f4.toNat (r.accI x.f4.toNat - r.accI x.f3.toNat))

/-- ASLA (R261): left shift. -/
def execAsla (e st : Nat) (w : BitVec 64) (s : State) : Host.Outcome State Fault Refusal :=
  let x := PWord.of w
  .next (s.pInstr e st w 0x0B (decide (x.f1 = 0) && decide (x.f3 = 0) && decide (x.f4.toNat < 4)) false fun r => r.setAcc x.f4.toNat (r.accI x.f4.toNat * 2 ^ x.f2.toNat))

/-- ASRA (R261): arithmetic right shift. -/
def execAsra (e st : Nat) (w : BitVec 64) (s : State) : Host.Outcome State Fault Refusal :=
  let x := PWord.of w
  .next (s.pInstr e st w 0x0C (decide (x.f1 = 0) && decide (x.f3 = 0) && decide (x.f4.toNat < 4)) false fun r => r.setAcc x.f4.toNat (floorDiv (r.accI x.f4.toNat) (2 ^ x.f2.toNat)))

/-- LDACC (R261): load scaled by FM (R244). -/
def execLdacc (e st : Nat) (w : BitVec 64) (s : State) : Host.Outcome State Fault Refusal :=
  let x := PWord.of w
  .next (s.pInstr e st w 0x0D (decide (x.f1 = 0) && decide (x.f3 = 0) && decide (x.f4.toNat < 4)) false fun r => r.setAcc x.f4.toNat (accLoad r.flg (r.rd x.f2)))

/-- RND (R261): conversion of R244. -/
def execRnd (e st : Nat) (w : BitVec 64) (s : State) : Host.Outcome State Fault Refusal :=
  let x := PWord.of w
  .next (s.pInstr e st w 0x0E (decide (x.f2 = 0) && decide (x.f3 = 0) && decide (x.f4.toNat < 4)) true fun r => r.setConv x.f1 (r.accI x.f4.toNat))

/-- NEGA (R261): negation. -/
def execNega (e st : Nat) (w : BitVec 64) (s : State) : Host.Outcome State Fault Refusal :=
  let x := PWord.of w
  .next (s.pInstr e st w 0x0F (decide (x.f1 = 0) && decide (x.f2 = 0) && decide (x.f3 = 0) && decide (x.f4.toNat < 4)) false fun r => r.setAcc x.f4.toNat (-(r.accI x.f4.toNat)))

/-- ABSA (R261): absolute value. -/
def execAbsa (e st : Nat) (w : BitVec 64) (s : State) : Host.Outcome State Fault Refusal :=
  let x := PWord.of w
  .next (s.pInstr e st w 0x10 (decide (x.f1 = 0) && decide (x.f2 = 0) && decide (x.f3 = 0) && decide (x.f4.toNat < 4)) false fun r => r.setAcc x.f4.toNat ((r.accI x.f4.toNat).natAbs : Int))

/-- CLR4 (R261): all four accumulators cleared. -/
def execClr4 (e st : Nat) (w : BitVec 64) (s : State) : Host.Outcome State Fault Refusal :=
  let x := PWord.of w
  .next (s.pInstr e st w 0x11 (decide (x.f1 = 0) && decide (x.f2 = 0) && decide (x.f3 = 0) && decide (x.f4 = 0)) false fun r => { r with acc := Vector.replicate 4 0 })

/-- MOV (R261): Dd := Ds1. -/
def execMov (e st : Nat) (w : BitVec 64) (s : State) : Host.Outcome State Fault Refusal :=
  let x := PWord.of w
  .next (s.pInstr e st w 0x18 (decide (x.f3 = 0) && decide (x.f4 = 0)) true fun r => r.setRes x.f1 (opMov r.flg (r.rd x.f2)))

/-- ADD (R261): Dd := Ds1 + Ds2. -/
def execAdd (e st : Nat) (w : BitVec 64) (s : State) : Host.Outcome State Fault Refusal :=
  let x := PWord.of w
  .next (s.pInstr e st w 0x19 (decide (x.f4 = 0)) true fun r => r.setRes x.f1 (opAdd r.flg (r.rd x.f2) (r.rd x.f3)))

/-- SUB (R261): Dd := Ds1 − Ds2. -/
def execSub (e st : Nat) (w : BitVec 64) (s : State) : Host.Outcome State Fault Refusal :=
  let x := PWord.of w
  .next (s.pInstr e st w 0x1A (decide (x.f4 = 0)) true fun r => r.setRes x.f1 (opSub r.flg (r.rd x.f2) (r.rd x.f3)))

/-- NEG (R261): Dd := −Ds1. -/
def execNeg (e st : Nat) (w : BitVec 64) (s : State) : Host.Outcome State Fault Refusal :=
  let x := PWord.of w
  .next (s.pInstr e st w 0x1B (decide (x.f3 = 0) && decide (x.f4 = 0)) true fun r => r.setRes x.f1 (opNeg r.flg (r.rd x.f2)))

/-- ABS (R261): Dd := abs(Ds1). -/
def execAbs (e st : Nat) (w : BitVec 64) (s : State) : Host.Outcome State Fault Refusal :=
  let x := PWord.of w
  .next (s.draw.2.pInstr e st w 0x1C (decide (x.f3 = 0) && decide (x.f4 = 0)) true fun r => r.setRes x.f1 (opAbs r.flg (r.rd x.f2) (s.draw.1.getLsbD 0)))

/-- MIN (R261): signed minimum. -/
def execMin (e st : Nat) (w : BitVec 64) (s : State) : Host.Outcome State Fault Refusal :=
  let x := PWord.of w
  .next (s.pInstr e st w 0x1D (decide (x.f4 = 0)) true fun r => r.setRes x.f1 (opZN r.flg (if (r.rd x.f2).toInt ≤ (r.rd x.f3).toInt then (r.rd x.f2) else (r.rd x.f3))))

/-- MAX (R261): signed maximum. -/
def execMax (e st : Nat) (w : BitVec 64) (s : State) : Host.Outcome State Fault Refusal :=
  let x := PWord.of w
  .next (s.pInstr e st w 0x1E (decide (x.f4 = 0)) true fun r => r.setRes x.f1 (opZN r.flg (if (r.rd x.f2).toInt ≤ (r.rd x.f3).toInt then (r.rd x.f3) else (r.rd x.f2))))

/-- CMP (R261): flags of Ds1 − Ds2. -/
def execCmp (e st : Nat) (w : BitVec 64) (s : State) : Host.Outcome State Fault Refusal :=
  let x := PWord.of w
  .next (s.pInstr e st w 0x1F (decide (x.f1 = 0) && decide (x.f4 = 0)) false fun r => { r with flg := opCmp r.flg (r.rd x.f2) (r.rd x.f3) })

/-- AND (R261): bitwise. -/
def execAnd (e st : Nat) (w : BitVec 64) (s : State) : Host.Outcome State Fault Refusal :=
  let x := PWord.of w
  .next (s.pInstr e st w 0x20 (decide (x.f4 = 0)) true fun r => r.setRes x.f1 (opBits r.flg ((r.rd x.f2) &&& (r.rd x.f3))))

/-- OR (R261): bitwise. -/
def execOr (e st : Nat) (w : BitVec 64) (s : State) : Host.Outcome State Fault Refusal :=
  let x := PWord.of w
  .next (s.pInstr e st w 0x21 (decide (x.f4 = 0)) true fun r => r.setRes x.f1 (opBits r.flg ((r.rd x.f2) ||| (r.rd x.f3))))

/-- XOR (R261): bitwise. -/
def execXor (e st : Nat) (w : BitVec 64) (s : State) : Host.Outcome State Fault Refusal :=
  let x := PWord.of w
  .next (s.pInstr e st w 0x22 (decide (x.f4 = 0)) true fun r => r.setRes x.f1 (opBits r.flg ((r.rd x.f2) ^^^ (r.rd x.f3))))

/-- NOT (R261): bitwise. -/
def execNot (e st : Nat) (w : BitVec 64) (s : State) : Host.Outcome State Fault Refusal :=
  let x := PWord.of w
  .next (s.pInstr e st w 0x23 (decide (x.f3 = 0) && decide (x.f4 = 0)) true fun r => r.setRes x.f1 (opBits r.flg (~~~(r.rd x.f2))))

/-- ASLI (R261): left shift by an immediate. -/
def execAsli (e st : Nat) (w : BitVec 64) (s : State) : Host.Outcome State Fault Refusal :=
  let x := PWord.of w
  .next (s.draw.2.pInstr e st w 0x24 (decide (x.f4.toNat % 4 = 0)) true fun r => r.setRes x.f1 (opShl r.flg (r.rd x.f2) (shiftOf x) (s.draw.1.getLsbD 0)))

/-- ASRI (R261): arithmetic right shift. -/
def execAsri (e st : Nat) (w : BitVec 64) (s : State) : Host.Outcome State Fault Refusal :=
  let x := PWord.of w
  .next (s.draw.2.pInstr e st w 0x25 (decide (x.f4.toNat % 4 = 0)) true fun r => r.setRes x.f1 (opAsr r.flg (r.rd x.f2) (shiftOf x) (s.draw.1.getLsbD 0)))

/-- LSRI (R261): logical right shift. -/
def execLsri (e st : Nat) (w : BitVec 64) (s : State) : Host.Outcome State Fault Refusal :=
  let x := PWord.of w
  .next (s.draw.2.pInstr e st w 0x26 (decide (x.f4.toNat % 4 = 0)) true fun r => r.setRes x.f1 (opLsr r.flg (r.rd x.f2) (shiftOf x) (s.draw.1.getLsbD 0)))

/-- ASHV (R261): shift by a signed amount. -/
def execAshv (e st : Nat) (w : BitVec 64) (s : State) : Host.Outcome State Fault Refusal :=
  let x := PWord.of w
  .next (s.draw.2.pInstr e st w 0x27 (decide (x.f4 = 0)) true fun r => r.setRes x.f1 (opShv r.flg (r.rd x.f2) (r.rd x.f3) (s.draw.1.getLsbD 0)))

/-- NORM (R261): redundant sign bits. -/
def execNorm (e st : Nat) (w : BitVec 64) (s : State) : Host.Outcome State Fault Refusal :=
  let x := PWord.of w
  .next (s.pInstr e st w 0x28 (decide (x.f3 = 0) && decide (x.f4 = 0)) true fun r => r.setRes x.f1 (opZN r.flg (w32 (redundant (r.rd x.f2)))))

/-- MPYD (R261): converted product. -/
def execMpyd (e st : Nat) (w : BitVec 64) (s : State) : Host.Outcome State Fault Refusal :=
  let x := PWord.of w
  .next (s.pInstr e st w 0x29 (decide (x.f4 = 0)) true fun r => r.setConv x.f1 (product r.flg (r.rd x.f2) (r.rd x.f3)))

/-- CLAMP (R261): limit to a magnitude. -/
def execClamp (e st : Nat) (w : BitVec 64) (s : State) : Host.Outcome State Fault Refusal :=
  let x := PWord.of w
  .next (s.pInstr e st w 0x2A (decide (x.f4 = 0)) true fun r => r.setRes x.f1 (opClamp r.flg (r.rd x.f2) (r.rd x.f3)))

/-! ### Format I (R262) -/

/-- An instruction of format I. -/
def State.iInstr (s : State) (e st : Nat) (w : BitVec 64) (op : Nat) (ok : Bool) (f : EngRegs → EngRegs) : State :=
  s.issued e st w op fun s1 => if !ok then s1.exception e 1 else s1.finish e (f (s1.eng e).r)

/-- LDI (R262): D(RA) := IMM. -/
def execLdi (e st : Nat) (w : BitVec 64) (s : State) : Host.Outcome State Fault Refusal :=
  let x := IWord.of w
  .next (s.iInstr e st w 0x101 (decide (x.rb = 0) && decide (x.fa = 0) && decide (x.fb = 0) && decide (x.un = 0)) fun r => { r with d := vset r.d x.ra.toNat x.imm })

/-- ADDI (R262): D(RA) := D(RA) + IMM. -/
def execAddi (e st : Nat) (w : BitVec 64) (s : State) : Host.Outcome State Fault Refusal :=
  let x := IWord.of w
  .next (s.iInstr e st w 0x102 (decide (x.rb = 0) && decide (x.fa = 0) && decide (x.fb = 0) && decide (x.un = 0)) fun r => r.setRes x.ra (opAdd r.flg (r.rd x.ra) x.imm))

/-- ANDI (R262): bitwise with IMM; Z and N. -/
def execAndi (e st : Nat) (w : BitVec 64) (s : State) : Host.Outcome State Fault Refusal :=
  let x := IWord.of w
  .next (s.iInstr e st w 0x103 (decide (x.rb = 0) && decide (x.fa = 0) && decide (x.fb = 0) && decide (x.un = 0)) fun r => r.setRes x.ra (opZN r.flg ((r.rd x.ra) &&& x.imm)))

/-- ORI (R262): bitwise with IMM; Z and N. -/
def execOri (e st : Nat) (w : BitVec 64) (s : State) : Host.Outcome State Fault Refusal :=
  let x := IWord.of w
  .next (s.iInstr e st w 0x104 (decide (x.rb = 0) && decide (x.fa = 0) && decide (x.fb = 0) && decide (x.un = 0)) fun r => r.setRes x.ra (opZN r.flg ((r.rd x.ra) ||| x.imm)))

/-- XORI (R262): bitwise with IMM; Z and N. -/
def execXori (e st : Nat) (w : BitVec 64) (s : State) : Host.Outcome State Fault Refusal :=
  let x := IWord.of w
  .next (s.iInstr e st w 0x105 (decide (x.rb = 0) && decide (x.fa = 0) && decide (x.fb = 0) && decide (x.un = 0)) fun r => r.setRes x.ra (opZN r.flg ((r.rd x.ra) ^^^ x.imm)))

/-- CMPI (R262): flags of D(RA) − IMM. -/
def execCmpi (e st : Nat) (w : BitVec 64) (s : State) : Host.Outcome State Fault Refusal :=
  let x := IWord.of w
  .next (s.iInstr e st w 0x106 (decide (x.rb = 0) && decide (x.fa = 0) && decide (x.fb = 0) && decide (x.un = 0)) fun r => { r with flg := opCmp r.flg (r.rd x.ra) x.imm })

/-- LDAI (R262): the register takes IMM, truncated to its width. -/
def execLdai (e st : Nat) (w : BitVec 64) (s : State) : Host.Outcome State Fault Refusal :=
  let x := IWord.of w
  .next (s.iInstr e st w 0x108 (decide (x.rb = 0) && decide (x.fa = 0) && decide (x.fb = 0) && decide (x.un = 0) && decide (x.ra.toNat < 8)) fun r => r.writeFile 1 x.ra x.imm)

/-- LDMI (R262): the register takes IMM, truncated to its width. -/
def execLdmi (e st : Nat) (w : BitVec 64) (s : State) : Host.Outcome State Fault Refusal :=
  let x := IWord.of w
  .next (s.iInstr e st w 0x109 (decide (x.rb = 0) && decide (x.fa = 0) && decide (x.fb = 0) && decide (x.un = 0) && decide (x.ra.toNat < 8)) fun r => r.writeFile 2 x.ra x.imm)

/-- LDBI (R262): the register takes IMM, truncated to its width. -/
def execLdbi (e st : Nat) (w : BitVec 64) (s : State) : Host.Outcome State Fault Refusal :=
  let x := IWord.of w
  .next (s.iInstr e st w 0x10A (decide (x.rb = 0) && decide (x.fa = 0) && decide (x.fb = 0) && decide (x.un = 0) && decide (x.ra.toNat < 8)) fun r => r.writeFile 3 x.ra x.imm)

/-- LDLI (R262): the register takes IMM, truncated to its width. -/
def execLdli (e st : Nat) (w : BitVec 64) (s : State) : Host.Outcome State Fault Refusal :=
  let x := IWord.of w
  .next (s.iInstr e st w 0x10B (decide (x.rb = 0) && decide (x.fa = 0) && decide (x.fb = 0) && decide (x.un = 0) && decide (x.ra.toNat < 8)) fun r => r.writeFile 4 x.ra x.imm)

/-- ADDAI (R262): A(RA) := A(RA) + IMM, wrapping at 20 bits. -/
def execAddai (e st : Nat) (w : BitVec 64) (s : State) : Host.Outcome State Fault Refusal :=
  let x := IWord.of w
  .next (s.iInstr e st w 0x10C (decide (x.rb = 0) && decide (x.fa = 0) && decide (x.fb = 0) && decide (x.un = 0) && decide (x.ra.toNat < 8)) fun r => r.writeFile 1 x.ra (r.readFile 1 x.ra + x.imm))

/-- TFR (R262): FA:RA := FB:RB. -/
def execTfr (e st : Nat) (w : BitVec 64) (s : State) : Host.Outcome State Fault Refusal :=
  let x := IWord.of w
  .next (s.iInstr e st w 0x110 (decide (x.un = 0) && decide (x.imm = 0) && fileOk x.fa x.ra && fileOk x.fb x.rb) fun r => r.writeFile x.fa x.ra (r.readFile x.fb x.rb))

/-- SETF (R262): FLG := FLG OR IMM. -/
def execSetf (e st : Nat) (w : BitVec 64) (s : State) : Host.Outcome State Fault Refusal :=
  let x := IWord.of w
  .next (s.iInstr e st w 0x112 (decide (x.ra = 0) && decide (x.rb = 0) && decide (x.fa = 0) && decide (x.fb = 0) && decide (x.un = 0)) fun r => { r with flg := (r.flg ||| x.imm) &&& flgBits })

/-- CLRF (R262): FLG := FLG AND NOT IMM. -/
def execClrf (e st : Nat) (w : BitVec 64) (s : State) : Host.Outcome State Fault Refusal :=
  let x := IWord.of w
  .next (s.iInstr e st w 0x113 (decide (x.ra = 0) && decide (x.rb = 0) && decide (x.fa = 0) && decide (x.fb = 0) && decide (x.un = 0)) fun r => { r with flg := r.flg &&& ~~~x.imm })

/-! ### Format C (R256, R257, R263) -/

/-- An instruction of format C that may jump or that the end of a loop body may not hold: its exception, or what it does. -/
def State.cInstr (s : State) (e st : Nat) (w : BitVec 64) (op : Nat) (ok : Bool) (cause : EngRegs → Nat)
    (f : State → EngRegs → State) : State :=
  s.issued e st w op fun s1 =>
    let r := (s1.eng e).r
    if !ok then s1.exception e 1
    else if r.atEnd then s1.exception e 8
    else if cause r ≠ 0 then s1.exception e (cause r)
    else f s1 r

/-- Loops that a jump to `t` leaves (R257). -/
def popLoops (t : Nat) : List LoopRec → List LoopRec
  | [] => []
  | l :: rest => if l.start ≤ t ∧ t ≤ l.stop then l :: rest else popLoops t rest

/-- A jump taken: 2 cycles in all (R256). -/
def State.jump (s : State) (e : Nat) (r : EngRegs) (t : BitVec 13) : State := (s.retire e { r with pc := t }).extraCyc e 1
/-- No jump: the next instruction. -/
def State.fall (s : State) (e : Nat) (r : EngRegs) : State := s.retire e { r with pc := r.pc + 1 }

/-- BRA (R263). -/
def execBra (e st : Nat) (w : BitVec 64) (s : State) : Host.Outcome State Fault Refusal :=
  let x := CWord.of w
  .next (s.cInstr e st w 0x201 (decide (x.dr = 0) && decide (x.cnt = 0) && decide (x.un = 0)) (fun _ => 0) fun s r =>
    if condHolds r.flg x.cond then s.jump e { r with loops := popLoops x.target.toNat r.loops } x.target else s.fall e r)

/-- CALL (R263). -/
def execCall (e st : Nat) (w : BitVec 64) (s : State) : Host.Outcome State Fault Refusal :=
  let x := CWord.of w
  .next (s.cInstr e st w 0x202 (decide (x.dr = 0) && decide (x.cnt = 0) && decide (x.un = 0))
    (fun r => if condHolds r.flg x.cond ∧ 8 ≤ r.rets.length then 9 else 0) fun s r =>
    if condHolds r.flg x.cond then s.jump e { r with rets := (r.pc + 1) :: r.rets } x.target else s.fall e r)

/-- RET (R263). -/
def execRet (e st : Nat) (w : BitVec 64) (s : State) : Host.Outcome State Fault Refusal :=
  let x := CWord.of w
  .next (s.cInstr e st w 0x203 (decide (x.dr = 0) && decide (x.cnt = 0) && decide (x.un = 0) && decide (x.target = 0))
    (fun r => if condHolds r.flg x.cond ∧ r.rets = [] then 10 else 0) fun s r =>
    match condHolds r.flg x.cond, r.rets with
    | true, t :: rest => s.jump e { r with rets := rest } t
    | _, _ => s.fall e r)

/-- Exception of LOOP and LOOPD (R257, R258). -/
def loopFault (target : BitVec 13) (count : Nat) (r : EngRegs) : Nat :=
  if target.toNat ≤ r.pc.toNat ∨ r.loops.any (fun l => decide (l.stop = target.toNat)) then 8
  else if 0 < count ∧ 4 ≤ r.loops.length then 7
  else 0

/-- LOOP and LOOPD (R256): a count of 0 skips the body; else the body becomes the innermost loop, and the loops around it
leave the cache. -/
def State.startLoop (s : State) (e : Nat) (r : EngRegs) (target : BitVec 13) (count : Nat) : State :=
  if count = 0 then s.jump e r (target + 1)
  else
    let l : LoopRec := { start := r.pc.toNat + 1, stop := target.toNat, count := count,
                         slow := decide (32 < target.toNat - r.pc.toNat) }
    s.retire e { r with pc := r.pc + 1, loops := l :: r.loops.map fun o => { o with slow := true } }

/-- LOOP (R263). -/
def execLoop (e st : Nat) (w : BitVec 64) (s : State) : Host.Outcome State Fault Refusal :=
  let x := CWord.of w
  .next (s.cInstr e st w 0x204 (decide (x.cond = 0) && decide (x.dr = 0) && decide (x.un = 0))
    (loopFault x.target x.cnt.toNat) fun s r => s.startLoop e r x.target x.cnt.toNat)

/-- LOOPD (R263). -/
def execLoopd (e st : Nat) (w : BitVec 64) (s : State) : Host.Outcome State Fault Refusal :=
  let x := CWord.of w
  .next (s.cInstr e st w 0x205 (decide (x.cond = 0) && decide (x.cnt = 0) && decide (x.un = 0))
    (fun r => loopFault x.target ((r.rd x.dr).toNat % 65536) r) fun s r => s.startLoop e r x.target ((r.rd x.dr).toNat % 65536))

/-- A FRAME task signals done for its arms (R33, R41). -/
def State.signalDone (s : State) (i : Inst) : State :=
  if i.words.cls = 0 then
    { s with frame := { s.frame with
        tasks := s.frame.tasks.map fun t => if t.desc = i.desc then { t with done := true } else t
        snaps := s.frame.snaps.map fun x => if x.frame = s.frame.count then { x with tDone := s.nowC - s.frame.tickC } else x } }
  else s

/-- DONE at its EX stage, at converter time `t` (R263). -/
def execDone (e st t : Nat) (w : BitVec 64) (s : State) : Host.Outcome State Fault Refusal :=
  let x := CWord.of w
  .next (s.cInstr e st w 0x20C (decide (x = { cond := 0, dr := 0, cnt := 0, un := 0, target := 0 })) (fun _ => 0) fun s0 r =>
    match s0.running e with
    | none => s0
    | some i =>
      let s := s0.toC t
      let or := s.gl (Obj.STICKY_OR e) ||| (w32 (fld r.flg 11 8) &&& s.ga Obj.STICKY_MASK)
      let s1 := ((s.retire e r).setL (Obj.STICKY_OR e) or).signalDone i
      let cls := s1.na Obj.STICKY_CLASS
      let s2 := s1.taskEnd e
      if or ≠ 0 ∧ cls ≠ 0xFF then s2.raiseAs (3 + e) cls e .k else s2)

/-- A control instruction that only goes on to the next one, with no field used. -/
def State.plainC (s : State) (e st : Nat) (w : BitVec 64) (op : Nat) (ok : Bool) (f : State → State) : State :=
  s.issued e st w op fun s1 =>
    if !ok then s1.exception e 1
    else
      let s2 := f s1
      s2.finish e (s2.eng e).r

/-- SYNC (R263): the store buffer is empty. -/
def execSync (e st : Nat) (w : BitVec 64) (s : State) : Host.Outcome State Fault Refusal :=
  let x := CWord.of w
  .next (s.plainC e st w 0x20D (decide (x = { cond := 0, dr := 0, cnt := 0, un := 0, target := 0 })) fun s => s.drainStores e)

/-- TRAP (R263): exception 11. -/
def execTrap (e st : Nat) (w : BitVec 64) (s : State) : Host.Outcome State Fault Refusal :=
  let x := CWord.of w
  .next (s.issued e st w 0x20E fun s1 =>
    s1.exception e (if x.cond = 0 ∧ x.dr = 0 ∧ x.un = 0 ∧ x.target = 0 then 11 else 1) x.cnt)

/-- A JTAG debug halt is allowed (R462). -/
def State.jtagAllowed (s : State) : Bool := decide (s.mem.life ≠ .deployed) || s.wt.debugPermit

/-- BKPT (R263): halts the engine when JTAG debug is allowed, else nothing. -/
def execBkpt (e st : Nat) (w : BitVec 64) (s : State) : Host.Outcome State Fault Refusal :=
  let x := CWord.of w
  .next (s.plainC e st w 0x20F (decide (x = { cond := 0, dr := 0, cnt := 0, un := 0, target := 0 })) fun s =>
    if s.jtagAllowed then s.setEng e { s.eng e with bkpt := true } else s)

/-- REGFILE_PARITY_ERROR (R258): exception 12 where a task runs, and the engine's error line in any case. -/
def execRegfileParityError (e : Nat) (s : State) : Host.Outcome State Fault Refusal :=
  .next ((s.raiseAs 2 (s.faultClass 2) e .k).exception e 12)

/-! ### Objects (R268, R269) -/

/-- ENG_STATUS (R269): the descriptor that runs or ran last. -/
def State.engStatus (s : State) (e : Nat) : Nat :=
  let x := s.eng e
  let st := if !s.engEnabled e then 0 else if s.frame.halted || x.bkpt then 4 else if (s.running e).isNone then 1
    else if s.nowL < x.stalledTo then 3 else 2
  let i := (s.running e).getD { id := 0, desc := (s.nl (Obj.ENG_STATUS e)) / 65536 % 256, words := Desc.empty, rel := 0, frame := 0 }
  let prio := if (s.running e).isSome then i.prio else (s.nl (Obj.ENG_STATUS e)) / 4096 % 16
  i.desc * 65536 + prio * 4096 + x.saved.length * 256 + st

/-- Objects of 2600 to 2688 that the engines hold. -/
def view10 (s : State) (key : Nat) : Option Word :=
  if key = Obj.SEM_STATE then some (s.cup.sem.zeroExtend 32)
  else if 0x2610 ≤ key / 256 ∧ key / 256 ≤ 0x2617 ∧ key % 256 = 1 then some (w32 (s.engStatus (key / 256 - 0x2610)))
  else if key = Obj.MB_VALID_LO then
    some (w32 ((List.range 32).map fun i => b2n ((s.mailbox 0 (256 + 8 * i + 5)).getLsbD 16) * 2 ^ i).sum)
  else if key = Obj.MB_VALID_HI then
    some (w32 ((List.range 32).map fun i => b2n ((s.mailbox 0 (256 + 8 * (32 + i) + 5)).getLsbD 16) * 2 ^ i).sum)
  else none

end Sys2Proof.Machine
end

