-- ==== Sys2Proof/Machine/FrameOps.lean ====
section
/-! DEFINITION. What the Frame Sequencer reports (R31, R40 to R42): FRAME_STATUS, the gating lanes and the snapshot. -/
namespace Sys2Proof.Machine

/-- A lane gates the release (R31): marked, with a measurement unit in its active manifest. -/
def State.gates (s : State) (n : Nat) : Bool :=
  nbit (s.na Obj.REL_GATE_LANES) n && (s.manifest n).entries.any fun w => decide (entKind w = 3)

/-- Lanes of the active manifest that are not in DATA. -/
def State.downLanes (s : State) : List Nat :=
  idxs 32 fun n => decide ((s.manifest n).entries ≠ []) && !s.inData n

/-- The largest of some counts, saturating at 3 (R42). -/
def runMax (l : List Nat) : Nat := min 3 (l.foldl max 0)

/-- FRAME_STATUS (R42). -/
def State.frameStatus (s : State) : Nat :=
  b2n s.frame.ticking * 2147483648 + s.frame.reused.toNat * 256 + runMax s.frame.lateRun.toList * 64
    + s.frame.measMax * 16 + b2n (!s.downLanes.isEmpty) * 8
    + b2n s.frame.pFromSet * 4

/-- The times of a frame not yet published (R41). -/
def State.snapOf (s : State) (k : Nat) : Option Snap := s.frame.snaps.find? fun x => decide (x.frame = k)

/-- Replace the times of a frame. -/
def State.setSnap (s : State) (k : Nat) (f : Snap → Snap) : State :=
  { s with frame := { s.frame with snaps := s.frame.snaps.map fun x => if x.frame = k then f x else x } }

/-- Objects of 2100 to 2102 that the Frame Sequencer holds. -/
def view02 (s : State) (key : Nat) : Option Word :=
  if key = Obj.FRAME_COUNT_LO then some (lo32 s.frame.count)
  else if key = Obj.FRAME_COUNT_HI then some (hi32 s.frame.count)
  else if key = Obj.FRAME_STATUS then some (w32 s.frameStatus)
  else none

end Sys2Proof.Machine
end

