-- ==== Sys2Proof/Machine/Aids.lean ====
section
/-! DEFINITION. The control-law aids: set-point channels (R289 to R294), the notch stage (R295 to R298), the saturation flags
(R299) and the Lantern (R300 to R304). -/
namespace Sys2Proof.Machine

/-- The notes on AIDS_STICKY of an earlier fabric cycle are dropped. -/
def State.stickyCycle (s : State) : State :=
  if s.aids.stickyAt = s.fabricCycle then s
  else { s with aids := { s.aids with stickyAt := s.fabricCycle, stickySet := 0, stickyClr := 0 } }

/-- An AIDS_STICKY event (R299): a bit that becomes 1 reports the class where its mask bit is 1. One that a write of this very cycle has
cleared stays set. -/
def State.aidsSet (s : State) (b : Nat) : State :=
  let v := s.gl Obj.AIDS_STICKY
  let s0 := s.stickyCycle
  let was := nbit v.toNat b || nbit s0.aids.stickyClr.toNat b
  let s1 := ({ s0 with aids := { s0.aids with stickySet := bset s0.aids.stickySet b true } } : State).setL Obj.AIDS_STICKY (bset v b true)
  let cls := s.na Obj.AIDS_STICKY_CLASS
  if !was && nbit (s.na Obj.AIDS_STICKY_MASK) b && decide (cls ≠ 0xFF) then s1.raiseAs 37 cls 0 .n else s1
def State.aidsIf (s : State) (c : Bool) (b : Nat) : State := if c then s.aidsSet b else s

/-- AIDS_STICKY_CLEAR (R299): a write of 1 to a bit clears it, unless an event of this very cycle has set it. -/
def wrAidsSticky (v : Word) (s : State) : WOut :=
  let s0 := s.stickyCycle
  let x := s.gl Obj.AIDS_STICKY
  done (({ s0 with aids := { s0.aids with stickyClr := s0.aids.stickyClr ||| (x &&& v) } } : State).setL Obj.AIDS_STICKY
    (x &&& ~~~(v &&& ~~~s0.aids.stickySet)))
def execAidsStickyClear (p : Path) (v : Word) (s : State) : Host.Outcome State Fault Refusal :=
  .next (s.guardWrite p Obj.AIDS_STICKY v (wrAidsSticky v))

/-! ### Set-point channels -/

def SpChan.reset : SpChan := { y := 0, raw := 0, noNew := 0, src := 0, started := false, valid := false, flags := 0, seq := 0 }
def State.spChan (s : State) (c : Nat) : SpChan := vget SpChan.reset s.aids.chans c
def State.setSp (s : State) (c : Nat) (x : SpChan) : State := { s with aids := { s.aids with chans := vset s.aids.chans c x } }

/-- The raw value of a channel with its flags: STALE 64, OVER 32, NO_PULSE 16 (R290, R291). An ADC-A input without a result since reset
leaves the last raw value, and the ticks without a new result count from the tick at which the input became the source. Once set, STALE
clears at the next new result only. -/
def State.spRaw (s : State) (c : Nat) : SpChan × Nat :=
  let x := s.spChan c
  let src := s.na (Obj.SP_SRC c)
  let gate := s.na (Obj.SP_GATE_FRAMES c)
  if 1 ≤ src ∧ src ≤ 8 then
    let a := s.conv 0
    let n := vget 0 a.tapSeq (src - 1)
    let new := decide (n ≠ vget 0 s.aids.taken (src - 1))
    let m := if new then 0 else min 65535 ((if x.src = src then x.noNew else 0) + 1)
    let stale := !new && (decide (gate ≤ m) || (decide (x.src = src) && nbit x.flags 6))
    ({ x with raw := if n = 0 then x.raw else (vget 0 a.tap (src - 1)).toInt, noNew := m }, if stale then 64 else 0)
  else if src = 9 ∨ src = 10 then
    let sk := s.frame.tickC
    let l := (vget [] s.aids.pulses (src - 9)).filter fun t => decide (sk < t + gate * s.tf) && decide (t ≤ sk)
    let n := l.length
    if n < 2 then ({ x with raw := 0 }, 16)
    else
      let span := l.headD 0 - l.getLastD 0
      let q := (n - 1) * 2147483648 * 1000 / span
      ({ x with raw := (min 2147483647 q : Nat) }, if 2147483647 < q then 32 else 0)
  else ({ x with raw := s.il (Obj.SP_HOST c) }, 0)

/-- Output of a channel from its raw value: scaling, limits, ramp (R292, R294). Answers SAT 8 and RAMPING 4 as well. -/
def State.spOut (s : State) (c : Nat) (x : SpChan) : Int × Nat :=
  let s0 := floorDiv (x.raw * s.ia (Obj.SP_GAIN c)) 65536 + s.ia (Obj.SP_OFFSET c)
  let s1 := clampInt (-2147483648) 2147483647 s0
  let t := min (max s1 (s.ia (Obj.SP_MIN c))) (s.ia (Obj.SP_MAX c))
  let y := if x.started then x.y else if s.na (Obj.SP_START c) = 1 then t else s.ia (Obj.SP_INIT c)
  let up := s.na (Obj.SP_RAMP_UP c)
  let dn := s.na (Obj.SP_RAMP_DN c)
  let d := t - y
  let hitUp := decide (up ≠ 0) && decide ((up : Int) < d)
  let hitDn := decide (dn ≠ 0) && decide (d < -(dn : Int))
  (y + (if hitUp then (up : Int) else if hitDn then -(dn : Int) else d),
   (if s0 ≠ s1 then 8 else 0) + (if hitUp || hitDn then 4 else 0))

/-- One channel at S_k (R293). -/
def State.spTick (s : State) (c : Nat) : State :=
  if s.na (Obj.SP_SRC c) = 0 then s
  else
    let r := s.spRaw c
    let o := s.spOut c r.1
    let fl := r.2 + o.2
    let x : SpChan := { r.1 with src := s.na (Obj.SP_SRC c), y := o.1, started := true, valid := true, flags := fl, seq := r.1.seq + 1 }
    let s1 := (((s.setSp c x).setLI (Obj.SP_OUT c) x.y).setLI (Obj.SP_RAW c) x.raw).setL (Obj.SP_SEQ c) x.seq
    let s2 := (s1.aidsIf (decide (fl / 8 % 2 = 1)) (28 + c)).aidsIf (decide (fl / 32 % 2 = 1)) (26 + (s.na (Obj.SP_SRC c) - 9))
    let off := s2.na (Obj.SP_SHM_OFF c)
    if off = 0xFFFFFFFF then s2
    else (s2.wrW (shmAddr off) (i32 x.y)).wrW (shmAddr (off + 4)) (w32 (x.seq.toNat % 65536 * 65536 + fl + 3))

/-- All channels at S_k; stamps that no window can reach any more are dropped. -/
def State.spTicks (s : State) : State :=
  let s1 := s.each (List.range 4) State.spTick
  { s1 with aids := { s1.aids with
      taken := (s1.conv 0).tapSeq
      pulses := s1.aids.pulses.map fun l => l.filter fun t => decide (s1.frame.tickC < t + 65535 * 25000) } }

/-- A commit changes SP_SRC from 0 to a source (R294). -/
def State.spRestart (s : State) (c : Nat) : State := s.setSp c { s.spChan c with started := false, src := 0, noNew := 0 }

/-- PULSE_EDGE_ACCEPT (R291): an edge on PULSE_A (0) or PULSE_B (1), stamped at the ball in converter time. -/
def execPulseEdgeAccept (n : Fin 2) (t : Nat) (s : State) : Host.Outcome State Fault Refusal :=
  .next (
    let s0 := s.toC t
    { s0 with aids := { s0.aids with pulses := vset s0.aids.pulses n.val (t :: vget [] s0.aids.pulses n.val) } })

/-! ### Notch stage -/

/-- 2^64 times pi, and the terms of sine and cosine in units of 2^-64. -/
def piQ : Int := 57952155664616982739
/-- An angle less its whole turns. -/
def turnQ (x : Int) : Int := x - floorDiv x (2 * piQ) * (2 * piQ)
def mulQ (a b : Int) : Int := floorDiv (a * b) 18446744073709551616
/-- Partial sum of the series with the term `t` for exponent `n`, `k` further terms. -/
def trigSum (x2 : Int) : Nat → Nat → Int → Int
  | 0, _, _ => 0
  | k + 1, n, t => t + trigSum x2 k (n + 2) (-(floorDiv (mulQ t x2) ((n + 1) * (n + 2))))
def sinQ (x : Int) : Int := trigSum (mulQ x x) 24 1 x
def cosQ (x : Int) : Int := trigSum (mulQ x x) 24 0 18446744073709551616

/-- A1 and A2 of a notch (R296), F0 and BW in mHz. The last place before the rounding is open (Config.notchLsb). -/
def notchCoef (f0 bw tf : Nat) : Int × Int :=
  let w := turnQ (floorDiv (2 * piQ * (f0 * tf : Nat)) 1000000000000)
  let al := floorDiv (sinQ w * bw) (2 * f0)
  let den := 18446744073709551616 + al
  let dev := Config.notchLsb f0 bw tf % 9
  let a1 := floorDiv (-4 * cosQ w * 1073741824 + den) (2 * den) + ((dev / 3 : Nat) : Int) - 1
  let a2 := floorDiv ((18446744073709551616 - al) * 1073741824 + ((dev % 3 : Nat) - 1) * den + den) (2 * den) * 2
  (a1, a2)

def Notch.reset : Notch := { x1 := 0, x2 := 0, y1 := 0, y2 := 0, start := false, b0 := 0, a1 := 0, a2 := 0 }
def State.notch (s : State) (second : Bool) (a : Nat) : Notch := vget Notch.reset (if second then s.aids.n2 else s.aids.n1) a
def State.setNotch (s : State) (second : Bool) (a : Nat) (x : Notch) : State :=
  if second then { s with aids := { s.aids with n2 := vset s.aids.n2 a x } }
  else { s with aids := { s.aids with n1 := vset s.aids.n1 a x } }
/-- The notch is enabled. -/
def State.notchEn (s : State) (second : Bool) (a : Nat) : Bool := nbit (s.na (Obj.NOTCH_CFG a)) (b2n second)

/-- The formulas of R296 give these F0 and BW finite coefficients. -/
def notchFinite (f0 bw tf : Nat) : Bool :=
  decide (f0 ≠ 0) && decide (0 < 18446744073709551616 + floorDiv (sinQ (turnQ (floorDiv (2 * piQ * (f0 * tf : Nat)) 1000000000000)) * bw) (2 * f0))

/-- A commit computes the coefficients of every notch, enabled or not (R296); those of a notch for which the formulas have no value stay
as they are (log entry 136). -/
def State.notchLoad (s : State) (second : Bool) (a : Nat) : State :=
  let f0 := s.na (if second then Obj.N2_F0 a else Obj.N1_F0 a)
  let bw := s.na (if second then Obj.N2_BW a else Obj.N1_BW a)
  if notchFinite f0 bw (s.na Obj.TF_NS) then
    let c := notchCoef f0 bw (s.na Obj.TF_NS)
    let x : Notch := { s.notch second a with a1 := c.1, a2 := c.2, b0 := floorDiv (1073741824 + c.2) 2 }
    let k (j : Nat) : Nat := if second then Obj.N2_COEF a j else Obj.N1_COEF a j
    (((((s.setNotch second a x).setLI (k 0) x.b0).setLI (k 1) x.a1).setLI (k 2) x.b0).setLI (k 3) x.a1).setLI (k 4) x.a2
  else s

/-- The state words from which a step runs (R298). -/
def State.notchState (s : State) (second : Bool) (a : Nat) (v : Int) : Notch :=
  let x := s.notch second a
  let k (j : Nat) : Int := s.il (if second then Obj.N2_PRE a j else Obj.N1_PRE a j)
  if x.start then
    match fld (s.ga (Obj.NOTCH_CFG a)) 3 2 with
    | 0 => { x with x1 := 0, x2 := 0, y1 := 0, y2 := 0, start := false }
    | 1 => { x with x1 := v, x2 := v, y1 := v, y2 := v, start := false }
    | 2 => { x with x1 := k 0, x2 := k 1, y1 := k 2, y2 := k 3, start := false }
    | _ => { x with start := false }
  else x

/-- Division by 2^30 rounded half to even (R297). -/
def round30 (x : Int) : Int :=
  let q := floorDiv x 1073741824
  let r := x - q * 1073741824
  if 536870912 < r ∨ (r = 536870912 ∧ q % 2 = 1) then q + 1 else q

/-- One notch step on input `v` (R297): the output and the state. -/
def State.notchStep (s : State) (second : Bool) (a : Nat) (v : Int) : State × Int :=
  if s.notchEn second a then
    let x := s.notchState second a v
    let y0 := round30 (x.b0 * v + x.a1 * x.x1 + x.b0 * x.x2 - x.a1 * x.y1 - x.a2 * x.y2)
    let y := clampInt (-2147483648) 2147483647 y0
    let s1 := s.setNotch second a { x with x2 := x.x1, x1 := v, y2 := x.y1, y1 := y }
    (s1.aidsIf (decide (y ≠ y0)) (12 * b2n second + a), y)
  else (s, v)

/-- The notch stage of an arm at D_k (R295): the output is r_n. -/
def State.notchStage (s : State) (a : Nat) (r : Int) : State × Int :=
  let n1 := s.notchStep false a r
  n1.1.notchStep true a n1.2

/-- The arm's notches start at the next D_k (R298). -/
def State.notchRestart (s : State) (a : Nat) : State :=
  (s.setNotch false a { s.notch false a with start := true }).setNotch true a { s.notch true a with start := true }

/-- NOTCH_RESTART (R298). -/
def wrNotchRestart (a : Nat) (s : State) : WOut := done (s.notchRestart a)
def execNotchRestart (p : Path) (a : Nat) (s : State) : Host.Outcome State Fault Refusal :=
  .next (s.guardWrite p (Obj.NOTCH_RESTART a) 1 (wrNotchRestart a))

/-! ### Lantern -/

def State.setLantern (s : State) (l : LanternSt) : State := { s with aids := { s.aids with lantern := l } }
/-- Records the Lantern holds (R300). -/
def State.lanternCap (s : State) : Nat := 65536 / (2 + s.na Obj.LANTERN_NPROBES)

/-- The Lantern stops (R302; group 9 of R468). -/
def State.lanternStop (s : State) : State := (s.setLantern { s.aids.lantern with st := .stopped }).irqEdge 9 2

/-- A trigger (R302): in RUNNING it marks the record of frame `k`; else it is ignored and counted. Either way the frame in progress
remembers it for an ARM (R304); before S_0 there is none. -/
def State.lanternTrigger (s : State) (k : Nat) : State :=
  let l := s.aids.lantern
  let same := decide (l.trigsAt = s.frame.count)
  let l1 : LanternSt :=
    if s.frame.ticking then { l with
      trigsAt := s.frame.count, trigs := (if same then l.trigs else []) ++ [k], ignored := if same then l.ignored else 0 }
    else l
  if l.st = .running then s.setLantern { l1 with st := .post, mark := some k, postLeft := s.na Obj.LANTERN_POST }
  else (s.setLantern { l1 with ignored := l1.ignored + b2n s.frame.ticking }).incL Obj.LANTERN_TRIG_IGN_CNT

/-- ARM (R302). Triggers of the same frame act after it (R304): the count takes back those that it ignored. -/
def State.lanternArm (s : State) : State :=
  let s0 := s.abortMarch fun b => decide (163 ≤ b) && decide (b ≤ 166)
  let l := s0.aids.lantern
  let same := decide (l.trigsAt = s.frame.count)
  let back := if same then l.ignored else 0
  let s1 := s0.setLantern { l with
    st := .running, wr := 0, written := 0, postLeft := 0, pre := 0, mark := none, last := none, trigs := [], ignored := 0 }
  let s2 := (s1.each [163, 164, 165, 166] State.wakeBank).setLN Obj.LANTERN_TRIG_IGN_CNT (s1.nl Obj.LANTERN_TRIG_IGN_CNT - back)
  s2.each (if same then l.trigs else []) State.lanternTrigger

/-- Write of LANTERN_CMD (R302). -/
def wrLanternCmd (v : Word) (s : State) : WOut :=
  if v = 1 then done s.lanternArm
  else if v = 2 then done (s.lanternTrigger s.frame.count)
  else if v = 3 then done s.lanternStop
  else done (s.setLantern { s.aids.lantern with st := .idle, mark := none })

/-- LANTERN_ARM (R302). -/
def execLanternArm (p : Path) (s : State) : Host.Outcome State Fault Refusal := .next (s.guardWrite p Obj.LANTERN_CMD 1 (wrLanternCmd 1))
/-- LANTERN_TRIGGER (R302). -/
def execLanternTrigger (p : Path) (s : State) : Host.Outcome State Fault Refusal := .next (s.guardWrite p Obj.LANTERN_CMD 2 (wrLanternCmd 2))
/-- LANTERN_STOP (R302). -/
def execLanternStop (p : Path) (s : State) : Host.Outcome State Fault Refusal := .next (s.guardWrite p Obj.LANTERN_CMD 3 (wrLanternCmd 3))
/-- LANTERN_DISARM (R302). -/
def execLanternDisarm (p : Path) (s : State) : Host.Outcome State Fault Refusal := .next (s.guardWrite p Obj.LANTERN_CMD 4 (wrLanternCmd 4))

/-- A node's value (R301). -/
def State.nodeValue (s : State) (code : Nat) : Word :=
  let a := code % 16
  match code / 16 with
  | 0 => s.gl (Obj.REF_SAMPLED a)
  | 1 => s.gl (Obj.REF_NOTCHED a)
  | 2 => s.gl (Obj.BUILT_COUNT a)
  | 3 => s.gl (Obj.BUILT_EDGE a)
  | 4 => w32 (vget Summary.none s.ledger.atCut a).meanAll
  | 5 => s.gl (Obj.SEP_END a)
  | 6 => i32 (s.spChan a).y
  | _ => if code = 0x70 then w32 (((s.snapOf s.frame.count).map (·.tDone)).getD 0) else w32 s.frameStatus


/-- KIND, ENGINE and ADDR of a probe (R301). -/
def State.probeKind (s : State) (p : Nat) : Nat := fld (s.ga (Obj.LANTERN_PROBE p)) 31 28
def State.probeEngine (s : State) (p : Nat) : Nat := fld (s.ga (Obj.LANTERN_PROBE p)) 26 24
def State.probeAddr (s : State) (p : Nat) : Nat := fld (s.ga (Obj.LANTERN_PROBE p)) 19 0

/-- At D_k + 150 ns the node probes are captured (R301). -/
def State.lanternNodes (s : State) : State :=
  s.setLantern { s.aids.lantern with
    nodes := ((idxs 16 fun p => decide (s.probeKind p = 4)).map fun p => (p, s.nodeValue (s.probeAddr p))) }

/-- Value of a probe at S_{k+1} (R301). -/
def State.probeValue (s : State) (p : Nat) : Word :=
  let l := s.aids.lantern
  match s.probeKind p with
  | 1 => vget 0 l.port p
  | 2 => s.readX (s.probeEngine p) (s.probeAddr p)
  | 3 => s.readYBank (s.probeEngine p) (s.probeAddr p)
  | 4 => ((l.nodes.find? fun x => decide (x.1 = p)).map (·.2)).getD 0
  | _ => 0

/-- A probe of a word of X or Y memory is an access to its bank (R301, R450). -/
def State.probeTouch (s : State) (p : Nat) : State :=
  if s.probeKind p = 2 ∨ s.probeKind p = 3 then s.touchBank (11 + s.probeEngine p) else s

/-- The probe condition of LANTERN_TRIG between the last record and this one (R302). -/
def State.probeCross (s : State) (vals : List Word) : Bool :=
  let t := s.ga Obj.LANTERN_TRIG
  let p := fld t 7 4
  let lvl := s.ia Obj.TRIG_LEVEL
  match s.aids.lantern.last with
  | none => false
  | some old =>
    let a := (old.getD p 0).toInt
    let b := (vals.getD p 0).toInt
    nbit t.toNat 1 && ((nbit t.toNat 2 && decide (a < lvl) && decide (lvl ≤ b)) || (nbit t.toNat 3 && decide (lvl < a) && decide (b ≤ lvl)))

/-- The record of frame `k` at the next tick (R300, R302). -/
def State.lanternRecord (s : State) (k : Nat) : State :=
  let run := decide (s.aids.lantern.st = .running) || decide (s.aids.lantern.st = .post)
  let s1 :=
    if run && decide (k % max 1 (s.na Obj.LANTERN_DECIM) = 0) && !s.frame.planStopped then
      let n := s.na Obj.LANTERN_NPROBES
      let vals := (List.range n).map s.probeValue
      let s0 := if s.probeCross vals then s.lanternTrigger k else s
      let l := s0.aids.lantern
      let isTrig := match l.mark with
        | some m => decide (m ≤ k)
        | none => false
      let rcap := s0.lanternCap
      let idx := l.wr
      let base := idx * (2 + n)
      let written := (idxs 16 fun p => nbit l.portWritten.toNat p).map fun p => 2 ^ p
      let words := w32 k :: w32 (written.sum * 65536 + b2n isTrig * 32768) :: vals
      let sb := ([base / 16384, (base + 1 + n) / 16384]).foldl (fun s b => s.ownerOn (163 + b)) (s0.each (List.range n) State.probeTouch)
      let sw := (List.range (2 + n)).foldl (fun s i => s.wrW (lanternAddr (4 * (base + i))) (words.getD i 0)) sb
      let post := s0.na Obj.LANTERN_POST
      let after := decide (l.st = .post) && l.mark.isNone
      let l1 : LanternSt := { l with
        wr := (idx + 1) % rcap, written := l.written + 1, last := some vals
        mark := if isTrig then none else l.mark
        trigRec := if isTrig then idx else l.trigRec
        trigFrame := if isTrig then k else l.trigFrame
        pre := if isTrig then min l.written (rcap - 1 - post) else l.pre
        postLeft := if after then l.postLeft - 1 else l.postLeft }
      let s2 := sw.setLantern l1
      if (isTrig ∧ post = 0) ∨ (after ∧ l.postLeft ≤ 1) then s2.lanternStop else s2
    else s
  s1.setLantern { s1.aids.lantern with portWritten := 0 }

/-- A commit changes N, LANTERN_DECIM, LANTERN_POST or a probe (R302). -/
def State.lanternCommit (s : State) : State :=
  if s.aids.lantern.st = .running ∨ s.aids.lantern.st = .post then
    let s1 := s.setLantern { s.aids.lantern with st := .idle, mark := none }
    if s1.na Obj.LANTERN_AUTOARM = 1 then s1.lanternArm else s1
  else s

/-! ### Objects (R305, R306) -/

/-- Objects of 2701 to 2706 that the aids hold; FRESH is the reader's (R487). -/
def view12 (s : State) (key : Nat) : Option Word :=
  let l := s.aids.lantern
  if 0x2701 ≤ key / 256 ∧ key / 256 ≤ 0x2704 ∧ key % 256 = 16 then
    let x := s.spChan (key / 256 - 0x2701)
    some (w32 (x.flags + b2n x.valid))
  else if key = Obj.LANTERN_STATE then some (w32 l.st.code)
  else if key = Obj.LANTERN_R_CAP then some (w32 s.lanternCap)
  else if key = Obj.TRIG_REC then some (w32 l.trigRec)
  else if key = Obj.PRE_RECORDS then some (w32 l.pre)
  else if key = Obj.WR_REC then some (w32 l.wr)
  else if key = Obj.LANTERN_TRIG_FRAME_LO then some (lo32 l.trigFrame)
  else if key = Obj.LANTERN_TRIG_FRAME_HI then some (hi32 l.trigFrame)
  else none

end Sys2Proof.Machine
end

