-- ==== Sys2Proof/Machine/Beacons.lean ====
section
/-! DEFINITION. The consumers of a beacon act (R158): the EVENT source, the converters and the Lantern. -/
namespace Sys2Proof.Machine

/-- BEACON_ACT (R158): the first delivered beacon of event `e` whose consumers have not acted yet. -/
def execBeaconAct (e : Fin 64) (s : State) : Host.Outcome State Fault Refusal :=
  .next (
    let f (a : BeaconAct) : Bool := a.act && decide (a.event.toNat = e.val)
    match s.launch.acts.find? f with
    | none => s
    | some a =>
      let s0 := if a.late then s.incL Obj.BEACON_LATE_CNT else s.toC (a.originQ / 4 + s.comp e.val)
      let s1 : State := { s0 with launch := { s0.launch with acts := liveActs (setFirst f (fun x => { x with act := false }) s0.launch.acts) } }
      let s2 := (s1.adcTriggers 2 e.val).event (1 + e.val)
      let t := s2.ga Obj.LANTERN_TRIG
      if nbit t.toNat 0 ∧ fld t 15 8 = e.val then s2.lanternTrigger s2.frame.count else s2)

end Sys2Proof.Machine
end

