-- ==== Sys2Proof/Machine/Faults.lean ====
section
/-! DEFINITION. The Fault Collector's commands (R442 to R445): acknowledge, force, and the ends of self-tests; and its
objects as they read (R448). -/
namespace Sys2Proof.Machine

/-! ### Acknowledge and force (R442, R443) -/

/-- The numbers of the bits set in a 64-bit mask given by its halves. -/
def maskBits (lo hi : Word) : List Nat := idxs 64 fun n => if n < 32 then nbit lo.toNat n else nbit hi.toNat (n - 32)

/-- Acknowledge every source of the mask (R442). -/
def State.faultAck (s : State) (path : Nat) (lo hi : Word) : State :=
  s.each (maskBits lo hi) fun s n => s.ackOne path n

/-- Write of FAULT_ACK_HI (R442, R9). -/
def wrFaultAckHi (p : Path) (hi : Word) (s : State) : WOut :=
  done ((s.faultAck (pathNum p) (s.lowHeld p Obj.FAULT_ACK_LO 0) hi).dropLow p)

/-- Base class of a forced occurrence (R443): that of the class object, C0 when it holds none. -/
def State.forceClass (s : State) (n : Nat) : Nat :=
  if 3 ≤ n ∧ n ≤ 10 then (if s.na Obj.EXC_CLASS = 0xFF then 0 else s.na Obj.EXC_CLASS)
  else if n = 37 then (if s.na Obj.AIDS_STICKY_CLASS = 0xFF then 0 else s.na Obj.AIDS_STICKY_CLASS)
  else s.faultClass n

/-- Force every source of the mask, lower numbers first (R443, R447). -/
def State.faultForce (s : State) (lo hi : Word) : State :=
  s.each (maskBits lo hi) fun s n => reactC3 s (s.raise0 n (s.forceClass n) 0 .n true)

/-- Write of FAULT_FORCE_HI (R443): refused in RUN and RIDETHROUGH. -/
def wrFaultForceHi (p : Path) (hi : Word) (s : State) : WOut :=
  let lo := s.lowHeld p Obj.FAULT_FORCE_LO 0
  if s.mode = .run ∨ s.mode = .ridethrough then ((s.incL Obj.FORCE_REFUSED_CNT).dropLow p, 6)
  else done ((s.faultForce lo hi).dropLow p)

/-- FAULT_ACK: a write of FAULT_ACK_HI (R442). -/
def execFaultAck (p : Path) (hi : Word) (s : State) : Host.Outcome State Fault Refusal :=
  .next (s.guardWrite p Obj.FAULT_ACK_HI hi (wrFaultAckHi p hi))

/-- FAULT_FORCE: a write of FAULT_FORCE_HI (R443). -/
def execFaultForce (p : Path) (hi : Word) (s : State) : Host.Outcome State Fault Refusal :=
  .next (s.guardWrite p Obj.FAULT_FORCE_HI hi (wrFaultForceHi p hi))

/-! ### Self-tests (R444, R445) -/

/-- The first running test of a code that satisfies `f`. -/
def State.findTest (s : State) (c : TestCode) (f : SelfTest → Bool) : Option SelfTest :=
  s.fault.tests.find? fun t => t.code == c && f t

/-- The sources that a test serves (R444). -/
def State.testSources (s : State) (t : SelfTest) : List Nat :=
  (s.fault.tests.filter fun x => x.code == t.code && x.resource == t.resource).map (·.source)

/-- The test of a resource has ended. -/
def State.dropTest (s : State) (t : SelfTest) : State :=
  { s with fault := { s.fault with tests := s.fault.tests.filter fun x => !(x.code == t.code && x.resource == t.resource) } }

/-- Outcome of a test for every source it served (R445), with SAFE entry where a re-latch reaches C3. A row is repaired once. -/
def State.testOutcome (s : State) (t : SelfTest) (good bankRow : Bool) : State :=
  match s.testSources t with
  | [] => s
  | n :: more =>
    let s1 := s.dropTest t
    let s2 := reactC3 s1 (if good then s1.transient n t.resource else s1.lasting n t.resource bankRow)
    let code := (vget 0 s2.fault.result n).toNat
    s2.each more fun s m =>
      reactC3 s (if good then s.transient m t.resource
        else if code = 3 then ((s.incL Obj.ST_LASTING_CNT).setResult m 3).journalNow (0x50 + m) (w32 (t.resource * 256 + 3))
        else s.lasting m t.resource false)

/-- A lane error that a running shadow check counts (R444): frames k + 1 to k + 16 after the latch in frame k. -/
def State.noteLaneErr (s : State) (n : Nat) : State :=
  { s with fault := { s.fault with tests := s.fault.tests.map fun t =>
      if t.code = .l ∧ t.resource = n ∧ t.frame < s.frame.count ∧ s.frame.count ≤ t.frame + 16
      then { t with errors := t.errors + 1 } else t } }

/-- SELF_TEST_E_DONE: the word at the head of the E queue has been scrubbed and its row marched (R444). `good`: both reads
and the march were free of errors. -/
def execSelfTestEDone (good : Bool) (s : State) : Host.Outcome State Fault Refusal :=
  .next (match s.findTest .e (fun _ => true) with
    | none => s
    | some t => s.testOutcome t good true)

/-- SELF_TEST_L_DONE: the 16 frames of a lane's shadow check are over (R444). `blocks` counts the invalid sync headers and
the IDLE and CC blocks with a payload that is not all zero; failed CRCs were counted as they came. -/
def execSelfTestLDone (lane blocks : Nat) (s : State) : Host.Outcome State Fault Refusal :=
  .next (match s.findTest .l (fun t => t.resource == lane && decide (t.frame + 16 < s.frame.count)) with
    | none => s
    | some t => s.testOutcome t (decide (t.errors + blocks ≤ s.na Obj.LANE_ST_THR)) false)

/-- SELF_TEST_K_DONE: the known-answer kernel of an engine has run, in an idle window of an enabled engine (R444). -/
def execSelfTestKDone (engine : Nat) (good : Bool) (s : State) : Host.Outcome State Fault Refusal :=
  .next (match s.findTest .k (fun t => t.resource == engine && s.engEnabled engine && (s.running engine).isNone) with
    | none => s
    | some t => s.testOutcome t good false)

/-- SELF_TEST_SKIP: a K test has not completed within 65,536 frames (R444). -/
def execSelfTestSkip (engine : Nat) (s : State) : Host.Outcome State Fault Refusal :=
  .next (match s.findTest .k (fun t => t.resource == engine && decide (t.frame + 65536 ≤ s.frame.count)) with
    | none => s
    | some t => ((s.dropTest t).each (s.testSources t) fun s n => s.setResult n 7).incL Obj.ST_SKIP_CNT)

/-! ### Objects (R440, R448) -/

/-- HIGHEST_UNACK: the highest effective class that is set, 0xFF none. -/
def State.highestUnack (s : State) : Nat :=
  if s.fAny 3 then 3 else if s.fAny 2 then 2 else if s.fAny 1 then 1 else if s.fAny 0 then 0 else 0xFF

/-- REACT_STATUS (R440). -/
def State.reactStatus (s : State) : Nat :=
  2 * b2n s.fault.failover + b2n (s.severe && decide (s.na Obj.SHED_PRIO ≠ 0))


/-- Objects of 2D00, 2D03 and 2D11. -/
def view20 (s : State) (key : Nat) : Option Word :=
  if key = Obj.FAULT_STATUS_LO then some (lo32 s.fault.status.toNat)
  else if key = Obj.FAULT_STATUS_HI then some (hi32 s.fault.status.toNat)
  else if key = Obj.FAULT_ACTIVE_LO then some (w32 ((idxs 32 s.activeNow).map fun n => 2 ^ n).sum)
  else if key = Obj.FAULT_ACTIVE_HI then some (w32 ((idxs 32 fun n => s.activeNow (32 + n)).map fun n => 2 ^ n).sum)
  else if key = Obj.HIGHEST_UNACK then some (w32 s.highestUnack)
  else if key = Obj.REACT_STATUS then some (w32 s.reactStatus)
  else if 0x2D0301 ≤ key ∧ key ≤ 0x2D0304 then
    some (w32 (((List.range 16).map fun i => s.fEff (16 * (key - 0x2D0301) + i) * 4 ^ i).sum))
  else if 0x2D1101 ≤ key ∧ key ≤ 0x2D1108 then
    some (w32 (((List.range 8).map fun i => (vget 0 s.fault.result (8 * (key - 0x2D1101) + i)).toNat * 16 ^ i).sum))
  else none

/-- Reading FAULT_STATUS_LO shows a path the occurrences so far (R442). -/
def State.seeFaults (s : State) (p : Path) : State :=
  { s with fault := { s.fault with changed := vset s.fault.changed (pathNum p) 0 } }

end Sys2Proof.Machine
end

