-- ==== Sys2Proof/Machine/Modes.lean ====
section
/-! DEFINITION. Requests that concern the mode (R48, R51, R52): MODE_REQ, SAFE_ACK and RT_REQ. The decision at D_k stands in
Cut.lean. -/
namespace Sys2Proof.Machine

/-- MODE_REQ_RESULT is written (R48; group 2 of R468). -/
def State.modeResult (s : State) (code : Nat) : State := (s.setLN Obj.MODE_REQ_RESULT code).irqEdge 2 6

/-- The pending host request. -/
def State.setReq (s : State) (r : Option Nat) : State := { s with modes := { s.modes with req := r } }

/-- Write of MODE_REQ (R48): 0xFF withdraws, 7 enters SAFE at once outside BOOT, any other code waits for D_k. -/
def wrModeReq (v : Word) (s : State) : WOut :=
  if v = 0xFF then done (if s.modes.req.isSome then (s.setReq none).modeResult 9 else s)
  else if v = 7 ∧ s.mode ≠ .boot then done (((s.setReq none).safeEntry 2 false none).modeResult 1)
  else done ((s.setReq (some v.toNat)).setLN Obj.MODE_REQ_RESULT 0)

/-- MODE_REQ_CHARGE (R48). -/
def execModeReqCharge (p : Path) (s : State) : Host.Outcome State Fault Refusal :=
  .next (s.guardWrite p Obj.MODE_REQ 1 (wrModeReq 1))
/-- MODE_REQ_READY (R48). -/
def execModeReqReady (p : Path) (s : State) : Host.Outcome State Fault Refusal :=
  .next (s.guardWrite p Obj.MODE_REQ 2 (wrModeReq 2))
/-- MODE_REQ_RUN (R48). -/
def execModeReqRun (p : Path) (s : State) : Host.Outcome State Fault Refusal :=
  .next (s.guardWrite p Obj.MODE_REQ 3 (wrModeReq 3))
/-- MODE_REQ_TEST (R48). -/
def execModeReqTest (p : Path) (s : State) : Host.Outcome State Fault Refusal :=
  .next (s.guardWrite p Obj.MODE_REQ 6 (wrModeReq 6))
/-- MODE_REQ_SAFE (R45, R48). -/
def execModeReqSafe (p : Path) (s : State) : Host.Outcome State Fault Refusal :=
  .next (s.guardWrite p Obj.MODE_REQ 7 (wrModeReq 7))
/-- MODE_REQ_WITHDRAW (R48). -/
def execModeReqWithdraw (p : Path) (s : State) : Host.Outcome State Fault Refusal :=
  .next (s.guardWrite p Obj.MODE_REQ 0xFF (wrModeReq 0xFF))

/-- Target of a request that no transition of R47 has: BOOT, RIDETHROUGH or MIRROR. -/
def unlisted (code : Nat) : Word := if code = 0 then 0 else if code = 4 then 4 else 5

/-- MODE_REQ_NOT_LISTED (R47): a write of 0, 4 or 5. -/
def execModeReqNotListed (p : Path) (code : Nat) (s : State) : Host.Outcome State Fault Refusal :=
  .next (s.guardWrite p Obj.MODE_REQ (unlisted code) (wrModeReq (unlisted code)))

/-- Write of SAFE_ACK (R52). -/
def wrSafeAck (s : State) : WOut := done { s with modes := { s.modes with acked := true } }

/-- SAFE_ACK (R52). -/
def execSafeAck (p : Path) (s : State) : Host.Outcome State Fault Refusal :=
  .next (s.guardWrite p Obj.SAFE_ACK 1 wrSafeAck)

/-- Write of RT_REQ (R51): refused outside RUN and RIDETHROUGH. -/
def wrRtReq (v : Word) (s : State) : WOut :=
  if s.mode = .run ∨ s.mode = .ridethrough then done { s with modes := { s.modes with rtReq := some v.toNat } }
  else refused6 s

/-- RT_REQ_DC (R51). -/
def execRtReqDc (p : Path) (s : State) : Host.Outcome State Fault Refusal := .next (s.guardWrite p Obj.RT_REQ 1 (wrRtReq 1))
/-- RT_REQ_AC (R51). -/
def execRtReqAc (p : Path) (s : State) : Host.Outcome State Fault Refusal := .next (s.guardWrite p Obj.RT_REQ 2 (wrRtReq 2))
/-- RT_REQ_EXIT (R51). -/
def execRtReqExit (p : Path) (s : State) : Host.Outcome State Fault Refusal := .next (s.guardWrite p Obj.RT_REQ 3 (wrRtReq 3))

/-- A source is set or active with effective class C3 (R440, R52). -/
def State.c3Active (s : State) : Bool := (List.range 64).any fun n => s.fActive n && s.fSet n && decide (s.fEff n = 3)

/-- A TRIP_N input mapped to SBK is active (R52). -/
def State.tripActive (s : State) : Bool := (List.range 4).any fun n => nbit s.pwm.level.toNat n && nbit (s.nk Obj.TRIP_SBK_MASK) n

/-- SAFE_EXIT_BLOCKERS (R52). -/
def State.safeExitBlockers (s : State) : Nat :=
  b2n (!s.modes.acked) * 16 + b2n s.tripActive * 8 + b2n (decide (s.wt.sbkCause ≠ 0)) * 4 + b2n s.c3Active * 2 + b2n (s.fAny 3)

/-- Objects of 2000 to 2002 that the Frame Sequencer, the commit and BOOT hold. -/
def view03 (s : State) (key : Nat) : Option Word :=
  if key = Obj.MODE then some (w32 s.mode.code)
  else if key = Obj.ROLE then some (w32 s.pair.role.code)
  else if key = Obj.MODE_REQ then some (w32 (s.modes.req.getD 0xFF))
  else if key = Obj.SAFE_EXIT_BLOCKERS then some (w32 s.safeExitBlockers)
  else if key = Obj.COMMIT_STATE then some (w32 s.commit.st.code)
  else if key = Obj.BOOT_STATUS then some (w32 s.boot.step.code)
  else if key = Obj.BOOT_SLOT then some (w32 s.boot.slot)
  else if key = Obj.BOOT_SEL_PINS then some (s.boot.selPins.zeroExtend 32)
  else none

end Sys2Proof.Machine
end

