-- ==== Sys2Proof/Machine/Selector.lean ====
section
/-! DEFINITION. The Selector (R215 to R239): candidates, held cells, ranking, one selection, budgets and spares. -/
namespace Sys2Proof.Machine

/-! ### State of an arm -/

def SelArm.reset : SelArm :=
  { holder := none, dwell := 0, warmup := none, suspectRun := false, cellsLow := false, status := 0, avail := 0 }
def State.selArm (s : State) (a : Nat) : SelArm := vget SelArm.reset s.sel.arms a
def State.setSel (s : State) (a : Nat) (x : SelArm) : State := { s with sel := { s.sel with arms := vset s.sel.arms a x } }
/-- Working copy of a cell's BUDGET (R224). -/
def State.budget (s : State) (i : Nat) : Nat := tget (fun _ => 0) s.sel.budget i
def State.setBudget (s : State) (i v : Nat) : State := { s with sel := { s.sel with budget := tput (fun _ => 0) s.sel.budget i v } }

/-- STATE codes of a slot (R105). -/
def stBypass : Nat := 0
def stPos : Nat := 1
def stNeg : Nat := 2
def stBlock : Nat := 3
/-- STATE, FRAC and HOLD_PERMIT of LAST_CMD. -/
def cmdState (c : Nat) : Nat := c / 16384
def cmdFrac (c : Nat) : Bool := nbit c 13
def cmdHold (c : Nat) : Bool := nbit c 12
/-- The insert STATE of a sign. -/
def insState (neg : Bool) : Nat := if neg then stNeg else stPos

/-- A slot word with HOLD_PERMIT by R533. -/
def State.slotWord (s : State) (st : Nat) (frac : Bool) (edge : Nat) : Nat :=
  let cfg := s.na Obj.SEL_CFG
  let hp := if st = stBypass then true else if st = stBlock then false else nbit cfg (b2n frac)
  st * 16384 + b2n frac * 8192 + b2n hp * 4096 + (if frac then edge else 0)

/-! ### Named cells (R203) -/

/-- One word per cell: of two that name one cell the last stands (log entry 150). -/
def lastPerCell : List Word → List Word
  | [] => []
  | c :: t => if t.any fun d => fcIndex d == fcIndex c then lastPerCell t else c :: lastPerCell t

/-- The cells that an armed set with NAMED = 1 names, by their FORCE_CELL words. -/
def State.namedArmed (s : State) (a : Nat) : List Word :=
  match (s.arm a).armed with
  | some f => if f.named then lastPerCell (f.cells.filter fcValid) else []
  | none => []

/-- An armed set of some arm names the cell. -/
def State.named (s : State) (i : Nat) : Bool := (List.range 12).any fun a => (s.namedArmed a).any fun c => fcIndex c == i

/-- Those that force their cell in this slot: a cell of the arm still, in RUN and RIDETHROUGH only while its HEALTH is ACTIVE or
SUSPECT. -/
def State.namedForced (s : State) (a : Nat) : List Word :=
  (s.namedArmed a).filter fun c =>
    let e := s.entry (fcIndex c)
    let h := e.health
    e.enabled && decide (e.arm = a)
      && (!(decide (s.buildMode = .run) || decide (s.buildMode = .ridethrough)) || decide (h = 1) || decide (h = 2))

/-- Named cells forced to insert with a sign. -/
def State.namedCount (s : State) (a : Nat) (neg : Bool) : Nat :=
  ((s.namedForced a).filter fun c => decide (fcState c = insState neg)).length

/-! ### Candidates and held cells (R215 to R217) -/

/-- The route of a cell is reachable for the slot (R216). -/
def State.cellReachable (s : State) (i : Nat) : Bool :=
  match s.cellSite i with
  | some (n, _) => s.reachable n
  | none => false

/-- Candidates of an arm with a sign (R215). -/
def State.candidates (s : State) (a : Nat) (neg : Bool) : List (Nat × Entry) :=
  (s.armEntries a).filter fun x =>
    (decide (x.2.health = 1) || decide (x.2.health = 2)) && (!x.2.spare || s.sel.promoted.contains x.1)
      && !x.2.status 6 && !s.named x.1 && (!neg || x.2.fullBridge) && s.cellReachable x.1

/-- Cells of an arm held with a sign (R217). -/
def State.heldCells (s : State) (a : Nat) (neg : Bool) : List (Nat × Entry) :=
  (s.armEntries a).filter fun x =>
    match s.cellSite x.1 with
    | some (n, _) =>
      !s.reachable n && decide (cmdState x.2.lastCmd = insState neg) && !cmdFrac x.2.lastCmd && cmdHold x.2.lastCmd
        && decide (vget 0 s.sel.unreach n ≤ s.na Obj.CELL_HOLD_LIMIT)
    | none => false

/-- A_s (R226). -/
def State.avail (s : State) (a : Nat) (neg : Bool) : Nat :=
  (s.candidates a neg).length + (s.heldCells a neg).length + s.namedCount a neg

/-! ### Direction and keys (R219 to R221) -/

/-- The arm-current direction (R219): 1, -1 or 0. -/
def State.direction (s : State) (a : Nat) : Int :=
  if s.na (Obj.SEL_IDIR_SRC a) = 1 then
    (match s.nl (Obj.SEL_IDIR_FW a) with | 1 => 1 | 2 => -1 | _ => 0)
  else
    let st := s.na (Obj.SEL_I_STREAM a)
    if 63 < st then 0
    else
      let w (i : Nat) : Nat := (s.mailbox 0 (256 + 8 * st + i)).toNat
      let n := w 0 / 1048576 % 16
      let j := 2 + (n - 1)
      let x0 := sext 16 (w (j / 2) / 65536 ^ (j % 2) % 65536)
      let x := if s.na (Obj.SEL_I_INVERT a) = 1 then -x0 else x0
      if (x.natAbs : Int) ≤ s.ia (Obj.SEL_I_DEADBAND a) then 0 else x.sign

/-- A candidate with what the ranking needs (R220). -/
structure Cand where
  i : Nat
  v : Int
  b : Int
  tier : Nat
  bud : Nat
  pos : Nat
  deriving DecidableEq, Repr

/-- Tier of a cell (R220). -/
def State.tier (s : State) (a : Nat) (x : Nat × Entry) : Nat :=
  let ceil := s.na (Obj.SEL_CEIL a)
  if x.2.health = 2 then 2 else if ceil ≠ 0xFFFF ∧ ceil ≤ s.budget x.1 then 1 else 0

/-- Bias of a cell (R220); 0 in warm-up. -/
def State.bias (s : State) (a i : Nat) (quiet : Bool) : Nat :=
  if quiet then 0
  else min (s.na (Obj.SEL_BIAS_MAX a)) ((s.budget i - s.na (Obj.SEL_BIAS_FLOOR a)) * s.na (Obj.SEL_BIAS_GAIN a) / 4096)

def State.cand (s : State) (a : Nat) (quiet : Bool) (x : Nat × Entry) : Cand :=
  { i := x.1, v := x.2.vcell, b := s.bias a x.1 quiet, tier := s.tier a x, bud := s.budget x.1, pos := x.2.pos }

/-- Rank of a candidate in a pass (R221): tier order, key, POS. -/
def Cand.rank (x : Cand) (insert : Bool) (c : Int) : Nat × Int × Nat :=
  let key := if c = 0 then (x.bud : Int) else if decide (0 < c) = insert then x.v + x.b else x.b - x.v
  (if insert then x.tier else (x.tier + 1) % 3, key, x.pos)

/-- Lexicographic order of ranks. -/
def rankLe (x y : Nat × Int × Nat) : Bool :=
  decide (x.1 < y.1) || (decide (x.1 = y.1) && (decide (x.2.1 < y.2.1) || (decide (x.2.1 = y.2.1) && decide (x.2.2 ≤ y.2.2))))

/-- Insertion into a list sorted by a rank. -/
def rankInsert {α : Type} (f : α → Nat × Int × Nat) (x : α) : List α → List α
  | [] => [x]
  | y :: t => if rankLe (f x) (f y) then x :: y :: t else y :: rankInsert f x t

/-- The list sorted by a rank. -/
def rankSort {α : Type} (f : α → Nat × Int × Nat) (l : List α) : List α := l.foldr (rankInsert f) []

/-- One rank pass: the first `m`, best first (R221). -/
def pick (l : List Cand) (m : Nat) (insert : Bool) (c : Int) : List Cand := (rankSort (fun x => x.rank insert c) l).take m

/-- Cells of a list that another does not hold. -/
def minus (l r : List Cand) : List Cand := l.filter fun x => !(r.any fun y => y.i == x.i)

/-- Separation of two cells (R225). -/
def sep (x y : Cand) (c : Int) : Int := if 0 < c then (x.v - x.b) - (y.v + y.b) else (y.v - y.b) - (x.v + x.b)

/-- Swap pairs, best first, until one does not separate enough (R225). -/
def swapPairs (hyst : Int) (c : Int) : List Cand → List Cand → List (Cand × Cand)
  | x :: xs, y :: ys => if x.tier = 2 ∨ hyst < sep x y c then (x, y) :: swapPairs hyst c xs ys else []
  | _, _ => []

/-- SEP_END (R227); `none` when one side holds no cell of tier 0 or 1. -/
def sepEnd (ins out : List Cand) (c : Int) : Int :=
  let xs := ins.filter fun x => decide (x.tier < 2)
  let ys := out.filter fun x => decide (x.tier < 2)
  match xs, ys with
  | x :: _, y :: _ =>
    if c = 0 then 0
    else (xs.flatMap fun p => ys.map fun q => sep p q c).foldl max (sep x y c)
  | _, _ => 0

/-! ### One selection (R225 to R229) -/

/-- The fractional holder (R228): the cell, if any, and whether the role is new. -/
def State.fracHolder (s : State) (a : Nat) (rest : List Cand) (c : Int) : State × Option Cand × Bool :=
  let x := s.selArm a
  match rest.find? fun y => decide (some y.i = x.holder) && decide (y.tier = 0) && decide (x.dwell < s.na (Obj.SEL_FRAC_DWELL a)) with
  | some y => (s.setSel a { x with dwell := x.dwell + 1 }, some y, false)
  | none =>
    let key (y : Cand) : Nat × Int × Nat := (y.tier, y.bud * 1048576 + (if 0 < c then y.v else if c < 0 then -y.v else 0), y.pos)
    match rankSort key rest with
    | y :: _ => (s.setSel a { x with holder := some y.i, dwell := 1 }, some y, true)
    | [] => (s.setSel a { x with holder := none, dwell := 0 }, none, false)

/-- A slot word for a cell that the Selector does not place, in a slot with `neg` for s = -1: the first row of R218 that applies. Only an
UNSEEN cell that no row above names gets HOLD_PERMIT = 0 with BYPASS. -/
def State.restWord (s : State) (neg : Bool) (i : Nat) (e : Entry) : Nat :=
  if e.status 6 then s.slotWord stBlock false 0
  else if neg && !e.fullBridge || e.spare && !s.sel.promoted.contains i then s.slotWord stBypass false 0
  else if e.health = 0 then (if nbit (s.na Obj.SEL_CFG) 2 then stBlock else stBypass) * 16384
  else s.slotWord stBypass false 0

/-- One selection for an arm (R225): the state, and the slot words by Ledger index. `count` and `edge` are the modulator's. -/
def State.select (s : State) (a slot : Nat) (neg : Bool) (count edge : Nat) : State × List (Nat × Nat) :=
  let x0 := s.selArm a
  let warm := x0.warmup.getD (s.na Obj.SEL_WARMUP_FRAMES)
  let quiet := decide (0 < warm)
  let n := count - s.namedCount a neg
  let ents := s.candidates a neg
  let cs := ents.map (s.cand a quiet)
  let held := (s.heldCells a neg).length
  let c := s.direction a * (if neg then -1 else 1)
  let start := if s.prevCount a slot neg = 0 then []
    else (ents.filter fun e => decide (cmdState e.2.lastCmd = insState neg) && !cmdFrac e.2.lastCmd).map (s.cand a quiet)
  let excess := decide (n < held)
  let need := n - held
  let add := pick (minus cs start) (need - start.length) true c
  let gone := pick start (start.length - need) false c
  let i1 := minus (start ++ add) gone
  let ovr := ((add ++ gone).filter fun x => decide (x.tier = 1)).length
  let smax := s.na (Obj.SEL_SWAP_MAX a)
  let hyst : Int := (s.na (Obj.SEL_HYST_V a) : Nat)
  let pairs := if c = 0 then [] else
    swapPairs hyst c (pick (i1.filter fun x => decide (x.tier ≠ 1)) smax false c)
      (pick ((minus cs i1).filter fun x => decide (x.tier = 0)) smax true c)
  let i2 := minus i1 (pairs.map (·.1)) ++ pairs.map (·.2)
  let se := sepEnd i2 (minus cs i2) c
  let wide := decide (hyst < se)
  let lim := wide && decide (pairs.length = smax)
  let blk := wide && !lim
  let s1 := s.setSel a { x0 with warmup := some (warm - 1) }
  let f := if edge = 0 then (s1, none, false) else s1.fracHolder a (minus cs i2) c
  let over2 := match f.2.1 with
    | some y => b2n (f.2.2 && decide (y.tier = 1))
    | none => 0
  let used := i2.any (fun x => decide (x.tier = 2)) || (match f.2.1 with
    | some y => decide (y.tier = 2)
    | none => false)
  let dropped := decide (edge ≠ 0) && f.2.1.isNone
  let place (x : Nat × Entry) : Nat × Nat :=
    (x.1, if i2.any (fun y => y.i == x.1) then s.slotWord (insState neg) false 0
      else match f.2.1 with
        | some y => if y.i = x.1 then s.slotWord (insState neg) true edge else s.restWord neg x.1 x.2
        | none => s.restWord neg x.1 x.2)
  let cells := (s.armEntries a).filter fun x => s.cellReachable x.1 && !((s.namedForced a).any fun c => fcIndex c == x.1)
  let words := cells.map place
  let clears := (cells.filter fun x => x.2.status 6).length
  let status := b2n quiet * 32768 + (if 0 < c then 8192 else if c < 0 then 24576 else 0) + 4096 + b2n lim * 2048 + b2n blk * 1024
    + b2n excess * 512 + b2n used * 256 + b2n f.2.2 * 64 + b2n dropped * 32 + pairs.length
  let s2 := f.1.setSel a { f.1.selArm a with status := (f.1.selArm a).status ||| w32 status }
  let s3 := ((s2.addL (Obj.CEIL_OVERRIDE_CNT a) (ovr + over2)).addL (Obj.SWAP_CNT a) pairs.length).addL (Obj.BLOCK_CLEAR_CNT a) clears
  let s4 := (((s3.incIf excess (Obj.HELD_EXCESS_CNT a)).incIf lim (Obj.SWAP_LIMIT_CNT a)).incIf blk (Obj.CEIL_BLOCK_CNT a)).incIf used
    (Obj.SUSPECT_USE_CNT a)
  let s5 := (s4.setLI (Obj.SEP_END a) se).setLN (Obj.FRAC_INDEX a) ((f.2.1.map (·.i)).getD 0xFFFF)
  let s6 := s5.raiseIf (used && !x0.suspectRun) 18
  (s6.setSel a { s6.selArm a with suspectRun := used }, words)

/-! ### Budgets, spares and cells low at D_k (R222 to R224, R231, R232) -/

/-- Events of a cell between LAST_CMD and a new slot (R222). -/
def switchEvents (last word : Nat) : Nat :=
  let stop := if cmdFrac last then stBypass else cmdState last
  b2n (decide (cmdState word ≠ stop) && decide (cmdState word ≠ stBlock) && decide (stop ≠ stBlock)) + b2n (cmdFrac word)

/-- LAST_CMD and BUDGET of the cells built (R222, R224). -/
def State.account (s : State) (a : Nat) (words : List (Nat × Nat)) : State :=
  words.foldl (fun s x =>
    let e := s.entry x.1
    let n := switchEvents e.lastCmd x.2
    let bud := if n = 0 then s.budget x.1 else min 0xFFFF (s.budget x.1 + n * s.na Obj.SEL_EVENT_INC)
    ((s.setEntry x.1 { e with w2 := mkW2 x.2 (if n = 0 then e.budget else bud) }).setBudget x.1 bud).addL (Obj.SWITCH_EVT_CNT a) n) s

/-- The leak of R223, and the write-back that follows it at 512 entries per frame (R224). -/
def State.leak (s : State) : State :=
  let s1 : State :=
    if s.frame.count % max 1 (s.na Obj.SEL_LEAK_FRAMES) = 0 then
      { s with sel := { s.sel with
          budget := (s.enabledEntries.map (·.1)).foldl (fun t i => tput (fun _ => 0) t i (tget (fun _ => 0) t i * 255 / 256)) s.sel.budget
          leakAt := some 0 } }
    else s
  match s1.sel.leakAt with
  | none => s1
  | some at0 =>
    let l := (s1.enabledEntries.map (·.1)).filter fun i => decide (at0 ≤ i) && decide (i < at0 + 512)
    let s2 := s1.each l fun s i => let e := s.entry i; s.setEntry i { e with w2 := mkW2 e.lastCmd (s.budget i) }
    { s2 with sel := { s2.sel with leakAt := if 12288 ≤ at0 + 512 then none else some (at0 + 512) } }

/-- Promotions of an arm's spares (R231). -/
def State.promote (s : State) (a : Nat) : State :=
  let cells := s.armEntries a
  let mine := cells.filter fun x => s.sel.promoted.contains x.1
  let target := (cells.filter fun x => !x.2.spare && (decide (x.2.health = 3) || decide (x.2.health = 4))).length
  let kept := mine.filter fun x => x.2.spare && (decide (x.2.health = 1) || decide (x.2.health = 2))
  let more := (cells.filter fun x => x.2.spare && decide (x.2.health = 1) && !(kept.any fun y => y.1 == x.1)).take (target - kept.length)
  let drop := if target < kept.length then
      (kept.reverse.find? fun x => decide (cmdState x.2.lastCmd ≠ stPos) && decide (cmdState x.2.lastCmd ≠ stNeg)
        && decide ((s.selArm a).holder ≠ some x.1)).toList
    else []
  let now := (kept ++ more).filter fun x => !(drop.any fun y => y.1 == x.1)
  let s1 : State := { s with sel := { s.sel with
    promoted := (s.sel.promoted.filter fun i => !(mine.any fun y => y.1 == i) && (s.entry i).enabled) ++ now.map (·.1) } }
  s1.setLN (Obj.N_PROMOTED a) now.length

/-- CELLS_LOW of an arm (R232). -/
def State.cellsLowArm (s : State) (a : Nat) : Bool :=
  let m := s.na (Obj.SEL_NMIN a)
  s.vminMode && decide (m ≠ 0) && decide (((s.candidates a false).filter fun x => decide (s.tier a x < 2)).length < m)

/-- What the Selector does at D_k before any arm is built (R216, R223, R231, R232). -/
def State.selectorCut (s : State) : State :=
  let s0 : State := { s with sel := { s.sel with
    unreach := Vector.ofFn fun (n : Fin 32) => if s.reachable n.val then 0 else vget 0 s.sel.unreach n.val + 1 } }
  let s1 := s0.leak.each (List.range 12) State.promote
  let s2 := s1.each (List.range 12) fun s a =>
    let low := s.cellsLowArm a
    let x := s.selArm a
    let av := s.avail a true * 65536 + s.avail a false
    (s.setSel a { x with cellsLow := low, status := if low then 128 else 0, avail := w32 av
                         suspectRun := x.suspectRun && nbit x.status.toNat 12 }).setLN (Obj.FRAC_INDEX a) 0xFFFF
  s2.faultLevel 17 ((List.range 12).any fun a => (s2.selArm a).cellsLow)

/-! ### Objects (R237, R239) -/

/-- Objects of 2520 to 252B that the Selector holds. -/
def view09 (s : State) (key : Nat) : Option Word :=
  if 0x2520 ≤ key / 256 ∧ key / 256 ≤ 0x252B then
    let x := s.selArm (key / 256 - 0x2520)
    match key % 256 with
    | 1 => some x.status
    | 2 => some x.avail
    | 5 => some (w32 (x.warmup.getD 0))
    | _ => none
  else none

end Sys2Proof.Machine
end

