-- ==== Sys2Proof/Machine/Cut.lean ====
section
/-! DEFINITION. The caravan-build cut D_k (R27, R28): references sampled (R33, R35), the mode decided (R47 to R53), every
arm's slot built (R188, R199) and the caravans laid out (R37, R103, R104). -/
namespace Sys2Proof.Machine

/-! ### Arm references (R33, R35) -/

/-- The tasks of this frame that name an arm. -/
def State.tasksOf (s : State) (a : Nat) : List FrameTask := s.frame.tasks.filter fun t => nbit t.arms.toNat a

/-- REF_SAMPLED takes the arm's reference register. -/
def State.takeRef (s : State) (a : Nat) : State := s.setL (Obj.REF_SAMPLED a) (s.gl (Obj.ARM_REF a))

/-- The count of consecutive reuses of an arm. -/
def State.setLate (s : State) (a n : Nat) : State :=
  { s with frame := { s.frame with lateRun := vset s.frame.lateRun a n } }

/-- One arm at D_k (R33, R35): sampled when its tasks are done, else reused. -/
def State.sampleRef (s : State) (a : Nat) : State :=
  let ts := s.tasksOf a
  if ts.isEmpty then s
  else if ts.all (·.done) then (s.takeRef a).setLate a 0
  else
    let n := vget 0 s.frame.lateRun a + 1
    let s1 := (s.setLate a n).incL (Obj.FRAME_LATE_CNT a)
    { s1 with frame := { s1.frame with reused := bset s1.frame.reused a true } }.raiseIf (decide (n = 3)) 11

/-- All arms at D_k. -/
def State.sampleRefs (s : State) : State :=
  let s1 : State := { s with frame := { s.frame with reused := 0 } }
  let s2 := s1.each (List.range 12) State.sampleRef
  s2.irqIf (decide (s2.frame.reused ≠ 0)) 2 0

/-- In TEST, an arm that no task of the frame names samples its register (R33). -/
def State.testRefs (s : State) : State :=
  if s.mode = .test then
    s.each (List.range 12) fun s a => if (s.tasksOf a).isEmpty then (s.takeRef a).setLate a 0 else s
  else s

/-! ### Conditions of the transitions (R50, R51, R53) -/

/-- The ready condition at D_k (R50). -/
def State.ready (s : State) : Bool :=
  (s.enabledEntries.all fun x => decide (x.2.health = 1) && decide (x.2.cleanRun = 64)) &&
  ((List.range 12).all fun a =>
    (s.armEntries a).isEmpty || decide (s.na Obj.READY_VCELL_MIN ≤ (vget Summary.none s.ledger.atCut a).meanAll)) &&
  ((List.range 32).all fun n => !s.routeDown n ||
    !((s.leaves n).any fun x => (decide (entKind x.2 = 1) || decide (entKind x.2 = 2)) && (s.entry (entTarget x.2)).enabled)) &&
  !s.severe

/-- Magnitudes of the samples of RT_IDC_SRC in a record deposited in this frame, in sampling order (R51, R109). -/
def State.idcSamples (s : State) : Option (List Nat) :=
  let st := s.na Obj.RT_IDC_SRC
  let w (i : Nat) : Nat := (s.mailbox 0 (256 + 8 * st + i)).toNat
  if 63 < st ∨ w 5 % 65536 ≠ 0 ∨ w 5 / 65536 % 2 = 0 then none
  else some ((List.range (min 6 (w 0 / 1048576 % 16))).map fun j =>
    (sext 16 (w ((j + 2) / 2) / 65536 ^ (j % 2) % 65536)).natAbs)

/-- Run of samples above RT_IDC_THR over a list; answers whether it reached 2 (R51). -/
def idcRun (thr : Int) : Nat → List Nat → Nat × Bool
  | run, [] => (run, false)
  | run, x :: t =>
    let n := if thr < (x : Int) then run + 1 else 0
    let r := idcRun thr n t
    (r.1, decide (2 ≤ n) || r.2)

/-- The samples of this frame go into the run (R51). -/
def State.idcFrame (s : State) : State :=
  match s.idcSamples with
  | none => { s with modes := { s.modes with idcRun := 0, idcHit := false, idcSeen := false } }
  | some l =>
    let r := idcRun (s.ia Obj.RT_IDC_THR) s.modes.idcRun l
    { s with modes := { s.modes with idcRun := min 2 r.1, idcHit := r.2, idcSeen := true } }

/-- The entry cause by measurement, and by firmware, in this frame (R51). -/
def State.rtAuto (s : State) : Bool := s.modes.idcHit && nbit (s.na Obj.RT_ENABLE) 0
def State.rtFirm (s : State) : Bool :=
  (decide (s.modes.rtReq = some 1) && nbit (s.na Obj.RT_ENABLE) 0) || (decide (s.modes.rtReq = some 2) && nbit (s.na Obj.RT_ENABLE) 1)

/-- R408: SBK_CAUSE is not 0, or an enabled RX connection with REACT = 1 is not in RUN. -/
def State.safetyNotReady (s : State) : Bool :=
  decide (s.wt.sbkCause ≠ 0) ||
  (List.range 64).any fun c => s.connEn c && !s.connTx c && s.connReact c && decide ((s.conn c).st ≠ .run)

/-! ### Host requests (R47, R48) -/

/-- Life-cycle states that allow RUN and TEST (R54). -/
def State.lifeOk (s : State) : Bool := decide (s.mem.life = .provisioned) || decide (s.mem.life = .deployed)
/-- The role commands the converter. -/
def State.commands (s : State) : Bool := decide (s.pair.role ≠ .standby)

/-- Outcome of a host request from the mode in force (R47, R48): 1 with its target, or the refusal code. -/
def State.hostRequest (s : State) (code : Nat) (ready : Bool) : Nat × Mode :=
  let m := s.mode
  let vm := s.vminMode
  if code = 3 ∧ m = .ready then
    if !s.lifeOk then (8, m) else if !s.commands then (3, m) else if s.safetyNotReady then (5, m)
    else if s.severe then (4, m) else if !ready then (2, m) else (1, .run)
  else if code = 2 ∧ vm then (1, .ready)
  else if code = 6 ∧ (m = .charge ∨ m = .ready ∨ m = .safe) then
    if !s.lifeOk then (8, m) else if !s.commands then (3, m)
    else if !s.wt.testPermit || s.vdcHigh then (5, m) else (1, .test)
  else if code = 1 ∧ m = .test then (1, .charge)
  else if code = 1 ∧ m = .safe then
    let b := s.safeExitBlockers
    if nbit b 2 || nbit b 3 then (5, m) else if nbit b 0 || nbit b 1 then (4, m) else if nbit b 4 then (2, m)
    else (1, if s.commands then .charge else .mirror)
  else (7, m)

/-! ### The decision (R44, R47 to R49) -/

/-- A transition at D_k: the mode and what it brings with it (R44, R46, R204, EVENT source 0x51). -/
def State.goMode (s : State) (m : Mode) (cause : Nat) : State :=
  let s1 := s.setMode m cause
  let s2 : State := { s1 with
    modes := { s1.modes with rtFrames := 0, rtQuiet := 0, acked := if m = .safe then false else s1.modes.acked }
    wt := { s1.wt with testEntered := s1.wt.testEntered || decide (m = .test) } }
  s2.safeOutputs.event 0x51

/-- The pair setting of a commit takes effect (R413): a device that joins a pair becomes STANDBY and enters MIRROR; one that
leaves it is ALONE. -/
def State.pairJoin (s : State) : State :=
  if s.ga Obj.PAIR_EN = 1 then
    if s.pair.role = .alone then
      let s1 : State := ({ s with pair := { s.pair with role := .standby } }).irqEdge 12 0
      if s.mode = .charge ∨ s.mode = .ready then s1.goMode .mirror 6 else s1
    else s
  else if s.pair.role = .alone then s
  else ({ s with pair := { s.pair with role := .alone }, fault := { s.fault with failover := false } }).irqEdge 12 0

/-- ARB_ACT has been withdrawn from the ACTIVE device (R413, R430). -/
def State.relinquish (s : State) : State :=
  let s1 : State := { s with pair := { s.pair with role := .standby }, fault := { s.fault with failover := false } }
  ((s1.incL Obj.RELINQUISH_CNT).irqEdge 12 0).goMode .mirror 6

/-- Entries of an arm's queue after the newest adopted slot are marked not built (R431). -/
def State.dropAhead (s : State) (a : Nat) : State :=
  let x := s.arm a
  s.setArm a { x with queue := x.queue.map fun b =>
    match b, s.pair.lastSlot with
    | some b, some j => if j < b.slot then none else some b
    | _, _ => none }

/-- LAST_CMD of the cells is what it was when the last train had been adopted (R431): the slots built since were the shadow's. -/
def State.retake (s : State) : State :=
  let s1 := (s.pair.adoptedCmd.filter fun x => (s.entry x.1).enabled).foldl (fun t x =>
    let e := t.entry x.1
    t.setEntry x.1 { e with w2 := mkW2 x.2 e.budget }) s
  { s1 with pair := { s1.pair with adoptedCmd := [] } }

/-- ARB_ACT has been granted to a device in MIRROR (R47, R427, R431). RUN and TEST are entered on their own conditions only (R53, R54);
without them CHARGE is (log entry 56). -/
def State.takeOver (s : State) : State :=
  let s1 : State := { s with pair := { s.pair with role := .active, epoch := s.pair.epoch + 1, takeover := true } }
  let s2 := ((s1.incL Obj.TAKEOVER_CNT).incIf (!s.pair.locked || !s.pair.synced) Obj.TAKEOVER_UNSYNC_CNT).irqEdge 12 0
  let m := match s.pair.lastMode with
    | some c => if c = 0 ∨ c = 5 then .charge else modeOf c
    | none => .charge
  let barred := (decide (m = .run ∨ m = .test) && !s.lifeOk) || (decide (m = .test) && (!s.wt.testPermit || s.vdcHigh))
  (s2.retake.each (List.range 12) State.dropAhead).goMode (if barred then .charge else m) 6

/-- A transition by its rank, the host request aside (R49): the state, and whether there was one. At a D_k at which a commit has just made
the device join a pair (`joined`) there is no other one. No transition enters RUN where R54 bars it. -/
def State.ranked (s : State) (joined ready : Bool) : State × Bool :=
  let m := s.mode
  let quiet := decide (s.na Obj.RT_EXIT_FRAMES ≤ s.modes.rtQuiet)
  if joined then (s, false)
  else if s.pair.role = .active ∧ s.pair.arbSampled = false then (s.relinquish, true)
  else if m = .mirror ∧ s.pair.role = .standby ∧ s.pair.arbSampled ∧ s.modes.safeNew = false then (s.takeOver, true)
  else if m = .run ∧ s.rtAuto then (s.goMode .ridethrough 1, true)
  else if m = .ridethrough ∧ quiet ∧ s.lifeOk then (s.goMode .run 1, true)
  else if m = .ready ∧ ready = false then (s.goMode .charge 1, true)
  else if m = .charge ∧ ready ∧ s.na Obj.READY_DWELL_FRAMES ≤ s.modes.readyRun then (s.goMode .ready 1, true)
  else if m = .run ∧ s.rtFirm then (s.goMode .ridethrough 3, true)
  else if m = .ridethrough ∧ s.modes.rtReq = some 3 ∧ s.lifeOk then (s.goMode .run 3, true)
  else (s, false)

/-- The pending host request is answered (R48, R49): `lost` when a higher rank has taken this D_k. -/
def State.answerReq (s : State) (lost ready : Bool) : State :=
  match s.modes.req with
  | none => s
  | some code =>
    let s1 := s.setReq none
    if code = 7 then (s1.safeEntry 2 false none).modeResult 1
    else if lost then s1.modeResult 6
    else
      let r := s1.hostRequest code ready
      if r.1 = 1 then (s1.goMode r.2 2).modeResult 1 else s1.modeResult r.1

/-- Counts of the decision (R47, R51): frames of readiness in CHARGE, frames in RIDETHROUGH, and those without a cause. -/
def State.modeCounts (s : State) (ready : Bool) : State :=
  let rt := decide (s.mode = .ridethrough)
  { s with modes := { s.modes with
      readyRun := if s.mode = .charge ∧ ready then s.modes.readyRun + 1 else 0
      rtFrames := if rt then s.modes.rtFrames + 1 else 0
      rtQuiet := if rt && !(s.rtAuto || s.rtFirm) then s.modes.rtQuiet + 1 else 0 } }

/-- The mode decision of D_k (R44, R47 to R53). -/
def State.decideMode (s : State) : State :=
  let i0 := s.idcFrame
  let s0 := i0.pairJoin
  let joined := decide (s0.mode ≠ i0.mode)
  let s1 : State := { s0 with pair := { s0.pair with arbSampled := s0.pair.arbIn, takeover := false } }
  let ready := s1.ready
  let s2 := s1.modeCounts ready
  let s3 := s2.raiseIf (decide (s2.mode = .ridethrough) && decide (s2.na Obj.RT_MAX_FRAMES ≤ s2.modes.rtFrames)) 19
  let r := s3.ranked joined ready
  let s4 := r.1.answerReq (r.2 || s3.modes.safeNew) ready
  { s4 with modes := { s4.modes with safeNew := false, rtReq := none } }.forceModeClear

/-! ### Slots of an arm (R188, R199, R203) -/

/-- Cells of an arm in one state (R199 rows 1, 3 and 4). -/
def State.uniform (s : State) (a st : Nat) : List (Nat × Nat) :=
  ((s.armEntries a).filter fun x => s.cellReachable x.1).map fun x => (x.1, s.slotWord st false 0)

/-- The slot word of a named cell (R203, R533; EDGE 0 beside FRAC 0, log entry 150); `sel`: under build source 1 or 2. -/
def State.namedWord (s : State) (sel : Bool) (c : Word) : Nat × Nat :=
  let w := s.slotWord (fcState c) (fcFrac c) (fcEdge c)
  (fcIndex c, if sel && decide (fcState c = stBypass) && decide ((s.entry (fcIndex c)).health = 0) then w - 4096 else w)

/-- Named cells among those a slot holds. -/
def State.namedWords (s : State) (a : Nat) (sel : Bool) : List (Nat × Nat) :=
  ((s.namedForced a).filter fun c => s.cellReachable (fcIndex c)).map (s.namedWord sel)

/-- Content of an arm's slot: count, edge, build source, MOD_STATUS flags, and the words of its cells. -/
structure SlotPlan where
  count : Int
  edge : Nat
  src : Nat
  flags : Nat
  words : List (Nat × Nat)
  deriving DecidableEq, Repr

/-- An arm whose every cell has one state. -/
def State.uniformPlan (s : State) (a st src : Nat) : SlotPlan :=
  { count := 0, edge := 0, src := src, flags := 0, words := s.uniform a st }

/-- TEST without selection (R199 row 2). -/
def State.testPlan (s : State) (a : Nat) : SlotPlan :=
  let named := s.namedWords a false
  let rest := (s.uniform a stBlock).filter fun x => !(named.any fun y => y.1 == x.1)
  { count := 0, edge := 0, src := 0, flags := if (s.namedForced a).isEmpty then 0 else mForcedNamed, words := rest ++ named }

/-- A slot of the Selector (R199 rows 5 and 6) for a demand. -/
def State.selectedPlan (s : State) (a slot src : Nat) (d : Demand) : State × SlotPlan :=
  let r := s.select a slot d.neg d.n d.edge
  (r.1, { count := if d.neg then -(d.n : Int) else d.n, edge := d.edge, src := src
          flags := d.flags + (if (s.namedForced a).isEmpty then 0 else mForcedNamed)
          words := r.2 ++ s.namedWords a true })

/-- FORCE_APPLIED_SLOT_LO records the first slot built from an armed set (R200). -/
def State.forceApplied (s : State) (a slot : Nat) : State :=
  if (s.arm a).armedFresh then
    (s.setArm a { s.arm a with armedFresh := false }).setLN (Obj.FORCE_APPLIED_SLOT_LO a) slot
  else s

/-- The plan of an arm's slot by the first row of R199 that applies; `r` is the notch output. -/
def State.planArm (s : State) (a slot : Nat) (r : Int) : State × SlotPlan :=
  let m := s.buildMode
  let f := (s.arm a).armed
  let named := match f with
    | some x => x.named
    | none => false
  if m = .safe ∨ m = .boot ∨ m = .charge ∨ m = .ready then (s, s.uniformPlan a stBlock 0)
  else if m = .test ∧ s.ga Obj.TEST_SELECT = 0 then ((if named then s.forceApplied a slot else s), s.testPlan a)
  else if (s.arm a).mask then (s, s.uniformPlan a (if s.ga (Obj.MASK_STATE a) = 0 then stBlock else stBypass) 4)
  else match f with
    | some x =>
      if x.allBypass then (s.forceApplied a slot, s.uniformPlan a stBypass 3)
      else if x.counts then
        let s1 := s.forceApplied a slot
        let d := s1.forceDemand a x (s1.avail a)
        d.1.selectedPlan a slot 2 d.2
      else
        let s1 := if x.named then s.forceApplied a slot else s
        let d := s1.modulate a r (s1.avail a)
        d.1.selectedPlan a slot 1 d.2
    | none =>
      let d := s.modulate a r (s.avail a)
      d.1.selectedPlan a slot 1 d.2

/-- FRAC_INDEX names the cell that carries FRAC = 1 in the slot built: where the Selector placed none, a named cell (R203, R228). -/
def State.namedFrac (s : State) (a : Nat) (words : List (Nat × Nat)) : State :=
  match words.find? fun x => cmdFrac x.2 with
  | some x => if s.nl (Obj.FRAC_INDEX a) = 0xFFFF then s.setLN (Obj.FRAC_INDEX a) x.1 else s
  | none => s

/-- One arm at D_k (R188, R196, R199, R222). -/
def State.buildArm (s : State) (a : Nat) : State :=
  let slot := s.frame.count + s.p
  let re := if nbit s.frame.reused.toNat a then mReused else 0
  if (s.armEntries a).isEmpty then s.putBuilt a { slot := slot, count := 0, edge := 0, src := 0, flags := re }
  else
    let n := s.notchStage a (s.il (Obj.REF_SAMPLED a))
    let p := (n.1.setLI (Obj.REF_NOTCHED a) n.2).planArm a slot n.2
    let b : Built := { slot := slot, count := p.2.count, edge := p.2.edge, src := p.2.src, flags := re + p.2.flags + p.2.src }
    ((p.1.putBuilt a b).account a p.2.words).namedFrac a p.2.words

/-! ### Caravans (R37, R103, R104) -/

/-- Words of a grouped unit's slots from its group buffer (R104, R133). -/
def State.groupSlots (s : State) (g n : Nat) : List (BitVec 16) :=
  let off := s.na (Obj.GROUP_BUF_OFF g)
  (List.range n).map fun i => BitVec.ofNat 16 ((s.rdW (shmAddr (off + 4 * (i / 2)))).toNat / 65536 ^ (i % 2))

/-- Slots of one manifest entry (R104). -/
def State.slotsOf (s : State) (e : Word) : List (BitVec 16) :=
  match entKind e with
  | 1 | 2 => [BitVec.ofNat 16 (s.entry (entTarget e)).lastCmd]
  | 3 => List.replicate 4 0
  | 4 => s.groupSlots (entGroup e) (entSlots e)
  | _ => []

/-- The leaf granted the long segment (R111), round robin after the last one, while no walk runs on the route. -/
def Route.grant (r : Route) (on : Bool) : Option Nat :=
  if r.walk.isSome || !on then none
  else
    let after := r.longPending.filter fun x => decide (r.grantAfter < x)
    match after.foldl (fun m x => some (min x (m.getD x))) (none : Option Nat) with
    | some x => some x
    | none => r.longPending.foldl (fun m x => some (min x (m.getD x))) none

/-- The ACTIVE flag (R46). -/
def State.activeFlag (s : State) : Bool :=
  s.commands && decide (s.mode ≠ .boot) && decide (s.mode ≠ .mirror)

/-- The caravan of a lane for slot k + P (R103, R104). -/
def State.caravanOf (s : State) (n : Nat) : CaravanOut :=
  { slot := s.pairFrame (s.frame.count + s.p) % 4294967296, mode := s.mode.code, active := s.activeFlag, hold := (s.route n).hold
    epoch := s.pair.epoch.toNat, tmark := 4 * (s.dk + 150), p := s.p, tf10 := s.tf / 10, grant := (s.route n).grant (decide (s.ga Obj.LONG_GRANT_EN = 1))
    slots := (s.man n).entries.flatMap s.slotsOf }

/-- One lane at D_k: its caravan, or none for a lane not in DATA (R37) or a route out of service (R216). -/
def State.layCaravan (s : State) (n : Nat) : State :=
  let put (s : State) (c : Option CaravanOut) : State := { s with routes := { s.routes with built := vset s.routes.built n c } }
  if s.reachable n then
    let c := s.caravanOf n
    let r := s.route n
    put (s.setRoute n { r with grantAfter := c.grant.getD r.grantAfter
                               longPending := r.longPending.filter fun x => some x != c.grant }) (some c)
  else if s.inMan n ∧ s.inData n = false then (put (s.incL Obj.CARAVAN_SKIP_CNT) none).irqEdge 2 3
  else put s none

/-! ### D_k -/

/-- The STATE of every cell in the slot before the one that this D_k builds, against which a pair train gives its deltas (R420). -/
def State.noteStates (s : State) : State :=
  if s.pair.role = .alone then s
  else { s with pair := { s.pair with
    lastStates := s.ledger.entries.foldl (fun t x => tput (fun _ => 0) t x.1 (cmdState x.2.lastCmd)) [] } }

/-- The slots of all arms and the caravans, in the mode that D_k has decided (R225): a SAFE trigger that they raise acts after them. -/
def State.buildSlots (s : State) : State :=
  let s0 : State := { s with frame := { s.frame with cutting := true } }
  let s1 := (s0.selectorCut.each (List.range 12) State.buildArm).each (List.range 32) State.layCaravan
  let s2 : State := { s1 with
    frame := { s1.frame with cutting := false, cut := true }
    fault := { s1.fault with safeHeld := none }
    pair := { s1.pair with takeover := false } }
  match s1.fault.safeHeld with
  | some c => s2.safeEntry c false none
  | none => s2

/-- Everything that D_k does (R27, R28). -/
def State.cutFrame (s : State) : State := s.sampleRefs.ledgerCut.decideMode.testRefs.noteStates.buildSlots

/-- D_k of a frame that a debug halt has stopped (R21): only the Ledger's rows apply (log entry 93). -/
def State.skipCut (s : State) : State :=
  let t := s.ledgerCut
  { t with frame := { t.frame with cut := true } }

/-- What the Frame Sequencer holds from this D_k on: the run of missing measurements (R42), and the lanes to which ROUTE_DOWN is
signalled (R37). -/
def State.noteCut (s : State) : State :=
  { s with frame := { s.frame with
    measMax := runMax ((idxs 32 s.gates).map fun n => vget 0 s.frame.measRun n)
    downHeld := s.frame.downHeld ||| BitVec.ofNat 32 (((idxs 32 fun n => s.inMan n && !s.reachable n).map fun n => 2 ^ n).sum) } }

/-- D_k of the frame in progress. -/
def State.decisionCut (s : State) : State := (if s.frame.planStopped then s.skipCut else s.cutFrame).noteCut

/-- DECISION_CUT: D_k (R27). -/
def execDecisionCut (s : State) : Host.Outcome State Fault Refusal :=
  .next (if s.frame.ticking = false ∨ s.frame.cut then s else (s.toC (s.frame.tickC + s.dk)).decisionCut)

end Sys2Proof.Machine
end

