-- ==== Sys2Proof/Machine/Estimator.lean ====
section
/-! DEFINITION. The estimator of the Phasor Unit (R330): demodulation under a window, magnitude and angle, frequency and ROCOF, and
the sequence components. Angles are parts of a turn: 2^48 inside, 2^32 in a result. The chapters fix the formulas and leave open the
low-pass of class M, the compensation of the mean and the last place: those are constants of Config (log entry 4). -/
namespace Sys2Proof.Machine

/-! ### Rotations and vectors -/

/-- `2^48 / (2 π) × arctan (2^-i)`, for i from 0. -/
def arctans : List Int :=
  [35184372088832, 20770547670515, 10974586953444, 5570871696862, 2796246208089, 1399486241028, 699913886760, 349978300884,
   174991820497, 87496244017, 43748163730] ++
  [21874087080, 10937044192, 5468522177, 2734261099, 1367130551, 683565276, 341782638, 170891319, 85445659, 42722830, 21361415] ++
  [10680707, 5340354, 2670177, 1335088, 667544, 333772, 166886, 83443, 41722, 20861, 10430, 5215, 2608, 1304, 652, 326, 163, 81, 41,
   20, 10, 5]

/-- A quarter of a turn. -/
def quarterTurn : Int := 70368744177664

/-- One rotation by the i-th arctangent, to the left or to the right. -/
def rotate (left : Bool) (x y : Int) (i : Nat) : Int × Int :=
  if left then (x - floorDiv y (2 ^ i), y + floorDiv x (2 ^ i)) else (x + floorDiv y (2 ^ i), y - floorDiv x (2 ^ i))

/-- Cosine and sine of an angle between an eighth of a turn to either side, scaled by 2^46. -/
def cisEighth (a : Int) : Int × Int :=
  let r := arctans.zipIdx.foldl (fun (s : Int × Int × Int) t =>
    let left := decide (0 ≤ s.2.2)
    let p := rotate left s.1 s.2.1 t.2
    (p.1, p.2, if left then s.2.2 - t.1 else s.2.2 + t.1)) (42731626434776, 0, a)
  (r.1, r.2.1)

/-- Cosine and sine of an angle, scaled by 2^30. -/
def cis (a : Int) : Int × Int :=
  let q := floorDiv (a + quarterTurn / 2) quarterTurn
  let c := cisEighth (a - q * quarterTurn)
  let x := floorDiv (c.1 + 32768) 65536
  let y := floorDiv (c.2 + 32768) 65536
  match q % 4 with
  | 0 => (x, y)
  | 1 => (-y, x)
  | 2 => (-x, -y)
  | _ => (y, -x)

/-- Angle of a vector; 0 for the vector 0. -/
def angleOf (x y : Int) : Int :=
  let back := decide (x < 0)
  let start : Int × Int × Int := if back then (-x * 65536, -y * 65536, 2 * quarterTurn) else (x * 65536, y * 65536, 0)
  if x = 0 ∧ y = 0 then 0
  else
    (arctans.zipIdx.foldl (fun (s : Int × Int × Int) t =>
      let right := decide (0 ≤ s.2.1)
      let p := rotate (!right) s.1 s.2.1 t.2
      (p.1, p.2, if right then s.2.2 + t.1 else s.2.2 - t.1)) start).2.2

/-- The greatest number of 160 bits whose square is at most `n`. -/
def rootOf (n : Nat) : Nat :=
  (List.range 160).foldl (fun r i => let c := r + 2 ^ (159 - i); if c * c ≤ n then c else r) 0

/-! ### Windows and phasors (R330) -/

/-- Half a window in processing samples: a cycle has 96. -/
def winHalf (cycles : Nat) : Nat := 48 * cycles

/-- Weight of the processing sample `d` places from the middle: triangular for class P, a Hamming-windowed low-pass for class M. -/
def winWeight (m : Bool) (f0 rate cycles d : Nat) : Int :=
  if m then Config.lowPass f0 rate d * (54 * 1073741824 + 46 * (cis (floorDiv (d * 2 * quarterTurn) (max 1 (winHalf cycles) : Nat))).1)
  else (winHalf cycles : Int) - d

/-- Sum of a window's weights. -/
def winTotal (m : Bool) (f0 rate cycles : Nat) : Int :=
  winWeight m f0 rate cycles 0 + 2 * ((List.range (winHalf cycles)).map fun d => winWeight m f0 rate cycles (d + 1)).sum

/-- A phasor: RMS magnitude in 2^-31 of full scale, and angle. -/
structure Polar where
  mag : Nat
  ang : Int
  deriving DecidableEq, Repr

/-- The phasor at processing index `n` of the samples around it (R330): the fundamental against a cosine whose phase is 0 at each whole
second, under the window. -/
def demodulate (m : Bool) (f0 rate cycles n : Nat) (samples : List (Nat × Int)) : Polar :=
  let s := samples.foldl (fun (a : Int × Int) x =>
    let d := ((x.1 : Int) - n).natAbs
    if d ≤ winHalf cycles then
      let c := cis (floorDiv ((x.1 % 96 : Nat) * 4 * quarterTurn) 96)
      let w := winWeight m f0 rate cycles d * x.2
      (a.1 + w * c.1, a.2 - w * c.2)
    else a) ((0 : Int), (0 : Int))
  let total := max 1 (winTotal m f0 rate cycles).natAbs
  { mag := rootOf (2 * (s.1 * s.1 + s.2 * s.2)).natAbs / (total * 1073741824), ang := angleOf s.1 s.2 }

/-- The difference of two unwrapped angles half a cycle apart, within half a turn. -/
def turnDiff (a b : Int) : Int := (a - b + 2 * quarterTurn) % (4 * quarterTurn) - 2 * quarterTurn

/-- `f(t) - f0` in µHz from the angles at t + Δ and t - Δ (R330). -/
def freqDev (f0 : Nat) (after before : Int) : Int := floorDiv (turnDiff after before * f0 * 1000000) (2 * quarterTurn)

/-- ROCOF in µHz/s from the angles at t + 2Δ, t and t - 2Δ (R330). -/
def rocof (f0 : Nat) (after mid before : Int) : Int :=
  floorDiv ((turnDiff after mid - turnDiff mid before) * f0 * 1000000 * (2 * f0)) (2 * quarterTurn)

/-- The sum of three phasors, b and c turned by thirds of a turn, over 3 (R330). -/
def sequenceOf (a b c : Polar) (turnB turnC : Int) : Polar :=
  let part (p : Polar) (k : Int) : Int × Int :=
    let v := cis (p.ang + floorDiv (k * 4 * quarterTurn) 3)
    (p.mag * v.1, p.mag * v.2)
  let va := part a 0
  let vb := part b turnB
  let vc := part c turnC
  let x := va.1 + vb.1 + vc.1
  let y := va.2 + vb.2 + vc.2
  { mag := rootOf (x * x + y * y).natAbs / (3 * 1073741824), ang := angleOf x y }

/-- The component that a kind of channel names (R330, R342): 1 positive, 2 negative, 3 zero sequence. -/
def component (kind : Nat) (a b c : Polar) : Polar :=
  if kind = 1 then sequenceOf a b c 1 2 else if kind = 2 then sequenceOf a b c 2 1 else sequenceOf a b c 0 0

/-! ### Results -/

/-- A value that is off by at most one in its last place (log entry 4): `i` names the value and `n` the report. -/
def lastPlace (i n : Nat) (x : Int) : Int := x + ((Config.phasorLsb i n % 3 : Nat) : Int) - 1

/-- A signed result; outside the 32 bits the chapters state none (log entry 4). -/
def signedResult (x : Int) : Word := if -2147483648 ≤ x ∧ x ≤ 2147483647 then i32 x else Config.outOfRange x
/-- An unsigned result. -/
def unsignedResult (x : Int) : Word := if x ≤ 4294967295 then w32 x.toNat else Config.outOfRange x
/-- An angle as a result, in 2^-32 turns. -/
def angleResult (x : Int) : Word := i32 (floorDiv x 65536)

end Sys2Proof.Machine
end

