-- ==== Sys2Proof/Machine/Phasor.lean ====
section
/-! DEFINITION. The Phasor Unit (R326 to R336) and the Wave Tagger (R337 to R340): both take the samples of a stream frame by frame, as
the frames of its lane close. -/
namespace Sys2Proof.Machine

/-! ### The processing grid (R328) -/

/-- Nominal frequency, and processing samples per second. -/
def State.phF0 (s : State) : Nat := if s.ga Obj.PH_F0 = 1 then 60 else 50
def gridRate (f0 : Nat) : Nat := 96 * f0

/-- Processing interval that holds a time in 1/60 ns (R328): half open to the left. -/
def gridOf (f0 t60 : Nat) : Nat :=
  (floorDiv (2 * ((t60 * gridRate f0 : Nat) : Int) - 60000000000 + 119999999999) 120000000000).toNat
/-- First processing index at or after a time in ns. -/
def gridFrom (f0 t : Nat) : Nat := ceilDiv (t * gridRate f0) 1000000000

/-! ### Channels and settings (R331, R342) -/

/-- Channel fields (R342). -/
def phEn (c : Word) : Bool := nbit c.toNat 31
def phClassM (c : Word) : Bool := nbit c.toNat 30
def phKind (c : Word) : Nat := fld c 29 28
def phSrc (c : Word) : Nat := fld c 14 0
/-- Source channels of a sequence channel. -/
def phSources (c : Word) : List Nat := [fld c 4 0, fld c 9 5, fld c 14 10]

/-- M-class window in cycles (R331). -/
def mCycles (f0 rate : Nat) : Nat :=
  if f0 = 50 then
    (match rate with | 10 => 28 | 25 => 14 | 50 => 8 | 100 => 3 | _ => 0)
  else
    (match rate with | 10 => 34 | 12 => 28 | 15 => 22 | 20 => 18 | 30 => 12 | 60 => 8 | 120 => 3 | _ => 0)
/-- A listed rate, and one that class P marks EXT (R331). -/
def rateListed (f0 rate : Nat) : Bool :=
  if f0 = 50 then [10, 25, 50, 100].contains rate else [10, 12, 15, 20, 30, 60, 120, 240].contains rate
def extP (f0 rate : Nat) : Bool := if f0 = 50 then decide (rate = 100) else decide (rate = 120) || decide (rate = 240)

/-- The settings in force. -/
def State.phSet (s : State) : PhSet :=
  { f0 := s.phF0, rate := s.na Obj.PH_RATE, fill := s.na Obj.PH_GAP_FILL, shmOff := s.na Obj.PH_SHM_OFF, ringLen := s.na Obj.PH_RING_LEN
    cfg := Vector.ofFn fun c => s.ga (Obj.PH_CHAN_CFG c.val), ang := Vector.ofFn fun c => s.ga (Obj.PH_ANGLE_COMP c.val)
    gain := Vector.ofFn fun c => s.ga (Obj.PH_MAG_GAIN c.val), win := s.phasor.win }

def PhSet.cfgOf (v : PhSet) (c : Nat) : Word := vget 0 v.cfg c
/-- Enabled channels. -/
def PhSet.on (v : PhSet) : List Nat := idxs 24 fun c => phEn (v.cfgOf c)
/-- The SINGLE channels that a channel rests on. -/
def PhSet.singles (v : PhSet) (c : Nat) : List Nat := if phKind (v.cfgOf c) = 0 then [c] else phSources (v.cfgOf c)
/-- Streams that a channel rests on. -/
def PhSet.streamsOf (v : PhSet) (c : Nat) : List Nat := (v.singles c).map fun a => phSrc (v.cfgOf a) % 64
/-- An enabled channel rests on a stream; some enabled channel does. -/
def PhSet.uses (v : PhSet) (c st : Nat) : Bool := phEn (v.cfgOf c) && (v.streamsOf c).contains st
def PhSet.used (v : PhSet) (st : Nat) : Bool := v.on.any fun c => v.uses c st
/-- Nominal cycles of a channel's window (R330, R331). -/
def PhSet.cycles (v : PhSet) (c : Nat) : Nat := if phClassM (v.cfgOf c) then mCycles v.f0 v.rate else 2
/-- Half the window in processing samples, the margin of 2Δ included (R331, R333). -/
def PhSet.half (v : PhSet) (c : Nat) : Nat := winHalf (v.cycles c) + 48
/-- The latency of the slowest enabled channel in ns (R331, R334). -/
def PhSet.latency (v : PhSet) : Nat := ceilDiv ((v.on.map v.half).foldl max 48 * 1000000000) (gridRate v.f0) + 150000

/-! ### Processing samples of a stream (R328, R329) -/

/-- A stream whose next processing interval is `n`. -/
def PhStream.from0 (n : Nat) : PhStream :=
  { next := n, sum := 0, cnt := 0, sat := false, sens := false, run := 0, inGap := false, win := [], gaps := [], held := [] }

/-- What a report can still reach of the processing samples up to `newest`: the longest window is 34 cycles with its margins. -/
def keepWin (newest : Nat) (l : List PhSmp) : List PhSmp := l.filter fun x => decide (newest < x.idx + 4000)

/-- Linear interpolation between two processing samples (R329), the run's indices falling. -/
def interpolate (a b : PhSmp) : List PhSmp :=
  ((List.range (b.idx - a.idx - 1)).map fun i =>
    ({ idx := a.idx + i + 1, sum := 0, cnt := 0, val := a.val + floorDiv ((b.val - a.val) * (i + 1)) (b.idx - a.idx : Nat)
       interp := true, sat := false, sens := false } : PhSmp)).reverse

/-- The interval being filled, as a processing sample: the mean of what is placed in it (R328). -/
def PhStream.cur (x : PhStream) : PhSmp :=
  { idx := x.next, sum := x.sum, cnt := x.cnt, val := floorDiv (x.sum * 65536) (max 1 x.cnt : Nat), interp := false, sat := x.sat
    sens := x.sens }

/-- The interval being filled is over and holds samples: their mean is the processing sample (R328). A run before it that PH_GAP_FILL
covers, with a sample on its other side, is interpolated; another one was a gap, and the windows restart here (R329). Answers whether
they do. -/
def PhStream.form (x : PhStream) : PhStream × Bool :=
  let v := x.cur
  let between := match x.win with
    | p :: _ => if x.inGap then [] else interpolate p v
    | [] => []
  let gaps := if x.inGap then (x.next - x.run, x.next - 1) :: x.gaps else x.gaps
  ({ x with next := x.next + 1, sum := 0, cnt := 0, sat := false, sens := false, run := 0, inGap := false
            win := keepWin x.next (v :: (between ++ x.win)), gaps := gaps.filter fun g => decide (x.next < g.2 + 4000) }, x.inGap)

/-- `e` more intervals have closed empty (R329): the run is a gap once PH_GAP_FILL no longer covers it, or when no sample stands before it.
Answers whether it becomes one. -/
def PhStream.skip (x : PhStream) (fill e : Nat) : PhStream × Bool :=
  let run := x.run + e
  let gap := decide (0 < run) && (decide (fill < run) || x.win.isEmpty)
  ({ x with next := x.next + e, run := run, inGap := gap }, gap && !x.inGap)

/-- What feeding a stream did: the stream, gaps begun, and the index at which the windows restart. -/
structure PhFed where
  str : PhStream
  gaps : Nat
  restart : Option Nat
  deriving DecidableEq, Repr

/-- What is placed already in the interval being filled is taken up (R336). -/
def PhStream.resume (x : PhStream) : PhStream :=
  match x.held with
  | v :: rest => if v.idx = x.next then { x with sum := v.sum, cnt := v.cnt, sat := v.sat, sens := v.sens, held := rest } else x
  | [] => x

/-- Every interval before `g` has closed, and none that is open again lies among them (R328). -/
def PhFed.closeTo (f : PhFed) (fill g : Nat) : PhFed :=
  if g ≤ f.str.next then f
  else
    let a : PhFed :=
      if f.str.cnt = 0 then f
      else { f with str := f.str.form.1, restart := if f.str.form.2 then some f.str.next else f.restart }
    let b := a.str.skip fill (g - a.str.next)
    { a with str := b.1.resume, gaps := a.gaps + b2n b.2 }

/-- Every interval before `g` has closed (R328). -/
def PhFed.upTo (f : PhFed) (fill g : Nat) : PhFed :=
  (((f.str.held.map (·.idx)).filter fun i => decide (i < g)) ++ [g]).foldl (fun f i => f.closeTo fill i) f

/-- C_OFF has stepped back to interval `g` (R336): it and those after it are open again, with what is placed in them already. -/
def PhStream.back (x : PhStream) (g : Nat) : PhStream :=
  let again := (x.win.filter fun v => decide (g ≤ v.idx) && !v.interp).reverse ++ (if x.cnt = 0 then [] else [x.cur]) ++ x.held
  let win := (x.win.filter fun v => decide (v.idx < g)).dropWhile (·.interp)
  let run := match win with
    | v :: _ => g - 1 - v.idx
    | [] => 0
  ({ x with
      next := g, sum := 0, cnt := 0, sat := false, sens := false, run := run, win := win, held := again
      inGap := decide (0 < run) && ((x.inGap && decide (x.next < g + x.run)) || x.gaps.any fun y => decide (y.1 < g) && decide (g ≤ y.2 + 1))
      gaps := x.gaps.filter fun y => decide (y.2 + 1 < g) }).resume

/-- One present sample placed at a time in 1/60 ns, with its marks (R326, R328). -/
def PhFed.sample (f : PhFed) (f0 fill t60 : Nat) (v : Int) (sat sens : Bool) : PhFed :=
  let g := gridOf f0 t60
  let a := if g < f.str.next then { f with str := f.str.back g } else f.upTo fill g
  let x := a.str
  { a with str := { x with sum := x.sum + v, cnt := x.cnt + 1, sat := x.sat || sat, sens := x.sens || sens } }

/-- The window of a channel starts at a processing index (R333). -/
def PhWin.begin (w : PhWin) (c n : Nat) : PhWin := { w with start := vset w.start c (some n), filled := vset w.filled c false }

/-- A closed frame of a stream under one group of settings (R327 to R329): its samples in placed order, and the time it ends. Answers the
gaps begun. -/
def PhSet.feed (v : PhSet) (st : Nat) (smps : List (Nat × Int)) (ovr bad : Bool) (end60 : Nat) : PhSet × Nat :=
  if !v.used st then (v, 0)
  else
    let x := tget (fun _ => PhStream.from0 (gridOf v.f0 end60)) v.win.streams st
    let f0 : PhFed := { str := x, gaps := 0, restart := none }
    let f1 := smps.foldl (fun f y => f.sample v.f0 v.fill y.1 y.2 ovr bad) f0
    let f := f1.upTo v.fill (gridOf v.f0 (end60 + 1))
    let w := { v.win with streams := (st, f.str) :: v.win.streams.filter fun y => decide (y.1 ≠ st) }
    let w1 := match f.restart with
      | some n => (idxs 24 fun c => v.uses c st).foldl (fun w c => w.begin c n) w
      | none => w
    ({ v with win := w1 }, f.gaps)

/-- A stream is in use under the settings in force or under earlier ones that have reports to publish. -/
def State.phUsed (s : State) (st : Nat) : Bool := (s.phasor.running && s.phSet.used st) || s.phasor.old.any (·.used st)

/-- The same under the settings in force, and under earlier ones that have reports to publish. -/
def State.phFeed (s : State) (st : Nat) (smps : List (Nat × Int)) (ovr bad : Bool) (end60 : Nat) : State :=
  let old := s.phasor.old.map fun o => (o.feed st smps ovr bad end60).1
  let r := s.phSet.feed st smps ovr bad end60
  if s.phasor.running then
    ({ s with phasor := { s.phasor with win := r.1.win, old := old } } : State).addL Obj.GAP_CNT r.2
  else { s with phasor := { s.phasor with old := old } }

/-! ### The Wave Tagger (R337, R338) -/

def WtChan.reset : WtChan := { samples := [], armCnt := 0, armed := false, detected := false, tags := [] }
def State.wave1 (s : State) (w : Nat) : WtChan := vget WtChan.reset s.wave.chan w
def State.setWave (s : State) (w : Nat) (x : WtChan) : State := { s with wave := { s.wave with chan := vset s.wave.chan w x } }

/-- A signed 16-bit value, saturating. -/
def sat16 (x : Int) : Int := clampInt (-32768) 32767 x

/-- The tag of a detection at the newest sample (R338): `next` is sample j + 1 when it is present. Answers the tag, its data
word (R339) and whether it fell back. -/
def State.waveTag (s : State) (w : Nat) (next : Option (Int × Nat × Bool)) : Option (Nat × Word × Bool) :=
  match (s.wave1 w).samples with
  | (xj, tj, sj) :: (xb, tb, sb) :: _ =>
    let d := xj - xb
    let pair : Option (Int × Nat × Bool) := match next with
      | some n => if (0 < d ∧ 0 < n.1 - xj) ∨ (d < 0 ∧ n.1 - xj < 0) then some n else none
      | none => none
    let on : Int × Int := match pair with
      | some (xn, tn, _) =>
        let e : Int := (xn - xj).natAbs
        (clampInt (tb * e) (tj * e) (tj * e - d.natAbs * ((tn : Int) - tj)), e)
      | none => ((tb : Int) + tj, 2)
    let tag := floorDiv (on.1 + on.2 * (30 - 60 * (s.na (Obj.WT_COMP_NS w) : Int))) (60 * on.2)
    let step := sat16 (match pair with
      | some (xn, _, _) => xn - xb
      | none => d)
    let sn := match next with
      | some n => n.2.2
      | none => false
    let data := b2n (decide (d < 0)) * 2147483648 + b2n pair.isNone * 1073741824 + b2n (!s.traceAt (s.convOf tag).toNat) * 536870912
      + b2n (sj || sb || sn) * 268435456 + w * 16777216 + (BitVec.ofInt 16 step).toNat
    some (tag.toNat, w32 data, pair.isNone)
  | _ => none

/-- The detection that waits gets its tag (R338). -/
def State.waveResolve (s : State) (w : Nat) (next : Option (Int × Nat × Bool)) : State :=
  let x := s.wave1 w
  if x.detected then
    match s.waveTag w next with
    | some (tag, data, fb) =>
      (s.setWave w { x with detected := false, tags := x.tags ++ [(tag, data)] }).incIf fb Obj.WT_FALLBACK_CNT
    | none => s.setWave w { x with detected := false }
  else s

/-- One present sample of a channel (R337). -/
def State.waveSample (s : State) (w t60 : Nat) (v : Int) (sat : Bool) : State :=
  let s1 := s.waveResolve w (some (v, t60, sat))
  let x := s1.wave1 w
  let y : WtChan := { x with samples := ((v, t60, sat) :: x.samples).take 3 }
  match x.samples with
  | [] => s1.setWave w y
  | (p, _, _) :: _ =>
    let d := v - p
    let pol := fld (s1.ga (Obj.WT_CFG w)) 30 29
    let thr := (s1.ga (Obj.WT_THR w)).toInt
    let hit := x.armed && ((nbit pol 0 && decide (thr < d)) || (nbit pol 1 && decide (thr < -d)))
    if hit then s1.setWave w { y with detected := true, armed := false, armCnt := 0 }
    else
      let n := if (d.natAbs : Int) < (s1.ga (Obj.WT_ARM w)).toInt then x.armCnt + 1 else 0
      s1.setWave w { y with armCnt := min 255 n, armed := x.armed || decide (fld (s1.ga (Obj.WT_CFG w)) 15 8 ≤ n) }

/-- A missing sample of a channel (R337, R338). -/
def State.waveMissing (s : State) (w : Nat) : State :=
  let s1 := s.waveResolve w none
  s1.setWave w { s1.wave1 w with samples := [], armCnt := 0 }

/-- A channel whose configuration word changes starts anew, its tags apart. -/
def State.waveRestart (s : State) (w : Nat) : State := s.setWave w { WtChan.reset with tags := (s.wave1 w).tags }

/-- Enabled Wave Tagger channels of a stream. -/
def State.waveChans (s : State) (st : Nat) : List Nat :=
  idxs 12 fun w => nbit (s.na (Obj.WT_CFG w)) 31 && decide (fld (s.ga (Obj.WT_CFG w)) 5 0 = st)

/-! ### Frames of a stream (R326, R327) -/

/-- TIME64 in 1/60 ns of a converter time in 1/60 ns (R318, R326). -/
def State.place60 (s : State) (c60 : Int) : Nat := (c60 + 60 * s.cOffAt (floorDiv c60 60).toNat).toNat

/-- The samples of an accepted record wait until the frame of their lane closes (R326); there are none while the plan is stopped. -/
def State.streamRecord (s : State) (st j : Nat) (vals : List Int) (ovr bad : Bool) : State :=
  if s.frame.planStopped then s
  else { s with samples := { stream := st, frame := j, vals := vals, ovr := ovr, bad := bad } :: s.samples.filter fun x => decide (s.frame.count < x.frame + 40) }

/-- Frame `j` of a stream has closed, and every one before it (R326, R327): its samples are placed at
`S_{j-1} + (i + 1) × T_F / NSAMP` and reach the Phasor Unit and the Wave Tagger in order, or they are missing. -/
def State.streamFrame (s : State) (st j : Nat) : State :=
  let last := s.tickOf j
  let first := if j = 0 then last - s.tf else s.tickOf (j - 1)
  let endT := s.place60 (60 * last)
  match s.samples.find? fun x => decide (x.stream = st) && decide (x.frame = j) with
  | some x =>
    let n := max 1 x.vals.length
    let smps := x.vals.zipIdx.map fun y => (s.place60 (60 * first + floorDiv ((y.2 + 1 : Nat) * 60 * (last - first)) (n : Nat)), y.1)
    smps.foldl (fun s y => (s.waveChans st).foldl (fun s w => s.waveSample w y.1 y.2 x.ovr) s) (s.phFeed st smps x.ovr x.bad endT)
  | none => (s.waveChans st).foldl (fun s w => s.waveMissing w) (s.phFeed st [] false false endT)

/-- S_k for a stream that no lane of the manifest carries (log entry 153): frame `j` closed for it without samples at S_{j+P}. -/
def State.streamGone (s : State) (st : Nat) : State :=
  if (!s.phUsed st && (s.waveChans st).isEmpty) || (idxs 32 s.inMan).any (fun n => (s.laneStreams n).contains st) || decide (s.frame.count < s.p)
  then s
  else (s.waveChans st).foldl (fun s w => s.waveMissing w) (s.phFeed st [] false false (s.place60 (60 * s.tickOf (s.frame.count - s.p))))

/-- WAVE_TAG_WRITE (R339): the oldest tag of a channel is delivered. The beacon's own trigger comes before the tag's (R350). -/
def execWaveTagWrite (w : Fin 12) (s : State) : Host.Outcome State Fault Refusal :=
  .next (
    let x := s.wave1 w.val
    match x.tags with
    | [] => s
    | (tag, data) :: rest =>
      let cfg := s.ga (Obj.WT_CFG w.val)
      let st := fld cfg 5 0
      let s1 := s.setWave w.val { x with tags := rest }
      let s2 := (reactC3 s1 (s1.journalAt (0xA0 + w.val) data tag (!nbit data.toNat 29))).acqTag st tag data
      let seq := (s2.gl Obj.WT_SEQ + 1).toNat
      let s3 := ((s2.incL (Obj.WT_TAG_CNT w.val)).incL Obj.WT_SEQ).setLN Obj.WT_LAST_SEQ seq
      let s4 := ((s3.setL64 Obj.WT_LAST_TAG_LO tag).setL Obj.WT_LAST_DATA data).setLN Obj.WT_LAST_STREAM st
      let s5 := (s4.irqEdge 8 1).event 0x4E
      let s6 := if nbit cfg.toNat 28 then s5.originate (fld cfg 27 22) (4 * s5.convOf tag).toNat else s5
      if nbit (s6.na Obj.ACQ_WT_MASK) w.val then acqTrigger occPend 4 tag s6 else s6)

/-! ### Reports (R330 to R336) -/

def PhSet.stream (v : PhSet) (c : Nat) : PhStream := tget (fun _ => PhStream.from0 0) v.win.streams (phSrc (v.cfgOf c) % 64)
/-- A range of processing indices lies in the window of a channel around `n`, at least in part. -/
def PhSet.within (v : PhSet) (c n lo hi : Nat) : Bool := decide (n ≤ hi + v.half c) && decide (lo ≤ n + v.half c)
/-- Processing samples of a SINGLE channel inside its window around `n`. -/
def PhSet.window (v : PhSet) (c n : Nat) : List PhSmp := (v.stream c).win.filter fun x => v.within c n x.idx x.idx
/-- A processing sample in the window of a channel around `n` carries a mark. -/
def PhSet.marked (v : PhSet) (c n : Nat) (f : PhSmp → Bool) : Bool := (v.singles c).any fun a => (v.window a n).any f
/-- A gap lies in the window of a channel around `n` (R329). -/
def PhSet.gapped (v : PhSet) (c n : Nat) : Bool :=
  (v.singles c).any fun a =>
    let x := v.stream a
    (x.inGap && v.within c n (x.next - x.run) (x.next - 1)) || x.gaps.any fun g => v.within c n g.1 g.2
/-- Every processing sample in the window of a channel around `n` was formed after its start (R333). -/
def PhSet.complete (v : PhSet) (c n : Nat) : Bool :=
  (c :: v.singles c).all fun a => match vget none v.win.start a with
    | some i => decide (i + v.half c ≤ n) && decide ((v.window a n).length = 2 * v.half c + 1 ∨ phKind (v.cfgOf a) ≠ 0)
    | none => false
/-- The window of a channel around `n` is still filling (R333). -/
def PhSet.filling (v : PhSet) (c n : Nat) : Bool := !vget false v.win.filled c && !v.complete c n

/-- Phasor of a SINGLE channel at index `n` under its window (R330). -/
def PhSet.raw (v : PhSet) (c n : Nat) : Polar :=
  demodulate (phClassM (v.cfgOf c)) v.f0 v.rate (v.cycles c) n ((v.stream c).win.map fun x => (x.idx, x.val))

/-- The same with the mean's gain and phase compensated at the frequency measured at report index `r` (R328), and with PH_MAG_GAIN and
PH_ANGLE_COMP (R330). -/
def PhSet.phasorAt (v : PhSet) (c r n : Nat) : Polar :=
  let e := v.raw c n
  let k := Config.meanComp v.f0 (freqDev v.f0 (v.raw c (r + 24)).ang (v.raw c (r - 24)).ang) r
  { mag := e.mag * k.1 / 1073741824 * (vget 0 v.gain c).toNat / 65536, ang := e.ang + k.2 + (vget 0 v.ang c).toInt * 65536 }

/-- The three sources of a sequence channel at index `n`, combined as `kind` says. -/
def PhSet.combined (v : PhSet) (c kind r n : Nat) : Polar :=
  let x (i : Nat) : Polar := v.phasorAt ((phSources (v.cfgOf c)).getD i 0) r n
  component kind (x 0) (x 1) (x 2)

/-- The angle whose movement is a channel's frequency (R330): that of the positive sequence for a sequence channel. -/
def PhSet.angleAt (v : PhSet) (c r n : Nat) : Int :=
  if phKind (v.cfgOf c) = 0 then (v.raw c n).ang else (v.combined c 1 r n).ang

/-- Magnitude, angle, frequency deviation and ROCOF of a channel at processing index `n` (R330). -/
def PhSet.estimate (v : PhSet) (c n : Nat) : Word × Word × Word × Word :=
  let k := phKind (v.cfgOf c)
  let x := if k = 0 then v.phasorAt c n n else v.combined c k n n
  let a := v.angleAt c n
  let z (i : Nat) (y : Int) : Int := lastPlace (4 * c + i) n y
  (unsignedResult (z 0 x.mag), angleResult (z 1 (floorDiv x.ang 65536) * 65536), signedResult (z 2 (freqDev v.f0 (a (n + 24)) (a (n - 24)))),
    signedResult (z 3 (rocof v.f0 (a (n + 48)) (a n) (a (n - 48)))))


/-- C_OFF changed by a domain inside a window (R336). -/
def State.domChanged (s : State) (v : PhSet) (c n : Nat) : Bool :=
  s.phasor.domChg.any fun x => v.within c n (gridFrom v.f0 x.2.1) (gridFrom v.f0 x.2.1) || v.within c n (gridFrom v.f0 x.2.2) (gridFrom v.f0 x.2.2)

/-- Result of one channel for a report at converter time `at0` with processing index `n` (R330 to R336): flags but FRESH, and values. -/
def State.phResult (s : State) (v : PhSet) (c n at0 : Nat) : Nat × Word × Word × Word × Word :=
  let bad := v.gapped c n
  let fill := v.filling c n
  let e := if bad || fill then ((0 : Word), (0 : Word), (0 : Word), (0 : Word)) else v.estimate c n
  let lim : Int := if phClassM (v.cfgOf c) then 5000000 else 2000000
  let range := decide (lim < e.2.2.1.toInt) || decide (e.2.2.1.toInt < -lim)
  let ext := !phClassM (v.cfgOf c) && extP v.f0 v.rate
  (b2n (s.domChanged v c n) * 1024 + b2n ext * 512 + b2n (v.marked c n (·.interp)) * 256 + b2n bad * 128 + b2n fill * 64
    + b2n (!s.traceAt at0) * 32 + b2n (v.marked c n (·.sat)) * 16 + b2n (v.marked c n (·.sens)) * 8 + b2n range * 4 + 1, e)

/-- A result object (R341). -/
def State.putResult (s : State) (c seq t : Nat) (r : Nat × Word × Word × Word × Word) : State :=
  let k := Obj.RES_SEQ c
  ((((((s.setLN k seq).setLN (k + 1) r.1).setL64 (k + 2) t).setL (k + 4) r.2.1).setL (k + 5) r.2.2.1).setL (k + 6) r.2.2.2.1).setL
    (k + 7) r.2.2.2.2

/-- The report block of R335. -/
def State.reportBlock (s : State) (v : PhSet) (seq t : Nat) : State :=
  if v.shmOff = 0xFFFFFFFF then s
  else
    let a := shmAddr (v.shmOff + 512 * (seq % max 1 v.ringLen))
    let words (c : Nat) : List Byte :=
      let k := Obj.RES_SEQ c
      ([4, 5, 6, 7].flatMap fun i => leBytes 4 (s.nl (k + i))) ++ leBytes 4 (s.nl (k + 1) % 65536)
    s.wrBytes a (leBytes 8 t ++ leBytes 4 (v.rate + (if v.f0 = 60 then 65536 else 0)) ++ leBytes 4 0
      ++ (List.range 24).flatMap words ++ leBytes 12 0 ++ leBytes 4 seq)

/-! ### Report instants (R330, R334, R336) -/

/-- A report instant counts in 1/28,800 s, which every rate of R331 divides. -/
def PhSet.step (v : PhSet) : Nat := 28800 / max 1 v.rate
/-- First report instant at or after one of those counts. -/
def PhSet.instant (v : PhSet) (u : Nat) : Nat := ceilDiv u (max 1 v.step) * v.step
def instantNs (u : Nat) : Nat := u * 312500 / 9
def instantFrom (t : Nat) : Nat := ceilDiv (t * 9) 312500

/-- Report instants before `lim` ns that are still to be published when the settings or the time scale change at converter time `c`, each
with the converter time at which its latency has elapsed. -/
def State.phPending (s : State) (v : PhSet) (c lim : Nat) : List (Nat × Nat) :=
  let u0 := v.instant s.phasor.nextAt
  (List.range (ceilDiv (instantFrom lim - u0) (max 1 v.step))).map fun i =>
    let u := u0 + i * v.step
    (u, c + v.latency - (lim - instantNs u))

/-- The results of report instant `u`, at converter time `at0`, under settings `v` (R334). -/
def State.phPublish (s : State) (v : PhSet) (u at0 : Nat) : State :=
  let t := instantNs u
  let n := u * gridRate v.f0 / 28800
  let seq := (s.gl Obj.REPORT_SEQ + 1).toNat
  let s1 := s.setLN Obj.REPORT_SEQ seq
  let s2 := s1.each v.on fun x c => x.putResult c seq t (s.phResult v c n at0)
  let s3 := s2.incIf (v.on.any fun c => !phClassM (v.cfgOf c) && extP v.f0 v.rate) Obj.EXT_REPORT_CNT
  ((s3.reportBlock v seq t).irqEdge 8 0).event 0x4D

/-- A report leaves its windows: those that it completes have filled (R333). -/
def PhSet.reported (v : PhSet) (n : Nat) : PhWin :=
  { v.win with filled := Vector.ofFn fun c => v.win.filled[c] || (phEn (v.cfgOf c.val) && v.complete c.val n) }

/-- The first report that a group of settings still owes, when its latency has elapsed (R334): the instant, and the converter time. -/
def PhSet.ripe (v : PhSet) (now : Nat) : Option (Nat × Nat) :=
  match v.win.due with
  | (u, c) :: _ => if c ≤ now then some (u, c - v.latency) else none
  | [] => none

/-- The windows of a group of settings once the report of instant `u`, which it owed, is out. -/
def PhSet.paid (v : PhSet) (u : Nat) : PhWin := { v.reported (u * gridRate v.f0 / 28800) with due := v.win.due.drop 1 }

/-- The next report under the settings in force whose latency has elapsed (R334). -/
def State.publishNow (s : State) : State :=
  let v := s.phSet
  let u := v.instant s.phasor.nextAt
  match v.win.due, v.ripe s.nowC with
  | _, some (d, c) =>
    let s1 := s.phPublish v d c
    { s1 with phasor := { s1.phasor with win := v.paid d } }
  | [], none =>
    if s.time64 s.nowC < instantNs u + v.latency then s
    else
      let s1 := s.phPublish v u (s.convOf (instantNs u)).toNat
      { s1 with phasor := { s1.phasor with win := v.reported (u * gridRate v.f0 / 28800), nextAt := u + 1 } }
  | _, none => s

/-- A step of C_OFF by a domain is taken up (R336): converter time, and selected-domain time before and after. Reports of the old time scale
stay to be published. -/
def State.phStep (s : State) (x : Nat × Nat × Nat) : State :=
  let ph := s.phasor
  { s with phasor := { ph with
      domChg := (x :: ph.domChg).filter fun y => decide (x.1 < y.1 + 1500000000)
      nextAt := instantFrom x.2.2
      win := { ph.win with due := if ph.running then ph.win.due ++ s.phPending s.phSet x.1 x.2.1 else [] } } }

/-- The steps of C_OFF so far, oldest first. -/
def State.phTick (s : State) : State :=
  s.time.offSteps.reverse.foldl State.phStep { s with time := { s.time with offSteps := [] } }

/-- PHASOR_PUBLISH (R334, R336): a report whose latency has elapsed is published, those of earlier settings first. -/
def execPhasorPublish (s : State) : Host.Outcome State Fault Refusal :=
  .next (
    let s0 := s.phTick
    match s0.phasor.old.find? fun o => (o.ripe s0.nowC).isSome with
    | some o =>
      match o.ripe s0.nowC with
      | some (u, c) =>
        let s1 := s0.phPublish o u c
        let old := (s1.phasor.old.replace o { o with win := o.paid u }).filter fun x => !x.win.due.isEmpty
        { s1 with phasor := { s1.phasor with old := old } }
      | none => s0
    | none => if s0.phasor.running then s0.publishNow else s0)

/-! ### Starts and what happens at S_k (R333, R336) -/

/-- Selected-domain time now. -/
def State.domNow (s : State) : Nat := s.time64 s.nowC

/-- The windows of a channel start now (R333), and its streams are followed from now on. -/
def State.phRestart (s : State) (c : Nat) : State :=
  let n := gridFrom s.phF0 s.domNow
  let w := s.phasor.win.begin c n
  let known := w.streams.map (·.1)
  let v := s.phSet
  let new := if phEn (v.cfgOf c) then (v.streamsOf c).eraseDups.filter fun st => !known.contains st else []
  { s with phasor := { s.phasor with win := { w with streams := w.streams ++ new.map fun st => (st, PhStream.from0 n) } } }

/-- The settings of the Phasor Unit change at S_c (R333, R336): reports before it stay with the old ones, and the windows of `cs` start. -/
def State.phSwap (s o0 : State) (newGrid : Bool) (cs : List Nat) : State :=
  let now := s.domNow
  let o := o0.phTick
  let v := o.phSet
  let due := v.win.due ++ o.phPending v s.nowC now
  let kept := if newGrid || !o.phasor.running then [] else v.win.streams.filter fun x => s.phSet.used x.1
  let s0 := s.phTick
  let s1 : State := { s0 with phasor := { s0.phasor with
    old := if o.phasor.running && !due.isEmpty then s.phasor.old ++ [{ v with win := { v.win with due := due } }] else s.phasor.old
    running := decide (s.ga Obj.PH_EN = 1) && s.frame.ticking
    nextAt := instantFrom now
    win := { v.win with streams := kept, due := [] } } }
  s1.each cs State.phRestart


/-- PH_STATUS (R342). -/
def State.phStatus (s : State) : Nat :=
  let v := s.phSet
  b2n s.phasor.running * 2147483648
    + b2n (v.on.any fun c => !phClassM (v.cfgOf c) && extP v.f0 v.rate) * 1073741824
    + ((v.on.filter fun c => s.phasor.running && !vget false v.win.filled c).map fun c => 2 ^ c).sum

/-- Objects of the 2840 block that the Phasor Unit holds. -/
def view14 (s : State) (key : Nat) : Option Word := if key = Obj.PH_STATUS then some (w32 s.phStatus) else none

end Sys2Proof.Machine
end

