-- ==== Sys2Proof/Machine/Uplink.lean ====
section
/-! DEFINITION. Uplink trains (R107 to R111, R129): headers, groups of records with where each record goes, the close of a
lane's frame (R173), and long segments. -/
namespace Sys2Proof.Machine

/-! ### The close of a frame (R173) -/


/-- Take the frames that follow `nextClose` out of the list. -/
def advance : Nat → Nat → List Nat → Nat × List Nat
  | 0, n, l => (n, l)
  | f + 1, n, l => if l.contains n then advance f (n + 1) (l.filter (· != n)) else (n, l)

/-- Note that frame `j` has closed. -/
def Route.noteClosed (r : Route) (j : Nat) : Route :=
  if j = r.nextClose then
    let a := advance r.closedAhead.length (j + 1) r.closedAhead
    { r with nextClose := a.1, closedAhead := a.2 }
  else { r with closedAhead := insertNat j r.closedAhead }

/-- Run of missing frames of a position (R119). -/
def Route.missOf (r : Route) (p : Nat) : Nat := tget (fun _ => 0) r.missRun p

/-- A leaf's record for the closing frame is missing (R129, R173). -/
def State.missLeaf (s : State) (n : Nat) (x : Nat × Word) : State :=
  let r := s.route n
  let s1 := (s.addL (Obj.MISS_CNT n) (entSlots x.2)).setRoute n
    { r with missRun := tput (fun _ => 0) r.missRun x.1 (min 65535 (r.missOf x.1 + 1)) }
  if entKind x.2 = 1 ∨ entKind x.2 = 2 then s1.ledgerMiss (entTarget x.2)
  else s1

/-- Frame `j` of lane `n` closes (R173): leaves in `got` were accepted. The streams of the lane go on to every frame before which none is
open any more (R326, R327). -/
def State.closeFrame (s : State) (n j : Nat) (got : List Nat) : State :=
  if !s.inMan n || (s.route n).closed j then s
  else
    let r := (s.route n).noteClosed j
    let from0 := (s.route n).nextClose
    let s1 := s.setRoute n r
    let s2 := ((s1.leaves n).filter fun x => !got.contains x.1).foldl (fun s x => s.missLeaf n x) s1
    s2.each ((List.range (r.nextClose - from0)).map (from0 + ·)) fun s k => s.each (s.laneStreams n) fun s st => s.streamFrame st k

/-- The train being received ends, and its frame closes (R129, R173). -/
def State.endTrain (s : State) (n : Nat) : State :=
  let r := s.route n
  match r.train with
  | none => s
  | some t => (s.setRoute n { r with train := none, recv := [], got := [] }).closeFrame n t.frame r.got

/-- Frames whose last moment S_{j+P} has come close, a train begun for one of them apart (R173). -/
def State.closeDue (s : State) (n : Nat) : State :=
  let lim := s.frame.count + 1 - s.p
  let from0 := (s.route n).nextClose
  ((List.range (lim - from0)).map (from0 + ·)).foldl (fun s j =>
    match (s.route n).train with
    | some t => if t.frame = j then s else s.closeFrame n j []
    | none => s.closeFrame n j []) s

/-- FRAME_CLOSE_TIMEOUT (R173). -/
def execFrameCloseTimeout (n : Fin 32) (s : State) : Host.Outcome State Fault Refusal :=
  .next (if s.frame.ticking then s.closeDue n.val else s)

/-- A check on what a lane received fails: LANE_CRC, or ML_CRC on the Mirror Link, with the lane as resource (R438, R444). -/
def State.laneCrc (s : State) (src n : Nat) : State := (s.noteLaneErr n).raiseAs src (s.faultClass src) n .l

/-! ### Headers (R107, R129) -/

/-- The number at or before `now` whose low 32 bits are given (R129). -/
def extend32 (low now : Nat) : Nat := now - (now + 4294967296 - low % 4294967296) % 4294967296

/-- Own frame of a pair frame number (R414). -/
def State.ownFrame (s : State) (pf : Nat) : Nat := if s.pair.role = .alone then pf else (pf + (18446744073709551616 - s.pair.offset)) % 18446744073709551616


/-- DUAL_ACTIVE (R429). -/
def State.dualActive (s : State) : State := ((s.incL Obj.DUAL_ACTIVE_CNT).irqEdge 12 2).raise 29

/-- What the header of frame `j` reports (R107, R136), and the checks of R429 on it: the frames of a run follow each other, `prev` being the
frame of the header before. -/
def State.headerReport (s : State) (n : Nat) (h : BitVec 128) (prev : Option Nat) (j : Nat) : State :=
  let r := s.route n
  let conflict := h.getLsbD 57
  let s1 := s.setRoute n { r with follow := h.getLsbD 56, conflict := conflict, portLoss := h.getLsbD 58 }
  if s1.pair.role = .active ∧ r.st = .inService then
    let run := if h.extractLsb' 48 8 = s1.pair.epoch then 0
      else if prev.any (fun i => decide (i + 1 = j)) then vget 0 s1.pair.epochDiff n + 1 else 1
    let s2 : State := { s1 with pair := { s1.pair with epochDiff := vset s1.pair.epochDiff n (min 4 run) } }
    if conflict || (decide (run = 4)) then s2.dualActive else s2
  else { s1 with pair := { s1.pair with epochDiff := vset s1.pair.epochDiff n 0 } }

/-- A train with a good header: of a frame already received, or one whose last moment has passed, it counts as late and closes its frame
(R173); of another frame it opens that frame's train (R107, R129). -/
def State.openTrain (s : State) (n : Nat) (header : BitVec 128) : State :=
  let r := s.route n
  let slot := (header.extractLsb' 16 32).toNat
  let j := s.ownFrame (extend32 slot (s.pairFrame s.frame.count))
  let stale : Bool := r.lastSlot.any fun l => decide (j ≤ l)
  if stale || decide (j + s.p ≤ s.frame.count) || decide (s.frame.count < j) then
    let s1 := s.incL (Obj.UP_LATE_CNT n)
    if j ≤ s1.frame.count then s1.closeFrame n j [] else s1
  else
    let cnt := (header.extractLsb' 72 10).toNat
    let tr : UpTrain := { frame := j, slot := slot, count := cnt, fillCnt := (header.extractLsb' 82 10).toNat, long := header.getLsbD 59 }
    let s2 := (s.setRoute n { r with lastSlot := some j, recv := [], got := [], train := some tr }).headerReport n header r.lastSlot j
    if cnt = slotSum (s2.man n).entries then s2 else (s2.incL (Obj.COUNT_ERR_CNT n)).raise 15

/-- UPLINK_TRAIN_RECEIVE (R107, R129); a bad header closes the oldest open frame (R173). -/
def execUplinkTrainReceive (n : Fin 32) (header : BitVec 128) (s : State) : Host.Outcome State Fault Refusal :=
  .next (
    if !s.inMan n.val || !s.inData n.val then s
    else
      let s0 := if (s.route n.val).train.isSome then (s.incL (Obj.EOT_ERR_CNT n.val)).endTrain n.val else s
      if headerOk header 2 then s0.openTrain n.val header
      else
        let j := (s0.route n.val).nextClose
        let s1 := (s0.incL (Obj.UP_HDR_ERR_CNT n.val)).laneCrc 14 n.val
        if j ≤ s1.frame.count then s1.closeFrame n.val j [] else s1)

/-! ### Records (R108 to R110, R129) -/

/-- Hold-offs of the units above an accepted position end (R126). -/
def State.endHoldOff (s : State) (n : Nat) (path : Nat) : State :=
  let r := s.route n
  s.setRoute n { r with holdOff := r.holdOff.filter fun h => !pathUnder h.path path }

/-- A measurement record, checked at `t` (0.25 ns of C), reaches its mailbox entry when it arrives in time and is counted there (R31,
R32, R251, R268), and the stream's consumers always (R326). -/
def State.measRecord (s : State) (n j t : Nat) (st : Nat) (ws : List Word) : State :=
  let w (i : Nat) : Word := ws.getD i 0
  let sj := (s.tickOf j).toNat
  let s1 : State :=
    if s.frame.ticking ∧ s.frame.measClosed = false ∧ t ≤ 4 * (s.frame.tickC + 150) then
      let m : MbxMeas := { words := Vector.ofFn fun (i : Fin 4) => w i.val, frameLo := lo32 j, age := 0, lane := n, arrNs := min 65535 (t / 4 - sj), fresh := true }
      ({ s with cup := { s.cup with mbx := vset s.cup.mbx st m }
                frame := { s.frame with
                  deposited := insertNat st s.frame.deposited
                  gateAt := if s.gates n then max s.frame.gateAt (ceilDiv t 4 - s.frame.tickC) else s.frame.gateAt } } : State).incL Obj.MB_DEPOSIT_CNT
    else s
  let w0 := w 0
  let k := min 6 (fld w0 23 20)
  s1.streamRecord st j ((List.range k).map fun i => sext 16 ((w ((i + 2) / 2)).toNat / 65536 ^ (i % 2) % 65536))
    (nbit w0.toNat 31) (nbit w0.toNat 30 || nbit w0.toNat 28)

/-- The words of a checked group that belong to a grouped unit reach its group buffer (R133), unless the SEQ of its first slot marks the
record as missing (R110). `first` is the unit's position, `seq` that slot's word where it has arrived. -/
def State.groupWords (s : State) (frame : Nat) (x : Nat × Word) (seq : Option Word) (new : List (Nat × Word)) : State :=
  let off := s.na (Obj.GROUP_BUF_OFF (entGroup x.2))
  if seq.any fun w => w.toNat % 16 ≠ s.pairFrame frame % 16 then s
  else (new.filter fun y => decide (x.1 ≤ y.1) && decide (y.1 < x.1 + entSlots x.2)).foldl
    (fun s y => s.wrW (shmAddr (off + 128 + 4 * (y.1 - x.1))) y.2) s

/-- A leaf whose slots have all arrived: its record is accepted or missing (R110, R129). -/
def State.takeRecord (s : State) (n t : Nat) (tr : UpTrain) (x : Nat × Word) (ws : List Word) : State :=
  let w0 := ws.headD 0
  if w0.toNat % 16 ≠ s.pairFrame tr.frame % 16 then s.incIf (decide (tr.fillCnt ≠ 0)) (Obj.FILL_CNT n)
  else
    let r := s.route n
    let s1 := (s.setRoute n { r with got := insertNat x.1 r.got, missRun := tput (fun _ => 0) r.missRun x.1 0 }).endHoldOff n (entPath x.2)
    match entKind x.2 with
    | 1 | 2 =>
      let r1 := s1.route n
      let s2 := s1.setRoute n { r1 with longPending := if nbit w0.toNat 8 then insertNat x.1 r1.longPending else r1.longPending.filter (· != x.1) }
      s2.ledgerRecord (entTarget x.2) w0 tr.frame
    | 3 => s1.measRecord n tr.frame t (entStream x.2) ws
    | _ => s1

/-- The slots `new` of a group, the first at position `base`, join those received; every leaf that they complete is taken. -/
def State.takeGroup (s : State) (n t : Nat) (tr : UpTrain) (base : Nat) (new : List (Nat × Word)) : State :=
  let r := s.route n
  let s1 := s.setRoute n { r with recv := r.recv ++ new }
  let have1 := (s1.route n).recv
  let at1 (p : Nat) : Option Word := (have1.find? fun y => decide (y.1 = p)).map (·.2)
  let s2 := ((s1.leaves n).filter fun x => decide (entKind x.2 = 4)).foldl (fun s x => s.groupWords tr.frame x (at1 x.1) new) s1
  (s2.leaves n).foldl (fun s x =>
    let ps := (List.range (entSlots x.2)).map (x.1 + ·)
    let here := ps.any fun p => decide (base ≤ p) && decide (p < base + new.length)
    if here && ps.all (fun p => (at1 p).isSome) && !(s.route n).got.contains x.1 then
      s.takeRecord n t tr x (ps.map fun p => (at1 p).getD 0)
    else s) s2

/-- UPLINK_GROUP_RECEIVE (R113, R129): group `g` of the train being received; `t` is in 0.25 ns (R78). -/
def execUplinkGroupReceive (n g : Fin 32) (recs : List Word) (crc : Word) (t : Nat) (s : State) : Host.Outcome State Fault Refusal :=
  .next (
    let s0 := s.toC (t / 4)
    match (s0.route n.val).train with
    | none => s0
    | some tr =>
      if crc32c (recs.flatMap fun w => leBytes 4 w.toNat) ≠ crc then (s0.incL (Obj.UP_GROUP_ERR_CNT n.val)).laneCrc 14 n.val
      else s0.takeGroup n.val t tr (16 * g.val) ((recs.take 16).zipIdx.map fun x => (16 * g.val + x.2, x.1)))

/-- UPLINK_TRAIN_END (R106, R173): the block that ended the train, if one did. -/
def execUplinkTrainEnd (n : Fin 32) (eot : Option (BitVec 64)) (s : State) : Host.Outcome State Fault Refusal :=
  .next (
    match (s.route n.val).train with
    | none => s
    | some t => (s.incIf (!eotOk eot 2 t.count t.long t.slot) (Obj.EOT_ERR_CNT n.val)).endTrain n.val)

/-! ### Long segments and discovery replies (R111, R123, R138) -/

/-- A diagnostic long record enters the ring of 64 (R138); FRAME_LO names the frame in progress (log entry 160). -/
def State.longRecord (s : State) (n : Nat) (w0 w1 w2 w3 : Word) : State :=
  let i := s.nl Obj.LONG_RING_WR
  let e : LongEntry := { w0 := w0, w1 := w1, w2 := w2, w3 := w3, lane := n, addr := fld w0 8 0, frameLo := lo32 s.frame.count }
  let s1 : State := { s with routes := { s.routes with longRing := tput (fun _ => ⟨0, 0, 0, 0, 0, 0, 0⟩) s.routes.longRing i e } }
  s1.setLN Obj.LONG_RING_WR ((i + 1) % 64)

/-- CRC-32C of the four words of a long segment or reply. -/
def longCrc (w0 w1 w2 w3 : Word) : Word := crc32c ([w0, w1, w2, w3].flatMap fun w => leBytes 4 w.toNat)

/-- LONG_SEGMENT_RECEIVE (R107, R111, R114, R129): of the train being received, whose header announced it. -/
def execLongSegmentReceive (n : Fin 32) (w0 w1 w2 w3 crc : Word) (t0 t3 : Nat) (s : State) : Host.Outcome State Fault Refusal :=
  .next (
    if !((s.route n.val).train.any fun t => t.long) then s
    else if longCrc w0 w1 w2 w3 ≠ crc then s.incL (Obj.LONG_ERR_CNT n.val)
    else
      let s1 := s.incL (Obj.LONG_RX_CNT n.val)
      if fld w0 31 24 = 1 then s1.longRecord n.val w0 w1 w2 w3
      else if fld w0 31 24 = 2 then s1.discReply n.val w0 w1 w2 w3 t0 t3
      else s1)

/-- DISC_REPLY_RECEIVE (R79, R100, R101, R106, R123): the header, the reply with its CRC, and the block that ended the train. -/
def execDiscReplyReceive (n : Fin 32) (header : BitVec 128) (w0 w1 w2 w3 crc : Word) (eot : Option (BitVec 64)) (t0 t3 : Nat) (s : State) :
    Host.Outcome State Fault Refusal :=
  .next (
    let tag := (header.extractLsb' 16 16).toNat
    if !s.inData n.val || !headerOk header 4 then s
    else
      let s1 := s.incIf (!replyEotOk eot tag) (Obj.EOT_ERR_CNT n.val)
      if longCrc w0 w1 w2 w3 ≠ crc ∨ fld w0 31 24 ≠ 2 ∨ fld w0 23 8 ≠ tag then s1 else s1.discReply n.val w0 w1 w2 w3 t0 t3)

/-- DISC_TIMEOUT (R120). -/
def execDiscTimeout (n : Fin 32) (tag : Nat) (s : State) : Host.Outcome State Fault Refusal := .next (s.discTimeout n.val tag)

/-! ### AUTO_VERIFY and DISC_CTRL (R119, R126, R135) -/

/-- Every position of the unit at a path has been missing for 16 frames (R119). -/
def State.unitMissing (s : State) (n path : Nat) : Bool :=
  let l := (s.leaves n).filter fun x => pathUnder path (entPath x.2)
  !l.isEmpty && l.all fun x => decide (16 ≤ (s.route n).missOf x.1)

/-- AUTO_VERIFY_TRIGGER (R119, R126). -/
def execAutoVerifyTrigger (n : Fin 32) (i : Nat) (s : State) : Host.Outcome State Fault Refusal :=
  .next (
    let r := s.route n.val
    match (s.man n.val).entries[i]? with
    | none => s
    | some e =>
      let held := r.holdOff.any fun h => decide (h.path = entPath e) && decide (s.frame.count < h.frame + 1024)
      if s.ga Obj.AUTO_VERIFY = 1 ∧ s.reachable n.val ∧ r.walk.isNone ∧ s.unitMissing n.val (entPath e) ∧ held = false then
        s.startWalk n.val (.subtree (entPath e))
      else s)

/-- Write of DISC_CTRL (R119, R135). -/
def wrDiscCtrl (n : Nat) (v : Word) (s : State) : WOut :=
  let up := s.inMan n && s.inData n
  if v = 1 then
    if up && (decide (s.mode = .charge) || decide (s.mode = .ready) || decide (s.mode = .test) || decide (s.mode = .safe)) then
      done (s.startWalk n .discovering)
    else refused6 s
  else if v = 2 then (if up then done (s.startWalk n .verifying) else refused6 s)
  else if (s.route n).walk.isSome then done (((s.discResult n 9 0).dropWalk n).setRouteSt n .mismatch).bootAdvance
  else done s

/-- DISC_REDISCOVER (R119, R135). -/
def execDiscRediscover (p : Path) (n : Fin 32) (s : State) : Host.Outcome State Fault Refusal :=
  .next (s.guardWrite p (Obj.DISC_CTRL n.val) 1 (wrDiscCtrl n.val 1))
/-- DISC_VERIFY (R119, R135). -/
def execDiscVerify (p : Path) (n : Fin 32) (s : State) : Host.Outcome State Fault Refusal :=
  .next (s.guardWrite p (Obj.DISC_CTRL n.val) 2 (wrDiscCtrl n.val 2))
/-- DISC_ABORT (R135). -/
def execDiscAbort (p : Path) (n : Fin 32) (s : State) : Host.Outcome State Fault Refusal :=
  .next (s.guardWrite p (Obj.DISC_CTRL n.val) 3 (wrDiscCtrl n.val 3))

/-! ### Objects (R136, R138) -/

/-- ROUTE_STATUS (R136). -/
def Route.status (r : Route) : Nat :=
  b2n r.drift * 2048 + b2n r.conflict * 1024 + b2n r.follow * 512 + b2n r.portLoss * 256 + r.st.code

/-- Objects of 2240 to 2281 that the route controllers hold. -/
def view05 (s : State) (key : Nat) : Option Word :=
  if 0x2240 ≤ key / 256 ∧ key / 256 ≤ 0x225F ∧ key % 256 = 1 then some (w32 (s.route (key / 256 - 0x2240)).status)
  else if key = Obj.UPLINK_STATUS then
    some (w32 (b2n s.routes.upTfMismatch * 4 + b2n s.routes.upTicking * 2 + b2n s.routes.upAssigned))
  else none

end Sys2Proof.Machine
end

