-- ==== Sys2Proof/Machine/Upstream.lean ====
section
/-! DEFINITION. The S9 as a grouped unit (R131, R132, R139 to R141): its upstream port on lane 31, the leaf timer, its slots in
both directions and its answers to discovery. -/
namespace Sys2Proof.Machine

/-- Lane 31 is the upstream port and in DATA (R131). -/
def State.upstream (s : State) : Bool := decide (s.ga Obj.UPLINK_EN = 1) && s.inData 31

/-- Own S_k of the frame in progress in 2^-16 ns of converter time. -/
def State.timerQ (s : State) : Int := (s.frame.tickC : Int) * 65536 + s.routes.upPhase

/-- Set the own S_k of the frame in progress. -/
def State.setTimer (s : State) (q : Int) : State :=
  { s with frame := { s.frame with tickC := (floorDiv q 65536).toNat }, routes := { s.routes with upPhase := (q % 65536).toNat } }

/-- One valid caravan corrects the leaf timer (R140, R141): `e` is the error in 2^-16 ns; `fresh` sets the timer. -/
def State.leafTimer (s : State) (e : Int) (fresh : Bool) : State :=
  let r := s.routes
  if fresh || !r.upLocked then
    let run := if e.natAbs ≤ 131072 then min 4 ((if fresh then 0 else r.upRun) + 1) else 0
    let s1 := s.setTimer (s.timerQ + e)
    { s1 with routes := { s1.routes with upLocked := decide (run = 4) && !fresh, upRun := if run = 4 ∧ fresh = false then 0 else run } }
  else
    let s1 := s.setTimer (s.timerQ + clampInt (-131072) 131072 (floorDiv e 4))
    let rate := clampInt (-300000) 300000 (r.upRate + floorDiv (e * 1000000000) (65536 * 64 * s.tf))
    let run := if 524288 < e.natAbs then r.upRun + 1 else 0
    { s1 with routes := { s1.routes with upRate := rate, upLocked := decide (run < 4), upRun := if run < 4 then run else 0 } }

/-- The slots of a caravan by position: those of a group whose CRC-16 fails are not received (R102, R130). -/
def slotsReceived (groups : List (List (BitVec 16) × BitVec 16)) : List (Option (BitVec 16)) :=
  groups.flatMap fun g =>
    let good := decide (crc16 (g.1.flatMap fun x => leBytes 2 x.toNat) = g.2)
    g.1.map fun x => if good then some x else none

/-- Downlink slots of this unit wait for the tick that executes them (R132). -/
def State.takeSlots (s : State) (own : Nat) (slots : List (Option (BitVec 16))) : State :=
  if s.routes.upAssigned then
    { s with routes := { s.routes with upSlots := s.routes.upSlots ++ [(own, (slots.drop s.routes.ownAddr).take s.routes.ownSlots)] } }
  else s

/-- A SLOT of the last 2^31 has been received (R130). -/
def State.noteSeen (s : State) (slot : Nat) : State :=
  { s with routes := { s.routes with
    upSeen := slot :: s.routes.upSeen.filter fun x => decide ((slot + 4294967296 - x) % 4294967296 < 2147483648) } }

/-- The header of a valid caravan gives EPOCH and ROUTE_ID to the own uplink header (R107). A change of P or T_F leaves the timer FREE,
also when the header's T_F is not the own one (R131, R141). -/
def State.noteHeader (s : State) (header : BitVec 128) : State :=
  let tf10 := (header.extractLsb' 90 12).toNat
  let p := (header.extractLsb' 102 5).toNat
  let change := s.routes.upSeen ≠ [] ∧ (s.routes.upP ≠ p ∨ s.routes.upTf10 ≠ tf10)
  ({ s with routes := { s.routes with
    upEpoch := (header.extractLsb' 56 8).toNat
    upRoute := (header.extractLsb' 64 8).toNat
    upP := p
    upTf10 := tf10
    upLocked := s.routes.upLocked && !change
    upRun := if change then 0 else s.routes.upRun } } : State).noteSeen (header.extractLsb' 16 32).toNat

/-- UPSTREAM_CARAVAN_RECEIVE (R130 to R132, R139 to R141). Of a caravan with another T_F nothing is taken (log entry 159). -/
def execUpstreamCaravanReceive (header : BitVec 128) (groups : List (List (BitVec 16) × BitVec 16)) (eot : Option (BitVec 64)) (t : Nat)
    (s : State) : Host.Outcome State Fault Refusal :=
  .next (
    let s9 := s.toC (t / 4)
    let slot := (header.extractLsb' 16 32).toNat
    if !s9.upstream || !s9.frame.ticking || !headerOk header 1 || s9.routes.upSeen.contains slot then s9
    else
      let slots := slotsReceived groups
      let s8 := s9.incIf (!eotOk eot 1 slots.length false slot) (Obj.EOT_ERR_CNT 31)
      let s0 := s8.noteHeader header
      let tmark := (header.extractLsb' 72 18).toNat
      let tf10 := (header.extractLsb' 90 12).toNat
      let p := (header.extractLsb' 102 5).toNat
      if 10 * tf10 ≠ s0.tf then
        ({ s0 with routes := { s0.routes with upTfMismatch := true } }).faultLevel 16 true
      else
        let s1 := ({ s0 with routes := { s0.routes with upTfMismatch := false } }).faultLevel 16 false
        let d := tmark + s1.routes.ownDelay + s1.routes.ownHome.getD 0
        let at1 : Int := ((t : Int) - d) * 16384
        let per : Int := (s1.tf : Int) * 65536
        let m := floorDiv (at1 - s1.timerQ + per / 2) per
        let e := at1 - s1.timerQ - m * per
        let fresh := s1.routes.upLast.isNone || decide (s8.routes.upP ≠ p) || decide (s8.routes.upTf10 ≠ tf10)
        let own := ((s1.frame.count : Int) + m).toNat
        let s2 := s1.leafTimer e fresh
        let s3 : State := { s2 with routes := { s2.routes with
          upTicking := true, upLast := some s2.frame.count, upDelta := (slot : Int) - p - own } }
        s3.takeSlots (own + p) slots)

/-! ### At the own tick -/

/-- A word of the uplink slots (R132); what lies beyond shared memory is a free value. -/
def State.groupWord (s : State) (off i : Nat) : Word :=
  if off + 4 * i + 4 ≤ 1048576 then s.rdW (shmAddr (off + 4 * i)) else Config.freeWord (s.free + i)

/-- GROUP_UPLINK_SEND (R107, R113, R132, R140): the words of GROUP_TX_OFF, every fourth with the owner's frame number in its low bits,
under the device's own header, 10 ns after its own tick; a discovery reply that waits is the long segment (R120). Trains are sent
while the timer runs, from the first valid caravan on. -/
def State.groupUplink (s : State) : State :=
  if s.upstream && s.routes.upLast.isSome && s.routes.upAssigned then
    let off := s.na Obj.GROUP_TX_OFF
    let own := (((s.frame.count : Int) + s.routes.upDelta) % 4294967296).toNat
    let out : UpOut := {
      slot := own, epoch := s.routes.upEpoch, route := s.routes.upRoute, long := s.routes.upHeld.head?
      recs := (List.range (s.na Obj.GROUP_SLOTS)).map fun i =>
        if i % 4 = 0 then (s.groupWord off i &&& 0xFFFFFFF0) ||| w32 (own % 16) else s.groupWord off i }
    ({ s with
      free := s.free + 64
      routes := { s.routes with upOut := some out, upHeld := s.routes.upHeld.drop 1 } } : State).trainOut 31 out.blocks (s.frame.tickC + 10)
  else s

/-- The slots received reach shared memory as 16-bit words from `off` on (R132); bytes beyond it are stored nowhere. -/
def State.putSlots (s : State) (off : Nat) (l : List (Option (BitVec 16))) : State :=
  l.zipIdx.foldl (fun s x =>
    match x.1 with
    | some w => if off + 2 * x.2 + 2 ≤ 1048576 then s.wrBytes (shmAddr (off + 2 * x.2)) (leBytes 2 w.toNat) else s
    | none => s) s

/-- Downlink slots whose tick this is reach shared memory (R132). -/
def State.groupDownlink (s : State) : State :=
  let k := s.frame.count
  let off := s.na Obj.GROUP_RX_OFF
  let now := s.routes.upSlots.filter fun x => decide (x.1 = k)
  let s1 : State := { s with routes := { s.routes with upSlots := s.routes.upSlots.filter fun x => decide (k < x.1) } }
  now.foldl (fun s x => s.putSlots off x.2) s1

/-- The leaf timer of a unit that has received no valid caravan for 1,024 frames is FREE, and runs on (R140). -/
def State.leafSilence (s : State) : State :=
  match s.routes.upLast with
  | none => s
  | some l =>
    if l + 1024 ≤ s.frame.count then { s with routes := { s.routes with upLocked := false, upRun := 0, upTicking := false } } else s

/-- The own tick that follows: T_F later, at the rate of the leaf timer from the first valid caravan on, whether or not the upstream lane
is in DATA (R19, R140). Answers its time in ns and the part below 1 ns. -/
def State.nextTick (s : State) : Nat × Nat :=
  if s.ga Obj.UPLINK_EN = 1 ∧ s.routes.upLast.isSome then
    let q := s.timerQ + (s.tf : Int) * 65536 + floorDiv ((s.tf : Int) * 65536 * s.routes.upRate) 1000000000
    ((floorDiv q 65536).toNat, (q % 65536).toNat)
  else (s.frame.tickC + s.tf, 0)

/-! ### Discovery (R122, R123, R131) -/

/-- W0 of a reply. -/
def replyW0 (h : BitVec 128) (status : Nat) : Word :=
  w32 (2 * 16777216 + (h.extractLsb' 16 16).toNat * 256 + (h.extractLsb' 48 4).toNat * 16 + status * 2 + b2n (h.getLsbD 46))

/-- A reply of this device (R114, R120, R123): as the long segment of its next uplink train while it sends them and caravans arrive,
else as a DISC_REPLY train at once. -/
def State.sendReply (s : State) (tag : Nat) (ws : List Word) : State :=
  let s1 : State := { s with routes := { s.routes with upReply := ws } }
  if s.routes.upAssigned && s.routes.upLast.any fun l => decide ((s.frame.count - l) * s.tf < 64000) then
    { s1 with routes := { s1.routes with upHeld := s1.routes.upHeld ++ [ws] } }
  else s1.trainOut 31 (replyBlocks tag ws) s.nowC

/-- UPSTREAM_DISC_REQ_RECEIVE (R99, R122, R123, R131). -/
def execUpstreamDiscReqReceive (header : BitVec 128) (turn : Nat) (s : State) : Host.Outcome State Fault Refusal :=
  .next (
    if !s.upstream || !headerOk header 3 || decide (header.extractLsb' 44 2 ≠ 0) then s
    else
      let op := (header.extractLsb' 48 8).toNat
      let arg := (header.extractLsb' 64 56).toNat
      let r := s.routes
      let reply (s : State) (status : Nat) (w1 w2 w3 : Word) : State :=
        s.sendReply (header.extractLsb' 16 16).toNat [replyW0 header status, w1, w2, w3]
      let identity (s : State) : State :=
        reply s 0 (w32 (9 * 16777216 + 0xB0 * 65536 + Config.fwRev.toNat % 65536)) Config.serial (w32 (s.na Obj.GROUP_SLOTS * 64 + b2n r.upAssigned * 32))
      let echo (s : State) (status : Nat) : State := reply s status (w32 arg) 0 0
      match op with
      | 1 => identity s
      | 2 => reply s 0 (w32 turn) 0 (w32 (b2n r.upAssigned * 2147483648 + r.ownHome.getD r.ownDelay))
      | 3 =>
        let addr := arg % 512
        let slots := arg / 512 % 1024
        if 512 < addr + slots then echo s 2
        else echo { s with routes := { r with upAssigned := true, ownAddr := addr, ownSlots := slots, ownDelay := arg / 524288 % 2097152 } } 0
      | 6 => echo { s with routes := { r with ownHome := some (arg % 2097152) } } 0
      | 7 => echo { s with routes := { r with
          upAssigned := false, ownAddr := 0, ownSlots := 0, ownDelay := 0, ownHome := none, upSlots := [] } } 0
      | 8 =>
        if arg % 16 = 0 then identity s
        else
          let a := s.draw
          let b := a.2.draw
          let c := b.2.draw
          reply c.2 0 a.1 b.1 c.1
      | _ => echo s 1)

end Sys2Proof.Machine
end

