-- ==== Sys2Proof/Machine/Lanes.lean ====
section
/-! DEFINITION. The lanes of the SerDes macro (R73 to R96): LANE_CTRL with its refusals, training, leaving DATA, clock
compensation, PRBS and loopbacks. -/
namespace Sys2Proof.Machine

/-! ### References and levels -/

/-- Reference that clocks a lane (R75). -/
def srcOf (n : Nat) : Nat := if n < 16 then 0 else 1
/-- SRCLK_STATUS shows the reference in range. -/
def State.srcOk (s : State) (r : Nat) : Bool := nbit (s.nl Obj.SRCLK_STATUS) r

/-- Group LANES of the cause tree and LANE_DOWN follow the manifest lanes that are not in DATA (R438, R468). -/
def State.laneLevels (s : State) : State :=
  let down := s.downLanes
  (s.each (List.range 32) fun s n => s.irqLevel 3 n (down.contains n)).faultLevel 48 (!down.isEmpty)

/-! ### Leaving DATA (R36, R82) -/

/-- The caravan being sent on a lane is cut (R36). -/
def State.caravanCut (s : State) (n : Nat) : State :=
  match vget none s.routes.sentCar n with
  | none => s
  | some _ =>
    if s.nowC < vget 0 s.routes.sentEnd n then
      let s1 : State := { s with routes := { s.routes with sentCar := vset s.routes.sentCar n none } }
      ((s1.incL Obj.CARAVAN_CUT_CNT).irqEdge 2 2).raise 51
    else s

/-- The lane's receiver starts again: no clock, no block boundary, no loop. After eight failed full retrainings it waits in CDR_ACQ
before each further attempt (R83). -/
def Lane.restart (l : Lane) (st : LaneState) (fast : Bool) : Lane :=
  { l with
    st := st
    fast := fast
    cdrLock := false
    blockLock := false
    prbsLock := false
    looping := false
    waiting := decide (st = .cdrAcq) && decide (8 ≤ l.fails) }

/-- The lane goes to another state; one that leaves DATA so counts the departure, its caravan is cut, the train being received
ends, its couriers are dropped and its route is DOWN (R36, R82, R119, R129, R148). -/
def State.laneTo (s : State) (n : Nat) (f : Lane → Lane) : State :=
  let was := s.inData n
  let s1 := if was then (s.incL (Obj.RETRAIN_CNT n)).caravanCut n else s
  let l := s1.lane n
  let s2 := s1.setLane n { f (if was then { l with left := some (s1.nowC, 0) } else l) with since := s1.nowC }
  let s3 := if was && decide (n < 32) then ((s2.endTrain n).dropCouriers n).routeLost n else s2
  s3.laneLevels

/-- The lane leaves DATA with a retraining cause: the lowest of one block boundary is recorded (R82, R84). -/
def Lane.because (l : Lane) (cause : Nat) : Lane :=
  match l.left with
  | none => { l with lastCause := cause }
  | some (c, k) =>
    let low := if k = 0 then cause else min k cause
    { l with lastCause := low, left := some (c, low) }

/-- A retraining with its cause (R82): fast where it may be and the coefficients are valid. A second cause at the boundary at which the
lane has just left DATA joins the first, and a full retraining prevails (R84, log entry 119); any other on a lane that trains is
absorbed. -/
def State.retrain (s : State) (n cause : Nat) (mayFast : Bool) : State :=
  let l := s.lane n
  if s.inData n then s.laneTo n fun l => (l.restart .cdrAcq (mayFast && l.eqValid)).because cause
  else if l.left.any fun x => x.1 = s.nowC then
    s.setLane n { l.because cause with fast := l.fast && (mayFast || decide (l.st ≠ .cdrAcq)) }
  else s

/-! ### LANE_CTRL (R84, R85, R87 to R90, R94) -/

/-- Fields of LANE_CTRL. -/
def ctrlEn (v : Word) : Bool := nbit v.toNat 0
def ctrlLoop (v : Word) : Nat := fld v 12 10
def ctrlPrbs (v : Word) : Bool := nbit v.toNat 7 || nbit v.toNat 6

/-- A code that R94 does not list for the lane; Ethernet lanes offer PRBS7, loops 1 to 3 and no retraining (R92). -/
def ctrlUnlisted (n : Nat) (v : Word) : Bool :=
  decide (5 ≤ ctrlLoop v) || (decide (ctrlLoop v = 2) && ctrlPrbs v)
    || (decide (32 ≤ n) && decide (ctrlLoop v = 4))
    || (decide (34 ≤ n) && (decide (2 ≤ fld v 9 8) || decide (fld v 4 3 ≠ 0)))

/-- The refusals of R87 and R92 that depend on the state. -/
def State.ctrlRefused (s : State) (n : Nat) (old v : Word) : Bool :=
  let guarded := (decide (n < 32) && decide ((s.manifest n).entries ≠ []) && (decide (s.mode = .run) || decide (s.mode = .ridethrough)))
    || ((decide (n = 32) || decide (n = 33)) && decide (s.ga Obj.PAIR_EN = 1) && decide (s.mode ≠ .test))
  (guarded && ((ctrlEn old && !ctrlEn v) || ctrlPrbs v || decide (ctrlLoop v ≠ 0) || decide (fld v 4 3 ≠ 0)))
    || (ctrlEn old && decide (fld old 2 1 ≠ fld v 2 1))

/-- Test state that the fields select (R88, R90); `none` for normal operation. -/
def testState (v : Word) : Option LaneState :=
  if ctrlLoop v ≠ 0 then some .loopback else if ctrlPrbs v then some .prbs else none

/-- The state an enabled lane takes up: the test state, else training. -/
def startState (v : Word) : LaneState := (testState v).getD .cdrAcq

/-- The retraining cause that a write of LANE_CTRL requests, the lowest of the two; 0 for none (R84, R94). -/
def ctrlCause (v : Word) : Nat := if nbit v.toNat 3 then 5 else if nbit v.toNat 4 then 6 else 0

/-- A departure by LANE_CTRL records the cause that the same write requests and that is absorbed (R84). -/
def Lane.absorb (l : Lane) (v : Word) : Lane :=
  if ctrlCause v ≠ 0 ∧ l.left.isSome ∧ l.st = .data then l.because (ctrlCause v) else l

/-- From the release of RESET_N until an image is loaded every Waljor lane is DISABLED (R86, log entry 122). -/
def State.laneHeld (s : State) (n : Nat) : Bool :=
  decide (n < 32) && (s.boot.provisioning || [BootStep.clocks, .fuses, .march, .headers, .payload, .watchtowerFail, .memoryFail, .noImage,
    .configRefused].contains s.boot.step)

/-- Order and second tap of the polynomial that PRBS_SEL selects (R88, R94); none selects no pattern. -/
def prbsTaps (sel : Nat) : Option (Nat × Nat) :=
  match sel with
  | 1 => some (7, 6)
  | 2 => some (15, 14)
  | 3 => some (31, 28)
  | _ => none

/-- PRBS_SEL of a lane. -/
def State.prbsSel (s : State) (n : Nat) : Nat := fld (s.gl (Obj.LANE_CTRL n)) 9 8
/-- The generator makes a pattern. -/
def State.generating (s : State) (n : Nat) : Bool := nbit (s.nl (Obj.LANE_CTRL n)) 7 && (prbsTaps (s.prbsSel n)).isSome

/-- The lane's own generated pattern returns to its checker: loops 0b001 and 0b100 (R90). -/
def State.patternReturns (s : State) (n : Nat) : Bool :=
  decide ((s.lane n).st = .loopback) && s.generating n && [1, 4].contains (ctrlLoop (s.gl (Obj.LANE_CTRL n)))

/-- `k` bits in error at a checker (R89): PRBS_ERR saturates. -/
def State.prbsErr (s : State) (n k : Nat) : State :=
  s.setLN (Obj.PRBS_ERR n) (min 4294967295 (s.nl (Obj.PRBS_ERR n) + k))

/-- INJECT_ERR inverts one bit that the generator makes (R88): a locked checker to which the pattern returns counts it. -/
def State.injectErr (s : State) (n : Nat) : State :=
  if (s.lane n).prbsLock && s.patternReturns n then s.prbsErr n 1 else s

/-- A write of LANE_CTRL that leaves the lane in its state: a checker that is switched off is no longer locked, and another loop is
selected from now on (R88 to R90). -/
def Lane.tuned (l : Lane) (old v : Word) (now : Nat) : Lane :=
  { l with
    prbsLock := l.prbsLock && nbit v.toNat 6
    since := if ctrlLoop old = ctrlLoop v then l.since else now }

/-- The one transition of a LANE_CTRL write at its block boundary (R84). The failures counted by R83 end with a disable (log entry
115). -/
def State.ctrlAct (s : State) (n : Nat) (old v : Word) : State :=
  let held := !s.srcOk (srcOf n)
  if s.laneHeld n then s
  else if !ctrlEn v then
    if ctrlEn old then
      s.laneTo n fun l => { ({ l.absorb v with fails := 0 }).restart .disabled false with eqValid := false, los := false }
    else s
  else if !ctrlEn old || decide (testState v ≠ testState old) then
    s.laneTo n fun l => (l.absorb v).restart (if held then .cdrAcq else startState v) false
  else
    let s0 := s.setLane n ((s.lane n).tuned old v s.nowC)
    let s1 := if nbit v.toNat 5 then s0.injectErr n else s0
    if ctrlCause v = 0 then s1 else s1.retrain n (ctrlCause v) (!nbit v.toNat 4)

/-- What LANE_CTRL keeps of a written word: a disabled lane drops its test settings (R85, R94). -/
def ctrlKeep (v : Word) : Word := if ctrlEn v then v &&& 0x1FC7 else v &&& 0x6

/-- Write of LANE_CTRL (R84, R87, R94). -/
def wrLaneCtrl (n : Nat) (v : Word) (s : State) : WOut :=
  let old := s.gl (Obj.LANE_CTRL n)
  if ctrlUnlisted n v then (s.incL (Obj.LANE_CTRL_REFUSED_CNT n), 3)
  else if s.ctrlRefused n old v then (s.incL (Obj.LANE_CTRL_REFUSED_CNT n), 6)
  else done ((s.setL (Obj.LANE_CTRL n) (ctrlKeep v)).ctrlAct n old v)

/-- A LANE_CTRL write that changes some fields of the register as it stands. -/
def State.ctrlWrite (s : State) (p : Path) (n : Nat) (f : Nat → Nat) : State :=
  let v := w32 (f (s.nl (Obj.LANE_CTRL n)))
  s.guardWrite p (Obj.LANE_CTRL n) v (wrLaneCtrl n v)

/-- A number with the bits from `lsb` on replaced, `w` of them. -/
def setField (x lsb w y : Nat) : Nat := x / 2 ^ (lsb + w) * 2 ^ (lsb + w) + y % 2 ^ w * 2 ^ lsb + x % 2 ^ lsb

/-- LANE_ENABLE (R85). -/
def execLaneEnable (p : Path) (n : Fin 38) (s : State) : Host.Outcome State Fault Refusal :=
  .next (s.ctrlWrite p n.val fun x => setField x 0 1 1)
/-- LANE_DISABLE (R85). -/
def execLaneDisable (p : Path) (n : Fin 38) (s : State) : Host.Outcome State Fault Refusal :=
  .next (s.ctrlWrite p n.val fun x => setField x 0 1 0)
/-- LANE_PRBS_SET (R88). -/
def execLanePrbsSet (p : Path) (n : Fin 38) (gen chk : Bool) (sel : BitVec 2) (s : State) : Host.Outcome State Fault Refusal :=
  .next (s.ctrlWrite p n.val fun x => setField x 6 4 (b2n chk + 2 * b2n gen + 4 * sel.toNat))
/-- LANE_LOOPBACK_SET (R90). -/
def execLaneLoopbackSet (p : Path) (n : Fin 38) (code : BitVec 3) (s : State) : Host.Outcome State Fault Refusal :=
  .next (s.ctrlWrite p n.val fun x => setField x 10 3 code.toNat)
/-- LANE_INJECT_ERR (R88). -/
def execLaneInjectErr (p : Path) (n : Fin 38) (s : State) : Host.Outcome State Fault Refusal :=
  .next (s.ctrlWrite p n.val fun x => setField x 5 1 1)
/-- RETRAIN_FULL (R82). -/
def execRetrainFull (p : Path) (n : Fin 38) (s : State) : Host.Outcome State Fault Refusal :=
  .next (s.ctrlWrite p n.val fun x => setField x 4 1 1)
/-- RETRAIN_FAST (R82). -/
def execRetrainFast (p : Path) (n : Fin 38) (s : State) : Host.Outcome State Fault Refusal :=
  .next (s.ctrlWrite p n.val fun x => setField x 3 1 1)
/-- LANE_POLARITY_SET (R87). -/
def execLanePolaritySet (p : Path) (n : Fin 38) (tx rx : Bool) (s : State) : Host.Outcome State Fault Refusal :=
  .next (s.ctrlWrite p n.val fun x => setField x 1 2 (b2n rx + 2 * b2n tx))

/-! ### Training (R80, R83) -/

/-- A step of the training: the lane is in `st` and goes on as `f` says. -/
def State.trainStep (s : State) (n : Nat) (st : LaneState) (f : Lane → Lane) : State :=
  if (s.lane n).st = st then s.setLane n (f (s.lane n)) else s

/-- The recovered clock is locked: CDR_ACQ goes on, and a lane under test stays in its state (R80, R95). -/
def Lane.clockLocked (l : Lane) : Lane :=
  match l.st with
  | .cdrAcq => { l with cdrLock := true, los := false, st := if l.fast then .blockAcq else .eqAdapt }
  | .prbs | .loopback => { l with cdrLock := true, los := false }
  | _ => l

/-- CDR_LOCK (R80): not while the reference is lost or the wait of R83 runs. -/
def execCdrLock (n : Fin 38) (s : State) : Host.Outcome State Fault Refusal :=
  .next (if !s.srcOk (srcOf n.val) || (s.lane n.val).waiting then s else s.setLane n.val (s.lane n.val).clockLocked)

/-- EQ_ADAPT_DONE (R80). -/
def execEqAdaptDone (n : Fin 38) (s : State) : Host.Outcome State Fault Refusal :=
  .next (s.trainStep n.val .eqAdapt fun l => { l with eqValid := true, st := .blockAcq })

/-- BLOCK_LOCK (R80): an Ethernet lane has no TRAIN exchange and carries data from here on (R92). -/
def execBlockLock (n : Fin 38) (s : State) : Host.Outcome State Fault Refusal :=
  .next (s.trainStep n.val .blockAcq fun l => { l with blockLock := true, st := if n.val < 34 then .trainExch else .data })

/-- LANE_ENTER_DATA (R77, R80, R119). -/
def execLaneEnterData (n : Fin 34) (s : State) : Host.Outcome State Fault Refusal :=
  .next (
    let l := s.lane n.val
    if l.st ≠ .trainExch then s
    else
      let s1 := s.setLane n.val { l with
        st := .data, fails := 0, waiting := false, fill := 8, fast := false, los := false, since := s.nowC, left := none
        ccRun := 0, ccFrom := s.nowC * 100 }
      let s2 := s1.laneLevels
      if n.val < 32 then s2.routeUp n.val (!l.fast) else s2)

/-- A full training has failed, or a fast one has become full (R83). -/
def Lane.again (l : Lane) : Lane :=
  let fails := if l.fast then l.fails else min 8 (l.fails + 1)
  ({ l with fails := fails }).restart .cdrAcq false

/-- TRAIN_EXCH_TIMEOUT (R82, R83). -/
def execTrainExchTimeout (n : Fin 34) (s : State) : Host.Outcome State Fault Refusal :=
  .next (s.trainStep n.val .trainExch fun l => { l.again with lastCause := 7 })

/-- The lane trains. -/
def Lane.training (l : Lane) : Bool :=
  decide (l.st = .cdrAcq) || decide (l.st = .eqAdapt) || decide (l.st = .blockAcq) || decide (l.st = .trainExch)

/-- FAST_RETRAIN_TIMEOUT (R83). -/
def execFastRetrainTimeout (n : Fin 34) (s : State) : Host.Outcome State Fault Refusal :=
  .next (
    let l := s.lane n.val
    if l.fast && l.training then s.setLane n.val { l.restart .cdrAcq false with eqValid := false } else s)

/-- RETRAIN_BACKOFF_EXPIRE (R83). -/
def execRetrainBackoffExpire (n : Fin 34) (s : State) : Host.Outcome State Fault Refusal :=
  .next (s.setLane n.val { s.lane n.val with waiting := false })

/-! ### Causes (R82) -/

/-- A device that loops its upstream line stops looping and retrains (R91); the cause shown is that of R82 (log entry 116). -/
def State.stopLoop (s : State) (n cause : Nat) : State :=
  s.setLane n { (s.lane n).restart .cdrAcq false with lastCause := cause }

/-- LOS_DETECT (R82, R91). -/
def execLosDetect (n : Fin 38) (dur t : Nat) (s : State) : Host.Outcome State Fault Refusal :=
  .next (
    let s0 := s.toC t
    let l := s0.lane n.val
    if l.st = .disabled then s0
    else
      let s1 := (s0.incIf (!l.los) (Obj.LOS_CNT n.val)).setLane n.val { l with los := true }
      if l.looping then (if 1000000 ≤ dur then s1.stopLoop n.val 1 else s1)
      else s1.retrain n.val 1 false)

/-- BLOCK_LOCK_LOSS (R77, R82). -/
def execBlockLockLoss (n : Fin 34) (t : Nat) (s : State) : Host.Outcome State Fault Refusal := .next ((s.toC t).retrain n.val 2 true)
/-- HI_BER (R82). -/
def execHiBer (n : Fin 34) (t : Nat) (s : State) : Host.Outcome State Fault Refusal := .next ((s.toC t).retrain n.val 3 true)
/-- TRAIN_BLOCK_RECEIVE (R82, R91). -/
def execTrainBlockReceive (n : Fin 34) (fast : Bool) (run t : Nat) (s : State) : Host.Outcome State Fault Refusal :=
  .next (
    let s1 := s.toC t
    let s0 := s1.setLane n.val { s1.lane n.val with peerFast := fast }
    if (s0.lane n.val).looping then (if 64 ≤ run then s0.stopLoop n.val 4 else s0)
    else s0.retrain n.val 4 fast)

/-- CC_BLOCK_RECEIVE (R77). -/
def execCcBlockReceive (n : Fin 34) (fill : Nat) (s : State) : Host.Outcome State Fault Refusal :=
  .next (
    if !s.inData n.val then s
    else
      let slip := decide (10 < fill) || decide (fill < 6)
      let now := if 10 < fill then fill - 1 else if fill < 6 then fill + 1 else fill
      (s.incIf slip (Obj.CC_SLIP_CNT n.val)).setLane n.val { s.lane n.val with fill := now })

/-- UNKNOWN_CONTROL_BLOCK (R74): a lane that decodes blocks counts and discards it. -/
def execUnknownControlBlock (n : Fin 34) (s : State) : Host.Outcome State Fault Refusal :=
  .next (s.incIf (s.lane n.val).blockLock (Obj.BLOCK_ERR_CNT n.val))

/-! ### References (R75) -/

/-- A lane whose reference is lost is held in CDR_ACQ (R75). -/
def State.holdLane (s : State) (n : Nat) : State :=
  if (s.lane n).st = .disabled then s else s.laneTo n fun l => l.restart .cdrAcq false

/-- SRCLK_LOSS (R75). -/
def execSrclkLoss (src : Fin 2) (t : Nat) (s : State) : Host.Outcome State Fault Refusal :=
  .next (
    let s0 := s.toC t
    if !s0.srcOk src.val then s0
    else
      let s1 := ((s0.setL Obj.SRCLK_STATUS (bset (s0.gl Obj.SRCLK_STATUS) src.val false)).incL Obj.SRCLK_LOSS_CNT).sdPllLock src.val false
      ((s1.faultLevel 13 true).each (idxs 38 fun n => decide (srcOf n = src.val)) State.holdLane))

/-- SRCLK_RESTORE (R75): a lane with a test setting returns to it. -/
def execSrclkRestore (src : Fin 2) (s : State) : Host.Outcome State Fault Refusal :=
  .next (
    let s1 := (s.setL Obj.SRCLK_STATUS (bset (s.gl Obj.SRCLK_STATUS) src.val true)).sdPllLock src.val true
    (s1.faultLevel 13 (decide (s1.nl Obj.SRCLK_STATUS ≠ 3))).each (idxs 38 fun n => decide (srcOf n = src.val)) fun s n =>
      match testState (s.gl (Obj.LANE_CTRL n)) with
      | some st => if (s.lane n).st = .cdrAcq then s.setLane n { s.lane n with st := st, since := s.nowC } else s
      | none => s)

/-! ### PRBS (R88, R89) -/

/-- The next state of the generator: the last 31 bits made, the newest in bit 0; an injected error inverts the bit on the line and not
this one (R88). -/
def prbsNext (sel : Nat) (x : BitVec 31) : BitVec 31 :=
  match prbsTaps sel with
  | none => x
  | some (a, b) => (x <<< 1) ||| BitVec.ofNat 31 (b2n (x.getLsbD (a - 1) ^^ x.getLsbD (b - 1)))

/-- The last 64 of the received bits, the newest in bit 0, follow the selected polynomial from the bits before them: the checker that
seeds itself from the line finds none in error (R88, R89). -/
def prbsClean (sel : Nat) (w : BitVec 95) : Bool :=
  match prbsTaps sel with
  | none => false
  | some (a, b) => (List.range 64).all fun i => w.getLsbD i == (w.getLsbD (i + a) ^^ w.getLsbD (i + b))

/-- The checker runs on the lane. -/
def State.checking (s : State) (n : Nat) : Bool :=
  nbit (s.nl (Obj.LANE_CTRL n)) 6 && (decide ((s.lane n).st = .prbs) || decide ((s.lane n).st = .loopback))

/-- The bits that the checker has received while locked, and those of them in error, since they were last counted (R89): a checker that
has lost its lock in between still counts the bits before. -/
def State.countBits (s : State) (n bits errs : Nat) : State :=
  let l := s.lane n
  if l.prbsLock || l.prbsDue then
    (s.setLane n { l with prbsBits := (l.prbsBits + bits) % 2 ^ 64, prbsDue := l.prbsLock }).prbsErr n errs
  else s

/-- PRBS_LOCK (R89): the last 95 bits received, of which 64 are compared. -/
def execPrbsLock (n : Fin 38) (w : BitVec 95) (s : State) : Host.Outcome State Fault Refusal :=
  .next (
    if s.checking n.val && prbsClean (s.prbsSel n.val) w then
      s.setLane n.val { s.lane n.val with prbsLock := true, prbsDue := true }
    else s)

/-- PRBS_RESYNC (R89). -/
def execPrbsResync (n : Fin 38) (bits errs : Nat) (s : State) : Host.Outcome State Fault Refusal :=
  .next (
    if (s.lane n.val).prbsLock then
      let s1 := (s.countBits n.val bits errs).incL (Obj.PRBS_RESYNC_CNT n.val)
      s1.setLane n.val { s1.lane n.val with prbsLock := false, prbsDue := false }
    else s)

/-- The latches that a read of PRBS_BITS_LO sets (R9, R89). -/
def State.readPrbsLo (s : State) (p : Path) (n : Nat) : State :=
  let s1 := s.latchHigh p (Obj.PRBS_BITS_HI n) (hi32 (s.lane n).prbsBits)
  s1.setWide p { s1.wideOf p with prbsErr := some (Obj.PRBS_ERR n, s1.gl (Obj.PRBS_ERR n)) }

/-- PRBS_BITS_LO_READ (R89). -/
def execPrbsBitsLoRead (p : Path) (n : Fin 38) (bits errs : Nat) (s : State) : Host.Outcome State Fault Refusal :=
  .next ((s.countBits n.val bits errs).readPrbsLo p n.val)

/-- Write of 0 to PRBS_ERR (R93). -/
def wrPrbsErr (n : Nat) (s : State) : WOut :=
  done ((s.setL (Obj.PRBS_ERR n) 0).setLane n { s.lane n with prbsBits := 0, prbsDue := (s.lane n).prbsLock })

/-! ### Loop of the upstream port (R91) -/

/-- LOOP_BLOCK_RECEIVE (R91): after 64 in a row that its upstream port decodes, in DATA or in training, the device loops its line bits
back and goes on decoding. -/
def execLoopBlockReceive (run : Nat) (s : State) : Host.Outcome State Fault Refusal :=
  .next (
    if s.na Obj.UPLINK_EN = 1 ∧ (s.lane 31).blockLock ∧ ¬ (s.lane 31).looping ∧ 64 ≤ run then
      s.laneTo 31 fun l => { l with st := .loopback, looping := true }
    else s)

/-! ### What a lane sends and receives (R80, R81, R85, R88, R90, R92) -/

/-- What stands on the transmitter's pins. -/
inductive LaneTx where
  /-- Both outputs at common mode, below 30 mVppd. -/
  | off
  | train (block : BitVec 64)
  /-- Trains, couriers, beacons and IDLE of the protocol; on Ethernet lanes its line code. -/
  | blocks
  | idle
  /-- The pattern of PRBS_SEL. -/
  | pattern (sel : Nat)
  /-- A static 0b01 sync header stream. -/
  | sync
  | loop
  /-- The received line bits. -/
  | received
  deriving DecidableEq, Repr

/-- Where the receiver takes its bits from. -/
inductive LaneRx where
  | line
  /-- The serialiser's output, inside the macro. -/
  | serialiser
  /-- The transmit blocks, before the serialiser. -/
  | txBlocks
  deriving DecidableEq, Repr

/-- The device trains lane 31 as tail (R86). -/
def State.isTail (s : State) (n : Nat) : Bool := decide (n = 31) && decide (s.na Obj.UPLINK_EN = 1)

/-- The TRAIN block that the lane sends (R74, R80): ROLE, READY in TRAIN_EXCH, FAST or its echo (R81), and the lane's number, 0xFF for
a device that trains as a unit (log entry 120). -/
def State.trainBlock (s : State) (n : Nat) : BitVec 64 :=
  let l := s.lane n
  let tail := s.isTail n
  let role := if 32 ≤ n then 3 else if tail then 2 else 1
  let num := if tail then 0xFF else if 32 ≤ n then n - 32 else n
  BitVec.ofNat 64 (role * 2 ^ 56 + b2n (decide (l.st = .trainExch)) * 2 ^ 55 + b2n (if tail then l.peerFast else l.fast) * 2 ^ 54
    + num * 2 ^ 40 + 0x33)

/-- What the lane's transmitter sends at C = `c` ns. -/
def State.laneTx (s : State) (n c : Nat) : LaneTx :=
  let l := s.lane n
  let gen : LaneTx := if s.generating n then .pattern (s.prbsSel n) else .sync
  match l.st with
  | .disabled => .off
  | .cdrAcq | .eqAdapt | .blockAcq | .trainExch => if n < 34 then .train (s.trainBlock n) else .blocks
  | .data => .blocks
  | .prbs => gen
  | .loopback =>
    if l.looping then .received
    else match ctrlLoop (s.gl (Obj.LANE_CTRL n)) with
      | 1 => .off
      | 2 => .idle
      | 3 => .received
      | _ => if c * 100 < l.since * 100 + 256 * blockTime then .loop else gen

/-- Where the lane's receiver takes its bits from (R90). -/
def State.laneRx (s : State) (n : Nat) : LaneRx :=
  if (s.lane n).st = .loopback then
    match ctrlLoop (s.gl (Obj.LANE_CTRL n)) with
    | 1 => .serialiser
    | 2 => .txBlocks
    | _ => .line
  else .line

/-! ### Objects (R93 to R96) -/

/-- LANE_STATUS (R95). -/
def State.laneStatus (s : State) (n : Nat) : Nat :=
  let l := s.lane n
  b2n (s.srcOk (srcOf n)) * 262144 + b2n l.prbsLock * 131072 + b2n l.los * 65536 + b2n l.blockLock * 32768 + b2n l.cdrLock * 16384
    + l.lastCause * 2048 + b2n l.eqValid * 1024 + l.st.code

/-- Objects of 2200 to 2230 that the macro holds. -/
def view04 (s : State) (key : Nat) : Option Word :=
  let n := key / 256 - 0x2200
  if 0x2200 ≤ key / 256 ∧ key / 256 ≤ 0x2225 then
    if key % 256 = 2 then some (w32 (s.laneStatus n))
    else if key % 256 = 7 then some (lo32 (s.lane n).prbsBits)
    else if key % 256 = 8 then some (hi32 (s.lane n).prbsBits)
    else if 34 ≤ n ∧ (key % 256 = 3 ∨ key % 256 = 0xA) then some 0
    else none
  else if key = Obj.LANE_DATA_MASK then some (w32 ((idxs 32 s.inData).map fun i => 2 ^ i).sum)
  else if key = Obj.LANE_ENABLED_MASK then some (w32 ((idxs 32 fun i => ctrlEn (s.gl (Obj.LANE_CTRL i))).map fun i => 2 ^ i).sum)
  else none

end Sys2Proof.Machine
end

