-- ==== Sys2Proof/Machine/Time.lean ====
section
/-! DEFINITION. The time controller (R307 to R325): PTP on EN2 and EN3, the two domain servos, converter time, and PPS. -/
namespace Sys2Proof.Machine

/-! ### Domains -/

/-- Port in use by a domain, as bit number of PORTS. -/
def Dom.master (x : Dom) : Option Master := if x.portChosen then (if x.port3 then x.master3 else x.master2) else none

/-- The domain is usable (R312). -/
def Dom.usable (x : Dom) : Bool :=
  decide (x.st = .locked) || (decide (x.st = .holdover) && x.wasLocked && !x.expired)

/-- Domain A runs in PPS mode (R314, R321). -/
def State.ppsMode (s : State) (d : Nat) : Bool := decide (s.ga (Obj.DOM_SRC d) = 1)

/-- TRACEABLE as it should stand (R318). -/
def State.traceNow (s : State) : Bool :=
  let x := s.dom s.selDom
  x.usable && (s.ppsMode s.selDom || (match x.master with
    | some m => m.ptpTimescale
    | none => false))

/-- The source of PPS_OUT and CLK10_OUT drives them (R322). -/
def State.ppsDriven (s : State) : Bool :=
  let free := decide (s.ga Obj.PPS_OUT_FREE = 1)
  match s.na Obj.PPS_OUT_SRC with
  | 0 => false
  | 1 => (s.dom 0).usable || free
  | 2 => (s.dom 1).usable || free
  | 3 => (s.dom s.selDom).usable || free
  | _ => true

/-- What follows from the states of the domains (R317, R318, R322): C_OFF counts from the first usable domain on, TRACEABLE follows the
selected one, and a pulse of PPS_OUT ends when its source no longer drives it. -/
def State.timeLevels (s : State) : State :=
  let s1 : State := { s with time := { s.time with used := s.time.used || (s.dom 0).usable || (s.dom 1).usable } }
  let t := s1.traceNow
  let s2 := (({ s1 with time := { s1.time with traceable := t, ppsOut := s1.time.ppsOut && s1.ppsDriven } }).noteOff.noteTrace).offStep s
  if s.time.traceable && !t then (s2.irqEdge 10 3).raise 26 else s2

/-- A domain's new state (R312), with the cause tree, the alarm and the run of LOCKED. -/
def State.putDom (s : State) (d : Nat) (x : Dom) : State :=
  let old := (s.dom d).st
  let locks := decide (x.st = .locked) && decide (old ≠ .locked)
  let x1 : Dom := if locks then { x with expired := false, wasLocked := true, lockedSince := some s.nowL }
    else if x.st = .locked then x else { x with lockedSince := none }
  let s1 := (s.setDom d x1).irqIf (decide (x.st ≠ old)) 10 d
  let alarm := decide (x.st = .offsetAlarm) && decide (old ≠ .offsetAlarm)
  let hold := decide (x.st = .holdover) && decide (old ≠ .holdover)
  let s2 := (((s1.incIf alarm (Obj.OFFSET_ALARM_CNT d)).raiseIf alarm (22 + d)).incIf hold (Obj.HOLDOVER_CNT d)).timeLevels
  if locks then s2.bootAdvance else s2


/-- The servo on an offset of a stepped domain (R313). -/
def State.servoTrack (s : State) (d : Nat) (x : Dom) (o : Int) : Dom :=
  let lim := s.rateLimit d
  let thr : Int := (s.na (Obj.LOCK_THR_NS d) : Nat)
  let n := s.na (Obj.LOCK_COUNT d)
  let inn := decide ((o.natAbs : Int) ≤ thr)
  let x1 : Dom := { x with inRun := if inn then x.inRun + 1 else 0, outRun := if inn then 0 else x.outRun + 1 }
  if s.na (Obj.STEP_THR_NS d) < o.natAbs then { x1 with st := .offsetAlarm, rate := x.integ + (if o < 0 then -lim else lim) }
  else
    let dt : Int := max 1 (s.nowL - x.lastOff.getD 0 : Nat)
    let i := x.integ + floorDiv (s.na (Obj.SERVO_KI d) * o * 1000000000) dt
    let r := clampInt (-lim) lim (i + floorDiv (s.na (Obj.SERVO_KP d) * o * 1000000000) dt)
    let st : DomState := if n ≤ x1.inRun then .locked
      else if x.st ≠ .locked ∨ n ≤ x1.outRun then .tracking else .locked
    { x1 with integ := i, rate := r, st := st }

/-- The servo on an offset of a domain that has not been stepped (R313). -/
def State.servoAcquire (s : State) (d : Nat) (x : Dom) (o : Int) : Dom :=
  let n := s.na (Obj.LOCK_COUNT d)
  let l := ((o, s.nowL) :: x.offs).take n
  let mx := l.foldl (fun m y => max m y.1) o
  let mn := l.foldl (fun m y => min m y.1) o
  if l.length = n ∧ mx - mn ≤ s.na (Obj.ACQ_SPREAD_NS d) then
    let first := l.getLastD (o, s.nowL)
    let dt : Int := max 1 (s.nowL - first.2 : Nat)
    let r := clampInt (-(s.rateLimit d)) (s.rateLimit d) (floorDiv ((o - first.1) * 65536000000000) dt)
    { x with rate := r, integ := r, ctr := ((x.ctr : Int) + o * 4294967296).toNat, stepped := true, stepL := s.nowL
             st := .tracking, offs := [], inRun := 0, outRun := 0 }
  else { x with st := .acquiring, offs := l }

/-- A valid offset of a domain, now (R313). -/
def State.servo (s : State) (d : Nat) (o : Int) : State :=
  let x := s.dom d
  let y := if x.stepped then s.servoTrack d x o else s.servoAcquire d x o
  s.putDom d { y with lastOff := some s.nowL, offsetNs := clampInt (-2147483648) 2147483647 o }

/-! ### Messages (R309 to R311) -/

/-- Domain that an enabled port serves with a PTP domain number. -/
def State.ptpDom (s : State) (port3 : Bool) (domain : Nat) : Option Nat :=
  (List.range 2).find? fun d => decide (s.ga (Obj.DOM_EN d) = 1) && decide (s.ga (Obj.DOM_SRC d) = 0)
    && decide (s.na (Obj.PTP_DOMAIN d) = domain % 256) && nbit (s.na (Obj.PORTS d)) (b2n port3)

/-- PHY latencies and asymmetry of a port (R310). -/
def State.rxLat (s : State) (port3 : Bool) : Nat := s.na (if port3 then Obj.EN3_RX_LAT_NS else Obj.EN2_RX_LAT_NS)
def State.txLat (s : State) (port3 : Bool) : Nat := s.na (if port3 then Obj.EN3_TX_LAT_NS else Obj.EN2_TX_LAT_NS)
def State.asym (s : State) (port3 : Bool) : Int := s.ia (if port3 then Obj.EN3_ASYM_NS else Obj.EN2_ASYM_NS)

/-- Peer-delay state of a port. -/
def State.ptpPort (s : State) (port3 : Bool) : PtpPort :=
  vget { reqSeq := 0, reqT1 := none, resp := none, meanPath := 0, reqSent := none, respSent := [] } s.time.port (b2n port3)
def State.setPtp (s : State) (port3 : Bool) (x : PtpPort) : State :=
  { s with time := { s.time with port := vset s.time.port (b2n port3) x } }

/-- Time of a domain at a stamp in L (R307), in ns. -/
def State.domAt (s : State) (d : Nat) (l : Int) : Int :=
  floorDiv ((s.dom d).ctr + (l - s.nowL) * s.domWord d) 4294967296

/-- An offset from a master time at the medium and the domain time of its ingress (R313). -/
def State.offsetOf (s : State) (port3 : Bool) (origin : Nat) (corr : Int) (ingress : Int) : Int :=
  (origin : Int) + corr + s.asym port3 + (s.ptpPort port3).meanPath - ingress

/-- PTP_SYNC_RECEIVE (R309, R310, R313). -/
def execPtpSyncReceive (port3 : Bool) (domain seq : Nat) (twoStep : Bool) (origin : Nat) (corr : Int) (l : Nat) (s : State) :
    Host.Outcome State Fault Refusal :=
  .next (
    let s0 := s.toL l
    match s0.ptpDom port3 domain with
    | none => s0
    | some d =>
      let s1 := s0.incL (Obj.SYNC_RX_CNT d)
      let x := s1.dom d
      if !x.portChosen || x.port3 != port3 then s1
      else
        let ingress := s1.domAt d ((l : Int) - s1.rxLat port3)
        let s2 := s1.setDom d { x with oneStep := !twoStep, sync := if twoStep then some (port3, seq, ingress, corr) else none }
        if twoStep then s2 else s2.servo d (s2.offsetOf port3 origin corr ingress))

/-- PTP_FOLLOW_UP_RECEIVE (R313). -/
def execPtpFollowUpReceive (port3 : Bool) (domain seq origin : Nat) (corr : Int) (s : State) : Host.Outcome State Fault Refusal :=
  .next (
    match s.ptpDom port3 domain with
    | none => s
    | some d =>
      match (s.dom d).sync with
      | none => s
      | some (p, q, ingress, c) =>
        if p = port3 ∧ q = seq ∧ (s.dom d).portChosen ∧ (s.dom d).port3 = port3 then
          (s.setDom d { s.dom d with sync := none }).servo d (s.offsetOf port3 origin (corr + c) ingress)
        else s)

/-- A grandmaster of the port in use, seen now (R314). -/
def State.seeGm (s : State) (d : Nat) : State :=
  let x := s.dom d
  match x.master with
  | none => s
  | some m =>
    let new := match x.gmSeen with
      | some g => decide (g ≠ m.gmId)
      | none => false
    let s1 := s.setDom d { x with gmSeen := some m.gmId }
    if new then (s1.incL (Obj.GM_CHANGE_CNT d)).journal (0xE1 + d) (lo32 m.gmId) else s1

/-- The other port carries the domain's offsets from now on; a Sync of the old one that awaits its Follow_Up is void. -/
def Dom.switchPort (x : Dom) : Dom := { x with port3 := !x.port3, sync := none }

/-- The port of a domain after an Announce on one of them (R311). At start-up, before its first offset, a domain whose ports carry the same
grandmaster takes EN2. -/
def Dom.choose (x : Dom) (port3 : Bool) : Dom :=
  let cur := if x.port3 then x.master3 else x.master2
  let other := if x.port3 then x.master2 else x.master3
  if !x.portChosen then { x with portChosen := true, port3 := port3, sync := none }
  else match cur, other with
    | some c, some o =>
      if o.gmId = c.gmId then (if x.port3 && x.lastOff.isNone then x.switchPort else x)
      else if o.rank < c.rank then x.switchPort else x
    | none, some _ => x.switchPort
    | _, none => x

/-- The master of a port by the comparison of the data sets (R309): another one that is no better does not take its place (log entry
152). -/
def Dom.keeps (x : Dom) (port3 : Bool) (gm rank : Nat) : Bool :=
  (if port3 then x.master3 else x.master2).any fun c => decide (c.gmId ≠ gm) && decide (c.rank ≤ rank)

/-- PTP_ANNOUNCE_RECEIVE (R309, R311, R314, R320). -/
def execPtpAnnounceReceive (port3 : Bool) (domain gm rank : Nat) (utc : Int) (flags : BitVec 4) (inacc : Option Nat) (s : State) :
    Host.Outcome State Fault Refusal :=
  .next (
    match s.ptpDom port3 domain with
    | none => s
    | some d =>
      if (s.dom d).keeps port3 gm rank then s else
      let m : Master := { gmId := gm, rank := rank, utcOffset := utc, utcValid := flags.getLsbD 0, leap59 := flags.getLsbD 2
                          leap61 := flags.getLsbD 1, ptpTimescale := flags.getLsbD 3
                          inacc := if s.ga (Obj.PROFILE d) = 1 then inacc else none }
      let x := s.dom d
      let x1 : Dom := if port3 then { x with master3 := some m } else { x with master2 := some m }
      let x2 := x1.choose port3
      let x3 : Dom := if !x.portChosen && !x.stepped then { x2 with st := .acquiring } else x2
      ((s.putDom d x3).seeGm d).timeLevels)

/-- The first enabled domain that uses a port for PTP; a port without one is not enabled. -/
def State.portDom (s : State) (port3 : Bool) : Option Nat :=
  (List.range 2).find? fun d => decide (s.ga (Obj.DOM_EN d) = 1) && decide (s.ga (Obj.DOM_SRC d) = 0) && nbit (s.na (Obj.PORTS d)) (b2n port3)
def State.ptpPortOn (s : State) (port3 : Bool) : Bool := (s.portDom port3).isSome

/-- A peer-delay message as it is sent for domain `d` (R309): to 01-80-C2-00-00-0E, tagged with VLAN 0 and priority 4 under PROFILE 1. -/
def State.pdelayMsg (s : State) (d : Nat) (kind : PdelayKind) (domain seq stamp : Nat) : PdelaySent :=
  { kind := kind, dest := 0x0180C200000E, etherType := 0x88F7, tag := if s.ga (Obj.PROFILE d) = 1 then some 4 else none
    domain := domain, seq := seq, stamp := stamp }

/-- PDELAY_REQ_RECEIVE (R309, R310): a two-step response with the ingress stamp of the request and a follow-up with the response's egress
stamp are sent on an enabled port. -/
def execPdelayReqReceive (port3 : Bool) (domain seq l tx : Nat) (s : State) : Host.Outcome State Fault Refusal :=
  .next (
    let s0 := s.toL l
    match s0.portDom port3 with
    | none => s0
    | some d0 =>
      let d := (s0.ptpDom port3 domain).getD d0
      let q := seq % 65536
      s0.setPtp port3 { s0.ptpPort port3 with respSent :=
        [s0.pdelayMsg d .resp (domain % 256) q (l - s0.rxLat port3), s0.pdelayMsg d .followUp (domain % 256) q (tx + s0.txLat port3)] })

/-- PDELAY_REQ_SEND (R309, R310): the egress stamp starts a measurement. -/
def execPdelayReqSend (port3 : Bool) (l : Nat) (s : State) : Host.Outcome State Fault Refusal :=
  .next (
    let s0 := s.toL l
    match s0.portDom port3 with
    | some d =>
      let x := s0.ptpPort port3
      let q := (x.reqSeq + 1) % 65536
      s0.setPtp port3 { x with reqSeq := q, reqT1 := some (l + s0.txLat port3), resp := none
                               reqSent := some (s0.pdelayMsg d .req (s0.na (Obj.PTP_DOMAIN d)) q 0) }
    | none => s0)

/-- PDELAY_RESP_RECEIVE (R309, R310). -/
def execPdelayRespReceive (port3 : Bool) (seq t2 : Nat) (corr : Int) (l : Nat) (s : State) : Host.Outcome State Fault Refusal :=
  .next (
    let s0 := s.toL l
    let x := s0.ptpPort port3
    if x.reqT1.isSome ∧ seq = x.reqSeq then s0.setPtp port3 { x with resp := some (seq, t2, ((l - s0.rxLat port3 : Nat) - corr).toNat) }
    else s0)

/-- PDELAY_RESP_FOLLOW_UP_RECEIVE (R309): the mean path delay of the port. -/
def execPdelayRespFollowUpReceive (port3 : Bool) (seq t3 : Nat) (corr : Int) (s : State) : Host.Outcome State Fault Refusal :=
  .next (
    let x := s.ptpPort port3
    match x.reqT1, x.resp with
    | some t1, some (q, t2, t4) =>
      if q = seq then
        s.setPtp port3 { x with reqT1 := none, resp := none
                                meanPath := floorDiv (((t4 : Int) - t1) - ((t3 : Int) - t2) - corr) 2 }
      else s
    | _, _ => s)

/-- PTP_UNSUPPORTED_RECEIVE (R309). -/
def execPtpUnsupportedReceive (port3 : Bool) (domain : Nat) (s : State) : Host.Outcome State Fault Refusal :=
  .next (
    match s.ptpDom port3 domain with
    | some d => s.incL (Obj.MSG_DROP_CNT d)
    | none => s)

/-! ### Timeouts (R314) -/

/-- A domain without offsets (R314): a stepped one enters HOLDOVER, an acquiring one returns to LISTENING. -/
def State.loseOffsets (s : State) (d : Nat) : State :=
  let x := s.dom d
  if x.stepped ∧ x.st ≠ .holdover ∧ x.st ≠ .idle then
    s.putDom d { x with st := .holdover, rate := x.integ, inRun := 0, outRun := 0 }
  else if x.st = .acquiring then s.putDom d { x with st := .listening, offs := [] }
  else s

/-- OFFSET_TIMEOUT (R314): 3 s without a valid offset. An offset in the same cycle counts, and the timeout restarts (R323). -/
def execOffsetTimeout (d : Fin 2) (s : State) : Host.Outcome State Fault Refusal :=
  .next (if (s.dom d.val).lastOff = some s.nowL then s else (s.incL (Obj.SYNC_TIMEOUT_CNT d.val)).loseOffsets d.val)

/-- ANNOUNCE_TIMEOUT (R311, R314). -/
def execAnnounceTimeout (d : Fin 2) (port3 : Bool) (s : State) : Host.Outcome State Fault Refusal :=
  .next (
    let x := s.dom d.val
    let x1 : Dom := if port3 then { x with master3 := none } else { x with master2 := none }
    if x1.master2.isNone ∧ x1.master3.isNone then
      ((s.setDom d.val { x1 with portChosen := false, sync := none }).loseOffsets d.val).timeLevels
    else ((s.setDom d.val (if x1.portChosen then x1.choose port3 else x1)).seeGm d.val).timeLevels)

/-- HOLDOVER_EXPIRED (R314): HOLDOVER_LIMIT_S after the domain left LOCKED. -/
def execHoldoverExpired (d : Fin 2) (s : State) : Host.Outcome State Fault Refusal :=
  .next (
    let x := s.dom d.val
    if x.st = .locked ∨ x.wasLocked = false ∨ x.expired then s
    else ((s.setDom d.val { x with expired := true }).raiseIf (decide (x.st = .holdover)) (24 + d.val)).timeLevels)

/-! ### Converter time at S_k (R317, R319) -/

/-- The selected domain changes (R319): true is B. -/
def State.selectDom (s : State) (b : Bool) : State :=
  if s.time.selB = b then s
  else
    let s1 := ({ s with time := { s.time with selB := b, captured := false } } : State).noteOff.offStep s
    (((s1.incL Obj.DOM_SWITCH_CNT).irqEdge 10 2).journal 0xE0 (w32 (b2n b))).timeLevels

/-- The domain that R319 selects at S_k. -/
def State.wantB (s : State) : Bool :=
  let a := s.dom 0
  match s.na Obj.DOM_SEL with
  | 0 => false
  | 1 => true
  | _ =>
    if s.time.selB then
      match a.lockedSince with
      | some t => !(a.usable && decide (t + 10000000000 ≤ s.nowL)) && !(a.usable && !(s.dom 1).usable)
      | none => !(a.usable && !(s.dom 1).usable)
    else !a.usable && (s.dom 1).usable

/-- The slew term of the next frame (R317): steered towards an offset in 0.25 ns, 1 ns apart, by at most 10 ppb per frame, within `lim`,
and small enough to be brought back to 0 in time. -/
def slewNext (cur off : Int) (lim tf : Nat) : Int :=
  if off.natAbs ≤ 4 then 0
  else
    let sg : Int := if off < 0 then -1 else 1
    let v := cur * sg
    let fits (u : Int) : Bool := decide (u * (u + 10) * tf ≤ (off.natAbs : Int) * 5000000000)
    let up := min (lim : Int) (v + 10)
    (if v < 0 then v + 10 else if fits up then up else if fits v then v else max 0 (v - 10)) * sg

/-- r_C and its slew term for the frame that begins (R317); C follows the rate of a selected domain in OFFSET_ALARM too (R323). In MIRROR
they follow the partner's tick (R415). -/
def State.rateTick (s : State) : State :=
  let t := s.time
  let x := s.dom s.selDom
  let off := s.cOff
  let first := x.usable && !t.captured
  let held := t.held || (first && decide (s.na Obj.C_CAPTURE_NS < off.natAbs))
  let mir := decide (s.mode = .mirror)
  let lim := s.na Obj.C_SLEW_PPM * 1000
  let slew := if mir then slewNext t.slew (-s.pair.errQ) lim s.tf
    else if x.usable && !held then slewNext t.slew (4 * off) lim s.tf else 0
  let base := if mir then t.rBase else if x.usable || decide (x.st = .offsetAlarm) then floorDiv x.rate 65536 else t.rBase
  let r := clampInt (-150000) 150000 (t.rC + clampInt (-10) 10 (base + slew - t.rC))
  { s with time := { t with rC := r, rBase := base, slew := slew, held := held, captured := x.usable } }

/-- What the time controller does at S_k (R317, R319). -/
def State.timeTick (s : State) : State := ((s.selectDom s.wantB).rateTick).timeLevels

/-- A commit changes the settings of a domain (R323): `fresh` when PTP_DOMAIN, PROFILE, PORTS or DOM_SRC changed. -/
def State.domCommit (s : State) (d : Nat) (fresh : Bool) : State :=
  let x := s.dom d
  if s.ga (Obj.DOM_EN d) = 0 then
    s.putDom d { x with st := .idle, offs := [], sync := none, master2 := none, master3 := none, portChosen := false }
  else if fresh ∨ x.st = .idle then
    s.putDom d { x with st := .listening, offs := [], sync := none, master2 := none, master3 := none, portChosen := false }
  else s

/-! ### PPS (R321, R322) -/

/-- Nearest whole second of a time in ns. -/
def nearestSecond (t : Int) : Int := floorDiv (t + 500000000) 1000000000 * 1000000000

/-- An accepted edge in PPS mode (R321), stamped `l`: the offset it supplies, from the time of domain A at the edge. A PPS_TOD write of the
same cycle waits for the next edge. -/
def State.ppsOffset (s : State) (t : Int) (l : Nat) : State :=
  if s.time.todAt.any fun w => w ≠ l then
    ({ s with time := { s.time with todAt := none } }).servo 0 ((s.nl64 Obj.PPS_TOD_LO * 1000000000 : Nat) - t)
  else
    let s1 := s.incL Obj.PPS_TOD_MISS_CNT
    let s2 := s1.raise 58
    if (s.dom 0).stepped then s2.servo 0 (nearestSecond t - t) else s2

/-- PPS_IN_EDGE (R321): an edge of the polarity that PPS_IN_CFG selects. Outside PPS mode too a PPS_TOD written before an edge is not
"since the previous edge" for the next one. -/
def execPpsInEdge (falling : Bool) (l : Nat) (s : State) : Host.Outcome State Fault Refusal :=
  .next (
    if nbit (s.na Obj.PPS_IN_CFG) 0 && nbit (s.na Obj.PPS_IN_CFG) 1 == falling then
      let s0 := s.toL l
      let early := match s0.time.ppsLast with
        | some t => decide (l < t + 500000000)
        | none => false
      if early then s0
      else
        let t := s0.domAt 0 ((l : Int) - s0.na Obj.PPS_IN_COMP_NS)
        let err := clampInt (-2147483647) 2147483647 (t - nearestSecond t)
        let s1 : State := { s0 with time := { s0.time with ppsLast := some l, ppsErr := err } }
        let s2 := (s1.incL Obj.PPS_IN_CNT).irqEdge 10 4
        if s2.ppsMode 0 ∧ s2.ga (Obj.DOM_EN 0) = 1 then s2.ppsOffset t l
        else { s2 with time := { s2.time with todAt := s2.time.todAt.filter fun w => decide (w = l) } }
    else s)

/-- The source of PPS_OUT and CLK10_OUT (R322): its time in 2^-32 ns, and its advance per ns of L. -/
def State.ppsSource (s : State) : Nat × Nat :=
  match s.na Obj.PPS_OUT_SRC with
  | 1 => ((s.dom 0).ctr, s.domWord 0)
  | 2 => ((s.dom 1).ctr, s.domWord 1)
  | 3 => ((s.dom s.selDom).ctr, s.domWord s.selDom)
  | _ => (s.time.c, s.cWord)

/-- L at which the source next reaches a whole second less PPS_OUT_COMP_NS (R322). -/
def State.ppsRiseL (s : State) : Nat :=
  let x := s.ppsSource
  let sec := 1000000000 * 4294967296
  let comp := s.na Obj.PPS_OUT_COMP_NS * 4294967296
  s.nowL + ceilDiv (ceilDiv (x.1 + comp) sec * sec - (x.1 + comp)) (max 1 x.2)

/-- PPS_OUT_RISE (R322): the pulse begins at the next whole second of the source, where the source drives the output. -/
def execPpsOutRise (s : State) : Host.Outcome State Fault Refusal :=
  .next (
    if s.ppsDriven then
      let s0 := s.toL s.ppsRiseL
      { s0 with time := { s0.time with ppsOut := true, ppsEnd := s0.nowL + s0.na Obj.PPS_OUT_WIDTH_NS } }
    else s)

/-- PPS_OUT_FALL (R322): the pulse ends PPS_OUT_WIDTH_NS after it began. -/
def execPpsOutFall (s : State) : Host.Outcome State Fault Refusal :=
  .next (
    if s.time.ppsOut then
      let s0 := s.toL s.time.ppsEnd
      { s0 with time := { s0.time with ppsOut := false } }
    else s)

/-- The level of CLK10_OUT (R322): 10 MHz of the same source, rising at the multiples of 100 ns shifted by PPS_OUT_COMP_NS. -/
def State.clk10Out (s : State) : Bool :=
  decide (s.ga Obj.CLK10_EN = 1) && s.ppsDriven && decide ((s.ppsSource.1 / 4294967296 + s.na Obj.PPS_OUT_COMP_NS) % 100 < 50)

/-! ### Objects (R324, R325) -/

/-- TIME_STATUS (R325). -/
def State.timeStatus (s : State) : Nat :=
  let a := s.dom 0
  let b := s.dom 1
  b2n s.time.held * 32768 + b2n (decide (s.time.slew ≠ 0)) * 16384 + b2n s.time.selB * 2048 + b2n s.time.traceable * 1024
    + b2n b.usable * 512 + b2n a.usable * 256 + b.st.code * 16 + a.st.code

/-- DOM_FLAGS of a domain (R325). -/
def Dom.flags (x : Dom) : Nat :=
  let f (g : Master → Bool) : Nat := match x.master with
    | some m => b2n (g m)
    | none => 0
  b2n (x.portChosen && x.port3) * 128 + b2n x.oneStep * 64 + f (·.ptpTimescale) * 32 + f (·.leap59) * 16 + f (·.leap61) * 8
    + f (·.utcValid) * 4 + b2n x.master.isSome * 2 + b2n x.stepped

/-- Objects of 2820 and 2821. -/
def viewDom (s : State) (d sub : Nat) : Option Word :=
  let x := s.dom d
  let gm := match x.master with
    | some m => m.gmId
    | none => 0
  match sub with
  | 1 => some (w32 x.st.code)
  | 2 => some (w32 x.flags)
  | 3 => some (lo32 (s.domTime d))
  | 4 => some (hi32 (s.domTime d))
  | 5 => some (i32 x.offsetNs)
  | 6 => some (i32 (s.ptpPort x.port3).meanPath)
  | 7 => some (i32 (floorDiv x.rate 65536))
  | 8 => some (lo32 gm)
  | 9 => some (hi32 gm)
  | 10 => some (i32 ((x.master.map (·.utcOffset)).getD 0))
  | 11 => some (w32 (((x.master.bind (·.inacc))).getD 0xFFFFFFFF))
  | 18 => some (lo32 x.stepL)
  | 19 => some (hi32 x.stepL)
  | _ => none

/-- Objects of 2800 to 2830 that the Belfry and the time controller hold. -/
def view13 (s : State) (key : Nat) : Option Word :=
  if key / 256 = 0x2820 then viewDom s 0 (key % 256)
  else if key / 256 = 0x2821 then viewDom s 1 (key % 256)
  else if key = Obj.TIME_STATUS then some (w32 s.timeStatus)
  else if key = Obj.L_LO then some (lo32 s.nowL)
  else if key = Obj.L_HI then some (hi32 s.nowL)
  else if key = Obj.C_LO then some (lo32 s.nowC)
  else if key = Obj.C_HI then some (hi32 s.nowC)
  else if key = Obj.C_OFF_LO then some (i32 s.cOff)
  else if key = Obj.C_OFF_HI then some (i32 (floorDiv s.cOff 4294967296))
  else if key = Obj.C_RATE_PPB then some (i32 s.time.rC)
  else if key = Obj.C_SLEW_PPB then some (i32 s.time.slew)
  else if key = Obj.PPS_IN_ERR_NS then some (i32 s.time.ppsErr)
  else none

end Sys2Proof.Machine
end

