-- ==== Sys2Proof/Machine/Pair.lean ====
section
/-! DEFINITION. The arbitrated pair (R413 to R437): pair trains as they are sent and adopted, the partner's tick, the Mirror
Link's delay, the arbiter pins and the swap. -/
namespace Sys2Proof.Machine

/-! ### Levels and flags -/

/-- A fail-over request or a swap takes ARB_ROLE low on the ACTIVE device; a STANDBY offers itself from MIRROR only (R425). -/
def State.arbRole (s : State) : Bool :=
  match s.pair.role with
  | .alone => false
  | .active => !s.fault.failover && !s.pair.swap && decide (s.mode ≠ .boot)
  | .standby => decide (s.mode = .mirror) && !s.severe
      && ((s.pair.locked && s.pair.synced) || decide (s.na Obj.MIRROR_LOSS_FRAMES ≤ s.pair.silentActive))

/-- The PARTNER cause follows the SBK flag of the partner while it is heard (R393, R434). -/
def State.partnerCause (s : State) : State :=
  s.cause 14 (decide (s.pair.role ≠ .alone) && nbit (s.nk Obj.WT_FUNC_EN) 1 && !s.pair.partnerLost && s.pair.partnerSbk)

/-- A device that hears its partner again has not lost it; one that has (`lost`) loses its lock, its synchronism and what it knows of the
partner's ticks (R421). -/
def State.setPartnerLost (s : State) (lost : Bool) : State :=
  let s1 : State := { s with pair := { s.pair with
    partnerLost := lost, locked := s.pair.locked && !lost, synced := s.pair.synced && !lost
    lockRun := if lost then 0 else s.pair.lockRun, syncRun := if lost then 0 else s.pair.syncRun
    ticks := if lost then [] else s.pair.ticks } }
  (((s1.incIf (lost && !s.pair.partnerLost) Obj.PARTNER_LOST_CNT).irqLevel 12 1 lost).faultLevel 28 lost).partnerCause

/-! ### The packet (R419, R420) -/

/-- LEN of the full packet (R420). -/
def State.mirLen (s : State) : Nat := 228 + 2 * s.na Obj.MIR_DELTA_MAX + s.na Obj.MIR_ROLL_BYTES + s.na Obj.MIR_FW_LEN

/-- STATE of a cell as its LAST_CMD has it. -/
def State.cellState (s : State) (i : Nat) : Nat := cmdState (s.entry i).lastCmd

/-- Cells whose STATE differs from the one of the train before, in ascending order (R420). -/
def State.deltaCells (s : State) : List Nat :=
  (s.ledger.entries.map (·.1)).filter fun i => decide (s.cellState i ≠ tget (fun _ => 0) s.pair.lastStates i)

/-- FLAGS of the header (R419). -/
def State.pairFlags (s : State) (overflow : Bool) : Nat :=
  b2n overflow + b2n (decide (s.wt.sbkCause ≠ 0)) * 2 + b2n s.arbRole * 4 + b2n s.pair.locked * 8 + b2n s.pair.synced * 16

/-- The 32 bytes of the header (R419). -/
def State.pairHeader (s : State) (overflow : Bool) (len deltas rollBase : Nat) : List Byte :=
  leBytes 8 (s.pairFrame s.frame.count) ++ leBytes 4 (4 * (s.dk + 150)) ++ leBytes 1 s.mode.code ++ leBytes 1 s.pair.role.code
    ++ leBytes 1 s.pair.epoch.toNat ++ leBytes 1 (s.pairFlags overflow) ++ leBytes 4 (s.nl Obj.COMMIT_SEQ) ++ leBytes 2 len ++ leBytes 2 deltas
    ++ leBytes 2 rollBase ++ leBytes 2 (s.na Obj.MIR_ROLL_BYTES) ++ leBytes 2 (s.na Obj.MIR_FW_LEN) ++ leBytes 1 s.p ++ leBytes 1 0

/-- The 16 bytes of an arm (R420). FRAC_INDEX is the Selector's cell: a named cell is adopted with FRAC = 0 (R422). -/
def State.pairArm (s : State) (a slot : Nat) : List Byte :=
  let fr := s.nl (Obj.FRAC_INDEX a)
  let frac := if (s.selArm a).holder = some fr ∧ (s.namedForced a).any (fun c => fcIndex c == fr) = false then fr else 0xFFFF
  let b := (s.builtFor a slot).getD { slot := slot, count := 0, edge := 0, src := 6, flags := 0 }
  leBytes 4 (s.nl (Obj.REF_SAMPLED a)) ++ leBytes 4 (s.nl (Obj.REF_NOTCHED a)) ++ leBytes 2 (i32 b.count).toNat ++ leBytes 2 b.edge
    ++ leBytes 2 frac ++ leBytes 1 b.src ++ leBytes 1 0

/-- The rolling segment (R420). -/
def State.rollBytes (s : State) (base n : Nat) : List Byte :=
  (List.range n).map fun b =>
    BitVec.ofNat 8 (((List.range 4).map fun j => s.cellState ((base + 4 * b + j) % 12288) * 4 ^ j).sum)

/-- A packet closed with its CRC. -/
def withCrc (bs : List Byte) : List Byte := bs ++ leBytes 4 (crc32c bs).toNat

/-- SOT block of a train on the Mirror Link (R417, R418): kind 5 pair train, 6 PING, 7 PING_REPLY, with what [63:16] carry. -/
def mirrorSot (kind rest : Nat) : BitVec 64 := BitVec.ofNat 64 (rest * 65536 + kind * 256 + sotType)
/-- EOT block of a lane of the Mirror Link after `n` data blocks (R417). -/
def mirrorEot (n : Nat) : BitVec 64 := BitVec.ofNat 64 (n % 1024 * 65536 + eotType)

/-- The blocks of a packet on lane `n` of the Mirror Link (R417): every second word, from word `n`. -/
def mirrorBlocks (bs : List Byte) (n : Nat) : List (BitVec 64) :=
  let words := (pieces 8 bs).map fun b => BitVec.ofNat 64 (ofLeBytes b)
  let mine := (words.zipIdx.filter fun x => decide (x.2 % 2 = n)).map (·.1)
  mirrorSot 5 0 :: mine ++ [mirrorEot mine.length]

/-- The data blocks of a lane between the SOT of a pair train and an EOT that counts them (R417). -/
def mirrorData (blocks : List (BitVec 64)) : Option (List (BitVec 64)) :=
  match blocks with
  | [] => none
  | sot :: rest =>
    if sot = mirrorSot 5 0 ∧ rest.getLast? = some (mirrorEot rest.dropLast.length) then some rest.dropLast else none

/-- The packet that the two lanes carry (R417): their words in turn, to the length that its header gives; empty when the lanes' blocks are
no pair train. -/
def mirrorPacket (a b : List (BitVec 64)) : List Byte :=
  match mirrorData a, mirrorData b with
  | some x, some y =>
    let bs := (List.range (2 * x.length)).flatMap fun i =>
      ((if i % 2 = 0 then x[i / 2]? else y[i / 2]?).map fun w => leBytes 8 w.toNat).getD []
    let len := ofLeBytes ((bs.drop 0x14).take 2)
    if (y.length = x.length ∨ y.length + 1 = x.length) ∧ ceilDiv len 8 = x.length + y.length then bs.take len else []
  | _, _ => []

/-- Both lanes of the Mirror Link are in DATA (R79). -/
def State.mirrorLanes (s : State) : Bool := s.inData 32 && s.inData 33

/-- The pair train of frame k (R417, R420), once both lanes are in DATA (R79): the full packet of an ACTIVE device, the header of a
STANDBY. Its first data blocks leave at D_k + 150 ns, one block after the SOT. -/
def State.sendPair (s : State) : State :=
  let start := s.frame.tickC + s.dk + 150 - ceilDiv blockTime 100
  let put (s : State) (bs : List Byte) : State :=
    ((({ s with pair := { s.pair with sent := bs } }).trainOut 32 (mirrorBlocks bs 0) start).trainOut 33 (mirrorBlocks bs 1) start).incL Obj.MIRROR_TX_CNT
  if !s.mirrorLanes then s
  else if s.pair.role = .active then
    let cells := s.deltaCells
    let mx := s.na Obj.MIR_DELTA_MAX
    let out := cells.take mx
    let ovr := decide (mx < cells.length)
    let base := s.pair.rollBase
    let deltas := out.flatMap (fun i => leBytes 2 (s.cellState i * 16384 + i)) ++ List.replicate (2 * (mx - out.length)) 0xFF
    let body := s.pairHeader ovr s.mirLen out.length base
      ++ (List.range 12).flatMap (fun a => s.pairArm a (s.frame.count + s.p)) ++ deltas
      ++ s.rollBytes base (s.na Obj.MIR_ROLL_BYTES) ++ s.rdBytes (shmAddr (s.na Obj.MIR_FW_OFF)) (s.na Obj.MIR_FW_LEN)
    let s1 : State := { s with pair := { s.pair with
      rollBase := (base + 4 * s.na Obj.MIR_ROLL_BYTES) % 12288, overflow := ovr } }
    put ((s1.incIf ovr Obj.DELTA_OVERFLOW_CNT).setLN Obj.LAST_DELTA_COUNT out.length) (withCrc body)
  else put s (withCrc (s.pairHeader false 36 0 s.pair.rollBase))

/-! ### A packet received (R414, R415, R421) -/

/-- A little-endian field of a packet. -/
def pfld (bs : List Byte) (off n : Nat) : Nat := ofLeBytes ((bs.drop off).take n)

/-- The CRC of the packet matches. -/
def packetOk (bs : List Byte) : Bool :=
  decide (36 ≤ bs.length) && decide (crc32c (bs.take (bs.length - 4)) = w32 (pfld bs (bs.length - 4) 4))

/-- The tick error E and the frame of the own tick nearest to the partner's tick `q`, in 0.25 ns (R415). -/
def State.tickError (s : State) (q : Int) : Int × Int :=
  let per : Int := 4 * s.tf
  let m := floorDiv (q - 4 * s.frame.tickC + per / 2) per
  (q - 4 * s.frame.tickC - m * per, s.frame.count + m)

/-- The rate of C, in ppb, at which frames follow the partner's ticks, from those that have come (R415): the newest against an earlier one
of the same T_F. -/
def tickRate (l : List (Nat × Int × Nat)) : Option Int :=
  match l with
  | [] => none
  | (k, x, tf) :: rest =>
    let same := rest.takeWhile fun y => y.2.2 == tf
    match same[min (Config.tickSpan % 1024) (same.length - 1)]? with
    | some (j, y, _) => if j < k ∧ y < x then some (floorDiv (((k - j : Nat) : Int) * 4 * tf * 1000000000) (x - y) - 1000000000) else none
    | none => none

/-- The partner's tick and frame number of a valid train from an ACTIVE partner (R414, R415): `q` is the tick in 0.25 ns of C, and C runs
on from `t`, the arrival. -/
def State.heedPartner (s : State) (frame : Nat) (q : Int) (t : Nat) : State :=
  let e := s.tickError q
  let p := s.pair
  let ticks := ((frame, (4 * s.nowL : Int) + (t % 4 : Nat) - (t - q), s.tf) :: p.ticks).take 1025
  let run := if e.1.natAbs ≤ 4 then min 16 (p.lockRun + 1) else 0
  let out := if 8 < e.1.natAbs then min 4 (p.unlockRun + 1) else 0
  { s with
    pair := { p with
      errQ := e.1, lockRun := run, unlockRun := out
      locked := (p.locked && decide (out < 4)) || decide (run = 16)
      offset := (((frame : Int) - e.2) % 18446744073709551616).toNat, ticks := ticks }
    time := { s.time with rBase := (tickRate ticks).getD s.time.rBase } }

/-- LAST_CMD and BUDGET of one adopted cell (R421, R422): STATE as given; FRAC only for a holder. HOLD_PERMIT follows R533, BYPASS of an
UNSEEN cell in a slot whose BUILD_SRC is 1 or 2 with it. -/
def State.adoptCell (s : State) (holders : List (Nat × Nat)) (srcs : List Nat) (i st : Nat) : State :=
  let e := s.entry i
  if !e.enabled then s
  else
    let src := srcs.getD e.arm 0
    let bare := decide (st = stBypass) && decide (e.health = 0) && (decide (src = 1) || decide (src = 2))
    let w := match holders.find? fun h => h.1 == i with
      | some h => s.slotWord st true h.2
      | none => s.slotWord st false 0 - (if bare then 4096 else 0)
    let n := switchEvents e.lastCmd w
    let bud := min 0xFFFF (s.budget i + n * s.na Obj.SEL_EVENT_INC)
    (s.setEntry i { e with w2 := mkW2 w (if n = 0 then e.budget else bud) }).setBudget i (if n = 0 then s.budget i else bud)

/-- The states that a packet gives: deltas, and the cells of the rolling segment that are not among them. -/
def packetStates (bs : List Byte) (mx rb : Nat) : List (Nat × Nat) :=
  let d := (List.range (min mx (pfld bs 0x16 2))).map fun i => let w := pfld bs (0xE0 + 2 * i) 2; (w % 16384, w / 16384)
  let base := pfld bs 0x18 2
  let r := (List.range rb).flatMap fun b =>
    (List.range 4).map fun j => ((base + 4 * b + j) % 12288, pfld bs (0xE0 + 2 * mx + b) 1 / 4 ^ j % 4)
  d ++ r.filter fun x => !(d.any fun y => y.1 == x.1)

/-- One arm of an adopted packet (R421 steps 1 and 4). -/
def State.adoptArm (s : State) (bs : List Byte) (slot a : Nat) : State :=
  let off := 0x20 + 16 * a
  let src := pfld bs (off + 14) 1
  let b : Built := { slot := slot, count := (BitVec.ofNat 16 (pfld bs (off + 8) 2)).toInt, edge := pfld bs (off + 10) 2, src := src, flags := src }
  let x := s.arm a
  let s1 := s.setArm a { x with queue := vset x.queue (slot % 16) (some b) }
  let fr := pfld bs (off + 12) 2
  if fr = 0xFFFF then s1 else s1.setSel a { s1.selArm a with holder := some fr, dwell := 1 }

/-- The firmware block (R421 step 5). -/
def State.adoptFw (s : State) (bs : List Byte) (mx rb : Nat) : State :=
  let n := s.na Obj.MIR_FW_LEN
  let at0 := shmAddr (s.na Obj.MIR_FW_RX_OFF)
  let s1 := s.wrBytes (at0 + 8) ((bs.drop (0xE0 + 2 * mx + rb)).take n)
  let s2 := s1.wrW (at0 + 4) (w32 (pfld bs 0 4))
  s2.wrW at0 (s2.rdW at0 + 1)

/-- Adoption of an accepted train (R421); `own` is the own number of the frame that built it. -/
def State.adopt (s : State) (bs : List Byte) (own : Nat) : State :=
  let mx := s.na Obj.MIR_DELTA_MAX
  let rb := s.na Obj.MIR_ROLL_BYTES
  let slot := own + pfld bs 0x1E 1
  let holders := ((List.range 12).map fun a => (pfld bs (0x20 + 16 * a + 12) 2, pfld bs (0x20 + 16 * a + 10) 2)).filter fun h => decide (h.1 ≠ 0xFFFF)
  let s1 := s.each (List.range 12) fun s a => s.adoptArm bs slot a
  let given := packetStates bs mx rb
  let srcs := (List.range 12).map fun a => pfld bs (0x20 + 16 * a + 14) 1
  let s2 := given.foldl (fun s x => s.adoptCell holders srcs x.1 x.2) s1
  let rest := (s2.enabledEntries.filter fun x => (cmdFrac x.2.lastCmd || holders.any fun h => h.1 == x.1) && !(given.any fun y => y.1 == x.1)).map (·.1)
  let s3 := s2.each rest fun s i => s.adoptCell holders srcs i (s.cellState i)
  let ovr := nbit (pfld bs 0x0F 1) 0
  let run := if ovr then 0 else s3.pair.syncRun + 1
  let full := ceilDiv 12288 (4 * max 1 rb)
  let s4 : State := { s3 with pair := { s3.pair with
    epoch := BitVec.ofNat 8 (pfld bs 0x0E 1), lastMode := some (pfld bs 0x0C 1), lastSlot := some slot, overflow := ovr
    syncRun := min full run, synced := !ovr && (s3.pair.synced || decide (full ≤ run)), adopted := true
    adoptedCmd := s3.enabledEntries.map fun x => (x.1, x.2.lastCmd) } }
  ((s4.incIf ovr Obj.DELTA_OVERFLOW_CNT).setLN Obj.LAST_DELTA_COUNT (pfld bs 0x16 2)).adoptFw bs mx rb

/-- A rejected train (R421). -/
def State.rejectTrain (s : State) : State := { s with pair := { s.pair with syncRun := 0, synced := false } }

/-- C takes its time in BOOT from the domain that DOM_SEL selects (R316). -/
def State.setClock (s : State) : State :=
  let d := b2n s.wantB
  let c := if (s.dom d).stepped then (s.dom d).ctr else s.time.l * 4294967296
  ({ s with time := { s.time with c := c, cSet := true, offs := [], traces := [], offSteps := [] } } : State).noteOff.noteTrace

/-- A train from an ACTIVE partner ends the wait of BOOT (R416): C is set, shifted so that S_0 falls on the partner's tick, which
lies at `q` in 0.25 ns of the clock as it stood. PAIR_OFFSET is the pair frame of the first own tick. -/
def State.mirrorStart (s : State) (frame : Nat) (q : Int) : State :=
  let old := s.time.c
  let s1 := s.setClock
  let tf := max 1 (s.na Obj.TF_NS)
  let tick : Int := q * 1073741824 + s1.time.c - old
  let per : Int := (tf : Int) * 4294967296
  let c := (s1.time.c : Int) - tick % per
  let m := -floorDiv (tick - s1.time.c) per
  let s2 := ({ s1 with time := { s1.time with c := c.toNat, offs := [], traces := [] } } : State).noteOff.noteTrace
  { s2 with
    boot := { s1.boot with mirrorWait := false }
    pair := { s1.pair with offset := (((frame : Int) + m) % 18446744073709551616).toNat, startRef := some (frame, floorDiv tick per) } }

/-- PAIR_OFFSET at S_0, which C has reached `t` of (R414, R416): the partner's tick may lie several frames back. -/
def State.startOffset (s : State) (t : Nat) : State :=
  match s.pair.startRef with
  | none => s
  | some (frame, m) =>
    let k : Int := frame + ((t / max 1 s.tf : Nat) : Int) - m
    { s with pair := { s.pair with offset := (k % 18446744073709551616).toNat, startRef := none } }

/-- A train of this packet is accepted (R421): in MIRROR from an ACTIVE partner with the own LEN. A device that is not in MIRROR takes every
correct train for accepted (R434, log entry 155). -/
def State.accepts (s : State) (bytes : List Byte) : Bool :=
  decide (s.mode ≠ .mirror) || (decide (pfld bytes 0x0D 1 = 1) && decide (pfld bytes 0x14 2 = s.mirLen) && decide (bytes.length = s.mirLen))

/-- A correct train was heard, and whether its sender is active: it is counted, the partner's flags are kept, SBK from an accepted train, and
the partner is not lost (R421, R434). -/
def State.heardTrain (s : State) (bytes : List Byte) (active : Bool) : State :=
  ({ s.incL Obj.MIRROR_RX_CNT with pair := { s.pair with
    partnerFlags := pfld bytes 0x0F 1
    partnerSbk := if s.accepts bytes then nbit (pfld bytes 0x0F 1) 1 else s.pair.partnerSbk
    silent := 0, heard := true
    silentActive := if active then 0 else s.pair.silentActive, heardActive := s.pair.heardActive || active } }).setPartnerLost false

/-- PAIR_TRAIN_RECEIVE (R414 to R417, R421, R429): the blocks on the two lanes, which carry them only in DATA (R79). -/
def execPairTrainReceive (a b : List (BitVec 64)) (t : Nat) (s : State) : Host.Outcome State Fault Refusal :=
  .next (
    let s0 := s.toC (t / 4)
    if s0.ga Obj.PAIR_EN ≠ 1 ∨ s0.mirrorLanes = false then s0
    else
      let bytes := mirrorPacket a b
      let active := decide (pfld bytes 0x0D 1 = 1) && decide (36 ≤ bytes.length)
      if s0.pair.role = .active then
        let s1 := if active then s0.dualActive else s0
        if packetOk bytes then s1.heardTrain bytes active else s1
      else if !packetOk bytes then (if s0.mode = .mirror then ((s0.incL Obj.MIRROR_ERR_CNT).rejectTrain).laneCrc 42 32 else s0)
      else
        let s2 := s0.heardTrain bytes active
        let q : Int := (t : Int) - s2.pair.delayQ - pfld bytes 8 4
        if s2.boot.mirrorWait then (if active then s2.mirrorStart (pfld bytes 0 8) q else s2)
        else if s2.mode ≠ .mirror then s2
        else
          let own := (s2.tickError q).2.toNat
          let s3 := if active then s2.heedPartner (pfld bytes 0 8) q t else s2
          if pfld bytes 0x14 2 ≠ s3.mirLen ∨ bytes.length ≠ s3.mirLen then ((s3.incL Obj.MIR_LAYOUT_CNT).rejectTrain).raise 27
          else if active then s3.adopt bytes own
          else (s3.incL Obj.MIRROR_ERR_CNT).rejectTrain)

/-- What the pair counts at S_k of the frame that ends (R421, R425): frames without a train, and a train that is missing in MIRROR. -/
def State.pairTick (s : State) : State :=
  if s.ga Obj.PAIR_EN ≠ 1 ∨ s.frame.count = 0 then s
  else
    let p := s.pair
    let miss := decide (s.mode = .mirror) && !p.adopted
    { s with pair := { p with
      silent := if p.heard then 0 else min 255 (p.silent + 1), heard := false
      silentActive := if p.heardActive then 0 else min 255 (p.silentActive + 1), heardActive := false, adopted := false
      syncRun := if miss then 0 else p.syncRun, synced := p.synced && !miss } }

/-- PARTNER_LOST (R421). -/
def execPartnerLost (s : State) : Host.Outcome State Fault Refusal :=
  .next (if s.ga Obj.PAIR_EN = 1 ∧ s.na Obj.MIRROR_LOSS_FRAMES ≤ s.pair.silent then s.setPartnerLost true else s)

/-- MIRROR_WAIT_EXPIRE (R416). -/
def execMirrorWaitExpire (s : State) : Host.Outcome State Fault Refusal :=
  .next (
    if s.boot.mirrorWait then
      let s1 := s.setClock
      { s1 with boot := { s1.boot with mirrorWait := false }, pair := { s1.pair with offset := 0, startRef := none } }
    else s)

/-! ### Mirror Link delay (R418) -/

/-- The Mirror Link carries the pair. -/
def State.mirrorUp (s : State) : Bool := decide (s.ga Obj.PAIR_EN = 1) && s.inData 32

/-- MIRROR_PING_SEND (R418): a new set. -/
def execMirrorPingSend (ts : Vector Nat 8) (s : State) : Host.Outcome State Fault Refusal :=
  .next (
    if s.mirrorUp then
      let tags := (List.range 8).map fun i => (s.pair.nextTag + i) % 65536
      let s1 : State := { s with pair := { s.pair with
        pings := tags.zip ts.toList, trips := [], nextTag := (s.pair.nextTag + 8) % 65536 } }
      s1.each tags fun s g => s.trainOut 32 [mirrorSot 6 g, mirrorEot 0] s.nowC
    else s)

/-- MIRROR_PING_RECEIVE (R418): the reply repeats the tag and carries the turnaround. -/
def execMirrorPingReceive (sot : BitVec 64) (t tx : Nat) (s : State) : Host.Outcome State Fault Refusal :=
  .next (
    if s.mirrorUp ∧ sot.extractLsb' 0 16 = (mirrorSot 6 0).extractLsb' 0 16 then
      let reply := mirrorSot 7 ((tx - t) % 4294967296 * 65536 + (sot.extractLsb' 16 16).toNat)
      ({ s with pair := { s.pair with pingReply := some reply } } : State).trainOut 32 [reply, mirrorEot 0] s.nowC
    else s)

/-- MIRROR_PING_REPLY_RECEIVE (R418): ML_DELAY over the replies of the set so far. -/
def execMirrorPingReplyReceive (sot : BitVec 64) (t : Nat) (s : State) : Host.Outcome State Fault Refusal :=
  .next (
    let tag := (sot.extractLsb' 16 16).toNat
    let turn := (sot.extractLsb' 32 32).toNat
    match s.pair.pings.find? fun x => x.1 == tag with
    | none => s
    | some x =>
      if s.mirrorUp = false ∨ sot.extractLsb' 0 16 ≠ (mirrorSot 7 0).extractLsb' 0 16 then s else
      let trips := (((t : Int) - x.2 - turn) :: s.pair.trips)
      let n : Int := trips.length
      { s with pair := { s.pair with
        pings := s.pair.pings.filter fun y => y.1 != tag
        trips := trips
        delayQ := floorDiv (trips.sum + n * s.ia Obj.ML_ASYM_Q) (2 * n) } })

/-! ### The arbiter and the swap (R423, R435) -/

/-- ARB_ACT_CHANGE (R423, R435). -/
def execArbActChange (level : Bool) (t : Nat) (s : State) : Host.Outcome State Fault Refusal :=
  .next (
    let s0 := s.toC t
    if level = s0.pair.arbIn then s0
    else
      let s1 := ({ s0 with pair := { s0.pair with arbIn := level } }).incL Obj.ARB_EDGE_CNT
      if s1.pair.swap && !level then
        (({ s1 with pair := { s1.pair with swap := false } }).setLN Obj.SWAP_RESULT 4).irqEdge 12 3
      else s1)

/-- Write of SWAP_REQ (R435). -/
def wrSwapReq (s : State) : WOut :=
  if s.pair.role ≠ .active then refused6 (s.setLN Obj.SWAP_RESULT 3)
  else if !nbit s.pair.partnerFlags 2 then refused6 (s.setLN Obj.SWAP_RESULT 2)
  else done (({ s with pair := { s.pair with swap := true } }).setLN Obj.SWAP_RESULT 1)

/-- SWAP_REQ (R435). -/
def execSwapReq (p : Path) (s : State) : Host.Outcome State Fault Refusal := .next (s.guardWrite p Obj.SWAP_REQ 1 wrSwapReq)

/-- SWAP_TIMEOUT (R435, R438). -/
def execSwapTimeout (s : State) : Host.Outcome State Fault Refusal :=
  .next (
    if s.pair.swap then
      ((({ s with pair := { s.pair with swap := false } }).setLN Obj.SWAP_RESULT 5).irqEdge 12 3).raise 61
    else s)

/-! ### Objects (R436, R437) -/

/-- PAIR_STATUS (R437). -/
def State.pairStatusWord (s : State) : Nat :=
  let p := s.pair
  b2n p.partnerSbk * 2048 + b2n (nbit p.partnerFlags 2) * 1024 + b2n p.partnerLost * 512 + b2n p.overflow * 256 + b2n p.synced * 128
    + b2n p.locked * 64 + b2n s.arbRole * 32 + b2n p.hb * 16 + b2n p.arbIn * 8 + b2n p.swap * 4 + p.role.code

/-- Objects of 2C01 that the pair logic holds. -/
def view19 (s : State) (key : Nat) : Option Word :=
  if key = Obj.PAIR_STATUS then some (w32 s.pairStatusWord)
  else if key = Obj.EPOCH then some (w32 s.pair.epoch.toNat)
  else if key = Obj.PAIR_OFFSET_LO then some (lo32 s.pair.offset)
  else if key = Obj.PAIR_OFFSET_HI then some (hi32 s.pair.offset)
  else if key = Obj.ML_DELAY_Q then some (i32 s.pair.delayQ)
  else if key = Obj.PAIR_ERR_Q then some (i32 s.pair.errQ)
  else if key = Obj.MIR_LEN then some (w32 s.mirLen)
  else none

end Sys2Proof.Machine
end

