-- ==== Sys2Proof/Machine/Watchtower.lean ====
section
/-! DEFINITION. The Watchtower's commands (R388 to R412): the safety write sequence, supervision, permits and safe data; and
its objects as they read. -/
namespace Sys2Proof.Machine

/-! ### Safety write sequence (R402, R403) -/

/-- Outcome of a sequence or of an attempt: SW_RESULT, its counter, SW_FAIL and the cause tree. -/
def State.swEnd (s : State) (code : Nat) : State :=
  let s1 : State := { s with wt := { s.wt with swResult := code } }
  let s2 := (if code = 3 then s1.incL Obj.SW_DONE_CNT else s1.incL Obj.SW_FAIL_CNT).irqEdge 11 3
  if code = 3 then s2 else s2.raise 57

/-- The open sequence is closed. -/
def State.swClose (s : State) : State := { s with wt := { s.wt with sw := none } }

/-- The open sequence has not completed within 1,000 µs of its opening: it is aborted (R402). -/
def State.swExpire (s : State) : State :=
  match s.wt.sw with
  | some o => if o.openedAt + 1000000 < s.nowL then s.swClose.swEnd 6 else s
  | none => s

/-- Class of an object. -/
def isClassK (key : Nat) : Bool :=
  match rowOf key with
  | some (r, _, _) => decide (r.cls = .k)
  | none => false

/-- A sequence is accepted from the Host Port and the mailbox only (R402). -/
def swPath (p : Path) : Bool :=
  match p with
  | .host | .mailbox => true
  | _ => false

/-- Write of SW_OPEN (R402): `challenge` comes from the Watchtower's random source. -/
def wrSwOpen (p : Path) (v : Word) (challenge : BitVec 16) (s0 : State) : WOut :=
  let s := s0.swExpire
  if !swPath p then refused6 s
  else
    let other := match s.wt.sw with
      | some o => decide (o.path ≠ pathNum p)
      | none => false
    if other then refused6 (s.swEnd 5)
    else
      let s1 := if s.wt.sw.isSome then (s.swClose.incL Obj.SW_FAIL_CNT).raise 57 else s
      if isClassK v.toNat then
        let s2 : State := { s1 with wt := { s1.wt with
          sw := some ⟨pathNum p, v.toNat, challenge.zeroExtend 32, none, s1.nowL⟩, swResult := 1 } }
        done (s2.setL Obj.SW_CHALLENGE (challenge.zeroExtend 32))
      else refused6 (s1.swEnd 4)

/-- SW_OPEN (R402). -/
def execSwOpen (p : Path) (v : Word) (challenge : BitVec 16) (s : State) : Host.Outcome State Fault Refusal :=
  .next (s.guardWrite p Obj.SW_OPEN v (wrSwOpen p v challenge))

/-- A write of a class K object (R402): held in the sequence that opened it, else refused. -/
def wrClassK (p : Path) (key : Nat) (v : Word) (s0 : State) : WOut :=
  let s := s0.swExpire
  match s.wt.sw with
  | none => (s, 4)
  | some o =>
    if !swPath p || decide (o.path ≠ pathNum p) then (s, 4)
    else if o.key ≠ key then (s.swClose.swEnd 8, 4)
    else match rowOf key with
      | none => (s, 2)
      | some (r, _, _) =>
        if r.ty.fits v && r.rng.ok (v &&& w32 r.bits) then
          done { s with wt := { s.wt with sw := some { o with value := some (v &&& w32 r.bits) }, swResult := 2 } }
        else (s.swClose.swEnd 9, 3)

/-- SW_VALUE_WRITE (R402). -/
def execSwValueWrite (p : Path) (key : Nat) (v : Word) (s : State) : Host.Outcome State Fault Refusal :=
  .next (
    let r := if isClassK key then wrClassK p key v s else (s, 4)
    if s.boot.resetLow then s else r.1.report p key r.2)

/-- Bytes the confirmation covers (R402): challenge, index, sub and value. -/
def swBytes (o : SwOpen) (v : Word) : List Byte :=
  let size := match rowOf o.key with
    | some (r, _, _) => r.ty.bytes
    | none => 4
  leBytes 2 o.challenge.toNat ++ leBytes 2 (o.key / 256) ++ leBytes 1 (o.key % 256) ++ leBytes size v.toNat

/-- TEST_PERMIT is granted, or cleared by a write of 0 (R400); answers SW_RESULT. -/
def State.takeTestPermit (s : State) (v : Word) : State × Nat :=
  if v = 0 then (s.clearTest.testLimit, 3)
  else if s.vdcHigh || decide (s.wt.sbkCause ≠ 0) then (s, 9)
  else (({ s with wt := { s.wt with testPermit := true } }).setK Obj.TEST_PERMIT 1, 3)

/-- DEBUG_PERMIT is granted, or cleared by a write of 0 (R400). -/
def State.takeDebugPermit (s : State) (v : Word) : State × Nat :=
  if v = 0 then (s.clearDebug, 3)
  else if s.mode = .test ∧ s.wt.testPermit = true ∧ s.vdcHigh = false then
    (({ s with wt := { s.wt with debugPermit := true, hbSuspended := true } }).setK Obj.DEBUG_PERMIT 1, 3)
  else (s, 9)

/-- Both channels take the value (R402): 2B02.01 to 2B02.03 at once, every other object into the staged copies. -/
def State.swTake (s : State) (key : Nat) (v : Word) : State × Nat :=
  if key = Obj.SBK_RESET then
    let r := s.sbkReset
    (r.1, if r.2 then 3 else 9)
  else if key = Obj.TEST_PERMIT then s.takeTestPermit v
  else if key = Obj.DEBUG_PERMIT then s.takeDebugPermit v
  else ((s.setKS key v).setS key v, 3)

/-- Write of SW_CONFIRM (R402). -/
def wrSwConfirm (p : Path) (v : Word) (s0 : State) : WOut :=
  let s := s0.swExpire
  let mine := s.wt.sw.filter fun o => swPath p && decide (o.path = pathNum p)
  match mine with
  | none => refused6 s
  | some o =>
    let s1 := s.swClose
    match o.value with
    | none => done (s1.swEnd 7)
    | some x =>
      if v = crc32c (swBytes o x) then
        let r := s1.swTake o.key x
        done (r.1.swEnd r.2)
      else done (s1.swEnd 7)

/-- SW_CONFIRM (R402). -/
def execSwConfirm (p : Path) (v : Word) (s : State) : Host.Outcome State Fault Refusal :=
  .next (s.guardWrite p Obj.SW_CONFIRM v (wrSwConfirm p v))

/-- SW_TIMEOUT (R402): L runs to 1,000 µs after the opening. -/
def execSwTimeout (s : State) : Host.Outcome State Fault Refusal :=
  .next (match s.wt.sw with
    | some o => (s.toL (o.openedAt + 1000000)).swClose.swEnd 6
    | none => s)

/-! ### Permits and the Watchtower's own checks (R388, R389, R400) -/

/-- DEBUG_PERMIT_EXPIRE (R400). -/
def execDebugPermitExpire (s : State) : Host.Outcome State Fault Refusal := .next s.clearDebug

/-- WT_CHANNEL_DISAGREE (R389). -/
def execWtChannelDisagree (s : State) : Host.Outcome State Fault Refusal := .next (s.wtFail 1)

/-- WT_OSC_FAULT (R389). -/
def execWtOscFault (s : State) : Host.Outcome State Fault Refusal :=
  .next (({ s with power := { s.power with wtOsc := false } }).wtFail 2)

/-- OUT_TEST_PULSE (R388): a released output is pulsed; `agree`: its read-back followed. -/
def execOutTestPulse (chanB agree : Bool) (s : State) : Host.Outcome State Fault Refusal :=
  .next (
    let released := if chanB then !s.wt.outB else !s.wt.outA
    if released && !s.power.safeOut && nbit (s.nk Obj.WT_FUNC_EN) 3 && !agree then s.wtFail (if chanB then 4 else 3) else s)

/-- READBACK_ERROR (R389). -/
def execReadbackError (chanB : Bool) (s : State) : Host.Outcome State Fault Refusal :=
  .next (s.wtFail (if chanB then 4 else 3))

/-- KCOPY_CRC_CHECK (R389): `good` when both active copies pass. -/
def execKcopyCrcCheck (good : Bool) (s : State) : Host.Outcome State Fault Refusal :=
  .next (if good then s else s.wtFail 5)

/-- HEARTBEAT_TIMEOUT (R399). -/
def execHeartbeatTimeout (s : State) : Host.Outcome State Fault Refusal :=
  .next (
    if s.frame.ticking && nbit (s.nk Obj.WT_FUNC_EN) 0 && !s.wt.hbSuspended then
      ({ s with wt := { s.wt with hbTimeout := true } }).cause 11 true
    else s)

/-! ### Supervision (R394 to R398) -/

/-- WT_RECORD_ACCEPT (R394): a record of a stream that has passed the Watchtower's own checks, as R109 lays it out; one that carries
SENS_FAULT or SYNC_LOST counts as lost. -/
def execWtRecordAccept (stream : Nat) (r : BitVec 128) (s : State) : Host.Outcome State Fault Refusal :=
  .next (
    let lost := r.getLsbD 30 || r.getLsbD 28
    let sat := r.getLsbD 31
    let samples := (List.range (min 6 (r.extractLsb' 20 4).toNat)).map fun i => r.extractLsb' (32 + 16 * i) 16
    if !s.frame.ticking || lost then s
    else
      let s1 : State := { s with wt := { s.wt with
        seen := stream :: s.wt.seen.filter (· != stream)
        supervised := stream :: s.wt.supervised.filter (· != stream)
        lostRun := tput (fun _ => 0) s.wt.lostRun stream 0 } }
      let s2 := samples.foldl (fun s x =>
        s.wtSample stream (if sat then (if x.toInt < 0 then -32768 else 32768) else x.toInt)) s1
      s2.cause 10 ((idxs 64 s2.streamLost) ≠ []))

/-- MEAS_LOST_EXPIRE (R394). -/
def execMeasLostExpire (stream : Nat) (s : State) : Host.Outcome State Fault Refusal :=
  .next (if s.frame.ticking && s.streamLost stream then s.cause 10 true else s)

/-- SLV_DISC_EXPIRE: a channel's two voltages have differed for SLV_DISC_US, or ADC-B has given no result for as long (R387, R396). -/
def execSlvDiscExpire (v : Nat) (s : State) : Host.Outcome State Fault Refusal :=
  .next (
    if (nbit s.wt.slvDisc.toNat v && s.slvEnabled v) || s.slvAbsent v then
      let s1 : State := { s with wt := { s.wt with slvHeld := bset s.wt.slvHeld v true } }
      (if s.nk (Obj.SLV_REACT v) = 2 then s1.cause 6 true else s1.wtWarn)
    else s)

/-- Periods of the two PULSE inputs differ too far, or one input alone stands still (R398). -/
def State.slsDiffer (s : State) : Bool :=
  let t0 := nbit s.wt.slsTimeout.toNat 0
  let t1 := nbit s.wt.slsTimeout.toNat 1
  let far : Bool := match (vget ⟨none, none, 0⟩ s.wt.sls 0).period, (vget ⟨none, none, 0⟩ s.wt.sls 1).period with
    | some a, some b => decide (s.ik Obj.SLS_DISC * (max a b : Nat) < (((max a b) - (min a b)) * 32768 : Nat))
    | _, _ => false
  !(t0 && t1) && (t0 || t1 || far)

/-- Causes TRIP follow the accepted levels and TRIP_SBK_MASK (R390). -/
def State.wtTrips (s : State) : State :=
  s.each (List.range 4) fun s n => s.cause n (nbit s.pwm.level.toNat n && nbit (s.nk Obj.TRIP_SBK_MASK) n)

/-- At S_c the causes follow the new settings, the counts of what changed having restarted (R410): those of the trip inputs, of the streams, of the PULSE
inputs and of the heartbeat. -/
def State.wtCauses (s : State) : State :=
  let s1 := s.wtTrips
  let keep (s : State) (b : Nat) (c : Bool) : State := if c then s else s.cause b false
  let s2 := (keep s1 6 s1.slvDiscPresent).cause 8 s1.slsPresent
  let s3 := keep s2 9 (s2.slsDiffer && decide (s2.nk Obj.SLS_REACT = 2))
  let s4 := s3.cause 10 ((idxs 64 s3.streamLost) ≠ [])
  keep s4 11 (nbit (s4.nk Obj.WT_FUNC_EN) 0)

/-- A channel's readings of another stream or input than it now names are no readings of its own, and a channel that is off has none
(R396). `o` is the state before the commit. -/
def State.slvForget (s o : State) : State :=
  s.each (List.range 4) fun s v =>
    let off := !o.slvEnabled v || !s.slvEnabled v
    let a := off || decide (o.gk (Obj.SLV_STREAM v) ≠ s.gk (Obj.SLV_STREAM v))
    let b := off || decide (o.gk (Obj.SLV_ADC_IN v) ≠ s.gk (Obj.SLV_ADC_IN v))
    { s with wt := { s.wt with
      slvReading := if a then vset s.wt.slvReading v none else s.wt.slvReading
      slvAdc := if b then vset s.wt.slvAdc v none else s.wt.slvAdc
      slvDisc := if a || b then bset s.wt.slvDisc v false else s.wt.slvDisc
      slvHeld := if a || b then bset s.wt.slvHeld v false else s.wt.slvHeld
      slvAt := if b then vset s.wt.slvAt v s.nowL else s.wt.slvAt } }

/-- WT_PULSE_EDGE (R398): a rising edge of receiver `n`, accepted at the time `t` in ns of the Watchtower's clock. Before S_0 periods are
measured and not judged (R394). -/
def execWtPulseEdge (n t : Nat) (s : State) : Host.Outcome State Fault Refusal :=
  .next (
    let x := vget ⟨none, none, 0⟩ s.wt.sls n
    let per : Option Nat := x.last.map fun l => (t - l) / 10 * 10
    let run := match per with
      | some q => if s.frame.ticking then runOf x.run (decide (q < s.nk Obj.SLS_MIN_PERIOD_NS)) else 0
      | none => x.run
    let s1 : State := { s with wt := { s.wt with
      sls := vset s.wt.sls n ⟨some t, if per.isSome then per else x.period, run⟩, slsTimeout := bset s.wt.slsTimeout n false } }
    if !s1.frame.ticking || decide (s1.nk Obj.SLS_REACT = 0) then s1
    else

      let s2 := if newWarn (s1.nk Obj.SLS_REACT) (s1.nk Obj.SLS_COUNT) x.run run then s1.wtWarn else s1
      let s3 := if s2.nk Obj.SLS_REACT = 2 then s2.cause 8 s2.slsPresent else s2
      if s3.slsDiffer then s3 else s3.cause 9 false)

/-- SLS_TIMEOUT (R398): one input has had no edge for SLS_TIMEOUT_US. -/
def execSlsTimeout (n : Nat) (s : State) : Host.Outcome State Fault Refusal :=
  .next (
    let s1 : State := { s with wt := { s.wt with slsTimeout := bset s.wt.slsTimeout n true } }
    if s1.slsDiffer then s1 else s1.cause 9 false)

/-- SLS_DISC_EXPIRE (R398): the discrepancy has held for SLS_DISC_US. -/
def execSlsDiscExpire (s : State) : Host.Outcome State Fault Refusal :=
  .next (
    if s.frame.ticking && s.slsDiffer && decide (s.nk Obj.SLS_REACT ≠ 0) then
      (if s.nk Obj.SLS_REACT = 2 then s.cause 9 true else s.wtWarn)
    else s)

/-! ### Safe data (R404 to R407) -/

/-- Words 01, 23, 45 and 67 of a PDU's data. -/
def pduWords (bs : List Byte) : Vector Word 4 :=
  Vector.ofFn fun (i : Fin 4) => w32 (ofLeBytes ((bs.drop (4 * i)).take 4))

/-- The checks of R405 on one PDU addressed to connection `c`. -/
def State.pduHandle (s : State) (c : Nat) (bs : List Byte) : State :=
  let s0 := s.incL Obj.SD_RX_CNT
  let n := (ofLeBytes ((bs.drop 1).take 1)) % 16
  let cmd := ofLeBytes (bs.take 1)
  let seq := ofLeBytes ((bs.drop 2).take 2)
  let body := bs.take (8 + 2 * n)
  let crc := w32 (ofLeBytes ((bs.drop (8 + 2 * n)).take 4))
  let x := s0.conn c
  if crc ≠ crc32c body ∨ bs.length < 12 + 2 * n ∨ 8 < n ∨ (cmd ≠ 0x10 ∧ cmd ≠ 0x20) then s0.incL Obj.SD_CRC_ERR_CNT
  else if w32 (ofLeBytes ((bs.drop 4).take 4)) ≠ s0.connId c ∨ s0.connId c ≠ s0.gk (Obj.CONN_ID c) then s0.incL Obj.SD_MASQ_CNT
  else if cmd = 0x10 then
    (if x.st = .wait ∨ x.st = .failed then (s0.setConn c { x with st := .run, lastSeq := seq }).sdCauses else s0)
  else if x.st ≠ .run then s0
  else
    let d := (seq + 65536 - x.lastSeq) % 65536
    if 1 ≤ d ∧ d ≤ s0.connWin c then
      let data := pduWords ((bs.drop 8).take (2 * n))
      let req := nbit (data[0]).toNat 1
      let s1 := (s0.setConn c { x with lastSeq := seq, rxData := data, resetReq := req }).sdCauses
      if req && !x.resetReq then s1.sbkReset.1 else s1
    else s0.incL Obj.SD_SEQ_ERR_CNT

/-- The twin of a PRP frame of connection `c` that has come on the other port within the last 400 ms (R405, log entry 154). -/
def State.prpTwin (s : State) (c : Nat) (en3 : Bool) (q : BitVec 16) : Bool :=
  (s.conn c).prp.any fun x => decide (x.1 = q) && x.2.1 != en3 && decide (s.nowL < x.2.2 + 400000000)

/-- Duplicate discard (R405): the second of two PRP frames ends here, and a first one is remembered. Answers whether the frame goes on. -/
def State.prpPass (s : State) (c : Nat) (en3 : Bool) (prp : Option (BitVec 16)) : State × Bool :=
  match prp with
  | none => (s, true)
  | some q =>
    let x := s.conn c
    let recent := x.prp.filter fun y => decide (y.1 ≠ q) && decide (s.nowL < y.2.2 + 400000000)
    if s.prpTwin c en3 q then (s.setConn c { x with prp := recent }, false)
    else (s.setConn c { x with prp := (q, en3, s.nowL) :: recent }, true)

/-- SAFETY_PDU_RECEIVE (R405, R407): a PDU for connection `c` on EN2 or EN3, `prp` being the sequence number of its PRP trailer. -/
def execSafetyPduReceive (c : Nat) (en3 : Bool) (prp : Option (BitVec 16)) (bytes : List Byte) (s : State) :
    Host.Outcome State Fault Refusal :=
  .next (
    if !s.connEn c || s.connTx c then s
    else if s.connPar c then
      let x := s.conn c
      match x.half with
      | none => s.setConn c { x with half := some (en3, bytes) }
      | some (port, twin) =>
        if port = en3 then (s.setConn c { x with half := some (en3, bytes) }).incL Obj.SD_PAR_MISMATCH_CNT
        else if twin = bytes then (s.setConn c { x with half := none }).pduHandle c bytes
        else (s.setConn c { x with half := none }).incL Obj.SD_PAR_MISMATCH_CNT
    else
      let r := s.prpPass c en3 prp
      if r.2 then r.1.pduHandle c bytes else r.1)

/-- PAR_WINDOW_EXPIRE (R407). -/
def execParWindowExpire (c : Nat) (s : State) : Host.Outcome State Fault Refusal :=
  .next (
    let x := s.conn c
    if x.half.isSome then (s.setConn c { x with half := none }).incL Obj.SD_PAR_MISMATCH_CNT else s)

/-- SD_WATCHDOG_EXPIRE (R405). -/
def execSdWatchdogExpire (c : Nat) (s : State) : Host.Outcome State Fault Refusal :=
  .next (
    let x := s.conn c
    if s.connEn c && !s.connTx c && decide (x.st = .run) then
      let s1 := ((s.setConn c { x with st := .failed }).incL (Obj.CONN_FAIL_CNT c)).irqEdge 11 2
      if s1.connReact c then s1.sdCauses else s1.wtWarn
    else s)

/-! ### Objects (R411, R412) -/

/-- WT_STATUS; at reset too it shows what its fields mean (log entry 156). -/
def State.wtStatus (s : State) : Nat :=
  b2n s.wt.fault * 32768 + b2n (decide (s.wt.sbkCause ≠ 0)) * 16384 + b2n s.wt.outA * 8192 + b2n s.wt.outB * 4096
    + b2n s.wt.testPermit * 2048 + b2n s.wt.debugPermit * 1024 + b2n s.wt.hbSuspended * 512 + b2n s.adc.claimed * 256
    + b2n s.sdReady * 128 + b2n s.wt.sw.isSome * 64

/-- The words of a TX connection's DATA PDU (R406). -/
def State.txWords (s : State) : List Byte :=
  leBytes 2 s.wtStatus ++ leBytes 2 s.wt.sbkCause.toNat ++ leBytes 2 s.vdcWt ++ leBytes 2 s.wt.sbkActive.toNat

/-- A PDU with its CRC (R404). -/
def pduBytes (cmd n seq : Nat) (id : Word) (data : List Byte) : List Byte :=
  let body := leBytes 1 cmd ++ leBytes 1 n ++ leBytes 2 seq ++ leBytes 4 id.toNat ++ data
  body ++ leBytes 4 (crc32c body).toNat

/-- A frame from its EtherType on (R404): padded with zeros to 46 bytes of payload, which the PRP trailer ends (R405, log entry 154). `trailer`
is its sequence number and the LAN; in parallel mode there is none (R407). -/
def sdFrame (pdu : List Byte) (trailer : Option (BitVec 16 × Bool)) : List Byte :=
  let beWord (x : Nat) : List Byte := (leBytes 2 x).reverse
  let rct := match trailer with
    | some (q, lanB) => beWord q.toNat ++ beWord ((if lanB then 11 else 10) * 4096 + max 46 (pdu.length + 6)) ++ beWord 0x88FB
    | none => []
  beWord 0x88B5 ++ pdu ++ List.replicate (46 - pdu.length - rct.length) 0 ++ rct

/-- SD_TX_SEND (R404 to R407): the CONNECT PDU first, then DATA, in one frame on each LAN. -/
def execSdTxSend (c : Nat) (s : State) : Host.Outcome State Fault Refusal :=
  .next (
    let x := s.conn c
    if s.connEn c && s.connTx c && s.frame.ticking && decide (x.st ≠ .failed) then
      let id := s.connId c
      let pdu := if x.st = .run then pduBytes 0x20 4 x.txSeq id s.txWords else pduBytes 0x10 0 x.txSeq id []
      let par := s.connPar c
      let frame (lanB : Bool) : List Byte := sdFrame pdu (if par then none else some (s.wt.prpSeq, lanB))
      let s1 : State := { s with wt := { s.wt with prpSeq := if par then s.wt.prpSeq else s.wt.prpSeq + 1 } }
      s1.setConn c { x with st := .run, txSeq := (x.txSeq + 1) % 65536, sent := pdu, frames := (frame false, frame true) }
    else s)

/-- Objects of 2B00, 2B01, 2B38 and 2B40 to 2B7F that the Watchtower holds itself. -/
def view18 (s : State) (key : Nat) : Option Word :=
  if key = Obj.WT_STATUS then some (w32 s.wtStatus)
  else if key = Obj.SBK_CAUSE then some (s.wt.sbkCause.zeroExtend 32)
  else if key = Obj.SBK_ACTIVE then some (s.wt.sbkActive.zeroExtend 32)
  else if key = Obj.VDC_WT then some (w32 s.vdcWt)
  else if key = Obj.WT_FAULT_CODE then some (w32 s.wt.faultCode)
  else if key = Obj.SW_RESULT then some (w32 s.wt.swResult)
  else if key = Obj.SLS_PERIOD_A_NS then some (w32 ((vget ⟨none, none, 0⟩ s.wt.sls 0).period.getD 0))
  else if key = Obj.SLS_PERIOD_B_NS then some (w32 ((vget ⟨none, none, 0⟩ s.wt.sls 1).period.getD 0))
  else if 0x2B40 ≤ key / 256 ∧ key / 256 ≤ 0x2B7F then
    let x := s.conn (key / 256 - 0x2B40)
    match key % 256 with
    | 5 => some (w32 x.st.code)
    | 6 => some (w32 x.lastSeq)
    | 7 => some x.rxData[0]
    | 8 => some x.rxData[1]
    | 9 => some x.rxData[2]
    | 10 => some x.rxData[3]
    | _ => none
  else none

end Sys2Proof.Machine
end

