-- ==== Sys2Proof/Machine/CommitCheck.lean ====
section
/-! DEFINITION. The validation of a staged copy (R68): every refusal that the chapters give for a commit, by code. Within a code the
lowest object is reported. -/
namespace Sys2Proof.Machine

/-- The lowest key of the conditions that hold: each pair is an object and whether it breaks its rule. -/
def lowest (l : List (Nat × Bool)) : Option Nat :=
  l.foldl (fun best x =>
    if x.2 then (match best with
      | none => some x.1
      | some b => some (min b x.1))
    else best) none

/-- A staged value differs from the active one. -/
def State.changed (s : State) (k : Nat) : Bool := decide (s.gs k ≠ s.ga k)
/-- Some object of a range of keys changes. -/
def State.changedIn (s : State) (lo hi : Nat) : Bool :=
  (s.stg.map (·.1) ++ s.act.map (·.1)).any fun k => decide (lo ≤ k) && decide (k < hi) && s.changed k
/-- The K-class objects that the safety write sequence makes active at once (R402). -/
def atOnce (k : Nat) : Bool := k == Obj.SBK_RESET || k == Obj.TEST_PERMIT || k == Obj.DEBUG_PERMIT
/-- Some staged Watchtower object of a range of keys changes. -/
def State.changedK (s : State) (lo hi : Nat) : Bool :=
  (s.kStg.map (·.1) ++ s.kAct.map (·.1)).any fun k =>
    decide (lo ≤ k) && decide (k < hi) && !atOnce k && decide (s.gks k ≠ s.gk k)
/-- A staged manifest, and whether it changes. -/
def State.manS (s : State) (n : Nat) : Manifest := vget Manifest.empty s.routes.manStaged n
def State.manChanged (s : State) (n : Nat) : Bool := decide (s.manS n ≠ s.manifest n)
/-- Staged Ledger configurations as entries. -/
def State.cfgEntries (s : State) : List (Nat × Entry) := s.ledger.staged.map fun x => (x.1, ⟨0, 0, 0, x.2⟩)
def State.cfgEntry (s : State) (i : Nat) : Entry := ⟨0, 0, 0, s.stagedCfg i⟩
def State.cfgEnabled (s : State) : List (Nat × Entry) := s.cfgEntries.filter fun x => x.2.enabled

/-! ### Ranges and enumerations (R68, R532) -/

/-- A stored value breaks its object's type or range. -/
def outOfRange (k : Nat) (v : Word) : Bool :=
  match rowOf k with
  | none => true
  | some (r, _, _) => !(r.ty.fits v && r.rng.ok (v &&& w32 r.bits))
/-- The object is an enumeration, or the field with the bad value has listed codes: NOTCH_CFG.START (R298), KIND of a probe
(R301), EDGE of LANTERN_TRIG (R306). -/
def isEnum (k : Nat) (v : Word) : Bool :=
  match rowOf k with
  | some (r, _, _) => decide (r.ty = .enum8) || (decide (0x2710 ≤ k / 256 ∧ k / 256 ≤ 0x271B) && decide (k % 256 = 1))
      || decide (k / 256 = 0x2706) || (decide (k = Obj.LANTERN_TRIG) && decide (fld v 15 8 < 64))
  | none => false
/-- Every listed value of the staged copies with whether it is out of range. -/
def State.rangeFails (s : State) (enum : Bool) : List (Nat × Bool) :=
  (s.stg ++ s.kStg).map fun x => (x.1, outOfRange x.1 x.2 && (isEnum x.1 x.2 == enum))

/-! ### Manifests (R98, R116 to R118) -/

/-- Path of the unit above. -/
def pathParent (p : Nat) : Nat := (pathDepth p - 1) * 4096 + p % 16 ^ (pathDepth p - 1)
/-- One entry against those before it, latest first: depth-first order, its parent an earlier waystation, unused port fields 0, a
waystation no deeper than 2, a target within its range (R98, R117). -/
def entryOk (before : List Word) (e : Word) : Bool :=
  let p := entPath e
  (match before with
   | [] => decide (p = 0)
   | b :: _ => decide (pathKey (entPath b) < pathKey p) && decide (pathDepth p ≠ 0)
      && before.any fun w => decide (entKind w = 0) && decide (entPath w = pathParent p))
  && decide (p % 4096 < 16 ^ pathDepth p)
  && (decide (entKind e ≠ 0) || decide (pathDepth p ≤ 2))
  && (decide (entKind e ≠ 1 ∧ entKind e ≠ 2) || decide (entTarget e < 12288))
/-- All entries in order. -/
def orderOk : List Word → List Word → Bool
  | _, [] => true
  | before, e :: rest => entryOk before e && orderOk (e :: before) rest
/-- The manifest is well formed (R116, R118). -/
def Manifest.ok (m : Manifest) : Bool :=
  orderOk [] m.entries && decide (m.slotCount = slotSum m.entries) && decide (m.entries.length ≤ 600) && decide (m.slotCount ≤ 512)
/-- What an entry names, apart from waystations: a cell, a stream or a group. -/
def entName (e : Word) : Option (Nat × Nat) :=
  match entKind e with
  | 1 | 2 => some (1, entTarget e)
  | 3 => some (3, entStream e)
  | 4 => some (4, entGroup e)
  | _ => none
/-- Names of all lanes. -/
def State.manNames (s : State) : List (Nat × Nat) :=
  (List.range 32).flatMap fun n => (s.manS n).entries.filterMap entName
/-- Staged cell positions of all lanes: KIND and Ledger index. -/
def State.manCells (s : State) : List (Nat × Nat) :=
  (List.range 32).flatMap fun n => (s.manS n).entries.filterMap fun e =>
    if entKind e = 1 ∨ entKind e = 2 then some (entKind e, entTarget e) else none

/-! ### Code 0x01 and 0x02, block by block -/

/-- Manifests, the Ledger and the group buffers (R118, R138, R167). -/
def State.routeFails (s : State) : List (Nat × Bool) :=
  let en := s.cfgEnabled
  let cells := s.manCells
  [(Obj.MAN_STAGED, (List.range 32).any (fun n => !(s.manS n).ok) || !decide (s.manNames.Nodup)),
   (Obj.CFG_WORD, en.any (fun x => decide (11 < x.2.arm)) || !decide ((en.map fun x => (x.2.arm, x.2.pos)).Nodup)
      || en.any (fun x => !cells.any fun c => c.2 == x.1)
      || cells.any (fun c => !(s.cfgEntry c.2).enabled || !decide (c.1 = 1 + b2n (s.cfgEntry c.2).fullBridge)))]
  ++ ((List.range 16).map fun j => (Obj.GROUP_BUF_OFF j,
        decide (s.ns (Obj.GROUP_BUF_OFF j) % 8 ≠ 0) || decide (1048576 < s.ns (Obj.GROUP_BUF_OFF j) + 384)))

/-- The arms (R192, R214). -/
def State.armFails (s : State) : List (Nat × Bool) :=
  let en := s.cfgEnabled
  (List.range 12).flatMap fun a =>
    [(Obj.ARM_VRATED a, decide (s.ns (Obj.ARM_VRATED a) = 0) && en.any fun x => x.2.arm == a),
     (Obj.VCELL_NOM a, decide (s.ns (Obj.MEAN_SEL a) = 2) && decide (s.ns (Obj.VCELL_NOM a) = 0)),
     (Obj.EDGE_MIN_NS a, decide (s.ns Obj.TF_NS / 4 < s.ns (Obj.EDGE_MIN_NS a)))]

/-- A descriptor's own conditions by word, `eng` being the engines enabled (R273). -/
def descFails (eng : Nat) (d : Desc) : List (Nat × Bool) :=
  let frame := decide (d.cls = 0)
  [(Obj.DESC_W0, nbit d.w0.toNat 28 || decide (fld d.w0 15 13 ≠ 0)
      || (d.en && frame && !decide ((idxs 8 (nbit d.engines)).length = 1)) || (d.en && decide (d.engines &&& eng = 0))),
   (Obj.DESC_W1, decide (fld d.w1 23 18 ≠ 0) || decide (fld d.w1 15 12 ≠ 0) || (!frame && decide (d.armMask ≠ 0))),
   (Obj.DESC_W2, (decide (d.cls = 1) && (decide (d.period < 2) || !decide (d.low < d.period)))
      || (decide (d.cls = 2) && decide (d.low = 0)) || (decide (d.cls = 3) && decide (fld d.w2 15 8 ≠ 0))),
   (Obj.DESC_W3, decide (fld d.w3 31 16 ≠ 0))]
/-- The scheduler (R273). -/
def State.schedFails (s : State) : List (Nat × Bool) :=
  let ds := s.sched.staged.map (·.2)
  let frames := ds.filter fun d => d.en && decide (d.cls = 0)
  (ds.flatMap (descFails (s.ns Obj.ENGINE_EN))) ++ (ds.map fun d => (Obj.DESC_W0, d.en && decide (d.cls ≠ 0)
      && frames.any fun f => decide (f.engines &&& d.engines ≠ 0) && decide (f.prio ≤ d.prio)))
/-- An EVENT descriptor names a source that R276 does not list. -/
def State.eventFail (s : State) : Bool :=
  s.sched.staged.any fun x => decide (x.2.cls = 3) && decide (0x51 < fld x.2.w2 7 0)

/-- A notch that is enabled (R296), F0 and BW in mHz. -/
def notchFail (f0 bw tf : Nat) : Nat × Nat → Bool
  | (0, _) => decide (f0 < 100000) || decide (10000000 < f0) || decide (450000000000 ≤ f0 * tf)
  | _ => decide (bw < 1000) || decide (f0 < bw)
/-- The control aids (R296, R302). -/
def State.aidsFails (s : State) : List (Nat × Bool) :=
  let tf := s.ns Obj.TF_NS
  let notch (a b f w : Nat) : List (Nat × Bool) :=
    [(f, nbit (s.ns (Obj.NOTCH_CFG a)) b && notchFail (s.ns f) (s.ns w) tf (0, 0)),
     (w, nbit (s.ns (Obj.NOTCH_CFG a)) b && notchFail (s.ns f) (s.ns w) tf (1, 0))]
  ((List.range 12).flatMap fun a => notch a 0 (Obj.N1_F0 a) (Obj.N1_BW a) ++ notch a 1 (Obj.N2_F0 a) (Obj.N2_BW a))

  ++ [(Obj.LANTERN_POST, decide (65536 / (2 + s.ns Obj.LANTERN_NPROBES) ≤ s.ns Obj.LANTERN_POST)),
    (Obj.LANTERN_TRIG, decide (s.ns Obj.LANTERN_NPROBES ≤ fld (s.gs Obj.LANTERN_TRIG) 7 4))]

/-- Time, the Phasor Unit and the Wave Tagger (R308, R331, R335, R338, R341). -/
def State.timeFails (s : State) : List (Nat × Bool) :=
  let f0 := if s.ns Obj.PH_F0 = 1 then 60 else 50
  let rate := s.ns Obj.PH_RATE
  let cfg (c : Nat) : Word := s.gs (Obj.PH_CHAN_CFG c)
  let off := s.ns Obj.PH_SHM_OFF
  let bothOn := decide (s.ns (Obj.DOM_EN 0) = 1) && decide (s.ns (Obj.DOM_EN 1) = 1)
  [(Obj.PTP_DOMAIN 1, bothOn && decide (s.ns (Obj.DOM_SRC 0) = 0) && decide (s.ns (Obj.DOM_SRC 1) = 0)
      && decide (s.gs (Obj.PTP_DOMAIN 0) = s.gs (Obj.PTP_DOMAIN 1))),
   (Obj.DOM_SRC 1, decide (s.ns (Obj.DOM_SRC 1) = 1)),
   (Obj.PH_RATE, !rateListed f0 rate
      || (decide (mCycles f0 rate = 0) && (List.range 24).any fun c => phEn (cfg c) && phClassM (cfg c))),
   (Obj.PH_SHM_OFF, decide (off ≠ 0xFFFFFFFF) && (decide (off % 512 ≠ 0) || decide (1048576 < off + 512 * s.ns Obj.PH_RING_LEN))),
   (Obj.PH_RING_LEN, decide (off ≠ 0xFFFFFFFF) && decide (s.ns Obj.PH_RING_LEN = 0))]
  ++ ((List.range 24).map fun c => (Obj.PH_CHAN_CFG c,
        (if phKind (cfg c) = 0 then decide (63 < phSrc (cfg c))
         else (phSources (cfg c)).any fun x => !(decide (x < 24) && phEn (cfg x) && decide (phKind (cfg x) = 0)
           && (phClassM (cfg x) == phClassM (cfg c))))))
  ++ ((List.range 12).flatMap fun w =>
        let v := s.gs (Obj.WT_CFG w)
        [(Obj.WT_CFG w, nbit v.toNat 31 && (decide (fld v 15 8 = 0) || decide (fld v 30 29 = 0))),
         (Obj.WT_ARM w, nbit v.toNat 31 && decide ((s.gs (Obj.WT_THR w)).toInt ≤ (s.gs (Obj.WT_ARM w)).toInt))])

/-- The converters and Local PWM (R369, R385). -/
def State.ioFails (s : State) : List (Nat × Bool) :=
  ((List.range 2).flatMap fun i =>
        let per := s.ns (Obj.REG_PERIOD_NS i)
        [(Obj.REG_PERIOD_NS i, decide (per ≠ 0) && (decide (per < 1000 * s.ns (Obj.REG_LEN i)) || decide (10000000 < per))),
         (Obj.INJ_TRIG_SEL i, (decide (s.ns (Obj.INJ_TRIG i) = 1) && decide (3 < s.ns (Obj.INJ_TRIG_SEL i)))
            || (decide (s.ns (Obj.INJ_TRIG i) = 2) && decide (63 < s.ns (Obj.INJ_TRIG_SEL i))))]
        ++ (List.range 8).map fun j =>
            let f := s.gs (Obj.FILT_CFG i j)
            (Obj.FILT_CFG i j, filtEn f && (decide (filtN f = 0) || decide (filtD f = 0))))
  ++ ((List.range 16).map fun p =>
        let c := s.gs (Obj.PAIR_CFG p)
        let period := (s.ns (Obj.PSC p) + 1) * (fld (s.pwmPair p).active 31 16 + 1)
        (Obj.PAIR_CFG p, decide (fld c 9 8 = 3) || (decide (fld c 9 8 = 2) && !nbit c.toNat 1)
          || (nbit c.toNat 4 && decide (s.ns Obj.TF_NS % period ≠ 0))))

/-- The Watchtower, the pair, the fault classes and the dictionary (R396, R411, R436, R438, R489, R501). -/
def State.coreFails (s : State) : List (Nat × Bool) :=
  let cls (n : Nat) : Nat := fld (s.gs (Obj.FAULT_CLASS_0 + n / 16)) (2 * (n % 16) + 1) (2 * (n % 16))
  let phy (j : Nat) : Nat := s.ns Obj.PHY_ADDR / 256 ^ j % 256
  let len := s.ns Obj.MIR_FW_LEN
  ((List.range 4).map fun v => (Obj.SLV_REACT v, decide (s.gks (Obj.SLV_REACT v) ≠ 0)
      && decide (s.gks (Obj.SLV_STREAM v) = 0xFF) && decide (s.gks (Obj.SLV_ADC_IN v) = 0xFF)))
  ++ ((List.range 64).map fun c =>
        let v := s.gks (Obj.CONN_CFG c)
        (Obj.CONN_CFG c, (nbit v.toNat 31 && decide (fld v 23 20 = 0)) || (nbit v.toNat 29 && decide (3 < c))
          || (nbit v.toNat 30 && decide (fld v 27 24 ≠ 4))))
  ++ [(Obj.MIR_FW_OFF, decide (1048576 < s.ns Obj.MIR_FW_OFF + len)), (Obj.MIR_FW_RX_OFF, decide (1048576 < s.ns Obj.MIR_FW_RX_OFF + 8 + len))]
  ++ ((List.range 4).map fun j => (Obj.FAULT_CLASS_0 + j,
        [30, 31, 38, 40, 41].any fun n => decide (n / 16 = j) && decide (cls n ≠ 3)))
  ++ [(Obj.DICT_BUDGET, decide (s.ns Obj.TF_NS / 2 < s.ns Obj.DICT_BUDGET * 40)),
      (Obj.FN_MIN, decide (s.ns Obj.DICT_BUDGET ≤ s.ns Obj.FN_MIN)),
      (Obj.PHY_ADDR, (List.range 4).any fun i => (List.range i).any fun j =>
        decide (128 ≤ phy i) && decide (phy i = phy j))]

/-- Code 0x01: the lowest object whose value is out of range or whose record is malformed. -/
def State.malformed (s : State) : Option Nat :=
  lowest (s.rangeFails false ++ s.routeFails ++ s.armFails ++ s.schedFails ++ s.aidsFails ++ s.timeFails ++ s.ioFails ++ s.coreFails)

/-- Code 0x02: the lowest object with an enumeration code that is not listed. -/
def State.unlistedCode (s : State) : Option Nat :=
  lowest (s.rangeFails true ++ [(Obj.DESC_W2, s.eventFail),
    (Obj.MAN_STAGED, (List.range 32).any fun n => (s.manS n).entries.any fun e => decide (4 < entKind e))])

/-! ### The frame plan (R23, R24, R29) -/

/-- DK of a staged copy (R29). -/
def State.dkStaged (s : State) : Nat :=
  if s.ns Obj.DK_OFFSET_NS = 0 then 55 * s.ns Obj.TF_NS / 100 else s.ns Obj.DK_OFFSET_NS
/-- Largest measured delay of the lanes in a manifest, rounded up to 10 ns (R23). -/
def State.longest (s : State) (mans : Nat → Manifest) : Nat :=
  ceilDiv (((List.range 32).map fun n => if (mans n).entries.isEmpty then 0 else s.nl (Obj.ROUTE_DELAY_Q n)).foldl max 0) 40 * 10
/-- P of a staged copy (R23). -/
def State.pStaged (s : State) : Nat :=
  if s.ns Obj.P_SET = 0 then 2 + ceilDiv (s.longest s.manS) (s.ns Obj.TF_NS) else s.ns Obj.P_SET
/-- Leaf capacity of a lane in slots (R115). -/
def laneCap (tf : Nat) : Nat := min 512 (16 * ((tf * 1151495 - 25600000) / 54400000))
/-- LEN of the full packet of a staged copy (R420). -/
def State.mirLenStaged (s : State) : Nat :=
  228 + 2 * s.ns Obj.MIR_DELTA_MAX + s.ns Obj.MIR_ROLL_BYTES + s.ns Obj.MIR_FW_LEN
/-- T_F, D_k, P_SET or a manifest changes. -/
def State.touchesPlan (s : State) : Bool :=
  [Obj.TF_NS, Obj.DK_OFFSET_NS, Obj.P_SET].any s.changed || (List.range 32).any s.manChanged
/-- The mirror content changes. -/
def State.touchesMirror (s : State) : Bool :=
  [Obj.PAIR_EN, Obj.MIR_DELTA_MAX, Obj.MIR_ROLL_BYTES, Obj.MIR_FW_LEN].any s.changed
/-- Modes in which T_F, P and PAIR_EN may change (R22, R25, R413). -/
def State.planMode (s : State) : Bool := decide (s.mode = .boot) || decide (s.mode = .charge) || decide (s.mode = .ready)
/-- P after the commit: recomputed where it may change, or where the frame plan is touched (R23, R25). -/
def State.pNext (s : State) : Nat := if s.planMode || s.touchesPlan then s.pStaged else s.p

/-- First lane with a staged manifest that breaks a check. -/
def State.badLane (s : State) (f : Nat → Bool) : Option Nat := (List.range 32).find? fun n => !(s.manS n).entries.isEmpty && f n

/-- Code 0x06: COMMIT_DETAIL of the first check of R29 that fails. -/
def State.planFail (s : State) : Option Nat :=
  let tf := s.ns Obj.TF_NS
  let dk := s.dkStaged
  let slots (n : Nat) : Nat := slotSum (s.manS n).entries
  let p := s.pNext
  let late (n : Nat) : Bool :=
    let q := s.nl (Obj.ROUTE_DELAY_Q n)
    decide (40960 < q) || decide (p * tf < dk + 150 + tCv (slots n) + ceilDiv q 4 + 50)
  if tf < 500 ∨ 25000 < tf ∨ tf % 10 ≠ 0 then some 1
  else if dk < 270 ∨ tf < dk + 150 then some 2
  else match s.badLane fun n => decide (laneCap tf < slots n) with
    | some n => some (3 + 256 * n)
    | none => match s.badLane fun n => decide (tf < tCv (slots n) + 50) with
      | some n => some (4 + 256 * n)
      | none => match s.badLane late with
        | some n => some (5 + 256 * n)
        | none =>
          if p < 2 ∨ 16 < p then some 5
          else if decide (s.ns Obj.PAIR_EN = 1) && decide (min 2048 ((tf - 50) * 3) < s.mirLenStaged) then some 6
          else none

/-! ### The other codes -/

/-- A change that the mode does not permit (R22, R25, R118, R169, R403, R413, R433); `p` is the P of the commit. -/
def State.modeFail (s : State) (p : Nat) : Bool :=
  let run := decide (s.mode = .run) || decide (s.mode = .ridethrough)
  let serve := run || decide (s.mode = .mirror)
  (!s.planMode && (s.changed Obj.TF_NS || decide (p ≠ s.p) || s.changed Obj.PAIR_EN))
  || (serve && ((List.range 32).any fun n => s.manChanged n &&
      (decide ((s.route n).st = .inService) || decide ((s.route n).st = .verifying))))
  || (serve && s.cfgIndices.any fun i =>
      let e := s.entry i
      let c := s.cfgEntry i
      e.enabled && (decide (e.w3.toNat / 65536 ≠ c.w3.toNat / 65536)
        || (!c.enabled && decide (e.health ≠ 4) && decide (e.health ≠ 3))))
  || (serve && s.changedIn (Obj.PAIR_EN + 1) (Obj.PAIR_EN + 7))
  || (run && s.changedK 0x2B0000 0x2C0000)

/-- The commit changes an object of ADC-B that the Watchtower claims (R368). -/
def State.claimFail (s : State) : Bool := s.adc.claimed && (s.stg ++ s.act).any fun x => isAdcB x.1 && s.changed x.1

/-- Code 0x03: a change that the mode, the Watchtower's claim or the life-cycle state does not permit (R368, R460). -/
def State.changeFail (s : State) : Bool :=
  s.modeFail s.pNext
  || s.claimFail
  || (decide (s.mem.life = .deployed) && (s.changed Obj.TAMPER_EN || s.changed Obj.TAMPER_FILT_US))

/-- A pending commit is not permitted in the mode in force (R69): SAFE refuses a change of T_F or P only. P is the one that was validated. -/
def State.lateFail (s : State) : Bool :=
  if s.mode = .safe then s.changed Obj.TF_NS || decide (s.commit.p ≠ s.p) else s.modeFail s.commit.p

/-- Code 0x05: more cells than R15 allows. -/
def State.cellFail (s : State) : Bool :=
  let en := s.cfgEnabled
  decide (12288 < en.length) || (List.range 12).any fun a => decide (2048 < (en.filter fun x => x.2.arm == a).length)

/-- Code 0x0A: a changed manifest differs from the lane's last completed walk (R118). -/
def State.sigFail (s : State) : Bool :=
  (List.range 32).any fun n => s.manChanged n && !(s.manS n).entries.isEmpty && (s.route n).walked
    && decide (manSig (s.manS n).entries ≠ s.gl (Obj.TREE_SIG n))

/-- Code 0x0B: the dictionary's staged K-class content differs from the Watchtower's staged copy (R403). -/
def State.kFail (s : State) : Bool :=
  (s.stg.filter fun x => isClassK x.1).any (fun x => decide (x.2 ≠ s.gks x.1)) || s.kStg.any fun x => decide (s.gs x.1 ≠ x.2)

/-- Code 0x0E: a pair with a route whose first unit is not a dual-homed waystation, or without the settings of R432 (R13, R118). -/
def State.pairFail (s : State) : Bool :=
  decide (s.ns Obj.PAIR_EN = 1) && (decide (s.ns Obj.CELL_HOLD_LIMIT < 3) || !nbit (s.ns Obj.SEL_CFG) 0
    || (s.badLane fun n => !(decide (entKind ((s.manS n).entries.headD 0) = 0) && nbit (s.manS n).flags 0)).isSome)

/-- Code 0x10: lane 31 is both the upstream port and in the manifest (R17). -/
def State.upFail (s : State) : Bool := decide (s.ns Obj.UPLINK_EN = 1) && !(s.manS 31).entries.isEmpty

/-- Outcome of validation (R68); the frame plan is checked where P may change (R24) and where the commit touches it (R29): COMMIT_RESULT, and COMMIT_DETAIL where R68 gives one. -/
def State.verdict (s : State) (boot : Bool) : Nat × Option Nat :=
  match s.malformed with
  | some k => (0x01, some k)
  | none => match s.unlistedCode with
    | some k => (0x02, some k)
    | none =>
      if !boot && s.changeFail then (0x03, none)
      else if s.cellFail then (0x05, none)
      else match (if boot || s.planMode || s.touchesPlan || s.touchesMirror then s.planFail else none) with
        | some d => (0x06, some d)
        | none =>
          if !boot && s.sigFail then (0x0A, none)
          else if s.kFail then (0x0B, none)
          else if s.pairFail then (0x0E, none)
          else if s.upFail then (0x10, none)
          else (0, some 0)

end Sys2Proof.Machine
end

