-- ==== Sys2Proof/Machine/Tasks.lean ====
section
/-! DEFINITION. The Task Scheduler's commands: host releases (R278, R279), the delay list (R275), the descriptor window
(R272), the phases of a dispatch (R281 to R284) and the cycle warning; and its objects as they read (R287, R288). -/
namespace Sys2Proof.Machine

/-! ### Releases by the host or by firmware (R277 to R279) -/

/-- A release by the host or firmware that shedding discards (R440). -/
def State.softShed (s : State) (n : Nat) : Bool :=
  decide ((s.desc n).cls = 3) && (s.desc n).en && (s.desc n).allows s.mode && s.shed n

/-- Outcome of a release of an EVENT descriptor by the host or the TASK_RELEASE port: the result code of R279. HOST_REFUSE_CNT counts
where there is no room (R278). A release that shedding discards has no code there: its code is a free value within the list (log
entry 8). -/
def State.softRelease (s : State) (n : Nat) : State × Nat :=
  let d := s.desc n
  if d.cls ≠ 3 then (s, 2)
  else if !d.en then (s, 3)
  else if !d.allows s.mode then (s.incL Obj.MODE_DROP_CNT, 4)
  else if s.shed n then
    let r := (s.incL Obj.SHED_DROP_CNT).draw
    (r.2, r.1.toNat % 11)
  else if d.qdepth < s.outstanding n then (s.incL Obj.HOST_REFUSE_CNT, 5)
  else if 64 ≤ s.sched.pool.length then (s.incL Obj.HOST_REFUSE_CNT, 6)
  else (s.start n, 1)

/-- Write of HOST_RELEASE (R278, R279). -/
def wrHostRelease (v : Word) (s : State) : WOut :=
  let r := s.softRelease v.toNat
  let s1 := (r.1.setLN Obj.HOST_RELEASE_RESULT r.2).irqIf (decide (r.2 ≠ 1)) 6 3
  if r.2 = 1 then done s1 else refused6 s1

/-- HOST_RELEASE (R278). -/
def execHostRelease (p : Path) (v : Word) (s : State) : Host.Outcome State Fault Refusal :=
  .next (s.guardWrite p Obj.HOST_RELEASE v (wrHostRelease v))

/-! ### Delay list (R275, R279) -/

/-- Outcome of arming a descriptor with a delay: the result code of R279. -/
def State.delayArm (s : State) (n f : Nat) : State × Nat :=
  let d := s.desc n
  if d.cls ≠ 2 then (s, 2)
  else if !d.en then (s, 3)
  else if (s.delayLeft n).isSome then (s, 7)
  else if 64 ≤ s.sched.delays.length then (s, 8)
  else ({ s with sched := { s.sched with delays := delayInsert n (if f = 0 then d.low else f) s.sched.delays } }, 1)

/-- Write of DELAY_ARM. -/
def wrDelayArm (v : Word) (s : State) : WOut :=
  let r := s.delayArm (fld v 7 0) (fld v 31 16)
  let s1 := r.1.setLN Obj.DELAY_RESULT r.2
  if r.2 = 1 then done s1 else refused6 s1

/-- DELAY_ARM (R275). -/
def execDelayArm (p : Path) (v : Word) (s : State) : Host.Outcome State Fault Refusal :=
  .next (s.guardWrite p Obj.DELAY_ARM v (wrDelayArm v))

/-- A descriptor leaves the delay list. -/
def State.disarm (s : State) (n : Nat) : State :=
  { s with sched := { s.sched with delays := s.sched.delays.filter fun d => d.1 != n } }

/-- Write of DELAY_CANCEL. -/
def wrDelayCancel (v : Word) (s : State) : WOut :=
  if (s.delayLeft v.toNat).isSome then done ((s.disarm v.toNat).setLN Obj.DELAY_RESULT 9)
  else refused6 (s.setLN Obj.DELAY_RESULT 10)

/-- DELAY_CANCEL (R275). -/
def execDelayCancel (p : Path) (v : Word) (s : State) : Host.Outcome State Fault Refusal :=
  .next (s.guardWrite p Obj.DELAY_CANCEL v (wrDelayCancel v))

/-! ### Descriptor window (R272) -/

/-- Window latch of a path. -/
def State.descWindow (s : State) (p : Path) : Desc := vget Desc.empty s.sched.window (pathNum p)
def State.setDescWindow (s : State) (p : Path) (d : Desc) : State :=
  { s with sched := { s.sched with window := vset s.sched.window (pathNum p) d } }

/-- Write of DESC_W0, W1 or W2: held in the path's window latch. -/
def wrDescW (p : Path) (i : Nat) (v : Word) (s : State) : WOut :=
  let d := s.descWindow p
  done (s.setDescWindow p (if i = 0 then { d with w0 := v } else if i = 1 then { d with w1 := v } else { d with w2 := v }))

/-- A descriptor without its reserved bits (R271, R4). -/
def Desc.clean (d : Desc) : Desc :=
  { w0 := d.w0 &&& 0xEFFF1FFF, w1 := d.w1 &&& 0xFF030FFF, w2 := if d.cls = 3 then d.w2 &&& 0xFFFF00FF else d.w2, w3 := d.w3 &&& 0x0000FFFF }

/-- Descriptor DESC_INDEX is staged and the index advances. -/
def State.stageDesc (s : State) (d : Desc) : State :=
  let n := s.nl Obj.DESC_INDEX
  ({ s with sched := { s.sched with staged := tput (fun _ => Desc.empty) s.sched.staged n d } }).setLN Obj.DESC_INDEX ((n + 1) % 256)

/-- Write of DESC_W3: the four words are staged without their reserved bits (R4). -/
def wrDescW3 (p : Path) (v : Word) (s : State) : WOut := done (s.stageDesc { s.descWindow p with w3 := v }.clean)

/-- DESC_W3 (R272). -/
def execDescW3 (p : Path) (v : Word) (s : State) : Host.Outcome State Fault Refusal :=
  .next (s.guardWrite p Obj.DESC_W3 v (wrDescW3 p v))

/-! ### Dispatch (R280 to R284) -/

/-- What an engine is entering; an engine that is clock-gated stands still (R268). -/
def State.gated (s : State) (e : Nat) : Option Entering := if s.engEnabled e then s.entering e else none

/-- Program address of the first instruction of an instance, by its identifier. -/
def State.entryOf (s : State) (id : Nat) : Nat :=
  match s.sched.pool.find? fun i => i.id == id with
  | some i => i.words.entry
  | none => (s.desc (id - frameId 0)).entry

/-- Word `i` of an engine's program memory (R245). -/
def State.progWord (s : State) (e i : Nat) : BitVec 64 :=
  s.rdW (bankAddr (3 + e) (8 * i) + 4) ++ s.rdW (bankAddr (3 + e) (8 * i))

/-- TASK_SELECTION_DONE: the drain and save of the running context, or the load, begins (R282). -/
def execTaskSelectionDone (e : Nat) (s : State) : Host.Outcome State Fault Refusal :=
  .next (match s.gated e with
    | some (.select i) =>
      if (s.running e).isSome then (s.incL Obj.PREEMPT_CNT).setEntering e (some (.save i))
      else s.setEntering e (some (.load i))
    | _ => s)

/-- PREFETCH_REFILL_DONE: the slot holds the instance and the first 8 words from its ENTRY (R281). -/
def execPrefetchRefillDone (e : Nat) (s : State) : Host.Outcome State Fault Refusal :=
  .next (match vget none s.sched.refill e with
    | some i =>
      { s with sched := { s.sched with
          slot := vset s.sched.slot e (some i), refill := vset s.sched.refill e none
          slotWords := vset s.sched.slotWords e ((List.range 8).map fun j => s.progWord e ((s.entryOf i + j) % 8192)) } }
    | none => s)

/-- CONTEXT_SAVE_DONE: the preempted context is saved, and the load may begin (R259, R282). -/
def execContextSaveDone (e : Nat) (s : State) : Host.Outcome State Fault Refusal :=
  .next (match s.gated e, s.running e with
    | some (.save i), some r =>
      let s1 := s.drainStores e
      let x := s1.eng e
      ((s1.setEng e { x with saved := ⟨r, x.r⟩ :: x.saved }).setRunning e none).setEntering e (some (.load i))
    | _, _ => s)

/-- Registers of a fresh instance (R241): D, A, M and B keep the values the last task left. -/
def EngRegs.fresh (r : EngRegs) (entry : Nat) : EngRegs :=
  { r with acc := Vector.replicate 4 0, flg := 0x03000000, l := Vector.replicate 8 0, loops := [], rets := [],
           pc := BitVec.ofNat 13 entry, cycles := 0, warned := false }

/-- The load of an instance whose words the slot holds ends (R282): it leaves its ready list and runs. -/
def State.loadInst (s : State) (e : Nat) (i : Inst) : State :=
  let s1 : State := { s with sched := { s.sched with
    ready := vset s.sched.ready i.prio ((vget [] s.sched.ready i.prio).filter fun j => j.id != i.id)
    slot := vset s.sched.slot e none, slotWords := vset s.sched.slotWords e [] } }
  let s2 := ((s1.setEntering e none).setRunning e (some i)).setDescDyn i.desc
    { s1.descDyn i.desc with lastEngine := e }
  let x := s2.eng e
  let s3 := s2.setEng e { x with r := x.r.fresh i.words.entry, hazards := Hazards.none, bkpt := false }
  let lat := min 0xFFFF (s3.nowL - i.rel)
  (s3.setLN (Obj.MAX_LAT_NS i.prio) (max (s3.nl (Obj.MAX_LAT_NS i.prio)) lat)).prefetchAll

/-- TASK_LOAD_DONE (R282): a load waits for its slot. -/
def execTaskLoadDone (e : Nat) (s : State) : Host.Outcome State Fault Refusal :=
  .next (match s.gated e with
    | some (.load i) => if vget none s.sched.slot e = some i.id then s.loadInst e i else s
    | _ => s)

/-- CONTEXT_RESTORE_DONE: the newest saved context of the engine resumes (R280, R282). -/
def execContextRestoreDone (e : Nat) (s : State) : Host.Outcome State Fault Refusal :=
  .next (match s.gated e, (s.eng e).saved with
    | some .restore, c :: rest =>
      let x := s.eng e
      (((s.setEng e { x with r := c.regs, hazards := Hazards.none, saved := rest }).setRunning e (some c.inst)).setEntering e none).prefetch e
    | _, _ => s)

/-- CYC_WARN_EXCEED: the running instance's cycle count has passed a CYC_WARN that is not 0 (R281). -/
def execCycWarnExceed (e : Nat) (s : State) : Host.Outcome State Fault Refusal :=
  .next (match s.running e with
    | some i =>
      let x := s.eng e
      if decide (i.words.cycWarn ≠ 0) && decide (i.words.cycWarn < x.r.cycles) && !x.r.warned then
        let s1 := s.setEng e { x with r := { x.r with warned := true } }
        (((s1.setDescDyn i.desc { s1.descDyn i.desc with cycWarn := true }).incL Obj.CYC_WARN_CNT).irqEdge 6 2).raise 54
      else s
    | none => s)

/-- A write of 0 to CYC_WARN_CNT clears CYC_WARN of every descriptor (R288). -/
def State.clearCycWarn (s : State) : State :=
  s.each (idxs 256 fun n => (s.descDyn n).cycWarn) fun s n => s.setDescDyn n { s.descDyn n with cycWarn := false }

/-! ### Objects (R287, R288) -/

/-- Descriptors whose PEND is set. -/
def State.pendCount (s : State) : Nat := (s.sched.dyn.filter fun x => x.2.pend).length

/-- SCHED_STATUS. -/
def State.schedStatus (s : State) : Nat :=
  s.sched.pool.length * 262144 + s.sched.delays.length * 2048 + b2n (decide (64 ≤ s.sched.pool.length)) * 1024
    + b2n (decide (64 ≤ s.sched.delays.length)) * 512 + s.pendCount % 512

/-- DESC_STATE of a descriptor. -/
def State.descState (s : State) (n : Nat) : Nat :=
  let x := s.descDyn n
  b2n x.pend * 2147483648 + b2n (s.delayLeft n).isSome * 1073741824 + b2n x.cycWarn * 536870912
    + s.outstanding n * 67108864 + x.lastEngine * 65536 + (s.delayLeft n).getD 0

/-- Objects of 2140, 2142 and 2144. -/
def view11 (s : State) (key : Nat) : Option Word :=
  let n := s.nl Obj.DESC_INDEX
  if key = Obj.SCHED_STATUS then some (w32 s.schedStatus)
  else if key = Obj.DESC_W0 then some (s.desc n).clean.w0
  else if key = Obj.DESC_W1 then some (s.desc n).clean.w1
  else if key = Obj.DESC_W2 then some (s.desc n).clean.w2
  else if key = Obj.DESC_W3 then some (s.desc n).clean.w3
  else if key = Obj.DESC_STATE then some (w32 (s.descState n))
  else if key = Obj.DESC_REL_CNT then some (s.descDyn n).relCnt
  else if 0x214401 ≤ key ∧ key ≤ 0x214410 then some (w32 (vget [] s.sched.ready (key - 0x214401)).length)
  else none

end Sys2Proof.Machine
end

