-- ==== Sys2Proof/Machine/Commit.lean ====
section
/-! DEFINITION. Commits (R66 to R70): the request, the end of validation, the swap of the copies at S_c with what every block does
at it (R30), and the end of the copy into the staged bank. -/
namespace Sys2Proof.Machine

def State.setCommit (s : State) (c : CommitState) : State := { s with commit := { s.commit with st := c } }

/-- The staged copies are accepted and wait for the next tick (R67), with the P that was validated. -/
def State.pend (s : State) : State := { s with commit := { st := .pending, p := s.pNext, plan := s.planMode } }

/-- COMMIT_STATE returns to OPEN (R67; group 2 of R468). -/
def State.commitOpen (s : State) : State := (s.setCommit .opened).irqEdge 2 7

/-- A refusal (R68): COMMIT_RESULT, COMMIT_DETAIL (a free value where R68 gives none, log entry 3), and COMMIT_REFUSED. -/
def State.commitRefuse (s : State) (code : Nat) (detail : Option Nat) : State :=
  let s1 := s.setLN Obj.COMMIT_RESULT code
  let s2 := match detail with
    | some d => s1.setLN Obj.COMMIT_DETAIL d
    | none => let d := s1.draw
      d.2.setL Obj.COMMIT_DETAIL d.1
  s2.raise 49

/-- The staged copies take the active content again, the Watchtower's included (R67, R403). -/
def State.revert (s : State) : State :=
  { s with stg := s.act, kStg := s.kAct.filter fun x => !atOnce x.1
           ledger := { s.ledger with staged := s.ledger.entries.filterMap fun x =>
             if x.2.w3.toNat / 16384 = 0 then none else some (x.1, w32 (x.2.w3.toNat / 16384 * 16384)) }
           sched := { s.sched with staged := s.sched.active }
           routes := { s.routes with manStaged := s.routes.manActive } }

/-- Write of COMMIT_REQ (R67). -/
def wrCommitReq (v : Word) (s : State) : WOut :=
  if s.commit.st ≠ .opened then refused6 (s.commitRefuse 0x0C none)
  else if v = 0 then done s.revert
  else if v = s.gl Obj.COMMIT_SEQ + 1 then done (s.setCommit .validating)
  else refused6 (s.commitRefuse 0x0F none)

/-- COMMIT_REQUEST (R67). -/
def execCommitRequest (p : Path) (v : Word) (s : State) : Host.Outcome State Fault Refusal :=
  .next (s.guardWrite p Obj.COMMIT_REQ v (wrCommitReq v))

/-- COMMIT_REVERT (R67). -/
def execCommitRevert (p : Path) (s : State) : Host.Outcome State Fault Refusal :=
  .next (s.guardWrite p Obj.COMMIT_REQ 0 (wrCommitReq 0))

/-- Validation ends (R67, R68). -/
def State.validated (s : State) (boot : Bool) : State :=
  let r := s.verdict boot
  if r.1 = 0 then ((s.setLN Obj.COMMIT_RESULT 0).setLN Obj.COMMIT_DETAIL 0).pend
  else ((s.incIf (decide (r.1 = 3) && s.claimFail) Obj.CLAIM_REFUSED_CNT).commitRefuse r.1 r.2).commitOpen

/-- COMMIT_VALIDATION_DONE (R67, R68). -/
def execCommitValidationDone (s : State) : Host.Outcome State Fault Refusal :=
  .next (if s.commit.st = .validating then s.validated false else s)

/-- COMMIT_SYNC_DONE (R67). -/
def execCommitSyncDone (s : State) : Host.Outcome State Fault Refusal :=
  .next (if s.commit.st = .syncing then s.commitOpen else s)

/-! ### The swap -/

/-- The objects of the frame plan in force (R23, R24, R29): `p` is the active P. With no lane in the manifest ARRIVAL_SLACK_NS is 0 (log
entry 158). -/
def State.planObjects (s : State) (p : Nat) : State :=
  let tf := s.na Obj.TF_NS
  let dk := if s.na Obj.DK_OFFSET_NS = 0 then 55 * tf / 100 else s.na Obj.DK_OFFSET_NS
  let slack (n : Nat) : Int :=
    (p * tf : Int) - 50 - (dk + 150 + tCv (slotSum (s.manifest n).entries) + ceilDiv (s.nl (Obj.ROUTE_DELAY_Q n)) 4 : Nat)
  let lanes := idxs 32 fun n => !(s.manifest n).entries.isEmpty
  let low : Int := match lanes.map slack with
    | [] => 0
    | x :: xs => xs.foldl min x
  let s1 := (((s.setLN Obj.TF_ACTIVE_NS tf).setLN Obj.DK_ACTIVE_NS dk).setLN Obj.P_ACTIVE p).setLN Obj.ROUTE_DELAY_MAX_NS
    (s.longest s.manifest)
  let s2 := (s1.setLI Obj.ARRIVAL_SLACK_NS low).setLN Obj.MIRROR_LIMIT_BYTES (min 2048 ((tf - 50) * 3))
  { s2 with frame := { s2.frame with pFromSet := decide (s2.na Obj.P_SET ≠ 0) } }

/-- A manifest change reaches its route (R86, R118, R173): a lane added is enabled and closes its frames from c - P on, and the route is
discovered afresh, when its lane is in DATA (log entry 117). -/
def State.manSwap (s : State) (n : Nat) (added : Bool) : State :=
  let s0 := s.dropWalk n
  let r := s0.route n
  let s1 := s0.setRoute n { r with
    rediscover := true
    train := none, recv := [], got := [], missRun := [], longPending := []
    closedAhead := if added then [] else r.closedAhead
    nextClose := if added then s.frame.count - s.p else r.nextClose
    heldSt := .discovering }
  let s2 :=
    if (s.manifest n).entries.isEmpty then s1.setRouteSt n .unused
    else if s.inData n then s1.startWalk n .discovering
    else s1.setRouteSt n .down
  let old := s2.gl (Obj.LANE_CTRL n)
  if added && !nbit old.toNat 0 then (s2.setL (Obj.LANE_CTRL n) (old ||| 1)).ctrlAct n old (old ||| 1) else s2

/-- Without UPLINK_EN lane 31 is no upstream port: nothing comes from upstream any more (R131, R138). -/
def State.uplinkSwap (s : State) : State :=
  if s.ga Obj.UPLINK_EN = 1 then s
  else ({ s with routes := { s.routes with
    upTicking := false, upTfMismatch := false, upLast := none, upLocked := false, upRun := 0 } } : State).faultLevel 16 false

/-- The train that a lane receives is discarded, and its frame closes (R173). -/
def State.discardTrains (s : State) (lanes : List Nat) : State := s.each lanes State.endTrain

/-- A route that only the pipeline check kept out is admitted where `plan` (R25). One that a walk since the validation has found too long
for the new P stays out, as after a rediscovery (log entry 149). -/
def State.admitLane (s : State) (plan : Bool) (n : Nat) : State :=
  let q := s.delayCheck n (s.nl (Obj.ROUTE_DELAY_Q n))
  if plan ∧ (s.route n).st = .delayRefused ∧ s.nl (Obj.DISC_RESULT n) = 12 ∧ q = 0 then s.setRouteSt n .inService
  else if (s.route n).st = .inService ∧ q = 12 then (s.setLN (Obj.DISC_RESULT n) 12).setRouteSt n .delayRefused
  else s

/-- Descriptors take their new words (R273): one that the commit disables loses its pending latch and any delay arming, and where a higher
QDEPTH makes room, pending latches enter (R278). -/
def State.descSwap (s : State) : State :=
  let off := (s.sched.active.filter fun x => x.2.en && !(descGet s.sched.staged x.1).en).map (·.1)
  let s1 : State := { s with sched := { s.sched with active := s.sched.staged } }
  ((s1.each off fun s n => (s.setDescDyn n { s.descDyn n with pend := false }).disarm n).enterPending).poolLevel.wakeAll.prefetchAll

/-- What the control aids do at S_c, `o` being the state before the swap (R294, R296, R298, R302). -/
def State.aidsSwap (s o : State) : State :=
  let s1 := s.each (idxs 4 fun c => decide (o.ga (Obj.SP_SRC c) = 0) && decide (s.ga (Obj.SP_SRC c) ≠ 0)) State.spRestart
  let s2 := s1.each (List.range 12) fun t a =>
    let first := (o.armEntries a).isEmpty && !(s.armEntries a).isEmpty
    [false, true].foldl (fun t second =>
      let t1 := t.notchLoad second a
      if t1.notchEn second a && (!o.notchEn second a || first)
      then t1.setNotch second a { t1.notch second a with start := true } else t1) t
  if [Obj.LANTERN_NPROBES, Obj.LANTERN_DECIM, Obj.LANTERN_POST].any o.changed
      || (List.range 16).any fun p => o.changed (Obj.LANTERN_PROBE p)
  then s2.lanternCommit else s2

/-- What the domains and the Phasor Unit do at S_c (R323, R333, R336). -/
def State.timeSwap (s o : State) : State :=
  let s1 := s.each [0, 1] fun t d =>
    t.domCommit d ([Obj.PTP_DOMAIN d, Obj.PROFILE d, Obj.PORTS d, Obj.DOM_SRC d].any o.changed)
  let all := o.changed Obj.PH_F0 || o.changed Obj.PH_RATE || (decide (o.ga Obj.PH_EN = 0) && decide (s.ga Obj.PH_EN = 1))
  let own := idxs 24 fun c => all || [Obj.PH_CHAN_CFG c, Obj.PH_ANGLE_COMP c, Obj.PH_MAG_GAIN c].any o.changed
  let cs := own ++ idxs 24 fun c => !own.contains c && decide (phKind (s.ga (Obj.PH_CHAN_CFG c)) ≠ 0)
    && (phSources (s.ga (Obj.PH_CHAN_CFG c))).any own.contains
  let s1 := s1.each (idxs 12 fun w => o.changed (Obj.WT_CFG w)) State.waveRestart
  let any := !cs.isEmpty || [Obj.PH_EN, Obj.PH_GAP_FILL, Obj.PH_SHM_OFF, Obj.PH_RING_LEN].any o.changed
  if any then s1.noteOff.phSwap o (o.changed Obj.PH_F0) cs else s1.noteOff

/-- What acquisition, the converters and Local PWM do at S_c (R355, R362, R368, R380). -/
def State.ioSwap (s o : State) : State :=
  let s1 :=
    if o.changedIn 0x290101 0x290300 ∧ (s.acq.st = .pretrig ∨ s.acq.st = .post) then
      let t : State := { s with acq := { s.acq with st := .idle, fifo := [] } }
      if t.na Obj.ACQ_AUTOARM = 1 then t.acqArm else t
    else s
  let s2 := s1.each [0, 1] fun t i => (t.setConv i ((t.conv i).restartFilters fun j => o.changed (Obj.FILT_CFG i j))).injOff i
  (if s2.frame.ticking then s2.adcbClaim else s2).applyTrips

/-- A CONN_ID that a commit changes is written into the secure bank (R457); a connection that had failed for want of it starts anew (R458).
`o` is the state before. -/
def State.connIdWrite (s o : State) (c : Nat) : State :=
  let s1 := s.wrW (secAddr (0x100 + 4 * c)) (s.gk (Obj.CONN_ID c))
  if (s.conn c).st = .failed ∧ s.connId c ≠ o.gk (Obj.CONN_ID c) then s1.setConn c Conn.reset else s1

/-- What the Watchtower does at S_c (R403, R410, R411, R457). -/
def State.wtSwap (s o : State) : State :=
  if o.changedK 0 0x1000000 then
    let s1 := s.each (idxs 64 fun c => decide (o.gk (Obj.CONN_ID c) ≠ s.gk (Obj.CONN_ID c))) fun t c => t.connIdWrite o c
    let s2 := ((s1.slvForget o).wtRestart o).wtChannels.wtCauses.partnerCause
    if s2.frame.ticking then s2.connSync else s2.sdCauses
  else s

/-- The copies swap at S_c (R30, R67); the frame count is already c. A train being received on a lane whose manifest changes is discarded
by the manifest that it was sent for. -/
def State.swapCopies (o0 : State) : State :=
  let o := o0.discardTrains (idxs 32 o0.manChanged)
  let p := o.commit.p
  let s1 : State := { o with
    act := o.stg
    kAct := (o.kAct.filter fun x => atOnce x.1).foldl (fun t x => tput dfltW t x.1 x.2) o.kStg
    routes := { o.routes with manActive := o.routes.manStaged } }
  let s2 := (s1.each s1.cfgIndices State.applyCfg).planObjects p
  let s3 := s2.each (idxs 32 o.manChanged) fun t n => t.manSwap n (o.manifest n).entries.isEmpty
  let s4 := s3.each (List.range 32) fun t n => t.admitLane (o.commit.plan && o.planMode) n
  let s5 := (((s4.uplinkSwap.descSwap).aidsSwap o).timeSwap o).ioSwap o
  let sPins := s5.each (idxs 12 fun a => o.changed (Obj.MASK_SRC a) || o.changed (Obj.MASK_POL a)) fun t a => t.maskPinsChange o a
  let s6 := sPins.each (idxs 12 fun a => o.changed (Obj.MASK_MODE a)) State.maskModeChange
  let s7 := s6.each (idxs 8 fun e => s6.engEnabled e && !o.engEnabled e) fun t e =>
    (t.abortMarch fun b => (decide (3 ≤ b) && decide (b ≤ 18) && decide (bankEngine b = e)) || (decide (19 ≤ b) && decide (b ≤ 34))).wakeEngine e
  let sEng := s7.each (idxs 8 fun e => s7.engEnabled e && !o.engEnabled e) State.wake
  let s8 := (sEng.wtSwap o).jrnLevels.laneLevels
  let s9 := if o.changed Obj.CELL_HOLD_LIMIT then s8.releaseHold (List.range 32) else s8
  let seq := s9.gl Obj.COMMIT_SEQ + 1
  ((s9.setL Obj.COMMIT_SEQ seq).setL64 Obj.COMMIT_TICK_LO s9.frame.count).journal 0x0102 seq

/-- At S_c a pending commit swaps the copies, or is refused by the mode in force (R67, R69). -/
def State.commitTick (s : State) : State :=
  if s.commit.st ≠ .pending then s
  else if s.lateFail then (s.commitRefuse 0x0D none).commitOpen
  else s.swapCopies.setCommit .syncing

end Sys2Proof.Machine
end

