-- ==== Sys2Proof/Machine/Image.lean ====
section
/-! DEFINITION. Flash image slots and the image service (R58 to R65, R72): the checks of a slot, erasing, the page buffers,
finishing, and saving the active configuration. -/
namespace Sys2Proof.Machine

/-! ### The checks of R62 -/

/-- First flash byte of a slot (R59). -/
def slotBase (slot : Nat) : Nat := slot * 0x400000

/-- Bytes of an image by offset: slot A, slot B, or the host load in the acquisition banks (R58). -/
def State.imgBytes (s : State) (slot off n : Nat) : List Byte :=
  if slot = 2 then s.rdBytes (acqAddr off) n else s.rdFlash (slotBase slot + off) n

/-- Little-endian number in an image. -/
def State.imgNum (s : State) (slot off n : Nat) : Nat := ofLeBytes (s.imgBytes slot off n)

/-- LENGTH of an image. -/
def State.imgLen (s : State) (slot : Nat) : Nat := s.imgNum slot 0x0C 4
/-- SEQ of an image. -/
def State.imgSeq (s : State) (slot : Nat) : Nat := s.imgNum slot 0x08 4
/-- The payload (R59). -/
def State.imgPayload (s : State) (slot : Nat) : List Byte := s.imgBytes slot 0x40 (s.imgLen slot)

/-- MAGIC, FORMAT, HDR_LEN, LENGTH and PRODUCT match (R59, R62). -/
def State.imgHdrOk (s : State) (slot : Nat) : Bool :=
  decide (s.imgNum slot 0 4 = 0x53394346) && decide (s.imgNum slot 4 2 = 3) && decide (s.imgNum slot 6 2 = 64)
    && decide (s.imgLen slot % 4 = 0 ∧ s.imgLen slot ≤ 4194240)
    && (decide (s.imgNum slot 0x10 4 = 0x00090400) || decide (s.imgNum slot 0x10 4 = (dfltW Obj.PRODUCT_CODE).toNat))

/-- The commit marker is present. -/
def State.imgMarkerOk (s : State) (slot : Nat) : Bool := decide (s.imgNum slot 0x3C 4 = 0xA5C33C5A)

/-- The CRC-32 over header bytes 0x00 to 0x13 and the payload matches. -/
def State.imgCrcOk (s : State) (slot : Nat) : Bool :=
  decide ((crc32 (s.imgBytes slot 0 0x14 ++ s.imgPayload slot)).toNat = s.imgNum slot 0x14 4)

/-- The HMAC is checked in PROVISIONED and DEPLOYED only (R62). -/
def State.hmacChecked (s : State) : Bool := decide (s.mem.life = .provisioned) || decide (s.mem.life = .deployed)

/-- The HMAC over header bytes 0x00 to 0x17 and the payload matches, or is not checked. Without a key in the secure bank it does
not match. -/
def State.imgHmacOk (s : State) (slot : Nat) : Bool :=
  !s.hmacChecked || (s.keyPresent
    && decide (hmacSha256 (s.rdBytes (secAddr 0) 32) (s.imgBytes slot 0 0x18 ++ s.imgPayload slot) = s.imgBytes slot 0x18 32))

/-- The slot is valid (R62), its marker counting or not. -/
def State.imgValid (s : State) (slot : Nat) (marker : Bool) : Bool :=
  s.imgHdrOk slot && (!marker || s.imgMarkerOk slot) && s.imgCrcOk slot && s.imgHmacOk slot

/-- SLOT_FLAGS and SLOT_x_SEQ take the checks of R62 as evaluated for a flash slot (R72): `full` says that CRC and HMAC were. -/
def State.noteSlot (s : State) (slot : Nat) (full : Bool) : State :=
  let old := s.nl Obj.SLOT_FLAGS
  let low := b2n (s.imgHdrOk slot) + 2 * b2n (s.imgMarkerOk slot)
  let mine := if full then low + 4 * b2n (s.imgCrcOk slot) + 8 * b2n (s.imgHmacOk slot)
    else low + (old / 16 ^ slot % 16) / 4 * 4
  let other := old / 16 ^ (1 - slot) % 16
  let ok := s.imgHdrOk slot && s.imgMarkerOk slot && (!full || (s.imgCrcOk slot && s.imgHmacOk slot))
  (s.setLN Obj.SLOT_FLAGS (mine * 16 ^ slot + other * 16 ^ (1 - slot))).setLN
    (if slot = 0 then Obj.SLOT_A_SEQ else Obj.SLOT_B_SEQ) (if ok then s.imgSeq slot else 0xFFFFFFFF)

/-! ### The service -/

def State.setImg (s : State) (x : ImgSt) : State := { s with img := x }

/-- The slot is the running one (R63, R65). -/
def State.runs (s : State) (slot : Nat) : Bool := s.boot.slotRuns && decide (s.boot.slot = slot)

/-- IMG_STATUS takes a code (R64): OVERRUN stays until the next erase, leaving 1 is an event of group 14 (R468), and 4 is
FLASH_ERROR (R438). -/
def State.imgStatus (s : State) (code : Nat) : State :=
  if s.nl Obj.IMG_STATUS = 7 then s.raiseIf (decide (code = 4)) 62
  else ((s.setLN Obj.IMG_STATUS code).irqIf (decide (s.nl Obj.IMG_STATUS = 1) && decide (code ≠ 1)) 14 0).raiseIf
    (decide (code = 4)) 62

def FlashOp.isPage : FlashOp → Bool
  | .page _ _ => true
  | .erase _ | .finish _ | .save _ => false

/-- The service is busy: another operation than a page runs or waits, or both page buffers are full (R64). -/
def State.imgBusy (s : State) : Bool := decide (2 ≤ s.img.ops.length) || s.img.ops.any fun o => !o.isPage

/-- An operation joins those in progress. -/
def State.flashOp (s : State) (o : FlashOp) : State :=
  let t := s.setImg { s.img with ops := s.img.ops ++ [o] }
  if t.imgBusy then t.imgStatus 1 else t

/-- The page being filled goes to its buffer. -/
def State.flushPage (s : State) : State :=
  if s.img.page.isEmpty then s
  else
    let o := FlashOp.page s.img.pageAddr s.img.page
    (s.setImg { s.img with page := [] }).flashOp o

/-- IMG_CTRL = 1 or 2 (R64). An erase ends the OVERRUN status. -/
def imgErase (slot : Nat) (s : State) : WOut :=
  if s.runs slot then refused6 (s.imgStatus 3)
  else if s.imgBusy then refused6 s
  else
    let s1 := if s.nl Obj.IMG_STATUS = 7 then s.setLN Obj.IMG_STATUS 0 else s
    done ((s1.setImg { s1.img with slot := slot, page := [] }).flashOp (.erase slot))

/-- IMG_CTRL = 3 or 4 (R64). -/
def imgFinish (slot : Nat) (s : State) : WOut :=
  if s.runs slot then refused6 (s.imgStatus 3)
  else if s.imgBusy then refused6 s
  else done (s.flushPage.flashOp (.finish slot))

/-- The slot that an image of the active configuration goes to (R64): the one that is not running, or the slot last selected by an
erase when neither runs. -/
def State.saveSlot (s : State) : Nat := if s.runs 0 then 1 else if s.runs 1 then 0 else s.img.slot

/-- IMG_CTRL = 6 (R64). -/
def imgSave (s : State) : WOut := if s.imgBusy then refused6 s else done (s.flushPage.flashOp (.save s.saveSlot))

/-- IMG_CTRL = 5 (R58): accepted while a host load is open. -/
def imgSubmit (s : State) : WOut :=
  if s.boot.hostLoad && !s.boot.submitted then
    done ({ s with boot := { s.boot with submitted := true, loading := 2, step := .payload } }.imgStatus 1)
  else refused6 s

/-- A write of IMG_CTRL (R64). -/
def wrImgCtrl (v : Word) (s : State) : WOut :=
  match v.toNat with
  | 1 => imgErase 0 s
  | 2 => imgErase 1 s
  | 3 => imgFinish 0 s
  | 4 => imgFinish 1 s
  | 5 => imgSubmit s
  | _ => imgSave s

/-- A write of IMG_DATA (R58, R64). The word of offset 0x3C stays erased in its page. -/
def wrImgData (v : Word) (s : State) : WOut :=
  let off := s.nl Obj.IMG_OFFSET
  let step (t : State) : State := t.setLN Obj.IMG_OFFSET (off + 4)
  if off % 4 ≠ 0 ∨ 0x400000 ≤ off then done (s.imgStatus 6)
  else if s.boot.hostLoad then done (step ((s.ownerOn (acqAddr off / 65536)).wrW (acqAddr off) v))
  else if s.imgBusy then done (s.imgStatus 7)
  else if s.runs s.img.slot then done (s.imgStatus 3)
  else
    let a := slotBase s.img.slot + off
    let bs := if off = 0x3C then [0xFF, 0xFF, 0xFF, 0xFF] else leBytes 4 v.toNat
    let s1 := if s.img.page.isEmpty || decide (s.img.pageAddr + s.img.page.length = a) then s else s.flushPage
    let s2 := s1.setImg { s1.img with
      pageAddr := if s1.img.page.isEmpty then a else s1.img.pageAddr
      page := s1.img.page ++ bs }
    done (step (if (a + 4) % 256 = 0 then s2.flushPage else s2))

/-- IMG_ERASE_A (R64). -/
def execImgEraseA (p : Path) (s : State) : Host.Outcome State Fault Refusal :=
  .next (s.guardWrite p Obj.IMG_CTRL 1 (imgErase 0))
/-- IMG_ERASE_B (R64). -/
def execImgEraseB (p : Path) (s : State) : Host.Outcome State Fault Refusal :=
  .next (s.guardWrite p Obj.IMG_CTRL 2 (imgErase 1))
/-- IMG_FINISH_A (R64). -/
def execImgFinishA (p : Path) (s : State) : Host.Outcome State Fault Refusal :=
  .next (s.guardWrite p Obj.IMG_CTRL 3 (imgFinish 0))
/-- IMG_FINISH_B (R64). -/
def execImgFinishB (p : Path) (s : State) : Host.Outcome State Fault Refusal :=
  .next (s.guardWrite p Obj.IMG_CTRL 4 (imgFinish 1))
/-- IMG_HOST_LOAD (R58). -/
def execImgHostLoad (p : Path) (s : State) : Host.Outcome State Fault Refusal :=
  .next (s.guardWrite p Obj.IMG_CTRL 5 imgSubmit)
/-- IMG_SAVE_ACTIVE (R64). -/
def execImgSaveActive (p : Path) (s : State) : Host.Outcome State Fault Refusal :=
  .next (s.guardWrite p Obj.IMG_CTRL 6 imgSave)
/-- IMG_DATA (R64). -/
def execImgData (p : Path) (v : Word) (s : State) : Host.Outcome State Fault Refusal :=
  .next (s.guardWrite p Obj.IMG_DATA v (wrImgData v))

/-! ### Saving the active configuration -/

/-- A section of R60 with its padding. -/
def imgSection (type : Nat) (body : List Byte) : List Byte :=
  leBytes 2 type ++ [0, 0] ++ leBytes 4 body.length ++ body ++ List.replicate ((4 - body.length % 4) % 4) 0

/-- The dictionary record of an object (R61) with its value by key. -/
def dictRecord (k : Nat) (v : Nat → Word) : List Byte :=
  let head (size : Nat) : List Byte := leBytes 2 (k / 256) ++ leBytes 1 (k % 256) ++ leBytes 1 size
  match rowOf k with
  | none => []
  | some (r, _, _) =>
    if wideLow k then head 8 ++ leBytes 4 (v k).toNat ++ leBytes 4 (v (k + 1)).toNat
    else head r.ty.bytes ++ leBytes r.ty.bytes (v k).toNat ++ List.replicate (4 - r.ty.bytes) 0

/-- An object of class K. -/
def isKClass (k : Nat) : Bool :=
  match rowOf k with
  | some (r, _, _) => decide (r.cls = .k)
  | none => false

/-- Keys of a store, low halves added for listed high halves. -/
def recordKeys (t : List (Nat × Word)) : List Nat :=
  (t.map fun x => if wideHigh x.1 then x.1 - 1 else x.1).foldl (fun l k => insertNat k l) []

/-- The bytes of a manifest (R116). -/
def Manifest.bytes (m : Manifest) : List Byte :=
  leBytes 2 m.entries.length ++ leBytes 2 m.slotCount ++ leBytes 1 m.flags ++ [0, 0, 0] ++ leBytes 4 m.delayMax
    ++ [0, 0, 0, 0] ++ m.entries.flatMap fun e => leBytes 4 e.toNat

/-- Memories of an engine as CUPOLA sections: P, X and Y (R60, R449). -/
def State.cupSections (s : State) (e : Nat) : List Byte :=
  [(0, bankAddr (3 + e) 0, 65536), (1, bankAddr (11 + e) 0, 32768), (2, bankAddr (11 + e) 0x8000, 32768)].flatMap fun x =>
    if s.sram.any fun c => decide (x.2.1 ≤ c.1) && decide (c.1 < x.2.1 + x.2.2) then
      imgSection 2 (leBytes 1 (2 ^ e) ++ leBytes 1 x.1 ++ [0, 0] ++ leBytes 4 0 ++ s.rdBytes x.2.1 x.2.2)
    else []

/-- The payload of the active configuration: the staged objects, the descriptors, the engines' memories and shared memory as they
stand, the manifests, the Watchtower's objects and the Ledger configurations (R60). -/
def State.savePayload (s : State) : List Byte :=
  let descs := s.sched.active.flatMap fun x =>
    dictRecord Obj.DESC_INDEX (fun _ => w32 x.1) ++ dictRecord Obj.DESC_W0 (fun _ => x.2.w0) ++ dictRecord Obj.DESC_W1 (fun _ => x.2.w1)
      ++ dictRecord Obj.DESC_W2 (fun _ => x.2.w2) ++ dictRecord Obj.DESC_W3 (fun _ => x.2.w3)
  let safety := (recordKeys (s.kAct.filter fun x => !atOnce x.1)).flatMap fun k => dictRecord k s.gk
  imgSection 1 ((recordKeys (s.act.filter fun x => !isKClass x.1)).flatMap (fun k => dictRecord k s.ga) ++ descs)
  ++ (List.range 8).flatMap s.cupSections
  ++ (if s.sram.any fun c => decide (shmAddr 0 ≤ c.1) && decide (c.1 < shmAddr 0x100000) then
        imgSection 3 (leBytes 4 0 ++ s.rdBytes (shmAddr 0) 0x100000) else [])
  ++ ((idxs 32 fun n => !(s.manifest n).entries.isEmpty).flatMap fun n => imgSection 4 (leBytes 1 n ++ [0, 0, 0] ++ (s.manifest n).bytes))
  ++ imgSection 5 (safety ++ leBytes 4 (crc32c safety).toNat)
  ++ ((s.ledger.entries.filter fun x => decide (16384 ≤ x.2.w3.toNat)).flatMap fun x =>
        imgSection 6 (leBytes 2 x.1 ++ leBytes 2 1 ++ List.replicate 12 0 ++ leBytes 4 (x.2.w3.toNat / 16384 * 16384)))
  ++ imgSection 0xFF []

/-- The image of the active configuration without its marker (R59): SEQ is 1 more than the highest valid SEQ. -/
def State.saveImage (s : State) : List Byte :=
  let p := s.savePayload
  let seqs := ([0, 1].filter fun n => s.imgValid n true).map s.imgSeq
  let h := leBytes 4 0x53394346 ++ leBytes 2 3 ++ leBytes 2 64 ++ leBytes 4 (seqs.foldl max 0 + 1) ++ leBytes 4 p.length
    ++ leBytes 4 (dfltW Obj.PRODUCT_CODE).toNat
  let h1 := h ++ leBytes 4 (crc32 (h ++ p)).toNat
  h1 ++ hmacSha256 (s.rdBytes (secAddr 0) 32) (h1 ++ p) ++ List.replicate 8 0xFF ++ p

/-! ### Completion of a flash operation -/

/-- Program bytes from a flash address on. A byte 0xFF leaves its cell as it is; a cell that is not erased ends with a free value
(log entry 3). -/
def State.program (s : State) : Nat → List Byte → State
  | _, [] => s
  | a, b :: bs =>
    let old := (s.rdFlash a 1).headD 0xFF
    let s1 :=
      if b = 0xFF ∨ b = old then s
      else if old = 0xFF then s.wrFlash a [b]
      else let d := s.draw
        d.2.wrFlash a [d.1.setWidth 8]
    s1.program (a + 1) bs

/-- The operation in front has its effect on the flash; answers the status it leaves (R64). -/
def State.flashDone (s : State) (o : FlashOp) : State × Nat :=
  match o with
  | .erase n => ({ s with flash := tclear (slotBase n) (slotBase (n + 1)) s.flash }, 2)
  | .page a bs => (s.program a bs, if s.nl Obj.IMG_STATUS = 1 then 0 else s.nl Obj.IMG_STATUS)
  | .finish n =>
    if s.imgValid n false then
      ((s.program (slotBase n + 0x3C) (leBytes 4 0xA5C33C5A)).noteSlot n true, 2)
    else (s.noteSlot n true, 5)
  | .save n => (s.program (slotBase n) s.saveImage, 2)

/-- FLASH_OP_DONE (R64): the oldest operation ends, `ok` saying whether the flash reported no error. One that failed has changed
nothing that the model holds. -/
def execFlashOpDone (ok : Bool) (s : State) : Host.Outcome State Fault Refusal :=
  .next (match s.img.ops with
    | [] => s
    | o :: rest =>
      let r := if ok then s.flashDone o else (s, 4)
      let s1 := r.1.setImg { r.1.img with ops := rest }
      if r.2 ≠ 4 && s1.imgBusy then s1 else s1.imgStatus r.2)

end Sys2Proof.Machine
end

