-- ==== Sys2Proof/Machine/Irq.lean ====
section
/-! DEFINITION. The cause tree's and the Event Journal's commands (R469 to R477), and their objects as they read (R478). -/
namespace Sys2Proof.Machine

/-! ### Cause tree (R469 to R473) -/

/-- Write of COMPLETE (R469): a level source in service leaves service, and is set again while its condition holds. -/
def wrComplete (v : Word) (s : State) : WOut :=
  let g := v.toNat / 256
  let b := v.toNat % 256
  if decide (g < 32) && decide (b < 32) && nbit (levelMapOf g) b && nbit (vget 0 s.irq.active g).toNat b then
    let s1 : State := { s with irq := { s.irq with active := vset s.irq.active g (bset (vget 0 s.irq.active g) b false) } }
    if nbit (vget 0 s.irq.level g).toNat b then
      let s2 := s1.irqEdge g b
      done { s2 with irq := { s2.irq with active := vset s2.irq.active g (bset (vget 0 s2.irq.active g) b true) } }
    else done s1
  else done (s.incL Obj.SPURIOUS_COMPLETE_CNT)

/-- The sources of a group; every other bit of its PEND is reserved (R468). -/
def sourcesOf (g : Nat) : Nat :=
  [0xF, 0x7, 0xFF, 0xFFFFFFFF, 0xFFFFFFFF, 0xFFFF, 0xF, 0x3F, 0x3, 0x7, 0x1F, 0x1F, 0xF, 0x0FFF000F, 0x1F].getD g 0

/-- Write of PEND of a group (R471, R472): the word is stored without its reserved bits (R4); pending bits that hardware set since the
path's last read and that the word clears are a race (log entry 7). -/
def wrPend (p : Path) (g : Nat) (v : Word) (s : State) : WOut :=
  let pn := pathNum p
  let erased := vget 0 (vget (Vector.replicate 32 0) s.irq.shadow pn) g &&& s.pendOf g &&& ~~~v
  let s1 : State := { s with irq := { s.irq with pend := vset s.irq.pend g (v &&& w32 (sourcesOf g)) } }
  if erased = 0 then done s1
  else done (((s1.incL Obj.CLEAR_RACE_CNT).setLN Obj.LAST_RACE_GRP (pn * 256 + g)).setL Obj.LAST_RACE_BITS erased)

/-- A read of PEND clears the shadow of its own path (R472). -/
def State.readPend (s : State) (p : Path) (g : Nat) : State :=
  let sh := vset (vget (Vector.replicate 32 0) s.irq.shadow (pathNum p)) g 0
  { s with irq := { s.irq with shadow := vset s.irq.shadow (pathNum p) sh } }

/-- COMPLETE (R469). -/
def execComplete (p : Path) (v : Word) (s : State) : Host.Outcome State Fault Refusal :=
  .next (s.guardWrite p Obj.COMPLETE v (wrComplete v))

/-- PEND_WRITE (R471, R472). -/
def execPendWrite (p : Path) (g : Nat) (v : Word) (s : State) : Host.Outcome State Fault Refusal :=
  .next (s.guardWrite p (Obj.PEND g) v (wrPend p g v))

/-- PEND_READ (R472). -/
def execPendRead (p : Path) (g : Nat) (s : State) : Host.Outcome State Fault Refusal :=
  .next (s.readPend p g)

/-- HCLK_STOP: no edge of HCLK for 100 ns (R473). -/
def execHclkStop (s : State) : Host.Outcome State Fault Refusal :=
  .next (if s.irq.hclkRuns then { s with irq := { s.irq with hclkRuns := false } }.incL Obj.HCLK_STOP_CNT else s)

/-- The latches of every group move into PEND at the first edge of HCLK (R473). -/
def State.hclkEdge (s : State) : State :=
  let s1 := (idxs 32 fun g => decide (vget 0 s.irq.latch g ≠ 0)).foldl (fun s g => s.irqBits g (vget 0 s.irq.latch g))
    { s with irq := { s.irq with hclkRuns := true } }
  { s1 with irq := { s1.irq with latch := Vector.replicate 32 0 } }

/-- HCLK_RESUME (R473). -/
def execHclkResume (s : State) : Host.Outcome State Fault Refusal :=
  .next (if s.irq.hclkRuns then s else s.hclkEdge)

/-! ### Event Journal (R474 to R477) -/

/-- The 16 bytes of a record (R474). -/
def JRec.bytes (r : JRec) : List Byte :=
  leBytes 8 r.time ++ leBytes 4 r.data.toNat
    ++ leBytes 2 (b2n r.traceable * 32768 + b2n r.cont * 16384 + b2n r.lTime * 8192 + r.source % 8192) ++ leBytes 2 r.seq

/-- The oldest staged record is written to the ring, or dropped while the ring is full (R476). -/
def State.journalWrite (s : State) : State :=
  match s.jrn.staging with
  | [] => s
  | r :: rest =>
    let s1 : State := { s with jrn := { s.jrn with staging := rest } }
    if s.jrn.count < 4096 then
      ({ s1.wrBytes (bankAddr 167 (16 * s.jrn.wr)) r.bytes with
          jrn := { s1.jrn with wr := (s.jrn.wr + 1) % 4096, count := s.jrn.count + 1 } }).jrnLevels
    else reactC3 s s1.dropRecord

/-- JOURNAL_RECORD_WRITE (R476). -/
def execJournalRecordWrite (s : State) : Host.Outcome State Fault Refusal := .next s.journalWrite

/-- Write of JRN_POP (R477): 0 lies outside its range, more than the records held is refused for the journal's state. -/
def wrJrnPop (v : Word) (s : State) : WOut :=
  let n := v.toNat
  if n = 0 then (s, 3)
  else if s.jrn.count < n then refused6 s
  else done ({ s with jrn := { s.jrn with rd := (s.jrn.rd + n) % 4096, count := s.jrn.count - n } }).jrnLevels

/-- JRN_POP (R477). -/
def execJrnPop (p : Path) (v : Word) (s : State) : Host.Outcome State Fault Refusal :=
  .next (s.guardWrite p Obj.JRN_POP v (wrJrnPop v))

/-! ### Objects (R478) -/

/-- Objects of the 2F00 block that the tree and the journal hold. -/
def view22 (s : State) (key : Nat) : Option Word :=
  if key = Obj.SUMMARY then some s.summary
  else if key = Obj.IRQ_LEVEL then some (w32 (b2n s.irqAsserted))
  else if key = Obj.JRN_COUNT then some (w32 s.jrn.count)
  else if key = Obj.JRN_RD then some (w32 s.jrn.rd)
  else if key = Obj.JRN_WR then some (w32 s.jrn.wr)
  else if key = Obj.JRN_SEQ then some (w32 s.jrn.seq)
  else if 0x2F10 ≤ key / 256 ∧ key / 256 ≤ 0x2F2F ∧ key % 256 = 1 then some (s.pendOf (key / 256 - 0x2F10))
  else if 0x2F10 ≤ key / 256 ∧ key / 256 ≤ 0x2F2F ∧ key % 256 = 3 then
    some (vget 0 s.irq.active (key / 256 - 0x2F10))
  else none

end Sys2Proof.Machine
end

