-- ==== Sys2Proof/Machine/Objects.lean ====
section
/-! DEFINITION. Every object as a path reads and writes it (R7 to R10, R479 to R481, R487, R494, R500 to R502, R512, R513, R532): the
value without side effects, the latches of a read, the effect of a write, DOMAIN objects, and the mapping of process data. -/
namespace Sys2Proof.Machine

/-! ### Values -/

/-- Queue entries of the Host Port's posted writes and reads, and of the field network (R502). -/
def QReq.isHostWrite : QReq → Bool
  | .hostWrite _ _ _ => true
  | _ => false
def QReq.isHostRead : QReq → Bool
  | .hostRead _ => true
  | _ => false
def QReq.isHost (q : QReq) : Bool := q.isHostWrite || q.isHostRead

def State.postedCount (s : State) : Nat := (s.dict.queue.filter QReq.isHostWrite).length
def State.hostCount (s : State) : Nat := (s.dict.queue.filter QReq.isHost).length

/-- A Host Port read waits on HRDY. -/
def State.readWaiting (s : State) : Bool :=
  (s.dict.queue.any QReq.isHostRead && !s.dict.abandoned) || (match s.dict.hostWait with
    | some q => q.isHostRead
    | none => false)

/-- HP_STATUS, Q_STATUS and FN_STATUS (R502). -/
def State.hpStatus (s : State) : Nat := s.postedCount * 16 + b2n s.readWaiting * 8 + b2n s.dict.domOpen * 4
def State.qStatus (s : State) : Nat :=
  let n := s.dict.queue.length
  (n - s.hostCount) * 65536 + s.hostCount * 256 + b2n (decide (64 ≤ n)) * 128 + n
def State.fnStatus (s : State) : Nat :=
  s.dict.alCode * 65536 + s.dict.portUp.toNat % 4 * 256 + b2n (s.dict.mbxHeld && decide (64 ≤ s.dict.queue.length)) * 32 + b2n s.dict.pdWdt * 16 + s.dict.al.code

/-- CLK_STATUS (R513). -/
def State.clkStatus (s : State) : Nat :=
  b2n s.irq.hclkRuns * 64 + b2n s.power.wtOsc * 32 + b2n s.power.xtalOk * 16 + s.power.sdPll.toNat * 4 + b2n s.power.fabric * 2
    + b2n s.power.corePll

/-- Objects of 1001, 3000 to 3004, 3010 and 3020 that the dictionary controller, the PHY management and the clocks hold. -/
def view23 (s : State) (key : Nat) : Option Word :=
  if key = Obj.ERROR_REGISTER then some (w32 (b2n (decide (s.highestUnack ≠ 0xFF))))
  else if key = Obj.HP_STATUS then some (w32 s.hpStatus)
  else if key = Obj.HP_FENCE then some (w32 s.dict.fence)
  else if key = Obj.Q_STATUS then some (w32 s.qStatus)
  else if key = Obj.FN_STATUS then some (w32 s.fnStatus)
  else if key = Obj.PHY_LINK then some (s.dict.phyLink.zeroExtend 32)
  else if key = Obj.CLK_STATUS then some (w32 s.clkStatus)
  else if key = Obj.TJ_NOW then some (i32 s.power.tj)
  else none

/-- The objects that blocks hold themselves, by chapter. -/
def views : List (State → Nat → Option Word) :=
  [view02, view03, view04, view05, view06, view07, view08, view09, view10, view11, view12, view13, view14, view15, view16, view17,
   view18, view19, view20, view21, view22, view23]

/-- The value of an object that a row describes: a block's own, the active copy of class S, the Watchtower's of class K, else the live
one (R8). -/
def State.rowValue (s : State) (r : ORow) (k : Nat) : Word :=
  if r.acc = .wo then 0
  else match views.findSome? fun f => f s k with
    | some v => v
    | none => match r.cls with
      | .s => s.ga k
      | .k => s.gk k
      | .l | .f => s.gl k

/-- What a read returns, its side effects apart: 0 for an object that is not listed and for WO objects (R7, R480). -/
def State.objPeek (s : State) (k : Nat) : Word :=
  match rowOf k with
  | none => 0
  | some (r, _, _) => s.rowValue r k

/-! ### Result objects (R487) -/

/-- A result object: latch sub, first and last latched sub, and where FRESH stands. -/
structure ResultRow where
  latch : Nat
  lo : Nat
  hi : Nat
  fresh : Option (Nat × Nat)
  deriving DecidableEq, Repr

/-- The result object to which a key belongs, as latch sub or latched sub. RX_DATA of a safety connection latches in the same way
(R411). -/
def resultRow (k : Nat) : Option ResultRow :=
  let i := k / 256
  let b := i * 256
  let r : Option ResultRow :=
    if i = 0x2105 then some ⟨b + 1, b + 2, b + 8, some (b + 2, 1)⟩
    else if 0x2701 ≤ i ∧ i ≤ 0x2704 then some ⟨b + 0xF, b + 0xD, b + 0x10, some (b + 0x10, 1)⟩
    else if i = 0x2A05 ∨ i = 0x2A06 then some ⟨b + 1, b + 2, b + 2, some (b + 2, 30)⟩
    else if 0x2850 ≤ i ∧ i ≤ 0x2867 then some ⟨b + 1, b + 2, b + 8, some (b + 2, 1)⟩
    else if i = 0x2876 then some ⟨b + 1, b + 2, b + 5, none⟩
    else if i = 0x2903 then some ⟨b + 1, b + 2, b + 0xC, none⟩
    else if 0x2B40 ≤ i ∧ i ≤ 0x2B7F then some ⟨b + 7, b + 8, b + 0xA, none⟩
    else none
  match r with
  | some x => if k = x.latch ∨ (x.lo ≤ k ∧ k ≤ x.hi) then some x else none
  | none => none

/-- The sequence number of the current result. -/
def State.resultSeq (s : State) (x : ResultRow) : Word :=
  if x.latch / 256 = 0x2A05 then w32 (s.conv 0).seq
  else if x.latch / 256 = 0x2A06 then w32 (s.conv 1).seq
  else s.objPeek x.latch

/-- A path's copy of a result. -/
def State.resultOf (s : State) (p : Path) (latch : Nat) : Option ResultLatch :=
  (vget [] s.dict.results (pathNum p)).find? fun c => decide (c.latchKey = latch)

/-- A read of the latch sub (R487): the current result is copied, FRESH saying whether its sequence number is new to the path. -/
def State.latchResult (s : State) (p : Path) (x : ResultRow) : State :=
  let seq := s.resultSeq x
  let old : Word := match s.resultOf p x.latch with
    | some c => c.seq
    | none => 0
  let vals := ((List.range (x.hi + 1 - x.lo)).map fun j => x.lo + j).map fun k =>
    (k, match x.fresh with
      | some (f, b) => if k = f then bset (s.objPeek k) b (decide (seq ≠ old)) else s.objPeek k
      | none => s.objPeek k)
  let keep := (vget [] s.dict.results (pathNum p)).filter fun c => decide (c.latchKey ≠ x.latch)
  { s with dict := { s.dict with results := vset s.dict.results (pathNum p) (⟨x.latch, seq, vals⟩ :: keep) } }

/-- A read of a latched sub: the path's copy, or the current result where the path has none. -/
def State.latchedRead (s : State) (p : Path) (x : ResultRow) (k : Nat) : Word :=
  match s.resultOf p x.latch with
  | none => s.objPeek k
  | some c => tget (fun _ => s.objPeek k) c.vals k

/-! ### A read of a scalar object -/

/-- The latches that a read through a path sets or uses up (R9, R89, R366, R442, R472, R487), with the value that it returns. -/
def State.objRead (s : State) (p : Path) (k : Nat) : State × Word :=
  let v := s.objPeek k
  match resultRow k with
  | some x =>
    if k = x.latch then
      let s1 := s.latchResult p x
      (if k / 256 = 0x2A05 then s1.adcDataRead 0 else if k / 256 = 0x2A06 then s1.adcDataRead 1 else s1, v)
    else
      let u := s.latchedRead p x k
      if wideLow k then (s.latchHigh p (k + 1) (s.latchedRead p x (k + 1)), u)
      else if wideHigh k then (s.useHigh p k, s.highRead p k u)
      else (s, u)
  | none =>
    if wideLow k then
      if 0x2200 ≤ k / 256 ∧ k / 256 < 0x2226 then (s.readPrbsLo p (k / 256 - 0x2200), v)
      else
        let s1 := s.latchHigh p (k + 1) (s.objPeek (k + 1))
        (if k = Obj.FAULT_STATUS_LO then s1.seeFaults p else s1, v)
    else if wideHigh k then
      (s.useHigh p k, s.highRead p k v)
    else if 0x2F10 ≤ k / 256 ∧ k / 256 < 0x2F30 ∧ k % 256 = 1 then (s.readPend p (k / 256 - 0x2F10), v)
    else if 0x2200 ≤ k / 256 ∧ k / 256 < 0x2226 ∧ k % 256 = 6 then
      match (s.wideOf p).prbsErr with
      | some (k1, v1) => if k1 = k then (s.setWide p { s.wideOf p with prbsErr := none }, v1) else (s, v)
      | none => (s, v)
    else (s, v)

/-! ### Process data mapping (R494) -/

/-- Mapping of a PDO: number of entries and the entries in use. -/
def State.pdoEntries (s : State) (idx : Nat) : List Word :=
  (List.range (s.nl (idx * 256))).map fun j => s.gl (idx * 256 + 1 + j)

/-- The object an entry names. -/
def pdoKey (e : Word) : Nat := e.toNat / 256

/-- An entry names an object that this direction may map, with its size. -/
def pdoEntryOk (rx : Bool) (e : Word) : Bool :=
  match rowOf (pdoKey e) with
  | none => false
  | some (r, _, _) =>
    decide (0x2000 ≤ pdoKey e / 256 ∧ pdoKey e / 256 ≤ 0x3FFF) && decide (r.ty ≠ .domain) && decide (r.cls ≠ .s) && decide (r.cls ≠ .k)
      && decide (e.toNat % 256 = 8 * r.ty.bytes) && (if rx then decide (r.cls = .l) && decide (r.acc ≠ .ro) else decide (r.acc ≠ .wo))

/-- A 64-bit object stands as its two subs, low half first. -/
def pdoPairs : List Word → Bool
  | [] => true
  | [e] => !wideLow (pdoKey e) && !wideHigh (pdoKey e)
  | e :: f :: rest =>
    if wideLow (pdoKey e) then decide (pdoKey f = pdoKey e + 1) && pdoPairs rest
    else !wideHigh (pdoKey e) && pdoPairs (f :: rest)

/-- The PDOs assigned to a direction: 1C12 for RxPDOs, 1C13 for TxPDOs. -/
def State.pdosOf (s : State) (rx : Bool) : List Nat :=
  let b := if rx then 0x1C1200 else 0x1C1300
  (List.range (s.nl b)).map fun j => s.nl (b + 1 + j)

/-- The entries of a direction in order. -/
def State.pdoMap (s : State) (rx : Bool) : List Word := (s.pdosOf rx).flatMap s.pdoEntries

/-- Every assigned PDO of a direction has a valid mapping (R493, R494). -/
def State.pdoValid (s : State) (rx : Bool) : Bool :=
  (s.pdosOf rx).all fun i => (s.pdoEntries i).all (pdoEntryOk rx) && pdoPairs (s.pdoEntries i)

/-- Write of a mapping or assignment object (R494). -/
def wrPdo (k : Nat) (v : Word) (s : State) : WOut :=
  if s.dict.al ≠ .preOp then refused6 s
  else if k / 256 < 0x1C00 ∧ k % 256 ≠ 0 ∧ v ≠ 0 ∧ !pdoEntryOk (decide (k / 256 < 0x1A00)) v then (s, 9)
  else done (s.setL k v)

/-! ### Effects of writes, by chapter -/

def eff03 (k : Nat) (v : Word) (s : State) : Option WOut :=
  if k = Obj.MODE_REQ then some (wrModeReq v s)
  else if k = Obj.SAFE_ACK then some (wrSafeAck s)
  else if k = Obj.COMMIT_REQ then some (wrCommitReq v s)
  else if k = Obj.RT_REQ then some (wrRtReq v s)
  else if k = Obj.IMG_CTRL then some (wrImgCtrl v s)
  else if k = Obj.IMG_DATA then some (wrImgData v s)
  else if k = Obj.MIN_SLACK_NS then some (done (s.setLN Obj.MIN_SLACK_NS 0x7FFFFFFF))
  else none

def eff05 (k : Nat) (v : Word) (s : State) : Option WOut :=
  let i := k / 256
  if 0x2200 ≤ i ∧ i < 0x2226 ∧ k % 256 = 1 then some (wrLaneCtrl (i - 0x2200) v s)
  else if 0x2200 ≤ i ∧ i < 0x2226 ∧ k % 256 = 6 then some (wrPrbsErr (i - 0x2200) s)
  else if 0x2240 ≤ i ∧ i < 0x2260 ∧ k % 256 = 6 then some (wrDiscCtrl (i - 0x2240) v s)
  else if k = Obj.COURIER_REQ then some (wrCourierReq v s)
  else if k = Obj.BEACON_SEND then some (wrBeaconSend v s)
  else if k = Obj.HEALTH_CMD then some (wrHealthCmd v s)
  else if k = Obj.CFG_WORD then some (wrCfgWord v s)
  else none

def eff08 (p : Path) (k : Nat) (v : Word) (s : State) : Option WOut :=
  let i := k / 256
  if 0x2410 ≤ i ∧ i < 0x241C ∧ k % 256 = 1 then some (wrArmRef p (i - 0x2410) v s)
  else if 0x2420 ≤ i ∧ i < 0x242C ∧ k % 256 = 1 then some (wrForceCtrl (i - 0x2420) v s)
  else if 0x2420 ≤ i ∧ i < 0x242C ∧ k % 256 = 15 then some (wrForceCommitAll s)
  else if 0x2430 ≤ i ∧ i < 0x243C ∧ k % 256 = 6 then some (wrMaskClear (i - 0x2430) s)
  else none

def eff11 (p : Path) (k : Nat) (v : Word) (s : State) : Option WOut :=
  if k = Obj.HOST_RELEASE then some (wrHostRelease v s)
  else if k = Obj.DELAY_ARM then some (wrDelayArm v s)
  else if k = Obj.DELAY_CANCEL then some (wrDelayCancel v s)
  else if k = Obj.DESC_W0 then some (wrDescW p 0 v s)
  else if k = Obj.DESC_W1 then some (wrDescW p 1 v s)
  else if k = Obj.DESC_W2 then some (wrDescW p 2 v s)
  else if k = Obj.DESC_W3 then some (wrDescW3 p v s)
  else if k = Obj.CYC_WARN_CNT then some (done (s.clearCycWarn.setL k 0))
  else none

def eff12 (k : Nat) (v : Word) (s : State) : Option WOut :=
  let i := k / 256
  if k = Obj.AIDS_STICKY then some (wrAidsSticky v s)
  else if k = Obj.LANTERN_CMD then some (wrLanternCmd v s)
  else if 0x2710 ≤ i ∧ i < 0x271C ∧ k % 256 = 6 then some (wrNotchRestart (i - 0x2710) s)
  else if k = Obj.ACQ_CMD then some (wrAcqCmd v s)
  else if k = Obj.ADC_CTRL 0 then some (wrAdcCtrl 0 v s)
  else if k = Obj.ADC_CTRL 1 then some (wrAdcCtrl 1 v s)
  else if 0x2A60 ≤ i ∧ i < 0x2A70 ∧ k % 256 = 1 then some (wrPwmTiming (i - 0x2A60) v s)
  else if 0x2A60 ≤ i ∧ i < 0x2A70 ∧ k % 256 = 2 then some (wrPwmForce (i - 0x2A60) v s)
  else if 0x2A60 ≤ i ∧ i < 0x2A70 ∧ k % 256 = 3 then some (wrPairCtrl (i - 0x2A60) v s)
  else if k = Obj.PWM_SYNC_START then some (wrPwmSyncStart v s)
  else if k = Obj.TRIP_CLEAR then some (wrTripClear v s)
  else none

/-- SW_OPEN's challenge is a free value here (log entry 3). -/
def eff18 (p : Path) (k : Nat) (v : Word) (s : State) : Option WOut :=
  if k = Obj.SW_OPEN then
    let d := s.draw
    some (wrSwOpen p v (d.1.setWidth 16) d.2)
  else if k = Obj.SW_CONFIRM then some (wrSwConfirm p v s)
  else if k = Obj.SWAP_REQ then some (wrSwapReq s)
  else if k = Obj.FAULT_ACK_HI then some (wrFaultAckHi p v s)
  else if k = Obj.FAULT_FORCE_HI then some (wrFaultForceHi p v s)
  else if k = Obj.MARCH_CTRL then some (wrMarchCtrl v s)
  else if k = Obj.LC_REQ then some (wrLcReq v s)
  else if k = Obj.COMPLETE then some (wrComplete v s)
  else if k = Obj.JRN_POP then some (wrJrnPop v s)
  else if 0x2F10 ≤ k / 256 ∧ k / 256 < 0x2F30 ∧ k % 256 = 1 then some (wrPend p (k / 256 - 0x2F10) v s)
  else none

/-- MDIO_CMD (R497): START = 1 runs a frame, refused with result 3 while one runs; START = 0 runs none. -/
def wrMdioCmd (v : Word) (s : State) : WOut :=
  if !nbit v.toNat 31 then done s
  else if s.dict.mdio.isSome then refused6 (s.setLN Obj.MDIO_RESULT 3)
  else done ({ s with dict := { s.dict with mdio := some (false, v) } }.setLN Obj.MDIO_RESULT 1)

def eff23 (k : Nat) (v : Word) (s : State) : Option WOut :=
  let i := k / 256
  if (0x1600 ≤ i ∧ i < 0x1604) ∨ (0x1A00 ≤ i ∧ i < 0x1A04) ∨ i = 0x1C12 ∨ i = 0x1C13 then some (wrPdo k v s)
  else if k = Obj.MDIO_CMD then some (wrMdioCmd v s)
  else if k = Obj.TJ_MAX ∨ k = Obj.TJ_MIN then some (done (s.setLI k s.power.tj))
  else if k = Obj.PPS_TOD_HI then some (done { s with time := { s.time with todAt := some s.nowL } })
  else none

/-- The high half of a 64-bit object applies both halves (R9); `st` says whether they are staged. With no low half held, the object's
current low half stands: of a staged object the active one, which a read returns (log entry 107). -/
def State.storeWide (s : State) (p : Path) (k : Nat) (v : Word) (st : Bool) : State :=
  let lo := k - 1
  if st then ((s.setS lo (s.lowHeld p lo (s.ga lo))).setS k v).dropLow p
  else ((s.setL lo (s.lowHeld p lo (s.gl lo))).setL k v).dropLow p

/-- The plain effect of a write by class (R8, R9): low halves are held, class S is staged, class L applies. -/
def wrPlain (p : Path) (k : Nat) (v : Word) (s : State) : WOut :=
  match rowOf k with
  | none => (s, 2)
  | some (r, _, _) =>
    if wideLow k then done (s.holdLow p k v)
    else if wideHigh k then done (s.storeWide p k v (decide (r.cls = .s)))
    else if r.cls = .s then done (s.setS k v)
    else done (s.setL k v)

/-- The effect of a write that passed its checks. Writing PPS_TOD_HI applies both halves and marks the time of day as given (R321). -/
def objEffect (p : Path) (k : Nat) (w : Word) (s : State) : WOut :=
  let v := keepBits k w
  if isClassK k then wrClassK p k w s
  else if k = Obj.PPS_TOD_HI then (eff23 k v (wrPlain p k v s).1).getD (s, 2)
  else
    (((((((eff03 k v s).orElse fun _ => eff05 k v s).orElse fun _ => eff08 p k v s).orElse fun _ => eff11 p k v s).orElse
      fun _ => eff12 k v s).orElse fun _ => eff18 p k v s).orElse fun _ => eff23 k v s).getD (wrPlain p k v s)

/-- A write to an object on a path: the checks and the effect, without the report. -/
def State.objTry (s : State) (p : Path) (k : Nat) (v : Word) : WOut := s.tryWrite k v (objEffect p k v)

/-- A write to an object on a path, reported (R480). -/
def State.objWrite (s : State) (p : Path) (k : Nat) (v : Word) : State := s.guardWrite p k v (objEffect p k v)

/-- REGISTER_WRITE (R532): a write to any object. -/
def execRegisterWrite (p : Path) (key : Nat) (v : Word) (s : State) : Host.Outcome State Fault Refusal :=
  .next (s.objWrite p key v)

/-! ### DOMAIN objects (R138, R457, R459, R461, R488, R500) -/

/-- The object is a DOMAIN. -/
def isDomain (k : Nat) : Bool :=
  match rowOf k with
  | some (r, _, _) => decide (r.ty = .domain)
  | none => false

/-- An entry of the long-record ring as bytes. -/
def LongEntry.bytes (e : LongEntry) : List Byte :=
  leBytes 4 e.w0.toNat ++ leBytes 4 e.w1.toNat ++ leBytes 4 e.w2.toNat ++ leBytes 4 e.w3.toNat ++ leBytes 1 e.lane ++ [0]
    ++ leBytes 2 e.addr ++ leBytes 4 e.frameLo.toNat

/-- Characters of the device's names. -/
def asciiBytes (l : List Nat) : List Byte := l.map fun n => BitVec.ofNat 8 n

/-- The bytes of a DOMAIN object as it reads. MAN_STAGED is of class S, so it reads its active value (R8). -/
def State.domainRead (s : State) (k : Nat) : List Byte :=
  if k = Obj.LONG_RING then
    (List.range 64).flatMap fun i => (tget (fun _ => (⟨0, 0, 0, 0, 0, 0, 0⟩ : LongEntry)) s.routes.longRing i).bytes
  else if k = Obj.MAN_STAGED ∨ k = Obj.MAN_ACTIVE then
    (if (s.manifest (s.nl Obj.MAN_LANE)).entries.isEmpty then [] else (s.manifest (s.nl Obj.MAN_LANE)).bytes)
  else if k = Obj.TAMPER_LOG then s.rdBytes (secAddr 0x400) 1024
  else if k = Obj.DEVICE_NAME then asciiBytes [83, 112, 114, 105, 110, 117, 110, 100, 32, 83, 57]
  else if k = Obj.HW_VERSION then asciiBytes [66, 48]
  else []

/-- Consecutive 32-bit little-endian words. -/
def leWords : List Byte → List Word
  | a :: b :: c :: d :: rest => w32 (ofLeBytes [a, b, c, d]) :: leWords rest
  | _ => []

/-- Little-endian number at an offset of a byte string. -/
def numAt (bs : List Byte) (off n : Nat) : Nat := ofLeBytes ((bs.drop off).take n)

/-- A manifest in the layout of R116; `none` where its length does not fit UNIT_COUNT. -/
def parseManifest (bs : List Byte) : Option Manifest :=
  if bs.length < 16 ∨ bs.length ≠ 16 + 4 * numAt bs 0 2 then none
  else some { flags := numAt bs 4 1 % 2, delayMax := numAt bs 8 4, entries := leWords (bs.drop 16), slotCount := numAt bs 2 2 }

/-- A DOMAIN object takes a byte string: the outcome with its reason (R480, R488). -/
def State.domainWrite (s : State) (k : Nat) (bs : List Byte) : WOut :=
  match rowOf k with
  | none => (s, 2)
  | some (r, _, _) =>
    if r.acc = .ro then (s, 1)
    else if r.ty ≠ .domain then (s, 8)
    else if r.cls = .s ∧ s.commit.st ≠ .opened then (s.incL Obj.STAGE_WRITE_REFUSED_CNT, 5)
    else if k = Obj.KEY_INSTALL then wrKeyInstall bs s
    else match parseManifest bs with
      | none => (s, 8)
      | some m =>
        if 600 < m.entries.length ∨ 512 < m.slotCount then (s, 3)
        else done { s with routes := { s.routes with manStaged := vset s.routes.manStaged (s.nl Obj.MAN_LANE) m } }

end Sys2Proof.Machine
end

