-- ==== Sys2Proof/Machine/Boot.lean ====
section
/-! DEFINITION. Reset and BOOT (R55 to R63, R86, R403, R454, R464, R528, R529): what a reset keeps, the steps of BOOT in order, the
load of an image and its fallback, and the first validation. -/
namespace Sys2Proof.Machine

def State.setBoot (s : State) (b : BootSt) : State := { s with boot := b }
def State.bootStep (s : State) (x : BootStep) : State := s.setBoot { s.boot with step := x }

/-! ### Reset (R70, R462, R528) -/

/-- The life-cycle state after a reset: programming that it interrupts has blown the primary fuse (R462). -/
def State.lifeAfterReset (s : State) : LifeCycle := s.mem.fusing.getD s.mem.life

/-- Every block is reset. The flash, the secure bank, the fuses, the TAP (R526) and the waiting commands stay; `low` says whether RESET_N is held low,
`cause` what RESET_CAUSE will report (R512). -/
def State.resetTo (s : State) (low good : Bool) (cause : Nat) : State :=
  let z := State.reset
  let s := s.fuseTampers false
  { z with
    pending := s.pending
    free := s.free
    flash := s.flash
    sram := s.sram.filter fun c => decide (secAddr 0 ≤ c.1) && decide (c.1 < secAddr 0x10000)
    live := tput dfltW (tput dfltW [] Obj.RESET_CAUSE (w32 cause)) Obj.TAMPER_LOG_CNT (s.gl Obj.TAMPER_LOG_CNT)
    mem := { z.mem with life := s.lifeAfterReset }
    jtag := s.jtag
    boot := { z.boot with resetLow := low, pwrgood := good, cause := cause } }

/-- PWRGOOD_RISE (R528). -/
def execPwrgoodRise (s : State) : Host.Outcome State Fault Refusal :=
  .next (if s.boot.pwrgood then s else s.setBoot { s.boot with pwrgood := true, resetLow := true })

/-- PWRGOOD_FALL (R528). -/
def execPwrgoodFall (s : State) : Host.Outcome State Fault Refusal :=
  .next (if s.boot.pwrgood then s.resetTo true false 1 else s)

/-- RESET_N_ASSERT (R528): a reset that is in force already keeps its cause. -/
def execResetNAssert (s : State) : Host.Outcome State Fault Refusal :=
  .next (if s.boot.resetLow then s else s.resetTo true true 2)

/-- The release of RESET_N begins BOOT (R55): BOOT_SEL is sampled (R58, R464). -/
def State.startBoot (s : State) (sel : BitVec 2) : State :=
  let s1 := s.resetTo false true s.boot.cause
  let j := s1.jtag
  let s2 := ({ s1 with jtag := if j.ir = .extest then { j with ir := .bypass, driving := false } else j } : State).setBoot { s1.boot with
    selPins := sel
    provisioning := decide (sel = 3) && (decide (s1.mem.life = .blank) || decide (s1.mem.life = .returned)) }
  if sel = 2 then s2.raiseAs 21 1 0 .n else s2

/-- The inputs TAMPER_N that were active at PWRGOOD are accepted at the release of RESET_N that follows it (R460, log entry 163). -/
def State.tamperAtRelease (s : State) (active : BitVec 2) : State :=
  if s.boot.cause = 1 then s.each (idxs 2 fun n => nbit active.toNat n) State.tamperAccept else s

/-- RESET_N_RELEASE (R55, R58). A release less than 100 µs after PWRGOOD has risen takes effect at their end, from which BOOT counts
(R529): L starts at 0 there in either case. -/
def execResetNRelease (sel tamper : BitVec 2) (s : State) : Host.Outcome State Fault Refusal :=
  .next (if s.boot.resetLow && s.boot.pwrgood then (s.startBoot sel).tamperAtRelease tamper else s)

/-! ### Clocks, fuses, march and self-test (R55, R454, R507) -/

/-- CLOCKS_LOCKED (R55, R507): both converters start their calibration of BOOT (R364). -/
def execClocksLocked (s : State) : Host.Outcome State Fault Refusal :=
  .next (
    if s.boot.step = .clocks ∧ !s.boot.resetLow then
      ((((({ s with power := { s.power with corePll := true, fabric := true, sdPll := 3, xtalOk := true, wtOsc := true } }).setLN
        Obj.SRCLK_STATUS 3).calRequest 0).calRequest 1).bootStep .fuses)
    else s)

/-- FUSE_READ_DONE (R55, R454): `ecc` says that the secure bank holds an uncorrectable word. -/
def execFuseReadDone (ecc : Bool) (s : State) : Host.Outcome State Fault Refusal :=
  .next (
    if s.boot.step = .fuses then (if ecc then s.wipe 7 else s).bootStep .march
    else s)

/-- The acquisition banks are turned on for a host load (R58). -/
def State.openHostLoad (s : State) : State :=
  let s1 := s.each ((List.range 128).map (35 + ·)) State.wakeBank
  s1.setBoot { s1.boot with hostLoad := true, submitted := false }

/-- After the march and the self-test: the slots are read, a host load is awaited, or a provisioning boot goes on without an image
(R55, R58, R464). -/
def State.afterMarch (s : State) : State :=
  if s.boot.step = .march ∧ s.boot.marched ∧ s.boot.wtTested then
    if s.boot.provisioning then (s.setBoot { s.boot with step := .validation, slot := 3 }).each [0, 1] fun t d => t.domCommit d true
    else if s.boot.selPins = 1 then s.openHostLoad.bootStep .payload
    else s.bootStep .headers
  else s

/-- The start-up march leaves every bank but the secure one at 0 (R453, R454). The dictionary's banks hold the defaults when BOOT goes on
(log entry 147). -/
def State.marchCleared (s : State) : State :=
  { s with
    sram := tclear 0 (secAddr 0) s.sram
    ledger := { s.ledger with entries := [] } }

/-- STARTUP_MARCH_DONE (R454): `rows` are the bank and the number of each row that failed, each remapped to a spare; a bank without one
ends BOOT. -/
def execStartupMarchDone (rows : List (Nat × Nat)) (s : State) : Host.Outcome State Fault Refusal :=
  .next (
    if s.boot.step = .march ∧ !s.boot.marched then
      let r := rows.foldl (fun (x : State × Bool) b =>
        let y := x.1.repairRow b.1 b.2
        (y.1, x.2 && y.2)) (s.marchCleared, true)
      if r.2 then (r.1.setBoot { r.1.boot with marched := true }).afterMarch else r.1.bootStep .memoryFail
    else s)

/-- WT_SELF_TEST_DONE (R55, R57). -/
def execWtSelfTestDone (pass : Bool) (s : State) : Host.Outcome State Fault Refusal :=
  .next (
    if (s.boot.step = .march ∨ s.boot.step = .fuses ∨ (s.boot.step = .clocks ∧ !s.boot.resetLow)) ∧ !s.boot.wtTested then
      if pass then (s.setBoot { s.boot with wtTested := true }).afterMarch else s.bootStep .watchtowerFail
    else s)

/-! ### The slots (R62) -/

/-- The slot may be chosen: its header and marker are right. CRC and HMAC follow at the end of the load. -/
def State.slotCandidate (s : State) (n : Nat) : Bool := s.imgHdrOk n && s.imgMarkerOk n

/-- SLOT_HEADERS_READ (R62): the valid slot with the higher SEQ, slot A when they are equal. -/
def execSlotHeadersRead (s : State) : Host.Outcome State Fault Refusal :=
  .next (
    if s.boot.step = .headers then
      let s1 := (s.noteSlot 0 false).noteSlot 1 false
      let a := s1.slotCandidate 0
      let b := s1.slotCandidate 1
      if !a && !b then s1.openHostLoad.bootStep .noImage
      else
        let n := if a && (!b || decide (s1.imgSeq 1 ≤ s1.imgSeq 0)) then 0 else 1
        s1.setBoot { s1.boot with loading := n, step := .payload }
    else s)

/-! ### Sections of an image (R60, R61) -/

/-- The validation will refuse the image with this code; the lowest one stands (R68). -/
def State.noteBad (s : State) (code : Nat) (detail : Option Nat) : State :=
  match s.boot.bad with
  | some (c, _) => if c ≤ code then s else s.setBoot { s.boot with bad := some (code, detail) }
  | none => s.setBoot { s.boot with bad := some (code, detail) }

/-- Payload as sections of TYPE and body, at most `fuel`; the flag says that END stands last and ends it. -/
def imgSections : Nat → List Byte → List (Nat × List Byte) × Bool
  | 0, _ => ([], false)
  | fuel + 1, bs =>
    if bs.length < 8 then ([], false)
    else
      let type := numAt bs 0 2
      let len := numAt bs 4 4
      let pad := (len + 3) / 4 * 4
      if bs.length < 8 + pad then ([], false)
      else if type = 0xFF then ([], decide (len = 0 ∧ bs.length = 8))
      else
        let r := imgSections fuel (bs.drop (8 + pad))
        ((type, (bs.drop 8).take len) :: r.1, r.2)

/-- Dictionary records of a body as key and value bytes; the flag says that they fill it. -/
def imgRecords : Nat → List Byte → List (Nat × List Byte) × Bool
  | _, [] => ([], true)
  | 0, _ => ([], false)
  | fuel + 1, bs =>
    let size := numAt bs 3 1
    let pad := (size + 3) / 4 * 4
    if bs.length < 4 + pad then ([], false)
    else
      let r := imgRecords fuel (bs.drop (4 + pad))
      ((numAt bs 0 2 * 256 + numAt bs 2 1, (bs.drop 4).take size) :: r.1, r.2)

/-- A DICT record (R61). Class S goes to the staged copy without the write checks, the words of a descriptor with their reserved bits,
which the validation refuses (R273); class L takes effect as a write, its own range being checked here. -/
def State.applyRecord (s : State) (x : Nat × List Byte) : State :=
  let k := x.1
  let bad := s.noteBad 0x01 (some k)
  match rowOf k with
  | none => bad
  | some (r, _, _) =>
    if r.acc = .ro ∨ r.cls = .k ∨ wideHigh k then bad
    else if r.ty = .domain then
      (if x.2.isEmpty then bad
       else
        let w := s.domainWrite k x.2
        if w.2 = 0 then w.1 else bad)
    else if wideLow k then
      if x.2.length ≠ 8 then bad
      else (objEffect .mailbox (k + 1) (w32 (numAt x.2 4 4)) (objEffect .mailbox k (w32 (numAt x.2 0 4)) s).1).1
    else if x.2.length ≠ r.ty.bytes then bad
    else
      let v := r.ty.extend (ofLeBytes x.2)
      if r.cls = .l ∧ !(r.ty.fits v && r.rng.ok (v &&& w32 r.bits)) then s.noteBad (if r.ty = .enum8 then 0x02 else 0x01) (some k)
      else if k = Obj.DESC_W3 then s.stageDesc { s.descWindow .mailbox with w3 := v }
      else (objEffect .mailbox k v s).1

/-- A SAFETY record: every copy of the object takes the value (R403). -/
def State.applySafety (s : State) (x : Nat × List Byte) : State :=
  match rowOf x.1 with
  | none => s.noteBad 0x01 (some x.1)
  | some (r, _, _) =>
    if r.cls ≠ .k ∨ x.2.length ≠ r.ty.bytes then s.noteBad 0x01 (some x.1)
    else
      let v := r.ty.extend (ofLeBytes x.2) &&& w32 r.bits
      (((s.setK x.1 v).setKS x.1 v).setS x.1 v).setA x.1 v

/-- Bytes for one memory of an engine: P, X or Y with its size (R60, R449). -/
def cupMemory (e mem : Nat) : Nat × Nat :=
  if mem = 0 then (bankAddr (3 + e) 0, 65536)
  else if mem = 1 then (bankAddr (11 + e) 0, 32768)
  else (bankAddr (11 + e) 0x8000, 32768)

/-- Configuration entries of a LEDGER_CFG section from an index on (R167). -/
def State.applyLedgerCfg (s : State) (i : Nat) : Nat → List Byte → State
  | 0, _ => s
  | n + 1, bs =>
    let w := numAt bs 12 4
    let s1 :=
      if 12287 < i ∨ numAt bs 0 4 ≠ 0 ∨ numAt bs 4 4 ≠ 0 ∨ numAt bs 8 4 ≠ 0 ∨ w % 16384 ≠ 0 then s.noteBad 0x01 (some Obj.CFG_WORD)
      else { s with ledger := { s.ledger with staged := tput (fun _ => 0) s.ledger.staged i (w32 w) } }
    s1.applyLedgerCfg (i + 1) n (bs.drop 16)

/-- One section has its effect (R60). -/
def State.applySection (s : State) (x : Nat × List Byte) : State :=
  let b := x.2
  let bad := s.noteBad 0x01 none
  if x.1 = 1 then
    let r := imgRecords b.length b
    let s1 := r.1.foldl State.applyRecord s
    if r.2 then s1 else s1.noteBad 0x01 none
  else if x.1 = 2 then
    let mem := numAt b 1 1
    let off := numAt b 4 4
    let data := b.drop 8
    if b.length < 8 ∨ 2 < mem ∨ (cupMemory 0 mem).2 < off + data.length then bad
    else s.each (idxs 8 fun e => nbit (numAt b 0 1) e) fun s e => s.wrBytes ((cupMemory e mem).1 + off) data
  else if x.1 = 3 then
    if b.length < 4 ∨ 0x100000 < numAt b 0 4 + (b.length - 4) then bad else s.wrBytes (shmAddr (numAt b 0 4)) (b.drop 4)
  else if x.1 = 4 then
    match parseManifest (b.drop 4) with
    | none => s.noteBad 0x01 (some Obj.MAN_STAGED)
    | some m =>
      if b.length < 4 ∨ 31 < numAt b 0 1 then s.noteBad 0x01 (some Obj.MAN_STAGED)
      else { s with routes := { s.routes with manStaged := vset s.routes.manStaged (numAt b 0 1) m } }
  else if x.1 = 5 then
    let n := b.length - 4
    let r := imgRecords n (b.take n)
    if b.length < 4 ∨ (crc32c (b.take n)).toNat ≠ numAt b n 4 then s.noteBad 0x0B none
    else
      let s1 := r.1.foldl State.applySafety s
      if r.2 then s1 else s1.noteBad 0x01 none
  else if x.1 = 6 then
    if b.length < 4 ∨ b.length ≠ 4 + 16 * numAt b 2 2 then s.noteBad 0x01 (some Obj.CFG_WORD)
    else s.applyLedgerCfg (numAt b 0 2) (numAt b 2 2) (b.drop 4)
  else s.noteBad 0x11 none

/-- Keys that the DICT sections of a payload name. -/
def payloadKeys (p : List Byte) : List Nat :=
  (imgSections p.length p).1.flatMap fun x => if x.1 = 1 then (imgRecords x.2.length x.2).1.map (·.1) else []

/-- What the host has staged on top of the active content: it stays staged for correction (R67). -/
def hostStaged {α : Type} [DecidableEq α] (d : Nat → α) (act stg : List (Nat × α)) : List (Nat × α) :=
  stg.foldl (fun t x => if tget d act x.1 = x.2 then t else tput d t x.1 x.2) []

/-- The lanes are DISABLED and their routes UNUSED again (R86, R136). -/
def State.dropLanes (s : State) : State :=
  let s1 := s.each (idxs 32 fun n => nbit (s.nl (Obj.LANE_CTRL n)) 0) fun t n =>
    let old := t.gl (Obj.LANE_CTRL n)
    (t.setL (Obj.LANE_CTRL n) (ctrlKeep (old &&& ~~~(1 : Word)))).ctrlAct n old (old &&& ~~~(1 : Word))
  s1.each (List.range 32) fun t n => t.setRouteSt n .unused

/-- Nothing is active, and only what the host has staged stays staged (log entry 106). -/
def State.dropCopies (s : State) : State :=
  { s with
    act := []
    stg := hostStaged dfltW s.act s.stg
    kAct := []
    kStg := hostStaged dfltW s.kAct s.kStg
    sram := tclear (bankAddr 3 0) (bankAddr 35 0) s.sram
    ledger := { s.ledger with
      entries := []
      staged := hostStaged (fun _ => 0) (s.ledger.entries.map fun x => (x.1, w32 (x.2.w3.toNat / 16384 * 16384))) s.ledger.staged }
    sched := { s.sched with active := [], staged := hostStaged (fun _ => Desc.empty) s.sched.active s.sched.staged }
    routes := { s.routes with
      routes := Vector.replicate 32 Route.reset
      manStaged := Vector.ofFn fun (n : Fin 32) =>
        if s.routes.manStaged[n] = s.routes.manActive[n] then Manifest.empty else s.routes.manStaged[n]
      manActive := Vector.replicate 32 Manifest.empty }
    boot := { s.boot with bad := none, slotRuns := false } }

/-- The configuration of an image that was refused is gone: every object takes its default again, the lanes are DISABLED, the domains
follow, and no manifest, Ledger, descriptor or engine content is left (R63, R86). -/
def State.dropConfig (s : State) (p : List Byte) : State :=
  let s2 := s.dropLanes.dropCopies
  let s3 := s2.each ((payloadKeys p).filter fun k => !(Obj.LANE_CTRL 0 ≤ k && k ≤ Obj.LANE_CTRL 31)) fun t k =>
    match rowOf k with
    | some (r, _, _) => if r.cls = .l then t.setL k (dfltW k) else t
    | none => t
  (s3.each [0, 1] fun t d => t.domCommit d true).laneLevels

/-- The Ledger entry that the start-up writes from a configuration word before S_0 (R184): an enabled entry is UNSEEN with HCAUSE 0 and
no record; a disabled one is all zero except W3[31:14]. Nothing is counted or journalled. -/
def State.bootCfg (s : State) (i : Nat) : State :=
  let w := w32 ((s.stagedCfg i).toNat / 16384 * 16384)
  s.setEntry i { w0 := 0, w1 := 0, w2 := if nbit w.toNat 15 then 0xC0000000 else 0, w3 := w }

/-- The loaded values, with what the host had staged where the image brings none: that stays staged and takes effect with commit 1 at
S_0 (R8, R67, log entry 106). -/
def keepStaged {α : Type} [DecidableEq α] (d : Nat → α) (host loaded : List (Nat × α)) : List (Nat × α) :=
  host.foldl (fun t x => if loaded.any (fun y => y.1 == x.1) then t else tput d t x.1 x.2) loaded

/-- The sections of an image make the configuration in force (R60, R63): staged and active content alike, over the defaults. -/
def State.loadSections (s : State) (secs : List (Nat × List Byte)) : State :=
  let z : State := { s with
    stg := []
    ledger := { s.ledger with staged := [] }
    sched := { s.sched with staged := [] }
    routes := { s.routes with manStaged := Vector.replicate 32 Manifest.empty } }
  let t := secs.foldl State.applySection z
  let u : State := { t with
    act := t.stg
    sched := { t.sched with active := t.sched.staged }
    routes := { t.routes with manActive := t.routes.manStaged } }
  let v := u.each u.cfgIndices State.bootCfg
  { v with
    stg := keepStaged dfltW s.stg t.stg
    ledger := { v.ledger with staged := keepStaged (fun _ => 0) s.ledger.staged t.ledger.staged }
    sched := { v.sched with staged := keepStaged (fun _ => Desc.empty) s.sched.staged t.sched.staged }
    routes := { v.routes with manStaged := Vector.ofFn fun (n : Fin 32) =>
      if t.routes.manStaged[n].entries.isEmpty then s.routes.manStaged[n] else t.routes.manStaged[n] } }

/-- A flash operation works on a slot. -/
def FlashOp.on (o : FlashOp) (slot : Nat) : Bool :=
  match o with
  | .erase n | .finish n | .save n => n == slot
  | .page a _ => a / 0x400000 == slot

/-- From now on the slot is the running one: what the image service still had to do to it is dropped (R65), with IMG_STATUS 3. -/
def State.claimSlot (s : State) (slot : Nat) : State :=
  if s.img.ops.any (·.on slot) || (decide (s.img.slot = slot) && !s.img.page.isEmpty) then
    (s.setImg { s.img with
      ops := s.img.ops.filter fun o => !o.on slot
      page := if s.img.slot = slot then [] else s.img.page }).imgStatus 3
  else s

/-- The configuration of an image is loaded (R60): the lanes of the manifests are enabled (R86), and the domains start (R55). -/
def State.loadImage (s : State) (slot : Nat) : State :=
  let p := s.imgPayload slot
  let secs := imgSections p.length p
  let s1 := s.loadSections secs.1
  let s2 := if secs.2 then s1 else s1.noteBad 0x01 none
  let s3 := s2.claimSlot slot
  let s4 := s3.setBoot { s3.boot with
    slot := slot
    slotRuns := decide (slot < 2)
    hostLoad := false
    submitted := false
    lanesWaited := true
    timeWaited := decide (s3.na Obj.TIME_WAIT_MS ≠ 0)
    step := .lanes }
  let s5 := (s4.setLN Obj.IMAGE_SEQ (s.imgSeq slot)).each (List.range 32) fun t n =>
    let old := t.gl (Obj.LANE_CTRL n)
    if (t.manifest n).entries.isEmpty then t.setL (Obj.LANE_CTRL n) (ctrlKeep (old &&& ~~~(1 : Word)))
    else ((t.setRouteSt n .down).setL (Obj.LANE_CTRL n) (old ||| 1)).ctrlAct n 0 (old ||| 1)
  (s5.each [0, 1] fun t d => t.domCommit d true).bootAdvance

/-- BOOT waits for a host load with NO_IMAGE, or with CONFIG_REFUSED when an image was refused (R57). -/
def State.bootNoSlot (s : State) : State :=
  s.openHostLoad.bootStep (if s.boot.refused then .configRefused else .noImage)

/-- A flash slot failed its load or its validation: the other one is tried once, if it may be chosen (R63). -/
def State.fallback (s : State) : State :=
  let n := 1 - s.boot.loading
  if s.boot.loading < 2 ∧ !s.boot.provisioning ∧ !s.boot.triedOther ∧ s.slotCandidate n then
    s.setBoot { s.boot with loading := n, triedOther := true, step := .payload }
  else s.bootNoSlot

/-- PAYLOAD_LOAD_DONE (R62, R63). -/
def execPayloadLoadDone (s : State) : Host.Outcome State Fault Refusal :=
  .next (
    let n := s.boot.loading
    if s.boot.step ≠ .payload ∨ (s.boot.hostLoad && !s.boot.submitted) then s
    else if n = 2 then
      if s.imgValid 2 true then (s.imgStatus 2).loadImage 2
      else
        let s1 := (s.setBoot { s.boot with submitted := false }).imgStatus 5
        if s.boot.selPins = 1 then s1 else s1.bootNoSlot
    else
      let s1 := s.noteSlot n true
      if s1.imgValid n true then
        let s2 := s1.loadImage n
        if s2.boot.triedOther then s2.raise 20 else s2
      else s1.fallback)

/-- LANE_WAIT_EXPIRE (R55). -/
def execLaneWaitExpire (s : State) : Host.Outcome State Fault Refusal :=
  .next (if s.boot.step = .lanes then (s.setBoot { s.boot with lanesWaited := false }).bootAdvance else s)

/-- TIME_WAIT_EXPIRE (R55). -/
def execTimeWaitExpire (s : State) : Host.Outcome State Fault Refusal :=
  .next (if s.boot.step = .lanes then (s.setBoot { s.boot with timeWaited := false }).bootAdvance else s)

/-! ### The first validation (R55, R63, R68) -/

/-- Verdict on the loaded configuration, with what the host has staged on it: the lowest code of the image's sections and of the checks. -/
def State.bootVerdict (s : State) : Nat × Option Nat :=
  let r := s.verdict true
  match s.boot.bad with
  | some b => if r.1 = 0 ∨ b.1 ≤ r.1 then b else r
  | none => r

/-- The loaded configuration is accepted as commit sequence 1, whose tick is S_0 (R55, R67): until then the staged copies wait, and the
blocks run on what was loaded. A device of a pair takes the role STANDBY and waits for a train from an ACTIVE partner (R413, R416). -/
def State.acceptBoot (s : State) : State :=
  let s2 := s.planObjects s.revert.pNext
  let s3 := s2.prefetchAll.each (List.range 12) fun t a => ((t.notchLoad false a).notchLoad true a)
  let s4 := s3.each (List.range 12) fun t a =>
    let t1 := t.setNotch false a { t.notch false a with start := true }
    t1.setNotch true a { t1.notch true a with start := true }
  let s5 := s4.each (List.range 64) fun t c =>
    let u := t.wrW (secAddr (0x100 + 4 * c)) (t.gk (Obj.CONN_ID c))
    if (u.conn c).st = .failed then u.setConn c Conn.reset else u
  let s6 := (s5.jrnLevels.laneLevels).wtChannels
  let s7 : State :=
    if s6.ga Obj.PAIR_EN = 1 then
      { s6 with
        pair := { s6.pair with role := .standby }
        boot := { s6.boot with mirrorWait := true } }
    else s6
  let s8 := ((s7.setLN Obj.COMMIT_RESULT 0).setLN Obj.COMMIT_DETAIL 0).setBoot { s7.boot with accepted := true }
  { s8 with commit := { st := .pending, p := s.pNext, plan := true } }

/-- BOOT_VALIDATION_DONE (R55, R63, R68). -/
def execBootValidationDone (s : State) : Host.Outcome State Fault Refusal :=
  .next (
    if s.boot.step ≠ .validation ∨ s.boot.accepted then s
    else
      let r := s.bootVerdict
      if r.1 = 0 then s.acceptBoot
      else
        let u := s.commitRefuse r.1 r.2
        let t := (if u.commit.st = .opened then u else u.commitOpen).dropConfig (if s.boot.slot < 3 then s.imgPayload s.boot.slot else [])
        (t.setBoot { t.boot with refused := true }).fallback)

end Sys2Proof.Machine
end

