-- ==== Sys2Proof/Machine/Ports.lean ====
section
/-! DEFINITION. The engines' ports (R248, R264) and host writes to program memory (R267). The dictionary port DICT_DATA is in
DictPort.lean. -/
namespace Sys2Proof.Machine

/-- The fields of IN and OUT beside the port and Dr are 0 (R260). -/
def portOk (x : PortWord) : Bool := decide (x.cond = 0) && decide (x.hi = 0) && decide (x.un = 0) && decide (x.target = 0)

/-- OUT to a port that `has` covers, the command's: `f` takes the port and Dr, and answers whether the write was discarded or refused,
which sets PR. -/
def State.outInstr (s : State) (e st : Nat) (w : BitVec 64) (has : Nat → Bool) (f : Nat → State → Word → State × Bool) : State :=
  let x := PortWord.of w
  if opOf w = 0x209 ∧ has x.port.toNat = false then s
  else s.issued e st w 0x209 fun s1 =>
    if !portOk x then s1.exception e 1
    else
      let o := f x.port.toNat s1 ((s1.eng e).r.rd x.dr)
      let r := (o.1.eng e).r
      o.1.finish e { r with flg := flgSticky r.flg 11 o.2 }

/-- IN from a port that `has` covers, the command's: `f` answers the value for Dr, and whether the port is not listed, which sets PR. -/
def State.inInstr (s : State) (e st : Nat) (w : BitVec 64) (has : Nat → Bool) (f : Nat → State → State × Word × Bool) : State :=
  let x := PortWord.of w
  if opOf w = 0x208 ∧ has x.port.toNat = false then s
  else s.issued e st w 0x208 fun s1 =>
    if !portOk x then s1.exception e 1
    else
      let o := f x.port.toNat s1
      let r := (o.1.eng e).r
      o.1.finish e { r with d := vset r.d x.dr.toNat o.2.1, flg := flgSticky r.flg 11 o.2.2 }

/-- A port that writes an object: a refusal by the object's rules sets PR. -/
def State.portWrite (s : State) (key : Nat) (v : Word) (eff : State → WOut) : State × Bool :=
  let r := s.tryWrite key v eff
  (r.1, decide (r.2 ≠ 0))

/-- OUT_ARM_REF (R264): port 0x00 + a. -/
def execOutArmRef (e st : Nat) (w : BitVec 64) (s : State) : Host.Outcome State Fault Refusal :=
  .next (s.outInstr e st w (fun p => decide (p < 12)) fun p s v => s.portWrite (Obj.ARM_REF p) v (wrArmRef (.cupola e) p v))

/-- OUT_SEL_IDIR_FW (R264): port 0x10 + a. -/
def execOutSelIdirFw (e st : Nat) (w : BitVec 64) (s : State) : Host.Outcome State Fault Refusal :=
  .next (s.outInstr e st w (fun p => decide (0x10 ≤ p) && decide (p < 0x1C)) fun p s v =>
    s.portWrite (Obj.SEL_IDIR_FW (p - 0x10)) (v &&& 0xFF) fun s => done (s.setL (Obj.SEL_IDIR_FW (p - 0x10)) (v &&& 0xFF)))

/-- OUT_RT_REQ (R264). -/
def execOutRtReq (e st : Nat) (w : BitVec 64) (s : State) : Host.Outcome State Fault Refusal :=
  .next (s.outInstr e st w (· == 0x20) fun _ s v => s.portWrite Obj.RT_REQ (v &&& 0xFF) (wrRtReq (v &&& 0xFF)))

/-- OUT_BEACON_SEND (R155, R264). -/
def execOutBeaconSend (e st : Nat) (w : BitVec 64) (s : State) : Host.Outcome State Fault Refusal :=
  .next (s.outInstr e st w (· == 0x21) fun _ s v => s.portWrite Obj.BEACON_SEND (v &&& 0xFF) (wrBeaconSend (v &&& 0xFF)))

/-- OUT_PROBE (R301): the value stands for a probe of kind 1, and is discarded for any other. -/
def execOutProbe (e st : Nat) (w : BitVec 64) (s : State) : Host.Outcome State Fault Refusal :=
  .next (s.outInstr e st w (fun p => decide (p / 16 = 3)) fun p s v =>
    if fld (s.ga (Obj.LANTERN_PROBE (p % 16))) 31 28 = 1 then
      let l := s.aids.lantern
      ({ s with aids := { s.aids with lantern := { l with port := vset l.port (p % 16) v, portWritten := bset l.portWritten (p % 16) true } } }, false)
    else (s, false))

/-- OUT_SEM (R248). -/
def execOutSem (e st : Nat) (w : BitVec 64) (s : State) : Host.Outcome State Fault Refusal :=
  .next (s.outInstr e st w (fun p => decide (p / 16 = 4)) fun p s _ => ({ s with cup := { s.cup with sem := bset s.cup.sem (p % 16) false } }, false))

/-- IN_SEM (R248). -/
def execInSem (e st : Nat) (w : BitVec 64) (s : State) : Host.Outcome State Fault Refusal :=
  .next (s.inInstr e st w (fun p => decide (p / 16 = 4)) fun p s =>
    ({ s with cup := { s.cup with sem := bset s.cup.sem (p % 16) true } }, w32 (b2n (nbit s.cup.sem.toNat (p % 16))), false))

/-- OUT_TASK_RELEASE (R278): a release that is refused, or that shedding discards, sets PR (R243). -/
def execOutTaskRelease (e st : Nat) (w : BitVec 64) (s : State) : Host.Outcome State Fault Refusal :=
  .next (s.outInstr e st w (· == 0x60) fun _ s v =>
    let n := v.toNat % 256
    let r := s.softRelease n
    (r.1, s.softShed n || decide (r.2 ≠ 1)))

/-- OUT_DICT_SEL (R264). -/
def execOutDictSel (e st : Nat) (w : BitVec 64) (s : State) : Host.Outcome State Fault Refusal :=
  .next (s.outInstr e st w (· == 0x80) fun _ s v =>
    let g := s.eng e
    (s.setEng e { g with dictSel := v }, false))

/-- IN_DICT_RESULT (R265). -/
def execInDictResult (e st : Nat) (w : BitVec 64) (s : State) : Host.Outcome State Fault Refusal :=
  .next (s.inInstr e st w (· == 0x82) fun _ s => (s, (s.eng e).dictResult, false))

/-- Keys of the latched high halves of the IN ports: the object that FRAME_COUNT_HI reads, and the port of CTIME_HI, which is no object. -/
def ctimeKey : Nat := 0x25

/-- IN_FRAME_COUNT_LO (R264): it latches the high half (R9). -/
def execInFrameCountLo (e st : Nat) (w : BitVec 64) (s : State) : Host.Outcome State Fault Refusal :=
  .next (s.inInstr e st w (· == 0x22) fun _ s =>
    (s.latchHigh (.cupola e) (Obj.FRAME_COUNT_LO + 1) (hi32 s.frame.count), lo32 s.frame.count, false))
/-- IN_FRAME_COUNT_HI (R264). -/
def execInFrameCountHi (e st : Nat) (w : BitVec 64) (s : State) : Host.Outcome State Fault Refusal :=
  .next (s.inInstr e st w (· == 0x23) fun _ s =>
    (s.useHigh (.cupola e) (Obj.FRAME_COUNT_LO + 1), s.highRead (.cupola e) (Obj.FRAME_COUNT_LO + 1) (hi32 s.frame.count), false))
/-- IN_CTIME_LO (R264): converter time in ns; it latches the high half. -/
def execInCtimeLo (e st : Nat) (w : BitVec 64) (s : State) : Host.Outcome State Fault Refusal :=
  .next (s.inInstr e st w (· == 0x24) fun _ s => (s.latchHigh (.cupola e) ctimeKey (hi32 s.nowC), lo32 s.nowC, false))
/-- IN_CTIME_HI (R264). -/
def execInCtimeHi (e st : Nat) (w : BitVec 64) (s : State) : Host.Outcome State Fault Refusal :=
  .next (s.inInstr e st w (· == 0x25) fun _ s =>
    (s.useHigh (.cupola e) ctimeKey, s.highRead (.cupola e) ctimeKey (hi32 s.nowC), false))
/-- IN_ENGINE_ID (R264). -/
def execInEngineId (e st : Nat) (w : BitVec 64) (s : State) : Host.Outcome State Fault Refusal :=
  .next (s.inInstr e st w (· == 0x26) fun _ s => (s, w32 e, false))
/-- IN_TASK_ID (R264). -/
def execInTaskId (e st : Nat) (w : BitVec 64) (s : State) : Host.Outcome State Fault Refusal :=
  .next (s.inInstr e st w (· == 0x27) fun _ s => (s, w32 (((s.running e).map (·.desc)).getD 0), false))
/-- IN_TASK_CYCLES (R264). -/
def execInTaskCycles (e st : Nat) (w : BitVec 64) (s : State) : Host.Outcome State Fault Refusal :=
  .next (s.inInstr e st w (· == 0x28) fun _ s => (s, w32 (s.eng e).r.cycles, false))

/-- Ports listed for IN and for OUT (R264). -/
def inListed (p : Nat) : Bool :=
  (decide (0x22 ≤ p) && decide (p ≤ 0x28)) || (decide (0x40 ≤ p) && decide (p ≤ 0x4F)) || decide (p = 0x81) || decide (p = 0x82)
def outListed (p : Nat) : Bool :=
  decide (p ≤ 0x0B) || (decide (0x10 ≤ p) && decide (p ≤ 0x1B)) || decide (p = 0x20) || decide (p = 0x21)
    || (decide (0x30 ≤ p) && decide (p ≤ 0x4F)) || decide (p = 0x60) || decide (p = 0x80) || decide (p = 0x81)

/-- IN_UNLISTED_PORT (R264): returns 0 and sets PR. A listed port makes no such instruction. -/
def execInUnlistedPort (e st : Nat) (w : BitVec 64) (s : State) : Host.Outcome State Fault Refusal :=
  .next (s.inInstr e st w (fun p => !inListed p) fun _ s => (s, 0, true))
/-- OUT_UNLISTED_PORT (R264): discarded, and sets PR. -/
def execOutUnlistedPort (e st : Nat) (w : BitVec 64) (s : State) : Host.Outcome State Fault Refusal :=
  .next (s.outInstr e st w (fun p => !outListed p) fun _ s _ => (s, true))

/-! ### Host writes to program memory (R267) -/

/-- A host write of half a program word: the low half is held, the high half applies both; discarded in RUN and
RIDETHROUGH. -/
def State.progWrite (s : State) (e i : Nat) (hi : Bool) (v : Word) : State :=
  if s.mode = .run ∨ s.mode = .ridethrough then s.incL Obj.PROG_WR_DISCARD_CNT
  else if hi then
    let low := match vget none s.cup.progLatch 0 with
      | some (a, w) => if a = progAddr e i then w else s.rdW (progAddr e i)
      | none => s.rdW (progAddr e i)
    let s1 := (s.wrW (progAddr e i) low).wrW (progAddr e i + 4) v
    { s1 with cup := { s1.cup with progLatch := vset s1.cup.progLatch 0 none } }
  else { s with cup := { s.cup with progLatch := vset s.cup.progLatch 0 (some (progAddr e i, v)) } }

/-- PROG_MEM_WRITE (R267): a Host Port write in the window on an engine's program memory. -/
def execProgMemWrite (e : Fin 8) (i : BitVec 13) (hi : Bool) (v : Word) (s : State) : Host.Outcome State Fault Refusal :=
  .next (s.progWrite e.val i.toNat hi v).hostRetire

end Sys2Proof.Machine
end

