-- ==== Sys2Proof/Machine/DictPort.lean ====
section
/-! DEFINITION. Objects as the paths reach them (R9, R265, R486 to R488): OBJ_SEL and OBJ_DATA, the Host Port's DOMAIN buffer, and the
engines' DICT_DATA port. -/
namespace Sys2Proof.Machine

def State.setDict (s : State) (d : DictSt) : State := { s with dict := d }

/-! ### The Host Port's DOMAIN buffer (R488) -/

/-- Four bytes of the buffer at an offset; bytes beyond its length are 0. -/
def wordAt (bs : List Byte) (off : Nat) : Word := w32 (ofLeBytes ((bs.drop off).take 4))

/-- DOM_PTR moves on by 4. -/
def State.domStep (s : State) : State := s.setLN Obj.DOM_PTR ((s.nl Obj.DOM_PTR + 4) % 65536)

/-- A read of a DOMAIN sub: at DOM_PTR = 0 a new snapshot is taken. A WO object reads 0. -/
def State.domRead (s : State) (k : Nat) : State × Word :=
  match rowOf k with
  | none => (s, 0)
  | some (r, _, _) =>
    if r.acc = .wo then (s.domStep, 0)
    else
      let s1 :=
        if s.nl Obj.DOM_PTR = 0 then
          let bs := s.domainRead k
          (s.setDict { s.dict with domKey := some k, domBytes := bs, domOpen := false }).setLN Obj.DOM_LEN bs.length
        else s
      (s1.domStep, wordAt s1.dict.domBytes (s.nl Obj.DOM_PTR))

/-- Bytes of a path's DOMAIN buffer (ch. 23, introduction). -/
def domBufBytes : Nat := 4096

/-- A write of a DOMAIN sub: at DOM_PTR = 0 it opens the buffer of 4 KiB, later ones fill it. A refused access moves DOM_PTR as well. -/
def State.domWrite (s : State) (k : Nat) (v : Word) : WOut :=
  match rowOf k with
  | none => (s, 2)
  | some (r, _, _) =>
    let ptr := s.nl Obj.DOM_PTR
    if r.acc = .ro then (s.domStep, 1)
    else if s.dict.domOpen && decide (s.dict.domKey ≠ some k) then
      ((s.setDict { s.dict with domOpen := false, domBytes := [], domKey := none }).domStep, 8)
    else if ptr = 0 then
      done (s.setDict { s.dict with domOpen := true, domKey := some k, domBytes := leBytes 4 v.toNat }).domStep
    else if s.dict.domOpen && decide (ptr + 4 ≤ domBufBytes) then
      let old := s.dict.domBytes
      let bs := (old.take ptr) ++ List.replicate (ptr - old.length) 0 ++ leBytes 4 v.toNat ++ old.drop (ptr + 4)
      done (s.setDict { s.dict with domBytes := bs }).domStep
    else (s.domStep, 8)

/-- A write of DOM_END applies the first `v` bytes of the buffer to its object; a refusal leaves the buffer open. -/
def State.domEnd (s : State) (v : Word) : WOut :=
  match s.dict.domKey with
  | none => (s, 8)
  | some k =>
    if !s.dict.domOpen || decide (s.dict.domBytes.length < v.toNat) then (s, 8)
    else
      let r := s.domainWrite k (s.dict.domBytes.take v.toNat)
      if r.2 = 0 then
        (((r.1.setDict { r.1.dict with domOpen := false, domBytes := [], domKey := none }).setLN Obj.DOM_PTR 0), 0)
      else r

/-! ### Accesses by path -/

/-- A read of an object that is not OBJ_DATA: the reason of R480 comes with the value. The engines and process data reach no DOMAIN
object. -/
def State.keyRead (s : State) (p : Path) (k : Nat) : State × Word × Nat :=
  match rowOf k with
  | none => (s, 0, 2)
  | some (r, _, _) =>
    if r.ty = .domain then
      match p with
      | .host =>
        let o := s.domRead k
        (o.1, o.2, 0)
      | _ => (s, 0, 8)
    else
      let o := s.objRead p k
      (o.1, o.2, 0)

/-- A write of an object that is not OBJ_DATA. DOM_END applies the Host Port's buffer from the Host Port only. -/
def State.keyWrite (s : State) (p : Path) (k : Nat) (v : Word) : WOut :=
  if isDomain k then
    match p with
    | .host => s.domWrite k v
    | _ => (s, 8)
  else if k = Obj.DOM_END then
    match p with
    | .host => if 65535 < v.toNat then (s, 3) else s.domEnd v
    | _ => (s, 8)
  else s.objTry p k v

/-- A read through a path (R486): OBJ_DATA accesses the object that OBJ_SEL names. -/
def State.pathRead (s : State) (p : Path) (k : Nat) : State × Word × Nat :=
  if k = Obj.OBJ_DATA then
    let sel := s.nl Obj.OBJ_SEL
    let o := if sel = Obj.OBJ_DATA then (s, 0, 2) else s.keyRead p sel
    (o.1.setLN Obj.OBJ_RESULT o.2.2, o.2)
  else s.keyRead p k

/-- A write through a path, without its report. -/
def State.pathWrite (s : State) (p : Path) (k : Nat) (v : Word) : WOut :=
  if k = Obj.OBJ_DATA then
    let sel := s.nl Obj.OBJ_SEL
    let o : WOut := if sel = Obj.OBJ_DATA then (s, 2) else s.keyWrite p sel v
    (o.1.setLN Obj.OBJ_RESULT (hostReason o.2), o.2)
  else s.keyWrite p k v

/-- A write through a path, reported. -/
def State.pathPut (s : State) (p : Path) (k : Nat) (v : Word) : State :=
  if s.boot.resetLow then s
  else
    let o := s.pathWrite p k v
    o.1.report p k o.2

/-- A read whose data the Host Port drives on HD. -/
def State.pathGet (s : State) (p : Path) (k : Nat) : State :=
  if s.boot.resetLow then s
  else
    let o := s.pathRead p k
    match p with
    | .host => o.1.setDict { o.1.dict with hostData := o.2.1 }
    | _ => o.1

/-- RESULT_LATCH_READ (R487). -/
def execResultLatchRead (p : Path) (key : Nat) (s : State) : Host.Outcome State Fault Refusal :=
  .next (match resultRow key with
    | some x => if key = x.latch then s.pathGet p key else s
    | none => s)

/-- WIDE_LOW_READ (R9). -/
def execWideLowRead (p : Path) (key : Nat) (s : State) : Host.Outcome State Fault Refusal :=
  .next (if wideLow key then s.pathGet p key else s)

/-- WIDE_HIGH_WRITE (R9). -/
def execWideHighWrite (p : Path) (key : Nat) (v : Word) (s : State) : Host.Outcome State Fault Refusal :=
  .next (if wideHigh key then s.pathPut p key v else s)

/-- DOM_PTR_WRITE (R488). -/
def execDomPtrWrite (p : Path) (v : Word) (s : State) : Host.Outcome State Fault Refusal :=
  .next (s.pathPut p Obj.DOM_PTR v)

/-- DOMAIN_READ (R488). -/
def execDomainRead (key : Nat) (s : State) : Host.Outcome State Fault Refusal :=
  .next (if isDomain key then s.pathGet .host key else s)

/-- DOMAIN_WRITE (R488). -/
def execDomainWrite (key : Nat) (v : Word) (s : State) : Host.Outcome State Fault Refusal :=
  .next (if isDomain key then s.pathPut .host key v else s)

/-- DOM_END (R488). -/
def execDomEnd (v : Word) (s : State) : Host.Outcome State Fault Refusal :=
  .next (s.pathPut .host Obj.DOM_END v)

/-- OBJ_DATA_ACCESS (R486): a write of a value, or a read. -/
def execObjDataAccess (v : Option Word) (s : State) : Host.Outcome State Fault Refusal :=
  .next (match v with
    | some w => s.pathPut .host Obj.OBJ_DATA w
    | none => s.pathGet .host Obj.OBJ_DATA)

/-! ### DICT_DATA of the engines (R264, R265) -/

/-- The controller has served an access of an engine: DICT_RESULT and DICT_ACC_CNT. -/
def State.dictServed (s : State) (e reason : Nat) : State := (s.setDictResult e (dictCode reason)).incL (Obj.DICT_ACC_CNT e)

/-- OUT_DICT_DATA (R264, R265): a refused write sets PR (R243). -/
def execOutDictData (e st : Nat) (w : BitVec 64) (s : State) : Host.Outcome State Fault Refusal :=
  .next (s.outInstr e st w (· == 0x81) fun _ s v =>
    let o := s.pathWrite (.cupola e) (s.eng e).dictSel.toNat v
    (o.1.dictServed e o.2, decide (o.2 ≠ 0)))

/-- IN_DICT_DATA (R264, R265). -/
def execInDictData (e st : Nat) (w : BitVec 64) (s : State) : Host.Outcome State Fault Refusal :=
  .next (s.inInstr e st w (· == 0x81) fun _ s =>
    let o := s.pathRead (.cupola e) (s.eng e).dictSel.toNat
    (o.1.dictServed e o.2.2, o.2.1, false))

end Sys2Proof.Machine
end

