-- ==== Sys2Proof/Machine/HostPort.lean ====
section
/-! DEFINITION. The Host Port's accesses, the table regions, and the request queue with its budget (R10, R162, R183, R266, R267, R303,
R354, R474, R482 to R491). SDO requests enter the same queue from FieldNet.lean. -/
namespace Sys2Proof.Machine

/-! ### The table regions (R10) -/

/-- Regions above 0x20_0000: the table and the byte offset in it. -/
inductive Region where
  | ledger (off : Nat)
  | acq (off : Nat)
  | lantern (off : Nat)
  | journal (off : Nat)
  | cupola (off : Nat)
  | shared (off : Nat)
  deriving DecidableEq, Repr

/-- Region of a byte address; none for object addresses and for the hole above the Ledger. -/
def regionOf (a : Nat) : Option Region :=
  if a < 0x200000 then none
  else if a < 0x230000 then some (.ledger (a - 0x200000))
  else if a < 0x240000 then none
  else if a < 0x280000 then some (.acq (a - 0x240000))
  else if a < 0x2C0000 then some (.lantern (a - 0x280000))
  else if a < 0x300000 then some (.journal (a - 0x2C0000))
  else if a < 0x380000 then some (.cupola (a - 0x300000))
  else if a < 0x400000 then some (.shared (a - 0x380000))
  else none

/-- Engine and memory that CUP_PAGE selects (R266, R268). -/
def State.cupPage (s : State) : Nat × Nat := (fld (s.gl Obj.CUP_PAGE) 6 4, fld (s.gl Obj.CUP_PAGE) 1 0)

/-- SRAM address of a window byte: P, X or Y of the engine that CUP_PAGE selects, or shared memory (R266). -/
def State.windowAddr (s : State) (r : Region) : Option Nat :=
  match r with
  | .cupola off =>
    let m := s.cupPage
    if m.2 < 3 ∧ off < (cupMemory 0 m.2).2 then some ((cupMemory m.1 m.2).1 + off) else none
  | .shared off => some (shmAddr (s.nl Obj.SHM_PAGE % 2 * 0x80000 + off))
  | .acq off => some (acqAddr (s.nl Obj.ACQ_PAGE * 262144 + off))
  | .lantern off => some (lanternAddr off)
  | .journal off => if off < 65536 then some (bankAddr 167 off) else none
  | .ledger _ => none

/-- A word of a table region as the Host Port reads it. -/
def State.regionRead (s : State) (r : Region) : Word :=
  match r with
  | .ledger off => s.ledgerRead (off / 16) (off % 16 / 4)
  | .cupola off =>
    let m := s.cupPage
    if m.2 = 3 then
      (if off < 4096 then s.mailbox m.1 (off / 4)
       else if off < 4164 then s.readYBank m.1 (0x2000 + (off - 4096) / 4)
       else 0)
    else match s.windowAddr r with
      | some a => s.rdW a
      | none => 0
  | .acq _ | .lantern _ | .journal _ | .shared _ =>
    match s.windowAddr r with
    | some a => s.rdW a
    | none => 0

/-- A window access wakes a bank in retention (R450). -/
def State.windowTouch (s : State) (r : Region) : State :=
  match s.windowAddr r with
  | some a => s.touchBank (a / 65536)
  | none => s

/-- A read of W0 of a Ledger entry captures the entry (R182). -/
def State.captureRead (s : State) (r : Region) : State :=
  match r with
  | .ledger off => if off % 16 / 4 = 0 then s.ledgerCapture (off / 16) else s
  | _ => s

/-- The enabled bytes of a word replace those of another. -/
def mergeBytes (be : BitVec 4) (old new : Word) : Word :=
  w32 (ofLeBytes ((List.range 4).map fun i => if be.getLsbD i then new.extractLsb' (8 * i) 8 else old.extractLsb' (8 * i) 8))

/-- A write to a table region (R183, R266, R267, R303, R354, R474, R486): the enabled bytes reach X, Y and shared memory; a full word
half reaches program memory; the rest is discarded, which the Ledger counts. -/
def State.regionWrite (s : State) (r : Region) (be : BitVec 4) (v : Word) : State :=
  match r with
  | .ledger _ => s.incL Obj.HOST_WR_DISCARD_CNT
  | .acq _ | .lantern _ | .journal _ => s
  | .shared _ =>
    match s.windowAddr r with
    | some a => (s.windowTouch r).wrW a (mergeBytes be (s.rdW a) v)
    | none => s
  | .cupola off =>
    match s.windowAddr r with
    | none => s
    | some a =>
      if s.cupPage.2 = 0 then
        (if be = 0xF then (s.windowTouch r).progWrite s.cupPage.1 (off / 8) (decide (off % 8 = 4)) v else s)
      else (s.windowTouch r).wrW a (mergeBytes be (s.rdW a) v)

/-- TABLE_WRITE_DISCARD (R183, R303, R354, R474): a write to a read-only region. -/
def execTableWriteDiscard (addr : Nat) (s : State) : Host.Outcome State Fault Refusal :=
  .next (match regionOf addr with
    | some (.ledger off) => (s.regionWrite (.ledger off) 0xF 0).hostRetire
    | some (.acq off) => (s.regionWrite (.acq off) 0xF 0).hostRetire
    | some (.lantern off) => (s.regionWrite (.lantern off) 0xF 0).hostRetire
    | some (.journal off) => (s.regionWrite (.journal off) 0xF 0).hostRetire
    | some (.cupola _) | some (.shared _) | none => s)

/-! ### The queue (R489, R490) -/

/-- A request finds an entry: 64 in all, 8 posted writes and 1 read for the Host Port. -/
def State.roomFor (s : State) (q : QReq) : Bool :=
  decide (s.dict.queue.length < 64)
    && (if q.isHostWrite then decide (s.postedCount < 8) else if q.isHostRead then !s.dict.queue.any QReq.isHostRead else true)

/-- A request takes an entry; Q_FILL_MAX follows (R501). -/
def State.enqueue (s : State) (q : QReq) : State :=
  let s1 := s.setDict { s.dict with queue := s.dict.queue ++ [q] }
  if s1.nl Obj.Q_FILL_MAX < s1.dict.queue.length then s1.setLN Obj.Q_FILL_MAX s1.dict.queue.length else s1

/-- A request has found no free entry (R490). -/
def State.queueFull (s : State) : State := (s.irqEdge 14 4).raise 43

/-- The access in progress ends: HP_WAIT_MAX_NS takes the time from E0 in whole cycles of HCLK, `least` at least (R483). -/
def State.accessEnds (s : State) (least : Nat) : State :=
  let clk := max 1 s.dict.hostClk
  let n := max least (ceilDiv (s.time.l - s.dict.hostStart) clk)
  if s.nl Obj.HP_WAIT_MAX_NS < n * clk then s.setLN Obj.HP_WAIT_MAX_NS (n * clk) else s

/-- Data of a read reach HD, unless the read was abandoned (R485). -/
def State.hostAnswer (s : State) (v : Word) (least : Nat) : State :=
  if s.dict.abandoned then s.setDict { s.dict with abandoned := false }
  else (s.setDict { s.dict with hostData := v }).accessEnds least

/-- A read that takes no entry (R483, R491): of a table region, or of a word of a snapshot taken before. -/
def State.outsideQueue (s : State) (q : QReq) : Bool :=
  match q with
  | .hostRead a => (regionOf a).isSome || (isDomain (addrKey a) && decide (s.nl Obj.DOM_PTR ≠ 0))
  | _ => false

/-- A request that a controller serves outside the budget (R483, R484): such a read, or a write to a table region. -/
def State.freeOfBudget (s : State) (q : QReq) : Bool :=
  match q with
  | .hostWrite a _ _ => (regionOf a).isSome
  | _ => s.outsideQueue q

/-- A Host Port request is served. -/
def State.serveHost (s : State) (q : QReq) : State :=
  match q with
  | .hostWrite a be v =>
    (match regionOf a with
     | some r => (s.regionWrite r be v).hostRetire
     | none => s.pathPut .host (addrKey a) v)
  | .hostRead a =>
    (match regionOf a with
     | some r => ((s.windowTouch r).captureRead r).hostAnswer (s.regionRead r) 1
     | none =>
       let least := if isDomain (addrKey a) && decide (s.nl Obj.DOM_PTR ≠ 0) then 2 else 1
       let o := s.pathRead .host (addrKey a)
       o.1.hostAnswer o.2.1 least)
  | _ => s

/-- Take the first request for which `p` holds out of a list. -/
def takeFirst (p : QReq → Bool) : List QReq → Option (QReq × List QReq)
  | [] => none
  | q :: rest =>
    if p q then some (q, rest)
    else match takeFirst p rest with
      | some (x, l) => some (x, q :: l)
      | none => none

/-- An entry has freed: the Host Port request that waits takes it (R490); a read outside the queue is served once every earlier write
has retired (R483). -/
def State.entryFreed (s : State) : State :=
  match s.dict.hostWait with
  | some q =>
    let t := s.setDict { s.dict with hostWait := none }
    if s.outsideQueue q then (if s.dict.queue.any QReq.isHost then s else t.serveHost q)
    else if s.roomFor q then
      let u := t.enqueue q
      if q.isHostWrite then u.accessEnds 1 else u
    else s
  | none => s

/-- The Host Port's requests at the front that need no budget are served in their order, at most `fuel` (R483, R484). -/
def State.hostSettle : Nat → State → State
  | 0, s => s
  | fuel + 1, s =>
    match takeFirst QReq.isHost s.dict.queue with
    | none => s
    | some (q, rest) =>
      if s.freeOfBudget q then (((s.setDict { s.dict with queue := rest }).serveHost q).entryFreed).hostSettle fuel else s

/-! ### Accesses (R482 to R486) -/

/-- The object that an address names is of class F. -/
def isFClass (k : Nat) : Bool :=
  match rowOf k with
  | some (r, _, _) => decide (r.cls = .f)
  | none => false

/-- A write that is refused at decode retires at once (R484, R486): no object, a partial object write, or an RO object. -/
def decodeRefusal (a : Nat) (be : BitVec 4) : Nat :=
  if (regionOf a).isSome then 0
  else if 0x200000 ≤ a then 2
  else match rowOf (addrKey a) with
    | none => 2
    | some (r, _, _) => if be ≠ 0xF then 7 else if r.acc = .ro then 1 else 0

/-- A request enters the queue or waits on HRDY; a read outside the queue waits for earlier writes alone. -/
def State.hostAdmit (s : State) (q : QReq) : State :=
  if s.outsideQueue q then
    (if s.dict.queue.any QReq.isHost then s.setDict { s.dict with hostWait := some q } else s.serveHost q)
  else if s.roomFor q then
    let t := s.enqueue q
    (if q.isHostWrite then t.accessEnds 1 else t).hostSettle 10
  else (s.setDict { s.dict with hostWait := some q }).queueFull

/-- An access is in progress. -/
def State.accessOpen (s : State) : Bool := s.dict.hostWait.isSome || (s.dict.queue.any QReq.isHostRead && !s.dict.abandoned)

/-- HRDY (R482): high whenever no access waits, from PWRGOOD onward. -/
def State.hrdy (s : State) : Bool := s.boot.pwrgood && !s.accessOpen

/-- A read begins (R483). -/
def State.hostReadStart (s : State) (a : Nat) : State :=
  if (regionOf a).isSome then s.hostAdmit (.hostRead a)
  else if 0x200000 ≤ a ∨ (rowOf (addrKey a)).isNone then
    ((s.incL Obj.HP_RD_NOOBJ_CNT).setDict { s.dict with hostData := 0 }).accessEnds 1
  else if isFClass (addrKey a) then
    let o := s.pathRead .host (addrKey a)
    (o.1.setDict { o.1.dict with hostData := o.2.1 }).accessEnds 1
  else s.hostAdmit (.hostRead a)

/-- A write begins. -/
def State.hostWriteStart (s : State) (a : Nat) (be : BitVec 4) (v : Word) : State :=
  let r := decodeRefusal a be
  if r ≠ 0 then
    let t := ((s.countClaim (addrKey a) r).hostRefuse a r).hostRetire
    (if (regionOf a).isNone && decide (a < 0x200000) && isDomain (addrKey a) then t.domStep else t).accessEnds 1
  else s.hostAdmit (.hostWrite a be v)

/-- An access begins at a rising edge of HCLK, which is the first after a stop (R473, R482). -/
def State.hostEdge (s : State) : State := if s.irq.hclkRuns then s else s.hclkEdge

/-- HOST_ACCESS (R482): `wr` for a write, `be` the enabled bytes, `clk` the period of HCLK in ns. An access that is still in progress
admits no other. -/
def execHostAccess (wr : Bool) (addr : BitVec 22) (be : BitVec 4) (v : Word) (clk : Nat) (s : State) :
    Host.Outcome State Fault Refusal :=
  .next (
    if s.boot.resetLow || s.accessOpen then s
    else
      let t := s.hostEdge
      let s1 := t.setDict { t.dict with hostStart := t.time.l, hostClk := clk }
      let a := addr.toNat / 4 * 4
      if wr then s1.hostWriteStart a be v else s1.hostReadStart a)

/-- HOST_ACCESS_ABANDON (R485): a read that has entered the queue is still served, and only its data is lost. -/
def execHostAccessAbandon (s : State) : Host.Outcome State Fault Refusal :=
  .next (
    if s.accessOpen then
      let s1 := s.incL Obj.HP_ABANDON_CNT
      if s1.dict.hostWait.isSome then s1.setDict { s1.dict with hostWait := none }
      else s1.setDict { s1.dict with abandoned := true }
    else s)

/-- HP_FENCE_READ (R484): a read access to HP_FENCE, an object that is not of class F. -/
def execHpFenceRead (clk : Nat) (s : State) : Host.Outcome State Fault Refusal :=
  .next (
    if s.boot.resetLow || s.accessOpen then s
    else
      let t := s.hostEdge
      (t.setDict { t.dict with hostStart := t.time.l, hostClk := clk }).hostReadStart (keyAddr Obj.HP_FENCE))

end Sys2Proof.Machine
end

