-- ==== Sys2Proof/Machine/FieldNet.lean ====
section
/-! DEFINITION. The service of the request queue (R489), SDO transfers (R480, R492), the field network's states (R493), process data (R495,
R496), and PHY management (R497). What CiA 301 gives and the spec only names is PRESUMED. -/
namespace Sys2Proof.Machine

/-! ### SDO requests as they are served (R480, R481, R488) -/

/-- The SDO is answered; SDO_CNT counts it. -/
def State.sdoAnswer (s : State) (r : SdoResp) : State := (s.incL Obj.SDO_CNT).respond r

/-- Outcome of a download's bytes on an object: scalars take exactly their size. -/
def State.sdoStore (s : State) (key : Nat) (bs : List Byte) : WOut :=
  match rowOf key with
  | none => (s, 2)
  | some (r, _, _) =>
    if r.ty = .domain then s.domainWrite key bs
    else if r.acc = .ro then (s.countClaim key 1, 1)
    else if bs.length ≠ r.ty.bytes then (s.countClaim key 7, 7)
    else s.pathWrite .mailbox key (r.ty.extend (ofLeBytes bs))

/-- An upload is served: a scalar or a short DOMAIN comes expedited, a longer DOMAIN as a snapshot for segments. -/
def State.sdoUploadServe (s : State) (idx sub : Nat) : State :=
  let key := idx * 256 + sub
  match rowOf key with
  | none => (s.incL Obj.SDO_CNT).abort (abortCode key 2)
  | some (r, _, _) =>
    if r.ty = .domain then
      let bs := s.domainRead key
      if bs.length ≤ 4 then s.sdoAnswer (.uploaded idx sub bs)
      else (s.setDict { s.dict with xfer := some ⟨idx, sub, true, bs.length, bs, false⟩ }).sdoAnswer (.uploadStarted idx sub bs.length)
    else
      let o := s.pathRead .mailbox key
      if o.2.2 = 0 then o.1.sdoAnswer (.uploaded idx sub (leBytes r.ty.bytes o.2.1.toNat))
      else (o.1.incL Obj.SDO_CNT).abort (abortCode key o.2.2)

/-- A field-network entry is served. -/
def State.serveSdo (s : State) (q : QReq) : State :=
  match q with
  | .sdoDownload idx sub bs =>
    let o := s.sdoStore (idx * 256 + sub) bs
    o.1.report .mailbox (idx * 256 + sub) o.2
  | .sdoUpload idx sub => s.sdoUploadServe idx sub
  | .sdoApply idx sub bs toggle =>
    let o := s.sdoStore (idx * 256 + sub) bs
    if o.2 = 0 then o.1.sdoAnswer (.segmentAck toggle) else (o.1.incL Obj.SDO_CNT).abort (abortCode (idx * 256 + sub) o.2)
  | .hostWrite _ _ _ | .hostRead _ => s

/-- A field-network entry has been answered: the responses that waited for it alone follow (R490). -/
def State.fnServed (s : State) : State :=
  let l := s.dict.waiting.map fun x => (x.1 - 1, x.2)
  s.setDict { s.dict with
    responses := s.dict.responses ++ (l.filter fun x => decide (x.1 = 0)).map (·.2)
    waiting := l.filter fun x => decide (x.1 ≠ 0) }

/-! ### The budget (R489) -/

/-- Before S_0 the budget counts afresh for every 1,000 ns of L. -/
def State.budgetWindow (s : State) : State :=
  if s.frame.ticking ∨ s.time.l / 1000 = s.dict.window then s
  else s.setDict { s.dict with window := s.time.l / 1000, served := 0, hostServed := 0 }

/-- The entry that the controller takes next, with the rest of the queue: the Host Port's share before D_k, HOST_FIRST, and the order of
arrival. -/
def State.nextEntry (s : State) : Option (QReq × List QReq) :=
  let hostMay := s.frame.cut || decide (s.dict.hostServed < s.na Obj.DICT_BUDGET - s.na Obj.FN_MIN)
  let host := if hostMay then takeFirst QReq.isHost s.dict.queue else none
  let fn := takeFirst (fun q => !q.isHost) s.dict.queue
  if s.na Obj.DICT_BUDGET ≤ s.dict.served then none
  else match host, fn with
    | none, x => x
    | x, none => x
    | some h, some f => if s.na Obj.HOST_FIRST = 1 then some h else if (s.dict.queue.head?.map QReq.isHost) = some true then some h else some f

/-- DICT_SERVICE (R489): one entry is served. -/
def execDictService (s : State) : Host.Outcome State Fault Refusal :=
  .next (
    let s1 := s.budgetWindow
    match s1.nextEntry with
    | none => s1
    | some (q, rest) =>
      let s2 := (s1.setDict { s1.dict with
        queue := rest
        served := s1.dict.served + 1
        hostServed := s1.dict.hostServed + b2n q.isHost }).incL Obj.SERVED_CNT
      ((if q.isHost then s2.serveHost q else (s2.serveSdo q).fnServed).entryFreed).hostSettle 10)

/-! ### SDO requests as they arrive (R490, R492) -/

/-- The mailbox takes requests: not in INIT, not while it is held with every entry taken, and not in reset. -/
def State.mbxOpen (s : State) : Bool :=
  decide (s.dict.al ≠ .init) && !(s.dict.mbxHeld && decide (64 ≤ s.dict.queue.length)) && !s.boot.resetLow

/-- A response leaves the mailbox after those of every earlier request (R490). -/
def State.reply (s : State) (r : SdoResp) : State :=
  let n := (s.dict.queue.filter fun q => !q.isHost).length
  if n = 0 then s.respond r else s.setDict { s.dict with waiting := s.dict.waiting ++ [(n, r)] }

/-- A request is answered with an abort code as it arrives. -/
def State.abortReply (s : State) (code : Word) : State := (s.incL Obj.SDO_ABORT_CNT).reply (.abort code)

/-- An SDO enters the queue, or finds it full: it is aborted and the mailbox is held from then on (R490), until one that it admits leaves an
entry free (R491). -/
def State.sdoAdmit (s : State) (q : QReq) : State :=
  if s.dict.queue.length < 64 then
    let t := s.enqueue q
    t.setDict { t.dict with mbxHeld := t.dict.mbxHeld && decide (64 ≤ t.dict.queue.length) }
  else
    let s1 := ((s.abortReply 0x05040005).incL Obj.Q_FULL_CNT).incL Obj.MBX_BUSY_CNT
    (s1.setDict { s1.dict with mbxHeld := true }).queueFull

def State.setXfer (s : State) (x : Option SdoXfer) : State := s.setDict { s.dict with xfer := x }

/-- SDO_DOWNLOAD_INITIATE (R492): `size` and the bytes that come with it; expedited, or opening a segmented transfer. -/
def execSdoDownloadInitiate (idx : BitVec 16) (sub : BitVec 8) (expedited : Bool) (size : Nat) (bytes : List Byte) (s : State) :
    Host.Outcome State Fault Refusal :=
  .next (
    if !s.mbxOpen then s
    else if expedited then (s.setXfer none).sdoAdmit (.sdoDownload idx.toNat sub.toNat bytes)
    else if size ≤ bytes.length then (s.setXfer none).sdoAdmit (.sdoDownload idx.toNat sub.toNat (bytes.take size))
    else (s.setXfer (some ⟨idx.toNat, sub.toNat, false, size, bytes, false⟩)).reply (.downloadStarted idx.toNat sub.toNat))

/-- SDO_DOWNLOAD_SEGMENT (R488, R492). -/
def execSdoDownloadSegment (toggle last : Bool) (bytes : List Byte) (s : State) : Host.Outcome State Fault Refusal :=
  .next (
    if !s.mbxOpen then s
    else match s.dict.xfer with
      | none => s.abortReply 0x05040001
      | some x =>
        if x.upload then (s.setXfer none).abortReply 0x05040001
        else if toggle ≠ x.toggle then (s.setXfer none).abortReply 0x05030000
        else
          let all := x.bytes ++ bytes
          if domBufBytes < all.length then (s.setXfer none).abortReply (abortCode (x.index * 256 + x.sub) 8)
          else if last then
            (if all.length = x.size then (s.setXfer none).sdoAdmit (.sdoApply x.index x.sub all toggle)
             else (s.setXfer none).abortReply (abortCode (x.index * 256 + x.sub) 8))
          else (s.setXfer (some { x with bytes := all, toggle := !x.toggle })).reply (.segmentAck toggle))

/-- SDO_UPLOAD_INITIATE (R492). -/
def execSdoUploadInitiate (idx : BitVec 16) (sub : BitVec 8) (s : State) : Host.Outcome State Fault Refusal :=
  .next (if s.mbxOpen then (s.setXfer none).sdoAdmit (.sdoUpload idx.toNat sub.toNat) else s)

/-- Bytes of a segment in a mailbox of 128 bytes (R492). -/
def segmentBytes : Nat := 119

/-- SDO_UPLOAD_SEGMENT (R492): the snapshot taken at the initiate goes on. -/
def execSdoUploadSegment (toggle : Bool) (s : State) : Host.Outcome State Fault Refusal :=
  .next (
    if !s.mbxOpen then s
    else match s.dict.xfer with
      | none => s.abortReply 0x05040001
      | some x =>
        if !x.upload then (s.setXfer none).abortReply 0x05040001
        else if toggle ≠ x.toggle then (s.setXfer none).abortReply 0x05030000
        else
          let rest := x.bytes.drop segmentBytes
          let r := SdoResp.segment toggle (x.bytes.take segmentBytes) rest.isEmpty
          (s.setXfer (if rest.isEmpty then none else some { x with bytes := rest, toggle := !x.toggle })).reply r)

/-- SDO_ABORT_RECEIVE (R492). -/
def execSdoAbortReceive (s : State) : Host.Outcome State Fault Refusal :=
  .next (if s.mbxOpen then s.setXfer none else s)

/-- SDO_UNSUPPORTED (R480, R492): `coe` for an SDO block transfer or complete access, else another protocol. -/
def execSdoUnsupported (coe : Bool) (s : State) : Host.Outcome State Fault Refusal :=
  .next (if !s.mbxOpen then s else if coe then s.abortReply 0x06010000 else s.reply .mailboxError)

/-- SDO_IDLE_TIMEOUT (R492): a segmented transfer has been idle for 1 s. -/
def execSdoIdleTimeout (s : State) : Host.Outcome State Fault Refusal :=
  .next (if s.dict.xfer.isSome then (s.setXfer none).abortReply 0x05040000 else s)

/-! ### States of the field network (R492, R493, R502) -/

/-- The state changes; AL_STATUS_CODE reads 0. -/
def State.alTo (s : State) (x : AlState) : State := s.setDict { s.dict with al := x, alCode := 0 }

/-- The state is refused with an AL status code. -/
def State.alRefuse (s : State) (code : Nat) : State := s.setDict { s.dict with alCode := code }

/-- AL_REQ_INIT (R492): the mailbox ends with its transfers and responses, which frees its entries (R490). -/
def execAlReqInit (s : State) : Host.Outcome State Fault Refusal :=
  .next (
    if s.boot.resetLow then s
    else
      let s1 := s.alTo .init
      let s2 := s1.setDict { s1.dict with
        xfer := none, responses := [], waiting := [], queue := s1.dict.queue.filter QReq.isHost, mbxHeld := false }
      s2.entryFreed.hostSettle 10)

/-- AL_REQ_PREOP (R492). -/
def execAlReqPreop (s : State) : Host.Outcome State Fault Refusal :=
  .next (if s.boot.resetLow then s else s.alTo .preOp)

/-- AL_REQ_SAFEOP (R492): not from INIT. -/
def execAlReqSafeop (s : State) : Host.Outcome State Fault Refusal :=
  .next (if s.boot.resetLow then s else if s.dict.al = .init then s.alRefuse 0x0011 else s.alTo .safeOp)

/-- AL_REQ_OP (R493): from SAFE-OP, when every assigned PDO has a valid mapping. -/
def execAlReqOp (s : State) : Host.Outcome State Fault Refusal :=
  .next (
    if s.boot.resetLow then s
    else if s.dict.al = .init ∨ s.dict.al = .preOp then s.alRefuse 0x0011
    else if !s.pdoValid true then s.alRefuse 0x001D
    else if !s.pdoValid false then s.alRefuse 0x001E
    else
      let s1 := s.alTo .op
      s1.setDict { s1.dict with pdWdt := false })

/-- PD_WATCHDOG_EXPIRE (R493). -/
def execPdWatchdogExpire (s : State) : Host.Outcome State Fault Refusal :=
  .next (
    if s.dict.al = .op ∧ s.na Obj.PD_WDT_MS ≠ 0 then
      (s.setDict { s.dict with al := .safeOp, alCode := 0x001B, pdWdt := true }).incL Obj.PD_WDT_CNT
    else s)

/-! ### Process data (R495, R496) -/

/-- Bytes of a mapped entry. -/
def pdoSize (e : Word) : Nat := e.toNat % 256 / 8

/-- Objects that a write of 0 clears or re-arms but that the chapters name apart from the counters (R40, R161, R268, R287, R501, R512). -/
def reArmed : List Nat :=
  [Obj.MIN_SLACK_NS, Obj.MAX_TRIP_LAT_NS, Obj.HP_WAIT_MAX_NS, Obj.Q_FILL_MAX, Obj.TJ_MAX, Obj.TJ_MIN]
  ++ (List.range 16).map Obj.MAX_LAT_NS ++ (List.range 8).map Obj.STICKY_OR

/-- A counter: a write of 0 clears it and no other value is taken. -/
def isCounter (k : Nat) : Bool :=
  match rowOf k with
  | some (r, _, _) => decide (r.rng = .oneOf [0]) && !reArmed.contains k
  | none => false

/-- The mapped objects are written in entry order; a counter only with 0. -/
def State.pdoApply (s : State) : List Word → List Byte → State
  | [], _ => s
  | e :: es, bs =>
    let k := pdoKey e
    let n := pdoSize e
    let v := match rowOf k with
      | some (r, _, _) => r.ty.extend (ofLeBytes (bs.take n))
      | none => 0
    let s1 := if isCounter k && decide (v ≠ 0) then s else s.pathPut .processData k v
    s1.pdoApply es (bs.drop n)

/-- RXPDO_RECEIVE (R495): in OP, data of the mapped length. -/
def execRxpdoReceive (bytes : List Byte) (s : State) : Host.Outcome State Fault Refusal :=
  .next (
    let m := s.pdoMap true
    if s.dict.al = .op ∧ bytes.length = (m.map pdoSize).sum then s.pdoApply m bytes else s)

/-- A mapped object in a sample (R487, R496): FRESH says whether the result differs from that of the previous sample. -/
def State.pdoValue (s : State) (k : Nat) : Word :=
  match resultRow k with
  | some x =>
    (match x.fresh with
     | some (f, b) => if k = f then bset (s.objPeek k) b (decide (s.resultSeq x ≠ tget (fun _ => 0) s.dict.txSeqs x.latch)) else s.objPeek k
     | none => s.objPeek k)
  | none => s.objPeek k

/-- The TxPDO sample (R496) reads the data register of a converter whose ADC_DATA_LO is mapped (R366). -/
def State.pdoSample (s : State) : State :=
  let m := s.pdoMap false
  let bs := m.flatMap fun e => leBytes (pdoSize e) (s.pdoValue (pdoKey e)).toNat
  let seqs := m.foldl (fun t e => match resultRow (pdoKey e) with
    | some x => tput (fun _ => 0) t x.latch (s.resultSeq x)
    | none => t) s.dict.txSeqs
  (s.setDict { s.dict with txSample := bs, txSeqs := seqs }).each
    (idxs 2 fun i => m.any fun e => decide (pdoKey e = Obj.ADC_DATA_LO i)) State.adcDataRead

/-! ### PHY management (R497) -/

/-- An EN port is up while its receiver is synchronised and its PHY reports link; each fall is counted. -/
def State.portsFollow (s : State) : State :=
  let up := s.dict.sgmiiSync &&& s.dict.phyLink
  let fell := s.dict.portUp &&& ~~~up
  (s.setDict { s.dict with portUp := up }).each (idxs 4 fun i => fell.getLsbD i) fun s i => s.incL (Obj.LINK_DOWN_CNT i)

/-- MDIO_POLL (R497): bit 2 of register 1 of the PHYs of EN3 to EN0; those that PHY_ADDR does not poll keep their link status. -/
def execMdioPoll (links : BitVec 4) (s : State) : Host.Outcome State Fault Refusal :=
  .next (
    let en : BitVec 4 := BitVec.ofNat 4 ((idxs 4 fun i => nbit (s.na Obj.PHY_ADDR) (8 * i + 7)).map fun i => 2 ^ i).sum
    (s.setDict { s.dict with phyLink := (s.dict.phyLink &&& ~~~en) ||| (links &&& en) }).portsFollow)

/-- SGMII_SYNC_CHANGE (R497). -/
def execSgmiiSyncChange (port : Fin 4) (sync : Bool) (s : State) : Host.Outcome State Fault Refusal :=
  .next (s.setDict { s.dict with sgmiiSync := bset s.dict.sgmiiSync port.val sync }).portsFollow

/-- MDIO_CMD (R497). -/
def execMdioCmd (p : Path) (v : Word) (s : State) : Host.Outcome State Fault Refusal := .next (s.pathPut p Obj.MDIO_CMD v)

/-- MDIO_FRAME_DONE (R497): `data` as read from the PHY. -/
def execMdioFrameDone (data : BitVec 16) (s : State) : Host.Outcome State Fault Refusal :=
  .next (match s.dict.mdio with
    | none => s
    | some (_, cmd) =>
      let s1 := (s.setDict { s.dict with mdio := none }).setLN Obj.MDIO_RESULT 2
      if nbit cmd.toNat 30 then s1 else s1.setLN Obj.MDIO_DATA data.toNat)

end Sys2Proof.Machine
end

