-- ==== Sys2Proof/Machine/Power.lean ====
section
/-! DEFINITION. Temperature, supplies, power estimate and clock supervision (R507 to R513, R519), and the JTAG port (R526, R529) but for the
debug halt, which is in Frame.lean. -/
namespace Sys2Proof.Machine

/-! ### Temperature, supplies and clocks -/

/-- TEMP_CRIT of the grade in 0.25 °C (R438). -/
def tempCrit : Int := if Config.gradeH then 500 else 440

/-- TJ_SAMPLE (R511, R512): the die temperature in 0.25 °C, every 100 µs. -/
def execTjSample (t : BitVec 16) (s : State) : Host.Outcome State Fault Refusal :=
  .next (
    if s.boot.resetLow then s
    else
      let x := t.toInt
      let hot := decide ((4 * s.na Obj.TJ_WARN_C : Nat) ≤ x)
      let run := if hot then s.power.overRun + 1 else 0
      let whole := decide (10000 ≤ run)
      let s1 : State := { s with power := { s.power with tj := x, tjSampled := true, overRun := if whole then 0 else run } }
      let hi := if s.power.tjSampled then max x (s.il Obj.TJ_MAX) else x
      let lo := if s.power.tjSampled then min x (s.il Obj.TJ_MIN) else x
      (((((s1.setLI Obj.TJ_MAX hi).setLI Obj.TJ_MIN lo).incIf whole Obj.TJ_OVER_WARN_S).faultLevel 39 hot).faultLevel 40
        (decide (tempCrit < x))).tempRange (decide (x < -200) || decide (560 < x)))

/-- Lanes of a range that are not DISABLED (R509). -/
def State.lanesOn (s : State) (lo n : Nat) : Nat := (idxs n fun i => decide ((s.lane (lo + i)).st ≠ .disabled)).length

/-- BUSY_CYC of an engine (R268). -/
def State.busyCyc (s : State) (e : Nat) : Nat := s.nl64 (Obj.BUSY_CYC_LO e)

/-- Row 3 of R509: 0.15 W and 0.75 W times the busy fraction since the last estimate, for each enabled engine. -/
def State.enginePower (s : State) : Nat :=
  let t := max 1 (s.nowL - s.power.estAt)
  ((idxs 8 s.engEnabled).map fun e => 150 * t + 750 * min t (s.busyCyc e - vget 0 s.power.estBusy e)).sum / t

/-- Leakage of a bank at 85 °C in units of 50 µW (R450, R509). -/
def State.bankLeak (s : State) (b : Nat) : Nat :=
  match (s.bank b).pwr with
  | .off => 1
  | .retention => 38
  | .on | .waking _ => if b = 172 then 58 else 116

/-- Row 5 of R509 in mW, scaled by the leakage at TJ_NOW (R510). -/
def State.leakPower (s : State) : Nat :=
  let n := ((List.range 173).map s.bankLeak).sum
  if s.power.tj = 340 then n / 20 else Config.leakAt n s.power.tj

/-- The rows of R509 in mW, by typical scaling; `io` is the I/O row, at most 0.8 W. -/
def State.powerRows (s : State) (io : Nat) : List Nat :=
  let w := s.lanesOn 0 32
  let cells := (s.ledger.entries.filter fun x => x.2.enabled).length
  [160 * w + 5 * (32 - w), 160 * s.lanesOn 32 2 + 95 * s.lanesOn 34 4, s.enginePower,
   300 + 1200 * cells * 1200 / (12288 * max 1 s.tf), s.leakPower,
   (if s.acq.st = .pretrig ∨ s.acq.st = .post then 500 else 0), min 800 io, 700]

/-- POWER_ESTIMATE (R509, R510): the rows, from the block states; what the host's and the flash's activity draws, the supplies in mV and
the deviation of XTAL in ppb as measured are operands. -/
def execPowerEstimate (io coreMv safeMv : Nat) (ppb : Int) (s : State) : Host.Outcome State Fault Refusal :=
  .next (
    if s.boot.resetLow then s
    else
      let rows := s.powerRows io
      let s1 := (rows.zipIdx).foldl (fun t x => t.setLN (Obj.BLOCK_EST_MW x.2) x.1) s
      let s2 := (((s1.setLN Obj.POWER_EST_MW rows.sum).setLN Obj.VDD_CORE_MV coreMv).setLN Obj.VDD_SAFE_MV safeMv).setLI
        Obj.XTAL_DEV_PPB ppb
      { s2 with power := { s2.power with safeOut := decide (safeMv < 700) || decide (900 < safeMv), estAt := s2.nowL, estBusy := Vector.ofFn fun (e : Fin 8) => s2.busyCyc e.val } })

/-- SUPPLY_MON_CHANGE (R519): VDD_CORE in mV after 1 µs on the new side of its window. -/
def execSupplyMonChange (mv : Nat) (s : State) : Host.Outcome State Fault Refusal :=
  .next (
    let bad := decide (mv < 760) || decide (840 < mv)
    if s.boot.resetLow then s
    else (({ s with power := { s.power with supplyBad := bad } }).setLN Obj.VDD_CORE_MV mv).faultLevel 41 bad)

/-- PLL_UNLOCK (R507). -/
def execPllUnlock (s : State) : Host.Outcome State Fault Refusal :=
  .next (
    if s.power.corePll then
      (({ s with power := { s.power with corePll := false } }).incL Obj.PLL_UNLOCK_CNT).faultLevel 38 true
    else s)

/-- CORE_PLL_RELOCK (R507, R513): during BOOT's clock step CLOCKS_LOCKED stands for the first lock. -/
def execCorePllRelock (s : State) : Host.Outcome State Fault Refusal :=
  .next (
    if s.boot.resetLow ∨ s.boot.step = .clocks then s
    else ({ s with power := { s.power with corePll := true } }).faultLevel 38 false)

/-- XTAL_FAULT (R507): with the deviation from the Watchtower oscillator in ppb. -/
def execXtalFault (ppb : Int) (s : State) : Host.Outcome State Fault Refusal :=
  .next (
    if s.power.xtalOk then
      (({ s with power := { s.power with xtalOk := false } }).setLI Obj.XTAL_DEV_PPB ppb).faultLevel 63 true
    else s)

/-- XTAL_RECOVER (R507). -/
def execXtalRecover (ppb : Int) (s : State) : Host.Outcome State Fault Refusal :=
  .next (
    if s.boot.resetLow ∨ s.boot.step = .clocks then s
    else (({ s with power := { s.power with xtalOk := true } }).setLI Obj.XTAL_DEV_PPB ppb).faultLevel 63 false)

/-! ### Clock gating (R508) -/

/-- The clocks of an engine are gated: idle with an empty prefetch slot, or disabled. -/
def State.engGated (s : State) (e : Nat) : Bool :=
  !s.engEnabled e || ((s.running e).isNone && (s.entering e).isNone && (vget none s.sched.slot e).isNone)
/-- Those of the Acquisition Engine and of the Lantern. -/
def State.acqGated (s : State) : Bool := decide (s.acq.st = .idle) || decide (s.acq.st = .done)
def State.lanternGated (s : State) : Bool := decide (s.aids.lantern.st = .idle) || decide (s.aids.lantern.st = .stopped)
/-- Those of a converter: no sequence or calibration runs or waits. -/
def State.adcGated (s : State) (i : Nat) : Bool :=
  let x := s.conv i
  decide (x.work = .idle) && !x.regRun && !x.startWait && !x.softWait && !x.injPending && !x.injDelayed && !x.calPending
/-- Those of a Local PWM pair: disabled. -/
def State.pwmGated (s : State) (p : Nat) : Bool := !nbit (s.pwmPair p).cfg.toNat 0

/-! ### JTAG (R526, R529) -/

/-- The instruction register holds an instruction; `dr` is what its data register captures. -/
def State.tapIr (s : State) (i : JtagInstr) (dr : Word) : State := { s with jtag := { s.jtag with ir := i, dr := dr, driving := false } }

/-- BYPASS (R526). -/
def execBypass (s : State) : Host.Outcome State Fault Refusal := .next (s.tapIr .bypass 0)

/-- EXTEST (R526): drives the balls from the preloaded cells, SAFE_BLK_A and SAFE_BLK_B excepted. -/
def execExtest (s : State) : Host.Outcome State Fault Refusal :=
  .next (
    if s.boot.resetLow then { s with jtag := { s.jtag with ir := .extest, dr := 0, driving := true } } else s.tapIr .bypass 0)

/-- IDCODE (R526). -/
def execIdcode (s : State) : Host.Outcome State Fault Refusal := .next (s.tapIr .idcode 0x19401B2D)

/-- SAMPLE_PRELOAD (R526): `cells` are shifted into the boundary cells. -/
def execSamplePreload (cells : List Word) (s : State) : Host.Outcome State Fault Refusal :=
  .next (
    let s1 := s.tapIr .samplePreload 0
    { s1 with jtag := { s1.jtag with preload := cells } })

/-- SYSRESET (R526, R529): BOOT_SEL is sampled anew; no effect while RESET_N is low. -/
def execSysreset (sel : BitVec 2) (s : State) : Host.Outcome State Fault Refusal :=
  .next (
    if s.boot.resetLow then s
    else
      let s1 := s.resetTo true true 3
      s1.startBoot sel)

/-- TAP_RESET (R526): the IDCODE instruction is in force again. -/
def execTapReset (s : State) : Host.Outcome State Fault Refusal := .next (s.tapIr .idcode 0x19401B2D)

end Sys2Proof.Machine
end

