-- ==== Sys2Proof/Machine/Frame.lean ====
section
/-! DEFINITION. The frame (R19 to R42): the first tick, the tick, the release, the measurement deadline, the start of the caravans, and
the debug halt (R21). D_k is in Cut.lean. -/
namespace Sys2Proof.Machine

/-! ### The end of a frame (R34, R274) -/

/-- An instance of a FRAME descriptor. -/
def Inst.isFrame (i : Inst) : Bool := decide (i.words.cls = 0)

/-- Engine `e` gives up its FRAME work: a saved context is discarded, an entry is dropped, a running task ends. -/
def State.terminateOn (s : State) (e : Nat) : State :=
  let x := s.eng e
  let headLost : Bool := match x.saved with
    | c :: _ => c.inst.isFrame
    | [] => false
  let s1 := s.setEng e { x with saved := x.saved.filter fun c => !c.inst.isFrame }
  let ends : Bool := match s1.running e with
    | some i => i.isFrame
    | none => false
  let s2 := match s1.entering e with
    | some (.save j) =>
      if j.isFrame then s1.setEntering e none else s1
    | some .restore => if headLost then s1.setEntering e none else s1
    | some y => match y.inst? with
      | some i => if i.isFrame then s1.setEntering e none else s1
      | none => s1
    | none => s1
  if ends then s2.taskEnd e
  else if (s2.entering e).isNone && (s1.entering e).isSome && (s2.running e).isNone then s2.nextOn e
  else s2

/-- FRAME instances still running, ready or preempted at S_{k+1} are terminated (R34, R274); T_DONE and MIN_SLACK_NS are settled
(R40, R41; log entry 157). While a debug halt lasts they wait for the first tick after it. The engines of FRAME descriptors are reserved from here on
(R281). -/
def State.endFrame (s : State) : State :=
  if s.frame.halted then s
  else
    let k := s.frame.count
    let l := s.sched.frames
    let s0 : State := { s with frame := { s.frame with released := false, planStopped := false } }
    let s1 := l.foldl (fun t i => t.dropInst i.id) s0
    let s2 := (s1.each (List.range 8) State.terminateOn).addL Obj.FRAME_ABORT_CNT l.length
    if !l.isEmpty then s2.setSnap k fun x => { x with tDone := 0xFFFF }
    else if s.frame.tasks.isEmpty then
      let d := s2.draw
      d.2.setSnap k fun x => { x with tDone := d.1.toNat % 65536 }
    else match s2.snapOf k with
      | some x => s2.setLI Obj.MIN_SLACK_NS (min (s2.il Obj.MIN_SLACK_NS) ((s2.dk : Int) - x.tDone))
      | none => s2

/-! ### What a tick writes -/

/-- The snapshot of frame `k` is published at S_{k+2} (R41). -/
def State.publishSnap (s : State) (k : Nat) : State :=
  match s.snapOf k with
  | none => s
  | some x =>
    let s1 := ((s.incL Obj.SNAP_SEQ).setLN Obj.SNAP_FLAGS 1).setLN Obj.SNAP_FRAME_LO (x.frame % 4294967296)
    let s2 := (s1.setLN Obj.T_RELEASE_NS x.tRelease).setLN Obj.T_DONE_NS x.tDone
    let s3 := ((s2.setLN Obj.T_SELECT_NS x.tSelect).setLN Obj.T_CARAVAN_END_NS x.tCaravanEnd).setLN Obj.T_MIRROR_END_NS x.tMirrorEnd
    ({ s3 with frame := { s3.frame with snaps := s3.frame.snaps.filter fun y => decide (k < y.frame) } }).irqEdge 2 4

/-- Write words of the frame-information block (R250). -/
def State.setInfo (s : State) (l : List (Nat × Word)) : State :=
  { s with cup := { s.cup with info := l.foldl (fun v x => vset v x.1 x.2) s.cup.info } }

/-- The frame-information block of the frame that begins, words 6 and 7 apart (R250). -/
def State.frameInfo (s : State) : State :=
  let k := s.frame.count
  let t := s.time64 s.frame.tickC
  s.setInfo [(0, lo32 k), (1, hi32 k), (2, w32 s.tf), (3, w32 s.dk),
    (4, w32 (s.pair.role.code * 65536 + s.mode.code * 256 + s.p)), (5, w32 s.frame.reused.toNat),
    (8, lo32 t), (9, hi32 t), (10, w32 (b2n s.time.traceable)), (11, s.gl Obj.COMMIT_SEQ)]

/-- MULTI descriptors that are due, and DELAY descriptors whose count reaches 0 (R275). -/
def State.tickReleases (s : State) : State :=
  let k := s.frame.count
  let left := s.sched.delays.map fun d => (d.1, d.2 - 1)
  let due := (left.filter fun d => decide (d.2 = 0)).map (·.1)
  let s1 : State := { s with sched := { s.sched with delays := left.filter fun d => decide (d.2 ≠ 0) } }
  let multi (n : Nat) : Bool := (s.desc n).en && decide ((s.desc n).cls = 1) && decide (k % (s.desc n).period = (s.desc n).low)
  releaseAll (fun t => t.raise 53) (idxs 256 fun n => multi n || due.contains n) s1

/-- What the block of frame k will need of its tick (R344, R345). -/
def State.acqTick (s : State) : State :=
  let k := s.frame.count
  let s1 : State :=
    if s.acq.st = .rearm ∧ s.acq.armFrame + 2 ≤ k then { s with acq := { s.acq with st := .pretrig } } else s
  let s2 := ((s1.acqHold k 64 (b2n !s.time.traceable)).acqHold k 65 (b2n s.frame.planStopped)).acqStamp
  s2.each (idxs 64 fun c => decide (s.acqKind c = 4)) fun t c =>
    let e := t.entry (t.acqSrc c)
    t.acqHold k c (e.vcell + b2n (t.isStale e || decide (e.health = 0)) * 65536)

/-- The automatic evaluation of R319, which a commit that selects it puts off to the next tick (R323). -/
def State.timeAt (s o : State) : State :=
  if o.ga Obj.DOM_SEL ≠ s.ga Obj.DOM_SEL ∧ s.na Obj.DOM_SEL = 2 then s.rateTick.timeLevels else s.timeTick

/-- The frame count becomes k at converter time `nt` (R20): the plan starts afresh, unless a debug halt stops it. -/
def State.nextFrame (s : State) (nt : Nat × Nat) : State :=
  let k := s.frame.count + 1
  let stop := s.frame.halted
  { s with
    frame := { s.frame with
      count := k, tickC := nt.1, ticks := (s.frame.tickC :: s.frame.ticks).take 32, planStopped := stop, released := false, cut := false
      sent := false, measClosed := false
      tasks := [], deposited := [], gateAt := 0
      snaps := if stop then s.frame.snaps else s.frame.snaps ++ [⟨k, 0, 0, 0, 0, 0⟩] }
    routes := { s.routes with upPhase := nt.2 }
    dict := { s.dict with served := 0, hostServed := 0 } }

/-- A frame in RUN or RIDETHROUGH counts (R512). -/
def State.countRun (s : State) : State :=
  if s.vminMode then s.setL64 Obj.RUN_FRAMES_LO (s.nl64 Obj.RUN_FRAMES_LO + 1) else s

/-- Everything that S_k does (R20, R27). -/
def State.tickAll (s : State) : State :=
  let k := s.frame.count
  let o := (if 2 ≤ k then s.publishSnap (k - 2) else s).wtFrame k
  let s1 := o.commitTick.pairTick.ledgerTick
  let s2 := s1.timeAt o
  let s3 := s2.phTick.each (List.range 12) State.execReload
  let s4 := (s3.each (idxs 32 s3.routeDown) State.closeDue).each (List.range 64) State.streamGone
  let s5 := s4.groupDownlink.groupUplink.leafSilence
  let s6 := if s5.frame.planStopped then s5.repeatCourier else s5.tickReleases.pwmTick
  (((s6.adcTriggers 3 0).spTicks.acqTick).countRun.frameInfo).prefetchAll.pdoSample

/-- TICK: S_k rings (R19, R20). -/
def execTick (s : State) : Host.Outcome State Fault Refusal :=
  .next (
    if !s.frame.ticking then s
    else
      let nt := s.nextTick
      (((s.toC nt.1).lanternRecord s.frame.count).endFrame.nextFrame nt).tickAll)

/-! ### S_0 (R19, R316) -/

/-- S_0 is the first instant at which C is a multiple of T_F. -/
def State.firstS0 (s : State) : Nat := ceilDiv s.time.c (max 1 s.tf * 4294967296) * max 1 s.tf

/-- The transition out of BOOT (R47), and the entry to SAFE that waited for it (R440). -/
def State.leaveBoot (s : State) : State :=
  let s1 := (s.setMode (if s.ga Obj.PAIR_EN = 1 then .mirror else .charge) 0).safeOutputs
  let f := s1.fault
  if f.bootC3 || f.bootSbk then
    ({ s1 with fault := { f with bootC3 := false, bootSbk := false } }).safeEntry (if f.bootC3 then 4 else 5) f.bootSbk none
  else s1

/-- The acquisition banks that a host load had turned on go off at S_0 (R58), which loses their contents: a read returns 0 (R450). -/
def State.closeHostLoad (s : State) : State :=
  let s0 : State := { s with sram := tclear (bankAddr 35 0) (bankAddr 163 0) s.sram }
  let s1 := s0.each ((List.range 128).map (35 + ·)) fun t b => t.setBank b { t.bank b with pwr := .off }
  s1.setBoot { s1.boot with hostLoad := false }

/-- What starts at S_0: the Phasor Unit (R333), automatic arming (R302, R348), the Watchtower's claim and connections (R396, R405),
and the frame itself. -/
def State.begin0 (s : State) : State :=
  let s0 := s.phTick
  let s1 : State := { s0 with phasor := { s0.phasor with running := decide (s.ga Obj.PH_EN = 1), nextAt := instantFrom s.domNow } }
  let s2 := s1.each (List.range 24) State.phRestart
  let s3 := if s2.na Obj.ACQ_AUTOARM = 1 then s2.acqArm else s2
  let s4 := if s3.na Obj.LANTERN_AUTOARM = 1 then s3.lanternArm else s3
  let s5 : State := { s4 with wt := { s4.wt with sls := s4.wt.sls.map fun x => { x with run := 0 } } }
  ((s5.each (idxs 8 s5.engEnabled) State.wakeEngine).adcbClaim.connSync.wtTrips.pwmConfigure).tickAll

/-- S_0 rings at the converter time `t` that has been reached: the frame count is 0, commit 1 takes effect (R67), and BOOT ends. A frame
0 that a debug halt stops has no snapshot (R41); the budget of the dictionary starts (R489). -/
def State.ring0 (s0 : State) (t : Nat) : State :=
  let s := s0.swapCopies.setCommit .syncing
  let s1 : State := { (s.bootStep .done) with
    frame := { s.frame with
      ticking := true, count := 0, tickC := t, planStopped := s.frame.halted, released := false, cut := false, sent := false
      measClosed := false, tasks := [], deposited := [], gateAt := 0, snaps := if s.frame.halted then [] else [⟨0, 0, 0, 0, 0, 0⟩] }
    dict := { s.dict with served := 0, hostServed := 0 } }
  ((s1.setLN Obj.BOOT_TIME_US ((s1.nowL - s1.boot.startL) / 1000)).startOffset t).closeHostLoad.leaveBoot.begin0

/-- C is set, unless a pair train has set it; S_0 follows, and C runs to it. -/
def State.clockSet (s : State) : State := if s.time.cSet then s else s.setClock
def State.s0Time (s : State) : Nat := s.clockSet.firstS0
def State.toS0 (s : State) : State := s.clockSet.toC s.s0Time

/-- FIRST_TICK (R19, R55): once the loaded configuration is accepted and, in a pair, the wait of R416 is over. -/
def execFirstTick (s : State) : Host.Outcome State Fault Refusal :=
  .next (
    if s.boot.step ≠ .validation ∨ s.boot.accepted = false ∨ s.boot.mirrorWait then s
    else s.toS0.ring0 s.s0Time)

/-! ### The release (R31, R274) -/


/-- A record of a gating lane has not been deposited in this frame (R31, R32). -/
def State.laneLate (s : State) (n : Nat) : Bool := (s.laneStreams n).any fun x => !s.frame.deposited.contains x

/-- The release `off` ns after S_k: words 6 and 7 of the frame information, and one instance of each FRAME descriptor that is due. -/
def State.release (s : State) (off : Nat) : State :=
  let missing := (idxs 32 s.gates).filter fun n => (s.laneStreams n).all fun x => !s.frame.deposited.contains x
  let s1 := s.setInfo [(6, w32 ((missing.map fun n => 2 ^ n).sum)), (7, w32 off)]
  let due := idxs 256 fun n => (s1.desc n).en && decide ((s1.desc n).cls = 0) && (s1.desc n).allows s1.mode
  let s2 := s1.setSnap s1.frame.count fun x => { x with tRelease := off }
  let s3 : State := { s2 with frame := { s2.frame with
    tasks := due.map fun n => ⟨n, BitVec.ofNat 12 (s2.desc n).armMask, false⟩ } }
  let s4 := s3.startAll due
  ({ s4 with frame := { s4.frame with released := true } } : State).wakeAll.prefetchAll

/-- t_rel as an offset from S_k (R31): 20 ns after the last record of every gating lane, and S_k + 170 ns at the latest. -/
def State.relOff (s : State) : Nat :=
  let g := idxs 32 s.gates
  if !g.isEmpty && g.all (fun n => !s.laneLate n) then min 170 (s.frame.gateAt + 20) else 170

/-- FRAME_RELEASE: t_rel of the frame in progress (R31, R274). -/
def execFrameRelease (s : State) : Host.Outcome State Fault Refusal :=
  .next (
    if s.frame.ticking && !s.frame.released && !s.frame.planStopped then (s.toC (s.frame.tickC + s.relOff)).release s.relOff else s)

/-! ### The measurement deadline (R32, R251) -/

/-- Entries without a deposit age, and the gating lanes that are late count (R32, R251). -/
def State.closeMeas (s : State) : State :=
  let mbx := Vector.ofFn fun (i : Fin 64) =>
    let m := s.cup.mbx[i]
    if s.frame.deposited.contains i.val then m else { m with age := min 65535 (m.age + 1) }
  let late := idxs 32 fun n => s.gates n && s.laneLate n
  let runs := Vector.ofFn fun (n : Fin 32) => if late.contains n.val then s.frame.measRun[n] + 1 else 0
  let s1 : State := { s with
    cup := { s.cup with mbx := mbx }
    frame := { s.frame with measClosed := true, measRun := runs } }
  let s2 := (s1.incIf (!late.isEmpty) Obj.MEAS_LATE_CNT).irqIf (!late.isEmpty) 2 1
  s2.each (late.filter fun n => decide (vget 0 runs n = 3)) fun t _ => t.raise 12

/-- MEAS_DEADLINE: S_k + 150 ns. -/
def execMeasDeadline (s : State) : Host.Outcome State Fault Refusal :=
  .next (if s.frame.ticking && !s.frame.measClosed then (s.toC (s.frame.tickC + 150)).closeMeas else s)

/-! ### The caravans start (R27, R36) -/

/-- The caravan built for lane `n` starts, or is cut at its first bit where the lane has left DATA since D_k (R36). -/
def State.startCaravan (s : State) (n : Nat) : State :=
  let put (s : State) (c : Option CaravanOut) : State := { s with routes := { s.routes with sentCar := vset s.routes.sentCar n c } }
  match vget none s.routes.built n with
  | none => put s none
  | some c =>
    if s.inData n then
      let u := put s (some c)
      let start := s.frame.tickC + s.dk + 150
      ({ u with
        routes := { u.routes with sentEnd := vset u.routes.sentEnd n (start + tCv c.slots.length) }
        frame := { u.frame with downHeld := bset u.frame.downHeld n false } } : State).trainOut n (c.blocks n) start
    else (((put s none).incL Obj.CARAVAN_CUT_CNT).irqEdge 2 2).raise 51

/-- End of the last caravan as an offset from S_k (R24, R41); a free value where none starts. -/
def State.caravanEnd (s : State) : Nat × State :=
  let l := (List.range 32).filterMap fun n => (vget none s.routes.sentCar n).map fun c => tCv c.slots.length
  if l.isEmpty then
    let d := s.draw
    (d.1.toNat % 65536, d.2)
  else (s.dk + 150 + l.foldl max 0, s)

/-- ARB_HB toggles outside BOOT while no fail-over is requested (R424). -/
def State.arbBeat (s : State) : State :=
  if s.mode ≠ .boot ∧ s.fault.failover = false then { s with pair := { s.pair with hb := !s.pair.hb } } else s

/-- Node values for channels of KIND 3 (R345). -/
def State.acqNodes (s : State) : State :=
  s.each (idxs 64 fun c => decide (s.acqKind c = 3)) fun t c =>
    t.acqHold t.frame.count c (fld (t.nodeValue (t.acqSrc c)) 31 16)

/-- End of the last data block of the pair train as an offset from S_k (R41, R417); a free value where none starts. -/
def State.mirrorEnd (s : State) : Nat × State :=
  if s.ga Obj.PAIR_EN = 1 ∧ s.mirrorLanes then
    let n := if s.pair.role = .active then s.mirLen else 36
    (s.dk + 150 + ceilDiv (ceilDiv n 16 * blockTime) 100, s)
  else
    let d := s.draw
    (d.1.toNat % 65536, d.2)

/-- The caravans of frame k start, and what goes with them (R27). T_SELECT_NS is a free value (R41 states none). -/
def State.sendCaravans (s : State) : State :=
  let s2 := s.each (List.range 32) State.startCaravan
  let s3 : State := { s2 with
    frame := { s2.frame with sent := true }
    routes := { s2.routes with built := Vector.replicate 32 none } }
  let e := s3.caravanEnd
  let a := e.2.draw
  let b := a.2.mirrorEnd
  let s4 := b.2.setSnap s.frame.count fun x => { x with tSelect := a.1.toNat % 65536, tCaravanEnd := e.1, tMirrorEnd := b.1 }
  let s5 := (s4.heartbeat s.frame.count).arbBeat
  let s6 := if s5.ga Obj.PAIR_EN = 1 then s5.sendPair else s5
  let s7 := s6.repeatCourier
  (s7.each (idxs 32 s7.walkWithCaravans) fun t n => t.discSend n 1).lanternNodes.acqNodes

/-- CARAVAN_SEND: D_k + 150 ns (R27). -/
def execCaravanSend (s : State) : Host.Outcome State Fault Refusal :=
  .next (
    if s.frame.ticking && s.frame.cut && !s.frame.sent && !s.frame.planStopped then (s.toC (s.frame.tickC + s.dk + 150)).sendCaravans
    else s)

/-! ### Debug halt (R21, R462) -/

/-- HALT (R21, R383, R462, R526): the plan and the engines stop, their store buffers drained, and the pairs freeze. What waited for the
caravans of the frame, a walk's requests and the repeats of a block courier, leaves without them (R120, R149). -/
def execHalt (s : State) : Host.Outcome State Fault Refusal :=
  .next (
    let s0 := s.tapIr .halt 0
    if !s.jtagAllowed || s.frame.halted || s.boot.resetLow then s0
    else
      let s1 := (s0.each (List.range 8) State.drainStores).pwmFreeze
      let k := s1.frame.count
      let s2 : State := { s1 with frame := { s1.frame with
        halted := true, planStopped := true, snaps := s1.frame.snaps.filter fun x => decide (x.frame ≠ k) } }
      if s2.frame.ticking then
        ((s2.acqHold k 65 1).each (idxs 32 s1.walkWithCaravans) State.discPump).repeatCourier
      else s2)

/-- HALT_END (R21): the engines and the pairs go on at once, the plan at the next tick. -/
def execHaltEnd (s : State) : Host.Outcome State Fault Refusal :=
  .next (
    if s.frame.halted then
      let s1 := s.pwmThaw
      ({ s1 with frame := { s1.frame with halted := false } } : State).wakeAll
    else s)

end Sys2Proof.Machine
end

