-- ==== Sys2Proof/Machine/Dispatch.lean ====
section
/-! DEFINITION. The dispatch of a command to its meaning: one arm per constructor of `Instr`. -/
namespace Sys2Proof.Machine

def exec (i : Instr) (s : State) : Host.Outcome State Fault Refusal :=
  match i with
  | .pwrgoodRise => Sys2Proof.Machine.execPwrgoodRise s
  | .pwrgoodFall => Sys2Proof.Machine.execPwrgoodFall s
  | .resetNAssert => Sys2Proof.Machine.execResetNAssert s
  | .resetNRelease sel tamper => Sys2Proof.Machine.execResetNRelease sel tamper s
  | .clocksLocked => Sys2Proof.Machine.execClocksLocked s
  | .fuseReadDone ecc => Sys2Proof.Machine.execFuseReadDone ecc s
  | .startupMarchDone rows => Sys2Proof.Machine.execStartupMarchDone rows s
  | .wtSelfTestDone pass => Sys2Proof.Machine.execWtSelfTestDone pass s
  | .slotHeadersRead => Sys2Proof.Machine.execSlotHeadersRead s
  | .payloadLoadDone => Sys2Proof.Machine.execPayloadLoadDone s
  | .laneWaitExpire => Sys2Proof.Machine.execLaneWaitExpire s
  | .timeWaitExpire => Sys2Proof.Machine.execTimeWaitExpire s
  | .bootValidationDone => Sys2Proof.Machine.execBootValidationDone s
  | .firstTick => Sys2Proof.Machine.execFirstTick s
  | .mirrorWaitExpire => Sys2Proof.Machine.execMirrorWaitExpire s
  | .tick => Sys2Proof.Machine.execTick s
  | .frameRelease => Sys2Proof.Machine.execFrameRelease s
  | .measDeadline => Sys2Proof.Machine.execMeasDeadline s
  | .decisionCut => Sys2Proof.Machine.execDecisionCut s
  | .caravanSend => Sys2Proof.Machine.execCaravanSend s
  | .halt => Sys2Proof.Machine.execHalt s
  | .haltEnd => Sys2Proof.Machine.execHaltEnd s
  | .modeReqCharge p => Sys2Proof.Machine.execModeReqCharge p s
  | .modeReqReady p => Sys2Proof.Machine.execModeReqReady p s
  | .modeReqRun p => Sys2Proof.Machine.execModeReqRun p s
  | .modeReqTest p => Sys2Proof.Machine.execModeReqTest p s
  | .modeReqSafe p => Sys2Proof.Machine.execModeReqSafe p s
  | .modeReqWithdraw p => Sys2Proof.Machine.execModeReqWithdraw p s
  | .modeReqNotListed p code => Sys2Proof.Machine.execModeReqNotListed p code s
  | .safeAck p => Sys2Proof.Machine.execSafeAck p s
  | .rtReqDc p => Sys2Proof.Machine.execRtReqDc p s
  | .rtReqAc p => Sys2Proof.Machine.execRtReqAc p s
  | .rtReqExit p => Sys2Proof.Machine.execRtReqExit p s
  | .commitRequest p v => Sys2Proof.Machine.execCommitRequest p v s
  | .commitRevert p => Sys2Proof.Machine.execCommitRevert p s
  | .commitValidationDone => Sys2Proof.Machine.execCommitValidationDone s
  | .commitSyncDone => Sys2Proof.Machine.execCommitSyncDone s
  | .imgEraseA p => Sys2Proof.Machine.execImgEraseA p s
  | .imgEraseB p => Sys2Proof.Machine.execImgEraseB p s
  | .imgFinishA p => Sys2Proof.Machine.execImgFinishA p s
  | .imgFinishB p => Sys2Proof.Machine.execImgFinishB p s
  | .imgHostLoad p => Sys2Proof.Machine.execImgHostLoad p s
  | .imgSaveActive p => Sys2Proof.Machine.execImgSaveActive p s
  | .imgData p v => Sys2Proof.Machine.execImgData p v s
  | .flashOpDone ok => Sys2Proof.Machine.execFlashOpDone ok s
  | .laneEnable p n => Sys2Proof.Machine.execLaneEnable p n s
  | .laneDisable p n => Sys2Proof.Machine.execLaneDisable p n s
  | .lanePrbsSet p n gen chk sel => Sys2Proof.Machine.execLanePrbsSet p n gen chk sel s
  | .laneLoopbackSet p n code => Sys2Proof.Machine.execLaneLoopbackSet p n code s
  | .laneInjectErr p n => Sys2Proof.Machine.execLaneInjectErr p n s
  | .retrainFull p n => Sys2Proof.Machine.execRetrainFull p n s
  | .retrainFast p n => Sys2Proof.Machine.execRetrainFast p n s
  | .lanePolaritySet p n tx rx => Sys2Proof.Machine.execLanePolaritySet p n tx rx s
  | .cdrLock n => Sys2Proof.Machine.execCdrLock n s
  | .eqAdaptDone n => Sys2Proof.Machine.execEqAdaptDone n s
  | .blockLock n => Sys2Proof.Machine.execBlockLock n s
  | .laneEnterData n => Sys2Proof.Machine.execLaneEnterData n s
  | .trainExchTimeout n => Sys2Proof.Machine.execTrainExchTimeout n s
  | .fastRetrainTimeout n => Sys2Proof.Machine.execFastRetrainTimeout n s
  | .retrainBackoffExpire n => Sys2Proof.Machine.execRetrainBackoffExpire n s
  | .losDetect n dur t => Sys2Proof.Machine.execLosDetect n dur t s
  | .blockLockLoss n t => Sys2Proof.Machine.execBlockLockLoss n t s
  | .hiBer n t => Sys2Proof.Machine.execHiBer n t s
  | .trainBlockReceive n fast run t => Sys2Proof.Machine.execTrainBlockReceive n fast run t s
  | .ccBlockReceive n fill => Sys2Proof.Machine.execCcBlockReceive n fill s
  | .unknownControlBlock n => Sys2Proof.Machine.execUnknownControlBlock n s
  | .srclkLoss src t => Sys2Proof.Machine.execSrclkLoss src t s
  | .srclkRestore src => Sys2Proof.Machine.execSrclkRestore src s
  | .prbsLock n w => Sys2Proof.Machine.execPrbsLock n w s
  | .prbsResync n bits errs => Sys2Proof.Machine.execPrbsResync n bits errs s
  | .prbsBitsLoRead p n bits errs => Sys2Proof.Machine.execPrbsBitsLoRead p n bits errs s
  | .uplinkTrainReceive n header => Sys2Proof.Machine.execUplinkTrainReceive n header s
  | .uplinkGroupReceive n g recs crc t => Sys2Proof.Machine.execUplinkGroupReceive n g recs crc t s
  | .uplinkTrainEnd n eot => Sys2Proof.Machine.execUplinkTrainEnd n eot s
  | .frameCloseTimeout n => Sys2Proof.Machine.execFrameCloseTimeout n s
  | .longSegmentReceive n w0 w1 w2 w3 crc t0 t3 => Sys2Proof.Machine.execLongSegmentReceive n w0 w1 w2 w3 crc t0 t3 s
  | .discReplyReceive n header w0 w1 w2 w3 crc eot t0 t3 => Sys2Proof.Machine.execDiscReplyReceive n header w0 w1 w2 w3 crc eot t0 t3 s
  | .discTimeout n tag => Sys2Proof.Machine.execDiscTimeout n tag s
  | .autoVerifyTrigger n x => Sys2Proof.Machine.execAutoVerifyTrigger n x s
  | .discRediscover p n => Sys2Proof.Machine.execDiscRediscover p n s
  | .discVerify p n => Sys2Proof.Machine.execDiscVerify p n s
  | .discAbort p n => Sys2Proof.Machine.execDiscAbort p n s
  | .upstreamCaravanReceive header groups eot t => Sys2Proof.Machine.execUpstreamCaravanReceive header groups eot t s
  | .upstreamDiscReqReceive header turn => Sys2Proof.Machine.execUpstreamDiscReqReceive header turn s
  | .courierReqHold p => Sys2Proof.Machine.execCourierReqHold p s
  | .courierReqReleaseHold p => Sys2Proof.Machine.execCourierReqReleaseHold p s
  | .courierSend n dep => Sys2Proof.Machine.execCourierSend n dep s
  | .beaconSend p v => Sys2Proof.Machine.execBeaconSend p v s
  | .beaconTransmit port t => Sys2Proof.Machine.execBeaconTransmit port t s
  | .beaconReceive port payload => Sys2Proof.Machine.execBeaconReceive port payload s
  | .beaconAct e => Sys2Proof.Machine.execBeaconAct e s
  | .trigInEdge rising stamp => Sys2Proof.Machine.execTrigInEdge rising stamp s
  | .trigOutStart e => Sys2Proof.Machine.execTrigOutStart e s
  | .trigOutEnd => Sys2Proof.Machine.execTrigOutEnd s
  | .healthRetire p => Sys2Proof.Machine.execHealthRetire p s
  | .healthRestore p => Sys2Proof.Machine.execHealthRestore p s
  | .healthSuspect p => Sys2Proof.Machine.execHealthSuspect p s
  | .cfgWord p v => Sys2Proof.Machine.execCfgWord p v s
  | .ledgerW0Read x => Sys2Proof.Machine.execLedgerW0Read x s
  | .forceArm p a v => Sys2Proof.Machine.execForceArm p a v s
  | .forceDefer p a v => Sys2Proof.Machine.execForceDefer p a v s
  | .forceClear p a => Sys2Proof.Machine.execForceClear p a s
  | .forceCommitAll p a => Sys2Proof.Machine.execForceCommitAll p a s
  | .maskClear p a => Sys2Proof.Machine.execMaskClear p a s
  | .gpioLevelAccept a g high te => Sys2Proof.Machine.execGpioLevelAccept a g high te s
  | .notchRestart p a => Sys2Proof.Machine.execNotchRestart p a s
  | .aidsStickyClear p v => Sys2Proof.Machine.execAidsStickyClear p v s
  | .pulseEdgeAccept n t => Sys2Proof.Machine.execPulseEdgeAccept n t s
  | .lanternArm p => Sys2Proof.Machine.execLanternArm p s
  | .lanternTrigger p => Sys2Proof.Machine.execLanternTrigger p s
  | .lanternStop p => Sys2Proof.Machine.execLanternStop p s
  | .lanternDisarm p => Sys2Proof.Machine.execLanternDisarm p s
  | .nop e st w => Sys2Proof.Machine.execNop e st w s
  | .mpy e st w => Sys2Proof.Machine.execMpy e st w s
  | .mac e st w => Sys2Proof.Machine.execMac e st w s
  | .msu e st w => Sys2Proof.Machine.execMsu e st w s
  | .mpy4 e st w => Sys2Proof.Machine.execMpy4 e st w s
  | .mac4 e st w => Sys2Proof.Machine.execMac4 e st w s
  | .msu4 e st w => Sys2Proof.Machine.execMsu4 e st w s
  | .clr e st w => Sys2Proof.Machine.execClr e st w s
  | .adda e st w => Sys2Proof.Machine.execAdda e st w s
  | .suba e st w => Sys2Proof.Machine.execSuba e st w s
  | .asla e st w => Sys2Proof.Machine.execAsla e st w s
  | .asra e st w => Sys2Proof.Machine.execAsra e st w s
  | .ldacc e st w => Sys2Proof.Machine.execLdacc e st w s
  | .rnd e st w => Sys2Proof.Machine.execRnd e st w s
  | .nega e st w => Sys2Proof.Machine.execNega e st w s
  | .absa e st w => Sys2Proof.Machine.execAbsa e st w s
  | .clr4 e st w => Sys2Proof.Machine.execClr4 e st w s
  | .mov e st w => Sys2Proof.Machine.execMov e st w s
  | .add e st w => Sys2Proof.Machine.execAdd e st w s
  | .sub e st w => Sys2Proof.Machine.execSub e st w s
  | .neg e st w => Sys2Proof.Machine.execNeg e st w s
  | .abs e st w => Sys2Proof.Machine.execAbs e st w s
  | .min e st w => Sys2Proof.Machine.execMin e st w s
  | .max e st w => Sys2Proof.Machine.execMax e st w s
  | .cmp e st w => Sys2Proof.Machine.execCmp e st w s
  | .and e st w => Sys2Proof.Machine.execAnd e st w s
  | .or e st w => Sys2Proof.Machine.execOr e st w s
  | .xor e st w => Sys2Proof.Machine.execXor e st w s
  | .not e st w => Sys2Proof.Machine.execNot e st w s
  | .asli e st w => Sys2Proof.Machine.execAsli e st w s
  | .asri e st w => Sys2Proof.Machine.execAsri e st w s
  | .lsri e st w => Sys2Proof.Machine.execLsri e st w s
  | .ashv e st w => Sys2Proof.Machine.execAshv e st w s
  | .norm e st w => Sys2Proof.Machine.execNorm e st w s
  | .mpyd e st w => Sys2Proof.Machine.execMpyd e st w s
  | .clamp e st w => Sys2Proof.Machine.execClamp e st w s
  | .ldi e st w => Sys2Proof.Machine.execLdi e st w s
  | .addi e st w => Sys2Proof.Machine.execAddi e st w s
  | .andi e st w => Sys2Proof.Machine.execAndi e st w s
  | .ori e st w => Sys2Proof.Machine.execOri e st w s
  | .xori e st w => Sys2Proof.Machine.execXori e st w s
  | .cmpi e st w => Sys2Proof.Machine.execCmpi e st w s
  | .ldai e st w => Sys2Proof.Machine.execLdai e st w s
  | .ldmi e st w => Sys2Proof.Machine.execLdmi e st w s
  | .ldbi e st w => Sys2Proof.Machine.execLdbi e st w s
  | .ldli e st w => Sys2Proof.Machine.execLdli e st w s
  | .addai e st w => Sys2Proof.Machine.execAddai e st w s
  | .tfr e st w => Sys2Proof.Machine.execTfr e st w s
  | .setf e st w => Sys2Proof.Machine.execSetf e st w s
  | .clrf e st w => Sys2Proof.Machine.execClrf e st w s
  | .bra e st w => Sys2Proof.Machine.execBra e st w s
  | .call e st w => Sys2Proof.Machine.execCall e st w s
  | .ret e st w => Sys2Proof.Machine.execRet e st w s
  | .loop e st w => Sys2Proof.Machine.execLoop e st w s
  | .loopd e st w => Sys2Proof.Machine.execLoopd e st w s
  | .done e st t w => Sys2Proof.Machine.execDone e st t w s
  | .sync e st w => Sys2Proof.Machine.execSync e st w s
  | .trap e st w => Sys2Proof.Machine.execTrap e st w s
  | .bkpt e st w => Sys2Proof.Machine.execBkpt e st w s
  | .regfileParityError e => Sys2Proof.Machine.execRegfileParityError e s
  | .outArmRef e st w => Sys2Proof.Machine.execOutArmRef e st w s
  | .outSelIdirFw e st w => Sys2Proof.Machine.execOutSelIdirFw e st w s
  | .outRtReq e st w => Sys2Proof.Machine.execOutRtReq e st w s
  | .outBeaconSend e st w => Sys2Proof.Machine.execOutBeaconSend e st w s
  | .outProbe e st w => Sys2Proof.Machine.execOutProbe e st w s
  | .outSem e st w => Sys2Proof.Machine.execOutSem e st w s
  | .inSem e st w => Sys2Proof.Machine.execInSem e st w s
  | .outTaskRelease e st w => Sys2Proof.Machine.execOutTaskRelease e st w s
  | .outDictSel e st w => Sys2Proof.Machine.execOutDictSel e st w s
  | .outDictData e st w => Sys2Proof.Machine.execOutDictData e st w s
  | .inDictData e st w => Sys2Proof.Machine.execInDictData e st w s
  | .inDictResult e st w => Sys2Proof.Machine.execInDictResult e st w s
  | .inFrameCountLo e st w => Sys2Proof.Machine.execInFrameCountLo e st w s
  | .inFrameCountHi e st w => Sys2Proof.Machine.execInFrameCountHi e st w s
  | .inCtimeLo e st w => Sys2Proof.Machine.execInCtimeLo e st w s
  | .inCtimeHi e st w => Sys2Proof.Machine.execInCtimeHi e st w s
  | .inEngineId e st w => Sys2Proof.Machine.execInEngineId e st w s
  | .inTaskId e st w => Sys2Proof.Machine.execInTaskId e st w s
  | .inTaskCycles e st w => Sys2Proof.Machine.execInTaskCycles e st w s
  | .inUnlistedPort e st w => Sys2Proof.Machine.execInUnlistedPort e st w s
  | .outUnlistedPort e st w => Sys2Proof.Machine.execOutUnlistedPort e st w s
  | .progMemWrite e x hi v => Sys2Proof.Machine.execProgMemWrite e x hi v s
  | .hostRelease p v => Sys2Proof.Machine.execHostRelease p v s
  | .delayArm p v => Sys2Proof.Machine.execDelayArm p v s
  | .delayCancel p v => Sys2Proof.Machine.execDelayCancel p v s
  | .descW3 p v => Sys2Proof.Machine.execDescW3 p v s
  | .taskSelectionDone e => Sys2Proof.Machine.execTaskSelectionDone e s
  | .prefetchRefillDone e => Sys2Proof.Machine.execPrefetchRefillDone e s
  | .contextSaveDone e => Sys2Proof.Machine.execContextSaveDone e s
  | .taskLoadDone e => Sys2Proof.Machine.execTaskLoadDone e s
  | .contextRestoreDone e => Sys2Proof.Machine.execContextRestoreDone e s
  | .cycWarnExceed e => Sys2Proof.Machine.execCycWarnExceed e s
  | .ptpSyncReceive port3 domain seq twoStep origin corr l => Sys2Proof.Machine.execPtpSyncReceive port3 domain seq twoStep origin corr l s
  | .ptpFollowUpReceive port3 domain seq origin corr => Sys2Proof.Machine.execPtpFollowUpReceive port3 domain seq origin corr s
  | .ptpAnnounceReceive port3 domain gm rank utc flags inacc => Sys2Proof.Machine.execPtpAnnounceReceive port3 domain gm rank utc flags inacc s
  | .pdelayReqReceive port3 domain seq l tx => Sys2Proof.Machine.execPdelayReqReceive port3 domain seq l tx s
  | .pdelayRespReceive port3 seq t2 corr l => Sys2Proof.Machine.execPdelayRespReceive port3 seq t2 corr l s
  | .pdelayRespFollowUpReceive port3 seq t3 corr => Sys2Proof.Machine.execPdelayRespFollowUpReceive port3 seq t3 corr s
  | .ptpUnsupportedReceive port3 domain => Sys2Proof.Machine.execPtpUnsupportedReceive port3 domain s
  | .pdelayReqSend port3 l => Sys2Proof.Machine.execPdelayReqSend port3 l s
  | .announceTimeout d port3 => Sys2Proof.Machine.execAnnounceTimeout d port3 s
  | .offsetTimeout d => Sys2Proof.Machine.execOffsetTimeout d s
  | .holdoverExpired d => Sys2Proof.Machine.execHoldoverExpired d s
  | .ppsInEdge falling l => Sys2Proof.Machine.execPpsInEdge falling l s
  | .ppsOutRise => Sys2Proof.Machine.execPpsOutRise s
  | .ppsOutFall => Sys2Proof.Machine.execPpsOutFall s
  | .phasorPublish => Sys2Proof.Machine.execPhasorPublish s
  | .waveTagWrite w => Sys2Proof.Machine.execWaveTagWrite w s
  | .resultLatchRead p key => Sys2Proof.Machine.execResultLatchRead p key s
  | .acqArm p => Sys2Proof.Machine.execAcqArm p s
  | .acqTrigger p => Sys2Proof.Machine.execAcqTrigger p s
  | .acqStop p => Sys2Proof.Machine.execAcqStop p s
  | .acqDisarm p => Sys2Proof.Machine.execAcqDisarm p s
  | .acqBlockForm => Sys2Proof.Machine.execAcqBlockForm s
  | .acqBlockWrite => Sys2Proof.Machine.execAcqBlockWrite s
  | .adcRegStart p x cont => Sys2Proof.Machine.execAdcRegStart p x cont s
  | .adcRegStop p x => Sys2Proof.Machine.execAdcRegStop p x s
  | .adcCalReq p x cont => Sys2Proof.Machine.execAdcCalReq p x cont s
  | .adcPeriodicStart x => Sys2Proof.Machine.execAdcPeriodicStart x s
  | .adcConversionDone x v vref => Sys2Proof.Machine.execAdcConversionDone x v vref s
  | .adcCalDone x coef => Sys2Proof.Machine.execAdcCalDone x coef s
  | .pwmWrap p => Sys2Proof.Machine.execPwmWrap p s
  | .pwmDutyMatch p => Sys2Proof.Machine.execPwmDutyMatch p s
  | .deadTimeExpire p => Sys2Proof.Machine.execDeadTimeExpire p s
  | .pwmTimingWrite path p v => Sys2Proof.Machine.execPwmTimingWrite path p v s
  | .pwmForceWrite path p v => Sys2Proof.Machine.execPwmForceWrite path p v s
  | .pairStart path p => Sys2Proof.Machine.execPairStart path p s
  | .pairStop path p => Sys2Proof.Machine.execPairStop path p s
  | .pwmSyncStart path v => Sys2Proof.Machine.execPwmSyncStart path v s
  | .tripInputAccept n active edge => Sys2Proof.Machine.execTripInputAccept n active edge s
  | .tripClear path v => Sys2Proof.Machine.execTripClear path v s
  | .swOpen p v challenge => Sys2Proof.Machine.execSwOpen p v challenge s
  | .swValueWrite p key v => Sys2Proof.Machine.execSwValueWrite p key v s
  | .swConfirm p v => Sys2Proof.Machine.execSwConfirm p v s
  | .swTimeout => Sys2Proof.Machine.execSwTimeout s
  | .debugPermitExpire => Sys2Proof.Machine.execDebugPermitExpire s
  | .wtChannelDisagree => Sys2Proof.Machine.execWtChannelDisagree s
  | .wtOscFault => Sys2Proof.Machine.execWtOscFault s
  | .outTestPulse chanB agree => Sys2Proof.Machine.execOutTestPulse chanB agree s
  | .readbackError chanB => Sys2Proof.Machine.execReadbackError chanB s
  | .kcopyCrcCheck good => Sys2Proof.Machine.execKcopyCrcCheck good s
  | .heartbeatTimeout => Sys2Proof.Machine.execHeartbeatTimeout s
  | .wtRecordAccept stream r => Sys2Proof.Machine.execWtRecordAccept stream r s
  | .measLostExpire stream => Sys2Proof.Machine.execMeasLostExpire stream s
  | .slvDiscExpire v => Sys2Proof.Machine.execSlvDiscExpire v s
  | .wtPulseEdge n t => Sys2Proof.Machine.execWtPulseEdge n t s
  | .slsDiscExpire => Sys2Proof.Machine.execSlsDiscExpire s
  | .safetyPduReceive c en3 prp bytes => Sys2Proof.Machine.execSafetyPduReceive c en3 prp bytes s
  | .sdWatchdogExpire c => Sys2Proof.Machine.execSdWatchdogExpire c s
  | .sdTxSend c => Sys2Proof.Machine.execSdTxSend c s
  | .pairTrainReceive a b t => Sys2Proof.Machine.execPairTrainReceive a b t s
  | .mirrorPingSend ts => Sys2Proof.Machine.execMirrorPingSend ts s
  | .mirrorPingReceive sot t tx => Sys2Proof.Machine.execMirrorPingReceive sot t tx s
  | .mirrorPingReplyReceive sot t => Sys2Proof.Machine.execMirrorPingReplyReceive sot t s
  | .partnerLost => Sys2Proof.Machine.execPartnerLost s
  | .arbActChange level t => Sys2Proof.Machine.execArbActChange level t s
  | .swapReq p => Sys2Proof.Machine.execSwapReq p s
  | .swapTimeout => Sys2Proof.Machine.execSwapTimeout s
  | .faultAck p hi => Sys2Proof.Machine.execFaultAck p hi s
  | .faultForce p hi => Sys2Proof.Machine.execFaultForce p hi s
  | .selfTestEDone good => Sys2Proof.Machine.execSelfTestEDone good s
  | .selfTestLDone lane blocks => Sys2Proof.Machine.execSelfTestLDone lane blocks s
  | .selfTestKDone engine good => Sys2Proof.Machine.execSelfTestKDone engine good s
  | .selfTestSkip engine => Sys2Proof.Machine.execSelfTestSkip engine s
  | .eccCorrected bank word => Sys2Proof.Machine.execEccCorrected bank word s
  | .eccUncorrectable bank word bits => Sys2Proof.Machine.execEccUncorrectable bank word bits s
  | .marchRequest p v => Sys2Proof.Machine.execMarchRequest p v s
  | .marchDone words => Sys2Proof.Machine.execMarchDone words s
  | .marchBgRow corr fail => Sys2Proof.Machine.execMarchBgRow corr fail s
  | .bankWakeDone b => Sys2Proof.Machine.execBankWakeDone b s
  | .bankRetentionEnter b => Sys2Proof.Machine.execBankRetentionEnter b s
  | .tamperAccept n => Sys2Proof.Machine.execTamperAccept n s
  | .supplyOutOfRange safe => Sys2Proof.Machine.execSupplyOutOfRange safe s
  | .tempOutOfRange => Sys2Proof.Machine.execTempOutOfRange s
  | .keyInstall p bytes => Sys2Proof.Machine.execKeyInstall p bytes s
  | .lcReqProvision p => Sys2Proof.Machine.execLcReqProvision p s
  | .lcReqDeploy p => Sys2Proof.Machine.execLcReqDeploy p s
  | .lcReqReturn p => Sys2Proof.Machine.execLcReqReturn p s
  | .lcReqScrap p => Sys2Proof.Machine.execLcReqScrap p s
  | .lcFuseDone good primary => Sys2Proof.Machine.execLcFuseDone good primary s
  | .complete p v => Sys2Proof.Machine.execComplete p v s
  | .pendWrite p g v => Sys2Proof.Machine.execPendWrite p g v s
  | .pendRead p g => Sys2Proof.Machine.execPendRead p g s
  | .hclkStop => Sys2Proof.Machine.execHclkStop s
  | .hclkResume => Sys2Proof.Machine.execHclkResume s
  | .journalRecordWrite => Sys2Proof.Machine.execJournalRecordWrite s
  | .jrnPop p v => Sys2Proof.Machine.execJrnPop p v s
  | .hostAccess wr addr be v clk => Sys2Proof.Machine.execHostAccess wr addr be v clk s
  | .hostAccessAbandon => Sys2Proof.Machine.execHostAccessAbandon s
  | .dictService => Sys2Proof.Machine.execDictService s
  | .hpFenceRead clk => Sys2Proof.Machine.execHpFenceRead clk s
  | .wideLowRead p key => Sys2Proof.Machine.execWideLowRead p key s
  | .wideHighWrite p key v => Sys2Proof.Machine.execWideHighWrite p key v s
  | .domPtrWrite p v => Sys2Proof.Machine.execDomPtrWrite p v s
  | .domainRead key => Sys2Proof.Machine.execDomainRead key s
  | .domainWrite key v => Sys2Proof.Machine.execDomainWrite key v s
  | .domEnd v => Sys2Proof.Machine.execDomEnd v s
  | .objDataAccess v => Sys2Proof.Machine.execObjDataAccess v s
  | .sdoDownloadInitiate idx sub expedited size bytes => Sys2Proof.Machine.execSdoDownloadInitiate idx sub expedited size bytes s
  | .sdoDownloadSegment toggle last bytes => Sys2Proof.Machine.execSdoDownloadSegment toggle last bytes s
  | .sdoUploadInitiate idx sub => Sys2Proof.Machine.execSdoUploadInitiate idx sub s
  | .sdoUploadSegment toggle => Sys2Proof.Machine.execSdoUploadSegment toggle s
  | .sdoAbortReceive => Sys2Proof.Machine.execSdoAbortReceive s
  | .sdoUnsupported coe => Sys2Proof.Machine.execSdoUnsupported coe s
  | .sdoIdleTimeout => Sys2Proof.Machine.execSdoIdleTimeout s
  | .alReqInit => Sys2Proof.Machine.execAlReqInit s
  | .alReqPreop => Sys2Proof.Machine.execAlReqPreop s
  | .alReqSafeop => Sys2Proof.Machine.execAlReqSafeop s
  | .alReqOp => Sys2Proof.Machine.execAlReqOp s
  | .rxpdoReceive bytes => Sys2Proof.Machine.execRxpdoReceive bytes s
  | .pdWatchdogExpire => Sys2Proof.Machine.execPdWatchdogExpire s
  | .mdioPoll links => Sys2Proof.Machine.execMdioPoll links s
  | .mdioCmd p v => Sys2Proof.Machine.execMdioCmd p v s
  | .mdioFrameDone data => Sys2Proof.Machine.execMdioFrameDone data s
  | .tjSample t => Sys2Proof.Machine.execTjSample t s
  | .powerEstimate io coreMv safeMv ppb => Sys2Proof.Machine.execPowerEstimate io coreMv safeMv ppb s
  | .pllUnlock => Sys2Proof.Machine.execPllUnlock s
  | .xtalFault ppb => Sys2Proof.Machine.execXtalFault ppb s
  | .extest => Sys2Proof.Machine.execExtest s
  | .idcode => Sys2Proof.Machine.execIdcode s
  | .samplePreload cells => Sys2Proof.Machine.execSamplePreload cells s
  | .sysreset sel => Sys2Proof.Machine.execSysreset sel s
  | .bypass => Sys2Proof.Machine.execBypass s
  | .tapReset => Sys2Proof.Machine.execTapReset s
  | .tableWriteDiscard addr => Sys2Proof.Machine.execTableWriteDiscard addr s
  | .registerWrite p key v => Sys2Proof.Machine.execRegisterWrite p key v s
  | .wtAdcbCalibrate => Sys2Proof.Machine.execWtAdcbCalibrate s
  | .slsTimeout n => Sys2Proof.Machine.execSlsTimeout n s
  | .parWindowExpire c => Sys2Proof.Machine.execParWindowExpire c s
  | .sgmiiSyncChange port sync => Sys2Proof.Machine.execSgmiiSyncChange port sync s
  | .supplyMonChange mv => Sys2Proof.Machine.execSupplyMonChange mv s
  | .tamperRelease n => Sys2Proof.Machine.execTamperRelease n s
  | .corePllRelock => Sys2Proof.Machine.execCorePllRelock s
  | .xtalRecover ppb => Sys2Proof.Machine.execXtalRecover ppb s
  | .loopBlockReceive run => Sys2Proof.Machine.execLoopBlockReceive run s

end Sys2Proof.Machine
end

