-- ==== Sys2Proof/Machine/Idle.lean ====
section
/-! DEFINITION. What the block does when no command waits: 1 ns of local time passes (log entry 10). -/
namespace Sys2Proof.Machine

/-- 1 ns passes in which no event of the table falls (R307, R317). Before S_0 the dictionary budget and the TxPDO sample go by whole
microseconds of L (R489, R496). -/
def State.idle (s : State) : State :=
  let s1 := s.passNs 1
  if !s1.frame.ticking && decide (s1.nowL % 1000 = 0) && !s1.boot.resetLow then s1.pdoSample.budgetWindow else s1

end Sys2Proof.Machine
end

