-- ==== Sys2Proof/Safety.lean ====
section
/-! DEFINITION. The terms in which the statements are made: a write that passes the checks every write passes, what every step keeps,
and the commands that reset the device. -/
namespace Sys2Proof.Machine

/-- A write of `v` to the object `key` is served and passes the checks that every write passes, whatever the object does with it
(R7, R66, R368, R480, R532): RESET_N is high, the object exists, may be written, is no DOMAIN, the value fits its type and range, a
staged object is written while COMMIT_STATE is OPEN, and the Watchtower does not claim the converter that the object sets. -/
abbrev State.takes (s : State) (key : Nat) (v : Word) : Prop :=
  s.boot.resetLow = false ∧ s.checkWrite key v = 0 ∧ (s.adc.claimed && isAdcB key) = false

/-- Both memories are in their canonical form. -/
abbrev State.memCanonical (s : State) : Prop := twf sramDefault s.sram = true ∧ twf flashDefault s.flash = true

/-- A fusing in progress programs no earlier state than the one reached (R462). -/
def State.fusingForward (s : State) : Prop := ∀ x, s.mem.fusing = some x → s.mem.life.code ≤ x.code

/-- The invariant of the block. -/
def State.Inv (s : State) : Prop := s.memCanonical ∧ s.fusingForward

/-- The exact result `x` as an accumulator holds it: the nearer limit of 72 bits where it lies outside (R242). -/
def accLimited (x : Int) : Int := if x < -(2 ^ 71) then -(2 ^ 71) else if 2 ^ 71 - 1 < x then 2 ^ 71 - 1 else x

/-- The result `x` lies outside the 64-bit signed range (R242). -/
def beyond64 (x : Int) : Bool := decide (x < -(2 ^ 63)) || decide (2 ^ 63 - 1 < x)

/-- `w` is the 32-bit conversion of the accumulator value `v`, and `sat` says whether a limit took its place (R244): with FM = 1 the
upper word rounded half to even, with FM = 0 the value itself. -/
def convertsTo (fm : Bool) (v : Int) (w : Word) (sat : Bool) : Prop :=
  ∃ u : Int,
    (if fm then ∃ q r : Int, v = q * 2 ^ 32 + r ∧ 0 ≤ r ∧ r < 2 ^ 32 ∧ u = (if 2 ^ 31 < r ∨ (r = 2 ^ 31 ∧ q % 2 = 1) then q + 1 else q)
     else u = v) ∧
    (if u < -(2 ^ 31) then w.toInt = -(2 ^ 31) ∧ sat = true
     else if 2 ^ 31 - 1 < u then w.toInt = 2 ^ 31 - 1 ∧ sat = true
     else w.toInt = u ∧ sat = false)

end Sys2Proof.Machine

namespace Sys2Proof

/-- The commands that reset the device (R391, R528): a fall of PWRGOOD, RESET_N and the write of SYSRESET. -/
def Instr.resets (i : Instr) : Bool :=
  match i with
  | .pwrgoodFall => true
  | .resetNAssert => true
  | .resetNRelease _ _ => true
  | .sysreset _ => true
  | _ => false

end Sys2Proof
end

