-- ==== Sys2Proof/WellFormed.lean ====
section
/-! DEFINITION. Well-formed commands: every number that names a part of the device (an engine, an arm, a pair, a converter, a
connection, a stream, a bank, a port, a cause group, a dictionary object) lies in the range that the spec gives it, and an operand that
the spec limits (R47: the unlisted mode codes) keeps its limit. What comes from outside otherwise (words,
times, measured values) may be anything. The sender sends well-formed commands. -/
namespace Sys2Proof

/-- An access path is well-formed: there are eight engines (R240). -/
def Path.ok : Path → Bool
  | .host => true
  | .mailbox => true
  | .processData => true
  | .cupola e => decide (e < 8)

/-- A command is well-formed. -/
def Instr.wf (i : Instr) : Bool :=
  match i with
  | .pwrgoodRise => true
  | .pwrgoodFall => true
  | .resetNAssert => true
  | .resetNRelease _ _ => true
  | .clocksLocked => true
  | .fuseReadDone _ => true
  | .startupMarchDone _ => true
  | .wtSelfTestDone _ => true
  | .slotHeadersRead => true
  | .payloadLoadDone => true
  | .laneWaitExpire => true
  | .timeWaitExpire => true
  | .bootValidationDone => true
  | .firstTick => true
  | .mirrorWaitExpire => true
  | .tick => true
  | .frameRelease => true
  | .measDeadline => true
  | .decisionCut => true
  | .caravanSend => true
  | .halt => true
  | .haltEnd => true
  | .modeReqCharge p => p.ok
  | .modeReqReady p => p.ok
  | .modeReqRun p => p.ok
  | .modeReqTest p => p.ok
  | .modeReqSafe p => p.ok
  | .modeReqWithdraw p => p.ok
  | .modeReqNotListed p code => p.ok && (decide (code = 0) || decide (code = 4) || decide (code = 5))
  | .safeAck p => p.ok
  | .rtReqDc p => p.ok
  | .rtReqAc p => p.ok
  | .rtReqExit p => p.ok
  | .commitRequest p _ => p.ok
  | .commitRevert p => p.ok
  | .commitValidationDone => true
  | .commitSyncDone => true
  | .imgEraseA p => p.ok
  | .imgEraseB p => p.ok
  | .imgFinishA p => p.ok
  | .imgFinishB p => p.ok
  | .imgHostLoad p => p.ok
  | .imgSaveActive p => p.ok
  | .imgData p _ => p.ok
  | .flashOpDone _ => true
  | .laneEnable p _ => p.ok
  | .laneDisable p _ => p.ok
  | .lanePrbsSet p _ _ _ _ => p.ok
  | .laneLoopbackSet p _ _ => p.ok
  | .laneInjectErr p _ => p.ok
  | .retrainFull p _ => p.ok
  | .retrainFast p _ => p.ok
  | .lanePolaritySet p _ _ _ => p.ok
  | .cdrLock _ => true
  | .eqAdaptDone _ => true
  | .blockLock _ => true
  | .laneEnterData _ => true
  | .trainExchTimeout _ => true
  | .fastRetrainTimeout _ => true
  | .retrainBackoffExpire _ => true
  | .losDetect _ _ _ => true
  | .blockLockLoss _ _ => true
  | .hiBer _ _ => true
  | .trainBlockReceive _ _ _ _ => true
  | .ccBlockReceive _ _ => true
  | .unknownControlBlock _ => true
  | .srclkLoss _ _ => true
  | .srclkRestore _ => true
  | .prbsLock _ _ => true
  | .prbsResync _ _ _ => true
  | .prbsBitsLoRead p _ _ _ => p.ok
  | .uplinkTrainReceive _ _ => true
  | .uplinkGroupReceive _ _ _ _ _ => true
  | .uplinkTrainEnd _ _ => true
  | .frameCloseTimeout _ => true
  | .longSegmentReceive _ _ _ _ _ _ _ _ => true
  | .discReplyReceive _ _ _ _ _ _ _ _ _ _ => true
  | .discTimeout _ _ => true
  | .autoVerifyTrigger _ _ => true
  | .discRediscover p _ => p.ok
  | .discVerify p _ => p.ok
  | .discAbort p _ => p.ok
  | .upstreamCaravanReceive _ _ _ _ => true
  | .upstreamDiscReqReceive _ _ => true
  | .courierReqHold p => p.ok
  | .courierReqReleaseHold p => p.ok
  | .courierSend n _ => decide (n < 32)
  | .beaconSend p _ => p.ok
  | .beaconTransmit port _ => decide (port < 35)
  | .beaconReceive port _ => decide (port < 35)
  | .beaconAct _ => true
  | .trigInEdge _ _ => true
  | .trigOutStart e => decide (e < 64)
  | .trigOutEnd => true
  | .healthRetire p => p.ok
  | .healthRestore p => p.ok
  | .healthSuspect p => p.ok
  | .cfgWord p _ => p.ok
  | .ledgerW0Read x => decide (x < 12288)
  | .forceArm p a _ => p.ok && decide (a < 12)
  | .forceDefer p a _ => p.ok && decide (a < 12)
  | .forceClear p a => p.ok && decide (a < 12)
  | .forceCommitAll p a => p.ok && decide (a < 12)
  | .maskClear p a => p.ok && decide (a < 12)
  | .gpioLevelAccept a g _ _ => decide (a < 12) && decide (g < 4)
  | .notchRestart p a => p.ok && decide (a < 12)
  | .aidsStickyClear p _ => p.ok
  | .pulseEdgeAccept _ _ => true
  | .lanternArm p => p.ok
  | .lanternTrigger p => p.ok
  | .lanternStop p => p.ok
  | .lanternDisarm p => p.ok
  | .nop e _ _ => decide (e < 8)
  | .mpy e _ _ => decide (e < 8)
  | .mac e _ _ => decide (e < 8)
  | .msu e _ _ => decide (e < 8)
  | .mpy4 e _ _ => decide (e < 8)
  | .mac4 e _ _ => decide (e < 8)
  | .msu4 e _ _ => decide (e < 8)
  | .clr e _ _ => decide (e < 8)
  | .adda e _ _ => decide (e < 8)
  | .suba e _ _ => decide (e < 8)
  | .asla e _ _ => decide (e < 8)
  | .asra e _ _ => decide (e < 8)
  | .ldacc e _ _ => decide (e < 8)
  | .rnd e _ _ => decide (e < 8)
  | .nega e _ _ => decide (e < 8)
  | .absa e _ _ => decide (e < 8)
  | .clr4 e _ _ => decide (e < 8)
  | .mov e _ _ => decide (e < 8)
  | .add e _ _ => decide (e < 8)
  | .sub e _ _ => decide (e < 8)
  | .neg e _ _ => decide (e < 8)
  | .abs e _ _ => decide (e < 8)
  | .min e _ _ => decide (e < 8)
  | .max e _ _ => decide (e < 8)
  | .cmp e _ _ => decide (e < 8)
  | .and e _ _ => decide (e < 8)
  | .or e _ _ => decide (e < 8)
  | .xor e _ _ => decide (e < 8)
  | .not e _ _ => decide (e < 8)
  | .asli e _ _ => decide (e < 8)
  | .asri e _ _ => decide (e < 8)
  | .lsri e _ _ => decide (e < 8)
  | .ashv e _ _ => decide (e < 8)
  | .norm e _ _ => decide (e < 8)
  | .mpyd e _ _ => decide (e < 8)
  | .clamp e _ _ => decide (e < 8)
  | .ldi e _ _ => decide (e < 8)
  | .addi e _ _ => decide (e < 8)
  | .andi e _ _ => decide (e < 8)
  | .ori e _ _ => decide (e < 8)
  | .xori e _ _ => decide (e < 8)
  | .cmpi e _ _ => decide (e < 8)
  | .ldai e _ _ => decide (e < 8)
  | .ldmi e _ _ => decide (e < 8)
  | .ldbi e _ _ => decide (e < 8)
  | .ldli e _ _ => decide (e < 8)
  | .addai e _ _ => decide (e < 8)
  | .tfr e _ _ => decide (e < 8)
  | .setf e _ _ => decide (e < 8)
  | .clrf e _ _ => decide (e < 8)
  | .bra e _ _ => decide (e < 8)
  | .call e _ _ => decide (e < 8)
  | .ret e _ _ => decide (e < 8)
  | .loop e _ _ => decide (e < 8)
  | .loopd e _ _ => decide (e < 8)
  | .done e _ _ _ => decide (e < 8)
  | .sync e _ _ => decide (e < 8)
  | .trap e _ _ => decide (e < 8)
  | .bkpt e _ _ => decide (e < 8)
  | .regfileParityError e => decide (e < 8)
  | .outArmRef e _ _ => decide (e < 8)
  | .outSelIdirFw e _ _ => decide (e < 8)
  | .outRtReq e _ _ => decide (e < 8)
  | .outBeaconSend e _ _ => decide (e < 8)
  | .outProbe e _ _ => decide (e < 8)
  | .outSem e _ _ => decide (e < 8)
  | .inSem e _ _ => decide (e < 8)
  | .outTaskRelease e _ _ => decide (e < 8)
  | .outDictSel e _ _ => decide (e < 8)
  | .outDictData e _ _ => decide (e < 8)
  | .inDictData e _ _ => decide (e < 8)
  | .inDictResult e _ _ => decide (e < 8)
  | .inFrameCountLo e _ _ => decide (e < 8)
  | .inFrameCountHi e _ _ => decide (e < 8)
  | .inCtimeLo e _ _ => decide (e < 8)
  | .inCtimeHi e _ _ => decide (e < 8)
  | .inEngineId e _ _ => decide (e < 8)
  | .inTaskId e _ _ => decide (e < 8)
  | .inTaskCycles e _ _ => decide (e < 8)
  | .inUnlistedPort e _ _ => decide (e < 8)
  | .outUnlistedPort e _ _ => decide (e < 8)
  | .progMemWrite _ _ _ _ => true
  | .hostRelease p _ => p.ok
  | .delayArm p _ => p.ok
  | .delayCancel p _ => p.ok
  | .descW3 p _ => p.ok
  | .taskSelectionDone e => decide (e < 8)
  | .prefetchRefillDone e => decide (e < 8)
  | .contextSaveDone e => decide (e < 8)
  | .taskLoadDone e => decide (e < 8)
  | .contextRestoreDone e => decide (e < 8)
  | .cycWarnExceed e => decide (e < 8)
  | .ptpSyncReceive _ domain _ _ _ _ _ => decide (domain < 256)
  | .ptpFollowUpReceive _ domain _ _ _ => decide (domain < 256)
  | .ptpAnnounceReceive _ domain _ _ _ _ _ => decide (domain < 256)
  | .pdelayReqReceive _ domain _ _ _ => decide (domain < 256)
  | .pdelayRespReceive _ _ _ _ _ => true
  | .pdelayRespFollowUpReceive _ _ _ _ => true
  | .ptpUnsupportedReceive _ domain => decide (domain < 256)
  | .pdelayReqSend _ _ => true
  | .announceTimeout _ _ => true
  | .offsetTimeout _ => true
  | .holdoverExpired _ => true
  | .ppsInEdge _ _ => true
  | .ppsOutRise => true
  | .ppsOutFall => true
  | .phasorPublish => true
  | .waveTagWrite _ => true
  | .resultLatchRead p key => p.ok && decide (key < 16777216)
  | .acqArm p => p.ok
  | .acqTrigger p => p.ok
  | .acqStop p => p.ok
  | .acqDisarm p => p.ok
  | .acqBlockForm => true
  | .acqBlockWrite => true
  | .adcRegStart p x _ => p.ok && decide (x < 2)
  | .adcRegStop p x => p.ok && decide (x < 2)
  | .adcCalReq p x _ => p.ok && decide (x < 2)
  | .adcPeriodicStart x => decide (x < 2)
  | .adcConversionDone x _ _ => decide (x < 2)
  | .adcCalDone x _ => decide (x < 2)
  | .pwmWrap p => decide (p < 16)
  | .pwmDutyMatch p => decide (p < 16)
  | .deadTimeExpire p => decide (p < 16)
  | .pwmTimingWrite path p _ => path.ok && decide (p < 16)
  | .pwmForceWrite path p _ => path.ok && decide (p < 16)
  | .pairStart path p => path.ok && decide (p < 16)
  | .pairStop path p => path.ok && decide (p < 16)
  | .pwmSyncStart path _ => path.ok
  | .tripInputAccept n _ _ => decide (n < 4)
  | .tripClear path _ => path.ok
  | .swOpen p _ _ => p.ok
  | .swValueWrite p key _ => p.ok && decide (key < 16777216)
  | .swConfirm p _ => p.ok
  | .swTimeout => true
  | .debugPermitExpire => true
  | .wtChannelDisagree => true
  | .wtOscFault => true
  | .outTestPulse _ _ => true
  | .readbackError _ => true
  | .kcopyCrcCheck _ => true
  | .heartbeatTimeout => true
  | .wtRecordAccept stream _ => decide (stream < 64)
  | .measLostExpire stream => decide (stream < 64)
  | .slvDiscExpire v => decide (v < 4)
  | .wtPulseEdge n _ => decide (n < 2)
  | .slsDiscExpire => true
  | .safetyPduReceive c _ _ _ => decide (c < 64)
  | .sdWatchdogExpire c => decide (c < 64)
  | .sdTxSend c => decide (c < 64)
  | .pairTrainReceive _ _ _ => true
  | .mirrorPingSend _ => true
  | .mirrorPingReceive _ _ _ => true
  | .mirrorPingReplyReceive _ _ => true
  | .partnerLost => true
  | .arbActChange _ _ => true
  | .swapReq p => p.ok
  | .swapTimeout => true
  | .faultAck p _ => p.ok
  | .faultForce p _ => p.ok
  | .selfTestEDone _ => true
  | .selfTestLDone lane _ => decide (lane < 34)
  | .selfTestKDone engine _ => decide (engine < 8)
  | .selfTestSkip engine => decide (engine < 8)
  | .eccCorrected bank _ => decide (bank < 173)
  | .eccUncorrectable bank _ _ => decide (bank < 173)
  | .marchRequest p _ => p.ok
  | .marchDone _ => true
  | .marchBgRow _ _ => true
  | .bankWakeDone b => decide (b < 173)
  | .bankRetentionEnter b => decide (b < 173)
  | .tamperAccept n => decide (n < 2)
  | .supplyOutOfRange _ => true
  | .tempOutOfRange => true
  | .keyInstall p _ => p.ok
  | .lcReqProvision p => p.ok
  | .lcReqDeploy p => p.ok
  | .lcReqReturn p => p.ok
  | .lcReqScrap p => p.ok
  | .lcFuseDone _ _ => true
  | .complete p _ => p.ok
  | .pendWrite p g _ => p.ok && decide (g < 32)
  | .pendRead p g => p.ok && decide (g < 32)
  | .hclkStop => true
  | .hclkResume => true
  | .journalRecordWrite => true
  | .jrnPop p _ => p.ok
  | .hostAccess _ _ _ _ _ => true
  | .hostAccessAbandon => true
  | .dictService => true
  | .hpFenceRead _ => true
  | .wideLowRead p key => p.ok && decide (key < 16777216)
  | .wideHighWrite p key _ => p.ok && decide (key < 16777216)
  | .domPtrWrite p _ => p.ok
  | .domainRead key => decide (key < 16777216)
  | .domainWrite key _ => decide (key < 16777216)
  | .domEnd _ => true
  | .objDataAccess _ => true
  | .sdoDownloadInitiate _ _ _ _ _ => true
  | .sdoDownloadSegment _ _ _ => true
  | .sdoUploadInitiate _ _ => true
  | .sdoUploadSegment _ => true
  | .sdoAbortReceive => true
  | .sdoUnsupported _ => true
  | .sdoIdleTimeout => true
  | .alReqInit => true
  | .alReqPreop => true
  | .alReqSafeop => true
  | .alReqOp => true
  | .rxpdoReceive _ => true
  | .pdWatchdogExpire => true
  | .mdioPoll _ => true
  | .mdioCmd p _ => p.ok
  | .mdioFrameDone _ => true
  | .tjSample _ => true
  | .powerEstimate _ _ _ _ => true
  | .pllUnlock => true
  | .xtalFault _ => true
  | .extest => true
  | .idcode => true
  | .samplePreload _ => true
  | .sysreset _ => true
  | .bypass => true
  | .tapReset => true
  | .tableWriteDiscard addr => decide (addr < 4194304)
  | .registerWrite p key _ => p.ok && decide (key < 16777216)
  | .wtAdcbCalibrate => true
  | .slsTimeout n => decide (n < 2)
  | .parWindowExpire c => decide (c < 64)
  | .sgmiiSyncChange _ _ => true
  | .supplyMonChange _ => true
  | .tamperRelease n => decide (n < 2)
  | .corePllRelock => true
  | .xtalRecover _ => true
  | .loopBlockReceive _ => true

end Sys2Proof
end

