-- ==== Sys2Proof/Certificates/Slice0/Obligations.lean ====
section
/-! DEFINITION. The statements for the provers. `exec c s = .next t` says that the command completes; an equation with the next state written
out says what it changes and that it changes nothing else. `State.takes` says that a write passes the checks that every write passes. -/
open Sys2Proof Sys2Proof.Machine

/-- O1. Once the boot's commit is accepted, FIRST_TICK moves time to S_0 and starts the first frame. TICK moves time to the next S_k,
writes the Lantern record, ends the frame and starts the next one. FRAME_RELEASE 20 ns after the last gating record, at 170 ns at the
latest, MEAS_DEADLINE at 150 ns and CARAVAN_SEND at D_k + 150 ns move time to their instant and release, close and send. HALT, where
JTAG is allowed and nothing is halted, drains the posted stores, freezes the PWM counters, stops the plan and drops the frame's
snapshot, and what waited for the frame's caravans goes without them; HALT_END thaws the counters and lets the engines go on. Each of
these commands completes (exec answers a next state, which is written out): firstTick, tick, frameRelease, measDeadline, caravanSend,
halt, haltEnd. -/
def Obligations.FrameCommandsComplete : Prop :=
  (∀ s, s.boot.step = .validation → s.boot.accepted = true → s.boot.mirrorWait = false →
    exec .firstTick s = .next (s.toS0.ring0 s.s0Time)) ∧
  (∀ s, s.frame.ticking = true → exec .tick s = .next (
    ((((s.toC s.nextTick.1).lanternRecord s.frame.count).endFrame.nextFrame s.nextTick).tickAll))) ∧
  (∀ s, s.frame.ticking = true → s.frame.released = false → s.frame.planStopped = false →
    exec .frameRelease s = .next ((s.toC (s.frame.tickC + s.relOff)).release s.relOff)) ∧
  (∀ s, s.frame.ticking = true → s.frame.measClosed = false →
    exec .measDeadline s = .next (s.toC (s.frame.tickC + 150)).closeMeas) ∧
  (∀ s, s.frame.ticking = true → s.frame.cut = true → s.frame.sent = false → s.frame.planStopped = false →
    exec .caravanSend s = .next (s.toC (s.frame.tickC + s.dk + 150)).sendCaravans) ∧
  (∀ s, s.jtagAllowed = true → s.frame.halted = false → s.boot.resetLow = false →
    exec .halt s = .next (
      let u := ((s.tapIr .halt 0).each (List.range 8) State.drainStores).pwmFreeze
      let w : State := { u with
          frame := { u.frame with
            halted := true, planStopped := true, snaps := u.frame.snaps.filter fun x => decide (x.frame ≠ u.frame.count) } }
      if w.frame.ticking then ((w.acqHold u.frame.count 65 1).each (idxs 32 u.walkWithCaravans) State.discPump).repeatCourier else w)) ∧
  (∀ s, s.frame.halted = true →
    exec .haltEnd s = .next ({ s.pwmThaw with frame := { s.pwmThaw.frame with halted := false } } : State).wakeAll)

/-- O2. PWRGOOD rising, PWRGOOD falling, RESET_N going low and its release start and restart the boot. Each later step of the boot, in
the state that waits for it, goes on to the next: the clocks to the fuses, the fuses to the memory march, the march and the
Watchtower's self-test to the slots, the slots to the load of the chosen one, a valid load to the lanes, the two waits to the next
step, and the validation to the acceptance of the configuration or to the refusal with the fallback. Each of these commands completes
(exec answers a next state, which is written out): pwrgoodRise, pwrgoodFall, resetNAssert, resetNRelease, clocksLocked, fuseReadDone,
startupMarchDone, wtSelfTestDone, slotHeadersRead, payloadLoadDone, laneWaitExpire, timeWaitExpire, bootValidationDone. -/
def Obligations.BootCommandsComplete : Prop :=
  (∀ s, s.boot.pwrgood = false →
    exec .pwrgoodRise s = .next (s.setBoot { s.boot with pwrgood := true, resetLow := true })) ∧
  (∀ s, s.boot.pwrgood = true → exec .pwrgoodFall s = .next (s.resetTo true false 1)) ∧
  (∀ s, s.boot.resetLow = false → exec .resetNAssert s = .next (s.resetTo true true 2)) ∧
  (∀ s sel tamper, s.boot.resetLow = true → s.boot.pwrgood = true →
    exec (.resetNRelease sel tamper) s = .next ((s.startBoot sel).tamperAtRelease tamper)) ∧
  (∀ s, s.boot.step = .clocks → s.boot.resetLow = false → exec .clocksLocked s = .next ((((({ s with
      power := { s.power with
        corePll := true, fabric := true, sdPll := 3, xtalOk := true, wtOsc := true } }).setLN Obj.SRCLK_STATUS 3).calRequest 0).calRequest 1).bootStep
      .fuses)) ∧
  (∀ s, s.boot.step = .fuses → exec (.fuseReadDone false) s = .next (s.bootStep .march)) ∧
  (∀ s, s.boot.step = .fuses → exec (.fuseReadDone true) s = .next ((s.wipe 7).bootStep .march)) ∧
  (∀ s, s.boot.step = .march → s.boot.marched = false →
    exec (.startupMarchDone []) s = .next (s.marchCleared.setBoot { s.marchCleared.boot with marched := true }).afterMarch) ∧
  (∀ s b r u, s.marchCleared.repairRow b r = (u, true) → s.boot.step = .march → s.boot.marched = false →
    exec (.startupMarchDone [(b, r)]) s = .next (u.setBoot { u.boot with marched := true }).afterMarch) ∧
  (∀ s b r u, s.marchCleared.repairRow b r = (u, false) → s.boot.step = .march → s.boot.marched = false →
    exec (.startupMarchDone [(b, r)]) s = .next (u.bootStep .memoryFail)) ∧
  (∀ s, s.boot.step = .march → s.boot.wtTested = false →
    exec (.wtSelfTestDone true) s = .next (s.setBoot { s.boot with wtTested := true }).afterMarch) ∧
  (∀ s, s.boot.step = .march → s.boot.wtTested = false → exec (.wtSelfTestDone false) s = .next (s.bootStep .watchtowerFail)) ∧
  (∀ s u, (s.noteSlot 0 false).noteSlot 1 false = u → s.boot.step = .headers → u.slotCandidate 0 = true →
    exec .slotHeadersRead s = .next (u.setBoot { u.boot with
      loading := if u.slotCandidate 1 = true ∧ u.imgSeq 0 < u.imgSeq 1 then 1 else 0, step := .payload })) ∧
  (∀ s u, (s.noteSlot 0 false).noteSlot 1 false = u → s.boot.step = .headers → u.slotCandidate 0 = false →
    u.slotCandidate 1 = false → exec .slotHeadersRead s = .next (u.openHostLoad.bootStep .noImage)) ∧
  (∀ s, s.boot.step = .payload → s.boot.loading = 2 → s.boot.submitted = true → s.imgValid 2 true = true →
    exec .payloadLoadDone s = .next ((s.imgStatus 2).loadImage 2)) ∧
  (∀ s, s.boot.step = .lanes → exec .laneWaitExpire s
    = .next (s.setBoot { s.boot with lanesWaited := false }).bootAdvance) ∧
  (∀ s, s.boot.step = .lanes → exec .timeWaitExpire s
    = .next (s.setBoot { s.boot with timeWaited := false }).bootAdvance) ∧
  (∀ s, s.boot.step = .validation → s.boot.accepted = false → s.bootVerdict.1 = 0 →
    exec .bootValidationDone s = .next s.acceptBoot) ∧
  (∀ s u, s.boot.step = .validation → s.boot.accepted = false → s.bootVerdict.1 ≠ 0 → s.commitRefuse s.bootVerdict.1 s.bootVerdict.2 = u →
    exec .bootValidationDone s = .next (
    let t := (if u.commit.st = .opened then u else u.commitOpen).dropConfig (if s.boot.slot < 3 then s.imgPayload s.boot.slot else [])
    (t.setBoot { t.boot with refused := true }).fallback))

/-- O3. A MODE_REQ of CHARGE, READY, RUN, TEST or an unlisted code becomes the pending request with MODE_REQ_RESULT 0, replacing an
earlier one; SAFE outside BOOT enters SAFE at once with result 1 and drops the pending request; a withdrawal drops it with result 9
where there is one and changes nothing otherwise; SAFE_ACK acknowledges; RT_REQ in RUN or RIDETHROUGH becomes the pending ridethrough
request. Each of these commands completes (exec answers a next state, which is written out): modeReqCharge, modeReqReady, modeReqRun,
modeReqTest, modeReqSafe, modeReqWithdraw, modeReqNotListed, safeAck, rtReqDc, rtReqAc, rtReqExit. -/
def Obligations.ModeRequestsComplete : Prop :=
  (∀ s p, s.takes Obj.MODE_REQ 1 → exec (.modeReqCharge p) s
    = .next ((({ s with modes := { s.modes with req := some 1 } }).setLN Obj.MODE_REQ_RESULT 0).report p Obj.MODE_REQ 0)) ∧
  (∀ s p, s.takes Obj.MODE_REQ 2 → exec (.modeReqReady p) s
    = .next ((({ s with modes := { s.modes with req := some 2 } }).setLN Obj.MODE_REQ_RESULT 0).report p Obj.MODE_REQ 0)) ∧
  (∀ s p, s.takes Obj.MODE_REQ 3 → exec (.modeReqRun p) s
    = .next ((({ s with modes := { s.modes with req := some 3 } }).setLN Obj.MODE_REQ_RESULT 0).report p Obj.MODE_REQ 0)) ∧
  (∀ s p, s.takes Obj.MODE_REQ 6 → exec (.modeReqTest p) s
    = .next ((({ s with modes := { s.modes with req := some 6 } }).setLN Obj.MODE_REQ_RESULT 0).report p Obj.MODE_REQ 0)) ∧
  (∀ s p, s.takes Obj.MODE_REQ 7 → s.mode ≠ .boot → exec (.modeReqSafe p) s
    = .next ((((({ s with modes := { s.modes with req := none } }).safeEntry 2 false none).setLN Obj.MODE_REQ_RESULT 1).irqEdge 2 6).report
      p Obj.MODE_REQ 0)) ∧
  (∀ s p c, s.takes Obj.MODE_REQ 0xFF → s.modes.req = some c → exec (.modeReqWithdraw p) s
    = .next (((({ s with modes := { s.modes with req := none } }).setLN Obj.MODE_REQ_RESULT 9).irqEdge 2 6).report p Obj.MODE_REQ 0)) ∧
  (∀ s p, s.takes Obj.MODE_REQ 0xFF → s.modes.req = none → exec (.modeReqWithdraw p) s = .next (s.report p Obj.MODE_REQ 0)) ∧
  (∀ s p code, code = 0 ∨ code = 4 ∨ code = 5 → s.takes Obj.MODE_REQ (BitVec.ofNat 32 code) → exec (.modeReqNotListed p code) s
    = .next ((({ s with modes := { s.modes with req := some code } }).setLN Obj.MODE_REQ_RESULT 0).report p Obj.MODE_REQ 0)) ∧
  (∀ s p, s.takes Obj.SAFE_ACK 1 → exec (.safeAck p) s
    = .next (({ s with modes := { s.modes with acked := true } }).report p Obj.SAFE_ACK 0)) ∧
  (∀ s p, s.takes Obj.RT_REQ 1 → s.mode = .run ∨ s.mode = .ridethrough → exec (.rtReqDc p) s
    = .next (({ s with modes := { s.modes with rtReq := some 1 } }).report p Obj.RT_REQ 0)) ∧
  (∀ s p, s.takes Obj.RT_REQ 2 → s.mode = .run ∨ s.mode = .ridethrough → exec (.rtReqAc p) s
    = .next (({ s with modes := { s.modes with rtReq := some 2 } }).report p Obj.RT_REQ 0)) ∧
  (∀ s p, s.takes Obj.RT_REQ 3 → s.mode = .run ∨ s.mode = .ridethrough → exec (.rtReqExit p) s
    = .next (({ s with modes := { s.modes with rtReq := some 3 } }).report p Obj.RT_REQ 0))

/-- O4. Each of the eight commands writes LANE_CTRL of its lane with its own bits changed (ENABLE is bit 0, the polarities bits 1 and 2,
the retraining requests bits 3 and 4, the error injection bit 5, the PRBS bits 6 to 9, the loopback code bits 10 to 12). A value with
no unlisted code and no combination that the lane refuses is kept and acted on, and the path's result is 0. Each of these commands
completes (exec answers a next state, which is written out): laneEnable, laneDisable, lanePrbsSet, laneLoopbackSet, laneInjectErr,
retrainFull, retrainFast, lanePolaritySet. -/
def Obligations.LaneControlWritesComplete : Prop :=
  ∀ (s : State) (p : Path) (n : Fin 38) (v : Word), s.takes (Obj.LANE_CTRL n.val) v → ctrlUnlisted n.val v = false →
    s.ctrlRefused n.val (s.gl (Obj.LANE_CTRL n.val)) v = false →
    let t : State := ((s.setL (Obj.LANE_CTRL n.val) (ctrlKeep v)).ctrlAct n.val (s.gl (Obj.LANE_CTRL n.val)) v).report p (Obj.LANE_CTRL n.val) 0
    let old := s.nl (Obj.LANE_CTRL n.val)
    (v = w32 (setField old 0 1 1) → exec (.laneEnable p n) s = .next t) ∧
    (v = w32 (setField old 0 1 0) → exec (.laneDisable p n) s = .next t) ∧
    (∀ gen chk sel, v = w32 (setField old 6 4 (b2n chk + 2 * b2n gen + 4 * sel.toNat)) → exec (.lanePrbsSet p n gen chk sel) s = .next t) ∧
    (∀ code, v = w32 (setField old 10 3 code.toNat) → exec (.laneLoopbackSet p n code) s = .next t) ∧
    (v = w32 (setField old 5 1 1) → exec (.laneInjectErr p n) s = .next t) ∧
    (v = w32 (setField old 4 1 1) → exec (.retrainFull p n) s = .next t) ∧
    (v = w32 (setField old 3 1 1) → exec (.retrainFast p n) s = .next t) ∧
    (∀ tx rx, v = w32 (setField old 1 2 (b2n rx + 2 * b2n tx)) → exec (.lanePolaritySet p n tx rx) s = .next t)

/-- O5. CDR lock, equaliser, block lock and the training exchange move a lane in training on to its next state, from CDR_ACQ to EQ_ADAPT
(a fast retraining to BLOCK_ACQ), BLOCK_ACQ, TRAIN_EXCH and DATA; an Ethernet lane goes from BLOCK_ACQ to DATA. The timeouts start
the lane's training again. Loss of signal, of block lock, a high error rate and a TRAIN block retrain a lane in DATA with their
cause. A compensation block moves the elastic buffer, an unknown control block and PRBS bits are counted, and a lost reference holds
its lanes in CDR_ACQ. Each of these commands completes (exec answers a next state, which is written out): cdrLock, eqAdaptDone,
blockLock, laneEnterData, trainExchTimeout, fastRetrainTimeout, retrainBackoffExpire, losDetect, blockLockLoss, hiBer,
trainBlockReceive, ccBlockReceive, unknownControlBlock, srclkLoss, srclkRestore, prbsLock, prbsResync, prbsBitsLoRead,
loopBlockReceive. -/
def Obligations.LaneTrainingCommandsComplete : Prop :=
  (∀ s (n : Fin 38), (s.lane n.val).st = .cdrAcq → s.srcOk (srcOf n.val) = true → (s.lane n.val).waiting = false →
    exec (.cdrLock n) s = .next (s.setLane n.val { s.lane n.val with
      cdrLock := true, los := false, st := if (s.lane n.val).fast then .blockAcq else .eqAdapt })) ∧
  (∀ s (n : Fin 38), (s.lane n.val).st = .eqAdapt →
    exec (.eqAdaptDone n) s = .next (s.setLane n.val { s.lane n.val with eqValid := true, st := .blockAcq })) ∧
  (∀ s (n : Fin 38), (s.lane n.val).st = .blockAcq → exec (.blockLock n) s = .next (s.setLane n.val { s.lane n.val with
    blockLock := true, st := if n.val < 34 then .trainExch else .data })) ∧
  (∀ s (n : Fin 34), (s.lane n.val).st = .trainExch → exec (.laneEnterData n) s = .next (
    let s2 := (s.setLane n.val { s.lane n.val with
      st := .data, fails := 0, waiting := false, fill := 8, fast := false, los := false, since := s.nowC, left := none
      ccRun := 0, ccFrom := s.nowC * 100 }).laneLevels
    if n.val < 32 then s2.routeUp n.val (!(s.lane n.val).fast) else s2)) ∧
  (∀ s (n : Fin 34), (s.lane n.val).st = .trainExch →
    exec (.trainExchTimeout n) s = .next (s.setLane n.val { (s.lane n.val).again with lastCause := 7 })) ∧
  (∀ s (n : Fin 34), (s.lane n.val).fast = true → (s.lane n.val).training = true →
    exec (.fastRetrainTimeout n) s = .next (s.setLane n.val { (s.lane n.val).restart .cdrAcq false with eqValid := false })) ∧
  (∀ s (n : Fin 34), exec (.retrainBackoffExpire n) s = .next (s.setLane n.val { s.lane n.val with waiting := false })) ∧
  (∀ s (n : Fin 38) dur t, ((s.toC t).lane n.val).st ≠ .disabled → ((s.toC t).lane n.val).looping = false →
    exec (.losDetect n dur t) s = .next (
      let s0 := s.toC t
      ((s0.incIf (!(s0.lane n.val).los) (Obj.LOS_CNT n.val)).setLane n.val { s0.lane n.val with los := true }).retrain n.val 1 false)) ∧
  (∀ s (n : Fin 34) t, exec (.blockLockLoss n t) s = .next ((s.toC t).retrain n.val 2 true)) ∧
  (∀ s (n : Fin 34) t, exec (.hiBer n t) s = .next ((s.toC t).retrain n.val 3 true)) ∧
  (∀ s (n : Fin 34) fast run t, ((s.toC t).lane n.val).looping = false → exec (.trainBlockReceive n fast run t) s
    = .next (((s.toC t).setLane n.val { (s.toC t).lane n.val with peerFast := fast }).retrain n.val 4 fast)) ∧
  (∀ s (n : Fin 34) fill, s.inData n.val = true → exec (.ccBlockReceive n fill) s = .next (
    (s.incIf (decide (10 < fill) || decide (fill < 6)) (Obj.CC_SLIP_CNT n.val)).setLane n.val { s.lane n.val with
      fill := if 10 < fill then fill - 1 else if fill < 6 then fill + 1 else fill })) ∧
  (∀ s (n : Fin 34), (s.lane n.val).blockLock = true →
    exec (.unknownControlBlock n) s = .next (s.incL (Obj.BLOCK_ERR_CNT n.val))) ∧
  (∀ s (src : Fin 2) t, (s.toC t).srcOk src.val = true → exec (.srclkLoss src t) s = .next (
    let s0 := s.toC t
    let s1 := ((s0.setL Obj.SRCLK_STATUS (bset (s0.gl Obj.SRCLK_STATUS) src.val false)).incL Obj.SRCLK_LOSS_CNT).sdPllLock src.val false
    (s1.faultLevel 13 true).each (idxs 38 fun n => decide (srcOf n = src.val)) State.holdLane)) ∧
  (∀ s (src : Fin 2), exec (.srclkRestore src) s = .next (
    let s1 := (s.setL Obj.SRCLK_STATUS (bset (s.gl Obj.SRCLK_STATUS) src.val true)).sdPllLock src.val true
    (s1.faultLevel 13 (decide (s1.nl Obj.SRCLK_STATUS ≠ 3))).each (idxs 38 fun n => decide (srcOf n = src.val)) fun s n =>
      match testState (s.gl (Obj.LANE_CTRL n)) with
      | some st => if (s.lane n).st = .cdrAcq then s.setLane n { s.lane n with st := st, since := s.nowC } else s
      | none => s)) ∧
  (∀ s (n : Fin 38) w, s.checking n.val = true → prbsClean (s.prbsSel n.val) w = true →
    exec (.prbsLock n w) s = .next (s.setLane n.val { s.lane n.val with prbsLock := true, prbsDue := true })) ∧
  (∀ s (n : Fin 38) bits errs, (s.lane n.val).prbsLock = true → exec (.prbsResync n bits errs) s = .next (
    let s1 := (s.countBits n.val bits errs).incL (Obj.PRBS_RESYNC_CNT n.val)
    s1.setLane n.val { s1.lane n.val with prbsLock := false, prbsDue := false })) ∧
  (∀ s p (n : Fin 38) bits errs, (s.lane n.val).prbsLock = true →
    exec (.prbsBitsLoRead p n bits errs) s = .next (
      ((s.setLane n.val { s.lane n.val with prbsBits := ((s.lane n.val).prbsBits + bits) % 2 ^ 64, prbsDue := true }).setLN
        (Obj.PRBS_ERR n.val) (min 4294967295 (s.nl (Obj.PRBS_ERR n.val) + errs))).readPrbsLo p n.val)) ∧
  (∀ s run, s.na Obj.UPLINK_EN = 1 → (s.lane 31).blockLock = true → (s.lane 31).looping = false → 64 ≤ run →
    exec (.loopBlockReceive run) s = .next (s.laneTo 31 fun l => { l with st := .loopback, looping := true }))

/-- O6. On a lane of the manifest in DATA with no train open, a header with a good HCRC and a frame of the window that is not closed
opens its train and is reported, with COUNT_ERR where the slot count differs; a group of an open train with a good CRC is taken, one
with a bad CRC counted; the train's end closes its frame, and counts where its EOT is not valid; a frame whose last moment has come
closes. A long segment that the train's header announced, with a good CRC, is counted and goes to the ring or to discovery, and so
does a discovery reply whose header, CRC, tag and EOT are right. Each of these commands completes (exec answers a next state, which
is written out): uplinkTrainReceive, uplinkGroupReceive, uplinkTrainEnd, frameCloseTimeout, longSegmentReceive, discReplyReceive. -/
def Obligations.UplinkCommandsComplete : Prop :=
  (∀ s (n : Fin 32), s.frame.ticking = true → (s.route n.val).train = none → s.frame.count = (s.route n.val).nextClose + s.p →
    exec (.frameCloseTimeout n) s = .next (s.closeFrame n.val (s.route n.val).nextClose [])) ∧
  (∀ s (n : Fin 32) h j, s.inMan n.val = true → s.inData n.val = true → (s.route n.val).train = none → headerOk h 2 = true →
    (s.route n.val).lastSlot = none → j = s.ownFrame (extend32 (h.extractLsb' 16 32).toNat (s.pairFrame s.frame.count)) →
    s.frame.count < j + s.p → j ≤ s.frame.count →
    exec (.uplinkTrainReceive n h) s = .next (
      let s1 := s.setRoute n.val { s.route n.val with
        lastSlot := some j, recv := [], got := []
        train := some { frame := j, slot := (h.extractLsb' 16 32).toNat, count := (h.extractLsb' 72 10).toNat, fillCnt := (h.extractLsb' 82 10).toNat, long := h.getLsbD 59 } }
      let s2 := s1.headerReport n.val h (s.route n.val).lastSlot j
      if (h.extractLsb' 72 10).toNat = slotSum (s2.man n.val).entries then s2 else (s2.incL (Obj.COUNT_ERR_CNT n.val)).raise 15)) ∧
  (∀ s (n g : Fin 32) recs tr t, ((s.toC (t / 4)).route n.val).train = some tr →
    exec (.uplinkGroupReceive n g recs (crc32c (recs.flatMap fun w => leBytes 4 w.toNat)) t) s
      = .next ((s.toC (t / 4)).takeGroup n.val t tr (16 * g.val) ((recs.take 16).zipIdx.map fun x => (16 * g.val + x.2, x.1)))) ∧
  (∀ s (n g : Fin 32) recs tr t crc, ((s.toC (t / 4)).route n.val).train = some tr → crc32c (recs.flatMap fun w => leBytes 4 w.toNat) ≠ crc →
    exec (.uplinkGroupReceive n g recs crc t) s = .next (((s.toC (t / 4)).incL (Obj.UP_GROUP_ERR_CNT n.val)).laneCrc 14 n.val)) ∧
  (∀ s (n : Fin 32) tr eot, (s.route n.val).train = some tr → exec (.uplinkTrainEnd n eot) s
    = .next ((s.incIf (!eotOk eot 2 tr.count tr.long tr.slot) (Obj.EOT_ERR_CNT n.val)).endTrain n.val)) ∧
  (∀ s (n : Fin 32) tr w0 w1 w2 w3 t0 t3, (s.route n.val).train = some tr → tr.long = true → fld w0 31 24 = 1 →
    exec (.longSegmentReceive n w0 w1 w2 w3 (longCrc w0 w1 w2 w3) t0 t3) s
      = .next ((s.incL (Obj.LONG_RX_CNT n.val)).longRecord n.val w0 w1 w2 w3)) ∧
  (∀ s (n : Fin 32) tr w0 w1 w2 w3 t0 t3, (s.route n.val).train = some tr → tr.long = true → fld w0 31 24 = 2 →
    exec (.longSegmentReceive n w0 w1 w2 w3 (longCrc w0 w1 w2 w3) t0 t3) s
      = .next ((s.incL (Obj.LONG_RX_CNT n.val)).discReply n.val w0 w1 w2 w3 t0 t3)) ∧
  (∀ s (n : Fin 32) h w0 w1 w2 w3 eot t0 t3, s.inData n.val = true → headerOk h 4 = true → fld w0 31 24 = 2 →
    fld w0 23 8 = (h.extractLsb' 16 16).toNat → replyEotOk eot (h.extractLsb' 16 16).toNat = true →
    exec (.discReplyReceive n h w0 w1 w2 w3 (longCrc w0 w1 w2 w3) eot t0 t3) s = .next (s.discReply n.val w0 w1 w2 w3 t0 t3))

/-- O7. A discovery timeout, the automatic verification of a missing unit and the three codes of DISC_CTRL start, continue or abort a
walk. As a grouped unit the device is timed by a caravan of its T_F, the first one of which makes it tick, and answers ASSIGN_UNIT
with an echo after taking the address, the slots and the delay. Each of these commands completes (exec answers a next state, which is
written out): discTimeout, autoVerifyTrigger, discRediscover, discVerify, discAbort, upstreamCaravanReceive, upstreamDiscReqReceive. -/
def Obligations.DiscoveryCommandsComplete : Prop :=
  (∀ s (n : Fin 32) tag, exec (.discTimeout n tag) s = .next (s.discTimeout n.val tag)) ∧
  (∀ s (n : Fin 32) i e, (s.man n.val).entries[i]? = some e → s.ga Obj.AUTO_VERIFY = 1 → s.reachable n.val = true →
    (s.route n.val).walk = none → s.unitMissing n.val (entPath e) = true →
    ((s.route n.val).holdOff.any fun h => decide (h.path = entPath e) && decide (s.frame.count < h.frame + 1024)) = false →
    exec (.autoVerifyTrigger n i) s = .next (s.startWalk n.val (.subtree (entPath e)))) ∧
  (∀ s p (n : Fin 32), s.takes (Obj.DISC_CTRL n.val) 1 → s.inMan n.val = true → s.inData n.val = true →
    s.mode = .charge ∨ s.mode = .ready ∨ s.mode = .test ∨ s.mode = .safe →
    exec (.discRediscover p n) s = .next ((s.startWalk n.val .discovering).report p (Obj.DISC_CTRL n.val) 0)) ∧
  (∀ s p (n : Fin 32), s.takes (Obj.DISC_CTRL n.val) 2 → s.inMan n.val = true → s.inData n.val = true →
    exec (.discVerify p n) s = .next ((s.startWalk n.val .verifying).report p (Obj.DISC_CTRL n.val) 0)) ∧
  (∀ s p (n : Fin 32) w, s.takes (Obj.DISC_CTRL n.val) 3 → (s.route n.val).walk = some w →
    exec (.discAbort p n) s = .next (((((s.discResult n.val 9 0).dropWalk n.val).setRouteSt n.val .mismatch).bootAdvance).report p (Obj.DISC_CTRL n.val) 0)) ∧
  (∀ s s0 h groups eot t, s0 = s.toC (t / 4) → s0.upstream = true → s0.frame.ticking = true → headerOk h 1 = true →
    s0.routes.upSeen = [] → eotOk eot 1 (slotsReceived groups).length false (h.extractLsb' 16 32).toNat = true →
    10 * (h.extractLsb' 90 12).toNat = s0.tf →
    ∃ u, exec (.upstreamCaravanReceive h groups eot t) s = .next u ∧ u.routes.upTicking = true ∧
      u.routes.upP = (h.extractLsb' 102 5).toNat ∧ u.routes.upTf10 = (h.extractLsb' 90 12).toNat ∧
      u.routes.upSeen = [(h.extractLsb' 16 32).toNat] ∧ u.routes.upLast = some s0.frame.count) ∧
  (∀ s h turn, s.upstream = true → headerOk h 3 = true → h.extractLsb' 44 2 = 0 → (h.extractLsb' 48 8).toNat = 3 →
    (h.extractLsb' 64 56).toNat % 512 + (h.extractLsb' 64 56).toNat / 512 % 1024 ≤ 512 →
    exec (.upstreamDiscReqReceive h turn) s = .next (({ s with
        routes := { s.routes with
          upAssigned := true, ownAddr := (h.extractLsb' 64 56).toNat % 512, ownSlots := (h.extractLsb' 64 56).toNat / 512 % 1024, ownDelay := (h.extractLsb' 64 56).toNat / 524288 % 2097152 } } : State).sendReply
        (h.extractLsb' 16 16).toNat [replyW0 h 0, w32 (h.extractLsb' 64 56).toNat, 0, 0]))

/-- O8. Outside BOOT, TEST, SAFE and MIRROR and the role STANDBY, COURIER_REQ queues its courier on the named lanes in DATA, counts it
and answers 5, or its end at once where no lane is left; the first courier of a lane in DATA leaves and HOLD follows its kind;
BEACON_SEND originates the event at the present time; the first beacon of a port that is up leaves and is counted; a beacon with a
bad BCRC is counted and dropped, and so is a duplicate; a new beacon of another source is taken; an enabled TRIG_IN edge that is not
early originates its event at the compensated time; the pulse of TRIG_OUT starts and ends at its time. Each of these commands
completes (exec answers a next state, which is written out): courierReqHold, courierReqReleaseHold, courierSend, beaconSend,
beaconTransmit, beaconReceive, trigInEdge, trigOutStart, trigOutEnd. -/
def Obligations.CourierAndBeaconCommandsComplete : Prop :=
  (∀ s p l, s.takes Obj.COURIER_REQ 2 → s.mode ≠ .boot → s.mode ≠ .test → s.mode ≠ .safe → s.mode ≠ .mirror → s.pair.role ≠ .standby →
    (idxs 32 fun n => nbit (s.nl Obj.COURIER_LANES) n && s.inData n) = l →
    exec (.courierReqHold p) s = .next (
      let c : Courier := { kind := .hold, wtOrigin := false, epoch := s.pair.epoch, blkSlot := 0, holdLimit := BitVec.ofNat 8 (s.na Obj.CELL_HOLD_LIMIT), fromReq := true, edge := none }
      let t := ((s.forgetReq.each l fun s n => s.queueCourier c n).incL Obj.HOLD_COURIER_CNT).setLN Obj.COURIER_REQ_RESULT 5
      ({ t with launch := { t.launch with reqLanes := BitVec.ofNat 32 ((l.map fun n => 2 ^ n).sum), reqLeft := false } } : State).courierEnd.report
        p Obj.COURIER_REQ 0)) ∧
  (∀ s p l, s.takes Obj.COURIER_REQ 3 → s.mode ≠ .boot → s.mode ≠ .test → s.mode ≠ .safe → s.mode ≠ .mirror → s.pair.role ≠ .standby →
    (idxs 32 fun n => nbit (s.nl Obj.COURIER_LANES) n && s.inData n) = l →
    exec (.courierReqReleaseHold p) s = .next (
      let c : Courier := { kind := .releaseHold, wtOrigin := false, epoch := s.pair.epoch, blkSlot := 0, holdLimit := BitVec.ofNat 8 (s.na Obj.CELL_HOLD_LIMIT), fromReq := true, edge := none }
      let t := ((s.forgetReq.each l fun s n => s.queueCourier c n).incL Obj.RELEASE_COURIER_CNT).setLN Obj.COURIER_REQ_RESULT 5
      ({ t with launch := { t.launch with reqLanes := BitVec.ofNat 32 ((l.map fun n => 2 ^ n).sum), reqLeft := false } } : State).courierEnd.report
        p Obj.COURIER_REQ 0)) ∧
  (∀ s n dep c rest, vget [] s.launch.queue n = c :: rest → s.inData n = true → c.fromReq = false → c.edge = none →
    exec (.courierSend n dep) s = .next (
      let s0 := s.toC (dep / 4)
      let s1 : State := { s0 with
          launch := { s0.launch with
            queue := vset s0.launch.queue n rest, lastCourier := vset s0.launch.lastCourier n (some c.payload) } }
      (s1.blockOut n (dep / 4)).holdFlag n c.kind)) ∧
  (∀ s p v, s.takes Obj.BEACON_SEND v →
    exec (.beaconSend p v) s = .next ((s.originate v.toNat s.nowCQ).report p Obj.BEACON_SEND 0)) ∧
  (∀ s port t b rest, vget [] s.launch.beacons port = b :: rest → s.beaconPortUp port = true → s.laneBusy (portLane port) (t / 4) = false →
    vget [] s.launch.queue (portLane port) = [] → exec (.beaconTransmit port t) s = .next (
      let s0 := (s.toC (t / 4)).blockOut (portLane port) (t / 4)
      ({ s0 with
          launch := { s0.launch with
            beacons := vset s0.launch.beacons port rest, lastBeacon := vset s0.launch.lastBeacon port (some b.payload) } }).incL
          Obj.BEACON_TX_CNT)) ∧
  (∀ s port x, s.beaconPortUp port = true → x.extractLsb' 0 8 = 0x99 → crc8 (leBytes 7 x.toNat) = x.extractLsb' 56 8 → (beaconOf x).source ≠ 127 →
    (s.launch.dup.any (Beacon.same (beaconOf x))) = false → (beaconOf x).source ≠ BitVec.ofNat 7 ((s.incL Obj.BEACON_RX_CNT).na Obj.BEACON_SRC_ID) →
    exec (.beaconReceive port x) s = .next (State.takeBeacon { s.incL Obj.BEACON_RX_CNT with launch := { s.launch with dup := (beaconOf x :: s.launch.dup).take 16 } } port (beaconOf x))) ∧
  (∀ s port x, s.beaconPortUp port = true → x.extractLsb' 0 8 = 0x99 → crc8 (leBytes 7 x.toNat) ≠ x.extractLsb' 56 8 →
    exec (.beaconReceive port x) s = .next (s.incL Obj.BEACON_CRC_ERR_CNT)) ∧
  (∀ s rising stamp, nbit (s.na Obj.TRIG_IN_CFG) 0 = true → nbit (s.na Obj.TRIG_IN_CFG) 1 = !rising → s.launch.trigInLast = none →
    exec (.trigInEdge rising stamp) s = .next (
      let s0 := s.toC stamp
      let s1 : State := { s0 with launch := { s0.launch with trigInLast := some stamp } }
      (s1.incL Obj.TRIG_IN_CNT).originate (s1.na Obj.TRIG_IN_EVENT)
        (4 * (stamp - s1.na Obj.TRIG_IN_FILTER_NS - s1.na Obj.TRIG_IN_COMP_NS)))) ∧
  (∀ s a, s.launch.acts = [a] → a.pulse = true → a.trigLate = true → s.launch.trigOut = none →
    exec (.trigOutStart a.event.toNat) s = .next (({ s with launch := { s.launch with acts := liveActs [{ a with pulse := false }], trigOut := some (s.nowC + s.na Obj.TRIG_OUT_WIDTH_NS) } }.incL Obj.TRIG_OUT_CNT).incL Obj.TRIG_OUT_LATE_CNT)) ∧
  (∀ s t, s.launch.trigOut = some t → exec .trigOutEnd s = .next { s.toC t with launch := { s.launch with trigOut := none } })

/-- O9. On an enabled entry named by HEALTH_CMD_INDEX, in a mode that permits it: RETIRE moves the entry to RETIRED with cause 10, once;
RESTORE of an entry whose lockout bit is clear reinitialises it with cause 11; MARK_SUSPECT moves an UNKNOWN or GOOD entry to SUSPECT
with cause 12 and no clean run; each answers result 1. CFG_WORD stages the word at CFG_INDEX, which advances. A read of W0 captures
the entry and returns W0. Each of these commands completes (exec answers a next state, which is written out): healthRetire,
healthRestore, healthSuspect, cfgWord, ledgerW0Read. -/
def Obligations.LedgerCommandsComplete : Prop :=
  (∀ s p, s.takes Obj.HEALTH_CMD 1 → s.nl Obj.HEALTH_CMD_INDEX ≤ 12287 → (s.entry (s.nl Obj.HEALTH_CMD_INDEX)).enabled = true →
    s.mode ≠ .boot → (s.entry (s.nl Obj.HEALTH_CMD_INDEX)).health ≠ 3 → exec (.healthRetire p) s
    = .next (((s.goHealth (s.nl Obj.HEALTH_CMD_INDEX) 3 10).setLN Obj.HEALTH_CMD_RESULT 1).report p Obj.HEALTH_CMD 0)) ∧
  (∀ s p, s.takes Obj.HEALTH_CMD 2 → s.nl Obj.HEALTH_CMD_INDEX ≤ 12287 → (s.entry (s.nl Obj.HEALTH_CMD_INDEX)).enabled = true →
    s.mode = .charge ∨ s.mode = .ready ∨ s.mode = .test ∨ s.mode = .safe → (s.entry (s.nl Obj.HEALTH_CMD_INDEX)).status 14 = false →
    exec (.healthRestore p) s = .next (((s.reinitEntry (s.nl Obj.HEALTH_CMD_INDEX) (s.entry (s.nl Obj.HEALTH_CMD_INDEX)) 11).setLN
      Obj.HEALTH_CMD_RESULT 1).report p Obj.HEALTH_CMD 0)) ∧
  (∀ s p, s.takes Obj.HEALTH_CMD 3 → s.nl Obj.HEALTH_CMD_INDEX ≤ 12287 → (s.entry (s.nl Obj.HEALTH_CMD_INDEX)).enabled = true →
    s.mode ≠ .boot → (s.entry (s.nl Obj.HEALTH_CMD_INDEX)).health = 0 ∨ (s.entry (s.nl Obj.HEALTH_CMD_INDEX)).health = 1 →
    exec (.healthSuspect p) s = .next ((((s.setEntry (s.nl Obj.HEALTH_CMD_INDEX)
      ((s.entry (s.nl Obj.HEALTH_CMD_INDEX)).withHealth 2 0 12)).healthEvent (s.nl Obj.HEALTH_CMD_INDEX) true).setLN
        Obj.HEALTH_CMD_RESULT 1).report p Obj.HEALTH_CMD 0)) ∧
  (∀ s p v, s.takes Obj.CFG_WORD v → exec (.cfgWord p v) s = .next ((({ s with
      ledger := { s.ledger with
        staged := tput (fun _ => 0) s.ledger.staged (s.nl Obj.CFG_INDEX) v } }).setLN Obj.CFG_INDEX
        ((s.nl Obj.CFG_INDEX + 1) % 12288)).report p Obj.CFG_WORD 0)) ∧
  (∀ s i, i ≤ 12287 → exec (.ledgerW0Read i) s = .next { s with
    ledger := { s.ledger with capture := some (i, s.entry i) }, dict := { s.dict with hostData := (s.entry i).w0 } })

/-- O10. A pending set that passes the checks of R202 is stored with its control word and becomes the armed set, or with DEFER the
deferred one with result 8; a write of code 0 clears the armed set; FORCE_COMMIT_ALL arms every deferred set; a level of a mask input
outside BOOT is accepted as active or not by its polarity, with the mask's start and end and the EVENT of the first arm that accepts
it; MASK_CLEAR clears a latch whose input is inactive. Each of these commands completes (exec answers a next state, which is written
out): forceArm, forceDefer, forceClear, forceCommitAll, maskClear, gpioLevelAccept. -/
def Obligations.ArmCommandsComplete : Prop :=
  (∀ s p a v, s.takes (Obj.FORCE_CTRL a) (v &&& 0x7F) → s.checkForce a (s.pendingForce a (fld (v &&& 0x7F) 2 0)) = 1 →
    exec (.forceArm p a v) s = .next (((s.setL (Obj.FORCE_CTRL a) (v &&& 0x7F &&& 0x87)).armForce a
      (s.pendingForce a (fld (v &&& 0x7F) 2 0))).report p (Obj.FORCE_CTRL a) 0)) ∧
  (∀ s p a v, s.takes (Obj.FORCE_CTRL a) (v &&& 0x7F ||| 0x80) → s.checkForce a (s.pendingForce a (fld (v &&& 0x7F ||| 0x80) 2 0)) = 1 →
    exec (.forceDefer p a v) s = .next ((((s.setL (Obj.FORCE_CTRL a) ((v &&& 0x7F ||| 0x80) &&& 0x87)).setArm a
      { s.arm a with deferred := some (s.pendingForce a (fld (v &&& 0x7F ||| 0x80) 2 0)) }).setLN (Obj.FORCE_RESULT a) 8).report p
        (Obj.FORCE_CTRL a) 0)) ∧
  (∀ s p a, s.takes (Obj.FORCE_CTRL a) 0 → s.checkForce a (s.pendingForce a 0) = 1 →
    exec (.forceClear p a) s = .next ((((s.setL (Obj.FORCE_CTRL a) 0).setArm a { s.arm a with armed := none, armedFresh := false }).setLN
      (Obj.FORCE_RESULT a) 1).report p (Obj.FORCE_CTRL a) 0)) ∧
  (∀ s p a f, s.takes (Obj.FORCE_COMMIT_ALL a) 1 → (s.arm 0).deferred = some f → (∀ b, 1 ≤ b → b < 12 → (s.arm b).deferred = none) →
    exec (.forceCommitAll p a) s = .next (((s.setArm 0 { s.arm 0 with deferred := none }).armForce 0 f).report p (Obj.FORCE_COMMIT_ALL a) 0)) ∧
  (∀ s a g high active te, s.mode ≠ .boot → nbit (s.na (Obj.MASK_SRC a)) g = true → active = (high != nbit (s.na (Obj.MASK_POL a)) g) →
    exec (.gpioLevelAccept a g high te) s = .next (
    let s0 := s.toC te
    let s1 := s0.setArm a { s0.arm a with gpio := bset (s0.arm a).gpio g active }
    let s2 := if !s0.maskInput a && s1.maskInput a then s1.maskActivate a te
      else if s0.maskInput a && !s1.maskInput a then s1.maskRelease a else s1
    if active && !((List.range 12).any fun b => nbit (s0.arm b).gpio.toNat g) then s2.event (0x45 + g) else s2)) ∧
  (∀ s p a, s.takes (Obj.MASK_CLEAR a) 1 → s.na (Obj.MASK_MODE a) = 2 → s.maskInput a = false →
    exec (.maskClear p a) s = .next ((s.setArm a { s.arm a with latch := false, mask := false }).report p (Obj.MASK_CLEAR a) 0))

/-- O11. On an engine that can issue, with its unused fields 0 and moves that fault nowhere: NOP, the multiplications and accumulations,
the quad forms, the accumulator instructions and CMP do to the registers what the table says, with their two moves, and retire. Each
of these commands completes (exec answers a next state, which is written out): nop, mpy, mac, msu, mpy4, mac4, msu4, clr, adda, suba,
asla, asra, ldacc, nega, absa, clr4, cmp. -/
def Obligations.AccumulatorInstructionsComplete : Prop :=
  ∀ (s : State) (e st : Nat) (w : BitVec 64) (x : PWord) (s1 : State), PWord.of w = x → s.canIssue e = true → s.issue e st w = s1 →
    movesFault (s1.eng e).r (moveOf x.mx) (moveOf x.my) none = 0 →
    (opOf w = 0x00 → x.f1 = 0 → x.f2 = 0 → x.f3 = 0 → x.f4 = 0 →
      exec (.nop e st w) s = .next (s1.withMoves e x fun r => r)) ∧
    (opOf w = 0x01 → x.f1 = 0 → x.f4.toNat < 4 →
      exec (.mpy e st w) s = .next (s1.withMoves e x fun r => r.setAcc x.f4.toNat (product r.flg (r.rd x.f2) (r.rd x.f3)))) ∧
    (opOf w = 0x02 → x.f1 = 0 → x.f4.toNat < 4 →
      exec (.mac e st w) s = .next (s1.withMoves e x fun r => r.setAcc x.f4.toNat (r.accI x.f4.toNat + product r.flg (r.rd x.f2) (r.rd x.f3)))) ∧
    (opOf w = 0x03 → x.f1 = 0 → x.f4.toNat < 4 →
      exec (.msu e st w) s = .next (s1.withMoves e x fun r => r.setAcc x.f4.toNat (r.accI x.f4.toNat - product r.flg (r.rd x.f2) (r.rd x.f3)))) ∧
    (opOf w = 0x04 → x.f1 = 0 → x.f4 = 0 → x.f3.toNat % 4 = 0 →
      exec (.mpy4 e st w) s = .next (s1.withMoves e x fun r => r.setQuad fun i => product r.flg (r.rd x.f2) (vget 0 r.d (x.f3.toNat + i)))) ∧
    (opOf w = 0x05 → x.f1 = 0 → x.f4 = 0 → x.f3.toNat % 4 = 0 →
      exec (.mac4 e st w) s = .next (s1.withMoves e x fun r => r.setQuad fun i => r.accI i + product r.flg (r.rd x.f2) (vget 0 r.d (x.f3.toNat + i)))) ∧
    (opOf w = 0x06 → x.f1 = 0 → x.f4 = 0 → x.f3.toNat % 4 = 0 →
      exec (.msu4 e st w) s = .next (s1.withMoves e x fun r => r.setQuad fun i => r.accI i - product r.flg (r.rd x.f2) (vget 0 r.d (x.f3.toNat + i)))) ∧
    (opOf w = 0x08 → x.f1 = 0 → x.f2 = 0 → x.f3 = 0 → x.f4.toNat < 4 →
      exec (.clr e st w) s = .next (s1.withMoves e x fun r => r.setAcc x.f4.toNat 0)) ∧
    (opOf w = 0x09 → x.f1 = 0 → x.f2 = 0 → x.f4.toNat < 4 → x.f3.toNat < 4 →
      exec (.adda e st w) s = .next (s1.withMoves e x fun r => r.setAcc x.f4.toNat (r.accI x.f4.toNat + r.accI x.f3.toNat))) ∧
    (opOf w = 0x0A → x.f1 = 0 → x.f2 = 0 → x.f4.toNat < 4 → x.f3.toNat < 4 →
      exec (.suba e st w) s = .next (s1.withMoves e x fun r => r.setAcc x.f4.toNat (r.accI x.f4.toNat - r.accI x.f3.toNat))) ∧
    (opOf w = 0x0B → x.f1 = 0 → x.f3 = 0 → x.f4.toNat < 4 →
      exec (.asla e st w) s = .next (s1.withMoves e x fun r => r.setAcc x.f4.toNat (r.accI x.f4.toNat * 2 ^ x.f2.toNat))) ∧
    (opOf w = 0x0C → x.f1 = 0 → x.f3 = 0 → x.f4.toNat < 4 →
      exec (.asra e st w) s = .next (s1.withMoves e x fun r => r.setAcc x.f4.toNat (floorDiv (r.accI x.f4.toNat) (2 ^ x.f2.toNat)))) ∧
    (opOf w = 0x0D → x.f1 = 0 → x.f3 = 0 → x.f4.toNat < 4 →
      exec (.ldacc e st w) s = .next (s1.withMoves e x fun r => r.setAcc x.f4.toNat (accLoad r.flg (r.rd x.f2)))) ∧
    (opOf w = 0x0F → x.f1 = 0 → x.f2 = 0 → x.f3 = 0 → x.f4.toNat < 4 →
      exec (.nega e st w) s = .next (s1.withMoves e x fun r => r.setAcc x.f4.toNat (-(r.accI x.f4.toNat)))) ∧
    (opOf w = 0x10 → x.f1 = 0 → x.f2 = 0 → x.f3 = 0 → x.f4.toNat < 4 →
      exec (.absa e st w) s = .next (s1.withMoves e x fun r => r.setAcc x.f4.toNat ((r.accI x.f4.toNat).natAbs : Int))) ∧
    (opOf w = 0x11 → x.f1 = 0 → x.f2 = 0 → x.f3 = 0 → x.f4 = 0 →
      exec (.clr4 e st w) s = .next (s1.withMoves e x fun r => { r with acc := Vector.replicate 4 0 })) ∧
    (opOf w = 0x1F → x.f1 = 0 → x.f4 = 0 →
      exec (.cmp e st w) s = .next (s1.withMoves e x fun r => { r with flg := opCmp r.flg (r.rd x.f2) (r.rd x.f3) }))

/-- O12. On an engine that can issue, with its unused fields 0 and moves that fault nowhere and write another register: the moves, sums,
differences, extrema, bit operations, RND, NORM, MPYD and CLAMP write D(F1) and the flags as the table says, with their two moves,
and retire. Each of these commands completes (exec answers a next state, which is written out): rnd, mov, add, sub, neg, min, max,
and, or, xor, not, norm, mpyd, clamp. -/
def Obligations.DataInstructionsComplete : Prop :=
  ∀ (s : State) (e st : Nat) (w : BitVec 64) (x : PWord) (s1 : State), PWord.of w = x → s.canIssue e = true → s.issue e st w = s1 →
    movesFault (s1.eng e).r (moveOf x.mx) (moveOf x.my) (some x.f1.toNat) = 0 →
    (opOf w = 0x0E → x.f2 = 0 → x.f3 = 0 → x.f4.toNat < 4 →
      exec (.rnd e st w) s = .next (s1.withMoves e x fun r => r.setConv x.f1 (r.accI x.f4.toNat))) ∧
    (opOf w = 0x18 → x.f3 = 0 → x.f4 = 0 →
      exec (.mov e st w) s = .next (s1.withMoves e x fun r => r.setRes x.f1 (opMov r.flg (r.rd x.f2)))) ∧
    (opOf w = 0x19 → x.f4 = 0 →
      exec (.add e st w) s = .next (s1.withMoves e x fun r => r.setRes x.f1 (opAdd r.flg (r.rd x.f2) (r.rd x.f3)))) ∧
    (opOf w = 0x1A → x.f4 = 0 →
      exec (.sub e st w) s = .next (s1.withMoves e x fun r => r.setRes x.f1 (opSub r.flg (r.rd x.f2) (r.rd x.f3)))) ∧
    (opOf w = 0x1B → x.f3 = 0 → x.f4 = 0 →
      exec (.neg e st w) s = .next (s1.withMoves e x fun r => r.setRes x.f1 (opNeg r.flg (r.rd x.f2)))) ∧
    (opOf w = 0x1D → x.f4 = 0 →
      exec (.min e st w) s = .next (s1.withMoves e x fun r => r.setRes x.f1 (opZN r.flg (if (r.rd x.f2).toInt ≤ (r.rd x.f3).toInt then (r.rd x.f2) else (r.rd x.f3))))) ∧
    (opOf w = 0x1E → x.f4 = 0 →
      exec (.max e st w) s = .next (s1.withMoves e x fun r => r.setRes x.f1 (opZN r.flg (if (r.rd x.f2).toInt ≤ (r.rd x.f3).toInt then (r.rd x.f3) else (r.rd x.f2))))) ∧
    (opOf w = 0x20 → x.f4 = 0 →
      exec (.and e st w) s = .next (s1.withMoves e x fun r => r.setRes x.f1 (opBits r.flg ((r.rd x.f2) &&& (r.rd x.f3))))) ∧
    (opOf w = 0x21 → x.f4 = 0 →
      exec (.or e st w) s = .next (s1.withMoves e x fun r => r.setRes x.f1 (opBits r.flg ((r.rd x.f2) ||| (r.rd x.f3))))) ∧
    (opOf w = 0x22 → x.f4 = 0 →
      exec (.xor e st w) s = .next (s1.withMoves e x fun r => r.setRes x.f1 (opBits r.flg ((r.rd x.f2) ^^^ (r.rd x.f3))))) ∧
    (opOf w = 0x23 → x.f3 = 0 → x.f4 = 0 →
      exec (.not e st w) s = .next (s1.withMoves e x fun r => r.setRes x.f1 (opBits r.flg (~~~(r.rd x.f2))))) ∧
    (opOf w = 0x28 → x.f3 = 0 → x.f4 = 0 →
      exec (.norm e st w) s = .next (s1.withMoves e x fun r => r.setRes x.f1 (opZN r.flg (w32 (redundant (r.rd x.f2)))))) ∧
    (opOf w = 0x29 → x.f4 = 0 →
      exec (.mpyd e st w) s = .next (s1.withMoves e x fun r => r.setConv x.f1 (product r.flg (r.rd x.f2) (r.rd x.f3)))) ∧
    (opOf w = 0x2A → x.f4 = 0 →
      exec (.clamp e st w) s = .next (s1.withMoves e x fun r => r.setRes x.f1 (opClamp r.flg (r.rd x.f2) (r.rd x.f3))))

/-- O13. ABS and the four shifts draw one free bit (log entry 3) for the flag that the rules leave open in a corner, write D(F1) and the
flags as the table says, with their two moves, and retire. Each of these commands completes (exec answers a next state, which is
written out): abs, asli, asri, lsri, ashv. -/
def Obligations.ShiftInstructionsComplete : Prop :=
  ∀ (s : State) (e st : Nat) (w : BitVec 64) (x : PWord) (b : Word) (s0 s1 : State), PWord.of w = x → s.draw = (b, s0) → s0.canIssue e = true → s0.issue e st w = s1 →
    movesFault (s1.eng e).r (moveOf x.mx) (moveOf x.my) (some x.f1.toNat) = 0 →
    (opOf w = 0x1C → x.f3 = 0 → x.f4 = 0 →
      exec (.abs e st w) s = .next (s1.withMoves e x fun r => r.setRes x.f1 (opAbs r.flg (r.rd x.f2) (b.getLsbD 0)))) ∧
    (opOf w = 0x24 → x.f4.toNat % 4 = 0 →
      exec (.asli e st w) s = .next (s1.withMoves e x fun r => r.setRes x.f1 (opShl r.flg (r.rd x.f2) (shiftOf x) (b.getLsbD 0)))) ∧
    (opOf w = 0x25 → x.f4.toNat % 4 = 0 →
      exec (.asri e st w) s = .next (s1.withMoves e x fun r => r.setRes x.f1 (opAsr r.flg (r.rd x.f2) (shiftOf x) (b.getLsbD 0)))) ∧
    (opOf w = 0x26 → x.f4.toNat % 4 = 0 →
      exec (.lsri e st w) s = .next (s1.withMoves e x fun r => r.setRes x.f1 (opLsr r.flg (r.rd x.f2) (shiftOf x) (b.getLsbD 0)))) ∧
    (opOf w = 0x27 → x.f4 = 0 →
      exec (.ashv e st w) s = .next (s1.withMoves e x fun r => r.setRes x.f1 (opShv r.flg (r.rd x.f2) (r.rd x.f3) (b.getLsbD 0))))

/-- O14. On an engine that can issue, with their unused fields 0 and the register file numbers that the table lists, LDI and the
immediate operations, the loads of the address files, TFR, SETF and CLRF do to the registers what the table says and retire. Each of
these commands completes (exec answers a next state, which is written out): ldi, addi, andi, ori, xori, cmpi, ldai, ldmi, ldbi, ldli,
addai, tfr, setf, clrf. -/
def Obligations.ImmediateInstructionsComplete : Prop :=
  ∀ (s : State) (e st : Nat) (w : BitVec 64) (x : IWord) (s1 : State), IWord.of w = x → s.canIssue e = true → s.issue e st w = s1 →
    (opOf w = 0x101 → x.rb = 0 → x.fa = 0 → x.fb = 0 → x.un = 0 →
      exec (.ldi e st w) s = .next (s1.finish e ({ (s1.eng e).r with d := vset (s1.eng e).r.d x.ra.toNat x.imm }))) ∧
    (opOf w = 0x102 → x.rb = 0 → x.fa = 0 → x.fb = 0 → x.un = 0 →
      exec (.addi e st w) s = .next (s1.finish e ((s1.eng e).r.setRes x.ra (opAdd (s1.eng e).r.flg ((s1.eng e).r.rd x.ra) x.imm)))) ∧
    (opOf w = 0x103 → x.rb = 0 → x.fa = 0 → x.fb = 0 → x.un = 0 →
      exec (.andi e st w) s = .next (s1.finish e ((s1.eng e).r.setRes x.ra (opZN (s1.eng e).r.flg (((s1.eng e).r.rd x.ra) &&& x.imm))))) ∧
    (opOf w = 0x104 → x.rb = 0 → x.fa = 0 → x.fb = 0 → x.un = 0 →
      exec (.ori e st w) s = .next (s1.finish e ((s1.eng e).r.setRes x.ra (opZN (s1.eng e).r.flg (((s1.eng e).r.rd x.ra) ||| x.imm))))) ∧
    (opOf w = 0x105 → x.rb = 0 → x.fa = 0 → x.fb = 0 → x.un = 0 →
      exec (.xori e st w) s = .next (s1.finish e ((s1.eng e).r.setRes x.ra (opZN (s1.eng e).r.flg (((s1.eng e).r.rd x.ra) ^^^ x.imm))))) ∧
    (opOf w = 0x106 → x.rb = 0 → x.fa = 0 → x.fb = 0 → x.un = 0 →
      exec (.cmpi e st w) s = .next (s1.finish e ({ (s1.eng e).r with flg := opCmp (s1.eng e).r.flg ((s1.eng e).r.rd x.ra) x.imm }))) ∧
    (opOf w = 0x108 → x.rb = 0 → x.fa = 0 → x.fb = 0 → x.un = 0 → x.ra.toNat < 8 →
      exec (.ldai e st w) s = .next (s1.finish e ((s1.eng e).r.writeFile 1 x.ra x.imm))) ∧
    (opOf w = 0x109 → x.rb = 0 → x.fa = 0 → x.fb = 0 → x.un = 0 → x.ra.toNat < 8 →
      exec (.ldmi e st w) s = .next (s1.finish e ((s1.eng e).r.writeFile 2 x.ra x.imm))) ∧
    (opOf w = 0x10A → x.rb = 0 → x.fa = 0 → x.fb = 0 → x.un = 0 → x.ra.toNat < 8 →
      exec (.ldbi e st w) s = .next (s1.finish e ((s1.eng e).r.writeFile 3 x.ra x.imm))) ∧
    (opOf w = 0x10B → x.rb = 0 → x.fa = 0 → x.fb = 0 → x.un = 0 → x.ra.toNat < 8 →
      exec (.ldli e st w) s = .next (s1.finish e ((s1.eng e).r.writeFile 4 x.ra x.imm))) ∧
    (opOf w = 0x10C → x.rb = 0 → x.fa = 0 → x.fb = 0 → x.un = 0 → x.ra.toNat < 8 →
      exec (.addai e st w) s = .next (s1.finish e ((s1.eng e).r.writeFile 1 x.ra ((s1.eng e).r.readFile 1 x.ra + x.imm)))) ∧
    (opOf w = 0x110 → x.un = 0 → x.imm = 0 → fileOk x.fa x.ra = true → fileOk x.fb x.rb = true →
      exec (.tfr e st w) s = .next (s1.finish e ((s1.eng e).r.writeFile x.fa x.ra ((s1.eng e).r.readFile x.fb x.rb)))) ∧
    (opOf w = 0x112 → x.ra = 0 → x.rb = 0 → x.fa = 0 → x.fb = 0 → x.un = 0 →
      exec (.setf e st w) s = .next (s1.finish e ({ (s1.eng e).r with flg := ((s1.eng e).r.flg ||| x.imm) &&& flgBits }))) ∧
    (opOf w = 0x113 → x.ra = 0 → x.rb = 0 → x.fa = 0 → x.fb = 0 → x.un = 0 →
      exec (.clrf e st w) s = .next (s1.finish e ({ (s1.eng e).r with flg := (s1.eng e).r.flg &&& ~~~x.imm })))

/-- O15. On an engine that can issue, not on the last instruction of a hardware loop and with its unused fields 0: a branch or call whose
condition holds jumps, one whose condition fails falls through, a return pops its address, a loop with a count pushes its record and
one without jumps behind its end; DONE keeps the sticky flags that the mask selects and ends the task; SYNC drains the posted stores,
TRAP takes the exception of cause 11 with its number, BKPT stops the engine where JTAG is allowed. A parity error of the register
files takes the exception of cause 12. Each of these commands completes (exec answers a next state, which is written out): bra, call,
ret, loop, loopd, done, sync, trap, bkpt, regfileParityError. -/
def Obligations.ControlInstructionsComplete : Prop :=
  (∀ (s : State) (e st : Nat) (w : BitVec 64) (x : CWord) (s1 : State), CWord.of w = x → s.canIssue e = true → s.issue e st w = s1 →
    (s1.eng e).r.atEnd = false → x.un = 0 →
    let r := (s1.eng e).r
    (opOf w = 0x201 → x.dr = 0 → x.cnt = 0 → condHolds r.flg x.cond = true →
      exec (.bra e st w) s = .next (s1.jump e { r with loops := popLoops x.target.toNat r.loops } x.target)) ∧
    (opOf w = 0x201 → x.dr = 0 → x.cnt = 0 → condHolds r.flg x.cond = false → exec (.bra e st w) s = .next (s1.fall e r)) ∧
    (opOf w = 0x202 → x.dr = 0 → x.cnt = 0 → condHolds r.flg x.cond = true → r.rets.length < 8 →
      exec (.call e st w) s = .next (s1.jump e { r with rets := (r.pc + 1) :: r.rets } x.target)) ∧
    (opOf w = 0x202 → x.dr = 0 → x.cnt = 0 → condHolds r.flg x.cond = false → exec (.call e st w) s = .next (s1.fall e r)) ∧
    (∀ t rest, opOf w = 0x203 → x.dr = 0 → x.cnt = 0 → x.target = 0 → condHolds r.flg x.cond = true → r.rets = t :: rest →
      exec (.ret e st w) s = .next (s1.jump e { r with rets := rest } t)) ∧
    (opOf w = 0x203 → x.dr = 0 → x.cnt = 0 → x.target = 0 → condHolds r.flg x.cond = false → exec (.ret e st w) s = .next (s1.fall e r)) ∧
    (opOf w = 0x204 → x.cond = 0 → x.dr = 0 → loopFault x.target x.cnt.toNat r = 0 →
      exec (.loop e st w) s = .next (s1.startLoop e r x.target x.cnt.toNat)) ∧
    (opOf w = 0x205 → x.cond = 0 → x.cnt = 0 → loopFault x.target ((r.rd x.dr).toNat % 65536) r = 0 →
      exec (.loopd e st w) s = .next (s1.startLoop e r x.target ((r.rd x.dr).toNat % 65536))) ∧
    (∀ t i, opOf w = 0x20C → x = { cond := 0, dr := 0, cnt := 0, un := 0, target := 0 } → s1.running e = some i → exec (.done e st t w) s = .next (
      let u := s1.toC t
      let or := u.gl (Obj.STICKY_OR e) ||| (w32 (fld r.flg 11 8) &&& u.ga Obj.STICKY_MASK)
      let v := ((u.retire e r).setL (Obj.STICKY_OR e) or).signalDone i
      if or ≠ 0 ∧ v.na Obj.STICKY_CLASS ≠ 0xFF then (v.taskEnd e).raiseAs (3 + e) (v.na Obj.STICKY_CLASS) e .k else v.taskEnd e))) ∧
  (∀ (s : State) (e st : Nat) (w : BitVec 64) (s1 : State), opOf w = 0x20D → CWord.of w = { cond := 0, dr := 0, cnt := 0, un := 0, target := 0 } → s.canIssue e = true →
    s.issue e st w = s1 → exec (.sync e st w) s
      = .next ((s1.drainStores e).finish e ((s1.drainStores e).eng e).r)) ∧
  (∀ (s : State) (e st : Nat) (w : BitVec 64) (cnt : BitVec 16), opOf w = 0x20E →
    CWord.of w = { cond := 0, dr := 0, cnt := cnt, un := 0, target := 0 } → s.canIssue e = true →
    exec (.trap e st w) s = .next ((s.issue e st w).exception e 11 cnt)) ∧
  (∀ (s : State) (e st : Nat) (w : BitVec 64) (s1 : State), opOf w = 0x20F → CWord.of w = { cond := 0, dr := 0, cnt := 0, un := 0, target := 0 } → s.canIssue e = true →
    s.issue e st w = s1 → s1.jtagAllowed = false → exec (.bkpt e st w) s = .next (s1.finish e (s1.eng e).r)) ∧
  (∀ (s : State) (e st : Nat) (w : BitVec 64) (s1 : State), opOf w = 0x20F → CWord.of w = { cond := 0, dr := 0, cnt := 0, un := 0, target := 0 } → s.canIssue e = true →
    s.issue e st w = s1 → s1.jtagAllowed = true → exec (.bkpt e st w) s = .next (
      let s2 := s1.setEng e { s1.eng e with bkpt := true }
      s2.finish e (s2.eng e).r)) ∧
  (∀ (s s0 : State) (e : Nat) (i : Inst), s.raiseAs 2 (s.faultClass 2) e .k = s0 → s0.running e = some i →
    exec (.regfileParityError e) s = .next (
      let last := (s0.eng e).r.pc.toNat * 65536 + i.desc * 256 + 12
      let s1 := (((s0.incL (Obj.EXC_CNT e)).setLN (Obj.LAST_EXC e) last).journal (0x90 + e) (w32 last)).irqEdge 5 e
      (s1.taskEnd e).raiseAs (3 + e) (s0.na Obj.EXC_CLASS) e .k))

/-- O16. On an engine that can issue, with the unused fields 0: an OUT writes its port from Dr, sets PR where the write is discarded or
refused, and retires; an IN reads its port into Dr, sets PR where the port is not listed, and retires. A semaphore's OUT clears it;
its IN answers it and sets it. An OUT to a port the table does not list only sets PR; an IN from one reads 0. A host's write of
program memory outside RUN and RIDETHROUGH keeps the low half of a word and, with the high half, writes the word. Each of these
commands completes (exec answers a next state, which is written out): outArmRef, outSelIdirFw, outRtReq, outBeaconSend, outProbe,
outSem, inSem, outTaskRelease, outDictSel, outDictData, inDictData, inDictResult, inFrameCountLo, inFrameCountHi, inCtimeLo,
inCtimeHi, inEngineId, inTaskId, inTaskCycles, inUnlistedPort, outUnlistedPort, progMemWrite. -/
def Obligations.PortInstructionsComplete : Prop :=
  (∀ (s : State) (e st : Nat) (w : BitVec 64) (x : PortWord) (s1 : State), PortWord.of w = x → s.canIssue e = true → s.issue e st w = s1 →
    portOk x = true →
    let v := (s1.eng e).r.rd x.dr
    let out (t : State) (pr : Bool) : State := t.finish e { (t.eng e).r with flg := flgSticky (t.eng e).r.flg 11 pr }
    let into (t : State) (w : Word) (pr : Bool) : State :=
      t.finish e { (t.eng e).r with d := vset (t.eng e).r.d x.dr.toNat w, flg := flgSticky (t.eng e).r.flg 11 pr }
    (∀ a : Fin 12, opOf w = 0x209 → x.port.toNat = a.val → exec (.outArmRef e st w) s = .next (
      let o := s1.tryWrite (Obj.ARM_REF a.val) v (wrArmRef (.cupola e) a.val v)
      out o.1 (decide (o.2 ≠ 0)))) ∧
    (∀ a : Fin 12, opOf w = 0x209 → x.port.toNat = 0x10 + a.val → exec (.outSelIdirFw e st w) s = .next (
      let o := s1.tryWrite (Obj.SEL_IDIR_FW a.val) (v &&& 0xFF) fun s => (s.setL (Obj.SEL_IDIR_FW a.val) (v &&& 0xFF), 0)
      out o.1 (decide (o.2 ≠ 0)))) ∧
    (opOf w = 0x209 → x.port.toNat = 0x20 → exec (.outRtReq e st w) s = .next (
      let o := s1.tryWrite Obj.RT_REQ (v &&& 0xFF) (wrRtReq (v &&& 0xFF))
      out o.1 (decide (o.2 ≠ 0)))) ∧
    (opOf w = 0x209 → x.port.toNat = 0x21 → exec (.outBeaconSend e st w) s = .next (
      let o := s1.tryWrite Obj.BEACON_SEND (v &&& 0xFF) (wrBeaconSend (v &&& 0xFF))
      out o.1 (decide (o.2 ≠ 0)))) ∧
    (∀ p : Fin 16, opOf w = 0x209 → x.port.toNat = 0x30 + p.val → fld (s1.ga (Obj.LANTERN_PROBE p.val)) 31 28 = 1 → exec (.outProbe e st w) s = .next (
      let l := s1.aids.lantern
      out { s1 with
          aids := { s1.aids with
              lantern := { l with
                port := vset l.port p.val v, portWritten := bset l.portWritten p.val true } } } false)) ∧
    (∀ n : Fin 16, opOf w = 0x209 → x.port.toNat = 0x40 + n.val → exec (.outSem e st w) s = .next (out { s1 with cup := { s1.cup with sem := bset s1.cup.sem n.val false } } false)) ∧
    (∀ n : Fin 16, opOf w = 0x208 → x.port.toNat = 0x40 + n.val → exec (.inSem e st w) s = .next (
      into { s1 with cup := { s1.cup with sem := bset s1.cup.sem n.val true } } (w32 (b2n (nbit s1.cup.sem.toNat n.val))) false)) ∧
    (opOf w = 0x209 → x.port.toNat = 0x60 → exec (.outTaskRelease e st w) s = .next (
      let o := s1.softRelease (v.toNat % 256)
      out o.1 (s1.softShed (v.toNat % 256) || decide (o.2 ≠ 1)))) ∧
    (opOf w = 0x209 → x.port.toNat = 0x80 → exec (.outDictSel e st w) s = .next (out (s1.setEng e { s1.eng e with dictSel := v }) false)) ∧
    (opOf w = 0x209 → x.port.toNat = 0x81 → exec (.outDictData e st w) s = .next (
      let o := s1.pathWrite (.cupola e) (s1.eng e).dictSel.toNat v
      out (o.1.dictServed e o.2) (decide (o.2 ≠ 0)))) ∧
    (opOf w = 0x208 → x.port.toNat = 0x81 → exec (.inDictData e st w) s = .next (
      let o := s1.pathRead (.cupola e) (s1.eng e).dictSel.toNat
      into (o.1.dictServed e o.2.2) o.2.1 false)) ∧
    (opOf w = 0x208 → x.port.toNat = 0x82 → exec (.inDictResult e st w) s = .next (into s1 (s1.eng e).dictResult false)) ∧
    (opOf w = 0x208 → x.port.toNat = 0x22 → exec (.inFrameCountLo e st w) s = .next (into (s1.latchHigh (.cupola e) (Obj.FRAME_COUNT_LO + 1) (hi32 s1.frame.count)) (lo32 s1.frame.count) false)) ∧
    (opOf w = 0x208 → x.port.toNat = 0x23 → exec (.inFrameCountHi e st w) s = .next (into (s1.useHigh (.cupola e) (Obj.FRAME_COUNT_LO + 1)) (s1.highRead (.cupola e) (Obj.FRAME_COUNT_LO + 1) (hi32 s1.frame.count)) false)) ∧
    (opOf w = 0x208 → x.port.toNat = 0x24 → exec (.inCtimeLo e st w) s = .next (into (s1.latchHigh (.cupola e) ctimeKey (hi32 s1.nowC)) (lo32 s1.nowC) false)) ∧
    (opOf w = 0x208 → x.port.toNat = 0x25 → exec (.inCtimeHi e st w) s = .next (into (s1.useHigh (.cupola e) ctimeKey) (s1.highRead (.cupola e) ctimeKey (hi32 s1.nowC)) false)) ∧
    (opOf w = 0x208 → x.port.toNat = 0x26 → exec (.inEngineId e st w) s = .next (into s1 (w32 e) false)) ∧
    (∀ i, opOf w = 0x208 → x.port.toNat = 0x27 → s1.running e = some i → exec (.inTaskId e st w) s = .next (into s1 (w32 i.desc) false)) ∧
    (opOf w = 0x208 → x.port.toNat = 0x28 → exec (.inTaskCycles e st w) s = .next (into s1 (w32 (s1.eng e).r.cycles) false)) ∧
    (opOf w = 0x208 → inListed x.port.toNat = false → exec (.inUnlistedPort e st w) s = .next (into s1 0 true)) ∧
    (opOf w = 0x209 → outListed x.port.toNat = false → exec (.outUnlistedPort e st w) s = .next (out s1 true))) ∧
  (∀ (s : State) (e : Fin 8) (i : BitVec 13) v, s.mode ≠ .run → s.mode ≠ .ridethrough → exec (.progMemWrite e i false v) s
    = .next ({ s with cup := { s.cup with progLatch := vset s.cup.progLatch 0 (some (progAddr e.val i.toNat, v)) } } : State).hostRetire) ∧
  (∀ (s : State) (e : Fin 8) (i : BitVec 13) v w, s.mode ≠ .run → s.mode ≠ .ridethrough →
    vget none s.cup.progLatch 0 = some (progAddr e.val i.toNat, w) → exec (.progMemWrite e i true v) s = .next (
      let t := (s.wrW (progAddr e.val i.toNat) w).wrW (progAddr e.val i.toNat + 4) v
      ({ t with cup := { t.cup with progLatch := vset t.cup.progLatch 0 none } } : State).hostRetire))

/-- O17. A COMMIT_REQ of the next number while COMMIT_STATE is OPEN starts the validation, one of 0 reverts the staged copies, and any
other is refused and answered in COMMIT_RESULT. When the validation ends the state becomes PENDING with result 0 and with the P that
was validated, or OPEN with the refusal's code and detail; a refusal with code 3 for a claimed ADC-B is counted. When the
synchronising stage ends the state is OPEN again. Each of these commands completes (exec answers a next state, which is written out):
commitRequest, commitRevert, commitValidationDone, commitSyncDone. -/
def Obligations.CommitCommandsComplete : Prop :=
  (∀ s p v, s.takes Obj.COMMIT_REQ v → s.commit.st = .opened → v ≠ 0 → v = s.gl Obj.COMMIT_SEQ + 1 →
    exec (.commitRequest p v) s = .next ((s.setCommit .validating).report p Obj.COMMIT_REQ 0)) ∧
  (∀ s p v, s.takes Obj.COMMIT_REQ v → s.commit.st = .opened → v ≠ 0 → v ≠ s.gl Obj.COMMIT_SEQ + 1 →
    exec (.commitRequest p v) s = .next ((s.commitRefuse 0x0F none).report p Obj.COMMIT_REQ 6)) ∧
  (∀ s p v, s.takes Obj.COMMIT_REQ v → s.commit.st ≠ .opened →
    exec (.commitRequest p v) s = .next ((s.commitRefuse 0x0C none).report p Obj.COMMIT_REQ 6)) ∧
  (∀ s p, s.takes Obj.COMMIT_REQ 0 → s.commit.st = .opened →
    exec (.commitRevert p) s = .next (s.revert.report p Obj.COMMIT_REQ 0)) ∧
  (∀ s, s.commit.st = .validating → (s.verdict false).1 = 0 →
    exec .commitValidationDone s = .next (
      let t := (s.setLN Obj.COMMIT_RESULT 0).setLN Obj.COMMIT_DETAIL 0
      { t with commit := { st := .pending, p := t.pNext, plan := t.planMode } })) ∧
  (∀ s, s.commit.st = .validating → (s.verdict false).1 ≠ 0 →
    exec .commitValidationDone s = .next (((if (s.verdict false).1 = 3 ∧ s.claimFail = true then s.incL Obj.CLAIM_REFUSED_CNT
      else s).commitRefuse (s.verdict false).1 (s.verdict false).2).commitOpen)) ∧
  (∀ s, s.commit.st = .syncing → exec .commitSyncDone s = .next s.commitOpen)

/-- O18. A HOST_RELEASE of an enabled EVENT descriptor that its mode mask admits, that is not shed, that has room in its queue and finds
the pool not full starts an instance with result 1; DELAY_ARM puts an enabled delay descriptor that is not armed into a list with
room, with its word's period or its own, result 1; DELAY_CANCEL takes it out with result 9; DESC_W3 stages the four words of the
path's window without their reserved bits and advances the index; the phases of a dispatch follow one another; an instance that
passes its CYC_WARN is marked and counted. Each of these commands completes (exec answers a next state, which is written out):
hostRelease, delayArm, delayCancel, descW3, taskSelectionDone, prefetchRefillDone, contextSaveDone, taskLoadDone, contextRestoreDone,
cycWarnExceed. -/
def Obligations.SchedulerCommandsComplete : Prop :=
  (∀ s p v, s.takes Obj.HOST_RELEASE v → (s.desc v.toNat).cls = 3 → (s.desc v.toNat).en = true →
    (s.desc v.toNat).allows s.mode = true → s.shed v.toNat = false → s.outstanding v.toNat ≤ (s.desc v.toNat).qdepth →
    s.sched.pool.length < 64 →
    exec (.hostRelease p v) s = .next (((s.start v.toNat).setLN Obj.HOST_RELEASE_RESULT 1).report p Obj.HOST_RELEASE 0)) ∧
  (∀ s p v, s.takes Obj.DELAY_ARM v → (s.desc (fld v 7 0)).cls = 2 → (s.desc (fld v 7 0)).en = true →
    s.delayLeft (fld v 7 0) = none → s.sched.delays.length < 64 →
    exec (.delayArm p v) s = .next ((({ s with
        sched := { s.sched with
            delays := delayInsert (fld v 7 0)
              (if fld v 31 16 = 0 then (s.desc (fld v 7 0)).low else fld v 31 16) s.sched.delays } }).setLN Obj.DELAY_RESULT 1).report p
        Obj.DELAY_ARM 0)) ∧
  (∀ s p v n, s.takes Obj.DELAY_CANCEL v → s.delayLeft v.toNat = some n →
    exec (.delayCancel p v) s = .next ((({ s with
        sched := { s.sched with
          delays := s.sched.delays.filter fun d => d.1 != v.toNat } }).setLN Obj.DELAY_RESULT 9).report p Obj.DELAY_CANCEL 0)) ∧
  (∀ s p v, s.takes Obj.DESC_W3 v →
    exec (.descW3 p v) s = .next ((({ s with
        sched := { s.sched with
            staged := tput (fun _ => Desc.empty) s.sched.staged
              (s.nl Obj.DESC_INDEX) ({ vget Desc.empty s.sched.window (pathNum p) with w3 := v } : Desc).clean } }).setLN Obj.DESC_INDEX
        ((s.nl Obj.DESC_INDEX + 1) % 256)).report p Obj.DESC_W3 0)) ∧
  (∀ s e i r, s.engEnabled e = true → s.entering e = some (.select i) → s.running e = some r →
    exec (.taskSelectionDone e) s = .next ((s.incL Obj.PREEMPT_CNT).setEntering e (some (.save i)))) ∧
  (∀ s e i, s.engEnabled e = true → s.entering e = some (.select i) → s.running e = none →
    exec (.taskSelectionDone e) s = .next (s.setEntering e (some (.load i)))) ∧
  (∀ s e i, vget none s.sched.refill e = some i →
    exec (.prefetchRefillDone e) s = .next { s with
        sched := { s.sched with
          slot := vset s.sched.slot e (some i), refill := vset s.sched.refill e none
          slotWords := vset s.sched.slotWords e ((List.range 8).map fun j => s.progWord e ((s.entryOf i + j) % 8192)) } }) ∧
  (∀ s e i r, s.engEnabled e = true → s.entering e = some (.save i) → s.running e = some r →
    exec (.contextSaveDone e) s = .next ((((s.drainStores e).setEng e { (s.drainStores e).eng e with
      saved := ⟨r, ((s.drainStores e).eng e).r⟩ :: ((s.drainStores e).eng e).saved }).setRunning e none).setEntering e (some (.load i)))) ∧
  (∀ s e i, s.engEnabled e = true → s.entering e = some (.load i) → vget none s.sched.slot e = some i.id →
    exec (.taskLoadDone e) s = .next (s.loadInst e i)) ∧
  (∀ s e c rest, s.engEnabled e = true → s.entering e = some .restore → (s.eng e).saved = c :: rest →
    exec (.contextRestoreDone e) s = .next ((((s.setEng e { s.eng e with r := c.regs, hazards := Hazards.none, saved := rest }).setRunning e
      (some c.inst)).setEntering e none).prefetch e)) ∧
  (∀ s e i, s.running e = some i → i.words.cycWarn ≠ 0 → i.words.cycWarn < (s.eng e).r.cycles → (s.eng e).r.warned = false →
    exec (.cycWarnExceed e) s = .next (((((s.setEng e { s.eng e with r := { (s.eng e).r with warned := true } }).setDescDyn i.desc
      { s.descDyn i.desc with cycWarn := true }).incL Obj.CYC_WARN_CNT).irqEdge 6 2).raise 54))

/-- O19. A write of AIDS_STICKY clears the bits written as 1, but for those set in the same cycle, and is noted for events that follow in
it; a PULSE edge is stamped; NOTCH_RESTART restarts the arm's notch; the Lantern arms and takes a trigger, the first of its frame,
stops and is disarmed; the consumers of a late beacon act now, with its count; D_k comes once in a ticking frame, at S_k + D_k of
converter time. Each of these commands completes (exec answers a next state, which is written out): decisionCut, beaconAct,
notchRestart, aidsStickyClear, pulseEdgeAccept, lanternArm, lanternTrigger, lanternStop, lanternDisarm. -/
def Obligations.AidsAndCutCommandsComplete : Prop :=
  (∀ s p v t, s.takes Obj.AIDS_STICKY v → s.stickyCycle = t → exec (.aidsStickyClear p v) s = .next (
    (({ t with aids := { t.aids with stickyClr := t.aids.stickyClr ||| (s.gl Obj.AIDS_STICKY &&& v) } } : State).setL Obj.AIDS_STICKY
      (s.gl Obj.AIDS_STICKY &&& ~~~(v &&& ~~~t.aids.stickySet))).report p Obj.AIDS_STICKY 0)) ∧
  (∀ s (n : Fin 2) t, exec (.pulseEdgeAccept n t) s = .next (
    let s0 := s.toC t
    { s0 with aids := { s0.aids with pulses := vset s0.aids.pulses n.val (t :: vget [] s0.aids.pulses n.val) } })) ∧
  (∀ s p a, s.takes (Obj.NOTCH_RESTART a) 1 → exec (.notchRestart p a) s = .next ((s.notchRestart a).report p (Obj.NOTCH_RESTART a) 0)) ∧
  (∀ s p, s.takes Obj.LANTERN_CMD 1 → s.mem.march = none → s.aids.lantern.trigsAt ≠ s.frame.count → exec (.lanternArm p) s = .next (
    let t : State := { s with
        aids := { s.aids with
            lantern := { s.aids.lantern with
              st := .running, wr := 0, written := 0, postLeft := 0, pre := 0, mark := none, last := none, trigs := [], ignored := 0 } } }
    ((t.each [163, 164, 165, 166] State.wakeBank).setLN Obj.LANTERN_TRIG_IGN_CNT (s.nl Obj.LANTERN_TRIG_IGN_CNT)).report p
      Obj.LANTERN_CMD 0)) ∧
  (∀ s p, s.takes Obj.LANTERN_CMD 2 → s.aids.lantern.st = .running → s.aids.lantern.trigsAt ≠ s.frame.count → s.frame.ticking = true →
    exec (.lanternTrigger p) s
    = .next (({ s with
        aids := { s.aids with
            lantern := { s.aids.lantern with
              st := .post, mark := some s.frame.count, postLeft := s.na Obj.LANTERN_POST, trigsAt := s.frame.count, trigs := [s.frame.count],
              ignored := 0 } } }).report p Obj.LANTERN_CMD 0)) ∧
  (∀ s p, s.takes Obj.LANTERN_CMD 3 → exec (.lanternStop p) s
    = .next ((({ s with aids := { s.aids with lantern := { s.aids.lantern with st := .stopped } } }).irqEdge 9 2).report p
      Obj.LANTERN_CMD 0)) ∧
  (∀ s p, s.takes Obj.LANTERN_CMD 4 → exec (.lanternDisarm p) s
    = .next (({ s with aids := { s.aids with lantern := { s.aids.lantern with st := .idle, mark := none } } }).report p
      Obj.LANTERN_CMD 0)) ∧
  (∀ s (e : Fin 64) a, s.launch.acts = [a] → a.act = true → a.event.toNat = e.val → exec (.beaconAct e) s = .next (
    let s0 := if a.late then s.incL Obj.BEACON_LATE_CNT else s.toC (a.originQ / 4 + s.comp e.val)
    let s1 : State := { s0 with launch := { s0.launch with acts := liveActs (setFirst (fun a => a.act && decide (a.event.toNat = e.val)) (fun x => { x with act := false }) s0.launch.acts) } }
    let s2 := (s1.adcTriggers 2 e.val).event (1 + e.val)
    if nbit (s2.ga Obj.LANTERN_TRIG).toNat 0 ∧ fld (s2.ga Obj.LANTERN_TRIG) 15 8 = e.val then s2.lanternTrigger s2.frame.count else s2)) ∧
  (∀ s, s.frame.ticking = true → s.frame.cut = false → exec .decisionCut s = .next ((s.toC (s.frame.tickC + s.dk)).decisionCut))

/-- O20. For a domain that the port and number name: a one-step Sync of the chosen port is counted and feeds the servo, a two-step one is
kept for its Follow_Up, which feeds the servo when its number is the Sync's; an Announce of no worse master than the port's own sets
it; an unsupported message is counted. A Pdelay request on an enabled port is answered by a response and a follow-up with their
stamps; one sent takes the next number and its egress stamp; the response and its follow-up give the mean path delay. The timeouts
act as R314 says; an accepted PPS edge of the selected polarity is stamped and counted, and outside PPS mode forgets an earlier
PPS_TOD; a driven PPS_OUT rises at the whole second of its source and falls after its width. Each of these commands completes (exec
answers a next state, which is written out): ptpSyncReceive, ptpFollowUpReceive, ptpAnnounceReceive, pdelayReqReceive,
pdelayRespReceive, pdelayRespFollowUpReceive, ptpUnsupportedReceive, pdelayReqSend, announceTimeout, offsetTimeout, holdoverExpired,
ppsInEdge, ppsOutRise, ppsOutFall. -/
def Obligations.TimeCommandsComplete : Prop :=
  (∀ s port3 domain seq origin corr l d, (s.toL l).ptpDom port3 domain = some d →
    ((s.toL l).dom d).portChosen = true → ((s.toL l).dom d).port3 = port3 →
    exec (.ptpSyncReceive port3 domain seq false origin corr l) s = .next (
      let s1 := (s.toL l).incL (Obj.SYNC_RX_CNT d)
      (s1.setDom d { s1.dom d with oneStep := true, sync := none }).servo d (s1.offsetOf port3 origin corr (s1.domAt d ((l : Int) - s1.rxLat port3))))) ∧
  (∀ s port3 domain seq origin corr d ingress c, s.ptpDom port3 domain = some d → (s.dom d).sync = some (port3, seq, ingress, c) →
    (s.dom d).portChosen = true → (s.dom d).port3 = port3 →
    exec (.ptpFollowUpReceive port3 domain seq origin corr) s
      = .next ((s.setDom d { s.dom d with sync := none }).servo d (s.offsetOf port3 origin (corr + c) ingress))) ∧
  (∀ s domain gm rank utc flags inacc d, s.ptpDom true domain = some d → (s.dom d).portChosen = false → (s.dom d).stepped = false →
    (s.dom d).keeps true gm rank = false →
    ∃ m : Master, m.gmId = gm ∧ m.rank = rank ∧ m.utcOffset = utc ∧
      exec (.ptpAnnounceReceive true domain gm rank utc flags inacc) s = .next (((s.putDom d { s.dom d with
        master3 := some m, portChosen := true, port3 := true, sync := none, st := .acquiring }).seeGm d).timeLevels)) ∧
  (∀ s port3 domain seq l tx d, (s.toL l).ptpDom port3 domain = some d → (s.toL l).ptpPortOn port3 = true →
    exec (.pdelayReqReceive port3 domain seq l tx) s = .next (
      let s0 := s.toL l
      s0.setPtp port3 { s0.ptpPort port3 with
          respSent :=
            [s0.pdelayMsg d .resp (domain % 256) (seq % 65536) (l - s0.rxLat port3),
            s0.pdelayMsg d .followUp (domain % 256) (seq % 65536) (tx + s0.txLat port3)] })) ∧
  (∀ s port3 l d, (s.toL l).portDom port3 = some d → exec (.pdelayReqSend port3 l) s = .next (
    let s0 := s.toL l
    let q := ((s0.ptpPort port3).reqSeq + 1) % 65536
    s0.setPtp port3 { s0.ptpPort port3 with
      reqSeq := q, reqT1 := some (l + s0.txLat port3), resp := none
      reqSent := some (s0.pdelayMsg d .req (s0.na (Obj.PTP_DOMAIN d)) q 0) })) ∧
  (∀ s port3 t1 t2 corr l, ((s.toL l).ptpPort port3).reqT1 = some t1 →
    exec (.pdelayRespReceive port3 ((s.toL l).ptpPort port3).reqSeq t2 corr l) s = .next (
      let s0 := s.toL l
      s0.setPtp port3 { s0.ptpPort port3 with resp := some ((s0.ptpPort port3).reqSeq, t2, ((l - s0.rxLat port3 : Nat) - corr).toNat) })) ∧
  (∀ s port3 seq (t1 t2 t3 t4 : Nat) corr, (s.ptpPort port3).reqT1 = some t1 → (s.ptpPort port3).resp = some (seq, t2, t4) →
    exec (.pdelayRespFollowUpReceive port3 seq t3 corr) s = .next (s.setPtp port3 { s.ptpPort port3 with
      reqT1 := none, resp := none, meanPath := floorDiv (((t4 : Int) - t1) - ((t3 : Int) - t2) - corr) 2 })) ∧
  (∀ s port3 domain d, s.ptpDom port3 domain = some d →
    exec (.ptpUnsupportedReceive port3 domain) s = .next (s.incL (Obj.MSG_DROP_CNT d))) ∧
  (∀ s (d : Fin 2), (s.dom d.val).lastOff ≠ some s.nowL → exec (.offsetTimeout d) s = .next ((s.incL (Obj.SYNC_TIMEOUT_CNT d.val)).loseOffsets d.val)) ∧
  (∀ s (d : Fin 2), (s.dom d.val).master2 = none → exec (.announceTimeout d true) s = .next (((s.setDom d.val { s.dom d.val with
    master3 := none, portChosen := false, sync := none }).loseOffsets d.val).timeLevels)) ∧
  (∀ s (d : Fin 2), (s.dom d.val).st = .holdover → (s.dom d.val).wasLocked = true → (s.dom d.val).expired = false →
    exec (.holdoverExpired d) s = .next (((s.setDom d.val { s.dom d.val with expired := true }).raise (24 + d.val)).timeLevels)) ∧
  (∀ s falling l, nbit (s.na Obj.PPS_IN_CFG) 0 = true → nbit (s.na Obj.PPS_IN_CFG) 1 = falling → s.time.ppsLast = none → s.ppsMode 0 = false →
    exec (.ppsInEdge falling l) s = .next (
    let s0 := s.toL l
    let t := s0.domAt 0 ((l : Int) - s0.na Obj.PPS_IN_COMP_NS)
    let s1 : State := { s0 with time := { s0.time with ppsLast := some l, ppsErr := clampInt (-2147483647) 2147483647 (t - nearestSecond t) } }
    let s2 := (s1.incL Obj.PPS_IN_CNT).irqEdge 10 4
    { s2 with time := { s2.time with todAt := s2.time.todAt.filter fun w => decide (w = l) } })) ∧
  (∀ s, s.ppsDriven = true → exec .ppsOutRise s = .next (
    let s0 := s.toL s.ppsRiseL
    { s0 with time := { s0.time with ppsOut := true, ppsEnd := s0.nowL + s0.na Obj.PPS_OUT_WIDTH_NS } })) ∧
  (∀ s, s.time.ppsOut = true → exec .ppsOutFall s = .next (
    let s0 := s.toL s.time.ppsEnd
    { s0 with time := { s0.time with ppsOut := false } }))

/-- O21. Once the steps of C_OFF so far are taken up, while reports run and no older settings are still owed, the next report instant is
published once its latency has elapsed, and takes the next report number, stores the result of every enabled channel, counts an
extrapolated report, sends the report block and releases its EVENT. The front tag of a wave-tag unit that originates no beacon is
journalled, counted and stored as the last tag, and triggers the Acquisition Engine where ACQ_WT_MASK names the unit. Each of these
commands completes (exec answers a next state, which is written out): phasorPublish, waveTagWrite. -/
def Obligations.PhasorCommandsComplete : Prop :=
  (∀ s0 s u at0 due, s0.phTick = s → s.phasor.old = [] → s.phasor.running = true → s.phasor.win.due = (u, at0) :: due → at0 ≤ s.nowC →
    exec .phasorPublish s0 = .next (
      let v := s.phSet
      let n := u * gridRate v.f0 / 28800
      let seq := (s.gl Obj.REPORT_SEQ + 1).toNat
      let s1 := (s.setLN Obj.REPORT_SEQ seq).each v.on fun x c => x.putResult c seq (instantNs u) (s.phResult v c n (at0 - v.latency))
      let s2 := s1.incIf (v.on.any fun c => !phClassM (v.cfgOf c) && extP v.f0 v.rate) Obj.EXT_REPORT_CNT
      let s3 := ((s2.reportBlock v seq (instantNs u)).irqEdge 8 0).event 0x4D
      { s3 with phasor := { s3.phasor with win := { v.reported n with due := due } } })) ∧
  (∀ s0 s, s0.phTick = s → s.phasor.old = [] → s.phasor.running = true → s.phasor.win.due = [] →
    instantNs (s.phSet.instant s.phasor.nextAt) + s.phSet.latency ≤ s.time64 s.nowC →
    exec .phasorPublish s0 = .next (
      let v := s.phSet
      let u := v.instant s.phasor.nextAt
      let n := u * gridRate v.f0 / 28800
      let seq := (s.gl Obj.REPORT_SEQ + 1).toNat
      let s1 := (s.setLN Obj.REPORT_SEQ seq).each v.on fun x c =>
        x.putResult c seq (instantNs u) (s.phResult v c n (s.convOf (instantNs u)).toNat)
      let s2 := s1.incIf (v.on.any fun c => !phClassM (v.cfgOf c) && extP v.f0 v.rate) Obj.EXT_REPORT_CNT
      let s3 := ((s2.reportBlock v seq (instantNs u)).irqEdge 8 0).event 0x4D
      { s3 with phasor := { s3.phasor with win := v.reported n, nextAt := u + 1 } })) ∧
  (∀ s (w : Fin 12) tag data rest, (s.wave1 w.val).tags = (tag, data) :: rest →
    nbit (s.ga (Obj.WT_CFG w.val)).toNat 28 = false →
    exec (.waveTagWrite w) s = .next (
      let st := fld (s.ga (Obj.WT_CFG w.val)) 5 0
      let s1 := s.setWave w.val { s.wave1 w.val with tags := rest }
      let s2 := (reactC3 s1 (s1.journalAt (0xA0 + w.val) data tag (!nbit data.toNat 29))).acqTag st tag data
      let s3 := ((s2.incL (Obj.WT_TAG_CNT w.val)).incL Obj.WT_SEQ).setLN Obj.WT_LAST_SEQ (s2.gl Obj.WT_SEQ + 1).toNat
      let s5 := ((((s3.setL64 Obj.WT_LAST_TAG_LO tag).setL Obj.WT_LAST_DATA data).setLN Obj.WT_LAST_STREAM st).irqEdge 8 1).event 0x4E
      if nbit (s5.na Obj.ACQ_WT_MASK) w.val then acqTrigger occPend 4 tag s5 else s5))

/-- O22. ARM, TRIGGER, STOP and DISARM act as the engine's operations of the same names, with the trigger's origin at the present time;
the next block, once all that it records is there, enters the FIFO with its bytes while 1,024 bytes hold it; the oldest block is
stored at its slot once its bank is on, and the count, the frame and the write slot advance. Each of these commands completes (exec
answers a next state, which is written out): acqArm, acqTrigger, acqStop, acqDisarm, acqBlockForm, acqBlockWrite. -/
def Obligations.AcquisitionCommandsComplete : Prop :=
  (∀ s p, s.takes Obj.ACQ_CMD 1 → exec (.acqArm p) s = .next (s.acqArm.report p Obj.ACQ_CMD 0)) ∧
  (∀ s p, s.takes Obj.ACQ_CMD 2 →
    exec (.acqTrigger p) s = .next ((acqTrigger occPend 1 (s.time64 s.nowC) s).report p Obj.ACQ_CMD 0)) ∧
  (∀ s p, s.takes Obj.ACQ_CMD 3 → s.acq.st = .pretrig ∨ s.acq.st = .post →
    exec (.acqStop p) s = .next ((acqDone occPend true false s).report p Obj.ACQ_CMD 0)) ∧
  (∀ s p, s.takes Obj.ACQ_CMD 4 →
    exec (.acqDisarm p) s = .next (({ s with acq := { s.acq with st := .idle, fifo := [] } }).report p Obj.ACQ_CMD 0)) ∧
  (∀ s, s.acq.st = .pretrig ∨ s.acq.st = .post → s.acqReady s.acqNextFrame = true →
    (s.acq.fifo.map fun b => b.bytes.length).sum + s.acqB ≤ 1024 →
    exec .acqBlockForm s = .next { s with
        acq := { s.acq with
          fifo := s.acq.fifo ++ [⟨s.acqNextFrame, s.acqBytes s.acqNextFrame⟩] } }) ∧
  (∀ s b rest, s.acq.fifo = b :: rest → (s.bank (s.acqSlotAddr s.acq.wrSlot / 65536)).pwr = .on → s.acq.st = .pretrig →
    s.acq.trig = none →
    exec .acqBlockWrite s = .next (acqCheckDone occPend (State.acqLevel
      { s.wrBytes (s.acqSlotAddr s.acq.wrSlot) b.bytes with acq := { s.acq with fifo := rest, written := s.acq.written + 1, lastFrame := b.frame, wrSlot := (s.acq.wrSlot + 1) % s.acqRcap, postDone := s.acq.postDone } }
      b.frame (s.acqRowsOf b.bytes (s.na Obj.ACQ_LVL_CH)))))

/-- O23. REG_START of an idle converter sets CONT as written, clears the filters, notes the start and begins the sequence at entry 0;
REG_STOP during a regular conversion ends the sequence after it; CAL_REQ of an idle converter starts the calibration; the next
periodic start comes a period after the one before and begins a sequence that does not run; a conversion without a filter on its
input delivers its result and moves the sequence on; the end of a calibration takes the coefficients and counts; the Watchtower's
calibration of a claimed ADC-B is a calibration request. Each of these commands completes (exec answers a next state, which is
written out): adcRegStart, adcRegStop, adcCalReq, adcPeriodicStart, adcConversionDone, adcCalDone, wtAdcbCalibrate. -/
def Obligations.ConverterCommandsComplete : Prop :=
  (∀ s p i cont, s.takes (Obj.ADC_CTRL i) (w32 (1 + 2 * b2n cont)) → (s.conv i).work = .idle → (s.conv i).regRun = false →
    i < 2 →
    exec (.adcRegStart p i cont) s = .next (((s.setConv i
      { (s.conv i).restartFilters (fun _ => true) with cont := cont, startL := some s.nowL }).adcBegin i).report p (Obj.ADC_CTRL i) 0)) ∧
  (∀ s p i, s.takes (Obj.ADC_CTRL i) 4 → (s.conv i).work = .reg → i < 2 →
    exec (.adcRegStop p i) s = .next ((s.setConv i
      { s.conv i with cont := false, startWait := false, softWait := false, startL := none, stopping := true }).report p (Obj.ADC_CTRL i) 0)) ∧
  (∀ s p i cont, s.takes (Obj.ADC_CTRL i) (w32 (8 + 2 * b2n cont)) → (s.conv i).work = .idle → (s.conv i).calPending = false → i < 2 →
    exec (.adcCalReq p i cont) s = .next ((s.setConv i { s.conv i with cont := cont, work := .cal }).report p (Obj.ADC_CTRL i) 0)) ∧
  (∀ s i l, (s.conv i).cont = true → (s.conv i).startL = some l → s.na (Obj.REG_PERIOD_NS i) ≠ 0 → i = 0 ∨ s.adc.claimed = false →
    (s.conv i).regRun = false → (s.conv i).startWait = false → (s.conv i).softWait = false → (s.conv i).work = .idle →
    exec (.adcPeriodicStart i) s = .next (
      let due := l + s.na (Obj.REG_PERIOD_NS i)
      ((s.toL due).setConv i { s.conv i with startL := some due }).adcBegin i)) ∧
  (∀ s v vref code ovr, (s.conv 0).code v vref = (code, ovr) → (s.conv 0).work = .reg → filtEn (s.ga (Obj.FILT_CFG 0 ((s.conv 0).regSeq.getD (s.conv 0).regEntry 0))) = false →
    exec (.adcConversionDone 0 v vref) s = .next (((((s.incIf ovr (Obj.OVER_RANGE_CNT 0)).adcTap 0
      ((s.conv 0).regSeq.getD (s.conv 0).regEntry 0) (w32 (code * 524288)) ovr).adcDeliver 0 (w32 (code * 524288))
        ((s.conv 0).regSeq.getD (s.conv 0).regEntry 0) ovr false false false).adcAdvance 0).adcNext 0)) ∧
  (∀ s coef, (s.conv 0).work = .cal →
    exec (.adcCalDone 0 coef) s = .next ((((s.setConv 0 { s.conv 0 with calDone := true, coef := coef }).incL
      (Obj.CAL_CNT 0)).irqEdge 7 4).adcNext 0)) ∧
  (∀ s, s.adc.claimed = true → exec .wtAdcbCalibrate s = .next (s.calRequest 1))

/-- O24. The next wrap of a pair outside a halt, which a START that is on its way makes in the cycle after it lands, takes the written
settings, timing and force and counts the period; a duty match ends the reference; the end of a dead time turns the waiting outputs
on; PWM_TIMING, PWM_FORCE and START are on their way and land 6 cycles later, and so is STOP on a pair that has a wrap ahead;
PWM_SYNC_START starts every named pair; TRIP_CLEAR clears every named latch whose input is inactive; a trip level is accepted at the
end of its filter time. Each equation gives the whole next state. Each of these commands completes (exec answers a next state, which
is written out): pwmWrap, pwmDutyMatch, deadTimeExpire, pwmTimingWrite, pwmForceWrite, pairStart, pairStop, pwmSyncStart,
tripInputAccept, tripClear. -/
def Obligations.LocalPwmCommandsComplete : Prop :=
  (∀ s p w, (s.pwmPair p).wrapAt = some w → s.frame.halted = false → exec (.pwmWrap p) s = .next ((s.toL w).pairWrap p w)) ∧
  (∀ s p, (s.pwmPair p).running = true → s.frame.halted = false → (s.pwmPair p).ref = true →
    (s.pwmPair p).duty ≤ (s.pwmPair p).periodM1 →
    exec (.pwmDutyMatch p) s = .next (
      let s1 := s.toL (s.pwmPair p).dutyAt
      s1.putPair p (s1.pairOutputs p { s.pwmPair p with
        ref := false, counter := BitVec.ofNat 16 (s.pwmPair p).duty, since := (s.pwmPair p).dutyAt }))) ∧
  (∀ s p, ((s.pwmPair p).dtH || (s.pwmPair p).dtL) = true → s.frame.halted = false ∨ (s.pwmPair p).held = true →
    exec (.deadTimeExpire p) s = .next ((s.toL ((s.pwmPair p).dtAt + (s.pwmPair p).deadTime)).setPair p { s.pwmPair p with
      hOn := (s.pwmPair p).hOn || (s.pwmPair p).dtH, lOn := (s.pwmPair p).lOn || (s.pwmPair p).dtL, dtH := false, dtL := false })) ∧
  (∀ s path p v, s.takes (Obj.PWM_TIMING p) v → fld v 31 16 ≠ 0 →
    nbit (s.na (Obj.PAIR_CFG p)) 4 = false ∨ s.tf % ((s.na (Obj.PSC p) + 1) * (fld v 31 16 + 1)) = 0 →
    exec (.pwmTimingWrite path p v) s = .next (
      let x := (s.pwmPair p).landed s.nowL
      (s.setPair p { x with landing := x.landing ++ [(s.nowL + 6, false, v)] }).report path (Obj.PWM_TIMING p) 0)) ∧
  (∀ s path p v, s.takes (Obj.PWM_FORCE p) v → v ≠ 3 ∨ nbit (s.na (Obj.PAIR_CFG p)) 1 = true →
    exec (.pwmForceWrite path p v) s = .next (
      let x := (s.pwmPair p).landed s.nowL
      (s.setPair p { x with landing := x.landing ++ [(s.nowL + 6, true, v)] }).report path (Obj.PWM_FORCE p) 0)) ∧
  (∀ s path p, s.takes (Obj.PAIR_CTRL p) 1 →
    exec (.pairStart path p) s = .next ((s.setPair p { s.pwmPair p with ctrl := (s.pwmPair p).ctrl ++ [(s.nowL + 6, false)] }).report path
      (Obj.PAIR_CTRL p) 0)) ∧
  (∀ s path p, s.takes (Obj.PAIR_CTRL p) 2 → (s.pwmPair p).wrapAt ≠ none →
    exec (.pairStop path p) s = .next ((s.setPair p { s.pwmPair p with ctrl := (s.pwmPair p).ctrl ++ [(s.nowL + 6, true)] }).report path
      (Obj.PAIR_CTRL p) 0)) ∧
  (∀ s path v, s.takes Obj.PWM_SYNC_START v →
    exec (.pwmSyncStart path v) s = .next ((s.each (idxs 16 fun p => nbit v.toNat p) State.pairStart).report path
      Obj.PWM_SYNC_START 0)) ∧
  (∀ s path v, s.takes Obj.TRIP_CLEAR v → ((List.range 4).any fun n => nbit v.toNat n && nbit s.pwm.level.toNat n) = false →
    exec (.tripClear path v) s = .next ((s.each (idxs 4 fun n => nbit v.toNat n) State.tripClear).report path Obj.TRIP_CLEAR 0)) ∧
  (∀ s s0 n edge, s0 = s.toC (edge + s.na (Obj.TRIP_FILT_NS n)) → nbit s0.pwm.level.toNat n = false →
    exec (.tripInputAccept n true edge) s = .next (s0.tripAccept n edge)) ∧
  (∀ s s0 n edge, s0 = s.toC (edge + s.na (Obj.TRIP_FILT_NS n)) → exec (.tripInputAccept n false edge) s
    = .next (({ s0 with pwm := { s0.pwm with level := bset s0.pwm.level n false } }).cause n false))

/-- O25. From the Host Port or the mailbox: SW_OPEN of a class K object with no sequence open opens one with the challenge, the present
time and SW_RESULT 1; a value within the object's type and range is held with SW_RESULT 2; a confirmation with the right CRC closes
the sequence and puts the value into the staged copies of both channels with result 3; both while no more than 1,000,000 ns have
passed since its opening; the timeout lets the clocks run on to that instant and closes it with result 6, and a write of SW_OPEN or
SW_CONFIRM that comes later, be it only from a path that has no sequences, closes it so first; the expiry of DEBUG_PERMIT clears it.
Each of these commands completes (exec answers a next state, which is written out): swOpen, swValueWrite, swConfirm, swTimeout,
debugPermitExpire. -/
def Obligations.SafetyWritesComplete : Prop :=
  (∀ s p v ch, s.takes Obj.SW_OPEN v → swPath p = true → s.wt.sw = none → isClassK v.toNat = true →
    exec (.swOpen p v ch) s = .next ((({ s with
        wt := { s.wt with
          sw := some ⟨pathNum p, v.toNat, ch.zeroExtend 32, none, s.nowL⟩, swResult := 1 } }).setL Obj.SW_CHALLENGE
        (ch.zeroExtend 32)).report p Obj.SW_OPEN 0)) ∧
  (∀ s p o r i j v, s.boot.resetLow = false → s.wt.sw = some o → s.nowL ≤ o.openedAt + 1000000 → swPath p = true → o.path = pathNum p →
    rowOf o.key = some (r, i, j) → r.cls = .k → r.ty.fits v = true → r.rng.ok (v &&& w32 r.bits) = true →
    exec (.swValueWrite p o.key v) s = .next (({ s with
        wt := { s.wt with
          sw := some { o with value := some (v &&& w32 r.bits) }, swResult := 2 } }).report p o.key 0)) ∧
  (∀ s p o x, s.takes Obj.SW_CONFIRM (crc32c (swBytes o x)) → s.wt.sw = some o → s.nowL ≤ o.openedAt + 1000000 → swPath p = true → o.path = pathNum p →
    o.value = some x → o.key ≠ Obj.SBK_RESET → o.key ≠ Obj.TEST_PERMIT → o.key ≠ Obj.DEBUG_PERMIT →
    exec (.swConfirm p (crc32c (swBytes o x))) s = .next ((((({ s with wt := { s.wt with sw := none } }).setKS o.key x).setS o.key
      x).swEnd 3).report p Obj.SW_CONFIRM 0)) ∧
  (∀ s o, s.wt.sw = some o → exec .swTimeout s = .next ((s.toL (o.openedAt + 1000000)).swClose.swEnd 6)) ∧
  (∀ s p o v ch, s.wt.sw = some o → o.openedAt + 1000000 < s.nowL → swPath p = false →
    wrSwOpen p v ch s = refused6 (s.swClose.swEnd 6) ∧ wrSwConfirm p v s = refused6 (s.swClose.swEnd 6)) ∧
  (∀ s, exec .debugPermitExpire s = .next s.clearDebug)

/-- O26. With WT_FAULT clear, a disagreement, an oscillator fault, a read-back error and a failed copy check put it into WT_FAULT with
their codes, as does a test pulse whose read-back does not follow; a heartbeat timeout while it is supervised is cause HEARTBEAT;
accepted records feed the channels; the expiries of supervision give their causes while their conditions hold; a PDU of an enabled RX
connection without PAR is checked, with PAR its first half is held; with a PRP trailer the second copy of a PDU within 400 ms is
discarded; the halves' window, the watchdog and the TX sending, which forms the frame of each LAN, do as R404 to R407 say. Each of
these commands completes (exec answers a next state, which is written out): wtChannelDisagree, wtOscFault, outTestPulse,
readbackError, kcopyCrcCheck, heartbeatTimeout, wtRecordAccept, measLostExpire, slvDiscExpire, wtPulseEdge, slsDiscExpire,
safetyPduReceive, sdWatchdogExpire, sdTxSend, slsTimeout, parWindowExpire. -/
def Obligations.WatchtowerEventsComplete : Prop :=
  (∀ s, exec .wtChannelDisagree s = .next (s.wtFail 1)) ∧
  (∀ s, exec .wtOscFault s = .next (({ s with power := { s.power with wtOsc := false } }).wtFail 2)) ∧
  (∀ s b, (if b then s.wt.outB else s.wt.outA) = false → s.power.safeOut = false → nbit (s.nk Obj.WT_FUNC_EN) 3 = true →
    exec (.outTestPulse b false) s = .next (s.wtFail (if b then 4 else 3)) ∧ exec (.outTestPulse b true) s = .next s) ∧
  (∀ s b, exec (.readbackError b) s = .next (s.wtFail (if b then 4 else 3))) ∧
  (∀ s, exec (.kcopyCrcCheck false) s = .next (s.wtFail 5) ∧ exec (.kcopyCrcCheck true) s = .next s) ∧
  (∀ s, s.frame.ticking = true → nbit (s.nk Obj.WT_FUNC_EN) 0 = true → s.wt.hbSuspended = false →
    exec .heartbeatTimeout s = .next (({ s with wt := { s.wt with hbTimeout := true } }).cause 11 true)) ∧
  (∀ s n (r : BitVec 128), s.frame.ticking = true → r.getLsbD 30 = false → r.getLsbD 28 = false → exec (.wtRecordAccept n r) s = .next (
    let t : State := { s with wt := { s.wt with seen := n :: s.wt.seen.filter (· != n), supervised := n :: s.wt.supervised.filter (· != n), lostRun := tput (fun _ => 0) s.wt.lostRun n 0 } }
    let u := ((List.range (min 6 (r.extractLsb' 20 4).toNat)).map fun i => r.extractLsb' (32 + 16 * i) 16).foldl (fun s x =>
      s.wtSample n (if r.getLsbD 31 then (if x.toInt < 0 then -32768 else 32768) else x.toInt)) t
    u.cause 10 ((idxs 64 u.streamLost) ≠ []))) ∧
  (∀ s n, s.frame.ticking = true → s.streamLost n = true → exec (.measLostExpire n) s = .next (s.cause 10 true)) ∧
  (∀ s v, nbit s.wt.slvDisc.toNat v = true → s.nk (Obj.SLV_REACT v) = 2 → exec (.slvDiscExpire v) s
    = .next (({ s with wt := { s.wt with slvHeld := bset s.wt.slvHeld v true } }).cause 6 true)) ∧
  (∀ s n t, s.frame.ticking = false → (vget ⟨none, none, 0⟩ s.wt.sls n).last = none → exec (.wtPulseEdge n t) s
    = .next { s with wt := { s.wt with sls := vset s.wt.sls n { vget ⟨none, none, 0⟩ s.wt.sls n with last := some t }, slsTimeout := bset s.wt.slsTimeout n false } }) ∧
  (∀ s n, ({ s with wt := { s.wt with slsTimeout := bset s.wt.slsTimeout n true } } : State).slsDiffer = true →
    exec (.slsTimeout n) s = .next { s with wt := { s.wt with slsTimeout := bset s.wt.slsTimeout n true } }) ∧
  (∀ s, s.frame.ticking = true → s.slsDiffer = true → s.nk Obj.SLS_REACT = 2 → exec .slsDiscExpire s = .next (s.cause 9 true)) ∧
  (∀ s c en3 bs, s.connEn c = true → s.connTx c = false → s.connPar c = false →
    exec (.safetyPduReceive c en3 none bs) s = .next (s.pduHandle c bs)) ∧
  (∀ s c en3 q bs, s.connEn c = true → s.connTx c = false → s.connPar c = false →
    exec (.safetyPduReceive c en3 (some q) bs) s = .next (
      let recent := (s.conn c).prp.filter fun y => decide (y.1 ≠ q) && decide (s.nowL < y.2.2 + 400000000)
      if s.prpTwin c en3 q then s.setConn c { s.conn c with prp := recent }
      else (s.setConn c { s.conn c with prp := (q, en3, s.nowL) :: recent }).pduHandle c bs)) ∧
  (∀ s c en3 prp bs, s.connEn c = true → s.connTx c = false → s.connPar c = true → (s.conn c).half = none →
    exec (.safetyPduReceive c en3 prp bs) s = .next (s.setConn c { s.conn c with half := some (en3, bs) })) ∧
  (∀ s c, (s.conn c).half.isSome = true → exec (.parWindowExpire c) s
    = .next ((s.setConn c { s.conn c with half := none }).incL Obj.SD_PAR_MISMATCH_CNT)) ∧
  (∀ s c, s.connRx1 c = true → (s.conn c).st = .run → exec (.sdWatchdogExpire c) s
    = .next (((s.setConn c { s.conn c with st := .failed }).incL (Obj.CONN_FAIL_CNT c)).irqEdge 11 2).sdCauses) ∧
  (∀ s c, s.connEn c = true → s.connTx c = true → s.frame.ticking = true → (s.conn c).st ≠ .failed → (s.conn c).st ≠ .run →
    exec (.sdTxSend c) s = .next (
      let pdu := pduBytes 0x10 0 (s.conn c).txSeq (s.connId c) []
      let frame (lanB : Bool) := sdFrame pdu (if s.connPar c then none else some (s.wt.prpSeq, lanB))
      let t : State := { s with wt := { s.wt with prpSeq := if s.connPar c then s.wt.prpSeq else s.wt.prpSeq + 1 } }
      t.setConn c { s.conn c with
        st := .run, txSeq := ((s.conn c).txSeq + 1) % 65536, sent := pdu, frames := (frame false, frame true) })) ∧
  (∀ s : State, s.wt.fault = true → ∀ code, s.wtFail code = s)

/-- O27. With no flash operation busy and a slot that does not run, an erase starts the slot's erase, a finish and a save write out the
open page and start their operation; while the boot waits for a host image the submission is taken. A word of IMG_DATA at an aligned
offset below 4 MiB goes to the host-load memory while the boot waits for one (once its bank is on), and else joins the open page, and
the offset advances by 4. When a flash operation ends, the oldest one takes effect and its outcome goes to IMG_STATUS. Each of these
commands completes (exec answers a next state, which is written out): imgEraseA, imgEraseB, imgFinishA, imgFinishB, imgHostLoad,
imgSaveActive, imgData, flashOpDone. -/
def Obligations.ImageCommandsComplete : Prop :=
  (∀ s p, s.takes Obj.IMG_CTRL 1 → s.runs 0 = false → s.imgBusy = false → s.nl Obj.IMG_STATUS ≠ 7 →
    exec (.imgEraseA p) s = .next (((s.setImg { s.img with slot := 0, page := [] }).flashOp (.erase 0)).report p Obj.IMG_CTRL 0)) ∧
  (∀ s p, s.takes Obj.IMG_CTRL 2 → s.runs 1 = false → s.imgBusy = false → s.nl Obj.IMG_STATUS ≠ 7 →
    exec (.imgEraseB p) s = .next (((s.setImg { s.img with slot := 1, page := [] }).flashOp (.erase 1)).report p Obj.IMG_CTRL 0)) ∧
  (∀ s p, s.takes Obj.IMG_CTRL 3 → s.runs 0 = false → s.imgBusy = false →
    exec (.imgFinishA p) s = .next ((s.flushPage.flashOp (.finish 0)).report p Obj.IMG_CTRL 0)) ∧
  (∀ s p, s.takes Obj.IMG_CTRL 4 → s.runs 1 = false → s.imgBusy = false →
    exec (.imgFinishB p) s = .next ((s.flushPage.flashOp (.finish 1)).report p Obj.IMG_CTRL 0)) ∧
  (∀ s p, s.takes Obj.IMG_CTRL 5 → s.boot.hostLoad = true → s.boot.submitted = false →
    exec (.imgHostLoad p) s = .next ((({ s with boot := { s.boot with submitted := true, loading := 2, step := .payload } }).imgStatus
      1).report p Obj.IMG_CTRL 0)) ∧
  (∀ s p, s.takes Obj.IMG_CTRL 6 → s.imgBusy = false →
    exec (.imgSaveActive p) s = .next ((s.flushPage.flashOp (.save s.saveSlot)).report p Obj.IMG_CTRL 0)) ∧
  (∀ s p v, s.takes Obj.IMG_DATA v → s.nl Obj.IMG_OFFSET % 4 = 0 → s.nl Obj.IMG_OFFSET < 0x400000 → s.boot.hostLoad = true →
    exec (.imgData p v) s = .next ((((s.ownerOn (acqAddr (s.nl Obj.IMG_OFFSET) / 65536)).wrW (acqAddr (s.nl Obj.IMG_OFFSET)) v).setLN Obj.IMG_OFFSET
      (s.nl Obj.IMG_OFFSET + 4)).report p Obj.IMG_DATA 0)) ∧
  (∀ s p v, s.takes Obj.IMG_DATA v → s.nl Obj.IMG_OFFSET % 4 = 0 → s.nl Obj.IMG_OFFSET < 0x400000 → s.boot.hostLoad = false →
    s.imgBusy = false → s.runs s.img.slot = false → s.nl Obj.IMG_OFFSET ≠ 0x3C → s.img.page = [] →
    (slotBase s.img.slot + s.nl Obj.IMG_OFFSET + 4) % 256 ≠ 0 →
    exec (.imgData p v) s = .next (((s.setImg { s.img with
      pageAddr := slotBase s.img.slot + s.nl Obj.IMG_OFFSET, page := leBytes 4 v.toNat }).setLN Obj.IMG_OFFSET
      (s.nl Obj.IMG_OFFSET + 4)).report p Obj.IMG_DATA 0)) ∧
  (∀ s o, s.img.ops = [o] → exec (.flashOpDone true) s = .next (
    let r := s.flashDone o
    (r.1.setImg { r.1.img with ops := [] }).imgStatus r.2)) ∧
  (∀ s o, s.img.ops = [o] → exec (.flashOpDone false) s = .next ((s.setImg { s.img with ops := [] }).imgStatus 4))

/-- O28. A write of FAULT_ACK_HI that passes the checks acknowledges the sources named by the held low half and the word; a write of
FAULT_FORCE_HI outside RUN and RIDETHROUGH forces them; the end of an E, L or K self-test of the collector ends that test with the
outcome of its verdict; the K test runs on an engine that is enabled and has no task; a K test that has not run for 65,536 frames
ends with result 7 for every source it serves and counts in ST_SKIP_CNT. Each of these commands completes (exec answers a next state,
which is written out): faultAck, faultForce, selfTestEDone, selfTestLDone, selfTestKDone, selfTestSkip. -/
def Obligations.FaultCommandsComplete : Prop :=
  (∀ s p hi, s.takes Obj.FAULT_ACK_HI hi →
    exec (.faultAck p hi) s
      = .next (((s.faultAck (pathNum p) (s.lowHeld p Obj.FAULT_ACK_LO 0) hi).dropLow p).report p Obj.FAULT_ACK_HI 0)) ∧
  (∀ s p hi, s.takes Obj.FAULT_FORCE_HI hi → s.mode ≠ .run → s.mode ≠ .ridethrough →
    exec (.faultForce p hi) s
      = .next (((s.faultForce (s.lowHeld p Obj.FAULT_FORCE_LO 0) hi).dropLow p).report p Obj.FAULT_FORCE_HI 0)) ∧
  (∀ s t good, s.findTest .e (fun _ => true) = some t →
    exec (.selfTestEDone good) s = .next (s.testOutcome t good true)) ∧
  (∀ s t lane blocks, s.findTest .l (fun t => t.resource == lane && decide (t.frame + 16 < s.frame.count)) = some t →
    exec (.selfTestLDone lane blocks) s = .next (s.testOutcome t (decide (t.errors + blocks ≤ s.na Obj.LANE_ST_THR)) false)) ∧
  (∀ s t e good, s.findTest .k (fun t => t.resource == e && s.engEnabled e && (s.running e).isNone) = some t →
    exec (.selfTestKDone e good) s = .next (s.testOutcome t good false)) ∧
  (∀ s t e, s.findTest .k (fun t => t.resource == e && decide (t.frame + 65536 ≤ s.frame.count)) = some t →
    exec (.selfTestSkip e) s
      = .next (((s.dropTest t).each (s.testSources t) fun s n => s.setResult n 7).incL Obj.ST_SKIP_CNT))

/-- O29. With PAIR_EN=1 and both Mirror Link lanes in DATA, an ACTIVE device takes a correct train of a partner that is not active: it
counts the train and keeps the partner's flags. A MIRROR device heeds the time of an active partner's train of its own layout and
adopts its content; the packet is what the blocks of the two lanes carry. A partner silent for MIRROR_LOSS_FRAMES frames is declared
lost. The wait of the mirror start ends with the device's own clock. Eight pings are sent with successive tags, a ping received is
answered with its tag and the turnaround, and a reply gives a round trip and the new delay. An edge of ARB_ACT is counted. A SWAP_REQ
of an ACTIVE device whose partner is synchronised starts the swap, and its timeout ends it with 5. Each of these commands completes
(exec answers a next state, which is written out): mirrorWaitExpire, pairTrainReceive, mirrorPingSend, mirrorPingReceive,
mirrorPingReplyReceive, partnerLost, arbActChange, swapReq, swapTimeout. -/
def Obligations.PairCommandsComplete : Prop :=
  (∀ s a b bytes t, (s.toC (t / 4)).ga Obj.PAIR_EN = 1 → (s.toC (t / 4)).mirrorLanes = true → mirrorPacket a b = bytes →
    (s.toC (t / 4)).pair.role = .active → packetOk bytes = true →
    pfld bytes 0x0D 1 ≠ 1 → exec (.pairTrainReceive a b t) s = .next (
      let s1 := s.toC (t / 4)
      ({ s1.incL Obj.MIRROR_RX_CNT with
          pair := { s1.pair with
              partnerFlags := pfld bytes 0x0F 1, silent := 0, heard := true,
                partnerSbk := if s1.accepts bytes then nbit (pfld bytes 0x0F 1) 1 else s1.pair.partnerSbk } }).setPartnerLost false)) ∧
  (∀ s a b t, (s.toC (t / 4)).ga Obj.PAIR_EN = 1 → (s.toC (t / 4)).mirrorLanes = true →
    (s.toC (t / 4)).pair.role ≠ .active → (s.toC (t / 4)).mode ≠ .mirror →
    packetOk (mirrorPacket a b) = false → exec (.pairTrainReceive a b t) s = .next (s.toC (t / 4))) ∧
  (∀ s a b bytes (t : Nat) u, (s.toC (t / 4)).heardTrain bytes true = u → (s.toC (t / 4)).ga Obj.PAIR_EN = 1 →
    (s.toC (t / 4)).mirrorLanes = true → mirrorPacket a b = bytes →
    (s.toC (t / 4)).pair.role ≠ .active → packetOk bytes = true → 36 ≤ bytes.length → pfld bytes 0x0D 1 = 1 →
    let q : Int := (t : Int) - u.pair.delayQ - pfld bytes 8 4
    u.boot.mirrorWait = false → u.mode = .mirror → pfld bytes 0x14 2 = u.mirLen → bytes.length = u.mirLen →
    exec (.pairTrainReceive a b t) s = .next ((u.heedPartner (pfld bytes 0 8) q t).adopt bytes (u.tickError q).2.toNat)) ∧
  (∀ s, s.ga Obj.PAIR_EN = 1 → s.na Obj.MIRROR_LOSS_FRAMES ≤ s.pair.silent → exec .partnerLost s = .next (s.setPartnerLost true)) ∧
  (∀ s, s.boot.mirrorWait = true → exec .mirrorWaitExpire s = .next { s.setClock with
    boot := { s.setClock.boot with mirrorWait := false }, pair := { s.setClock.pair with offset := 0, startRef := none } }) ∧
  (∀ s ts, s.mirrorUp = true → exec (.mirrorPingSend ts) s = .next (
      let tags := (List.range 8).map fun i => (s.pair.nextTag + i) % 65536
      ({ s with pair := { s.pair with pings := tags.zip ts.toList, trips := [], nextTag := (s.pair.nextTag + 8) % 65536 } } : State).each
        tags fun s g => s.trainOut 32 [mirrorSot 6 g, mirrorEot 0] s.nowC)) ∧
  (∀ s g t tx reply, s.mirrorUp = true → g < 65536 → mirrorSot 7 ((tx - t) % 4294967296 * 65536 + g) = reply →
    exec (.mirrorPingReceive (mirrorSot 6 g) t tx) s
      = .next (({ s with pair := { s.pair with pingReply := some reply } } : State).trainOut 32 [reply, mirrorEot 0] s.nowC)) ∧
  (∀ s (tag turn t sent : Nat), s.mirrorUp = true → tag < 65536 → turn < 4294967296 →
    s.pair.pings.find? (fun x => x.1 == tag) = some (tag, sent) →
    exec (.mirrorPingReplyReceive (mirrorSot 7 (turn * 65536 + tag)) t) s = .next { s with
        pair := { s.pair with
          pings := s.pair.pings.filter fun y => y.1 != tag
          trips := ((t : Int) - sent - turn) :: s.pair.trips
          delayQ := floorDiv ((((t : Int) - sent - turn) :: s.pair.trips).sum + ((((t : Int) - sent - turn) :: s.pair.trips).length : Int)
          * s.ia Obj.ML_ASYM_Q) (2 * ((((t : Int) - sent - turn) :: s.pair.trips).length : Int)) } }) ∧
  (∀ s level t u, s.toC t = u → level ≠ u.pair.arbIn → u.pair.swap = false → exec (.arbActChange level t) s
    = .next (({ u with pair := { u.pair with arbIn := level } }).incL Obj.ARB_EDGE_CNT)) ∧
  (∀ s p, s.takes Obj.SWAP_REQ 1 → s.pair.role = .active → nbit s.pair.partnerFlags 2 = true → exec (.swapReq p) s
    = .next ((({ s with pair := { s.pair with swap := true } }).setLN Obj.SWAP_RESULT 1).report p Obj.SWAP_REQ 0)) ∧
  (∀ s, s.pair.swap = true → exec .swapTimeout s
    = .next (((({ s with pair := { s.pair with swap := false } }).setLN Obj.SWAP_RESULT 5).irqEdge 12 3).raise 61))

/-- O30. A bank that wakes from off comes on with every byte 0, one that wakes from retention keeps its bytes; a bank that is on and that
its owner does not need enters retention; a reported error is counted, its address kept and its source raised, and a word with an
uncorrectable error holds its stored bits; a march request of a bank starts the march; its end gives result 2 when no word failed; a
background row without a failing word, with no requested march under way, advances the row; KEY_INSTALL of 32 bytes writes the key
and KEY_STATE; a tamper level is accepted, with a wipe where TAMPER_EN has its bit, and released; a supply or temperature that leaves
its range wipes, and the Watchtower's own supply leaves the safe outputs undriven; a listed transition starts fusing with LC_RESULT
7; a good fuse pair reaches the target state and wipes the secure bank. Each of these commands completes (exec answers a next state,
which is written out): eccCorrected, eccUncorrectable, marchRequest, marchDone, marchBgRow, bankWakeDone, bankRetentionEnter,
tamperAccept, supplyOutOfRange, tempOutOfRange, keyInstall, lcReqProvision, lcReqDeploy, lcReqReturn, lcReqScrap, lcFuseDone,
tamperRelease. -/
def Obligations.MemoryCommandsComplete : Prop :=
  (∀ s b, (s.bank b).pwr = .waking true → exec (.bankWakeDone b) s
    = .next (({ s with sram := tclear (bankAddr b 0) (bankAddr (b + 1) 0) s.sram }).setBank b { s.bank b with pwr := .on })) ∧
  (∀ s b, (s.bank b).pwr = .waking false → exec (.bankWakeDone b) s = .next (s.setBank b { s.bank b with pwr := .on })) ∧
  (∀ s b, (s.bank b).pwr = .on → s.wantsRetention b = true → exec (.bankRetentionEnter b) s
    = .next (s.setBank b { s.bank b with pwr := .retention })) ∧
  (∀ s b w, exec (.eccCorrected b w) s = .next (((s.incL Obj.ECC_CORR_CNT).setLN Obj.LAST_ECC_ADDR (b * 65536 + w)).raiseAs 0
    (s.faultClass 0) (bankRes b w) .e)) ∧
  (∀ s b w bits, exec (.eccUncorrectable b w bits) s = .next ((((s.putBank b w bits).incL Obj.ECC_UNCORR_CNT).setLN Obj.LAST_ECC_ADDR
    (2147483648 + b * 65536 + w)).raiseAs 1 (s.faultClass 1) (bankRes b w) .e)) ∧
  (∀ s p v, s.takes Obj.MARCH_CTRL v → nbit v.toNat 31 = true → nbit v.toNat 30 = false → fld v 7 0 ≤ 172 → fld v 29 28 ≤ 1 →
    s.mem.march = none → exec (.marchRequest p v) s = .next (({ (s.setBank (fld v 7 0) { s.bank (fld v 7 0) with
      marchBusy := true }).marchResult 1 with mem := { ((s.setBank (fld v 7 0) { s.bank (fld v 7 0) with
      marchBusy := true }).marchResult 1).mem with march := some ⟨fld v 7 0, false, fld v 29 28, s.nowL⟩ } }).report p Obj.MARCH_CTRL 0)) ∧
  (∀ s m, s.mem.march = some m → m.destructive = false → exec (.marchDone []) s
    = .next ((s.marchEnd.marchResult 2).incL Obj.MARCH_DONE_CNT)) ∧
  (∀ s corr, s.ga Obj.MARCH_BG_EN = 1 → s.mem.bgRow + 1 < 44160 → (s.bank (s.mem.bgRow / 256)).pwr ≠ .off →
    s.mem.march = none → exec (.marchBgRow corr none) s
    = .next { s.addL Obj.ECC_CORR_CNT corr with mem := { s.mem with bgRow := s.mem.bgRow + 1 } }) ∧
  (∀ s p bs, s.boot.resetLow = false → bs.length = 32 → s.keyPresent = false → s.mem.life = .provisioned ∨ s.mem.life = .deployed →
    s.mode ≠ .run → s.mode ≠ .ridethrough → s.mode ≠ .mirror → exec (.keyInstall p bs) s
    = .next (((((s.wrBytes (secAddr 0) bs).wrW (secAddr 0x20) 1).tamperLog 6).raise 47).report p Obj.KEY_INSTALL 0)) ∧
  (∀ s n t, s.boot.resetLow = false → nbit s.mem.tamper.toNat n = false →
    (({ s with mem := { s.mem with tamper := bset s.mem.tamper n true } } : State).incL Obj.TAMPER_CNT).raise 47 = t →
    t.mem.fusing = none → exec (.tamperAccept n) s = .next (
    if nbit (t.na Obj.TAMPER_EN) n then t.wipe (n + 1) else t)) ∧
  (∀ s n, exec (.tamperRelease n) s = .next { s with mem := { s.mem with tamper := bset s.mem.tamper n false } }) ∧
  (∀ s safe, exec (.supplyOutOfRange safe) s = .next (({ s with power := { s.power with safeOut := s.power.safeOut || safe } } : State).wipe 3)) ∧
  (∀ s, s.power.tempOut = false → exec .tempOutOfRange s
    = .next (({ s with power := { s.power with tempOut := true } } : State).wipe 4)) ∧
  (∀ s p, s.takes Obj.LC_REQ 0x4C430001 → s.mem.fusing = none → s.mem.life = .blank → s.boot.selPins = 3 →
    s.mode ≠ .run → s.mode ≠ .ridethrough → s.mode ≠ .mirror → exec (.lcReqProvision p) s
    = .next (({ s.lcResult 7 with mem := { s.mem with fusing := some .provisioned } }).report p Obj.LC_REQ 0)) ∧
  (∀ s p, s.takes Obj.LC_REQ 0x4C430002 → s.mem.fusing = none → s.mem.life = .provisioned → s.keyPresent = true →
    s.mode ≠ .run → s.mode ≠ .ridethrough → s.mode ≠ .mirror → exec (.lcReqDeploy p) s
    = .next (({ s.lcResult 7 with mem := { s.mem with fusing := some .deployed } }).report p Obj.LC_REQ 0)) ∧
  (∀ s p, s.takes Obj.LC_REQ 0x4C430003 → s.mem.fusing = none → s.mem.life = .provisioned ∨ s.mem.life = .deployed →
    s.mode ≠ .run → s.mode ≠ .ridethrough → s.mode ≠ .mirror → exec (.lcReqReturn p) s
    = .next (({ s.lcResult 7 with mem := { s.mem with fusing := some .returned } }).report p Obj.LC_REQ 0)) ∧
  (∀ s p, s.takes Obj.LC_REQ 0x4C430004 → s.mem.fusing = none → s.mem.life ≠ .scrapped →
    s.mode ≠ .run → s.mode ≠ .ridethrough → s.mode ≠ .mirror → exec (.lcReqScrap p) s
    = .next (({ s.lcResult 7 with mem := { s.mem with fusing := some .scrapped } }).report p Obj.LC_REQ 0)) ∧
  (∀ s t primary, s.mem.fusing = some t → exec (.lcFuseDone true primary) s = .next ((((
    { s with mem := { s.mem with fusing := none, life := t } } : State).wipe 5).fuseTampers true).journal 0x0101
      (w32 (s.mem.life.code * 256 + t.code)) |>.lcResult 1))

/-- O31. A write of COMPLETE that names a level source in service takes it out of service where its condition no longer holds, and where
it still holds sets its pending bit and its ACTIVE bit again; any other word is ignored and counted as spurious. A write of PEND
stores the word without its reserved bits, and counts a race, with path, group and bits, where the word clears pending bits that
hardware set since the path's last read (log entry 7 for bits no longer pending). A read of PEND clears the path's own shadow of the
group. HCLK that stops is counted; HCLK that resumes moves the latches into PEND. Each of these commands completes (exec answers a
next state, which is written out): complete, pendWrite, pendRead, hclkStop, hclkResume. -/
def Obligations.AttentionCommandsComplete : Prop :=
  (∀ s p v g b, s.takes Obj.COMPLETE v → v.toNat / 256 = g → v.toNat % 256 = b → g < 32 → b < 32 →
    nbit (levelMapOf g) b = true → nbit (vget 0 s.irq.active g).toNat b = true → nbit (vget 0 s.irq.level g).toNat b = false →
    exec (.complete p v) s = .next (({ s with
        irq := { s.irq with
          active := vset s.irq.active g (bset (vget 0 s.irq.active g) b false) } }).report p Obj.COMPLETE 0)) ∧
  (∀ s p v g b, s.takes Obj.COMPLETE v → v.toNat / 256 = g → v.toNat % 256 = b → g < 32 → b < 32 →
    nbit (levelMapOf g) b = true → nbit (vget 0 s.irq.active g).toNat b = true → nbit (vget 0 s.irq.level g).toNat b = true →
    exec (.complete p v) s = .next ((s.irqEdge g b).report p Obj.COMPLETE 0)) ∧
  (∀ s p v, s.takes Obj.COMPLETE v → 32 ≤ v.toNat / 256 ∨ 32 ≤ v.toNat % 256 ∨ nbit (levelMapOf (v.toNat / 256)) (v.toNat % 256) = false ∨
      nbit (vget 0 s.irq.active (v.toNat / 256)).toNat (v.toNat % 256) = false →
    exec (.complete p v) s = .next ((s.incL Obj.SPURIOUS_COMPLETE_CNT).report p Obj.COMPLETE 0)) ∧
  (∀ s p g v, s.takes (Obj.PEND g) v →
    vget 0 (vget (Vector.replicate 32 0) s.irq.shadow (pathNum p)) g &&& vget 0 s.irq.pend g &&& ~~~v = 0 →
    exec (.pendWrite p g v) s = .next (({ s with irq := { s.irq with pend := vset s.irq.pend g (v &&& w32 (sourcesOf g)) } }).report p (Obj.PEND g) 0)) ∧
  (∀ s p g v, s.takes (Obj.PEND g) v →
    vget 0 (vget (Vector.replicate 32 0) s.irq.shadow (pathNum p)) g &&& vget 0 s.irq.pend g &&& ~~~v ≠ 0 →
    exec (.pendWrite p g v) s = .next ((((({ s with irq := { s.irq with pend := vset s.irq.pend g (v &&& w32 (sourcesOf g)) } }).incL
      Obj.CLEAR_RACE_CNT).setLN Obj.LAST_RACE_GRP (pathNum p * 256 + g)).setL Obj.LAST_RACE_BITS
        (vget 0 (vget (Vector.replicate 32 0) s.irq.shadow (pathNum p)) g &&& vget 0 s.irq.pend g &&& ~~~v)).report p (Obj.PEND g) 0)) ∧
  (∀ s p g, exec (.pendRead p g) s = .next { s with
      irq := { s.irq with
        shadow := vset s.irq.shadow (pathNum p) (vset (vget (Vector.replicate 32 0) s.irq.shadow (pathNum p)) g 0) } }) ∧
  (∀ s, s.irq.hclkRuns = true →
    exec .hclkStop s = .next (({ s with irq := { s.irq with hclkRuns := false } }).incL Obj.HCLK_STOP_CNT)) ∧
  (∀ s, s.irq.hclkRuns = false → exec .hclkResume s = .next s.hclkEdge ∧ s.hclkEdge.irq.hclkRuns = true ∧
    s.hclkEdge.irq.latch = Vector.replicate 32 0 ∧
    ∀ g, vget 0 s.hclkEdge.irq.pend g = vget 0 s.irq.pend g ||| vget 0 s.irq.latch g)

/-- O32. A write that passes the common checks has the object's own effect and is reported on its path. The reads of a result latch and
of the low word of a pair, and the write of the high word of a pair, are accesses of their path; DOM_PTR, a DOMAIN, DOM_END and
OBJ_DATA are accesses of the Host Port. A write into a read-only table is discarded and retired. Each of these commands completes
(exec answers a next state, which is written out): resultLatchRead, wideLowRead, wideHighWrite, domPtrWrite, domainRead, domainWrite,
domEnd, objDataAccess, tableWriteDiscard, registerWrite. -/
def Obligations.ObjectAccessCommandsComplete : Prop :=
  (∀ s p key v, s.takes key v → (objEffect p key v s).2 = 0 →
    exec (.registerWrite p key v) s = .next ((objEffect p key v s).1.report p key 0)) ∧
  (∀ s p key x, s.boot.resetLow = false → p ≠ .host → resultRow key = some x → key = x.latch → key ≠ Obj.OBJ_DATA →
    exec (.resultLatchRead p key) s = .next (s.keyRead p key).1) ∧
  (∀ s key x, s.boot.resetLow = false → resultRow key = some x → key = x.latch → key ≠ Obj.OBJ_DATA →
    exec (.resultLatchRead .host key) s = .next (
      let o := s.keyRead .host key
      o.1.setDict { o.1.dict with hostData := o.2.1 })) ∧
  (∀ s p key, s.boot.resetLow = false → p ≠ .host → wideLow key = true → key ≠ Obj.OBJ_DATA →
    exec (.wideLowRead p key) s = .next (s.keyRead p key).1) ∧
  (∀ s key, s.boot.resetLow = false → wideLow key = true → key ≠ Obj.OBJ_DATA → exec (.wideLowRead .host key) s = .next (
    let o := s.keyRead .host key
    o.1.setDict { o.1.dict with hostData := o.2.1 })) ∧
  (∀ s p key v, s.boot.resetLow = false → wideHigh key = true → key ≠ Obj.OBJ_DATA → (s.keyWrite p key v).2 = 0 →
    exec (.wideHighWrite p key v) s = .next ((s.keyWrite p key v).1.report p key 0)) ∧
  (∀ s p v, s.takes Obj.DOM_PTR v →
    exec (.domPtrWrite p v) s = .next ((objEffect p Obj.DOM_PTR v s).1.report p Obj.DOM_PTR (objEffect p Obj.DOM_PTR v s).2)) ∧
  (∀ s key, s.boot.resetLow = false → isDomain key = true → key ≠ Obj.OBJ_DATA → exec (.domainRead key) s = .next (
    (s.domRead key).1.setDict { (s.domRead key).1.dict with hostData := (s.domRead key).2 })) ∧
  (∀ s key v, s.boot.resetLow = false → isDomain key = true → key ≠ Obj.OBJ_DATA → (s.domWrite key v).2 = 0 →
    exec (.domainWrite key v) s = .next (s.domWrite key v).1.hostRetire) ∧
  (∀ s v, s.boot.resetLow = false → v.toNat ≤ 65535 → (s.domEnd v).2 = 0 → exec (.domEnd v) s = .next (s.domEnd v).1.hostRetire) ∧
  (∀ s v, s.boot.resetLow = false → s.nl Obj.OBJ_SEL ≠ Obj.OBJ_DATA → (s.keyWrite .host (s.nl Obj.OBJ_SEL) v).2 = 0 →
    exec (.objDataAccess (some v)) s = .next (((s.keyWrite .host (s.nl Obj.OBJ_SEL) v).1.setLN Obj.OBJ_RESULT 0).hostRetire)) ∧
  (∀ s, s.boot.resetLow = false → s.nl Obj.OBJ_SEL ≠ Obj.OBJ_DATA → exec (.objDataAccess none) s = .next (
    let o := s.keyRead .host (s.nl Obj.OBJ_SEL)
    let s1 := o.1.setLN Obj.OBJ_RESULT o.2.2
    s1.setDict { s1.dict with hostData := o.2.1 })) ∧
  (∀ s addr off, regionOf addr = some (.ledger off) → exec (.tableWriteDiscard addr) s
    = .next { s.incL Obj.HOST_WR_DISCARD_CNT with dict := { s.dict with fence := s.dict.fence + 1 } })

/-- O33. An access that starts while none is open ends a stop of HCLK, keeps its start and its clock and starts as a write or a read of
its word-aligned address; one abandoned is counted and its waiting or queued read is dropped. The dictionary serves the next entry of
its queue and counts it. While the mailbox is open, an SDO download or upload request enters the queue, a segmented transfer is kept
and acknowledged segment by segment within the buffer, an abort drops it, an unsupported request is answered with its abort, and a
transfer left idle is aborted; what is answered at once waits for the responses of every earlier request. Each of these commands
completes (exec answers a next state, which is written out): hostAccess, hostAccessAbandon, dictService, hpFenceRead,
sdoDownloadInitiate, sdoDownloadSegment, sdoUploadInitiate, sdoUploadSegment, sdoAbortReceive, sdoUnsupported, sdoIdleTimeout. -/
def Obligations.HostAndMailboxCommandsComplete : Prop :=
  (∀ s addr be v clk, s.boot.resetLow = false → s.accessOpen = false → exec (.hostAccess true addr be v clk) s = .next (
    (s.hostEdge.setDict { s.hostEdge.dict with hostStart := s.hostEdge.time.l, hostClk := clk }).hostWriteStart (addr.toNat / 4 * 4) be v)) ∧
  (∀ s addr be v clk, s.boot.resetLow = false → s.accessOpen = false → exec (.hostAccess false addr be v clk) s = .next (
    (s.hostEdge.setDict { s.hostEdge.dict with hostStart := s.hostEdge.time.l, hostClk := clk }).hostReadStart (addr.toNat / 4 * 4))) ∧
  (∀ s q, s.dict.hostWait = some q →
    exec .hostAccessAbandon s = .next { s.incL Obj.HP_ABANDON_CNT with dict := { s.dict with hostWait := none } }) ∧
  (∀ s, s.accessOpen = true → s.dict.hostWait = none →
    exec .hostAccessAbandon s = .next { s.incL Obj.HP_ABANDON_CNT with dict := { s.dict with abandoned := true } }) ∧
  (∀ s clk, s.boot.resetLow = false → s.accessOpen = false → exec (.hpFenceRead clk) s = .next (
    (s.hostEdge.setDict { s.hostEdge.dict with hostStart := s.hostEdge.time.l, hostClk := clk }).hostReadStart (keyAddr Obj.HP_FENCE))) ∧
  (∀ s u q rest, s.budgetWindow = u → u.nextEntry = some (q, rest) → exec .dictService s = .next (
    let s2 := (u.setDict { u.dict with
      queue := rest, served := u.dict.served + 1, hostServed := u.dict.hostServed + b2n q.isHost }).incL Obj.SERVED_CNT
    ((if q.isHost then s2.serveHost q else (s2.serveSdo q).fnServed).entryFreed).hostSettle 10)) ∧
  (∀ s (idx : BitVec 16) (sub : BitVec 8) size bytes, s.mbxOpen = true →
    exec (.sdoDownloadInitiate idx sub true size bytes) s
      = .next ((s.setXfer none).sdoAdmit (.sdoDownload idx.toNat sub.toNat bytes))) ∧
  (∀ s (idx : BitVec 16) (sub : BitVec 8) size bytes, s.mbxOpen = true → bytes.length < size →
    exec (.sdoDownloadInitiate idx sub false size bytes) s = .next (
      (s.setXfer (some ⟨idx.toNat, sub.toNat, false, size, bytes, false⟩)).reply (.downloadStarted idx.toNat sub.toNat))) ∧
  (∀ s x bytes, s.mbxOpen = true → s.dict.xfer = some x → x.upload = false → (x.bytes ++ bytes).length ≤ domBufBytes →
    exec (.sdoDownloadSegment x.toggle false bytes) s
    = .next ((s.setXfer (some { x with bytes := x.bytes ++ bytes, toggle := !x.toggle })).reply (.segmentAck x.toggle))) ∧
  (∀ s x bytes, s.mbxOpen = true → s.dict.xfer = some x → x.upload = false → (x.bytes ++ bytes).length = x.size → x.size ≤ domBufBytes →
    exec (.sdoDownloadSegment x.toggle true bytes) s
      = .next ((s.setXfer none).sdoAdmit (.sdoApply x.index x.sub (x.bytes ++ bytes) x.toggle))) ∧
  (∀ s (idx : BitVec 16) (sub : BitVec 8), s.mbxOpen = true →
    exec (.sdoUploadInitiate idx sub) s = .next ((s.setXfer none).sdoAdmit (.sdoUpload idx.toNat sub.toNat))) ∧
  (∀ s x, s.mbxOpen = true → s.dict.xfer = some x → x.upload = true → exec (.sdoUploadSegment x.toggle) s = .next (
    let rest := x.bytes.drop segmentBytes
    (s.setXfer (if rest.isEmpty then none else some { x with bytes := rest, toggle := !x.toggle })).reply
      (.segment x.toggle (x.bytes.take segmentBytes) rest.isEmpty))) ∧
  (∀ s, s.mbxOpen = true → exec .sdoAbortReceive s = .next (s.setXfer none)) ∧
  (∀ s, s.mbxOpen = true → exec (.sdoUnsupported true) s = .next (s.abortReply 0x06010000)) ∧
  (∀ s, s.mbxOpen = true → exec (.sdoUnsupported false) s = .next (s.reply .mailboxError)) ∧
  (∀ s x, s.dict.xfer = some x → exec .sdoIdleTimeout s = .next ((s.setXfer none).abortReply 0x05040000))

/-- O34. Out of reset, the requests for INIT, PREOP, SAFEOP and OP change the application-layer state where it allows them and both
process-data maps are valid for OP; INIT also drops the mailbox's transfer, its responses and its queue entries, which makes room for
a host request that waits. In OP a process-data frame of the mapped length is applied in order, and the watchdog's expiry leaves OP
for SAFEOP with its code and is counted. A poll of the PHYs and a change of a port's SGMII synchronisation set the ports' link state.
A START of MDIO_CMD runs one management frame, whose end gives its result and, for a read, its data. Each of these commands completes
(exec answers a next state, which is written out): alReqInit, alReqPreop, alReqSafeop, alReqOp, rxpdoReceive, pdWatchdogExpire,
mdioPoll, mdioCmd, mdioFrameDone, sgmiiSyncChange. -/
def Obligations.NetworkAndPhyCommandsComplete : Prop :=
  (∀ s, s.boot.resetLow = false → exec .alReqInit s = .next ((({ s with
      dict := { s.dict with
        al := .init, alCode := 0, xfer := none, responses := [], waiting := [], queue := s.dict.queue.filter QReq.isHost,
        mbxHeld := false } } : State).entryFreed).hostSettle 10)) ∧
  (∀ s, s.boot.resetLow = false → exec .alReqPreop s = .next { s with dict := { s.dict with al := .preOp, alCode := 0 } }) ∧
  (∀ s, s.boot.resetLow = false → s.dict.al ≠ .init →
    exec .alReqSafeop s = .next { s with dict := { s.dict with al := .safeOp, alCode := 0 } }) ∧
  (∀ s, s.boot.resetLow = false → s.dict.al = .safeOp ∨ s.dict.al = .op → s.pdoValid true = true → s.pdoValid false = true →
    exec .alReqOp s = .next { s with dict := { s.dict with al := .op, alCode := 0, pdWdt := false } }) ∧
  (∀ s bytes, s.dict.al = .op → bytes.length = ((s.pdoMap true).map pdoSize).sum →
    exec (.rxpdoReceive bytes) s = .next (s.pdoApply (s.pdoMap true) bytes)) ∧
  (∀ s, s.dict.al = .op → s.na Obj.PD_WDT_MS ≠ 0 → exec .pdWatchdogExpire s = .next (
    ({ s with dict := { s.dict with al := .safeOp, alCode := 0x001B, pdWdt := true } }).incL Obj.PD_WDT_CNT)) ∧
  (∀ s links, exec (.mdioPoll links) s = .next (
    let en : BitVec 4 := BitVec.ofNat 4 ((idxs 4 fun i => nbit (s.na Obj.PHY_ADDR) (8 * i + 7)).map fun i => 2 ^ i).sum
    (s.setDict { s.dict with phyLink := (s.dict.phyLink &&& ~~~en) ||| (links &&& en) }).portsFollow)) ∧
  (∀ s (port : Fin 4) sync, exec (.sgmiiSyncChange port sync) s
    = .next (s.setDict { s.dict with sgmiiSync := bset s.dict.sgmiiSync port.val sync }).portsFollow) ∧
  (∀ s p v, s.takes Obj.MDIO_CMD v → nbit (keepBits Obj.MDIO_CMD v).toNat 31 = true → s.dict.mdio = none →
    exec (.mdioCmd p v) s = .next ((({ s with dict := { s.dict with mdio := some (false, keepBits Obj.MDIO_CMD v) } }).setLN
      Obj.MDIO_RESULT 1).report p Obj.MDIO_CMD 0)) ∧
  (∀ s b cmd data, s.dict.mdio = some (b, cmd) → nbit cmd.toNat 30 = false → exec (.mdioFrameDone data) s
    = .next ((({ s with dict := { s.dict with mdio := none } }).setLN Obj.MDIO_RESULT 2).setLN Obj.MDIO_DATA data.toNat)) ∧
  (∀ s b cmd data, s.dict.mdio = some (b, cmd) → nbit cmd.toNat 30 = true → exec (.mdioFrameDone data) s
    = .next (({ s with dict := { s.dict with mdio := none } }).setLN Obj.MDIO_RESULT 2))

/-- O35. A junction temperature sample out of reset, from -50 to 140 °C, is kept with the extremes and sets the two temperature fault
levels. An estimate writes the rows, their sum and the measured supplies and oscillator deviation; a supply sample and its fault
level, the unlock and relock of the core PLL and the fault and recovery of the oscillator are recorded. The instructions of the test
access port load their instruction and data register; EXTEST drives the pins only while RESET_N is low, and SYSRESET resets the
device with cause 3 and starts the boot. Each of these commands completes (exec answers a next state, which is written out):
tjSample, powerEstimate, pllUnlock, xtalFault, extest, idcode, samplePreload, sysreset, bypass, tapReset, supplyMonChange,
corePllRelock, xtalRecover. -/
def Obligations.PowerAndTapCommandsComplete : Prop :=
  (∀ s (t : BitVec 16), s.boot.resetLow = false → t.toInt < (4 * s.na Obj.TJ_WARN_C : Nat) → -200 ≤ t.toInt → t.toInt ≤ 560 → exec (.tjSample t) s = .next (
    let hi := if s.power.tjSampled then max t.toInt (s.il Obj.TJ_MAX) else t.toInt
    let lo := if s.power.tjSampled then min t.toInt (s.il Obj.TJ_MIN) else t.toInt
    let s1 : State := { s with power := { s.power with tj := t.toInt, tjSampled := true, overRun := 0 } }
    let u := (((s1.setLI Obj.TJ_MAX hi).setLI Obj.TJ_MIN lo).faultLevel 39 false).faultLevel 40 (decide (tempCrit < t.toInt))
    { u with power := { u.power with tempOut := false } })) ∧
  (∀ s io core safe ppb, s.boot.resetLow = false → exec (.powerEstimate io core safe ppb) s = .next (
    let w := s.lanesOn 0 32
    let cells := (s.ledger.entries.filter fun x => x.2.enabled).length
    let rows := [160 * w + 5 * (32 - w), 160 * s.lanesOn 32 2 + 95 * s.lanesOn 34 4, s.enginePower,
      300 + 1200 * cells * 1200 / (12288 * max 1 s.tf), s.leakPower, (if s.acq.st = .pretrig ∨ s.acq.st = .post then 500 else 0), min 800 io, 700]
    let s1 := (rows.zipIdx).foldl (fun t x => t.setLN (Obj.BLOCK_EST_MW x.2) x.1) s
    let s2 := (((s1.setLN Obj.POWER_EST_MW rows.sum).setLN Obj.VDD_CORE_MV core).setLN Obj.VDD_SAFE_MV safe).setLI Obj.XTAL_DEV_PPB ppb
    { s2 with power := { s2.power with safeOut := decide (safe < 700) || decide (900 < safe), estAt := s2.nowL, estBusy := Vector.ofFn fun (e : Fin 8) => s2.busyCyc e.val } })) ∧
  (∀ s mv, s.boot.resetLow = false → exec (.supplyMonChange mv) s = .next (
    let bad := decide (mv < 760) || decide (840 < mv)
    (({ s with power := { s.power with supplyBad := bad } }).setLN Obj.VDD_CORE_MV mv).faultLevel 41 bad)) ∧
  (∀ s, s.power.corePll = true → exec .pllUnlock s
    = .next ((({ s with power := { s.power with corePll := false } }).incL Obj.PLL_UNLOCK_CNT).faultLevel 38 true)) ∧
  (∀ s, s.boot.resetLow = false → s.boot.step ≠ .clocks →
    exec .corePllRelock s = .next (({ s with power := { s.power with corePll := true } }).faultLevel 38 false)) ∧
  (∀ s ppb, s.power.xtalOk = true → exec (.xtalFault ppb) s
    = .next ((({ s with power := { s.power with xtalOk := false } }).setLI Obj.XTAL_DEV_PPB ppb).faultLevel 63 true)) ∧
  (∀ s ppb, s.boot.resetLow = false → s.boot.step ≠ .clocks → exec (.xtalRecover ppb) s
    = .next ((({ s with power := { s.power with xtalOk := true } }).setLI Obj.XTAL_DEV_PPB ppb).faultLevel 63 false)) ∧
  (∀ s, exec .bypass s = .next { s with jtag := { s.jtag with ir := .bypass, dr := 0, driving := false } }) ∧
  (∀ s, s.boot.resetLow = true →
    exec .extest s = .next { s with jtag := { s.jtag with ir := .extest, dr := 0, driving := true } }) ∧
  (∀ s, exec .idcode s = .next { s with jtag := { s.jtag with ir := .idcode, dr := 0x19401B2D, driving := false } }) ∧
  (∀ s cells, exec (.samplePreload cells) s
    = .next { s with jtag := { s.jtag with ir := .samplePreload, dr := 0, driving := false, preload := cells } }) ∧
  (∀ s sel, s.boot.resetLow = false → exec (.sysreset sel) s = .next ((s.resetTo true true 3).startBoot sel)) ∧
  (∀ s, exec .tapReset s = .next { s with jtag := { s.jtag with ir := .idcode, dr := 0x19401B2D, driving := false } })

/-- O36. For every command c and every state whose queue is c and the rest, a step is what c does in that state with the rest as its
queue. -/
def Obligations.StepRunsTheFrontCommand : Prop :=
  ∀ (c : Instr) (s : State) (rest : List Instr), s.pending = c :: rest → step s = exec c { s with pending := rest }

/-- O37. With no command waiting a step answers a next state in which the local time is one nanosecond later, converter time has run on
by one nanosecond at its rate, the queue is still empty and the mode, the frame count and both memories are as before. That an idle
step lasts one nanosecond is the model's choice (log entry 10). -/
def Obligations.IdleStepPassesOneNanosecond : Prop :=
  ∀ s : State, s.pending = [] → ∃ t, step s = .next t ∧ t = s.idle ∧ t.time.l = s.time.l + 1 ∧
    t.time.c = s.time.c + rateWord (s.time.rC * 65536) ∧ t.pending = [] ∧ t.mode = s.mode ∧
    t.frame = s.frame ∧ t.sram = s.sram ∧ t.flash = s.flash

/-- O38. Every command, in every state, answers a next state: no command ends in a fault or a refusal, since the spec gives each of them
an effect or none at all. -/
def Obligations.EveryCommandAnswersANextState : Prop :=
  ∀ (c : Instr) (s : State), ∃ t, exec c s = .next t

/-- O39. After reset both memories are in their canonical form, no fusing is under way that would go back, and no command waits. -/
def Obligations.ResetMeetsTheInvariant : Prop :=
  State.reset.Inv ∧ State.reset.pending = []

/-- O40. From every state in which both memories are in their canonical form and a fusing in progress programs no earlier life-cycle
state than the one reached, a step that answers a next state answers one in which the same holds, whatever command stands in front. -/
def Obligations.InvariantKept : Prop :=
  ∀ s t : State, s.Inv → step s = .next t → t.Inv

/-- O41. From a state that meets the invariant, a command leaves the queue as it is; so a step takes exactly the front command, keeps the
others in their order, and an idle step leaves the queue empty. -/
def Obligations.CommandsLeaveTheQueue : Prop :=
  (∀ (c : Instr) (s t : State), s.Inv → exec c s = .next t → t.pending = s.pending) ∧
  (∀ (s t : State), s.Inv → step s = .next t → t.pending = s.pending.tail)

/-- O42. From every state that meets the invariant: the first tick after BOOT, which runs once the loaded configuration is accepted,
leaves the frame count at 0 with the tick begun; a tick raises it by exactly 1, with no bound at which it would wrap, since it is a
natural number; and no other command but a reset changes it. -/
def Obligations.FrameCountRisesByOneEachTick : Prop :=
  (∀ s t : State, s.Inv → s.boot.step = .validation → s.boot.accepted = true → s.boot.mirrorWait = false → exec .firstTick s = .next t →
    t.frame.count = 0 ∧ t.frame.ticking = true) ∧
  (∀ s t : State, s.Inv → s.frame.ticking = true → exec .tick s = .next t → t.frame.count = s.frame.count + 1) ∧
  (∀ (c : Instr) (s t : State), s.Inv → c ≠ .tick → c ≠ .firstTick → c.resets = false → exec c s = .next t →
    t.frame.count = s.frame.count)

/-- O43. From every state that meets the invariant, no command but a reset ends the ticking: no load, overrun, lane event, commit or
debug halt does. This is the part of R21 that one core shows. -/
def Obligations.TheTickNeverStops : Prop :=
  ∀ (c : Instr) (s t : State), s.Inv → c.resets = false → s.frame.ticking = true → exec c s = .next t → t.frame.ticking = true

/-- O44. From every state that meets the invariant in which WT_FAULT is latched, no command but one that resets the device leaves it (the
sentence of R389 on how it is left). -/
def Obligations.WatchtowerFaultLastsUntilReset : Prop :=
  ∀ (c : Instr) (s t : State), s.Inv → c.resets = false → s.wt.fault = true → exec c s = .next t → t.wt.fault = true

/-- O45. From every state that meets the invariant, every command, resets and a failed or interrupted fusing included, leaves a
life-cycle code at least as high as before: the fuses are programmed once. -/
def Obligations.LifeCycleNeverGoesBack : Prop :=
  ∀ (c : Instr) (s t : State), s.Inv → exec c s = .next t → s.mem.life.code ≤ t.mem.life.code

/-- O46. From every state that meets the invariant, every command but FLASH_OP_DONE leaves every byte of the flash as it is, resets
included; a failed operation changes none either. -/
def Obligations.FlashChangesOnlyWhenAnOperationEnds : Prop :=
  (∀ (c : Instr) (s t : State), s.Inv → (∀ ok, c ≠ .flashOpDone ok) → exec c s = .next t → t.flash = s.flash) ∧
  (∀ (s t : State), s.Inv → exec (.flashOpDone false) s = .next t → t.flash = s.flash)

/-- O47. From every state that meets the invariant, the active copy of the S-class objects changes only at a tick (where an accepted
commit takes effect), at the load of an image, at the validation that ends a boot and in a reset: every other command, whatever it
writes on whatever path, leaves it as it is. Two reports of the memories' own behaviour reach the copy besides, and only in the
active copy's own banks 168 and 169: a word there with an uncorrectable error (R452), and the end of a destructive march there
(R453). -/
def Obligations.ActiveCopyChangesOnlyAtACommit : Prop :=
  ∀ (c : Instr) (s t : State), s.Inv → c ≠ .tick → c ≠ .firstTick → c ≠ .payloadLoadDone → c ≠ .bootValidationDone → c.resets = false →
    (∀ b w x, c = .eccUncorrectable b w x → b < 168 ∨ 169 < b) →
    (∀ ws m, c = .marchDone ws → s.mem.march = some m → m.destructive = true → m.bank < 168 ∨ 169 < m.bank) →
    exec c s = .next t → t.act = s.act

/-- O48. For every engine that can issue and every word of the six multiplying instructions without moves: the contribution of a product
is twice the exact product of the two signed operands with FM = 1 and the product with FM = 0; the accumulator takes the exact sum in
72-bit arithmetic, or the nearer limit, which sets AV; AV is otherwise kept; GU is set exactly when a result lies outside the 64-bit
signed range. The data registers, the address registers, the memories and the other engines stay as the issue left them. -/
def Obligations.MultiplyAccumulate : Prop :=
  ∀ (s : State) (e st : Nat) (w : BitVec 64) (x : PWord) (s1 : State), PWord.of w = x → s.canIssue e = true → s.issue e st w = s1 → x.mx = 0 → x.my = 0 → x.f1 = 0 →
    let r := (s1.eng e).r
    let p (a b : Word) : Int := if nbit r.flg.toNat 24 then 2 * (a.toInt * b.toInt) else a.toInt * b.toInt
    let frame (t : State) : Prop := (t.eng e).r.d = r.d ∧ (t.eng e).r.a = r.a ∧ (t.eng e).r.stores = r.stores ∧ t.sram = s1.sram ∧
      t.flash = s1.flash ∧ ∀ j, j ≠ e → t.eng j = s1.eng j
    let one (i : Instr) (y : Int) : Prop := ∃ t, exec i s = .next t ∧ frame t ∧
      (∀ j, j < 4 → ((t.eng e).r.accI j = if j = x.f4.toNat then accLimited y else r.accI j)) ∧
      nbit (t.eng e).r.flg.toNat 9 = (nbit r.flg.toNat 9 || decide (accLimited y ≠ y)) ∧ nbit (t.eng e).r.flg.toNat 4 = beyond64 y
    let four (i : Instr) (y : Nat → Int) : Prop := ∃ t, exec i s = .next t ∧ frame t ∧
      (∀ j, j < 4 → (t.eng e).r.accI j = accLimited (y j)) ∧
      nbit (t.eng e).r.flg.toNat 9 = (nbit r.flg.toNat 9 || (List.range 4).any fun j => decide (accLimited (y j) ≠ y j)) ∧
      nbit (t.eng e).r.flg.toNat 4 = (List.range 4).any fun j => beyond64 (y j)
    let q := p (r.rd x.f2) (r.rd x.f3)
    let qs (j : Nat) : Int := p (r.rd x.f2) (vget 0 r.d (x.f3.toNat + j))
    (x.f4.toNat < 4 → (opOf w = 1 → one (.mpy e st w) q) ∧ (opOf w = 2 → one (.mac e st w) (r.accI x.f4.toNat + q)) ∧
      (opOf w = 3 → one (.msu e st w) (r.accI x.f4.toNat - q))) ∧
    (x.f4 = 0 → x.f3.toNat % 4 = 0 → (opOf w = 4 → four (.mpy4 e st w) qs) ∧ (opOf w = 5 → four (.mac4 e st w) (fun j => r.accI j + qs j)) ∧
      (opOf w = 6 → four (.msu4 e st w) (fun j => r.accI j - qs j)))

/-- O49. For every engine that can issue: RND writes the conversion of its accumulator to its D register, and a move that stores an
accumulator, by the X bus or the Y bus, stores the conversion at its effective address. With FM = 1 the conversion is the upper word
rounded half to even, with FM = 0 the value itself, and where that lies outside 32 signed bits it is the nearer limit and sets SV,
which is otherwise kept. LDACC sets its accumulator to Ds × 2^32 with FM = 1 and to Ds with FM = 0. No accumulator is written but
LDACC's, no D register but RND's, and no byte of memory outside the stored word. -/
def Obligations.AccumulatorConversion : Prop :=
  ∀ (s : State) (e st : Nat) (w : BitVec 64) (x : PWord) (s1 : State), PWord.of w = x → s.canIssue e = true → s.issue e st w = s1 → twf sramDefault s1.sram = true →
    let r := (s1.eng e).r
    let fm := nbit r.flg.toNat 24
    let stored (m : Move) (base : Nat) : Prop := ∃ t v sat, exec (.nop e st w) s = .next t ∧ convertsTo fm (r.accI m.reg) v sat ∧
      t.rdW (base + 4 * m.ea r) = v ∧
      (∀ a, ¬ (base + 4 * m.ea r ≤ a ∧ a < base + 4 * m.ea r + 4) → tget sramDefault t.sram a = tget sramDefault s1.sram a) ∧
      (t.eng e).r.d = r.d ∧ (t.eng e).r.acc = r.acc ∧ nbit (t.eng e).r.flg.toNat 8 = (nbit r.flg.toNat 8 || sat)
    let place (m : Move) : Prop := m.mt = 5 ∧ m.reg < 4 ∧ (m.am = 0 ∨ m.disp = 0) ∧ m.ea r < 8192
    (opOf w = 0x0E → x.mx = 0 → x.my = 0 → x.f2 = 0 → x.f3 = 0 → x.f4.toNat < 4 → ∃ t v sat, exec (.rnd e st w) s = .next t ∧
      convertsTo fm (r.accI x.f4.toNat) v sat ∧ (t.eng e).r.d = vset r.d x.f1.toNat v ∧ (t.eng e).r.acc = r.acc ∧ t.sram = s1.sram ∧
      nbit (t.eng e).r.flg.toNat 8 = (nbit r.flg.toNat 8 || sat)) ∧
    (opOf w = 0 → x.f1 = 0 → x.f2 = 0 → x.f3 = 0 → x.f4 = 0 → x.my = 0 → place (moveOf x.mx) → stored (moveOf x.mx) (xAddr e 0)) ∧
    (opOf w = 0 → x.f1 = 0 → x.f2 = 0 → x.f3 = 0 → x.f4 = 0 → x.mx = 0 → place (moveOf x.my) → stored (moveOf x.my) (yAddr e 0)) ∧
    (opOf w = 0x0D → x.mx = 0 → x.my = 0 → x.f1 = 0 → x.f3 = 0 → x.f4.toNat < 4 → ∃ t, exec (.ldacc e st w) s = .next t ∧
      (∀ j, j < 4 → (t.eng e).r.accI j = if j = x.f4.toNat then (if fm then (r.rd x.f2).toInt * 2 ^ 32 else (r.rd x.f2).toInt) else r.accI j) ∧
      (t.eng e).r.d = r.d ∧ t.sram = s1.sram)

/-- O50. For every engine that can issue and every operand, for ADD, SUB and NEG without moves: the D register takes the exact result
where it lies within 32 signed bits; where it does not it takes the nearer limit with SATD = 1 and the low 32 bits of the exact
result with SATD = 0. Z and N come from the result written, C is the carry out of the addition or the borrow of the subtraction, V
says that the exact result lies outside 32 signed bits, and DV is set when a result saturated and is otherwise kept. Every other bit
of FLG, every other D register, the accumulators, the address registers, both memories and the other engines stay as the issue left
them. -/
def Obligations.SumsAndDifferences : Prop :=
  ∀ (s : State) (e st : Nat) (v : BitVec 64) (x : PWord) (s1 : State), PWord.of v = x → s.canIssue e = true → s.issue e st v = s1 → x.mx = 0 → x.my = 0 → x.f4 = 0 →
    let r := (s1.eng e).r
    let satd := nbit r.flg.toNat 25
    let gives (i : Instr) (y : Int) (carry : Bool) : Prop :=
      let out := decide (y < -(2 ^ 31)) || decide (2 ^ 31 - 1 < y)
      let w : Word := BitVec.ofInt 32 (if satd && decide (y < -(2 ^ 31)) then -(2 ^ 31) else if satd && decide (2 ^ 31 - 1 < y) then 2 ^ 31 - 1 else y)
      ∃ t, exec i s = .next t ∧ (t.eng e).r.d = vset r.d x.f1.toNat w ∧ (t.eng e).r.acc = r.acc ∧ (t.eng e).r.a = r.a ∧
        t.sram = s1.sram ∧ t.flash = s1.flash ∧ (∀ j, j ≠ e → t.eng j = s1.eng j) ∧
        ∀ j, j < 32 → nbit (t.eng e).r.flg.toNat j =
          if j = 0 then decide (w = 0) else if j = 1 then w.getLsbD 31 else if j = 2 then carry else if j = 3 then out
          else if j = 10 then nbit r.flg.toNat 10 || (out && satd) else nbit r.flg.toNat j
    let a := r.rd x.f2
    let b := r.rd x.f3
    (opOf v = 0x19 → gives (.add e st v) (a.toInt + b.toInt) (decide (2 ^ 32 ≤ a.toNat + b.toNat))) ∧
      (opOf v = 0x1A → gives (.sub e st v) (a.toInt - b.toInt) (decide (a.toNat < b.toNat))) ∧
      (opOf v = 0x1B → x.f3 = 0 → gives (.neg e st v) (-a.toInt) (decide (0 < a.toNat)))

/-- O51. In every state, what ERROR_REGISTER reads as is 1 while HIGHEST_UNACK reads as another value than 0xFF, and 0 while it reads as
0xFF. -/
def Obligations.ErrorRegisterFollowsHighestUnack : Prop :=
  ∀ s : State, s.objPeek Obj.ERROR_REGISTER = if s.objPeek Obj.HIGHEST_UNACK = 0xFF then 0 else 1

/-- O52. For every path, every arm and every state in which the write passes the checks: in mode 2 with the mask input active the write
is refused as its owner's refusal, MASK_CLEAR_REFUSED_CNT is one higher and nothing else changes, the latch among it; in modes 0 and
1 the write changes nothing and is reported as accepted. -/
def Obligations.MaskClearIsRefusedWhileTheInputIsActive : Prop :=
  ∀ (s : State) (p : Path) (a : Nat), s.takes (Obj.MASK_CLEAR a) 1 →
    (s.na (Obj.MASK_MODE a) = 2 → s.maskInput a = true →
      ∃ t, exec (.maskClear p a) s = .next (t.report p (Obj.MASK_CLEAR a) 6) ∧
        t = s.setL (Obj.MASK_CLEAR_REFUSED_CNT a) (s.gl (Obj.MASK_CLEAR_REFUSED_CNT a) + 1) ∧ t.arm a = s.arm a) ∧
    (s.na (Obj.MASK_MODE a) < 2 → exec (.maskClear p a) s = .next (s.report p (Obj.MASK_CLEAR a) 0))

/-- O53. Two states that, once the tamper causes accepted during a fusing have wiped, agree on the tamper log (its count and the secure
bank), the life-cycle fuses, the flash, the test access port, the level of RESET_N, the supply and the cause of the last reset,
whatever their counters, rings, journals and registers hold, are the same state after a reset that takes effect (the commands that
wait and the model's own count of free values, log entry 3, are taken alike in both). After a reset RESET_CAUSE reads as the cause: 1
when the supply was lost, 2 when RESET_N went low, 3 when the TAP's SYSRESET was written, and the release of RESET_N keeps the cause
of the reset that it ends; a reserved BOOT_SEL raises fault 21 besides, and a tamper input that was active at PWRGOOD is accepted at
the release. -/
def Obligations.ResetLeavesNoTrace : Prop :=
  let effective (c : Instr) (s : State) : Prop := match c with
    | .pwrgoodFall => s.boot.pwrgood = true
    | .resetNRelease _ _ => s.boot.resetLow = true ∧ s.boot.pwrgood = true
    | _ => s.boot.resetLow = false
  (∀ (c : Instr) (s u v w : State), c.resets = true → effective c s → s.Inv → u.Inv → s.fuseTampers false = v → u.fuseTampers false = w →
    v.gl Obj.TAMPER_LOG_CNT = w.gl Obj.TAMPER_LOG_CNT →
    (∀ a, secAddr 0 ≤ a → a < secAddr 0x10000 → tget sramDefault v.sram a = tget sramDefault w.sram a) →
    v.mem.life = w.mem.life → v.mem.fusing = w.mem.fusing → v.flash = w.flash → v.jtag = w.jtag → s.boot.resetLow = u.boot.resetLow →
    s.boot.pwrgood = u.boot.pwrgood → s.boot.cause = u.boot.cause → v.pending = w.pending → v.free = w.free → exec c s = exec c u) ∧
  (∀ (c : Instr) (s : State), c.resets = true → effective c s → ∃ u, exec c s = .next (match c with
      | .sysreset sel => if sel = 2 then u.raiseAs 21 1 0 .n else u
      | .resetNRelease sel tamper => (if sel = 2 then u.raiseAs 21 1 0 .n else u).tamperAtRelease tamper
      | _ => u) ∧
    u.gl Obj.RESET_CAUSE = w32 (match c with
      | .pwrgoodFall => 1
      | .resetNAssert => 2
      | .sysreset _ => 3
      | _ => s.boot.cause))

/-- O54. After reset the mode is BOOT in its first step, the tick does not run and the frame count is 0, every object holds its default
in each of its copies, the commit is OPEN, every lane is disabled with equalizer coefficients that are not valid, every route is
UNUSED, FLG of every engine is 0x03000000, no arm is forced or masked, the epoch is 0, no fault source is set, both Watchtower
outputs are asserted and every safety connection is IDLE, no interrupt source is pending, the journal is empty, no transfer is open
and the TAP holds IDCODE. A memory with nothing listed is the model's choice of log entries 5 and 6. -/
def Obligations.ResetValues : Prop :=
  let z := State.reset
  z.mode = .boot ∧ z.boot.step = .clocks ∧ z.frame.ticking = false ∧ z.frame.count = 0 ∧ z.commit.st = .opened ∧
    (∀ k, z.gl k = dfltW k ∧ z.ga k = dfltW k ∧ z.gs k = dfltW k ∧ z.gk k = dfltW k ∧ z.gks k = dfltW k) ∧
    (∀ n, n < 38 → (z.lane n).st = .disabled ∧ (z.lane n).eqValid = false) ∧ (∀ n, n < 32 → (z.route n).st = .unused) ∧
    (∀ e, e < 8 → (z.eng e).r.flg = 0x03000000 ∧ z.running e = none) ∧
    (∀ a, a < 12 → (z.arm a).armed = none ∧ (z.arm a).deferred = none ∧ (z.arm a).mask = false) ∧
    z.pair.epoch = 0 ∧ z.fault.status = 0 ∧ z.wt.outA = true ∧ z.wt.outB = true ∧ (∀ c, c < 64 → (z.conn c).st = .idle) ∧
    (∀ i, i < 32 → vget 0 z.irq.pend i = 0) ∧ z.jrn.count = 0 ∧ z.jrn.seq = 0 ∧ z.jrn.staging = [] ∧ z.dict.xfer = none ∧ z.jtag.ir = .idcode

/-- O55. For every path, every object number and every word, outside reset: a write of an object that is not listed is reported with
reason 2; of a read-only object with 1; of a DOMAIN in one word with 8; a write of a class S object while the commit is not OPEN with
5, which STAGE_WRITE_REFUSED_CNT counts, whatever the word; any other word that does not fit the type or lies outside the object's
own range with 3 (class K, checked by the safety write sequence, apart); and a write that passes these to an ADC-B object that the
Watchtower claims with 6. While it claims ADC-B, CLAIM_REFUSED_CNT counts each of them that names one of its objects. In each case
the report is all that happens: no staged, active or Watchtower copy of any object, no byte of either memory, no lane, route, arm,
engine or timer changes. The report itself is written out: the Host Port counts and keeps the reason and the address and the write
retires, the mailbox counts the service and the abort and answers with the abort code, process data counts the refusal, a Cupola
engine takes DICT_RESULT. -/
def Obligations.RefusedWritesChangeNothing : Prop :=
  (∀ (s : State) (p : Path) (key : Nat) (v : Word), s.boot.resetLow = false →
    let told (u : State) (reason : Nat) : Prop := ∃ t, exec (.registerWrite p key v) s = .next t ∧ t = u.report p key reason ∧
      t.act = s.act ∧ t.stg = s.stg ∧ t.kAct = s.kAct ∧ t.kStg = s.kStg ∧ t.sram = s.sram ∧ t.flash = s.flash ∧ t.mode = s.mode ∧
      t.commit = s.commit ∧ t.frame = s.frame ∧ t.lanes = s.lanes ∧ t.routes = s.routes ∧ t.arms = s.arms ∧ t.sched = s.sched ∧
      t.time = s.time ∧ t.pwm = s.pwm ∧ t.wt = s.wt ∧ t.fault = s.fault ∧ t.irq = s.irq ∧ t.jrn = s.jrn ∧ t.pending = s.pending
    (rowOf key = none → told s 2) ∧
    (s.checkWrite key v = 0 → s.claims key = true → told (s.incL Obj.CLAIM_REFUSED_CNT) 6) ∧
    ∀ r i j, rowOf key = some (r, i, j) →
      (r.acc = .ro → told (s.incIf (s.claims key) Obj.CLAIM_REFUSED_CNT) 1) ∧
      (r.acc ≠ .ro → r.ty = .domain → told (s.incIf (s.claims key) Obj.CLAIM_REFUSED_CNT) 8) ∧
      (r.acc ≠ .ro → r.ty ≠ .domain → r.cls = .s → s.commit.st ≠ .opened →
        told ((s.incL Obj.STAGE_WRITE_REFUSED_CNT).incIf (s.claims key) Obj.CLAIM_REFUSED_CNT) 5) ∧
      (r.acc ≠ .ro → r.ty ≠ .domain → r.cls ≠ .k → (r.cls = .s → s.commit.st = .opened) →
        r.ty.fits v = false ∨ r.rng.ok (v &&& w32 r.bits) = false → told (s.incIf (s.claims key) Obj.CLAIM_REFUSED_CNT) 3)) ∧
  (∀ (s : State) (key reason : Nat), reason ≠ 0 →
    s.report .host key reason = (s.incL Obj.HP_WR_REFUSE_CNT |>.setLN Obj.HP_LAST_REFUSE
      (hostReason reason * 2 ^ 24 + keyAddr key % 2 ^ 22)).setDict { s.dict with fence := s.dict.fence + 1 } ∧
    s.report .mailbox key reason = ((s.incL Obj.SDO_CNT).incL Obj.SDO_ABORT_CNT).respond (.abort (abortCode key reason)) ∧
    s.report .processData key reason = s.incL Obj.PD_REFUSE_CNT ∧
    ∀ e, s.report (.cupola e) key reason = s.setDictResult e (dictCode reason))

/-- O56. From every state that meets the invariant: a host write of the high half of a program word outside RUN and RIDETHROUGH stores
the word and, below it, the low half that was held for that word or that stood there; a write of a low half, and any such write in
RUN and RIDETHROUGH, stores nothing; the oldest staged record goes to the ring at its write index while the ring has room. Every byte
of the SRAM outside the eight or the sixteen bytes stored reads as before, and the flash stays. -/
def Obligations.StoresReachTheirBytesOnly : Prop :=
  ∀ s : State, s.Inv →
    (∀ (e : Fin 8) (i : BitVec 13) (v : Word), s.mode ≠ .run → s.mode ≠ .ridethrough →
      let at0 := progAddr e.val i.toNat
      ∃ t, exec (.progMemWrite e i true v) s = .next t ∧ t.rdW (at0 + 4) = v ∧
        t.rdW at0 = (if (vget none s.cup.progLatch 0).map (·.1) = some at0 then ((vget none s.cup.progLatch 0).map (·.2)).getD 0 else s.rdW at0) ∧
        (∀ a, ¬ (at0 ≤ a ∧ a < at0 + 8) → tget sramDefault t.sram a = tget sramDefault s.sram a) ∧ t.flash = s.flash) ∧
    (∀ (e : Fin 8) (i : BitVec 13) (hi : Bool) (v : Word), hi = false ∨ s.mode = .run ∨ s.mode = .ridethrough →
      ∃ t, exec (.progMemWrite e i hi v) s = .next t ∧ t.sram = s.sram ∧ t.flash = s.flash) ∧
    (∀ r rest, s.jrn.staging = r :: rest → s.jrn.count < 4096 →
      let at0 := bankAddr 167 (16 * s.jrn.wr)
      ∃ t, exec .journalRecordWrite s = .next t ∧ t.rdBytes at0 16 = r.bytes ∧
        (∀ a, ¬ (at0 ≤ a ∧ a < at0 + 16) → tget sramDefault t.sram a = tget sramDefault s.sram a) ∧ t.flash = s.flash)

/-- O57. In every state bit g of what SUMMARY reads as is set exactly while the group has a pending bit that its mask does not cover.
While HCLK runs the level of IRQ_N is asserted exactly while SUMMARY has a bit that SUMMARY_MASK does not cover; while HCLK stands
still, exactly while some group outside SUMMARY_MASK has a pending or latched bit that its mask does not cover. A write of a group's
mask that passes the checks clears no pending bit of any group, and leaves the active and the level bits. -/
def Obligations.SummaryFollowsPending : Prop :=
  (∀ (s : State) (g : Nat), g < 32 →
    nbit (s.objPeek Obj.SUMMARY).toNat g = decide (s.pendOf g &&& ~~~(s.gl (Obj.MASK g)) ≠ 0)) ∧
  (∀ s : State, s.irq.hclkRuns = true →
    (s.irqAsserted = true ↔ ∃ g, g < 32 ∧ nbit (s.objPeek Obj.SUMMARY).toNat g = true ∧ nbit (s.gl Obj.SUMMARY_MASK).toNat g = false)) ∧
  (∀ s : State, s.irq.hclkRuns = false → (s.irqAsserted = true ↔ ∃ g, g < 32 ∧
    (s.pendOf g ||| vget 0 s.irq.latch g) &&& ~~~(s.gl (Obj.MASK g)) ≠ 0 ∧ nbit (s.gl Obj.SUMMARY_MASK).toNat g = false)) ∧
  (∀ (s : State) (p : Path) (g : Nat) (v : Word), g < 32 → s.takes (Obj.MASK g) v →
    ∃ t, exec (.registerWrite p (Obj.MASK g) v) s = .next (t.report p (Obj.MASK g) 0) ∧ t = s.setL (Obj.MASK g) v ∧ t.irq = s.irq)

/-- O58. For every path and in every mode, a write of FAULT_ACK_HI that passes the checks leaves set exactly the sources that were set
before and are either not named by the held low half and the word or still active, or occurred in the same fabric cycle. The active
sources, the effective classes, the self-tests and their results, the mode, both memories and every lane, route and arm stay. -/
def Obligations.AcknowledgeClearsInactiveSources : Prop :=
  ∀ (s : State) (p : Path) (hi : Word), s.takes Obj.FAULT_ACK_HI hi →
    let lo := s.lowHeld p Obj.FAULT_ACK_LO 0
    let named (n : Nat) : Bool := if n < 32 then nbit lo.toNat n else nbit hi.toNat (n - 32)
    ∃ t : State, exec (.faultAck p hi) s = .next (t.report p Obj.FAULT_ACK_HI 0) ∧
      (∀ n, n < 64 → t.fSet n = (s.fSet n && (!named n || s.activeNow n || s.inCycle (·.occNow) n))) ∧
      t.fault.active = s.fault.active ∧ t.fault.eff = s.fault.eff ∧ t.fault.tests = s.fault.tests ∧ t.fault.result = s.fault.result ∧
      t.mode = s.mode ∧ t.sram = s.sram ∧ t.flash = s.flash ∧ t.lanes = s.lanes ∧ t.routes = s.routes ∧ t.arms = s.arms

/-- O59. A record that enters the queue in the fabric cycle of the record before it goes ahead of that one where its source code is
lower, and the two keep the sequence numbers in order; a staged record goes to the ring while it has room; JRN_POP of 1 up to the
records held frees the oldest ones. Each equation of a command gives the whole next state. Each of these commands completes (exec
answers a next state, which is written out): journalRecordWrite, jrnPop. -/
def Obligations.JournalCommandsComplete : Prop :=
  (∀ (s : State) r x, s.jrn.staging = [x] → s.jrn.cycle = s.nowL / 2 → s.jrn.inCycle = 1 → x.cont = false → r.source < x.source →
    (s.journalRec r).jrn.staging = [{ r with seq := x.seq }, { x with seq := s.jrn.seq }]) ∧
  (∀ s r rest, s.jrn.staging = r :: rest → s.jrn.count < 4096 →
    exec .journalRecordWrite s = .next (({ s.wrBytes (bankAddr 167 (16 * s.jrn.wr)) r.bytes with
      jrn := { s.jrn with staging := rest, wr := (s.jrn.wr + 1) % 4096, count := s.jrn.count + 1 } }).jrnLevels)) ∧
  (∀ s p v, s.takes Obj.JRN_POP v → 0 < v.toNat → v.toNat ≤ s.jrn.count →
    exec (.jrnPop p v) s = .next ((({ s with
        jrn := { s.jrn with
          rd := (s.jrn.rd + v.toNat) % 4096, count := s.jrn.count - v.toNat } }).jrnLevels).report p Obj.JRN_POP 0))
end

