-- ==== Sys2Proof/Laws/Memory.lean ====
section
/-! SUPPORT. The sparse tables keep their canonical form, and a store is read back (R3, R449). -/
namespace Sys2Proof.Machine

theorem tabove_mono {α : Type} {a b : Nat} (h : b ≤ a) : ∀ {t : List (Nat × α)}, tabove a t = true → tabove b t = true
  | [], _ => rfl
  | (j, _) :: t, ht => by
    simp only [tabove, Bool.and_eq_true, decide_eq_true_eq] at ht ⊢
    exact ⟨Nat.lt_of_le_of_lt h ht.1, ht.2⟩

theorem tput_above {α : Type} [DecidableEq α] {d : Nat → α} {b k : Nat} {v : α} (hk : b < k) :
    ∀ {b' : Nat} {t : List (Nat × α)}, b ≤ b' → b' < k → tabove b' t = true → tabove b' (tput d t k v) = true
  | b', [], _, h2, _ => by
    simp only [tput]
    split <;> simp_all [tabove]
  | b', (j, u) :: t, h1, h2, ht => by
    simp only [tabove, Bool.and_eq_true, decide_eq_true_eq] at ht
    simp only [tput]
    split
    · split <;> simp_all [tabove]
    · split
      · next hkj =>
        split
        · exact tabove_mono (Nat.le_of_lt ht.1) ht.2
        · simp only [tabove, Bool.and_eq_true, decide_eq_true_eq]
          exact ⟨h2, hkj ▸ ht.2⟩
      · simp only [tabove, Bool.and_eq_true, decide_eq_true_eq]
        exact ⟨ht.1, tput_above (Nat.lt_trans hk (by omega : k < k + 1) |> fun _ => hk) (Nat.le_trans h1 (Nat.le_of_lt ht.1)) (by omega) ht.2⟩

/-- A store keeps the canonical form. -/
theorem twf_tput {α : Type} [DecidableEq α] {d : Nat → α} {k : Nat} {v : α} :
    ∀ {t : List (Nat × α)}, twf d t = true → twf d (tput d t k v) = true
  | [], _ => by
    simp only [tput]
    split <;> simp_all [twf, tabove]
  | (j, u) :: t, h => by
    simp only [twf, Bool.and_eq_true, decide_eq_true_eq] at h
    obtain ⟨⟨h1, h2⟩, h3⟩ := h
    simp only [tput]
    split
    · split
      · simp [twf, h1, h2, h3]
      · simp_all [twf, tabove]
    · split
      · next hkj =>
        subst hkj
        split
        · exact h3
        · simp_all [twf]
      · simp only [twf, Bool.and_eq_true, decide_eq_true_eq]
        refine ⟨⟨?_, h2⟩, twf_tput h3⟩
        exact tput_above (b := j) (by omega) (Nat.le_refl j) (by omega) h1

/-- Consecutive stores keep the canonical form. -/
theorem twf_tputs {α : Type} [DecidableEq α] {d : Nat → α} :
    ∀ {vs : List α} {k : Nat} {t : List (Nat × α)}, twf d t = true → twf d (tputs d t k vs) = true
  | [], _, _, h => h
  | v :: vs, k, t, h => by
    simp only [tputs]
    exact twf_tputs (twf_tput h)

theorem tabove_filter {α : Type} (p : Nat × α → Bool) : ∀ {b : Nat} {t : List (Nat × α)}, tabove b t = true → tabove b (t.filter p) = true
  | _, [], _ => rfl
  | b, (j, u) :: t, h => by
    simp only [tabove, Bool.and_eq_true, decide_eq_true_eq] at h
    simp only [List.filter]
    split
    · simp only [tabove, Bool.and_eq_true, decide_eq_true_eq]
      exact ⟨h.1, tabove_filter p h.2⟩
    · exact tabove_mono (Nat.le_of_lt h.1) (tabove_filter p h.2)

/-- Dropping entries keeps the canonical form. -/
theorem twf_filter {α : Type} [DecidableEq α] {d : Nat → α} (p : Nat × α → Bool) :
    ∀ {t : List (Nat × α)}, twf d t = true → twf d (t.filter p) = true
  | [], _ => rfl
  | (j, u) :: t, h => by
    simp only [twf, Bool.and_eq_true, decide_eq_true_eq] at h
    simp only [List.filter]
    split
    · simp only [twf, Bool.and_eq_true, decide_eq_true_eq]
      exact ⟨⟨tabove_filter p h.1.1, h.1.2⟩, twf_filter p h.2⟩
    · exact twf_filter p h.2

theorem twf_tclear {α : Type} [DecidableEq α] {d : Nat → α} {lo hi : Nat} {t : List (Nat × α)} (h : twf d t = true) :
    twf d (tclear lo hi t) = true := twf_filter _ h

/-- What a store to key `k` leaves at every key. -/
theorem tget_above {α : Type} {d : Nat → α} : ∀ {b k : Nat} {t : List (Nat × α)}, tabove b t = true → k ≤ b → tget d t k = d k
  | _, _, [], _, _ => rfl
  | b, k, (j, u) :: t, h, hk => by
    simp only [tabove, Bool.and_eq_true, decide_eq_true_eq] at h
    simp only [tget]
    rw [if_pos (by omega)]

theorem tget_tput {α : Type} [DecidableEq α] {d : Nat → α} {k : Nat} {v : α} {x : Nat} :
    ∀ {t : List (Nat × α)}, twf d t = true → tget d (tput d t k v) x = if x = k then v else tget d t x
  | [], _ => by
    simp only [tput]
    split
    · next hv => simp only [tget]; split <;> simp_all
    · simp only [tget]; split
      · rw [if_neg (by omega)]
      · rfl
  | (j, u) :: t, h => by
    simp only [twf, Bool.and_eq_true, decide_eq_true_eq] at h
    obtain ⟨⟨h1, h2⟩, h3⟩ := h
    simp only [tput]
    split
    · next hkj =>
      split
      · next hv =>
        by_cases hx : x = k
        · subst hx; simp [tget, hkj, hv]
        · simp [hx]
      · simp only [tget]
        by_cases hx : x = k
        · subst hx; simp
        · rcases Nat.lt_or_gt_of_ne hx with hl | hg
          · simp [hl, hx, Nat.lt_trans hl hkj]
          · have : ¬ x < k := by omega
            simp [this, hx]
    · split
      · next h' hkj =>
        subst hkj
        split
        · next hv =>
          by_cases hx : x = k
          · subst hx; simp [tget_above h1 (Nat.le_refl x), hv]
          · simp only [hx, if_false, tget]
            split
            · next hl => exact tget_above h1 (Nat.le_of_lt hl)
            · rfl
        · simp only [tget]
          by_cases hx : x = k
          · subst hx; simp
          · simp [hx]
      · simp only [tget]
        have ih := tget_tput (k := k) (v := v) (x := x) h3
        by_cases hx : x = k
        · subst hx
          have a1 : ¬ x < j := by omega
          have a2 : ¬ x = j := by omega
          simp [a1, a2, ih]
        · simp [hx, ih]

/-- Bytes of a list of stores: inside the range the list, outside it what was there. -/
theorem tget_tputs {α : Type} [DecidableEq α] {d : Nat → α} {x : Nat} :
    ∀ {vs : List α} {k : Nat} {t : List (Nat × α)}, twf d t = true →
      tget d (tputs d t k vs) x = if k ≤ x ∧ x < k + vs.length then (vs[x - k]?).getD (d x) else tget d t x
  | [], k, t, _ => by simp [tputs] <;> omega
  | v :: vs, k, t, h => by
    simp only [tputs]
    rw [tget_tputs (twf_tput h), tget_tput h]
    by_cases hx : x = k
    · subst hx; simp <;> omega
    · by_cases hr : k ≤ x ∧ x < k + (v :: vs).length
      · have h1 : k + 1 ≤ x ∧ x < k + 1 + vs.length := by simp at hr; omega
        rw [if_pos hr, if_pos h1]
        obtain ⟨m, rfl⟩ : ∃ m, x = k + 1 + m := ⟨x - (k + 1), by omega⟩
        have e1 : k + 1 + m - (k + 1) = m := by omega
        have e2 : k + 1 + m - k = m + 1 := by omega
        rw [e1, e2]; simp
      · have h1 : ¬ (k + 1 ≤ x ∧ x < k + 1 + vs.length) := by simp at hr; omega
        rw [if_neg hr, if_neg h1, if_neg hx]

/-- Entries kept by their key read as before, the others as unlisted. -/
theorem tget_filter {α : Type} [DecidableEq α] {d : Nat → α} (p : Nat → Bool) (k : Nat) :
    ∀ {t : List (Nat × α)}, twf d t = true → tget d (t.filter fun c => p c.1) k = if p k then tget d t k else d k
  | [], _ => by simp [tget]
  | (j, u) :: t, h => by
    simp only [twf, Bool.and_eq_true, decide_eq_true_eq] at h
    obtain ⟨⟨h1, h2⟩, h3⟩ := h
    have ih := tget_filter p k h3
    by_cases hj : p j = true
    · simp only [List.filter, hj, tget]
      split
      · split <;> rfl
      · split
        · next _ hk => subst hk; simp [hj]
        · exact ih
    · have hj : p j = false := by simpa using hj
      simp only [List.filter, hj]
      rw [ih]
      by_cases hk : k < j
      · rw [tget_above h1 (Nat.le_of_lt hk)]
        simp [tget, hk]
      · by_cases hk2 : k = j
        · subst hk2; simp [hj]
        · simp [tget, hk, hk2]

/-- Canonical tables that read alike are the same table. -/
theorem twf_ext {α : Type} [DecidableEq α] {d : Nat → α} : ∀ {t u : List (Nat × α)}, twf d t = true → twf d u = true →
    (∀ k, tget d t k = tget d u k) → t = u
  | [], [], _, _, _ => rfl
  | [], (j, v) :: u, _, h, e => by
    simp only [twf, Bool.and_eq_true, decide_eq_true_eq] at h
    have := e j
    simp [tget] at this
    exact absurd this.symm h.1.2
  | (j, v) :: t, [], h, _, e => by
    simp only [twf, Bool.and_eq_true, decide_eq_true_eq] at h
    have := e j
    simp [tget] at this
    exact absurd this h.1.2
  | (i, v) :: t, (j, w) :: u, ht, hu, e => by
    simp only [twf, Bool.and_eq_true, decide_eq_true_eq] at ht hu
    obtain ⟨⟨t1, t2⟩, t3⟩ := ht
    obtain ⟨⟨u1, u2⟩, u3⟩ := hu
    have hij : i = j := by
      rcases Nat.lt_trichotomy i j with h | h | h
      · have := e i
        simp [tget, h] at this
        exact absurd this t2
      · exact h
      · have := e j
        simp [tget, h] at this
        exact absurd this.symm u2
    subst hij
    have hv : v = w := by have := e i; simpa [tget] using this
    subst hv
    congr 1
    apply twf_ext t3 u3
    intro k
    by_cases hk : k ≤ i
    · rw [tget_above t1 hk, tget_above u1 hk]
    · have := e k
      simp only [tget] at this
      rwa [if_neg (by omega), if_neg (by omega), if_neg (by omega), if_neg (by omega)] at this

end Sys2Proof.Machine
end

