-- ==== Sys2Proof/Laws/Access.lean ====
section
/-! SUPPORT. What a load of the SRAM answers after a store. -/
namespace Sys2Proof.Machine

/-- A byte of the SRAM after a store of bytes: inside the range the byte stored, outside it the byte that stood there. -/
theorem tget_wrBytes {s : State} (h : twf sramDefault s.sram = true) (a : Nat) (bs : List Byte) (x : Nat) :
    tget sramDefault (s.wrBytes a bs).sram x = if a ≤ x ∧ x < a + bs.length then (bs[x - a]?).getD 0 else tget sramDefault s.sram x :=
  tget_tputs h

theorem leBytes_length (n x : Nat) : (leBytes n x).length = n := by
  induction n generalizing x with
  | zero => rfl
  | succ n ih => simp [leBytes, ih]

/-- A byte of the SRAM outside a stored word. -/
theorem tget_wrW_other {s : State} (h : twf sramDefault s.sram = true) {a x : Nat} (v : Word) (hx : ¬ (a ≤ x ∧ x < a + 4)) :
    tget sramDefault (s.wrW a v).sram x = tget sramDefault s.sram x := by
  unfold State.wrW
  rw [tget_wrBytes h, leBytes_length, if_neg hx]

/-- The word just stored. -/
theorem rdW_wrW {s : State} (h : twf sramDefault s.sram = true) (a : Nat) (v : Word) : (s.wrW a v).rdW a = v := by
  have e : ∀ k, k < 4 → tget sramDefault (s.wrW a v).sram (a + k) = BitVec.ofNat 8 (v.toNat / 256 ^ k) := by
    intro k hk
    unfold State.wrW
    rw [tget_wrBytes h, leBytes_length, if_pos (by omega)]
    have hk4 : k = 0 ∨ k = 1 ∨ k = 2 ∨ k = 3 := by omega
    rcases hk4 with rfl | rfl | rfl | rfl <;> simp [leBytes, Nat.div_div_eq_div_mul]
  have e0 := e 0 (by omega)
  have e1 := e 1 (by omega)
  have e2 := e 2 (by omega)
  have e3 := e 3 (by omega)
  unfold State.rdW State.rdBytes
  simp only [tgets, ofLeBytes, Nat.add_assoc, Nat.reduceAdd, e1, e2, e3]
  rw [show tget sramDefault (s.wrW a v).sram a = BitVec.ofNat 8 v.toNat by simpa using e0]
  apply BitVec.eq_of_toNat_eq
  have hv := v.isLt
  simp only [w32, BitVec.toNat_ofNat]
  omega

/-- Bytes at which two tables agree read alike. -/
theorem tgets_congr {α : Type} {d : Nat → α} {t u : List (Nat × α)} : ∀ {n a : Nat}, (∀ k, a ≤ k → k < a + n → tget d t k = tget d u k) →
    tgets d t a n = tgets d u a n
  | 0, _, _ => rfl
  | n + 1, a, h => by
    simp only [tgets]
    rw [h a (Nat.le_refl a) (by omega), tgets_congr (n := n) (a := a + 1) fun k h1 h2 => h k (by omega) (by omega)]

/-- A word that a stored word does not touch. -/
theorem rdW_wrW_other {s : State} (h : twf sramDefault s.sram = true) {a b : Nat} (v : Word) (hx : b + 4 ≤ a ∨ a + 4 ≤ b) :
    (s.wrW a v).rdW b = s.rdW b := by
  unfold State.rdW State.rdBytes
  rw [tgets_congr fun k h1 h2 => tget_wrW_other h v (by omega)]

/-- The bytes just stored. -/
theorem rdBytes_wrBytes {s : State} (h : twf sramDefault s.sram = true) (a : Nat) (bs : List Byte) (n : Nat) (hn : bs.length = n) :
    tgets sramDefault (s.wrBytes a bs).sram a n = bs := by
  subst hn
  have key : ∀ (cs : List Byte) (b : Nat), (∀ i, i < cs.length → tget sramDefault (s.wrBytes a bs).sram (b + i) = (cs[i]?).getD 0) →
      tgets sramDefault (s.wrBytes a bs).sram b cs.length = cs := by
    intro cs
    induction cs with
    | nil => intro b _; rfl
    | cons c cs ih =>
      intro b hb
      simp only [List.length_cons, tgets]
      have h0 := hb 0 (by simp)
      simp only [Nat.add_zero, List.getElem?_cons_zero, Option.getD_some] at h0
      rw [h0, ih (b + 1)]
      intro i hi
      have := hb (i + 1) (by simpa using hi)
      rw [show b + 1 + i = b + (i + 1) by omega, this]
      simp
  apply key
  intro i hi
  rw [tget_wrBytes h, if_pos (by omega), Nat.add_sub_cancel_left]

theorem jrec_length (r : JRec) : r.bytes.length = 16 := by
  simp only [JRec.bytes, List.length_append, leBytes_length]

/-- The journal's level sources touch no memory. -/
theorem jrnLevels_mem (u : State) : u.jrnLevels.sram = u.sram ∧ u.jrnLevels.flash = u.flash := by
  have b : ∀ (s : State) (g : Nat) (v : Word), (s.irqBits g v).sram = s.sram ∧ (s.irqBits g v).flash = s.flash := by
    intro s g v; unfold State.irqBits; split <;> exact ⟨rfl, rfl⟩
  have l : ∀ (s : State) (g n : Nat) (c : Bool), (s.irqLevel g n c).sram = s.sram ∧ (s.irqLevel g n c).flash = s.flash := by
    intro s g n c
    unfold State.irqLevel
    dsimp only
    split
    · exact b _ g _
    · exact ⟨rfl, rfl⟩
  unfold State.jrnLevels
  exact ⟨(l _ _ _ _).1.trans (l _ _ _ _).1, (l _ _ _ _).2.trans (l _ _ _ _).2⟩

end Sys2Proof.Machine
end

