-- ==== Sys2Proof/Laws/State.lean ====
section
/-! SUPPORT. What each update of the state leaves as it was, and the one part that it changes: cited, so that no proof
unfolds a record update. -/
namespace Sys2Proof.Machine

@[simp] theorem State.setL_pending (s : State) (k : Nat) (v : Word) : (s.setL k v).pending = s.pending := rfl
@[simp] theorem State.setL_live (s : State) (k : Nat) (v : Word) : (s.setL k v).live = tput dfltW s.live k v := rfl
@[simp] theorem State.setL_act (s : State) (k : Nat) (v : Word) : (s.setL k v).act = s.act := rfl
@[simp] theorem State.setL_stg (s : State) (k : Nat) (v : Word) : (s.setL k v).stg = s.stg := rfl
@[simp] theorem State.setL_kAct (s : State) (k : Nat) (v : Word) : (s.setL k v).kAct = s.kAct := rfl
@[simp] theorem State.setL_kStg (s : State) (k : Nat) (v : Word) : (s.setL k v).kStg = s.kStg := rfl
@[simp] theorem State.setL_sram (s : State) (k : Nat) (v : Word) : (s.setL k v).sram = s.sram := rfl
@[simp] theorem State.setL_flash (s : State) (k : Nat) (v : Word) : (s.setL k v).flash = s.flash := rfl
@[simp] theorem State.setL_free (s : State) (k : Nat) (v : Word) : (s.setL k v).free = s.free := rfl
@[simp] theorem State.setL_mode (s : State) (k : Nat) (v : Word) : (s.setL k v).mode = s.mode := rfl
@[simp] theorem State.setL_boot (s : State) (k : Nat) (v : Word) : (s.setL k v).boot = s.boot := rfl
@[simp] theorem State.setL_commit (s : State) (k : Nat) (v : Word) : (s.setL k v).commit = s.commit := rfl
@[simp] theorem State.setL_img (s : State) (k : Nat) (v : Word) : (s.setL k v).img = s.img := rfl
@[simp] theorem State.setL_frame (s : State) (k : Nat) (v : Word) : (s.setL k v).frame = s.frame := rfl
@[simp] theorem State.setL_modes (s : State) (k : Nat) (v : Word) : (s.setL k v).modes = s.modes := rfl
@[simp] theorem State.setL_lanes (s : State) (k : Nat) (v : Word) : (s.setL k v).lanes = s.lanes := rfl
@[simp] theorem State.setL_routes (s : State) (k : Nat) (v : Word) : (s.setL k v).routes = s.routes := rfl
@[simp] theorem State.setL_launch (s : State) (k : Nat) (v : Word) : (s.setL k v).launch = s.launch := rfl
@[simp] theorem State.setL_ledger (s : State) (k : Nat) (v : Word) : (s.setL k v).ledger = s.ledger := rfl
@[simp] theorem State.setL_arms (s : State) (k : Nat) (v : Word) : (s.setL k v).arms = s.arms := rfl
@[simp] theorem State.setL_sel (s : State) (k : Nat) (v : Word) : (s.setL k v).sel = s.sel := rfl
@[simp] theorem State.setL_cup (s : State) (k : Nat) (v : Word) : (s.setL k v).cup = s.cup := rfl
@[simp] theorem State.setL_sched (s : State) (k : Nat) (v : Word) : (s.setL k v).sched = s.sched := rfl
@[simp] theorem State.setL_aids (s : State) (k : Nat) (v : Word) : (s.setL k v).aids = s.aids := rfl
@[simp] theorem State.setL_time (s : State) (k : Nat) (v : Word) : (s.setL k v).time = s.time := rfl
@[simp] theorem State.setL_phasor (s : State) (k : Nat) (v : Word) : (s.setL k v).phasor = s.phasor := rfl
@[simp] theorem State.setL_wave (s : State) (k : Nat) (v : Word) : (s.setL k v).wave = s.wave := rfl
@[simp] theorem State.setL_acq (s : State) (k : Nat) (v : Word) : (s.setL k v).acq = s.acq := rfl
@[simp] theorem State.setL_adc (s : State) (k : Nat) (v : Word) : (s.setL k v).adc = s.adc := rfl
@[simp] theorem State.setL_pwm (s : State) (k : Nat) (v : Word) : (s.setL k v).pwm = s.pwm := rfl
@[simp] theorem State.setL_wt (s : State) (k : Nat) (v : Word) : (s.setL k v).wt = s.wt := rfl
@[simp] theorem State.setL_pair (s : State) (k : Nat) (v : Word) : (s.setL k v).pair = s.pair := rfl
@[simp] theorem State.setL_fault (s : State) (k : Nat) (v : Word) : (s.setL k v).fault = s.fault := rfl
@[simp] theorem State.setL_mem (s : State) (k : Nat) (v : Word) : (s.setL k v).mem = s.mem := rfl
@[simp] theorem State.setL_irq (s : State) (k : Nat) (v : Word) : (s.setL k v).irq = s.irq := rfl
@[simp] theorem State.setL_jrn (s : State) (k : Nat) (v : Word) : (s.setL k v).jrn = s.jrn := rfl
@[simp] theorem State.setL_dict (s : State) (k : Nat) (v : Word) : (s.setL k v).dict = s.dict := rfl
@[simp] theorem State.setL_power (s : State) (k : Nat) (v : Word) : (s.setL k v).power = s.power := rfl
@[simp] theorem State.setL_jtag (s : State) (k : Nat) (v : Word) : (s.setL k v).jtag = s.jtag := rfl
@[simp] theorem State.setL_samples (s : State) (k : Nat) (v : Word) : (s.setL k v).samples = s.samples := rfl
@[simp] theorem State.setA_pending (s : State) (k : Nat) (v : Word) : (s.setA k v).pending = s.pending := rfl
@[simp] theorem State.setA_live (s : State) (k : Nat) (v : Word) : (s.setA k v).live = s.live := rfl
@[simp] theorem State.setA_act (s : State) (k : Nat) (v : Word) : (s.setA k v).act = tput dfltW s.act k v := rfl
@[simp] theorem State.setA_stg (s : State) (k : Nat) (v : Word) : (s.setA k v).stg = s.stg := rfl
@[simp] theorem State.setA_kAct (s : State) (k : Nat) (v : Word) : (s.setA k v).kAct = s.kAct := rfl
@[simp] theorem State.setA_kStg (s : State) (k : Nat) (v : Word) : (s.setA k v).kStg = s.kStg := rfl
@[simp] theorem State.setA_sram (s : State) (k : Nat) (v : Word) : (s.setA k v).sram = s.sram := rfl
@[simp] theorem State.setA_flash (s : State) (k : Nat) (v : Word) : (s.setA k v).flash = s.flash := rfl
@[simp] theorem State.setA_free (s : State) (k : Nat) (v : Word) : (s.setA k v).free = s.free := rfl
@[simp] theorem State.setA_mode (s : State) (k : Nat) (v : Word) : (s.setA k v).mode = s.mode := rfl
@[simp] theorem State.setA_boot (s : State) (k : Nat) (v : Word) : (s.setA k v).boot = s.boot := rfl
@[simp] theorem State.setA_commit (s : State) (k : Nat) (v : Word) : (s.setA k v).commit = s.commit := rfl
@[simp] theorem State.setA_img (s : State) (k : Nat) (v : Word) : (s.setA k v).img = s.img := rfl
@[simp] theorem State.setA_frame (s : State) (k : Nat) (v : Word) : (s.setA k v).frame = s.frame := rfl
@[simp] theorem State.setA_modes (s : State) (k : Nat) (v : Word) : (s.setA k v).modes = s.modes := rfl
@[simp] theorem State.setA_lanes (s : State) (k : Nat) (v : Word) : (s.setA k v).lanes = s.lanes := rfl
@[simp] theorem State.setA_routes (s : State) (k : Nat) (v : Word) : (s.setA k v).routes = s.routes := rfl
@[simp] theorem State.setA_launch (s : State) (k : Nat) (v : Word) : (s.setA k v).launch = s.launch := rfl
@[simp] theorem State.setA_ledger (s : State) (k : Nat) (v : Word) : (s.setA k v).ledger = s.ledger := rfl
@[simp] theorem State.setA_arms (s : State) (k : Nat) (v : Word) : (s.setA k v).arms = s.arms := rfl
@[simp] theorem State.setA_sel (s : State) (k : Nat) (v : Word) : (s.setA k v).sel = s.sel := rfl
@[simp] theorem State.setA_cup (s : State) (k : Nat) (v : Word) : (s.setA k v).cup = s.cup := rfl
@[simp] theorem State.setA_sched (s : State) (k : Nat) (v : Word) : (s.setA k v).sched = s.sched := rfl
@[simp] theorem State.setA_aids (s : State) (k : Nat) (v : Word) : (s.setA k v).aids = s.aids := rfl
@[simp] theorem State.setA_time (s : State) (k : Nat) (v : Word) : (s.setA k v).time = s.time := rfl
@[simp] theorem State.setA_phasor (s : State) (k : Nat) (v : Word) : (s.setA k v).phasor = s.phasor := rfl
@[simp] theorem State.setA_wave (s : State) (k : Nat) (v : Word) : (s.setA k v).wave = s.wave := rfl
@[simp] theorem State.setA_acq (s : State) (k : Nat) (v : Word) : (s.setA k v).acq = s.acq := rfl
@[simp] theorem State.setA_adc (s : State) (k : Nat) (v : Word) : (s.setA k v).adc = s.adc := rfl
@[simp] theorem State.setA_pwm (s : State) (k : Nat) (v : Word) : (s.setA k v).pwm = s.pwm := rfl
@[simp] theorem State.setA_wt (s : State) (k : Nat) (v : Word) : (s.setA k v).wt = s.wt := rfl
@[simp] theorem State.setA_pair (s : State) (k : Nat) (v : Word) : (s.setA k v).pair = s.pair := rfl
@[simp] theorem State.setA_fault (s : State) (k : Nat) (v : Word) : (s.setA k v).fault = s.fault := rfl
@[simp] theorem State.setA_mem (s : State) (k : Nat) (v : Word) : (s.setA k v).mem = s.mem := rfl
@[simp] theorem State.setA_irq (s : State) (k : Nat) (v : Word) : (s.setA k v).irq = s.irq := rfl
@[simp] theorem State.setA_jrn (s : State) (k : Nat) (v : Word) : (s.setA k v).jrn = s.jrn := rfl
@[simp] theorem State.setA_dict (s : State) (k : Nat) (v : Word) : (s.setA k v).dict = s.dict := rfl
@[simp] theorem State.setA_power (s : State) (k : Nat) (v : Word) : (s.setA k v).power = s.power := rfl
@[simp] theorem State.setA_jtag (s : State) (k : Nat) (v : Word) : (s.setA k v).jtag = s.jtag := rfl
@[simp] theorem State.setA_samples (s : State) (k : Nat) (v : Word) : (s.setA k v).samples = s.samples := rfl
@[simp] theorem State.setS_pending (s : State) (k : Nat) (v : Word) : (s.setS k v).pending = s.pending := rfl
@[simp] theorem State.setS_live (s : State) (k : Nat) (v : Word) : (s.setS k v).live = s.live := rfl
@[simp] theorem State.setS_act (s : State) (k : Nat) (v : Word) : (s.setS k v).act = s.act := rfl
@[simp] theorem State.setS_stg (s : State) (k : Nat) (v : Word) : (s.setS k v).stg = tput dfltW s.stg k v := rfl
@[simp] theorem State.setS_kAct (s : State) (k : Nat) (v : Word) : (s.setS k v).kAct = s.kAct := rfl
@[simp] theorem State.setS_kStg (s : State) (k : Nat) (v : Word) : (s.setS k v).kStg = s.kStg := rfl
@[simp] theorem State.setS_sram (s : State) (k : Nat) (v : Word) : (s.setS k v).sram = s.sram := rfl
@[simp] theorem State.setS_flash (s : State) (k : Nat) (v : Word) : (s.setS k v).flash = s.flash := rfl
@[simp] theorem State.setS_free (s : State) (k : Nat) (v : Word) : (s.setS k v).free = s.free := rfl
@[simp] theorem State.setS_mode (s : State) (k : Nat) (v : Word) : (s.setS k v).mode = s.mode := rfl
@[simp] theorem State.setS_boot (s : State) (k : Nat) (v : Word) : (s.setS k v).boot = s.boot := rfl
@[simp] theorem State.setS_commit (s : State) (k : Nat) (v : Word) : (s.setS k v).commit = s.commit := rfl
@[simp] theorem State.setS_img (s : State) (k : Nat) (v : Word) : (s.setS k v).img = s.img := rfl
@[simp] theorem State.setS_frame (s : State) (k : Nat) (v : Word) : (s.setS k v).frame = s.frame := rfl
@[simp] theorem State.setS_modes (s : State) (k : Nat) (v : Word) : (s.setS k v).modes = s.modes := rfl
@[simp] theorem State.setS_lanes (s : State) (k : Nat) (v : Word) : (s.setS k v).lanes = s.lanes := rfl
@[simp] theorem State.setS_routes (s : State) (k : Nat) (v : Word) : (s.setS k v).routes = s.routes := rfl
@[simp] theorem State.setS_launch (s : State) (k : Nat) (v : Word) : (s.setS k v).launch = s.launch := rfl
@[simp] theorem State.setS_ledger (s : State) (k : Nat) (v : Word) : (s.setS k v).ledger = s.ledger := rfl
@[simp] theorem State.setS_arms (s : State) (k : Nat) (v : Word) : (s.setS k v).arms = s.arms := rfl
@[simp] theorem State.setS_sel (s : State) (k : Nat) (v : Word) : (s.setS k v).sel = s.sel := rfl
@[simp] theorem State.setS_cup (s : State) (k : Nat) (v : Word) : (s.setS k v).cup = s.cup := rfl
@[simp] theorem State.setS_sched (s : State) (k : Nat) (v : Word) : (s.setS k v).sched = s.sched := rfl
@[simp] theorem State.setS_aids (s : State) (k : Nat) (v : Word) : (s.setS k v).aids = s.aids := rfl
@[simp] theorem State.setS_time (s : State) (k : Nat) (v : Word) : (s.setS k v).time = s.time := rfl
@[simp] theorem State.setS_phasor (s : State) (k : Nat) (v : Word) : (s.setS k v).phasor = s.phasor := rfl
@[simp] theorem State.setS_wave (s : State) (k : Nat) (v : Word) : (s.setS k v).wave = s.wave := rfl
@[simp] theorem State.setS_acq (s : State) (k : Nat) (v : Word) : (s.setS k v).acq = s.acq := rfl
@[simp] theorem State.setS_adc (s : State) (k : Nat) (v : Word) : (s.setS k v).adc = s.adc := rfl
@[simp] theorem State.setS_pwm (s : State) (k : Nat) (v : Word) : (s.setS k v).pwm = s.pwm := rfl
@[simp] theorem State.setS_wt (s : State) (k : Nat) (v : Word) : (s.setS k v).wt = s.wt := rfl
@[simp] theorem State.setS_pair (s : State) (k : Nat) (v : Word) : (s.setS k v).pair = s.pair := rfl
@[simp] theorem State.setS_fault (s : State) (k : Nat) (v : Word) : (s.setS k v).fault = s.fault := rfl
@[simp] theorem State.setS_mem (s : State) (k : Nat) (v : Word) : (s.setS k v).mem = s.mem := rfl
@[simp] theorem State.setS_irq (s : State) (k : Nat) (v : Word) : (s.setS k v).irq = s.irq := rfl
@[simp] theorem State.setS_jrn (s : State) (k : Nat) (v : Word) : (s.setS k v).jrn = s.jrn := rfl
@[simp] theorem State.setS_dict (s : State) (k : Nat) (v : Word) : (s.setS k v).dict = s.dict := rfl
@[simp] theorem State.setS_power (s : State) (k : Nat) (v : Word) : (s.setS k v).power = s.power := rfl
@[simp] theorem State.setS_jtag (s : State) (k : Nat) (v : Word) : (s.setS k v).jtag = s.jtag := rfl
@[simp] theorem State.setS_samples (s : State) (k : Nat) (v : Word) : (s.setS k v).samples = s.samples := rfl
@[simp] theorem State.setK_pending (s : State) (k : Nat) (v : Word) : (s.setK k v).pending = s.pending := rfl
@[simp] theorem State.setK_live (s : State) (k : Nat) (v : Word) : (s.setK k v).live = s.live := rfl
@[simp] theorem State.setK_act (s : State) (k : Nat) (v : Word) : (s.setK k v).act = s.act := rfl
@[simp] theorem State.setK_stg (s : State) (k : Nat) (v : Word) : (s.setK k v).stg = s.stg := rfl
@[simp] theorem State.setK_kAct (s : State) (k : Nat) (v : Word) : (s.setK k v).kAct = tput dfltW s.kAct k v := rfl
@[simp] theorem State.setK_kStg (s : State) (k : Nat) (v : Word) : (s.setK k v).kStg = s.kStg := rfl
@[simp] theorem State.setK_sram (s : State) (k : Nat) (v : Word) : (s.setK k v).sram = s.sram := rfl
@[simp] theorem State.setK_flash (s : State) (k : Nat) (v : Word) : (s.setK k v).flash = s.flash := rfl
@[simp] theorem State.setK_free (s : State) (k : Nat) (v : Word) : (s.setK k v).free = s.free := rfl
@[simp] theorem State.setK_mode (s : State) (k : Nat) (v : Word) : (s.setK k v).mode = s.mode := rfl
@[simp] theorem State.setK_boot (s : State) (k : Nat) (v : Word) : (s.setK k v).boot = s.boot := rfl
@[simp] theorem State.setK_commit (s : State) (k : Nat) (v : Word) : (s.setK k v).commit = s.commit := rfl
@[simp] theorem State.setK_img (s : State) (k : Nat) (v : Word) : (s.setK k v).img = s.img := rfl
@[simp] theorem State.setK_frame (s : State) (k : Nat) (v : Word) : (s.setK k v).frame = s.frame := rfl
@[simp] theorem State.setK_modes (s : State) (k : Nat) (v : Word) : (s.setK k v).modes = s.modes := rfl
@[simp] theorem State.setK_lanes (s : State) (k : Nat) (v : Word) : (s.setK k v).lanes = s.lanes := rfl
@[simp] theorem State.setK_routes (s : State) (k : Nat) (v : Word) : (s.setK k v).routes = s.routes := rfl
@[simp] theorem State.setK_launch (s : State) (k : Nat) (v : Word) : (s.setK k v).launch = s.launch := rfl
@[simp] theorem State.setK_ledger (s : State) (k : Nat) (v : Word) : (s.setK k v).ledger = s.ledger := rfl
@[simp] theorem State.setK_arms (s : State) (k : Nat) (v : Word) : (s.setK k v).arms = s.arms := rfl
@[simp] theorem State.setK_sel (s : State) (k : Nat) (v : Word) : (s.setK k v).sel = s.sel := rfl
@[simp] theorem State.setK_cup (s : State) (k : Nat) (v : Word) : (s.setK k v).cup = s.cup := rfl
@[simp] theorem State.setK_sched (s : State) (k : Nat) (v : Word) : (s.setK k v).sched = s.sched := rfl
@[simp] theorem State.setK_aids (s : State) (k : Nat) (v : Word) : (s.setK k v).aids = s.aids := rfl
@[simp] theorem State.setK_time (s : State) (k : Nat) (v : Word) : (s.setK k v).time = s.time := rfl
@[simp] theorem State.setK_phasor (s : State) (k : Nat) (v : Word) : (s.setK k v).phasor = s.phasor := rfl
@[simp] theorem State.setK_wave (s : State) (k : Nat) (v : Word) : (s.setK k v).wave = s.wave := rfl
@[simp] theorem State.setK_acq (s : State) (k : Nat) (v : Word) : (s.setK k v).acq = s.acq := rfl
@[simp] theorem State.setK_adc (s : State) (k : Nat) (v : Word) : (s.setK k v).adc = s.adc := rfl
@[simp] theorem State.setK_pwm (s : State) (k : Nat) (v : Word) : (s.setK k v).pwm = s.pwm := rfl
@[simp] theorem State.setK_wt (s : State) (k : Nat) (v : Word) : (s.setK k v).wt = s.wt := rfl
@[simp] theorem State.setK_pair (s : State) (k : Nat) (v : Word) : (s.setK k v).pair = s.pair := rfl
@[simp] theorem State.setK_fault (s : State) (k : Nat) (v : Word) : (s.setK k v).fault = s.fault := rfl
@[simp] theorem State.setK_mem (s : State) (k : Nat) (v : Word) : (s.setK k v).mem = s.mem := rfl
@[simp] theorem State.setK_irq (s : State) (k : Nat) (v : Word) : (s.setK k v).irq = s.irq := rfl
@[simp] theorem State.setK_jrn (s : State) (k : Nat) (v : Word) : (s.setK k v).jrn = s.jrn := rfl
@[simp] theorem State.setK_dict (s : State) (k : Nat) (v : Word) : (s.setK k v).dict = s.dict := rfl
@[simp] theorem State.setK_power (s : State) (k : Nat) (v : Word) : (s.setK k v).power = s.power := rfl
@[simp] theorem State.setK_jtag (s : State) (k : Nat) (v : Word) : (s.setK k v).jtag = s.jtag := rfl
@[simp] theorem State.setK_samples (s : State) (k : Nat) (v : Word) : (s.setK k v).samples = s.samples := rfl
@[simp] theorem State.setKS_pending (s : State) (k : Nat) (v : Word) : (s.setKS k v).pending = s.pending := rfl
@[simp] theorem State.setKS_live (s : State) (k : Nat) (v : Word) : (s.setKS k v).live = s.live := rfl
@[simp] theorem State.setKS_act (s : State) (k : Nat) (v : Word) : (s.setKS k v).act = s.act := rfl
@[simp] theorem State.setKS_stg (s : State) (k : Nat) (v : Word) : (s.setKS k v).stg = s.stg := rfl
@[simp] theorem State.setKS_kAct (s : State) (k : Nat) (v : Word) : (s.setKS k v).kAct = s.kAct := rfl
@[simp] theorem State.setKS_kStg (s : State) (k : Nat) (v : Word) : (s.setKS k v).kStg = tput dfltW s.kStg k v := rfl
@[simp] theorem State.setKS_sram (s : State) (k : Nat) (v : Word) : (s.setKS k v).sram = s.sram := rfl
@[simp] theorem State.setKS_flash (s : State) (k : Nat) (v : Word) : (s.setKS k v).flash = s.flash := rfl
@[simp] theorem State.setKS_free (s : State) (k : Nat) (v : Word) : (s.setKS k v).free = s.free := rfl
@[simp] theorem State.setKS_mode (s : State) (k : Nat) (v : Word) : (s.setKS k v).mode = s.mode := rfl
@[simp] theorem State.setKS_boot (s : State) (k : Nat) (v : Word) : (s.setKS k v).boot = s.boot := rfl
@[simp] theorem State.setKS_commit (s : State) (k : Nat) (v : Word) : (s.setKS k v).commit = s.commit := rfl
@[simp] theorem State.setKS_img (s : State) (k : Nat) (v : Word) : (s.setKS k v).img = s.img := rfl
@[simp] theorem State.setKS_frame (s : State) (k : Nat) (v : Word) : (s.setKS k v).frame = s.frame := rfl
@[simp] theorem State.setKS_modes (s : State) (k : Nat) (v : Word) : (s.setKS k v).modes = s.modes := rfl
@[simp] theorem State.setKS_lanes (s : State) (k : Nat) (v : Word) : (s.setKS k v).lanes = s.lanes := rfl
@[simp] theorem State.setKS_routes (s : State) (k : Nat) (v : Word) : (s.setKS k v).routes = s.routes := rfl
@[simp] theorem State.setKS_launch (s : State) (k : Nat) (v : Word) : (s.setKS k v).launch = s.launch := rfl
@[simp] theorem State.setKS_ledger (s : State) (k : Nat) (v : Word) : (s.setKS k v).ledger = s.ledger := rfl
@[simp] theorem State.setKS_arms (s : State) (k : Nat) (v : Word) : (s.setKS k v).arms = s.arms := rfl
@[simp] theorem State.setKS_sel (s : State) (k : Nat) (v : Word) : (s.setKS k v).sel = s.sel := rfl
@[simp] theorem State.setKS_cup (s : State) (k : Nat) (v : Word) : (s.setKS k v).cup = s.cup := rfl
@[simp] theorem State.setKS_sched (s : State) (k : Nat) (v : Word) : (s.setKS k v).sched = s.sched := rfl
@[simp] theorem State.setKS_aids (s : State) (k : Nat) (v : Word) : (s.setKS k v).aids = s.aids := rfl
@[simp] theorem State.setKS_time (s : State) (k : Nat) (v : Word) : (s.setKS k v).time = s.time := rfl
@[simp] theorem State.setKS_phasor (s : State) (k : Nat) (v : Word) : (s.setKS k v).phasor = s.phasor := rfl
@[simp] theorem State.setKS_wave (s : State) (k : Nat) (v : Word) : (s.setKS k v).wave = s.wave := rfl
@[simp] theorem State.setKS_acq (s : State) (k : Nat) (v : Word) : (s.setKS k v).acq = s.acq := rfl
@[simp] theorem State.setKS_adc (s : State) (k : Nat) (v : Word) : (s.setKS k v).adc = s.adc := rfl
@[simp] theorem State.setKS_pwm (s : State) (k : Nat) (v : Word) : (s.setKS k v).pwm = s.pwm := rfl
@[simp] theorem State.setKS_wt (s : State) (k : Nat) (v : Word) : (s.setKS k v).wt = s.wt := rfl
@[simp] theorem State.setKS_pair (s : State) (k : Nat) (v : Word) : (s.setKS k v).pair = s.pair := rfl
@[simp] theorem State.setKS_fault (s : State) (k : Nat) (v : Word) : (s.setKS k v).fault = s.fault := rfl
@[simp] theorem State.setKS_mem (s : State) (k : Nat) (v : Word) : (s.setKS k v).mem = s.mem := rfl
@[simp] theorem State.setKS_irq (s : State) (k : Nat) (v : Word) : (s.setKS k v).irq = s.irq := rfl
@[simp] theorem State.setKS_jrn (s : State) (k : Nat) (v : Word) : (s.setKS k v).jrn = s.jrn := rfl
@[simp] theorem State.setKS_dict (s : State) (k : Nat) (v : Word) : (s.setKS k v).dict = s.dict := rfl
@[simp] theorem State.setKS_power (s : State) (k : Nat) (v : Word) : (s.setKS k v).power = s.power := rfl
@[simp] theorem State.setKS_jtag (s : State) (k : Nat) (v : Word) : (s.setKS k v).jtag = s.jtag := rfl
@[simp] theorem State.setKS_samples (s : State) (k : Nat) (v : Word) : (s.setKS k v).samples = s.samples := rfl
@[simp] theorem State.wrBytes_pending (s : State) (a : Nat) (bs : List Byte) : (s.wrBytes a bs).pending = s.pending := rfl
@[simp] theorem State.wrBytes_live (s : State) (a : Nat) (bs : List Byte) : (s.wrBytes a bs).live = s.live := rfl
@[simp] theorem State.wrBytes_act (s : State) (a : Nat) (bs : List Byte) : (s.wrBytes a bs).act = s.act := rfl
@[simp] theorem State.wrBytes_stg (s : State) (a : Nat) (bs : List Byte) : (s.wrBytes a bs).stg = s.stg := rfl
@[simp] theorem State.wrBytes_kAct (s : State) (a : Nat) (bs : List Byte) : (s.wrBytes a bs).kAct = s.kAct := rfl
@[simp] theorem State.wrBytes_kStg (s : State) (a : Nat) (bs : List Byte) : (s.wrBytes a bs).kStg = s.kStg := rfl
@[simp] theorem State.wrBytes_sram (s : State) (a : Nat) (bs : List Byte) : (s.wrBytes a bs).sram = tputs sramDefault s.sram a bs := rfl
@[simp] theorem State.wrBytes_flash (s : State) (a : Nat) (bs : List Byte) : (s.wrBytes a bs).flash = s.flash := rfl
@[simp] theorem State.wrBytes_free (s : State) (a : Nat) (bs : List Byte) : (s.wrBytes a bs).free = s.free := rfl
@[simp] theorem State.wrBytes_mode (s : State) (a : Nat) (bs : List Byte) : (s.wrBytes a bs).mode = s.mode := rfl
@[simp] theorem State.wrBytes_boot (s : State) (a : Nat) (bs : List Byte) : (s.wrBytes a bs).boot = s.boot := rfl
@[simp] theorem State.wrBytes_commit (s : State) (a : Nat) (bs : List Byte) : (s.wrBytes a bs).commit = s.commit := rfl
@[simp] theorem State.wrBytes_img (s : State) (a : Nat) (bs : List Byte) : (s.wrBytes a bs).img = s.img := rfl
@[simp] theorem State.wrBytes_frame (s : State) (a : Nat) (bs : List Byte) : (s.wrBytes a bs).frame = s.frame := rfl
@[simp] theorem State.wrBytes_modes (s : State) (a : Nat) (bs : List Byte) : (s.wrBytes a bs).modes = s.modes := rfl
@[simp] theorem State.wrBytes_lanes (s : State) (a : Nat) (bs : List Byte) : (s.wrBytes a bs).lanes = s.lanes := rfl
@[simp] theorem State.wrBytes_routes (s : State) (a : Nat) (bs : List Byte) : (s.wrBytes a bs).routes = s.routes := rfl
@[simp] theorem State.wrBytes_launch (s : State) (a : Nat) (bs : List Byte) : (s.wrBytes a bs).launch = s.launch := rfl
@[simp] theorem State.wrBytes_ledger (s : State) (a : Nat) (bs : List Byte) : (s.wrBytes a bs).ledger = s.ledger := rfl
@[simp] theorem State.wrBytes_arms (s : State) (a : Nat) (bs : List Byte) : (s.wrBytes a bs).arms = s.arms := rfl
@[simp] theorem State.wrBytes_sel (s : State) (a : Nat) (bs : List Byte) : (s.wrBytes a bs).sel = s.sel := rfl
@[simp] theorem State.wrBytes_cup (s : State) (a : Nat) (bs : List Byte) : (s.wrBytes a bs).cup = s.cup := rfl
@[simp] theorem State.wrBytes_sched (s : State) (a : Nat) (bs : List Byte) : (s.wrBytes a bs).sched = s.sched := rfl
@[simp] theorem State.wrBytes_aids (s : State) (a : Nat) (bs : List Byte) : (s.wrBytes a bs).aids = s.aids := rfl
@[simp] theorem State.wrBytes_time (s : State) (a : Nat) (bs : List Byte) : (s.wrBytes a bs).time = s.time := rfl
@[simp] theorem State.wrBytes_phasor (s : State) (a : Nat) (bs : List Byte) : (s.wrBytes a bs).phasor = s.phasor := rfl
@[simp] theorem State.wrBytes_wave (s : State) (a : Nat) (bs : List Byte) : (s.wrBytes a bs).wave = s.wave := rfl
@[simp] theorem State.wrBytes_acq (s : State) (a : Nat) (bs : List Byte) : (s.wrBytes a bs).acq = s.acq := rfl
@[simp] theorem State.wrBytes_adc (s : State) (a : Nat) (bs : List Byte) : (s.wrBytes a bs).adc = s.adc := rfl
@[simp] theorem State.wrBytes_pwm (s : State) (a : Nat) (bs : List Byte) : (s.wrBytes a bs).pwm = s.pwm := rfl
@[simp] theorem State.wrBytes_wt (s : State) (a : Nat) (bs : List Byte) : (s.wrBytes a bs).wt = s.wt := rfl
@[simp] theorem State.wrBytes_pair (s : State) (a : Nat) (bs : List Byte) : (s.wrBytes a bs).pair = s.pair := rfl
@[simp] theorem State.wrBytes_fault (s : State) (a : Nat) (bs : List Byte) : (s.wrBytes a bs).fault = s.fault := rfl
@[simp] theorem State.wrBytes_mem (s : State) (a : Nat) (bs : List Byte) : (s.wrBytes a bs).mem = s.mem := rfl
@[simp] theorem State.wrBytes_irq (s : State) (a : Nat) (bs : List Byte) : (s.wrBytes a bs).irq = s.irq := rfl
@[simp] theorem State.wrBytes_jrn (s : State) (a : Nat) (bs : List Byte) : (s.wrBytes a bs).jrn = s.jrn := rfl
@[simp] theorem State.wrBytes_dict (s : State) (a : Nat) (bs : List Byte) : (s.wrBytes a bs).dict = s.dict := rfl
@[simp] theorem State.wrBytes_power (s : State) (a : Nat) (bs : List Byte) : (s.wrBytes a bs).power = s.power := rfl
@[simp] theorem State.wrBytes_jtag (s : State) (a : Nat) (bs : List Byte) : (s.wrBytes a bs).jtag = s.jtag := rfl
@[simp] theorem State.wrBytes_samples (s : State) (a : Nat) (bs : List Byte) : (s.wrBytes a bs).samples = s.samples := rfl
@[simp] theorem State.wrFlash_pending (s : State) (a : Nat) (bs : List Byte) : (s.wrFlash a bs).pending = s.pending := rfl
@[simp] theorem State.wrFlash_live (s : State) (a : Nat) (bs : List Byte) : (s.wrFlash a bs).live = s.live := rfl
@[simp] theorem State.wrFlash_act (s : State) (a : Nat) (bs : List Byte) : (s.wrFlash a bs).act = s.act := rfl
@[simp] theorem State.wrFlash_stg (s : State) (a : Nat) (bs : List Byte) : (s.wrFlash a bs).stg = s.stg := rfl
@[simp] theorem State.wrFlash_kAct (s : State) (a : Nat) (bs : List Byte) : (s.wrFlash a bs).kAct = s.kAct := rfl
@[simp] theorem State.wrFlash_kStg (s : State) (a : Nat) (bs : List Byte) : (s.wrFlash a bs).kStg = s.kStg := rfl
@[simp] theorem State.wrFlash_sram (s : State) (a : Nat) (bs : List Byte) : (s.wrFlash a bs).sram = s.sram := rfl
@[simp] theorem State.wrFlash_flash (s : State) (a : Nat) (bs : List Byte) : (s.wrFlash a bs).flash = tputs flashDefault s.flash a bs := rfl
@[simp] theorem State.wrFlash_free (s : State) (a : Nat) (bs : List Byte) : (s.wrFlash a bs).free = s.free := rfl
@[simp] theorem State.wrFlash_mode (s : State) (a : Nat) (bs : List Byte) : (s.wrFlash a bs).mode = s.mode := rfl
@[simp] theorem State.wrFlash_boot (s : State) (a : Nat) (bs : List Byte) : (s.wrFlash a bs).boot = s.boot := rfl
@[simp] theorem State.wrFlash_commit (s : State) (a : Nat) (bs : List Byte) : (s.wrFlash a bs).commit = s.commit := rfl
@[simp] theorem State.wrFlash_img (s : State) (a : Nat) (bs : List Byte) : (s.wrFlash a bs).img = s.img := rfl
@[simp] theorem State.wrFlash_frame (s : State) (a : Nat) (bs : List Byte) : (s.wrFlash a bs).frame = s.frame := rfl
@[simp] theorem State.wrFlash_modes (s : State) (a : Nat) (bs : List Byte) : (s.wrFlash a bs).modes = s.modes := rfl
@[simp] theorem State.wrFlash_lanes (s : State) (a : Nat) (bs : List Byte) : (s.wrFlash a bs).lanes = s.lanes := rfl
@[simp] theorem State.wrFlash_routes (s : State) (a : Nat) (bs : List Byte) : (s.wrFlash a bs).routes = s.routes := rfl
@[simp] theorem State.wrFlash_launch (s : State) (a : Nat) (bs : List Byte) : (s.wrFlash a bs).launch = s.launch := rfl
@[simp] theorem State.wrFlash_ledger (s : State) (a : Nat) (bs : List Byte) : (s.wrFlash a bs).ledger = s.ledger := rfl
@[simp] theorem State.wrFlash_arms (s : State) (a : Nat) (bs : List Byte) : (s.wrFlash a bs).arms = s.arms := rfl
@[simp] theorem State.wrFlash_sel (s : State) (a : Nat) (bs : List Byte) : (s.wrFlash a bs).sel = s.sel := rfl
@[simp] theorem State.wrFlash_cup (s : State) (a : Nat) (bs : List Byte) : (s.wrFlash a bs).cup = s.cup := rfl
@[simp] theorem State.wrFlash_sched (s : State) (a : Nat) (bs : List Byte) : (s.wrFlash a bs).sched = s.sched := rfl
@[simp] theorem State.wrFlash_aids (s : State) (a : Nat) (bs : List Byte) : (s.wrFlash a bs).aids = s.aids := rfl
@[simp] theorem State.wrFlash_time (s : State) (a : Nat) (bs : List Byte) : (s.wrFlash a bs).time = s.time := rfl
@[simp] theorem State.wrFlash_phasor (s : State) (a : Nat) (bs : List Byte) : (s.wrFlash a bs).phasor = s.phasor := rfl
@[simp] theorem State.wrFlash_wave (s : State) (a : Nat) (bs : List Byte) : (s.wrFlash a bs).wave = s.wave := rfl
@[simp] theorem State.wrFlash_acq (s : State) (a : Nat) (bs : List Byte) : (s.wrFlash a bs).acq = s.acq := rfl
@[simp] theorem State.wrFlash_adc (s : State) (a : Nat) (bs : List Byte) : (s.wrFlash a bs).adc = s.adc := rfl
@[simp] theorem State.wrFlash_pwm (s : State) (a : Nat) (bs : List Byte) : (s.wrFlash a bs).pwm = s.pwm := rfl
@[simp] theorem State.wrFlash_wt (s : State) (a : Nat) (bs : List Byte) : (s.wrFlash a bs).wt = s.wt := rfl
@[simp] theorem State.wrFlash_pair (s : State) (a : Nat) (bs : List Byte) : (s.wrFlash a bs).pair = s.pair := rfl
@[simp] theorem State.wrFlash_fault (s : State) (a : Nat) (bs : List Byte) : (s.wrFlash a bs).fault = s.fault := rfl
@[simp] theorem State.wrFlash_mem (s : State) (a : Nat) (bs : List Byte) : (s.wrFlash a bs).mem = s.mem := rfl
@[simp] theorem State.wrFlash_irq (s : State) (a : Nat) (bs : List Byte) : (s.wrFlash a bs).irq = s.irq := rfl
@[simp] theorem State.wrFlash_jrn (s : State) (a : Nat) (bs : List Byte) : (s.wrFlash a bs).jrn = s.jrn := rfl
@[simp] theorem State.wrFlash_dict (s : State) (a : Nat) (bs : List Byte) : (s.wrFlash a bs).dict = s.dict := rfl
@[simp] theorem State.wrFlash_power (s : State) (a : Nat) (bs : List Byte) : (s.wrFlash a bs).power = s.power := rfl
@[simp] theorem State.wrFlash_jtag (s : State) (a : Nat) (bs : List Byte) : (s.wrFlash a bs).jtag = s.jtag := rfl
@[simp] theorem State.wrFlash_samples (s : State) (a : Nat) (bs : List Byte) : (s.wrFlash a bs).samples = s.samples := rfl
@[simp] theorem State.setLane_pending (s : State) (n : Nat) (x : Lane) : (s.setLane n x).pending = s.pending := rfl
@[simp] theorem State.setLane_live (s : State) (n : Nat) (x : Lane) : (s.setLane n x).live = s.live := rfl
@[simp] theorem State.setLane_act (s : State) (n : Nat) (x : Lane) : (s.setLane n x).act = s.act := rfl
@[simp] theorem State.setLane_stg (s : State) (n : Nat) (x : Lane) : (s.setLane n x).stg = s.stg := rfl
@[simp] theorem State.setLane_kAct (s : State) (n : Nat) (x : Lane) : (s.setLane n x).kAct = s.kAct := rfl
@[simp] theorem State.setLane_kStg (s : State) (n : Nat) (x : Lane) : (s.setLane n x).kStg = s.kStg := rfl
@[simp] theorem State.setLane_sram (s : State) (n : Nat) (x : Lane) : (s.setLane n x).sram = s.sram := rfl
@[simp] theorem State.setLane_flash (s : State) (n : Nat) (x : Lane) : (s.setLane n x).flash = s.flash := rfl
@[simp] theorem State.setLane_free (s : State) (n : Nat) (x : Lane) : (s.setLane n x).free = s.free := rfl
@[simp] theorem State.setLane_mode (s : State) (n : Nat) (x : Lane) : (s.setLane n x).mode = s.mode := rfl
@[simp] theorem State.setLane_boot (s : State) (n : Nat) (x : Lane) : (s.setLane n x).boot = s.boot := rfl
@[simp] theorem State.setLane_commit (s : State) (n : Nat) (x : Lane) : (s.setLane n x).commit = s.commit := rfl
@[simp] theorem State.setLane_img (s : State) (n : Nat) (x : Lane) : (s.setLane n x).img = s.img := rfl
@[simp] theorem State.setLane_frame (s : State) (n : Nat) (x : Lane) : (s.setLane n x).frame = s.frame := rfl
@[simp] theorem State.setLane_modes (s : State) (n : Nat) (x : Lane) : (s.setLane n x).modes = s.modes := rfl
@[simp] theorem State.setLane_lanes (s : State) (n : Nat) (x : Lane) : (s.setLane n x).lanes = vset s.lanes n x := rfl
@[simp] theorem State.setLane_routes (s : State) (n : Nat) (x : Lane) : (s.setLane n x).routes = s.routes := rfl
@[simp] theorem State.setLane_launch (s : State) (n : Nat) (x : Lane) : (s.setLane n x).launch = s.launch := rfl
@[simp] theorem State.setLane_ledger (s : State) (n : Nat) (x : Lane) : (s.setLane n x).ledger = s.ledger := rfl
@[simp] theorem State.setLane_arms (s : State) (n : Nat) (x : Lane) : (s.setLane n x).arms = s.arms := rfl
@[simp] theorem State.setLane_sel (s : State) (n : Nat) (x : Lane) : (s.setLane n x).sel = s.sel := rfl
@[simp] theorem State.setLane_cup (s : State) (n : Nat) (x : Lane) : (s.setLane n x).cup = s.cup := rfl
@[simp] theorem State.setLane_sched (s : State) (n : Nat) (x : Lane) : (s.setLane n x).sched = s.sched := rfl
@[simp] theorem State.setLane_aids (s : State) (n : Nat) (x : Lane) : (s.setLane n x).aids = s.aids := rfl
@[simp] theorem State.setLane_time (s : State) (n : Nat) (x : Lane) : (s.setLane n x).time = s.time := rfl
@[simp] theorem State.setLane_phasor (s : State) (n : Nat) (x : Lane) : (s.setLane n x).phasor = s.phasor := rfl
@[simp] theorem State.setLane_wave (s : State) (n : Nat) (x : Lane) : (s.setLane n x).wave = s.wave := rfl
@[simp] theorem State.setLane_acq (s : State) (n : Nat) (x : Lane) : (s.setLane n x).acq = s.acq := rfl
@[simp] theorem State.setLane_adc (s : State) (n : Nat) (x : Lane) : (s.setLane n x).adc = s.adc := rfl
@[simp] theorem State.setLane_pwm (s : State) (n : Nat) (x : Lane) : (s.setLane n x).pwm = s.pwm := rfl
@[simp] theorem State.setLane_wt (s : State) (n : Nat) (x : Lane) : (s.setLane n x).wt = s.wt := rfl
@[simp] theorem State.setLane_pair (s : State) (n : Nat) (x : Lane) : (s.setLane n x).pair = s.pair := rfl
@[simp] theorem State.setLane_fault (s : State) (n : Nat) (x : Lane) : (s.setLane n x).fault = s.fault := rfl
@[simp] theorem State.setLane_mem (s : State) (n : Nat) (x : Lane) : (s.setLane n x).mem = s.mem := rfl
@[simp] theorem State.setLane_irq (s : State) (n : Nat) (x : Lane) : (s.setLane n x).irq = s.irq := rfl
@[simp] theorem State.setLane_jrn (s : State) (n : Nat) (x : Lane) : (s.setLane n x).jrn = s.jrn := rfl
@[simp] theorem State.setLane_dict (s : State) (n : Nat) (x : Lane) : (s.setLane n x).dict = s.dict := rfl
@[simp] theorem State.setLane_power (s : State) (n : Nat) (x : Lane) : (s.setLane n x).power = s.power := rfl
@[simp] theorem State.setLane_jtag (s : State) (n : Nat) (x : Lane) : (s.setLane n x).jtag = s.jtag := rfl
@[simp] theorem State.setLane_samples (s : State) (n : Nat) (x : Lane) : (s.setLane n x).samples = s.samples := rfl
@[simp] theorem State.setRoute_pending (s : State) (n : Nat) (x : Route) : (s.setRoute n x).pending = s.pending := rfl
@[simp] theorem State.setRoute_live (s : State) (n : Nat) (x : Route) : (s.setRoute n x).live = s.live := rfl
@[simp] theorem State.setRoute_act (s : State) (n : Nat) (x : Route) : (s.setRoute n x).act = s.act := rfl
@[simp] theorem State.setRoute_stg (s : State) (n : Nat) (x : Route) : (s.setRoute n x).stg = s.stg := rfl
@[simp] theorem State.setRoute_kAct (s : State) (n : Nat) (x : Route) : (s.setRoute n x).kAct = s.kAct := rfl
@[simp] theorem State.setRoute_kStg (s : State) (n : Nat) (x : Route) : (s.setRoute n x).kStg = s.kStg := rfl
@[simp] theorem State.setRoute_sram (s : State) (n : Nat) (x : Route) : (s.setRoute n x).sram = s.sram := rfl
@[simp] theorem State.setRoute_flash (s : State) (n : Nat) (x : Route) : (s.setRoute n x).flash = s.flash := rfl
@[simp] theorem State.setRoute_free (s : State) (n : Nat) (x : Route) : (s.setRoute n x).free = s.free := rfl
@[simp] theorem State.setRoute_mode (s : State) (n : Nat) (x : Route) : (s.setRoute n x).mode = s.mode := rfl
@[simp] theorem State.setRoute_boot (s : State) (n : Nat) (x : Route) : (s.setRoute n x).boot = s.boot := rfl
@[simp] theorem State.setRoute_commit (s : State) (n : Nat) (x : Route) : (s.setRoute n x).commit = s.commit := rfl
@[simp] theorem State.setRoute_img (s : State) (n : Nat) (x : Route) : (s.setRoute n x).img = s.img := rfl
@[simp] theorem State.setRoute_frame (s : State) (n : Nat) (x : Route) : (s.setRoute n x).frame = s.frame := rfl
@[simp] theorem State.setRoute_modes (s : State) (n : Nat) (x : Route) : (s.setRoute n x).modes = s.modes := rfl
@[simp] theorem State.setRoute_lanes (s : State) (n : Nat) (x : Route) : (s.setRoute n x).lanes = s.lanes := rfl
@[simp] theorem State.setRoute_routes (s : State) (n : Nat) (x : Route) : (s.setRoute n x).routes = { s.routes with routes := vset s.routes.routes n x } := rfl
@[simp] theorem State.setRoute_launch (s : State) (n : Nat) (x : Route) : (s.setRoute n x).launch = s.launch := rfl
@[simp] theorem State.setRoute_ledger (s : State) (n : Nat) (x : Route) : (s.setRoute n x).ledger = s.ledger := rfl
@[simp] theorem State.setRoute_arms (s : State) (n : Nat) (x : Route) : (s.setRoute n x).arms = s.arms := rfl
@[simp] theorem State.setRoute_sel (s : State) (n : Nat) (x : Route) : (s.setRoute n x).sel = s.sel := rfl
@[simp] theorem State.setRoute_cup (s : State) (n : Nat) (x : Route) : (s.setRoute n x).cup = s.cup := rfl
@[simp] theorem State.setRoute_sched (s : State) (n : Nat) (x : Route) : (s.setRoute n x).sched = s.sched := rfl
@[simp] theorem State.setRoute_aids (s : State) (n : Nat) (x : Route) : (s.setRoute n x).aids = s.aids := rfl
@[simp] theorem State.setRoute_time (s : State) (n : Nat) (x : Route) : (s.setRoute n x).time = s.time := rfl
@[simp] theorem State.setRoute_phasor (s : State) (n : Nat) (x : Route) : (s.setRoute n x).phasor = s.phasor := rfl
@[simp] theorem State.setRoute_wave (s : State) (n : Nat) (x : Route) : (s.setRoute n x).wave = s.wave := rfl
@[simp] theorem State.setRoute_acq (s : State) (n : Nat) (x : Route) : (s.setRoute n x).acq = s.acq := rfl
@[simp] theorem State.setRoute_adc (s : State) (n : Nat) (x : Route) : (s.setRoute n x).adc = s.adc := rfl
@[simp] theorem State.setRoute_pwm (s : State) (n : Nat) (x : Route) : (s.setRoute n x).pwm = s.pwm := rfl
@[simp] theorem State.setRoute_wt (s : State) (n : Nat) (x : Route) : (s.setRoute n x).wt = s.wt := rfl
@[simp] theorem State.setRoute_pair (s : State) (n : Nat) (x : Route) : (s.setRoute n x).pair = s.pair := rfl
@[simp] theorem State.setRoute_fault (s : State) (n : Nat) (x : Route) : (s.setRoute n x).fault = s.fault := rfl
@[simp] theorem State.setRoute_mem (s : State) (n : Nat) (x : Route) : (s.setRoute n x).mem = s.mem := rfl
@[simp] theorem State.setRoute_irq (s : State) (n : Nat) (x : Route) : (s.setRoute n x).irq = s.irq := rfl
@[simp] theorem State.setRoute_jrn (s : State) (n : Nat) (x : Route) : (s.setRoute n x).jrn = s.jrn := rfl
@[simp] theorem State.setRoute_dict (s : State) (n : Nat) (x : Route) : (s.setRoute n x).dict = s.dict := rfl
@[simp] theorem State.setRoute_power (s : State) (n : Nat) (x : Route) : (s.setRoute n x).power = s.power := rfl
@[simp] theorem State.setRoute_jtag (s : State) (n : Nat) (x : Route) : (s.setRoute n x).jtag = s.jtag := rfl
@[simp] theorem State.setRoute_samples (s : State) (n : Nat) (x : Route) : (s.setRoute n x).samples = s.samples := rfl
@[simp] theorem State.setArm_pending (s : State) (n : Nat) (x : Arm) : (s.setArm n x).pending = s.pending := rfl
@[simp] theorem State.setArm_live (s : State) (n : Nat) (x : Arm) : (s.setArm n x).live = s.live := rfl
@[simp] theorem State.setArm_act (s : State) (n : Nat) (x : Arm) : (s.setArm n x).act = s.act := rfl
@[simp] theorem State.setArm_stg (s : State) (n : Nat) (x : Arm) : (s.setArm n x).stg = s.stg := rfl
@[simp] theorem State.setArm_kAct (s : State) (n : Nat) (x : Arm) : (s.setArm n x).kAct = s.kAct := rfl
@[simp] theorem State.setArm_kStg (s : State) (n : Nat) (x : Arm) : (s.setArm n x).kStg = s.kStg := rfl
@[simp] theorem State.setArm_sram (s : State) (n : Nat) (x : Arm) : (s.setArm n x).sram = s.sram := rfl
@[simp] theorem State.setArm_flash (s : State) (n : Nat) (x : Arm) : (s.setArm n x).flash = s.flash := rfl
@[simp] theorem State.setArm_free (s : State) (n : Nat) (x : Arm) : (s.setArm n x).free = s.free := rfl
@[simp] theorem State.setArm_mode (s : State) (n : Nat) (x : Arm) : (s.setArm n x).mode = s.mode := rfl
@[simp] theorem State.setArm_boot (s : State) (n : Nat) (x : Arm) : (s.setArm n x).boot = s.boot := rfl
@[simp] theorem State.setArm_commit (s : State) (n : Nat) (x : Arm) : (s.setArm n x).commit = s.commit := rfl
@[simp] theorem State.setArm_img (s : State) (n : Nat) (x : Arm) : (s.setArm n x).img = s.img := rfl
@[simp] theorem State.setArm_frame (s : State) (n : Nat) (x : Arm) : (s.setArm n x).frame = s.frame := rfl
@[simp] theorem State.setArm_modes (s : State) (n : Nat) (x : Arm) : (s.setArm n x).modes = s.modes := rfl
@[simp] theorem State.setArm_lanes (s : State) (n : Nat) (x : Arm) : (s.setArm n x).lanes = s.lanes := rfl
@[simp] theorem State.setArm_routes (s : State) (n : Nat) (x : Arm) : (s.setArm n x).routes = s.routes := rfl
@[simp] theorem State.setArm_launch (s : State) (n : Nat) (x : Arm) : (s.setArm n x).launch = s.launch := rfl
@[simp] theorem State.setArm_ledger (s : State) (n : Nat) (x : Arm) : (s.setArm n x).ledger = s.ledger := rfl
@[simp] theorem State.setArm_arms (s : State) (n : Nat) (x : Arm) : (s.setArm n x).arms = vset s.arms n x := rfl
@[simp] theorem State.setArm_sel (s : State) (n : Nat) (x : Arm) : (s.setArm n x).sel = s.sel := rfl
@[simp] theorem State.setArm_cup (s : State) (n : Nat) (x : Arm) : (s.setArm n x).cup = s.cup := rfl
@[simp] theorem State.setArm_sched (s : State) (n : Nat) (x : Arm) : (s.setArm n x).sched = s.sched := rfl
@[simp] theorem State.setArm_aids (s : State) (n : Nat) (x : Arm) : (s.setArm n x).aids = s.aids := rfl
@[simp] theorem State.setArm_time (s : State) (n : Nat) (x : Arm) : (s.setArm n x).time = s.time := rfl
@[simp] theorem State.setArm_phasor (s : State) (n : Nat) (x : Arm) : (s.setArm n x).phasor = s.phasor := rfl
@[simp] theorem State.setArm_wave (s : State) (n : Nat) (x : Arm) : (s.setArm n x).wave = s.wave := rfl
@[simp] theorem State.setArm_acq (s : State) (n : Nat) (x : Arm) : (s.setArm n x).acq = s.acq := rfl
@[simp] theorem State.setArm_adc (s : State) (n : Nat) (x : Arm) : (s.setArm n x).adc = s.adc := rfl
@[simp] theorem State.setArm_pwm (s : State) (n : Nat) (x : Arm) : (s.setArm n x).pwm = s.pwm := rfl
@[simp] theorem State.setArm_wt (s : State) (n : Nat) (x : Arm) : (s.setArm n x).wt = s.wt := rfl
@[simp] theorem State.setArm_pair (s : State) (n : Nat) (x : Arm) : (s.setArm n x).pair = s.pair := rfl
@[simp] theorem State.setArm_fault (s : State) (n : Nat) (x : Arm) : (s.setArm n x).fault = s.fault := rfl
@[simp] theorem State.setArm_mem (s : State) (n : Nat) (x : Arm) : (s.setArm n x).mem = s.mem := rfl
@[simp] theorem State.setArm_irq (s : State) (n : Nat) (x : Arm) : (s.setArm n x).irq = s.irq := rfl
@[simp] theorem State.setArm_jrn (s : State) (n : Nat) (x : Arm) : (s.setArm n x).jrn = s.jrn := rfl
@[simp] theorem State.setArm_dict (s : State) (n : Nat) (x : Arm) : (s.setArm n x).dict = s.dict := rfl
@[simp] theorem State.setArm_power (s : State) (n : Nat) (x : Arm) : (s.setArm n x).power = s.power := rfl
@[simp] theorem State.setArm_jtag (s : State) (n : Nat) (x : Arm) : (s.setArm n x).jtag = s.jtag := rfl
@[simp] theorem State.setArm_samples (s : State) (n : Nat) (x : Arm) : (s.setArm n x).samples = s.samples := rfl
@[simp] theorem State.setEng_pending (s : State) (n : Nat) (x : Engine) : (s.setEng n x).pending = s.pending := rfl
@[simp] theorem State.setEng_live (s : State) (n : Nat) (x : Engine) : (s.setEng n x).live = s.live := rfl
@[simp] theorem State.setEng_act (s : State) (n : Nat) (x : Engine) : (s.setEng n x).act = s.act := rfl
@[simp] theorem State.setEng_stg (s : State) (n : Nat) (x : Engine) : (s.setEng n x).stg = s.stg := rfl
@[simp] theorem State.setEng_kAct (s : State) (n : Nat) (x : Engine) : (s.setEng n x).kAct = s.kAct := rfl
@[simp] theorem State.setEng_kStg (s : State) (n : Nat) (x : Engine) : (s.setEng n x).kStg = s.kStg := rfl
@[simp] theorem State.setEng_sram (s : State) (n : Nat) (x : Engine) : (s.setEng n x).sram = s.sram := rfl
@[simp] theorem State.setEng_flash (s : State) (n : Nat) (x : Engine) : (s.setEng n x).flash = s.flash := rfl
@[simp] theorem State.setEng_free (s : State) (n : Nat) (x : Engine) : (s.setEng n x).free = s.free := rfl
@[simp] theorem State.setEng_mode (s : State) (n : Nat) (x : Engine) : (s.setEng n x).mode = s.mode := rfl
@[simp] theorem State.setEng_boot (s : State) (n : Nat) (x : Engine) : (s.setEng n x).boot = s.boot := rfl
@[simp] theorem State.setEng_commit (s : State) (n : Nat) (x : Engine) : (s.setEng n x).commit = s.commit := rfl
@[simp] theorem State.setEng_img (s : State) (n : Nat) (x : Engine) : (s.setEng n x).img = s.img := rfl
@[simp] theorem State.setEng_frame (s : State) (n : Nat) (x : Engine) : (s.setEng n x).frame = s.frame := rfl
@[simp] theorem State.setEng_modes (s : State) (n : Nat) (x : Engine) : (s.setEng n x).modes = s.modes := rfl
@[simp] theorem State.setEng_lanes (s : State) (n : Nat) (x : Engine) : (s.setEng n x).lanes = s.lanes := rfl
@[simp] theorem State.setEng_routes (s : State) (n : Nat) (x : Engine) : (s.setEng n x).routes = s.routes := rfl
@[simp] theorem State.setEng_launch (s : State) (n : Nat) (x : Engine) : (s.setEng n x).launch = s.launch := rfl
@[simp] theorem State.setEng_ledger (s : State) (n : Nat) (x : Engine) : (s.setEng n x).ledger = s.ledger := rfl
@[simp] theorem State.setEng_arms (s : State) (n : Nat) (x : Engine) : (s.setEng n x).arms = s.arms := rfl
@[simp] theorem State.setEng_sel (s : State) (n : Nat) (x : Engine) : (s.setEng n x).sel = s.sel := rfl
@[simp] theorem State.setEng_cup (s : State) (n : Nat) (x : Engine) : (s.setEng n x).cup = { s.cup with eng := vset s.cup.eng n x } := rfl
@[simp] theorem State.setEng_sched (s : State) (n : Nat) (x : Engine) : (s.setEng n x).sched = s.sched := rfl
@[simp] theorem State.setEng_aids (s : State) (n : Nat) (x : Engine) : (s.setEng n x).aids = s.aids := rfl
@[simp] theorem State.setEng_time (s : State) (n : Nat) (x : Engine) : (s.setEng n x).time = s.time := rfl
@[simp] theorem State.setEng_phasor (s : State) (n : Nat) (x : Engine) : (s.setEng n x).phasor = s.phasor := rfl
@[simp] theorem State.setEng_wave (s : State) (n : Nat) (x : Engine) : (s.setEng n x).wave = s.wave := rfl
@[simp] theorem State.setEng_acq (s : State) (n : Nat) (x : Engine) : (s.setEng n x).acq = s.acq := rfl
@[simp] theorem State.setEng_adc (s : State) (n : Nat) (x : Engine) : (s.setEng n x).adc = s.adc := rfl
@[simp] theorem State.setEng_pwm (s : State) (n : Nat) (x : Engine) : (s.setEng n x).pwm = s.pwm := rfl
@[simp] theorem State.setEng_wt (s : State) (n : Nat) (x : Engine) : (s.setEng n x).wt = s.wt := rfl
@[simp] theorem State.setEng_pair (s : State) (n : Nat) (x : Engine) : (s.setEng n x).pair = s.pair := rfl
@[simp] theorem State.setEng_fault (s : State) (n : Nat) (x : Engine) : (s.setEng n x).fault = s.fault := rfl
@[simp] theorem State.setEng_mem (s : State) (n : Nat) (x : Engine) : (s.setEng n x).mem = s.mem := rfl
@[simp] theorem State.setEng_irq (s : State) (n : Nat) (x : Engine) : (s.setEng n x).irq = s.irq := rfl
@[simp] theorem State.setEng_jrn (s : State) (n : Nat) (x : Engine) : (s.setEng n x).jrn = s.jrn := rfl
@[simp] theorem State.setEng_dict (s : State) (n : Nat) (x : Engine) : (s.setEng n x).dict = s.dict := rfl
@[simp] theorem State.setEng_power (s : State) (n : Nat) (x : Engine) : (s.setEng n x).power = s.power := rfl
@[simp] theorem State.setEng_jtag (s : State) (n : Nat) (x : Engine) : (s.setEng n x).jtag = s.jtag := rfl
@[simp] theorem State.setEng_samples (s : State) (n : Nat) (x : Engine) : (s.setEng n x).samples = s.samples := rfl
@[simp] theorem State.setPair_pending (s : State) (n : Nat) (x : PwmPair) : (s.setPair n x).pending = s.pending := rfl
@[simp] theorem State.setPair_live (s : State) (n : Nat) (x : PwmPair) : (s.setPair n x).live = s.live := rfl
@[simp] theorem State.setPair_act (s : State) (n : Nat) (x : PwmPair) : (s.setPair n x).act = s.act := rfl
@[simp] theorem State.setPair_stg (s : State) (n : Nat) (x : PwmPair) : (s.setPair n x).stg = s.stg := rfl
@[simp] theorem State.setPair_kAct (s : State) (n : Nat) (x : PwmPair) : (s.setPair n x).kAct = s.kAct := rfl
@[simp] theorem State.setPair_kStg (s : State) (n : Nat) (x : PwmPair) : (s.setPair n x).kStg = s.kStg := rfl
@[simp] theorem State.setPair_sram (s : State) (n : Nat) (x : PwmPair) : (s.setPair n x).sram = s.sram := rfl
@[simp] theorem State.setPair_flash (s : State) (n : Nat) (x : PwmPair) : (s.setPair n x).flash = s.flash := rfl
@[simp] theorem State.setPair_free (s : State) (n : Nat) (x : PwmPair) : (s.setPair n x).free = s.free := rfl
@[simp] theorem State.setPair_mode (s : State) (n : Nat) (x : PwmPair) : (s.setPair n x).mode = s.mode := rfl
@[simp] theorem State.setPair_boot (s : State) (n : Nat) (x : PwmPair) : (s.setPair n x).boot = s.boot := rfl
@[simp] theorem State.setPair_commit (s : State) (n : Nat) (x : PwmPair) : (s.setPair n x).commit = s.commit := rfl
@[simp] theorem State.setPair_img (s : State) (n : Nat) (x : PwmPair) : (s.setPair n x).img = s.img := rfl
@[simp] theorem State.setPair_frame (s : State) (n : Nat) (x : PwmPair) : (s.setPair n x).frame = s.frame := rfl
@[simp] theorem State.setPair_modes (s : State) (n : Nat) (x : PwmPair) : (s.setPair n x).modes = s.modes := rfl
@[simp] theorem State.setPair_lanes (s : State) (n : Nat) (x : PwmPair) : (s.setPair n x).lanes = s.lanes := rfl
@[simp] theorem State.setPair_routes (s : State) (n : Nat) (x : PwmPair) : (s.setPair n x).routes = s.routes := rfl
@[simp] theorem State.setPair_launch (s : State) (n : Nat) (x : PwmPair) : (s.setPair n x).launch = s.launch := rfl
@[simp] theorem State.setPair_ledger (s : State) (n : Nat) (x : PwmPair) : (s.setPair n x).ledger = s.ledger := rfl
@[simp] theorem State.setPair_arms (s : State) (n : Nat) (x : PwmPair) : (s.setPair n x).arms = s.arms := rfl
@[simp] theorem State.setPair_sel (s : State) (n : Nat) (x : PwmPair) : (s.setPair n x).sel = s.sel := rfl
@[simp] theorem State.setPair_cup (s : State) (n : Nat) (x : PwmPair) : (s.setPair n x).cup = s.cup := rfl
@[simp] theorem State.setPair_sched (s : State) (n : Nat) (x : PwmPair) : (s.setPair n x).sched = s.sched := rfl
@[simp] theorem State.setPair_aids (s : State) (n : Nat) (x : PwmPair) : (s.setPair n x).aids = s.aids := rfl
@[simp] theorem State.setPair_time (s : State) (n : Nat) (x : PwmPair) : (s.setPair n x).time = s.time := rfl
@[simp] theorem State.setPair_phasor (s : State) (n : Nat) (x : PwmPair) : (s.setPair n x).phasor = s.phasor := rfl
@[simp] theorem State.setPair_wave (s : State) (n : Nat) (x : PwmPair) : (s.setPair n x).wave = s.wave := rfl
@[simp] theorem State.setPair_acq (s : State) (n : Nat) (x : PwmPair) : (s.setPair n x).acq = s.acq := rfl
@[simp] theorem State.setPair_adc (s : State) (n : Nat) (x : PwmPair) : (s.setPair n x).adc = s.adc := rfl
@[simp] theorem State.setPair_pwm (s : State) (n : Nat) (x : PwmPair) : (s.setPair n x).pwm = { s.pwm with pairs := vset s.pwm.pairs n x } := rfl
@[simp] theorem State.setPair_wt (s : State) (n : Nat) (x : PwmPair) : (s.setPair n x).wt = s.wt := rfl
@[simp] theorem State.setPair_pair (s : State) (n : Nat) (x : PwmPair) : (s.setPair n x).pair = s.pair := rfl
@[simp] theorem State.setPair_fault (s : State) (n : Nat) (x : PwmPair) : (s.setPair n x).fault = s.fault := rfl
@[simp] theorem State.setPair_mem (s : State) (n : Nat) (x : PwmPair) : (s.setPair n x).mem = s.mem := rfl
@[simp] theorem State.setPair_irq (s : State) (n : Nat) (x : PwmPair) : (s.setPair n x).irq = s.irq := rfl
@[simp] theorem State.setPair_jrn (s : State) (n : Nat) (x : PwmPair) : (s.setPair n x).jrn = s.jrn := rfl
@[simp] theorem State.setPair_dict (s : State) (n : Nat) (x : PwmPair) : (s.setPair n x).dict = s.dict := rfl
@[simp] theorem State.setPair_power (s : State) (n : Nat) (x : PwmPair) : (s.setPair n x).power = s.power := rfl
@[simp] theorem State.setPair_jtag (s : State) (n : Nat) (x : PwmPair) : (s.setPair n x).jtag = s.jtag := rfl
@[simp] theorem State.setPair_samples (s : State) (n : Nat) (x : PwmPair) : (s.setPair n x).samples = s.samples := rfl
@[simp] theorem State.setConv_pending (s : State) (n : Nat) (x : Adc) : (s.setConv n x).pending = s.pending := rfl
@[simp] theorem State.setConv_live (s : State) (n : Nat) (x : Adc) : (s.setConv n x).live = s.live := rfl
@[simp] theorem State.setConv_act (s : State) (n : Nat) (x : Adc) : (s.setConv n x).act = s.act := rfl
@[simp] theorem State.setConv_stg (s : State) (n : Nat) (x : Adc) : (s.setConv n x).stg = s.stg := rfl
@[simp] theorem State.setConv_kAct (s : State) (n : Nat) (x : Adc) : (s.setConv n x).kAct = s.kAct := rfl
@[simp] theorem State.setConv_kStg (s : State) (n : Nat) (x : Adc) : (s.setConv n x).kStg = s.kStg := rfl
@[simp] theorem State.setConv_sram (s : State) (n : Nat) (x : Adc) : (s.setConv n x).sram = s.sram := rfl
@[simp] theorem State.setConv_flash (s : State) (n : Nat) (x : Adc) : (s.setConv n x).flash = s.flash := rfl
@[simp] theorem State.setConv_free (s : State) (n : Nat) (x : Adc) : (s.setConv n x).free = s.free := rfl
@[simp] theorem State.setConv_mode (s : State) (n : Nat) (x : Adc) : (s.setConv n x).mode = s.mode := rfl
@[simp] theorem State.setConv_boot (s : State) (n : Nat) (x : Adc) : (s.setConv n x).boot = s.boot := rfl
@[simp] theorem State.setConv_commit (s : State) (n : Nat) (x : Adc) : (s.setConv n x).commit = s.commit := rfl
@[simp] theorem State.setConv_img (s : State) (n : Nat) (x : Adc) : (s.setConv n x).img = s.img := rfl
@[simp] theorem State.setConv_frame (s : State) (n : Nat) (x : Adc) : (s.setConv n x).frame = s.frame := rfl
@[simp] theorem State.setConv_modes (s : State) (n : Nat) (x : Adc) : (s.setConv n x).modes = s.modes := rfl
@[simp] theorem State.setConv_lanes (s : State) (n : Nat) (x : Adc) : (s.setConv n x).lanes = s.lanes := rfl
@[simp] theorem State.setConv_routes (s : State) (n : Nat) (x : Adc) : (s.setConv n x).routes = s.routes := rfl
@[simp] theorem State.setConv_launch (s : State) (n : Nat) (x : Adc) : (s.setConv n x).launch = s.launch := rfl
@[simp] theorem State.setConv_ledger (s : State) (n : Nat) (x : Adc) : (s.setConv n x).ledger = s.ledger := rfl
@[simp] theorem State.setConv_arms (s : State) (n : Nat) (x : Adc) : (s.setConv n x).arms = s.arms := rfl
@[simp] theorem State.setConv_sel (s : State) (n : Nat) (x : Adc) : (s.setConv n x).sel = s.sel := rfl
@[simp] theorem State.setConv_cup (s : State) (n : Nat) (x : Adc) : (s.setConv n x).cup = s.cup := rfl
@[simp] theorem State.setConv_sched (s : State) (n : Nat) (x : Adc) : (s.setConv n x).sched = s.sched := rfl
@[simp] theorem State.setConv_aids (s : State) (n : Nat) (x : Adc) : (s.setConv n x).aids = s.aids := rfl
@[simp] theorem State.setConv_time (s : State) (n : Nat) (x : Adc) : (s.setConv n x).time = s.time := rfl
@[simp] theorem State.setConv_phasor (s : State) (n : Nat) (x : Adc) : (s.setConv n x).phasor = s.phasor := rfl
@[simp] theorem State.setConv_wave (s : State) (n : Nat) (x : Adc) : (s.setConv n x).wave = s.wave := rfl
@[simp] theorem State.setConv_acq (s : State) (n : Nat) (x : Adc) : (s.setConv n x).acq = s.acq := rfl
@[simp] theorem State.setConv_adc (s : State) (n : Nat) (x : Adc) : (s.setConv n x).adc = { s.adc with conv := vset s.adc.conv n x } := rfl
@[simp] theorem State.setConv_pwm (s : State) (n : Nat) (x : Adc) : (s.setConv n x).pwm = s.pwm := rfl
@[simp] theorem State.setConv_wt (s : State) (n : Nat) (x : Adc) : (s.setConv n x).wt = s.wt := rfl
@[simp] theorem State.setConv_pair (s : State) (n : Nat) (x : Adc) : (s.setConv n x).pair = s.pair := rfl
@[simp] theorem State.setConv_fault (s : State) (n : Nat) (x : Adc) : (s.setConv n x).fault = s.fault := rfl
@[simp] theorem State.setConv_mem (s : State) (n : Nat) (x : Adc) : (s.setConv n x).mem = s.mem := rfl
@[simp] theorem State.setConv_irq (s : State) (n : Nat) (x : Adc) : (s.setConv n x).irq = s.irq := rfl
@[simp] theorem State.setConv_jrn (s : State) (n : Nat) (x : Adc) : (s.setConv n x).jrn = s.jrn := rfl
@[simp] theorem State.setConv_dict (s : State) (n : Nat) (x : Adc) : (s.setConv n x).dict = s.dict := rfl
@[simp] theorem State.setConv_power (s : State) (n : Nat) (x : Adc) : (s.setConv n x).power = s.power := rfl
@[simp] theorem State.setConv_jtag (s : State) (n : Nat) (x : Adc) : (s.setConv n x).jtag = s.jtag := rfl
@[simp] theorem State.setConv_samples (s : State) (n : Nat) (x : Adc) : (s.setConv n x).samples = s.samples := rfl
@[simp] theorem State.setDom_pending (s : State) (n : Nat) (x : Dom) : (s.setDom n x).pending = s.pending := rfl
@[simp] theorem State.setDom_live (s : State) (n : Nat) (x : Dom) : (s.setDom n x).live = s.live := rfl
@[simp] theorem State.setDom_act (s : State) (n : Nat) (x : Dom) : (s.setDom n x).act = s.act := rfl
@[simp] theorem State.setDom_stg (s : State) (n : Nat) (x : Dom) : (s.setDom n x).stg = s.stg := rfl
@[simp] theorem State.setDom_kAct (s : State) (n : Nat) (x : Dom) : (s.setDom n x).kAct = s.kAct := rfl
@[simp] theorem State.setDom_kStg (s : State) (n : Nat) (x : Dom) : (s.setDom n x).kStg = s.kStg := rfl
@[simp] theorem State.setDom_sram (s : State) (n : Nat) (x : Dom) : (s.setDom n x).sram = s.sram := rfl
@[simp] theorem State.setDom_flash (s : State) (n : Nat) (x : Dom) : (s.setDom n x).flash = s.flash := rfl
@[simp] theorem State.setDom_free (s : State) (n : Nat) (x : Dom) : (s.setDom n x).free = s.free := rfl
@[simp] theorem State.setDom_mode (s : State) (n : Nat) (x : Dom) : (s.setDom n x).mode = s.mode := rfl
@[simp] theorem State.setDom_boot (s : State) (n : Nat) (x : Dom) : (s.setDom n x).boot = s.boot := rfl
@[simp] theorem State.setDom_commit (s : State) (n : Nat) (x : Dom) : (s.setDom n x).commit = s.commit := rfl
@[simp] theorem State.setDom_img (s : State) (n : Nat) (x : Dom) : (s.setDom n x).img = s.img := rfl
@[simp] theorem State.setDom_frame (s : State) (n : Nat) (x : Dom) : (s.setDom n x).frame = s.frame := rfl
@[simp] theorem State.setDom_modes (s : State) (n : Nat) (x : Dom) : (s.setDom n x).modes = s.modes := rfl
@[simp] theorem State.setDom_lanes (s : State) (n : Nat) (x : Dom) : (s.setDom n x).lanes = s.lanes := rfl
@[simp] theorem State.setDom_routes (s : State) (n : Nat) (x : Dom) : (s.setDom n x).routes = s.routes := rfl
@[simp] theorem State.setDom_launch (s : State) (n : Nat) (x : Dom) : (s.setDom n x).launch = s.launch := rfl
@[simp] theorem State.setDom_ledger (s : State) (n : Nat) (x : Dom) : (s.setDom n x).ledger = s.ledger := rfl
@[simp] theorem State.setDom_arms (s : State) (n : Nat) (x : Dom) : (s.setDom n x).arms = s.arms := rfl
@[simp] theorem State.setDom_sel (s : State) (n : Nat) (x : Dom) : (s.setDom n x).sel = s.sel := rfl
@[simp] theorem State.setDom_cup (s : State) (n : Nat) (x : Dom) : (s.setDom n x).cup = s.cup := rfl
@[simp] theorem State.setDom_sched (s : State) (n : Nat) (x : Dom) : (s.setDom n x).sched = s.sched := rfl
@[simp] theorem State.setDom_aids (s : State) (n : Nat) (x : Dom) : (s.setDom n x).aids = s.aids := rfl
@[simp] theorem State.setDom_time (s : State) (n : Nat) (x : Dom) : (s.setDom n x).time = { s.time with dom := vset s.time.dom n x } := rfl
@[simp] theorem State.setDom_phasor (s : State) (n : Nat) (x : Dom) : (s.setDom n x).phasor = s.phasor := rfl
@[simp] theorem State.setDom_wave (s : State) (n : Nat) (x : Dom) : (s.setDom n x).wave = s.wave := rfl
@[simp] theorem State.setDom_acq (s : State) (n : Nat) (x : Dom) : (s.setDom n x).acq = s.acq := rfl
@[simp] theorem State.setDom_adc (s : State) (n : Nat) (x : Dom) : (s.setDom n x).adc = s.adc := rfl
@[simp] theorem State.setDom_pwm (s : State) (n : Nat) (x : Dom) : (s.setDom n x).pwm = s.pwm := rfl
@[simp] theorem State.setDom_wt (s : State) (n : Nat) (x : Dom) : (s.setDom n x).wt = s.wt := rfl
@[simp] theorem State.setDom_pair (s : State) (n : Nat) (x : Dom) : (s.setDom n x).pair = s.pair := rfl
@[simp] theorem State.setDom_fault (s : State) (n : Nat) (x : Dom) : (s.setDom n x).fault = s.fault := rfl
@[simp] theorem State.setDom_mem (s : State) (n : Nat) (x : Dom) : (s.setDom n x).mem = s.mem := rfl
@[simp] theorem State.setDom_irq (s : State) (n : Nat) (x : Dom) : (s.setDom n x).irq = s.irq := rfl
@[simp] theorem State.setDom_jrn (s : State) (n : Nat) (x : Dom) : (s.setDom n x).jrn = s.jrn := rfl
@[simp] theorem State.setDom_dict (s : State) (n : Nat) (x : Dom) : (s.setDom n x).dict = s.dict := rfl
@[simp] theorem State.setDom_power (s : State) (n : Nat) (x : Dom) : (s.setDom n x).power = s.power := rfl
@[simp] theorem State.setDom_jtag (s : State) (n : Nat) (x : Dom) : (s.setDom n x).jtag = s.jtag := rfl
@[simp] theorem State.setDom_samples (s : State) (n : Nat) (x : Dom) : (s.setDom n x).samples = s.samples := rfl
@[simp] theorem State.setConn_pending (s : State) (n : Nat) (x : Conn) : (s.setConn n x).pending = s.pending := rfl
@[simp] theorem State.setConn_live (s : State) (n : Nat) (x : Conn) : (s.setConn n x).live = s.live := rfl
@[simp] theorem State.setConn_act (s : State) (n : Nat) (x : Conn) : (s.setConn n x).act = s.act := rfl
@[simp] theorem State.setConn_stg (s : State) (n : Nat) (x : Conn) : (s.setConn n x).stg = s.stg := rfl
@[simp] theorem State.setConn_kAct (s : State) (n : Nat) (x : Conn) : (s.setConn n x).kAct = s.kAct := rfl
@[simp] theorem State.setConn_kStg (s : State) (n : Nat) (x : Conn) : (s.setConn n x).kStg = s.kStg := rfl
@[simp] theorem State.setConn_sram (s : State) (n : Nat) (x : Conn) : (s.setConn n x).sram = s.sram := rfl
@[simp] theorem State.setConn_flash (s : State) (n : Nat) (x : Conn) : (s.setConn n x).flash = s.flash := rfl
@[simp] theorem State.setConn_free (s : State) (n : Nat) (x : Conn) : (s.setConn n x).free = s.free := rfl
@[simp] theorem State.setConn_mode (s : State) (n : Nat) (x : Conn) : (s.setConn n x).mode = s.mode := rfl
@[simp] theorem State.setConn_boot (s : State) (n : Nat) (x : Conn) : (s.setConn n x).boot = s.boot := rfl
@[simp] theorem State.setConn_commit (s : State) (n : Nat) (x : Conn) : (s.setConn n x).commit = s.commit := rfl
@[simp] theorem State.setConn_img (s : State) (n : Nat) (x : Conn) : (s.setConn n x).img = s.img := rfl
@[simp] theorem State.setConn_frame (s : State) (n : Nat) (x : Conn) : (s.setConn n x).frame = s.frame := rfl
@[simp] theorem State.setConn_modes (s : State) (n : Nat) (x : Conn) : (s.setConn n x).modes = s.modes := rfl
@[simp] theorem State.setConn_lanes (s : State) (n : Nat) (x : Conn) : (s.setConn n x).lanes = s.lanes := rfl
@[simp] theorem State.setConn_routes (s : State) (n : Nat) (x : Conn) : (s.setConn n x).routes = s.routes := rfl
@[simp] theorem State.setConn_launch (s : State) (n : Nat) (x : Conn) : (s.setConn n x).launch = s.launch := rfl
@[simp] theorem State.setConn_ledger (s : State) (n : Nat) (x : Conn) : (s.setConn n x).ledger = s.ledger := rfl
@[simp] theorem State.setConn_arms (s : State) (n : Nat) (x : Conn) : (s.setConn n x).arms = s.arms := rfl
@[simp] theorem State.setConn_sel (s : State) (n : Nat) (x : Conn) : (s.setConn n x).sel = s.sel := rfl
@[simp] theorem State.setConn_cup (s : State) (n : Nat) (x : Conn) : (s.setConn n x).cup = s.cup := rfl
@[simp] theorem State.setConn_sched (s : State) (n : Nat) (x : Conn) : (s.setConn n x).sched = s.sched := rfl
@[simp] theorem State.setConn_aids (s : State) (n : Nat) (x : Conn) : (s.setConn n x).aids = s.aids := rfl
@[simp] theorem State.setConn_time (s : State) (n : Nat) (x : Conn) : (s.setConn n x).time = s.time := rfl
@[simp] theorem State.setConn_phasor (s : State) (n : Nat) (x : Conn) : (s.setConn n x).phasor = s.phasor := rfl
@[simp] theorem State.setConn_wave (s : State) (n : Nat) (x : Conn) : (s.setConn n x).wave = s.wave := rfl
@[simp] theorem State.setConn_acq (s : State) (n : Nat) (x : Conn) : (s.setConn n x).acq = s.acq := rfl
@[simp] theorem State.setConn_adc (s : State) (n : Nat) (x : Conn) : (s.setConn n x).adc = s.adc := rfl
@[simp] theorem State.setConn_pwm (s : State) (n : Nat) (x : Conn) : (s.setConn n x).pwm = s.pwm := rfl
@[simp] theorem State.setConn_wt (s : State) (n : Nat) (x : Conn) : (s.setConn n x).wt = { s.wt with conns := vset s.wt.conns n x } := rfl
@[simp] theorem State.setConn_pair (s : State) (n : Nat) (x : Conn) : (s.setConn n x).pair = s.pair := rfl
@[simp] theorem State.setConn_fault (s : State) (n : Nat) (x : Conn) : (s.setConn n x).fault = s.fault := rfl
@[simp] theorem State.setConn_mem (s : State) (n : Nat) (x : Conn) : (s.setConn n x).mem = s.mem := rfl
@[simp] theorem State.setConn_irq (s : State) (n : Nat) (x : Conn) : (s.setConn n x).irq = s.irq := rfl
@[simp] theorem State.setConn_jrn (s : State) (n : Nat) (x : Conn) : (s.setConn n x).jrn = s.jrn := rfl
@[simp] theorem State.setConn_dict (s : State) (n : Nat) (x : Conn) : (s.setConn n x).dict = s.dict := rfl
@[simp] theorem State.setConn_power (s : State) (n : Nat) (x : Conn) : (s.setConn n x).power = s.power := rfl
@[simp] theorem State.setConn_jtag (s : State) (n : Nat) (x : Conn) : (s.setConn n x).jtag = s.jtag := rfl
@[simp] theorem State.setConn_samples (s : State) (n : Nat) (x : Conn) : (s.setConn n x).samples = s.samples := rfl
@[simp] theorem State.setBank_pending (s : State) (n : Nat) (x : Bank) : (s.setBank n x).pending = s.pending := rfl
@[simp] theorem State.setBank_live (s : State) (n : Nat) (x : Bank) : (s.setBank n x).live = s.live := rfl
@[simp] theorem State.setBank_act (s : State) (n : Nat) (x : Bank) : (s.setBank n x).act = s.act := rfl
@[simp] theorem State.setBank_stg (s : State) (n : Nat) (x : Bank) : (s.setBank n x).stg = s.stg := rfl
@[simp] theorem State.setBank_kAct (s : State) (n : Nat) (x : Bank) : (s.setBank n x).kAct = s.kAct := rfl
@[simp] theorem State.setBank_kStg (s : State) (n : Nat) (x : Bank) : (s.setBank n x).kStg = s.kStg := rfl
@[simp] theorem State.setBank_sram (s : State) (n : Nat) (x : Bank) : (s.setBank n x).sram = s.sram := rfl
@[simp] theorem State.setBank_flash (s : State) (n : Nat) (x : Bank) : (s.setBank n x).flash = s.flash := rfl
@[simp] theorem State.setBank_free (s : State) (n : Nat) (x : Bank) : (s.setBank n x).free = s.free := rfl
@[simp] theorem State.setBank_mode (s : State) (n : Nat) (x : Bank) : (s.setBank n x).mode = s.mode := rfl
@[simp] theorem State.setBank_boot (s : State) (n : Nat) (x : Bank) : (s.setBank n x).boot = s.boot := rfl
@[simp] theorem State.setBank_commit (s : State) (n : Nat) (x : Bank) : (s.setBank n x).commit = s.commit := rfl
@[simp] theorem State.setBank_img (s : State) (n : Nat) (x : Bank) : (s.setBank n x).img = s.img := rfl
@[simp] theorem State.setBank_frame (s : State) (n : Nat) (x : Bank) : (s.setBank n x).frame = s.frame := rfl
@[simp] theorem State.setBank_modes (s : State) (n : Nat) (x : Bank) : (s.setBank n x).modes = s.modes := rfl
@[simp] theorem State.setBank_lanes (s : State) (n : Nat) (x : Bank) : (s.setBank n x).lanes = s.lanes := rfl
@[simp] theorem State.setBank_routes (s : State) (n : Nat) (x : Bank) : (s.setBank n x).routes = s.routes := rfl
@[simp] theorem State.setBank_launch (s : State) (n : Nat) (x : Bank) : (s.setBank n x).launch = s.launch := rfl
@[simp] theorem State.setBank_ledger (s : State) (n : Nat) (x : Bank) : (s.setBank n x).ledger = s.ledger := rfl
@[simp] theorem State.setBank_arms (s : State) (n : Nat) (x : Bank) : (s.setBank n x).arms = s.arms := rfl
@[simp] theorem State.setBank_sel (s : State) (n : Nat) (x : Bank) : (s.setBank n x).sel = s.sel := rfl
@[simp] theorem State.setBank_cup (s : State) (n : Nat) (x : Bank) : (s.setBank n x).cup = s.cup := rfl
@[simp] theorem State.setBank_sched (s : State) (n : Nat) (x : Bank) : (s.setBank n x).sched = s.sched := rfl
@[simp] theorem State.setBank_aids (s : State) (n : Nat) (x : Bank) : (s.setBank n x).aids = s.aids := rfl
@[simp] theorem State.setBank_time (s : State) (n : Nat) (x : Bank) : (s.setBank n x).time = s.time := rfl
@[simp] theorem State.setBank_phasor (s : State) (n : Nat) (x : Bank) : (s.setBank n x).phasor = s.phasor := rfl
@[simp] theorem State.setBank_wave (s : State) (n : Nat) (x : Bank) : (s.setBank n x).wave = s.wave := rfl
@[simp] theorem State.setBank_acq (s : State) (n : Nat) (x : Bank) : (s.setBank n x).acq = s.acq := rfl
@[simp] theorem State.setBank_adc (s : State) (n : Nat) (x : Bank) : (s.setBank n x).adc = s.adc := rfl
@[simp] theorem State.setBank_pwm (s : State) (n : Nat) (x : Bank) : (s.setBank n x).pwm = s.pwm := rfl
@[simp] theorem State.setBank_wt (s : State) (n : Nat) (x : Bank) : (s.setBank n x).wt = s.wt := rfl
@[simp] theorem State.setBank_pair (s : State) (n : Nat) (x : Bank) : (s.setBank n x).pair = s.pair := rfl
@[simp] theorem State.setBank_fault (s : State) (n : Nat) (x : Bank) : (s.setBank n x).fault = s.fault := rfl
@[simp] theorem State.setBank_mem (s : State) (n : Nat) (x : Bank) : (s.setBank n x).mem = { s.mem with banks := vset s.mem.banks n x } := rfl
@[simp] theorem State.setBank_irq (s : State) (n : Nat) (x : Bank) : (s.setBank n x).irq = s.irq := rfl
@[simp] theorem State.setBank_jrn (s : State) (n : Nat) (x : Bank) : (s.setBank n x).jrn = s.jrn := rfl
@[simp] theorem State.setBank_dict (s : State) (n : Nat) (x : Bank) : (s.setBank n x).dict = s.dict := rfl
@[simp] theorem State.setBank_power (s : State) (n : Nat) (x : Bank) : (s.setBank n x).power = s.power := rfl
@[simp] theorem State.setBank_jtag (s : State) (n : Nat) (x : Bank) : (s.setBank n x).jtag = s.jtag := rfl
@[simp] theorem State.setBank_samples (s : State) (n : Nat) (x : Bank) : (s.setBank n x).samples = s.samples := rfl
@[simp] theorem State.setWide_pending (s : State) (p : Path) (w : WideLatch) : (s.setWide p w).pending = s.pending := rfl
@[simp] theorem State.setWide_live (s : State) (p : Path) (w : WideLatch) : (s.setWide p w).live = s.live := rfl
@[simp] theorem State.setWide_act (s : State) (p : Path) (w : WideLatch) : (s.setWide p w).act = s.act := rfl
@[simp] theorem State.setWide_stg (s : State) (p : Path) (w : WideLatch) : (s.setWide p w).stg = s.stg := rfl
@[simp] theorem State.setWide_kAct (s : State) (p : Path) (w : WideLatch) : (s.setWide p w).kAct = s.kAct := rfl
@[simp] theorem State.setWide_kStg (s : State) (p : Path) (w : WideLatch) : (s.setWide p w).kStg = s.kStg := rfl
@[simp] theorem State.setWide_sram (s : State) (p : Path) (w : WideLatch) : (s.setWide p w).sram = s.sram := rfl
@[simp] theorem State.setWide_flash (s : State) (p : Path) (w : WideLatch) : (s.setWide p w).flash = s.flash := rfl
@[simp] theorem State.setWide_free (s : State) (p : Path) (w : WideLatch) : (s.setWide p w).free = s.free := rfl
@[simp] theorem State.setWide_mode (s : State) (p : Path) (w : WideLatch) : (s.setWide p w).mode = s.mode := rfl
@[simp] theorem State.setWide_boot (s : State) (p : Path) (w : WideLatch) : (s.setWide p w).boot = s.boot := rfl
@[simp] theorem State.setWide_commit (s : State) (p : Path) (w : WideLatch) : (s.setWide p w).commit = s.commit := rfl
@[simp] theorem State.setWide_img (s : State) (p : Path) (w : WideLatch) : (s.setWide p w).img = s.img := rfl
@[simp] theorem State.setWide_frame (s : State) (p : Path) (w : WideLatch) : (s.setWide p w).frame = s.frame := rfl
@[simp] theorem State.setWide_modes (s : State) (p : Path) (w : WideLatch) : (s.setWide p w).modes = s.modes := rfl
@[simp] theorem State.setWide_lanes (s : State) (p : Path) (w : WideLatch) : (s.setWide p w).lanes = s.lanes := rfl
@[simp] theorem State.setWide_routes (s : State) (p : Path) (w : WideLatch) : (s.setWide p w).routes = s.routes := rfl
@[simp] theorem State.setWide_launch (s : State) (p : Path) (w : WideLatch) : (s.setWide p w).launch = s.launch := rfl
@[simp] theorem State.setWide_ledger (s : State) (p : Path) (w : WideLatch) : (s.setWide p w).ledger = s.ledger := rfl
@[simp] theorem State.setWide_arms (s : State) (p : Path) (w : WideLatch) : (s.setWide p w).arms = s.arms := rfl
@[simp] theorem State.setWide_sel (s : State) (p : Path) (w : WideLatch) : (s.setWide p w).sel = s.sel := rfl
@[simp] theorem State.setWide_cup (s : State) (p : Path) (w : WideLatch) : (s.setWide p w).cup = s.cup := rfl
@[simp] theorem State.setWide_sched (s : State) (p : Path) (w : WideLatch) : (s.setWide p w).sched = s.sched := rfl
@[simp] theorem State.setWide_aids (s : State) (p : Path) (w : WideLatch) : (s.setWide p w).aids = s.aids := rfl
@[simp] theorem State.setWide_time (s : State) (p : Path) (w : WideLatch) : (s.setWide p w).time = s.time := rfl
@[simp] theorem State.setWide_phasor (s : State) (p : Path) (w : WideLatch) : (s.setWide p w).phasor = s.phasor := rfl
@[simp] theorem State.setWide_wave (s : State) (p : Path) (w : WideLatch) : (s.setWide p w).wave = s.wave := rfl
@[simp] theorem State.setWide_acq (s : State) (p : Path) (w : WideLatch) : (s.setWide p w).acq = s.acq := rfl
@[simp] theorem State.setWide_adc (s : State) (p : Path) (w : WideLatch) : (s.setWide p w).adc = s.adc := rfl
@[simp] theorem State.setWide_pwm (s : State) (p : Path) (w : WideLatch) : (s.setWide p w).pwm = s.pwm := rfl
@[simp] theorem State.setWide_wt (s : State) (p : Path) (w : WideLatch) : (s.setWide p w).wt = s.wt := rfl
@[simp] theorem State.setWide_pair (s : State) (p : Path) (w : WideLatch) : (s.setWide p w).pair = s.pair := rfl
@[simp] theorem State.setWide_fault (s : State) (p : Path) (w : WideLatch) : (s.setWide p w).fault = s.fault := rfl
@[simp] theorem State.setWide_mem (s : State) (p : Path) (w : WideLatch) : (s.setWide p w).mem = s.mem := rfl
@[simp] theorem State.setWide_irq (s : State) (p : Path) (w : WideLatch) : (s.setWide p w).irq = s.irq := rfl
@[simp] theorem State.setWide_jrn (s : State) (p : Path) (w : WideLatch) : (s.setWide p w).jrn = s.jrn := rfl
@[simp] theorem State.setWide_dict (s : State) (p : Path) (w : WideLatch) : (s.setWide p w).dict = { s.dict with wide := vset s.dict.wide (pathNum p) w } := rfl
@[simp] theorem State.setWide_power (s : State) (p : Path) (w : WideLatch) : (s.setWide p w).power = s.power := rfl
@[simp] theorem State.setWide_jtag (s : State) (p : Path) (w : WideLatch) : (s.setWide p w).jtag = s.jtag := rfl
@[simp] theorem State.setWide_samples (s : State) (p : Path) (w : WideLatch) : (s.setWide p w).samples = s.samples := rfl
@[simp] theorem State.respond_pending (s : State) (r : SdoResp) : (s.respond r).pending = s.pending := rfl
@[simp] theorem State.respond_live (s : State) (r : SdoResp) : (s.respond r).live = s.live := rfl
@[simp] theorem State.respond_act (s : State) (r : SdoResp) : (s.respond r).act = s.act := rfl
@[simp] theorem State.respond_stg (s : State) (r : SdoResp) : (s.respond r).stg = s.stg := rfl
@[simp] theorem State.respond_kAct (s : State) (r : SdoResp) : (s.respond r).kAct = s.kAct := rfl
@[simp] theorem State.respond_kStg (s : State) (r : SdoResp) : (s.respond r).kStg = s.kStg := rfl
@[simp] theorem State.respond_sram (s : State) (r : SdoResp) : (s.respond r).sram = s.sram := rfl
@[simp] theorem State.respond_flash (s : State) (r : SdoResp) : (s.respond r).flash = s.flash := rfl
@[simp] theorem State.respond_free (s : State) (r : SdoResp) : (s.respond r).free = s.free := rfl
@[simp] theorem State.respond_mode (s : State) (r : SdoResp) : (s.respond r).mode = s.mode := rfl
@[simp] theorem State.respond_boot (s : State) (r : SdoResp) : (s.respond r).boot = s.boot := rfl
@[simp] theorem State.respond_commit (s : State) (r : SdoResp) : (s.respond r).commit = s.commit := rfl
@[simp] theorem State.respond_img (s : State) (r : SdoResp) : (s.respond r).img = s.img := rfl
@[simp] theorem State.respond_frame (s : State) (r : SdoResp) : (s.respond r).frame = s.frame := rfl
@[simp] theorem State.respond_modes (s : State) (r : SdoResp) : (s.respond r).modes = s.modes := rfl
@[simp] theorem State.respond_lanes (s : State) (r : SdoResp) : (s.respond r).lanes = s.lanes := rfl
@[simp] theorem State.respond_routes (s : State) (r : SdoResp) : (s.respond r).routes = s.routes := rfl
@[simp] theorem State.respond_launch (s : State) (r : SdoResp) : (s.respond r).launch = s.launch := rfl
@[simp] theorem State.respond_ledger (s : State) (r : SdoResp) : (s.respond r).ledger = s.ledger := rfl
@[simp] theorem State.respond_arms (s : State) (r : SdoResp) : (s.respond r).arms = s.arms := rfl
@[simp] theorem State.respond_sel (s : State) (r : SdoResp) : (s.respond r).sel = s.sel := rfl
@[simp] theorem State.respond_cup (s : State) (r : SdoResp) : (s.respond r).cup = s.cup := rfl
@[simp] theorem State.respond_sched (s : State) (r : SdoResp) : (s.respond r).sched = s.sched := rfl
@[simp] theorem State.respond_aids (s : State) (r : SdoResp) : (s.respond r).aids = s.aids := rfl
@[simp] theorem State.respond_time (s : State) (r : SdoResp) : (s.respond r).time = s.time := rfl
@[simp] theorem State.respond_phasor (s : State) (r : SdoResp) : (s.respond r).phasor = s.phasor := rfl
@[simp] theorem State.respond_wave (s : State) (r : SdoResp) : (s.respond r).wave = s.wave := rfl
@[simp] theorem State.respond_acq (s : State) (r : SdoResp) : (s.respond r).acq = s.acq := rfl
@[simp] theorem State.respond_adc (s : State) (r : SdoResp) : (s.respond r).adc = s.adc := rfl
@[simp] theorem State.respond_pwm (s : State) (r : SdoResp) : (s.respond r).pwm = s.pwm := rfl
@[simp] theorem State.respond_wt (s : State) (r : SdoResp) : (s.respond r).wt = s.wt := rfl
@[simp] theorem State.respond_pair (s : State) (r : SdoResp) : (s.respond r).pair = s.pair := rfl
@[simp] theorem State.respond_fault (s : State) (r : SdoResp) : (s.respond r).fault = s.fault := rfl
@[simp] theorem State.respond_mem (s : State) (r : SdoResp) : (s.respond r).mem = s.mem := rfl
@[simp] theorem State.respond_irq (s : State) (r : SdoResp) : (s.respond r).irq = s.irq := rfl
@[simp] theorem State.respond_jrn (s : State) (r : SdoResp) : (s.respond r).jrn = s.jrn := rfl
@[simp] theorem State.respond_dict (s : State) (r : SdoResp) : (s.respond r).dict = { s.dict with responses := s.dict.responses ++ [r] } := rfl
@[simp] theorem State.respond_power (s : State) (r : SdoResp) : (s.respond r).power = s.power := rfl
@[simp] theorem State.respond_jtag (s : State) (r : SdoResp) : (s.respond r).jtag = s.jtag := rfl
@[simp] theorem State.respond_samples (s : State) (r : SdoResp) : (s.respond r).samples = s.samples := rfl
@[simp] theorem State.hostRetire_pending (s : State) : (s.hostRetire).pending = s.pending := rfl
@[simp] theorem State.hostRetire_live (s : State) : (s.hostRetire).live = s.live := rfl
@[simp] theorem State.hostRetire_act (s : State) : (s.hostRetire).act = s.act := rfl
@[simp] theorem State.hostRetire_stg (s : State) : (s.hostRetire).stg = s.stg := rfl
@[simp] theorem State.hostRetire_kAct (s : State) : (s.hostRetire).kAct = s.kAct := rfl
@[simp] theorem State.hostRetire_kStg (s : State) : (s.hostRetire).kStg = s.kStg := rfl
@[simp] theorem State.hostRetire_sram (s : State) : (s.hostRetire).sram = s.sram := rfl
@[simp] theorem State.hostRetire_flash (s : State) : (s.hostRetire).flash = s.flash := rfl
@[simp] theorem State.hostRetire_free (s : State) : (s.hostRetire).free = s.free := rfl
@[simp] theorem State.hostRetire_mode (s : State) : (s.hostRetire).mode = s.mode := rfl
@[simp] theorem State.hostRetire_boot (s : State) : (s.hostRetire).boot = s.boot := rfl
@[simp] theorem State.hostRetire_commit (s : State) : (s.hostRetire).commit = s.commit := rfl
@[simp] theorem State.hostRetire_img (s : State) : (s.hostRetire).img = s.img := rfl
@[simp] theorem State.hostRetire_frame (s : State) : (s.hostRetire).frame = s.frame := rfl
@[simp] theorem State.hostRetire_modes (s : State) : (s.hostRetire).modes = s.modes := rfl
@[simp] theorem State.hostRetire_lanes (s : State) : (s.hostRetire).lanes = s.lanes := rfl
@[simp] theorem State.hostRetire_routes (s : State) : (s.hostRetire).routes = s.routes := rfl
@[simp] theorem State.hostRetire_launch (s : State) : (s.hostRetire).launch = s.launch := rfl
@[simp] theorem State.hostRetire_ledger (s : State) : (s.hostRetire).ledger = s.ledger := rfl
@[simp] theorem State.hostRetire_arms (s : State) : (s.hostRetire).arms = s.arms := rfl
@[simp] theorem State.hostRetire_sel (s : State) : (s.hostRetire).sel = s.sel := rfl
@[simp] theorem State.hostRetire_cup (s : State) : (s.hostRetire).cup = s.cup := rfl
@[simp] theorem State.hostRetire_sched (s : State) : (s.hostRetire).sched = s.sched := rfl
@[simp] theorem State.hostRetire_aids (s : State) : (s.hostRetire).aids = s.aids := rfl
@[simp] theorem State.hostRetire_time (s : State) : (s.hostRetire).time = s.time := rfl
@[simp] theorem State.hostRetire_phasor (s : State) : (s.hostRetire).phasor = s.phasor := rfl
@[simp] theorem State.hostRetire_wave (s : State) : (s.hostRetire).wave = s.wave := rfl
@[simp] theorem State.hostRetire_acq (s : State) : (s.hostRetire).acq = s.acq := rfl
@[simp] theorem State.hostRetire_adc (s : State) : (s.hostRetire).adc = s.adc := rfl
@[simp] theorem State.hostRetire_pwm (s : State) : (s.hostRetire).pwm = s.pwm := rfl
@[simp] theorem State.hostRetire_wt (s : State) : (s.hostRetire).wt = s.wt := rfl
@[simp] theorem State.hostRetire_pair (s : State) : (s.hostRetire).pair = s.pair := rfl
@[simp] theorem State.hostRetire_fault (s : State) : (s.hostRetire).fault = s.fault := rfl
@[simp] theorem State.hostRetire_mem (s : State) : (s.hostRetire).mem = s.mem := rfl
@[simp] theorem State.hostRetire_irq (s : State) : (s.hostRetire).irq = s.irq := rfl
@[simp] theorem State.hostRetire_jrn (s : State) : (s.hostRetire).jrn = s.jrn := rfl
@[simp] theorem State.hostRetire_dict (s : State) : (s.hostRetire).dict = { s.dict with fence := s.dict.fence + 1 } := rfl
@[simp] theorem State.hostRetire_power (s : State) : (s.hostRetire).power = s.power := rfl
@[simp] theorem State.hostRetire_jtag (s : State) : (s.hostRetire).jtag = s.jtag := rfl
@[simp] theorem State.hostRetire_samples (s : State) : (s.hostRetire).samples = s.samples := rfl
@[simp] theorem State.addL_pending (s : State) (k n : Nat) : (s.addL k n).pending = s.pending := rfl
@[simp] theorem State.addL_act (s : State) (k n : Nat) : (s.addL k n).act = s.act := rfl
@[simp] theorem State.addL_stg (s : State) (k n : Nat) : (s.addL k n).stg = s.stg := rfl
@[simp] theorem State.addL_kAct (s : State) (k n : Nat) : (s.addL k n).kAct = s.kAct := rfl
@[simp] theorem State.addL_kStg (s : State) (k n : Nat) : (s.addL k n).kStg = s.kStg := rfl
@[simp] theorem State.addL_sram (s : State) (k n : Nat) : (s.addL k n).sram = s.sram := rfl
@[simp] theorem State.addL_flash (s : State) (k n : Nat) : (s.addL k n).flash = s.flash := rfl
@[simp] theorem State.addL_free (s : State) (k n : Nat) : (s.addL k n).free = s.free := rfl
@[simp] theorem State.addL_mode (s : State) (k n : Nat) : (s.addL k n).mode = s.mode := rfl
@[simp] theorem State.addL_boot (s : State) (k n : Nat) : (s.addL k n).boot = s.boot := rfl
@[simp] theorem State.addL_commit (s : State) (k n : Nat) : (s.addL k n).commit = s.commit := rfl
@[simp] theorem State.addL_img (s : State) (k n : Nat) : (s.addL k n).img = s.img := rfl
@[simp] theorem State.addL_frame (s : State) (k n : Nat) : (s.addL k n).frame = s.frame := rfl
@[simp] theorem State.addL_modes (s : State) (k n : Nat) : (s.addL k n).modes = s.modes := rfl
@[simp] theorem State.addL_lanes (s : State) (k n : Nat) : (s.addL k n).lanes = s.lanes := rfl
@[simp] theorem State.addL_routes (s : State) (k n : Nat) : (s.addL k n).routes = s.routes := rfl
@[simp] theorem State.addL_launch (s : State) (k n : Nat) : (s.addL k n).launch = s.launch := rfl
@[simp] theorem State.addL_ledger (s : State) (k n : Nat) : (s.addL k n).ledger = s.ledger := rfl
@[simp] theorem State.addL_arms (s : State) (k n : Nat) : (s.addL k n).arms = s.arms := rfl
@[simp] theorem State.addL_sel (s : State) (k n : Nat) : (s.addL k n).sel = s.sel := rfl
@[simp] theorem State.addL_cup (s : State) (k n : Nat) : (s.addL k n).cup = s.cup := rfl
@[simp] theorem State.addL_sched (s : State) (k n : Nat) : (s.addL k n).sched = s.sched := rfl
@[simp] theorem State.addL_aids (s : State) (k n : Nat) : (s.addL k n).aids = s.aids := rfl
@[simp] theorem State.addL_time (s : State) (k n : Nat) : (s.addL k n).time = s.time := rfl
@[simp] theorem State.addL_phasor (s : State) (k n : Nat) : (s.addL k n).phasor = s.phasor := rfl
@[simp] theorem State.addL_wave (s : State) (k n : Nat) : (s.addL k n).wave = s.wave := rfl
@[simp] theorem State.addL_acq (s : State) (k n : Nat) : (s.addL k n).acq = s.acq := rfl
@[simp] theorem State.addL_adc (s : State) (k n : Nat) : (s.addL k n).adc = s.adc := rfl
@[simp] theorem State.addL_pwm (s : State) (k n : Nat) : (s.addL k n).pwm = s.pwm := rfl
@[simp] theorem State.addL_wt (s : State) (k n : Nat) : (s.addL k n).wt = s.wt := rfl
@[simp] theorem State.addL_pair (s : State) (k n : Nat) : (s.addL k n).pair = s.pair := rfl
@[simp] theorem State.addL_fault (s : State) (k n : Nat) : (s.addL k n).fault = s.fault := rfl
@[simp] theorem State.addL_mem (s : State) (k n : Nat) : (s.addL k n).mem = s.mem := rfl
@[simp] theorem State.addL_irq (s : State) (k n : Nat) : (s.addL k n).irq = s.irq := rfl
@[simp] theorem State.addL_jrn (s : State) (k n : Nat) : (s.addL k n).jrn = s.jrn := rfl
@[simp] theorem State.addL_dict (s : State) (k n : Nat) : (s.addL k n).dict = s.dict := rfl
@[simp] theorem State.addL_power (s : State) (k n : Nat) : (s.addL k n).power = s.power := rfl
@[simp] theorem State.addL_jtag (s : State) (k n : Nat) : (s.addL k n).jtag = s.jtag := rfl
@[simp] theorem State.addL_samples (s : State) (k n : Nat) : (s.addL k n).samples = s.samples := rfl
@[simp] theorem State.incL_pending (s : State) (k : Nat) : (s.incL k).pending = s.pending := rfl
@[simp] theorem State.incL_act (s : State) (k : Nat) : (s.incL k).act = s.act := rfl
@[simp] theorem State.incL_stg (s : State) (k : Nat) : (s.incL k).stg = s.stg := rfl
@[simp] theorem State.incL_kAct (s : State) (k : Nat) : (s.incL k).kAct = s.kAct := rfl
@[simp] theorem State.incL_kStg (s : State) (k : Nat) : (s.incL k).kStg = s.kStg := rfl
@[simp] theorem State.incL_sram (s : State) (k : Nat) : (s.incL k).sram = s.sram := rfl
@[simp] theorem State.incL_flash (s : State) (k : Nat) : (s.incL k).flash = s.flash := rfl
@[simp] theorem State.incL_free (s : State) (k : Nat) : (s.incL k).free = s.free := rfl
@[simp] theorem State.incL_mode (s : State) (k : Nat) : (s.incL k).mode = s.mode := rfl
@[simp] theorem State.incL_boot (s : State) (k : Nat) : (s.incL k).boot = s.boot := rfl
@[simp] theorem State.incL_commit (s : State) (k : Nat) : (s.incL k).commit = s.commit := rfl
@[simp] theorem State.incL_img (s : State) (k : Nat) : (s.incL k).img = s.img := rfl
@[simp] theorem State.incL_frame (s : State) (k : Nat) : (s.incL k).frame = s.frame := rfl
@[simp] theorem State.incL_modes (s : State) (k : Nat) : (s.incL k).modes = s.modes := rfl
@[simp] theorem State.incL_lanes (s : State) (k : Nat) : (s.incL k).lanes = s.lanes := rfl
@[simp] theorem State.incL_routes (s : State) (k : Nat) : (s.incL k).routes = s.routes := rfl
@[simp] theorem State.incL_launch (s : State) (k : Nat) : (s.incL k).launch = s.launch := rfl
@[simp] theorem State.incL_ledger (s : State) (k : Nat) : (s.incL k).ledger = s.ledger := rfl
@[simp] theorem State.incL_arms (s : State) (k : Nat) : (s.incL k).arms = s.arms := rfl
@[simp] theorem State.incL_sel (s : State) (k : Nat) : (s.incL k).sel = s.sel := rfl
@[simp] theorem State.incL_cup (s : State) (k : Nat) : (s.incL k).cup = s.cup := rfl
@[simp] theorem State.incL_sched (s : State) (k : Nat) : (s.incL k).sched = s.sched := rfl
@[simp] theorem State.incL_aids (s : State) (k : Nat) : (s.incL k).aids = s.aids := rfl
@[simp] theorem State.incL_time (s : State) (k : Nat) : (s.incL k).time = s.time := rfl
@[simp] theorem State.incL_phasor (s : State) (k : Nat) : (s.incL k).phasor = s.phasor := rfl
@[simp] theorem State.incL_wave (s : State) (k : Nat) : (s.incL k).wave = s.wave := rfl
@[simp] theorem State.incL_acq (s : State) (k : Nat) : (s.incL k).acq = s.acq := rfl
@[simp] theorem State.incL_adc (s : State) (k : Nat) : (s.incL k).adc = s.adc := rfl
@[simp] theorem State.incL_pwm (s : State) (k : Nat) : (s.incL k).pwm = s.pwm := rfl
@[simp] theorem State.incL_wt (s : State) (k : Nat) : (s.incL k).wt = s.wt := rfl
@[simp] theorem State.incL_pair (s : State) (k : Nat) : (s.incL k).pair = s.pair := rfl
@[simp] theorem State.incL_fault (s : State) (k : Nat) : (s.incL k).fault = s.fault := rfl
@[simp] theorem State.incL_mem (s : State) (k : Nat) : (s.incL k).mem = s.mem := rfl
@[simp] theorem State.incL_irq (s : State) (k : Nat) : (s.incL k).irq = s.irq := rfl
@[simp] theorem State.incL_jrn (s : State) (k : Nat) : (s.incL k).jrn = s.jrn := rfl
@[simp] theorem State.incL_dict (s : State) (k : Nat) : (s.incL k).dict = s.dict := rfl
@[simp] theorem State.incL_power (s : State) (k : Nat) : (s.incL k).power = s.power := rfl
@[simp] theorem State.incL_jtag (s : State) (k : Nat) : (s.incL k).jtag = s.jtag := rfl
@[simp] theorem State.incL_samples (s : State) (k : Nat) : (s.incL k).samples = s.samples := rfl
@[simp] theorem State.setLN_pending (s : State) (k n : Nat) : (s.setLN k n).pending = s.pending := rfl
@[simp] theorem State.setLN_act (s : State) (k n : Nat) : (s.setLN k n).act = s.act := rfl
@[simp] theorem State.setLN_stg (s : State) (k n : Nat) : (s.setLN k n).stg = s.stg := rfl
@[simp] theorem State.setLN_kAct (s : State) (k n : Nat) : (s.setLN k n).kAct = s.kAct := rfl
@[simp] theorem State.setLN_kStg (s : State) (k n : Nat) : (s.setLN k n).kStg = s.kStg := rfl
@[simp] theorem State.setLN_sram (s : State) (k n : Nat) : (s.setLN k n).sram = s.sram := rfl
@[simp] theorem State.setLN_flash (s : State) (k n : Nat) : (s.setLN k n).flash = s.flash := rfl
@[simp] theorem State.setLN_free (s : State) (k n : Nat) : (s.setLN k n).free = s.free := rfl
@[simp] theorem State.setLN_mode (s : State) (k n : Nat) : (s.setLN k n).mode = s.mode := rfl
@[simp] theorem State.setLN_boot (s : State) (k n : Nat) : (s.setLN k n).boot = s.boot := rfl
@[simp] theorem State.setLN_commit (s : State) (k n : Nat) : (s.setLN k n).commit = s.commit := rfl
@[simp] theorem State.setLN_img (s : State) (k n : Nat) : (s.setLN k n).img = s.img := rfl
@[simp] theorem State.setLN_frame (s : State) (k n : Nat) : (s.setLN k n).frame = s.frame := rfl
@[simp] theorem State.setLN_modes (s : State) (k n : Nat) : (s.setLN k n).modes = s.modes := rfl
@[simp] theorem State.setLN_lanes (s : State) (k n : Nat) : (s.setLN k n).lanes = s.lanes := rfl
@[simp] theorem State.setLN_routes (s : State) (k n : Nat) : (s.setLN k n).routes = s.routes := rfl
@[simp] theorem State.setLN_launch (s : State) (k n : Nat) : (s.setLN k n).launch = s.launch := rfl
@[simp] theorem State.setLN_ledger (s : State) (k n : Nat) : (s.setLN k n).ledger = s.ledger := rfl
@[simp] theorem State.setLN_arms (s : State) (k n : Nat) : (s.setLN k n).arms = s.arms := rfl
@[simp] theorem State.setLN_sel (s : State) (k n : Nat) : (s.setLN k n).sel = s.sel := rfl
@[simp] theorem State.setLN_cup (s : State) (k n : Nat) : (s.setLN k n).cup = s.cup := rfl
@[simp] theorem State.setLN_sched (s : State) (k n : Nat) : (s.setLN k n).sched = s.sched := rfl
@[simp] theorem State.setLN_aids (s : State) (k n : Nat) : (s.setLN k n).aids = s.aids := rfl
@[simp] theorem State.setLN_time (s : State) (k n : Nat) : (s.setLN k n).time = s.time := rfl
@[simp] theorem State.setLN_phasor (s : State) (k n : Nat) : (s.setLN k n).phasor = s.phasor := rfl
@[simp] theorem State.setLN_wave (s : State) (k n : Nat) : (s.setLN k n).wave = s.wave := rfl
@[simp] theorem State.setLN_acq (s : State) (k n : Nat) : (s.setLN k n).acq = s.acq := rfl
@[simp] theorem State.setLN_adc (s : State) (k n : Nat) : (s.setLN k n).adc = s.adc := rfl
@[simp] theorem State.setLN_pwm (s : State) (k n : Nat) : (s.setLN k n).pwm = s.pwm := rfl
@[simp] theorem State.setLN_wt (s : State) (k n : Nat) : (s.setLN k n).wt = s.wt := rfl
@[simp] theorem State.setLN_pair (s : State) (k n : Nat) : (s.setLN k n).pair = s.pair := rfl
@[simp] theorem State.setLN_fault (s : State) (k n : Nat) : (s.setLN k n).fault = s.fault := rfl
@[simp] theorem State.setLN_mem (s : State) (k n : Nat) : (s.setLN k n).mem = s.mem := rfl
@[simp] theorem State.setLN_irq (s : State) (k n : Nat) : (s.setLN k n).irq = s.irq := rfl
@[simp] theorem State.setLN_jrn (s : State) (k n : Nat) : (s.setLN k n).jrn = s.jrn := rfl
@[simp] theorem State.setLN_dict (s : State) (k n : Nat) : (s.setLN k n).dict = s.dict := rfl
@[simp] theorem State.setLN_power (s : State) (k n : Nat) : (s.setLN k n).power = s.power := rfl
@[simp] theorem State.setLN_jtag (s : State) (k n : Nat) : (s.setLN k n).jtag = s.jtag := rfl
@[simp] theorem State.setLN_samples (s : State) (k n : Nat) : (s.setLN k n).samples = s.samples := rfl
@[simp] theorem State.setLI_pending (s : State) (k : Nat) (n : Int) : (s.setLI k n).pending = s.pending := rfl
@[simp] theorem State.setLI_act (s : State) (k : Nat) (n : Int) : (s.setLI k n).act = s.act := rfl
@[simp] theorem State.setLI_stg (s : State) (k : Nat) (n : Int) : (s.setLI k n).stg = s.stg := rfl
@[simp] theorem State.setLI_kAct (s : State) (k : Nat) (n : Int) : (s.setLI k n).kAct = s.kAct := rfl
@[simp] theorem State.setLI_kStg (s : State) (k : Nat) (n : Int) : (s.setLI k n).kStg = s.kStg := rfl
@[simp] theorem State.setLI_sram (s : State) (k : Nat) (n : Int) : (s.setLI k n).sram = s.sram := rfl
@[simp] theorem State.setLI_flash (s : State) (k : Nat) (n : Int) : (s.setLI k n).flash = s.flash := rfl
@[simp] theorem State.setLI_free (s : State) (k : Nat) (n : Int) : (s.setLI k n).free = s.free := rfl
@[simp] theorem State.setLI_mode (s : State) (k : Nat) (n : Int) : (s.setLI k n).mode = s.mode := rfl
@[simp] theorem State.setLI_boot (s : State) (k : Nat) (n : Int) : (s.setLI k n).boot = s.boot := rfl
@[simp] theorem State.setLI_commit (s : State) (k : Nat) (n : Int) : (s.setLI k n).commit = s.commit := rfl
@[simp] theorem State.setLI_img (s : State) (k : Nat) (n : Int) : (s.setLI k n).img = s.img := rfl
@[simp] theorem State.setLI_frame (s : State) (k : Nat) (n : Int) : (s.setLI k n).frame = s.frame := rfl
@[simp] theorem State.setLI_modes (s : State) (k : Nat) (n : Int) : (s.setLI k n).modes = s.modes := rfl
@[simp] theorem State.setLI_lanes (s : State) (k : Nat) (n : Int) : (s.setLI k n).lanes = s.lanes := rfl
@[simp] theorem State.setLI_routes (s : State) (k : Nat) (n : Int) : (s.setLI k n).routes = s.routes := rfl
@[simp] theorem State.setLI_launch (s : State) (k : Nat) (n : Int) : (s.setLI k n).launch = s.launch := rfl
@[simp] theorem State.setLI_ledger (s : State) (k : Nat) (n : Int) : (s.setLI k n).ledger = s.ledger := rfl
@[simp] theorem State.setLI_arms (s : State) (k : Nat) (n : Int) : (s.setLI k n).arms = s.arms := rfl
@[simp] theorem State.setLI_sel (s : State) (k : Nat) (n : Int) : (s.setLI k n).sel = s.sel := rfl
@[simp] theorem State.setLI_cup (s : State) (k : Nat) (n : Int) : (s.setLI k n).cup = s.cup := rfl
@[simp] theorem State.setLI_sched (s : State) (k : Nat) (n : Int) : (s.setLI k n).sched = s.sched := rfl
@[simp] theorem State.setLI_aids (s : State) (k : Nat) (n : Int) : (s.setLI k n).aids = s.aids := rfl
@[simp] theorem State.setLI_time (s : State) (k : Nat) (n : Int) : (s.setLI k n).time = s.time := rfl
@[simp] theorem State.setLI_phasor (s : State) (k : Nat) (n : Int) : (s.setLI k n).phasor = s.phasor := rfl
@[simp] theorem State.setLI_wave (s : State) (k : Nat) (n : Int) : (s.setLI k n).wave = s.wave := rfl
@[simp] theorem State.setLI_acq (s : State) (k : Nat) (n : Int) : (s.setLI k n).acq = s.acq := rfl
@[simp] theorem State.setLI_adc (s : State) (k : Nat) (n : Int) : (s.setLI k n).adc = s.adc := rfl
@[simp] theorem State.setLI_pwm (s : State) (k : Nat) (n : Int) : (s.setLI k n).pwm = s.pwm := rfl
@[simp] theorem State.setLI_wt (s : State) (k : Nat) (n : Int) : (s.setLI k n).wt = s.wt := rfl
@[simp] theorem State.setLI_pair (s : State) (k : Nat) (n : Int) : (s.setLI k n).pair = s.pair := rfl
@[simp] theorem State.setLI_fault (s : State) (k : Nat) (n : Int) : (s.setLI k n).fault = s.fault := rfl
@[simp] theorem State.setLI_mem (s : State) (k : Nat) (n : Int) : (s.setLI k n).mem = s.mem := rfl
@[simp] theorem State.setLI_irq (s : State) (k : Nat) (n : Int) : (s.setLI k n).irq = s.irq := rfl
@[simp] theorem State.setLI_jrn (s : State) (k : Nat) (n : Int) : (s.setLI k n).jrn = s.jrn := rfl
@[simp] theorem State.setLI_dict (s : State) (k : Nat) (n : Int) : (s.setLI k n).dict = s.dict := rfl
@[simp] theorem State.setLI_power (s : State) (k : Nat) (n : Int) : (s.setLI k n).power = s.power := rfl
@[simp] theorem State.setLI_jtag (s : State) (k : Nat) (n : Int) : (s.setLI k n).jtag = s.jtag := rfl
@[simp] theorem State.setLI_samples (s : State) (k : Nat) (n : Int) : (s.setLI k n).samples = s.samples := rfl
@[simp] theorem State.setL64_pending (s : State) (k n : Nat) : (s.setL64 k n).pending = s.pending := rfl
@[simp] theorem State.setL64_act (s : State) (k n : Nat) : (s.setL64 k n).act = s.act := rfl
@[simp] theorem State.setL64_stg (s : State) (k n : Nat) : (s.setL64 k n).stg = s.stg := rfl
@[simp] theorem State.setL64_kAct (s : State) (k n : Nat) : (s.setL64 k n).kAct = s.kAct := rfl
@[simp] theorem State.setL64_kStg (s : State) (k n : Nat) : (s.setL64 k n).kStg = s.kStg := rfl
@[simp] theorem State.setL64_sram (s : State) (k n : Nat) : (s.setL64 k n).sram = s.sram := rfl
@[simp] theorem State.setL64_flash (s : State) (k n : Nat) : (s.setL64 k n).flash = s.flash := rfl
@[simp] theorem State.setL64_free (s : State) (k n : Nat) : (s.setL64 k n).free = s.free := rfl
@[simp] theorem State.setL64_mode (s : State) (k n : Nat) : (s.setL64 k n).mode = s.mode := rfl
@[simp] theorem State.setL64_boot (s : State) (k n : Nat) : (s.setL64 k n).boot = s.boot := rfl
@[simp] theorem State.setL64_commit (s : State) (k n : Nat) : (s.setL64 k n).commit = s.commit := rfl
@[simp] theorem State.setL64_img (s : State) (k n : Nat) : (s.setL64 k n).img = s.img := rfl
@[simp] theorem State.setL64_frame (s : State) (k n : Nat) : (s.setL64 k n).frame = s.frame := rfl
@[simp] theorem State.setL64_modes (s : State) (k n : Nat) : (s.setL64 k n).modes = s.modes := rfl
@[simp] theorem State.setL64_lanes (s : State) (k n : Nat) : (s.setL64 k n).lanes = s.lanes := rfl
@[simp] theorem State.setL64_routes (s : State) (k n : Nat) : (s.setL64 k n).routes = s.routes := rfl
@[simp] theorem State.setL64_launch (s : State) (k n : Nat) : (s.setL64 k n).launch = s.launch := rfl
@[simp] theorem State.setL64_ledger (s : State) (k n : Nat) : (s.setL64 k n).ledger = s.ledger := rfl
@[simp] theorem State.setL64_arms (s : State) (k n : Nat) : (s.setL64 k n).arms = s.arms := rfl
@[simp] theorem State.setL64_sel (s : State) (k n : Nat) : (s.setL64 k n).sel = s.sel := rfl
@[simp] theorem State.setL64_cup (s : State) (k n : Nat) : (s.setL64 k n).cup = s.cup := rfl
@[simp] theorem State.setL64_sched (s : State) (k n : Nat) : (s.setL64 k n).sched = s.sched := rfl
@[simp] theorem State.setL64_aids (s : State) (k n : Nat) : (s.setL64 k n).aids = s.aids := rfl
@[simp] theorem State.setL64_time (s : State) (k n : Nat) : (s.setL64 k n).time = s.time := rfl
@[simp] theorem State.setL64_phasor (s : State) (k n : Nat) : (s.setL64 k n).phasor = s.phasor := rfl
@[simp] theorem State.setL64_wave (s : State) (k n : Nat) : (s.setL64 k n).wave = s.wave := rfl
@[simp] theorem State.setL64_acq (s : State) (k n : Nat) : (s.setL64 k n).acq = s.acq := rfl
@[simp] theorem State.setL64_adc (s : State) (k n : Nat) : (s.setL64 k n).adc = s.adc := rfl
@[simp] theorem State.setL64_pwm (s : State) (k n : Nat) : (s.setL64 k n).pwm = s.pwm := rfl
@[simp] theorem State.setL64_wt (s : State) (k n : Nat) : (s.setL64 k n).wt = s.wt := rfl
@[simp] theorem State.setL64_pair (s : State) (k n : Nat) : (s.setL64 k n).pair = s.pair := rfl
@[simp] theorem State.setL64_fault (s : State) (k n : Nat) : (s.setL64 k n).fault = s.fault := rfl
@[simp] theorem State.setL64_mem (s : State) (k n : Nat) : (s.setL64 k n).mem = s.mem := rfl
@[simp] theorem State.setL64_irq (s : State) (k n : Nat) : (s.setL64 k n).irq = s.irq := rfl
@[simp] theorem State.setL64_jrn (s : State) (k n : Nat) : (s.setL64 k n).jrn = s.jrn := rfl
@[simp] theorem State.setL64_dict (s : State) (k n : Nat) : (s.setL64 k n).dict = s.dict := rfl
@[simp] theorem State.setL64_power (s : State) (k n : Nat) : (s.setL64 k n).power = s.power := rfl
@[simp] theorem State.setL64_jtag (s : State) (k n : Nat) : (s.setL64 k n).jtag = s.jtag := rfl
@[simp] theorem State.setL64_samples (s : State) (k n : Nat) : (s.setL64 k n).samples = s.samples := rfl
@[simp] theorem State.wrW_pending (s : State) (a : Nat) (v : Word) : (s.wrW a v).pending = s.pending := rfl
@[simp] theorem State.wrW_live (s : State) (a : Nat) (v : Word) : (s.wrW a v).live = s.live := rfl
@[simp] theorem State.wrW_act (s : State) (a : Nat) (v : Word) : (s.wrW a v).act = s.act := rfl
@[simp] theorem State.wrW_stg (s : State) (a : Nat) (v : Word) : (s.wrW a v).stg = s.stg := rfl
@[simp] theorem State.wrW_kAct (s : State) (a : Nat) (v : Word) : (s.wrW a v).kAct = s.kAct := rfl
@[simp] theorem State.wrW_kStg (s : State) (a : Nat) (v : Word) : (s.wrW a v).kStg = s.kStg := rfl
@[simp] theorem State.wrW_flash (s : State) (a : Nat) (v : Word) : (s.wrW a v).flash = s.flash := rfl
@[simp] theorem State.wrW_free (s : State) (a : Nat) (v : Word) : (s.wrW a v).free = s.free := rfl
@[simp] theorem State.wrW_mode (s : State) (a : Nat) (v : Word) : (s.wrW a v).mode = s.mode := rfl
@[simp] theorem State.wrW_boot (s : State) (a : Nat) (v : Word) : (s.wrW a v).boot = s.boot := rfl
@[simp] theorem State.wrW_commit (s : State) (a : Nat) (v : Word) : (s.wrW a v).commit = s.commit := rfl
@[simp] theorem State.wrW_img (s : State) (a : Nat) (v : Word) : (s.wrW a v).img = s.img := rfl
@[simp] theorem State.wrW_frame (s : State) (a : Nat) (v : Word) : (s.wrW a v).frame = s.frame := rfl
@[simp] theorem State.wrW_modes (s : State) (a : Nat) (v : Word) : (s.wrW a v).modes = s.modes := rfl
@[simp] theorem State.wrW_lanes (s : State) (a : Nat) (v : Word) : (s.wrW a v).lanes = s.lanes := rfl
@[simp] theorem State.wrW_routes (s : State) (a : Nat) (v : Word) : (s.wrW a v).routes = s.routes := rfl
@[simp] theorem State.wrW_launch (s : State) (a : Nat) (v : Word) : (s.wrW a v).launch = s.launch := rfl
@[simp] theorem State.wrW_ledger (s : State) (a : Nat) (v : Word) : (s.wrW a v).ledger = s.ledger := rfl
@[simp] theorem State.wrW_arms (s : State) (a : Nat) (v : Word) : (s.wrW a v).arms = s.arms := rfl
@[simp] theorem State.wrW_sel (s : State) (a : Nat) (v : Word) : (s.wrW a v).sel = s.sel := rfl
@[simp] theorem State.wrW_cup (s : State) (a : Nat) (v : Word) : (s.wrW a v).cup = s.cup := rfl
@[simp] theorem State.wrW_sched (s : State) (a : Nat) (v : Word) : (s.wrW a v).sched = s.sched := rfl
@[simp] theorem State.wrW_aids (s : State) (a : Nat) (v : Word) : (s.wrW a v).aids = s.aids := rfl
@[simp] theorem State.wrW_time (s : State) (a : Nat) (v : Word) : (s.wrW a v).time = s.time := rfl
@[simp] theorem State.wrW_phasor (s : State) (a : Nat) (v : Word) : (s.wrW a v).phasor = s.phasor := rfl
@[simp] theorem State.wrW_wave (s : State) (a : Nat) (v : Word) : (s.wrW a v).wave = s.wave := rfl
@[simp] theorem State.wrW_acq (s : State) (a : Nat) (v : Word) : (s.wrW a v).acq = s.acq := rfl
@[simp] theorem State.wrW_adc (s : State) (a : Nat) (v : Word) : (s.wrW a v).adc = s.adc := rfl
@[simp] theorem State.wrW_pwm (s : State) (a : Nat) (v : Word) : (s.wrW a v).pwm = s.pwm := rfl
@[simp] theorem State.wrW_wt (s : State) (a : Nat) (v : Word) : (s.wrW a v).wt = s.wt := rfl
@[simp] theorem State.wrW_pair (s : State) (a : Nat) (v : Word) : (s.wrW a v).pair = s.pair := rfl
@[simp] theorem State.wrW_fault (s : State) (a : Nat) (v : Word) : (s.wrW a v).fault = s.fault := rfl
@[simp] theorem State.wrW_mem (s : State) (a : Nat) (v : Word) : (s.wrW a v).mem = s.mem := rfl
@[simp] theorem State.wrW_irq (s : State) (a : Nat) (v : Word) : (s.wrW a v).irq = s.irq := rfl
@[simp] theorem State.wrW_jrn (s : State) (a : Nat) (v : Word) : (s.wrW a v).jrn = s.jrn := rfl
@[simp] theorem State.wrW_dict (s : State) (a : Nat) (v : Word) : (s.wrW a v).dict = s.dict := rfl
@[simp] theorem State.wrW_power (s : State) (a : Nat) (v : Word) : (s.wrW a v).power = s.power := rfl
@[simp] theorem State.wrW_jtag (s : State) (a : Nat) (v : Word) : (s.wrW a v).jtag = s.jtag := rfl
@[simp] theorem State.wrW_samples (s : State) (a : Nat) (v : Word) : (s.wrW a v).samples = s.samples := rfl
@[simp] theorem State.setDictResult_pending (s : State) (e v : Nat) : (s.setDictResult e v).pending = s.pending := rfl
@[simp] theorem State.setDictResult_live (s : State) (e v : Nat) : (s.setDictResult e v).live = s.live := rfl
@[simp] theorem State.setDictResult_act (s : State) (e v : Nat) : (s.setDictResult e v).act = s.act := rfl
@[simp] theorem State.setDictResult_stg (s : State) (e v : Nat) : (s.setDictResult e v).stg = s.stg := rfl
@[simp] theorem State.setDictResult_kAct (s : State) (e v : Nat) : (s.setDictResult e v).kAct = s.kAct := rfl
@[simp] theorem State.setDictResult_kStg (s : State) (e v : Nat) : (s.setDictResult e v).kStg = s.kStg := rfl
@[simp] theorem State.setDictResult_sram (s : State) (e v : Nat) : (s.setDictResult e v).sram = s.sram := rfl
@[simp] theorem State.setDictResult_flash (s : State) (e v : Nat) : (s.setDictResult e v).flash = s.flash := rfl
@[simp] theorem State.setDictResult_free (s : State) (e v : Nat) : (s.setDictResult e v).free = s.free := rfl
@[simp] theorem State.setDictResult_mode (s : State) (e v : Nat) : (s.setDictResult e v).mode = s.mode := rfl
@[simp] theorem State.setDictResult_boot (s : State) (e v : Nat) : (s.setDictResult e v).boot = s.boot := rfl
@[simp] theorem State.setDictResult_commit (s : State) (e v : Nat) : (s.setDictResult e v).commit = s.commit := rfl
@[simp] theorem State.setDictResult_img (s : State) (e v : Nat) : (s.setDictResult e v).img = s.img := rfl
@[simp] theorem State.setDictResult_frame (s : State) (e v : Nat) : (s.setDictResult e v).frame = s.frame := rfl
@[simp] theorem State.setDictResult_modes (s : State) (e v : Nat) : (s.setDictResult e v).modes = s.modes := rfl
@[simp] theorem State.setDictResult_lanes (s : State) (e v : Nat) : (s.setDictResult e v).lanes = s.lanes := rfl
@[simp] theorem State.setDictResult_routes (s : State) (e v : Nat) : (s.setDictResult e v).routes = s.routes := rfl
@[simp] theorem State.setDictResult_launch (s : State) (e v : Nat) : (s.setDictResult e v).launch = s.launch := rfl
@[simp] theorem State.setDictResult_ledger (s : State) (e v : Nat) : (s.setDictResult e v).ledger = s.ledger := rfl
@[simp] theorem State.setDictResult_arms (s : State) (e v : Nat) : (s.setDictResult e v).arms = s.arms := rfl
@[simp] theorem State.setDictResult_sel (s : State) (e v : Nat) : (s.setDictResult e v).sel = s.sel := rfl
@[simp] theorem State.setDictResult_sched (s : State) (e v : Nat) : (s.setDictResult e v).sched = s.sched := rfl
@[simp] theorem State.setDictResult_aids (s : State) (e v : Nat) : (s.setDictResult e v).aids = s.aids := rfl
@[simp] theorem State.setDictResult_time (s : State) (e v : Nat) : (s.setDictResult e v).time = s.time := rfl
@[simp] theorem State.setDictResult_phasor (s : State) (e v : Nat) : (s.setDictResult e v).phasor = s.phasor := rfl
@[simp] theorem State.setDictResult_wave (s : State) (e v : Nat) : (s.setDictResult e v).wave = s.wave := rfl
@[simp] theorem State.setDictResult_acq (s : State) (e v : Nat) : (s.setDictResult e v).acq = s.acq := rfl
@[simp] theorem State.setDictResult_adc (s : State) (e v : Nat) : (s.setDictResult e v).adc = s.adc := rfl
@[simp] theorem State.setDictResult_pwm (s : State) (e v : Nat) : (s.setDictResult e v).pwm = s.pwm := rfl
@[simp] theorem State.setDictResult_wt (s : State) (e v : Nat) : (s.setDictResult e v).wt = s.wt := rfl
@[simp] theorem State.setDictResult_pair (s : State) (e v : Nat) : (s.setDictResult e v).pair = s.pair := rfl
@[simp] theorem State.setDictResult_fault (s : State) (e v : Nat) : (s.setDictResult e v).fault = s.fault := rfl
@[simp] theorem State.setDictResult_mem (s : State) (e v : Nat) : (s.setDictResult e v).mem = s.mem := rfl
@[simp] theorem State.setDictResult_irq (s : State) (e v : Nat) : (s.setDictResult e v).irq = s.irq := rfl
@[simp] theorem State.setDictResult_jrn (s : State) (e v : Nat) : (s.setDictResult e v).jrn = s.jrn := rfl
@[simp] theorem State.setDictResult_dict (s : State) (e v : Nat) : (s.setDictResult e v).dict = s.dict := rfl
@[simp] theorem State.setDictResult_power (s : State) (e v : Nat) : (s.setDictResult e v).power = s.power := rfl
@[simp] theorem State.setDictResult_jtag (s : State) (e v : Nat) : (s.setDictResult e v).jtag = s.jtag := rfl
@[simp] theorem State.setDictResult_samples (s : State) (e v : Nat) : (s.setDictResult e v).samples = s.samples := rfl
@[simp] theorem State.dropLow_pending (s : State) (p : Path) : (s.dropLow p).pending = s.pending := rfl
@[simp] theorem State.dropLow_live (s : State) (p : Path) : (s.dropLow p).live = s.live := rfl
@[simp] theorem State.dropLow_act (s : State) (p : Path) : (s.dropLow p).act = s.act := rfl
@[simp] theorem State.dropLow_stg (s : State) (p : Path) : (s.dropLow p).stg = s.stg := rfl
@[simp] theorem State.dropLow_kAct (s : State) (p : Path) : (s.dropLow p).kAct = s.kAct := rfl
@[simp] theorem State.dropLow_kStg (s : State) (p : Path) : (s.dropLow p).kStg = s.kStg := rfl
@[simp] theorem State.dropLow_sram (s : State) (p : Path) : (s.dropLow p).sram = s.sram := rfl
@[simp] theorem State.dropLow_flash (s : State) (p : Path) : (s.dropLow p).flash = s.flash := rfl
@[simp] theorem State.dropLow_free (s : State) (p : Path) : (s.dropLow p).free = s.free := rfl
@[simp] theorem State.dropLow_mode (s : State) (p : Path) : (s.dropLow p).mode = s.mode := rfl
@[simp] theorem State.dropLow_boot (s : State) (p : Path) : (s.dropLow p).boot = s.boot := rfl
@[simp] theorem State.dropLow_commit (s : State) (p : Path) : (s.dropLow p).commit = s.commit := rfl
@[simp] theorem State.dropLow_img (s : State) (p : Path) : (s.dropLow p).img = s.img := rfl
@[simp] theorem State.dropLow_frame (s : State) (p : Path) : (s.dropLow p).frame = s.frame := rfl
@[simp] theorem State.dropLow_modes (s : State) (p : Path) : (s.dropLow p).modes = s.modes := rfl
@[simp] theorem State.dropLow_lanes (s : State) (p : Path) : (s.dropLow p).lanes = s.lanes := rfl
@[simp] theorem State.dropLow_routes (s : State) (p : Path) : (s.dropLow p).routes = s.routes := rfl
@[simp] theorem State.dropLow_launch (s : State) (p : Path) : (s.dropLow p).launch = s.launch := rfl
@[simp] theorem State.dropLow_ledger (s : State) (p : Path) : (s.dropLow p).ledger = s.ledger := rfl
@[simp] theorem State.dropLow_arms (s : State) (p : Path) : (s.dropLow p).arms = s.arms := rfl
@[simp] theorem State.dropLow_sel (s : State) (p : Path) : (s.dropLow p).sel = s.sel := rfl
@[simp] theorem State.dropLow_cup (s : State) (p : Path) : (s.dropLow p).cup = s.cup := rfl
@[simp] theorem State.dropLow_sched (s : State) (p : Path) : (s.dropLow p).sched = s.sched := rfl
@[simp] theorem State.dropLow_aids (s : State) (p : Path) : (s.dropLow p).aids = s.aids := rfl
@[simp] theorem State.dropLow_time (s : State) (p : Path) : (s.dropLow p).time = s.time := rfl
@[simp] theorem State.dropLow_phasor (s : State) (p : Path) : (s.dropLow p).phasor = s.phasor := rfl
@[simp] theorem State.dropLow_wave (s : State) (p : Path) : (s.dropLow p).wave = s.wave := rfl
@[simp] theorem State.dropLow_acq (s : State) (p : Path) : (s.dropLow p).acq = s.acq := rfl
@[simp] theorem State.dropLow_adc (s : State) (p : Path) : (s.dropLow p).adc = s.adc := rfl
@[simp] theorem State.dropLow_pwm (s : State) (p : Path) : (s.dropLow p).pwm = s.pwm := rfl
@[simp] theorem State.dropLow_wt (s : State) (p : Path) : (s.dropLow p).wt = s.wt := rfl
@[simp] theorem State.dropLow_pair (s : State) (p : Path) : (s.dropLow p).pair = s.pair := rfl
@[simp] theorem State.dropLow_fault (s : State) (p : Path) : (s.dropLow p).fault = s.fault := rfl
@[simp] theorem State.dropLow_mem (s : State) (p : Path) : (s.dropLow p).mem = s.mem := rfl
@[simp] theorem State.dropLow_irq (s : State) (p : Path) : (s.dropLow p).irq = s.irq := rfl
@[simp] theorem State.dropLow_jrn (s : State) (p : Path) : (s.dropLow p).jrn = s.jrn := rfl
@[simp] theorem State.dropLow_power (s : State) (p : Path) : (s.dropLow p).power = s.power := rfl
@[simp] theorem State.dropLow_jtag (s : State) (p : Path) : (s.dropLow p).jtag = s.jtag := rfl
@[simp] theorem State.dropLow_samples (s : State) (p : Path) : (s.dropLow p).samples = s.samples := rfl
@[simp] theorem State.holdLow_pending (s : State) (p : Path) (k : Nat) (v : Word) : (s.holdLow p k v).pending = s.pending := rfl
@[simp] theorem State.holdLow_live (s : State) (p : Path) (k : Nat) (v : Word) : (s.holdLow p k v).live = s.live := rfl
@[simp] theorem State.holdLow_act (s : State) (p : Path) (k : Nat) (v : Word) : (s.holdLow p k v).act = s.act := rfl
@[simp] theorem State.holdLow_stg (s : State) (p : Path) (k : Nat) (v : Word) : (s.holdLow p k v).stg = s.stg := rfl
@[simp] theorem State.holdLow_kAct (s : State) (p : Path) (k : Nat) (v : Word) : (s.holdLow p k v).kAct = s.kAct := rfl
@[simp] theorem State.holdLow_kStg (s : State) (p : Path) (k : Nat) (v : Word) : (s.holdLow p k v).kStg = s.kStg := rfl
@[simp] theorem State.holdLow_sram (s : State) (p : Path) (k : Nat) (v : Word) : (s.holdLow p k v).sram = s.sram := rfl
@[simp] theorem State.holdLow_flash (s : State) (p : Path) (k : Nat) (v : Word) : (s.holdLow p k v).flash = s.flash := rfl
@[simp] theorem State.holdLow_free (s : State) (p : Path) (k : Nat) (v : Word) : (s.holdLow p k v).free = s.free := rfl
@[simp] theorem State.holdLow_mode (s : State) (p : Path) (k : Nat) (v : Word) : (s.holdLow p k v).mode = s.mode := rfl
@[simp] theorem State.holdLow_boot (s : State) (p : Path) (k : Nat) (v : Word) : (s.holdLow p k v).boot = s.boot := rfl
@[simp] theorem State.holdLow_commit (s : State) (p : Path) (k : Nat) (v : Word) : (s.holdLow p k v).commit = s.commit := rfl
@[simp] theorem State.holdLow_img (s : State) (p : Path) (k : Nat) (v : Word) : (s.holdLow p k v).img = s.img := rfl
@[simp] theorem State.holdLow_frame (s : State) (p : Path) (k : Nat) (v : Word) : (s.holdLow p k v).frame = s.frame := rfl
@[simp] theorem State.holdLow_modes (s : State) (p : Path) (k : Nat) (v : Word) : (s.holdLow p k v).modes = s.modes := rfl
@[simp] theorem State.holdLow_lanes (s : State) (p : Path) (k : Nat) (v : Word) : (s.holdLow p k v).lanes = s.lanes := rfl
@[simp] theorem State.holdLow_routes (s : State) (p : Path) (k : Nat) (v : Word) : (s.holdLow p k v).routes = s.routes := rfl
@[simp] theorem State.holdLow_launch (s : State) (p : Path) (k : Nat) (v : Word) : (s.holdLow p k v).launch = s.launch := rfl
@[simp] theorem State.holdLow_ledger (s : State) (p : Path) (k : Nat) (v : Word) : (s.holdLow p k v).ledger = s.ledger := rfl
@[simp] theorem State.holdLow_arms (s : State) (p : Path) (k : Nat) (v : Word) : (s.holdLow p k v).arms = s.arms := rfl
@[simp] theorem State.holdLow_sel (s : State) (p : Path) (k : Nat) (v : Word) : (s.holdLow p k v).sel = s.sel := rfl
@[simp] theorem State.holdLow_cup (s : State) (p : Path) (k : Nat) (v : Word) : (s.holdLow p k v).cup = s.cup := rfl
@[simp] theorem State.holdLow_sched (s : State) (p : Path) (k : Nat) (v : Word) : (s.holdLow p k v).sched = s.sched := rfl
@[simp] theorem State.holdLow_aids (s : State) (p : Path) (k : Nat) (v : Word) : (s.holdLow p k v).aids = s.aids := rfl
@[simp] theorem State.holdLow_time (s : State) (p : Path) (k : Nat) (v : Word) : (s.holdLow p k v).time = s.time := rfl
@[simp] theorem State.holdLow_phasor (s : State) (p : Path) (k : Nat) (v : Word) : (s.holdLow p k v).phasor = s.phasor := rfl
@[simp] theorem State.holdLow_wave (s : State) (p : Path) (k : Nat) (v : Word) : (s.holdLow p k v).wave = s.wave := rfl
@[simp] theorem State.holdLow_acq (s : State) (p : Path) (k : Nat) (v : Word) : (s.holdLow p k v).acq = s.acq := rfl
@[simp] theorem State.holdLow_adc (s : State) (p : Path) (k : Nat) (v : Word) : (s.holdLow p k v).adc = s.adc := rfl
@[simp] theorem State.holdLow_pwm (s : State) (p : Path) (k : Nat) (v : Word) : (s.holdLow p k v).pwm = s.pwm := rfl
@[simp] theorem State.holdLow_wt (s : State) (p : Path) (k : Nat) (v : Word) : (s.holdLow p k v).wt = s.wt := rfl
@[simp] theorem State.holdLow_pair (s : State) (p : Path) (k : Nat) (v : Word) : (s.holdLow p k v).pair = s.pair := rfl
@[simp] theorem State.holdLow_fault (s : State) (p : Path) (k : Nat) (v : Word) : (s.holdLow p k v).fault = s.fault := rfl
@[simp] theorem State.holdLow_mem (s : State) (p : Path) (k : Nat) (v : Word) : (s.holdLow p k v).mem = s.mem := rfl
@[simp] theorem State.holdLow_irq (s : State) (p : Path) (k : Nat) (v : Word) : (s.holdLow p k v).irq = s.irq := rfl
@[simp] theorem State.holdLow_jrn (s : State) (p : Path) (k : Nat) (v : Word) : (s.holdLow p k v).jrn = s.jrn := rfl
@[simp] theorem State.holdLow_power (s : State) (p : Path) (k : Nat) (v : Word) : (s.holdLow p k v).power = s.power := rfl
@[simp] theorem State.holdLow_jtag (s : State) (p : Path) (k : Nat) (v : Word) : (s.holdLow p k v).jtag = s.jtag := rfl
@[simp] theorem State.holdLow_samples (s : State) (p : Path) (k : Nat) (v : Word) : (s.holdLow p k v).samples = s.samples := rfl
@[simp] theorem State.passNs_pending (s : State) (n : Nat) : (s.passNs n).pending = s.pending := rfl
@[simp] theorem State.passNs_live (s : State) (n : Nat) : (s.passNs n).live = s.live := rfl
@[simp] theorem State.passNs_act (s : State) (n : Nat) : (s.passNs n).act = s.act := rfl
@[simp] theorem State.passNs_stg (s : State) (n : Nat) : (s.passNs n).stg = s.stg := rfl
@[simp] theorem State.passNs_kAct (s : State) (n : Nat) : (s.passNs n).kAct = s.kAct := rfl
@[simp] theorem State.passNs_kStg (s : State) (n : Nat) : (s.passNs n).kStg = s.kStg := rfl
@[simp] theorem State.passNs_sram (s : State) (n : Nat) : (s.passNs n).sram = s.sram := rfl
@[simp] theorem State.passNs_flash (s : State) (n : Nat) : (s.passNs n).flash = s.flash := rfl
@[simp] theorem State.passNs_free (s : State) (n : Nat) : (s.passNs n).free = s.free := rfl
@[simp] theorem State.passNs_mode (s : State) (n : Nat) : (s.passNs n).mode = s.mode := rfl
@[simp] theorem State.passNs_boot (s : State) (n : Nat) : (s.passNs n).boot = s.boot := rfl
@[simp] theorem State.passNs_commit (s : State) (n : Nat) : (s.passNs n).commit = s.commit := rfl
@[simp] theorem State.passNs_img (s : State) (n : Nat) : (s.passNs n).img = s.img := rfl
@[simp] theorem State.passNs_frame (s : State) (n : Nat) : (s.passNs n).frame = s.frame := rfl
@[simp] theorem State.passNs_modes (s : State) (n : Nat) : (s.passNs n).modes = s.modes := rfl
@[simp] theorem State.passNs_lanes (s : State) (n : Nat) : (s.passNs n).lanes = s.lanes := rfl
@[simp] theorem State.passNs_routes (s : State) (n : Nat) : (s.passNs n).routes = s.routes := rfl
@[simp] theorem State.passNs_launch (s : State) (n : Nat) : (s.passNs n).launch = s.launch := rfl
@[simp] theorem State.passNs_ledger (s : State) (n : Nat) : (s.passNs n).ledger = s.ledger := rfl
@[simp] theorem State.passNs_arms (s : State) (n : Nat) : (s.passNs n).arms = s.arms := rfl
@[simp] theorem State.passNs_sel (s : State) (n : Nat) : (s.passNs n).sel = s.sel := rfl
@[simp] theorem State.passNs_cup (s : State) (n : Nat) : (s.passNs n).cup = s.cup := rfl
@[simp] theorem State.passNs_sched (s : State) (n : Nat) : (s.passNs n).sched = s.sched := rfl
@[simp] theorem State.passNs_aids (s : State) (n : Nat) : (s.passNs n).aids = s.aids := rfl
@[simp] theorem State.passNs_phasor (s : State) (n : Nat) : (s.passNs n).phasor = s.phasor := rfl
@[simp] theorem State.passNs_wave (s : State) (n : Nat) : (s.passNs n).wave = s.wave := rfl
@[simp] theorem State.passNs_acq (s : State) (n : Nat) : (s.passNs n).acq = s.acq := rfl
@[simp] theorem State.passNs_adc (s : State) (n : Nat) : (s.passNs n).adc = s.adc := rfl
@[simp] theorem State.passNs_pwm (s : State) (n : Nat) : (s.passNs n).pwm = s.pwm := rfl
@[simp] theorem State.passNs_wt (s : State) (n : Nat) : (s.passNs n).wt = s.wt := rfl
@[simp] theorem State.passNs_pair (s : State) (n : Nat) : (s.passNs n).pair = s.pair := rfl
@[simp] theorem State.passNs_fault (s : State) (n : Nat) : (s.passNs n).fault = s.fault := rfl
@[simp] theorem State.passNs_mem (s : State) (n : Nat) : (s.passNs n).mem = s.mem := rfl
@[simp] theorem State.passNs_irq (s : State) (n : Nat) : (s.passNs n).irq = s.irq := rfl
@[simp] theorem State.passNs_jrn (s : State) (n : Nat) : (s.passNs n).jrn = s.jrn := rfl
@[simp] theorem State.passNs_dict (s : State) (n : Nat) : (s.passNs n).dict = s.dict := rfl
@[simp] theorem State.passNs_power (s : State) (n : Nat) : (s.passNs n).power = s.power := rfl
@[simp] theorem State.passNs_jtag (s : State) (n : Nat) : (s.passNs n).jtag = s.jtag := rfl
@[simp] theorem State.passNs_samples (s : State) (n : Nat) : (s.passNs n).samples = s.samples := rfl
@[simp] theorem State.incIf_pending (s : State) (c : Bool) (k : Nat) : (s.incIf c k).pending = s.pending := by unfold State.incIf; split <;> rfl
@[simp] theorem State.incIf_act (s : State) (c : Bool) (k : Nat) : (s.incIf c k).act = s.act := by unfold State.incIf; split <;> rfl
@[simp] theorem State.incIf_stg (s : State) (c : Bool) (k : Nat) : (s.incIf c k).stg = s.stg := by unfold State.incIf; split <;> rfl
@[simp] theorem State.incIf_kAct (s : State) (c : Bool) (k : Nat) : (s.incIf c k).kAct = s.kAct := by unfold State.incIf; split <;> rfl
@[simp] theorem State.incIf_kStg (s : State) (c : Bool) (k : Nat) : (s.incIf c k).kStg = s.kStg := by unfold State.incIf; split <;> rfl
@[simp] theorem State.incIf_sram (s : State) (c : Bool) (k : Nat) : (s.incIf c k).sram = s.sram := by unfold State.incIf; split <;> rfl
@[simp] theorem State.incIf_flash (s : State) (c : Bool) (k : Nat) : (s.incIf c k).flash = s.flash := by unfold State.incIf; split <;> rfl
@[simp] theorem State.incIf_free (s : State) (c : Bool) (k : Nat) : (s.incIf c k).free = s.free := by unfold State.incIf; split <;> rfl
@[simp] theorem State.incIf_mode (s : State) (c : Bool) (k : Nat) : (s.incIf c k).mode = s.mode := by unfold State.incIf; split <;> rfl
@[simp] theorem State.incIf_boot (s : State) (c : Bool) (k : Nat) : (s.incIf c k).boot = s.boot := by unfold State.incIf; split <;> rfl
@[simp] theorem State.incIf_commit (s : State) (c : Bool) (k : Nat) : (s.incIf c k).commit = s.commit := by unfold State.incIf; split <;> rfl
@[simp] theorem State.incIf_img (s : State) (c : Bool) (k : Nat) : (s.incIf c k).img = s.img := by unfold State.incIf; split <;> rfl
@[simp] theorem State.incIf_frame (s : State) (c : Bool) (k : Nat) : (s.incIf c k).frame = s.frame := by unfold State.incIf; split <;> rfl
@[simp] theorem State.incIf_modes (s : State) (c : Bool) (k : Nat) : (s.incIf c k).modes = s.modes := by unfold State.incIf; split <;> rfl
@[simp] theorem State.incIf_lanes (s : State) (c : Bool) (k : Nat) : (s.incIf c k).lanes = s.lanes := by unfold State.incIf; split <;> rfl
@[simp] theorem State.incIf_routes (s : State) (c : Bool) (k : Nat) : (s.incIf c k).routes = s.routes := by unfold State.incIf; split <;> rfl
@[simp] theorem State.incIf_launch (s : State) (c : Bool) (k : Nat) : (s.incIf c k).launch = s.launch := by unfold State.incIf; split <;> rfl
@[simp] theorem State.incIf_ledger (s : State) (c : Bool) (k : Nat) : (s.incIf c k).ledger = s.ledger := by unfold State.incIf; split <;> rfl
@[simp] theorem State.incIf_arms (s : State) (c : Bool) (k : Nat) : (s.incIf c k).arms = s.arms := by unfold State.incIf; split <;> rfl
@[simp] theorem State.incIf_sel (s : State) (c : Bool) (k : Nat) : (s.incIf c k).sel = s.sel := by unfold State.incIf; split <;> rfl
@[simp] theorem State.incIf_cup (s : State) (c : Bool) (k : Nat) : (s.incIf c k).cup = s.cup := by unfold State.incIf; split <;> rfl
@[simp] theorem State.incIf_sched (s : State) (c : Bool) (k : Nat) : (s.incIf c k).sched = s.sched := by unfold State.incIf; split <;> rfl
@[simp] theorem State.incIf_aids (s : State) (c : Bool) (k : Nat) : (s.incIf c k).aids = s.aids := by unfold State.incIf; split <;> rfl
@[simp] theorem State.incIf_time (s : State) (c : Bool) (k : Nat) : (s.incIf c k).time = s.time := by unfold State.incIf; split <;> rfl
@[simp] theorem State.incIf_phasor (s : State) (c : Bool) (k : Nat) : (s.incIf c k).phasor = s.phasor := by unfold State.incIf; split <;> rfl
@[simp] theorem State.incIf_wave (s : State) (c : Bool) (k : Nat) : (s.incIf c k).wave = s.wave := by unfold State.incIf; split <;> rfl
@[simp] theorem State.incIf_acq (s : State) (c : Bool) (k : Nat) : (s.incIf c k).acq = s.acq := by unfold State.incIf; split <;> rfl
@[simp] theorem State.incIf_adc (s : State) (c : Bool) (k : Nat) : (s.incIf c k).adc = s.adc := by unfold State.incIf; split <;> rfl
@[simp] theorem State.incIf_pwm (s : State) (c : Bool) (k : Nat) : (s.incIf c k).pwm = s.pwm := by unfold State.incIf; split <;> rfl
@[simp] theorem State.incIf_wt (s : State) (c : Bool) (k : Nat) : (s.incIf c k).wt = s.wt := by unfold State.incIf; split <;> rfl
@[simp] theorem State.incIf_pair (s : State) (c : Bool) (k : Nat) : (s.incIf c k).pair = s.pair := by unfold State.incIf; split <;> rfl
@[simp] theorem State.incIf_fault (s : State) (c : Bool) (k : Nat) : (s.incIf c k).fault = s.fault := by unfold State.incIf; split <;> rfl
@[simp] theorem State.incIf_mem (s : State) (c : Bool) (k : Nat) : (s.incIf c k).mem = s.mem := by unfold State.incIf; split <;> rfl
@[simp] theorem State.incIf_irq (s : State) (c : Bool) (k : Nat) : (s.incIf c k).irq = s.irq := by unfold State.incIf; split <;> rfl
@[simp] theorem State.incIf_jrn (s : State) (c : Bool) (k : Nat) : (s.incIf c k).jrn = s.jrn := by unfold State.incIf; split <;> rfl
@[simp] theorem State.incIf_dict (s : State) (c : Bool) (k : Nat) : (s.incIf c k).dict = s.dict := by unfold State.incIf; split <;> rfl
@[simp] theorem State.incIf_power (s : State) (c : Bool) (k : Nat) : (s.incIf c k).power = s.power := by unfold State.incIf; split <;> rfl
@[simp] theorem State.incIf_jtag (s : State) (c : Bool) (k : Nat) : (s.incIf c k).jtag = s.jtag := by unfold State.incIf; split <;> rfl
@[simp] theorem State.incIf_samples (s : State) (c : Bool) (k : Nat) : (s.incIf c k).samples = s.samples := by unfold State.incIf; split <;> rfl
@[simp] theorem State.irqBits_pending (s : State) (g : Nat) (b : Word) : (s.irqBits g b).pending = s.pending := by unfold State.irqBits; split <;> rfl
@[simp] theorem State.irqBits_live (s : State) (g : Nat) (b : Word) : (s.irqBits g b).live = s.live := by unfold State.irqBits; split <;> rfl
@[simp] theorem State.irqBits_act (s : State) (g : Nat) (b : Word) : (s.irqBits g b).act = s.act := by unfold State.irqBits; split <;> rfl
@[simp] theorem State.irqBits_stg (s : State) (g : Nat) (b : Word) : (s.irqBits g b).stg = s.stg := by unfold State.irqBits; split <;> rfl
@[simp] theorem State.irqBits_kAct (s : State) (g : Nat) (b : Word) : (s.irqBits g b).kAct = s.kAct := by unfold State.irqBits; split <;> rfl
@[simp] theorem State.irqBits_kStg (s : State) (g : Nat) (b : Word) : (s.irqBits g b).kStg = s.kStg := by unfold State.irqBits; split <;> rfl
@[simp] theorem State.irqBits_sram (s : State) (g : Nat) (b : Word) : (s.irqBits g b).sram = s.sram := by unfold State.irqBits; split <;> rfl
@[simp] theorem State.irqBits_flash (s : State) (g : Nat) (b : Word) : (s.irqBits g b).flash = s.flash := by unfold State.irqBits; split <;> rfl
@[simp] theorem State.irqBits_free (s : State) (g : Nat) (b : Word) : (s.irqBits g b).free = s.free := by unfold State.irqBits; split <;> rfl
@[simp] theorem State.irqBits_mode (s : State) (g : Nat) (b : Word) : (s.irqBits g b).mode = s.mode := by unfold State.irqBits; split <;> rfl
@[simp] theorem State.irqBits_boot (s : State) (g : Nat) (b : Word) : (s.irqBits g b).boot = s.boot := by unfold State.irqBits; split <;> rfl
@[simp] theorem State.irqBits_commit (s : State) (g : Nat) (b : Word) : (s.irqBits g b).commit = s.commit := by unfold State.irqBits; split <;> rfl
@[simp] theorem State.irqBits_img (s : State) (g : Nat) (b : Word) : (s.irqBits g b).img = s.img := by unfold State.irqBits; split <;> rfl
@[simp] theorem State.irqBits_frame (s : State) (g : Nat) (b : Word) : (s.irqBits g b).frame = s.frame := by unfold State.irqBits; split <;> rfl
@[simp] theorem State.irqBits_modes (s : State) (g : Nat) (b : Word) : (s.irqBits g b).modes = s.modes := by unfold State.irqBits; split <;> rfl
@[simp] theorem State.irqBits_lanes (s : State) (g : Nat) (b : Word) : (s.irqBits g b).lanes = s.lanes := by unfold State.irqBits; split <;> rfl
@[simp] theorem State.irqBits_routes (s : State) (g : Nat) (b : Word) : (s.irqBits g b).routes = s.routes := by unfold State.irqBits; split <;> rfl
@[simp] theorem State.irqBits_launch (s : State) (g : Nat) (b : Word) : (s.irqBits g b).launch = s.launch := by unfold State.irqBits; split <;> rfl
@[simp] theorem State.irqBits_ledger (s : State) (g : Nat) (b : Word) : (s.irqBits g b).ledger = s.ledger := by unfold State.irqBits; split <;> rfl
@[simp] theorem State.irqBits_arms (s : State) (g : Nat) (b : Word) : (s.irqBits g b).arms = s.arms := by unfold State.irqBits; split <;> rfl
@[simp] theorem State.irqBits_sel (s : State) (g : Nat) (b : Word) : (s.irqBits g b).sel = s.sel := by unfold State.irqBits; split <;> rfl
@[simp] theorem State.irqBits_cup (s : State) (g : Nat) (b : Word) : (s.irqBits g b).cup = s.cup := by unfold State.irqBits; split <;> rfl
@[simp] theorem State.irqBits_sched (s : State) (g : Nat) (b : Word) : (s.irqBits g b).sched = s.sched := by unfold State.irqBits; split <;> rfl
@[simp] theorem State.irqBits_aids (s : State) (g : Nat) (b : Word) : (s.irqBits g b).aids = s.aids := by unfold State.irqBits; split <;> rfl
@[simp] theorem State.irqBits_time (s : State) (g : Nat) (b : Word) : (s.irqBits g b).time = s.time := by unfold State.irqBits; split <;> rfl
@[simp] theorem State.irqBits_phasor (s : State) (g : Nat) (b : Word) : (s.irqBits g b).phasor = s.phasor := by unfold State.irqBits; split <;> rfl
@[simp] theorem State.irqBits_wave (s : State) (g : Nat) (b : Word) : (s.irqBits g b).wave = s.wave := by unfold State.irqBits; split <;> rfl
@[simp] theorem State.irqBits_acq (s : State) (g : Nat) (b : Word) : (s.irqBits g b).acq = s.acq := by unfold State.irqBits; split <;> rfl
@[simp] theorem State.irqBits_adc (s : State) (g : Nat) (b : Word) : (s.irqBits g b).adc = s.adc := by unfold State.irqBits; split <;> rfl
@[simp] theorem State.irqBits_pwm (s : State) (g : Nat) (b : Word) : (s.irqBits g b).pwm = s.pwm := by unfold State.irqBits; split <;> rfl
@[simp] theorem State.irqBits_wt (s : State) (g : Nat) (b : Word) : (s.irqBits g b).wt = s.wt := by unfold State.irqBits; split <;> rfl
@[simp] theorem State.irqBits_pair (s : State) (g : Nat) (b : Word) : (s.irqBits g b).pair = s.pair := by unfold State.irqBits; split <;> rfl
@[simp] theorem State.irqBits_fault (s : State) (g : Nat) (b : Word) : (s.irqBits g b).fault = s.fault := by unfold State.irqBits; split <;> rfl
@[simp] theorem State.irqBits_mem (s : State) (g : Nat) (b : Word) : (s.irqBits g b).mem = s.mem := by unfold State.irqBits; split <;> rfl
@[simp] theorem State.irqBits_jrn (s : State) (g : Nat) (b : Word) : (s.irqBits g b).jrn = s.jrn := by unfold State.irqBits; split <;> rfl
@[simp] theorem State.irqBits_dict (s : State) (g : Nat) (b : Word) : (s.irqBits g b).dict = s.dict := by unfold State.irqBits; split <;> rfl
@[simp] theorem State.irqBits_power (s : State) (g : Nat) (b : Word) : (s.irqBits g b).power = s.power := by unfold State.irqBits; split <;> rfl
@[simp] theorem State.irqBits_jtag (s : State) (g : Nat) (b : Word) : (s.irqBits g b).jtag = s.jtag := by unfold State.irqBits; split <;> rfl
@[simp] theorem State.irqBits_samples (s : State) (g : Nat) (b : Word) : (s.irqBits g b).samples = s.samples := by unfold State.irqBits; split <;> rfl
@[simp] theorem State.irqEdge_pending (s : State) (g b : Nat) : (s.irqEdge g b).pending = s.pending := by exact State.irqBits_pending s g _
@[simp] theorem State.irqEdge_live (s : State) (g b : Nat) : (s.irqEdge g b).live = s.live := by exact State.irqBits_live s g _
@[simp] theorem State.irqEdge_act (s : State) (g b : Nat) : (s.irqEdge g b).act = s.act := by exact State.irqBits_act s g _
@[simp] theorem State.irqEdge_stg (s : State) (g b : Nat) : (s.irqEdge g b).stg = s.stg := by exact State.irqBits_stg s g _
@[simp] theorem State.irqEdge_kAct (s : State) (g b : Nat) : (s.irqEdge g b).kAct = s.kAct := by exact State.irqBits_kAct s g _
@[simp] theorem State.irqEdge_kStg (s : State) (g b : Nat) : (s.irqEdge g b).kStg = s.kStg := by exact State.irqBits_kStg s g _
@[simp] theorem State.irqEdge_sram (s : State) (g b : Nat) : (s.irqEdge g b).sram = s.sram := by exact State.irqBits_sram s g _
@[simp] theorem State.irqEdge_flash (s : State) (g b : Nat) : (s.irqEdge g b).flash = s.flash := by exact State.irqBits_flash s g _
@[simp] theorem State.irqEdge_free (s : State) (g b : Nat) : (s.irqEdge g b).free = s.free := by exact State.irqBits_free s g _
@[simp] theorem State.irqEdge_mode (s : State) (g b : Nat) : (s.irqEdge g b).mode = s.mode := by exact State.irqBits_mode s g _
@[simp] theorem State.irqEdge_boot (s : State) (g b : Nat) : (s.irqEdge g b).boot = s.boot := by exact State.irqBits_boot s g _
@[simp] theorem State.irqEdge_commit (s : State) (g b : Nat) : (s.irqEdge g b).commit = s.commit := by exact State.irqBits_commit s g _
@[simp] theorem State.irqEdge_img (s : State) (g b : Nat) : (s.irqEdge g b).img = s.img := by exact State.irqBits_img s g _
@[simp] theorem State.irqEdge_frame (s : State) (g b : Nat) : (s.irqEdge g b).frame = s.frame := by exact State.irqBits_frame s g _
@[simp] theorem State.irqEdge_modes (s : State) (g b : Nat) : (s.irqEdge g b).modes = s.modes := by exact State.irqBits_modes s g _
@[simp] theorem State.irqEdge_lanes (s : State) (g b : Nat) : (s.irqEdge g b).lanes = s.lanes := by exact State.irqBits_lanes s g _
@[simp] theorem State.irqEdge_routes (s : State) (g b : Nat) : (s.irqEdge g b).routes = s.routes := by exact State.irqBits_routes s g _
@[simp] theorem State.irqEdge_launch (s : State) (g b : Nat) : (s.irqEdge g b).launch = s.launch := by exact State.irqBits_launch s g _
@[simp] theorem State.irqEdge_ledger (s : State) (g b : Nat) : (s.irqEdge g b).ledger = s.ledger := by exact State.irqBits_ledger s g _
@[simp] theorem State.irqEdge_arms (s : State) (g b : Nat) : (s.irqEdge g b).arms = s.arms := by exact State.irqBits_arms s g _
@[simp] theorem State.irqEdge_sel (s : State) (g b : Nat) : (s.irqEdge g b).sel = s.sel := by exact State.irqBits_sel s g _
@[simp] theorem State.irqEdge_cup (s : State) (g b : Nat) : (s.irqEdge g b).cup = s.cup := by exact State.irqBits_cup s g _
@[simp] theorem State.irqEdge_sched (s : State) (g b : Nat) : (s.irqEdge g b).sched = s.sched := by exact State.irqBits_sched s g _
@[simp] theorem State.irqEdge_aids (s : State) (g b : Nat) : (s.irqEdge g b).aids = s.aids := by exact State.irqBits_aids s g _
@[simp] theorem State.irqEdge_time (s : State) (g b : Nat) : (s.irqEdge g b).time = s.time := by exact State.irqBits_time s g _
@[simp] theorem State.irqEdge_phasor (s : State) (g b : Nat) : (s.irqEdge g b).phasor = s.phasor := by exact State.irqBits_phasor s g _
@[simp] theorem State.irqEdge_wave (s : State) (g b : Nat) : (s.irqEdge g b).wave = s.wave := by exact State.irqBits_wave s g _
@[simp] theorem State.irqEdge_acq (s : State) (g b : Nat) : (s.irqEdge g b).acq = s.acq := by exact State.irqBits_acq s g _
@[simp] theorem State.irqEdge_adc (s : State) (g b : Nat) : (s.irqEdge g b).adc = s.adc := by exact State.irqBits_adc s g _
@[simp] theorem State.irqEdge_pwm (s : State) (g b : Nat) : (s.irqEdge g b).pwm = s.pwm := by exact State.irqBits_pwm s g _
@[simp] theorem State.irqEdge_wt (s : State) (g b : Nat) : (s.irqEdge g b).wt = s.wt := by exact State.irqBits_wt s g _
@[simp] theorem State.irqEdge_pair (s : State) (g b : Nat) : (s.irqEdge g b).pair = s.pair := by exact State.irqBits_pair s g _
@[simp] theorem State.irqEdge_fault (s : State) (g b : Nat) : (s.irqEdge g b).fault = s.fault := by exact State.irqBits_fault s g _
@[simp] theorem State.irqEdge_mem (s : State) (g b : Nat) : (s.irqEdge g b).mem = s.mem := by exact State.irqBits_mem s g _
@[simp] theorem State.irqEdge_jrn (s : State) (g b : Nat) : (s.irqEdge g b).jrn = s.jrn := by exact State.irqBits_jrn s g _
@[simp] theorem State.irqEdge_dict (s : State) (g b : Nat) : (s.irqEdge g b).dict = s.dict := by exact State.irqBits_dict s g _
@[simp] theorem State.irqEdge_power (s : State) (g b : Nat) : (s.irqEdge g b).power = s.power := by exact State.irqBits_power s g _
@[simp] theorem State.irqEdge_jtag (s : State) (g b : Nat) : (s.irqEdge g b).jtag = s.jtag := by exact State.irqBits_jtag s g _
@[simp] theorem State.irqEdge_samples (s : State) (g b : Nat) : (s.irqEdge g b).samples = s.samples := by exact State.irqBits_samples s g _
@[simp] theorem State.irqIf_pending (s : State) (c : Bool) (g b : Nat) : (s.irqIf c g b).pending = s.pending := by unfold State.irqIf; split; exact State.irqEdge_pending s g b; rfl
@[simp] theorem State.irqIf_live (s : State) (c : Bool) (g b : Nat) : (s.irqIf c g b).live = s.live := by unfold State.irqIf; split; exact State.irqEdge_live s g b; rfl
@[simp] theorem State.irqIf_act (s : State) (c : Bool) (g b : Nat) : (s.irqIf c g b).act = s.act := by unfold State.irqIf; split; exact State.irqEdge_act s g b; rfl
@[simp] theorem State.irqIf_stg (s : State) (c : Bool) (g b : Nat) : (s.irqIf c g b).stg = s.stg := by unfold State.irqIf; split; exact State.irqEdge_stg s g b; rfl
@[simp] theorem State.irqIf_kAct (s : State) (c : Bool) (g b : Nat) : (s.irqIf c g b).kAct = s.kAct := by unfold State.irqIf; split; exact State.irqEdge_kAct s g b; rfl
@[simp] theorem State.irqIf_kStg (s : State) (c : Bool) (g b : Nat) : (s.irqIf c g b).kStg = s.kStg := by unfold State.irqIf; split; exact State.irqEdge_kStg s g b; rfl
@[simp] theorem State.irqIf_sram (s : State) (c : Bool) (g b : Nat) : (s.irqIf c g b).sram = s.sram := by unfold State.irqIf; split; exact State.irqEdge_sram s g b; rfl
@[simp] theorem State.irqIf_flash (s : State) (c : Bool) (g b : Nat) : (s.irqIf c g b).flash = s.flash := by unfold State.irqIf; split; exact State.irqEdge_flash s g b; rfl
@[simp] theorem State.irqIf_free (s : State) (c : Bool) (g b : Nat) : (s.irqIf c g b).free = s.free := by unfold State.irqIf; split; exact State.irqEdge_free s g b; rfl
@[simp] theorem State.irqIf_mode (s : State) (c : Bool) (g b : Nat) : (s.irqIf c g b).mode = s.mode := by unfold State.irqIf; split; exact State.irqEdge_mode s g b; rfl
@[simp] theorem State.irqIf_boot (s : State) (c : Bool) (g b : Nat) : (s.irqIf c g b).boot = s.boot := by unfold State.irqIf; split; exact State.irqEdge_boot s g b; rfl
@[simp] theorem State.irqIf_commit (s : State) (c : Bool) (g b : Nat) : (s.irqIf c g b).commit = s.commit := by unfold State.irqIf; split; exact State.irqEdge_commit s g b; rfl
@[simp] theorem State.irqIf_img (s : State) (c : Bool) (g b : Nat) : (s.irqIf c g b).img = s.img := by unfold State.irqIf; split; exact State.irqEdge_img s g b; rfl
@[simp] theorem State.irqIf_frame (s : State) (c : Bool) (g b : Nat) : (s.irqIf c g b).frame = s.frame := by unfold State.irqIf; split; exact State.irqEdge_frame s g b; rfl
@[simp] theorem State.irqIf_modes (s : State) (c : Bool) (g b : Nat) : (s.irqIf c g b).modes = s.modes := by unfold State.irqIf; split; exact State.irqEdge_modes s g b; rfl
@[simp] theorem State.irqIf_lanes (s : State) (c : Bool) (g b : Nat) : (s.irqIf c g b).lanes = s.lanes := by unfold State.irqIf; split; exact State.irqEdge_lanes s g b; rfl
@[simp] theorem State.irqIf_routes (s : State) (c : Bool) (g b : Nat) : (s.irqIf c g b).routes = s.routes := by unfold State.irqIf; split; exact State.irqEdge_routes s g b; rfl
@[simp] theorem State.irqIf_launch (s : State) (c : Bool) (g b : Nat) : (s.irqIf c g b).launch = s.launch := by unfold State.irqIf; split; exact State.irqEdge_launch s g b; rfl
@[simp] theorem State.irqIf_ledger (s : State) (c : Bool) (g b : Nat) : (s.irqIf c g b).ledger = s.ledger := by unfold State.irqIf; split; exact State.irqEdge_ledger s g b; rfl
@[simp] theorem State.irqIf_arms (s : State) (c : Bool) (g b : Nat) : (s.irqIf c g b).arms = s.arms := by unfold State.irqIf; split; exact State.irqEdge_arms s g b; rfl
@[simp] theorem State.irqIf_sel (s : State) (c : Bool) (g b : Nat) : (s.irqIf c g b).sel = s.sel := by unfold State.irqIf; split; exact State.irqEdge_sel s g b; rfl
@[simp] theorem State.irqIf_cup (s : State) (c : Bool) (g b : Nat) : (s.irqIf c g b).cup = s.cup := by unfold State.irqIf; split; exact State.irqEdge_cup s g b; rfl
@[simp] theorem State.irqIf_sched (s : State) (c : Bool) (g b : Nat) : (s.irqIf c g b).sched = s.sched := by unfold State.irqIf; split; exact State.irqEdge_sched s g b; rfl
@[simp] theorem State.irqIf_aids (s : State) (c : Bool) (g b : Nat) : (s.irqIf c g b).aids = s.aids := by unfold State.irqIf; split; exact State.irqEdge_aids s g b; rfl
@[simp] theorem State.irqIf_time (s : State) (c : Bool) (g b : Nat) : (s.irqIf c g b).time = s.time := by unfold State.irqIf; split; exact State.irqEdge_time s g b; rfl
@[simp] theorem State.irqIf_phasor (s : State) (c : Bool) (g b : Nat) : (s.irqIf c g b).phasor = s.phasor := by unfold State.irqIf; split; exact State.irqEdge_phasor s g b; rfl
@[simp] theorem State.irqIf_wave (s : State) (c : Bool) (g b : Nat) : (s.irqIf c g b).wave = s.wave := by unfold State.irqIf; split; exact State.irqEdge_wave s g b; rfl
@[simp] theorem State.irqIf_acq (s : State) (c : Bool) (g b : Nat) : (s.irqIf c g b).acq = s.acq := by unfold State.irqIf; split; exact State.irqEdge_acq s g b; rfl
@[simp] theorem State.irqIf_adc (s : State) (c : Bool) (g b : Nat) : (s.irqIf c g b).adc = s.adc := by unfold State.irqIf; split; exact State.irqEdge_adc s g b; rfl
@[simp] theorem State.irqIf_pwm (s : State) (c : Bool) (g b : Nat) : (s.irqIf c g b).pwm = s.pwm := by unfold State.irqIf; split; exact State.irqEdge_pwm s g b; rfl
@[simp] theorem State.irqIf_wt (s : State) (c : Bool) (g b : Nat) : (s.irqIf c g b).wt = s.wt := by unfold State.irqIf; split; exact State.irqEdge_wt s g b; rfl
@[simp] theorem State.irqIf_pair (s : State) (c : Bool) (g b : Nat) : (s.irqIf c g b).pair = s.pair := by unfold State.irqIf; split; exact State.irqEdge_pair s g b; rfl
@[simp] theorem State.irqIf_fault (s : State) (c : Bool) (g b : Nat) : (s.irqIf c g b).fault = s.fault := by unfold State.irqIf; split; exact State.irqEdge_fault s g b; rfl
@[simp] theorem State.irqIf_mem (s : State) (c : Bool) (g b : Nat) : (s.irqIf c g b).mem = s.mem := by unfold State.irqIf; split; exact State.irqEdge_mem s g b; rfl
@[simp] theorem State.irqIf_jrn (s : State) (c : Bool) (g b : Nat) : (s.irqIf c g b).jrn = s.jrn := by unfold State.irqIf; split; exact State.irqEdge_jrn s g b; rfl
@[simp] theorem State.irqIf_dict (s : State) (c : Bool) (g b : Nat) : (s.irqIf c g b).dict = s.dict := by unfold State.irqIf; split; exact State.irqEdge_dict s g b; rfl
@[simp] theorem State.irqIf_power (s : State) (c : Bool) (g b : Nat) : (s.irqIf c g b).power = s.power := by unfold State.irqIf; split; exact State.irqEdge_power s g b; rfl
@[simp] theorem State.irqIf_jtag (s : State) (c : Bool) (g b : Nat) : (s.irqIf c g b).jtag = s.jtag := by unfold State.irqIf; split; exact State.irqEdge_jtag s g b; rfl
@[simp] theorem State.irqIf_samples (s : State) (c : Bool) (g b : Nat) : (s.irqIf c g b).samples = s.samples := by unfold State.irqIf; split; exact State.irqEdge_samples s g b; rfl
@[simp] theorem State.irqLevel_pending (s : State) (g b : Nat) (c : Bool) : (s.irqLevel g b c).pending = s.pending := by unfold State.irqLevel; dsimp only; split; exact State.irqEdge_pending _ g b; rfl
@[simp] theorem State.irqLevel_live (s : State) (g b : Nat) (c : Bool) : (s.irqLevel g b c).live = s.live := by unfold State.irqLevel; dsimp only; split; exact State.irqEdge_live _ g b; rfl
@[simp] theorem State.irqLevel_act (s : State) (g b : Nat) (c : Bool) : (s.irqLevel g b c).act = s.act := by unfold State.irqLevel; dsimp only; split; exact State.irqEdge_act _ g b; rfl
@[simp] theorem State.irqLevel_stg (s : State) (g b : Nat) (c : Bool) : (s.irqLevel g b c).stg = s.stg := by unfold State.irqLevel; dsimp only; split; exact State.irqEdge_stg _ g b; rfl
@[simp] theorem State.irqLevel_kAct (s : State) (g b : Nat) (c : Bool) : (s.irqLevel g b c).kAct = s.kAct := by unfold State.irqLevel; dsimp only; split; exact State.irqEdge_kAct _ g b; rfl
@[simp] theorem State.irqLevel_kStg (s : State) (g b : Nat) (c : Bool) : (s.irqLevel g b c).kStg = s.kStg := by unfold State.irqLevel; dsimp only; split; exact State.irqEdge_kStg _ g b; rfl
@[simp] theorem State.irqLevel_sram (s : State) (g b : Nat) (c : Bool) : (s.irqLevel g b c).sram = s.sram := by unfold State.irqLevel; dsimp only; split; exact State.irqEdge_sram _ g b; rfl
@[simp] theorem State.irqLevel_flash (s : State) (g b : Nat) (c : Bool) : (s.irqLevel g b c).flash = s.flash := by unfold State.irqLevel; dsimp only; split; exact State.irqEdge_flash _ g b; rfl
@[simp] theorem State.irqLevel_free (s : State) (g b : Nat) (c : Bool) : (s.irqLevel g b c).free = s.free := by unfold State.irqLevel; dsimp only; split; exact State.irqEdge_free _ g b; rfl
@[simp] theorem State.irqLevel_mode (s : State) (g b : Nat) (c : Bool) : (s.irqLevel g b c).mode = s.mode := by unfold State.irqLevel; dsimp only; split; exact State.irqEdge_mode _ g b; rfl
@[simp] theorem State.irqLevel_boot (s : State) (g b : Nat) (c : Bool) : (s.irqLevel g b c).boot = s.boot := by unfold State.irqLevel; dsimp only; split; exact State.irqEdge_boot _ g b; rfl
@[simp] theorem State.irqLevel_commit (s : State) (g b : Nat) (c : Bool) : (s.irqLevel g b c).commit = s.commit := by unfold State.irqLevel; dsimp only; split; exact State.irqEdge_commit _ g b; rfl
@[simp] theorem State.irqLevel_img (s : State) (g b : Nat) (c : Bool) : (s.irqLevel g b c).img = s.img := by unfold State.irqLevel; dsimp only; split; exact State.irqEdge_img _ g b; rfl
@[simp] theorem State.irqLevel_frame (s : State) (g b : Nat) (c : Bool) : (s.irqLevel g b c).frame = s.frame := by unfold State.irqLevel; dsimp only; split; exact State.irqEdge_frame _ g b; rfl
@[simp] theorem State.irqLevel_modes (s : State) (g b : Nat) (c : Bool) : (s.irqLevel g b c).modes = s.modes := by unfold State.irqLevel; dsimp only; split; exact State.irqEdge_modes _ g b; rfl
@[simp] theorem State.irqLevel_lanes (s : State) (g b : Nat) (c : Bool) : (s.irqLevel g b c).lanes = s.lanes := by unfold State.irqLevel; dsimp only; split; exact State.irqEdge_lanes _ g b; rfl
@[simp] theorem State.irqLevel_routes (s : State) (g b : Nat) (c : Bool) : (s.irqLevel g b c).routes = s.routes := by unfold State.irqLevel; dsimp only; split; exact State.irqEdge_routes _ g b; rfl
@[simp] theorem State.irqLevel_launch (s : State) (g b : Nat) (c : Bool) : (s.irqLevel g b c).launch = s.launch := by unfold State.irqLevel; dsimp only; split; exact State.irqEdge_launch _ g b; rfl
@[simp] theorem State.irqLevel_ledger (s : State) (g b : Nat) (c : Bool) : (s.irqLevel g b c).ledger = s.ledger := by unfold State.irqLevel; dsimp only; split; exact State.irqEdge_ledger _ g b; rfl
@[simp] theorem State.irqLevel_arms (s : State) (g b : Nat) (c : Bool) : (s.irqLevel g b c).arms = s.arms := by unfold State.irqLevel; dsimp only; split; exact State.irqEdge_arms _ g b; rfl
@[simp] theorem State.irqLevel_sel (s : State) (g b : Nat) (c : Bool) : (s.irqLevel g b c).sel = s.sel := by unfold State.irqLevel; dsimp only; split; exact State.irqEdge_sel _ g b; rfl
@[simp] theorem State.irqLevel_cup (s : State) (g b : Nat) (c : Bool) : (s.irqLevel g b c).cup = s.cup := by unfold State.irqLevel; dsimp only; split; exact State.irqEdge_cup _ g b; rfl
@[simp] theorem State.irqLevel_sched (s : State) (g b : Nat) (c : Bool) : (s.irqLevel g b c).sched = s.sched := by unfold State.irqLevel; dsimp only; split; exact State.irqEdge_sched _ g b; rfl
@[simp] theorem State.irqLevel_aids (s : State) (g b : Nat) (c : Bool) : (s.irqLevel g b c).aids = s.aids := by unfold State.irqLevel; dsimp only; split; exact State.irqEdge_aids _ g b; rfl
@[simp] theorem State.irqLevel_time (s : State) (g b : Nat) (c : Bool) : (s.irqLevel g b c).time = s.time := by unfold State.irqLevel; dsimp only; split; exact State.irqEdge_time _ g b; rfl
@[simp] theorem State.irqLevel_phasor (s : State) (g b : Nat) (c : Bool) : (s.irqLevel g b c).phasor = s.phasor := by unfold State.irqLevel; dsimp only; split; exact State.irqEdge_phasor _ g b; rfl
@[simp] theorem State.irqLevel_wave (s : State) (g b : Nat) (c : Bool) : (s.irqLevel g b c).wave = s.wave := by unfold State.irqLevel; dsimp only; split; exact State.irqEdge_wave _ g b; rfl
@[simp] theorem State.irqLevel_acq (s : State) (g b : Nat) (c : Bool) : (s.irqLevel g b c).acq = s.acq := by unfold State.irqLevel; dsimp only; split; exact State.irqEdge_acq _ g b; rfl
@[simp] theorem State.irqLevel_adc (s : State) (g b : Nat) (c : Bool) : (s.irqLevel g b c).adc = s.adc := by unfold State.irqLevel; dsimp only; split; exact State.irqEdge_adc _ g b; rfl
@[simp] theorem State.irqLevel_pwm (s : State) (g b : Nat) (c : Bool) : (s.irqLevel g b c).pwm = s.pwm := by unfold State.irqLevel; dsimp only; split; exact State.irqEdge_pwm _ g b; rfl
@[simp] theorem State.irqLevel_wt (s : State) (g b : Nat) (c : Bool) : (s.irqLevel g b c).wt = s.wt := by unfold State.irqLevel; dsimp only; split; exact State.irqEdge_wt _ g b; rfl
@[simp] theorem State.irqLevel_pair (s : State) (g b : Nat) (c : Bool) : (s.irqLevel g b c).pair = s.pair := by unfold State.irqLevel; dsimp only; split; exact State.irqEdge_pair _ g b; rfl
@[simp] theorem State.irqLevel_fault (s : State) (g b : Nat) (c : Bool) : (s.irqLevel g b c).fault = s.fault := by unfold State.irqLevel; dsimp only; split; exact State.irqEdge_fault _ g b; rfl
@[simp] theorem State.irqLevel_mem (s : State) (g b : Nat) (c : Bool) : (s.irqLevel g b c).mem = s.mem := by unfold State.irqLevel; dsimp only; split; exact State.irqEdge_mem _ g b; rfl
@[simp] theorem State.irqLevel_jrn (s : State) (g b : Nat) (c : Bool) : (s.irqLevel g b c).jrn = s.jrn := by unfold State.irqLevel; dsimp only; split; exact State.irqEdge_jrn _ g b; rfl
@[simp] theorem State.irqLevel_dict (s : State) (g b : Nat) (c : Bool) : (s.irqLevel g b c).dict = s.dict := by unfold State.irqLevel; dsimp only; split; exact State.irqEdge_dict _ g b; rfl
@[simp] theorem State.irqLevel_power (s : State) (g b : Nat) (c : Bool) : (s.irqLevel g b c).power = s.power := by unfold State.irqLevel; dsimp only; split; exact State.irqEdge_power _ g b; rfl
@[simp] theorem State.irqLevel_jtag (s : State) (g b : Nat) (c : Bool) : (s.irqLevel g b c).jtag = s.jtag := by unfold State.irqLevel; dsimp only; split; exact State.irqEdge_jtag _ g b; rfl
@[simp] theorem State.irqLevel_samples (s : State) (g b : Nat) (c : Bool) : (s.irqLevel g b c).samples = s.samples := by unfold State.irqLevel; dsimp only; split; exact State.irqEdge_samples _ g b; rfl
@[simp] theorem State.setReadLatch_pending (s : State) (p : Path) (x : Option (Nat × Word)) : (s.setReadLatch p x).pending = s.pending := by cases p <;> rfl
@[simp] theorem State.setReadLatch_live (s : State) (p : Path) (x : Option (Nat × Word)) : (s.setReadLatch p x).live = s.live := by cases p <;> rfl
@[simp] theorem State.setReadLatch_act (s : State) (p : Path) (x : Option (Nat × Word)) : (s.setReadLatch p x).act = s.act := by cases p <;> rfl
@[simp] theorem State.setReadLatch_stg (s : State) (p : Path) (x : Option (Nat × Word)) : (s.setReadLatch p x).stg = s.stg := by cases p <;> rfl
@[simp] theorem State.setReadLatch_kAct (s : State) (p : Path) (x : Option (Nat × Word)) : (s.setReadLatch p x).kAct = s.kAct := by cases p <;> rfl
@[simp] theorem State.setReadLatch_kStg (s : State) (p : Path) (x : Option (Nat × Word)) : (s.setReadLatch p x).kStg = s.kStg := by cases p <;> rfl
@[simp] theorem State.setReadLatch_sram (s : State) (p : Path) (x : Option (Nat × Word)) : (s.setReadLatch p x).sram = s.sram := by cases p <;> rfl
@[simp] theorem State.setReadLatch_flash (s : State) (p : Path) (x : Option (Nat × Word)) : (s.setReadLatch p x).flash = s.flash := by cases p <;> rfl
@[simp] theorem State.setReadLatch_free (s : State) (p : Path) (x : Option (Nat × Word)) : (s.setReadLatch p x).free = s.free := by cases p <;> rfl
@[simp] theorem State.setReadLatch_mode (s : State) (p : Path) (x : Option (Nat × Word)) : (s.setReadLatch p x).mode = s.mode := by cases p <;> rfl
@[simp] theorem State.setReadLatch_boot (s : State) (p : Path) (x : Option (Nat × Word)) : (s.setReadLatch p x).boot = s.boot := by cases p <;> rfl
@[simp] theorem State.setReadLatch_commit (s : State) (p : Path) (x : Option (Nat × Word)) : (s.setReadLatch p x).commit = s.commit := by cases p <;> rfl
@[simp] theorem State.setReadLatch_img (s : State) (p : Path) (x : Option (Nat × Word)) : (s.setReadLatch p x).img = s.img := by cases p <;> rfl
@[simp] theorem State.setReadLatch_frame (s : State) (p : Path) (x : Option (Nat × Word)) : (s.setReadLatch p x).frame = s.frame := by cases p <;> rfl
@[simp] theorem State.setReadLatch_modes (s : State) (p : Path) (x : Option (Nat × Word)) : (s.setReadLatch p x).modes = s.modes := by cases p <;> rfl
@[simp] theorem State.setReadLatch_lanes (s : State) (p : Path) (x : Option (Nat × Word)) : (s.setReadLatch p x).lanes = s.lanes := by cases p <;> rfl
@[simp] theorem State.setReadLatch_routes (s : State) (p : Path) (x : Option (Nat × Word)) : (s.setReadLatch p x).routes = s.routes := by cases p <;> rfl
@[simp] theorem State.setReadLatch_launch (s : State) (p : Path) (x : Option (Nat × Word)) : (s.setReadLatch p x).launch = s.launch := by cases p <;> rfl
@[simp] theorem State.setReadLatch_ledger (s : State) (p : Path) (x : Option (Nat × Word)) : (s.setReadLatch p x).ledger = s.ledger := by cases p <;> rfl
@[simp] theorem State.setReadLatch_arms (s : State) (p : Path) (x : Option (Nat × Word)) : (s.setReadLatch p x).arms = s.arms := by cases p <;> rfl
@[simp] theorem State.setReadLatch_sel (s : State) (p : Path) (x : Option (Nat × Word)) : (s.setReadLatch p x).sel = s.sel := by cases p <;> rfl
@[simp] theorem State.setReadLatch_sched (s : State) (p : Path) (x : Option (Nat × Word)) : (s.setReadLatch p x).sched = s.sched := by cases p <;> rfl
@[simp] theorem State.setReadLatch_aids (s : State) (p : Path) (x : Option (Nat × Word)) : (s.setReadLatch p x).aids = s.aids := by cases p <;> rfl
@[simp] theorem State.setReadLatch_time (s : State) (p : Path) (x : Option (Nat × Word)) : (s.setReadLatch p x).time = s.time := by cases p <;> rfl
@[simp] theorem State.setReadLatch_phasor (s : State) (p : Path) (x : Option (Nat × Word)) : (s.setReadLatch p x).phasor = s.phasor := by cases p <;> rfl
@[simp] theorem State.setReadLatch_wave (s : State) (p : Path) (x : Option (Nat × Word)) : (s.setReadLatch p x).wave = s.wave := by cases p <;> rfl
@[simp] theorem State.setReadLatch_acq (s : State) (p : Path) (x : Option (Nat × Word)) : (s.setReadLatch p x).acq = s.acq := by cases p <;> rfl
@[simp] theorem State.setReadLatch_adc (s : State) (p : Path) (x : Option (Nat × Word)) : (s.setReadLatch p x).adc = s.adc := by cases p <;> rfl
@[simp] theorem State.setReadLatch_pwm (s : State) (p : Path) (x : Option (Nat × Word)) : (s.setReadLatch p x).pwm = s.pwm := by cases p <;> rfl
@[simp] theorem State.setReadLatch_wt (s : State) (p : Path) (x : Option (Nat × Word)) : (s.setReadLatch p x).wt = s.wt := by cases p <;> rfl
@[simp] theorem State.setReadLatch_pair (s : State) (p : Path) (x : Option (Nat × Word)) : (s.setReadLatch p x).pair = s.pair := by cases p <;> rfl
@[simp] theorem State.setReadLatch_fault (s : State) (p : Path) (x : Option (Nat × Word)) : (s.setReadLatch p x).fault = s.fault := by cases p <;> rfl
@[simp] theorem State.setReadLatch_mem (s : State) (p : Path) (x : Option (Nat × Word)) : (s.setReadLatch p x).mem = s.mem := by cases p <;> rfl
@[simp] theorem State.setReadLatch_irq (s : State) (p : Path) (x : Option (Nat × Word)) : (s.setReadLatch p x).irq = s.irq := by cases p <;> rfl
@[simp] theorem State.setReadLatch_jrn (s : State) (p : Path) (x : Option (Nat × Word)) : (s.setReadLatch p x).jrn = s.jrn := by cases p <;> rfl
@[simp] theorem State.setReadLatch_power (s : State) (p : Path) (x : Option (Nat × Word)) : (s.setReadLatch p x).power = s.power := by cases p <;> rfl
@[simp] theorem State.setReadLatch_jtag (s : State) (p : Path) (x : Option (Nat × Word)) : (s.setReadLatch p x).jtag = s.jtag := by cases p <;> rfl
@[simp] theorem State.setReadLatch_samples (s : State) (p : Path) (x : Option (Nat × Word)) : (s.setReadLatch p x).samples = s.samples := by cases p <;> rfl
@[simp] theorem State.latchHigh_pending (s : State) (p : Path) (k : Nat) (v : Word) : (s.latchHigh p k v).pending = s.pending := by exact State.setReadLatch_pending s p _
@[simp] theorem State.latchHigh_live (s : State) (p : Path) (k : Nat) (v : Word) : (s.latchHigh p k v).live = s.live := by exact State.setReadLatch_live s p _
@[simp] theorem State.latchHigh_act (s : State) (p : Path) (k : Nat) (v : Word) : (s.latchHigh p k v).act = s.act := by exact State.setReadLatch_act s p _
@[simp] theorem State.latchHigh_stg (s : State) (p : Path) (k : Nat) (v : Word) : (s.latchHigh p k v).stg = s.stg := by exact State.setReadLatch_stg s p _
@[simp] theorem State.latchHigh_kAct (s : State) (p : Path) (k : Nat) (v : Word) : (s.latchHigh p k v).kAct = s.kAct := by exact State.setReadLatch_kAct s p _
@[simp] theorem State.latchHigh_kStg (s : State) (p : Path) (k : Nat) (v : Word) : (s.latchHigh p k v).kStg = s.kStg := by exact State.setReadLatch_kStg s p _
@[simp] theorem State.latchHigh_sram (s : State) (p : Path) (k : Nat) (v : Word) : (s.latchHigh p k v).sram = s.sram := by exact State.setReadLatch_sram s p _
@[simp] theorem State.latchHigh_flash (s : State) (p : Path) (k : Nat) (v : Word) : (s.latchHigh p k v).flash = s.flash := by exact State.setReadLatch_flash s p _
@[simp] theorem State.latchHigh_free (s : State) (p : Path) (k : Nat) (v : Word) : (s.latchHigh p k v).free = s.free := by exact State.setReadLatch_free s p _
@[simp] theorem State.latchHigh_mode (s : State) (p : Path) (k : Nat) (v : Word) : (s.latchHigh p k v).mode = s.mode := by exact State.setReadLatch_mode s p _
@[simp] theorem State.latchHigh_boot (s : State) (p : Path) (k : Nat) (v : Word) : (s.latchHigh p k v).boot = s.boot := by exact State.setReadLatch_boot s p _
@[simp] theorem State.latchHigh_commit (s : State) (p : Path) (k : Nat) (v : Word) : (s.latchHigh p k v).commit = s.commit := by exact State.setReadLatch_commit s p _
@[simp] theorem State.latchHigh_img (s : State) (p : Path) (k : Nat) (v : Word) : (s.latchHigh p k v).img = s.img := by exact State.setReadLatch_img s p _
@[simp] theorem State.latchHigh_frame (s : State) (p : Path) (k : Nat) (v : Word) : (s.latchHigh p k v).frame = s.frame := by exact State.setReadLatch_frame s p _
@[simp] theorem State.latchHigh_modes (s : State) (p : Path) (k : Nat) (v : Word) : (s.latchHigh p k v).modes = s.modes := by exact State.setReadLatch_modes s p _
@[simp] theorem State.latchHigh_lanes (s : State) (p : Path) (k : Nat) (v : Word) : (s.latchHigh p k v).lanes = s.lanes := by exact State.setReadLatch_lanes s p _
@[simp] theorem State.latchHigh_routes (s : State) (p : Path) (k : Nat) (v : Word) : (s.latchHigh p k v).routes = s.routes := by exact State.setReadLatch_routes s p _
@[simp] theorem State.latchHigh_launch (s : State) (p : Path) (k : Nat) (v : Word) : (s.latchHigh p k v).launch = s.launch := by exact State.setReadLatch_launch s p _
@[simp] theorem State.latchHigh_ledger (s : State) (p : Path) (k : Nat) (v : Word) : (s.latchHigh p k v).ledger = s.ledger := by exact State.setReadLatch_ledger s p _
@[simp] theorem State.latchHigh_arms (s : State) (p : Path) (k : Nat) (v : Word) : (s.latchHigh p k v).arms = s.arms := by exact State.setReadLatch_arms s p _
@[simp] theorem State.latchHigh_sel (s : State) (p : Path) (k : Nat) (v : Word) : (s.latchHigh p k v).sel = s.sel := by exact State.setReadLatch_sel s p _
@[simp] theorem State.latchHigh_sched (s : State) (p : Path) (k : Nat) (v : Word) : (s.latchHigh p k v).sched = s.sched := by exact State.setReadLatch_sched s p _
@[simp] theorem State.latchHigh_aids (s : State) (p : Path) (k : Nat) (v : Word) : (s.latchHigh p k v).aids = s.aids := by exact State.setReadLatch_aids s p _
@[simp] theorem State.latchHigh_time (s : State) (p : Path) (k : Nat) (v : Word) : (s.latchHigh p k v).time = s.time := by exact State.setReadLatch_time s p _
@[simp] theorem State.latchHigh_phasor (s : State) (p : Path) (k : Nat) (v : Word) : (s.latchHigh p k v).phasor = s.phasor := by exact State.setReadLatch_phasor s p _
@[simp] theorem State.latchHigh_wave (s : State) (p : Path) (k : Nat) (v : Word) : (s.latchHigh p k v).wave = s.wave := by exact State.setReadLatch_wave s p _
@[simp] theorem State.latchHigh_acq (s : State) (p : Path) (k : Nat) (v : Word) : (s.latchHigh p k v).acq = s.acq := by exact State.setReadLatch_acq s p _
@[simp] theorem State.latchHigh_adc (s : State) (p : Path) (k : Nat) (v : Word) : (s.latchHigh p k v).adc = s.adc := by exact State.setReadLatch_adc s p _
@[simp] theorem State.latchHigh_pwm (s : State) (p : Path) (k : Nat) (v : Word) : (s.latchHigh p k v).pwm = s.pwm := by exact State.setReadLatch_pwm s p _
@[simp] theorem State.latchHigh_wt (s : State) (p : Path) (k : Nat) (v : Word) : (s.latchHigh p k v).wt = s.wt := by exact State.setReadLatch_wt s p _
@[simp] theorem State.latchHigh_pair (s : State) (p : Path) (k : Nat) (v : Word) : (s.latchHigh p k v).pair = s.pair := by exact State.setReadLatch_pair s p _
@[simp] theorem State.latchHigh_fault (s : State) (p : Path) (k : Nat) (v : Word) : (s.latchHigh p k v).fault = s.fault := by exact State.setReadLatch_fault s p _
@[simp] theorem State.latchHigh_mem (s : State) (p : Path) (k : Nat) (v : Word) : (s.latchHigh p k v).mem = s.mem := by exact State.setReadLatch_mem s p _
@[simp] theorem State.latchHigh_irq (s : State) (p : Path) (k : Nat) (v : Word) : (s.latchHigh p k v).irq = s.irq := by exact State.setReadLatch_irq s p _
@[simp] theorem State.latchHigh_jrn (s : State) (p : Path) (k : Nat) (v : Word) : (s.latchHigh p k v).jrn = s.jrn := by exact State.setReadLatch_jrn s p _
@[simp] theorem State.latchHigh_power (s : State) (p : Path) (k : Nat) (v : Word) : (s.latchHigh p k v).power = s.power := by exact State.setReadLatch_power s p _
@[simp] theorem State.latchHigh_jtag (s : State) (p : Path) (k : Nat) (v : Word) : (s.latchHigh p k v).jtag = s.jtag := by exact State.setReadLatch_jtag s p _
@[simp] theorem State.latchHigh_samples (s : State) (p : Path) (k : Nat) (v : Word) : (s.latchHigh p k v).samples = s.samples := by exact State.setReadLatch_samples s p _
@[simp] theorem State.useHigh_pending (s : State) (p : Path) (k : Nat) : (s.useHigh p k).pending = s.pending := by unfold State.useHigh; split; exact State.setReadLatch_pending s p _; rfl
@[simp] theorem State.useHigh_live (s : State) (p : Path) (k : Nat) : (s.useHigh p k).live = s.live := by unfold State.useHigh; split; exact State.setReadLatch_live s p _; rfl
@[simp] theorem State.useHigh_act (s : State) (p : Path) (k : Nat) : (s.useHigh p k).act = s.act := by unfold State.useHigh; split; exact State.setReadLatch_act s p _; rfl
@[simp] theorem State.useHigh_stg (s : State) (p : Path) (k : Nat) : (s.useHigh p k).stg = s.stg := by unfold State.useHigh; split; exact State.setReadLatch_stg s p _; rfl
@[simp] theorem State.useHigh_kAct (s : State) (p : Path) (k : Nat) : (s.useHigh p k).kAct = s.kAct := by unfold State.useHigh; split; exact State.setReadLatch_kAct s p _; rfl
@[simp] theorem State.useHigh_kStg (s : State) (p : Path) (k : Nat) : (s.useHigh p k).kStg = s.kStg := by unfold State.useHigh; split; exact State.setReadLatch_kStg s p _; rfl
@[simp] theorem State.useHigh_sram (s : State) (p : Path) (k : Nat) : (s.useHigh p k).sram = s.sram := by unfold State.useHigh; split; exact State.setReadLatch_sram s p _; rfl
@[simp] theorem State.useHigh_flash (s : State) (p : Path) (k : Nat) : (s.useHigh p k).flash = s.flash := by unfold State.useHigh; split; exact State.setReadLatch_flash s p _; rfl
@[simp] theorem State.useHigh_free (s : State) (p : Path) (k : Nat) : (s.useHigh p k).free = s.free := by unfold State.useHigh; split; exact State.setReadLatch_free s p _; rfl
@[simp] theorem State.useHigh_mode (s : State) (p : Path) (k : Nat) : (s.useHigh p k).mode = s.mode := by unfold State.useHigh; split; exact State.setReadLatch_mode s p _; rfl
@[simp] theorem State.useHigh_boot (s : State) (p : Path) (k : Nat) : (s.useHigh p k).boot = s.boot := by unfold State.useHigh; split; exact State.setReadLatch_boot s p _; rfl
@[simp] theorem State.useHigh_commit (s : State) (p : Path) (k : Nat) : (s.useHigh p k).commit = s.commit := by unfold State.useHigh; split; exact State.setReadLatch_commit s p _; rfl
@[simp] theorem State.useHigh_img (s : State) (p : Path) (k : Nat) : (s.useHigh p k).img = s.img := by unfold State.useHigh; split; exact State.setReadLatch_img s p _; rfl
@[simp] theorem State.useHigh_frame (s : State) (p : Path) (k : Nat) : (s.useHigh p k).frame = s.frame := by unfold State.useHigh; split; exact State.setReadLatch_frame s p _; rfl
@[simp] theorem State.useHigh_modes (s : State) (p : Path) (k : Nat) : (s.useHigh p k).modes = s.modes := by unfold State.useHigh; split; exact State.setReadLatch_modes s p _; rfl
@[simp] theorem State.useHigh_lanes (s : State) (p : Path) (k : Nat) : (s.useHigh p k).lanes = s.lanes := by unfold State.useHigh; split; exact State.setReadLatch_lanes s p _; rfl
@[simp] theorem State.useHigh_routes (s : State) (p : Path) (k : Nat) : (s.useHigh p k).routes = s.routes := by unfold State.useHigh; split; exact State.setReadLatch_routes s p _; rfl
@[simp] theorem State.useHigh_launch (s : State) (p : Path) (k : Nat) : (s.useHigh p k).launch = s.launch := by unfold State.useHigh; split; exact State.setReadLatch_launch s p _; rfl
@[simp] theorem State.useHigh_ledger (s : State) (p : Path) (k : Nat) : (s.useHigh p k).ledger = s.ledger := by unfold State.useHigh; split; exact State.setReadLatch_ledger s p _; rfl
@[simp] theorem State.useHigh_arms (s : State) (p : Path) (k : Nat) : (s.useHigh p k).arms = s.arms := by unfold State.useHigh; split; exact State.setReadLatch_arms s p _; rfl
@[simp] theorem State.useHigh_sel (s : State) (p : Path) (k : Nat) : (s.useHigh p k).sel = s.sel := by unfold State.useHigh; split; exact State.setReadLatch_sel s p _; rfl
@[simp] theorem State.useHigh_sched (s : State) (p : Path) (k : Nat) : (s.useHigh p k).sched = s.sched := by unfold State.useHigh; split; exact State.setReadLatch_sched s p _; rfl
@[simp] theorem State.useHigh_aids (s : State) (p : Path) (k : Nat) : (s.useHigh p k).aids = s.aids := by unfold State.useHigh; split; exact State.setReadLatch_aids s p _; rfl
@[simp] theorem State.useHigh_time (s : State) (p : Path) (k : Nat) : (s.useHigh p k).time = s.time := by unfold State.useHigh; split; exact State.setReadLatch_time s p _; rfl
@[simp] theorem State.useHigh_phasor (s : State) (p : Path) (k : Nat) : (s.useHigh p k).phasor = s.phasor := by unfold State.useHigh; split; exact State.setReadLatch_phasor s p _; rfl
@[simp] theorem State.useHigh_wave (s : State) (p : Path) (k : Nat) : (s.useHigh p k).wave = s.wave := by unfold State.useHigh; split; exact State.setReadLatch_wave s p _; rfl
@[simp] theorem State.useHigh_acq (s : State) (p : Path) (k : Nat) : (s.useHigh p k).acq = s.acq := by unfold State.useHigh; split; exact State.setReadLatch_acq s p _; rfl
@[simp] theorem State.useHigh_adc (s : State) (p : Path) (k : Nat) : (s.useHigh p k).adc = s.adc := by unfold State.useHigh; split; exact State.setReadLatch_adc s p _; rfl
@[simp] theorem State.useHigh_pwm (s : State) (p : Path) (k : Nat) : (s.useHigh p k).pwm = s.pwm := by unfold State.useHigh; split; exact State.setReadLatch_pwm s p _; rfl
@[simp] theorem State.useHigh_wt (s : State) (p : Path) (k : Nat) : (s.useHigh p k).wt = s.wt := by unfold State.useHigh; split; exact State.setReadLatch_wt s p _; rfl
@[simp] theorem State.useHigh_pair (s : State) (p : Path) (k : Nat) : (s.useHigh p k).pair = s.pair := by unfold State.useHigh; split; exact State.setReadLatch_pair s p _; rfl
@[simp] theorem State.useHigh_fault (s : State) (p : Path) (k : Nat) : (s.useHigh p k).fault = s.fault := by unfold State.useHigh; split; exact State.setReadLatch_fault s p _; rfl
@[simp] theorem State.useHigh_mem (s : State) (p : Path) (k : Nat) : (s.useHigh p k).mem = s.mem := by unfold State.useHigh; split; exact State.setReadLatch_mem s p _; rfl
@[simp] theorem State.useHigh_irq (s : State) (p : Path) (k : Nat) : (s.useHigh p k).irq = s.irq := by unfold State.useHigh; split; exact State.setReadLatch_irq s p _; rfl
@[simp] theorem State.useHigh_jrn (s : State) (p : Path) (k : Nat) : (s.useHigh p k).jrn = s.jrn := by unfold State.useHigh; split; exact State.setReadLatch_jrn s p _; rfl
@[simp] theorem State.useHigh_power (s : State) (p : Path) (k : Nat) : (s.useHigh p k).power = s.power := by unfold State.useHigh; split; exact State.setReadLatch_power s p _; rfl
@[simp] theorem State.useHigh_jtag (s : State) (p : Path) (k : Nat) : (s.useHigh p k).jtag = s.jtag := by unfold State.useHigh; split; exact State.setReadLatch_jtag s p _; rfl
@[simp] theorem State.useHigh_samples (s : State) (p : Path) (k : Nat) : (s.useHigh p k).samples = s.samples := by unfold State.useHigh; split; exact State.setReadLatch_samples s p _; rfl
@[simp] theorem State.toL_pending (s : State) (l : Nat) : (s.toL l).pending = s.pending := by rfl
@[simp] theorem State.toL_live (s : State) (l : Nat) : (s.toL l).live = s.live := by rfl
@[simp] theorem State.toL_act (s : State) (l : Nat) : (s.toL l).act = s.act := by rfl
@[simp] theorem State.toL_stg (s : State) (l : Nat) : (s.toL l).stg = s.stg := by rfl
@[simp] theorem State.toL_kAct (s : State) (l : Nat) : (s.toL l).kAct = s.kAct := by rfl
@[simp] theorem State.toL_kStg (s : State) (l : Nat) : (s.toL l).kStg = s.kStg := by rfl
@[simp] theorem State.toL_sram (s : State) (l : Nat) : (s.toL l).sram = s.sram := by rfl
@[simp] theorem State.toL_flash (s : State) (l : Nat) : (s.toL l).flash = s.flash := by rfl
@[simp] theorem State.toL_free (s : State) (l : Nat) : (s.toL l).free = s.free := by rfl
@[simp] theorem State.toL_mode (s : State) (l : Nat) : (s.toL l).mode = s.mode := by rfl
@[simp] theorem State.toL_boot (s : State) (l : Nat) : (s.toL l).boot = s.boot := by rfl
@[simp] theorem State.toL_commit (s : State) (l : Nat) : (s.toL l).commit = s.commit := by rfl
@[simp] theorem State.toL_img (s : State) (l : Nat) : (s.toL l).img = s.img := by rfl
@[simp] theorem State.toL_frame (s : State) (l : Nat) : (s.toL l).frame = s.frame := by rfl
@[simp] theorem State.toL_modes (s : State) (l : Nat) : (s.toL l).modes = s.modes := by rfl
@[simp] theorem State.toL_lanes (s : State) (l : Nat) : (s.toL l).lanes = s.lanes := by rfl
@[simp] theorem State.toL_routes (s : State) (l : Nat) : (s.toL l).routes = s.routes := by rfl
@[simp] theorem State.toL_launch (s : State) (l : Nat) : (s.toL l).launch = s.launch := by rfl
@[simp] theorem State.toL_ledger (s : State) (l : Nat) : (s.toL l).ledger = s.ledger := by rfl
@[simp] theorem State.toL_arms (s : State) (l : Nat) : (s.toL l).arms = s.arms := by rfl
@[simp] theorem State.toL_sel (s : State) (l : Nat) : (s.toL l).sel = s.sel := by rfl
@[simp] theorem State.toL_cup (s : State) (l : Nat) : (s.toL l).cup = s.cup := by rfl
@[simp] theorem State.toL_sched (s : State) (l : Nat) : (s.toL l).sched = s.sched := by rfl
@[simp] theorem State.toL_aids (s : State) (l : Nat) : (s.toL l).aids = s.aids := by rfl
@[simp] theorem State.toL_phasor (s : State) (l : Nat) : (s.toL l).phasor = s.phasor := by rfl
@[simp] theorem State.toL_wave (s : State) (l : Nat) : (s.toL l).wave = s.wave := by rfl
@[simp] theorem State.toL_acq (s : State) (l : Nat) : (s.toL l).acq = s.acq := by rfl
@[simp] theorem State.toL_adc (s : State) (l : Nat) : (s.toL l).adc = s.adc := by rfl
@[simp] theorem State.toL_pwm (s : State) (l : Nat) : (s.toL l).pwm = s.pwm := by rfl
@[simp] theorem State.toL_wt (s : State) (l : Nat) : (s.toL l).wt = s.wt := by rfl
@[simp] theorem State.toL_pair (s : State) (l : Nat) : (s.toL l).pair = s.pair := by rfl
@[simp] theorem State.toL_fault (s : State) (l : Nat) : (s.toL l).fault = s.fault := by rfl
@[simp] theorem State.toL_mem (s : State) (l : Nat) : (s.toL l).mem = s.mem := by rfl
@[simp] theorem State.toL_irq (s : State) (l : Nat) : (s.toL l).irq = s.irq := by rfl
@[simp] theorem State.toL_jrn (s : State) (l : Nat) : (s.toL l).jrn = s.jrn := by rfl
@[simp] theorem State.toL_dict (s : State) (l : Nat) : (s.toL l).dict = s.dict := by rfl
@[simp] theorem State.toL_power (s : State) (l : Nat) : (s.toL l).power = s.power := by rfl
@[simp] theorem State.toL_jtag (s : State) (l : Nat) : (s.toL l).jtag = s.jtag := by rfl
@[simp] theorem State.toL_samples (s : State) (l : Nat) : (s.toL l).samples = s.samples := by rfl
@[simp] theorem State.hostRefuse_pending (s : State) (a r : Nat) : (s.hostRefuse a r).pending = s.pending := by rfl
@[simp] theorem State.hostRefuse_act (s : State) (a r : Nat) : (s.hostRefuse a r).act = s.act := by rfl
@[simp] theorem State.hostRefuse_stg (s : State) (a r : Nat) : (s.hostRefuse a r).stg = s.stg := by rfl
@[simp] theorem State.hostRefuse_kAct (s : State) (a r : Nat) : (s.hostRefuse a r).kAct = s.kAct := by rfl
@[simp] theorem State.hostRefuse_kStg (s : State) (a r : Nat) : (s.hostRefuse a r).kStg = s.kStg := by rfl
@[simp] theorem State.hostRefuse_sram (s : State) (a r : Nat) : (s.hostRefuse a r).sram = s.sram := by rfl
@[simp] theorem State.hostRefuse_flash (s : State) (a r : Nat) : (s.hostRefuse a r).flash = s.flash := by rfl
@[simp] theorem State.hostRefuse_free (s : State) (a r : Nat) : (s.hostRefuse a r).free = s.free := by rfl
@[simp] theorem State.hostRefuse_mode (s : State) (a r : Nat) : (s.hostRefuse a r).mode = s.mode := by rfl
@[simp] theorem State.hostRefuse_boot (s : State) (a r : Nat) : (s.hostRefuse a r).boot = s.boot := by rfl
@[simp] theorem State.hostRefuse_commit (s : State) (a r : Nat) : (s.hostRefuse a r).commit = s.commit := by rfl
@[simp] theorem State.hostRefuse_img (s : State) (a r : Nat) : (s.hostRefuse a r).img = s.img := by rfl
@[simp] theorem State.hostRefuse_frame (s : State) (a r : Nat) : (s.hostRefuse a r).frame = s.frame := by rfl
@[simp] theorem State.hostRefuse_modes (s : State) (a r : Nat) : (s.hostRefuse a r).modes = s.modes := by rfl
@[simp] theorem State.hostRefuse_lanes (s : State) (a r : Nat) : (s.hostRefuse a r).lanes = s.lanes := by rfl
@[simp] theorem State.hostRefuse_routes (s : State) (a r : Nat) : (s.hostRefuse a r).routes = s.routes := by rfl
@[simp] theorem State.hostRefuse_launch (s : State) (a r : Nat) : (s.hostRefuse a r).launch = s.launch := by rfl
@[simp] theorem State.hostRefuse_ledger (s : State) (a r : Nat) : (s.hostRefuse a r).ledger = s.ledger := by rfl
@[simp] theorem State.hostRefuse_arms (s : State) (a r : Nat) : (s.hostRefuse a r).arms = s.arms := by rfl
@[simp] theorem State.hostRefuse_sel (s : State) (a r : Nat) : (s.hostRefuse a r).sel = s.sel := by rfl
@[simp] theorem State.hostRefuse_cup (s : State) (a r : Nat) : (s.hostRefuse a r).cup = s.cup := by rfl
@[simp] theorem State.hostRefuse_sched (s : State) (a r : Nat) : (s.hostRefuse a r).sched = s.sched := by rfl
@[simp] theorem State.hostRefuse_aids (s : State) (a r : Nat) : (s.hostRefuse a r).aids = s.aids := by rfl
@[simp] theorem State.hostRefuse_time (s : State) (a r : Nat) : (s.hostRefuse a r).time = s.time := by rfl
@[simp] theorem State.hostRefuse_phasor (s : State) (a r : Nat) : (s.hostRefuse a r).phasor = s.phasor := by rfl
@[simp] theorem State.hostRefuse_wave (s : State) (a r : Nat) : (s.hostRefuse a r).wave = s.wave := by rfl
@[simp] theorem State.hostRefuse_acq (s : State) (a r : Nat) : (s.hostRefuse a r).acq = s.acq := by rfl
@[simp] theorem State.hostRefuse_adc (s : State) (a r : Nat) : (s.hostRefuse a r).adc = s.adc := by rfl
@[simp] theorem State.hostRefuse_pwm (s : State) (a r : Nat) : (s.hostRefuse a r).pwm = s.pwm := by rfl
@[simp] theorem State.hostRefuse_wt (s : State) (a r : Nat) : (s.hostRefuse a r).wt = s.wt := by rfl
@[simp] theorem State.hostRefuse_pair (s : State) (a r : Nat) : (s.hostRefuse a r).pair = s.pair := by rfl
@[simp] theorem State.hostRefuse_fault (s : State) (a r : Nat) : (s.hostRefuse a r).fault = s.fault := by rfl
@[simp] theorem State.hostRefuse_mem (s : State) (a r : Nat) : (s.hostRefuse a r).mem = s.mem := by rfl
@[simp] theorem State.hostRefuse_irq (s : State) (a r : Nat) : (s.hostRefuse a r).irq = s.irq := by rfl
@[simp] theorem State.hostRefuse_jrn (s : State) (a r : Nat) : (s.hostRefuse a r).jrn = s.jrn := by rfl
@[simp] theorem State.hostRefuse_dict (s : State) (a r : Nat) : (s.hostRefuse a r).dict = s.dict := by rfl
@[simp] theorem State.hostRefuse_power (s : State) (a r : Nat) : (s.hostRefuse a r).power = s.power := by rfl
@[simp] theorem State.hostRefuse_jtag (s : State) (a r : Nat) : (s.hostRefuse a r).jtag = s.jtag := by rfl
@[simp] theorem State.hostRefuse_samples (s : State) (a r : Nat) : (s.hostRefuse a r).samples = s.samples := by rfl
@[simp] theorem State.abort_pending (s : State) (c : Word) : (s.abort c).pending = s.pending := by rfl
@[simp] theorem State.abort_act (s : State) (c : Word) : (s.abort c).act = s.act := by rfl
@[simp] theorem State.abort_stg (s : State) (c : Word) : (s.abort c).stg = s.stg := by rfl
@[simp] theorem State.abort_kAct (s : State) (c : Word) : (s.abort c).kAct = s.kAct := by rfl
@[simp] theorem State.abort_kStg (s : State) (c : Word) : (s.abort c).kStg = s.kStg := by rfl
@[simp] theorem State.abort_sram (s : State) (c : Word) : (s.abort c).sram = s.sram := by rfl
@[simp] theorem State.abort_flash (s : State) (c : Word) : (s.abort c).flash = s.flash := by rfl
@[simp] theorem State.abort_free (s : State) (c : Word) : (s.abort c).free = s.free := by rfl
@[simp] theorem State.abort_mode (s : State) (c : Word) : (s.abort c).mode = s.mode := by rfl
@[simp] theorem State.abort_boot (s : State) (c : Word) : (s.abort c).boot = s.boot := by rfl
@[simp] theorem State.abort_commit (s : State) (c : Word) : (s.abort c).commit = s.commit := by rfl
@[simp] theorem State.abort_img (s : State) (c : Word) : (s.abort c).img = s.img := by rfl
@[simp] theorem State.abort_frame (s : State) (c : Word) : (s.abort c).frame = s.frame := by rfl
@[simp] theorem State.abort_modes (s : State) (c : Word) : (s.abort c).modes = s.modes := by rfl
@[simp] theorem State.abort_lanes (s : State) (c : Word) : (s.abort c).lanes = s.lanes := by rfl
@[simp] theorem State.abort_routes (s : State) (c : Word) : (s.abort c).routes = s.routes := by rfl
@[simp] theorem State.abort_launch (s : State) (c : Word) : (s.abort c).launch = s.launch := by rfl
@[simp] theorem State.abort_ledger (s : State) (c : Word) : (s.abort c).ledger = s.ledger := by rfl
@[simp] theorem State.abort_arms (s : State) (c : Word) : (s.abort c).arms = s.arms := by rfl
@[simp] theorem State.abort_sel (s : State) (c : Word) : (s.abort c).sel = s.sel := by rfl
@[simp] theorem State.abort_cup (s : State) (c : Word) : (s.abort c).cup = s.cup := by rfl
@[simp] theorem State.abort_sched (s : State) (c : Word) : (s.abort c).sched = s.sched := by rfl
@[simp] theorem State.abort_aids (s : State) (c : Word) : (s.abort c).aids = s.aids := by rfl
@[simp] theorem State.abort_time (s : State) (c : Word) : (s.abort c).time = s.time := by rfl
@[simp] theorem State.abort_phasor (s : State) (c : Word) : (s.abort c).phasor = s.phasor := by rfl
@[simp] theorem State.abort_wave (s : State) (c : Word) : (s.abort c).wave = s.wave := by rfl
@[simp] theorem State.abort_acq (s : State) (c : Word) : (s.abort c).acq = s.acq := by rfl
@[simp] theorem State.abort_adc (s : State) (c : Word) : (s.abort c).adc = s.adc := by rfl
@[simp] theorem State.abort_pwm (s : State) (c : Word) : (s.abort c).pwm = s.pwm := by rfl
@[simp] theorem State.abort_wt (s : State) (c : Word) : (s.abort c).wt = s.wt := by rfl
@[simp] theorem State.abort_pair (s : State) (c : Word) : (s.abort c).pair = s.pair := by rfl
@[simp] theorem State.abort_fault (s : State) (c : Word) : (s.abort c).fault = s.fault := by rfl
@[simp] theorem State.abort_mem (s : State) (c : Word) : (s.abort c).mem = s.mem := by rfl
@[simp] theorem State.abort_irq (s : State) (c : Word) : (s.abort c).irq = s.irq := by rfl
@[simp] theorem State.abort_jrn (s : State) (c : Word) : (s.abort c).jrn = s.jrn := by rfl
@[simp] theorem State.abort_power (s : State) (c : Word) : (s.abort c).power = s.power := by rfl
@[simp] theorem State.abort_jtag (s : State) (c : Word) : (s.abort c).jtag = s.jtag := by rfl
@[simp] theorem State.abort_samples (s : State) (c : Word) : (s.abort c).samples = s.samples := by rfl
@[simp] theorem State.report_pending (s : State) (p : Path) (k r : Nat) : (s.report p k r).pending = s.pending := by cases p <;> simp only [State.report] <;> (repeat' split) <;> rfl
@[simp] theorem State.report_act (s : State) (p : Path) (k r : Nat) : (s.report p k r).act = s.act := by cases p <;> simp only [State.report] <;> (repeat' split) <;> rfl
@[simp] theorem State.report_stg (s : State) (p : Path) (k r : Nat) : (s.report p k r).stg = s.stg := by cases p <;> simp only [State.report] <;> (repeat' split) <;> rfl
@[simp] theorem State.report_kAct (s : State) (p : Path) (k r : Nat) : (s.report p k r).kAct = s.kAct := by cases p <;> simp only [State.report] <;> (repeat' split) <;> rfl
@[simp] theorem State.report_kStg (s : State) (p : Path) (k r : Nat) : (s.report p k r).kStg = s.kStg := by cases p <;> simp only [State.report] <;> (repeat' split) <;> rfl
@[simp] theorem State.report_sram (s : State) (p : Path) (k r : Nat) : (s.report p k r).sram = s.sram := by cases p <;> simp only [State.report] <;> (repeat' split) <;> rfl
@[simp] theorem State.report_flash (s : State) (p : Path) (k r : Nat) : (s.report p k r).flash = s.flash := by cases p <;> simp only [State.report] <;> (repeat' split) <;> rfl
@[simp] theorem State.report_free (s : State) (p : Path) (k r : Nat) : (s.report p k r).free = s.free := by cases p <;> simp only [State.report] <;> (repeat' split) <;> rfl
@[simp] theorem State.report_mode (s : State) (p : Path) (k r : Nat) : (s.report p k r).mode = s.mode := by cases p <;> simp only [State.report] <;> (repeat' split) <;> rfl
@[simp] theorem State.report_boot (s : State) (p : Path) (k r : Nat) : (s.report p k r).boot = s.boot := by cases p <;> simp only [State.report] <;> (repeat' split) <;> rfl
@[simp] theorem State.report_commit (s : State) (p : Path) (k r : Nat) : (s.report p k r).commit = s.commit := by cases p <;> simp only [State.report] <;> (repeat' split) <;> rfl
@[simp] theorem State.report_img (s : State) (p : Path) (k r : Nat) : (s.report p k r).img = s.img := by cases p <;> simp only [State.report] <;> (repeat' split) <;> rfl
@[simp] theorem State.report_frame (s : State) (p : Path) (k r : Nat) : (s.report p k r).frame = s.frame := by cases p <;> simp only [State.report] <;> (repeat' split) <;> rfl
@[simp] theorem State.report_modes (s : State) (p : Path) (k r : Nat) : (s.report p k r).modes = s.modes := by cases p <;> simp only [State.report] <;> (repeat' split) <;> rfl
@[simp] theorem State.report_lanes (s : State) (p : Path) (k r : Nat) : (s.report p k r).lanes = s.lanes := by cases p <;> simp only [State.report] <;> (repeat' split) <;> rfl
@[simp] theorem State.report_routes (s : State) (p : Path) (k r : Nat) : (s.report p k r).routes = s.routes := by cases p <;> simp only [State.report] <;> (repeat' split) <;> rfl
@[simp] theorem State.report_launch (s : State) (p : Path) (k r : Nat) : (s.report p k r).launch = s.launch := by cases p <;> simp only [State.report] <;> (repeat' split) <;> rfl
@[simp] theorem State.report_ledger (s : State) (p : Path) (k r : Nat) : (s.report p k r).ledger = s.ledger := by cases p <;> simp only [State.report] <;> (repeat' split) <;> rfl
@[simp] theorem State.report_arms (s : State) (p : Path) (k r : Nat) : (s.report p k r).arms = s.arms := by cases p <;> simp only [State.report] <;> (repeat' split) <;> rfl
@[simp] theorem State.report_sel (s : State) (p : Path) (k r : Nat) : (s.report p k r).sel = s.sel := by cases p <;> simp only [State.report] <;> (repeat' split) <;> rfl
@[simp] theorem State.report_sched (s : State) (p : Path) (k r : Nat) : (s.report p k r).sched = s.sched := by cases p <;> simp only [State.report] <;> (repeat' split) <;> rfl
@[simp] theorem State.report_aids (s : State) (p : Path) (k r : Nat) : (s.report p k r).aids = s.aids := by cases p <;> simp only [State.report] <;> (repeat' split) <;> rfl
@[simp] theorem State.report_time (s : State) (p : Path) (k r : Nat) : (s.report p k r).time = s.time := by cases p <;> simp only [State.report] <;> (repeat' split) <;> rfl
@[simp] theorem State.report_phasor (s : State) (p : Path) (k r : Nat) : (s.report p k r).phasor = s.phasor := by cases p <;> simp only [State.report] <;> (repeat' split) <;> rfl
@[simp] theorem State.report_wave (s : State) (p : Path) (k r : Nat) : (s.report p k r).wave = s.wave := by cases p <;> simp only [State.report] <;> (repeat' split) <;> rfl
@[simp] theorem State.report_acq (s : State) (p : Path) (k r : Nat) : (s.report p k r).acq = s.acq := by cases p <;> simp only [State.report] <;> (repeat' split) <;> rfl
@[simp] theorem State.report_adc (s : State) (p : Path) (k r : Nat) : (s.report p k r).adc = s.adc := by cases p <;> simp only [State.report] <;> (repeat' split) <;> rfl
@[simp] theorem State.report_pwm (s : State) (p : Path) (k r : Nat) : (s.report p k r).pwm = s.pwm := by cases p <;> simp only [State.report] <;> (repeat' split) <;> rfl
@[simp] theorem State.report_wt (s : State) (p : Path) (k r : Nat) : (s.report p k r).wt = s.wt := by cases p <;> simp only [State.report] <;> (repeat' split) <;> rfl
@[simp] theorem State.report_pair (s : State) (p : Path) (k r : Nat) : (s.report p k r).pair = s.pair := by cases p <;> simp only [State.report] <;> (repeat' split) <;> rfl
@[simp] theorem State.report_fault (s : State) (p : Path) (k r : Nat) : (s.report p k r).fault = s.fault := by cases p <;> simp only [State.report] <;> (repeat' split) <;> rfl
@[simp] theorem State.report_mem (s : State) (p : Path) (k r : Nat) : (s.report p k r).mem = s.mem := by cases p <;> simp only [State.report] <;> (repeat' split) <;> rfl
@[simp] theorem State.report_irq (s : State) (p : Path) (k r : Nat) : (s.report p k r).irq = s.irq := by cases p <;> simp only [State.report] <;> (repeat' split) <;> rfl
@[simp] theorem State.report_jrn (s : State) (p : Path) (k r : Nat) : (s.report p k r).jrn = s.jrn := by cases p <;> simp only [State.report] <;> (repeat' split) <;> rfl
@[simp] theorem State.report_power (s : State) (p : Path) (k r : Nat) : (s.report p k r).power = s.power := by cases p <;> simp only [State.report] <;> (repeat' split) <;> rfl
@[simp] theorem State.report_jtag (s : State) (p : Path) (k r : Nat) : (s.report p k r).jtag = s.jtag := by cases p <;> simp only [State.report] <;> (repeat' split) <;> rfl
@[simp] theorem State.report_samples (s : State) (p : Path) (k r : Nat) : (s.report p k r).samples = s.samples := by cases p <;> simp only [State.report] <;> (repeat' split) <;> rfl

/-- Waiting for a converter time changes nothing but the clocks. -/
theorem State.toC_only (s : State) (c : Nat) : ∃ t, s.toC c = { s with time := t } := by
  exact ⟨_, rfl⟩

@[simp] theorem State.toC_pending (s : State) (c : Nat) : (s.toC c).pending = s.pending := by obtain ⟨t, h⟩ := s.toC_only c; rw [h]
@[simp] theorem State.toC_live (s : State) (c : Nat) : (s.toC c).live = s.live := by obtain ⟨t, h⟩ := s.toC_only c; rw [h]
@[simp] theorem State.toC_act (s : State) (c : Nat) : (s.toC c).act = s.act := by obtain ⟨t, h⟩ := s.toC_only c; rw [h]
@[simp] theorem State.toC_stg (s : State) (c : Nat) : (s.toC c).stg = s.stg := by obtain ⟨t, h⟩ := s.toC_only c; rw [h]
@[simp] theorem State.toC_kAct (s : State) (c : Nat) : (s.toC c).kAct = s.kAct := by obtain ⟨t, h⟩ := s.toC_only c; rw [h]
@[simp] theorem State.toC_kStg (s : State) (c : Nat) : (s.toC c).kStg = s.kStg := by obtain ⟨t, h⟩ := s.toC_only c; rw [h]
@[simp] theorem State.toC_sram (s : State) (c : Nat) : (s.toC c).sram = s.sram := by obtain ⟨t, h⟩ := s.toC_only c; rw [h]
@[simp] theorem State.toC_flash (s : State) (c : Nat) : (s.toC c).flash = s.flash := by obtain ⟨t, h⟩ := s.toC_only c; rw [h]
@[simp] theorem State.toC_free (s : State) (c : Nat) : (s.toC c).free = s.free := by obtain ⟨t, h⟩ := s.toC_only c; rw [h]
@[simp] theorem State.toC_mode (s : State) (c : Nat) : (s.toC c).mode = s.mode := by obtain ⟨t, h⟩ := s.toC_only c; rw [h]
@[simp] theorem State.toC_boot (s : State) (c : Nat) : (s.toC c).boot = s.boot := by obtain ⟨t, h⟩ := s.toC_only c; rw [h]
@[simp] theorem State.toC_commit (s : State) (c : Nat) : (s.toC c).commit = s.commit := by obtain ⟨t, h⟩ := s.toC_only c; rw [h]
@[simp] theorem State.toC_img (s : State) (c : Nat) : (s.toC c).img = s.img := by obtain ⟨t, h⟩ := s.toC_only c; rw [h]
@[simp] theorem State.toC_frame (s : State) (c : Nat) : (s.toC c).frame = s.frame := by obtain ⟨t, h⟩ := s.toC_only c; rw [h]
@[simp] theorem State.toC_modes (s : State) (c : Nat) : (s.toC c).modes = s.modes := by obtain ⟨t, h⟩ := s.toC_only c; rw [h]
@[simp] theorem State.toC_lanes (s : State) (c : Nat) : (s.toC c).lanes = s.lanes := by obtain ⟨t, h⟩ := s.toC_only c; rw [h]
@[simp] theorem State.toC_routes (s : State) (c : Nat) : (s.toC c).routes = s.routes := by obtain ⟨t, h⟩ := s.toC_only c; rw [h]
@[simp] theorem State.toC_launch (s : State) (c : Nat) : (s.toC c).launch = s.launch := by obtain ⟨t, h⟩ := s.toC_only c; rw [h]
@[simp] theorem State.toC_ledger (s : State) (c : Nat) : (s.toC c).ledger = s.ledger := by obtain ⟨t, h⟩ := s.toC_only c; rw [h]
@[simp] theorem State.toC_arms (s : State) (c : Nat) : (s.toC c).arms = s.arms := by obtain ⟨t, h⟩ := s.toC_only c; rw [h]
@[simp] theorem State.toC_sel (s : State) (c : Nat) : (s.toC c).sel = s.sel := by obtain ⟨t, h⟩ := s.toC_only c; rw [h]
@[simp] theorem State.toC_cup (s : State) (c : Nat) : (s.toC c).cup = s.cup := by obtain ⟨t, h⟩ := s.toC_only c; rw [h]
@[simp] theorem State.toC_sched (s : State) (c : Nat) : (s.toC c).sched = s.sched := by obtain ⟨t, h⟩ := s.toC_only c; rw [h]
@[simp] theorem State.toC_aids (s : State) (c : Nat) : (s.toC c).aids = s.aids := by obtain ⟨t, h⟩ := s.toC_only c; rw [h]
@[simp] theorem State.toC_phasor (s : State) (c : Nat) : (s.toC c).phasor = s.phasor := by obtain ⟨t, h⟩ := s.toC_only c; rw [h]
@[simp] theorem State.toC_wave (s : State) (c : Nat) : (s.toC c).wave = s.wave := by obtain ⟨t, h⟩ := s.toC_only c; rw [h]
@[simp] theorem State.toC_acq (s : State) (c : Nat) : (s.toC c).acq = s.acq := by obtain ⟨t, h⟩ := s.toC_only c; rw [h]
@[simp] theorem State.toC_adc (s : State) (c : Nat) : (s.toC c).adc = s.adc := by obtain ⟨t, h⟩ := s.toC_only c; rw [h]
@[simp] theorem State.toC_pwm (s : State) (c : Nat) : (s.toC c).pwm = s.pwm := by obtain ⟨t, h⟩ := s.toC_only c; rw [h]
@[simp] theorem State.toC_wt (s : State) (c : Nat) : (s.toC c).wt = s.wt := by obtain ⟨t, h⟩ := s.toC_only c; rw [h]
@[simp] theorem State.toC_pair (s : State) (c : Nat) : (s.toC c).pair = s.pair := by obtain ⟨t, h⟩ := s.toC_only c; rw [h]
@[simp] theorem State.toC_fault (s : State) (c : Nat) : (s.toC c).fault = s.fault := by obtain ⟨t, h⟩ := s.toC_only c; rw [h]
@[simp] theorem State.toC_mem (s : State) (c : Nat) : (s.toC c).mem = s.mem := by obtain ⟨t, h⟩ := s.toC_only c; rw [h]
@[simp] theorem State.toC_irq (s : State) (c : Nat) : (s.toC c).irq = s.irq := by obtain ⟨t, h⟩ := s.toC_only c; rw [h]
@[simp] theorem State.toC_jrn (s : State) (c : Nat) : (s.toC c).jrn = s.jrn := by obtain ⟨t, h⟩ := s.toC_only c; rw [h]
@[simp] theorem State.toC_dict (s : State) (c : Nat) : (s.toC c).dict = s.dict := by obtain ⟨t, h⟩ := s.toC_only c; rw [h]
@[simp] theorem State.toC_power (s : State) (c : Nat) : (s.toC c).power = s.power := by obtain ⟨t, h⟩ := s.toC_only c; rw [h]
@[simp] theorem State.toC_jtag (s : State) (c : Nat) : (s.toC c).jtag = s.jtag := by obtain ⟨t, h⟩ := s.toC_only c; rw [h]
@[simp] theorem State.toC_samples (s : State) (c : Nat) : (s.toC c).samples = s.samples := by obtain ⟨t, h⟩ := s.toC_only c; rw [h]

end Sys2Proof.Machine
end

