-- ==== Sys2Proof/Laws/Attention.lean ====
section
/-! SUPPORT. The summary word bit by bit (R470), and acknowledging faults (R442). -/
namespace Sys2Proof.Machine

/-- A bit of a sum of distinct powers of two. -/
theorem testBit_sumPow (c : Nat → Bool) (g : Nat) : ∀ n : Nat,
    (((List.range n).map fun i => if c i then 2 ^ i else 0).sum).testBit g = (decide (g < n) && c g) ∧
      ((List.range n).map fun i => if c i then 2 ^ i else 0).sum < 2 ^ n
  | 0 => by simp
  | n + 1 => by
    obtain ⟨h1, h2⟩ := testBit_sumPow c g n
    rw [List.range_succ, List.map_append, List.sum_append]
    simp only [List.map_cons, List.map_nil, List.sum_cons, List.sum_nil, Nat.add_zero]
    generalize ((List.range n).map fun i => if c i then 2 ^ i else 0).sum = x at *
    have hp : 2 ^ (n + 1) = 2 ^ n + 2 ^ n := by rw [Nat.pow_succ]; omega
    cases hc : c n
    · simp only [Bool.false_eq_true, if_false, Nat.add_zero]
      refine ⟨?_, by omega⟩
      rw [h1]
      by_cases hg : g = n
      · subst hg; simp [hc]
      · have : decide (g < n + 1) = decide (g < n) := by simp; omega
        rw [this]
    · simp only [if_true]
      refine ⟨?_, by omega⟩
      rw [Nat.add_comm]
      by_cases hg : g = n
      · subst hg
        rw [Nat.testBit_two_pow_add_eq, h1]
        simp [hc]
      · rcases Nat.lt_or_gt_of_ne hg with hl | hl
        · rw [Nat.testBit_two_pow_add_gt hl, h1]
          have : g < n + 1 := by omega
          simp [hl, this]
        · have hx : 2 ^ n + x < 2 ^ g := Nat.lt_of_lt_of_le (by omega : 2 ^ n + x < 2 ^ (n + 1)) (Nat.pow_le_pow_right (by omega) hl)
          rw [Nat.testBit_lt_two_pow hx]
          have : ¬ g < n + 1 := by omega
          simp [this]

/-- Bit `g` of the groups that are up (R470). -/
theorem groupsUp_bit (s : State) (pend : Nat → Word) {g : Nat} (hg : g < 32) :
    nbit (s.groupsUp pend).toNat g = decide (pend g &&& ~~~(s.gl (Obj.MASK g)) ≠ 0) := by
  have h := testBit_sumPow (fun g => decide (pend g &&& ~~~(s.gl (Obj.MASK g)) ≠ 0)) g 32
  have hs : s.groupsUp pend = w32 (((List.range 32).map fun i => if decide (pend i &&& ~~~(s.gl (Obj.MASK i)) ≠ 0)
      then 2 ^ i else 0).sum) := by
    unfold State.groupsUp
    congr 3
    funext i
    simp
  rw [hs]
  show ((w32 _).toNat).testBit g = _
  rw [w32, BitVec.toNat_ofNat, Nat.mod_eq_of_lt h.2, h.1]
  simp [hg]

/-- Bit `g` of SUMMARY (R470). -/
theorem summary_bit (s : State) {g : Nat} (hg : g < 32) :
    nbit s.summary.toNat g = decide (s.pendOf g &&& ~~~(s.gl (Obj.MASK g)) ≠ 0) := groupsUp_bit s _ hg

/-- A word has a bit that another does not cover. -/
theorem word_outside (x m : Word) : decide (x &&& ~~~m ≠ 0) = true ↔ ∃ g, g < 32 ∧ nbit x.toNat g = true ∧ nbit m.toNat g = false := by
  rw [decide_eq_true_iff]
  constructor
  · intro h
    apply Classical.byContradiction
    intro hn
    apply h
    apply BitVec.eq_of_getLsbD_eq
    intro i hi
    have := fun hx hm => hn ⟨i, hi, hx, hm⟩
    have hx : x.getLsbD i = nbit x.toNat i := rfl
    have hm : m.getLsbD i = nbit m.toNat i := rfl
    rw [BitVec.getLsbD_and, BitVec.getLsbD_not, hx, hm]
    simp only [hi, decide_true, Bool.true_and]
    cases h1 : nbit x.toNat i
    · simp
    · cases h2 : nbit m.toNat i
      · exact absurd h2 (this h1)
      · simp
  · rintro ⟨g, hg, h1, h2⟩ h
    have h3 : (x &&& ~~~m).getLsbD g = false := by rw [h]; simp
    have hx : x.getLsbD g = true := h1
    have hm : m.getLsbD g = false := h2
    rw [BitVec.getLsbD_and, BitVec.getLsbD_not, hx, hm] at h3
    simp [hg] at h3

/-- `a` agrees with `b` in what an acknowledge leaves alone. -/
def FaultRest (a b : State) : Prop :=
  (a.fault.active = b.fault.active ∧ a.fault.eff = b.fault.eff ∧ a.fault.tests = b.fault.tests ∧ a.fault.result = b.fault.result ∧
    a.mode = b.mode ∧ a.sram = b.sram ∧ a.flash = b.flash ∧ a.lanes = b.lanes ∧ a.routes = b.routes ∧ a.arms = b.arms) ∧
  a.time = b.time ∧ (∀ n, a.inCycle (·.occNow) n = b.inCycle (·.occNow) n) ∧ ∀ n, a.inCycle (·.forcedAct) n = b.inCycle (·.forcedAct) n

/-- The same time and the same notes of the cycle. -/
theorem FaultRest.of {a b : State} (h : a.fault.active = b.fault.active ∧ a.fault.eff = b.fault.eff ∧ a.fault.tests = b.fault.tests ∧
    a.fault.result = b.fault.result ∧ a.mode = b.mode ∧ a.sram = b.sram ∧ a.flash = b.flash ∧ a.lanes = b.lanes ∧ a.routes = b.routes ∧
    a.arms = b.arms) (ht : a.time = b.time) (h1 : a.fault.cycle = b.fault.cycle) (h2 : a.fault.occNow = b.fault.occNow)
    (h3 : a.fault.forcedAct = b.fault.forcedAct) : FaultRest a b := by
  have hc : a.fabricCycle = b.fabricCycle := by unfold State.fabricCycle State.nowL; rw [ht]
  refine ⟨h, ht, fun n => ?_, fun n => ?_⟩ <;> unfold State.inCycle <;> rw [hc, h1] <;> simp only [h2, h3]

theorem irqLevel_rest (s : State) (g n : Nat) (c : Bool) : FaultRest (s.irqLevel g n c) s ∧ (s.irqLevel g n c).fault.status = s.fault.status := by
  have b : ∀ (s : State) (v : Word), FaultRest (s.irqBits g v) s ∧ (s.irqBits g v).fault.status = s.fault.status := by
    intro s v; unfold State.irqBits; split <;> exact ⟨.of ⟨rfl, rfl, rfl, rfl, rfl, rfl, rfl, rfl, rfl, rfl⟩ rfl rfl rfl rfl, rfl⟩
  unfold State.irqLevel
  dsimp only
  split
  · exact b _ _
  · exact ⟨.of ⟨rfl, rfl, rfl, rfl, rfl, rfl, rfl, rfl, rfl, rfl⟩ rfl rfl rfl rfl, rfl⟩

theorem FaultRest.trans {a b c : State} (h : FaultRest a b) (k : FaultRest b c) : FaultRest a c := by
  obtain ⟨⟨h1, h2, h3, h4, h5, h6, h7, h8, h9, h10⟩, ht, ho, hf⟩ := h
  obtain ⟨⟨k1, k2, k3, k4, k5, k6, k7, k8, k9, k10⟩, kt, ko, kf⟩ := k
  exact ⟨⟨h1.trans k1, h2.trans k2, h3.trans k3, h4.trans k4, h5.trans k5, h6.trans k6, h7.trans k7, h8.trans k8, h9.trans k9, h10.trans k10⟩,
    ht.trans kt, fun n => (ho n).trans (ko n), fun n => (hf n).trans (kf n)⟩

theorem faultLevels_rest (s : State) : FaultRest s.faultLevels s ∧ s.faultLevels.fault.status = s.fault.status := by
  have l : ∀ (s : State) (a b c : Bool), FaultRest (((s.irqLevel 0 0 a).irqLevel 0 1 b).irqLevel 0 2 c) s ∧
      (((s.irqLevel 0 0 a).irqLevel 0 1 b).irqLevel 0 2 c).fault.status = s.fault.status := by
    intro s a b c
    obtain ⟨x1, y1⟩ := irqLevel_rest s 0 0 a
    obtain ⟨x2, y2⟩ := irqLevel_rest (s.irqLevel 0 0 a) 0 1 b
    obtain ⟨x3, y3⟩ := irqLevel_rest ((s.irqLevel 0 0 a).irqLevel 0 1 b) 0 2 c
    exact ⟨x3.trans (x2.trans x1), y3.trans (y2.trans y1)⟩
  unfold State.faultLevels
  dsimp only
  split
  · exact l _ _ _ _
  · obtain ⟨x, y⟩ := l s (s.fAny 1) (s.fAny 2) (s.fAny 3)
    exact ⟨FaultRest.trans (.of ⟨rfl, rfl, rfl, rfl, rfl, rfl, rfl, rfl, rfl, rfl⟩ rfl rfl rfl rfl) x, y⟩

/-- The notes of an earlier cycle count for nothing, so that dropping them changes nothing. -/
theorem newCycle_rest (s : State) : FaultRest s.newCycle s ∧ s.newCycle.fault.status = s.fault.status ∧ s.newCycle.fault.changed = s.fault.changed := by
  unfold State.newCycle
  split
  · exact ⟨.of ⟨rfl, rfl, rfl, rfl, rfl, rfl, rfl, rfl, rfl, rfl⟩ rfl rfl rfl rfl, rfl, rfl⟩
  · next h =>
    refine ⟨⟨⟨rfl, rfl, rfl, rfl, rfl, rfl, rfl, rfl, rfl, rfl⟩, rfl, fun n => ?_, fun n => ?_⟩, rfl, rfl⟩ <;>
      simp [State.inCycle, nbit, h]

/-- A source that an acknowledge does not clear (R442): it is active, or has occurred in this very cycle. -/
def State.ackKeeps (s : State) (n : Nat) : Bool := s.activeNow n || s.inCycle (·.occNow) n

theorem FaultRest.ackKeeps {a b : State} (h : FaultRest a b) (n : Nat) : a.ackKeeps n = b.ackKeeps n := by
  obtain ⟨h1, _, ho, hf⟩ := h
  unfold State.ackKeeps State.activeNow State.fActive
  rw [h1.1, ho, hf]

/-- A bit of a wide word of which one bit was cleared. -/
theorem nbit_clear (x : BitVec 64) {i j : Nat} (_hi : i < 64) (hj : j < 64) :
    nbit (bset x i false).toNat j = (nbit x.toNat j && decide (i ≠ j)) := by
  show (bset x i false).getLsbD j = (x.getLsbD j && decide (i ≠ j))
  unfold bset
  have h2 : (BitVec.ofNat 64 (2 ^ i)).getLsbD j = decide (i = j) := by
    rw [BitVec.getLsbD_ofNat, Nat.testBit_two_pow]
    simp [hj]
  simp only [Bool.false_eq_true, if_false, BitVec.getLsbD_and, BitVec.getLsbD_not, h2]
  by_cases h : i = j <;> simp [hj, h]

/-- Acknowledging one source (R442). -/
theorem ackOne_frame (s : State) (path : Nat) {n : Nat} (hn : n < 64) :
    (∀ m, m < 64 → (s.ackOne path n).fSet m = (s.fSet m && (decide (n ≠ m) || s.ackKeeps m))) ∧ FaultRest (s.ackOne path n) s := by
  have z : FaultRest s s := .of ⟨rfl, rfl, rfl, rfl, rfl, rfl, rfl, rfl, rfl, rfl⟩ rfl rfl rfl rfl
  have zl : ∀ k, FaultRest (s.incL k) s := fun k => .of ⟨rfl, rfl, rfl, rfl, rfl, rfl, rfl, rfl, rfl, rfl⟩ rfl rfl rfl rfl
  unfold State.ackOne
  split
  · next h =>
    refine ⟨fun m hm => ?_, z⟩
    by_cases hnm : n = m
    · subst hnm
      have h : s.fSet n = false := by simpa using h
      simp [h]
    · simp [hnm]
  · split
    · next h1 h2 =>
      refine ⟨fun m hm => ?_, zl _⟩
      show s.fSet m = _
      by_cases hnm : n = m
      · subst hnm; simp [State.ackKeeps, h2]
      · simp [hnm]
    · split
      · next h1 h2 h3 =>
        refine ⟨fun m hm => ?_, zl _⟩
        show s.fSet m = _
        by_cases hnm : n = m
        · subst hnm; simp [State.ackKeeps, h3]
        · simp [hnm]
      · next h1 h2 h3 =>
        have h4 : s.ackKeeps n = false := by
          have h2 : s.activeNow n = false := by simpa using h2
          have h3 : s.inCycle (·.occNow) n = false := by simpa using h3
          simp [State.ackKeeps, h2, h3]
        obtain ⟨q1, q2, q3⟩ := newCycle_rest s
        dsimp only
        generalize s.newCycle = u at *
        have hi : ∀ (v : State) (c : Bool) (k : Nat), (v.incIf c k).fault = v.fault ∧ FaultRest (v.incIf c k) v := by
          intro v c k; unfold State.incIf
          split <;> exact ⟨rfl, .of ⟨rfl, rfl, rfl, rfl, rfl, rfl, rfl, rfl, rfl, rfl⟩ rfl rfl rfl rfl⟩
        have w : FaultRest ({ u with fault := { u.fault with
            status := bset u.fault.status n false, ackNow := bset u.fault.ackNow n true } } : State) u :=
          .of ⟨rfl, rfl, rfl, rfl, rfl, rfl, rfl, rfl, rfl, rfl⟩ rfl rfl rfl rfl
        have hst : ∀ (v : State), v.fault.status = bset u.fault.status n false →
            ∀ m, m < 64 → v.fSet m = (s.fSet m && (decide (n ≠ m) || s.ackKeeps m)) := by
          intro v hv m hm
          unfold State.fSet
          rw [hv, q2, nbit_clear _ hn hm]
          by_cases hnm : n = m
          · subst hnm; simp [h4]
          · simp [hnm]
        refine ⟨hst _ ?_, (faultLevels_rest _).1.trans ((hi _ _ _).2.trans (w.trans q1))⟩
        rw [(faultLevels_rest _).2, (hi _ _ _).1]

/-- Acknowledging a list of sources (R442). -/
theorem ack_frame (path : Nat) : ∀ (l : List Nat) (s : State), (∀ n ∈ l, n < 64) →
    (∀ m, m < 64 → (s.each l fun s n => s.ackOne path n).fSet m = (s.fSet m && (!l.contains m || s.ackKeeps m))) ∧
      FaultRest (s.each l fun s n => s.ackOne path n) s
  | [], s, _ => ⟨fun m _ => by simp [State.each], .of ⟨rfl, rfl, rfl, rfl, rfl, rfl, rfl, rfl, rfl, rfl⟩ rfl rfl rfl rfl⟩
  | n :: l, s, h => by
    have hn : n < 64 := h n (by simp)
    obtain ⟨a1, a2⟩ := ackOne_frame s path hn
    obtain ⟨b1, b2⟩ := ack_frame path l (s.ackOne path n) fun k hk => h k (by simp [hk])
    refine ⟨fun m hm => ?_, b2.trans a2⟩
    refine (b1 m hm).trans ?_
    rw [a1 m hm, a2.ackKeeps m, List.contains_cons]
    by_cases hnm : n = m
    · subst hnm; cases s.fSet n <;> cases s.ackKeeps n <;> simp
    · have : (m == n) = false := by simp [Ne.symm hnm]
      simp [hnm, this]

end Sys2Proof.Machine
end

