-- ==== Sys2Proof/Laws/Writes.lean ====
section
/-! SUPPORT. A write that passes its checks, and the elements of the register files. -/
namespace Sys2Proof.Machine

/-- A write that passes the checks takes the object's own effect, and its path reports the outcome. -/
theorem guardWrite_takes {s : State} {key : Nat} {v : Word} (h : s.takes key v) (p : Path) (eff : State → WOut) :
    s.guardWrite p key v eff = (eff s).1.report p key (eff s).2 := by
  obtain ⟨h1, h2, h3⟩ := h
  have h4 : s.claims key = false := h3
  simp [State.guardWrite, h1, State.tryWrite, h2, h4]

/-- Nothing is served while RESET_N is low. -/
theorem guardWrite_low {s : State} (h : s.boot.resetLow = true) (p : Path) (key : Nat) (v : Word) (eff : State → WOut) :
    s.guardWrite p key v eff = s := by simp [State.guardWrite, h]

/-- A write that fails a check changes only the counts of refused staged writes and of refused writes to a claimed ADC-B, and its path
reports the refusal. -/
theorem guardWrite_refused {s : State} {key : Nat} {v : Word} (h : s.boot.resetLow = false) (hc : s.checkWrite key v ≠ 0) (p : Path)
    (eff : State → WOut) : s.guardWrite p key v eff
      = ((s.incIf (decide (s.checkWrite key v = 5)) Obj.STAGE_WRITE_REFUSED_CNT).countClaim key (s.checkWrite key v)).report p key
          (s.checkWrite key v) := by
  simp [State.guardWrite, h, State.tryWrite, hc]

/-- Element `j` of a register file after a write of element `i`. -/
theorem vget_vset {α : Type} {n : Nat} (d x : α) (v : Vector α n) (i j : Nat) :
    vget d (vset v i x) j = if i = j ∧ j < n then x else vget d v j := by
  unfold vget vset
  rw [Vector.getElem?_setIfInBounds]
  by_cases h : i = j
  · subst h
    by_cases hn : i < n <;> simp [hn]
  · simp [h]

@[simp] theorem vget_vset_same {α : Type} {n : Nat} (d x : α) (v : Vector α n) {i : Nat} (h : i < n) : vget d (vset v i x) i = x := by
  simp [vget_vset, h]

theorem vget_vset_other {α : Type} {n : Nat} (d x : α) (v : Vector α n) {i j : Nat} (h : i ≠ j) :
    vget d (vset v i x) j = vget d v j := by simp [vget_vset, h]

@[simp] theorem State.lane_setLane (s : State) {n : Nat} (x : Lane) (h : n < 38) : (s.setLane n x).lane n = x := by
  simp [State.lane, h]
@[simp] theorem State.route_setRoute (s : State) {n : Nat} (x : Route) (h : n < 32) : (s.setRoute n x).route n = x := by
  simp [State.route, h]
@[simp] theorem State.arm_setArm (s : State) {n : Nat} (x : Arm) (h : n < 12) : (s.setArm n x).arm n = x := by
  simp [State.arm, h]
@[simp] theorem State.eng_setEng (s : State) {n : Nat} (x : Engine) (h : n < 8) : (s.setEng n x).eng n = x := by
  simp [State.eng, h]
@[simp] theorem State.pwmPair_setPair (s : State) {n : Nat} (x : PwmPair) (h : n < 16) : (s.setPair n x).pwmPair n = x := by
  simp [State.pwmPair, h]
@[simp] theorem State.conv_setConv (s : State) {n : Nat} (x : Adc) (h : n < 2) : (s.setConv n x).conv n = x := by
  simp [State.conv, h]
@[simp] theorem State.dom_setDom (s : State) {n : Nat} (x : Dom) (h : n < 2) : (s.setDom n x).dom n = x := by
  simp [State.dom, h]
@[simp] theorem State.conn_setConn (s : State) {n : Nat} (x : Conn) (h : n < 64) : (s.setConn n x).conn n = x := by
  simp [State.conn, h]
@[simp] theorem State.bank_setBank (s : State) {n : Nat} (x : Bank) (h : n < 173) : (s.setBank n x).bank n = x := by
  simp [State.bank, h]

end Sys2Proof.Machine
end

