-- ==== Sys2Proof/Laws/Cupola.lean ====
section
/-! SUPPORT. The end of an instruction on an engine, and an instruction without moves. -/
namespace Sys2Proof.Machine

theorem canIssue_lt {s : State} {e : Nat} (h : s.canIssue e = true) : e < 8 := by
  rcases Nat.lt_or_ge e 8 with h1 | h1
  · exact h1
  · simp [State.canIssue, State.running, vget, h1] at h

/-- A word of the command's own opcode runs. -/
theorem issued_run {s s1 : State} {e st op : Nat} {w : BitVec 64} (hc : s.canIssue e = true) (h1 : s.issue e st w = s1) (ho : opOf w = op)
    (k : State → State) : s.issued e st w op k = k s1 := by
  simp only [State.issued, hc, h1, ho, ne_eq, not_true_eq_false, decide_false, Bool.false_and, Bool.not_true, Bool.or_false, Bool.false_eq_true,
    if_false, if_true]

/-- The registers after an instruction ends, but for the pc, the loops and the cycles. -/
theorem finish_regs {s : State} {e : Nat} (he : e < 8) (r : EngRegs) :
    ((s.finish e r).eng e).r.d = r.d ∧ ((s.finish e r).eng e).r.acc = r.acc ∧ ((s.finish e r).eng e).r.flg = r.flg ∧
      ((s.finish e r).eng e).r.a = r.a ∧ ((s.finish e r).eng e).r.m = r.m ∧ ((s.finish e r).eng e).r.b = r.b ∧
      ((s.finish e r).eng e).r.l = r.l ∧ ((s.finish e r).eng e).r.stores = r.stores := by
  have h : ∀ (t : State) (n : Nat), ((t.retire e r.step.1).extraCyc e n).eng e
      = { t.eng e with r := { r.step.1 with cycles := r.step.1.cycles + n }, hazards := { (t.eng e).hazards with clk := (t.eng e).hazards.clk + n } } := by
    intro t n
    simp only [State.extraCyc, State.retire, State.eng_setEng _ _ he]
  unfold State.finish
  simp only [h]
  unfold EngRegs.step
  split
  · split
    · split <;> simp
    · simp
  · simp

/-- The memories and the other engines after an instruction ends. -/
theorem finish_frame {s : State} {e : Nat} (r : EngRegs) :
    (s.finish e r).sram = s.sram ∧ (s.finish e r).flash = s.flash ∧ (s.finish e r).act = s.act ∧
      ∀ j, j ≠ e → (s.finish e r).eng j = s.eng j := by
  refine ⟨rfl, rfl, rfl, ?_⟩
  intro j hj
  have h : ∀ (t : State) (x : Engine), (t.setEng e x).eng j = t.eng j := fun t x => vget_vset_other _ _ _ (Ne.symm hj)
  unfold State.finish State.extraCyc
  dsimp only
  rw [h]
  show ((s.retire e r.step.1).eng j) = _
  unfold State.retire
  rw [h]
  rfl

/-- A format P instruction whose two moves are none. -/
theorem withMoves_none {s : State} {e : Nat} {x : PWord} (hx : x.mx = 0) (hy : x.my = 0) (op : EngRegs → EngRegs) :
    s.withMoves e x op = s.finish e { op (s.eng e).r with stores := (s.eng e).r.stores } := by
  have h0 : moveOf 0 = ⟨0, 0, 0, 0, 0⟩ := by decide
  simp only [State.withMoves, hx, hy, h0, State.moveLoads, Move.storeData, State.moveStores, Move.satStore, List.append_nil, List.foldl_nil,
    EngRegs.setDs, EngRegs.setA, Move.updates, Move.bus, flgSticky]
  simp

/-- No move faults where there is none. -/
theorem movesFault_none (r : EngRegs) (wr : Option Nat) : movesFault r (moveOf 0) (moveOf 0) wr = 0 := by
  have h0 : moveOf 0 = ⟨0, 0, 0, 0, 0⟩ := by decide
  simp only [h0, movesFault]
  cases wr <;> simp [Move.illegal, Move.dst, Move.oddReg, Move.pair, Move.updates, Move.bus, Move.fault]

/-- A bit of a word of which one bit was written. -/
theorem nbit_bset (f : Word) {i j : Nat} (b : Bool) (_hi : i < 32) (hj : j < 32) :
    nbit (bset f i b).toNat j = if i = j then b else nbit f.toNat j := by
  show (bset f i b).getLsbD j = if i = j then b else f.getLsbD j
  unfold bset
  have h2 : (BitVec.ofNat 32 (2 ^ i)).getLsbD j = decide (i = j) := by
    rw [BitVec.getLsbD_ofNat, Nat.testBit_two_pow]
    simp [hj]
  cases b
  · simp only [Bool.false_eq_true, if_false, BitVec.getLsbD_and, BitVec.getLsbD_not, h2]
    by_cases h : i = j <;> simp [hj, h]
  · simp only [if_true, BitVec.getLsbD_or, h2]
    by_cases h : i = j <;> simp [h]

/-- A bit of FLG after a sticky bit was set or kept. -/
theorem nbit_sticky (f : Word) {i j : Nat} (b : Bool) (hi : i < 32) (hj : j < 32) :
    nbit (flgSticky f i b).toNat j = if i = j then (nbit f.toNat j || b) else nbit f.toNat j := by
  unfold flgSticky
  cases b
  · simp
  · simp only [if_true, nbit_bset f true hi hj, Bool.or_true]

/-- What an accumulator holds of an exact result. -/
theorem sat72_limit (y : Int) : (sat72 y).1.toInt = accLimited y ∧ (sat72 y).2 = decide (accLimited y ≠ y) := by
  have h : clampInt (-(2 ^ 71)) (2 ^ 71 - 1) y = accLimited y := by
    unfold clampInt accLimited
    split
    · rfl
    · split <;> rfl
  have hr : -(2 ^ 71) ≤ accLimited y ∧ accLimited y ≤ 2 ^ 71 - 1 := by
    unfold accLimited
    split
    · omega
    · split <;> omega
  refine ⟨?_, by simp only [sat72, h]⟩
  simp only [sat72, h, BitVec.toInt_ofInt]
  rw [Int.bmod_eq_of_le] <;> omega

theorem guard_beyond (y : Int) : Sys2Proof.Machine.guard y = beyond64 y := by
  unfold Sys2Proof.Machine.guard beyond64
  congr 1

/-- The flags of an accumulator result. -/
theorem accFlags_bits (f : Word) (y : Int) : nbit (accFlags f y).toNat 9 = (nbit f.toNat 9 || decide (accLimited y ≠ y)) ∧
    nbit (accFlags f y).toNat 4 = beyond64 y := by
  unfold accFlags
  dsimp only
  rw [nbit_sticky _ _ (by omega) (by omega), nbit_sticky _ _ (by omega) (by omega), (sat72_limit y).2, ← guard_beyond]
  constructor
  · rw [if_pos rfl, nbit_bset _ _ (by omega) (by omega), nbit_bset _ _ (by omega) (by omega), nbit_bset _ _ (by omega) (by omega)]
    rfl
  · rw [if_neg (by omega), nbit_bset _ _ (by omega) (by omega)]
    rfl

/-- The flags of four accumulator results. -/
theorem quadFlags_bits (f : Word) (xs : List Int) :
    nbit (quadFlags f xs).toNat 9 = (nbit f.toNat 9 || xs.any fun y => decide (accLimited y ≠ y)) ∧
      nbit (quadFlags f xs).toNat 4 = xs.any beyond64 := by
  unfold quadFlags
  rw [nbit_sticky _ _ (by omega) (by omega), nbit_sticky _ _ (by omega) (by omega), if_pos rfl, if_neg (by omega),
    nbit_bset _ _ (by omega) (by omega), nbit_bset _ _ (by omega) (by omega)]
  have h1 : (fun y => (sat72 y).2) = fun y => decide (accLimited y ≠ y) := funext fun y => (sat72_limit y).2
  have h2 : (Sys2Proof.Machine.guard) = beyond64 := funext guard_beyond
  rw [h1, h2]
  exact ⟨rfl, rfl⟩

/-- The contribution of two operands to an accumulator (R242). -/
theorem product_eq (f a b : Word) : product f a b = if nbit f.toNat 24 then 2 * (a.toInt * b.toInt) else a.toInt * b.toInt := rfl

/-- What writing one accumulator leaves, beside the flags. -/
theorem setAcc_frame (r : EngRegs) (k : Nat) (y : Int) : (r.setAcc k y).d = r.d ∧ (r.setAcc k y).a = r.a ∧ (r.setAcc k y).flg = accFlags r.flg y ∧
    ∀ j, j < 4 → (r.setAcc k y).accI j = if j = k then accLimited y else r.accI j := by
  refine ⟨rfl, rfl, rfl, fun j hj => ?_⟩
  show (vget 0 (vset r.acc k (sat72 y).1) j).toInt = _
  rw [vget_vset]
  by_cases h : j = k
  · rw [if_pos ⟨h.symm, hj⟩, if_pos h, (sat72_limit y).1]
  · rw [if_neg (fun x => h x.1.symm), if_neg h]; rfl

/-- What writing all four accumulators leaves. -/
theorem setQuad_frame (r : EngRegs) (y : Nat → Int) : (r.setQuad y).d = r.d ∧ (r.setQuad y).a = r.a ∧
    (r.setQuad y).flg = quadFlags r.flg [y 0, y 1, y 2, y 3] ∧ ∀ j, j < 4 → (r.setQuad y).accI j = accLimited (y j) := by
  refine ⟨rfl, rfl, rfl, fun j hj => ?_⟩
  show (vget 0 (vset (vset (vset (vset r.acc 0 (sat72 (y 0)).1) 1 (sat72 (y 1)).1) 2 (sat72 (y 2)).1) 3 (sat72 (y 3)).1) j).toInt = _
  rw [← (sat72_limit (y j)).1]
  have h4 : j = 3 ∨ j = 2 ∨ j = 1 ∨ j = 0 := by omega
  rcases h4 with rfl | rfl | rfl | rfl
  · rw [vget_vset, if_pos ⟨rfl, hj⟩]
  · rw [vget_vset, if_neg (by omega), vget_vset, if_pos ⟨rfl, hj⟩]
  · rw [vget_vset, if_neg (by omega), vget_vset, if_neg (by omega), vget_vset, if_pos ⟨rfl, hj⟩]
  · rw [vget_vset, if_neg (by omega), vget_vset, if_neg (by omega), vget_vset, if_neg (by omega), vget_vset, if_pos ⟨rfl, hj⟩]

/-- A format P instruction that may issue, meets its encoding and has no moves ends with its own effect alone. -/
theorem pInstr_plain {s s1 : State} {e st op : Nat} {w : BitVec 64} {ok : Bool} (hc : s.canIssue e = true) (h1 : s.issue e st w = s1)
    (ho : opOf w = op) (hx : (PWord.of w).mx = 0) (hy : (PWord.of w).my = 0) (hk : ok = true) (f : EngRegs → EngRegs) :
    s.pInstr e st w op ok false f = s1.finish e { f (s1.eng e).r with stores := (s1.eng e).r.stores } := by
  subst hk
  unfold State.pInstr
  rw [issued_run hc h1 ho]
  simp only [hx, hy, movesFault_none, Bool.not_true, Bool.false_eq_true, if_false, ne_eq, not_true_eq_false]
  rw [withMoves_none hx hy]

/-- The conversion of an accumulator value meets the rule's relation (R244). -/
theorem convert_convertsTo (f : Word) (v : Int) : convertsTo (nbit f.toNat 24) v (convert f v).1 (convert f v).2 := by
  have key : ∀ u : Int, (if u < -(2 ^ 31) then (i32 (clampInt (-2147483648) 2147483647 u)).toInt = -(2 ^ 31) ∧
        decide (clampInt (-2147483648) 2147483647 u ≠ u) = true
      else if 2 ^ 31 - 1 < u then (i32 (clampInt (-2147483648) 2147483647 u)).toInt = 2 ^ 31 - 1 ∧
        decide (clampInt (-2147483648) 2147483647 u ≠ u) = true
      else (i32 (clampInt (-2147483648) 2147483647 u)).toInt = u ∧ decide (clampInt (-2147483648) 2147483647 u ≠ u) = false) := by
    intro u
    have hb : ∀ z : Int, -(2 ^ 31) ≤ z → z ≤ 2 ^ 31 - 1 → (i32 z).toInt = z := by
      intro z h1 h2
      simp only [i32, BitVec.toInt_ofInt]
      rw [Int.bmod_eq_of_le] <;> omega
    split
    · next h => rw [clampInt, if_pos (by omega)]; exact ⟨hb _ (by omega) (by omega), by simp; omega⟩
    · next h =>
      split
      · next h2 => rw [clampInt, if_neg (by omega), if_pos (by omega)]; exact ⟨hb _ (by omega) (by omega), by simp; omega⟩
      · next h2 => rw [clampInt, if_neg (by omega), if_neg (by omega)]; exact ⟨hb _ (by omega) (by omega), by simp⟩
  unfold convertsTo convert
  by_cases hf : flgFm f = true
  · have hf2 : nbit f.toNat 24 = true := hf
    simp only [hf, hf2, if_true]
    refine ⟨_, ⟨floorDiv v 4294967296, v - floorDiv v 4294967296 * 4294967296, ?_, ?_, ?_, rfl⟩, key _⟩
    all_goals unfold floorDiv; rw [Int.fdiv_eq_ediv_of_nonneg _ (by omega)]; omega
  · have hf3 : flgFm f = false := by simpa using hf
    have hf2 : nbit f.toNat 24 = false := hf3
    simp only [hf2, hf3, Bool.false_eq_true, if_false]
    exact ⟨v, rfl, key v⟩

/-- A conversion of LDACC lies within 72 bits. -/
theorem accLimited_accLoad (f x : Word) : accLimited (accLoad f x) = accLoad f x := by
  have h1 := BitVec.le_toInt x
  have h2 := BitVec.toInt_lt (x := x)
  unfold accLimited accLoad
  split <;> split <;> omega

/-- No move faults where there is none, whichever register the operation writes. -/
theorem movesFault_writes (r : EngRegs) (n : Nat) : movesFault r (moveOf 0) (moveOf 0) (some n) = 0 := movesFault_none r (some n)

/-- The same of an instruction whose operation writes a D register. -/
theorem pInstr_plain2 {s s1 : State} {e st op : Nat} {w : BitVec 64} {ok : Bool} (hc : s.canIssue e = true) (h1 : s.issue e st w = s1)
    (ho : opOf w = op) (hx : (PWord.of w).mx = 0) (hy : (PWord.of w).my = 0) (hk : ok = true) (f : EngRegs → EngRegs) :
    s.pInstr e st w op ok true f = s1.finish e { f (s1.eng e).r with stores := (s1.eng e).r.stores } := by
  subst hk
  unfold State.pInstr
  rw [issued_run hc h1 ho]
  simp only [hx, hy, movesFault_none, Bool.not_true, Bool.false_eq_true, if_false, ne_eq, not_true_eq_false]
  rw [withMoves_none hx hy]

/-- SV after a conversion. -/
theorem setConv_bit8 (r : EngRegs) (n : BitVec 4) (v : Int) :
    nbit (r.setConv n v).flg.toNat 8 = (nbit r.flg.toNat 8 || (convert r.flg v).2) := by
  unfold EngRegs.setConv flgZN
  dsimp only
  rw [nbit_sticky _ _ (by omega) (by omega), if_pos rfl, nbit_bset _ _ (by omega) (by omega), nbit_bset _ _ (by omega) (by omega)]
  rfl

/-- The move that is none. -/
theorem noMove (r : EngRegs) : (moveOf 0).illegal = false ∧ (moveOf 0).dst = [] ∧ (moveOf 0).oddReg = false ∧ (moveOf 0).updates = false ∧
    ∀ b, (moveOf 0).fault b r = 0 := by
  refine ⟨by decide, by decide, by decide, by decide, fun b => ?_⟩
  have h : (moveOf 0).bus = false := by decide
  simp only [Move.fault, h, if_true]

/-- A move that stores an accumulator: legal, and it writes no D register. -/
theorem accMove {m : Move} (h5 : m.mt = 5) (hr : m.reg < 4) (hd : m.am = 0 ∨ m.disp = 0) :
    m.illegal = false ∧ m.dst = [] ∧ m.oddReg = false := by
  refine ⟨?_, by simp [Move.dst, h5], by simp [Move.oddReg, Move.pair, h5]⟩
  simp only [Move.illegal, h5]
  rcases hd with h | h <;> simp [h] <;> omega

theorem movesFault_accX {r : EngRegs} {m : Move} (h5 : m.mt = 5) (hr : m.reg < 4) (hd : m.am = 0 ∨ m.disp = 0) (he : m.ea r < 8192) :
    movesFault r m (moveOf 0) none = 0 := by
  obtain ⟨n1, n2, n3, n4, n5⟩ := noMove r
  obtain ⟨a1, a2, a3⟩ := accMove h5 hr hd
  have hf : m.fault true r = 0 := by
    have hw : xWritable (m.ea r) = true := by simp [xWritable]; omega
    simp [Move.fault, Move.bus, Move.pair, Move.stores, Move.addrs, h5, hw]
  simp only [movesFault, n1, n2, n3, n4, n5, a1, a2, a3, hf]
  simp

theorem movesFault_accY {r : EngRegs} {m : Move} (h5 : m.mt = 5) (hr : m.reg < 4) (hd : m.am = 0 ∨ m.disp = 0) (he : m.ea r < 8192) :
    movesFault r (moveOf 0) m none = 0 := by
  obtain ⟨n1, n2, n3, n4, n5⟩ := noMove r
  obtain ⟨a1, a2, a3⟩ := accMove h5 hr hd
  have hf : m.fault false r = 0 := by
    have hw : yMapped (m.ea r) = true := by simp [yMapped]; omega
    simp [Move.fault, Move.bus, Move.pair, Move.addrs, h5, hw]
  simp only [movesFault, n1, n2, n3, n4, n5, a1, a2, a3, hf]
  simp

/-- NOP with a move that stores an accumulator on the X bus. -/
theorem accStore_x {s s1 : State} {e st : Nat} {w : BitVec 64} {x : PWord} (hc : s.canIssue e = true) (h1 : s.issue e st w = s1)
    (ho : opOf w = 0) (hpw : PWord.of w = x)
    (hw : twf sramDefault s1.sram = true) (g1 : x.f1 = 0) (g2 : x.f2 = 0) (g3 : x.f3 = 0) (g4 : x.f4 = 0) (hy : x.my = 0)
    (m5 : (moveOf x.mx).mt = 5) (mr : (moveOf x.mx).reg < 4) (ma : (moveOf x.mx).am = 0 ∨ (moveOf x.mx).disp = 0)
    (me : (moveOf x.mx).ea (s1.eng e).r < 8192) :
    ∃ t v sat, execNop e st w s = .next t ∧ convertsTo (nbit (s1.eng e).r.flg.toNat 24) ((s1.eng e).r.accI (moveOf x.mx).reg) v sat ∧
      t.rdW (xAddr e 0 + 4 * (moveOf x.mx).ea (s1.eng e).r) = v ∧
      (∀ a, ¬ (xAddr e 0 + 4 * (moveOf x.mx).ea (s1.eng e).r ≤ a ∧ a < xAddr e 0 + 4 * (moveOf x.mx).ea (s1.eng e).r + 4) →
        tget sramDefault t.sram a = tget sramDefault s1.sram a) ∧
      (t.eng e).r.d = (s1.eng e).r.d ∧ (t.eng e).r.acc = (s1.eng e).r.acc ∧
      nbit (t.eng e).r.flg.toNat 8 = (nbit (s1.eng e).r.flg.toNat 8 || sat) := by
  have he := canIssue_lt hc
  have h0 : moveOf 0 = ⟨0, 0, 0, 0, 0⟩ := by decide
  generalize hm : moveOf x.mx = m at *
  have hA : xAddr e (m.ea (s1.eng e).r) = xAddr e 0 + 4 * m.ea (s1.eng e).r := by unfold xAddr bankAddr; omega
  have hX : execNop e st w s = .next (s1.withMoves e x fun r => r) := by
    unfold execNop State.pInstr
    dsimp only
    rw [issued_run hc h1 ho, hpw]
    simp only [hy, hm, g1, g2, g3, g4, movesFault_accX m5 mr ma me, decide_true, Bool.and_self, Bool.not_true,
      Bool.false_eq_true, if_false, ne_eq, not_true_eq_false]
  generalize hcv : convert (s1.eng e).r.flg (vget 0 (s1.eng e).r.acc m.reg).toInt = cv
  have hl : ∀ b, s1.moveLoads e b m (s1.eng e).r = [] := fun b => by simp only [State.moveLoads, m5]
  have hl0 : ∀ b, s1.moveLoads e b (moveOf 0) (s1.eng e).r = [] := fun b => by rw [h0]; rfl
  have hs : m.storeData (s1.eng e).r = [(m.ea (s1.eng e).r, cv.1)] := by simp only [Move.storeData, m5, hcv]
  have hs0 : (moveOf 0).storeData (s1.eng e).r = [] := by rw [h0]; rfl
  have ht : m.satStore (s1.eng e).r = cv.2 := by simp only [Move.satStore, m5, hcv, decide_true, Bool.true_and]
  have ht0 : (moveOf 0).satStore (s1.eng e).r = false := by rw [h0]; rfl
  have hset : ∀ (r : EngRegs) (v : BitVec 20), r.setA (moveOf 0) v = r := fun r v => by rw [h0]; rfl
  have hY : ∀ (t : State) (v : Word), t.moveStores e true [(m.ea (s1.eng e).r, v)] = t.wrW (xAddr e (m.ea (s1.eng e).r)) v := by
    intro t v
    rfl
  have hN : ∀ (t : State) (b : Bool), t.moveStores e b [] = t := fun t b => rfl
  have hW : s1.withMoves e x (fun r => r) = (s1.wrW (xAddr e (m.ea (s1.eng e).r)) cv.1).finish e
      { (s1.eng e).r.setA m (m.after (s1.eng e).r) with
        flg := flgSticky ((s1.eng e).r.setA m (m.after (s1.eng e).r)).flg 8 cv.2,
        stores := ((s1.wrW (xAddr e (m.ea (s1.eng e).r)) cv.1).eng e).r.stores } := by
    unfold State.withMoves
    dsimp only
    rw [hy, hm, hl, hl0, hs, hs0, ht, ht0]
    rw [hY, hN, hset]
    simp only [List.append_nil, EngRegs.setDs, List.foldl_nil, Bool.or_false]
  have hset2 : ∀ v, ((s1.eng e).r.setA m v).d = (s1.eng e).r.d ∧ ((s1.eng e).r.setA m v).acc = (s1.eng e).r.acc ∧
      ((s1.eng e).r.setA m v).flg = (s1.eng e).r.flg := fun v => by unfold EngRegs.setA; split <;> exact ⟨rfl, rfl, rfl⟩
  obtain ⟨q1, q2, q3⟩ := hset2 (m.after (s1.eng e).r)
  rw [hX, hW]
  refine ⟨_, cv.1, cv.2, rfl, ?_, ?_⟩
  · rw [← hcv]; exact convert_convertsTo (s1.eng e).r.flg _
  have fin : ∀ (B : State) (R : EngRegs), (B.finish e R).sram = B.sram ∧ ((B.finish e R).eng e).r.d = R.d ∧
      ((B.finish e R).eng e).r.acc = R.acc ∧ ((B.finish e R).eng e).r.flg = R.flg := fun B R =>
    ⟨(finish_frame R).1, (finish_regs he R).1, (finish_regs he R).2.1, (finish_regs he R).2.2.1⟩
  obtain ⟨f1, r1, r2, r3⟩ := fin (s1.wrW (xAddr e (m.ea (s1.eng e).r)) cv.1)
    { (s1.eng e).r.setA m (m.after (s1.eng e).r) with
        flg := flgSticky ((s1.eng e).r.setA m (m.after (s1.eng e).r)).flg 8 cv.2,
        stores := ((s1.wrW (xAddr e (m.ea (s1.eng e).r)) cv.1).eng e).r.stores }
  refine ⟨?_, ?_, r1.trans q1, r2.trans q2, ?_⟩
  · unfold State.rdW State.rdBytes
    rw [f1, ← hA]
    exact rdW_wrW hw _ _
  · intro a ha
    rw [f1]
    exact tget_wrW_other hw _ (by rw [hA]; exact ha)
  · rw [r3, q3, nbit_sticky _ _ (by omega) (by omega), if_pos rfl]


/-- NOP with a move that stores an accumulator on the Y bus. -/
theorem accStore_y {s s1 : State} {e st : Nat} {w : BitVec 64} {x : PWord} (hc : s.canIssue e = true) (h1 : s.issue e st w = s1)
    (ho : opOf w = 0) (hpw : PWord.of w = x)
    (hw : twf sramDefault s1.sram = true) (g1 : x.f1 = 0) (g2 : x.f2 = 0) (g3 : x.f3 = 0) (g4 : x.f4 = 0) (hy : x.mx = 0)
    (m5 : (moveOf x.my).mt = 5) (mr : (moveOf x.my).reg < 4) (ma : (moveOf x.my).am = 0 ∨ (moveOf x.my).disp = 0)
    (me : (moveOf x.my).ea (s1.eng e).r < 8192) :
    ∃ t v sat, execNop e st w s = .next t ∧ convertsTo (nbit (s1.eng e).r.flg.toNat 24) ((s1.eng e).r.accI (moveOf x.my).reg) v sat ∧
      t.rdW (yAddr e 0 + 4 * (moveOf x.my).ea (s1.eng e).r) = v ∧
      (∀ a, ¬ (yAddr e 0 + 4 * (moveOf x.my).ea (s1.eng e).r ≤ a ∧ a < yAddr e 0 + 4 * (moveOf x.my).ea (s1.eng e).r + 4) →
        tget sramDefault t.sram a = tget sramDefault s1.sram a) ∧
      (t.eng e).r.d = (s1.eng e).r.d ∧ (t.eng e).r.acc = (s1.eng e).r.acc ∧
      nbit (t.eng e).r.flg.toNat 8 = (nbit (s1.eng e).r.flg.toNat 8 || sat) := by
  have he := canIssue_lt hc
  have h0 : moveOf 0 = ⟨0, 0, 0, 0, 0⟩ := by decide
  generalize hm : moveOf x.my = m at *
  have hA : yAddr e (m.ea (s1.eng e).r) = yAddr e 0 + 4 * m.ea (s1.eng e).r := by unfold yAddr bankAddr; omega
  have hX : execNop e st w s = .next (s1.withMoves e x fun r => r) := by
    unfold execNop State.pInstr
    dsimp only
    rw [issued_run hc h1 ho, hpw]
    simp only [hy, hm, g1, g2, g3, g4, movesFault_accY m5 mr ma me, decide_true, Bool.and_self, Bool.not_true,
      Bool.false_eq_true, if_false, ne_eq, not_true_eq_false]
  generalize hcv : convert (s1.eng e).r.flg (vget 0 (s1.eng e).r.acc m.reg).toInt = cv
  have hl : ∀ b, s1.moveLoads e b m (s1.eng e).r = [] := fun b => by simp only [State.moveLoads, m5]
  have hl0 : ∀ b, s1.moveLoads e b (moveOf 0) (s1.eng e).r = [] := fun b => by rw [h0]; rfl
  have hs : m.storeData (s1.eng e).r = [(m.ea (s1.eng e).r, cv.1)] := by simp only [Move.storeData, m5, hcv]
  have hs0 : (moveOf 0).storeData (s1.eng e).r = [] := by rw [h0]; rfl
  have ht : m.satStore (s1.eng e).r = cv.2 := by simp only [Move.satStore, m5, hcv, decide_true, Bool.true_and]
  have ht0 : (moveOf 0).satStore (s1.eng e).r = false := by rw [h0]; rfl
  have hset : ∀ (r : EngRegs) (v : BitVec 20), r.setA (moveOf 0) v = r := fun r v => by rw [h0]; rfl
  have hY : ∀ (t : State) (v : Word), t.moveStores e false [(m.ea (s1.eng e).r, v)] = t.wrW (yAddr e (m.ea (s1.eng e).r)) v := by
    intro t v
    simp only [State.moveStores, List.foldl_cons, List.foldl_nil, Bool.false_eq_true, if_false, State.writeY]; rw [if_pos (by omega)]
  have hN : ∀ (t : State) (b : Bool), t.moveStores e b [] = t := fun t b => rfl
  have hW : s1.withMoves e x (fun r => r) = (s1.wrW (yAddr e (m.ea (s1.eng e).r)) cv.1).finish e
      { (s1.eng e).r.setA m (m.after (s1.eng e).r) with
        flg := flgSticky ((s1.eng e).r.setA m (m.after (s1.eng e).r)).flg 8 cv.2,
        stores := ((s1.wrW (yAddr e (m.ea (s1.eng e).r)) cv.1).eng e).r.stores } := by
    unfold State.withMoves
    dsimp only
    rw [hy, hm, hl, hl0, hs, hs0, ht, ht0]
    rw [hN, hY, hset]
    simp only [List.append_nil, EngRegs.setDs, List.foldl_nil, Bool.false_or]
  have hset2 : ∀ v, ((s1.eng e).r.setA m v).d = (s1.eng e).r.d ∧ ((s1.eng e).r.setA m v).acc = (s1.eng e).r.acc ∧
      ((s1.eng e).r.setA m v).flg = (s1.eng e).r.flg := fun v => by unfold EngRegs.setA; split <;> exact ⟨rfl, rfl, rfl⟩
  obtain ⟨q1, q2, q3⟩ := hset2 (m.after (s1.eng e).r)
  rw [hX, hW]
  refine ⟨_, cv.1, cv.2, rfl, ?_, ?_⟩
  · rw [← hcv]; exact convert_convertsTo (s1.eng e).r.flg _
  have fin : ∀ (B : State) (R : EngRegs), (B.finish e R).sram = B.sram ∧ ((B.finish e R).eng e).r.d = R.d ∧
      ((B.finish e R).eng e).r.acc = R.acc ∧ ((B.finish e R).eng e).r.flg = R.flg := fun B R =>
    ⟨(finish_frame R).1, (finish_regs he R).1, (finish_regs he R).2.1, (finish_regs he R).2.2.1⟩
  obtain ⟨f1, r1, r2, r3⟩ := fin (s1.wrW (yAddr e (m.ea (s1.eng e).r)) cv.1)
    { (s1.eng e).r.setA m (m.after (s1.eng e).r) with
        flg := flgSticky ((s1.eng e).r.setA m (m.after (s1.eng e).r)).flg 8 cv.2,
        stores := ((s1.wrW (yAddr e (m.ea (s1.eng e).r)) cv.1).eng e).r.stores }
  refine ⟨?_, ?_, r1.trans q1, r2.trans q2, ?_⟩
  · unfold State.rdW State.rdBytes
    rw [f1, ← hA]
    exact rdW_wrW hw _ _
  · intro a ha
    rw [f1]
    exact tget_wrW_other hw _ (by rw [hA]; exact ha)
  · rw [r3, q3, nbit_sticky _ _ (by omega) (by omega), if_pos rfl]

/-- What a D operation that may saturate writes (R261). -/
theorem satD_result (f : Word) (y : Int) (c : Bool) : (satD f y c).1 = BitVec.ofInt 32
    (if nbit f.toNat 25 && decide (y < -(2 ^ 31)) then -(2 ^ 31) else if nbit f.toNat 25 && decide (2 ^ 31 - 1 < y) then 2 ^ 31 - 1 else y) := by
  unfold satD clampInt i32
  show (if flgSatd f = true then _ else _) = _
  have h : nbit f.toNat 25 = flgSatd f := rfl
  rw [h]
  cases flgSatd f
  · simp
  · simp only [if_true, Bool.true_and, decide_eq_true_eq]
    congr 1

/-- The bits of FLG that ZNCV and DV name. -/
theorem zncvDv_bits (f w : Word) (c v sa : Bool) {j : Nat} (hj : j < 32) : nbit (flgSticky (flgCV (flgZN f w) c v) 10 (v && sa)).toNat j =
    if j = 0 then decide (w = 0) else if j = 1 then w.getLsbD 31 else if j = 2 then c else if j = 3 then v
    else if j = 10 then nbit f.toNat 10 || (v && sa) else nbit f.toNat j := by
  unfold flgCV flgZN
  rw [nbit_sticky _ _ (by omega) hj]
  repeat rw [nbit_bset _ _ (by omega) hj]
  by_cases h10 : j = 10
  · subst h10; simp
  · rw [if_neg (fun h => h10 h.symm)]
    by_cases h3 : j = 3
    · subst h3; simp
    · by_cases h2 : j = 2
      · subst h2; simp
      · by_cases h1 : j = 1
        · subst h1; simp
        · by_cases h0 : j = 0
          · subst h0; simp
          · simp [h0, h1, h2, h3, h10, Ne.symm h0, Ne.symm h1, Ne.symm h2, Ne.symm h3]

/-- FLG after a D operation that may saturate, over the result it wrote. -/
theorem satD_snd (f : Word) (y : Int) (c : Bool) : (satD f y c).2 = flgSticky (flgCV (flgZN f (satD f y c).1) c
    (decide (y < -2147483648) || decide (2147483647 < y))) 10 ((decide (y < -2147483648) || decide (2147483647 < y)) && flgSatd f) := by
  simp only [satD]

/-- FLG after a D operation that may saturate (R243, R261). -/
theorem satD_flags (f : Word) (y : Int) (c : Bool) {j : Nat} (hj : j < 32) : nbit (satD f y c).2.toNat j =
    if j = 0 then decide ((satD f y c).1 = 0) else if j = 1 then (satD f y c).1.getLsbD 31 else if j = 2 then c
    else if j = 3 then decide (y < -2147483648) || decide (2147483647 < y)
    else if j = 10 then nbit f.toNat 10 || ((decide (y < -2147483648) || decide (2147483647 < y)) && flgSatd f) else nbit f.toNat j := by
  rw [satD_snd, zncvDv_bits _ _ _ _ _ hj]

end Sys2Proof.Machine
end

