-- ==== Sys2Proof/Laws/Keeps.lean ====
section
/-! SUPPORT. What every command keeps: the canonical form of both memories, the queue, the life-cycle state (R462), the tick once it has
begun (R21), WT_FAULT once it is latched (R389), and, but for the commands that change them, the flash, the active copy and the frame count. The lemmas here are the rules by which the operations' own lemmas are put together. -/
namespace Sys2Proof.Machine

/-- What is kept: the queue, a lower bound of the life-cycle code, whether ticking and WT_FAULT are to stay, and, where they are to stay,
the flash, the active copy of the staged objects and the frame count. -/
structure Kept where
  pending : List Instr
  life : Nat
  ticking : Bool
  fault : Bool
  flash : Option (List Host.Cell)
  act : Option (List (Nat × Word))
  count : Option Nat

/-- A state keeps `c`. -/
structure State.Ok (s : State) (c : Kept) : Prop where
  sram : twf sramDefault s.sram = true
  flash : twf flashDefault s.flash = true
  pending : s.pending = c.pending
  life : c.life ≤ s.mem.life.code
  fusing : ∀ x, s.mem.fusing = some x → s.mem.life.code ≤ x.code
  ticking : c.ticking = true → s.frame.ticking = true
  fault : c.fault = true → s.wt.fault = true
  flashIs : ∀ x, c.flash = some x → s.flash = x
  actIs : ∀ x, c.act = some x → s.act = x
  countIs : ∀ x, c.count = some x → s.frame.count = x

/-- A state that differs in none of these keeps what the other one keeps. -/
theorem State.Ok.same {κ : Kept} {s t : State} (h : s.Ok κ) (h1 : t.sram = s.sram) (h2 : t.flash = s.flash)
    (h3 : t.pending = s.pending) (h4 : t.mem.life = s.mem.life) (h7 : t.mem.fusing = s.mem.fusing) (h5 : t.frame.ticking = s.frame.ticking)
    (h6 : t.wt.fault = s.wt.fault) (h8 : t.act = s.act) (h9 : t.frame.count = s.frame.count) : t.Ok κ :=
  ⟨h1 ▸ h.sram, h2 ▸ h.flash, h3 ▸ h.pending, h4 ▸ h.life, h4 ▸ h7 ▸ h.fusing, fun k => h5 ▸ h.ticking k, fun k => h6 ▸ h.fault k,
    fun x k => h2 ▸ h.flashIs x k, fun x k => h8 ▸ h.actIs x k, fun x k => h9 ▸ h.countIs x k⟩

/-- The same of the parts that matter. -/
def OkOf (κ : Kept) (sram flash : List Host.Cell) (pending : List Instr) (mem : MemSt) (frame : FrameSt) (wt : WtSt)
    (act : List (Nat × Word)) : Prop :=
  ∃ s : State, s.sram = sram ∧ s.flash = flash ∧ s.pending = pending ∧ s.mem = mem ∧ s.frame = frame ∧ s.wt = wt ∧ s.act = act ∧ s.Ok κ

theorem okOf {κ : Kept} {s : State} {sram flash : List Host.Cell} {pending : List Instr} {mem : MemSt} {frame : FrameSt} {wt : WtSt}
    {act : List (Nat × Word)} (h : s.Ok κ) (h1 : sram = s.sram) (h2 : flash = s.flash) (h3 : pending = s.pending)
    (h4 : mem.life = s.mem.life) (h7 : mem.fusing = s.mem.fusing) (h5 : frame.ticking = s.frame.ticking) (h6 : wt.fault = s.wt.fault)
    (h8 : act = s.act) (h9 : frame.count = s.frame.count) :
    OkOf κ sram flash pending mem frame wt act :=
  ⟨{ s with sram := sram, flash := flash, pending := pending, mem := mem, frame := frame, wt := wt, act := act }, rfl, rfl, rfl, rfl, rfl,
    rfl, rfl, ⟨h1 ▸ h.sram, h2 ▸ h.flash, h3 ▸ h.pending, h4 ▸ h.life, h4 ▸ h7 ▸ h.fusing, fun k => h5 ▸ h.ticking k, fun k => h6 ▸ h.fault k,
      fun x k => h2 ▸ h.flashIs x k, fun x k => h8 ▸ h.actIs x k, fun x k => h9 ▸ h.countIs x k⟩⟩

/-- WT_FAULT is latched. -/
theorem okOf_fault {κ : Kept} {s : State} {sram flash : List Host.Cell} {pending : List Instr} {mem : MemSt} {frame : FrameSt} {wt : WtSt}
    {act : List (Nat × Word)} (h : s.Ok κ) (h1 : sram = s.sram) (h2 : flash = s.flash) (h3 : pending = s.pending)
    (h4 : mem.life = s.mem.life) (h7 : mem.fusing = s.mem.fusing) (h5 : frame.ticking = s.frame.ticking) (h6 : wt.fault = true)
    (h8 : act = s.act) (h9 : frame.count = s.frame.count) :
    OkOf κ sram flash pending mem frame wt act :=
  ⟨{ s with sram := sram, flash := flash, pending := pending, mem := mem, frame := frame, wt := wt, act := act }, rfl, rfl, rfl, rfl, rfl,
    rfl, rfl, ⟨h1 ▸ h.sram, h2 ▸ h.flash, h3 ▸ h.pending, h4 ▸ h.life, h4 ▸ h7 ▸ h.fusing, fun k => h5 ▸ h.ticking k, fun _ => h6,
      fun x k => h2 ▸ h.flashIs x k, fun x k => h8 ▸ h.actIs x k, fun x k => h9 ▸ h.countIs x k⟩⟩

/-- The tick begins. -/
theorem okOf_tick {κ : Kept} {s : State} {sram flash : List Host.Cell} {pending : List Instr} {mem : MemSt} {frame : FrameSt} {wt : WtSt}
    {act : List (Nat × Word)} (h : s.Ok κ) (h1 : sram = s.sram) (h2 : flash = s.flash) (h3 : pending = s.pending)
    (h4 : mem.life = s.mem.life) (h7 : mem.fusing = s.mem.fusing) (h5 : frame.ticking = true) (h6 : wt.fault = s.wt.fault)
    (h8 : act = s.act) (hN : κ.count = none) :
    OkOf κ sram flash pending mem frame wt act :=
  ⟨{ s with sram := sram, flash := flash, pending := pending, mem := mem, frame := frame, wt := wt, act := act }, rfl, rfl, rfl, rfl, rfl,
    rfl, rfl, ⟨h1 ▸ h.sram, h2 ▸ h.flash, h3 ▸ h.pending, h4 ▸ h.life, h4 ▸ h7 ▸ h.fusing, fun _ => h5, fun k => h6 ▸ h.fault k,
      fun x k => h2 ▸ h.flashIs x k, fun x k => h8 ▸ h.actIs x k, fun x k => absurd (hN.symm.trans k) (by simp)⟩⟩

/-- The frame count moves. -/
theorem okOf_count {κ : Kept} {s : State} {sram flash : List Host.Cell} {pending : List Instr} {mem : MemSt} {frame : FrameSt} {wt : WtSt}
    {act : List (Nat × Word)} (h : s.Ok κ) (h1 : sram = s.sram) (h2 : flash = s.flash) (h3 : pending = s.pending)
    (h4 : mem.life = s.mem.life) (h7 : mem.fusing = s.mem.fusing) (h5 : frame.ticking = s.frame.ticking) (h6 : wt.fault = s.wt.fault)
    (h8 : act = s.act) (hN : κ.count = none) :
    OkOf κ sram flash pending mem frame wt act :=
  ⟨{ s with sram := sram, flash := flash, pending := pending, mem := mem, frame := frame, wt := wt, act := act }, rfl, rfl, rfl, rfl, rfl,
    rfl, rfl, ⟨h1 ▸ h.sram, h2 ▸ h.flash, h3 ▸ h.pending, h4 ▸ h.life, h4 ▸ h7 ▸ h.fusing, fun k => h5 ▸ h.ticking k, fun k => h6 ▸ h.fault k,
      fun x k => h2 ▸ h.flashIs x k, fun x k => h8 ▸ h.actIs x k, fun x k => absurd (hN.symm.trans k) (by simp)⟩⟩

/-- The active copy changes. -/
theorem okOf_act {κ : Kept} {s : State} {sram flash : List Host.Cell} {pending : List Instr} {mem : MemSt} {frame : FrameSt} {wt : WtSt}
    {act : List (Nat × Word)} (h : s.Ok κ) (h1 : sram = s.sram) (h2 : flash = s.flash) (h3 : pending = s.pending)
    (h4 : mem.life = s.mem.life) (h7 : mem.fusing = s.mem.fusing) (h5 : frame.ticking = s.frame.ticking) (h6 : wt.fault = s.wt.fault) (h9 : frame.count = s.frame.count) (hN : κ.act = none) :
    OkOf κ sram flash pending mem frame wt act :=
  ⟨{ s with sram := sram, flash := flash, pending := pending, mem := mem, frame := frame, wt := wt, act := act }, rfl, rfl, rfl, rfl, rfl,
    rfl, rfl, ⟨h1 ▸ h.sram, h2 ▸ h.flash, h3 ▸ h.pending, h4 ▸ h.life, h4 ▸ h7 ▸ h.fusing, fun k => h5 ▸ h.ticking k, fun k => h6 ▸ h.fault k,
      fun x k => h2 ▸ h.flashIs x k, fun x k => absurd (hN.symm.trans k) (by simp), fun x k => h9 ▸ h.countIs x k⟩⟩

/-- A part of the SRAM is cleared. -/
theorem okOf_clear {κ : Kept} {lo hi : Nat} {sram flash : List Host.Cell} {pending : List Instr} {mem : MemSt} {frame : FrameSt}
    {wt : WtSt} {act : List (Nat × Word)} (h : OkOf κ sram flash pending mem frame wt act) :
    OkOf κ (tclear lo hi sram) flash pending mem frame wt act := by
  obtain ⟨s, rfl, rfl, rfl, rfl, rfl, rfl, rfl, h⟩ := h
  exact ⟨{ s with sram := tclear lo hi s.sram }, rfl, rfl, rfl, rfl, rfl, rfl, rfl,
    ⟨twf_tclear h.sram, h.flash, h.pending, h.life, h.fusing, h.ticking, h.fault, h.flashIs, h.actIs, h.countIs⟩⟩

/-- A part of the flash is erased. -/
theorem okOf_erase {κ : Kept} {lo hi : Nat} {sram flash : List Host.Cell} {pending : List Instr} {mem : MemSt} {frame : FrameSt}
    {wt : WtSt} {act : List (Nat × Word)} (h : OkOf κ sram flash pending mem frame wt act) (hN : κ.flash = none) :
    OkOf κ sram (tclear lo hi flash) pending mem frame wt act := by
  obtain ⟨s, rfl, rfl, rfl, rfl, rfl, rfl, rfl, h⟩ := h
  exact ⟨{ s with flash := tclear lo hi s.flash }, rfl, rfl, rfl, rfl, rfl, rfl, rfl,
    ⟨h.sram, twf_tclear h.flash, h.pending, h.life, h.fusing, h.ticking, h.fault, fun x k => absurd (hN.symm.trans k) (by simp),
      h.actIs, h.countIs⟩⟩

/-- A state written out as its fields, which are those of a state that keeps `c` or do not matter. -/
theorem ok_mk {κ : Kept} {pending : List Instr} {live : List (Nat × Word)} {act : List (Nat × Word)} {stg : List (Nat
    × Word)} {kAct : List (Nat × Word)} {kStg : List (Nat × Word)} {sram : List Host.Cell} {flash : List Host.Cell} {free : Nat} {mode
    : Mode} {boot : BootSt} {commit : CommitSt} {img : ImgSt} {frame : FrameSt} {modes : ModeSt} {lanes : Vector Lane 38} {routes :
    RouteSt} {launch : LaunchSt} {ledger : LedgerSt} {arms : Vector Arm 12} {sel : SelSt} {cup : CupolaSt} {sched : SchedSt} {aids :
    AidsSt} {time : TimeSt} {samples : List StreamRec} {phasor : PhasorSt} {wave : WaveSt} {acq : AcqSt} {adc : AdcSt} {pwm : PwmSt} {wt : WtSt} {pair : PairSt}
    {fault : FaultSt} {mem : MemSt} {irq : IrqSt} {jrn : JrnSt} {dict : DictSt} {power : PowerSt} {jtag : JtagSt} :
    State.Ok ⟨pending, live, act, stg, kAct, kStg, sram, flash, free, mode, boot, commit, img, frame, modes, lanes, routes,
      launch, ledger, arms, sel, cup, sched, aids, time, samples, phasor, wave, acq, adc, pwm, wt, pair, fault, mem, irq, jrn, dict, power, jtag⟩
      κ = OkOf κ sram flash pending mem frame wt act := by
  apply propext
  constructor
  · intro h
    exact ⟨_, rfl, rfl, rfl, rfl, rfl, rfl, rfl, h⟩
  · rintro ⟨s, rfl, rfl, rfl, rfl, rfl, rfl, rfl, h⟩
    exact h.same rfl rfl rfl rfl rfl rfl rfl rfl rfl

theorem ite_ok {κ : Kept} {p : Prop} [Decidable p] {a b : State} (ha : p → a.Ok κ) (hb : ¬p → b.Ok κ) : (if p then a else b).Ok κ := by
  split
  · exact ha ‹_›
  · exact hb ‹_›

/-- The outcome of an effect, where there is one, keeps `κ`. -/
def OptOk (κ : Kept) (o : Option (State × Nat)) : Prop := ∀ r, o = some r → r.1.Ok κ

theorem some_ok {κ : Kept} {r : State × Nat} (h : r.1.Ok κ) : OptOk κ (some r) := fun _ e => Option.some.inj e ▸ h

theorem none_ok {κ : Kept} : OptOk κ none := fun _ e => nomatch e

theorem optIte_ok {κ : Kept} {p : Prop} [Decidable p] {a b : Option (State × Nat)} (ha : p → OptOk κ a) (hb : ¬p → OptOk κ b) :
    OptOk κ (if p then a else b) := by
  split
  · exact ha ‹_›
  · exact hb ‹_›

theorem orElse_ok {κ : Kept} {a : Option (State × Nat)} {b : Unit → Option (State × Nat)} (ha : OptOk κ a) (hb : OptOk κ (b ())) :
    OptOk κ (a.orElse b) := by
  cases a with
  | none => exact hb
  | some r => exact ha

theorem getD_ok {κ : Kept} {o : Option (State × Nat)} {d : State × Nat} (ho : OptOk κ o) (hd : d.1.Ok κ) : (o.getD d).1.Ok κ := by
  cases o with
  | none => exact hd
  | some r => exact ho r rfl

theorem foldl_ok {κ : Kept} {α : Type} {f : State → α → State} {l : List α} {s : State} (h : s.Ok κ)
    (hf : ∀ t x, t.Ok κ → (f t x).Ok κ) : (l.foldl f s).Ok κ := by
  induction l generalizing s with
  | nil => exact h
  | cons x l ih => exact ih (hf s x h)

theorem foldl_ok_fst {κ : Kept} {α β : Type} {f : State × β → α → State × β} {l : List α} {s : State × β} (h : s.1.Ok κ)
    (hf : ∀ t x, t.1.Ok κ → (f t x).1.Ok κ) : (l.foldl f s).1.Ok κ := by
  induction l generalizing s with
  | nil => exact h
  | cons x l ih => exact ih (hf s x h)

theorem each_ok {κ : Kept} {f : State → Nat → State} {l : List Nat} {s : State} (h : s.Ok κ)
    (hf : ∀ t x, t.Ok κ → (f t x).Ok κ) : (s.each l f).Ok κ := foldl_ok h hf

theorem wrBytes_ok {κ : Kept} {s : State} (h : s.Ok κ) {a : Nat} {bs : List Byte} : (s.wrBytes a bs).Ok κ :=
  ⟨twf_tputs h.sram, h.flash, h.pending, h.life, h.fusing, h.ticking, h.fault, h.flashIs, h.actIs, h.countIs⟩

theorem wrFlash_ok {κ : Kept} {s : State} (h : s.Ok κ) (hF : κ.flash = none) {a : Nat} {bs : List Byte} : (s.wrFlash a bs).Ok κ :=
  ⟨h.sram, twf_tputs h.flash, h.pending, h.life, h.fusing, h.ticking, h.fault, fun x k => absurd (hF.symm.trans k) (by simp), h.actIs,
    h.countIs⟩

end Sys2Proof.Machine
end

