-- ==== Sys2Proof/Laws/KeepsOps.lean ====
section
/-! SUPPORT. The operations of Ops.lean keep what Keeps.lean names. -/
namespace Sys2Proof.Machine
set_option linter.all false

theorem setL_ok {κ : Kept} {s : State} {k : Nat} {v : Word} (hκ : s.Ok κ) : (State.setL s k v).Ok κ := by
  unfold State.setL
  try dsimp only
  repeat' first
    | with_reducible assumption
    | with_reducible apply ite_ok
    | intro _
    | with_reducible refine okOf ?_ rfl rfl rfl rfl rfl rfl rfl rfl rfl
    | simp only [ok_mk]
    | split
    | refine okOf ?_ rfl rfl rfl rfl rfl rfl rfl rfl rfl
    | dsimp only

theorem setA_ok {κ : Kept} {s : State} {k : Nat} {v : Word} (hκ : s.Ok κ) (hA : κ.act = none) : (State.setA s k v).Ok κ := by
  unfold State.setA
  try dsimp only
  repeat' first
    | with_reducible assumption
    | with_reducible apply ite_ok
    | intro _
    | with_reducible refine okOf ?_ rfl rfl rfl rfl rfl rfl rfl rfl rfl
    | with_reducible refine okOf_act ?_ rfl rfl rfl rfl rfl rfl rfl rfl ?_
    | simp only [ok_mk]
    | split
    | refine okOf ?_ rfl rfl rfl rfl rfl rfl rfl rfl rfl
    | dsimp only

theorem setS_ok {κ : Kept} {s : State} {k : Nat} {v : Word} (hκ : s.Ok κ) : (State.setS s k v).Ok κ := by
  unfold State.setS
  try dsimp only
  repeat' first
    | with_reducible assumption
    | with_reducible apply ite_ok
    | intro _
    | with_reducible refine okOf ?_ rfl rfl rfl rfl rfl rfl rfl rfl rfl
    | simp only [ok_mk]
    | split
    | refine okOf ?_ rfl rfl rfl rfl rfl rfl rfl rfl rfl
    | dsimp only

theorem setK_ok {κ : Kept} {s : State} {k : Nat} {v : Word} (hκ : s.Ok κ) : (State.setK s k v).Ok κ := by
  unfold State.setK
  try dsimp only
  repeat' first
    | with_reducible assumption
    | with_reducible apply ite_ok
    | intro _
    | with_reducible refine okOf ?_ rfl rfl rfl rfl rfl rfl rfl rfl rfl
    | simp only [ok_mk]
    | split
    | refine okOf ?_ rfl rfl rfl rfl rfl rfl rfl rfl rfl
    | dsimp only

theorem setKS_ok {κ : Kept} {s : State} {k : Nat} {v : Word} (hκ : s.Ok κ) : (State.setKS s k v).Ok κ := by
  unfold State.setKS
  try dsimp only
  repeat' first
    | with_reducible assumption
    | with_reducible apply ite_ok
    | intro _
    | with_reducible refine okOf ?_ rfl rfl rfl rfl rfl rfl rfl rfl rfl
    | simp only [ok_mk]
    | split
    | refine okOf ?_ rfl rfl rfl rfl rfl rfl rfl rfl rfl
    | dsimp only

theorem setLN_ok {κ : Kept} {s : State} {k n : Nat} (hκ : s.Ok κ) : (State.setLN s k n).Ok κ := by
  unfold State.setLN
  try dsimp only
  repeat' first
    | with_reducible assumption
    | with_reducible apply setL_ok
    | with_reducible apply ite_ok
    | intro _
    | with_reducible refine okOf ?_ rfl rfl rfl rfl rfl rfl rfl rfl rfl
    | simp only [ok_mk]
    | split
    | refine okOf ?_ rfl rfl rfl rfl rfl rfl rfl rfl rfl
    | dsimp only

theorem setLI_ok {κ : Kept} {s : State} {k : Nat} {n : Int} (hκ : s.Ok κ) : (State.setLI s k n).Ok κ := by
  unfold State.setLI
  try dsimp only
  repeat' first
    | with_reducible assumption
    | with_reducible apply setL_ok
    | with_reducible apply ite_ok
    | intro _
    | with_reducible refine okOf ?_ rfl rfl rfl rfl rfl rfl rfl rfl rfl
    | simp only [ok_mk]
    | split
    | refine okOf ?_ rfl rfl rfl rfl rfl rfl rfl rfl rfl
    | dsimp only

theorem setL64_ok {κ : Kept} {s : State} {k n : Nat} (hκ : s.Ok κ) : (State.setL64 s k n).Ok κ := by
  unfold State.setL64
  try dsimp only
  repeat' first
    | with_reducible assumption
    | with_reducible apply setL_ok
    | with_reducible apply ite_ok
    | intro _
    | with_reducible refine okOf ?_ rfl rfl rfl rfl rfl rfl rfl rfl rfl
    | simp only [ok_mk]
    | split
    | refine okOf ?_ rfl rfl rfl rfl rfl rfl rfl rfl rfl
    | dsimp only

theorem addL_ok {κ : Kept} {s : State} {k n : Nat} (hκ : s.Ok κ) : (State.addL s k n).Ok κ := by
  unfold State.addL
  try dsimp only
  repeat' first
    | with_reducible assumption
    | with_reducible apply setL_ok
    | with_reducible apply ite_ok
    | intro _
    | with_reducible refine okOf ?_ rfl rfl rfl rfl rfl rfl rfl rfl rfl
    | simp only [ok_mk]
    | split
    | refine okOf ?_ rfl rfl rfl rfl rfl rfl rfl rfl rfl
    | dsimp only

theorem incL_ok {κ : Kept} {s : State} {k : Nat} (hκ : s.Ok κ) : (State.incL s k).Ok κ := by
  unfold State.incL
  try dsimp only
  repeat' first
    | with_reducible assumption
    | with_reducible apply addL_ok
    | with_reducible apply ite_ok
    | intro _
    | with_reducible refine okOf ?_ rfl rfl rfl rfl rfl rfl rfl rfl rfl
    | simp only [ok_mk]
    | split
    | refine okOf ?_ rfl rfl rfl rfl rfl rfl rfl rfl rfl
    | dsimp only

theorem incIf_ok {κ : Kept} {s : State} {c : Bool} {k : Nat} (hκ : s.Ok κ) : (State.incIf s c k).Ok κ := by
  unfold State.incIf
  try dsimp only
  repeat' first
    | with_reducible assumption
    | with_reducible apply incL_ok
    | with_reducible apply ite_ok
    | intro _
    | with_reducible refine okOf ?_ rfl rfl rfl rfl rfl rfl rfl rfl rfl
    | simp only [ok_mk]
    | split
    | refine okOf ?_ rfl rfl rfl rfl rfl rfl rfl rfl rfl
    | dsimp only

theorem draw_ok {κ : Kept} {s : State} (hκ : s.Ok κ) : (State.draw s).2.Ok κ := by
  unfold State.draw
  try dsimp only
  repeat' first
    | with_reducible assumption
    | with_reducible apply ite_ok
    | intro _
    | with_reducible refine okOf ?_ rfl rfl rfl rfl rfl rfl rfl rfl rfl
    | simp only [ok_mk]
    | split
    | refine okOf ?_ rfl rfl rfl rfl rfl rfl rfl rfl rfl
    | dsimp only

theorem wrW_ok {κ : Kept} {s : State} {a : Nat} {v : Word} (hκ : s.Ok κ) : (State.wrW s a v).Ok κ := by
  unfold State.wrW
  try dsimp only
  repeat' first
    | with_reducible assumption
    | with_reducible apply wrBytes_ok
    | with_reducible apply ite_ok
    | intro _
    | with_reducible refine okOf ?_ rfl rfl rfl rfl rfl rfl rfl rfl rfl
    | simp only [ok_mk]
    | split
    | refine okOf ?_ rfl rfl rfl rfl rfl rfl rfl rfl rfl
    | dsimp only

theorem setLane_ok {κ : Kept} {s : State} {n : Nat} {l : Lane} (hκ : s.Ok κ) : (State.setLane s n l).Ok κ := by
  unfold State.setLane
  try dsimp only
  repeat' first
    | with_reducible assumption
    | with_reducible apply ite_ok
    | intro _
    | with_reducible refine okOf ?_ rfl rfl rfl rfl rfl rfl rfl rfl rfl
    | simp only [ok_mk]
    | split
    | refine okOf ?_ rfl rfl rfl rfl rfl rfl rfl rfl rfl
    | dsimp only

theorem setRoute_ok {κ : Kept} {s : State} {n : Nat} {r : Route} (hκ : s.Ok κ) : (State.setRoute s n r).Ok κ := by
  unfold State.setRoute
  try dsimp only
  repeat' first
    | with_reducible assumption
    | with_reducible apply ite_ok
    | intro _
    | with_reducible refine okOf ?_ rfl rfl rfl rfl rfl rfl rfl rfl rfl
    | simp only [ok_mk]
    | split
    | refine okOf ?_ rfl rfl rfl rfl rfl rfl rfl rfl rfl
    | dsimp only

theorem setArm_ok {κ : Kept} {s : State} {a : Nat} {x : Arm} (hκ : s.Ok κ) : (State.setArm s a x).Ok κ := by
  unfold State.setArm
  try dsimp only
  repeat' first
    | with_reducible assumption
    | with_reducible apply ite_ok
    | intro _
    | with_reducible refine okOf ?_ rfl rfl rfl rfl rfl rfl rfl rfl rfl
    | simp only [ok_mk]
    | split
    | refine okOf ?_ rfl rfl rfl rfl rfl rfl rfl rfl rfl
    | dsimp only

theorem setEng_ok {κ : Kept} {s : State} {e : Nat} {x : Engine} (hκ : s.Ok κ) : (State.setEng s e x).Ok κ := by
  unfold State.setEng
  try dsimp only
  repeat' first
    | with_reducible assumption
    | with_reducible apply ite_ok
    | intro _
    | with_reducible refine okOf ?_ rfl rfl rfl rfl rfl rfl rfl rfl rfl
    | simp only [ok_mk]
    | split
    | refine okOf ?_ rfl rfl rfl rfl rfl rfl rfl rfl rfl
    | dsimp only

theorem setPair_ok {κ : Kept} {s : State} {p : Nat} {x : PwmPair} (hκ : s.Ok κ) : (State.setPair s p x).Ok κ := by
  unfold State.setPair
  try dsimp only
  repeat' first
    | with_reducible assumption
    | with_reducible apply ite_ok
    | intro _
    | with_reducible refine okOf ?_ rfl rfl rfl rfl rfl rfl rfl rfl rfl
    | simp only [ok_mk]
    | split
    | refine okOf ?_ rfl rfl rfl rfl rfl rfl rfl rfl rfl
    | dsimp only

theorem setConv_ok {κ : Kept} {s : State} {i : Nat} {x : Adc} (hκ : s.Ok κ) : (State.setConv s i x).Ok κ := by
  unfold State.setConv
  try dsimp only
  repeat' first
    | with_reducible assumption
    | with_reducible apply ite_ok
    | intro _
    | with_reducible refine okOf ?_ rfl rfl rfl rfl rfl rfl rfl rfl rfl
    | simp only [ok_mk]
    | split
    | refine okOf ?_ rfl rfl rfl rfl rfl rfl rfl rfl rfl
    | dsimp only

theorem setDom_ok {κ : Kept} {s : State} {d : Nat} {x : Dom} (hκ : s.Ok κ) : (State.setDom s d x).Ok κ := by
  unfold State.setDom
  try dsimp only
  repeat' first
    | with_reducible assumption
    | with_reducible apply ite_ok
    | intro _
    | with_reducible refine okOf ?_ rfl rfl rfl rfl rfl rfl rfl rfl rfl
    | simp only [ok_mk]
    | split
    | refine okOf ?_ rfl rfl rfl rfl rfl rfl rfl rfl rfl
    | dsimp only

theorem setConn_ok {κ : Kept} {s : State} {c : Nat} {x : Conn} (hκ : s.Ok κ) : (State.setConn s c x).Ok κ := by
  unfold State.setConn
  try dsimp only
  repeat' first
    | with_reducible assumption
    | with_reducible apply ite_ok
    | intro _
    | with_reducible refine okOf ?_ rfl rfl rfl rfl rfl rfl rfl rfl rfl
    | simp only [ok_mk]
    | split
    | refine okOf ?_ rfl rfl rfl rfl rfl rfl rfl rfl rfl
    | dsimp only

theorem setBank_ok {κ : Kept} {s : State} {b : Nat} {x : Bank} (hκ : s.Ok κ) : (State.setBank s b x).Ok κ := by
  unfold State.setBank
  try dsimp only
  repeat' first
    | with_reducible assumption
    | with_reducible apply ite_ok
    | intro _
    | with_reducible refine okOf ?_ rfl rfl rfl rfl rfl rfl rfl rfl rfl
    | simp only [ok_mk]
    | split
    | refine okOf ?_ rfl rfl rfl rfl rfl rfl rfl rfl rfl
    | dsimp only

theorem wakeBank_ok {κ : Kept} {s : State} {b : Nat} (hκ : s.Ok κ) : (State.wakeBank s b).Ok κ := by
  unfold State.wakeBank
  try dsimp only
  repeat' first
    | with_reducible assumption
    | with_reducible apply setBank_ok
    | with_reducible apply ite_ok
    | intro _
    | with_reducible refine okOf ?_ rfl rfl rfl rfl rfl rfl rfl rfl rfl
    | simp only [ok_mk]
    | split
    | refine okOf ?_ rfl rfl rfl rfl rfl rfl rfl rfl rfl
    | dsimp only

theorem touchBank_ok {κ : Kept} {s : State} {b : Nat} (hκ : s.Ok κ) : (State.touchBank s b).Ok κ := by
  unfold State.touchBank
  try dsimp only
  repeat' first
    | with_reducible assumption
    | with_reducible apply wakeBank_ok
    | with_reducible apply ite_ok
    | intro _
    | with_reducible refine okOf ?_ rfl rfl rfl rfl rfl rfl rfl rfl rfl
    | simp only [ok_mk]
    | split
    | refine okOf ?_ rfl rfl rfl rfl rfl rfl rfl rfl rfl
    | dsimp only

theorem putCopy_ok {κ : Kept} {s : State} {b k : Nat} {v : Word} (hκ : s.Ok κ) (hA : κ.act = none) : (State.putCopy s b k v).Ok κ := by
  unfold State.putCopy
  try dsimp only
  repeat' first
    | with_reducible assumption
    | with_reducible apply ite_ok
    | intro _
    | with_reducible refine okOf ?_ rfl rfl rfl rfl rfl rfl rfl rfl rfl
    | with_reducible refine okOf_act ?_ rfl rfl rfl rfl rfl rfl rfl rfl ?_
    | simp only [ok_mk]
    | split
    | refine okOf ?_ rfl rfl rfl rfl rfl rfl rfl rfl rfl
    | dsimp only

theorem putBank_ok {κ : Kept} {s : State} {b w : Nat} {v : Word} (hκ : s.Ok κ) (hA : κ.act = none) : (State.putBank s b w v).Ok κ := by
  unfold State.putBank
  try dsimp only
  repeat' first
    | with_reducible assumption
    | with_reducible apply putCopy_ok
    | with_reducible apply wrW_ok
    | with_reducible apply ite_ok
    | intro _
    | with_reducible refine okOf ?_ rfl rfl rfl rfl rfl rfl rfl rfl rfl
    | simp only [ok_mk]
    | split
    | refine okOf ?_ rfl rfl rfl rfl rfl rfl rfl rfl rfl
    | dsimp only

theorem clearSram_ok {κ : Kept} {s : State} {b : Nat} (hκ : s.Ok κ) : (State.clearSram s b).Ok κ := by
  unfold State.clearSram
  try dsimp only
  repeat' first
    | with_reducible assumption
    | with_reducible apply ite_ok
    | intro _
    | with_reducible refine okOf ?_ rfl rfl rfl rfl rfl rfl rfl rfl rfl
    | with_reducible apply okOf_clear
    | with_reducible apply okOf_erase
    | simp only [ok_mk]
    | split
    | refine okOf ?_ rfl rfl rfl rfl rfl rfl rfl rfl rfl
    | dsimp only

theorem clearBank_ok {κ : Kept} {s : State} {b : Nat} (hκ : s.Ok κ) (hA : κ.act = none) : (State.clearBank s b).Ok κ := by
  unfold State.clearBank
  try dsimp only
  repeat' first
    | with_reducible assumption
    | with_reducible apply clearSram_ok
    | with_reducible apply putBank_ok
    | with_reducible apply foldl_ok
    | with_reducible apply foldl_ok_fst
    | with_reducible apply ite_ok
    | intro _
    | with_reducible refine okOf ?_ rfl rfl rfl rfl rfl rfl rfl rfl rfl
    | with_reducible apply okOf_clear
    | with_reducible apply okOf_erase
    | simp only [ok_mk]
    | split
    | refine okOf ?_ rfl rfl rfl rfl rfl rfl rfl rfl rfl
    | dsimp only

theorem wakeDone_ok {κ : Kept} {s : State} {b : Nat} (hκ : s.Ok κ) : (State.wakeDone s b).Ok κ := by
  unfold State.wakeDone
  try dsimp only
  repeat' first
    | with_reducible assumption
    | with_reducible apply clearSram_ok
    | with_reducible apply setBank_ok
    | with_reducible apply ite_ok
    | intro _
    | with_reducible refine okOf ?_ rfl rfl rfl rfl rfl rfl rfl rfl rfl
    | simp only [ok_mk]
    | split
    | refine okOf ?_ rfl rfl rfl rfl rfl rfl rfl rfl rfl
    | dsimp only

theorem ownerOn_ok {κ : Kept} {s : State} {b : Nat} (hκ : s.Ok κ) : (State.ownerOn s b).Ok κ := by
  unfold State.ownerOn
  try dsimp only
  repeat' first
    | with_reducible assumption
    | with_reducible apply touchBank_ok
    | with_reducible apply wakeDone_ok
    | with_reducible apply ite_ok
    | intro _
    | with_reducible refine okOf ?_ rfl rfl rfl rfl rfl rfl rfl rfl rfl
    | simp only [ok_mk]
    | split
    | refine okOf ?_ rfl rfl rfl rfl rfl rfl rfl rfl rfl
    | dsimp only

theorem passNs_ok {κ : Kept} {s : State} {n : Nat} (hκ : s.Ok κ) : (State.passNs s n).Ok κ := by
  unfold State.passNs
  try dsimp only
  repeat' first
    | with_reducible assumption
    | with_reducible apply ite_ok
    | intro _
    | with_reducible refine okOf ?_ rfl rfl rfl rfl rfl rfl rfl rfl rfl
    | simp only [ok_mk]
    | split
    | refine okOf ?_ rfl rfl rfl rfl rfl rfl rfl rfl rfl
    | dsimp only

theorem toL_ok {κ : Kept} {s : State} {l : Nat} (hκ : s.Ok κ) : (State.toL s l).Ok κ := by
  unfold State.toL
  try dsimp only
  repeat' first
    | with_reducible assumption
    | with_reducible apply passNs_ok
    | with_reducible apply ite_ok
    | intro _
    | with_reducible refine okOf ?_ rfl rfl rfl rfl rfl rfl rfl rfl rfl
    | simp only [ok_mk]
    | split
    | refine okOf ?_ rfl rfl rfl rfl rfl rfl rfl rfl rfl
    | dsimp only

theorem toC_ok {κ : Kept} {s : State} {c : Nat} (hκ : s.Ok κ) : (State.toC s c).Ok κ := by
  unfold State.toC
  try dsimp only
  repeat' first
    | with_reducible assumption
    | with_reducible apply passNs_ok
    | with_reducible apply ite_ok
    | intro _
    | with_reducible refine okOf ?_ rfl rfl rfl rfl rfl rfl rfl rfl rfl
    | simp only [ok_mk]
    | split
    | refine okOf ?_ rfl rfl rfl rfl rfl rfl rfl rfl rfl
    | dsimp only

theorem noteOff_ok {κ : Kept} {s : State} (hκ : s.Ok κ) : (State.noteOff s).Ok κ := by
  unfold State.noteOff
  try dsimp only
  repeat' first
    | with_reducible assumption
    | with_reducible apply start_ok
    | with_reducible apply ite_ok
    | intro _
    | with_reducible refine okOf ?_ rfl rfl rfl rfl rfl rfl rfl rfl rfl
    | simp only [ok_mk]
    | split
    | refine okOf ?_ rfl rfl rfl rfl rfl rfl rfl rfl rfl
    | dsimp only

theorem noteTrace_ok {κ : Kept} {s : State} (hκ : s.Ok κ) : (State.noteTrace s).Ok κ := by
  unfold State.noteTrace
  try dsimp only
  repeat' first
    | with_reducible assumption
    | with_reducible apply ite_ok
    | intro _
    | with_reducible refine okOf ?_ rfl rfl rfl rfl rfl rfl rfl rfl rfl
    | simp only [ok_mk]
    | split
    | refine okOf ?_ rfl rfl rfl rfl rfl rfl rfl rfl rfl
    | dsimp only

theorem offStep_ok {κ : Kept} {s o : State} (hκ : s.Ok κ) : (State.offStep s o).Ok κ := by
  unfold State.offStep
  try dsimp only
  repeat' first
    | with_reducible assumption
    | with_reducible apply ite_ok
    | intro _
    | with_reducible refine okOf ?_ rfl rfl rfl rfl rfl rfl rfl rfl rfl
    | simp only [ok_mk]
    | split
    | refine okOf ?_ rfl rfl rfl rfl rfl rfl rfl rfl rfl
    | dsimp only

theorem irqBits_ok {κ : Kept} {s : State} {g : Nat} {bits : Word} (hκ : s.Ok κ) : (State.irqBits s g bits).Ok κ := by
  unfold State.irqBits
  try dsimp only
  repeat' first
    | with_reducible assumption
    | with_reducible apply latch_ok
    | with_reducible apply pend_ok
    | with_reducible apply ite_ok
    | intro _
    | with_reducible refine okOf ?_ rfl rfl rfl rfl rfl rfl rfl rfl rfl
    | simp only [ok_mk]
    | split
    | refine okOf ?_ rfl rfl rfl rfl rfl rfl rfl rfl rfl
    | dsimp only

theorem irqEdge_ok {κ : Kept} {s : State} {g b : Nat} (hκ : s.Ok κ) : (State.irqEdge s g b).Ok κ := by
  unfold State.irqEdge
  try dsimp only
  repeat' first
    | with_reducible assumption
    | with_reducible apply irqBits_ok
    | with_reducible apply ite_ok
    | intro _
    | with_reducible refine okOf ?_ rfl rfl rfl rfl rfl rfl rfl rfl rfl
    | simp only [ok_mk]
    | split
    | refine okOf ?_ rfl rfl rfl rfl rfl rfl rfl rfl rfl
    | dsimp only

theorem irqIf_ok {κ : Kept} {s : State} {c : Bool} {g b : Nat} (hκ : s.Ok κ) : (State.irqIf s c g b).Ok κ := by
  unfold State.irqIf
  try dsimp only
  repeat' first
    | with_reducible assumption
    | with_reducible apply irqEdge_ok
    | with_reducible apply ite_ok
    | intro _
    | with_reducible refine okOf ?_ rfl rfl rfl rfl rfl rfl rfl rfl rfl
    | simp only [ok_mk]
    | split
    | refine okOf ?_ rfl rfl rfl rfl rfl rfl rfl rfl rfl
    | dsimp only

theorem irqLevel_ok {κ : Kept} {s : State} {g b : Nat} {c : Bool} (hκ : s.Ok κ) : (State.irqLevel s g b c).Ok κ := by
  unfold State.irqLevel
  try dsimp only
  repeat' first
    | with_reducible assumption
    | with_reducible apply irqEdge_ok
    | with_reducible apply ite_ok
    | intro _
    | with_reducible refine okOf ?_ rfl rfl rfl rfl rfl rfl rfl rfl rfl
    | simp only [ok_mk]
    | split
    | refine okOf ?_ rfl rfl rfl rfl rfl rfl rfl rfl rfl
    | dsimp only

theorem sdPllLock_ok {κ : Kept} {s : State} {i : Nat} {on : Bool} (hκ : s.Ok κ) : (State.sdPllLock s i on).Ok κ := by
  unfold State.sdPllLock
  try dsimp only
  repeat' first
    | with_reducible assumption
    | with_reducible apply ite_ok
    | intro _
    | with_reducible refine okOf ?_ rfl rfl rfl rfl rfl rfl rfl rfl rfl
    | simp only [ok_mk]
    | split
    | refine okOf ?_ rfl rfl rfl rfl rfl rfl rfl rfl rfl
    | dsimp only

theorem jrnLevels_ok {κ : Kept} {s : State} (hκ : s.Ok κ) : (State.jrnLevels s).Ok κ := by
  unfold State.jrnLevels
  try dsimp only
  repeat' first
    | with_reducible assumption
    | with_reducible apply irqLevel_ok
    | with_reducible apply ite_ok
    | intro _
    | with_reducible refine okOf ?_ rfl rfl rfl rfl rfl rfl rfl rfl rfl
    | simp only [ok_mk]
    | split
    | refine okOf ?_ rfl rfl rfl rfl rfl rfl rfl rfl rfl
    | dsimp only

end Sys2Proof.Machine
end

