-- ==== Sys2Proof/Laws/KeepsSched.lean ====
section
/-! SUPPORT. The operations of Sched.lean keep what Keeps.lean names. -/
namespace Sys2Proof.Machine
set_option linter.all false

theorem setDescDyn_ok {κ : Kept} {s : State} {n : Nat} {x : DescDyn} (hκ : s.Ok κ) : (State.setDescDyn s n x).Ok κ := by
  unfold State.setDescDyn
  try dsimp only
  repeat' first
    | with_reducible assumption
    | with_reducible apply ite_ok
    | intro _
    | with_reducible refine okOf ?_ rfl rfl rfl rfl rfl rfl rfl rfl rfl
    | simp only [ok_mk]
    | split
    | refine okOf ?_ rfl rfl rfl rfl rfl rfl rfl rfl rfl
    | dsimp only

theorem poolLevel_ok {κ : Kept} {s : State} (hκ : s.Ok κ) : (State.poolLevel s).Ok κ := by
  unfold State.poolLevel
  try dsimp only
  repeat' first
    | with_reducible assumption
    | with_reducible apply irqLevel_ok
    | with_reducible apply ite_ok
    | intro _
    | with_reducible refine okOf ?_ rfl rfl rfl rfl rfl rfl rfl rfl rfl
    | simp only [ok_mk]
    | split
    | refine okOf ?_ rfl rfl rfl rfl rfl rfl rfl rfl rfl
    | dsimp only

theorem setEntering_ok {κ : Kept} {s : State} {e : Nat} {x : Option Entering} (hκ : s.Ok κ) : (State.setEntering s e x).Ok κ := by
  unfold State.setEntering
  try dsimp only
  repeat' first
    | with_reducible assumption
    | with_reducible apply ite_ok
    | intro _
    | with_reducible refine okOf ?_ rfl rfl rfl rfl rfl rfl rfl rfl rfl
    | simp only [ok_mk]
    | split
    | refine okOf ?_ rfl rfl rfl rfl rfl rfl rfl rfl rfl
    | dsimp only

theorem setRunning_ok {κ : Kept} {s : State} {e : Nat} {x : Option Inst} (hκ : s.Ok κ) : (State.setRunning s e x).Ok κ := by
  unfold State.setRunning
  try dsimp only
  repeat' first
    | with_reducible assumption
    | with_reducible apply ite_ok
    | intro _
    | with_reducible refine okOf ?_ rfl rfl rfl rfl rfl rfl rfl rfl rfl
    | simp only [ok_mk]
    | split
    | refine okOf ?_ rfl rfl rfl rfl rfl rfl rfl rfl rfl
    | dsimp only

theorem prefetch_ok {κ : Kept} {s : State} {e : Nat} (hκ : s.Ok κ) : (State.prefetch s e).Ok κ := by
  unfold State.prefetch
  try dsimp only
  repeat' first
    | with_reducible assumption
    | with_reducible apply foldl_ok
    | with_reducible apply foldl_ok_fst
    | with_reducible apply ite_ok
    | intro _
    | with_reducible refine okOf ?_ rfl rfl rfl rfl rfl rfl rfl rfl rfl
    | simp only [ok_mk]
    | split
    | refine okOf ?_ rfl rfl rfl rfl rfl rfl rfl rfl rfl
    | dsimp only

theorem prefetchAll_ok {κ : Kept} {s : State} (hκ : s.Ok κ) : (State.prefetchAll s).Ok κ := by
  unfold State.prefetchAll
  try dsimp only
  repeat' first
    | with_reducible assumption
    | with_reducible apply each_ok
    | with_reducible apply prefetch_ok
    | with_reducible apply ite_ok
    | intro _
    | with_reducible refine okOf ?_ rfl rfl rfl rfl rfl rfl rfl rfl rfl
    | simp only [ok_mk]
    | split
    | refine okOf ?_ rfl rfl rfl rfl rfl rfl rfl rfl rfl
    | dsimp only

theorem toHead_ok {κ : Kept} {s : State} {i : Inst} (hκ : s.Ok κ) : (State.toHead s i).Ok κ := by
  unfold State.toHead
  try dsimp only
  repeat' first
    | with_reducible assumption
    | with_reducible apply ite_ok
    | intro _
    | with_reducible refine okOf ?_ rfl rfl rfl rfl rfl rfl rfl rfl rfl
    | simp only [ok_mk]
    | split
    | refine okOf ?_ rfl rfl rfl rfl rfl rfl rfl rfl rfl
    | dsimp only

theorem enterOn_ok {κ : Kept} {s : State} {e : Nat} {i : Inst} (hκ : s.Ok κ) : (State.enterOn s e i).Ok κ := by
  unfold State.enterOn
  try dsimp only
  repeat' first
    | with_reducible assumption
    | with_reducible apply incL_ok
    | with_reducible apply prefetch_ok
    | with_reducible apply select_ok
    | with_reducible apply setEntering_ok
    | with_reducible apply toHead_ok
    | with_reducible apply ite_ok
    | intro _
    | with_reducible refine okOf ?_ rfl rfl rfl rfl rfl rfl rfl rfl rfl
    | simp only [ok_mk]
    | split
    | refine okOf ?_ rfl rfl rfl rfl rfl rfl rfl rfl rfl
    | dsimp only

theorem place_ok {κ : Kept} {s : State} {i : Inst} (hκ : s.Ok κ) : (State.place s i).Ok κ := by
  unfold State.place
  try dsimp only
  repeat' first
    | with_reducible assumption
    | with_reducible apply enterOn_ok
    | with_reducible apply prefetchAll_ok
    | with_reducible apply ite_ok
    | intro _
    | with_reducible refine okOf ?_ rfl rfl rfl rfl rfl rfl rfl rfl rfl
    | simp only [ok_mk]
    | split
    | refine okOf ?_ rfl rfl rfl rfl rfl rfl rfl rfl rfl
    | dsimp only

theorem enroll_ok {κ : Kept} {s : State} {n : Nat} (hκ : s.Ok κ) : (State.enroll s n).Ok κ := by
  unfold State.enroll
  try dsimp only
  repeat' first
    | with_reducible assumption
    | with_reducible apply setDescDyn_ok
    | with_reducible apply ite_ok
    | intro _
    | with_reducible refine okOf ?_ rfl rfl rfl rfl rfl rfl rfl rfl rfl
    | simp only [ok_mk]
    | split
    | refine okOf ?_ rfl rfl rfl rfl rfl rfl rfl rfl rfl
    | dsimp only

theorem start_ok {κ : Kept} {s : State} {n : Nat} (hκ : s.Ok κ) : (State.start s n).Ok κ := by
  unfold State.start
  try dsimp only
  repeat' first
    | with_reducible assumption
    | with_reducible apply enroll_ok
    | with_reducible apply place_ok
    | with_reducible apply poolLevel_ok
    | with_reducible apply ite_ok
    | intro _
    | with_reducible refine okOf ?_ rfl rfl rfl rfl rfl rfl rfl rfl rfl
    | simp only [ok_mk]
    | split
    | refine okOf ?_ rfl rfl rfl rfl rfl rfl rfl rfl rfl
    | dsimp only

theorem placeAll_ok {κ : Kept} {s : State} {l : List Inst} (hκ : s.Ok κ) : (State.placeAll s l).Ok κ := by
  unfold State.placeAll
  try dsimp only
  repeat' first
    | with_reducible assumption
    | with_reducible apply place_ok
    | with_reducible apply poolLevel_ok
    | with_reducible apply foldl_ok
    | with_reducible apply foldl_ok_fst
    | with_reducible apply ite_ok
    | intro _
    | with_reducible refine okOf ?_ rfl rfl rfl rfl rfl rfl rfl rfl rfl
    | simp only [ok_mk]
    | split
    | refine okOf ?_ rfl rfl rfl rfl rfl rfl rfl rfl rfl
    | dsimp only

theorem startAll_ok {κ : Kept} {s : State} {l : List Nat} (hκ : s.Ok κ) : (State.startAll s l).Ok κ := by
  unfold State.startAll
  try dsimp only
  repeat' first
    | with_reducible assumption
    | with_reducible apply each_ok
    | with_reducible apply enroll_ok
    | with_reducible apply placeAll_ok
    | with_reducible apply ite_ok
    | intro _
    | with_reducible refine okOf ?_ rfl rfl rfl rfl rfl rfl rfl rfl rfl
    | simp only [ok_mk]
    | split
    | refine okOf ?_ rfl rfl rfl rfl rfl rfl rfl rfl rfl
    | dsimp only

theorem hwRelease_ok {κ : Kept} {occ : State → State} {x : State × List Inst} {n : Nat} (hκ : x.1.Ok κ) (hocc : ∀ (t : State), t.Ok κ → (occ t).Ok κ) : (hwRelease occ x n).1.Ok κ := by
  unfold hwRelease
  try dsimp only
  repeat' first
    | with_reducible assumption
    | with_reducible apply enroll_ok
    | with_reducible apply incL_ok
    | with_reducible apply irqEdge_ok
    | with_reducible apply pend_ok
    | with_reducible apply setDescDyn_ok
    | with_reducible apply hocc
    | with_reducible apply ite_ok
    | intro _
    | with_reducible refine okOf ?_ rfl rfl rfl rfl rfl rfl rfl rfl rfl
    | simp only [ok_mk]
    | split
    | refine okOf ?_ rfl rfl rfl rfl rfl rfl rfl rfl rfl
    | dsimp only

theorem releaseAll_ok {κ : Kept} {occ : State → State} {l : List Nat} {s : State} (hκ : s.Ok κ) (hocc : ∀ (t : State), t.Ok κ → (occ t).Ok κ) : (releaseAll occ l s).Ok κ := by
  unfold releaseAll
  try dsimp only
  repeat' first
    | with_reducible assumption
    | with_reducible apply hwRelease_ok
    | with_reducible apply placeAll_ok
    | with_reducible apply hocc
    | with_reducible apply foldl_ok
    | with_reducible apply foldl_ok_fst
    | with_reducible apply ite_ok
    | intro _
    | with_reducible refine okOf ?_ rfl rfl rfl rfl rfl rfl rfl rfl rfl
    | simp only [ok_mk]
    | split
    | refine okOf ?_ rfl rfl rfl rfl rfl rfl rfl rfl rfl
    | dsimp only

theorem releaseEvent_ok {κ : Kept} {occ : State → State} {src : Nat} {s : State} (hκ : s.Ok κ) (hocc : ∀ (t : State), t.Ok κ → (occ t).Ok κ) : (releaseEvent occ src s).Ok κ := by
  unfold releaseEvent
  try dsimp only
  repeat' first
    | with_reducible assumption
    | with_reducible apply releaseAll_ok
    | with_reducible apply hocc
    | with_reducible apply ite_ok
    | intro _
    | with_reducible refine okOf ?_ rfl rfl rfl rfl rfl rfl rfl rfl rfl
    | simp only [ok_mk]
    | split
    | refine okOf ?_ rfl rfl rfl rfl rfl rfl rfl rfl rfl
    | dsimp only

theorem enterPending_ok {κ : Kept} {s : State} (hκ : s.Ok κ) : (State.enterPending s).Ok κ := by
  unfold State.enterPending
  try dsimp only
  repeat' first
    | with_reducible assumption
    | with_reducible apply each_ok
    | with_reducible apply incL_ok
    | with_reducible apply pend_ok
    | with_reducible apply setDescDyn_ok
    | with_reducible apply start_ok
    | with_reducible apply ite_ok
    | intro _
    | with_reducible refine okOf ?_ rfl rfl rfl rfl rfl rfl rfl rfl rfl
    | simp only [ok_mk]
    | split
    | refine okOf ?_ rfl rfl rfl rfl rfl rfl rfl rfl rfl
    | dsimp only

theorem dropInst_ok {κ : Kept} {s : State} {id : Nat} (hκ : s.Ok κ) : (State.dropInst s id).Ok κ := by
  unfold State.dropInst
  try dsimp only
  repeat' first
    | with_reducible assumption
    | with_reducible apply ite_ok
    | intro _
    | with_reducible refine okOf ?_ rfl rfl rfl rfl rfl rfl rfl rfl rfl
    | simp only [ok_mk]
    | split
    | refine okOf ?_ rfl rfl rfl rfl rfl rfl rfl rfl rfl
    | dsimp only

theorem nextOn_ok {κ : Kept} {s : State} {e : Nat} (hκ : s.Ok κ) : (State.nextOn s e).Ok κ := by
  unfold State.nextOn
  try dsimp only
  repeat' first
    | with_reducible assumption
    | with_reducible apply incL_ok
    | with_reducible apply prefetch_ok
    | with_reducible apply setEntering_ok
    | with_reducible apply ite_ok
    | intro _
    | with_reducible refine okOf ?_ rfl rfl rfl rfl rfl rfl rfl rfl rfl
    | simp only [ok_mk]
    | split
    | refine okOf ?_ rfl rfl rfl rfl rfl rfl rfl rfl rfl
    | dsimp only

theorem wake_ok {κ : Kept} {s : State} {e : Nat} (hκ : s.Ok κ) : (State.wake s e).Ok κ := by
  unfold State.wake
  try dsimp only
  repeat' first
    | with_reducible assumption
    | with_reducible apply enterOn_ok
    | with_reducible apply prefetch_ok
    | with_reducible apply setEntering_ok
    | with_reducible apply ite_ok
    | intro _
    | with_reducible refine okOf ?_ rfl rfl rfl rfl rfl rfl rfl rfl rfl
    | simp only [ok_mk]
    | split
    | refine okOf ?_ rfl rfl rfl rfl rfl rfl rfl rfl rfl
    | dsimp only

theorem wakeAll_ok {κ : Kept} {s : State} (hκ : s.Ok κ) : (State.wakeAll s).Ok κ := by
  unfold State.wakeAll
  try dsimp only
  repeat' first
    | with_reducible assumption
    | with_reducible apply each_ok
    | with_reducible apply wake_ok
    | with_reducible apply ite_ok
    | intro _
    | with_reducible refine okOf ?_ rfl rfl rfl rfl rfl rfl rfl rfl rfl
    | simp only [ok_mk]
    | split
    | refine okOf ?_ rfl rfl rfl rfl rfl rfl rfl rfl rfl
    | dsimp only

theorem drainStores_ok {κ : Kept} {s : State} {e : Nat} (hκ : s.Ok κ) : (State.drainStores s e).Ok κ := by
  unfold State.drainStores
  try dsimp only
  repeat' first
    | with_reducible assumption
    | with_reducible apply setEng_ok
    | with_reducible apply wrW_ok
    | with_reducible apply foldl_ok
    | with_reducible apply foldl_ok_fst
    | with_reducible apply ite_ok
    | intro _
    | with_reducible refine okOf ?_ rfl rfl rfl rfl rfl rfl rfl rfl rfl
    | simp only [ok_mk]
    | split
    | refine okOf ?_ rfl rfl rfl rfl rfl rfl rfl rfl rfl
    | dsimp only

theorem taskEnd_ok {κ : Kept} {s : State} {e : Nat} (hκ : s.Ok κ) : (State.taskEnd s e).Ok κ := by
  unfold State.taskEnd
  try dsimp only
  repeat' first
    | with_reducible assumption
    | with_reducible apply drainStores_ok
    | with_reducible apply dropInst_ok
    | with_reducible apply enterPending_ok
    | with_reducible apply nextOn_ok
    | with_reducible apply poolLevel_ok
    | with_reducible apply setEng_ok
    | with_reducible apply setEntering_ok
    | with_reducible apply setLN_ok
    | with_reducible apply setRunning_ok
    | with_reducible apply ite_ok
    | intro _
    | with_reducible refine okOf ?_ rfl rfl rfl rfl rfl rfl rfl rfl rfl
    | simp only [ok_mk]
    | split
    | refine okOf ?_ rfl rfl rfl rfl rfl rfl rfl rfl rfl
    | dsimp only

end Sys2Proof.Machine
end

