-- ==== Sys2Proof/Laws/KeepsFaultOps.lean ====
section
/-! SUPPORT. The operations of FaultOps.lean keep what Keeps.lean names. -/
namespace Sys2Proof.Machine
set_option linter.all false

theorem newCycle_ok {κ : Kept} {s : State} (hκ : s.Ok κ) : (State.newCycle s).Ok κ := by
  unfold State.newCycle
  try dsimp only
  repeat' first
    | with_reducible assumption
    | with_reducible apply ite_ok
    | intro _
    | with_reducible refine okOf ?_ rfl rfl rfl rfl rfl rfl rfl rfl rfl
    | simp only [ok_mk]
    | split
    | refine okOf ?_ rfl rfl rfl rfl rfl rfl rfl rfl rfl
    | dsimp only

theorem setResult_ok {κ : Kept} {s : State} {n r : Nat} (hκ : s.Ok κ) : (State.setResult s n r).Ok κ := by
  unfold State.setResult
  try dsimp only
  repeat' first
    | with_reducible assumption
    | with_reducible apply ite_ok
    | intro _
    | with_reducible refine okOf ?_ rfl rfl rfl rfl rfl rfl rfl rfl rfl
    | simp only [ok_mk]
    | split
    | refine okOf ?_ rfl rfl rfl rfl rfl rfl rfl rfl rfl
    | dsimp only

theorem faultLevels_ok {κ : Kept} {s : State} (hκ : s.Ok κ) : (State.faultLevels s).Ok κ := by
  unfold State.faultLevels
  try dsimp only
  repeat' first
    | with_reducible assumption
    | with_reducible apply irqLevel_ok
    | with_reducible apply ite_ok
    | intro _
    | with_reducible refine okOf ?_ rfl rfl rfl rfl rfl rfl rfl rfl rfl
    | simp only [ok_mk]
    | split
    | refine okOf ?_ rfl rfl rfl rfl rfl rfl rfl rfl rfl
    | dsimp only

theorem occur_ok {κ : Kept} {s : State} {n : Nat} (hκ : s.Ok κ) : (State.occur s n).Ok κ := by
  unfold State.occur
  try dsimp only
  repeat' first
    | with_reducible assumption
    | with_reducible apply incL_ok
    | with_reducible apply newCycle_ok
    | with_reducible apply ite_ok
    | intro _
    | with_reducible refine okOf ?_ rfl rfl rfl rfl rfl rfl rfl rfl rfl
    | simp only [ok_mk]
    | split
    | refine okOf ?_ rfl rfl rfl rfl rfl rfl rfl rfl rfl
    | dsimp only

theorem latch_ok {κ : Kept} {s : State} {n base : Nat} (hκ : s.Ok κ) : (State.latch s n base).1.Ok κ := by
  unfold State.latch
  try dsimp only
  repeat' first
    | with_reducible assumption
    | with_reducible apply faultLevels_ok
    | with_reducible apply incIf_ok
    | with_reducible apply irqIf_ok
    | with_reducible apply occur_ok
    | with_reducible apply ite_ok
    | intro _
    | with_reducible refine okOf ?_ rfl rfl rfl rfl rfl rfl rfl rfl rfl
    | simp only [ok_mk]
    | split
    | refine okOf ?_ rfl rfl rfl rfl rfl rfl rfl rfl rfl
    | dsimp only

theorem stageRec_ok {κ : Kept} {s : State} {r : JRec} (hκ : s.Ok κ) : (State.stageRec s r).Ok κ := by
  unfold State.stageRec
  try dsimp only
  repeat' first
    | with_reducible assumption
    | with_reducible apply ite_ok
    | intro _
    | with_reducible refine okOf ?_ rfl rfl rfl rfl rfl rfl rfl rfl rfl
    | simp only [ok_mk]
    | split
    | refine okOf ?_ rfl rfl rfl rfl rfl rfl rfl rfl rfl
    | dsimp only

theorem stageOrLose_ok {κ : Kept} {s : State} {r : JRec} (hκ : s.Ok κ) : (State.stageOrLose s r).Ok κ := by
  unfold State.stageOrLose
  try dsimp only
  repeat' first
    | with_reducible assumption
    | with_reducible apply incL_ok
    | with_reducible apply occur_ok
    | with_reducible apply stageRec_ok
    | with_reducible apply ite_ok
    | intro _
    | with_reducible refine okOf ?_ rfl rfl rfl rfl rfl rfl rfl rfl rfl
    | simp only [ok_mk]
    | split
    | refine okOf ?_ rfl rfl rfl rfl rfl rfl rfl rfl rfl
    | dsimp only

theorem schedPendBy_ok {κ : Kept} {put : State → JRec → State} {s : State} (hκ : s.Ok κ) (hput : ∀ (t : State) z0, t.Ok κ → (put t z0).Ok κ) : (schedPendBy put s).Ok κ := by
  unfold schedPendBy
  try dsimp only
  repeat' first
    | with_reducible assumption
    | with_reducible apply latch_ok
    | with_reducible apply occur_ok
    | with_reducible apply releaseEvent_ok
    | with_reducible apply setResult_ok
    | with_reducible apply hput
    | with_reducible apply ite_ok
    | intro _
    | with_reducible refine okOf ?_ rfl rfl rfl rfl rfl rfl rfl rfl rfl
    | simp only [ok_mk]
    | split
    | refine okOf ?_ rfl rfl rfl rfl rfl rfl rfl rfl rfl
    | dsimp only

theorem dropRecord_ok {κ : Kept} {s : State} (hκ : s.Ok κ) : (State.dropRecord s).Ok κ := by
  unfold State.dropRecord
  try dsimp only
  repeat' first
    | with_reducible assumption
    | with_reducible apply incL_ok
    | with_reducible apply irqEdge_ok
    | with_reducible apply latch_ok
    | with_reducible apply occur_ok
    | with_reducible apply releaseEvent_ok
    | with_reducible apply schedPendBy_ok
    | with_reducible apply setResult_ok
    | with_reducible apply stageOrLose_ok
    | with_reducible apply ite_ok
    | intro _
    | with_reducible refine okOf ?_ rfl rfl rfl rfl rfl rfl rfl rfl rfl
    | simp only [ok_mk]
    | split
    | refine okOf ?_ rfl rfl rfl rfl rfl rfl rfl rfl rfl
    | dsimp only

theorem journalRec_ok {κ : Kept} {s : State} {r : JRec} (hκ : s.Ok κ) : (State.journalRec s r).Ok κ := by
  unfold State.journalRec
  try dsimp only
  repeat' first
    | with_reducible assumption
    | with_reducible apply dropRecord_ok
    | with_reducible apply stageRec_ok
    | with_reducible apply ite_ok
    | intro _
    | with_reducible refine okOf ?_ rfl rfl rfl rfl rfl rfl rfl rfl rfl
    | simp only [ok_mk]
    | split
    | refine okOf ?_ rfl rfl rfl rfl rfl rfl rfl rfl rfl
    | dsimp only

theorem journalNow_ok {κ : Kept} {s : State} {src : Nat} {data : Word} {cont : Bool} (hκ : s.Ok κ) : (State.journalNow s src data cont).Ok κ := by
  unfold State.journalNow
  try dsimp only
  repeat' first
    | with_reducible assumption
    | with_reducible apply journalRec_ok
    | with_reducible apply ite_ok
    | intro _
    | with_reducible refine okOf ?_ rfl rfl rfl rfl rfl rfl rfl rfl rfl
    | simp only [ok_mk]
    | split
    | refine okOf ?_ rfl rfl rfl rfl rfl rfl rfl rfl rfl
    | dsimp only

theorem journalEdge_ok {κ : Kept} {s : State} {src : Nat} {data : Word} {c : Nat} (hκ : s.Ok κ) : (State.journalEdge s src data c).Ok κ := by
  unfold State.journalEdge
  try dsimp only
  repeat' first
    | with_reducible assumption
    | with_reducible apply journalRec_ok
    | with_reducible apply ite_ok
    | intro _
    | with_reducible refine okOf ?_ rfl rfl rfl rfl rfl rfl rfl rfl rfl
    | simp only [ok_mk]
    | split
    | refine okOf ?_ rfl rfl rfl rfl rfl rfl rfl rfl rfl
    | dsimp only

theorem journalAt_ok {κ : Kept} {s : State} {src : Nat} {data : Word} {t : Nat} {trace : Bool} (hκ : s.Ok κ) : (State.journalAt s src data t trace).Ok κ := by
  unfold State.journalAt
  try dsimp only
  repeat' first
    | with_reducible assumption
    | with_reducible apply journalRec_ok
    | with_reducible apply ite_ok
    | intro _
    | with_reducible refine okOf ?_ rfl rfl rfl rfl rfl rfl rfl rfl rfl
    | simp only [ok_mk]
    | split
    | refine okOf ?_ rfl rfl rfl rfl rfl rfl rfl rfl rfl
    | dsimp only

theorem repairRow_ok {κ : Kept} {s : State} {b row : Nat} (hκ : s.Ok κ) : (State.repairRow s b row).1.Ok κ := by
  unfold State.repairRow
  try dsimp only
  repeat' first
    | with_reducible assumption
    | with_reducible apply incL_ok
    | with_reducible apply setBank_ok
    | with_reducible apply ite_ok
    | intro _
    | with_reducible refine okOf ?_ rfl rfl rfl rfl rfl rfl rfl rfl rfl
    | simp only [ok_mk]
    | split
    | refine okOf ?_ rfl rfl rfl rfl rfl rfl rfl rfl rfl
    | dsimp only

theorem transient_ok {κ : Kept} {s : State} {n res : Nat} (hκ : s.Ok κ) : (State.transient s n res).Ok κ := by
  unfold State.transient
  try dsimp only
  repeat' first
    | with_reducible assumption
    | with_reducible apply faultLevels_ok
    | with_reducible apply incL_ok
    | with_reducible apply journalNow_ok
    | with_reducible apply setResult_ok
    | with_reducible apply ite_ok
    | intro _
    | with_reducible refine okOf ?_ rfl rfl rfl rfl rfl rfl rfl rfl rfl
    | simp only [ok_mk]
    | split
    | refine okOf ?_ rfl rfl rfl rfl rfl rfl rfl rfl rfl
    | dsimp only

theorem schedPendInner_ok {κ : Kept} {s : State} (hκ : s.Ok κ) : (schedPendInner s).Ok κ := by
  unfold schedPendInner
  try dsimp only
  repeat' first
    | with_reducible assumption
    | with_reducible apply journalRec_ok
    | with_reducible apply schedPendBy_ok
    | with_reducible apply ite_ok
    | intro _
    | with_reducible refine okOf ?_ rfl rfl rfl rfl rfl rfl rfl rfl rfl
    | simp only [ok_mk]
    | split
    | refine okOf ?_ rfl rfl rfl rfl rfl rfl rfl rfl rfl
    | dsimp only

theorem relatch_ok {κ : Kept} {s : State} {n res : Nat} (hκ : s.Ok κ) : (State.relatch s n res).Ok κ := by
  unfold State.relatch
  try dsimp only
  repeat' first
    | with_reducible assumption
    | with_reducible apply faultLevels_ok
    | with_reducible apply incL_ok
    | with_reducible apply irqEdge_ok
    | with_reducible apply journalNow_ok
    | with_reducible apply releaseEvent_ok
    | with_reducible apply schedPendInner_ok
    | with_reducible apply ite_ok
    | intro _
    | with_reducible refine okOf ?_ rfl rfl rfl rfl rfl rfl rfl rfl rfl
    | simp only [ok_mk]
    | split
    | refine okOf ?_ rfl rfl rfl rfl rfl rfl rfl rfl rfl
    | dsimp only

theorem lasting_ok {κ : Kept} {s : State} {n res : Nat} {bankRow : Bool} (hκ : s.Ok κ) : (State.lasting s n res bankRow).Ok κ := by
  unfold State.lasting
  try dsimp only
  repeat' first
    | with_reducible assumption
    | with_reducible apply incL_ok
    | with_reducible apply journalNow_ok
    | with_reducible apply relatch_ok
    | with_reducible apply repairRow_ok
    | with_reducible apply setResult_ok
    | with_reducible apply ite_ok
    | intro _
    | with_reducible refine okOf ?_ rfl rfl rfl rfl rfl rfl rfl rfl rfl
    | simp only [ok_mk]
    | split
    | refine okOf ?_ rfl rfl rfl rfl rfl rfl rfl rfl rfl
    | dsimp only

theorem startTest_ok {κ : Kept} {s : State} {n res : Nat} {t : TestCode} (hκ : s.Ok κ) : (State.startTest s n res t).Ok κ := by
  unfold State.startTest
  try dsimp only
  repeat' first
    | with_reducible assumption
    | with_reducible apply incL_ok
    | with_reducible apply lasting_ok
    | with_reducible apply setResult_ok
    | with_reducible apply ite_ok
    | intro _
    | with_reducible refine okOf ?_ rfl rfl rfl rfl rfl rfl rfl rfl rfl
    | simp only [ok_mk]
    | split
    | refine okOf ?_ rfl rfl rfl rfl rfl rfl rfl rfl rfl
    | dsimp only

theorem realAfterForce_ok {κ : Kept} {s : State} {n res : Nat} {t : TestCode} (hκ : s.Ok κ) : (State.realAfterForce s n res t).Ok κ := by
  unfold State.realAfterForce
  try dsimp only
  repeat' first
    | with_reducible assumption
    | with_reducible apply startTest_ok
    | with_reducible apply ite_ok
    | intro _
    | with_reducible refine okOf ?_ rfl rfl rfl rfl rfl rfl rfl rfl rfl
    | simp only [ok_mk]
    | split
    | refine okOf ?_ rfl rfl rfl rfl rfl rfl rfl rfl rfl
    | dsimp only

theorem forceActive_ok {κ : Kept} {s : State} {n : Nat} {forced : Bool} (hκ : s.Ok κ) : (State.forceActive s n forced).Ok κ := by
  unfold State.forceActive
  try dsimp only
  repeat' first
    | with_reducible assumption
    | with_reducible apply ite_ok
    | intro _
    | with_reducible refine okOf ?_ rfl rfl rfl rfl rfl rfl rfl rfl rfl
    | simp only [ok_mk]
    | split
    | refine okOf ?_ rfl rfl rfl rfl rfl rfl rfl rfl rfl
    | dsimp only

theorem raiseCore_ok {κ : Kept} {s : State} {n base res : Nat} {t : TestCode} {forced : Bool} (hκ : s.Ok κ) : (State.raiseCore s n base res t forced).1.Ok κ := by
  unfold State.raiseCore
  try dsimp only
  repeat' first
    | with_reducible assumption
    | with_reducible apply forceActive_ok
    | with_reducible apply journalNow_ok
    | with_reducible apply latch_ok
    | with_reducible apply occur_ok
    | with_reducible apply realAfterForce_ok
    | with_reducible apply setResult_ok
    | with_reducible apply startTest_ok
    | with_reducible apply ite_ok
    | intro _
    | with_reducible refine okOf ?_ rfl rfl rfl rfl rfl rfl rfl rfl rfl
    | simp only [ok_mk]
    | split
    | refine okOf ?_ rfl rfl rfl rfl rfl rfl rfl rfl rfl
    | dsimp only

theorem raise0_ok {κ : Kept} {s : State} {n base res : Nat} {t : TestCode} {forced : Bool} (hκ : s.Ok κ) : (State.raise0 s n base res t forced).Ok κ := by
  unfold State.raise0
  try dsimp only
  repeat' first
    | with_reducible assumption
    | with_reducible apply raiseCore_ok
    | with_reducible apply releaseEvent_ok
    | with_reducible apply schedPendInner_ok
    | with_reducible apply ite_ok
    | intro _
    | with_reducible refine okOf ?_ rfl rfl rfl rfl rfl rfl rfl rfl rfl
    | simp only [ok_mk]
    | split
    | refine okOf ?_ rfl rfl rfl rfl rfl rfl rfl rfl rfl
    | dsimp only

theorem schedPend0_ok {κ : Kept} {s : State} (hκ : s.Ok κ) : (schedPend0 s).Ok κ := by
  unfold schedPend0
  try dsimp only
  repeat' first
    | with_reducible assumption
    | with_reducible apply raise0_ok
    | with_reducible apply ite_ok
    | intro _
    | with_reducible refine okOf ?_ rfl rfl rfl rfl rfl rfl rfl rfl rfl
    | simp only [ok_mk]
    | split
    | refine okOf ?_ rfl rfl rfl rfl rfl rfl rfl rfl rfl
    | dsimp only

theorem ackOne_ok {κ : Kept} {s : State} {path n : Nat} (hκ : s.Ok κ) : (State.ackOne s path n).Ok κ := by
  unfold State.ackOne
  try dsimp only
  repeat' first
    | with_reducible assumption
    | with_reducible apply faultLevels_ok
    | with_reducible apply incIf_ok
    | with_reducible apply incL_ok
    | with_reducible apply newCycle_ok
    | with_reducible apply ite_ok
    | intro _
    | with_reducible refine okOf ?_ rfl rfl rfl rfl rfl rfl rfl rfl rfl
    | simp only [ok_mk]
    | split
    | refine okOf ?_ rfl rfl rfl rfl rfl rfl rfl rfl rfl
    | dsimp only

end Sys2Proof.Machine
end

