-- ==== Sys2Proof/Laws/KeepsAcqOps.lean ====
section
/-! SUPPORT. The operations of AcqOps.lean keep what Keeps.lean names. -/
namespace Sys2Proof.Machine
set_option linter.all false

theorem acqLog_ok {κ : Kept} {s : State} {code origin : Nat} (hκ : s.Ok κ) : (State.acqLog s code origin).Ok κ := by
  unfold State.acqLog
  try dsimp only
  repeat' first
    | with_reducible assumption
    | with_reducible apply setLN_ok
    | with_reducible apply ite_ok
    | intro _
    | with_reducible refine okOf ?_ rfl rfl rfl rfl rfl rfl rfl rfl rfl
    | simp only [ok_mk]
    | split
    | refine okOf ?_ rfl rfl rfl rfl rfl rfl rfl rfl rfl
    | dsimp only

theorem acqDone_ok {κ : Kept} {occ : State → State} {stopped overflow : Bool} {s : State} (hκ : s.Ok κ) (hocc : ∀ (t : State), t.Ok κ → (occ t).Ok κ) : (acqDone occ stopped overflow s).Ok κ := by
  unfold acqDone
  try dsimp only
  repeat' first
    | with_reducible assumption
    | with_reducible apply done_ok
    | with_reducible apply incL_ok
    | with_reducible apply irqEdge_ok
    | with_reducible apply journalNow_ok
    | with_reducible apply ownerOn_ok
    | with_reducible apply releaseEvent_ok
    | with_reducible apply setL64_ok
    | with_reducible apply setLN_ok
    | with_reducible apply wrBytes_ok
    | with_reducible apply hocc
    | with_reducible apply ite_ok
    | intro _
    | with_reducible refine okOf ?_ rfl rfl rfl rfl rfl rfl rfl rfl rfl
    | simp only [ok_mk]
    | split
    | refine okOf ?_ rfl rfl rfl rfl rfl rfl rfl rfl rfl
    | dsimp only

theorem acqMarkTrig_ok {κ : Kept} {s : State} {slot : Nat} (hκ : s.Ok κ) : (State.acqMarkTrig s slot).Ok κ := by
  unfold State.acqMarkTrig
  try dsimp only
  repeat' first
    | with_reducible assumption
    | with_reducible apply ownerOn_ok
    | with_reducible apply wrW_ok
    | with_reducible apply ite_ok
    | intro _
    | with_reducible refine okOf ?_ rfl rfl rfl rfl rfl rfl rfl rfl rfl
    | simp only [ok_mk]
    | split
    | refine okOf ?_ rfl rfl rfl rfl rfl rfl rfl rfl rfl
    | dsimp only

theorem acqCheckDone_ok {κ : Kept} {occ : State → State} {s : State} (hκ : s.Ok κ) (hocc : ∀ (t : State), t.Ok κ → (occ t).Ok κ) : (acqCheckDone occ s).Ok κ := by
  unfold acqCheckDone
  try dsimp only
  repeat' first
    | with_reducible assumption
    | with_reducible apply acqDone_ok
    | with_reducible apply hocc
    | with_reducible apply ite_ok
    | intro _
    | with_reducible refine okOf ?_ rfl rfl rfl rfl rfl rfl rfl rfl rfl
    | simp only [ok_mk]
    | split
    | refine okOf ?_ rfl rfl rfl rfl rfl rfl rfl rfl rfl
    | dsimp only

theorem acqTrigger_ok {κ : Kept} {occ : State → State} {code origin : Nat} {s : State} (hκ : s.Ok κ) (hocc : ∀ (t : State), t.Ok κ → (occ t).Ok κ) : (acqTrigger occ code origin s).Ok κ := by
  unfold acqTrigger
  try dsimp only
  repeat' first
    | with_reducible assumption
    | with_reducible apply acqCheckDone_ok
    | with_reducible apply acqLog_ok
    | with_reducible apply acqMarkTrig_ok
    | with_reducible apply done_ok
    | with_reducible apply idle_ok
    | with_reducible apply incL_ok
    | with_reducible apply irqEdge_ok
    | with_reducible apply hocc
    | with_reducible apply ite_ok
    | intro _
    | with_reducible refine okOf ?_ rfl rfl rfl rfl rfl rfl rfl rfl rfl
    | simp only [ok_mk]
    | split
    | refine okOf ?_ rfl rfl rfl rfl rfl rfl rfl rfl rfl
    | dsimp only

end Sys2Proof.Machine
end

