-- ==== Sys2Proof/Laws/KeepsSafe.lean ====
section
/-! SUPPORT. The operations of Safe.lean keep what Keeps.lean names. -/
namespace Sys2Proof.Machine
set_option linter.all false

theorem queueCourier_ok {κ : Kept} {s : State} {c : Courier} {n : Nat} (hκ : s.Ok κ) : (State.queueCourier s c n).Ok κ := by
  unfold State.queueCourier
  try dsimp only
  repeat' first
    | with_reducible assumption
    | with_reducible apply ite_ok
    | intro _
    | with_reducible refine okOf ?_ rfl rfl rfl rfl rfl rfl rfl rfl rfl
    | simp only [ok_mk]
    | split
    | refine okOf ?_ rfl rfl rfl rfl rfl rfl rfl rfl rfl
    | dsimp only

theorem blockCourier_ok {κ : Kept} {s : State} {wt : Bool} {edge : Option Nat} (hκ : s.Ok κ) : (State.blockCourier s wt edge).Ok κ := by
  unfold State.blockCourier
  try dsimp only
  repeat' first
    | with_reducible assumption
    | with_reducible apply each_ok
    | with_reducible apply incL_ok
    | with_reducible apply queueCourier_ok
    | with_reducible apply setLN_ok
    | with_reducible apply foldl_ok
    | with_reducible apply foldl_ok_fst
    | with_reducible apply ite_ok
    | intro _
    | with_reducible refine okOf ?_ rfl rfl rfl rfl rfl rfl rfl rfl rfl
    | simp only [ok_mk]
    | split
    | refine okOf ?_ rfl rfl rfl rfl rfl rfl rfl rfl rfl
    | dsimp only

theorem putPair_ok {κ : Kept} {s : State} {p : Nat} {x : PwmPair} (hκ : s.Ok κ) : (State.putPair s p x).Ok κ := by
  unfold State.putPair
  try dsimp only
  repeat' first
    | with_reducible assumption
    | with_reducible apply setPair_ok
    | with_reducible apply ite_ok
    | intro _
    | with_reducible refine okOf ?_ rfl rfl rfl rfl rfl rfl rfl rfl rfl
    | simp only [ok_mk]
    | split
    | refine okOf ?_ rfl rfl rfl rfl rfl rfl rfl rfl rfl
    | dsimp only

theorem applyTrips_ok {κ : Kept} {s : State} (hκ : s.Ok κ) : (State.applyTrips s).Ok κ := by
  unfold State.applyTrips
  try dsimp only
  repeat' first
    | with_reducible assumption
    | with_reducible apply each_ok
    | with_reducible apply putPair_ok
    | with_reducible apply ite_ok
    | intro _
    | with_reducible refine okOf ?_ rfl rfl rfl rfl rfl rfl rfl rfl rfl
    | simp only [ok_mk]
    | split
    | refine okOf ?_ rfl rfl rfl rfl rfl rfl rfl rfl rfl
    | dsimp only

theorem clearForce_ok {κ : Kept} {s : State} {a : Nat} (hκ : s.Ok κ) : (State.clearForce s a).Ok κ := by
  unfold State.clearForce
  try dsimp only
  repeat' first
    | with_reducible assumption
    | with_reducible apply setArm_ok
    | with_reducible apply setLN_ok
    | with_reducible apply ite_ok
    | intro _
    | with_reducible refine okOf ?_ rfl rfl rfl rfl rfl rfl rfl rfl rfl
    | simp only [ok_mk]
    | split
    | refine okOf ?_ rfl rfl rfl rfl rfl rfl rfl rfl rfl
    | dsimp only

theorem clearDebug_ok {κ : Kept} {s : State} (hκ : s.Ok κ) : (State.clearDebug s).Ok κ := by
  unfold State.clearDebug
  try dsimp only
  repeat' first
    | with_reducible assumption
    | with_reducible apply irqEdge_ok
    | with_reducible apply setK_ok
    | with_reducible apply ite_ok
    | intro _
    | with_reducible refine okOf ?_ rfl rfl rfl rfl rfl rfl rfl rfl rfl
    | simp only [ok_mk]
    | split
    | refine okOf ?_ rfl rfl rfl rfl rfl rfl rfl rfl rfl
    | dsimp only

theorem clearTest_ok {κ : Kept} {s : State} (hκ : s.Ok κ) : (State.clearTest s).Ok κ := by
  unfold State.clearTest
  try dsimp only
  repeat' first
    | with_reducible assumption
    | with_reducible apply clearDebug_ok
    | with_reducible apply irqEdge_ok
    | with_reducible apply setK_ok
    | with_reducible apply ite_ok
    | intro _
    | with_reducible refine okOf ?_ rfl rfl rfl rfl rfl rfl rfl rfl rfl
    | simp only [ok_mk]
    | split
    | refine okOf ?_ rfl rfl rfl rfl rfl rfl rfl rfl rfl
    | dsimp only

theorem setMode_ok {κ : Kept} {s : State} {m : Mode} {cause : Nat} (hκ : s.Ok κ) : (State.setMode s m cause).Ok κ := by
  unfold State.setMode
  try dsimp only
  repeat' first
    | with_reducible assumption
    | with_reducible apply cause_ok
    | with_reducible apply clearTest_ok
    | with_reducible apply irqEdge_ok
    | with_reducible apply journalNow_ok
    | with_reducible apply setL64_ok
    | with_reducible apply setLN_ok
    | with_reducible apply wakeAll_ok
    | with_reducible apply ite_ok
    | intro _
    | with_reducible refine okOf ?_ rfl rfl rfl rfl rfl rfl rfl rfl rfl
    | simp only [ok_mk]
    | split
    | refine okOf ?_ rfl rfl rfl rfl rfl rfl rfl rfl rfl
    | dsimp only

theorem safeOutputs_ok {κ : Kept} {s : State} (hκ : s.Ok κ) : (State.safeOutputs s).Ok κ := by
  unfold State.safeOutputs
  try dsimp only
  repeat' first
    | with_reducible assumption
    | with_reducible apply ite_ok
    | intro _
    | with_reducible refine okOf ?_ rfl rfl rfl rfl rfl rfl rfl rfl rfl
    | simp only [ok_mk]
    | split
    | refine okOf ?_ rfl rfl rfl rfl rfl rfl rfl rfl rfl
    | dsimp only

theorem enterSafe_ok {κ : Kept} {s : State} {cause : Nat} {wt : Bool} {edge : Option Nat} (hκ : s.Ok κ) : (State.enterSafe s cause wt edge).Ok κ := by
  unfold State.enterSafe
  try dsimp only
  repeat' first
    | with_reducible assumption
    | with_reducible apply acqTrigger_ok
    | with_reducible apply applyTrips_ok
    | with_reducible apply blockCourier_ok
    | with_reducible apply cause_ok
    | with_reducible apply clearForce_ok
    | with_reducible apply each_ok
    | with_reducible apply incL_ok
    | with_reducible apply safeOutputs_ok
    | with_reducible apply schedPend0_ok
    | with_reducible apply setMode_ok
    | with_reducible apply ite_ok
    | intro _
    | with_reducible refine okOf ?_ rfl rfl rfl rfl rfl rfl rfl rfl rfl
    | simp only [ok_mk]
    | split
    | refine okOf ?_ rfl rfl rfl rfl rfl rfl rfl rfl rfl
    | dsimp only

theorem safeInBoot_ok {κ : Kept} {s : State} {wt : Bool} {edge : Option Nat} (hκ : s.Ok κ) : (State.safeInBoot s wt edge).Ok κ := by
  unfold State.safeInBoot
  try dsimp only
  repeat' first
    | with_reducible assumption
    | with_reducible apply applyTrips_ok
    | with_reducible apply blockCourier_ok
    | with_reducible apply ite_ok
    | intro _
    | with_reducible refine okOf ?_ rfl rfl rfl rfl rfl rfl rfl rfl rfl
    | simp only [ok_mk]
    | split
    | refine okOf ?_ rfl rfl rfl rfl rfl rfl rfl rfl rfl
    | dsimp only

theorem safeEntry_ok {κ : Kept} {s : State} {cause : Nat} {wt : Bool} {edge : Option Nat} (hκ : s.Ok κ) : (State.safeEntry s cause wt edge).Ok κ := by
  unfold State.safeEntry
  try dsimp only
  repeat' first
    | with_reducible assumption
    | with_reducible apply blockCourier_ok
    | with_reducible apply cause_ok
    | with_reducible apply enterSafe_ok
    | with_reducible apply safeInBoot_ok
    | with_reducible apply ite_ok
    | intro _
    | with_reducible refine okOf ?_ rfl rfl rfl rfl rfl rfl rfl rfl rfl
    | simp only [ok_mk]
    | split
    | refine okOf ?_ rfl rfl rfl rfl rfl rfl rfl rfl rfl
    | dsimp only

theorem reactC3_ok {κ : Kept} {s0 s1 : State} (hκ : s1.Ok κ) : (reactC3 s0 s1).Ok κ := by
  unfold reactC3
  try dsimp only
  repeat' first
    | with_reducible assumption
    | with_reducible apply safeEntry_ok
    | with_reducible apply ite_ok
    | intro _
    | with_reducible refine okOf ?_ rfl rfl rfl rfl rfl rfl rfl rfl rfl
    | simp only [ok_mk]
    | split
    | refine okOf ?_ rfl rfl rfl rfl rfl rfl rfl rfl rfl
    | dsimp only

theorem raiseAs_ok {κ : Kept} {s : State} {n base res : Nat} {t : TestCode} (hκ : s.Ok κ) : (State.raiseAs s n base res t).Ok κ := by
  unfold State.raiseAs
  try dsimp only
  repeat' first
    | with_reducible assumption
    | with_reducible apply raise0_ok
    | with_reducible apply reactC3_ok
    | with_reducible apply ite_ok
    | intro _
    | with_reducible refine okOf ?_ rfl rfl rfl rfl rfl rfl rfl rfl rfl
    | simp only [ok_mk]
    | split
    | refine okOf ?_ rfl rfl rfl rfl rfl rfl rfl rfl rfl
    | dsimp only

theorem raise_ok {κ : Kept} {s : State} {n : Nat} (hκ : s.Ok κ) : (State.raise s n).Ok κ := by
  unfold State.raise
  try dsimp only
  repeat' first
    | with_reducible assumption
    | with_reducible apply raiseAs_ok
    | with_reducible apply ite_ok
    | intro _
    | with_reducible refine okOf ?_ rfl rfl rfl rfl rfl rfl rfl rfl rfl
    | simp only [ok_mk]
    | split
    | refine okOf ?_ rfl rfl rfl rfl rfl rfl rfl rfl rfl
    | dsimp only

theorem raiseIf_ok {κ : Kept} {s : State} {c : Bool} {n : Nat} (hκ : s.Ok κ) : (State.raiseIf s c n).Ok κ := by
  unfold State.raiseIf
  try dsimp only
  repeat' first
    | with_reducible assumption
    | with_reducible apply raise_ok
    | with_reducible apply ite_ok
    | intro _
    | with_reducible refine okOf ?_ rfl rfl rfl rfl rfl rfl rfl rfl rfl
    | simp only [ok_mk]
    | split
    | refine okOf ?_ rfl rfl rfl rfl rfl rfl rfl rfl rfl
    | dsimp only

theorem journal_ok {κ : Kept} {s : State} {src : Nat} {data : Word} {cont : Bool} (hκ : s.Ok κ) : (State.journal s src data cont).Ok κ := by
  unfold State.journal
  try dsimp only
  repeat' first
    | with_reducible assumption
    | with_reducible apply journalNow_ok
    | with_reducible apply reactC3_ok
    | with_reducible apply ite_ok
    | intro _
    | with_reducible refine okOf ?_ rfl rfl rfl rfl rfl rfl rfl rfl rfl
    | simp only [ok_mk]
    | split
    | refine okOf ?_ rfl rfl rfl rfl rfl rfl rfl rfl rfl
    | dsimp only

theorem event_ok {κ : Kept} {s : State} {src : Nat} (hκ : s.Ok κ) : (State.event s src).Ok κ := by
  unfold State.event
  try dsimp only
  repeat' first
    | with_reducible assumption
    | with_reducible apply raise_ok
    | with_reducible apply releaseEvent_ok
    | with_reducible apply ite_ok
    | intro _
    | with_reducible refine okOf ?_ rfl rfl rfl rfl rfl rfl rfl rfl rfl
    | simp only [ok_mk]
    | split
    | refine okOf ?_ rfl rfl rfl rfl rfl rfl rfl rfl rfl
    | dsimp only

theorem faultLevel_ok {κ : Kept} {s : State} {n : Nat} {c : Bool} (hκ : s.Ok κ) : (State.faultLevel s n c).Ok κ := by
  unfold State.faultLevel
  try dsimp only
  repeat' first
    | with_reducible assumption
    | with_reducible apply raise_ok
    | with_reducible apply ite_ok
    | intro _
    | with_reducible refine okOf ?_ rfl rfl rfl rfl rfl rfl rfl rfl rfl
    | simp only [ok_mk]
    | split
    | refine okOf ?_ rfl rfl rfl rfl rfl rfl rfl rfl rfl
    | dsimp only

end Sys2Proof.Machine
end

