-- ==== Sys2Proof/Laws/KeepsDictW.lean ====
section
/-! SUPPORT. The operations of DictW.lean keep what Keeps.lean names. -/
namespace Sys2Proof.Machine
set_option linter.all false

theorem respond_ok {κ : Kept} {s : State} {r : SdoResp} (hκ : s.Ok κ) : (State.respond s r).Ok κ := by
  unfold State.respond
  try dsimp only
  repeat' first
    | with_reducible assumption
    | with_reducible apply ite_ok
    | intro _
    | with_reducible refine okOf ?_ rfl rfl rfl rfl rfl rfl rfl rfl rfl
    | simp only [ok_mk]
    | split
    | refine okOf ?_ rfl rfl rfl rfl rfl rfl rfl rfl rfl
    | dsimp only

theorem abort_ok {κ : Kept} {s : State} {code : Word} (hκ : s.Ok κ) : (State.abort s code).Ok κ := by
  unfold State.abort
  try dsimp only
  repeat' first
    | with_reducible assumption
    | with_reducible apply incL_ok
    | with_reducible apply respond_ok
    | with_reducible apply ite_ok
    | intro _
    | with_reducible refine okOf ?_ rfl rfl rfl rfl rfl rfl rfl rfl rfl
    | simp only [ok_mk]
    | split
    | refine okOf ?_ rfl rfl rfl rfl rfl rfl rfl rfl rfl
    | dsimp only

theorem setDictResult_ok {κ : Kept} {s : State} {e : Nat} {v : Nat} (hκ : s.Ok κ) : (State.setDictResult s e v).Ok κ := by
  unfold State.setDictResult
  try dsimp only
  repeat' first
    | with_reducible assumption
    | with_reducible apply setEng_ok
    | with_reducible apply ite_ok
    | intro _
    | with_reducible refine okOf ?_ rfl rfl rfl rfl rfl rfl rfl rfl rfl
    | simp only [ok_mk]
    | split
    | refine okOf ?_ rfl rfl rfl rfl rfl rfl rfl rfl rfl
    | dsimp only

theorem hostRefuse_ok {κ : Kept} {s : State} {addr reason : Nat} (hκ : s.Ok κ) : (State.hostRefuse s addr reason).Ok κ := by
  unfold State.hostRefuse
  try dsimp only
  repeat' first
    | with_reducible assumption
    | with_reducible apply incL_ok
    | with_reducible apply setLN_ok
    | with_reducible apply ite_ok
    | intro _
    | with_reducible refine okOf ?_ rfl rfl rfl rfl rfl rfl rfl rfl rfl
    | simp only [ok_mk]
    | split
    | refine okOf ?_ rfl rfl rfl rfl rfl rfl rfl rfl rfl
    | dsimp only

theorem hostRetire_ok {κ : Kept} {s : State} (hκ : s.Ok κ) : (State.hostRetire s).Ok κ := by
  unfold State.hostRetire
  try dsimp only
  repeat' first
    | with_reducible assumption
    | with_reducible apply ite_ok
    | intro _
    | with_reducible refine okOf ?_ rfl rfl rfl rfl rfl rfl rfl rfl rfl
    | simp only [ok_mk]
    | split
    | refine okOf ?_ rfl rfl rfl rfl rfl rfl rfl rfl rfl
    | dsimp only

theorem report_ok {κ : Kept} {s : State} {p : Path} {key reason : Nat} (hκ : s.Ok κ) : (State.report s p key reason).Ok κ := by
  unfold State.report
  try dsimp only
  repeat' first
    | with_reducible assumption
    | with_reducible apply abort_ok
    | with_reducible apply hostRefuse_ok
    | with_reducible apply hostRetire_ok
    | with_reducible apply incL_ok
    | with_reducible apply respond_ok
    | with_reducible apply setDictResult_ok
    | with_reducible apply ite_ok
    | intro _
    | with_reducible refine okOf ?_ rfl rfl rfl rfl rfl rfl rfl rfl rfl
    | simp only [ok_mk]
    | split
    | refine okOf ?_ rfl rfl rfl rfl rfl rfl rfl rfl rfl
    | dsimp only

theorem countClaim_ok {κ : Kept} {s : State} {key reason : Nat} (hκ : s.Ok κ) : (State.countClaim s key reason).Ok κ := by
  unfold State.countClaim
  try dsimp only
  repeat' first
    | with_reducible assumption
    | with_reducible apply incIf_ok
    | with_reducible apply ite_ok
    | intro _
    | with_reducible refine okOf ?_ rfl rfl rfl rfl rfl rfl rfl rfl rfl
    | simp only [ok_mk]
    | split
    | refine okOf ?_ rfl rfl rfl rfl rfl rfl rfl rfl rfl
    | dsimp only

theorem tryWrite_ok {κ : Kept} {s : State} {key : Nat} {v : Word} {eff : State → WOut} (hκ : s.Ok κ) (heff : ∀ (t : State), t.Ok κ → (eff t).1.Ok κ) : (State.tryWrite s key v eff).1.Ok κ := by
  unfold State.tryWrite
  try dsimp only
  repeat' first
    | with_reducible assumption
    | with_reducible apply countClaim_ok
    | with_reducible apply incIf_ok
    | with_reducible apply heff
    | with_reducible apply ite_ok
    | intro _
    | with_reducible refine okOf ?_ rfl rfl rfl rfl rfl rfl rfl rfl rfl
    | simp only [ok_mk]
    | split
    | refine okOf ?_ rfl rfl rfl rfl rfl rfl rfl rfl rfl
    | dsimp only

theorem guardWrite_ok {κ : Kept} {s : State} {p : Path} {key : Nat} {v : Word} {eff : State → WOut} (hκ : s.Ok κ) (heff : ∀ (t : State), t.Ok κ → (eff t).1.Ok κ) : (State.guardWrite s p key v eff).Ok κ := by
  unfold State.guardWrite
  try dsimp only
  repeat' first
    | with_reducible assumption
    | with_reducible apply report_ok
    | with_reducible apply tryWrite_ok
    | with_reducible apply heff
    | with_reducible apply ite_ok
    | intro _
    | with_reducible refine okOf ?_ rfl rfl rfl rfl rfl rfl rfl rfl rfl
    | simp only [ok_mk]
    | split
    | refine okOf ?_ rfl rfl rfl rfl rfl rfl rfl rfl rfl
    | dsimp only

theorem done_ok {κ : Kept} {s : State} (hκ : s.Ok κ) : (done s).1.Ok κ := by
  unfold done
  try dsimp only
  repeat' first
    | with_reducible assumption
    | with_reducible apply ite_ok
    | intro _
    | with_reducible refine okOf ?_ rfl rfl rfl rfl rfl rfl rfl rfl rfl
    | simp only [ok_mk]
    | split
    | refine okOf ?_ rfl rfl rfl rfl rfl rfl rfl rfl rfl
    | dsimp only

theorem refused6_ok {κ : Kept} {s : State} (hκ : s.Ok κ) : (refused6 s).1.Ok κ := by
  unfold refused6
  try dsimp only
  repeat' first
    | with_reducible assumption
    | with_reducible apply ite_ok
    | intro _
    | with_reducible refine okOf ?_ rfl rfl rfl rfl rfl rfl rfl rfl rfl
    | simp only [ok_mk]
    | split
    | refine okOf ?_ rfl rfl rfl rfl rfl rfl rfl rfl rfl
    | dsimp only

end Sys2Proof.Machine
end

