-- ==== Sys2Proof/Laws/KeepsWide.lean ====
section
/-! SUPPORT. The operations of Wide.lean keep what Keeps.lean names. -/
namespace Sys2Proof.Machine
set_option linter.all false

theorem setWide_ok {κ : Kept} {s : State} {p : Path} {w : WideLatch} (hκ : s.Ok κ) : (State.setWide s p w).Ok κ := by
  unfold State.setWide
  try dsimp only
  repeat' first
    | with_reducible assumption
    | with_reducible apply ite_ok
    | intro _
    | with_reducible refine okOf ?_ rfl rfl rfl rfl rfl rfl rfl rfl rfl
    | simp only [ok_mk]
    | split
    | refine okOf ?_ rfl rfl rfl rfl rfl rfl rfl rfl rfl
    | dsimp only

theorem holdLow_ok {κ : Kept} {s : State} {p : Path} {key : Nat} {v : Word} (hκ : s.Ok κ) : (State.holdLow s p key v).Ok κ := by
  unfold State.holdLow
  try dsimp only
  repeat' first
    | with_reducible assumption
    | with_reducible apply setWide_ok
    | with_reducible apply ite_ok
    | intro _
    | with_reducible refine okOf ?_ rfl rfl rfl rfl rfl rfl rfl rfl rfl
    | simp only [ok_mk]
    | split
    | refine okOf ?_ rfl rfl rfl rfl rfl rfl rfl rfl rfl
    | dsimp only

theorem dropLow_ok {κ : Kept} {s : State} {p : Path} (hκ : s.Ok κ) : (State.dropLow s p).Ok κ := by
  unfold State.dropLow
  try dsimp only
  repeat' first
    | with_reducible assumption
    | with_reducible apply setWide_ok
    | with_reducible apply ite_ok
    | intro _
    | with_reducible refine okOf ?_ rfl rfl rfl rfl rfl rfl rfl rfl rfl
    | simp only [ok_mk]
    | split
    | refine okOf ?_ rfl rfl rfl rfl rfl rfl rfl rfl rfl
    | dsimp only

theorem setReadLatch_ok {κ : Kept} {s : State} {p : Path} {x : Option (Nat × Word)} (hκ : s.Ok κ) : (State.setReadLatch s p x).Ok κ := by
  unfold State.setReadLatch
  try dsimp only
  repeat' first
    | with_reducible assumption
    | with_reducible apply latch_ok
    | with_reducible apply setEng_ok
    | with_reducible apply setWide_ok
    | with_reducible apply ite_ok
    | intro _
    | with_reducible refine okOf ?_ rfl rfl rfl rfl rfl rfl rfl rfl rfl
    | simp only [ok_mk]
    | split
    | refine okOf ?_ rfl rfl rfl rfl rfl rfl rfl rfl rfl
    | dsimp only

theorem latchHigh_ok {κ : Kept} {s : State} {p : Path} {keyHi : Nat} {hi : Word} (hκ : s.Ok κ) : (State.latchHigh s p keyHi hi).Ok κ := by
  unfold State.latchHigh
  try dsimp only
  repeat' first
    | with_reducible assumption
    | with_reducible apply setReadLatch_ok
    | with_reducible apply ite_ok
    | intro _
    | with_reducible refine okOf ?_ rfl rfl rfl rfl rfl rfl rfl rfl rfl
    | simp only [ok_mk]
    | split
    | refine okOf ?_ rfl rfl rfl rfl rfl rfl rfl rfl rfl
    | dsimp only

theorem useHigh_ok {κ : Kept} {s : State} {p : Path} {k : Nat} (hκ : s.Ok κ) : (State.useHigh s p k).Ok κ := by
  unfold State.useHigh
  try dsimp only
  repeat' first
    | with_reducible assumption
    | with_reducible apply setReadLatch_ok
    | with_reducible apply ite_ok
    | intro _
    | with_reducible refine okOf ?_ rfl rfl rfl rfl rfl rfl rfl rfl rfl
    | simp only [ok_mk]
    | split
    | refine okOf ?_ rfl rfl rfl rfl rfl rfl rfl rfl rfl
    | dsimp only

end Sys2Proof.Machine
end

