-- ==== Sys2Proof/Laws/KeepsFaults.lean ====
section
/-! SUPPORT. The operations of Faults.lean keep what Keeps.lean names. -/
namespace Sys2Proof.Machine
set_option linter.all false

theorem faultAck_ok {κ : Kept} {s : State} {path : Nat} {lo hi : Word} (hκ : s.Ok κ) : (State.faultAck s path lo hi).Ok κ := by
  unfold State.faultAck
  try dsimp only
  repeat' first
    | with_reducible assumption
    | with_reducible apply ackOne_ok
    | with_reducible apply each_ok
    | with_reducible apply ite_ok
    | intro _
    | with_reducible refine okOf ?_ rfl rfl rfl rfl rfl rfl rfl rfl rfl
    | simp only [ok_mk]
    | split
    | refine okOf ?_ rfl rfl rfl rfl rfl rfl rfl rfl rfl
    | dsimp only

theorem wrFaultAckHi_ok {κ : Kept} {p : Path} {hi : Word} {s : State} (hκ : s.Ok κ) : (wrFaultAckHi p hi s).1.Ok κ := by
  unfold wrFaultAckHi
  try dsimp only
  repeat' first
    | with_reducible assumption
    | with_reducible apply done_ok
    | with_reducible apply dropLow_ok
    | with_reducible apply faultAck_ok
    | with_reducible apply ite_ok
    | intro _
    | with_reducible refine okOf ?_ rfl rfl rfl rfl rfl rfl rfl rfl rfl
    | simp only [ok_mk]
    | split
    | refine okOf ?_ rfl rfl rfl rfl rfl rfl rfl rfl rfl
    | dsimp only

theorem faultForce_ok {κ : Kept} {s : State} {lo hi : Word} (hκ : s.Ok κ) : (State.faultForce s lo hi).Ok κ := by
  unfold State.faultForce
  try dsimp only
  repeat' first
    | with_reducible assumption
    | with_reducible apply each_ok
    | with_reducible apply raise0_ok
    | with_reducible apply reactC3_ok
    | with_reducible apply ite_ok
    | intro _
    | with_reducible refine okOf ?_ rfl rfl rfl rfl rfl rfl rfl rfl rfl
    | simp only [ok_mk]
    | split
    | refine okOf ?_ rfl rfl rfl rfl rfl rfl rfl rfl rfl
    | dsimp only

theorem wrFaultForceHi_ok {κ : Kept} {p : Path} {hi : Word} {s : State} (hκ : s.Ok κ) : (wrFaultForceHi p hi s).1.Ok κ := by
  unfold wrFaultForceHi
  try dsimp only
  repeat' first
    | with_reducible assumption
    | with_reducible apply done_ok
    | with_reducible apply dropLow_ok
    | with_reducible apply faultForce_ok
    | with_reducible apply incL_ok
    | with_reducible apply ite_ok
    | intro _
    | with_reducible refine okOf ?_ rfl rfl rfl rfl rfl rfl rfl rfl rfl
    | simp only [ok_mk]
    | split
    | refine okOf ?_ rfl rfl rfl rfl rfl rfl rfl rfl rfl
    | dsimp only

theorem execFaultAck_ok {κ : Kept} {p : Path} {hi : Word} {s : State} (hκ : s.Ok κ) : ∃ st' : State, execFaultAck p hi s = .next st' ∧ st'.Ok κ := by
  refine ⟨_, rfl, ?_⟩
  try dsimp only
  repeat' first
    | with_reducible assumption
    | with_reducible apply guardWrite_ok
    | with_reducible apply wrFaultAckHi_ok
    | with_reducible apply ite_ok
    | intro _
    | with_reducible refine okOf ?_ rfl rfl rfl rfl rfl rfl rfl rfl rfl
    | simp only [ok_mk]
    | split
    | refine okOf ?_ rfl rfl rfl rfl rfl rfl rfl rfl rfl
    | dsimp only

theorem execFaultForce_ok {κ : Kept} {p : Path} {hi : Word} {s : State} (hκ : s.Ok κ) : ∃ st' : State, execFaultForce p hi s = .next st' ∧ st'.Ok κ := by
  refine ⟨_, rfl, ?_⟩
  try dsimp only
  repeat' first
    | with_reducible assumption
    | with_reducible apply guardWrite_ok
    | with_reducible apply wrFaultForceHi_ok
    | with_reducible apply ite_ok
    | intro _
    | with_reducible refine okOf ?_ rfl rfl rfl rfl rfl rfl rfl rfl rfl
    | simp only [ok_mk]
    | split
    | refine okOf ?_ rfl rfl rfl rfl rfl rfl rfl rfl rfl
    | dsimp only

theorem dropTest_ok {κ : Kept} {s : State} {t : SelfTest} (hκ : s.Ok κ) : (State.dropTest s t).Ok κ := by
  unfold State.dropTest
  try dsimp only
  repeat' first
    | with_reducible assumption
    | with_reducible apply ite_ok
    | intro _
    | with_reducible refine okOf ?_ rfl rfl rfl rfl rfl rfl rfl rfl rfl
    | simp only [ok_mk]
    | split
    | refine okOf ?_ rfl rfl rfl rfl rfl rfl rfl rfl rfl
    | dsimp only

theorem testOutcome_ok {κ : Kept} {s : State} {t : SelfTest} {good bankRow : Bool} (hκ : s.Ok κ) : (State.testOutcome s t good bankRow).Ok κ := by
  unfold State.testOutcome
  try dsimp only
  repeat' first
    | with_reducible assumption
    | with_reducible apply dropTest_ok
    | with_reducible apply each_ok
    | with_reducible apply incL_ok
    | with_reducible apply journalNow_ok
    | with_reducible apply lasting_ok
    | with_reducible apply reactC3_ok
    | with_reducible apply setResult_ok
    | with_reducible apply transient_ok
    | with_reducible apply ite_ok
    | intro _
    | with_reducible refine okOf ?_ rfl rfl rfl rfl rfl rfl rfl rfl rfl
    | simp only [ok_mk]
    | split
    | refine okOf ?_ rfl rfl rfl rfl rfl rfl rfl rfl rfl
    | dsimp only

theorem noteLaneErr_ok {κ : Kept} {s : State} {n : Nat} (hκ : s.Ok κ) : (State.noteLaneErr s n).Ok κ := by
  unfold State.noteLaneErr
  try dsimp only
  repeat' first
    | with_reducible assumption
    | with_reducible apply ite_ok
    | intro _
    | with_reducible refine okOf ?_ rfl rfl rfl rfl rfl rfl rfl rfl rfl
    | simp only [ok_mk]
    | split
    | refine okOf ?_ rfl rfl rfl rfl rfl rfl rfl rfl rfl
    | dsimp only

theorem execSelfTestEDone_ok {κ : Kept} {good : Bool} {s : State} (hκ : s.Ok κ) : ∃ st' : State, execSelfTestEDone good s = .next st' ∧ st'.Ok κ := by
  refine ⟨_, rfl, ?_⟩
  try dsimp only
  repeat' first
    | with_reducible assumption
    | with_reducible apply testOutcome_ok
    | with_reducible apply ite_ok
    | intro _
    | with_reducible refine okOf ?_ rfl rfl rfl rfl rfl rfl rfl rfl rfl
    | simp only [ok_mk]
    | split
    | refine okOf ?_ rfl rfl rfl rfl rfl rfl rfl rfl rfl
    | dsimp only

theorem execSelfTestLDone_ok {κ : Kept} {lane blocks : Nat} {s : State} (hκ : s.Ok κ) : ∃ st' : State, execSelfTestLDone lane blocks s = .next st' ∧ st'.Ok κ := by
  refine ⟨_, rfl, ?_⟩
  try dsimp only
  repeat' first
    | with_reducible assumption
    | with_reducible apply testOutcome_ok
    | with_reducible apply ite_ok
    | intro _
    | with_reducible refine okOf ?_ rfl rfl rfl rfl rfl rfl rfl rfl rfl
    | simp only [ok_mk]
    | split
    | refine okOf ?_ rfl rfl rfl rfl rfl rfl rfl rfl rfl
    | dsimp only

theorem execSelfTestKDone_ok {κ : Kept} {engine : Nat} {good : Bool} {s : State} (hκ : s.Ok κ) : ∃ st' : State, execSelfTestKDone engine good s = .next st' ∧ st'.Ok κ := by
  refine ⟨_, rfl, ?_⟩
  try dsimp only
  repeat' first
    | with_reducible assumption
    | with_reducible apply testOutcome_ok
    | with_reducible apply ite_ok
    | intro _
    | with_reducible refine okOf ?_ rfl rfl rfl rfl rfl rfl rfl rfl rfl
    | simp only [ok_mk]
    | split
    | refine okOf ?_ rfl rfl rfl rfl rfl rfl rfl rfl rfl
    | dsimp only

theorem execSelfTestSkip_ok {κ : Kept} {engine : Nat} {s : State} (hκ : s.Ok κ) : ∃ st' : State, execSelfTestSkip engine s = .next st' ∧ st'.Ok κ := by
  refine ⟨_, rfl, ?_⟩
  try dsimp only
  repeat' first
    | with_reducible assumption
    | with_reducible apply dropTest_ok
    | with_reducible apply each_ok
    | with_reducible apply incL_ok
    | with_reducible apply setResult_ok
    | with_reducible apply ite_ok
    | intro _
    | with_reducible refine okOf ?_ rfl rfl rfl rfl rfl rfl rfl rfl rfl
    | simp only [ok_mk]
    | split
    | refine okOf ?_ rfl rfl rfl rfl rfl rfl rfl rfl rfl
    | dsimp only

theorem seeFaults_ok {κ : Kept} {s : State} {p : Path} (hκ : s.Ok κ) : (State.seeFaults s p).Ok κ := by
  unfold State.seeFaults
  try dsimp only
  repeat' first
    | with_reducible assumption
    | with_reducible apply ite_ok
    | intro _
    | with_reducible refine okOf ?_ rfl rfl rfl rfl rfl rfl rfl rfl rfl
    | simp only [ok_mk]
    | split
    | refine okOf ?_ rfl rfl rfl rfl rfl rfl rfl rfl rfl
    | dsimp only

end Sys2Proof.Machine
end

