-- ==== Sys2Proof/Laws/KeepsIrq.lean ====
section
/-! SUPPORT. The operations of Irq.lean keep what Keeps.lean names. -/
namespace Sys2Proof.Machine
set_option linter.all false

theorem wrComplete_ok {κ : Kept} {v : Word} {s : State} (hκ : s.Ok κ) : (wrComplete v s).1.Ok κ := by
  unfold wrComplete
  try dsimp only
  repeat' first
    | with_reducible assumption
    | with_reducible apply done_ok
    | with_reducible apply incL_ok
    | with_reducible apply irqEdge_ok
    | with_reducible apply ite_ok
    | intro _
    | with_reducible refine okOf ?_ rfl rfl rfl rfl rfl rfl rfl rfl rfl
    | simp only [ok_mk]
    | split
    | refine okOf ?_ rfl rfl rfl rfl rfl rfl rfl rfl rfl
    | dsimp only

theorem wrPend_ok {κ : Kept} {p : Path} {g : Nat} {v : Word} {s : State} (hκ : s.Ok κ) : (wrPend p g v s).1.Ok κ := by
  unfold wrPend
  try dsimp only
  repeat' first
    | with_reducible assumption
    | with_reducible apply done_ok
    | with_reducible apply incL_ok
    | with_reducible apply pend_ok
    | with_reducible apply setLN_ok
    | with_reducible apply setL_ok
    | with_reducible apply ite_ok
    | intro _
    | with_reducible refine okOf ?_ rfl rfl rfl rfl rfl rfl rfl rfl rfl
    | simp only [ok_mk]
    | split
    | refine okOf ?_ rfl rfl rfl rfl rfl rfl rfl rfl rfl
    | dsimp only

theorem readPend_ok {κ : Kept} {s : State} {p : Path} {g : Nat} (hκ : s.Ok κ) : (State.readPend s p g).Ok κ := by
  unfold State.readPend
  try dsimp only
  repeat' first
    | with_reducible assumption
    | with_reducible apply ite_ok
    | intro _
    | with_reducible refine okOf ?_ rfl rfl rfl rfl rfl rfl rfl rfl rfl
    | simp only [ok_mk]
    | split
    | refine okOf ?_ rfl rfl rfl rfl rfl rfl rfl rfl rfl
    | dsimp only

theorem execComplete_ok {κ : Kept} {p : Path} {v : Word} {s : State} (hκ : s.Ok κ) : ∃ st' : State, execComplete p v s = .next st' ∧ st'.Ok κ := by
  refine ⟨_, rfl, ?_⟩
  try dsimp only
  repeat' first
    | with_reducible assumption
    | with_reducible apply guardWrite_ok
    | with_reducible apply wrComplete_ok
    | with_reducible apply ite_ok
    | intro _
    | with_reducible refine okOf ?_ rfl rfl rfl rfl rfl rfl rfl rfl rfl
    | simp only [ok_mk]
    | split
    | refine okOf ?_ rfl rfl rfl rfl rfl rfl rfl rfl rfl
    | dsimp only

theorem execPendWrite_ok {κ : Kept} {p : Path} {g : Nat} {v : Word} {s : State} (hκ : s.Ok κ) : ∃ st' : State, execPendWrite p g v s = .next st' ∧ st'.Ok κ := by
  refine ⟨_, rfl, ?_⟩
  try dsimp only
  repeat' first
    | with_reducible assumption
    | with_reducible apply guardWrite_ok
    | with_reducible apply wrPend_ok
    | with_reducible apply ite_ok
    | intro _
    | with_reducible refine okOf ?_ rfl rfl rfl rfl rfl rfl rfl rfl rfl
    | simp only [ok_mk]
    | split
    | refine okOf ?_ rfl rfl rfl rfl rfl rfl rfl rfl rfl
    | dsimp only

theorem execPendRead_ok {κ : Kept} {p : Path} {g : Nat} {s : State} (hκ : s.Ok κ) : ∃ st' : State, execPendRead p g s = .next st' ∧ st'.Ok κ := by
  refine ⟨_, rfl, ?_⟩
  try dsimp only
  repeat' first
    | with_reducible assumption
    | with_reducible apply readPend_ok
    | with_reducible apply ite_ok
    | intro _
    | with_reducible refine okOf ?_ rfl rfl rfl rfl rfl rfl rfl rfl rfl
    | simp only [ok_mk]
    | split
    | refine okOf ?_ rfl rfl rfl rfl rfl rfl rfl rfl rfl
    | dsimp only

theorem execHclkStop_ok {κ : Kept} {s : State} (hκ : s.Ok κ) : ∃ st' : State, execHclkStop s = .next st' ∧ st'.Ok κ := by
  refine ⟨_, rfl, ?_⟩
  try dsimp only
  repeat' first
    | with_reducible assumption
    | with_reducible apply incL_ok
    | with_reducible apply ite_ok
    | intro _
    | with_reducible refine okOf ?_ rfl rfl rfl rfl rfl rfl rfl rfl rfl
    | simp only [ok_mk]
    | split
    | refine okOf ?_ rfl rfl rfl rfl rfl rfl rfl rfl rfl
    | dsimp only

theorem hclkEdge_ok {κ : Kept} {s : State} (hκ : s.Ok κ) : (State.hclkEdge s).Ok κ := by
  unfold State.hclkEdge
  try dsimp only
  repeat' first
    | with_reducible assumption
    | with_reducible apply irqBits_ok
    | with_reducible apply latch_ok
    | with_reducible apply foldl_ok
    | with_reducible apply foldl_ok_fst
    | with_reducible apply ite_ok
    | intro _
    | with_reducible refine okOf ?_ rfl rfl rfl rfl rfl rfl rfl rfl rfl
    | simp only [ok_mk]
    | split
    | refine okOf ?_ rfl rfl rfl rfl rfl rfl rfl rfl rfl
    | dsimp only

theorem execHclkResume_ok {κ : Kept} {s : State} (hκ : s.Ok κ) : ∃ st' : State, execHclkResume s = .next st' ∧ st'.Ok κ := by
  refine ⟨_, rfl, ?_⟩
  try dsimp only
  repeat' first
    | with_reducible assumption
    | with_reducible apply hclkEdge_ok
    | with_reducible apply ite_ok
    | intro _
    | with_reducible refine okOf ?_ rfl rfl rfl rfl rfl rfl rfl rfl rfl
    | simp only [ok_mk]
    | split
    | refine okOf ?_ rfl rfl rfl rfl rfl rfl rfl rfl rfl
    | dsimp only

theorem journalWrite_ok {κ : Kept} {s : State} (hκ : s.Ok κ) : (State.journalWrite s).Ok κ := by
  unfold State.journalWrite
  try dsimp only
  repeat' first
    | with_reducible assumption
    | with_reducible apply dropRecord_ok
    | with_reducible apply jrnLevels_ok
    | with_reducible apply reactC3_ok
    | with_reducible apply wrBytes_ok
    | with_reducible apply ite_ok
    | intro _
    | with_reducible refine okOf ?_ rfl rfl rfl rfl rfl rfl rfl rfl rfl
    | simp only [ok_mk]
    | split
    | refine okOf ?_ rfl rfl rfl rfl rfl rfl rfl rfl rfl
    | dsimp only

theorem execJournalRecordWrite_ok {κ : Kept} {s : State} (hκ : s.Ok κ) : ∃ st' : State, execJournalRecordWrite s = .next st' ∧ st'.Ok κ := by
  refine ⟨_, rfl, ?_⟩
  try dsimp only
  repeat' first
    | with_reducible assumption
    | with_reducible apply journalWrite_ok
    | with_reducible apply ite_ok
    | intro _
    | with_reducible refine okOf ?_ rfl rfl rfl rfl rfl rfl rfl rfl rfl
    | simp only [ok_mk]
    | split
    | refine okOf ?_ rfl rfl rfl rfl rfl rfl rfl rfl rfl
    | dsimp only

theorem wrJrnPop_ok {κ : Kept} {v : Word} {s : State} (hκ : s.Ok κ) : (wrJrnPop v s).1.Ok κ := by
  unfold wrJrnPop
  try dsimp only
  repeat' first
    | with_reducible assumption
    | with_reducible apply done_ok
    | with_reducible apply jrnLevels_ok
    | with_reducible apply refused6_ok
    | with_reducible apply ite_ok
    | intro _
    | with_reducible refine okOf ?_ rfl rfl rfl rfl rfl rfl rfl rfl rfl
    | simp only [ok_mk]
    | split
    | refine okOf ?_ rfl rfl rfl rfl rfl rfl rfl rfl rfl
    | dsimp only

theorem execJrnPop_ok {κ : Kept} {p : Path} {v : Word} {s : State} (hκ : s.Ok κ) : ∃ st' : State, execJrnPop p v s = .next st' ∧ st'.Ok κ := by
  refine ⟨_, rfl, ?_⟩
  try dsimp only
  repeat' first
    | with_reducible assumption
    | with_reducible apply guardWrite_ok
    | with_reducible apply wrJrnPop_ok
    | with_reducible apply ite_ok
    | intro _
    | with_reducible refine okOf ?_ rfl rfl rfl rfl rfl rfl rfl rfl rfl
    | simp only [ok_mk]
    | split
    | refine okOf ?_ rfl rfl rfl rfl rfl rfl rfl rfl rfl
    | dsimp only

end Sys2Proof.Machine
end

