-- ==== Sys2Proof/Laws/KeepsTasks.lean ====
section
/-! SUPPORT. The operations of Tasks.lean keep what Keeps.lean names. -/
namespace Sys2Proof.Machine
set_option linter.all false

theorem softRelease_ok {κ : Kept} {s : State} {n : Nat} (hκ : s.Ok κ) : (State.softRelease s n).1.Ok κ := by
  unfold State.softRelease
  try dsimp only
  repeat' first
    | with_reducible assumption
    | with_reducible apply draw_ok
    | with_reducible apply incL_ok
    | with_reducible apply start_ok
    | with_reducible apply ite_ok
    | intro _
    | with_reducible refine okOf ?_ rfl rfl rfl rfl rfl rfl rfl rfl rfl
    | simp only [ok_mk]
    | split
    | refine okOf ?_ rfl rfl rfl rfl rfl rfl rfl rfl rfl
    | dsimp only

theorem wrHostRelease_ok {κ : Kept} {v : Word} {s : State} (hκ : s.Ok κ) : (wrHostRelease v s).1.Ok κ := by
  unfold wrHostRelease
  try dsimp only
  repeat' first
    | with_reducible assumption
    | with_reducible apply done_ok
    | with_reducible apply irqIf_ok
    | with_reducible apply refused6_ok
    | with_reducible apply setLN_ok
    | with_reducible apply softRelease_ok
    | with_reducible apply ite_ok
    | intro _
    | with_reducible refine okOf ?_ rfl rfl rfl rfl rfl rfl rfl rfl rfl
    | simp only [ok_mk]
    | split
    | refine okOf ?_ rfl rfl rfl rfl rfl rfl rfl rfl rfl
    | dsimp only

theorem execHostRelease_ok {κ : Kept} {p : Path} {v : Word} {s : State} (hκ : s.Ok κ) : ∃ st' : State, execHostRelease p v s = .next st' ∧ st'.Ok κ := by
  refine ⟨_, rfl, ?_⟩
  try dsimp only
  repeat' first
    | with_reducible assumption
    | with_reducible apply guardWrite_ok
    | with_reducible apply wrHostRelease_ok
    | with_reducible apply ite_ok
    | intro _
    | with_reducible refine okOf ?_ rfl rfl rfl rfl rfl rfl rfl rfl rfl
    | simp only [ok_mk]
    | split
    | refine okOf ?_ rfl rfl rfl rfl rfl rfl rfl rfl rfl
    | dsimp only

theorem delayArm_ok {κ : Kept} {s : State} {n f : Nat} (hκ : s.Ok κ) : (State.delayArm s n f).1.Ok κ := by
  unfold State.delayArm
  try dsimp only
  repeat' first
    | with_reducible assumption
    | with_reducible apply ite_ok
    | intro _
    | with_reducible refine okOf ?_ rfl rfl rfl rfl rfl rfl rfl rfl rfl
    | simp only [ok_mk]
    | split
    | refine okOf ?_ rfl rfl rfl rfl rfl rfl rfl rfl rfl
    | dsimp only

theorem wrDelayArm_ok {κ : Kept} {v : Word} {s : State} (hκ : s.Ok κ) : (wrDelayArm v s).1.Ok κ := by
  unfold wrDelayArm
  try dsimp only
  repeat' first
    | with_reducible assumption
    | with_reducible apply delayArm_ok
    | with_reducible apply done_ok
    | with_reducible apply refused6_ok
    | with_reducible apply setLN_ok
    | with_reducible apply ite_ok
    | intro _
    | with_reducible refine okOf ?_ rfl rfl rfl rfl rfl rfl rfl rfl rfl
    | simp only [ok_mk]
    | split
    | refine okOf ?_ rfl rfl rfl rfl rfl rfl rfl rfl rfl
    | dsimp only

theorem execDelayArm_ok {κ : Kept} {p : Path} {v : Word} {s : State} (hκ : s.Ok κ) : ∃ st' : State, execDelayArm p v s = .next st' ∧ st'.Ok κ := by
  refine ⟨_, rfl, ?_⟩
  try dsimp only
  repeat' first
    | with_reducible assumption
    | with_reducible apply guardWrite_ok
    | with_reducible apply wrDelayArm_ok
    | with_reducible apply ite_ok
    | intro _
    | with_reducible refine okOf ?_ rfl rfl rfl rfl rfl rfl rfl rfl rfl
    | simp only [ok_mk]
    | split
    | refine okOf ?_ rfl rfl rfl rfl rfl rfl rfl rfl rfl
    | dsimp only

theorem disarm_ok {κ : Kept} {s : State} {n : Nat} (hκ : s.Ok κ) : (State.disarm s n).Ok κ := by
  unfold State.disarm
  try dsimp only
  repeat' first
    | with_reducible assumption
    | with_reducible apply ite_ok
    | intro _
    | with_reducible refine okOf ?_ rfl rfl rfl rfl rfl rfl rfl rfl rfl
    | simp only [ok_mk]
    | split
    | refine okOf ?_ rfl rfl rfl rfl rfl rfl rfl rfl rfl
    | dsimp only

theorem wrDelayCancel_ok {κ : Kept} {v : Word} {s : State} (hκ : s.Ok κ) : (wrDelayCancel v s).1.Ok κ := by
  unfold wrDelayCancel
  try dsimp only
  repeat' first
    | with_reducible assumption
    | with_reducible apply disarm_ok
    | with_reducible apply done_ok
    | with_reducible apply refused6_ok
    | with_reducible apply setLN_ok
    | with_reducible apply ite_ok
    | intro _
    | with_reducible refine okOf ?_ rfl rfl rfl rfl rfl rfl rfl rfl rfl
    | simp only [ok_mk]
    | split
    | refine okOf ?_ rfl rfl rfl rfl rfl rfl rfl rfl rfl
    | dsimp only

theorem execDelayCancel_ok {κ : Kept} {p : Path} {v : Word} {s : State} (hκ : s.Ok κ) : ∃ st' : State, execDelayCancel p v s = .next st' ∧ st'.Ok κ := by
  refine ⟨_, rfl, ?_⟩
  try dsimp only
  repeat' first
    | with_reducible assumption
    | with_reducible apply guardWrite_ok
    | with_reducible apply wrDelayCancel_ok
    | with_reducible apply ite_ok
    | intro _
    | with_reducible refine okOf ?_ rfl rfl rfl rfl rfl rfl rfl rfl rfl
    | simp only [ok_mk]
    | split
    | refine okOf ?_ rfl rfl rfl rfl rfl rfl rfl rfl rfl
    | dsimp only

theorem setDescWindow_ok {κ : Kept} {s : State} {p : Path} {d : Desc} (hκ : s.Ok κ) : (State.setDescWindow s p d).Ok κ := by
  unfold State.setDescWindow
  try dsimp only
  repeat' first
    | with_reducible assumption
    | with_reducible apply ite_ok
    | intro _
    | with_reducible refine okOf ?_ rfl rfl rfl rfl rfl rfl rfl rfl rfl
    | simp only [ok_mk]
    | split
    | refine okOf ?_ rfl rfl rfl rfl rfl rfl rfl rfl rfl
    | dsimp only

theorem wrDescW_ok {κ : Kept} {p : Path} {i : Nat} {v : Word} {s : State} (hκ : s.Ok κ) : (wrDescW p i v s).1.Ok κ := by
  unfold wrDescW
  try dsimp only
  repeat' first
    | with_reducible assumption
    | with_reducible apply done_ok
    | with_reducible apply setDescWindow_ok
    | with_reducible apply ite_ok
    | intro _
    | with_reducible refine okOf ?_ rfl rfl rfl rfl rfl rfl rfl rfl rfl
    | simp only [ok_mk]
    | split
    | refine okOf ?_ rfl rfl rfl rfl rfl rfl rfl rfl rfl
    | dsimp only

theorem stageDesc_ok {κ : Kept} {s : State} {d : Desc} (hκ : s.Ok κ) : (State.stageDesc s d).Ok κ := by
  unfold State.stageDesc
  try dsimp only
  repeat' first
    | with_reducible assumption
    | with_reducible apply setLN_ok
    | with_reducible apply ite_ok
    | intro _
    | with_reducible refine okOf ?_ rfl rfl rfl rfl rfl rfl rfl rfl rfl
    | simp only [ok_mk]
    | split
    | refine okOf ?_ rfl rfl rfl rfl rfl rfl rfl rfl rfl
    | dsimp only

theorem wrDescW3_ok {κ : Kept} {p : Path} {v : Word} {s : State} (hκ : s.Ok κ) : (wrDescW3 p v s).1.Ok κ := by
  unfold wrDescW3
  try dsimp only
  repeat' first
    | with_reducible assumption
    | with_reducible apply done_ok
    | with_reducible apply stageDesc_ok
    | with_reducible apply ite_ok
    | intro _
    | with_reducible refine okOf ?_ rfl rfl rfl rfl rfl rfl rfl rfl rfl
    | simp only [ok_mk]
    | split
    | refine okOf ?_ rfl rfl rfl rfl rfl rfl rfl rfl rfl
    | dsimp only

theorem execDescW3_ok {κ : Kept} {p : Path} {v : Word} {s : State} (hκ : s.Ok κ) : ∃ st' : State, execDescW3 p v s = .next st' ∧ st'.Ok κ := by
  refine ⟨_, rfl, ?_⟩
  try dsimp only
  repeat' first
    | with_reducible assumption
    | with_reducible apply guardWrite_ok
    | with_reducible apply wrDescW3_ok
    | with_reducible apply ite_ok
    | intro _
    | with_reducible refine okOf ?_ rfl rfl rfl rfl rfl rfl rfl rfl rfl
    | simp only [ok_mk]
    | split
    | refine okOf ?_ rfl rfl rfl rfl rfl rfl rfl rfl rfl
    | dsimp only

theorem execTaskSelectionDone_ok {κ : Kept} {e : Nat} {s : State} (hκ : s.Ok κ) : ∃ st' : State, execTaskSelectionDone e s = .next st' ∧ st'.Ok κ := by
  refine ⟨_, rfl, ?_⟩
  try dsimp only
  repeat' first
    | with_reducible assumption
    | with_reducible apply incL_ok
    | with_reducible apply select_ok
    | with_reducible apply setEntering_ok
    | with_reducible apply ite_ok
    | intro _
    | with_reducible refine okOf ?_ rfl rfl rfl rfl rfl rfl rfl rfl rfl
    | simp only [ok_mk]
    | split
    | refine okOf ?_ rfl rfl rfl rfl rfl rfl rfl rfl rfl
    | dsimp only

theorem execPrefetchRefillDone_ok {κ : Kept} {e : Nat} {s : State} (hκ : s.Ok κ) : ∃ st' : State, execPrefetchRefillDone e s = .next st' ∧ st'.Ok κ := by
  refine ⟨_, rfl, ?_⟩
  try dsimp only
  repeat' first
    | with_reducible assumption
    | with_reducible apply ite_ok
    | intro _
    | with_reducible refine okOf ?_ rfl rfl rfl rfl rfl rfl rfl rfl rfl
    | simp only [ok_mk]
    | split
    | refine okOf ?_ rfl rfl rfl rfl rfl rfl rfl rfl rfl
    | dsimp only

theorem execContextSaveDone_ok {κ : Kept} {e : Nat} {s : State} (hκ : s.Ok κ) : ∃ st' : State, execContextSaveDone e s = .next st' ∧ st'.Ok κ := by
  refine ⟨_, rfl, ?_⟩
  try dsimp only
  repeat' first
    | with_reducible assumption
    | with_reducible apply drainStores_ok
    | with_reducible apply setEng_ok
    | with_reducible apply setEntering_ok
    | with_reducible apply setRunning_ok
    | with_reducible apply ite_ok
    | intro _
    | with_reducible refine okOf ?_ rfl rfl rfl rfl rfl rfl rfl rfl rfl
    | simp only [ok_mk]
    | split
    | refine okOf ?_ rfl rfl rfl rfl rfl rfl rfl rfl rfl
    | dsimp only

theorem loadInst_ok {κ : Kept} {s : State} {e : Nat} {i : Inst} (hκ : s.Ok κ) : (State.loadInst s e i).Ok κ := by
  unfold State.loadInst
  try dsimp only
  repeat' first
    | with_reducible assumption
    | with_reducible apply prefetchAll_ok
    | with_reducible apply setDescDyn_ok
    | with_reducible apply setEng_ok
    | with_reducible apply setEntering_ok
    | with_reducible apply setLN_ok
    | with_reducible apply setRunning_ok
    | with_reducible apply ite_ok
    | intro _
    | with_reducible refine okOf ?_ rfl rfl rfl rfl rfl rfl rfl rfl rfl
    | simp only [ok_mk]
    | split
    | refine okOf ?_ rfl rfl rfl rfl rfl rfl rfl rfl rfl
    | dsimp only

theorem execTaskLoadDone_ok {κ : Kept} {e : Nat} {s : State} (hκ : s.Ok κ) : ∃ st' : State, execTaskLoadDone e s = .next st' ∧ st'.Ok κ := by
  refine ⟨_, rfl, ?_⟩
  try dsimp only
  repeat' first
    | with_reducible assumption
    | with_reducible apply loadInst_ok
    | with_reducible apply ite_ok
    | intro _
    | with_reducible refine okOf ?_ rfl rfl rfl rfl rfl rfl rfl rfl rfl
    | simp only [ok_mk]
    | split
    | refine okOf ?_ rfl rfl rfl rfl rfl rfl rfl rfl rfl
    | dsimp only

theorem execContextRestoreDone_ok {κ : Kept} {e : Nat} {s : State} (hκ : s.Ok κ) : ∃ st' : State, execContextRestoreDone e s = .next st' ∧ st'.Ok κ := by
  refine ⟨_, rfl, ?_⟩
  try dsimp only
  repeat' first
    | with_reducible assumption
    | with_reducible apply prefetch_ok
    | with_reducible apply setEng_ok
    | with_reducible apply setEntering_ok
    | with_reducible apply setRunning_ok
    | with_reducible apply ite_ok
    | intro _
    | with_reducible refine okOf ?_ rfl rfl rfl rfl rfl rfl rfl rfl rfl
    | simp only [ok_mk]
    | split
    | refine okOf ?_ rfl rfl rfl rfl rfl rfl rfl rfl rfl
    | dsimp only

theorem execCycWarnExceed_ok {κ : Kept} {e : Nat} {s : State} (hκ : s.Ok κ) : ∃ st' : State, execCycWarnExceed e s = .next st' ∧ st'.Ok κ := by
  refine ⟨_, rfl, ?_⟩
  try dsimp only
  repeat' first
    | with_reducible assumption
    | with_reducible apply incL_ok
    | with_reducible apply irqEdge_ok
    | with_reducible apply raise_ok
    | with_reducible apply setDescDyn_ok
    | with_reducible apply setEng_ok
    | with_reducible apply ite_ok
    | intro _
    | with_reducible refine okOf ?_ rfl rfl rfl rfl rfl rfl rfl rfl rfl
    | simp only [ok_mk]
    | split
    | refine okOf ?_ rfl rfl rfl rfl rfl rfl rfl rfl rfl
    | dsimp only

theorem clearCycWarn_ok {κ : Kept} {s : State} (hκ : s.Ok κ) : (State.clearCycWarn s).Ok κ := by
  unfold State.clearCycWarn
  try dsimp only
  repeat' first
    | with_reducible assumption
    | with_reducible apply each_ok
    | with_reducible apply setDescDyn_ok
    | with_reducible apply ite_ok
    | intro _
    | with_reducible refine okOf ?_ rfl rfl rfl rfl rfl rfl rfl rfl rfl
    | simp only [ok_mk]
    | split
    | refine okOf ?_ rfl rfl rfl rfl rfl rfl rfl rfl rfl
    | dsimp only

end Sys2Proof.Machine
end

