-- ==== Sys2Proof/Laws/KeepsPwm.lean ====
section
/-! SUPPORT. The operations of Pwm.lean keep what Keeps.lean names. -/
namespace Sys2Proof.Machine
set_option linter.all false

theorem pairWrap_ok {κ : Kept} {s : State} {p w : Nat} (hκ : s.Ok κ) : (State.pairWrap s p w).Ok κ := by
  unfold State.pairWrap
  try dsimp only
  repeat' first
    | with_reducible assumption
    | with_reducible apply forceActive_ok
    | with_reducible apply incIf_ok
    | with_reducible apply incL_ok
    | with_reducible apply putPair_ok
    | with_reducible apply setPair_ok
    | with_reducible apply ite_ok
    | intro _
    | with_reducible refine okOf ?_ rfl rfl rfl rfl rfl rfl rfl rfl rfl
    | simp only [ok_mk]
    | split
    | refine okOf ?_ rfl rfl rfl rfl rfl rfl rfl rfl rfl
    | dsimp only

theorem execPwmWrap_ok {κ : Kept} {p : Nat} {s : State} (hκ : s.Ok κ) : ∃ st' : State, execPwmWrap p s = .next st' ∧ st'.Ok κ := by
  refine ⟨_, rfl, ?_⟩
  try dsimp only
  repeat' first
    | with_reducible assumption
    | with_reducible apply pairWrap_ok
    | with_reducible apply toL_ok
    | with_reducible apply ite_ok
    | intro _
    | with_reducible refine okOf ?_ rfl rfl rfl rfl rfl rfl rfl rfl rfl
    | simp only [ok_mk]
    | split
    | refine okOf ?_ rfl rfl rfl rfl rfl rfl rfl rfl rfl
    | dsimp only

theorem execPwmDutyMatch_ok {κ : Kept} {p : Nat} {s : State} (hκ : s.Ok κ) : ∃ st' : State, execPwmDutyMatch p s = .next st' ∧ st'.Ok κ := by
  refine ⟨_, rfl, ?_⟩
  try dsimp only
  repeat' first
    | with_reducible assumption
    | with_reducible apply putPair_ok
    | with_reducible apply toL_ok
    | with_reducible apply ite_ok
    | intro _
    | with_reducible refine okOf ?_ rfl rfl rfl rfl rfl rfl rfl rfl rfl
    | simp only [ok_mk]
    | split
    | refine okOf ?_ rfl rfl rfl rfl rfl rfl rfl rfl rfl
    | dsimp only

theorem execDeadTimeExpire_ok {κ : Kept} {p : Nat} {s : State} (hκ : s.Ok κ) : ∃ st' : State, execDeadTimeExpire p s = .next st' ∧ st'.Ok κ := by
  refine ⟨_, rfl, ?_⟩
  try dsimp only
  repeat' first
    | with_reducible assumption
    | with_reducible apply setPair_ok
    | with_reducible apply toL_ok
    | with_reducible apply ite_ok
    | intro _
    | with_reducible refine okOf ?_ rfl rfl rfl rfl rfl rfl rfl rfl rfl
    | simp only [ok_mk]
    | split
    | refine okOf ?_ rfl rfl rfl rfl rfl rfl rfl rfl rfl
    | dsimp only

theorem pwmConfigure_ok {κ : Kept} {s : State} (hκ : s.Ok κ) : (State.pwmConfigure s).Ok κ := by
  unfold State.pwmConfigure
  try dsimp only
  repeat' first
    | with_reducible assumption
    | with_reducible apply each_ok
    | with_reducible apply setPair_ok
    | with_reducible apply ite_ok
    | intro _
    | with_reducible refine okOf ?_ rfl rfl rfl rfl rfl rfl rfl rfl rfl
    | simp only [ok_mk]
    | split
    | refine okOf ?_ rfl rfl rfl rfl rfl rfl rfl rfl rfl
    | dsimp only

theorem pairLand_ok {κ : Kept} {s : State} {p : Nat} {force : Bool} {v : Word} (hκ : s.Ok κ) : (State.pairLand s p force v).Ok κ := by
  unfold State.pairLand
  try dsimp only
  repeat' first
    | with_reducible assumption
    | with_reducible apply setPair_ok
    | with_reducible apply ite_ok
    | intro _
    | with_reducible refine okOf ?_ rfl rfl rfl rfl rfl rfl rfl rfl rfl
    | simp only [ok_mk]
    | split
    | refine okOf ?_ rfl rfl rfl rfl rfl rfl rfl rfl rfl
    | dsimp only

theorem wrPwmTiming_ok {κ : Kept} {p : Nat} {v : Word} {s : State} (hκ : s.Ok κ) : (wrPwmTiming p v s).1.Ok κ := by
  unfold wrPwmTiming
  try dsimp only
  repeat' first
    | with_reducible assumption
    | with_reducible apply done_ok
    | with_reducible apply pairLand_ok
    | with_reducible apply refused6_ok
    | with_reducible apply ite_ok
    | intro _
    | with_reducible refine okOf ?_ rfl rfl rfl rfl rfl rfl rfl rfl rfl
    | simp only [ok_mk]
    | split
    | refine okOf ?_ rfl rfl rfl rfl rfl rfl rfl rfl rfl
    | dsimp only

theorem execPwmTimingWrite_ok {κ : Kept} {path : Path} {p : Nat} {v : Word} {s : State} (hκ : s.Ok κ) : ∃ st' : State, execPwmTimingWrite path p v s = .next st' ∧ st'.Ok κ := by
  refine ⟨_, rfl, ?_⟩
  try dsimp only
  repeat' first
    | with_reducible assumption
    | with_reducible apply guardWrite_ok
    | with_reducible apply wrPwmTiming_ok
    | with_reducible apply ite_ok
    | intro _
    | with_reducible refine okOf ?_ rfl rfl rfl rfl rfl rfl rfl rfl rfl
    | simp only [ok_mk]
    | split
    | refine okOf ?_ rfl rfl rfl rfl rfl rfl rfl rfl rfl
    | dsimp only

theorem wrPwmForce_ok {κ : Kept} {p : Nat} {v : Word} {s : State} (hκ : s.Ok κ) : (wrPwmForce p v s).1.Ok κ := by
  unfold wrPwmForce
  try dsimp only
  repeat' first
    | with_reducible assumption
    | with_reducible apply done_ok
    | with_reducible apply pairLand_ok
    | with_reducible apply refused6_ok
    | with_reducible apply ite_ok
    | intro _
    | with_reducible refine okOf ?_ rfl rfl rfl rfl rfl rfl rfl rfl rfl
    | simp only [ok_mk]
    | split
    | refine okOf ?_ rfl rfl rfl rfl rfl rfl rfl rfl rfl
    | dsimp only

theorem execPwmForceWrite_ok {κ : Kept} {path : Path} {p : Nat} {v : Word} {s : State} (hκ : s.Ok κ) : ∃ st' : State, execPwmForceWrite path p v s = .next st' ∧ st'.Ok κ := by
  refine ⟨_, rfl, ?_⟩
  try dsimp only
  repeat' first
    | with_reducible assumption
    | with_reducible apply guardWrite_ok
    | with_reducible apply wrPwmForce_ok
    | with_reducible apply ite_ok
    | intro _
    | with_reducible refine okOf ?_ rfl rfl rfl rfl rfl rfl rfl rfl rfl
    | simp only [ok_mk]
    | split
    | refine okOf ?_ rfl rfl rfl rfl rfl rfl rfl rfl rfl
    | dsimp only

theorem pairCtrl_ok {κ : Kept} {s : State} {p : Nat} {stop : Bool} (hκ : s.Ok κ) : (State.pairCtrl s p stop).Ok κ := by
  unfold State.pairCtrl
  try dsimp only
  repeat' first
    | with_reducible assumption
    | with_reducible apply setPair_ok
    | with_reducible apply ite_ok
    | intro _
    | with_reducible refine okOf ?_ rfl rfl rfl rfl rfl rfl rfl rfl rfl
    | simp only [ok_mk]
    | split
    | refine okOf ?_ rfl rfl rfl rfl rfl rfl rfl rfl rfl
    | dsimp only

theorem pairStart_ok {κ : Kept} {s : State} {p : Nat} (hκ : s.Ok κ) : (State.pairStart s p).Ok κ := by
  unfold State.pairStart
  try dsimp only
  repeat' first
    | with_reducible assumption
    | with_reducible apply pairCtrl_ok
    | with_reducible apply ite_ok
    | intro _
    | with_reducible refine okOf ?_ rfl rfl rfl rfl rfl rfl rfl rfl rfl
    | simp only [ok_mk]
    | split
    | refine okOf ?_ rfl rfl rfl rfl rfl rfl rfl rfl rfl
    | dsimp only

theorem pairStop_ok {κ : Kept} {s : State} {p : Nat} (hκ : s.Ok κ) : (State.pairStop s p).Ok κ := by
  unfold State.pairStop
  try dsimp only
  repeat' first
    | with_reducible assumption
    | with_reducible apply pairCtrl_ok
    | with_reducible apply ite_ok
    | intro _
    | with_reducible refine okOf ?_ rfl rfl rfl rfl rfl rfl rfl rfl rfl
    | simp only [ok_mk]
    | split
    | refine okOf ?_ rfl rfl rfl rfl rfl rfl rfl rfl rfl
    | dsimp only

theorem wrPairCtrl_ok {κ : Kept} {p : Nat} {v : Word} {s : State} (hκ : s.Ok κ) : (wrPairCtrl p v s).1.Ok κ := by
  unfold wrPairCtrl
  try dsimp only
  repeat' first
    | with_reducible assumption
    | with_reducible apply done_ok
    | with_reducible apply pairStart_ok
    | with_reducible apply pairStop_ok
    | with_reducible apply ite_ok
    | intro _
    | with_reducible refine okOf ?_ rfl rfl rfl rfl rfl rfl rfl rfl rfl
    | simp only [ok_mk]
    | split
    | refine okOf ?_ rfl rfl rfl rfl rfl rfl rfl rfl rfl
    | dsimp only

theorem execPairStart_ok {κ : Kept} {path : Path} {p : Nat} {s : State} (hκ : s.Ok κ) : ∃ st' : State, execPairStart path p s = .next st' ∧ st'.Ok κ := by
  refine ⟨_, rfl, ?_⟩
  try dsimp only
  repeat' first
    | with_reducible assumption
    | with_reducible apply guardWrite_ok
    | with_reducible apply wrPairCtrl_ok
    | with_reducible apply ite_ok
    | intro _
    | with_reducible refine okOf ?_ rfl rfl rfl rfl rfl rfl rfl rfl rfl
    | simp only [ok_mk]
    | split
    | refine okOf ?_ rfl rfl rfl rfl rfl rfl rfl rfl rfl
    | dsimp only

theorem execPairStop_ok {κ : Kept} {path : Path} {p : Nat} {s : State} (hκ : s.Ok κ) : ∃ st' : State, execPairStop path p s = .next st' ∧ st'.Ok κ := by
  refine ⟨_, rfl, ?_⟩
  try dsimp only
  repeat' first
    | with_reducible assumption
    | with_reducible apply guardWrite_ok
    | with_reducible apply wrPairCtrl_ok
    | with_reducible apply ite_ok
    | intro _
    | with_reducible refine okOf ?_ rfl rfl rfl rfl rfl rfl rfl rfl rfl
    | simp only [ok_mk]
    | split
    | refine okOf ?_ rfl rfl rfl rfl rfl rfl rfl rfl rfl
    | dsimp only

theorem wrPwmSyncStart_ok {κ : Kept} {v : Word} {s : State} (hκ : s.Ok κ) : (wrPwmSyncStart v s).1.Ok κ := by
  unfold wrPwmSyncStart
  try dsimp only
  repeat' first
    | with_reducible assumption
    | with_reducible apply done_ok
    | with_reducible apply each_ok
    | with_reducible apply pairStart_ok
    | with_reducible apply ite_ok
    | intro _
    | with_reducible refine okOf ?_ rfl rfl rfl rfl rfl rfl rfl rfl rfl
    | simp only [ok_mk]
    | split
    | refine okOf ?_ rfl rfl rfl rfl rfl rfl rfl rfl rfl
    | dsimp only

theorem execPwmSyncStart_ok {κ : Kept} {path : Path} {v : Word} {s : State} (hκ : s.Ok κ) : ∃ st' : State, execPwmSyncStart path v s = .next st' ∧ st'.Ok κ := by
  refine ⟨_, rfl, ?_⟩
  try dsimp only
  repeat' first
    | with_reducible assumption
    | with_reducible apply guardWrite_ok
    | with_reducible apply wrPwmSyncStart_ok
    | with_reducible apply ite_ok
    | intro _
    | with_reducible refine okOf ?_ rfl rfl rfl rfl rfl rfl rfl rfl rfl
    | simp only [ok_mk]
    | split
    | refine okOf ?_ rfl rfl rfl rfl rfl rfl rfl rfl rfl
    | dsimp only

theorem pwmTick_ok {κ : Kept} {s : State} (hκ : s.Ok κ) : (State.pwmTick s).Ok κ := by
  unfold State.pwmTick
  try dsimp only
  repeat' first
    | with_reducible assumption
    | with_reducible apply each_ok
    | with_reducible apply pairWrap_ok
    | with_reducible apply ite_ok
    | intro _
    | with_reducible refine okOf ?_ rfl rfl rfl rfl rfl rfl rfl rfl rfl
    | simp only [ok_mk]
    | split
    | refine okOf ?_ rfl rfl rfl rfl rfl rfl rfl rfl rfl
    | dsimp only

theorem pwmFreeze_ok {κ : Kept} {s : State} (hκ : s.Ok κ) : (State.pwmFreeze s).Ok κ := by
  unfold State.pwmFreeze
  try dsimp only
  repeat' first
    | with_reducible assumption
    | with_reducible apply each_ok
    | with_reducible apply setPair_ok
    | with_reducible apply ite_ok
    | intro _
    | with_reducible refine okOf ?_ rfl rfl rfl rfl rfl rfl rfl rfl rfl
    | simp only [ok_mk]
    | split
    | refine okOf ?_ rfl rfl rfl rfl rfl rfl rfl rfl rfl
    | dsimp only

theorem pwmThaw_ok {κ : Kept} {s : State} (hκ : s.Ok κ) : (State.pwmThaw s).Ok κ := by
  unfold State.pwmThaw
  try dsimp only
  repeat' first
    | with_reducible assumption
    | with_reducible apply each_ok
    | with_reducible apply setPair_ok
    | with_reducible apply ite_ok
    | intro _
    | with_reducible refine okOf ?_ rfl rfl rfl rfl rfl rfl rfl rfl rfl
    | simp only [ok_mk]
    | split
    | refine okOf ?_ rfl rfl rfl rfl rfl rfl rfl rfl rfl
    | dsimp only

theorem tripClear_ok {κ : Kept} {s : State} {n : Nat} (hκ : s.Ok κ) : (State.tripClear s n).Ok κ := by
  unfold State.tripClear
  try dsimp only
  repeat' first
    | with_reducible assumption
    | with_reducible apply faultLevel_ok
    | with_reducible apply incL_ok
    | with_reducible apply irqLevel_ok
    | with_reducible apply latch_ok
    | with_reducible apply ite_ok
    | intro _
    | with_reducible refine okOf ?_ rfl rfl rfl rfl rfl rfl rfl rfl rfl
    | simp only [ok_mk]
    | split
    | refine okOf ?_ rfl rfl rfl rfl rfl rfl rfl rfl rfl
    | dsimp only

theorem wrTripClear_ok {κ : Kept} {v : Word} {s : State} (hκ : s.Ok κ) : (wrTripClear v s).1.Ok κ := by
  unfold wrTripClear
  try dsimp only
  repeat' first
    | with_reducible assumption
    | with_reducible apply done_ok
    | with_reducible apply each_ok
    | with_reducible apply refused6_ok
    | with_reducible apply tripClear_ok
    | with_reducible apply ite_ok
    | intro _
    | with_reducible refine okOf ?_ rfl rfl rfl rfl rfl rfl rfl rfl rfl
    | simp only [ok_mk]
    | split
    | refine okOf ?_ rfl rfl rfl rfl rfl rfl rfl rfl rfl
    | dsimp only

theorem execTripClear_ok {κ : Kept} {path : Path} {v : Word} {s : State} (hκ : s.Ok κ) : ∃ st' : State, execTripClear path v s = .next st' ∧ st'.Ok κ := by
  refine ⟨_, rfl, ?_⟩
  try dsimp only
  repeat' first
    | with_reducible assumption
    | with_reducible apply guardWrite_ok
    | with_reducible apply wrTripClear_ok
    | with_reducible apply ite_ok
    | intro _
    | with_reducible refine okOf ?_ rfl rfl rfl rfl rfl rfl rfl rfl rfl
    | simp only [ok_mk]
    | split
    | refine okOf ?_ rfl rfl rfl rfl rfl rfl rfl rfl rfl
    | dsimp only

end Sys2Proof.Machine
end

