-- ==== Sys2Proof/Laws/KeepsTrains.lean ====
section
/-! SUPPORT. The operations of Trains.lean keep what Keeps.lean names. -/
namespace Sys2Proof.Machine
set_option linter.all false

theorem trainOut_ok {κ : Kept} {s : State} {n : Nat} {t : List (BitVec 64)} {c : Nat} (hκ : s.Ok κ) : (State.trainOut s n t c).Ok κ := by
  unfold State.trainOut
  try dsimp only
  repeat' first
    | with_reducible assumption
    | with_reducible apply setLane_ok
    | with_reducible apply ite_ok
    | intro _
    | with_reducible refine okOf ?_ rfl rfl rfl rfl rfl rfl rfl rfl rfl
    | simp only [ok_mk]
    | split
    | refine okOf ?_ rfl rfl rfl rfl rfl rfl rfl rfl rfl
    | dsimp only

theorem blockOut_ok {κ : Kept} {s : State} {n c : Nat} (hκ : s.Ok κ) : (State.blockOut s n c).Ok κ := by
  unfold State.blockOut
  try dsimp only
  repeat' first
    | with_reducible assumption
    | with_reducible apply setLane_ok
    | with_reducible apply ite_ok
    | intro _
    | with_reducible refine okOf ?_ rfl rfl rfl rfl rfl rfl rfl rfl rfl
    | simp only [ok_mk]
    | split
    | refine okOf ?_ rfl rfl rfl rfl rfl rfl rfl rfl rfl
    | dsimp only

end Sys2Proof.Machine
end

