-- ==== Sys2Proof/Laws/KeepsWtOps.lean ====
section
/-! SUPPORT. The operations of WtOps.lean keep what Keeps.lean names. -/
namespace Sys2Proof.Machine
set_option linter.all false

theorem sbkLevels_ok {κ : Kept} {s : State} (hκ : s.Ok κ) : (State.sbkLevels s).Ok κ := by
  unfold State.sbkLevels
  try dsimp only
  repeat' first
    | with_reducible assumption
    | with_reducible apply irqLevel_ok
    | with_reducible apply ite_ok
    | intro _
    | with_reducible refine okOf ?_ rfl rfl rfl rfl rfl rfl rfl rfl rfl
    | simp only [ok_mk]
    | split
    | refine okOf ?_ rfl rfl rfl rfl rfl rfl rfl rfl rfl
    | dsimp only

theorem sbkDemand_ok {κ : Kept} {s : State} {b : Nat} {edge : Option Nat} (hκ : s.Ok κ) : (State.sbkDemand s b edge).Ok κ := by
  unfold State.sbkDemand
  try dsimp only
  repeat' first
    | with_reducible assumption
    | with_reducible apply incL_ok
    | with_reducible apply raise0_ok
    | with_reducible apply safeEntry_ok
    | with_reducible apply safeOutputs_ok
    | with_reducible apply sbkLevels_ok
    | with_reducible apply ite_ok
    | intro _
    | with_reducible refine okOf ?_ rfl rfl rfl rfl rfl rfl rfl rfl rfl
    | simp only [ok_mk]
    | split
    | refine okOf ?_ rfl rfl rfl rfl rfl rfl rfl rfl rfl
    | dsimp only

theorem cause_ok {κ : Kept} {s : State} {b : Nat} {present : Bool} {edge : Option Nat} (hκ : s.Ok κ) : (State.cause s b present edge).Ok κ := by
  unfold State.cause
  try dsimp only
  repeat' first
    | with_reducible assumption
    | with_reducible apply sbkDemand_ok
    | with_reducible apply ite_ok
    | intro _
    | with_reducible refine okOf ?_ rfl rfl rfl rfl rfl rfl rfl rfl rfl
    | simp only [ok_mk]
    | split
    | refine okOf ?_ rfl rfl rfl rfl rfl rfl rfl rfl rfl
    | dsimp only

theorem wtWarn_ok {κ : Kept} {s : State} (hκ : s.Ok κ) : (State.wtWarn s).Ok κ := by
  unfold State.wtWarn
  try dsimp only
  repeat' first
    | with_reducible assumption
    | with_reducible apply raise_ok
    | with_reducible apply ite_ok
    | intro _
    | with_reducible refine okOf ?_ rfl rfl rfl rfl rfl rfl rfl rfl rfl
    | simp only [ok_mk]
    | split
    | refine okOf ?_ rfl rfl rfl rfl rfl rfl rfl rfl rfl
    | dsimp only

theorem wtFail_ok {κ : Kept} {s : State} {code : Nat} (hκ : s.Ok κ) : (State.wtFail s code).Ok κ := by
  unfold State.wtFail
  try dsimp only
  repeat' first
    | with_reducible assumption
    | with_reducible apply cause_ok
    | with_reducible apply irqLevel_ok
    | with_reducible apply raise0_ok
    | with_reducible apply safeOutputs_ok
    | with_reducible apply ite_ok
    | intro _
    | with_reducible refine okOf ?_ rfl rfl rfl rfl rfl rfl rfl rfl rfl
    | with_reducible refine okOf_fault ?_ rfl rfl rfl rfl rfl rfl rfl rfl rfl
    | simp only [ok_mk]
    | split
    | refine okOf ?_ rfl rfl rfl rfl rfl rfl rfl rfl rfl
    | dsimp only

theorem sbkReset_ok {κ : Kept} {s : State} (hκ : s.Ok κ) : (State.sbkReset s).1.Ok κ := by
  unfold State.sbkReset
  try dsimp only
  repeat' first
    | with_reducible assumption
    | with_reducible apply incL_ok
    | with_reducible apply safeOutputs_ok
    | with_reducible apply sbkLevels_ok
    | with_reducible apply ite_ok
    | intro _
    | with_reducible refine okOf ?_ rfl rfl rfl rfl rfl rfl rfl rfl rfl
    | simp only [ok_mk]
    | split
    | refine okOf ?_ rfl rfl rfl rfl rfl rfl rfl rfl rfl
    | dsimp only

theorem testLimit_ok {κ : Kept} {s : State} (hκ : s.Ok κ) : (State.testLimit s).Ok κ := by
  unfold State.testLimit
  try dsimp only
  repeat' first
    | with_reducible assumption
    | with_reducible apply safeEntry_ok
    | with_reducible apply ite_ok
    | intro _
    | with_reducible refine okOf ?_ rfl rfl rfl rfl rfl rfl rfl rfl rfl
    | simp only [ok_mk]
    | split
    | refine okOf ?_ rfl rfl rfl rfl rfl rfl rfl rfl rfl
    | dsimp only

theorem vdcCheck_ok {κ : Kept} {s : State} (hκ : s.Ok κ) : (State.vdcCheck s).Ok κ := by
  unfold State.vdcCheck
  try dsimp only
  repeat' first
    | with_reducible assumption
    | with_reducible apply clearTest_ok
    | with_reducible apply testLimit_ok
    | with_reducible apply ite_ok
    | intro _
    | with_reducible refine okOf ?_ rfl rfl rfl rfl rfl rfl rfl rfl rfl
    | simp only [ok_mk]
    | split
    | refine okOf ?_ rfl rfl rfl rfl rfl rfl rfl rfl rfl
    | dsimp only

theorem slcSample_ok {κ : Kept} {s : State} {stream : Nat} {x : Int} {a : Nat} (hκ : s.Ok κ) : (State.slcSample s stream x a).Ok κ := by
  unfold State.slcSample
  try dsimp only
  repeat' first
    | with_reducible assumption
    | with_reducible apply wtWarn_ok
    | with_reducible apply ite_ok
    | intro _
    | with_reducible refine okOf ?_ rfl rfl rfl rfl rfl rfl rfl rfl rfl
    | simp only [ok_mk]
    | split
    | refine okOf ?_ rfl rfl rfl rfl rfl rfl rfl rfl rfl
    | dsimp only

theorem slvSample_ok {κ : Kept} {s : State} {stream : Nat} {x : Int} {v : Nat} (hκ : s.Ok κ) : (State.slvSample s stream x v).Ok κ := by
  unfold State.slvSample
  try dsimp only
  repeat' first
    | with_reducible assumption
    | with_reducible apply wtWarn_ok
    | with_reducible apply ite_ok
    | intro _
    | with_reducible refine okOf ?_ rfl rfl rfl rfl rfl rfl rfl rfl rfl
    | simp only [ok_mk]
    | split
    | refine okOf ?_ rfl rfl rfl rfl rfl rfl rfl rfl rfl
    | dsimp only

theorem sdiSample_ok {κ : Kept} {s : State} {stream : Nat} {x : Int} {i : Nat} (hκ : s.Ok κ) : (State.sdiSample s stream x i).Ok κ := by
  unfold State.sdiSample
  try dsimp only
  repeat' first
    | with_reducible assumption
    | with_reducible apply wtWarn_ok
    | with_reducible apply ite_ok
    | intro _
    | with_reducible refine okOf ?_ rfl rfl rfl rfl rfl rfl rfl rfl rfl
    | simp only [ok_mk]
    | split
    | refine okOf ?_ rfl rfl rfl rfl rfl rfl rfl rfl rfl
    | dsimp only

theorem wtChannels_ok {κ : Kept} {s : State} (hκ : s.Ok κ) : (State.wtChannels s).Ok κ := by
  unfold State.wtChannels
  try dsimp only
  repeat' first
    | with_reducible assumption
    | with_reducible apply cause_ok
    | with_reducible apply vdcCheck_ok
    | with_reducible apply ite_ok
    | intro _
    | with_reducible refine okOf ?_ rfl rfl rfl rfl rfl rfl rfl rfl rfl
    | simp only [ok_mk]
    | split
    | refine okOf ?_ rfl rfl rfl rfl rfl rfl rfl rfl rfl
    | dsimp only

theorem wtSample_ok {κ : Kept} {s : State} {stream : Nat} {x : Int} (hκ : s.Ok κ) : (State.wtSample s stream x).Ok κ := by
  unfold State.wtSample
  try dsimp only
  repeat' first
    | with_reducible assumption
    | with_reducible apply each_ok
    | with_reducible apply sdiSample_ok
    | with_reducible apply slcSample_ok
    | with_reducible apply slvSample_ok
    | with_reducible apply wtChannels_ok
    | with_reducible apply ite_ok
    | intro _
    | with_reducible refine okOf ?_ rfl rfl rfl rfl rfl rfl rfl rfl rfl
    | simp only [ok_mk]
    | split
    | refine okOf ?_ rfl rfl rfl rfl rfl rfl rfl rfl rfl
    | dsimp only

theorem slvAdcSample_ok {κ : Kept} {s : State} {input : Nat} {q : Int} (hκ : s.Ok κ) : (State.slvAdcSample s input q).Ok κ := by
  unfold State.slvAdcSample
  try dsimp only
  repeat' first
    | with_reducible assumption
    | with_reducible apply cause_ok
    | with_reducible apply each_ok
    | with_reducible apply wtChannels_ok
    | with_reducible apply wtWarn_ok
    | with_reducible apply ite_ok
    | intro _
    | with_reducible refine okOf ?_ rfl rfl rfl rfl rfl rfl rfl rfl rfl
    | simp only [ok_mk]
    | split
    | refine okOf ?_ rfl rfl rfl rfl rfl rfl rfl rfl rfl
    | dsimp only

theorem wtRestart_ok {κ : Kept} {s o : State} (hκ : s.Ok κ) : (State.wtRestart s o).Ok κ := by
  unfold State.wtRestart
  try dsimp only
  repeat' first
    | with_reducible assumption
    | with_reducible apply ite_ok
    | intro _
    | with_reducible refine okOf ?_ rfl rfl rfl rfl rfl rfl rfl rfl rfl
    | simp only [ok_mk]
    | split
    | refine okOf ?_ rfl rfl rfl rfl rfl rfl rfl rfl rfl
    | dsimp only

theorem wtFrame_ok {κ : Kept} {s : State} {k : Nat} (hκ : s.Ok κ) : (State.wtFrame s k).Ok κ := by
  unfold State.wtFrame
  try dsimp only
  repeat' first
    | with_reducible assumption
    | with_reducible apply foldl_ok
    | with_reducible apply foldl_ok_fst
    | with_reducible apply ite_ok
    | intro _
    | with_reducible refine okOf ?_ rfl rfl rfl rfl rfl rfl rfl rfl rfl
    | simp only [ok_mk]
    | split
    | refine okOf ?_ rfl rfl rfl rfl rfl rfl rfl rfl rfl
    | dsimp only

theorem heartbeat_ok {κ : Kept} {s : State} {k : Nat} (hκ : s.Ok κ) : (State.heartbeat s k).Ok κ := by
  unfold State.heartbeat
  try dsimp only
  repeat' first
    | with_reducible assumption
    | with_reducible apply cause_ok
    | with_reducible apply ite_ok
    | intro _
    | with_reducible refine okOf ?_ rfl rfl rfl rfl rfl rfl rfl rfl rfl
    | simp only [ok_mk]
    | split
    | refine okOf ?_ rfl rfl rfl rfl rfl rfl rfl rfl rfl
    | dsimp only

theorem sdCauses_ok {κ : Kept} {s : State} (hκ : s.Ok κ) : (State.sdCauses s).Ok κ := by
  unfold State.sdCauses
  try dsimp only
  repeat' first
    | with_reducible assumption
    | with_reducible apply cause_ok
    | with_reducible apply ite_ok
    | intro _
    | with_reducible refine okOf ?_ rfl rfl rfl rfl rfl rfl rfl rfl rfl
    | simp only [ok_mk]
    | split
    | refine okOf ?_ rfl rfl rfl rfl rfl rfl rfl rfl rfl
    | dsimp only

theorem connSync_ok {κ : Kept} {s : State} (hκ : s.Ok κ) : (State.connSync s).Ok κ := by
  unfold State.connSync
  try dsimp only
  repeat' first
    | with_reducible assumption
    | with_reducible apply each_ok
    | with_reducible apply idle_ok
    | with_reducible apply sdCauses_ok
    | with_reducible apply setConn_ok
    | with_reducible apply ite_ok
    | intro _
    | with_reducible refine okOf ?_ rfl rfl rfl rfl rfl rfl rfl rfl rfl
    | simp only [ok_mk]
    | split
    | refine okOf ?_ rfl rfl rfl rfl rfl rfl rfl rfl rfl
    | dsimp only

end Sys2Proof.Machine
end

