-- ==== Sys2Proof/Laws/KeepsAdc.lean ====
section
/-! SUPPORT. The operations of Adc.lean keep what Keeps.lean names. -/
namespace Sys2Proof.Machine
set_option linter.all false

theorem adcDeliver_ok {κ : Kept} {s : State} {i : Nat} {q : Word} {input : Nat} {ovr inj delayed filtered : Bool} (hκ : s.Ok κ) : (State.adcDeliver s i q input ovr inj delayed filtered).Ok κ := by
  unfold State.adcDeliver
  try dsimp only
  repeat' first
    | with_reducible assumption
    | with_reducible apply incIf_ok
    | with_reducible apply irqEdge_ok
    | with_reducible apply irqIf_ok
    | with_reducible apply setConv_ok
    | with_reducible apply ite_ok
    | intro _
    | with_reducible refine okOf ?_ rfl rfl rfl rfl rfl rfl rfl rfl rfl
    | simp only [ok_mk]
    | split
    | refine okOf ?_ rfl rfl rfl rfl rfl rfl rfl rfl rfl
    | dsimp only

theorem adcDataRead_ok {κ : Kept} {s : State} {i : Nat} (hκ : s.Ok κ) : (State.adcDataRead s i).Ok κ := by
  unfold State.adcDataRead
  try dsimp only
  repeat' first
    | with_reducible assumption
    | with_reducible apply setConv_ok
    | with_reducible apply ite_ok
    | intro _
    | with_reducible refine okOf ?_ rfl rfl rfl rfl rfl rfl rfl rfl rfl
    | simp only [ok_mk]
    | split
    | refine okOf ?_ rfl rfl rfl rfl rfl rfl rfl rfl rfl
    | dsimp only

theorem adcTap_ok {κ : Kept} {s : State} {i input : Nat} {q : Word} {ovr : Bool} (hκ : s.Ok κ) : (State.adcTap s i input q ovr).Ok κ := by
  unfold State.adcTap
  try dsimp only
  repeat' first
    | with_reducible assumption
    | with_reducible apply setConv_ok
    | with_reducible apply ite_ok
    | intro _
    | with_reducible refine okOf ?_ rfl rfl rfl rfl rfl rfl rfl rfl rfl
    | simp only [ok_mk]
    | split
    | refine okOf ?_ rfl rfl rfl rfl rfl rfl rfl rfl rfl
    | dsimp only

theorem adcRegular_ok {κ : Kept} {s : State} {i input code : Nat} {ovr : Bool} (hκ : s.Ok κ) : (State.adcRegular s i input code ovr).Ok κ := by
  unfold State.adcRegular
  try dsimp only
  repeat' first
    | with_reducible assumption
    | with_reducible apply adcDeliver_ok
    | with_reducible apply adcTap_ok
    | with_reducible apply setConv_ok
    | with_reducible apply start_ok
    | with_reducible apply ite_ok
    | intro _
    | with_reducible refine okOf ?_ rfl rfl rfl rfl rfl rfl rfl rfl rfl
    | simp only [ok_mk]
    | split
    | refine okOf ?_ rfl rfl rfl rfl rfl rfl rfl rfl rfl
    | dsimp only

theorem adcBegin_ok {κ : Kept} {s : State} {i : Nat} (hκ : s.Ok κ) : (State.adcBegin s i).Ok κ := by
  unfold State.adcBegin
  try dsimp only
  repeat' first
    | with_reducible assumption
    | with_reducible apply setConv_ok
    | with_reducible apply ite_ok
    | intro _
    | with_reducible refine okOf ?_ rfl rfl rfl rfl rfl rfl rfl rfl rfl
    | simp only [ok_mk]
    | split
    | refine okOf ?_ rfl rfl rfl rfl rfl rfl rfl rfl rfl
    | dsimp only

theorem softStart_ok {κ : Kept} {s : State} {i : Nat} (hκ : s.Ok κ) : (State.softStart s i).Ok κ := by
  unfold State.softStart
  try dsimp only
  repeat' first
    | with_reducible assumption
    | with_reducible apply adcBegin_ok
    | with_reducible apply setConv_ok
    | with_reducible apply ite_ok
    | intro _
    | with_reducible refine okOf ?_ rfl rfl rfl rfl rfl rfl rfl rfl rfl
    | simp only [ok_mk]
    | split
    | refine okOf ?_ rfl rfl rfl rfl rfl rfl rfl rfl rfl
    | dsimp only

theorem adcbSwitch_ok {κ : Kept} {s : State} (hκ : s.Ok κ) : (State.adcbSwitch s).Ok κ := by
  unfold State.adcbSwitch
  try dsimp only
  repeat' first
    | with_reducible assumption
    | with_reducible apply adcBegin_ok
    | with_reducible apply idle_ok
    | with_reducible apply setConv_ok
    | with_reducible apply ite_ok
    | intro _
    | with_reducible refine okOf ?_ rfl rfl rfl rfl rfl rfl rfl rfl rfl
    | simp only [ok_mk]
    | split
    | refine okOf ?_ rfl rfl rfl rfl rfl rfl rfl rfl rfl
    | dsimp only

theorem injStart_ok {κ : Kept} {s : State} {i : Nat} {delayed : Bool} (hκ : s.Ok κ) : (State.injStart s i delayed).Ok κ := by
  unfold State.injStart
  try dsimp only
  repeat' first
    | with_reducible assumption
    | with_reducible apply incIf_ok
    | with_reducible apply setConv_ok
    | with_reducible apply ite_ok
    | intro _
    | with_reducible refine okOf ?_ rfl rfl rfl rfl rfl rfl rfl rfl rfl
    | simp only [ok_mk]
    | split
    | refine okOf ?_ rfl rfl rfl rfl rfl rfl rfl rfl rfl
    | dsimp only

theorem injOff_ok {κ : Kept} {s : State} {i : Nat} (hκ : s.Ok κ) : (State.injOff s i).Ok κ := by
  unfold State.injOff
  try dsimp only
  repeat' first
    | with_reducible assumption
    | with_reducible apply setConv_ok
    | with_reducible apply ite_ok
    | intro _
    | with_reducible refine okOf ?_ rfl rfl rfl rfl rfl rfl rfl rfl rfl
    | simp only [ok_mk]
    | split
    | refine okOf ?_ rfl rfl rfl rfl rfl rfl rfl rfl rfl
    | dsimp only

theorem adcNext_ok {κ : Kept} {s : State} {i : Nat} (hκ : s.Ok κ) : (State.adcNext s i).Ok κ := by
  unfold State.adcNext
  try dsimp only
  repeat' first
    | with_reducible assumption
    | with_reducible apply adcBegin_ok
    | with_reducible apply idle_ok
    | with_reducible apply injStart_ok
    | with_reducible apply setConv_ok
    | with_reducible apply softStart_ok
    | with_reducible apply ite_ok
    | intro _
    | with_reducible refine okOf ?_ rfl rfl rfl rfl rfl rfl rfl rfl rfl
    | simp only [ok_mk]
    | split
    | refine okOf ?_ rfl rfl rfl rfl rfl rfl rfl rfl rfl
    | dsimp only

theorem adcRegEnd_ok {κ : Kept} {s : State} {i : Nat} {again : Bool} (hκ : s.Ok κ) : (State.adcRegEnd s i again).Ok κ := by
  unfold State.adcRegEnd
  try dsimp only
  repeat' first
    | with_reducible assumption
    | with_reducible apply event_ok
    | with_reducible apply setConv_ok
    | with_reducible apply ite_ok
    | intro _
    | with_reducible refine okOf ?_ rfl rfl rfl rfl rfl rfl rfl rfl rfl
    | simp only [ok_mk]
    | split
    | refine okOf ?_ rfl rfl rfl rfl rfl rfl rfl rfl rfl
    | dsimp only

theorem adcAdvance_ok {κ : Kept} {s : State} {i : Nat} (hκ : s.Ok κ) : (State.adcAdvance s i).Ok κ := by
  unfold State.adcAdvance
  try dsimp only
  repeat' first
    | with_reducible assumption
    | with_reducible apply adcRegEnd_ok
    | with_reducible apply setConv_ok
    | with_reducible apply ite_ok
    | intro _
    | with_reducible refine okOf ?_ rfl rfl rfl rfl rfl rfl rfl rfl rfl
    | simp only [ok_mk]
    | split
    | refine okOf ?_ rfl rfl rfl rfl rfl rfl rfl rfl rfl
    | dsimp only

theorem injAdvance_ok {κ : Kept} {s : State} {i : Nat} (hκ : s.Ok κ) : (State.injAdvance s i).Ok κ := by
  unfold State.injAdvance
  try dsimp only
  repeat' first
    | with_reducible assumption
    | with_reducible apply adcNext_ok
    | with_reducible apply event_ok
    | with_reducible apply setConv_ok
    | with_reducible apply ite_ok
    | intro _
    | with_reducible refine okOf ?_ rfl rfl rfl rfl rfl rfl rfl rfl rfl
    | simp only [ok_mk]
    | split
    | refine okOf ?_ rfl rfl rfl rfl rfl rfl rfl rfl rfl
    | dsimp only

theorem adcTrigger_ok {κ : Kept} {s : State} {code sel i : Nat} (hκ : s.Ok κ) : (State.adcTrigger s code sel i).Ok κ := by
  unfold State.adcTrigger
  try dsimp only
  repeat' first
    | with_reducible assumption
    | with_reducible apply incL_ok
    | with_reducible apply injStart_ok
    | with_reducible apply setConv_ok
    | with_reducible apply ite_ok
    | intro _
    | with_reducible refine okOf ?_ rfl rfl rfl rfl rfl rfl rfl rfl rfl
    | simp only [ok_mk]
    | split
    | refine okOf ?_ rfl rfl rfl rfl rfl rfl rfl rfl rfl
    | dsimp only

theorem adcTriggers_ok {κ : Kept} {s : State} {code sel : Nat} (hκ : s.Ok κ) : (State.adcTriggers s code sel).Ok κ := by
  unfold State.adcTriggers
  try dsimp only
  repeat' first
    | with_reducible assumption
    | with_reducible apply adcTrigger_ok
    | with_reducible apply ite_ok
    | intro _
    | with_reducible refine okOf ?_ rfl rfl rfl rfl rfl rfl rfl rfl rfl
    | simp only [ok_mk]
    | split
    | refine okOf ?_ rfl rfl rfl rfl rfl rfl rfl rfl rfl
    | dsimp only

theorem calRequest_ok {κ : Kept} {s : State} {i : Nat} (hκ : s.Ok κ) : (State.calRequest s i).Ok κ := by
  unfold State.calRequest
  try dsimp only
  repeat' first
    | with_reducible assumption
    | with_reducible apply idle_ok
    | with_reducible apply incL_ok
    | with_reducible apply setConv_ok
    | with_reducible apply ite_ok
    | intro _
    | with_reducible refine okOf ?_ rfl rfl rfl rfl rfl rfl rfl rfl rfl
    | simp only [ok_mk]
    | split
    | refine okOf ?_ rfl rfl rfl rfl rfl rfl rfl rfl rfl
    | dsimp only

theorem regStart_ok {κ : Kept} {s : State} {i : Nat} (hκ : s.Ok κ) : (State.regStart s i).Ok κ := by
  unfold State.regStart
  try dsimp only
  repeat' first
    | with_reducible assumption
    | with_reducible apply idle_ok
    | with_reducible apply incL_ok
    | with_reducible apply setConv_ok
    | with_reducible apply softStart_ok
    | with_reducible apply ite_ok
    | intro _
    | with_reducible refine okOf ?_ rfl rfl rfl rfl rfl rfl rfl rfl rfl
    | simp only [ok_mk]
    | split
    | refine okOf ?_ rfl rfl rfl rfl rfl rfl rfl rfl rfl
    | dsimp only

theorem regStop_ok {κ : Kept} {s : State} {i : Nat} (hκ : s.Ok κ) : (State.regStop s i).Ok κ := by
  unfold State.regStop
  try dsimp only
  repeat' first
    | with_reducible assumption
    | with_reducible apply adcRegEnd_ok
    | with_reducible apply setConv_ok
    | with_reducible apply ite_ok
    | intro _
    | with_reducible refine okOf ?_ rfl rfl rfl rfl rfl rfl rfl rfl rfl
    | simp only [ok_mk]
    | split
    | refine okOf ?_ rfl rfl rfl rfl rfl rfl rfl rfl rfl
    | dsimp only

theorem wrAdcCtrl_ok {κ : Kept} {i : Nat} {v : Word} {s : State} (hκ : s.Ok κ) : (wrAdcCtrl i v s).1.Ok κ := by
  unfold wrAdcCtrl
  try dsimp only
  repeat' first
    | with_reducible assumption
    | with_reducible apply calRequest_ok
    | with_reducible apply done_ok
    | with_reducible apply regStart_ok
    | with_reducible apply regStop_ok
    | with_reducible apply setConv_ok
    | with_reducible apply ite_ok
    | intro _
    | with_reducible refine okOf ?_ rfl rfl rfl rfl rfl rfl rfl rfl rfl
    | simp only [ok_mk]
    | split
    | refine okOf ?_ rfl rfl rfl rfl rfl rfl rfl rfl rfl
    | dsimp only

theorem execAdcRegStart_ok {κ : Kept} {p : Path} {i : Nat} {cont : Bool} {s : State} (hκ : s.Ok κ) : ∃ st' : State, execAdcRegStart p i cont s = .next st' ∧ st'.Ok κ := by
  refine ⟨_, rfl, ?_⟩
  try dsimp only
  repeat' first
    | with_reducible assumption
    | with_reducible apply guardWrite_ok
    | with_reducible apply wrAdcCtrl_ok
    | with_reducible apply ite_ok
    | intro _
    | with_reducible refine okOf ?_ rfl rfl rfl rfl rfl rfl rfl rfl rfl
    | simp only [ok_mk]
    | split
    | refine okOf ?_ rfl rfl rfl rfl rfl rfl rfl rfl rfl
    | dsimp only

theorem execAdcRegStop_ok {κ : Kept} {p : Path} {i : Nat} {s : State} (hκ : s.Ok κ) : ∃ st' : State, execAdcRegStop p i s = .next st' ∧ st'.Ok κ := by
  refine ⟨_, rfl, ?_⟩
  try dsimp only
  repeat' first
    | with_reducible assumption
    | with_reducible apply guardWrite_ok
    | with_reducible apply wrAdcCtrl_ok
    | with_reducible apply ite_ok
    | intro _
    | with_reducible refine okOf ?_ rfl rfl rfl rfl rfl rfl rfl rfl rfl
    | simp only [ok_mk]
    | split
    | refine okOf ?_ rfl rfl rfl rfl rfl rfl rfl rfl rfl
    | dsimp only

theorem execAdcCalReq_ok {κ : Kept} {p : Path} {i : Nat} {cont : Bool} {s : State} (hκ : s.Ok κ) : ∃ st' : State, execAdcCalReq p i cont s = .next st' ∧ st'.Ok κ := by
  refine ⟨_, rfl, ?_⟩
  try dsimp only
  repeat' first
    | with_reducible assumption
    | with_reducible apply guardWrite_ok
    | with_reducible apply wrAdcCtrl_ok
    | with_reducible apply ite_ok
    | intro _
    | with_reducible refine okOf ?_ rfl rfl rfl rfl rfl rfl rfl rfl rfl
    | simp only [ok_mk]
    | split
    | refine okOf ?_ rfl rfl rfl rfl rfl rfl rfl rfl rfl
    | dsimp only

theorem execAdcPeriodicStart_ok {κ : Kept} {i : Nat} {s : State} (hκ : s.Ok κ) : ∃ st' : State, execAdcPeriodicStart i s = .next st' ∧ st'.Ok κ := by
  refine ⟨_, rfl, ?_⟩
  try dsimp only
  repeat' first
    | with_reducible assumption
    | with_reducible apply adcBegin_ok
    | with_reducible apply incL_ok
    | with_reducible apply setConv_ok
    | with_reducible apply toL_ok
    | with_reducible apply ite_ok
    | intro _
    | with_reducible refine okOf ?_ rfl rfl rfl rfl rfl rfl rfl rfl rfl
    | simp only [ok_mk]
    | split
    | refine okOf ?_ rfl rfl rfl rfl rfl rfl rfl rfl rfl
    | dsimp only

theorem execAdcConversionDone_ok {κ : Kept} {i : Nat} {v vref : Int} {s : State} (hκ : s.Ok κ) : ∃ st' : State, execAdcConversionDone i v vref s = .next st' ∧ st'.Ok κ := by
  refine ⟨_, rfl, ?_⟩
  try dsimp only
  repeat' first
    | with_reducible assumption
    | with_reducible apply adcAdvance_ok
    | with_reducible apply adcDeliver_ok
    | with_reducible apply adcNext_ok
    | with_reducible apply adcRegular_ok
    | with_reducible apply adcbSwitch_ok
    | with_reducible apply incIf_ok
    | with_reducible apply injAdvance_ok
    | with_reducible apply slvAdcSample_ok
    | with_reducible apply ite_ok
    | intro _
    | with_reducible refine okOf ?_ rfl rfl rfl rfl rfl rfl rfl rfl rfl
    | simp only [ok_mk]
    | split
    | refine okOf ?_ rfl rfl rfl rfl rfl rfl rfl rfl rfl
    | dsimp only

theorem execAdcCalDone_ok {κ : Kept} {i : Nat} {coef : Word} {s : State} (hκ : s.Ok κ) : ∃ st' : State, execAdcCalDone i coef s = .next st' ∧ st'.Ok κ := by
  refine ⟨_, rfl, ?_⟩
  try dsimp only
  repeat' first
    | with_reducible assumption
    | with_reducible apply adcNext_ok
    | with_reducible apply adcbSwitch_ok
    | with_reducible apply incL_ok
    | with_reducible apply irqEdge_ok
    | with_reducible apply setConv_ok
    | with_reducible apply ite_ok
    | intro _
    | with_reducible refine okOf ?_ rfl rfl rfl rfl rfl rfl rfl rfl rfl
    | simp only [ok_mk]
    | split
    | refine okOf ?_ rfl rfl rfl rfl rfl rfl rfl rfl rfl
    | dsimp only

theorem execWtAdcbCalibrate_ok {κ : Kept} {s : State} (hκ : s.Ok κ) : ∃ st' : State, execWtAdcbCalibrate s = .next st' ∧ st'.Ok κ := by
  refine ⟨_, rfl, ?_⟩
  try dsimp only
  repeat' first
    | with_reducible assumption
    | with_reducible apply calRequest_ok
    | with_reducible apply ite_ok
    | intro _
    | with_reducible refine okOf ?_ rfl rfl rfl rfl rfl rfl rfl rfl rfl
    | simp only [ok_mk]
    | split
    | refine okOf ?_ rfl rfl rfl rfl rfl rfl rfl rfl rfl
    | dsimp only

theorem adcbClaim_ok {κ : Kept} {s : State} (hκ : s.Ok κ) : (State.adcbClaim s).Ok κ := by
  unfold State.adcbClaim
  try dsimp only
  repeat' first
    | with_reducible assumption
    | with_reducible apply adcbSwitch_ok
    | with_reducible apply idle_ok
    | with_reducible apply setConv_ok
    | with_reducible apply ite_ok
    | intro _
    | with_reducible refine okOf ?_ rfl rfl rfl rfl rfl rfl rfl rfl rfl
    | simp only [ok_mk]
    | split
    | refine okOf ?_ rfl rfl rfl rfl rfl rfl rfl rfl rfl
    | dsimp only

end Sys2Proof.Machine
end

