-- ==== Sys2Proof/Laws/KeepsTrips.lean ====
section
/-! SUPPORT. The operations of Trips.lean keep what Keeps.lean names. -/
namespace Sys2Proof.Machine
set_option linter.all false

theorem occPend_ok {κ : Kept} {s : State} (hκ : s.Ok κ) : (occPend s).Ok κ := by
  unfold occPend
  try dsimp only
  repeat' first
    | with_reducible assumption
    | with_reducible apply raise_ok
    | with_reducible apply ite_ok
    | intro _
    | with_reducible refine okOf ?_ rfl rfl rfl rfl rfl rfl rfl rfl rfl
    | simp only [ok_mk]
    | split
    | refine okOf ?_ rfl rfl rfl rfl rfl rfl rfl rfl rfl
    | dsimp only

theorem tripAccept_ok {κ : Kept} {s : State} {n edge : Nat} (hκ : s.Ok κ) : (State.tripAccept s n edge).Ok κ := by
  unfold State.tripAccept
  try dsimp only
  repeat' first
    | with_reducible assumption
    | with_reducible apply acqTrigger_ok
    | with_reducible apply adcTriggers_ok
    | with_reducible apply applyTrips_ok
    | with_reducible apply cause_ok
    | with_reducible apply event_ok
    | with_reducible apply incL_ok
    | with_reducible apply irqLevel_ok
    | with_reducible apply journalEdge_ok
    | with_reducible apply latch_ok
    | with_reducible apply occPend_ok
    | with_reducible apply raise0_ok
    | with_reducible apply reactC3_ok
    | with_reducible apply ite_ok
    | intro _
    | with_reducible refine okOf ?_ rfl rfl rfl rfl rfl rfl rfl rfl rfl
    | simp only [ok_mk]
    | split
    | refine okOf ?_ rfl rfl rfl rfl rfl rfl rfl rfl rfl
    | dsimp only

theorem tripLevelOff_ok {κ : Kept} {s : State} {n : Nat} (hκ : s.Ok κ) : (State.tripLevelOff s n).Ok κ := by
  unfold State.tripLevelOff
  try dsimp only
  repeat' first
    | with_reducible assumption
    | with_reducible apply cause_ok
    | with_reducible apply ite_ok
    | intro _
    | with_reducible refine okOf ?_ rfl rfl rfl rfl rfl rfl rfl rfl rfl
    | simp only [ok_mk]
    | split
    | refine okOf ?_ rfl rfl rfl rfl rfl rfl rfl rfl rfl
    | dsimp only

theorem execTripInputAccept_ok {κ : Kept} {n : Nat} {active : Bool} {edge : Nat} {s : State} (hκ : s.Ok κ) : ∃ st' : State, execTripInputAccept n active edge s = .next st' ∧ st'.Ok κ := by
  refine ⟨_, rfl, ?_⟩
  try dsimp only
  repeat' first
    | with_reducible assumption
    | with_reducible apply toC_ok
    | with_reducible apply tripAccept_ok
    | with_reducible apply tripLevelOff_ok
    | with_reducible apply ite_ok
    | intro _
    | with_reducible refine okOf ?_ rfl rfl rfl rfl rfl rfl rfl rfl rfl
    | simp only [ok_mk]
    | split
    | refine okOf ?_ rfl rfl rfl rfl rfl rfl rfl rfl rfl
    | dsimp only

end Sys2Proof.Machine
end

