-- ==== Sys2Proof/Laws/KeepsWatchtower.lean ====
section
/-! SUPPORT. The operations of Watchtower.lean keep what Keeps.lean names. -/
namespace Sys2Proof.Machine
set_option linter.all false

theorem swEnd_ok {κ : Kept} {s : State} {code : Nat} (hκ : s.Ok κ) : (State.swEnd s code).Ok κ := by
  unfold State.swEnd
  try dsimp only
  repeat' first
    | with_reducible assumption
    | with_reducible apply incL_ok
    | with_reducible apply irqEdge_ok
    | with_reducible apply raise_ok
    | with_reducible apply ite_ok
    | intro _
    | with_reducible refine okOf ?_ rfl rfl rfl rfl rfl rfl rfl rfl rfl
    | simp only [ok_mk]
    | split
    | refine okOf ?_ rfl rfl rfl rfl rfl rfl rfl rfl rfl
    | dsimp only

theorem swClose_ok {κ : Kept} {s : State} (hκ : s.Ok κ) : (State.swClose s).Ok κ := by
  unfold State.swClose
  try dsimp only
  repeat' first
    | with_reducible assumption
    | with_reducible apply ite_ok
    | intro _
    | with_reducible refine okOf ?_ rfl rfl rfl rfl rfl rfl rfl rfl rfl
    | simp only [ok_mk]
    | split
    | refine okOf ?_ rfl rfl rfl rfl rfl rfl rfl rfl rfl
    | dsimp only

theorem swExpire_ok {κ : Kept} {s : State} (hκ : s.Ok κ) : (State.swExpire s).Ok κ := by
  unfold State.swExpire
  try dsimp only
  repeat' first
    | with_reducible assumption
    | with_reducible apply swClose_ok
    | with_reducible apply swEnd_ok
    | with_reducible apply ite_ok
    | intro _
    | with_reducible refine okOf ?_ rfl rfl rfl rfl rfl rfl rfl rfl rfl
    | simp only [ok_mk]
    | split
    | refine okOf ?_ rfl rfl rfl rfl rfl rfl rfl rfl rfl
    | dsimp only

theorem wrSwOpen_ok {κ : Kept} {p : Path} {v : Word} {challenge : BitVec 16} {s0 : State} (hκ : s0.Ok κ) : (wrSwOpen p v challenge s0).1.Ok κ := by
  unfold wrSwOpen
  try dsimp only
  repeat' first
    | with_reducible assumption
    | with_reducible apply done_ok
    | with_reducible apply incL_ok
    | with_reducible apply raise_ok
    | with_reducible apply refused6_ok
    | with_reducible apply setL_ok
    | with_reducible apply swClose_ok
    | with_reducible apply swEnd_ok
    | with_reducible apply swExpire_ok
    | with_reducible apply ite_ok
    | intro _
    | with_reducible refine okOf ?_ rfl rfl rfl rfl rfl rfl rfl rfl rfl
    | simp only [ok_mk]
    | split
    | refine okOf ?_ rfl rfl rfl rfl rfl rfl rfl rfl rfl
    | dsimp only

theorem execSwOpen_ok {κ : Kept} {p : Path} {v : Word} {challenge : BitVec 16} {s : State} (hκ : s.Ok κ) : ∃ st' : State, execSwOpen p v challenge s = .next st' ∧ st'.Ok κ := by
  refine ⟨_, rfl, ?_⟩
  try dsimp only
  repeat' first
    | with_reducible assumption
    | with_reducible apply guardWrite_ok
    | with_reducible apply wrSwOpen_ok
    | with_reducible apply ite_ok
    | intro _
    | with_reducible refine okOf ?_ rfl rfl rfl rfl rfl rfl rfl rfl rfl
    | simp only [ok_mk]
    | split
    | refine okOf ?_ rfl rfl rfl rfl rfl rfl rfl rfl rfl
    | dsimp only

theorem wrClassK_ok {κ : Kept} {p : Path} {key : Nat} {v : Word} {s0 : State} (hκ : s0.Ok κ) : (wrClassK p key v s0).1.Ok κ := by
  unfold wrClassK
  try dsimp only
  repeat' first
    | with_reducible assumption
    | with_reducible apply done_ok
    | with_reducible apply swClose_ok
    | with_reducible apply swEnd_ok
    | with_reducible apply swExpire_ok
    | with_reducible apply ite_ok
    | intro _
    | with_reducible refine okOf ?_ rfl rfl rfl rfl rfl rfl rfl rfl rfl
    | simp only [ok_mk]
    | split
    | refine okOf ?_ rfl rfl rfl rfl rfl rfl rfl rfl rfl
    | dsimp only

theorem execSwValueWrite_ok {κ : Kept} {p : Path} {key : Nat} {v : Word} {s : State} (hκ : s.Ok κ) : ∃ st' : State, execSwValueWrite p key v s = .next st' ∧ st'.Ok κ := by
  refine ⟨_, rfl, ?_⟩
  try dsimp only
  repeat' first
    | with_reducible assumption
    | with_reducible apply report_ok
    | with_reducible apply wrClassK_ok
    | with_reducible apply ite_ok
    | intro _
    | with_reducible refine okOf ?_ rfl rfl rfl rfl rfl rfl rfl rfl rfl
    | simp only [ok_mk]
    | split
    | refine okOf ?_ rfl rfl rfl rfl rfl rfl rfl rfl rfl
    | dsimp only

theorem takeTestPermit_ok {κ : Kept} {s : State} {v : Word} (hκ : s.Ok κ) : (State.takeTestPermit s v).1.Ok κ := by
  unfold State.takeTestPermit
  try dsimp only
  repeat' first
    | with_reducible assumption
    | with_reducible apply clearTest_ok
    | with_reducible apply setK_ok
    | with_reducible apply testLimit_ok
    | with_reducible apply ite_ok
    | intro _
    | with_reducible refine okOf ?_ rfl rfl rfl rfl rfl rfl rfl rfl rfl
    | simp only [ok_mk]
    | split
    | refine okOf ?_ rfl rfl rfl rfl rfl rfl rfl rfl rfl
    | dsimp only

theorem takeDebugPermit_ok {κ : Kept} {s : State} {v : Word} (hκ : s.Ok κ) : (State.takeDebugPermit s v).1.Ok κ := by
  unfold State.takeDebugPermit
  try dsimp only
  repeat' first
    | with_reducible assumption
    | with_reducible apply clearDebug_ok
    | with_reducible apply setK_ok
    | with_reducible apply ite_ok
    | intro _
    | with_reducible refine okOf ?_ rfl rfl rfl rfl rfl rfl rfl rfl rfl
    | simp only [ok_mk]
    | split
    | refine okOf ?_ rfl rfl rfl rfl rfl rfl rfl rfl rfl
    | dsimp only

theorem swTake_ok {κ : Kept} {s : State} {key : Nat} {v : Word} (hκ : s.Ok κ) : (State.swTake s key v).1.Ok κ := by
  unfold State.swTake
  try dsimp only
  repeat' first
    | with_reducible assumption
    | with_reducible apply sbkReset_ok
    | with_reducible apply setKS_ok
    | with_reducible apply setS_ok
    | with_reducible apply takeDebugPermit_ok
    | with_reducible apply takeTestPermit_ok
    | with_reducible apply ite_ok
    | intro _
    | with_reducible refine okOf ?_ rfl rfl rfl rfl rfl rfl rfl rfl rfl
    | simp only [ok_mk]
    | split
    | refine okOf ?_ rfl rfl rfl rfl rfl rfl rfl rfl rfl
    | dsimp only

theorem wrSwConfirm_ok {κ : Kept} {p : Path} {v : Word} {s0 : State} (hκ : s0.Ok κ) : (wrSwConfirm p v s0).1.Ok κ := by
  unfold wrSwConfirm
  try dsimp only
  repeat' first
    | with_reducible assumption
    | with_reducible apply done_ok
    | with_reducible apply refused6_ok
    | with_reducible apply swClose_ok
    | with_reducible apply swEnd_ok
    | with_reducible apply swExpire_ok
    | with_reducible apply swTake_ok
    | with_reducible apply ite_ok
    | intro _
    | with_reducible refine okOf ?_ rfl rfl rfl rfl rfl rfl rfl rfl rfl
    | simp only [ok_mk]
    | split
    | refine okOf ?_ rfl rfl rfl rfl rfl rfl rfl rfl rfl
    | dsimp only

theorem execSwConfirm_ok {κ : Kept} {p : Path} {v : Word} {s : State} (hκ : s.Ok κ) : ∃ st' : State, execSwConfirm p v s = .next st' ∧ st'.Ok κ := by
  refine ⟨_, rfl, ?_⟩
  try dsimp only
  repeat' first
    | with_reducible assumption
    | with_reducible apply guardWrite_ok
    | with_reducible apply wrSwConfirm_ok
    | with_reducible apply ite_ok
    | intro _
    | with_reducible refine okOf ?_ rfl rfl rfl rfl rfl rfl rfl rfl rfl
    | simp only [ok_mk]
    | split
    | refine okOf ?_ rfl rfl rfl rfl rfl rfl rfl rfl rfl
    | dsimp only

theorem execSwTimeout_ok {κ : Kept} {s : State} (hκ : s.Ok κ) : ∃ st' : State, execSwTimeout s = .next st' ∧ st'.Ok κ := by
  refine ⟨_, rfl, ?_⟩
  try dsimp only
  repeat' first
    | with_reducible assumption
    | with_reducible apply swClose_ok
    | with_reducible apply swEnd_ok
    | with_reducible apply toL_ok
    | with_reducible apply ite_ok
    | intro _
    | with_reducible refine okOf ?_ rfl rfl rfl rfl rfl rfl rfl rfl rfl
    | simp only [ok_mk]
    | split
    | refine okOf ?_ rfl rfl rfl rfl rfl rfl rfl rfl rfl
    | dsimp only

theorem execDebugPermitExpire_ok {κ : Kept} {s : State} (hκ : s.Ok κ) : ∃ st' : State, execDebugPermitExpire s = .next st' ∧ st'.Ok κ := by
  refine ⟨_, rfl, ?_⟩
  try dsimp only
  repeat' first
    | with_reducible assumption
    | with_reducible apply clearDebug_ok
    | with_reducible apply ite_ok
    | intro _
    | with_reducible refine okOf ?_ rfl rfl rfl rfl rfl rfl rfl rfl rfl
    | simp only [ok_mk]
    | split
    | refine okOf ?_ rfl rfl rfl rfl rfl rfl rfl rfl rfl
    | dsimp only

theorem execWtChannelDisagree_ok {κ : Kept} {s : State} (hκ : s.Ok κ) : ∃ st' : State, execWtChannelDisagree s = .next st' ∧ st'.Ok κ := by
  refine ⟨_, rfl, ?_⟩
  try dsimp only
  repeat' first
    | with_reducible assumption
    | with_reducible apply wtFail_ok
    | with_reducible apply ite_ok
    | intro _
    | with_reducible refine okOf ?_ rfl rfl rfl rfl rfl rfl rfl rfl rfl
    | simp only [ok_mk]
    | split
    | refine okOf ?_ rfl rfl rfl rfl rfl rfl rfl rfl rfl
    | dsimp only

theorem execWtOscFault_ok {κ : Kept} {s : State} (hκ : s.Ok κ) : ∃ st' : State, execWtOscFault s = .next st' ∧ st'.Ok κ := by
  refine ⟨_, rfl, ?_⟩
  try dsimp only
  repeat' first
    | with_reducible assumption
    | with_reducible apply wtFail_ok
    | with_reducible apply ite_ok
    | intro _
    | with_reducible refine okOf ?_ rfl rfl rfl rfl rfl rfl rfl rfl rfl
    | simp only [ok_mk]
    | split
    | refine okOf ?_ rfl rfl rfl rfl rfl rfl rfl rfl rfl
    | dsimp only

theorem execOutTestPulse_ok {κ : Kept} {chanB agree : Bool} {s : State} (hκ : s.Ok κ) : ∃ st' : State, execOutTestPulse chanB agree s = .next st' ∧ st'.Ok κ := by
  refine ⟨_, rfl, ?_⟩
  try dsimp only
  repeat' first
    | with_reducible assumption
    | with_reducible apply wtFail_ok
    | with_reducible apply ite_ok
    | intro _
    | with_reducible refine okOf ?_ rfl rfl rfl rfl rfl rfl rfl rfl rfl
    | simp only [ok_mk]
    | split
    | refine okOf ?_ rfl rfl rfl rfl rfl rfl rfl rfl rfl
    | dsimp only

theorem execReadbackError_ok {κ : Kept} {chanB : Bool} {s : State} (hκ : s.Ok κ) : ∃ st' : State, execReadbackError chanB s = .next st' ∧ st'.Ok κ := by
  refine ⟨_, rfl, ?_⟩
  try dsimp only
  repeat' first
    | with_reducible assumption
    | with_reducible apply wtFail_ok
    | with_reducible apply ite_ok
    | intro _
    | with_reducible refine okOf ?_ rfl rfl rfl rfl rfl rfl rfl rfl rfl
    | simp only [ok_mk]
    | split
    | refine okOf ?_ rfl rfl rfl rfl rfl rfl rfl rfl rfl
    | dsimp only

theorem execKcopyCrcCheck_ok {κ : Kept} {good : Bool} {s : State} (hκ : s.Ok κ) : ∃ st' : State, execKcopyCrcCheck good s = .next st' ∧ st'.Ok κ := by
  refine ⟨_, rfl, ?_⟩
  try dsimp only
  repeat' first
    | with_reducible assumption
    | with_reducible apply wtFail_ok
    | with_reducible apply ite_ok
    | intro _
    | with_reducible refine okOf ?_ rfl rfl rfl rfl rfl rfl rfl rfl rfl
    | simp only [ok_mk]
    | split
    | refine okOf ?_ rfl rfl rfl rfl rfl rfl rfl rfl rfl
    | dsimp only

theorem execHeartbeatTimeout_ok {κ : Kept} {s : State} (hκ : s.Ok κ) : ∃ st' : State, execHeartbeatTimeout s = .next st' ∧ st'.Ok κ := by
  refine ⟨_, rfl, ?_⟩
  try dsimp only
  repeat' first
    | with_reducible assumption
    | with_reducible apply cause_ok
    | with_reducible apply ite_ok
    | intro _
    | with_reducible refine okOf ?_ rfl rfl rfl rfl rfl rfl rfl rfl rfl
    | simp only [ok_mk]
    | split
    | refine okOf ?_ rfl rfl rfl rfl rfl rfl rfl rfl rfl
    | dsimp only

theorem execWtRecordAccept_ok {κ : Kept} {stream : Nat} {r : BitVec 128} {s : State} (hκ : s.Ok κ) : ∃ st' : State, execWtRecordAccept stream r s = .next st' ∧ st'.Ok κ := by
  refine ⟨_, rfl, ?_⟩
  try dsimp only
  repeat' first
    | with_reducible assumption
    | with_reducible apply cause_ok
    | with_reducible apply wtSample_ok
    | with_reducible apply foldl_ok
    | with_reducible apply foldl_ok_fst
    | with_reducible apply ite_ok
    | intro _
    | with_reducible refine okOf ?_ rfl rfl rfl rfl rfl rfl rfl rfl rfl
    | simp only [ok_mk]
    | split
    | refine okOf ?_ rfl rfl rfl rfl rfl rfl rfl rfl rfl
    | dsimp only

theorem execMeasLostExpire_ok {κ : Kept} {stream : Nat} {s : State} (hκ : s.Ok κ) : ∃ st' : State, execMeasLostExpire stream s = .next st' ∧ st'.Ok κ := by
  refine ⟨_, rfl, ?_⟩
  try dsimp only
  repeat' first
    | with_reducible assumption
    | with_reducible apply cause_ok
    | with_reducible apply ite_ok
    | intro _
    | with_reducible refine okOf ?_ rfl rfl rfl rfl rfl rfl rfl rfl rfl
    | simp only [ok_mk]
    | split
    | refine okOf ?_ rfl rfl rfl rfl rfl rfl rfl rfl rfl
    | dsimp only

theorem execSlvDiscExpire_ok {κ : Kept} {v : Nat} {s : State} (hκ : s.Ok κ) : ∃ st' : State, execSlvDiscExpire v s = .next st' ∧ st'.Ok κ := by
  refine ⟨_, rfl, ?_⟩
  try dsimp only
  repeat' first
    | with_reducible assumption
    | with_reducible apply cause_ok
    | with_reducible apply wtWarn_ok
    | with_reducible apply ite_ok
    | intro _
    | with_reducible refine okOf ?_ rfl rfl rfl rfl rfl rfl rfl rfl rfl
    | simp only [ok_mk]
    | split
    | refine okOf ?_ rfl rfl rfl rfl rfl rfl rfl rfl rfl
    | dsimp only

theorem wtTrips_ok {κ : Kept} {s : State} (hκ : s.Ok κ) : (State.wtTrips s).Ok κ := by
  unfold State.wtTrips
  try dsimp only
  repeat' first
    | with_reducible assumption
    | with_reducible apply cause_ok
    | with_reducible apply each_ok
    | with_reducible apply ite_ok
    | intro _
    | with_reducible refine okOf ?_ rfl rfl rfl rfl rfl rfl rfl rfl rfl
    | simp only [ok_mk]
    | split
    | refine okOf ?_ rfl rfl rfl rfl rfl rfl rfl rfl rfl
    | dsimp only

theorem wtCauses_ok {κ : Kept} {s : State} (hκ : s.Ok κ) : (State.wtCauses s).Ok κ := by
  unfold State.wtCauses
  try dsimp only
  repeat' first
    | with_reducible assumption
    | with_reducible apply cause_ok
    | with_reducible apply wtTrips_ok
    | with_reducible apply ite_ok
    | intro _
    | with_reducible refine okOf ?_ rfl rfl rfl rfl rfl rfl rfl rfl rfl
    | simp only [ok_mk]
    | split
    | refine okOf ?_ rfl rfl rfl rfl rfl rfl rfl rfl rfl
    | dsimp only

theorem slvForget_ok {κ : Kept} {s o : State} (hκ : s.Ok κ) : (State.slvForget s o).Ok κ := by
  unfold State.slvForget
  try dsimp only
  repeat' first
    | with_reducible assumption
    | with_reducible apply each_ok
    | with_reducible apply ite_ok
    | intro _
    | with_reducible refine okOf ?_ rfl rfl rfl rfl rfl rfl rfl rfl rfl
    | simp only [ok_mk]
    | split
    | refine okOf ?_ rfl rfl rfl rfl rfl rfl rfl rfl rfl
    | dsimp only

theorem execWtPulseEdge_ok {κ : Kept} {n t : Nat} {s : State} (hκ : s.Ok κ) : ∃ st' : State, execWtPulseEdge n t s = .next st' ∧ st'.Ok κ := by
  refine ⟨_, rfl, ?_⟩
  try dsimp only
  repeat' first
    | with_reducible assumption
    | with_reducible apply cause_ok
    | with_reducible apply wtWarn_ok
    | with_reducible apply ite_ok
    | intro _
    | with_reducible refine okOf ?_ rfl rfl rfl rfl rfl rfl rfl rfl rfl
    | simp only [ok_mk]
    | split
    | refine okOf ?_ rfl rfl rfl rfl rfl rfl rfl rfl rfl
    | dsimp only

theorem execSlsTimeout_ok {κ : Kept} {n : Nat} {s : State} (hκ : s.Ok κ) : ∃ st' : State, execSlsTimeout n s = .next st' ∧ st'.Ok κ := by
  refine ⟨_, rfl, ?_⟩
  try dsimp only
  repeat' first
    | with_reducible assumption
    | with_reducible apply cause_ok
    | with_reducible apply ite_ok
    | intro _
    | with_reducible refine okOf ?_ rfl rfl rfl rfl rfl rfl rfl rfl rfl
    | simp only [ok_mk]
    | split
    | refine okOf ?_ rfl rfl rfl rfl rfl rfl rfl rfl rfl
    | dsimp only

theorem execSlsDiscExpire_ok {κ : Kept} {s : State} (hκ : s.Ok κ) : ∃ st' : State, execSlsDiscExpire s = .next st' ∧ st'.Ok κ := by
  refine ⟨_, rfl, ?_⟩
  try dsimp only
  repeat' first
    | with_reducible assumption
    | with_reducible apply cause_ok
    | with_reducible apply wtWarn_ok
    | with_reducible apply ite_ok
    | intro _
    | with_reducible refine okOf ?_ rfl rfl rfl rfl rfl rfl rfl rfl rfl
    | simp only [ok_mk]
    | split
    | refine okOf ?_ rfl rfl rfl rfl rfl rfl rfl rfl rfl
    | dsimp only

theorem pduHandle_ok {κ : Kept} {s : State} {c : Nat} {bs : List Byte} (hκ : s.Ok κ) : (State.pduHandle s c bs).Ok κ := by
  unfold State.pduHandle
  try dsimp only
  repeat' first
    | with_reducible assumption
    | with_reducible apply incL_ok
    | with_reducible apply sbkReset_ok
    | with_reducible apply sdCauses_ok
    | with_reducible apply setConn_ok
    | with_reducible apply ite_ok
    | intro _
    | with_reducible refine okOf ?_ rfl rfl rfl rfl rfl rfl rfl rfl rfl
    | simp only [ok_mk]
    | split
    | refine okOf ?_ rfl rfl rfl rfl rfl rfl rfl rfl rfl
    | dsimp only

theorem prpPass_ok {κ : Kept} {s : State} {c : Nat} {en3 : Bool} {prp : Option (BitVec 16)} (hκ : s.Ok κ) : (State.prpPass s c en3 prp).1.Ok κ := by
  unfold State.prpPass
  try dsimp only
  repeat' first
    | with_reducible assumption
    | with_reducible apply setConn_ok
    | with_reducible apply ite_ok
    | intro _
    | with_reducible refine okOf ?_ rfl rfl rfl rfl rfl rfl rfl rfl rfl
    | simp only [ok_mk]
    | split
    | refine okOf ?_ rfl rfl rfl rfl rfl rfl rfl rfl rfl
    | dsimp only

theorem execSafetyPduReceive_ok {κ : Kept} {c : Nat} {en3 : Bool} {prp : Option (BitVec 16)} {bytes : List Byte} {s : State} (hκ : s.Ok κ) : ∃ st' : State, execSafetyPduReceive c en3 prp bytes s = .next st' ∧ st'.Ok κ := by
  refine ⟨_, rfl, ?_⟩
  try dsimp only
  repeat' first
    | with_reducible assumption
    | with_reducible apply incL_ok
    | with_reducible apply pduHandle_ok
    | with_reducible apply prpPass_ok
    | with_reducible apply setConn_ok
    | with_reducible apply ite_ok
    | intro _
    | with_reducible refine okOf ?_ rfl rfl rfl rfl rfl rfl rfl rfl rfl
    | simp only [ok_mk]
    | split
    | refine okOf ?_ rfl rfl rfl rfl rfl rfl rfl rfl rfl
    | dsimp only

theorem execParWindowExpire_ok {κ : Kept} {c : Nat} {s : State} (hκ : s.Ok κ) : ∃ st' : State, execParWindowExpire c s = .next st' ∧ st'.Ok κ := by
  refine ⟨_, rfl, ?_⟩
  try dsimp only
  repeat' first
    | with_reducible assumption
    | with_reducible apply incL_ok
    | with_reducible apply setConn_ok
    | with_reducible apply ite_ok
    | intro _
    | with_reducible refine okOf ?_ rfl rfl rfl rfl rfl rfl rfl rfl rfl
    | simp only [ok_mk]
    | split
    | refine okOf ?_ rfl rfl rfl rfl rfl rfl rfl rfl rfl
    | dsimp only

theorem execSdWatchdogExpire_ok {κ : Kept} {c : Nat} {s : State} (hκ : s.Ok κ) : ∃ st' : State, execSdWatchdogExpire c s = .next st' ∧ st'.Ok κ := by
  refine ⟨_, rfl, ?_⟩
  try dsimp only
  repeat' first
    | with_reducible assumption
    | with_reducible apply incL_ok
    | with_reducible apply irqEdge_ok
    | with_reducible apply sdCauses_ok
    | with_reducible apply setConn_ok
    | with_reducible apply wtWarn_ok
    | with_reducible apply ite_ok
    | intro _
    | with_reducible refine okOf ?_ rfl rfl rfl rfl rfl rfl rfl rfl rfl
    | simp only [ok_mk]
    | split
    | refine okOf ?_ rfl rfl rfl rfl rfl rfl rfl rfl rfl
    | dsimp only

theorem execSdTxSend_ok {κ : Kept} {c : Nat} {s : State} (hκ : s.Ok κ) : ∃ st' : State, execSdTxSend c s = .next st' ∧ st'.Ok κ := by
  refine ⟨_, rfl, ?_⟩
  try dsimp only
  repeat' first
    | with_reducible assumption
    | with_reducible apply setConn_ok
    | with_reducible apply ite_ok
    | intro _
    | with_reducible refine okOf ?_ rfl rfl rfl rfl rfl rfl rfl rfl rfl
    | simp only [ok_mk]
    | split
    | refine okOf ?_ rfl rfl rfl rfl rfl rfl rfl rfl rfl
    | dsimp only

end Sys2Proof.Machine
end

