-- ==== Sys2Proof/Laws/KeepsMemory.lean ====
section
/-! SUPPORT. The operations of Memory.lean keep what Keeps.lean names. -/
namespace Sys2Proof.Machine
set_option linter.all false

theorem wakeEngine_ok {κ : Kept} {s : State} {e : Nat} (hκ : s.Ok κ) : (State.wakeEngine s e).Ok κ := by
  unfold State.wakeEngine
  try dsimp only
  repeat' first
    | with_reducible assumption
    | with_reducible apply wakeBank_ok
    | with_reducible apply ite_ok
    | intro _
    | with_reducible refine okOf ?_ rfl rfl rfl rfl rfl rfl rfl rfl rfl
    | simp only [ok_mk]
    | split
    | refine okOf ?_ rfl rfl rfl rfl rfl rfl rfl rfl rfl
    | dsimp only

theorem execBankWakeDone_ok {κ : Kept} {b : Nat} {s : State} (hκ : s.Ok κ) : ∃ st' : State, execBankWakeDone b s = .next st' ∧ st'.Ok κ := by
  refine ⟨_, rfl, ?_⟩
  try dsimp only
  repeat' first
    | with_reducible assumption
    | with_reducible apply wakeDone_ok
    | with_reducible apply ite_ok
    | intro _
    | with_reducible refine okOf ?_ rfl rfl rfl rfl rfl rfl rfl rfl rfl
    | simp only [ok_mk]
    | split
    | refine okOf ?_ rfl rfl rfl rfl rfl rfl rfl rfl rfl
    | dsimp only

theorem execBankRetentionEnter_ok {κ : Kept} {b : Nat} {s : State} (hκ : s.Ok κ) : ∃ st' : State, execBankRetentionEnter b s = .next st' ∧ st'.Ok κ := by
  refine ⟨_, rfl, ?_⟩
  try dsimp only
  repeat' first
    | with_reducible assumption
    | with_reducible apply setBank_ok
    | with_reducible apply ite_ok
    | intro _
    | with_reducible refine okOf ?_ rfl rfl rfl rfl rfl rfl rfl rfl rfl
    | simp only [ok_mk]
    | split
    | refine okOf ?_ rfl rfl rfl rfl rfl rfl rfl rfl rfl
    | dsimp only

theorem execEccCorrected_ok {κ : Kept} {bank word : Nat} {s : State} (hκ : s.Ok κ) : ∃ st' : State, execEccCorrected bank word s = .next st' ∧ st'.Ok κ := by
  refine ⟨_, rfl, ?_⟩
  try dsimp only
  repeat' first
    | with_reducible assumption
    | with_reducible apply incL_ok
    | with_reducible apply raiseAs_ok
    | with_reducible apply setLN_ok
    | with_reducible apply ite_ok
    | intro _
    | with_reducible refine okOf ?_ rfl rfl rfl rfl rfl rfl rfl rfl rfl
    | simp only [ok_mk]
    | split
    | refine okOf ?_ rfl rfl rfl rfl rfl rfl rfl rfl rfl
    | dsimp only

theorem execEccUncorrectable_ok {κ : Kept} {bank word : Nat} {bits : Word} {s : State} (hκ : s.Ok κ) (hA : κ.act = none) : ∃ st' : State, execEccUncorrectable bank word bits s = .next st' ∧ st'.Ok κ := by
  refine ⟨_, rfl, ?_⟩
  try dsimp only
  repeat' first
    | with_reducible assumption
    | with_reducible apply incL_ok
    | with_reducible apply putBank_ok
    | with_reducible apply raiseAs_ok
    | with_reducible apply setLN_ok
    | with_reducible apply ite_ok
    | intro _
    | with_reducible refine okOf ?_ rfl rfl rfl rfl rfl rfl rfl rfl rfl
    | simp only [ok_mk]
    | split
    | refine okOf ?_ rfl rfl rfl rfl rfl rfl rfl rfl rfl
    | dsimp only

theorem marchResult_ok {κ : Kept} {s : State} {code : Nat} (hκ : s.Ok κ) : (State.marchResult s code).Ok κ := by
  unfold State.marchResult
  try dsimp only
  repeat' first
    | with_reducible assumption
    | with_reducible apply irqEdge_ok
    | with_reducible apply setLN_ok
    | with_reducible apply ite_ok
    | intro _
    | with_reducible refine okOf ?_ rfl rfl rfl rfl rfl rfl rfl rfl rfl
    | simp only [ok_mk]
    | split
    | refine okOf ?_ rfl rfl rfl rfl rfl rfl rfl rfl rfl
    | dsimp only

theorem marchEnd_ok {κ : Kept} {s : State} (hκ : s.Ok κ) : (State.marchEnd s).Ok κ := by
  unfold State.marchEnd
  try dsimp only
  repeat' first
    | with_reducible assumption
    | with_reducible apply setBank_ok
    | with_reducible apply ite_ok
    | intro _
    | with_reducible refine okOf ?_ rfl rfl rfl rfl rfl rfl rfl rfl rfl
    | simp only [ok_mk]
    | split
    | refine okOf ?_ rfl rfl rfl rfl rfl rfl rfl rfl rfl
    | dsimp only

theorem abortMarch_ok {κ : Kept} {s : State} {own : Nat → Bool} (hκ : s.Ok κ) : (State.abortMarch s own).Ok κ := by
  unfold State.abortMarch
  try dsimp only
  repeat' first
    | with_reducible assumption
    | with_reducible apply clearSram_ok
    | with_reducible apply marchEnd_ok
    | with_reducible apply marchResult_ok
    | with_reducible apply ite_ok
    | intro _
    | with_reducible refine okOf ?_ rfl rfl rfl rfl rfl rfl rfl rfl rfl
    | simp only [ok_mk]
    | split
    | refine okOf ?_ rfl rfl rfl rfl rfl rfl rfl rfl rfl
    | dsimp only

theorem marchFail_ok {κ : Kept} {s : State} {bank word : Nat} (hκ : s.Ok κ) : (State.marchFail s bank word).Ok κ := by
  unfold State.marchFail
  try dsimp only
  repeat' first
    | with_reducible assumption
    | with_reducible apply lasting_ok
    | with_reducible apply occur_ok
    | with_reducible apply raiseAs_ok
    | with_reducible apply reactC3_ok
    | with_reducible apply setLN_ok
    | with_reducible apply ite_ok
    | intro _
    | with_reducible refine okOf ?_ rfl rfl rfl rfl rfl rfl rfl rfl rfl
    | simp only [ok_mk]
    | split
    | refine okOf ?_ rfl rfl rfl rfl rfl rfl rfl rfl rfl
    | dsimp only

theorem wrMarchCtrl_ok {κ : Kept} {v : Word} {s : State} (hκ : s.Ok κ) : (wrMarchCtrl v s).1.Ok κ := by
  unfold wrMarchCtrl
  try dsimp only
  repeat' first
    | with_reducible assumption
    | with_reducible apply done_ok
    | with_reducible apply marchResult_ok
    | with_reducible apply refused6_ok
    | with_reducible apply setBank_ok
    | with_reducible apply ite_ok
    | intro _
    | with_reducible refine okOf ?_ rfl rfl rfl rfl rfl rfl rfl rfl rfl
    | simp only [ok_mk]
    | split
    | refine okOf ?_ rfl rfl rfl rfl rfl rfl rfl rfl rfl
    | dsimp only

theorem execMarchRequest_ok {κ : Kept} {p : Path} {v : Word} {s : State} (hκ : s.Ok κ) : ∃ st' : State, execMarchRequest p v s = .next st' ∧ st'.Ok κ := by
  refine ⟨_, rfl, ?_⟩
  try dsimp only
  repeat' first
    | with_reducible assumption
    | with_reducible apply guardWrite_ok
    | with_reducible apply wrMarchCtrl_ok
    | with_reducible apply ite_ok
    | intro _
    | with_reducible refine okOf ?_ rfl rfl rfl rfl rfl rfl rfl rfl rfl
    | simp only [ok_mk]
    | split
    | refine okOf ?_ rfl rfl rfl rfl rfl rfl rfl rfl rfl
    | dsimp only

theorem execMarchDone_ok {κ : Kept} {words : List Nat} {s : State} (hκ : s.Ok κ) (hA : κ.act = none) : ∃ st' : State, execMarchDone words s = .next st' ∧ st'.Ok κ := by
  refine ⟨_, rfl, ?_⟩
  try dsimp only
  repeat' first
    | with_reducible assumption
    | with_reducible apply clearBank_ok
    | with_reducible apply each_ok
    | with_reducible apply incL_ok
    | with_reducible apply marchEnd_ok
    | with_reducible apply marchFail_ok
    | with_reducible apply marchResult_ok
    | with_reducible apply ite_ok
    | intro _
    | with_reducible refine okOf ?_ rfl rfl rfl rfl rfl rfl rfl rfl rfl
    | simp only [ok_mk]
    | split
    | refine okOf ?_ rfl rfl rfl rfl rfl rfl rfl rfl rfl
    | dsimp only

theorem execMarchBgRow_ok {κ : Kept} {corr : Nat} {fail : Option Nat} {s : State} (hκ : s.Ok κ) : ∃ st' : State, execMarchBgRow corr fail s = .next st' ∧ st'.Ok κ := by
  refine ⟨_, rfl, ?_⟩
  try dsimp only
  repeat' first
    | with_reducible assumption
    | with_reducible apply addL_ok
    | with_reducible apply incIf_ok
    | with_reducible apply marchFail_ok
    | with_reducible apply ite_ok
    | intro _
    | with_reducible refine okOf ?_ rfl rfl rfl rfl rfl rfl rfl rfl rfl
    | simp only [ok_mk]
    | split
    | refine okOf ?_ rfl rfl rfl rfl rfl rfl rfl rfl rfl
    | dsimp only

theorem tamperLog_ok {κ : Kept} {s : State} {cause : Nat} (hκ : s.Ok κ) : (State.tamperLog s cause).Ok κ := by
  unfold State.tamperLog
  try dsimp only
  repeat' first
    | with_reducible assumption
    | with_reducible apply cause_ok
    | with_reducible apply setLN_ok
    | with_reducible apply wrBytes_ok
    | with_reducible apply ite_ok
    | intro _
    | with_reducible refine okOf ?_ rfl rfl rfl rfl rfl rfl rfl rfl rfl
    | simp only [ok_mk]
    | split
    | refine okOf ?_ rfl rfl rfl rfl rfl rfl rfl rfl rfl
    | dsimp only

theorem wipe_ok {κ : Kept} {s : State} {cause : Nat} (hκ : s.Ok κ) : (State.wipe s cause).Ok κ := by
  unfold State.wipe
  try dsimp only
  repeat' first
    | with_reducible assumption
    | with_reducible apply cause_ok
    | with_reducible apply each_ok
    | with_reducible apply incL_ok
    | with_reducible apply irqEdge_ok
    | with_reducible apply sdCauses_ok
    | with_reducible apply setConn_ok
    | with_reducible apply setLN_ok
    | with_reducible apply tamperLog_ok
    | with_reducible apply ite_ok
    | intro _
    | with_reducible refine okOf ?_ rfl rfl rfl rfl rfl rfl rfl rfl rfl
    | with_reducible apply okOf_clear
    | with_reducible apply okOf_erase
    | simp only [ok_mk]
    | split
    | refine okOf ?_ rfl rfl rfl rfl rfl rfl rfl rfl rfl
    | dsimp only

theorem lcResult_ok {κ : Kept} {s : State} {code : Nat} (hκ : s.Ok κ) : (State.lcResult s code).Ok κ := by
  unfold State.lcResult
  try dsimp only
  repeat' first
    | with_reducible assumption
    | with_reducible apply irqEdge_ok
    | with_reducible apply setLN_ok
    | with_reducible apply ite_ok
    | intro _
    | with_reducible refine okOf ?_ rfl rfl rfl rfl rfl rfl rfl rfl rfl
    | simp only [ok_mk]
    | split
    | refine okOf ?_ rfl rfl rfl rfl rfl rfl rfl rfl rfl
    | dsimp only

theorem wrKeyInstall_ok {κ : Kept} {bs : List Byte} {s : State} (hκ : s.Ok κ) : (wrKeyInstall bs s).1.Ok κ := by
  unfold wrKeyInstall
  try dsimp only
  repeat' first
    | with_reducible assumption
    | with_reducible apply done_ok
    | with_reducible apply lcResult_ok
    | with_reducible apply raise_ok
    | with_reducible apply refused6_ok
    | with_reducible apply tamperLog_ok
    | with_reducible apply wrBytes_ok
    | with_reducible apply wrW_ok
    | with_reducible apply ite_ok
    | intro _
    | with_reducible refine okOf ?_ rfl rfl rfl rfl rfl rfl rfl rfl rfl
    | simp only [ok_mk]
    | split
    | refine okOf ?_ rfl rfl rfl rfl rfl rfl rfl rfl rfl
    | dsimp only

theorem execKeyInstall_ok {κ : Kept} {p : Path} {bytes : List Byte} {s : State} (hκ : s.Ok κ) : ∃ st' : State, execKeyInstall p bytes s = .next st' ∧ st'.Ok κ := by
  refine ⟨_, rfl, ?_⟩
  try dsimp only
  repeat' first
    | with_reducible assumption
    | with_reducible apply report_ok
    | with_reducible apply wrKeyInstall_ok
    | with_reducible apply ite_ok
    | intro _
    | with_reducible refine okOf ?_ rfl rfl rfl rfl rfl rfl rfl rfl rfl
    | simp only [ok_mk]
    | split
    | refine okOf ?_ rfl rfl rfl rfl rfl rfl rfl rfl rfl
    | dsimp only

theorem tamperAccept_ok {κ : Kept} {s : State} {n : Nat} (hκ : s.Ok κ) : (State.tamperAccept s n).Ok κ := by
  unfold State.tamperAccept
  try dsimp only
  repeat' first
    | with_reducible assumption
    | with_reducible apply incL_ok
    | with_reducible apply raise_ok
    | with_reducible apply wipe_ok
    | with_reducible apply ite_ok
    | intro _
    | with_reducible refine okOf ?_ rfl rfl rfl rfl rfl rfl rfl rfl rfl
    | simp only [ok_mk]
    | split
    | refine okOf ?_ rfl rfl rfl rfl rfl rfl rfl rfl rfl
    | dsimp only

theorem execTamperAccept_ok {κ : Kept} {n : Nat} {s : State} (hκ : s.Ok κ) : ∃ st' : State, execTamperAccept n s = .next st' ∧ st'.Ok κ := by
  refine ⟨_, rfl, ?_⟩
  try dsimp only
  repeat' first
    | with_reducible assumption
    | with_reducible apply tamperAccept_ok
    | with_reducible apply ite_ok
    | intro _
    | with_reducible refine okOf ?_ rfl rfl rfl rfl rfl rfl rfl rfl rfl
    | simp only [ok_mk]
    | split
    | refine okOf ?_ rfl rfl rfl rfl rfl rfl rfl rfl rfl
    | dsimp only

theorem execTamperRelease_ok {κ : Kept} {n : Nat} {s : State} (hκ : s.Ok κ) : ∃ st' : State, execTamperRelease n s = .next st' ∧ st'.Ok κ := by
  refine ⟨_, rfl, ?_⟩
  try dsimp only
  repeat' first
    | with_reducible assumption
    | with_reducible apply ite_ok
    | intro _
    | with_reducible refine okOf ?_ rfl rfl rfl rfl rfl rfl rfl rfl rfl
    | simp only [ok_mk]
    | split
    | refine okOf ?_ rfl rfl rfl rfl rfl rfl rfl rfl rfl
    | dsimp only

theorem execSupplyOutOfRange_ok {κ : Kept} {safe : Bool} {s : State} (hκ : s.Ok κ) : ∃ st' : State, execSupplyOutOfRange safe s = .next st' ∧ st'.Ok κ := by
  refine ⟨_, rfl, ?_⟩
  try dsimp only
  repeat' first
    | with_reducible assumption
    | with_reducible apply wipe_ok
    | with_reducible apply ite_ok
    | intro _
    | with_reducible refine okOf ?_ rfl rfl rfl rfl rfl rfl rfl rfl rfl
    | simp only [ok_mk]
    | split
    | refine okOf ?_ rfl rfl rfl rfl rfl rfl rfl rfl rfl
    | dsimp only

theorem tempRange_ok {κ : Kept} {s : State} {out : Bool} (hκ : s.Ok κ) : (State.tempRange s out).Ok κ := by
  unfold State.tempRange
  try dsimp only
  repeat' first
    | with_reducible assumption
    | with_reducible apply wipe_ok
    | with_reducible apply ite_ok
    | intro _
    | with_reducible refine okOf ?_ rfl rfl rfl rfl rfl rfl rfl rfl rfl
    | simp only [ok_mk]
    | split
    | refine okOf ?_ rfl rfl rfl rfl rfl rfl rfl rfl rfl
    | dsimp only

theorem execTempOutOfRange_ok {κ : Kept} {s : State} (hκ : s.Ok κ) : ∃ st' : State, execTempOutOfRange s = .next st' ∧ st'.Ok κ := by
  refine ⟨_, rfl, ?_⟩
  try dsimp only
  repeat' first
    | with_reducible assumption
    | with_reducible apply tempRange_ok
    | with_reducible apply ite_ok
    | intro _
    | with_reducible refine okOf ?_ rfl rfl rfl rfl rfl rfl rfl rfl rfl
    | simp only [ok_mk]
    | split
    | refine okOf ?_ rfl rfl rfl rfl rfl rfl rfl rfl rfl
    | dsimp only

theorem lcListed_le {a b : LifeCycle} (h : lcListed a b = true) : a.code ≤ b.code := by
  cases a <;> cases b <;> simp [lcListed] at h <;> decide

theorem lcRequest_le {s : State} {t : Option LifeCycle} (h : s.lcRequest t = 7) : ∀ x, t = some x → s.mem.life.code ≤ x.code := by
  rintro x rfl
  simp only [State.lcRequest] at h
  split at h
  · simp at h
  · split at h
    · simp at h
    · next hl =>
      simp only [Bool.or_eq_true, not_or] at hl
      exact lcListed_le (by simpa using hl.1)

theorem wrLcReq_ok {κ : Kept} {v : Word} {s : State} (h : s.Ok κ) : (wrLcReq v s).1.Ok κ := by
  unfold wrLcReq
  split
  · exact refused6_ok h
  · split
    · exact refused6_ok (lcResult_ok h)
    · dsimp only
      split
      · next hc =>
        have h' := lcResult_ok (code := 7) h
        exact ⟨h'.sram, h'.flash, h'.pending, h.life, fun x hx => lcRequest_le hc x hx, h'.ticking, h'.fault, h'.flashIs, h'.actIs, h'.countIs⟩
      · exact refused6_ok (lcResult_ok h)


theorem execLcReqProvision_ok {κ : Kept} {p : Path} {s : State} (hκ : s.Ok κ) : ∃ st' : State, execLcReqProvision p s = .next st' ∧ st'.Ok κ := by
  refine ⟨_, rfl, ?_⟩
  try dsimp only
  repeat' first
    | with_reducible assumption
    | with_reducible apply guardWrite_ok
    | with_reducible apply wrLcReq_ok
    | with_reducible apply ite_ok
    | intro _
    | with_reducible refine okOf ?_ rfl rfl rfl rfl rfl rfl rfl rfl rfl
    | simp only [ok_mk]
    | split
    | refine okOf ?_ rfl rfl rfl rfl rfl rfl rfl rfl rfl
    | dsimp only

theorem execLcReqDeploy_ok {κ : Kept} {p : Path} {s : State} (hκ : s.Ok κ) : ∃ st' : State, execLcReqDeploy p s = .next st' ∧ st'.Ok κ := by
  refine ⟨_, rfl, ?_⟩
  try dsimp only
  repeat' first
    | with_reducible assumption
    | with_reducible apply guardWrite_ok
    | with_reducible apply wrLcReq_ok
    | with_reducible apply ite_ok
    | intro _
    | with_reducible refine okOf ?_ rfl rfl rfl rfl rfl rfl rfl rfl rfl
    | simp only [ok_mk]
    | split
    | refine okOf ?_ rfl rfl rfl rfl rfl rfl rfl rfl rfl
    | dsimp only

theorem execLcReqReturn_ok {κ : Kept} {p : Path} {s : State} (hκ : s.Ok κ) : ∃ st' : State, execLcReqReturn p s = .next st' ∧ st'.Ok κ := by
  refine ⟨_, rfl, ?_⟩
  try dsimp only
  repeat' first
    | with_reducible assumption
    | with_reducible apply guardWrite_ok
    | with_reducible apply wrLcReq_ok
    | with_reducible apply ite_ok
    | intro _
    | with_reducible refine okOf ?_ rfl rfl rfl rfl rfl rfl rfl rfl rfl
    | simp only [ok_mk]
    | split
    | refine okOf ?_ rfl rfl rfl rfl rfl rfl rfl rfl rfl
    | dsimp only

theorem execLcReqScrap_ok {κ : Kept} {p : Path} {s : State} (hκ : s.Ok κ) : ∃ st' : State, execLcReqScrap p s = .next st' ∧ st'.Ok κ := by
  refine ⟨_, rfl, ?_⟩
  try dsimp only
  repeat' first
    | with_reducible assumption
    | with_reducible apply guardWrite_ok
    | with_reducible apply wrLcReq_ok
    | with_reducible apply ite_ok
    | intro _
    | with_reducible refine okOf ?_ rfl rfl rfl rfl rfl rfl rfl rfl rfl
    | simp only [ok_mk]
    | split
    | refine okOf ?_ rfl rfl rfl rfl rfl rfl rfl rfl rfl
    | dsimp only

theorem fuseTampers_ok {κ : Kept} {s : State} {wiped : Bool} (hκ : s.Ok κ) : (State.fuseTampers s wiped).Ok κ := by
  unfold State.fuseTampers
  try dsimp only
  repeat' first
    | with_reducible assumption
    | with_reducible apply each_ok
    | with_reducible apply tamperLog_ok
    | with_reducible apply wipe_ok
    | with_reducible apply ite_ok
    | intro _
    | with_reducible refine okOf ?_ rfl rfl rfl rfl rfl rfl rfl rfl rfl
    | simp only [ok_mk]
    | split
    | refine okOf ?_ rfl rfl rfl rfl rfl rfl rfl rfl rfl
    | dsimp only

theorem execLcFuseDone_ok {κ : Kept} {good primary : Bool} {s : State} (h : s.Ok κ) :
    ∃ st' : State, execLcFuseDone good primary s = .next st' ∧ st'.Ok κ := by
  refine ⟨_, rfl, ?_⟩
  split
  · exact h
  · next x hx =>
    have hle := h.fusing x hx
    have h1 : ({ s with mem := { s.mem with fusing := none, life := if good || primary then x else s.mem.life } } : State).Ok κ :=
      ⟨h.sram, h.flash, h.pending, by
        show κ.life ≤ (if good || primary then x else s.mem.life).code
        split
        · exact Nat.le_trans h.life hle
        · exact h.life, fun _ k => by simp at k, h.ticking, h.fault, h.flashIs, h.actIs, h.countIs⟩
    dsimp only
    split
    · exact lcResult_ok (journal_ok (fuseTampers_ok (wipe_ok h1)))
    · exact lcResult_ok (fuseTampers_ok h1)


end Sys2Proof.Machine
end

