-- ==== Sys2Proof/Laws/KeepsRouteOps.lean ====
section
/-! SUPPORT. The operations of RouteOps.lean keep what Keeps.lean names. -/
namespace Sys2Proof.Machine
set_option linter.all false

theorem releaseHold_ok {κ : Kept} {s : State} {lanes : List Nat} (hκ : s.Ok κ) : (State.releaseHold s lanes).Ok κ := by
  unfold State.releaseHold
  try dsimp only
  repeat' first
    | with_reducible assumption
    | with_reducible apply each_ok
    | with_reducible apply incL_ok
    | with_reducible apply queueCourier_ok
    | with_reducible apply ite_ok
    | intro _
    | with_reducible refine okOf ?_ rfl rfl rfl rfl rfl rfl rfl rfl rfl
    | simp only [ok_mk]
    | split
    | refine okOf ?_ rfl rfl rfl rfl rfl rfl rfl rfl rfl
    | dsimp only

theorem setRouteSt_ok {κ : Kept} {s : State} {n : Nat} {st : RouteState} (hκ : s.Ok κ) : (State.setRouteSt s n st).Ok κ := by
  unfold State.setRouteSt
  try dsimp only
  repeat' first
    | with_reducible assumption
    | with_reducible apply irqEdge_ok
    | with_reducible apply raise_ok
    | with_reducible apply releaseHold_ok
    | with_reducible apply setRoute_ok
    | with_reducible apply ite_ok
    | intro _
    | with_reducible refine okOf ?_ rfl rfl rfl rfl rfl rfl rfl rfl rfl
    | simp only [ok_mk]
    | split
    | refine okOf ?_ rfl rfl rfl rfl rfl rfl rfl rfl rfl
    | dsimp only

theorem discSend_ok {κ : Kept} {s : State} {n lim : Nat} (hκ : s.Ok κ) : (State.discSend s n lim).Ok κ := by
  unfold State.discSend
  try dsimp only
  repeat' first
    | with_reducible assumption
    | with_reducible apply setRoute_ok
    | with_reducible apply trainOut_ok
    | with_reducible apply ite_ok
    | intro _
    | with_reducible refine okOf ?_ rfl rfl rfl rfl rfl rfl rfl rfl rfl
    | simp only [ok_mk]
    | split
    | refine okOf ?_ rfl rfl rfl rfl rfl rfl rfl rfl rfl
    | dsimp only

theorem discPump_ok {κ : Kept} {s : State} {n : Nat} (hκ : s.Ok κ) : (State.discPump s n).Ok κ := by
  unfold State.discPump
  try dsimp only
  repeat' first
    | with_reducible assumption
    | with_reducible apply discSend_ok
    | with_reducible apply ite_ok
    | intro _
    | with_reducible refine okOf ?_ rfl rfl rfl rfl rfl rfl rfl rfl rfl
    | simp only [ok_mk]
    | split
    | refine okOf ?_ rfl rfl rfl rfl rfl rfl rfl rfl rfl
    | dsimp only

theorem dropWalk_ok {κ : Kept} {s : State} {n : Nat} (hκ : s.Ok κ) : (State.dropWalk s n).Ok κ := by
  unfold State.dropWalk
  try dsimp only
  repeat' first
    | with_reducible assumption
    | with_reducible apply setRoute_ok
    | with_reducible apply ite_ok
    | intro _
    | with_reducible refine okOf ?_ rfl rfl rfl rfl rfl rfl rfl rfl rfl
    | simp only [ok_mk]
    | split
    | refine okOf ?_ rfl rfl rfl rfl rfl rfl rfl rfl rfl
    | dsimp only

theorem startWalk_ok {κ : Kept} {s : State} {n : Nat} {k : WalkKind} (hκ : s.Ok κ) : (State.startWalk s n k).Ok κ := by
  unfold State.startWalk
  try dsimp only
  repeat' first
    | with_reducible assumption
    | with_reducible apply discPump_ok
    | with_reducible apply dropWalk_ok
    | with_reducible apply setRouteSt_ok
    | with_reducible apply setRoute_ok
    | with_reducible apply ite_ok
    | intro _
    | with_reducible refine okOf ?_ rfl rfl rfl rfl rfl rfl rfl rfl rfl
    | simp only [ok_mk]
    | split
    | refine okOf ?_ rfl rfl rfl rfl rfl rfl rfl rfl rfl
    | dsimp only

theorem bootAdvance_ok {κ : Kept} {s : State} (hκ : s.Ok κ) : (State.bootAdvance s).Ok κ := by
  unfold State.bootAdvance
  try dsimp only
  repeat' first
    | with_reducible assumption
    | with_reducible apply each_ok
    | with_reducible apply startWalk_ok
    | with_reducible apply ite_ok
    | intro _
    | with_reducible refine okOf ?_ rfl rfl rfl rfl rfl rfl rfl rfl rfl
    | simp only [ok_mk]
    | split
    | refine okOf ?_ rfl rfl rfl rfl rfl rfl rfl rfl rfl
    | dsimp only

theorem routeUp_ok {κ : Kept} {s : State} {n : Nat} {full : Bool} (hκ : s.Ok κ) : (State.routeUp s n full).Ok κ := by
  unfold State.routeUp
  try dsimp only
  repeat' first
    | with_reducible assumption
    | with_reducible apply bootAdvance_ok
    | with_reducible apply discPump_ok
    | with_reducible apply setRouteSt_ok
    | with_reducible apply setRoute_ok
    | with_reducible apply startWalk_ok
    | with_reducible apply ite_ok
    | intro _
    | with_reducible refine okOf ?_ rfl rfl rfl rfl rfl rfl rfl rfl rfl
    | simp only [ok_mk]
    | split
    | refine okOf ?_ rfl rfl rfl rfl rfl rfl rfl rfl rfl
    | dsimp only

theorem routeLost_ok {κ : Kept} {s : State} {n : Nat} (hκ : s.Ok κ) : (State.routeLost s n).Ok κ := by
  unfold State.routeLost
  try dsimp only
  repeat' first
    | with_reducible assumption
    | with_reducible apply bootAdvance_ok
    | with_reducible apply dropWalk_ok
    | with_reducible apply setRouteSt_ok
    | with_reducible apply setRoute_ok
    | with_reducible apply ite_ok
    | intro _
    | with_reducible refine okOf ?_ rfl rfl rfl rfl rfl rfl rfl rfl rfl
    | simp only [ok_mk]
    | split
    | refine okOf ?_ rfl rfl rfl rfl rfl rfl rfl rfl rfl
    | dsimp only

theorem discResult_ok {κ : Kept} {s : State} {n code detail : Nat} (hκ : s.Ok κ) : (State.discResult s n code detail).Ok κ := by
  unfold State.discResult
  try dsimp only
  repeat' first
    | with_reducible assumption
    | with_reducible apply setLN_ok
    | with_reducible apply ite_ok
    | intro _
    | with_reducible refine okOf ?_ rfl rfl rfl rfl rfl rfl rfl rfl rfl
    | simp only [ok_mk]
    | split
    | refine okOf ?_ rfl rfl rfl rfl rfl rfl rfl rfl rfl
    | dsimp only

theorem endWalk_ok {κ : Kept} {s : State} {n code path : Nat} {st : RouteState} (hκ : s.Ok κ) : (State.endWalk s n code path st).Ok κ := by
  unfold State.endWalk
  try dsimp only
  repeat' first
    | with_reducible assumption
    | with_reducible apply bootAdvance_ok
    | with_reducible apply discResult_ok
    | with_reducible apply draw_ok
    | with_reducible apply dropWalk_ok
    | with_reducible apply journal_ok
    | with_reducible apply setRouteSt_ok
    | with_reducible apply ite_ok
    | intro _
    | with_reducible refine okOf ?_ rfl rfl rfl rfl rfl rfl rfl rfl rfl
    | simp only [ok_mk]
    | split
    | refine okOf ?_ rfl rfl rfl rfl rfl rfl rfl rfl rfl
    | dsimp only

theorem finishWalk_ok {κ : Kept} {s : State} {n : Nat} (hκ : s.Ok κ) : (State.finishWalk s n).Ok κ := by
  unfold State.finishWalk
  try dsimp only
  repeat' first
    | with_reducible assumption
    | with_reducible apply endWalk_ok
    | with_reducible apply setLN_ok
    | with_reducible apply setRoute_ok
    | with_reducible apply ite_ok
    | intro _
    | with_reducible refine okOf ?_ rfl rfl rfl rfl rfl rfl rfl rfl rfl
    | simp only [ok_mk]
    | split
    | refine okOf ?_ rfl rfl rfl rfl rfl rfl rfl rfl rfl
    | dsimp only

theorem noteUnit_ok {κ : Kept} {s : State} {n : Nat} {u : WalkUnit} (hκ : s.Ok κ) : (State.noteUnit s n u).Ok κ := by
  unfold State.noteUnit
  try dsimp only
  repeat' first
    | with_reducible assumption
    | with_reducible apply incL_ok
    | with_reducible apply journal_ok
    | with_reducible apply raise_ok
    | with_reducible apply ite_ok
    | intro _
    | with_reducible refine okOf ?_ rfl rfl rfl rfl rfl rfl rfl rfl rfl
    | simp only [ok_mk]
    | split
    | refine okOf ?_ rfl rfl rfl rfl rfl rfl rfl rfl rfl
    | dsimp only

theorem assignAll_ok {κ : Kept} {s : State} {n : Nat} {w : Walk} (hκ : s.Ok κ) : (State.assignAll s n w).Ok κ := by
  unfold State.assignAll
  try dsimp only
  repeat' first
    | with_reducible assumption
    | with_reducible apply noteUnit_ok
    | with_reducible apply setRoute_ok
    | with_reducible apply foldl_ok
    | with_reducible apply foldl_ok_fst
    | with_reducible apply ite_ok
    | intro _
    | with_reducible refine okOf ?_ rfl rfl rfl rfl rfl rfl rfl rfl rfl
    | simp only [ok_mk]
    | split
    | refine okOf ?_ rfl rfl rfl rfl rfl rfl rfl rfl rfl
    | dsimp only

theorem visitDone_ok {κ : Kept} {s : State} {n : Nat} {w : Walk} (hκ : s.Ok κ) : (State.visitDone s n w).Ok κ := by
  unfold State.visitDone
  try dsimp only
  repeat' first
    | with_reducible assumption
    | with_reducible apply assignAll_ok
    | with_reducible apply endWalk_ok
    | with_reducible apply setLN_ok
    | with_reducible apply setL_ok
    | with_reducible apply setRoute_ok
    | with_reducible apply ite_ok
    | intro _
    | with_reducible refine okOf ?_ rfl rfl rfl rfl rfl rfl rfl rfl rfl
    | simp only [ok_mk]
    | split
    | refine okOf ?_ rfl rfl rfl rfl rfl rfl rfl rfl rfl
    | dsimp only

theorem discAdvance_ok {κ : Kept} {fuel : Nat} {s : State} {n : Nat} (h : s.Ok κ) : (State.discAdvance fuel s n).Ok κ := by
  induction fuel generalizing s with
  | zero => exact h
  | succ f ih =>
    unfold State.discAdvance
    repeat' first
      | with_reducible assumption
      | with_reducible apply ih
      | with_reducible apply discPump_ok
      | with_reducible apply finishWalk_ok
      | with_reducible apply visitDone_ok
      | split


theorem unitAbsent_ok {κ : Kept} {s : State} {n : Nat} {w : Walk} {path : Nat} (hκ : s.Ok κ) : (State.unitAbsent s n w path).Ok κ := by
  unfold State.unitAbsent
  try dsimp only
  repeat' first
    | with_reducible assumption
    | with_reducible apply discAdvance_ok
    | with_reducible apply endWalk_ok
    | with_reducible apply setRoute_ok
    | with_reducible apply ite_ok
    | intro _
    | with_reducible refine okOf ?_ rfl rfl rfl rfl rfl rfl rfl rfl rfl
    | simp only [ok_mk]
    | split
    | refine okOf ?_ rfl rfl rfl rfl rfl rfl rfl rfl rfl
    | dsimp only

theorem discReply_ok {κ : Kept} {s : State} {n : Nat} {w0 w1 w2 w3 : Word} {t0 t3 : Nat} (hκ : s.Ok κ) : (State.discReply s n w0 w1 w2 w3 t0 t3).Ok κ := by
  unfold State.discReply
  try dsimp only
  repeat' first
    | with_reducible assumption
    | with_reducible apply discAdvance_ok
    | with_reducible apply endWalk_ok
    | with_reducible apply setRoute_ok
    | with_reducible apply unitAbsent_ok
    | with_reducible apply ite_ok
    | intro _
    | with_reducible refine okOf ?_ rfl rfl rfl rfl rfl rfl rfl rfl rfl
    | simp only [ok_mk]
    | split
    | refine okOf ?_ rfl rfl rfl rfl rfl rfl rfl rfl rfl
    | dsimp only

theorem discTimeout_ok {κ : Kept} {s : State} {n tag : Nat} (hκ : s.Ok κ) : (State.discTimeout s n tag).Ok κ := by
  unfold State.discTimeout
  try dsimp only
  repeat' first
    | with_reducible assumption
    | with_reducible apply discPump_ok
    | with_reducible apply incL_ok
    | with_reducible apply setRoute_ok
    | with_reducible apply unitAbsent_ok
    | with_reducible apply ite_ok
    | intro _
    | with_reducible refine okOf ?_ rfl rfl rfl rfl rfl rfl rfl rfl rfl
    | simp only [ok_mk]
    | split
    | refine okOf ?_ rfl rfl rfl rfl rfl rfl rfl rfl rfl
    | dsimp only

end Sys2Proof.Machine
end

