-- ==== Sys2Proof/Laws/KeepsAcq.lean ====
section
/-! SUPPORT. The operations of Acq.lean keep what Keeps.lean names. -/
namespace Sys2Proof.Machine
set_option linter.all false

theorem acqArm_ok {κ : Kept} {s : State} (hκ : s.Ok κ) : (State.acqArm s).Ok κ := by
  unfold State.acqArm
  try dsimp only
  repeat' first
    | with_reducible assumption
    | with_reducible apply abortMarch_ok
    | with_reducible apply each_ok
    | with_reducible apply setL_ok
    | with_reducible apply wakeBank_ok
    | with_reducible apply ite_ok
    | intro _
    | with_reducible refine okOf ?_ rfl rfl rfl rfl rfl rfl rfl rfl rfl
    | with_reducible apply okOf_clear
    | with_reducible apply okOf_erase
    | simp only [ok_mk]
    | split
    | refine okOf ?_ rfl rfl rfl rfl rfl rfl rfl rfl rfl
    | dsimp only

theorem wrAcqCmd_ok {κ : Kept} {v : Word} {s : State} (hκ : s.Ok κ) : (wrAcqCmd v s).1.Ok κ := by
  unfold wrAcqCmd
  try dsimp only
  repeat' first
    | with_reducible assumption
    | with_reducible apply acqArm_ok
    | with_reducible apply acqDone_ok
    | with_reducible apply acqTrigger_ok
    | with_reducible apply done_ok
    | with_reducible apply idle_ok
    | with_reducible apply occPend_ok
    | with_reducible apply ite_ok
    | intro _
    | with_reducible refine okOf ?_ rfl rfl rfl rfl rfl rfl rfl rfl rfl
    | simp only [ok_mk]
    | split
    | refine okOf ?_ rfl rfl rfl rfl rfl rfl rfl rfl rfl
    | dsimp only

theorem execAcqArm_ok {κ : Kept} {p : Path} {s : State} (hκ : s.Ok κ) : ∃ st' : State, execAcqArm p s = .next st' ∧ st'.Ok κ := by
  refine ⟨_, rfl, ?_⟩
  try dsimp only
  repeat' first
    | with_reducible assumption
    | with_reducible apply guardWrite_ok
    | with_reducible apply wrAcqCmd_ok
    | with_reducible apply ite_ok
    | intro _
    | with_reducible refine okOf ?_ rfl rfl rfl rfl rfl rfl rfl rfl rfl
    | simp only [ok_mk]
    | split
    | refine okOf ?_ rfl rfl rfl rfl rfl rfl rfl rfl rfl
    | dsimp only

theorem execAcqTrigger_ok {κ : Kept} {p : Path} {s : State} (hκ : s.Ok κ) : ∃ st' : State, execAcqTrigger p s = .next st' ∧ st'.Ok κ := by
  refine ⟨_, rfl, ?_⟩
  try dsimp only
  repeat' first
    | with_reducible assumption
    | with_reducible apply guardWrite_ok
    | with_reducible apply wrAcqCmd_ok
    | with_reducible apply ite_ok
    | intro _
    | with_reducible refine okOf ?_ rfl rfl rfl rfl rfl rfl rfl rfl rfl
    | simp only [ok_mk]
    | split
    | refine okOf ?_ rfl rfl rfl rfl rfl rfl rfl rfl rfl
    | dsimp only

theorem execAcqStop_ok {κ : Kept} {p : Path} {s : State} (hκ : s.Ok κ) : ∃ st' : State, execAcqStop p s = .next st' ∧ st'.Ok κ := by
  refine ⟨_, rfl, ?_⟩
  try dsimp only
  repeat' first
    | with_reducible assumption
    | with_reducible apply guardWrite_ok
    | with_reducible apply wrAcqCmd_ok
    | with_reducible apply ite_ok
    | intro _
    | with_reducible refine okOf ?_ rfl rfl rfl rfl rfl rfl rfl rfl rfl
    | simp only [ok_mk]
    | split
    | refine okOf ?_ rfl rfl rfl rfl rfl rfl rfl rfl rfl
    | dsimp only

theorem execAcqDisarm_ok {κ : Kept} {p : Path} {s : State} (hκ : s.Ok κ) : ∃ st' : State, execAcqDisarm p s = .next st' ∧ st'.Ok κ := by
  refine ⟨_, rfl, ?_⟩
  try dsimp only
  repeat' first
    | with_reducible assumption
    | with_reducible apply guardWrite_ok
    | with_reducible apply wrAcqCmd_ok
    | with_reducible apply ite_ok
    | intro _
    | with_reducible refine okOf ?_ rfl rfl rfl rfl rfl rfl rfl rfl rfl
    | simp only [ok_mk]
    | split
    | refine okOf ?_ rfl rfl rfl rfl rfl rfl rfl rfl rfl
    | dsimp only

theorem acqHold_ok {κ : Kept} {s : State} {k c v : Nat} (hκ : s.Ok κ) : (State.acqHold s k c v).Ok κ := by
  unfold State.acqHold
  try dsimp only
  repeat' first
    | with_reducible assumption
    | with_reducible apply ite_ok
    | intro _
    | with_reducible refine okOf ?_ rfl rfl rfl rfl rfl rfl rfl rfl rfl
    | simp only [ok_mk]
    | split
    | refine okOf ?_ rfl rfl rfl rfl rfl rfl rfl rfl rfl
    | dsimp only

theorem acqStamp_ok {κ : Kept} {s : State} (hκ : s.Ok κ) : (State.acqStamp s).Ok κ := by
  unfold State.acqStamp
  try dsimp only
  repeat' first
    | with_reducible assumption
    | with_reducible apply idle_ok
    | with_reducible apply ite_ok
    | intro _
    | with_reducible refine okOf ?_ rfl rfl rfl rfl rfl rfl rfl rfl rfl
    | simp only [ok_mk]
    | split
    | refine okOf ?_ rfl rfl rfl rfl rfl rfl rfl rfl rfl
    | dsimp only

theorem execAcqBlockForm_ok {κ : Kept} {s : State} (hκ : s.Ok κ) : ∃ st' : State, execAcqBlockForm s = .next st' ∧ st'.Ok κ := by
  refine ⟨_, rfl, ?_⟩
  try dsimp only
  repeat' first
    | with_reducible assumption
    | with_reducible apply acqDone_ok
    | with_reducible apply incL_ok
    | with_reducible apply occPend_ok
    | with_reducible apply raise_ok
    | with_reducible apply ite_ok
    | intro _
    | with_reducible refine okOf ?_ rfl rfl rfl rfl rfl rfl rfl rfl rfl
    | simp only [ok_mk]
    | split
    | refine okOf ?_ rfl rfl rfl rfl rfl rfl rfl rfl rfl
    | dsimp only

theorem acqLevel_ok {κ : Kept} {s : State} {k : Nat} {rows : List Int} (hκ : s.Ok κ) : (State.acqLevel s k rows).Ok κ := by
  unfold State.acqLevel
  try dsimp only
  repeat' first
    | with_reducible assumption
    | with_reducible apply acqTrigger_ok
    | with_reducible apply occPend_ok
    | with_reducible apply foldl_ok
    | with_reducible apply foldl_ok_fst
    | with_reducible apply ite_ok
    | intro _
    | with_reducible refine okOf ?_ rfl rfl rfl rfl rfl rfl rfl rfl rfl
    | simp only [ok_mk]
    | split
    | refine okOf ?_ rfl rfl rfl rfl rfl rfl rfl rfl rfl
    | dsimp only

theorem execAcqBlockWrite_ok {κ : Kept} {s : State} (hκ : s.Ok κ) : ∃ st' : State, execAcqBlockWrite s = .next st' ∧ st'.Ok κ := by
  refine ⟨_, rfl, ?_⟩
  try dsimp only
  repeat' first
    | with_reducible assumption
    | with_reducible apply acqCheckDone_ok
    | with_reducible apply acqLevel_ok
    | with_reducible apply acqMarkTrig_ok
    | with_reducible apply occPend_ok
    | with_reducible apply wrBytes_ok
    | with_reducible apply ite_ok
    | intro _
    | with_reducible refine okOf ?_ rfl rfl rfl rfl rfl rfl rfl rfl rfl
    | simp only [ok_mk]
    | split
    | refine okOf ?_ rfl rfl rfl rfl rfl rfl rfl rfl rfl
    | dsimp only

theorem acqTag_ok {κ : Kept} {s : State} {stream tag : Nat} {data : Word} (hκ : s.Ok κ) : (State.acqTag s stream tag data).Ok κ := by
  unfold State.acqTag
  try dsimp only
  repeat' first
    | with_reducible assumption
    | with_reducible apply incL_ok
    | with_reducible apply ownerOn_ok
    | with_reducible apply wrBytes_ok
    | with_reducible apply ite_ok
    | intro _
    | with_reducible refine okOf ?_ rfl rfl rfl rfl rfl rfl rfl rfl rfl
    | simp only [ok_mk]
    | split
    | refine okOf ?_ rfl rfl rfl rfl rfl rfl rfl rfl rfl
    | dsimp only

end Sys2Proof.Machine
end

