-- ==== Sys2Proof/Laws/KeepsLedger.lean ====
section
/-! SUPPORT. The operations of Ledger.lean keep what Keeps.lean names. -/
namespace Sys2Proof.Machine
set_option linter.all false

theorem setEntry_ok {κ : Kept} {s : State} {i : Nat} {e : Entry} (hκ : s.Ok κ) : (State.setEntry s i e).Ok κ := by
  unfold State.setEntry
  try dsimp only
  repeat' first
    | with_reducible assumption
    | with_reducible apply ite_ok
    | intro _
    | with_reducible refine okOf ?_ rfl rfl rfl rfl rfl rfl rfl rfl rfl
    | simp only [ok_mk]
    | split
    | refine okOf ?_ rfl rfl rfl rfl rfl rfl rfl rfl rfl
    | dsimp only

theorem healthEvent_ok {κ : Kept} {s : State} {i : Nat} {j : Bool} (hκ : s.Ok κ) : (State.healthEvent s i j).Ok κ := by
  unfold State.healthEvent
  try dsimp only
  repeat' first
    | with_reducible assumption
    | with_reducible apply incL_ok
    | with_reducible apply journal_ok
    | with_reducible apply ite_ok
    | intro _
    | with_reducible refine okOf ?_ rfl rfl rfl rfl rfl rfl rfl rfl rfl
    | simp only [ok_mk]
    | split
    | refine okOf ?_ rfl rfl rfl rfl rfl rfl rfl rfl rfl
    | dsimp only

theorem goHealth_ok {κ : Kept} {s : State} {i h cause : Nat} {j : Bool} (hκ : s.Ok κ) : (State.goHealth s i h cause j).Ok κ := by
  unfold State.goHealth
  try dsimp only
  repeat' first
    | with_reducible assumption
    | with_reducible apply cause_ok
    | with_reducible apply healthEvent_ok
    | with_reducible apply setEntry_ok
    | with_reducible apply ite_ok
    | intro _
    | with_reducible refine okOf ?_ rfl rfl rfl rfl rfl rfl rfl rfl rfl
    | simp only [ok_mk]
    | split
    | refine okOf ?_ rfl rfl rfl rfl rfl rfl rfl rfl rfl
    | dsimp only

theorem reinitEntry_ok {κ : Kept} {s : State} {i : Nat} {e : Entry} {cause : Nat} (hκ : s.Ok κ) : (State.reinitEntry s i e cause).Ok κ := by
  unfold State.reinitEntry
  try dsimp only
  repeat' first
    | with_reducible assumption
    | with_reducible apply cause_ok
    | with_reducible apply healthEvent_ok
    | with_reducible apply incL_ok
    | with_reducible apply setEntry_ok
    | with_reducible apply ite_ok
    | intro _
    | with_reducible refine okOf ?_ rfl rfl rfl rfl rfl rfl rfl rfl rfl
    | simp only [ok_mk]
    | split
    | refine okOf ?_ rfl rfl rfl rfl rfl rfl rfl rfl rfl
    | dsimp only

theorem recordRow_ok {κ : Kept} {s : State} {i : Nat} {unclean : Nat} (hκ : s.Ok κ) : (State.recordRow s i unclean).Ok κ := by
  unfold State.recordRow
  try dsimp only
  repeat' first
    | with_reducible assumption
    | with_reducible apply goHealth_ok
    | with_reducible apply retire_ok
    | with_reducible apply ite_ok
    | intro _
    | with_reducible refine okOf ?_ rfl rfl rfl rfl rfl rfl rfl rfl rfl
    | simp only [ok_mk]
    | split
    | refine okOf ?_ rfl rfl rfl rfl rfl rfl rfl rfl rfl
    | dsimp only

theorem ledgerRecord_ok {κ : Kept} {s : State} {i : Nat} {rec : Word} {j : Nat} (hκ : s.Ok κ) : (State.ledgerRecord s i rec j).Ok κ := by
  unfold State.ledgerRecord
  try dsimp only
  repeat' first
    | with_reducible assumption
    | with_reducible apply recordRow_ok
    | with_reducible apply setEntry_ok
    | with_reducible apply ite_ok
    | intro _
    | with_reducible refine okOf ?_ rfl rfl rfl rfl rfl rfl rfl rfl rfl
    | simp only [ok_mk]
    | split
    | refine okOf ?_ rfl rfl rfl rfl rfl rfl rfl rfl rfl
    | dsimp only

theorem ledgerMiss_ok {κ : Kept} {s : State} {i : Nat} (hκ : s.Ok κ) : (State.ledgerMiss s i).Ok κ := by
  unfold State.ledgerMiss
  try dsimp only
  repeat' first
    | with_reducible assumption
    | with_reducible apply setEntry_ok
    | with_reducible apply ite_ok
    | intro _
    | with_reducible refine okOf ?_ rfl rfl rfl rfl rfl rfl rfl rfl rfl
    | simp only [ok_mk]
    | split
    | refine okOf ?_ rfl rfl rfl rfl rfl rfl rfl rfl rfl
    | dsimp only

theorem ledgerTick_ok {κ : Kept} {s : State} (hκ : s.Ok κ) : (State.ledgerTick s).Ok κ := by
  unfold State.ledgerTick
  try dsimp only
  repeat' first
    | with_reducible assumption
    | with_reducible apply each_ok
    | with_reducible apply setRoute_ok
    | with_reducible apply ite_ok
    | intro _
    | with_reducible refine okOf ?_ rfl rfl rfl rfl rfl rfl rfl rfl rfl
    | simp only [ok_mk]
    | split
    | refine okOf ?_ rfl rfl rfl rfl rfl rfl rfl rfl rfl
    | dsimp only

theorem armCounts_ok {κ : Kept} {s : State} {a : Nat} (hκ : s.Ok κ) : (State.armCounts s a).Ok κ := by
  unfold State.armCounts
  try dsimp only
  repeat' first
    | with_reducible assumption
    | with_reducible apply setLN_ok
    | with_reducible apply ite_ok
    | intro _
    | with_reducible refine okOf ?_ rfl rfl rfl rfl rfl rfl rfl rfl rfl
    | simp only [ok_mk]
    | split
    | refine okOf ?_ rfl rfl rfl rfl rfl rfl rfl rfl rfl
    | dsimp only

theorem staleRow_ok {κ : Kept} {s : State} {i : Nat} (hκ : s.Ok κ) : (State.staleRow s i).1.Ok κ := by
  unfold State.staleRow
  try dsimp only
  repeat' first
    | with_reducible assumption
    | with_reducible apply goHealth_ok
    | with_reducible apply ite_ok
    | intro _
    | with_reducible refine okOf ?_ rfl rfl rfl rfl rfl rfl rfl rfl rfl
    | simp only [ok_mk]
    | split
    | refine okOf ?_ rfl rfl rfl rfl rfl rfl rfl rfl rfl
    | dsimp only

theorem staleRecord_ok {κ : Kept} {s : State} {made : List Nat} {n : Nat} (hκ : s.Ok κ) : (State.staleRecord s made n).Ok κ := by
  unfold State.staleRecord
  try dsimp only
  repeat' first
    | with_reducible assumption
    | with_reducible apply journal_ok
    | with_reducible apply setRoute_ok
    | with_reducible apply ite_ok
    | intro _
    | with_reducible refine okOf ?_ rfl rfl rfl rfl rfl rfl rfl rfl rfl
    | simp only [ok_mk]
    | split
    | refine okOf ?_ rfl rfl rfl rfl rfl rfl rfl rfl rfl
    | dsimp only

theorem ledgerCut_ok {κ : Kept} {s : State} (hκ : s.Ok κ) : (State.ledgerCut s).Ok κ := by
  unfold State.ledgerCut
  try dsimp only
  repeat' first
    | with_reducible assumption
    | with_reducible apply armCounts_ok
    | with_reducible apply each_ok
    | with_reducible apply setLN_ok
    | with_reducible apply setRoute_ok
    | with_reducible apply staleRecord_ok
    | with_reducible apply staleRow_ok
    | with_reducible apply foldl_ok
    | with_reducible apply foldl_ok_fst
    | with_reducible apply ite_ok
    | intro _
    | with_reducible refine okOf ?_ rfl rfl rfl rfl rfl rfl rfl rfl rfl
    | simp only [ok_mk]
    | split
    | refine okOf ?_ rfl rfl rfl rfl rfl rfl rfl rfl rfl
    | dsimp only

theorem healthRefuse_ok {κ : Kept} {code : Nat} {s : State} (hκ : s.Ok κ) : (healthRefuse code s).1.Ok κ := by
  unfold healthRefuse
  try dsimp only
  repeat' first
    | with_reducible assumption
    | with_reducible apply refused6_ok
    | with_reducible apply setLN_ok
    | with_reducible apply ite_ok
    | intro _
    | with_reducible refine okOf ?_ rfl rfl rfl rfl rfl rfl rfl rfl rfl
    | simp only [ok_mk]
    | split
    | refine okOf ?_ rfl rfl rfl rfl rfl rfl rfl rfl rfl
    | dsimp only

theorem healthDone_ok {κ : Kept} {s : State} (hκ : s.Ok κ) : (healthDone s).1.Ok κ := by
  unfold healthDone
  try dsimp only
  repeat' first
    | with_reducible assumption
    | with_reducible apply done_ok
    | with_reducible apply setLN_ok
    | with_reducible apply ite_ok
    | intro _
    | with_reducible refine okOf ?_ rfl rfl rfl rfl rfl rfl rfl rfl rfl
    | simp only [ok_mk]
    | split
    | refine okOf ?_ rfl rfl rfl rfl rfl rfl rfl rfl rfl
    | dsimp only

theorem wrHealthCmd_ok {κ : Kept} {v : Word} {s : State} (hκ : s.Ok κ) : (wrHealthCmd v s).1.Ok κ := by
  unfold wrHealthCmd
  try dsimp only
  repeat' first
    | with_reducible assumption
    | with_reducible apply goHealth_ok
    | with_reducible apply healthDone_ok
    | with_reducible apply healthEvent_ok
    | with_reducible apply healthRefuse_ok
    | with_reducible apply reinitEntry_ok
    | with_reducible apply setEntry_ok
    | with_reducible apply ite_ok
    | intro _
    | with_reducible refine okOf ?_ rfl rfl rfl rfl rfl rfl rfl rfl rfl
    | simp only [ok_mk]
    | split
    | refine okOf ?_ rfl rfl rfl rfl rfl rfl rfl rfl rfl
    | dsimp only

theorem execHealthRetire_ok {κ : Kept} {p : Path} {s : State} (hκ : s.Ok κ) : ∃ st' : State, execHealthRetire p s = .next st' ∧ st'.Ok κ := by
  refine ⟨_, rfl, ?_⟩
  try dsimp only
  repeat' first
    | with_reducible assumption
    | with_reducible apply guardWrite_ok
    | with_reducible apply wrHealthCmd_ok
    | with_reducible apply ite_ok
    | intro _
    | with_reducible refine okOf ?_ rfl rfl rfl rfl rfl rfl rfl rfl rfl
    | simp only [ok_mk]
    | split
    | refine okOf ?_ rfl rfl rfl rfl rfl rfl rfl rfl rfl
    | dsimp only

theorem execHealthRestore_ok {κ : Kept} {p : Path} {s : State} (hκ : s.Ok κ) : ∃ st' : State, execHealthRestore p s = .next st' ∧ st'.Ok κ := by
  refine ⟨_, rfl, ?_⟩
  try dsimp only
  repeat' first
    | with_reducible assumption
    | with_reducible apply guardWrite_ok
    | with_reducible apply wrHealthCmd_ok
    | with_reducible apply ite_ok
    | intro _
    | with_reducible refine okOf ?_ rfl rfl rfl rfl rfl rfl rfl rfl rfl
    | simp only [ok_mk]
    | split
    | refine okOf ?_ rfl rfl rfl rfl rfl rfl rfl rfl rfl
    | dsimp only

theorem execHealthSuspect_ok {κ : Kept} {p : Path} {s : State} (hκ : s.Ok κ) : ∃ st' : State, execHealthSuspect p s = .next st' ∧ st'.Ok κ := by
  refine ⟨_, rfl, ?_⟩
  try dsimp only
  repeat' first
    | with_reducible assumption
    | with_reducible apply guardWrite_ok
    | with_reducible apply wrHealthCmd_ok
    | with_reducible apply ite_ok
    | intro _
    | with_reducible refine okOf ?_ rfl rfl rfl rfl rfl rfl rfl rfl rfl
    | simp only [ok_mk]
    | split
    | refine okOf ?_ rfl rfl rfl rfl rfl rfl rfl rfl rfl
    | dsimp only

theorem wrCfgWord_ok {κ : Kept} {v : Word} {s : State} (hκ : s.Ok κ) : (wrCfgWord v s).1.Ok κ := by
  unfold wrCfgWord
  try dsimp only
  repeat' first
    | with_reducible assumption
    | with_reducible apply done_ok
    | with_reducible apply setLN_ok
    | with_reducible apply ite_ok
    | intro _
    | with_reducible refine okOf ?_ rfl rfl rfl rfl rfl rfl rfl rfl rfl
    | simp only [ok_mk]
    | split
    | refine okOf ?_ rfl rfl rfl rfl rfl rfl rfl rfl rfl
    | dsimp only

theorem execCfgWord_ok {κ : Kept} {p : Path} {v : Word} {s : State} (hκ : s.Ok κ) : ∃ st' : State, execCfgWord p v s = .next st' ∧ st'.Ok κ := by
  refine ⟨_, rfl, ?_⟩
  try dsimp only
  repeat' first
    | with_reducible assumption
    | with_reducible apply guardWrite_ok
    | with_reducible apply wrCfgWord_ok
    | with_reducible apply ite_ok
    | intro _
    | with_reducible refine okOf ?_ rfl rfl rfl rfl rfl rfl rfl rfl rfl
    | simp only [ok_mk]
    | split
    | refine okOf ?_ rfl rfl rfl rfl rfl rfl rfl rfl rfl
    | dsimp only

theorem applyCfg_ok {κ : Kept} {s : State} {i : Nat} (hκ : s.Ok κ) : (State.applyCfg s i).Ok κ := by
  unfold State.applyCfg
  try dsimp only
  repeat' first
    | with_reducible assumption
    | with_reducible apply reinitEntry_ok
    | with_reducible apply setEntry_ok
    | with_reducible apply ite_ok
    | intro _
    | with_reducible refine okOf ?_ rfl rfl rfl rfl rfl rfl rfl rfl rfl
    | simp only [ok_mk]
    | split
    | refine okOf ?_ rfl rfl rfl rfl rfl rfl rfl rfl rfl
    | dsimp only

theorem ledgerCapture_ok {κ : Kept} {s : State} {i : Nat} (hκ : s.Ok κ) : (State.ledgerCapture s i).Ok κ := by
  unfold State.ledgerCapture
  try dsimp only
  repeat' first
    | with_reducible assumption
    | with_reducible apply ite_ok
    | intro _
    | with_reducible refine okOf ?_ rfl rfl rfl rfl rfl rfl rfl rfl rfl
    | simp only [ok_mk]
    | split
    | refine okOf ?_ rfl rfl rfl rfl rfl rfl rfl rfl rfl
    | dsimp only

theorem execLedgerW0Read_ok {κ : Kept} {i : Nat} {s : State} (hκ : s.Ok κ) : ∃ st' : State, execLedgerW0Read i s = .next st' ∧ st'.Ok κ := by
  refine ⟨_, rfl, ?_⟩
  try dsimp only
  repeat' first
    | with_reducible assumption
    | with_reducible apply ledgerCapture_ok
    | with_reducible apply ite_ok
    | intro _
    | with_reducible refine okOf ?_ rfl rfl rfl rfl rfl rfl rfl rfl rfl
    | simp only [ok_mk]
    | split
    | refine okOf ?_ rfl rfl rfl rfl rfl rfl rfl rfl rfl
    | dsimp only

end Sys2Proof.Machine
end

