-- ==== Sys2Proof/Laws/KeepsLaunch.lean ====
section
/-! SUPPORT. The operations of Launch.lean keep what Keeps.lean names. -/
namespace Sys2Proof.Machine
set_option linter.all false

theorem courierEnd_ok {κ : Kept} {s : State} (hκ : s.Ok κ) : (State.courierEnd s).Ok κ := by
  unfold State.courierEnd
  try dsimp only
  repeat' first
    | with_reducible assumption
    | with_reducible apply setLN_ok
    | with_reducible apply ite_ok
    | intro _
    | with_reducible refine okOf ?_ rfl rfl rfl rfl rfl rfl rfl rfl rfl
    | simp only [ok_mk]
    | split
    | refine okOf ?_ rfl rfl rfl rfl rfl rfl rfl rfl rfl
    | dsimp only

theorem forgetReq_ok {κ : Kept} {s : State} (hκ : s.Ok κ) : (State.forgetReq s).Ok κ := by
  unfold State.forgetReq
  try dsimp only
  repeat' first
    | with_reducible assumption
    | with_reducible apply ite_ok
    | intro _
    | with_reducible refine okOf ?_ rfl rfl rfl rfl rfl rfl rfl rfl rfl
    | simp only [ok_mk]
    | split
    | refine okOf ?_ rfl rfl rfl rfl rfl rfl rfl rfl rfl
    | dsimp only

theorem wrCourierReq_ok {κ : Kept} {v : Word} {s : State} (hκ : s.Ok κ) : (wrCourierReq v s).1.Ok κ := by
  unfold wrCourierReq
  try dsimp only
  repeat' first
    | with_reducible assumption
    | with_reducible apply courierEnd_ok
    | with_reducible apply done_ok
    | with_reducible apply each_ok
    | with_reducible apply forgetReq_ok
    | with_reducible apply incL_ok
    | with_reducible apply queueCourier_ok
    | with_reducible apply refused6_ok
    | with_reducible apply releaseHold_ok
    | with_reducible apply setLN_ok
    | with_reducible apply ite_ok
    | intro _
    | with_reducible refine okOf ?_ rfl rfl rfl rfl rfl rfl rfl rfl rfl
    | simp only [ok_mk]
    | split
    | refine okOf ?_ rfl rfl rfl rfl rfl rfl rfl rfl rfl
    | dsimp only

theorem execCourierReqHold_ok {κ : Kept} {p : Path} {s : State} (hκ : s.Ok κ) : ∃ st' : State, execCourierReqHold p s = .next st' ∧ st'.Ok κ := by
  refine ⟨_, rfl, ?_⟩
  try dsimp only
  repeat' first
    | with_reducible assumption
    | with_reducible apply guardWrite_ok
    | with_reducible apply wrCourierReq_ok
    | with_reducible apply ite_ok
    | intro _
    | with_reducible refine okOf ?_ rfl rfl rfl rfl rfl rfl rfl rfl rfl
    | simp only [ok_mk]
    | split
    | refine okOf ?_ rfl rfl rfl rfl rfl rfl rfl rfl rfl
    | dsimp only

theorem execCourierReqReleaseHold_ok {κ : Kept} {p : Path} {s : State} (hκ : s.Ok κ) : ∃ st' : State, execCourierReqReleaseHold p s = .next st' ∧ st'.Ok κ := by
  refine ⟨_, rfl, ?_⟩
  try dsimp only
  repeat' first
    | with_reducible assumption
    | with_reducible apply guardWrite_ok
    | with_reducible apply wrCourierReq_ok
    | with_reducible apply ite_ok
    | intro _
    | with_reducible refine okOf ?_ rfl rfl rfl rfl rfl rfl rfl rfl rfl
    | simp only [ok_mk]
    | split
    | refine okOf ?_ rfl rfl rfl rfl rfl rfl rfl rfl rfl
    | dsimp only

theorem tripLatency_ok {κ : Kept} {s : State} {m : TripMeas} (hκ : s.Ok κ) : (State.tripLatency s m).Ok κ := by
  unfold State.tripLatency
  try dsimp only
  repeat' first
    | with_reducible assumption
    | with_reducible apply raiseIf_ok
    | with_reducible apply setLN_ok
    | with_reducible apply ite_ok
    | intro _
    | with_reducible refine okOf ?_ rfl rfl rfl rfl rfl rfl rfl rfl rfl
    | simp only [ok_mk]
    | split
    | refine okOf ?_ rfl rfl rfl rfl rfl rfl rfl rfl rfl
    | dsimp only

theorem reqGone_ok {κ : Kept} {s : State} {n : Nat} {left : Bool} (hκ : s.Ok κ) : (State.reqGone s n left).Ok κ := by
  unfold State.reqGone
  try dsimp only
  repeat' first
    | with_reducible assumption
    | with_reducible apply courierEnd_ok
    | with_reducible apply ite_ok
    | intro _
    | with_reducible refine okOf ?_ rfl rfl rfl rfl rfl rfl rfl rfl rfl
    | simp only [ok_mk]
    | split
    | refine okOf ?_ rfl rfl rfl rfl rfl rfl rfl rfl rfl
    | dsimp only

theorem tripGone_ok {κ : Kept} {s : State} {n : Nat} {edge : Nat} {dep : Option Nat} (hκ : s.Ok κ) : (State.tripGone s n edge dep).Ok κ := by
  unfold State.tripGone
  try dsimp only
  repeat' first
    | with_reducible assumption
    | with_reducible apply tripLatency_ok
    | with_reducible apply ite_ok
    | intro _
    | with_reducible refine okOf ?_ rfl rfl rfl rfl rfl rfl rfl rfl rfl
    | simp only [ok_mk]
    | split
    | refine okOf ?_ rfl rfl rfl rfl rfl rfl rfl rfl rfl
    | dsimp only

theorem holdFlag_ok {κ : Kept} {s : State} {n : Nat} {k : CourierKind} (hκ : s.Ok κ) : (State.holdFlag s n k).Ok κ := by
  unfold State.holdFlag
  try dsimp only
  repeat' first
    | with_reducible assumption
    | with_reducible apply releaseHold_ok
    | with_reducible apply setRoute_ok
    | with_reducible apply ite_ok
    | intro _
    | with_reducible refine okOf ?_ rfl rfl rfl rfl rfl rfl rfl rfl rfl
    | simp only [ok_mk]
    | split
    | refine okOf ?_ rfl rfl rfl rfl rfl rfl rfl rfl rfl
    | dsimp only

theorem execCourierSend_ok {κ : Kept} {n dep : Nat} {s : State} (hκ : s.Ok κ) : ∃ st' : State, execCourierSend n dep s = .next st' ∧ st'.Ok κ := by
  refine ⟨_, rfl, ?_⟩
  try dsimp only
  repeat' first
    | with_reducible assumption
    | with_reducible apply blockOut_ok
    | with_reducible apply holdFlag_ok
    | with_reducible apply reqGone_ok
    | with_reducible apply toC_ok
    | with_reducible apply tripGone_ok
    | with_reducible apply ite_ok
    | intro _
    | with_reducible refine okOf ?_ rfl rfl rfl rfl rfl rfl rfl rfl rfl
    | simp only [ok_mk]
    | split
    | refine okOf ?_ rfl rfl rfl rfl rfl rfl rfl rfl rfl
    | dsimp only

theorem dropCouriers_ok {κ : Kept} {s : State} {n : Nat} (hκ : s.Ok κ) : (State.dropCouriers s n).Ok κ := by
  unfold State.dropCouriers
  try dsimp only
  repeat' first
    | with_reducible assumption
    | with_reducible apply reqGone_ok
    | with_reducible apply tripGone_ok
    | with_reducible apply foldl_ok
    | with_reducible apply foldl_ok_fst
    | with_reducible apply ite_ok
    | intro _
    | with_reducible refine okOf ?_ rfl rfl rfl rfl rfl rfl rfl rfl rfl
    | simp only [ok_mk]
    | split
    | refine okOf ?_ rfl rfl rfl rfl rfl rfl rfl rfl rfl
    | dsimp only

theorem repeatCourier_ok {κ : Kept} {s : State} (hκ : s.Ok κ) : (State.repeatCourier s).Ok κ := by
  unfold State.repeatCourier
  try dsimp only
  repeat' first
    | with_reducible assumption
    | with_reducible apply each_ok
    | with_reducible apply queueCourier_ok
    | with_reducible apply foldl_ok
    | with_reducible apply foldl_ok_fst
    | with_reducible apply ite_ok
    | intro _
    | with_reducible refine okOf ?_ rfl rfl rfl rfl rfl rfl rfl rfl rfl
    | simp only [ok_mk]
    | split
    | refine okOf ?_ rfl rfl rfl rfl rfl rfl rfl rfl rfl
    | dsimp only

theorem queueBeacon_ok {κ : Kept} {s : State} {b : Beacon} {port : Nat} (hκ : s.Ok κ) : (State.queueBeacon s b port).Ok κ := by
  unfold State.queueBeacon
  try dsimp only
  repeat' first
    | with_reducible assumption
    | with_reducible apply incL_ok
    | with_reducible apply ite_ok
    | intro _
    | with_reducible refine okOf ?_ rfl rfl rfl rfl rfl rfl rfl rfl rfl
    | simp only [ok_mk]
    | split
    | refine okOf ?_ rfl rfl rfl rfl rfl rfl rfl rfl rfl
    | dsimp only

theorem sendBeacon_ok {κ : Kept} {s : State} {event hops source originQ : Nat} {ports : List Nat} (hκ : s.Ok κ) : (State.sendBeacon s event hops source originQ ports).Ok κ := by
  unfold State.sendBeacon
  try dsimp only
  repeat' first
    | with_reducible assumption
    | with_reducible apply each_ok
    | with_reducible apply event_ok
    | with_reducible apply queueBeacon_ok
    | with_reducible apply ite_ok
    | intro _
    | with_reducible refine okOf ?_ rfl rfl rfl rfl rfl rfl rfl rfl rfl
    | simp only [ok_mk]
    | split
    | refine okOf ?_ rfl rfl rfl rfl rfl rfl rfl rfl rfl
    | dsimp only

theorem deliver_ok {κ : Kept} {s : State} {e originQ : Nat} (hκ : s.Ok κ) : (State.deliver s e originQ).Ok κ := by
  unfold State.deliver
  try dsimp only
  repeat' first
    | with_reducible assumption
    | with_reducible apply acqTrigger_ok
    | with_reducible apply event_ok
    | with_reducible apply occPend_ok
    | with_reducible apply ite_ok
    | intro _
    | with_reducible refine okOf ?_ rfl rfl rfl rfl rfl rfl rfl rfl rfl
    | simp only [ok_mk]
    | split
    | refine okOf ?_ rfl rfl rfl rfl rfl rfl rfl rfl rfl
    | dsimp only

theorem originate_ok {κ : Kept} {s : State} {e originQ : Nat} (hκ : s.Ok κ) : (State.originate s e originQ).Ok κ := by
  unfold State.originate
  try dsimp only
  repeat' first
    | with_reducible assumption
    | with_reducible apply deliver_ok
    | with_reducible apply sendBeacon_ok
    | with_reducible apply ite_ok
    | intro _
    | with_reducible refine okOf ?_ rfl rfl rfl rfl rfl rfl rfl rfl rfl
    | simp only [ok_mk]
    | split
    | refine okOf ?_ rfl rfl rfl rfl rfl rfl rfl rfl rfl
    | dsimp only

theorem wrBeaconSend_ok {κ : Kept} {v : Word} {s : State} (hκ : s.Ok κ) : (wrBeaconSend v s).1.Ok κ := by
  unfold wrBeaconSend
  try dsimp only
  repeat' first
    | with_reducible assumption
    | with_reducible apply done_ok
    | with_reducible apply originate_ok
    | with_reducible apply ite_ok
    | intro _
    | with_reducible refine okOf ?_ rfl rfl rfl rfl rfl rfl rfl rfl rfl
    | simp only [ok_mk]
    | split
    | refine okOf ?_ rfl rfl rfl rfl rfl rfl rfl rfl rfl
    | dsimp only

theorem execBeaconSend_ok {κ : Kept} {p : Path} {v : Word} {s : State} (hκ : s.Ok κ) : ∃ st' : State, execBeaconSend p v s = .next st' ∧ st'.Ok κ := by
  refine ⟨_, rfl, ?_⟩
  try dsimp only
  repeat' first
    | with_reducible assumption
    | with_reducible apply guardWrite_ok
    | with_reducible apply wrBeaconSend_ok
    | with_reducible apply ite_ok
    | intro _
    | with_reducible refine okOf ?_ rfl rfl rfl rfl rfl rfl rfl rfl rfl
    | simp only [ok_mk]
    | split
    | refine okOf ?_ rfl rfl rfl rfl rfl rfl rfl rfl rfl
    | dsimp only

theorem execBeaconTransmit_ok {κ : Kept} {port t : Nat} {s : State} (hκ : s.Ok κ) : ∃ st' : State, execBeaconTransmit port t s = .next st' ∧ st'.Ok κ := by
  refine ⟨_, rfl, ?_⟩
  try dsimp only
  repeat' first
    | with_reducible assumption
    | with_reducible apply blockOut_ok
    | with_reducible apply incL_ok
    | with_reducible apply toC_ok
    | with_reducible apply ite_ok
    | intro _
    | with_reducible refine okOf ?_ rfl rfl rfl rfl rfl rfl rfl rfl rfl
    | simp only [ok_mk]
    | split
    | refine okOf ?_ rfl rfl rfl rfl rfl rfl rfl rfl rfl
    | dsimp only

theorem takeBeacon_ok {κ : Kept} {s : State} {port : Nat} {b : Beacon} (hκ : s.Ok κ) : (State.takeBeacon s port b).Ok κ := by
  unfold State.takeBeacon
  try dsimp only
  repeat' first
    | with_reducible assumption
    | with_reducible apply deliver_ok
    | with_reducible apply event_ok
    | with_reducible apply incL_ok
    | with_reducible apply sendBeacon_ok
    | with_reducible apply ite_ok
    | intro _
    | with_reducible refine okOf ?_ rfl rfl rfl rfl rfl rfl rfl rfl rfl
    | simp only [ok_mk]
    | split
    | refine okOf ?_ rfl rfl rfl rfl rfl rfl rfl rfl rfl
    | dsimp only

theorem execBeaconReceive_ok {κ : Kept} {port : Nat} {payload : BitVec 64} {s : State} (hκ : s.Ok κ) : ∃ st' : State, execBeaconReceive port payload s = .next st' ∧ st'.Ok κ := by
  refine ⟨_, rfl, ?_⟩
  try dsimp only
  repeat' first
    | with_reducible assumption
    | with_reducible apply incL_ok
    | with_reducible apply takeBeacon_ok
    | with_reducible apply ite_ok
    | intro _
    | with_reducible refine okOf ?_ rfl rfl rfl rfl rfl rfl rfl rfl rfl
    | simp only [ok_mk]
    | split
    | refine okOf ?_ rfl rfl rfl rfl rfl rfl rfl rfl rfl
    | dsimp only

theorem execTrigInEdge_ok {κ : Kept} {rising : Bool} {stamp : Nat} {s : State} (hκ : s.Ok κ) : ∃ st' : State, execTrigInEdge rising stamp s = .next st' ∧ st'.Ok κ := by
  refine ⟨_, rfl, ?_⟩
  try dsimp only
  repeat' first
    | with_reducible assumption
    | with_reducible apply incL_ok
    | with_reducible apply originate_ok
    | with_reducible apply toC_ok
    | with_reducible apply ite_ok
    | intro _
    | with_reducible refine okOf ?_ rfl rfl rfl rfl rfl rfl rfl rfl rfl
    | simp only [ok_mk]
    | split
    | refine okOf ?_ rfl rfl rfl rfl rfl rfl rfl rfl rfl
    | dsimp only

theorem execTrigOutStart_ok {κ : Kept} {e : Nat} {s : State} (hκ : s.Ok κ) : ∃ st' : State, execTrigOutStart e s = .next st' ∧ st'.Ok κ := by
  refine ⟨_, rfl, ?_⟩
  try dsimp only
  repeat' first
    | with_reducible assumption
    | with_reducible apply event_ok
    | with_reducible apply incIf_ok
    | with_reducible apply incL_ok
    | with_reducible apply toC_ok
    | with_reducible apply ite_ok
    | intro _
    | with_reducible refine okOf ?_ rfl rfl rfl rfl rfl rfl rfl rfl rfl
    | simp only [ok_mk]
    | split
    | refine okOf ?_ rfl rfl rfl rfl rfl rfl rfl rfl rfl
    | dsimp only

theorem execTrigOutEnd_ok {κ : Kept} {s : State} (hκ : s.Ok κ) : ∃ st' : State, execTrigOutEnd s = .next st' ∧ st'.Ok κ := by
  refine ⟨_, rfl, ?_⟩
  try dsimp only
  repeat' first
    | with_reducible assumption
    | with_reducible apply toC_ok
    | with_reducible apply ite_ok
    | intro _
    | with_reducible refine okOf ?_ rfl rfl rfl rfl rfl rfl rfl rfl rfl
    | simp only [ok_mk]
    | split
    | refine okOf ?_ rfl rfl rfl rfl rfl rfl rfl rfl rfl
    | dsimp only

end Sys2Proof.Machine
end

