-- ==== Sys2Proof/Laws/KeepsArms.lean ====
section
/-! SUPPORT. The operations of Arms.lean keep what Keeps.lean names. -/
namespace Sys2Proof.Machine
set_option linter.all false

theorem limitDemand_ok {κ : Kept} {s : State} {a : Nat} {neg : Bool} {x cells flags : Nat} (hκ : s.Ok κ) : (State.limitDemand s a neg x cells flags).1.Ok κ := by
  unfold State.limitDemand
  try dsimp only
  repeat' first
    | with_reducible assumption
    | with_reducible apply incIf_ok
    | with_reducible apply raiseIf_ok
    | with_reducible apply ite_ok
    | intro _
    | with_reducible refine okOf ?_ rfl rfl rfl rfl rfl rfl rfl rfl rfl
    | simp only [ok_mk]
    | split
    | refine okOf ?_ rfl rfl rfl rfl rfl rfl rfl rfl rfl
    | dsimp only

theorem modulate_ok {κ : Kept} {s : State} {a : Nat} {r : Int} {cells : Bool → Nat} (hκ : s.Ok κ) : (State.modulate s a r cells).1.Ok κ := by
  unfold State.modulate
  try dsimp only
  repeat' first
    | with_reducible assumption
    | with_reducible apply incIf_ok
    | with_reducible apply limitDemand_ok
    | with_reducible apply raiseIf_ok
    | with_reducible apply ite_ok
    | intro _
    | with_reducible refine okOf ?_ rfl rfl rfl rfl rfl rfl rfl rfl rfl
    | simp only [ok_mk]
    | split
    | refine okOf ?_ rfl rfl rfl rfl rfl rfl rfl rfl rfl
    | dsimp only

theorem forceDemand_ok {κ : Kept} {s : State} {a : Nat} {f : ForceSet} {cells : Bool → Nat} (hκ : s.Ok κ) : (State.forceDemand s a f cells).1.Ok κ := by
  unfold State.forceDemand
  try dsimp only
  repeat' first
    | with_reducible assumption
    | with_reducible apply limitDemand_ok
    | with_reducible apply ite_ok
    | intro _
    | with_reducible refine okOf ?_ rfl rfl rfl rfl rfl rfl rfl rfl rfl
    | simp only [ok_mk]
    | split
    | refine okOf ?_ rfl rfl rfl rfl rfl rfl rfl rfl rfl
    | dsimp only

theorem putBuilt_ok {κ : Kept} {s : State} {a : Nat} {b : Built} (hκ : s.Ok κ) : (State.putBuilt s a b).Ok κ := by
  unfold State.putBuilt
  try dsimp only
  repeat' first
    | with_reducible assumption
    | with_reducible apply setArm_ok
    | with_reducible apply setLI_ok
    | with_reducible apply setLN_ok
    | with_reducible apply ite_ok
    | intro _
    | with_reducible refine okOf ?_ rfl rfl rfl rfl rfl rfl rfl rfl rfl
    | simp only [ok_mk]
    | split
    | refine okOf ?_ rfl rfl rfl rfl rfl rfl rfl rfl rfl
    | dsimp only

theorem execReload_ok {κ : Kept} {s : State} {a : Nat} (hκ : s.Ok κ) : (State.execReload s a).Ok κ := by
  unfold State.execReload
  try dsimp only
  repeat' first
    | with_reducible assumption
    | with_reducible apply setArm_ok
    | with_reducible apply ite_ok
    | intro _
    | with_reducible refine okOf ?_ rfl rfl rfl rfl rfl rfl rfl rfl rfl
    | simp only [ok_mk]
    | split
    | refine okOf ?_ rfl rfl rfl rfl rfl rfl rfl rfl rfl
    | dsimp only

theorem armForce_ok {κ : Kept} {s : State} {a : Nat} {f : ForceSet} (hκ : s.Ok κ) : (State.armForce s a f).Ok κ := by
  unfold State.armForce
  try dsimp only
  repeat' first
    | with_reducible assumption
    | with_reducible apply setArm_ok
    | with_reducible apply setLN_ok
    | with_reducible apply ite_ok
    | intro _
    | with_reducible refine okOf ?_ rfl rfl rfl rfl rfl rfl rfl rfl rfl
    | simp only [ok_mk]
    | split
    | refine okOf ?_ rfl rfl rfl rfl rfl rfl rfl rfl rfl
    | dsimp only

theorem wrForceCtrl_ok {κ : Kept} {a : Nat} {v : Word} {s : State} (hκ : s.Ok κ) : (wrForceCtrl a v s).1.Ok κ := by
  unfold wrForceCtrl
  try dsimp only
  repeat' first
    | with_reducible assumption
    | with_reducible apply armForce_ok
    | with_reducible apply done_ok
    | with_reducible apply refused6_ok
    | with_reducible apply setArm_ok
    | with_reducible apply setLN_ok
    | with_reducible apply setL_ok
    | with_reducible apply ite_ok
    | intro _
    | with_reducible refine okOf ?_ rfl rfl rfl rfl rfl rfl rfl rfl rfl
    | simp only [ok_mk]
    | split
    | refine okOf ?_ rfl rfl rfl rfl rfl rfl rfl rfl rfl
    | dsimp only

theorem wrForceCommitAll_ok {κ : Kept} {s : State} (hκ : s.Ok κ) : (wrForceCommitAll s).1.Ok κ := by
  unfold wrForceCommitAll
  try dsimp only
  repeat' first
    | with_reducible assumption
    | with_reducible apply armForce_ok
    | with_reducible apply done_ok
    | with_reducible apply each_ok
    | with_reducible apply setArm_ok
    | with_reducible apply ite_ok
    | intro _
    | with_reducible refine okOf ?_ rfl rfl rfl rfl rfl rfl rfl rfl rfl
    | simp only [ok_mk]
    | split
    | refine okOf ?_ rfl rfl rfl rfl rfl rfl rfl rfl rfl
    | dsimp only

theorem execForceArm_ok {κ : Kept} {p : Path} {a : Nat} {v : Word} {s : State} (hκ : s.Ok κ) : ∃ st' : State, execForceArm p a v s = .next st' ∧ st'.Ok κ := by
  refine ⟨_, rfl, ?_⟩
  try dsimp only
  repeat' first
    | with_reducible assumption
    | with_reducible apply guardWrite_ok
    | with_reducible apply wrForceCtrl_ok
    | with_reducible apply ite_ok
    | intro _
    | with_reducible refine okOf ?_ rfl rfl rfl rfl rfl rfl rfl rfl rfl
    | simp only [ok_mk]
    | split
    | refine okOf ?_ rfl rfl rfl rfl rfl rfl rfl rfl rfl
    | dsimp only

theorem execForceDefer_ok {κ : Kept} {p : Path} {a : Nat} {v : Word} {s : State} (hκ : s.Ok κ) : ∃ st' : State, execForceDefer p a v s = .next st' ∧ st'.Ok κ := by
  refine ⟨_, rfl, ?_⟩
  try dsimp only
  repeat' first
    | with_reducible assumption
    | with_reducible apply guardWrite_ok
    | with_reducible apply wrForceCtrl_ok
    | with_reducible apply ite_ok
    | intro _
    | with_reducible refine okOf ?_ rfl rfl rfl rfl rfl rfl rfl rfl rfl
    | simp only [ok_mk]
    | split
    | refine okOf ?_ rfl rfl rfl rfl rfl rfl rfl rfl rfl
    | dsimp only

theorem execForceClear_ok {κ : Kept} {p : Path} {a : Nat} {s : State} (hκ : s.Ok κ) : ∃ st' : State, execForceClear p a s = .next st' ∧ st'.Ok κ := by
  refine ⟨_, rfl, ?_⟩
  try dsimp only
  repeat' first
    | with_reducible assumption
    | with_reducible apply guardWrite_ok
    | with_reducible apply wrForceCtrl_ok
    | with_reducible apply ite_ok
    | intro _
    | with_reducible refine okOf ?_ rfl rfl rfl rfl rfl rfl rfl rfl rfl
    | simp only [ok_mk]
    | split
    | refine okOf ?_ rfl rfl rfl rfl rfl rfl rfl rfl rfl
    | dsimp only

theorem execForceCommitAll_ok {κ : Kept} {p : Path} {a : Nat} {s : State} (hκ : s.Ok κ) : ∃ st' : State, execForceCommitAll p a s = .next st' ∧ st'.Ok κ := by
  refine ⟨_, rfl, ?_⟩
  try dsimp only
  repeat' first
    | with_reducible assumption
    | with_reducible apply guardWrite_ok
    | with_reducible apply wrForceCommitAll_ok
    | with_reducible apply ite_ok
    | intro _
    | with_reducible refine okOf ?_ rfl rfl rfl rfl rfl rfl rfl rfl rfl
    | simp only [ok_mk]
    | split
    | refine okOf ?_ rfl rfl rfl rfl rfl rfl rfl rfl rfl
    | dsimp only

theorem forceModeClear_ok {κ : Kept} {s : State} (hκ : s.Ok κ) : (State.forceModeClear s).Ok κ := by
  unfold State.forceModeClear
  try dsimp only
  repeat' first
    | with_reducible assumption
    | with_reducible apply clearForce_ok
    | with_reducible apply each_ok
    | with_reducible apply ite_ok
    | intro _
    | with_reducible refine okOf ?_ rfl rfl rfl rfl rfl rfl rfl rfl rfl
    | simp only [ok_mk]
    | split
    | refine okOf ?_ rfl rfl rfl rfl rfl rfl rfl rfl rfl
    | dsimp only

theorem maskActivate_ok {κ : Kept} {s : State} {a te : Nat} (hκ : s.Ok κ) : (State.maskActivate s a te).Ok κ := by
  unfold State.maskActivate
  try dsimp only
  repeat' first
    | with_reducible assumption
    | with_reducible apply incL_ok
    | with_reducible apply irqEdge_ok
    | with_reducible apply latch_ok
    | with_reducible apply originate_ok
    | with_reducible apply setArm_ok
    | with_reducible apply setLN_ok
    | with_reducible apply ite_ok
    | intro _
    | with_reducible refine okOf ?_ rfl rfl rfl rfl rfl rfl rfl rfl rfl
    | simp only [ok_mk]
    | split
    | refine okOf ?_ rfl rfl rfl rfl rfl rfl rfl rfl rfl
    | dsimp only

theorem maskRelease_ok {κ : Kept} {s : State} {a : Nat} (hκ : s.Ok κ) : (State.maskRelease s a).Ok κ := by
  unfold State.maskRelease
  try dsimp only
  repeat' first
    | with_reducible assumption
    | with_reducible apply setArm_ok
    | with_reducible apply ite_ok
    | intro _
    | with_reducible refine okOf ?_ rfl rfl rfl rfl rfl rfl rfl rfl rfl
    | simp only [ok_mk]
    | split
    | refine okOf ?_ rfl rfl rfl rfl rfl rfl rfl rfl rfl
    | dsimp only

theorem execGpioLevelAccept_ok {κ : Kept} {a g : Nat} {high : Bool} {te : Nat} {s : State} (hκ : s.Ok κ) : ∃ st' : State, execGpioLevelAccept a g high te s = .next st' ∧ st'.Ok κ := by
  refine ⟨_, rfl, ?_⟩
  try dsimp only
  repeat' first
    | with_reducible assumption
    | with_reducible apply event_ok
    | with_reducible apply maskActivate_ok
    | with_reducible apply maskRelease_ok
    | with_reducible apply setArm_ok
    | with_reducible apply toC_ok
    | with_reducible apply ite_ok
    | intro _
    | with_reducible refine okOf ?_ rfl rfl rfl rfl rfl rfl rfl rfl rfl
    | simp only [ok_mk]
    | split
    | refine okOf ?_ rfl rfl rfl rfl rfl rfl rfl rfl rfl
    | dsimp only

theorem wrMaskClear_ok {κ : Kept} {a : Nat} {s : State} (hκ : s.Ok κ) : (wrMaskClear a s).1.Ok κ := by
  unfold wrMaskClear
  try dsimp only
  repeat' first
    | with_reducible assumption
    | with_reducible apply done_ok
    | with_reducible apply incL_ok
    | with_reducible apply latch_ok
    | with_reducible apply refused6_ok
    | with_reducible apply setArm_ok
    | with_reducible apply ite_ok
    | intro _
    | with_reducible refine okOf ?_ rfl rfl rfl rfl rfl rfl rfl rfl rfl
    | simp only [ok_mk]
    | split
    | refine okOf ?_ rfl rfl rfl rfl rfl rfl rfl rfl rfl
    | dsimp only

theorem execMaskClear_ok {κ : Kept} {p : Path} {a : Nat} {s : State} (hκ : s.Ok κ) : ∃ st' : State, execMaskClear p a s = .next st' ∧ st'.Ok κ := by
  refine ⟨_, rfl, ?_⟩
  try dsimp only
  repeat' first
    | with_reducible assumption
    | with_reducible apply guardWrite_ok
    | with_reducible apply wrMaskClear_ok
    | with_reducible apply ite_ok
    | intro _
    | with_reducible refine okOf ?_ rfl rfl rfl rfl rfl rfl rfl rfl rfl
    | simp only [ok_mk]
    | split
    | refine okOf ?_ rfl rfl rfl rfl rfl rfl rfl rfl rfl
    | dsimp only

theorem maskPinsChange_ok {κ : Kept} {s o : State} {a : Nat} (hκ : s.Ok κ) : (State.maskPinsChange s o a).Ok κ := by
  unfold State.maskPinsChange
  try dsimp only
  repeat' first
    | with_reducible assumption
    | with_reducible apply maskActivate_ok
    | with_reducible apply maskRelease_ok
    | with_reducible apply setArm_ok
    | with_reducible apply ite_ok
    | intro _
    | with_reducible refine okOf ?_ rfl rfl rfl rfl rfl rfl rfl rfl rfl
    | simp only [ok_mk]
    | split
    | refine okOf ?_ rfl rfl rfl rfl rfl rfl rfl rfl rfl
    | dsimp only

theorem maskModeChange_ok {κ : Kept} {s : State} {a : Nat} (hκ : s.Ok κ) : (State.maskModeChange s a).Ok κ := by
  unfold State.maskModeChange
  try dsimp only
  repeat' first
    | with_reducible assumption
    | with_reducible apply latch_ok
    | with_reducible apply setArm_ok
    | with_reducible apply ite_ok
    | intro _
    | with_reducible refine okOf ?_ rfl rfl rfl rfl rfl rfl rfl rfl rfl
    | simp only [ok_mk]
    | split
    | refine okOf ?_ rfl rfl rfl rfl rfl rfl rfl rfl rfl
    | dsimp only

theorem refDiscard_ok {κ : Kept} {s : State} (hκ : s.Ok κ) : (State.refDiscard s).Ok κ := by
  unfold State.refDiscard
  try dsimp only
  repeat' first
    | with_reducible assumption
    | with_reducible apply incL_ok
    | with_reducible apply raise_ok
    | with_reducible apply ite_ok
    | intro _
    | with_reducible refine okOf ?_ rfl rfl rfl rfl rfl rfl rfl rfl rfl
    | simp only [ok_mk]
    | split
    | refine okOf ?_ rfl rfl rfl rfl rfl rfl rfl rfl rfl
    | dsimp only

theorem wrArmRef_ok {κ : Kept} {p : Path} {a : Nat} {v : Word} {s : State} (hκ : s.Ok κ) : (wrArmRef p a v s).1.Ok κ := by
  unfold wrArmRef
  try dsimp only
  repeat' first
    | with_reducible assumption
    | with_reducible apply done_ok
    | with_reducible apply refDiscard_ok
    | with_reducible apply refused6_ok
    | with_reducible apply setL_ok
    | with_reducible apply ite_ok
    | intro _
    | with_reducible refine okOf ?_ rfl rfl rfl rfl rfl rfl rfl rfl rfl
    | simp only [ok_mk]
    | split
    | refine okOf ?_ rfl rfl rfl rfl rfl rfl rfl rfl rfl
    | dsimp only

end Sys2Proof.Machine
end

