-- ==== Sys2Proof/Laws/KeepsOperands.lean ====
section
/-! SUPPORT. The operations of Operands.lean keep what Keeps.lean names. -/
namespace Sys2Proof.Machine
set_option linter.all false

theorem drainOne_ok {κ : Kept} {s : State} {e : Nat} (hκ : s.Ok κ) : (State.drainOne s e).Ok κ := by
  unfold State.drainOne
  try dsimp only
  repeat' first
    | with_reducible assumption
    | with_reducible apply setEng_ok
    | with_reducible apply wrW_ok
    | with_reducible apply ite_ok
    | intro _
    | with_reducible refine okOf ?_ rfl rfl rfl rfl rfl rfl rfl rfl rfl
    | simp only [ok_mk]
    | split
    | refine okOf ?_ rfl rfl rfl rfl rfl rfl rfl rfl rfl
    | dsimp only

theorem postStore_ok {κ : Kept} {s : State} {e w : Nat} {v : Word} (hκ : s.Ok κ) : (State.postStore s e w v).Ok κ := by
  unfold State.postStore
  try dsimp only
  repeat' first
    | with_reducible assumption
    | with_reducible apply drainOne_ok
    | with_reducible apply setEng_ok
    | with_reducible apply ite_ok
    | intro _
    | with_reducible refine okOf ?_ rfl rfl rfl rfl rfl rfl rfl rfl rfl
    | simp only [ok_mk]
    | split
    | refine okOf ?_ rfl rfl rfl rfl rfl rfl rfl rfl rfl
    | dsimp only

theorem writeY_ok {κ : Kept} {s : State} {e a : Nat} {v : Word} (hκ : s.Ok κ) : (State.writeY s e a v).Ok κ := by
  unfold State.writeY
  try dsimp only
  repeat' first
    | with_reducible assumption
    | with_reducible apply irqIf_ok
    | with_reducible apply postStore_ok
    | with_reducible apply setL_ok
    | with_reducible apply wrW_ok
    | with_reducible apply ite_ok
    | intro _
    | with_reducible refine okOf ?_ rfl rfl rfl rfl rfl rfl rfl rfl rfl
    | simp only [ok_mk]
    | split
    | refine okOf ?_ rfl rfl rfl rfl rfl rfl rfl rfl rfl
    | dsimp only

theorem moveStores_ok {κ : Kept} {s : State} {e : Nat} {isX : Bool} {l : List (Nat × Word)} (hκ : s.Ok κ) : (State.moveStores s e isX l).Ok κ := by
  unfold State.moveStores
  try dsimp only
  repeat' first
    | with_reducible assumption
    | with_reducible apply wrW_ok
    | with_reducible apply writeY_ok
    | with_reducible apply foldl_ok
    | with_reducible apply foldl_ok_fst
    | with_reducible apply ite_ok
    | intro _
    | with_reducible refine okOf ?_ rfl rfl rfl rfl rfl rfl rfl rfl rfl
    | simp only [ok_mk]
    | split
    | refine okOf ?_ rfl rfl rfl rfl rfl rfl rfl rfl rfl
    | dsimp only

end Sys2Proof.Machine
end

