-- ==== Sys2Proof/Laws/KeepsCupola.lean ====
section
/-! SUPPORT. The operations of Cupola.lean keep what Keeps.lean names. -/
namespace Sys2Proof.Machine
set_option linter.all false

theorem issue_ok {κ : Kept} {s : State} {e st : Nat} {w : BitVec 64} (hκ : s.Ok κ) : (State.issue s e st w).Ok κ := by
  unfold State.issue
  try dsimp only
  repeat' first
    | with_reducible assumption
    | with_reducible apply drainOne_ok
    | with_reducible apply setEng_ok
    | with_reducible apply setL64_ok
    | with_reducible apply ite_ok
    | intro _
    | with_reducible refine okOf ?_ rfl rfl rfl rfl rfl rfl rfl rfl rfl
    | simp only [ok_mk]
    | split
    | refine okOf ?_ rfl rfl rfl rfl rfl rfl rfl rfl rfl
    | dsimp only

theorem retire_ok {κ : Kept} {s : State} {e : Nat} {r : EngRegs} (hκ : s.Ok κ) : (State.retire s e r).Ok κ := by
  unfold State.retire
  try dsimp only
  repeat' first
    | with_reducible assumption
    | with_reducible apply setEng_ok
    | with_reducible apply setL64_ok
    | with_reducible apply ite_ok
    | intro _
    | with_reducible refine okOf ?_ rfl rfl rfl rfl rfl rfl rfl rfl rfl
    | simp only [ok_mk]
    | split
    | refine okOf ?_ rfl rfl rfl rfl rfl rfl rfl rfl rfl
    | dsimp only

theorem extraCyc_ok {κ : Kept} {s : State} {e n : Nat} (hκ : s.Ok κ) : (State.extraCyc s e n).Ok κ := by
  unfold State.extraCyc
  try dsimp only
  repeat' first
    | with_reducible assumption
    | with_reducible apply setEng_ok
    | with_reducible apply setL64_ok
    | with_reducible apply ite_ok
    | intro _
    | with_reducible refine okOf ?_ rfl rfl rfl rfl rfl rfl rfl rfl rfl
    | simp only [ok_mk]
    | split
    | refine okOf ?_ rfl rfl rfl rfl rfl rfl rfl rfl rfl
    | dsimp only

theorem exception_ok {κ : Kept} {s : State} {e cause : Nat} {cnt : BitVec 16} (hκ : s.Ok κ) : (State.exception s e cause cnt).Ok κ := by
  unfold State.exception
  try dsimp only
  repeat' first
    | with_reducible assumption
    | with_reducible apply cause_ok
    | with_reducible apply incL_ok
    | with_reducible apply irqEdge_ok
    | with_reducible apply journal_ok
    | with_reducible apply raiseAs_ok
    | with_reducible apply setLN_ok
    | with_reducible apply taskEnd_ok
    | with_reducible apply ite_ok
    | intro _
    | with_reducible refine okOf ?_ rfl rfl rfl rfl rfl rfl rfl rfl rfl
    | simp only [ok_mk]
    | split
    | refine okOf ?_ rfl rfl rfl rfl rfl rfl rfl rfl rfl
    | dsimp only

theorem issued_ok {κ : Kept} {s : State} {e st : Nat} {w : BitVec 64} {op : Nat} {k : State → State} (hκ : s.Ok κ) (hk : ∀ (t : State), t.Ok κ → (k t).Ok κ) : (State.issued s e st w op k).Ok κ := by
  unfold State.issued
  try dsimp only
  repeat' first
    | with_reducible assumption
    | with_reducible apply exception_ok
    | with_reducible apply issue_ok
    | with_reducible apply hk
    | with_reducible apply ite_ok
    | intro _
    | with_reducible refine okOf ?_ rfl rfl rfl rfl rfl rfl rfl rfl rfl
    | simp only [ok_mk]
    | split
    | refine okOf ?_ rfl rfl rfl rfl rfl rfl rfl rfl rfl
    | dsimp only

theorem finish_ok {κ : Kept} {s : State} {e : Nat} {r : EngRegs} (hκ : s.Ok κ) : (State.finish s e r).Ok κ := by
  unfold State.finish
  try dsimp only
  repeat' first
    | with_reducible assumption
    | with_reducible apply extraCyc_ok
    | with_reducible apply retire_ok
    | with_reducible apply ite_ok
    | intro _
    | with_reducible refine okOf ?_ rfl rfl rfl rfl rfl rfl rfl rfl rfl
    | simp only [ok_mk]
    | split
    | refine okOf ?_ rfl rfl rfl rfl rfl rfl rfl rfl rfl
    | dsimp only

theorem withMoves_ok {κ : Kept} {s : State} {e : Nat} {x : PWord} {op : EngRegs → EngRegs} (hκ : s.Ok κ) : (State.withMoves s e x op).Ok κ := by
  unfold State.withMoves
  try dsimp only
  repeat' first
    | with_reducible assumption
    | with_reducible apply finish_ok
    | with_reducible apply moveStores_ok
    | with_reducible apply setA_ok
    | with_reducible apply ite_ok
    | intro _
    | with_reducible refine okOf ?_ rfl rfl rfl rfl rfl rfl rfl rfl rfl
    | simp only [ok_mk]
    | split
    | refine okOf ?_ rfl rfl rfl rfl rfl rfl rfl rfl rfl
    | dsimp only

theorem pInstr_ok {κ : Kept} {s : State} {e st : Nat} {w : BitVec 64} {op : Nat} {ok wr : Bool} {f : EngRegs → EngRegs} (hκ : s.Ok κ) : (State.pInstr s e st w op ok wr f).Ok κ := by
  unfold State.pInstr
  try dsimp only
  repeat' first
    | with_reducible assumption
    | with_reducible apply exception_ok
    | with_reducible apply issued_ok
    | with_reducible apply withMoves_ok
    | with_reducible apply ite_ok
    | intro _
    | with_reducible refine okOf ?_ rfl rfl rfl rfl rfl rfl rfl rfl rfl
    | simp only [ok_mk]
    | split
    | refine okOf ?_ rfl rfl rfl rfl rfl rfl rfl rfl rfl
    | dsimp only

theorem execNop_ok {κ : Kept} {e st : Nat} {w : BitVec 64} {s : State} (hκ : s.Ok κ) : ∃ st' : State, execNop e st w s = .next st' ∧ st'.Ok κ := by
  refine ⟨_, rfl, ?_⟩
  try dsimp only
  repeat' first
    | with_reducible assumption
    | with_reducible apply pInstr_ok
    | with_reducible apply ite_ok
    | intro _
    | with_reducible refine okOf ?_ rfl rfl rfl rfl rfl rfl rfl rfl rfl
    | simp only [ok_mk]
    | split
    | refine okOf ?_ rfl rfl rfl rfl rfl rfl rfl rfl rfl
    | dsimp only

theorem execMpy_ok {κ : Kept} {e st : Nat} {w : BitVec 64} {s : State} (hκ : s.Ok κ) : ∃ st' : State, execMpy e st w s = .next st' ∧ st'.Ok κ := by
  refine ⟨_, rfl, ?_⟩
  try dsimp only
  repeat' first
    | with_reducible assumption
    | with_reducible apply pInstr_ok
    | with_reducible apply ite_ok
    | intro _
    | with_reducible refine okOf ?_ rfl rfl rfl rfl rfl rfl rfl rfl rfl
    | simp only [ok_mk]
    | split
    | refine okOf ?_ rfl rfl rfl rfl rfl rfl rfl rfl rfl
    | dsimp only

theorem execMac_ok {κ : Kept} {e st : Nat} {w : BitVec 64} {s : State} (hκ : s.Ok κ) : ∃ st' : State, execMac e st w s = .next st' ∧ st'.Ok κ := by
  refine ⟨_, rfl, ?_⟩
  try dsimp only
  repeat' first
    | with_reducible assumption
    | with_reducible apply pInstr_ok
    | with_reducible apply ite_ok
    | intro _
    | with_reducible refine okOf ?_ rfl rfl rfl rfl rfl rfl rfl rfl rfl
    | simp only [ok_mk]
    | split
    | refine okOf ?_ rfl rfl rfl rfl rfl rfl rfl rfl rfl
    | dsimp only

theorem execMsu_ok {κ : Kept} {e st : Nat} {w : BitVec 64} {s : State} (hκ : s.Ok κ) : ∃ st' : State, execMsu e st w s = .next st' ∧ st'.Ok κ := by
  refine ⟨_, rfl, ?_⟩
  try dsimp only
  repeat' first
    | with_reducible assumption
    | with_reducible apply pInstr_ok
    | with_reducible apply ite_ok
    | intro _
    | with_reducible refine okOf ?_ rfl rfl rfl rfl rfl rfl rfl rfl rfl
    | simp only [ok_mk]
    | split
    | refine okOf ?_ rfl rfl rfl rfl rfl rfl rfl rfl rfl
    | dsimp only

theorem execMpy4_ok {κ : Kept} {e st : Nat} {w : BitVec 64} {s : State} (hκ : s.Ok κ) : ∃ st' : State, execMpy4 e st w s = .next st' ∧ st'.Ok κ := by
  refine ⟨_, rfl, ?_⟩
  try dsimp only
  repeat' first
    | with_reducible assumption
    | with_reducible apply pInstr_ok
    | with_reducible apply ite_ok
    | intro _
    | with_reducible refine okOf ?_ rfl rfl rfl rfl rfl rfl rfl rfl rfl
    | simp only [ok_mk]
    | split
    | refine okOf ?_ rfl rfl rfl rfl rfl rfl rfl rfl rfl
    | dsimp only

theorem execMac4_ok {κ : Kept} {e st : Nat} {w : BitVec 64} {s : State} (hκ : s.Ok κ) : ∃ st' : State, execMac4 e st w s = .next st' ∧ st'.Ok κ := by
  refine ⟨_, rfl, ?_⟩
  try dsimp only
  repeat' first
    | with_reducible assumption
    | with_reducible apply pInstr_ok
    | with_reducible apply ite_ok
    | intro _
    | with_reducible refine okOf ?_ rfl rfl rfl rfl rfl rfl rfl rfl rfl
    | simp only [ok_mk]
    | split
    | refine okOf ?_ rfl rfl rfl rfl rfl rfl rfl rfl rfl
    | dsimp only

theorem execMsu4_ok {κ : Kept} {e st : Nat} {w : BitVec 64} {s : State} (hκ : s.Ok κ) : ∃ st' : State, execMsu4 e st w s = .next st' ∧ st'.Ok κ := by
  refine ⟨_, rfl, ?_⟩
  try dsimp only
  repeat' first
    | with_reducible assumption
    | with_reducible apply pInstr_ok
    | with_reducible apply ite_ok
    | intro _
    | with_reducible refine okOf ?_ rfl rfl rfl rfl rfl rfl rfl rfl rfl
    | simp only [ok_mk]
    | split
    | refine okOf ?_ rfl rfl rfl rfl rfl rfl rfl rfl rfl
    | dsimp only

theorem execClr_ok {κ : Kept} {e st : Nat} {w : BitVec 64} {s : State} (hκ : s.Ok κ) : ∃ st' : State, execClr e st w s = .next st' ∧ st'.Ok κ := by
  refine ⟨_, rfl, ?_⟩
  try dsimp only
  repeat' first
    | with_reducible assumption
    | with_reducible apply pInstr_ok
    | with_reducible apply ite_ok
    | intro _
    | with_reducible refine okOf ?_ rfl rfl rfl rfl rfl rfl rfl rfl rfl
    | simp only [ok_mk]
    | split
    | refine okOf ?_ rfl rfl rfl rfl rfl rfl rfl rfl rfl
    | dsimp only

theorem execAdda_ok {κ : Kept} {e st : Nat} {w : BitVec 64} {s : State} (hκ : s.Ok κ) : ∃ st' : State, execAdda e st w s = .next st' ∧ st'.Ok κ := by
  refine ⟨_, rfl, ?_⟩
  try dsimp only
  repeat' first
    | with_reducible assumption
    | with_reducible apply pInstr_ok
    | with_reducible apply ite_ok
    | intro _
    | with_reducible refine okOf ?_ rfl rfl rfl rfl rfl rfl rfl rfl rfl
    | simp only [ok_mk]
    | split
    | refine okOf ?_ rfl rfl rfl rfl rfl rfl rfl rfl rfl
    | dsimp only

theorem execSuba_ok {κ : Kept} {e st : Nat} {w : BitVec 64} {s : State} (hκ : s.Ok κ) : ∃ st' : State, execSuba e st w s = .next st' ∧ st'.Ok κ := by
  refine ⟨_, rfl, ?_⟩
  try dsimp only
  repeat' first
    | with_reducible assumption
    | with_reducible apply pInstr_ok
    | with_reducible apply ite_ok
    | intro _
    | with_reducible refine okOf ?_ rfl rfl rfl rfl rfl rfl rfl rfl rfl
    | simp only [ok_mk]
    | split
    | refine okOf ?_ rfl rfl rfl rfl rfl rfl rfl rfl rfl
    | dsimp only

theorem execAsla_ok {κ : Kept} {e st : Nat} {w : BitVec 64} {s : State} (hκ : s.Ok κ) : ∃ st' : State, execAsla e st w s = .next st' ∧ st'.Ok κ := by
  refine ⟨_, rfl, ?_⟩
  try dsimp only
  repeat' first
    | with_reducible assumption
    | with_reducible apply pInstr_ok
    | with_reducible apply ite_ok
    | intro _
    | with_reducible refine okOf ?_ rfl rfl rfl rfl rfl rfl rfl rfl rfl
    | simp only [ok_mk]
    | split
    | refine okOf ?_ rfl rfl rfl rfl rfl rfl rfl rfl rfl
    | dsimp only

theorem execAsra_ok {κ : Kept} {e st : Nat} {w : BitVec 64} {s : State} (hκ : s.Ok κ) : ∃ st' : State, execAsra e st w s = .next st' ∧ st'.Ok κ := by
  refine ⟨_, rfl, ?_⟩
  try dsimp only
  repeat' first
    | with_reducible assumption
    | with_reducible apply pInstr_ok
    | with_reducible apply ite_ok
    | intro _
    | with_reducible refine okOf ?_ rfl rfl rfl rfl rfl rfl rfl rfl rfl
    | simp only [ok_mk]
    | split
    | refine okOf ?_ rfl rfl rfl rfl rfl rfl rfl rfl rfl
    | dsimp only

theorem execLdacc_ok {κ : Kept} {e st : Nat} {w : BitVec 64} {s : State} (hκ : s.Ok κ) : ∃ st' : State, execLdacc e st w s = .next st' ∧ st'.Ok κ := by
  refine ⟨_, rfl, ?_⟩
  try dsimp only
  repeat' first
    | with_reducible assumption
    | with_reducible apply pInstr_ok
    | with_reducible apply ite_ok
    | intro _
    | with_reducible refine okOf ?_ rfl rfl rfl rfl rfl rfl rfl rfl rfl
    | simp only [ok_mk]
    | split
    | refine okOf ?_ rfl rfl rfl rfl rfl rfl rfl rfl rfl
    | dsimp only

theorem execRnd_ok {κ : Kept} {e st : Nat} {w : BitVec 64} {s : State} (hκ : s.Ok κ) : ∃ st' : State, execRnd e st w s = .next st' ∧ st'.Ok κ := by
  refine ⟨_, rfl, ?_⟩
  try dsimp only
  repeat' first
    | with_reducible assumption
    | with_reducible apply pInstr_ok
    | with_reducible apply setConv_ok
    | with_reducible apply ite_ok
    | intro _
    | with_reducible refine okOf ?_ rfl rfl rfl rfl rfl rfl rfl rfl rfl
    | simp only [ok_mk]
    | split
    | refine okOf ?_ rfl rfl rfl rfl rfl rfl rfl rfl rfl
    | dsimp only

theorem execNega_ok {κ : Kept} {e st : Nat} {w : BitVec 64} {s : State} (hκ : s.Ok κ) : ∃ st' : State, execNega e st w s = .next st' ∧ st'.Ok κ := by
  refine ⟨_, rfl, ?_⟩
  try dsimp only
  repeat' first
    | with_reducible assumption
    | with_reducible apply pInstr_ok
    | with_reducible apply ite_ok
    | intro _
    | with_reducible refine okOf ?_ rfl rfl rfl rfl rfl rfl rfl rfl rfl
    | simp only [ok_mk]
    | split
    | refine okOf ?_ rfl rfl rfl rfl rfl rfl rfl rfl rfl
    | dsimp only

theorem execAbsa_ok {κ : Kept} {e st : Nat} {w : BitVec 64} {s : State} (hκ : s.Ok κ) : ∃ st' : State, execAbsa e st w s = .next st' ∧ st'.Ok κ := by
  refine ⟨_, rfl, ?_⟩
  try dsimp only
  repeat' first
    | with_reducible assumption
    | with_reducible apply pInstr_ok
    | with_reducible apply ite_ok
    | intro _
    | with_reducible refine okOf ?_ rfl rfl rfl rfl rfl rfl rfl rfl rfl
    | simp only [ok_mk]
    | split
    | refine okOf ?_ rfl rfl rfl rfl rfl rfl rfl rfl rfl
    | dsimp only

theorem execClr4_ok {κ : Kept} {e st : Nat} {w : BitVec 64} {s : State} (hκ : s.Ok κ) : ∃ st' : State, execClr4 e st w s = .next st' ∧ st'.Ok κ := by
  refine ⟨_, rfl, ?_⟩
  try dsimp only
  repeat' first
    | with_reducible assumption
    | with_reducible apply pInstr_ok
    | with_reducible apply ite_ok
    | intro _
    | with_reducible refine okOf ?_ rfl rfl rfl rfl rfl rfl rfl rfl rfl
    | simp only [ok_mk]
    | split
    | refine okOf ?_ rfl rfl rfl rfl rfl rfl rfl rfl rfl
    | dsimp only

theorem execMov_ok {κ : Kept} {e st : Nat} {w : BitVec 64} {s : State} (hκ : s.Ok κ) : ∃ st' : State, execMov e st w s = .next st' ∧ st'.Ok κ := by
  refine ⟨_, rfl, ?_⟩
  try dsimp only
  repeat' first
    | with_reducible assumption
    | with_reducible apply pInstr_ok
    | with_reducible apply ite_ok
    | intro _
    | with_reducible refine okOf ?_ rfl rfl rfl rfl rfl rfl rfl rfl rfl
    | simp only [ok_mk]
    | split
    | refine okOf ?_ rfl rfl rfl rfl rfl rfl rfl rfl rfl
    | dsimp only

theorem execAdd_ok {κ : Kept} {e st : Nat} {w : BitVec 64} {s : State} (hκ : s.Ok κ) : ∃ st' : State, execAdd e st w s = .next st' ∧ st'.Ok κ := by
  refine ⟨_, rfl, ?_⟩
  try dsimp only
  repeat' first
    | with_reducible assumption
    | with_reducible apply pInstr_ok
    | with_reducible apply ite_ok
    | intro _
    | with_reducible refine okOf ?_ rfl rfl rfl rfl rfl rfl rfl rfl rfl
    | simp only [ok_mk]
    | split
    | refine okOf ?_ rfl rfl rfl rfl rfl rfl rfl rfl rfl
    | dsimp only

theorem execSub_ok {κ : Kept} {e st : Nat} {w : BitVec 64} {s : State} (hκ : s.Ok κ) : ∃ st' : State, execSub e st w s = .next st' ∧ st'.Ok κ := by
  refine ⟨_, rfl, ?_⟩
  try dsimp only
  repeat' first
    | with_reducible assumption
    | with_reducible apply pInstr_ok
    | with_reducible apply ite_ok
    | intro _
    | with_reducible refine okOf ?_ rfl rfl rfl rfl rfl rfl rfl rfl rfl
    | simp only [ok_mk]
    | split
    | refine okOf ?_ rfl rfl rfl rfl rfl rfl rfl rfl rfl
    | dsimp only

theorem execNeg_ok {κ : Kept} {e st : Nat} {w : BitVec 64} {s : State} (hκ : s.Ok κ) : ∃ st' : State, execNeg e st w s = .next st' ∧ st'.Ok κ := by
  refine ⟨_, rfl, ?_⟩
  try dsimp only
  repeat' first
    | with_reducible assumption
    | with_reducible apply pInstr_ok
    | with_reducible apply ite_ok
    | intro _
    | with_reducible refine okOf ?_ rfl rfl rfl rfl rfl rfl rfl rfl rfl
    | simp only [ok_mk]
    | split
    | refine okOf ?_ rfl rfl rfl rfl rfl rfl rfl rfl rfl
    | dsimp only

theorem execAbs_ok {κ : Kept} {e st : Nat} {w : BitVec 64} {s : State} (hκ : s.Ok κ) : ∃ st' : State, execAbs e st w s = .next st' ∧ st'.Ok κ := by
  refine ⟨_, rfl, ?_⟩
  try dsimp only
  repeat' first
    | with_reducible assumption
    | with_reducible apply draw_ok
    | with_reducible apply pInstr_ok
    | with_reducible apply ite_ok
    | intro _
    | with_reducible refine okOf ?_ rfl rfl rfl rfl rfl rfl rfl rfl rfl
    | simp only [ok_mk]
    | split
    | refine okOf ?_ rfl rfl rfl rfl rfl rfl rfl rfl rfl
    | dsimp only

theorem execMin_ok {κ : Kept} {e st : Nat} {w : BitVec 64} {s : State} (hκ : s.Ok κ) : ∃ st' : State, execMin e st w s = .next st' ∧ st'.Ok κ := by
  refine ⟨_, rfl, ?_⟩
  try dsimp only
  repeat' first
    | with_reducible assumption
    | with_reducible apply pInstr_ok
    | with_reducible apply ite_ok
    | intro _
    | with_reducible refine okOf ?_ rfl rfl rfl rfl rfl rfl rfl rfl rfl
    | simp only [ok_mk]
    | split
    | refine okOf ?_ rfl rfl rfl rfl rfl rfl rfl rfl rfl
    | dsimp only

theorem execMax_ok {κ : Kept} {e st : Nat} {w : BitVec 64} {s : State} (hκ : s.Ok κ) : ∃ st' : State, execMax e st w s = .next st' ∧ st'.Ok κ := by
  refine ⟨_, rfl, ?_⟩
  try dsimp only
  repeat' first
    | with_reducible assumption
    | with_reducible apply pInstr_ok
    | with_reducible apply ite_ok
    | intro _
    | with_reducible refine okOf ?_ rfl rfl rfl rfl rfl rfl rfl rfl rfl
    | simp only [ok_mk]
    | split
    | refine okOf ?_ rfl rfl rfl rfl rfl rfl rfl rfl rfl
    | dsimp only

theorem execCmp_ok {κ : Kept} {e st : Nat} {w : BitVec 64} {s : State} (hκ : s.Ok κ) : ∃ st' : State, execCmp e st w s = .next st' ∧ st'.Ok κ := by
  refine ⟨_, rfl, ?_⟩
  try dsimp only
  repeat' first
    | with_reducible assumption
    | with_reducible apply pInstr_ok
    | with_reducible apply ite_ok
    | intro _
    | with_reducible refine okOf ?_ rfl rfl rfl rfl rfl rfl rfl rfl rfl
    | simp only [ok_mk]
    | split
    | refine okOf ?_ rfl rfl rfl rfl rfl rfl rfl rfl rfl
    | dsimp only

theorem execAnd_ok {κ : Kept} {e st : Nat} {w : BitVec 64} {s : State} (hκ : s.Ok κ) : ∃ st' : State, execAnd e st w s = .next st' ∧ st'.Ok κ := by
  refine ⟨_, rfl, ?_⟩
  try dsimp only
  repeat' first
    | with_reducible assumption
    | with_reducible apply pInstr_ok
    | with_reducible apply ite_ok
    | intro _
    | with_reducible refine okOf ?_ rfl rfl rfl rfl rfl rfl rfl rfl rfl
    | simp only [ok_mk]
    | split
    | refine okOf ?_ rfl rfl rfl rfl rfl rfl rfl rfl rfl
    | dsimp only

theorem execOr_ok {κ : Kept} {e st : Nat} {w : BitVec 64} {s : State} (hκ : s.Ok κ) : ∃ st' : State, execOr e st w s = .next st' ∧ st'.Ok κ := by
  refine ⟨_, rfl, ?_⟩
  try dsimp only
  repeat' first
    | with_reducible assumption
    | with_reducible apply pInstr_ok
    | with_reducible apply ite_ok
    | intro _
    | with_reducible refine okOf ?_ rfl rfl rfl rfl rfl rfl rfl rfl rfl
    | simp only [ok_mk]
    | split
    | refine okOf ?_ rfl rfl rfl rfl rfl rfl rfl rfl rfl
    | dsimp only

theorem execXor_ok {κ : Kept} {e st : Nat} {w : BitVec 64} {s : State} (hκ : s.Ok κ) : ∃ st' : State, execXor e st w s = .next st' ∧ st'.Ok κ := by
  refine ⟨_, rfl, ?_⟩
  try dsimp only
  repeat' first
    | with_reducible assumption
    | with_reducible apply pInstr_ok
    | with_reducible apply ite_ok
    | intro _
    | with_reducible refine okOf ?_ rfl rfl rfl rfl rfl rfl rfl rfl rfl
    | simp only [ok_mk]
    | split
    | refine okOf ?_ rfl rfl rfl rfl rfl rfl rfl rfl rfl
    | dsimp only

theorem execNot_ok {κ : Kept} {e st : Nat} {w : BitVec 64} {s : State} (hκ : s.Ok κ) : ∃ st' : State, execNot e st w s = .next st' ∧ st'.Ok κ := by
  refine ⟨_, rfl, ?_⟩
  try dsimp only
  repeat' first
    | with_reducible assumption
    | with_reducible apply pInstr_ok
    | with_reducible apply ite_ok
    | intro _
    | with_reducible refine okOf ?_ rfl rfl rfl rfl rfl rfl rfl rfl rfl
    | simp only [ok_mk]
    | split
    | refine okOf ?_ rfl rfl rfl rfl rfl rfl rfl rfl rfl
    | dsimp only

theorem execAsli_ok {κ : Kept} {e st : Nat} {w : BitVec 64} {s : State} (hκ : s.Ok κ) : ∃ st' : State, execAsli e st w s = .next st' ∧ st'.Ok κ := by
  refine ⟨_, rfl, ?_⟩
  try dsimp only
  repeat' first
    | with_reducible assumption
    | with_reducible apply draw_ok
    | with_reducible apply pInstr_ok
    | with_reducible apply ite_ok
    | intro _
    | with_reducible refine okOf ?_ rfl rfl rfl rfl rfl rfl rfl rfl rfl
    | simp only [ok_mk]
    | split
    | refine okOf ?_ rfl rfl rfl rfl rfl rfl rfl rfl rfl
    | dsimp only

theorem execAsri_ok {κ : Kept} {e st : Nat} {w : BitVec 64} {s : State} (hκ : s.Ok κ) : ∃ st' : State, execAsri e st w s = .next st' ∧ st'.Ok κ := by
  refine ⟨_, rfl, ?_⟩
  try dsimp only
  repeat' first
    | with_reducible assumption
    | with_reducible apply draw_ok
    | with_reducible apply pInstr_ok
    | with_reducible apply ite_ok
    | intro _
    | with_reducible refine okOf ?_ rfl rfl rfl rfl rfl rfl rfl rfl rfl
    | simp only [ok_mk]
    | split
    | refine okOf ?_ rfl rfl rfl rfl rfl rfl rfl rfl rfl
    | dsimp only

theorem execLsri_ok {κ : Kept} {e st : Nat} {w : BitVec 64} {s : State} (hκ : s.Ok κ) : ∃ st' : State, execLsri e st w s = .next st' ∧ st'.Ok κ := by
  refine ⟨_, rfl, ?_⟩
  try dsimp only
  repeat' first
    | with_reducible assumption
    | with_reducible apply draw_ok
    | with_reducible apply pInstr_ok
    | with_reducible apply ite_ok
    | intro _
    | with_reducible refine okOf ?_ rfl rfl rfl rfl rfl rfl rfl rfl rfl
    | simp only [ok_mk]
    | split
    | refine okOf ?_ rfl rfl rfl rfl rfl rfl rfl rfl rfl
    | dsimp only

theorem execAshv_ok {κ : Kept} {e st : Nat} {w : BitVec 64} {s : State} (hκ : s.Ok κ) : ∃ st' : State, execAshv e st w s = .next st' ∧ st'.Ok κ := by
  refine ⟨_, rfl, ?_⟩
  try dsimp only
  repeat' first
    | with_reducible assumption
    | with_reducible apply draw_ok
    | with_reducible apply pInstr_ok
    | with_reducible apply ite_ok
    | intro _
    | with_reducible refine okOf ?_ rfl rfl rfl rfl rfl rfl rfl rfl rfl
    | simp only [ok_mk]
    | split
    | refine okOf ?_ rfl rfl rfl rfl rfl rfl rfl rfl rfl
    | dsimp only

theorem execNorm_ok {κ : Kept} {e st : Nat} {w : BitVec 64} {s : State} (hκ : s.Ok κ) : ∃ st' : State, execNorm e st w s = .next st' ∧ st'.Ok κ := by
  refine ⟨_, rfl, ?_⟩
  try dsimp only
  repeat' first
    | with_reducible assumption
    | with_reducible apply pInstr_ok
    | with_reducible apply ite_ok
    | intro _
    | with_reducible refine okOf ?_ rfl rfl rfl rfl rfl rfl rfl rfl rfl
    | simp only [ok_mk]
    | split
    | refine okOf ?_ rfl rfl rfl rfl rfl rfl rfl rfl rfl
    | dsimp only

theorem execMpyd_ok {κ : Kept} {e st : Nat} {w : BitVec 64} {s : State} (hκ : s.Ok κ) : ∃ st' : State, execMpyd e st w s = .next st' ∧ st'.Ok κ := by
  refine ⟨_, rfl, ?_⟩
  try dsimp only
  repeat' first
    | with_reducible assumption
    | with_reducible apply pInstr_ok
    | with_reducible apply setConv_ok
    | with_reducible apply ite_ok
    | intro _
    | with_reducible refine okOf ?_ rfl rfl rfl rfl rfl rfl rfl rfl rfl
    | simp only [ok_mk]
    | split
    | refine okOf ?_ rfl rfl rfl rfl rfl rfl rfl rfl rfl
    | dsimp only

theorem execClamp_ok {κ : Kept} {e st : Nat} {w : BitVec 64} {s : State} (hκ : s.Ok κ) : ∃ st' : State, execClamp e st w s = .next st' ∧ st'.Ok κ := by
  refine ⟨_, rfl, ?_⟩
  try dsimp only
  repeat' first
    | with_reducible assumption
    | with_reducible apply pInstr_ok
    | with_reducible apply ite_ok
    | intro _
    | with_reducible refine okOf ?_ rfl rfl rfl rfl rfl rfl rfl rfl rfl
    | simp only [ok_mk]
    | split
    | refine okOf ?_ rfl rfl rfl rfl rfl rfl rfl rfl rfl
    | dsimp only

theorem iInstr_ok {κ : Kept} {s : State} {e st : Nat} {w : BitVec 64} {op : Nat} {ok : Bool} {f : EngRegs → EngRegs} (hκ : s.Ok κ) : (State.iInstr s e st w op ok f).Ok κ := by
  unfold State.iInstr
  try dsimp only
  repeat' first
    | with_reducible assumption
    | with_reducible apply exception_ok
    | with_reducible apply finish_ok
    | with_reducible apply issued_ok
    | with_reducible apply ite_ok
    | intro _
    | with_reducible refine okOf ?_ rfl rfl rfl rfl rfl rfl rfl rfl rfl
    | simp only [ok_mk]
    | split
    | refine okOf ?_ rfl rfl rfl rfl rfl rfl rfl rfl rfl
    | dsimp only

theorem execLdi_ok {κ : Kept} {e st : Nat} {w : BitVec 64} {s : State} (hκ : s.Ok κ) : ∃ st' : State, execLdi e st w s = .next st' ∧ st'.Ok κ := by
  refine ⟨_, rfl, ?_⟩
  try dsimp only
  repeat' first
    | with_reducible assumption
    | with_reducible apply iInstr_ok
    | with_reducible apply ite_ok
    | intro _
    | with_reducible refine okOf ?_ rfl rfl rfl rfl rfl rfl rfl rfl rfl
    | simp only [ok_mk]
    | split
    | refine okOf ?_ rfl rfl rfl rfl rfl rfl rfl rfl rfl
    | dsimp only

theorem execAddi_ok {κ : Kept} {e st : Nat} {w : BitVec 64} {s : State} (hκ : s.Ok κ) : ∃ st' : State, execAddi e st w s = .next st' ∧ st'.Ok κ := by
  refine ⟨_, rfl, ?_⟩
  try dsimp only
  repeat' first
    | with_reducible assumption
    | with_reducible apply iInstr_ok
    | with_reducible apply ite_ok
    | intro _
    | with_reducible refine okOf ?_ rfl rfl rfl rfl rfl rfl rfl rfl rfl
    | simp only [ok_mk]
    | split
    | refine okOf ?_ rfl rfl rfl rfl rfl rfl rfl rfl rfl
    | dsimp only

theorem execAndi_ok {κ : Kept} {e st : Nat} {w : BitVec 64} {s : State} (hκ : s.Ok κ) : ∃ st' : State, execAndi e st w s = .next st' ∧ st'.Ok κ := by
  refine ⟨_, rfl, ?_⟩
  try dsimp only
  repeat' first
    | with_reducible assumption
    | with_reducible apply iInstr_ok
    | with_reducible apply ite_ok
    | intro _
    | with_reducible refine okOf ?_ rfl rfl rfl rfl rfl rfl rfl rfl rfl
    | simp only [ok_mk]
    | split
    | refine okOf ?_ rfl rfl rfl rfl rfl rfl rfl rfl rfl
    | dsimp only

theorem execOri_ok {κ : Kept} {e st : Nat} {w : BitVec 64} {s : State} (hκ : s.Ok κ) : ∃ st' : State, execOri e st w s = .next st' ∧ st'.Ok κ := by
  refine ⟨_, rfl, ?_⟩
  try dsimp only
  repeat' first
    | with_reducible assumption
    | with_reducible apply iInstr_ok
    | with_reducible apply ite_ok
    | intro _
    | with_reducible refine okOf ?_ rfl rfl rfl rfl rfl rfl rfl rfl rfl
    | simp only [ok_mk]
    | split
    | refine okOf ?_ rfl rfl rfl rfl rfl rfl rfl rfl rfl
    | dsimp only

theorem execXori_ok {κ : Kept} {e st : Nat} {w : BitVec 64} {s : State} (hκ : s.Ok κ) : ∃ st' : State, execXori e st w s = .next st' ∧ st'.Ok κ := by
  refine ⟨_, rfl, ?_⟩
  try dsimp only
  repeat' first
    | with_reducible assumption
    | with_reducible apply iInstr_ok
    | with_reducible apply ite_ok
    | intro _
    | with_reducible refine okOf ?_ rfl rfl rfl rfl rfl rfl rfl rfl rfl
    | simp only [ok_mk]
    | split
    | refine okOf ?_ rfl rfl rfl rfl rfl rfl rfl rfl rfl
    | dsimp only

theorem execCmpi_ok {κ : Kept} {e st : Nat} {w : BitVec 64} {s : State} (hκ : s.Ok κ) : ∃ st' : State, execCmpi e st w s = .next st' ∧ st'.Ok κ := by
  refine ⟨_, rfl, ?_⟩
  try dsimp only
  repeat' first
    | with_reducible assumption
    | with_reducible apply iInstr_ok
    | with_reducible apply ite_ok
    | intro _
    | with_reducible refine okOf ?_ rfl rfl rfl rfl rfl rfl rfl rfl rfl
    | simp only [ok_mk]
    | split
    | refine okOf ?_ rfl rfl rfl rfl rfl rfl rfl rfl rfl
    | dsimp only

theorem execLdai_ok {κ : Kept} {e st : Nat} {w : BitVec 64} {s : State} (hκ : s.Ok κ) : ∃ st' : State, execLdai e st w s = .next st' ∧ st'.Ok κ := by
  refine ⟨_, rfl, ?_⟩
  try dsimp only
  repeat' first
    | with_reducible assumption
    | with_reducible apply iInstr_ok
    | with_reducible apply ite_ok
    | intro _
    | with_reducible refine okOf ?_ rfl rfl rfl rfl rfl rfl rfl rfl rfl
    | simp only [ok_mk]
    | split
    | refine okOf ?_ rfl rfl rfl rfl rfl rfl rfl rfl rfl
    | dsimp only

theorem execLdmi_ok {κ : Kept} {e st : Nat} {w : BitVec 64} {s : State} (hκ : s.Ok κ) : ∃ st' : State, execLdmi e st w s = .next st' ∧ st'.Ok κ := by
  refine ⟨_, rfl, ?_⟩
  try dsimp only
  repeat' first
    | with_reducible assumption
    | with_reducible apply iInstr_ok
    | with_reducible apply ite_ok
    | intro _
    | with_reducible refine okOf ?_ rfl rfl rfl rfl rfl rfl rfl rfl rfl
    | simp only [ok_mk]
    | split
    | refine okOf ?_ rfl rfl rfl rfl rfl rfl rfl rfl rfl
    | dsimp only

theorem execLdbi_ok {κ : Kept} {e st : Nat} {w : BitVec 64} {s : State} (hκ : s.Ok κ) : ∃ st' : State, execLdbi e st w s = .next st' ∧ st'.Ok κ := by
  refine ⟨_, rfl, ?_⟩
  try dsimp only
  repeat' first
    | with_reducible assumption
    | with_reducible apply iInstr_ok
    | with_reducible apply ite_ok
    | intro _
    | with_reducible refine okOf ?_ rfl rfl rfl rfl rfl rfl rfl rfl rfl
    | simp only [ok_mk]
    | split
    | refine okOf ?_ rfl rfl rfl rfl rfl rfl rfl rfl rfl
    | dsimp only

theorem execLdli_ok {κ : Kept} {e st : Nat} {w : BitVec 64} {s : State} (hκ : s.Ok κ) : ∃ st' : State, execLdli e st w s = .next st' ∧ st'.Ok κ := by
  refine ⟨_, rfl, ?_⟩
  try dsimp only
  repeat' first
    | with_reducible assumption
    | with_reducible apply iInstr_ok
    | with_reducible apply ite_ok
    | intro _
    | with_reducible refine okOf ?_ rfl rfl rfl rfl rfl rfl rfl rfl rfl
    | simp only [ok_mk]
    | split
    | refine okOf ?_ rfl rfl rfl rfl rfl rfl rfl rfl rfl
    | dsimp only

theorem execAddai_ok {κ : Kept} {e st : Nat} {w : BitVec 64} {s : State} (hκ : s.Ok κ) : ∃ st' : State, execAddai e st w s = .next st' ∧ st'.Ok κ := by
  refine ⟨_, rfl, ?_⟩
  try dsimp only
  repeat' first
    | with_reducible assumption
    | with_reducible apply iInstr_ok
    | with_reducible apply ite_ok
    | intro _
    | with_reducible refine okOf ?_ rfl rfl rfl rfl rfl rfl rfl rfl rfl
    | simp only [ok_mk]
    | split
    | refine okOf ?_ rfl rfl rfl rfl rfl rfl rfl rfl rfl
    | dsimp only

theorem execTfr_ok {κ : Kept} {e st : Nat} {w : BitVec 64} {s : State} (hκ : s.Ok κ) : ∃ st' : State, execTfr e st w s = .next st' ∧ st'.Ok κ := by
  refine ⟨_, rfl, ?_⟩
  try dsimp only
  repeat' first
    | with_reducible assumption
    | with_reducible apply iInstr_ok
    | with_reducible apply ite_ok
    | intro _
    | with_reducible refine okOf ?_ rfl rfl rfl rfl rfl rfl rfl rfl rfl
    | simp only [ok_mk]
    | split
    | refine okOf ?_ rfl rfl rfl rfl rfl rfl rfl rfl rfl
    | dsimp only

theorem execSetf_ok {κ : Kept} {e st : Nat} {w : BitVec 64} {s : State} (hκ : s.Ok κ) : ∃ st' : State, execSetf e st w s = .next st' ∧ st'.Ok κ := by
  refine ⟨_, rfl, ?_⟩
  try dsimp only
  repeat' first
    | with_reducible assumption
    | with_reducible apply iInstr_ok
    | with_reducible apply ite_ok
    | intro _
    | with_reducible refine okOf ?_ rfl rfl rfl rfl rfl rfl rfl rfl rfl
    | simp only [ok_mk]
    | split
    | refine okOf ?_ rfl rfl rfl rfl rfl rfl rfl rfl rfl
    | dsimp only

theorem execClrf_ok {κ : Kept} {e st : Nat} {w : BitVec 64} {s : State} (hκ : s.Ok κ) : ∃ st' : State, execClrf e st w s = .next st' ∧ st'.Ok κ := by
  refine ⟨_, rfl, ?_⟩
  try dsimp only
  repeat' first
    | with_reducible assumption
    | with_reducible apply iInstr_ok
    | with_reducible apply ite_ok
    | intro _
    | with_reducible refine okOf ?_ rfl rfl rfl rfl rfl rfl rfl rfl rfl
    | simp only [ok_mk]
    | split
    | refine okOf ?_ rfl rfl rfl rfl rfl rfl rfl rfl rfl
    | dsimp only

theorem cInstr_ok {κ : Kept} {s : State} {e st : Nat} {w : BitVec 64} {op : Nat} {ok : Bool} {cause : EngRegs → Nat} {f : State → EngRegs → State} (hκ : s.Ok κ) (hf : ∀ (t : State) z0, t.Ok κ → (f t z0).Ok κ) : (State.cInstr s e st w op ok cause f).Ok κ := by
  unfold State.cInstr
  try dsimp only
  repeat' first
    | with_reducible assumption
    | with_reducible apply cause_ok
    | with_reducible apply exception_ok
    | with_reducible apply issued_ok
    | with_reducible apply hf
    | with_reducible apply ite_ok
    | intro _
    | with_reducible refine okOf ?_ rfl rfl rfl rfl rfl rfl rfl rfl rfl
    | simp only [ok_mk]
    | split
    | refine okOf ?_ rfl rfl rfl rfl rfl rfl rfl rfl rfl
    | dsimp only

theorem jump_ok {κ : Kept} {s : State} {e : Nat} {r : EngRegs} {t : BitVec 13} (hκ : s.Ok κ) : (State.jump s e r t).Ok κ := by
  unfold State.jump
  try dsimp only
  repeat' first
    | with_reducible assumption
    | with_reducible apply extraCyc_ok
    | with_reducible apply retire_ok
    | with_reducible apply ite_ok
    | intro _
    | with_reducible refine okOf ?_ rfl rfl rfl rfl rfl rfl rfl rfl rfl
    | simp only [ok_mk]
    | split
    | refine okOf ?_ rfl rfl rfl rfl rfl rfl rfl rfl rfl
    | dsimp only

theorem fall_ok {κ : Kept} {s : State} {e : Nat} {r : EngRegs} (hκ : s.Ok κ) : (State.fall s e r).Ok κ := by
  unfold State.fall
  try dsimp only
  repeat' first
    | with_reducible assumption
    | with_reducible apply retire_ok
    | with_reducible apply ite_ok
    | intro _
    | with_reducible refine okOf ?_ rfl rfl rfl rfl rfl rfl rfl rfl rfl
    | simp only [ok_mk]
    | split
    | refine okOf ?_ rfl rfl rfl rfl rfl rfl rfl rfl rfl
    | dsimp only

theorem execBra_ok {κ : Kept} {e st : Nat} {w : BitVec 64} {s : State} (hκ : s.Ok κ) : ∃ st' : State, execBra e st w s = .next st' ∧ st'.Ok κ := by
  refine ⟨_, rfl, ?_⟩
  try dsimp only
  repeat' first
    | with_reducible assumption
    | with_reducible apply cInstr_ok
    | with_reducible apply fall_ok
    | with_reducible apply jump_ok
    | with_reducible apply ite_ok
    | intro _
    | with_reducible refine okOf ?_ rfl rfl rfl rfl rfl rfl rfl rfl rfl
    | simp only [ok_mk]
    | split
    | refine okOf ?_ rfl rfl rfl rfl rfl rfl rfl rfl rfl
    | dsimp only

theorem execCall_ok {κ : Kept} {e st : Nat} {w : BitVec 64} {s : State} (hκ : s.Ok κ) : ∃ st' : State, execCall e st w s = .next st' ∧ st'.Ok κ := by
  refine ⟨_, rfl, ?_⟩
  try dsimp only
  repeat' first
    | with_reducible assumption
    | with_reducible apply cInstr_ok
    | with_reducible apply fall_ok
    | with_reducible apply jump_ok
    | with_reducible apply ite_ok
    | intro _
    | with_reducible refine okOf ?_ rfl rfl rfl rfl rfl rfl rfl rfl rfl
    | simp only [ok_mk]
    | split
    | refine okOf ?_ rfl rfl rfl rfl rfl rfl rfl rfl rfl
    | dsimp only

theorem execRet_ok {κ : Kept} {e st : Nat} {w : BitVec 64} {s : State} (hκ : s.Ok κ) : ∃ st' : State, execRet e st w s = .next st' ∧ st'.Ok κ := by
  refine ⟨_, rfl, ?_⟩
  try dsimp only
  repeat' first
    | with_reducible assumption
    | with_reducible apply cInstr_ok
    | with_reducible apply fall_ok
    | with_reducible apply jump_ok
    | with_reducible apply ite_ok
    | intro _
    | with_reducible refine okOf ?_ rfl rfl rfl rfl rfl rfl rfl rfl rfl
    | simp only [ok_mk]
    | split
    | refine okOf ?_ rfl rfl rfl rfl rfl rfl rfl rfl rfl
    | dsimp only

theorem startLoop_ok {κ : Kept} {s : State} {e : Nat} {r : EngRegs} {target : BitVec 13} {count : Nat} (hκ : s.Ok κ) : (State.startLoop s e r target count).Ok κ := by
  unfold State.startLoop
  try dsimp only
  repeat' first
    | with_reducible assumption
    | with_reducible apply jump_ok
    | with_reducible apply retire_ok
    | with_reducible apply start_ok
    | with_reducible apply ite_ok
    | intro _
    | with_reducible refine okOf ?_ rfl rfl rfl rfl rfl rfl rfl rfl rfl
    | simp only [ok_mk]
    | split
    | refine okOf ?_ rfl rfl rfl rfl rfl rfl rfl rfl rfl
    | dsimp only

theorem execLoop_ok {κ : Kept} {e st : Nat} {w : BitVec 64} {s : State} (hκ : s.Ok κ) : ∃ st' : State, execLoop e st w s = .next st' ∧ st'.Ok κ := by
  refine ⟨_, rfl, ?_⟩
  try dsimp only
  repeat' first
    | with_reducible assumption
    | with_reducible apply cInstr_ok
    | with_reducible apply startLoop_ok
    | with_reducible apply ite_ok
    | intro _
    | with_reducible refine okOf ?_ rfl rfl rfl rfl rfl rfl rfl rfl rfl
    | simp only [ok_mk]
    | split
    | refine okOf ?_ rfl rfl rfl rfl rfl rfl rfl rfl rfl
    | dsimp only

theorem execLoopd_ok {κ : Kept} {e st : Nat} {w : BitVec 64} {s : State} (hκ : s.Ok κ) : ∃ st' : State, execLoopd e st w s = .next st' ∧ st'.Ok κ := by
  refine ⟨_, rfl, ?_⟩
  try dsimp only
  repeat' first
    | with_reducible assumption
    | with_reducible apply cInstr_ok
    | with_reducible apply startLoop_ok
    | with_reducible apply ite_ok
    | intro _
    | with_reducible refine okOf ?_ rfl rfl rfl rfl rfl rfl rfl rfl rfl
    | simp only [ok_mk]
    | split
    | refine okOf ?_ rfl rfl rfl rfl rfl rfl rfl rfl rfl
    | dsimp only

theorem signalDone_ok {κ : Kept} {s : State} {i : Inst} (hκ : s.Ok κ) : (State.signalDone s i).Ok κ := by
  unfold State.signalDone
  try dsimp only
  repeat' first
    | with_reducible assumption
    | with_reducible apply done_ok
    | with_reducible apply ite_ok
    | intro _
    | with_reducible refine okOf ?_ rfl rfl rfl rfl rfl rfl rfl rfl rfl
    | simp only [ok_mk]
    | split
    | refine okOf ?_ rfl rfl rfl rfl rfl rfl rfl rfl rfl
    | dsimp only

theorem execDone_ok {κ : Kept} {e st t : Nat} {w : BitVec 64} {s : State} (hκ : s.Ok κ) : ∃ st' : State, execDone e st t w s = .next st' ∧ st'.Ok κ := by
  refine ⟨_, rfl, ?_⟩
  try dsimp only
  repeat' first
    | with_reducible assumption
    | with_reducible apply cInstr_ok
    | with_reducible apply raiseAs_ok
    | with_reducible apply retire_ok
    | with_reducible apply setL_ok
    | with_reducible apply signalDone_ok
    | with_reducible apply taskEnd_ok
    | with_reducible apply toC_ok
    | with_reducible apply ite_ok
    | intro _
    | with_reducible refine okOf ?_ rfl rfl rfl rfl rfl rfl rfl rfl rfl
    | simp only [ok_mk]
    | split
    | refine okOf ?_ rfl rfl rfl rfl rfl rfl rfl rfl rfl
    | dsimp only

theorem plainC_ok {κ : Kept} {s : State} {e st : Nat} {w : BitVec 64} {op : Nat} {ok : Bool} {f : State → State} (hκ : s.Ok κ) (hf : ∀ (t : State), t.Ok κ → (f t).Ok κ) : (State.plainC s e st w op ok f).Ok κ := by
  unfold State.plainC
  try dsimp only
  repeat' first
    | with_reducible assumption
    | with_reducible apply exception_ok
    | with_reducible apply finish_ok
    | with_reducible apply issued_ok
    | with_reducible apply hf
    | with_reducible apply ite_ok
    | intro _
    | with_reducible refine okOf ?_ rfl rfl rfl rfl rfl rfl rfl rfl rfl
    | simp only [ok_mk]
    | split
    | refine okOf ?_ rfl rfl rfl rfl rfl rfl rfl rfl rfl
    | dsimp only

theorem execSync_ok {κ : Kept} {e st : Nat} {w : BitVec 64} {s : State} (hκ : s.Ok κ) : ∃ st' : State, execSync e st w s = .next st' ∧ st'.Ok κ := by
  refine ⟨_, rfl, ?_⟩
  try dsimp only
  repeat' first
    | with_reducible assumption
    | with_reducible apply drainStores_ok
    | with_reducible apply plainC_ok
    | with_reducible apply ite_ok
    | intro _
    | with_reducible refine okOf ?_ rfl rfl rfl rfl rfl rfl rfl rfl rfl
    | simp only [ok_mk]
    | split
    | refine okOf ?_ rfl rfl rfl rfl rfl rfl rfl rfl rfl
    | dsimp only

theorem execTrap_ok {κ : Kept} {e st : Nat} {w : BitVec 64} {s : State} (hκ : s.Ok κ) : ∃ st' : State, execTrap e st w s = .next st' ∧ st'.Ok κ := by
  refine ⟨_, rfl, ?_⟩
  try dsimp only
  repeat' first
    | with_reducible assumption
    | with_reducible apply exception_ok
    | with_reducible apply issued_ok
    | with_reducible apply ite_ok
    | intro _
    | with_reducible refine okOf ?_ rfl rfl rfl rfl rfl rfl rfl rfl rfl
    | simp only [ok_mk]
    | split
    | refine okOf ?_ rfl rfl rfl rfl rfl rfl rfl rfl rfl
    | dsimp only

theorem execBkpt_ok {κ : Kept} {e st : Nat} {w : BitVec 64} {s : State} (hκ : s.Ok κ) : ∃ st' : State, execBkpt e st w s = .next st' ∧ st'.Ok κ := by
  refine ⟨_, rfl, ?_⟩
  try dsimp only
  repeat' first
    | with_reducible assumption
    | with_reducible apply plainC_ok
    | with_reducible apply setEng_ok
    | with_reducible apply ite_ok
    | intro _
    | with_reducible refine okOf ?_ rfl rfl rfl rfl rfl rfl rfl rfl rfl
    | simp only [ok_mk]
    | split
    | refine okOf ?_ rfl rfl rfl rfl rfl rfl rfl rfl rfl
    | dsimp only

theorem execRegfileParityError_ok {κ : Kept} {e : Nat} {s : State} (hκ : s.Ok κ) : ∃ st' : State, execRegfileParityError e s = .next st' ∧ st'.Ok κ := by
  refine ⟨_, rfl, ?_⟩
  try dsimp only
  repeat' first
    | with_reducible assumption
    | with_reducible apply exception_ok
    | with_reducible apply raiseAs_ok
    | with_reducible apply ite_ok
    | intro _
    | with_reducible refine okOf ?_ rfl rfl rfl rfl rfl rfl rfl rfl rfl
    | simp only [ok_mk]
    | split
    | refine okOf ?_ rfl rfl rfl rfl rfl rfl rfl rfl rfl
    | dsimp only

end Sys2Proof.Machine
end

