-- ==== Sys2Proof/Laws/KeepsPorts.lean ====
section
/-! SUPPORT. The operations of Ports.lean keep what Keeps.lean names. -/
namespace Sys2Proof.Machine
set_option linter.all false

theorem outInstr_ok {κ : Kept} {s : State} {e st : Nat} {w : BitVec 64} {has : Nat → Bool} {f : Nat → State → Word → State × Bool} (hκ : s.Ok κ) (hf : ∀ y0 (t : State) z0, t.Ok κ → (f y0 t z0).1.Ok κ) : (State.outInstr s e st w has f).Ok κ := by
  unfold State.outInstr
  try dsimp only
  repeat' first
    | with_reducible assumption
    | with_reducible apply exception_ok
    | with_reducible apply finish_ok
    | with_reducible apply issued_ok
    | with_reducible apply hf
    | with_reducible apply ite_ok
    | intro _
    | with_reducible refine okOf ?_ rfl rfl rfl rfl rfl rfl rfl rfl rfl
    | simp only [ok_mk]
    | split
    | refine okOf ?_ rfl rfl rfl rfl rfl rfl rfl rfl rfl
    | dsimp only

theorem inInstr_ok {κ : Kept} {s : State} {e st : Nat} {w : BitVec 64} {has : Nat → Bool} {f : Nat → State → State × Word × Bool} (hκ : s.Ok κ) (hf : ∀ y0 (t : State), t.Ok κ → (f y0 t).1.Ok κ) : (State.inInstr s e st w has f).Ok κ := by
  unfold State.inInstr
  try dsimp only
  repeat' first
    | with_reducible assumption
    | with_reducible apply exception_ok
    | with_reducible apply finish_ok
    | with_reducible apply issued_ok
    | with_reducible apply hf
    | with_reducible apply ite_ok
    | intro _
    | with_reducible refine okOf ?_ rfl rfl rfl rfl rfl rfl rfl rfl rfl
    | simp only [ok_mk]
    | split
    | refine okOf ?_ rfl rfl rfl rfl rfl rfl rfl rfl rfl
    | dsimp only

theorem portWrite_ok {κ : Kept} {s : State} {key : Nat} {v : Word} {eff : State → WOut} (hκ : s.Ok κ) (heff : ∀ (t : State), t.Ok κ → (eff t).1.Ok κ) : (State.portWrite s key v eff).1.Ok κ := by
  unfold State.portWrite
  try dsimp only
  repeat' first
    | with_reducible assumption
    | with_reducible apply tryWrite_ok
    | with_reducible apply heff
    | with_reducible apply ite_ok
    | intro _
    | with_reducible refine okOf ?_ rfl rfl rfl rfl rfl rfl rfl rfl rfl
    | simp only [ok_mk]
    | split
    | refine okOf ?_ rfl rfl rfl rfl rfl rfl rfl rfl rfl
    | dsimp only

theorem execOutArmRef_ok {κ : Kept} {e st : Nat} {w : BitVec 64} {s : State} (hκ : s.Ok κ) : ∃ st' : State, execOutArmRef e st w s = .next st' ∧ st'.Ok κ := by
  refine ⟨_, rfl, ?_⟩
  try dsimp only
  repeat' first
    | with_reducible assumption
    | with_reducible apply outInstr_ok
    | with_reducible apply portWrite_ok
    | with_reducible apply wrArmRef_ok
    | with_reducible apply ite_ok
    | intro _
    | with_reducible refine okOf ?_ rfl rfl rfl rfl rfl rfl rfl rfl rfl
    | simp only [ok_mk]
    | split
    | refine okOf ?_ rfl rfl rfl rfl rfl rfl rfl rfl rfl
    | dsimp only

theorem execOutSelIdirFw_ok {κ : Kept} {e st : Nat} {w : BitVec 64} {s : State} (hκ : s.Ok κ) : ∃ st' : State, execOutSelIdirFw e st w s = .next st' ∧ st'.Ok κ := by
  refine ⟨_, rfl, ?_⟩
  try dsimp only
  repeat' first
    | with_reducible assumption
    | with_reducible apply done_ok
    | with_reducible apply outInstr_ok
    | with_reducible apply portWrite_ok
    | with_reducible apply setL_ok
    | with_reducible apply ite_ok
    | intro _
    | with_reducible refine okOf ?_ rfl rfl rfl rfl rfl rfl rfl rfl rfl
    | simp only [ok_mk]
    | split
    | refine okOf ?_ rfl rfl rfl rfl rfl rfl rfl rfl rfl
    | dsimp only

theorem execOutRtReq_ok {κ : Kept} {e st : Nat} {w : BitVec 64} {s : State} (hκ : s.Ok κ) : ∃ st' : State, execOutRtReq e st w s = .next st' ∧ st'.Ok κ := by
  refine ⟨_, rfl, ?_⟩
  try dsimp only
  repeat' first
    | with_reducible assumption
    | with_reducible apply outInstr_ok
    | with_reducible apply portWrite_ok
    | with_reducible apply wrRtReq_ok
    | with_reducible apply ite_ok
    | intro _
    | with_reducible refine okOf ?_ rfl rfl rfl rfl rfl rfl rfl rfl rfl
    | simp only [ok_mk]
    | split
    | refine okOf ?_ rfl rfl rfl rfl rfl rfl rfl rfl rfl
    | dsimp only

theorem execOutBeaconSend_ok {κ : Kept} {e st : Nat} {w : BitVec 64} {s : State} (hκ : s.Ok κ) : ∃ st' : State, execOutBeaconSend e st w s = .next st' ∧ st'.Ok κ := by
  refine ⟨_, rfl, ?_⟩
  try dsimp only
  repeat' first
    | with_reducible assumption
    | with_reducible apply outInstr_ok
    | with_reducible apply portWrite_ok
    | with_reducible apply wrBeaconSend_ok
    | with_reducible apply ite_ok
    | intro _
    | with_reducible refine okOf ?_ rfl rfl rfl rfl rfl rfl rfl rfl rfl
    | simp only [ok_mk]
    | split
    | refine okOf ?_ rfl rfl rfl rfl rfl rfl rfl rfl rfl
    | dsimp only

theorem execOutProbe_ok {κ : Kept} {e st : Nat} {w : BitVec 64} {s : State} (hκ : s.Ok κ) : ∃ st' : State, execOutProbe e st w s = .next st' ∧ st'.Ok κ := by
  refine ⟨_, rfl, ?_⟩
  try dsimp only
  repeat' first
    | with_reducible assumption
    | with_reducible apply outInstr_ok
    | with_reducible apply ite_ok
    | intro _
    | with_reducible refine okOf ?_ rfl rfl rfl rfl rfl rfl rfl rfl rfl
    | simp only [ok_mk]
    | split
    | refine okOf ?_ rfl rfl rfl rfl rfl rfl rfl rfl rfl
    | dsimp only

theorem execOutSem_ok {κ : Kept} {e st : Nat} {w : BitVec 64} {s : State} (hκ : s.Ok κ) : ∃ st' : State, execOutSem e st w s = .next st' ∧ st'.Ok κ := by
  refine ⟨_, rfl, ?_⟩
  try dsimp only
  repeat' first
    | with_reducible assumption
    | with_reducible apply outInstr_ok
    | with_reducible apply ite_ok
    | intro _
    | with_reducible refine okOf ?_ rfl rfl rfl rfl rfl rfl rfl rfl rfl
    | simp only [ok_mk]
    | split
    | refine okOf ?_ rfl rfl rfl rfl rfl rfl rfl rfl rfl
    | dsimp only

theorem execInSem_ok {κ : Kept} {e st : Nat} {w : BitVec 64} {s : State} (hκ : s.Ok κ) : ∃ st' : State, execInSem e st w s = .next st' ∧ st'.Ok κ := by
  refine ⟨_, rfl, ?_⟩
  try dsimp only
  repeat' first
    | with_reducible assumption
    | with_reducible apply inInstr_ok
    | with_reducible apply ite_ok
    | intro _
    | with_reducible refine okOf ?_ rfl rfl rfl rfl rfl rfl rfl rfl rfl
    | simp only [ok_mk]
    | split
    | refine okOf ?_ rfl rfl rfl rfl rfl rfl rfl rfl rfl
    | dsimp only

theorem execOutTaskRelease_ok {κ : Kept} {e st : Nat} {w : BitVec 64} {s : State} (hκ : s.Ok κ) : ∃ st' : State, execOutTaskRelease e st w s = .next st' ∧ st'.Ok κ := by
  refine ⟨_, rfl, ?_⟩
  try dsimp only
  repeat' first
    | with_reducible assumption
    | with_reducible apply outInstr_ok
    | with_reducible apply softRelease_ok
    | with_reducible apply ite_ok
    | intro _
    | with_reducible refine okOf ?_ rfl rfl rfl rfl rfl rfl rfl rfl rfl
    | simp only [ok_mk]
    | split
    | refine okOf ?_ rfl rfl rfl rfl rfl rfl rfl rfl rfl
    | dsimp only

theorem execOutDictSel_ok {κ : Kept} {e st : Nat} {w : BitVec 64} {s : State} (hκ : s.Ok κ) : ∃ st' : State, execOutDictSel e st w s = .next st' ∧ st'.Ok κ := by
  refine ⟨_, rfl, ?_⟩
  try dsimp only
  repeat' first
    | with_reducible assumption
    | with_reducible apply outInstr_ok
    | with_reducible apply setEng_ok
    | with_reducible apply ite_ok
    | intro _
    | with_reducible refine okOf ?_ rfl rfl rfl rfl rfl rfl rfl rfl rfl
    | simp only [ok_mk]
    | split
    | refine okOf ?_ rfl rfl rfl rfl rfl rfl rfl rfl rfl
    | dsimp only

theorem execInDictResult_ok {κ : Kept} {e st : Nat} {w : BitVec 64} {s : State} (hκ : s.Ok κ) : ∃ st' : State, execInDictResult e st w s = .next st' ∧ st'.Ok κ := by
  refine ⟨_, rfl, ?_⟩
  try dsimp only
  repeat' first
    | with_reducible assumption
    | with_reducible apply inInstr_ok
    | with_reducible apply ite_ok
    | intro _
    | with_reducible refine okOf ?_ rfl rfl rfl rfl rfl rfl rfl rfl rfl
    | simp only [ok_mk]
    | split
    | refine okOf ?_ rfl rfl rfl rfl rfl rfl rfl rfl rfl
    | dsimp only

theorem execInFrameCountLo_ok {κ : Kept} {e st : Nat} {w : BitVec 64} {s : State} (hκ : s.Ok κ) : ∃ st' : State, execInFrameCountLo e st w s = .next st' ∧ st'.Ok κ := by
  refine ⟨_, rfl, ?_⟩
  try dsimp only
  repeat' first
    | with_reducible assumption
    | with_reducible apply inInstr_ok
    | with_reducible apply latchHigh_ok
    | with_reducible apply ite_ok
    | intro _
    | with_reducible refine okOf ?_ rfl rfl rfl rfl rfl rfl rfl rfl rfl
    | simp only [ok_mk]
    | split
    | refine okOf ?_ rfl rfl rfl rfl rfl rfl rfl rfl rfl
    | dsimp only

theorem execInFrameCountHi_ok {κ : Kept} {e st : Nat} {w : BitVec 64} {s : State} (hκ : s.Ok κ) : ∃ st' : State, execInFrameCountHi e st w s = .next st' ∧ st'.Ok κ := by
  refine ⟨_, rfl, ?_⟩
  try dsimp only
  repeat' first
    | with_reducible assumption
    | with_reducible apply inInstr_ok
    | with_reducible apply useHigh_ok
    | with_reducible apply ite_ok
    | intro _
    | with_reducible refine okOf ?_ rfl rfl rfl rfl rfl rfl rfl rfl rfl
    | simp only [ok_mk]
    | split
    | refine okOf ?_ rfl rfl rfl rfl rfl rfl rfl rfl rfl
    | dsimp only

theorem execInCtimeLo_ok {κ : Kept} {e st : Nat} {w : BitVec 64} {s : State} (hκ : s.Ok κ) : ∃ st' : State, execInCtimeLo e st w s = .next st' ∧ st'.Ok κ := by
  refine ⟨_, rfl, ?_⟩
  try dsimp only
  repeat' first
    | with_reducible assumption
    | with_reducible apply inInstr_ok
    | with_reducible apply latchHigh_ok
    | with_reducible apply ite_ok
    | intro _
    | with_reducible refine okOf ?_ rfl rfl rfl rfl rfl rfl rfl rfl rfl
    | simp only [ok_mk]
    | split
    | refine okOf ?_ rfl rfl rfl rfl rfl rfl rfl rfl rfl
    | dsimp only

theorem execInCtimeHi_ok {κ : Kept} {e st : Nat} {w : BitVec 64} {s : State} (hκ : s.Ok κ) : ∃ st' : State, execInCtimeHi e st w s = .next st' ∧ st'.Ok κ := by
  refine ⟨_, rfl, ?_⟩
  try dsimp only
  repeat' first
    | with_reducible assumption
    | with_reducible apply inInstr_ok
    | with_reducible apply useHigh_ok
    | with_reducible apply ite_ok
    | intro _
    | with_reducible refine okOf ?_ rfl rfl rfl rfl rfl rfl rfl rfl rfl
    | simp only [ok_mk]
    | split
    | refine okOf ?_ rfl rfl rfl rfl rfl rfl rfl rfl rfl
    | dsimp only

theorem execInEngineId_ok {κ : Kept} {e st : Nat} {w : BitVec 64} {s : State} (hκ : s.Ok κ) : ∃ st' : State, execInEngineId e st w s = .next st' ∧ st'.Ok κ := by
  refine ⟨_, rfl, ?_⟩
  try dsimp only
  repeat' first
    | with_reducible assumption
    | with_reducible apply inInstr_ok
    | with_reducible apply ite_ok
    | intro _
    | with_reducible refine okOf ?_ rfl rfl rfl rfl rfl rfl rfl rfl rfl
    | simp only [ok_mk]
    | split
    | refine okOf ?_ rfl rfl rfl rfl rfl rfl rfl rfl rfl
    | dsimp only

theorem execInTaskId_ok {κ : Kept} {e st : Nat} {w : BitVec 64} {s : State} (hκ : s.Ok κ) : ∃ st' : State, execInTaskId e st w s = .next st' ∧ st'.Ok κ := by
  refine ⟨_, rfl, ?_⟩
  try dsimp only
  repeat' first
    | with_reducible assumption
    | with_reducible apply inInstr_ok
    | with_reducible apply ite_ok
    | intro _
    | with_reducible refine okOf ?_ rfl rfl rfl rfl rfl rfl rfl rfl rfl
    | simp only [ok_mk]
    | split
    | refine okOf ?_ rfl rfl rfl rfl rfl rfl rfl rfl rfl
    | dsimp only

theorem execInTaskCycles_ok {κ : Kept} {e st : Nat} {w : BitVec 64} {s : State} (hκ : s.Ok κ) : ∃ st' : State, execInTaskCycles e st w s = .next st' ∧ st'.Ok κ := by
  refine ⟨_, rfl, ?_⟩
  try dsimp only
  repeat' first
    | with_reducible assumption
    | with_reducible apply inInstr_ok
    | with_reducible apply ite_ok
    | intro _
    | with_reducible refine okOf ?_ rfl rfl rfl rfl rfl rfl rfl rfl rfl
    | simp only [ok_mk]
    | split
    | refine okOf ?_ rfl rfl rfl rfl rfl rfl rfl rfl rfl
    | dsimp only

theorem execInUnlistedPort_ok {κ : Kept} {e st : Nat} {w : BitVec 64} {s : State} (hκ : s.Ok κ) : ∃ st' : State, execInUnlistedPort e st w s = .next st' ∧ st'.Ok κ := by
  refine ⟨_, rfl, ?_⟩
  try dsimp only
  repeat' first
    | with_reducible assumption
    | with_reducible apply inInstr_ok
    | with_reducible apply ite_ok
    | intro _
    | with_reducible refine okOf ?_ rfl rfl rfl rfl rfl rfl rfl rfl rfl
    | simp only [ok_mk]
    | split
    | refine okOf ?_ rfl rfl rfl rfl rfl rfl rfl rfl rfl
    | dsimp only

theorem execOutUnlistedPort_ok {κ : Kept} {e st : Nat} {w : BitVec 64} {s : State} (hκ : s.Ok κ) : ∃ st' : State, execOutUnlistedPort e st w s = .next st' ∧ st'.Ok κ := by
  refine ⟨_, rfl, ?_⟩
  try dsimp only
  repeat' first
    | with_reducible assumption
    | with_reducible apply outInstr_ok
    | with_reducible apply ite_ok
    | intro _
    | with_reducible refine okOf ?_ rfl rfl rfl rfl rfl rfl rfl rfl rfl
    | simp only [ok_mk]
    | split
    | refine okOf ?_ rfl rfl rfl rfl rfl rfl rfl rfl rfl
    | dsimp only

theorem progWrite_ok {κ : Kept} {s : State} {e i : Nat} {hi : Bool} {v : Word} (hκ : s.Ok κ) : (State.progWrite s e i hi v).Ok κ := by
  unfold State.progWrite
  try dsimp only
  repeat' first
    | with_reducible assumption
    | with_reducible apply incL_ok
    | with_reducible apply wrW_ok
    | with_reducible apply ite_ok
    | intro _
    | with_reducible refine okOf ?_ rfl rfl rfl rfl rfl rfl rfl rfl rfl
    | simp only [ok_mk]
    | split
    | refine okOf ?_ rfl rfl rfl rfl rfl rfl rfl rfl rfl
    | dsimp only

theorem execProgMemWrite_ok {κ : Kept} {e : Fin 8} {i : BitVec 13} {hi : Bool} {v : Word} {s : State} (hκ : s.Ok κ) : ∃ st' : State, execProgMemWrite e i hi v s = .next st' ∧ st'.Ok κ := by
  refine ⟨_, rfl, ?_⟩
  try dsimp only
  repeat' first
    | with_reducible assumption
    | with_reducible apply hostRetire_ok
    | with_reducible apply progWrite_ok
    | with_reducible apply ite_ok
    | intro _
    | with_reducible refine okOf ?_ rfl rfl rfl rfl rfl rfl rfl rfl rfl
    | simp only [ok_mk]
    | split
    | refine okOf ?_ rfl rfl rfl rfl rfl rfl rfl rfl rfl
    | dsimp only

end Sys2Proof.Machine
end

