-- ==== Sys2Proof/Laws/KeepsFrameOps.lean ====
section
/-! SUPPORT. The operations of FrameOps.lean keep what Keeps.lean names. -/
namespace Sys2Proof.Machine
set_option linter.all false

theorem setSnap_ok {κ : Kept} {s : State} {k : Nat} {f : Snap → Snap} (hκ : s.Ok κ) : (State.setSnap s k f).Ok κ := by
  unfold State.setSnap
  try dsimp only
  repeat' first
    | with_reducible assumption
    | with_reducible apply ite_ok
    | intro _
    | with_reducible refine okOf ?_ rfl rfl rfl rfl rfl rfl rfl rfl rfl
    | simp only [ok_mk]
    | split
    | refine okOf ?_ rfl rfl rfl rfl rfl rfl rfl rfl rfl
    | dsimp only

end Sys2Proof.Machine
end

