-- ==== Sys2Proof/Laws/KeepsAids.lean ====
section
/-! SUPPORT. The operations of Aids.lean keep what Keeps.lean names. -/
namespace Sys2Proof.Machine
set_option linter.all false

theorem stickyCycle_ok {κ : Kept} {s : State} (hκ : s.Ok κ) : (State.stickyCycle s).Ok κ := by
  unfold State.stickyCycle
  try dsimp only
  repeat' first
    | with_reducible assumption
    | with_reducible apply ite_ok
    | intro _
    | with_reducible refine okOf ?_ rfl rfl rfl rfl rfl rfl rfl rfl rfl
    | simp only [ok_mk]
    | split
    | refine okOf ?_ rfl rfl rfl rfl rfl rfl rfl rfl rfl
    | dsimp only

theorem aidsSet_ok {κ : Kept} {s : State} {b : Nat} (hκ : s.Ok κ) : (State.aidsSet s b).Ok κ := by
  unfold State.aidsSet
  try dsimp only
  repeat' first
    | with_reducible assumption
    | with_reducible apply raiseAs_ok
    | with_reducible apply setL_ok
    | with_reducible apply stickyCycle_ok
    | with_reducible apply ite_ok
    | intro _
    | with_reducible refine okOf ?_ rfl rfl rfl rfl rfl rfl rfl rfl rfl
    | simp only [ok_mk]
    | split
    | refine okOf ?_ rfl rfl rfl rfl rfl rfl rfl rfl rfl
    | dsimp only

theorem aidsIf_ok {κ : Kept} {s : State} {c : Bool} {b : Nat} (hκ : s.Ok κ) : (State.aidsIf s c b).Ok κ := by
  unfold State.aidsIf
  try dsimp only
  repeat' first
    | with_reducible assumption
    | with_reducible apply aidsSet_ok
    | with_reducible apply ite_ok
    | intro _
    | with_reducible refine okOf ?_ rfl rfl rfl rfl rfl rfl rfl rfl rfl
    | simp only [ok_mk]
    | split
    | refine okOf ?_ rfl rfl rfl rfl rfl rfl rfl rfl rfl
    | dsimp only

theorem wrAidsSticky_ok {κ : Kept} {v : Word} {s : State} (hκ : s.Ok κ) : (wrAidsSticky v s).1.Ok κ := by
  unfold wrAidsSticky
  try dsimp only
  repeat' first
    | with_reducible assumption
    | with_reducible apply done_ok
    | with_reducible apply setL_ok
    | with_reducible apply stickyCycle_ok
    | with_reducible apply ite_ok
    | intro _
    | with_reducible refine okOf ?_ rfl rfl rfl rfl rfl rfl rfl rfl rfl
    | simp only [ok_mk]
    | split
    | refine okOf ?_ rfl rfl rfl rfl rfl rfl rfl rfl rfl
    | dsimp only

theorem execAidsStickyClear_ok {κ : Kept} {p : Path} {v : Word} {s : State} (hκ : s.Ok κ) : ∃ st' : State, execAidsStickyClear p v s = .next st' ∧ st'.Ok κ := by
  refine ⟨_, rfl, ?_⟩
  try dsimp only
  repeat' first
    | with_reducible assumption
    | with_reducible apply guardWrite_ok
    | with_reducible apply wrAidsSticky_ok
    | with_reducible apply ite_ok
    | intro _
    | with_reducible refine okOf ?_ rfl rfl rfl rfl rfl rfl rfl rfl rfl
    | simp only [ok_mk]
    | split
    | refine okOf ?_ rfl rfl rfl rfl rfl rfl rfl rfl rfl
    | dsimp only

theorem setSp_ok {κ : Kept} {s : State} {c : Nat} {x : SpChan} (hκ : s.Ok κ) : (State.setSp s c x).Ok κ := by
  unfold State.setSp
  try dsimp only
  repeat' first
    | with_reducible assumption
    | with_reducible apply ite_ok
    | intro _
    | with_reducible refine okOf ?_ rfl rfl rfl rfl rfl rfl rfl rfl rfl
    | simp only [ok_mk]
    | split
    | refine okOf ?_ rfl rfl rfl rfl rfl rfl rfl rfl rfl
    | dsimp only

theorem spTick_ok {κ : Kept} {s : State} {c : Nat} (hκ : s.Ok κ) : (State.spTick s c).Ok κ := by
  unfold State.spTick
  try dsimp only
  repeat' first
    | with_reducible assumption
    | with_reducible apply aidsIf_ok
    | with_reducible apply setLI_ok
    | with_reducible apply setL_ok
    | with_reducible apply setSp_ok
    | with_reducible apply wrW_ok
    | with_reducible apply ite_ok
    | intro _
    | with_reducible refine okOf ?_ rfl rfl rfl rfl rfl rfl rfl rfl rfl
    | simp only [ok_mk]
    | split
    | refine okOf ?_ rfl rfl rfl rfl rfl rfl rfl rfl rfl
    | dsimp only

theorem spTicks_ok {κ : Kept} {s : State} (hκ : s.Ok κ) : (State.spTicks s).Ok κ := by
  unfold State.spTicks
  try dsimp only
  repeat' first
    | with_reducible assumption
    | with_reducible apply each_ok
    | with_reducible apply spTick_ok
    | with_reducible apply ite_ok
    | intro _
    | with_reducible refine okOf ?_ rfl rfl rfl rfl rfl rfl rfl rfl rfl
    | simp only [ok_mk]
    | split
    | refine okOf ?_ rfl rfl rfl rfl rfl rfl rfl rfl rfl
    | dsimp only

theorem spRestart_ok {κ : Kept} {s : State} {c : Nat} (hκ : s.Ok κ) : (State.spRestart s c).Ok κ := by
  unfold State.spRestart
  try dsimp only
  repeat' first
    | with_reducible assumption
    | with_reducible apply setSp_ok
    | with_reducible apply ite_ok
    | intro _
    | with_reducible refine okOf ?_ rfl rfl rfl rfl rfl rfl rfl rfl rfl
    | simp only [ok_mk]
    | split
    | refine okOf ?_ rfl rfl rfl rfl rfl rfl rfl rfl rfl
    | dsimp only

theorem execPulseEdgeAccept_ok {κ : Kept} {n : Fin 2} {t : Nat} {s : State} (hκ : s.Ok κ) : ∃ st' : State, execPulseEdgeAccept n t s = .next st' ∧ st'.Ok κ := by
  refine ⟨_, rfl, ?_⟩
  try dsimp only
  repeat' first
    | with_reducible assumption
    | with_reducible apply toC_ok
    | with_reducible apply ite_ok
    | intro _
    | with_reducible refine okOf ?_ rfl rfl rfl rfl rfl rfl rfl rfl rfl
    | simp only [ok_mk]
    | split
    | refine okOf ?_ rfl rfl rfl rfl rfl rfl rfl rfl rfl
    | dsimp only

theorem setNotch_ok {κ : Kept} {s : State} {second : Bool} {a : Nat} {x : Notch} (hκ : s.Ok κ) : (State.setNotch s second a x).Ok κ := by
  unfold State.setNotch
  try dsimp only
  repeat' first
    | with_reducible assumption
    | with_reducible apply ite_ok
    | intro _
    | with_reducible refine okOf ?_ rfl rfl rfl rfl rfl rfl rfl rfl rfl
    | simp only [ok_mk]
    | split
    | refine okOf ?_ rfl rfl rfl rfl rfl rfl rfl rfl rfl
    | dsimp only

theorem notchLoad_ok {κ : Kept} {s : State} {second : Bool} {a : Nat} (hκ : s.Ok κ) : (State.notchLoad s second a).Ok κ := by
  unfold State.notchLoad
  try dsimp only
  repeat' first
    | with_reducible assumption
    | with_reducible apply setLI_ok
    | with_reducible apply setNotch_ok
    | with_reducible apply ite_ok
    | intro _
    | with_reducible refine okOf ?_ rfl rfl rfl rfl rfl rfl rfl rfl rfl
    | simp only [ok_mk]
    | split
    | refine okOf ?_ rfl rfl rfl rfl rfl rfl rfl rfl rfl
    | dsimp only

theorem notchStep_ok {κ : Kept} {s : State} {second : Bool} {a : Nat} {v : Int} (hκ : s.Ok κ) : (State.notchStep s second a v).1.Ok κ := by
  unfold State.notchStep
  try dsimp only
  repeat' first
    | with_reducible assumption
    | with_reducible apply aidsIf_ok
    | with_reducible apply setNotch_ok
    | with_reducible apply ite_ok
    | intro _
    | with_reducible refine okOf ?_ rfl rfl rfl rfl rfl rfl rfl rfl rfl
    | simp only [ok_mk]
    | split
    | refine okOf ?_ rfl rfl rfl rfl rfl rfl rfl rfl rfl
    | dsimp only

theorem notchStage_ok {κ : Kept} {s : State} {a : Nat} {r : Int} (hκ : s.Ok κ) : (State.notchStage s a r).1.Ok κ := by
  unfold State.notchStage
  try dsimp only
  repeat' first
    | with_reducible assumption
    | with_reducible apply notchStep_ok
    | with_reducible apply ite_ok
    | intro _
    | with_reducible refine okOf ?_ rfl rfl rfl rfl rfl rfl rfl rfl rfl
    | simp only [ok_mk]
    | split
    | refine okOf ?_ rfl rfl rfl rfl rfl rfl rfl rfl rfl
    | dsimp only

theorem notchRestart_ok {κ : Kept} {s : State} {a : Nat} (hκ : s.Ok κ) : (State.notchRestart s a).Ok κ := by
  unfold State.notchRestart
  try dsimp only
  repeat' first
    | with_reducible assumption
    | with_reducible apply setNotch_ok
    | with_reducible apply start_ok
    | with_reducible apply ite_ok
    | intro _
    | with_reducible refine okOf ?_ rfl rfl rfl rfl rfl rfl rfl rfl rfl
    | simp only [ok_mk]
    | split
    | refine okOf ?_ rfl rfl rfl rfl rfl rfl rfl rfl rfl
    | dsimp only

theorem wrNotchRestart_ok {κ : Kept} {a : Nat} {s : State} (hκ : s.Ok κ) : (wrNotchRestart a s).1.Ok κ := by
  unfold wrNotchRestart
  try dsimp only
  repeat' first
    | with_reducible assumption
    | with_reducible apply done_ok
    | with_reducible apply notchRestart_ok
    | with_reducible apply ite_ok
    | intro _
    | with_reducible refine okOf ?_ rfl rfl rfl rfl rfl rfl rfl rfl rfl
    | simp only [ok_mk]
    | split
    | refine okOf ?_ rfl rfl rfl rfl rfl rfl rfl rfl rfl
    | dsimp only

theorem execNotchRestart_ok {κ : Kept} {p : Path} {a : Nat} {s : State} (hκ : s.Ok κ) : ∃ st' : State, execNotchRestart p a s = .next st' ∧ st'.Ok κ := by
  refine ⟨_, rfl, ?_⟩
  try dsimp only
  repeat' first
    | with_reducible assumption
    | with_reducible apply guardWrite_ok
    | with_reducible apply wrNotchRestart_ok
    | with_reducible apply ite_ok
    | intro _
    | with_reducible refine okOf ?_ rfl rfl rfl rfl rfl rfl rfl rfl rfl
    | simp only [ok_mk]
    | split
    | refine okOf ?_ rfl rfl rfl rfl rfl rfl rfl rfl rfl
    | dsimp only

theorem setLantern_ok {κ : Kept} {s : State} {l : LanternSt} (hκ : s.Ok κ) : (State.setLantern s l).Ok κ := by
  unfold State.setLantern
  try dsimp only
  repeat' first
    | with_reducible assumption
    | with_reducible apply ite_ok
    | intro _
    | with_reducible refine okOf ?_ rfl rfl rfl rfl rfl rfl rfl rfl rfl
    | simp only [ok_mk]
    | split
    | refine okOf ?_ rfl rfl rfl rfl rfl rfl rfl rfl rfl
    | dsimp only

theorem lanternStop_ok {κ : Kept} {s : State} (hκ : s.Ok κ) : (State.lanternStop s).Ok κ := by
  unfold State.lanternStop
  try dsimp only
  repeat' first
    | with_reducible assumption
    | with_reducible apply irqEdge_ok
    | with_reducible apply setLantern_ok
    | with_reducible apply ite_ok
    | intro _
    | with_reducible refine okOf ?_ rfl rfl rfl rfl rfl rfl rfl rfl rfl
    | simp only [ok_mk]
    | split
    | refine okOf ?_ rfl rfl rfl rfl rfl rfl rfl rfl rfl
    | dsimp only

theorem lanternTrigger_ok {κ : Kept} {s : State} {k : Nat} (hκ : s.Ok κ) : (State.lanternTrigger s k).Ok κ := by
  unfold State.lanternTrigger
  try dsimp only
  repeat' first
    | with_reducible assumption
    | with_reducible apply incL_ok
    | with_reducible apply setLantern_ok
    | with_reducible apply ite_ok
    | intro _
    | with_reducible refine okOf ?_ rfl rfl rfl rfl rfl rfl rfl rfl rfl
    | simp only [ok_mk]
    | split
    | refine okOf ?_ rfl rfl rfl rfl rfl rfl rfl rfl rfl
    | dsimp only

theorem lanternArm_ok {κ : Kept} {s : State} (hκ : s.Ok κ) : (State.lanternArm s).Ok κ := by
  unfold State.lanternArm
  try dsimp only
  repeat' first
    | with_reducible assumption
    | with_reducible apply abortMarch_ok
    | with_reducible apply each_ok
    | with_reducible apply lanternTrigger_ok
    | with_reducible apply setLN_ok
    | with_reducible apply setLantern_ok
    | with_reducible apply wakeBank_ok
    | with_reducible apply ite_ok
    | intro _
    | with_reducible refine okOf ?_ rfl rfl rfl rfl rfl rfl rfl rfl rfl
    | simp only [ok_mk]
    | split
    | refine okOf ?_ rfl rfl rfl rfl rfl rfl rfl rfl rfl
    | dsimp only

theorem wrLanternCmd_ok {κ : Kept} {v : Word} {s : State} (hκ : s.Ok κ) : (wrLanternCmd v s).1.Ok κ := by
  unfold wrLanternCmd
  try dsimp only
  repeat' first
    | with_reducible assumption
    | with_reducible apply done_ok
    | with_reducible apply idle_ok
    | with_reducible apply lanternArm_ok
    | with_reducible apply lanternStop_ok
    | with_reducible apply lanternTrigger_ok
    | with_reducible apply setLantern_ok
    | with_reducible apply ite_ok
    | intro _
    | with_reducible refine okOf ?_ rfl rfl rfl rfl rfl rfl rfl rfl rfl
    | simp only [ok_mk]
    | split
    | refine okOf ?_ rfl rfl rfl rfl rfl rfl rfl rfl rfl
    | dsimp only

theorem execLanternArm_ok {κ : Kept} {p : Path} {s : State} (hκ : s.Ok κ) : ∃ st' : State, execLanternArm p s = .next st' ∧ st'.Ok κ := by
  refine ⟨_, rfl, ?_⟩
  try dsimp only
  repeat' first
    | with_reducible assumption
    | with_reducible apply guardWrite_ok
    | with_reducible apply wrLanternCmd_ok
    | with_reducible apply ite_ok
    | intro _
    | with_reducible refine okOf ?_ rfl rfl rfl rfl rfl rfl rfl rfl rfl
    | simp only [ok_mk]
    | split
    | refine okOf ?_ rfl rfl rfl rfl rfl rfl rfl rfl rfl
    | dsimp only

theorem execLanternTrigger_ok {κ : Kept} {p : Path} {s : State} (hκ : s.Ok κ) : ∃ st' : State, execLanternTrigger p s = .next st' ∧ st'.Ok κ := by
  refine ⟨_, rfl, ?_⟩
  try dsimp only
  repeat' first
    | with_reducible assumption
    | with_reducible apply guardWrite_ok
    | with_reducible apply wrLanternCmd_ok
    | with_reducible apply ite_ok
    | intro _
    | with_reducible refine okOf ?_ rfl rfl rfl rfl rfl rfl rfl rfl rfl
    | simp only [ok_mk]
    | split
    | refine okOf ?_ rfl rfl rfl rfl rfl rfl rfl rfl rfl
    | dsimp only

theorem execLanternStop_ok {κ : Kept} {p : Path} {s : State} (hκ : s.Ok κ) : ∃ st' : State, execLanternStop p s = .next st' ∧ st'.Ok κ := by
  refine ⟨_, rfl, ?_⟩
  try dsimp only
  repeat' first
    | with_reducible assumption
    | with_reducible apply guardWrite_ok
    | with_reducible apply wrLanternCmd_ok
    | with_reducible apply ite_ok
    | intro _
    | with_reducible refine okOf ?_ rfl rfl rfl rfl rfl rfl rfl rfl rfl
    | simp only [ok_mk]
    | split
    | refine okOf ?_ rfl rfl rfl rfl rfl rfl rfl rfl rfl
    | dsimp only

theorem execLanternDisarm_ok {κ : Kept} {p : Path} {s : State} (hκ : s.Ok κ) : ∃ st' : State, execLanternDisarm p s = .next st' ∧ st'.Ok κ := by
  refine ⟨_, rfl, ?_⟩
  try dsimp only
  repeat' first
    | with_reducible assumption
    | with_reducible apply guardWrite_ok
    | with_reducible apply wrLanternCmd_ok
    | with_reducible apply ite_ok
    | intro _
    | with_reducible refine okOf ?_ rfl rfl rfl rfl rfl rfl rfl rfl rfl
    | simp only [ok_mk]
    | split
    | refine okOf ?_ rfl rfl rfl rfl rfl rfl rfl rfl rfl
    | dsimp only

theorem lanternNodes_ok {κ : Kept} {s : State} (hκ : s.Ok κ) : (State.lanternNodes s).Ok κ := by
  unfold State.lanternNodes
  try dsimp only
  repeat' first
    | with_reducible assumption
    | with_reducible apply setLantern_ok
    | with_reducible apply ite_ok
    | intro _
    | with_reducible refine okOf ?_ rfl rfl rfl rfl rfl rfl rfl rfl rfl
    | simp only [ok_mk]
    | split
    | refine okOf ?_ rfl rfl rfl rfl rfl rfl rfl rfl rfl
    | dsimp only

theorem probeTouch_ok {κ : Kept} {s : State} {p : Nat} (hκ : s.Ok κ) : (State.probeTouch s p).Ok κ := by
  unfold State.probeTouch
  try dsimp only
  repeat' first
    | with_reducible assumption
    | with_reducible apply touchBank_ok
    | with_reducible apply ite_ok
    | intro _
    | with_reducible refine okOf ?_ rfl rfl rfl rfl rfl rfl rfl rfl rfl
    | simp only [ok_mk]
    | split
    | refine okOf ?_ rfl rfl rfl rfl rfl rfl rfl rfl rfl
    | dsimp only

theorem lanternRecord_ok {κ : Kept} {s : State} {k : Nat} (hκ : s.Ok κ) : (State.lanternRecord s k).Ok κ := by
  unfold State.lanternRecord
  try dsimp only
  repeat' first
    | with_reducible assumption
    | with_reducible apply each_ok
    | with_reducible apply lanternStop_ok
    | with_reducible apply lanternTrigger_ok
    | with_reducible apply ownerOn_ok
    | with_reducible apply probeTouch_ok
    | with_reducible apply setLantern_ok
    | with_reducible apply wrW_ok
    | with_reducible apply foldl_ok
    | with_reducible apply foldl_ok_fst
    | with_reducible apply ite_ok
    | intro _
    | with_reducible refine okOf ?_ rfl rfl rfl rfl rfl rfl rfl rfl rfl
    | simp only [ok_mk]
    | split
    | refine okOf ?_ rfl rfl rfl rfl rfl rfl rfl rfl rfl
    | dsimp only

theorem lanternCommit_ok {κ : Kept} {s : State} (hκ : s.Ok κ) : (State.lanternCommit s).Ok κ := by
  unfold State.lanternCommit
  try dsimp only
  repeat' first
    | with_reducible assumption
    | with_reducible apply idle_ok
    | with_reducible apply lanternArm_ok
    | with_reducible apply setLantern_ok
    | with_reducible apply ite_ok
    | intro _
    | with_reducible refine okOf ?_ rfl rfl rfl rfl rfl rfl rfl rfl rfl
    | simp only [ok_mk]
    | split
    | refine okOf ?_ rfl rfl rfl rfl rfl rfl rfl rfl rfl
    | dsimp only

end Sys2Proof.Machine
end

