-- ==== Sys2Proof/Laws/KeepsBeacons.lean ====
section
/-! SUPPORT. The operations of Beacons.lean keep what Keeps.lean names. -/
namespace Sys2Proof.Machine
set_option linter.all false

theorem execBeaconAct_ok {κ : Kept} {e : Fin 64} {s : State} (hκ : s.Ok κ) : ∃ st' : State, execBeaconAct e s = .next st' ∧ st'.Ok κ := by
  refine ⟨_, rfl, ?_⟩
  try dsimp only
  repeat' first
    | with_reducible assumption
    | with_reducible apply adcTriggers_ok
    | with_reducible apply event_ok
    | with_reducible apply incL_ok
    | with_reducible apply lanternTrigger_ok
    | with_reducible apply toC_ok
    | with_reducible apply ite_ok
    | intro _
    | with_reducible refine okOf ?_ rfl rfl rfl rfl rfl rfl rfl rfl rfl
    | simp only [ok_mk]
    | split
    | refine okOf ?_ rfl rfl rfl rfl rfl rfl rfl rfl rfl
    | dsimp only

end Sys2Proof.Machine
end

