-- ==== Sys2Proof/Laws/KeepsSelector.lean ====
section
/-! SUPPORT. The operations of Selector.lean keep what Keeps.lean names. -/
namespace Sys2Proof.Machine
set_option linter.all false

theorem setSel_ok {κ : Kept} {s : State} {a : Nat} {x : SelArm} (hκ : s.Ok κ) : (State.setSel s a x).Ok κ := by
  unfold State.setSel
  try dsimp only
  repeat' first
    | with_reducible assumption
    | with_reducible apply ite_ok
    | intro _
    | with_reducible refine okOf ?_ rfl rfl rfl rfl rfl rfl rfl rfl rfl
    | simp only [ok_mk]
    | split
    | refine okOf ?_ rfl rfl rfl rfl rfl rfl rfl rfl rfl
    | dsimp only

theorem setBudget_ok {κ : Kept} {s : State} {i v : Nat} (hκ : s.Ok κ) : (State.setBudget s i v).Ok κ := by
  unfold State.setBudget
  try dsimp only
  repeat' first
    | with_reducible assumption
    | with_reducible apply ite_ok
    | intro _
    | with_reducible refine okOf ?_ rfl rfl rfl rfl rfl rfl rfl rfl rfl
    | simp only [ok_mk]
    | split
    | refine okOf ?_ rfl rfl rfl rfl rfl rfl rfl rfl rfl
    | dsimp only

theorem fracHolder_ok {κ : Kept} {s : State} {a : Nat} {rest : List Cand} {c : Int} (hκ : s.Ok κ) : (State.fracHolder s a rest c).1.Ok κ := by
  unfold State.fracHolder
  try dsimp only
  repeat' first
    | with_reducible assumption
    | with_reducible apply setSel_ok
    | with_reducible apply ite_ok
    | intro _
    | with_reducible refine okOf ?_ rfl rfl rfl rfl rfl rfl rfl rfl rfl
    | simp only [ok_mk]
    | split
    | refine okOf ?_ rfl rfl rfl rfl rfl rfl rfl rfl rfl
    | dsimp only

theorem select_ok {κ : Kept} {s : State} {a slot : Nat} {neg : Bool} {count edge : Nat} (hκ : s.Ok κ) : (State.select s a slot neg count edge).1.Ok κ := by
  unfold State.select
  try dsimp only
  repeat' first
    | with_reducible assumption
    | with_reducible apply addL_ok
    | with_reducible apply fracHolder_ok
    | with_reducible apply incIf_ok
    | with_reducible apply place_ok
    | with_reducible apply raiseIf_ok
    | with_reducible apply setLI_ok
    | with_reducible apply setLN_ok
    | with_reducible apply setSel_ok
    | with_reducible apply start_ok
    | with_reducible apply ite_ok
    | intro _
    | with_reducible refine okOf ?_ rfl rfl rfl rfl rfl rfl rfl rfl rfl
    | simp only [ok_mk]
    | split
    | refine okOf ?_ rfl rfl rfl rfl rfl rfl rfl rfl rfl
    | dsimp only

theorem account_ok {κ : Kept} {s : State} {a : Nat} {words : List (Nat × Nat)} (hκ : s.Ok κ) : (State.account s a words).Ok κ := by
  unfold State.account
  try dsimp only
  repeat' first
    | with_reducible assumption
    | with_reducible apply addL_ok
    | with_reducible apply setBudget_ok
    | with_reducible apply setEntry_ok
    | with_reducible apply foldl_ok
    | with_reducible apply foldl_ok_fst
    | with_reducible apply ite_ok
    | intro _
    | with_reducible refine okOf ?_ rfl rfl rfl rfl rfl rfl rfl rfl rfl
    | simp only [ok_mk]
    | split
    | refine okOf ?_ rfl rfl rfl rfl rfl rfl rfl rfl rfl
    | dsimp only

theorem leak_ok {κ : Kept} {s : State} (hκ : s.Ok κ) : (State.leak s).Ok κ := by
  unfold State.leak
  try dsimp only
  repeat' first
    | with_reducible assumption
    | with_reducible apply each_ok
    | with_reducible apply setEntry_ok
    | with_reducible apply foldl_ok
    | with_reducible apply foldl_ok_fst
    | with_reducible apply ite_ok
    | intro _
    | with_reducible refine okOf ?_ rfl rfl rfl rfl rfl rfl rfl rfl rfl
    | simp only [ok_mk]
    | split
    | refine okOf ?_ rfl rfl rfl rfl rfl rfl rfl rfl rfl
    | dsimp only

theorem promote_ok {κ : Kept} {s : State} {a : Nat} (hκ : s.Ok κ) : (State.promote s a).Ok κ := by
  unfold State.promote
  try dsimp only
  repeat' first
    | with_reducible assumption
    | with_reducible apply setLN_ok
    | with_reducible apply ite_ok
    | intro _
    | with_reducible refine okOf ?_ rfl rfl rfl rfl rfl rfl rfl rfl rfl
    | simp only [ok_mk]
    | split
    | refine okOf ?_ rfl rfl rfl rfl rfl rfl rfl rfl rfl
    | dsimp only

theorem selectorCut_ok {κ : Kept} {s : State} (hκ : s.Ok κ) : (State.selectorCut s).Ok κ := by
  unfold State.selectorCut
  try dsimp only
  repeat' first
    | with_reducible assumption
    | with_reducible apply each_ok
    | with_reducible apply faultLevel_ok
    | with_reducible apply leak_ok
    | with_reducible apply promote_ok
    | with_reducible apply setLN_ok
    | with_reducible apply setSel_ok
    | with_reducible apply ite_ok
    | intro _
    | with_reducible refine okOf ?_ rfl rfl rfl rfl rfl rfl rfl rfl rfl
    | simp only [ok_mk]
    | split
    | refine okOf ?_ rfl rfl rfl rfl rfl rfl rfl rfl rfl
    | dsimp only

end Sys2Proof.Machine
end

