-- ==== Sys2Proof/Laws/KeepsCut.lean ====
section
/-! SUPPORT. The operations of Cut.lean keep what Keeps.lean names. -/
namespace Sys2Proof.Machine
set_option linter.all false

theorem takeRef_ok {κ : Kept} {s : State} {a : Nat} (hκ : s.Ok κ) : (State.takeRef s a).Ok κ := by
  unfold State.takeRef
  try dsimp only
  repeat' first
    | with_reducible assumption
    | with_reducible apply setL_ok
    | with_reducible apply ite_ok
    | intro _
    | with_reducible refine okOf ?_ rfl rfl rfl rfl rfl rfl rfl rfl rfl
    | simp only [ok_mk]
    | split
    | refine okOf ?_ rfl rfl rfl rfl rfl rfl rfl rfl rfl
    | dsimp only

theorem setLate_ok {κ : Kept} {s : State} {a n : Nat} (hκ : s.Ok κ) : (State.setLate s a n).Ok κ := by
  unfold State.setLate
  try dsimp only
  repeat' first
    | with_reducible assumption
    | with_reducible apply ite_ok
    | intro _
    | with_reducible refine okOf ?_ rfl rfl rfl rfl rfl rfl rfl rfl rfl
    | simp only [ok_mk]
    | split
    | refine okOf ?_ rfl rfl rfl rfl rfl rfl rfl rfl rfl
    | dsimp only

theorem sampleRef_ok {κ : Kept} {s : State} {a : Nat} (hκ : s.Ok κ) : (State.sampleRef s a).Ok κ := by
  unfold State.sampleRef
  try dsimp only
  repeat' first
    | with_reducible assumption
    | with_reducible apply done_ok
    | with_reducible apply incL_ok
    | with_reducible apply raiseIf_ok
    | with_reducible apply setLate_ok
    | with_reducible apply takeRef_ok
    | with_reducible apply ite_ok
    | intro _
    | with_reducible refine okOf ?_ rfl rfl rfl rfl rfl rfl rfl rfl rfl
    | simp only [ok_mk]
    | split
    | refine okOf ?_ rfl rfl rfl rfl rfl rfl rfl rfl rfl
    | dsimp only

theorem sampleRefs_ok {κ : Kept} {s : State} (hκ : s.Ok κ) : (State.sampleRefs s).Ok κ := by
  unfold State.sampleRefs
  try dsimp only
  repeat' first
    | with_reducible assumption
    | with_reducible apply each_ok
    | with_reducible apply irqIf_ok
    | with_reducible apply sampleRef_ok
    | with_reducible apply ite_ok
    | intro _
    | with_reducible refine okOf ?_ rfl rfl rfl rfl rfl rfl rfl rfl rfl
    | simp only [ok_mk]
    | split
    | refine okOf ?_ rfl rfl rfl rfl rfl rfl rfl rfl rfl
    | dsimp only

theorem testRefs_ok {κ : Kept} {s : State} (hκ : s.Ok κ) : (State.testRefs s).Ok κ := by
  unfold State.testRefs
  try dsimp only
  repeat' first
    | with_reducible assumption
    | with_reducible apply each_ok
    | with_reducible apply setLate_ok
    | with_reducible apply takeRef_ok
    | with_reducible apply ite_ok
    | intro _
    | with_reducible refine okOf ?_ rfl rfl rfl rfl rfl rfl rfl rfl rfl
    | simp only [ok_mk]
    | split
    | refine okOf ?_ rfl rfl rfl rfl rfl rfl rfl rfl rfl
    | dsimp only

theorem idcFrame_ok {κ : Kept} {s : State} (hκ : s.Ok κ) : (State.idcFrame s).Ok κ := by
  unfold State.idcFrame
  try dsimp only
  repeat' first
    | with_reducible assumption
    | with_reducible apply ite_ok
    | intro _
    | with_reducible refine okOf ?_ rfl rfl rfl rfl rfl rfl rfl rfl rfl
    | simp only [ok_mk]
    | split
    | refine okOf ?_ rfl rfl rfl rfl rfl rfl rfl rfl rfl
    | dsimp only

theorem goMode_ok {κ : Kept} {s : State} {m : Mode} {cause : Nat} (hκ : s.Ok κ) : (State.goMode s m cause).Ok κ := by
  unfold State.goMode
  try dsimp only
  repeat' first
    | with_reducible assumption
    | with_reducible apply cause_ok
    | with_reducible apply event_ok
    | with_reducible apply safeOutputs_ok
    | with_reducible apply setMode_ok
    | with_reducible apply ite_ok
    | intro _
    | with_reducible refine okOf ?_ rfl rfl rfl rfl rfl rfl rfl rfl rfl
    | simp only [ok_mk]
    | split
    | refine okOf ?_ rfl rfl rfl rfl rfl rfl rfl rfl rfl
    | dsimp only

theorem pairJoin_ok {κ : Kept} {s : State} (hκ : s.Ok κ) : (State.pairJoin s).Ok κ := by
  unfold State.pairJoin
  try dsimp only
  repeat' first
    | with_reducible assumption
    | with_reducible apply goMode_ok
    | with_reducible apply irqEdge_ok
    | with_reducible apply ite_ok
    | intro _
    | with_reducible refine okOf ?_ rfl rfl rfl rfl rfl rfl rfl rfl rfl
    | simp only [ok_mk]
    | split
    | refine okOf ?_ rfl rfl rfl rfl rfl rfl rfl rfl rfl
    | dsimp only

theorem relinquish_ok {κ : Kept} {s : State} (hκ : s.Ok κ) : (State.relinquish s).Ok κ := by
  unfold State.relinquish
  try dsimp only
  repeat' first
    | with_reducible assumption
    | with_reducible apply goMode_ok
    | with_reducible apply incL_ok
    | with_reducible apply irqEdge_ok
    | with_reducible apply ite_ok
    | intro _
    | with_reducible refine okOf ?_ rfl rfl rfl rfl rfl rfl rfl rfl rfl
    | simp only [ok_mk]
    | split
    | refine okOf ?_ rfl rfl rfl rfl rfl rfl rfl rfl rfl
    | dsimp only

theorem dropAhead_ok {κ : Kept} {s : State} {a : Nat} (hκ : s.Ok κ) : (State.dropAhead s a).Ok κ := by
  unfold State.dropAhead
  try dsimp only
  repeat' first
    | with_reducible assumption
    | with_reducible apply setArm_ok
    | with_reducible apply ite_ok
    | intro _
    | with_reducible refine okOf ?_ rfl rfl rfl rfl rfl rfl rfl rfl rfl
    | simp only [ok_mk]
    | split
    | refine okOf ?_ rfl rfl rfl rfl rfl rfl rfl rfl rfl
    | dsimp only

theorem retake_ok {κ : Kept} {s : State} (hκ : s.Ok κ) : (State.retake s).Ok κ := by
  unfold State.retake
  try dsimp only
  repeat' first
    | with_reducible assumption
    | with_reducible apply setEntry_ok
    | with_reducible apply foldl_ok
    | with_reducible apply foldl_ok_fst
    | with_reducible apply ite_ok
    | intro _
    | with_reducible refine okOf ?_ rfl rfl rfl rfl rfl rfl rfl rfl rfl
    | simp only [ok_mk]
    | split
    | refine okOf ?_ rfl rfl rfl rfl rfl rfl rfl rfl rfl
    | dsimp only

theorem takeOver_ok {κ : Kept} {s : State} (hκ : s.Ok κ) : (State.takeOver s).Ok κ := by
  unfold State.takeOver
  try dsimp only
  repeat' first
    | with_reducible assumption
    | with_reducible apply dropAhead_ok
    | with_reducible apply each_ok
    | with_reducible apply goMode_ok
    | with_reducible apply incIf_ok
    | with_reducible apply incL_ok
    | with_reducible apply irqEdge_ok
    | with_reducible apply retake_ok
    | with_reducible apply ite_ok
    | intro _
    | with_reducible refine okOf ?_ rfl rfl rfl rfl rfl rfl rfl rfl rfl
    | simp only [ok_mk]
    | split
    | refine okOf ?_ rfl rfl rfl rfl rfl rfl rfl rfl rfl
    | dsimp only

theorem ranked_ok {κ : Kept} {s : State} {joined ready : Bool} (hκ : s.Ok κ) : (State.ranked s joined ready).1.Ok κ := by
  unfold State.ranked
  try dsimp only
  repeat' first
    | with_reducible assumption
    | with_reducible apply goMode_ok
    | with_reducible apply relinquish_ok
    | with_reducible apply takeOver_ok
    | with_reducible apply ite_ok
    | intro _
    | with_reducible refine okOf ?_ rfl rfl rfl rfl rfl rfl rfl rfl rfl
    | simp only [ok_mk]
    | split
    | refine okOf ?_ rfl rfl rfl rfl rfl rfl rfl rfl rfl
    | dsimp only

theorem answerReq_ok {κ : Kept} {s : State} {lost ready : Bool} (hκ : s.Ok κ) : (State.answerReq s lost ready).Ok κ := by
  unfold State.answerReq
  try dsimp only
  repeat' first
    | with_reducible assumption
    | with_reducible apply goMode_ok
    | with_reducible apply modeResult_ok
    | with_reducible apply safeEntry_ok
    | with_reducible apply setReq_ok
    | with_reducible apply ite_ok
    | intro _
    | with_reducible refine okOf ?_ rfl rfl rfl rfl rfl rfl rfl rfl rfl
    | simp only [ok_mk]
    | split
    | refine okOf ?_ rfl rfl rfl rfl rfl rfl rfl rfl rfl
    | dsimp only

theorem modeCounts_ok {κ : Kept} {s : State} {ready : Bool} (hκ : s.Ok κ) : (State.modeCounts s ready).Ok κ := by
  unfold State.modeCounts
  try dsimp only
  repeat' first
    | with_reducible assumption
    | with_reducible apply ite_ok
    | intro _
    | with_reducible refine okOf ?_ rfl rfl rfl rfl rfl rfl rfl rfl rfl
    | simp only [ok_mk]
    | split
    | refine okOf ?_ rfl rfl rfl rfl rfl rfl rfl rfl rfl
    | dsimp only

theorem decideMode_ok {κ : Kept} {s : State} (hκ : s.Ok κ) : (State.decideMode s).Ok κ := by
  unfold State.decideMode
  try dsimp only
  repeat' first
    | with_reducible assumption
    | with_reducible apply answerReq_ok
    | with_reducible apply forceModeClear_ok
    | with_reducible apply idcFrame_ok
    | with_reducible apply modeCounts_ok
    | with_reducible apply pairJoin_ok
    | with_reducible apply raiseIf_ok
    | with_reducible apply ranked_ok
    | with_reducible apply ite_ok
    | intro _
    | with_reducible refine okOf ?_ rfl rfl rfl rfl rfl rfl rfl rfl rfl
    | simp only [ok_mk]
    | split
    | refine okOf ?_ rfl rfl rfl rfl rfl rfl rfl rfl rfl
    | dsimp only

theorem selectedPlan_ok {κ : Kept} {s : State} {a slot src : Nat} {d : Demand} (hκ : s.Ok κ) : (State.selectedPlan s a slot src d).1.Ok κ := by
  unfold State.selectedPlan
  try dsimp only
  repeat' first
    | with_reducible assumption
    | with_reducible apply select_ok
    | with_reducible apply ite_ok
    | intro _
    | with_reducible refine okOf ?_ rfl rfl rfl rfl rfl rfl rfl rfl rfl
    | simp only [ok_mk]
    | split
    | refine okOf ?_ rfl rfl rfl rfl rfl rfl rfl rfl rfl
    | dsimp only

theorem forceApplied_ok {κ : Kept} {s : State} {a slot : Nat} (hκ : s.Ok κ) : (State.forceApplied s a slot).Ok κ := by
  unfold State.forceApplied
  try dsimp only
  repeat' first
    | with_reducible assumption
    | with_reducible apply setArm_ok
    | with_reducible apply setLN_ok
    | with_reducible apply ite_ok
    | intro _
    | with_reducible refine okOf ?_ rfl rfl rfl rfl rfl rfl rfl rfl rfl
    | simp only [ok_mk]
    | split
    | refine okOf ?_ rfl rfl rfl rfl rfl rfl rfl rfl rfl
    | dsimp only

theorem planArm_ok {κ : Kept} {s : State} {a slot : Nat} {r : Int} (hκ : s.Ok κ) : (State.planArm s a slot r).1.Ok κ := by
  unfold State.planArm
  try dsimp only
  repeat' first
    | with_reducible assumption
    | with_reducible apply forceApplied_ok
    | with_reducible apply forceDemand_ok
    | with_reducible apply modulate_ok
    | with_reducible apply selectedPlan_ok
    | with_reducible apply ite_ok
    | intro _
    | with_reducible refine okOf ?_ rfl rfl rfl rfl rfl rfl rfl rfl rfl
    | simp only [ok_mk]
    | split
    | refine okOf ?_ rfl rfl rfl rfl rfl rfl rfl rfl rfl
    | dsimp only

theorem namedFrac_ok {κ : Kept} {s : State} {a : Nat} {words : List (Nat × Nat)} (hκ : s.Ok κ) : (State.namedFrac s a words).Ok κ := by
  unfold State.namedFrac
  try dsimp only
  repeat' first
    | with_reducible assumption
    | with_reducible apply setLN_ok
    | with_reducible apply ite_ok
    | intro _
    | with_reducible refine okOf ?_ rfl rfl rfl rfl rfl rfl rfl rfl rfl
    | simp only [ok_mk]
    | split
    | refine okOf ?_ rfl rfl rfl rfl rfl rfl rfl rfl rfl
    | dsimp only

theorem buildArm_ok {κ : Kept} {s : State} {a : Nat} (hκ : s.Ok κ) : (State.buildArm s a).Ok κ := by
  unfold State.buildArm
  try dsimp only
  repeat' first
    | with_reducible assumption
    | with_reducible apply account_ok
    | with_reducible apply namedFrac_ok
    | with_reducible apply notchStage_ok
    | with_reducible apply planArm_ok
    | with_reducible apply putBuilt_ok
    | with_reducible apply setLI_ok
    | with_reducible apply ite_ok
    | intro _
    | with_reducible refine okOf ?_ rfl rfl rfl rfl rfl rfl rfl rfl rfl
    | simp only [ok_mk]
    | split
    | refine okOf ?_ rfl rfl rfl rfl rfl rfl rfl rfl rfl
    | dsimp only

theorem layCaravan_ok {κ : Kept} {s : State} {n : Nat} (hκ : s.Ok κ) : (State.layCaravan s n).Ok κ := by
  unfold State.layCaravan
  try dsimp only
  repeat' first
    | with_reducible assumption
    | with_reducible apply incL_ok
    | with_reducible apply irqEdge_ok
    | with_reducible apply setRoute_ok
    | with_reducible apply ite_ok
    | intro _
    | with_reducible refine okOf ?_ rfl rfl rfl rfl rfl rfl rfl rfl rfl
    | simp only [ok_mk]
    | split
    | refine okOf ?_ rfl rfl rfl rfl rfl rfl rfl rfl rfl
    | dsimp only

theorem noteStates_ok {κ : Kept} {s : State} (hκ : s.Ok κ) : (State.noteStates s).Ok κ := by
  unfold State.noteStates
  try dsimp only
  repeat' first
    | with_reducible assumption
    | with_reducible apply foldl_ok
    | with_reducible apply foldl_ok_fst
    | with_reducible apply ite_ok
    | intro _
    | with_reducible refine okOf ?_ rfl rfl rfl rfl rfl rfl rfl rfl rfl
    | simp only [ok_mk]
    | split
    | refine okOf ?_ rfl rfl rfl rfl rfl rfl rfl rfl rfl
    | dsimp only

theorem buildSlots_ok {κ : Kept} {s : State} (hκ : s.Ok κ) : (State.buildSlots s).Ok κ := by
  unfold State.buildSlots
  try dsimp only
  repeat' first
    | with_reducible assumption
    | with_reducible apply buildArm_ok
    | with_reducible apply each_ok
    | with_reducible apply layCaravan_ok
    | with_reducible apply safeEntry_ok
    | with_reducible apply selectorCut_ok
    | with_reducible apply ite_ok
    | intro _
    | with_reducible refine okOf ?_ rfl rfl rfl rfl rfl rfl rfl rfl rfl
    | simp only [ok_mk]
    | split
    | refine okOf ?_ rfl rfl rfl rfl rfl rfl rfl rfl rfl
    | dsimp only

theorem cutFrame_ok {κ : Kept} {s : State} (hκ : s.Ok κ) : (State.cutFrame s).Ok κ := by
  unfold State.cutFrame
  try dsimp only
  repeat' first
    | with_reducible assumption
    | with_reducible apply buildSlots_ok
    | with_reducible apply decideMode_ok
    | with_reducible apply ledgerCut_ok
    | with_reducible apply noteStates_ok
    | with_reducible apply sampleRefs_ok
    | with_reducible apply testRefs_ok
    | with_reducible apply ite_ok
    | intro _
    | with_reducible refine okOf ?_ rfl rfl rfl rfl rfl rfl rfl rfl rfl
    | simp only [ok_mk]
    | split
    | refine okOf ?_ rfl rfl rfl rfl rfl rfl rfl rfl rfl
    | dsimp only

theorem skipCut_ok {κ : Kept} {s : State} (hκ : s.Ok κ) : (State.skipCut s).Ok κ := by
  unfold State.skipCut
  try dsimp only
  repeat' first
    | with_reducible assumption
    | with_reducible apply ledgerCut_ok
    | with_reducible apply ite_ok
    | intro _
    | with_reducible refine okOf ?_ rfl rfl rfl rfl rfl rfl rfl rfl rfl
    | simp only [ok_mk]
    | split
    | refine okOf ?_ rfl rfl rfl rfl rfl rfl rfl rfl rfl
    | dsimp only

theorem noteCut_ok {κ : Kept} {s : State} (hκ : s.Ok κ) : (State.noteCut s).Ok κ := by
  unfold State.noteCut
  try dsimp only
  repeat' first
    | with_reducible assumption
    | with_reducible apply ite_ok
    | intro _
    | with_reducible refine okOf ?_ rfl rfl rfl rfl rfl rfl rfl rfl rfl
    | simp only [ok_mk]
    | split
    | refine okOf ?_ rfl rfl rfl rfl rfl rfl rfl rfl rfl
    | dsimp only

theorem decisionCut_ok {κ : Kept} {s : State} (hκ : s.Ok κ) : (State.decisionCut s).Ok κ := by
  unfold State.decisionCut
  try dsimp only
  repeat' first
    | with_reducible assumption
    | with_reducible apply cutFrame_ok
    | with_reducible apply noteCut_ok
    | with_reducible apply skipCut_ok
    | with_reducible apply ite_ok
    | intro _
    | with_reducible refine okOf ?_ rfl rfl rfl rfl rfl rfl rfl rfl rfl
    | simp only [ok_mk]
    | split
    | refine okOf ?_ rfl rfl rfl rfl rfl rfl rfl rfl rfl
    | dsimp only

theorem execDecisionCut_ok {κ : Kept} {s : State} (hκ : s.Ok κ) : ∃ st' : State, execDecisionCut s = .next st' ∧ st'.Ok κ := by
  refine ⟨_, rfl, ?_⟩
  try dsimp only
  repeat' first
    | with_reducible assumption
    | with_reducible apply decisionCut_ok
    | with_reducible apply toC_ok
    | with_reducible apply ite_ok
    | intro _
    | with_reducible refine okOf ?_ rfl rfl rfl rfl rfl rfl rfl rfl rfl
    | simp only [ok_mk]
    | split
    | refine okOf ?_ rfl rfl rfl rfl rfl rfl rfl rfl rfl
    | dsimp only

end Sys2Proof.Machine
end

