-- ==== Sys2Proof/Laws/KeepsTime.lean ====
section
/-! SUPPORT. The operations of Time.lean keep what Keeps.lean names. -/
namespace Sys2Proof.Machine
set_option linter.all false

theorem timeLevels_ok {κ : Kept} {s : State} (hκ : s.Ok κ) : (State.timeLevels s).Ok κ := by
  unfold State.timeLevels
  try dsimp only
  repeat' first
    | with_reducible assumption
    | with_reducible apply irqEdge_ok
    | with_reducible apply noteOff_ok
    | with_reducible apply noteTrace_ok
    | with_reducible apply offStep_ok
    | with_reducible apply raise_ok
    | with_reducible apply ite_ok
    | intro _
    | with_reducible refine okOf ?_ rfl rfl rfl rfl rfl rfl rfl rfl rfl
    | simp only [ok_mk]
    | split
    | refine okOf ?_ rfl rfl rfl rfl rfl rfl rfl rfl rfl
    | dsimp only

theorem putDom_ok {κ : Kept} {s : State} {d : Nat} {x : Dom} (hκ : s.Ok κ) : (State.putDom s d x).Ok κ := by
  unfold State.putDom
  try dsimp only
  repeat' first
    | with_reducible assumption
    | with_reducible apply bootAdvance_ok
    | with_reducible apply incIf_ok
    | with_reducible apply irqIf_ok
    | with_reducible apply raiseIf_ok
    | with_reducible apply setDom_ok
    | with_reducible apply timeLevels_ok
    | with_reducible apply ite_ok
    | intro _
    | with_reducible refine okOf ?_ rfl rfl rfl rfl rfl rfl rfl rfl rfl
    | simp only [ok_mk]
    | split
    | refine okOf ?_ rfl rfl rfl rfl rfl rfl rfl rfl rfl
    | dsimp only

theorem servo_ok {κ : Kept} {s : State} {d : Nat} {o : Int} (hκ : s.Ok κ) : (State.servo s d o).Ok κ := by
  unfold State.servo
  try dsimp only
  repeat' first
    | with_reducible assumption
    | with_reducible apply putDom_ok
    | with_reducible apply ite_ok
    | intro _
    | with_reducible refine okOf ?_ rfl rfl rfl rfl rfl rfl rfl rfl rfl
    | simp only [ok_mk]
    | split
    | refine okOf ?_ rfl rfl rfl rfl rfl rfl rfl rfl rfl
    | dsimp only

theorem setPtp_ok {κ : Kept} {s : State} {port3 : Bool} {x : PtpPort} (hκ : s.Ok κ) : (State.setPtp s port3 x).Ok κ := by
  unfold State.setPtp
  try dsimp only
  repeat' first
    | with_reducible assumption
    | with_reducible apply ite_ok
    | intro _
    | with_reducible refine okOf ?_ rfl rfl rfl rfl rfl rfl rfl rfl rfl
    | simp only [ok_mk]
    | split
    | refine okOf ?_ rfl rfl rfl rfl rfl rfl rfl rfl rfl
    | dsimp only

theorem execPtpSyncReceive_ok {κ : Kept} {port3 : Bool} {domain seq : Nat} {twoStep : Bool} {origin : Nat} {corr : Int} {l : Nat} {s : State} (hκ : s.Ok κ) : ∃ st' : State, execPtpSyncReceive port3 domain seq twoStep origin corr l s = .next st' ∧ st'.Ok κ := by
  refine ⟨_, rfl, ?_⟩
  try dsimp only
  repeat' first
    | with_reducible assumption
    | with_reducible apply incL_ok
    | with_reducible apply servo_ok
    | with_reducible apply setDom_ok
    | with_reducible apply toL_ok
    | with_reducible apply ite_ok
    | intro _
    | with_reducible refine okOf ?_ rfl rfl rfl rfl rfl rfl rfl rfl rfl
    | simp only [ok_mk]
    | split
    | refine okOf ?_ rfl rfl rfl rfl rfl rfl rfl rfl rfl
    | dsimp only

theorem execPtpFollowUpReceive_ok {κ : Kept} {port3 : Bool} {domain seq origin : Nat} {corr : Int} {s : State} (hκ : s.Ok κ) : ∃ st' : State, execPtpFollowUpReceive port3 domain seq origin corr s = .next st' ∧ st'.Ok κ := by
  refine ⟨_, rfl, ?_⟩
  try dsimp only
  repeat' first
    | with_reducible assumption
    | with_reducible apply servo_ok
    | with_reducible apply setDom_ok
    | with_reducible apply ite_ok
    | intro _
    | with_reducible refine okOf ?_ rfl rfl rfl rfl rfl rfl rfl rfl rfl
    | simp only [ok_mk]
    | split
    | refine okOf ?_ rfl rfl rfl rfl rfl rfl rfl rfl rfl
    | dsimp only

theorem seeGm_ok {κ : Kept} {s : State} {d : Nat} (hκ : s.Ok κ) : (State.seeGm s d).Ok κ := by
  unfold State.seeGm
  try dsimp only
  repeat' first
    | with_reducible assumption
    | with_reducible apply incL_ok
    | with_reducible apply journal_ok
    | with_reducible apply setDom_ok
    | with_reducible apply ite_ok
    | intro _
    | with_reducible refine okOf ?_ rfl rfl rfl rfl rfl rfl rfl rfl rfl
    | simp only [ok_mk]
    | split
    | refine okOf ?_ rfl rfl rfl rfl rfl rfl rfl rfl rfl
    | dsimp only

theorem execPtpAnnounceReceive_ok {κ : Kept} {port3 : Bool} {domain gm rank : Nat} {utc : Int} {flags : BitVec 4} {inacc : Option Nat} {s : State} (hκ : s.Ok κ) : ∃ st' : State, execPtpAnnounceReceive port3 domain gm rank utc flags inacc s = .next st' ∧ st'.Ok κ := by
  refine ⟨_, rfl, ?_⟩
  try dsimp only
  repeat' first
    | with_reducible assumption
    | with_reducible apply putDom_ok
    | with_reducible apply seeGm_ok
    | with_reducible apply timeLevels_ok
    | with_reducible apply ite_ok
    | intro _
    | with_reducible refine okOf ?_ rfl rfl rfl rfl rfl rfl rfl rfl rfl
    | simp only [ok_mk]
    | split
    | refine okOf ?_ rfl rfl rfl rfl rfl rfl rfl rfl rfl
    | dsimp only

theorem execPdelayReqReceive_ok {κ : Kept} {port3 : Bool} {domain seq l tx : Nat} {s : State} (hκ : s.Ok κ) : ∃ st' : State, execPdelayReqReceive port3 domain seq l tx s = .next st' ∧ st'.Ok κ := by
  refine ⟨_, rfl, ?_⟩
  try dsimp only
  repeat' first
    | with_reducible assumption
    | with_reducible apply setPtp_ok
    | with_reducible apply toL_ok
    | with_reducible apply ite_ok
    | intro _
    | with_reducible refine okOf ?_ rfl rfl rfl rfl rfl rfl rfl rfl rfl
    | simp only [ok_mk]
    | split
    | refine okOf ?_ rfl rfl rfl rfl rfl rfl rfl rfl rfl
    | dsimp only

theorem execPdelayReqSend_ok {κ : Kept} {port3 : Bool} {l : Nat} {s : State} (hκ : s.Ok κ) : ∃ st' : State, execPdelayReqSend port3 l s = .next st' ∧ st'.Ok κ := by
  refine ⟨_, rfl, ?_⟩
  try dsimp only
  repeat' first
    | with_reducible assumption
    | with_reducible apply setPtp_ok
    | with_reducible apply toL_ok
    | with_reducible apply ite_ok
    | intro _
    | with_reducible refine okOf ?_ rfl rfl rfl rfl rfl rfl rfl rfl rfl
    | simp only [ok_mk]
    | split
    | refine okOf ?_ rfl rfl rfl rfl rfl rfl rfl rfl rfl
    | dsimp only

theorem execPdelayRespReceive_ok {κ : Kept} {port3 : Bool} {seq t2 : Nat} {corr : Int} {l : Nat} {s : State} (hκ : s.Ok κ) : ∃ st' : State, execPdelayRespReceive port3 seq t2 corr l s = .next st' ∧ st'.Ok κ := by
  refine ⟨_, rfl, ?_⟩
  try dsimp only
  repeat' first
    | with_reducible assumption
    | with_reducible apply setPtp_ok
    | with_reducible apply toL_ok
    | with_reducible apply ite_ok
    | intro _
    | with_reducible refine okOf ?_ rfl rfl rfl rfl rfl rfl rfl rfl rfl
    | simp only [ok_mk]
    | split
    | refine okOf ?_ rfl rfl rfl rfl rfl rfl rfl rfl rfl
    | dsimp only

theorem execPdelayRespFollowUpReceive_ok {κ : Kept} {port3 : Bool} {seq t3 : Nat} {corr : Int} {s : State} (hκ : s.Ok κ) : ∃ st' : State, execPdelayRespFollowUpReceive port3 seq t3 corr s = .next st' ∧ st'.Ok κ := by
  refine ⟨_, rfl, ?_⟩
  try dsimp only
  repeat' first
    | with_reducible assumption
    | with_reducible apply setPtp_ok
    | with_reducible apply ite_ok
    | intro _
    | with_reducible refine okOf ?_ rfl rfl rfl rfl rfl rfl rfl rfl rfl
    | simp only [ok_mk]
    | split
    | refine okOf ?_ rfl rfl rfl rfl rfl rfl rfl rfl rfl
    | dsimp only

theorem execPtpUnsupportedReceive_ok {κ : Kept} {port3 : Bool} {domain : Nat} {s : State} (hκ : s.Ok κ) : ∃ st' : State, execPtpUnsupportedReceive port3 domain s = .next st' ∧ st'.Ok κ := by
  refine ⟨_, rfl, ?_⟩
  try dsimp only
  repeat' first
    | with_reducible assumption
    | with_reducible apply incL_ok
    | with_reducible apply ite_ok
    | intro _
    | with_reducible refine okOf ?_ rfl rfl rfl rfl rfl rfl rfl rfl rfl
    | simp only [ok_mk]
    | split
    | refine okOf ?_ rfl rfl rfl rfl rfl rfl rfl rfl rfl
    | dsimp only

theorem loseOffsets_ok {κ : Kept} {s : State} {d : Nat} (hκ : s.Ok κ) : (State.loseOffsets s d).Ok κ := by
  unfold State.loseOffsets
  try dsimp only
  repeat' first
    | with_reducible assumption
    | with_reducible apply idle_ok
    | with_reducible apply putDom_ok
    | with_reducible apply ite_ok
    | intro _
    | with_reducible refine okOf ?_ rfl rfl rfl rfl rfl rfl rfl rfl rfl
    | simp only [ok_mk]
    | split
    | refine okOf ?_ rfl rfl rfl rfl rfl rfl rfl rfl rfl
    | dsimp only

theorem execOffsetTimeout_ok {κ : Kept} {d : Fin 2} {s : State} (hκ : s.Ok κ) : ∃ st' : State, execOffsetTimeout d s = .next st' ∧ st'.Ok κ := by
  refine ⟨_, rfl, ?_⟩
  try dsimp only
  repeat' first
    | with_reducible assumption
    | with_reducible apply incL_ok
    | with_reducible apply loseOffsets_ok
    | with_reducible apply ite_ok
    | intro _
    | with_reducible refine okOf ?_ rfl rfl rfl rfl rfl rfl rfl rfl rfl
    | simp only [ok_mk]
    | split
    | refine okOf ?_ rfl rfl rfl rfl rfl rfl rfl rfl rfl
    | dsimp only

theorem execAnnounceTimeout_ok {κ : Kept} {d : Fin 2} {port3 : Bool} {s : State} (hκ : s.Ok κ) : ∃ st' : State, execAnnounceTimeout d port3 s = .next st' ∧ st'.Ok κ := by
  refine ⟨_, rfl, ?_⟩
  try dsimp only
  repeat' first
    | with_reducible assumption
    | with_reducible apply loseOffsets_ok
    | with_reducible apply seeGm_ok
    | with_reducible apply setDom_ok
    | with_reducible apply timeLevels_ok
    | with_reducible apply ite_ok
    | intro _
    | with_reducible refine okOf ?_ rfl rfl rfl rfl rfl rfl rfl rfl rfl
    | simp only [ok_mk]
    | split
    | refine okOf ?_ rfl rfl rfl rfl rfl rfl rfl rfl rfl
    | dsimp only

theorem execHoldoverExpired_ok {κ : Kept} {d : Fin 2} {s : State} (hκ : s.Ok κ) : ∃ st' : State, execHoldoverExpired d s = .next st' ∧ st'.Ok κ := by
  refine ⟨_, rfl, ?_⟩
  try dsimp only
  repeat' first
    | with_reducible assumption
    | with_reducible apply raiseIf_ok
    | with_reducible apply setDom_ok
    | with_reducible apply timeLevels_ok
    | with_reducible apply ite_ok
    | intro _
    | with_reducible refine okOf ?_ rfl rfl rfl rfl rfl rfl rfl rfl rfl
    | simp only [ok_mk]
    | split
    | refine okOf ?_ rfl rfl rfl rfl rfl rfl rfl rfl rfl
    | dsimp only

theorem selectDom_ok {κ : Kept} {s : State} {b : Bool} (hκ : s.Ok κ) : (State.selectDom s b).Ok κ := by
  unfold State.selectDom
  try dsimp only
  repeat' first
    | with_reducible assumption
    | with_reducible apply incL_ok
    | with_reducible apply irqEdge_ok
    | with_reducible apply journal_ok
    | with_reducible apply noteOff_ok
    | with_reducible apply offStep_ok
    | with_reducible apply timeLevels_ok
    | with_reducible apply ite_ok
    | intro _
    | with_reducible refine okOf ?_ rfl rfl rfl rfl rfl rfl rfl rfl rfl
    | simp only [ok_mk]
    | split
    | refine okOf ?_ rfl rfl rfl rfl rfl rfl rfl rfl rfl
    | dsimp only

theorem rateTick_ok {κ : Kept} {s : State} (hκ : s.Ok κ) : (State.rateTick s).Ok κ := by
  unfold State.rateTick
  try dsimp only
  repeat' first
    | with_reducible assumption
    | with_reducible apply ite_ok
    | intro _
    | with_reducible refine okOf ?_ rfl rfl rfl rfl rfl rfl rfl rfl rfl
    | simp only [ok_mk]
    | split
    | refine okOf ?_ rfl rfl rfl rfl rfl rfl rfl rfl rfl
    | dsimp only

theorem timeTick_ok {κ : Kept} {s : State} (hκ : s.Ok κ) : (State.timeTick s).Ok κ := by
  unfold State.timeTick
  try dsimp only
  repeat' first
    | with_reducible assumption
    | with_reducible apply rateTick_ok
    | with_reducible apply selectDom_ok
    | with_reducible apply timeLevels_ok
    | with_reducible apply ite_ok
    | intro _
    | with_reducible refine okOf ?_ rfl rfl rfl rfl rfl rfl rfl rfl rfl
    | simp only [ok_mk]
    | split
    | refine okOf ?_ rfl rfl rfl rfl rfl rfl rfl rfl rfl
    | dsimp only

theorem domCommit_ok {κ : Kept} {s : State} {d : Nat} {fresh : Bool} (hκ : s.Ok κ) : (State.domCommit s d fresh).Ok κ := by
  unfold State.domCommit
  try dsimp only
  repeat' first
    | with_reducible assumption
    | with_reducible apply idle_ok
    | with_reducible apply putDom_ok
    | with_reducible apply ite_ok
    | intro _
    | with_reducible refine okOf ?_ rfl rfl rfl rfl rfl rfl rfl rfl rfl
    | simp only [ok_mk]
    | split
    | refine okOf ?_ rfl rfl rfl rfl rfl rfl rfl rfl rfl
    | dsimp only

theorem ppsOffset_ok {κ : Kept} {s : State} {t : Int} {l : Nat} (hκ : s.Ok κ) : (State.ppsOffset s t l).Ok κ := by
  unfold State.ppsOffset
  try dsimp only
  repeat' first
    | with_reducible assumption
    | with_reducible apply incL_ok
    | with_reducible apply raise_ok
    | with_reducible apply servo_ok
    | with_reducible apply ite_ok
    | intro _
    | with_reducible refine okOf ?_ rfl rfl rfl rfl rfl rfl rfl rfl rfl
    | simp only [ok_mk]
    | split
    | refine okOf ?_ rfl rfl rfl rfl rfl rfl rfl rfl rfl
    | dsimp only

theorem execPpsInEdge_ok {κ : Kept} {falling : Bool} {l : Nat} {s : State} (hκ : s.Ok κ) : ∃ st' : State, execPpsInEdge falling l s = .next st' ∧ st'.Ok κ := by
  refine ⟨_, rfl, ?_⟩
  try dsimp only
  repeat' first
    | with_reducible assumption
    | with_reducible apply incL_ok
    | with_reducible apply irqEdge_ok
    | with_reducible apply ppsOffset_ok
    | with_reducible apply toL_ok
    | with_reducible apply ite_ok
    | intro _
    | with_reducible refine okOf ?_ rfl rfl rfl rfl rfl rfl rfl rfl rfl
    | simp only [ok_mk]
    | split
    | refine okOf ?_ rfl rfl rfl rfl rfl rfl rfl rfl rfl
    | dsimp only

theorem execPpsOutRise_ok {κ : Kept} {s : State} (hκ : s.Ok κ) : ∃ st' : State, execPpsOutRise s = .next st' ∧ st'.Ok κ := by
  refine ⟨_, rfl, ?_⟩
  try dsimp only
  repeat' first
    | with_reducible assumption
    | with_reducible apply toL_ok
    | with_reducible apply ite_ok
    | intro _
    | with_reducible refine okOf ?_ rfl rfl rfl rfl rfl rfl rfl rfl rfl
    | simp only [ok_mk]
    | split
    | refine okOf ?_ rfl rfl rfl rfl rfl rfl rfl rfl rfl
    | dsimp only

theorem execPpsOutFall_ok {κ : Kept} {s : State} (hκ : s.Ok κ) : ∃ st' : State, execPpsOutFall s = .next st' ∧ st'.Ok κ := by
  refine ⟨_, rfl, ?_⟩
  try dsimp only
  repeat' first
    | with_reducible assumption
    | with_reducible apply toL_ok
    | with_reducible apply ite_ok
    | intro _
    | with_reducible refine okOf ?_ rfl rfl rfl rfl rfl rfl rfl rfl rfl
    | simp only [ok_mk]
    | split
    | refine okOf ?_ rfl rfl rfl rfl rfl rfl rfl rfl rfl
    | dsimp only

end Sys2Proof.Machine
end

