-- ==== Sys2Proof/Laws/KeepsPhasor.lean ====
section
/-! SUPPORT. The operations of Phasor.lean keep what Keeps.lean names. -/
namespace Sys2Proof.Machine
set_option linter.all false

theorem phFeed_ok {κ : Kept} {s : State} {st : Nat} {smps : List (Nat × Int)} {ovr bad : Bool} {end60 : Nat} (hκ : s.Ok κ) : (State.phFeed s st smps ovr bad end60).Ok κ := by
  unfold State.phFeed
  try dsimp only
  repeat' first
    | with_reducible assumption
    | with_reducible apply addL_ok
    | with_reducible apply ite_ok
    | intro _
    | with_reducible refine okOf ?_ rfl rfl rfl rfl rfl rfl rfl rfl rfl
    | simp only [ok_mk]
    | split
    | refine okOf ?_ rfl rfl rfl rfl rfl rfl rfl rfl rfl
    | dsimp only

theorem setWave_ok {κ : Kept} {s : State} {w : Nat} {x : WtChan} (hκ : s.Ok κ) : (State.setWave s w x).Ok κ := by
  unfold State.setWave
  try dsimp only
  repeat' first
    | with_reducible assumption
    | with_reducible apply ite_ok
    | intro _
    | with_reducible refine okOf ?_ rfl rfl rfl rfl rfl rfl rfl rfl rfl
    | simp only [ok_mk]
    | split
    | refine okOf ?_ rfl rfl rfl rfl rfl rfl rfl rfl rfl
    | dsimp only

theorem waveResolve_ok {κ : Kept} {s : State} {w : Nat} {next : Option (Int × Nat × Bool)} (hκ : s.Ok κ) : (State.waveResolve s w next).Ok κ := by
  unfold State.waveResolve
  try dsimp only
  repeat' first
    | with_reducible assumption
    | with_reducible apply incIf_ok
    | with_reducible apply setWave_ok
    | with_reducible apply ite_ok
    | intro _
    | with_reducible refine okOf ?_ rfl rfl rfl rfl rfl rfl rfl rfl rfl
    | simp only [ok_mk]
    | split
    | refine okOf ?_ rfl rfl rfl rfl rfl rfl rfl rfl rfl
    | dsimp only

theorem waveSample_ok {κ : Kept} {s : State} {w t60 : Nat} {v : Int} {sat : Bool} (hκ : s.Ok κ) : (State.waveSample s w t60 v sat).Ok κ := by
  unfold State.waveSample
  try dsimp only
  repeat' first
    | with_reducible assumption
    | with_reducible apply setWave_ok
    | with_reducible apply waveResolve_ok
    | with_reducible apply ite_ok
    | intro _
    | with_reducible refine okOf ?_ rfl rfl rfl rfl rfl rfl rfl rfl rfl
    | simp only [ok_mk]
    | split
    | refine okOf ?_ rfl rfl rfl rfl rfl rfl rfl rfl rfl
    | dsimp only

theorem waveMissing_ok {κ : Kept} {s : State} {w : Nat} (hκ : s.Ok κ) : (State.waveMissing s w).Ok κ := by
  unfold State.waveMissing
  try dsimp only
  repeat' first
    | with_reducible assumption
    | with_reducible apply setWave_ok
    | with_reducible apply waveResolve_ok
    | with_reducible apply ite_ok
    | intro _
    | with_reducible refine okOf ?_ rfl rfl rfl rfl rfl rfl rfl rfl rfl
    | simp only [ok_mk]
    | split
    | refine okOf ?_ rfl rfl rfl rfl rfl rfl rfl rfl rfl
    | dsimp only

theorem waveRestart_ok {κ : Kept} {s : State} {w : Nat} (hκ : s.Ok κ) : (State.waveRestart s w).Ok κ := by
  unfold State.waveRestart
  try dsimp only
  repeat' first
    | with_reducible assumption
    | with_reducible apply setWave_ok
    | with_reducible apply ite_ok
    | intro _
    | with_reducible refine okOf ?_ rfl rfl rfl rfl rfl rfl rfl rfl rfl
    | simp only [ok_mk]
    | split
    | refine okOf ?_ rfl rfl rfl rfl rfl rfl rfl rfl rfl
    | dsimp only

theorem streamRecord_ok {κ : Kept} {s : State} {st j : Nat} {vals : List Int} {ovr bad : Bool} (hκ : s.Ok κ) : (State.streamRecord s st j vals ovr bad).Ok κ := by
  unfold State.streamRecord
  try dsimp only
  repeat' first
    | with_reducible assumption
    | with_reducible apply ite_ok
    | intro _
    | with_reducible refine okOf ?_ rfl rfl rfl rfl rfl rfl rfl rfl rfl
    | simp only [ok_mk]
    | split
    | refine okOf ?_ rfl rfl rfl rfl rfl rfl rfl rfl rfl
    | dsimp only

theorem streamFrame_ok {κ : Kept} {s : State} {st j : Nat} (hκ : s.Ok κ) : (State.streamFrame s st j).Ok κ := by
  unfold State.streamFrame
  try dsimp only
  repeat' first
    | with_reducible assumption
    | with_reducible apply phFeed_ok
    | with_reducible apply waveMissing_ok
    | with_reducible apply waveSample_ok
    | with_reducible apply foldl_ok
    | with_reducible apply foldl_ok_fst
    | with_reducible apply ite_ok
    | intro _
    | with_reducible refine okOf ?_ rfl rfl rfl rfl rfl rfl rfl rfl rfl
    | simp only [ok_mk]
    | split
    | refine okOf ?_ rfl rfl rfl rfl rfl rfl rfl rfl rfl
    | dsimp only

theorem streamGone_ok {κ : Kept} {s : State} {st : Nat} (hκ : s.Ok κ) : (State.streamGone s st).Ok κ := by
  unfold State.streamGone
  try dsimp only
  repeat' first
    | with_reducible assumption
    | with_reducible apply phFeed_ok
    | with_reducible apply waveMissing_ok
    | with_reducible apply foldl_ok
    | with_reducible apply foldl_ok_fst
    | with_reducible apply ite_ok
    | intro _
    | with_reducible refine okOf ?_ rfl rfl rfl rfl rfl rfl rfl rfl rfl
    | simp only [ok_mk]
    | split
    | refine okOf ?_ rfl rfl rfl rfl rfl rfl rfl rfl rfl
    | dsimp only

theorem execWaveTagWrite_ok {κ : Kept} {w : Fin 12} {s : State} (hκ : s.Ok κ) : ∃ st' : State, execWaveTagWrite w s = .next st' ∧ st'.Ok κ := by
  refine ⟨_, rfl, ?_⟩
  try dsimp only
  repeat' first
    | with_reducible assumption
    | with_reducible apply acqTag_ok
    | with_reducible apply acqTrigger_ok
    | with_reducible apply event_ok
    | with_reducible apply incL_ok
    | with_reducible apply irqEdge_ok
    | with_reducible apply journalAt_ok
    | with_reducible apply occPend_ok
    | with_reducible apply originate_ok
    | with_reducible apply reactC3_ok
    | with_reducible apply setL64_ok
    | with_reducible apply setLN_ok
    | with_reducible apply setL_ok
    | with_reducible apply setWave_ok
    | with_reducible apply ite_ok
    | intro _
    | with_reducible refine okOf ?_ rfl rfl rfl rfl rfl rfl rfl rfl rfl
    | simp only [ok_mk]
    | split
    | refine okOf ?_ rfl rfl rfl rfl rfl rfl rfl rfl rfl
    | dsimp only

theorem putResult_ok {κ : Kept} {s : State} {c seq t : Nat} {r : Nat × Word × Word × Word × Word} (hκ : s.Ok κ) : (State.putResult s c seq t r).Ok κ := by
  unfold State.putResult
  try dsimp only
  repeat' first
    | with_reducible assumption
    | with_reducible apply setL64_ok
    | with_reducible apply setLN_ok
    | with_reducible apply setL_ok
    | with_reducible apply ite_ok
    | intro _
    | with_reducible refine okOf ?_ rfl rfl rfl rfl rfl rfl rfl rfl rfl
    | simp only [ok_mk]
    | split
    | refine okOf ?_ rfl rfl rfl rfl rfl rfl rfl rfl rfl
    | dsimp only

theorem reportBlock_ok {κ : Kept} {s : State} {v : PhSet} {seq t : Nat} (hκ : s.Ok κ) : (State.reportBlock s v seq t).Ok κ := by
  unfold State.reportBlock
  try dsimp only
  repeat' first
    | with_reducible assumption
    | with_reducible apply wrBytes_ok
    | with_reducible apply ite_ok
    | intro _
    | with_reducible refine okOf ?_ rfl rfl rfl rfl rfl rfl rfl rfl rfl
    | simp only [ok_mk]
    | split
    | refine okOf ?_ rfl rfl rfl rfl rfl rfl rfl rfl rfl
    | dsimp only

theorem phPublish_ok {κ : Kept} {s : State} {v : PhSet} {u at0 : Nat} (hκ : s.Ok κ) : (State.phPublish s v u at0).Ok κ := by
  unfold State.phPublish
  try dsimp only
  repeat' first
    | with_reducible assumption
    | with_reducible apply each_ok
    | with_reducible apply event_ok
    | with_reducible apply incIf_ok
    | with_reducible apply irqEdge_ok
    | with_reducible apply putResult_ok
    | with_reducible apply reportBlock_ok
    | with_reducible apply setLN_ok
    | with_reducible apply ite_ok
    | intro _
    | with_reducible refine okOf ?_ rfl rfl rfl rfl rfl rfl rfl rfl rfl
    | simp only [ok_mk]
    | split
    | refine okOf ?_ rfl rfl rfl rfl rfl rfl rfl rfl rfl
    | dsimp only

theorem publishNow_ok {κ : Kept} {s : State} (hκ : s.Ok κ) : (State.publishNow s).Ok κ := by
  unfold State.publishNow
  try dsimp only
  repeat' first
    | with_reducible assumption
    | with_reducible apply phPublish_ok
    | with_reducible apply ite_ok
    | intro _
    | with_reducible refine okOf ?_ rfl rfl rfl rfl rfl rfl rfl rfl rfl
    | simp only [ok_mk]
    | split
    | refine okOf ?_ rfl rfl rfl rfl rfl rfl rfl rfl rfl
    | dsimp only

theorem phStep_ok {κ : Kept} {s : State} {x : Nat × Nat × Nat} (hκ : s.Ok κ) : (State.phStep s x).Ok κ := by
  unfold State.phStep
  try dsimp only
  repeat' first
    | with_reducible assumption
    | with_reducible apply ite_ok
    | intro _
    | with_reducible refine okOf ?_ rfl rfl rfl rfl rfl rfl rfl rfl rfl
    | simp only [ok_mk]
    | split
    | refine okOf ?_ rfl rfl rfl rfl rfl rfl rfl rfl rfl
    | dsimp only

theorem phTick_ok {κ : Kept} {s : State} (hκ : s.Ok κ) : (State.phTick s).Ok κ := by
  unfold State.phTick
  try dsimp only
  repeat' first
    | with_reducible assumption
    | with_reducible apply phStep_ok
    | with_reducible apply foldl_ok
    | with_reducible apply foldl_ok_fst
    | with_reducible apply ite_ok
    | intro _
    | with_reducible refine okOf ?_ rfl rfl rfl rfl rfl rfl rfl rfl rfl
    | simp only [ok_mk]
    | split
    | refine okOf ?_ rfl rfl rfl rfl rfl rfl rfl rfl rfl
    | dsimp only

theorem execPhasorPublish_ok {κ : Kept} {s : State} (hκ : s.Ok κ) : ∃ st' : State, execPhasorPublish s = .next st' ∧ st'.Ok κ := by
  refine ⟨_, rfl, ?_⟩
  try dsimp only
  repeat' first
    | with_reducible assumption
    | with_reducible apply phPublish_ok
    | with_reducible apply phTick_ok
    | with_reducible apply publishNow_ok
    | with_reducible apply ite_ok
    | intro _
    | with_reducible refine okOf ?_ rfl rfl rfl rfl rfl rfl rfl rfl rfl
    | simp only [ok_mk]
    | split
    | refine okOf ?_ rfl rfl rfl rfl rfl rfl rfl rfl rfl
    | dsimp only

theorem phRestart_ok {κ : Kept} {s : State} {c : Nat} (hκ : s.Ok κ) : (State.phRestart s c).Ok κ := by
  unfold State.phRestart
  try dsimp only
  repeat' first
    | with_reducible assumption
    | with_reducible apply ite_ok
    | intro _
    | with_reducible refine okOf ?_ rfl rfl rfl rfl rfl rfl rfl rfl rfl
    | simp only [ok_mk]
    | split
    | refine okOf ?_ rfl rfl rfl rfl rfl rfl rfl rfl rfl
    | dsimp only

theorem phSwap_ok {κ : Kept} {s o0 : State} {newGrid : Bool} {cs : List Nat} (hκ : s.Ok κ) : (State.phSwap s o0 newGrid cs).Ok κ := by
  unfold State.phSwap
  try dsimp only
  repeat' first
    | with_reducible assumption
    | with_reducible apply each_ok
    | with_reducible apply phRestart_ok
    | with_reducible apply phTick_ok
    | with_reducible apply ite_ok
    | intro _
    | with_reducible refine okOf ?_ rfl rfl rfl rfl rfl rfl rfl rfl rfl
    | simp only [ok_mk]
    | split
    | refine okOf ?_ rfl rfl rfl rfl rfl rfl rfl rfl rfl
    | dsimp only

end Sys2Proof.Machine
end

