-- ==== Sys2Proof/Laws/KeepsUplink.lean ====
section
/-! SUPPORT. The operations of Uplink.lean keep what Keeps.lean names. -/
namespace Sys2Proof.Machine
set_option linter.all false

theorem missLeaf_ok {κ : Kept} {s : State} {n : Nat} {x : Nat × Word} (hκ : s.Ok κ) : (State.missLeaf s n x).Ok κ := by
  unfold State.missLeaf
  try dsimp only
  repeat' first
    | with_reducible assumption
    | with_reducible apply addL_ok
    | with_reducible apply ledgerMiss_ok
    | with_reducible apply setRoute_ok
    | with_reducible apply ite_ok
    | intro _
    | with_reducible refine okOf ?_ rfl rfl rfl rfl rfl rfl rfl rfl rfl
    | simp only [ok_mk]
    | split
    | refine okOf ?_ rfl rfl rfl rfl rfl rfl rfl rfl rfl
    | dsimp only

theorem closeFrame_ok {κ : Kept} {s : State} {n j : Nat} {got : List Nat} (hκ : s.Ok κ) : (State.closeFrame s n j got).Ok κ := by
  unfold State.closeFrame
  try dsimp only
  repeat' first
    | with_reducible assumption
    | with_reducible apply each_ok
    | with_reducible apply missLeaf_ok
    | with_reducible apply setRoute_ok
    | with_reducible apply streamFrame_ok
    | with_reducible apply foldl_ok
    | with_reducible apply foldl_ok_fst
    | with_reducible apply ite_ok
    | intro _
    | with_reducible refine okOf ?_ rfl rfl rfl rfl rfl rfl rfl rfl rfl
    | simp only [ok_mk]
    | split
    | refine okOf ?_ rfl rfl rfl rfl rfl rfl rfl rfl rfl
    | dsimp only

theorem endTrain_ok {κ : Kept} {s : State} {n : Nat} (hκ : s.Ok κ) : (State.endTrain s n).Ok κ := by
  unfold State.endTrain
  try dsimp only
  repeat' first
    | with_reducible assumption
    | with_reducible apply closeFrame_ok
    | with_reducible apply setRoute_ok
    | with_reducible apply ite_ok
    | intro _
    | with_reducible refine okOf ?_ rfl rfl rfl rfl rfl rfl rfl rfl rfl
    | simp only [ok_mk]
    | split
    | refine okOf ?_ rfl rfl rfl rfl rfl rfl rfl rfl rfl
    | dsimp only

theorem closeDue_ok {κ : Kept} {s : State} {n : Nat} (hκ : s.Ok κ) : (State.closeDue s n).Ok κ := by
  unfold State.closeDue
  try dsimp only
  repeat' first
    | with_reducible assumption
    | with_reducible apply closeFrame_ok
    | with_reducible apply foldl_ok
    | with_reducible apply foldl_ok_fst
    | with_reducible apply ite_ok
    | intro _
    | with_reducible refine okOf ?_ rfl rfl rfl rfl rfl rfl rfl rfl rfl
    | simp only [ok_mk]
    | split
    | refine okOf ?_ rfl rfl rfl rfl rfl rfl rfl rfl rfl
    | dsimp only

theorem execFrameCloseTimeout_ok {κ : Kept} {n : Fin 32} {s : State} (hκ : s.Ok κ) : ∃ st' : State, execFrameCloseTimeout n s = .next st' ∧ st'.Ok κ := by
  refine ⟨_, rfl, ?_⟩
  try dsimp only
  repeat' first
    | with_reducible assumption
    | with_reducible apply closeDue_ok
    | with_reducible apply ite_ok
    | intro _
    | with_reducible refine okOf ?_ rfl rfl rfl rfl rfl rfl rfl rfl rfl
    | simp only [ok_mk]
    | split
    | refine okOf ?_ rfl rfl rfl rfl rfl rfl rfl rfl rfl
    | dsimp only

theorem laneCrc_ok {κ : Kept} {s : State} {src n : Nat} (hκ : s.Ok κ) : (State.laneCrc s src n).Ok κ := by
  unfold State.laneCrc
  try dsimp only
  repeat' first
    | with_reducible assumption
    | with_reducible apply noteLaneErr_ok
    | with_reducible apply raiseAs_ok
    | with_reducible apply ite_ok
    | intro _
    | with_reducible refine okOf ?_ rfl rfl rfl rfl rfl rfl rfl rfl rfl
    | simp only [ok_mk]
    | split
    | refine okOf ?_ rfl rfl rfl rfl rfl rfl rfl rfl rfl
    | dsimp only

theorem dualActive_ok {κ : Kept} {s : State} (hκ : s.Ok κ) : (State.dualActive s).Ok κ := by
  unfold State.dualActive
  try dsimp only
  repeat' first
    | with_reducible assumption
    | with_reducible apply incL_ok
    | with_reducible apply irqEdge_ok
    | with_reducible apply raise_ok
    | with_reducible apply ite_ok
    | intro _
    | with_reducible refine okOf ?_ rfl rfl rfl rfl rfl rfl rfl rfl rfl
    | simp only [ok_mk]
    | split
    | refine okOf ?_ rfl rfl rfl rfl rfl rfl rfl rfl rfl
    | dsimp only

theorem headerReport_ok {κ : Kept} {s : State} {n : Nat} {h : BitVec 128} {prev : Option Nat} {j : Nat} (hκ : s.Ok κ) : (State.headerReport s n h prev j).Ok κ := by
  unfold State.headerReport
  try dsimp only
  repeat' first
    | with_reducible assumption
    | with_reducible apply dualActive_ok
    | with_reducible apply setRoute_ok
    | with_reducible apply ite_ok
    | intro _
    | with_reducible refine okOf ?_ rfl rfl rfl rfl rfl rfl rfl rfl rfl
    | simp only [ok_mk]
    | split
    | refine okOf ?_ rfl rfl rfl rfl rfl rfl rfl rfl rfl
    | dsimp only

theorem openTrain_ok {κ : Kept} {s : State} {n : Nat} {header : BitVec 128} (hκ : s.Ok κ) : (State.openTrain s n header).Ok κ := by
  unfold State.openTrain
  try dsimp only
  repeat' first
    | with_reducible assumption
    | with_reducible apply closeFrame_ok
    | with_reducible apply headerReport_ok
    | with_reducible apply incL_ok
    | with_reducible apply raise_ok
    | with_reducible apply setRoute_ok
    | with_reducible apply ite_ok
    | intro _
    | with_reducible refine okOf ?_ rfl rfl rfl rfl rfl rfl rfl rfl rfl
    | simp only [ok_mk]
    | split
    | refine okOf ?_ rfl rfl rfl rfl rfl rfl rfl rfl rfl
    | dsimp only

theorem execUplinkTrainReceive_ok {κ : Kept} {n : Fin 32} {header : BitVec 128} {s : State} (hκ : s.Ok κ) : ∃ st' : State, execUplinkTrainReceive n header s = .next st' ∧ st'.Ok κ := by
  refine ⟨_, rfl, ?_⟩
  try dsimp only
  repeat' first
    | with_reducible assumption
    | with_reducible apply closeFrame_ok
    | with_reducible apply endTrain_ok
    | with_reducible apply incL_ok
    | with_reducible apply laneCrc_ok
    | with_reducible apply openTrain_ok
    | with_reducible apply ite_ok
    | intro _
    | with_reducible refine okOf ?_ rfl rfl rfl rfl rfl rfl rfl rfl rfl
    | simp only [ok_mk]
    | split
    | refine okOf ?_ rfl rfl rfl rfl rfl rfl rfl rfl rfl
    | dsimp only

theorem endHoldOff_ok {κ : Kept} {s : State} {n : Nat} {path : Nat} (hκ : s.Ok κ) : (State.endHoldOff s n path).Ok κ := by
  unfold State.endHoldOff
  try dsimp only
  repeat' first
    | with_reducible assumption
    | with_reducible apply setRoute_ok
    | with_reducible apply ite_ok
    | intro _
    | with_reducible refine okOf ?_ rfl rfl rfl rfl rfl rfl rfl rfl rfl
    | simp only [ok_mk]
    | split
    | refine okOf ?_ rfl rfl rfl rfl rfl rfl rfl rfl rfl
    | dsimp only

theorem measRecord_ok {κ : Kept} {s : State} {n j t : Nat} {st : Nat} {ws : List Word} (hκ : s.Ok κ) : (State.measRecord s n j t st ws).Ok κ := by
  unfold State.measRecord
  try dsimp only
  repeat' first
    | with_reducible assumption
    | with_reducible apply incL_ok
    | with_reducible apply streamRecord_ok
    | with_reducible apply ite_ok
    | intro _
    | with_reducible refine okOf ?_ rfl rfl rfl rfl rfl rfl rfl rfl rfl
    | simp only [ok_mk]
    | split
    | refine okOf ?_ rfl rfl rfl rfl rfl rfl rfl rfl rfl
    | dsimp only

theorem groupWords_ok {κ : Kept} {s : State} {frame : Nat} {x : Nat × Word} {seq : Option Word} {new : List (Nat × Word)} (hκ : s.Ok κ) : (State.groupWords s frame x seq new).Ok κ := by
  unfold State.groupWords
  try dsimp only
  repeat' first
    | with_reducible assumption
    | with_reducible apply wrW_ok
    | with_reducible apply foldl_ok
    | with_reducible apply foldl_ok_fst
    | with_reducible apply ite_ok
    | intro _
    | with_reducible refine okOf ?_ rfl rfl rfl rfl rfl rfl rfl rfl rfl
    | simp only [ok_mk]
    | split
    | refine okOf ?_ rfl rfl rfl rfl rfl rfl rfl rfl rfl
    | dsimp only

theorem takeRecord_ok {κ : Kept} {s : State} {n t : Nat} {tr : UpTrain} {x : Nat × Word} {ws : List Word} (hκ : s.Ok κ) : (State.takeRecord s n t tr x ws).Ok κ := by
  unfold State.takeRecord
  try dsimp only
  repeat' first
    | with_reducible assumption
    | with_reducible apply endHoldOff_ok
    | with_reducible apply incIf_ok
    | with_reducible apply ledgerRecord_ok
    | with_reducible apply measRecord_ok
    | with_reducible apply setRoute_ok
    | with_reducible apply ite_ok
    | intro _
    | with_reducible refine okOf ?_ rfl rfl rfl rfl rfl rfl rfl rfl rfl
    | simp only [ok_mk]
    | split
    | refine okOf ?_ rfl rfl rfl rfl rfl rfl rfl rfl rfl
    | dsimp only

theorem takeGroup_ok {κ : Kept} {s : State} {n t : Nat} {tr : UpTrain} {base : Nat} {new : List (Nat × Word)} (hκ : s.Ok κ) : (State.takeGroup s n t tr base new).Ok κ := by
  unfold State.takeGroup
  try dsimp only
  repeat' first
    | with_reducible assumption
    | with_reducible apply groupWords_ok
    | with_reducible apply setRoute_ok
    | with_reducible apply takeRecord_ok
    | with_reducible apply foldl_ok
    | with_reducible apply foldl_ok_fst
    | with_reducible apply ite_ok
    | intro _
    | with_reducible refine okOf ?_ rfl rfl rfl rfl rfl rfl rfl rfl rfl
    | simp only [ok_mk]
    | split
    | refine okOf ?_ rfl rfl rfl rfl rfl rfl rfl rfl rfl
    | dsimp only

theorem execUplinkGroupReceive_ok {κ : Kept} {n g : Fin 32} {recs : List Word} {crc : Word} {t : Nat} {s : State} (hκ : s.Ok κ) : ∃ st' : State, execUplinkGroupReceive n g recs crc t s = .next st' ∧ st'.Ok κ := by
  refine ⟨_, rfl, ?_⟩
  try dsimp only
  repeat' first
    | with_reducible assumption
    | with_reducible apply incL_ok
    | with_reducible apply laneCrc_ok
    | with_reducible apply takeGroup_ok
    | with_reducible apply toC_ok
    | with_reducible apply ite_ok
    | intro _
    | with_reducible refine okOf ?_ rfl rfl rfl rfl rfl rfl rfl rfl rfl
    | simp only [ok_mk]
    | split
    | refine okOf ?_ rfl rfl rfl rfl rfl rfl rfl rfl rfl
    | dsimp only

theorem execUplinkTrainEnd_ok {κ : Kept} {n : Fin 32} {eot : Option (BitVec 64)} {s : State} (hκ : s.Ok κ) : ∃ st' : State, execUplinkTrainEnd n eot s = .next st' ∧ st'.Ok κ := by
  refine ⟨_, rfl, ?_⟩
  try dsimp only
  repeat' first
    | with_reducible assumption
    | with_reducible apply endTrain_ok
    | with_reducible apply incIf_ok
    | with_reducible apply ite_ok
    | intro _
    | with_reducible refine okOf ?_ rfl rfl rfl rfl rfl rfl rfl rfl rfl
    | simp only [ok_mk]
    | split
    | refine okOf ?_ rfl rfl rfl rfl rfl rfl rfl rfl rfl
    | dsimp only

theorem longRecord_ok {κ : Kept} {s : State} {n : Nat} {w0 w1 w2 w3 : Word} (hκ : s.Ok κ) : (State.longRecord s n w0 w1 w2 w3).Ok κ := by
  unfold State.longRecord
  try dsimp only
  repeat' first
    | with_reducible assumption
    | with_reducible apply setLN_ok
    | with_reducible apply ite_ok
    | intro _
    | with_reducible refine okOf ?_ rfl rfl rfl rfl rfl rfl rfl rfl rfl
    | simp only [ok_mk]
    | split
    | refine okOf ?_ rfl rfl rfl rfl rfl rfl rfl rfl rfl
    | dsimp only

theorem execLongSegmentReceive_ok {κ : Kept} {n : Fin 32} {w0 w1 w2 w3 crc : Word} {t0 t3 : Nat} {s : State} (hκ : s.Ok κ) : ∃ st' : State, execLongSegmentReceive n w0 w1 w2 w3 crc t0 t3 s = .next st' ∧ st'.Ok κ := by
  refine ⟨_, rfl, ?_⟩
  try dsimp only
  repeat' first
    | with_reducible assumption
    | with_reducible apply discReply_ok
    | with_reducible apply incL_ok
    | with_reducible apply longRecord_ok
    | with_reducible apply ite_ok
    | intro _
    | with_reducible refine okOf ?_ rfl rfl rfl rfl rfl rfl rfl rfl rfl
    | simp only [ok_mk]
    | split
    | refine okOf ?_ rfl rfl rfl rfl rfl rfl rfl rfl rfl
    | dsimp only

theorem execDiscReplyReceive_ok {κ : Kept} {n : Fin 32} {header : BitVec 128} {w0 w1 w2 w3 crc : Word} {eot : Option (BitVec 64)} {t0 t3 : Nat} {s : State} (hκ : s.Ok κ) : ∃ st' : State, execDiscReplyReceive n header w0 w1 w2 w3 crc eot t0 t3 s = .next st' ∧ st'.Ok κ := by
  refine ⟨_, rfl, ?_⟩
  try dsimp only
  repeat' first
    | with_reducible assumption
    | with_reducible apply discReply_ok
    | with_reducible apply incIf_ok
    | with_reducible apply ite_ok
    | intro _
    | with_reducible refine okOf ?_ rfl rfl rfl rfl rfl rfl rfl rfl rfl
    | simp only [ok_mk]
    | split
    | refine okOf ?_ rfl rfl rfl rfl rfl rfl rfl rfl rfl
    | dsimp only

theorem execDiscTimeout_ok {κ : Kept} {n : Fin 32} {tag : Nat} {s : State} (hκ : s.Ok κ) : ∃ st' : State, execDiscTimeout n tag s = .next st' ∧ st'.Ok κ := by
  refine ⟨_, rfl, ?_⟩
  try dsimp only
  repeat' first
    | with_reducible assumption
    | with_reducible apply discTimeout_ok
    | with_reducible apply ite_ok
    | intro _
    | with_reducible refine okOf ?_ rfl rfl rfl rfl rfl rfl rfl rfl rfl
    | simp only [ok_mk]
    | split
    | refine okOf ?_ rfl rfl rfl rfl rfl rfl rfl rfl rfl
    | dsimp only

theorem execAutoVerifyTrigger_ok {κ : Kept} {n : Fin 32} {i : Nat} {s : State} (hκ : s.Ok κ) : ∃ st' : State, execAutoVerifyTrigger n i s = .next st' ∧ st'.Ok κ := by
  refine ⟨_, rfl, ?_⟩
  try dsimp only
  repeat' first
    | with_reducible assumption
    | with_reducible apply startWalk_ok
    | with_reducible apply ite_ok
    | intro _
    | with_reducible refine okOf ?_ rfl rfl rfl rfl rfl rfl rfl rfl rfl
    | simp only [ok_mk]
    | split
    | refine okOf ?_ rfl rfl rfl rfl rfl rfl rfl rfl rfl
    | dsimp only

theorem wrDiscCtrl_ok {κ : Kept} {n : Nat} {v : Word} {s : State} (hκ : s.Ok κ) : (wrDiscCtrl n v s).1.Ok κ := by
  unfold wrDiscCtrl
  try dsimp only
  repeat' first
    | with_reducible assumption
    | with_reducible apply bootAdvance_ok
    | with_reducible apply discResult_ok
    | with_reducible apply done_ok
    | with_reducible apply dropWalk_ok
    | with_reducible apply refused6_ok
    | with_reducible apply setRouteSt_ok
    | with_reducible apply startWalk_ok
    | with_reducible apply ite_ok
    | intro _
    | with_reducible refine okOf ?_ rfl rfl rfl rfl rfl rfl rfl rfl rfl
    | simp only [ok_mk]
    | split
    | refine okOf ?_ rfl rfl rfl rfl rfl rfl rfl rfl rfl
    | dsimp only

theorem execDiscRediscover_ok {κ : Kept} {p : Path} {n : Fin 32} {s : State} (hκ : s.Ok κ) : ∃ st' : State, execDiscRediscover p n s = .next st' ∧ st'.Ok κ := by
  refine ⟨_, rfl, ?_⟩
  try dsimp only
  repeat' first
    | with_reducible assumption
    | with_reducible apply guardWrite_ok
    | with_reducible apply wrDiscCtrl_ok
    | with_reducible apply ite_ok
    | intro _
    | with_reducible refine okOf ?_ rfl rfl rfl rfl rfl rfl rfl rfl rfl
    | simp only [ok_mk]
    | split
    | refine okOf ?_ rfl rfl rfl rfl rfl rfl rfl rfl rfl
    | dsimp only

theorem execDiscVerify_ok {κ : Kept} {p : Path} {n : Fin 32} {s : State} (hκ : s.Ok κ) : ∃ st' : State, execDiscVerify p n s = .next st' ∧ st'.Ok κ := by
  refine ⟨_, rfl, ?_⟩
  try dsimp only
  repeat' first
    | with_reducible assumption
    | with_reducible apply guardWrite_ok
    | with_reducible apply wrDiscCtrl_ok
    | with_reducible apply ite_ok
    | intro _
    | with_reducible refine okOf ?_ rfl rfl rfl rfl rfl rfl rfl rfl rfl
    | simp only [ok_mk]
    | split
    | refine okOf ?_ rfl rfl rfl rfl rfl rfl rfl rfl rfl
    | dsimp only

theorem execDiscAbort_ok {κ : Kept} {p : Path} {n : Fin 32} {s : State} (hκ : s.Ok κ) : ∃ st' : State, execDiscAbort p n s = .next st' ∧ st'.Ok κ := by
  refine ⟨_, rfl, ?_⟩
  try dsimp only
  repeat' first
    | with_reducible assumption
    | with_reducible apply guardWrite_ok
    | with_reducible apply wrDiscCtrl_ok
    | with_reducible apply ite_ok
    | intro _
    | with_reducible refine okOf ?_ rfl rfl rfl rfl rfl rfl rfl rfl rfl
    | simp only [ok_mk]
    | split
    | refine okOf ?_ rfl rfl rfl rfl rfl rfl rfl rfl rfl
    | dsimp only

end Sys2Proof.Machine
end

