-- ==== Sys2Proof/Laws/KeepsUpstream.lean ====
section
/-! SUPPORT. The operations of Upstream.lean keep what Keeps.lean names. -/
namespace Sys2Proof.Machine
set_option linter.all false

theorem setTimer_ok {κ : Kept} {s : State} {q : Int} (hκ : s.Ok κ) : (State.setTimer s q).Ok κ := by
  unfold State.setTimer
  try dsimp only
  repeat' first
    | with_reducible assumption
    | with_reducible apply ite_ok
    | intro _
    | with_reducible refine okOf ?_ rfl rfl rfl rfl rfl rfl rfl rfl rfl
    | simp only [ok_mk]
    | split
    | refine okOf ?_ rfl rfl rfl rfl rfl rfl rfl rfl rfl
    | dsimp only

theorem leafTimer_ok {κ : Kept} {s : State} {e : Int} {fresh : Bool} (hκ : s.Ok κ) : (State.leafTimer s e fresh).Ok κ := by
  unfold State.leafTimer
  try dsimp only
  repeat' first
    | with_reducible assumption
    | with_reducible apply setTimer_ok
    | with_reducible apply ite_ok
    | intro _
    | with_reducible refine okOf ?_ rfl rfl rfl rfl rfl rfl rfl rfl rfl
    | simp only [ok_mk]
    | split
    | refine okOf ?_ rfl rfl rfl rfl rfl rfl rfl rfl rfl
    | dsimp only

theorem takeSlots_ok {κ : Kept} {s : State} {own : Nat} {slots : List (Option (BitVec 16))} (hκ : s.Ok κ) : (State.takeSlots s own slots).Ok κ := by
  unfold State.takeSlots
  try dsimp only
  repeat' first
    | with_reducible assumption
    | with_reducible apply ite_ok
    | intro _
    | with_reducible refine okOf ?_ rfl rfl rfl rfl rfl rfl rfl rfl rfl
    | simp only [ok_mk]
    | split
    | refine okOf ?_ rfl rfl rfl rfl rfl rfl rfl rfl rfl
    | dsimp only

theorem noteSeen_ok {κ : Kept} {s : State} {slot : Nat} (hκ : s.Ok κ) : (State.noteSeen s slot).Ok κ := by
  unfold State.noteSeen
  try dsimp only
  repeat' first
    | with_reducible assumption
    | with_reducible apply ite_ok
    | intro _
    | with_reducible refine okOf ?_ rfl rfl rfl rfl rfl rfl rfl rfl rfl
    | simp only [ok_mk]
    | split
    | refine okOf ?_ rfl rfl rfl rfl rfl rfl rfl rfl rfl
    | dsimp only

theorem noteHeader_ok {κ : Kept} {s : State} {header : BitVec 128} (hκ : s.Ok κ) : (State.noteHeader s header).Ok κ := by
  unfold State.noteHeader
  try dsimp only
  repeat' first
    | with_reducible assumption
    | with_reducible apply noteSeen_ok
    | with_reducible apply ite_ok
    | intro _
    | with_reducible refine okOf ?_ rfl rfl rfl rfl rfl rfl rfl rfl rfl
    | simp only [ok_mk]
    | split
    | refine okOf ?_ rfl rfl rfl rfl rfl rfl rfl rfl rfl
    | dsimp only

theorem execUpstreamCaravanReceive_ok {κ : Kept} {header : BitVec 128} {groups : List (List (BitVec 16) × BitVec 16)} {eot : Option (BitVec 64)} {t : Nat} {s : State} (hκ : s.Ok κ) : ∃ st' : State, execUpstreamCaravanReceive header groups eot t s = .next st' ∧ st'.Ok κ := by
  refine ⟨_, rfl, ?_⟩
  try dsimp only
  repeat' first
    | with_reducible assumption
    | with_reducible apply faultLevel_ok
    | with_reducible apply incIf_ok
    | with_reducible apply leafTimer_ok
    | with_reducible apply noteHeader_ok
    | with_reducible apply takeSlots_ok
    | with_reducible apply toC_ok
    | with_reducible apply ite_ok
    | intro _
    | with_reducible refine okOf ?_ rfl rfl rfl rfl rfl rfl rfl rfl rfl
    | simp only [ok_mk]
    | split
    | refine okOf ?_ rfl rfl rfl rfl rfl rfl rfl rfl rfl
    | dsimp only

theorem groupUplink_ok {κ : Kept} {s : State} (hκ : s.Ok κ) : (State.groupUplink s).Ok κ := by
  unfold State.groupUplink
  try dsimp only
  repeat' first
    | with_reducible assumption
    | with_reducible apply trainOut_ok
    | with_reducible apply ite_ok
    | intro _
    | with_reducible refine okOf ?_ rfl rfl rfl rfl rfl rfl rfl rfl rfl
    | simp only [ok_mk]
    | split
    | refine okOf ?_ rfl rfl rfl rfl rfl rfl rfl rfl rfl
    | dsimp only

theorem putSlots_ok {κ : Kept} {s : State} {off : Nat} {l : List (Option (BitVec 16))} (hκ : s.Ok κ) : (State.putSlots s off l).Ok κ := by
  unfold State.putSlots
  try dsimp only
  repeat' first
    | with_reducible assumption
    | with_reducible apply wrBytes_ok
    | with_reducible apply foldl_ok
    | with_reducible apply foldl_ok_fst
    | with_reducible apply ite_ok
    | intro _
    | with_reducible refine okOf ?_ rfl rfl rfl rfl rfl rfl rfl rfl rfl
    | simp only [ok_mk]
    | split
    | refine okOf ?_ rfl rfl rfl rfl rfl rfl rfl rfl rfl
    | dsimp only

theorem groupDownlink_ok {κ : Kept} {s : State} (hκ : s.Ok κ) : (State.groupDownlink s).Ok κ := by
  unfold State.groupDownlink
  try dsimp only
  repeat' first
    | with_reducible assumption
    | with_reducible apply putSlots_ok
    | with_reducible apply foldl_ok
    | with_reducible apply foldl_ok_fst
    | with_reducible apply ite_ok
    | intro _
    | with_reducible refine okOf ?_ rfl rfl rfl rfl rfl rfl rfl rfl rfl
    | simp only [ok_mk]
    | split
    | refine okOf ?_ rfl rfl rfl rfl rfl rfl rfl rfl rfl
    | dsimp only

theorem leafSilence_ok {κ : Kept} {s : State} (hκ : s.Ok κ) : (State.leafSilence s).Ok κ := by
  unfold State.leafSilence
  try dsimp only
  repeat' first
    | with_reducible assumption
    | with_reducible apply ite_ok
    | intro _
    | with_reducible refine okOf ?_ rfl rfl rfl rfl rfl rfl rfl rfl rfl
    | simp only [ok_mk]
    | split
    | refine okOf ?_ rfl rfl rfl rfl rfl rfl rfl rfl rfl
    | dsimp only

theorem sendReply_ok {κ : Kept} {s : State} {tag : Nat} {ws : List Word} (hκ : s.Ok κ) : (State.sendReply s tag ws).Ok κ := by
  unfold State.sendReply
  try dsimp only
  repeat' first
    | with_reducible assumption
    | with_reducible apply trainOut_ok
    | with_reducible apply ite_ok
    | intro _
    | with_reducible refine okOf ?_ rfl rfl rfl rfl rfl rfl rfl rfl rfl
    | simp only [ok_mk]
    | split
    | refine okOf ?_ rfl rfl rfl rfl rfl rfl rfl rfl rfl
    | dsimp only

theorem execUpstreamDiscReqReceive_ok {κ : Kept} {header : BitVec 128} {turn : Nat} {s : State} (hκ : s.Ok κ) : ∃ st' : State, execUpstreamDiscReqReceive header turn s = .next st' ∧ st'.Ok κ := by
  refine ⟨_, rfl, ?_⟩
  try dsimp only
  repeat' first
    | with_reducible assumption
    | with_reducible apply draw_ok
    | with_reducible apply reply_ok
    | with_reducible apply sendReply_ok
    | with_reducible apply ite_ok
    | intro _
    | with_reducible refine okOf ?_ rfl rfl rfl rfl rfl rfl rfl rfl rfl
    | simp only [ok_mk]
    | split
    | refine okOf ?_ rfl rfl rfl rfl rfl rfl rfl rfl rfl
    | dsimp only

end Sys2Proof.Machine
end

