-- ==== Sys2Proof/Laws/KeepsLanes.lean ====
section
/-! SUPPORT. The operations of Lanes.lean keep what Keeps.lean names. -/
namespace Sys2Proof.Machine
set_option linter.all false

theorem laneLevels_ok {κ : Kept} {s : State} (hκ : s.Ok κ) : (State.laneLevels s).Ok κ := by
  unfold State.laneLevels
  try dsimp only
  repeat' first
    | with_reducible assumption
    | with_reducible apply each_ok
    | with_reducible apply faultLevel_ok
    | with_reducible apply irqLevel_ok
    | with_reducible apply ite_ok
    | intro _
    | with_reducible refine okOf ?_ rfl rfl rfl rfl rfl rfl rfl rfl rfl
    | simp only [ok_mk]
    | split
    | refine okOf ?_ rfl rfl rfl rfl rfl rfl rfl rfl rfl
    | dsimp only

theorem caravanCut_ok {κ : Kept} {s : State} {n : Nat} (hκ : s.Ok κ) : (State.caravanCut s n).Ok κ := by
  unfold State.caravanCut
  try dsimp only
  repeat' first
    | with_reducible assumption
    | with_reducible apply incL_ok
    | with_reducible apply irqEdge_ok
    | with_reducible apply raise_ok
    | with_reducible apply ite_ok
    | intro _
    | with_reducible refine okOf ?_ rfl rfl rfl rfl rfl rfl rfl rfl rfl
    | simp only [ok_mk]
    | split
    | refine okOf ?_ rfl rfl rfl rfl rfl rfl rfl rfl rfl
    | dsimp only

theorem laneTo_ok {κ : Kept} {s : State} {n : Nat} {f : Lane → Lane} (hκ : s.Ok κ) : (State.laneTo s n f).Ok κ := by
  unfold State.laneTo
  try dsimp only
  repeat' first
    | with_reducible assumption
    | with_reducible apply caravanCut_ok
    | with_reducible apply dropCouriers_ok
    | with_reducible apply endTrain_ok
    | with_reducible apply incL_ok
    | with_reducible apply laneLevels_ok
    | with_reducible apply routeLost_ok
    | with_reducible apply setLane_ok
    | with_reducible apply ite_ok
    | intro _
    | with_reducible refine okOf ?_ rfl rfl rfl rfl rfl rfl rfl rfl rfl
    | simp only [ok_mk]
    | split
    | refine okOf ?_ rfl rfl rfl rfl rfl rfl rfl rfl rfl
    | dsimp only

theorem retrain_ok {κ : Kept} {s : State} {n cause : Nat} {mayFast : Bool} (hκ : s.Ok κ) : (State.retrain s n cause mayFast).Ok κ := by
  unfold State.retrain
  try dsimp only
  repeat' first
    | with_reducible assumption
    | with_reducible apply cause_ok
    | with_reducible apply laneTo_ok
    | with_reducible apply setLane_ok
    | with_reducible apply ite_ok
    | intro _
    | with_reducible refine okOf ?_ rfl rfl rfl rfl rfl rfl rfl rfl rfl
    | simp only [ok_mk]
    | split
    | refine okOf ?_ rfl rfl rfl rfl rfl rfl rfl rfl rfl
    | dsimp only

theorem prbsErr_ok {κ : Kept} {s : State} {n k : Nat} (hκ : s.Ok κ) : (State.prbsErr s n k).Ok κ := by
  unfold State.prbsErr
  try dsimp only
  repeat' first
    | with_reducible assumption
    | with_reducible apply setLN_ok
    | with_reducible apply ite_ok
    | intro _
    | with_reducible refine okOf ?_ rfl rfl rfl rfl rfl rfl rfl rfl rfl
    | simp only [ok_mk]
    | split
    | refine okOf ?_ rfl rfl rfl rfl rfl rfl rfl rfl rfl
    | dsimp only

theorem injectErr_ok {κ : Kept} {s : State} {n : Nat} (hκ : s.Ok κ) : (State.injectErr s n).Ok κ := by
  unfold State.injectErr
  try dsimp only
  repeat' first
    | with_reducible assumption
    | with_reducible apply prbsErr_ok
    | with_reducible apply ite_ok
    | intro _
    | with_reducible refine okOf ?_ rfl rfl rfl rfl rfl rfl rfl rfl rfl
    | simp only [ok_mk]
    | split
    | refine okOf ?_ rfl rfl rfl rfl rfl rfl rfl rfl rfl
    | dsimp only

theorem ctrlAct_ok {κ : Kept} {s : State} {n : Nat} {old v : Word} (hκ : s.Ok κ) : (State.ctrlAct s n old v).Ok κ := by
  unfold State.ctrlAct
  try dsimp only
  repeat' first
    | with_reducible assumption
    | with_reducible apply injectErr_ok
    | with_reducible apply laneTo_ok
    | with_reducible apply retrain_ok
    | with_reducible apply setLane_ok
    | with_reducible apply ite_ok
    | intro _
    | with_reducible refine okOf ?_ rfl rfl rfl rfl rfl rfl rfl rfl rfl
    | simp only [ok_mk]
    | split
    | refine okOf ?_ rfl rfl rfl rfl rfl rfl rfl rfl rfl
    | dsimp only

theorem wrLaneCtrl_ok {κ : Kept} {n : Nat} {v : Word} {s : State} (hκ : s.Ok κ) : (wrLaneCtrl n v s).1.Ok κ := by
  unfold wrLaneCtrl
  try dsimp only
  repeat' first
    | with_reducible assumption
    | with_reducible apply ctrlAct_ok
    | with_reducible apply done_ok
    | with_reducible apply incL_ok
    | with_reducible apply setL_ok
    | with_reducible apply ite_ok
    | intro _
    | with_reducible refine okOf ?_ rfl rfl rfl rfl rfl rfl rfl rfl rfl
    | simp only [ok_mk]
    | split
    | refine okOf ?_ rfl rfl rfl rfl rfl rfl rfl rfl rfl
    | dsimp only

theorem ctrlWrite_ok {κ : Kept} {s : State} {p : Path} {n : Nat} {f : Nat → Nat} (hκ : s.Ok κ) : (State.ctrlWrite s p n f).Ok κ := by
  unfold State.ctrlWrite
  try dsimp only
  repeat' first
    | with_reducible assumption
    | with_reducible apply guardWrite_ok
    | with_reducible apply wrLaneCtrl_ok
    | with_reducible apply ite_ok
    | intro _
    | with_reducible refine okOf ?_ rfl rfl rfl rfl rfl rfl rfl rfl rfl
    | simp only [ok_mk]
    | split
    | refine okOf ?_ rfl rfl rfl rfl rfl rfl rfl rfl rfl
    | dsimp only

theorem execLaneEnable_ok {κ : Kept} {p : Path} {n : Fin 38} {s : State} (hκ : s.Ok κ) : ∃ st' : State, execLaneEnable p n s = .next st' ∧ st'.Ok κ := by
  refine ⟨_, rfl, ?_⟩
  try dsimp only
  repeat' first
    | with_reducible assumption
    | with_reducible apply ctrlWrite_ok
    | with_reducible apply ite_ok
    | intro _
    | with_reducible refine okOf ?_ rfl rfl rfl rfl rfl rfl rfl rfl rfl
    | simp only [ok_mk]
    | split
    | refine okOf ?_ rfl rfl rfl rfl rfl rfl rfl rfl rfl
    | dsimp only

theorem execLaneDisable_ok {κ : Kept} {p : Path} {n : Fin 38} {s : State} (hκ : s.Ok κ) : ∃ st' : State, execLaneDisable p n s = .next st' ∧ st'.Ok κ := by
  refine ⟨_, rfl, ?_⟩
  try dsimp only
  repeat' first
    | with_reducible assumption
    | with_reducible apply ctrlWrite_ok
    | with_reducible apply ite_ok
    | intro _
    | with_reducible refine okOf ?_ rfl rfl rfl rfl rfl rfl rfl rfl rfl
    | simp only [ok_mk]
    | split
    | refine okOf ?_ rfl rfl rfl rfl rfl rfl rfl rfl rfl
    | dsimp only

theorem execLanePrbsSet_ok {κ : Kept} {p : Path} {n : Fin 38} {gen chk : Bool} {sel : BitVec 2} {s : State} (hκ : s.Ok κ) : ∃ st' : State, execLanePrbsSet p n gen chk sel s = .next st' ∧ st'.Ok κ := by
  refine ⟨_, rfl, ?_⟩
  try dsimp only
  repeat' first
    | with_reducible assumption
    | with_reducible apply ctrlWrite_ok
    | with_reducible apply ite_ok
    | intro _
    | with_reducible refine okOf ?_ rfl rfl rfl rfl rfl rfl rfl rfl rfl
    | simp only [ok_mk]
    | split
    | refine okOf ?_ rfl rfl rfl rfl rfl rfl rfl rfl rfl
    | dsimp only

theorem execLaneLoopbackSet_ok {κ : Kept} {p : Path} {n : Fin 38} {code : BitVec 3} {s : State} (hκ : s.Ok κ) : ∃ st' : State, execLaneLoopbackSet p n code s = .next st' ∧ st'.Ok κ := by
  refine ⟨_, rfl, ?_⟩
  try dsimp only
  repeat' first
    | with_reducible assumption
    | with_reducible apply ctrlWrite_ok
    | with_reducible apply ite_ok
    | intro _
    | with_reducible refine okOf ?_ rfl rfl rfl rfl rfl rfl rfl rfl rfl
    | simp only [ok_mk]
    | split
    | refine okOf ?_ rfl rfl rfl rfl rfl rfl rfl rfl rfl
    | dsimp only

theorem execLaneInjectErr_ok {κ : Kept} {p : Path} {n : Fin 38} {s : State} (hκ : s.Ok κ) : ∃ st' : State, execLaneInjectErr p n s = .next st' ∧ st'.Ok κ := by
  refine ⟨_, rfl, ?_⟩
  try dsimp only
  repeat' first
    | with_reducible assumption
    | with_reducible apply ctrlWrite_ok
    | with_reducible apply ite_ok
    | intro _
    | with_reducible refine okOf ?_ rfl rfl rfl rfl rfl rfl rfl rfl rfl
    | simp only [ok_mk]
    | split
    | refine okOf ?_ rfl rfl rfl rfl rfl rfl rfl rfl rfl
    | dsimp only

theorem execRetrainFull_ok {κ : Kept} {p : Path} {n : Fin 38} {s : State} (hκ : s.Ok κ) : ∃ st' : State, execRetrainFull p n s = .next st' ∧ st'.Ok κ := by
  refine ⟨_, rfl, ?_⟩
  try dsimp only
  repeat' first
    | with_reducible assumption
    | with_reducible apply ctrlWrite_ok
    | with_reducible apply ite_ok
    | intro _
    | with_reducible refine okOf ?_ rfl rfl rfl rfl rfl rfl rfl rfl rfl
    | simp only [ok_mk]
    | split
    | refine okOf ?_ rfl rfl rfl rfl rfl rfl rfl rfl rfl
    | dsimp only

theorem execRetrainFast_ok {κ : Kept} {p : Path} {n : Fin 38} {s : State} (hκ : s.Ok κ) : ∃ st' : State, execRetrainFast p n s = .next st' ∧ st'.Ok κ := by
  refine ⟨_, rfl, ?_⟩
  try dsimp only
  repeat' first
    | with_reducible assumption
    | with_reducible apply ctrlWrite_ok
    | with_reducible apply ite_ok
    | intro _
    | with_reducible refine okOf ?_ rfl rfl rfl rfl rfl rfl rfl rfl rfl
    | simp only [ok_mk]
    | split
    | refine okOf ?_ rfl rfl rfl rfl rfl rfl rfl rfl rfl
    | dsimp only

theorem execLanePolaritySet_ok {κ : Kept} {p : Path} {n : Fin 38} {tx rx : Bool} {s : State} (hκ : s.Ok κ) : ∃ st' : State, execLanePolaritySet p n tx rx s = .next st' ∧ st'.Ok κ := by
  refine ⟨_, rfl, ?_⟩
  try dsimp only
  repeat' first
    | with_reducible assumption
    | with_reducible apply ctrlWrite_ok
    | with_reducible apply ite_ok
    | intro _
    | with_reducible refine okOf ?_ rfl rfl rfl rfl rfl rfl rfl rfl rfl
    | simp only [ok_mk]
    | split
    | refine okOf ?_ rfl rfl rfl rfl rfl rfl rfl rfl rfl
    | dsimp only

theorem trainStep_ok {κ : Kept} {s : State} {n : Nat} {st : LaneState} {f : Lane → Lane} (hκ : s.Ok κ) : (State.trainStep s n st f).Ok κ := by
  unfold State.trainStep
  try dsimp only
  repeat' first
    | with_reducible assumption
    | with_reducible apply setLane_ok
    | with_reducible apply ite_ok
    | intro _
    | with_reducible refine okOf ?_ rfl rfl rfl rfl rfl rfl rfl rfl rfl
    | simp only [ok_mk]
    | split
    | refine okOf ?_ rfl rfl rfl rfl rfl rfl rfl rfl rfl
    | dsimp only

theorem execCdrLock_ok {κ : Kept} {n : Fin 38} {s : State} (hκ : s.Ok κ) : ∃ st' : State, execCdrLock n s = .next st' ∧ st'.Ok κ := by
  refine ⟨_, rfl, ?_⟩
  try dsimp only
  repeat' first
    | with_reducible assumption
    | with_reducible apply setLane_ok
    | with_reducible apply ite_ok
    | intro _
    | with_reducible refine okOf ?_ rfl rfl rfl rfl rfl rfl rfl rfl rfl
    | simp only [ok_mk]
    | split
    | refine okOf ?_ rfl rfl rfl rfl rfl rfl rfl rfl rfl
    | dsimp only

theorem execEqAdaptDone_ok {κ : Kept} {n : Fin 38} {s : State} (hκ : s.Ok κ) : ∃ st' : State, execEqAdaptDone n s = .next st' ∧ st'.Ok κ := by
  refine ⟨_, rfl, ?_⟩
  try dsimp only
  repeat' first
    | with_reducible assumption
    | with_reducible apply trainStep_ok
    | with_reducible apply ite_ok
    | intro _
    | with_reducible refine okOf ?_ rfl rfl rfl rfl rfl rfl rfl rfl rfl
    | simp only [ok_mk]
    | split
    | refine okOf ?_ rfl rfl rfl rfl rfl rfl rfl rfl rfl
    | dsimp only

theorem execBlockLock_ok {κ : Kept} {n : Fin 38} {s : State} (hκ : s.Ok κ) : ∃ st' : State, execBlockLock n s = .next st' ∧ st'.Ok κ := by
  refine ⟨_, rfl, ?_⟩
  try dsimp only
  repeat' first
    | with_reducible assumption
    | with_reducible apply trainStep_ok
    | with_reducible apply ite_ok
    | intro _
    | with_reducible refine okOf ?_ rfl rfl rfl rfl rfl rfl rfl rfl rfl
    | simp only [ok_mk]
    | split
    | refine okOf ?_ rfl rfl rfl rfl rfl rfl rfl rfl rfl
    | dsimp only

theorem execLaneEnterData_ok {κ : Kept} {n : Fin 34} {s : State} (hκ : s.Ok κ) : ∃ st' : State, execLaneEnterData n s = .next st' ∧ st'.Ok κ := by
  refine ⟨_, rfl, ?_⟩
  try dsimp only
  repeat' first
    | with_reducible assumption
    | with_reducible apply laneLevels_ok
    | with_reducible apply routeUp_ok
    | with_reducible apply setLane_ok
    | with_reducible apply ite_ok
    | intro _
    | with_reducible refine okOf ?_ rfl rfl rfl rfl rfl rfl rfl rfl rfl
    | simp only [ok_mk]
    | split
    | refine okOf ?_ rfl rfl rfl rfl rfl rfl rfl rfl rfl
    | dsimp only

theorem execTrainExchTimeout_ok {κ : Kept} {n : Fin 34} {s : State} (hκ : s.Ok κ) : ∃ st' : State, execTrainExchTimeout n s = .next st' ∧ st'.Ok κ := by
  refine ⟨_, rfl, ?_⟩
  try dsimp only
  repeat' first
    | with_reducible assumption
    | with_reducible apply trainStep_ok
    | with_reducible apply ite_ok
    | intro _
    | with_reducible refine okOf ?_ rfl rfl rfl rfl rfl rfl rfl rfl rfl
    | simp only [ok_mk]
    | split
    | refine okOf ?_ rfl rfl rfl rfl rfl rfl rfl rfl rfl
    | dsimp only

theorem execFastRetrainTimeout_ok {κ : Kept} {n : Fin 34} {s : State} (hκ : s.Ok κ) : ∃ st' : State, execFastRetrainTimeout n s = .next st' ∧ st'.Ok κ := by
  refine ⟨_, rfl, ?_⟩
  try dsimp only
  repeat' first
    | with_reducible assumption
    | with_reducible apply setLane_ok
    | with_reducible apply ite_ok
    | intro _
    | with_reducible refine okOf ?_ rfl rfl rfl rfl rfl rfl rfl rfl rfl
    | simp only [ok_mk]
    | split
    | refine okOf ?_ rfl rfl rfl rfl rfl rfl rfl rfl rfl
    | dsimp only

theorem execRetrainBackoffExpire_ok {κ : Kept} {n : Fin 34} {s : State} (hκ : s.Ok κ) : ∃ st' : State, execRetrainBackoffExpire n s = .next st' ∧ st'.Ok κ := by
  refine ⟨_, rfl, ?_⟩
  try dsimp only
  repeat' first
    | with_reducible assumption
    | with_reducible apply setLane_ok
    | with_reducible apply ite_ok
    | intro _
    | with_reducible refine okOf ?_ rfl rfl rfl rfl rfl rfl rfl rfl rfl
    | simp only [ok_mk]
    | split
    | refine okOf ?_ rfl rfl rfl rfl rfl rfl rfl rfl rfl
    | dsimp only

theorem stopLoop_ok {κ : Kept} {s : State} {n cause : Nat} (hκ : s.Ok κ) : (State.stopLoop s n cause).Ok κ := by
  unfold State.stopLoop
  try dsimp only
  repeat' first
    | with_reducible assumption
    | with_reducible apply cause_ok
    | with_reducible apply setLane_ok
    | with_reducible apply ite_ok
    | intro _
    | with_reducible refine okOf ?_ rfl rfl rfl rfl rfl rfl rfl rfl rfl
    | simp only [ok_mk]
    | split
    | refine okOf ?_ rfl rfl rfl rfl rfl rfl rfl rfl rfl
    | dsimp only

theorem execLosDetect_ok {κ : Kept} {n : Fin 38} {dur t : Nat} {s : State} (hκ : s.Ok κ) : ∃ st' : State, execLosDetect n dur t s = .next st' ∧ st'.Ok κ := by
  refine ⟨_, rfl, ?_⟩
  try dsimp only
  repeat' first
    | with_reducible assumption
    | with_reducible apply incIf_ok
    | with_reducible apply retrain_ok
    | with_reducible apply setLane_ok
    | with_reducible apply stopLoop_ok
    | with_reducible apply toC_ok
    | with_reducible apply ite_ok
    | intro _
    | with_reducible refine okOf ?_ rfl rfl rfl rfl rfl rfl rfl rfl rfl
    | simp only [ok_mk]
    | split
    | refine okOf ?_ rfl rfl rfl rfl rfl rfl rfl rfl rfl
    | dsimp only

theorem execBlockLockLoss_ok {κ : Kept} {n : Fin 34} {t : Nat} {s : State} (hκ : s.Ok κ) : ∃ st' : State, execBlockLockLoss n t s = .next st' ∧ st'.Ok κ := by
  refine ⟨_, rfl, ?_⟩
  try dsimp only
  repeat' first
    | with_reducible assumption
    | with_reducible apply retrain_ok
    | with_reducible apply toC_ok
    | with_reducible apply ite_ok
    | intro _
    | with_reducible refine okOf ?_ rfl rfl rfl rfl rfl rfl rfl rfl rfl
    | simp only [ok_mk]
    | split
    | refine okOf ?_ rfl rfl rfl rfl rfl rfl rfl rfl rfl
    | dsimp only

theorem execHiBer_ok {κ : Kept} {n : Fin 34} {t : Nat} {s : State} (hκ : s.Ok κ) : ∃ st' : State, execHiBer n t s = .next st' ∧ st'.Ok κ := by
  refine ⟨_, rfl, ?_⟩
  try dsimp only
  repeat' first
    | with_reducible assumption
    | with_reducible apply retrain_ok
    | with_reducible apply toC_ok
    | with_reducible apply ite_ok
    | intro _
    | with_reducible refine okOf ?_ rfl rfl rfl rfl rfl rfl rfl rfl rfl
    | simp only [ok_mk]
    | split
    | refine okOf ?_ rfl rfl rfl rfl rfl rfl rfl rfl rfl
    | dsimp only

theorem execTrainBlockReceive_ok {κ : Kept} {n : Fin 34} {fast : Bool} {run t : Nat} {s : State} (hκ : s.Ok κ) : ∃ st' : State, execTrainBlockReceive n fast run t s = .next st' ∧ st'.Ok κ := by
  refine ⟨_, rfl, ?_⟩
  try dsimp only
  repeat' first
    | with_reducible assumption
    | with_reducible apply retrain_ok
    | with_reducible apply setLane_ok
    | with_reducible apply stopLoop_ok
    | with_reducible apply toC_ok
    | with_reducible apply ite_ok
    | intro _
    | with_reducible refine okOf ?_ rfl rfl rfl rfl rfl rfl rfl rfl rfl
    | simp only [ok_mk]
    | split
    | refine okOf ?_ rfl rfl rfl rfl rfl rfl rfl rfl rfl
    | dsimp only

theorem execCcBlockReceive_ok {κ : Kept} {n : Fin 34} {fill : Nat} {s : State} (hκ : s.Ok κ) : ∃ st' : State, execCcBlockReceive n fill s = .next st' ∧ st'.Ok κ := by
  refine ⟨_, rfl, ?_⟩
  try dsimp only
  repeat' first
    | with_reducible assumption
    | with_reducible apply incIf_ok
    | with_reducible apply setLane_ok
    | with_reducible apply ite_ok
    | intro _
    | with_reducible refine okOf ?_ rfl rfl rfl rfl rfl rfl rfl rfl rfl
    | simp only [ok_mk]
    | split
    | refine okOf ?_ rfl rfl rfl rfl rfl rfl rfl rfl rfl
    | dsimp only

theorem execUnknownControlBlock_ok {κ : Kept} {n : Fin 34} {s : State} (hκ : s.Ok κ) : ∃ st' : State, execUnknownControlBlock n s = .next st' ∧ st'.Ok κ := by
  refine ⟨_, rfl, ?_⟩
  try dsimp only
  repeat' first
    | with_reducible assumption
    | with_reducible apply incIf_ok
    | with_reducible apply ite_ok
    | intro _
    | with_reducible refine okOf ?_ rfl rfl rfl rfl rfl rfl rfl rfl rfl
    | simp only [ok_mk]
    | split
    | refine okOf ?_ rfl rfl rfl rfl rfl rfl rfl rfl rfl
    | dsimp only

theorem holdLane_ok {κ : Kept} {s : State} {n : Nat} (hκ : s.Ok κ) : (State.holdLane s n).Ok κ := by
  unfold State.holdLane
  try dsimp only
  repeat' first
    | with_reducible assumption
    | with_reducible apply laneTo_ok
    | with_reducible apply ite_ok
    | intro _
    | with_reducible refine okOf ?_ rfl rfl rfl rfl rfl rfl rfl rfl rfl
    | simp only [ok_mk]
    | split
    | refine okOf ?_ rfl rfl rfl rfl rfl rfl rfl rfl rfl
    | dsimp only

theorem execSrclkLoss_ok {κ : Kept} {src : Fin 2} {t : Nat} {s : State} (hκ : s.Ok κ) : ∃ st' : State, execSrclkLoss src t s = .next st' ∧ st'.Ok κ := by
  refine ⟨_, rfl, ?_⟩
  try dsimp only
  repeat' first
    | with_reducible assumption
    | with_reducible apply each_ok
    | with_reducible apply faultLevel_ok
    | with_reducible apply holdLane_ok
    | with_reducible apply incL_ok
    | with_reducible apply sdPllLock_ok
    | with_reducible apply setL_ok
    | with_reducible apply toC_ok
    | with_reducible apply ite_ok
    | intro _
    | with_reducible refine okOf ?_ rfl rfl rfl rfl rfl rfl rfl rfl rfl
    | simp only [ok_mk]
    | split
    | refine okOf ?_ rfl rfl rfl rfl rfl rfl rfl rfl rfl
    | dsimp only

theorem execSrclkRestore_ok {κ : Kept} {src : Fin 2} {s : State} (hκ : s.Ok κ) : ∃ st' : State, execSrclkRestore src s = .next st' ∧ st'.Ok κ := by
  refine ⟨_, rfl, ?_⟩
  try dsimp only
  repeat' first
    | with_reducible assumption
    | with_reducible apply each_ok
    | with_reducible apply faultLevel_ok
    | with_reducible apply sdPllLock_ok
    | with_reducible apply setL_ok
    | with_reducible apply setLane_ok
    | with_reducible apply ite_ok
    | intro _
    | with_reducible refine okOf ?_ rfl rfl rfl rfl rfl rfl rfl rfl rfl
    | simp only [ok_mk]
    | split
    | refine okOf ?_ rfl rfl rfl rfl rfl rfl rfl rfl rfl
    | dsimp only

theorem countBits_ok {κ : Kept} {s : State} {n bits errs : Nat} (hκ : s.Ok κ) : (State.countBits s n bits errs).Ok κ := by
  unfold State.countBits
  try dsimp only
  repeat' first
    | with_reducible assumption
    | with_reducible apply prbsErr_ok
    | with_reducible apply setLane_ok
    | with_reducible apply ite_ok
    | intro _
    | with_reducible refine okOf ?_ rfl rfl rfl rfl rfl rfl rfl rfl rfl
    | simp only [ok_mk]
    | split
    | refine okOf ?_ rfl rfl rfl rfl rfl rfl rfl rfl rfl
    | dsimp only

theorem execPrbsLock_ok {κ : Kept} {n : Fin 38} {w : BitVec 95} {s : State} (hκ : s.Ok κ) : ∃ st' : State, execPrbsLock n w s = .next st' ∧ st'.Ok κ := by
  refine ⟨_, rfl, ?_⟩
  try dsimp only
  repeat' first
    | with_reducible assumption
    | with_reducible apply setLane_ok
    | with_reducible apply ite_ok
    | intro _
    | with_reducible refine okOf ?_ rfl rfl rfl rfl rfl rfl rfl rfl rfl
    | simp only [ok_mk]
    | split
    | refine okOf ?_ rfl rfl rfl rfl rfl rfl rfl rfl rfl
    | dsimp only

theorem execPrbsResync_ok {κ : Kept} {n : Fin 38} {bits errs : Nat} {s : State} (hκ : s.Ok κ) : ∃ st' : State, execPrbsResync n bits errs s = .next st' ∧ st'.Ok κ := by
  refine ⟨_, rfl, ?_⟩
  try dsimp only
  repeat' first
    | with_reducible assumption
    | with_reducible apply countBits_ok
    | with_reducible apply incL_ok
    | with_reducible apply setLane_ok
    | with_reducible apply ite_ok
    | intro _
    | with_reducible refine okOf ?_ rfl rfl rfl rfl rfl rfl rfl rfl rfl
    | simp only [ok_mk]
    | split
    | refine okOf ?_ rfl rfl rfl rfl rfl rfl rfl rfl rfl
    | dsimp only

theorem readPrbsLo_ok {κ : Kept} {s : State} {p : Path} {n : Nat} (hκ : s.Ok κ) : (State.readPrbsLo s p n).Ok κ := by
  unfold State.readPrbsLo
  try dsimp only
  repeat' first
    | with_reducible assumption
    | with_reducible apply latchHigh_ok
    | with_reducible apply prbsErr_ok
    | with_reducible apply setWide_ok
    | with_reducible apply ite_ok
    | intro _
    | with_reducible refine okOf ?_ rfl rfl rfl rfl rfl rfl rfl rfl rfl
    | simp only [ok_mk]
    | split
    | refine okOf ?_ rfl rfl rfl rfl rfl rfl rfl rfl rfl
    | dsimp only

theorem execPrbsBitsLoRead_ok {κ : Kept} {p : Path} {n : Fin 38} {bits errs : Nat} {s : State} (hκ : s.Ok κ) : ∃ st' : State, execPrbsBitsLoRead p n bits errs s = .next st' ∧ st'.Ok κ := by
  refine ⟨_, rfl, ?_⟩
  try dsimp only
  repeat' first
    | with_reducible assumption
    | with_reducible apply countBits_ok
    | with_reducible apply readPrbsLo_ok
    | with_reducible apply ite_ok
    | intro _
    | with_reducible refine okOf ?_ rfl rfl rfl rfl rfl rfl rfl rfl rfl
    | simp only [ok_mk]
    | split
    | refine okOf ?_ rfl rfl rfl rfl rfl rfl rfl rfl rfl
    | dsimp only

theorem wrPrbsErr_ok {κ : Kept} {n : Nat} {s : State} (hκ : s.Ok κ) : (wrPrbsErr n s).1.Ok κ := by
  unfold wrPrbsErr
  try dsimp only
  repeat' first
    | with_reducible assumption
    | with_reducible apply done_ok
    | with_reducible apply setL_ok
    | with_reducible apply setLane_ok
    | with_reducible apply ite_ok
    | intro _
    | with_reducible refine okOf ?_ rfl rfl rfl rfl rfl rfl rfl rfl rfl
    | simp only [ok_mk]
    | split
    | refine okOf ?_ rfl rfl rfl rfl rfl rfl rfl rfl rfl
    | dsimp only

theorem execLoopBlockReceive_ok {κ : Kept} {run : Nat} {s : State} (hκ : s.Ok κ) : ∃ st' : State, execLoopBlockReceive run s = .next st' ∧ st'.Ok κ := by
  refine ⟨_, rfl, ?_⟩
  try dsimp only
  repeat' first
    | with_reducible assumption
    | with_reducible apply laneTo_ok
    | with_reducible apply ite_ok
    | intro _
    | with_reducible refine okOf ?_ rfl rfl rfl rfl rfl rfl rfl rfl rfl
    | simp only [ok_mk]
    | split
    | refine okOf ?_ rfl rfl rfl rfl rfl rfl rfl rfl rfl
    | dsimp only

end Sys2Proof.Machine
end

