-- ==== Sys2Proof/Laws/KeepsPair.lean ====
section
/-! SUPPORT. The operations of Pair.lean keep what Keeps.lean names. -/
namespace Sys2Proof.Machine
set_option linter.all false

theorem partnerCause_ok {κ : Kept} {s : State} (hκ : s.Ok κ) : (State.partnerCause s).Ok κ := by
  unfold State.partnerCause
  try dsimp only
  repeat' first
    | with_reducible assumption
    | with_reducible apply cause_ok
    | with_reducible apply ite_ok
    | intro _
    | with_reducible refine okOf ?_ rfl rfl rfl rfl rfl rfl rfl rfl rfl
    | simp only [ok_mk]
    | split
    | refine okOf ?_ rfl rfl rfl rfl rfl rfl rfl rfl rfl
    | dsimp only

theorem setPartnerLost_ok {κ : Kept} {s : State} {lost : Bool} (hκ : s.Ok κ) : (State.setPartnerLost s lost).Ok κ := by
  unfold State.setPartnerLost
  try dsimp only
  repeat' first
    | with_reducible assumption
    | with_reducible apply faultLevel_ok
    | with_reducible apply incIf_ok
    | with_reducible apply irqLevel_ok
    | with_reducible apply partnerCause_ok
    | with_reducible apply ite_ok
    | intro _
    | with_reducible refine okOf ?_ rfl rfl rfl rfl rfl rfl rfl rfl rfl
    | simp only [ok_mk]
    | split
    | refine okOf ?_ rfl rfl rfl rfl rfl rfl rfl rfl rfl
    | dsimp only

theorem sendPair_ok {κ : Kept} {s : State} (hκ : s.Ok κ) : (State.sendPair s).Ok κ := by
  unfold State.sendPair
  try dsimp only
  repeat' first
    | with_reducible assumption
    | with_reducible apply incIf_ok
    | with_reducible apply incL_ok
    | with_reducible apply setLN_ok
    | with_reducible apply start_ok
    | with_reducible apply trainOut_ok
    | with_reducible apply ite_ok
    | intro _
    | with_reducible refine okOf ?_ rfl rfl rfl rfl rfl rfl rfl rfl rfl
    | simp only [ok_mk]
    | split
    | refine okOf ?_ rfl rfl rfl rfl rfl rfl rfl rfl rfl
    | dsimp only

theorem heedPartner_ok {κ : Kept} {s : State} {frame : Nat} {q : Int} {t : Nat} (hκ : s.Ok κ) : (State.heedPartner s frame q t).Ok κ := by
  unfold State.heedPartner
  try dsimp only
  repeat' first
    | with_reducible assumption
    | with_reducible apply ite_ok
    | intro _
    | with_reducible refine okOf ?_ rfl rfl rfl rfl rfl rfl rfl rfl rfl
    | simp only [ok_mk]
    | split
    | refine okOf ?_ rfl rfl rfl rfl rfl rfl rfl rfl rfl
    | dsimp only

theorem adoptCell_ok {κ : Kept} {s : State} {holders : List (Nat × Nat)} {srcs : List Nat} {i st : Nat} (hκ : s.Ok κ) : (State.adoptCell s holders srcs i st).Ok κ := by
  unfold State.adoptCell
  try dsimp only
  repeat' first
    | with_reducible assumption
    | with_reducible apply setBudget_ok
    | with_reducible apply setEntry_ok
    | with_reducible apply ite_ok
    | intro _
    | with_reducible refine okOf ?_ rfl rfl rfl rfl rfl rfl rfl rfl rfl
    | simp only [ok_mk]
    | split
    | refine okOf ?_ rfl rfl rfl rfl rfl rfl rfl rfl rfl
    | dsimp only

theorem adoptArm_ok {κ : Kept} {s : State} {bs : List Byte} {slot a : Nat} (hκ : s.Ok κ) : (State.adoptArm s bs slot a).Ok κ := by
  unfold State.adoptArm
  try dsimp only
  repeat' first
    | with_reducible assumption
    | with_reducible apply setArm_ok
    | with_reducible apply setSel_ok
    | with_reducible apply ite_ok
    | intro _
    | with_reducible refine okOf ?_ rfl rfl rfl rfl rfl rfl rfl rfl rfl
    | simp only [ok_mk]
    | split
    | refine okOf ?_ rfl rfl rfl rfl rfl rfl rfl rfl rfl
    | dsimp only

theorem adoptFw_ok {κ : Kept} {s : State} {bs : List Byte} {mx rb : Nat} (hκ : s.Ok κ) : (State.adoptFw s bs mx rb).Ok κ := by
  unfold State.adoptFw
  try dsimp only
  repeat' first
    | with_reducible assumption
    | with_reducible apply wrBytes_ok
    | with_reducible apply wrW_ok
    | with_reducible apply ite_ok
    | intro _
    | with_reducible refine okOf ?_ rfl rfl rfl rfl rfl rfl rfl rfl rfl
    | simp only [ok_mk]
    | split
    | refine okOf ?_ rfl rfl rfl rfl rfl rfl rfl rfl rfl
    | dsimp only

theorem adopt_ok {κ : Kept} {s : State} {bs : List Byte} {own : Nat} (hκ : s.Ok κ) : (State.adopt s bs own).Ok κ := by
  unfold State.adopt
  try dsimp only
  repeat' first
    | with_reducible assumption
    | with_reducible apply adoptArm_ok
    | with_reducible apply adoptCell_ok
    | with_reducible apply adoptFw_ok
    | with_reducible apply each_ok
    | with_reducible apply incIf_ok
    | with_reducible apply setLN_ok
    | with_reducible apply foldl_ok
    | with_reducible apply foldl_ok_fst
    | with_reducible apply ite_ok
    | intro _
    | with_reducible refine okOf ?_ rfl rfl rfl rfl rfl rfl rfl rfl rfl
    | simp only [ok_mk]
    | split
    | refine okOf ?_ rfl rfl rfl rfl rfl rfl rfl rfl rfl
    | dsimp only

theorem rejectTrain_ok {κ : Kept} {s : State} (hκ : s.Ok κ) : (State.rejectTrain s).Ok κ := by
  unfold State.rejectTrain
  try dsimp only
  repeat' first
    | with_reducible assumption
    | with_reducible apply ite_ok
    | intro _
    | with_reducible refine okOf ?_ rfl rfl rfl rfl rfl rfl rfl rfl rfl
    | simp only [ok_mk]
    | split
    | refine okOf ?_ rfl rfl rfl rfl rfl rfl rfl rfl rfl
    | dsimp only

theorem setClock_ok {κ : Kept} {s : State} (hκ : s.Ok κ) : (State.setClock s).Ok κ := by
  unfold State.setClock
  try dsimp only
  repeat' first
    | with_reducible assumption
    | with_reducible apply noteOff_ok
    | with_reducible apply noteTrace_ok
    | with_reducible apply ite_ok
    | intro _
    | with_reducible refine okOf ?_ rfl rfl rfl rfl rfl rfl rfl rfl rfl
    | simp only [ok_mk]
    | split
    | refine okOf ?_ rfl rfl rfl rfl rfl rfl rfl rfl rfl
    | dsimp only

theorem mirrorStart_ok {κ : Kept} {s : State} {frame : Nat} {q : Int} (hκ : s.Ok κ) : (State.mirrorStart s frame q).Ok κ := by
  unfold State.mirrorStart
  try dsimp only
  repeat' first
    | with_reducible assumption
    | with_reducible apply noteOff_ok
    | with_reducible apply noteTrace_ok
    | with_reducible apply setClock_ok
    | with_reducible apply ite_ok
    | intro _
    | with_reducible refine okOf ?_ rfl rfl rfl rfl rfl rfl rfl rfl rfl
    | simp only [ok_mk]
    | split
    | refine okOf ?_ rfl rfl rfl rfl rfl rfl rfl rfl rfl
    | dsimp only

theorem startOffset_ok {κ : Kept} {s : State} {t : Nat} (hκ : s.Ok κ) : (State.startOffset s t).Ok κ := by
  unfold State.startOffset
  try dsimp only
  repeat' first
    | with_reducible assumption
    | with_reducible apply ite_ok
    | intro _
    | with_reducible refine okOf ?_ rfl rfl rfl rfl rfl rfl rfl rfl rfl
    | simp only [ok_mk]
    | split
    | refine okOf ?_ rfl rfl rfl rfl rfl rfl rfl rfl rfl
    | dsimp only

theorem heardTrain_ok {κ : Kept} {s : State} {bytes : List Byte} {active : Bool} (hκ : s.Ok κ) : (State.heardTrain s bytes active).Ok κ := by
  unfold State.heardTrain
  try dsimp only
  repeat' first
    | with_reducible assumption
    | with_reducible apply incL_ok
    | with_reducible apply setPartnerLost_ok
    | with_reducible apply ite_ok
    | intro _
    | with_reducible refine okOf ?_ rfl rfl rfl rfl rfl rfl rfl rfl rfl
    | simp only [ok_mk]
    | split
    | refine okOf ?_ rfl rfl rfl rfl rfl rfl rfl rfl rfl
    | dsimp only

theorem execPairTrainReceive_ok {κ : Kept} {a b : List (BitVec 64)} {t : Nat} {s : State} (hκ : s.Ok κ) : ∃ st' : State, execPairTrainReceive a b t s = .next st' ∧ st'.Ok κ := by
  refine ⟨_, rfl, ?_⟩
  try dsimp only
  repeat' first
    | with_reducible assumption
    | with_reducible apply adopt_ok
    | with_reducible apply dualActive_ok
    | with_reducible apply heardTrain_ok
    | with_reducible apply heedPartner_ok
    | with_reducible apply incL_ok
    | with_reducible apply laneCrc_ok
    | with_reducible apply mirrorStart_ok
    | with_reducible apply raise_ok
    | with_reducible apply rejectTrain_ok
    | with_reducible apply toC_ok
    | with_reducible apply ite_ok
    | intro _
    | with_reducible refine okOf ?_ rfl rfl rfl rfl rfl rfl rfl rfl rfl
    | simp only [ok_mk]
    | split
    | refine okOf ?_ rfl rfl rfl rfl rfl rfl rfl rfl rfl
    | dsimp only

theorem pairTick_ok {κ : Kept} {s : State} (hκ : s.Ok κ) : (State.pairTick s).Ok κ := by
  unfold State.pairTick
  try dsimp only
  repeat' first
    | with_reducible assumption
    | with_reducible apply ite_ok
    | intro _
    | with_reducible refine okOf ?_ rfl rfl rfl rfl rfl rfl rfl rfl rfl
    | simp only [ok_mk]
    | split
    | refine okOf ?_ rfl rfl rfl rfl rfl rfl rfl rfl rfl
    | dsimp only

theorem execPartnerLost_ok {κ : Kept} {s : State} (hκ : s.Ok κ) : ∃ st' : State, execPartnerLost s = .next st' ∧ st'.Ok κ := by
  refine ⟨_, rfl, ?_⟩
  try dsimp only
  repeat' first
    | with_reducible assumption
    | with_reducible apply setPartnerLost_ok
    | with_reducible apply ite_ok
    | intro _
    | with_reducible refine okOf ?_ rfl rfl rfl rfl rfl rfl rfl rfl rfl
    | simp only [ok_mk]
    | split
    | refine okOf ?_ rfl rfl rfl rfl rfl rfl rfl rfl rfl
    | dsimp only

theorem execMirrorWaitExpire_ok {κ : Kept} {s : State} (hκ : s.Ok κ) : ∃ st' : State, execMirrorWaitExpire s = .next st' ∧ st'.Ok κ := by
  refine ⟨_, rfl, ?_⟩
  try dsimp only
  repeat' first
    | with_reducible assumption
    | with_reducible apply setClock_ok
    | with_reducible apply ite_ok
    | intro _
    | with_reducible refine okOf ?_ rfl rfl rfl rfl rfl rfl rfl rfl rfl
    | simp only [ok_mk]
    | split
    | refine okOf ?_ rfl rfl rfl rfl rfl rfl rfl rfl rfl
    | dsimp only

theorem execMirrorPingSend_ok {κ : Kept} {ts : Vector Nat 8} {s : State} (hκ : s.Ok κ) : ∃ st' : State, execMirrorPingSend ts s = .next st' ∧ st'.Ok κ := by
  refine ⟨_, rfl, ?_⟩
  try dsimp only
  repeat' first
    | with_reducible assumption
    | with_reducible apply each_ok
    | with_reducible apply trainOut_ok
    | with_reducible apply ite_ok
    | intro _
    | with_reducible refine okOf ?_ rfl rfl rfl rfl rfl rfl rfl rfl rfl
    | simp only [ok_mk]
    | split
    | refine okOf ?_ rfl rfl rfl rfl rfl rfl rfl rfl rfl
    | dsimp only

theorem execMirrorPingReceive_ok {κ : Kept} {sot : BitVec 64} {t tx : Nat} {s : State} (hκ : s.Ok κ) : ∃ st' : State, execMirrorPingReceive sot t tx s = .next st' ∧ st'.Ok κ := by
  refine ⟨_, rfl, ?_⟩
  try dsimp only
  repeat' first
    | with_reducible assumption
    | with_reducible apply reply_ok
    | with_reducible apply trainOut_ok
    | with_reducible apply ite_ok
    | intro _
    | with_reducible refine okOf ?_ rfl rfl rfl rfl rfl rfl rfl rfl rfl
    | simp only [ok_mk]
    | split
    | refine okOf ?_ rfl rfl rfl rfl rfl rfl rfl rfl rfl
    | dsimp only

theorem execMirrorPingReplyReceive_ok {κ : Kept} {sot : BitVec 64} {t : Nat} {s : State} (hκ : s.Ok κ) : ∃ st' : State, execMirrorPingReplyReceive sot t s = .next st' ∧ st'.Ok κ := by
  refine ⟨_, rfl, ?_⟩
  try dsimp only
  repeat' first
    | with_reducible assumption
    | with_reducible apply ite_ok
    | intro _
    | with_reducible refine okOf ?_ rfl rfl rfl rfl rfl rfl rfl rfl rfl
    | simp only [ok_mk]
    | split
    | refine okOf ?_ rfl rfl rfl rfl rfl rfl rfl rfl rfl
    | dsimp only

theorem execArbActChange_ok {κ : Kept} {level : Bool} {t : Nat} {s : State} (hκ : s.Ok κ) : ∃ st' : State, execArbActChange level t s = .next st' ∧ st'.Ok κ := by
  refine ⟨_, rfl, ?_⟩
  try dsimp only
  repeat' first
    | with_reducible assumption
    | with_reducible apply incL_ok
    | with_reducible apply irqEdge_ok
    | with_reducible apply setLN_ok
    | with_reducible apply toC_ok
    | with_reducible apply ite_ok
    | intro _
    | with_reducible refine okOf ?_ rfl rfl rfl rfl rfl rfl rfl rfl rfl
    | simp only [ok_mk]
    | split
    | refine okOf ?_ rfl rfl rfl rfl rfl rfl rfl rfl rfl
    | dsimp only

theorem wrSwapReq_ok {κ : Kept} {s : State} (hκ : s.Ok κ) : (wrSwapReq s).1.Ok κ := by
  unfold wrSwapReq
  try dsimp only
  repeat' first
    | with_reducible assumption
    | with_reducible apply done_ok
    | with_reducible apply refused6_ok
    | with_reducible apply setLN_ok
    | with_reducible apply ite_ok
    | intro _
    | with_reducible refine okOf ?_ rfl rfl rfl rfl rfl rfl rfl rfl rfl
    | simp only [ok_mk]
    | split
    | refine okOf ?_ rfl rfl rfl rfl rfl rfl rfl rfl rfl
    | dsimp only

theorem execSwapReq_ok {κ : Kept} {p : Path} {s : State} (hκ : s.Ok κ) : ∃ st' : State, execSwapReq p s = .next st' ∧ st'.Ok κ := by
  refine ⟨_, rfl, ?_⟩
  try dsimp only
  repeat' first
    | with_reducible assumption
    | with_reducible apply guardWrite_ok
    | with_reducible apply wrSwapReq_ok
    | with_reducible apply ite_ok
    | intro _
    | with_reducible refine okOf ?_ rfl rfl rfl rfl rfl rfl rfl rfl rfl
    | simp only [ok_mk]
    | split
    | refine okOf ?_ rfl rfl rfl rfl rfl rfl rfl rfl rfl
    | dsimp only

theorem execSwapTimeout_ok {κ : Kept} {s : State} (hκ : s.Ok κ) : ∃ st' : State, execSwapTimeout s = .next st' ∧ st'.Ok κ := by
  refine ⟨_, rfl, ?_⟩
  try dsimp only
  repeat' first
    | with_reducible assumption
    | with_reducible apply irqEdge_ok
    | with_reducible apply raise_ok
    | with_reducible apply setLN_ok
    | with_reducible apply ite_ok
    | intro _
    | with_reducible refine okOf ?_ rfl rfl rfl rfl rfl rfl rfl rfl rfl
    | simp only [ok_mk]
    | split
    | refine okOf ?_ rfl rfl rfl rfl rfl rfl rfl rfl rfl
    | dsimp only

end Sys2Proof.Machine
end

