-- ==== Sys2Proof/Laws/KeepsCommit.lean ====
section
/-! SUPPORT. The operations of Commit.lean keep what Keeps.lean names. -/
namespace Sys2Proof.Machine
set_option linter.all false

theorem setCommit_ok {κ : Kept} {s : State} {c : CommitState} (hκ : s.Ok κ) : (State.setCommit s c).Ok κ := by
  unfold State.setCommit
  try dsimp only
  repeat' first
    | with_reducible assumption
    | with_reducible apply ite_ok
    | intro _
    | with_reducible refine okOf ?_ rfl rfl rfl rfl rfl rfl rfl rfl rfl
    | simp only [ok_mk]
    | split
    | refine okOf ?_ rfl rfl rfl rfl rfl rfl rfl rfl rfl
    | dsimp only

theorem pend_ok {κ : Kept} {s : State} (hκ : s.Ok κ) : (State.pend s).Ok κ := by
  unfold State.pend
  try dsimp only
  repeat' first
    | with_reducible assumption
    | with_reducible apply ite_ok
    | intro _
    | with_reducible refine okOf ?_ rfl rfl rfl rfl rfl rfl rfl rfl rfl
    | simp only [ok_mk]
    | split
    | refine okOf ?_ rfl rfl rfl rfl rfl rfl rfl rfl rfl
    | dsimp only

theorem commitOpen_ok {κ : Kept} {s : State} (hκ : s.Ok κ) : (State.commitOpen s).Ok κ := by
  unfold State.commitOpen
  try dsimp only
  repeat' first
    | with_reducible assumption
    | with_reducible apply irqEdge_ok
    | with_reducible apply setCommit_ok
    | with_reducible apply ite_ok
    | intro _
    | with_reducible refine okOf ?_ rfl rfl rfl rfl rfl rfl rfl rfl rfl
    | simp only [ok_mk]
    | split
    | refine okOf ?_ rfl rfl rfl rfl rfl rfl rfl rfl rfl
    | dsimp only

theorem commitRefuse_ok {κ : Kept} {s : State} {code : Nat} {detail : Option Nat} (hκ : s.Ok κ) : (State.commitRefuse s code detail).Ok κ := by
  unfold State.commitRefuse
  try dsimp only
  repeat' first
    | with_reducible assumption
    | with_reducible apply draw_ok
    | with_reducible apply raise_ok
    | with_reducible apply setLN_ok
    | with_reducible apply setL_ok
    | with_reducible apply ite_ok
    | intro _
    | with_reducible refine okOf ?_ rfl rfl rfl rfl rfl rfl rfl rfl rfl
    | simp only [ok_mk]
    | split
    | refine okOf ?_ rfl rfl rfl rfl rfl rfl rfl rfl rfl
    | dsimp only

theorem revert_ok {κ : Kept} {s : State} (hκ : s.Ok κ) : (State.revert s).Ok κ := by
  unfold State.revert
  try dsimp only
  repeat' first
    | with_reducible assumption
    | with_reducible apply ite_ok
    | intro _
    | with_reducible refine okOf ?_ rfl rfl rfl rfl rfl rfl rfl rfl rfl
    | simp only [ok_mk]
    | split
    | refine okOf ?_ rfl rfl rfl rfl rfl rfl rfl rfl rfl
    | dsimp only

theorem wrCommitReq_ok {κ : Kept} {v : Word} {s : State} (hκ : s.Ok κ) : (wrCommitReq v s).1.Ok κ := by
  unfold wrCommitReq
  try dsimp only
  repeat' first
    | with_reducible assumption
    | with_reducible apply commitRefuse_ok
    | with_reducible apply done_ok
    | with_reducible apply refused6_ok
    | with_reducible apply revert_ok
    | with_reducible apply setCommit_ok
    | with_reducible apply ite_ok
    | intro _
    | with_reducible refine okOf ?_ rfl rfl rfl rfl rfl rfl rfl rfl rfl
    | simp only [ok_mk]
    | split
    | refine okOf ?_ rfl rfl rfl rfl rfl rfl rfl rfl rfl
    | dsimp only

theorem execCommitRequest_ok {κ : Kept} {p : Path} {v : Word} {s : State} (hκ : s.Ok κ) : ∃ st' : State, execCommitRequest p v s = .next st' ∧ st'.Ok κ := by
  refine ⟨_, rfl, ?_⟩
  try dsimp only
  repeat' first
    | with_reducible assumption
    | with_reducible apply guardWrite_ok
    | with_reducible apply wrCommitReq_ok
    | with_reducible apply ite_ok
    | intro _
    | with_reducible refine okOf ?_ rfl rfl rfl rfl rfl rfl rfl rfl rfl
    | simp only [ok_mk]
    | split
    | refine okOf ?_ rfl rfl rfl rfl rfl rfl rfl rfl rfl
    | dsimp only

theorem execCommitRevert_ok {κ : Kept} {p : Path} {s : State} (hκ : s.Ok κ) : ∃ st' : State, execCommitRevert p s = .next st' ∧ st'.Ok κ := by
  refine ⟨_, rfl, ?_⟩
  try dsimp only
  repeat' first
    | with_reducible assumption
    | with_reducible apply guardWrite_ok
    | with_reducible apply wrCommitReq_ok
    | with_reducible apply ite_ok
    | intro _
    | with_reducible refine okOf ?_ rfl rfl rfl rfl rfl rfl rfl rfl rfl
    | simp only [ok_mk]
    | split
    | refine okOf ?_ rfl rfl rfl rfl rfl rfl rfl rfl rfl
    | dsimp only

theorem validated_ok {κ : Kept} {s : State} {boot : Bool} (hκ : s.Ok κ) : (State.validated s boot).Ok κ := by
  unfold State.validated
  try dsimp only
  repeat' first
    | with_reducible assumption
    | with_reducible apply commitOpen_ok
    | with_reducible apply commitRefuse_ok
    | with_reducible apply incIf_ok
    | with_reducible apply pend_ok
    | with_reducible apply setLN_ok
    | with_reducible apply ite_ok
    | intro _
    | with_reducible refine okOf ?_ rfl rfl rfl rfl rfl rfl rfl rfl rfl
    | simp only [ok_mk]
    | split
    | refine okOf ?_ rfl rfl rfl rfl rfl rfl rfl rfl rfl
    | dsimp only

theorem execCommitValidationDone_ok {κ : Kept} {s : State} (hκ : s.Ok κ) : ∃ st' : State, execCommitValidationDone s = .next st' ∧ st'.Ok κ := by
  refine ⟨_, rfl, ?_⟩
  try dsimp only
  repeat' first
    | with_reducible assumption
    | with_reducible apply validated_ok
    | with_reducible apply ite_ok
    | intro _
    | with_reducible refine okOf ?_ rfl rfl rfl rfl rfl rfl rfl rfl rfl
    | simp only [ok_mk]
    | split
    | refine okOf ?_ rfl rfl rfl rfl rfl rfl rfl rfl rfl
    | dsimp only

theorem execCommitSyncDone_ok {κ : Kept} {s : State} (hκ : s.Ok κ) : ∃ st' : State, execCommitSyncDone s = .next st' ∧ st'.Ok κ := by
  refine ⟨_, rfl, ?_⟩
  try dsimp only
  repeat' first
    | with_reducible assumption
    | with_reducible apply commitOpen_ok
    | with_reducible apply ite_ok
    | intro _
    | with_reducible refine okOf ?_ rfl rfl rfl rfl rfl rfl rfl rfl rfl
    | simp only [ok_mk]
    | split
    | refine okOf ?_ rfl rfl rfl rfl rfl rfl rfl rfl rfl
    | dsimp only

theorem planObjects_ok {κ : Kept} {s : State} {p : Nat} (hκ : s.Ok κ) : (State.planObjects s p).Ok κ := by
  unfold State.planObjects
  try dsimp only
  repeat' first
    | with_reducible assumption
    | with_reducible apply setLI_ok
    | with_reducible apply setLN_ok
    | with_reducible apply foldl_ok
    | with_reducible apply foldl_ok_fst
    | with_reducible apply ite_ok
    | intro _
    | with_reducible refine okOf ?_ rfl rfl rfl rfl rfl rfl rfl rfl rfl
    | simp only [ok_mk]
    | split
    | refine okOf ?_ rfl rfl rfl rfl rfl rfl rfl rfl rfl
    | dsimp only

theorem manSwap_ok {κ : Kept} {s : State} {n : Nat} {added : Bool} (hκ : s.Ok κ) : (State.manSwap s n added).Ok κ := by
  unfold State.manSwap
  try dsimp only
  repeat' first
    | with_reducible assumption
    | with_reducible apply ctrlAct_ok
    | with_reducible apply dropWalk_ok
    | with_reducible apply setL_ok
    | with_reducible apply setRouteSt_ok
    | with_reducible apply setRoute_ok
    | with_reducible apply startWalk_ok
    | with_reducible apply ite_ok
    | intro _
    | with_reducible refine okOf ?_ rfl rfl rfl rfl rfl rfl rfl rfl rfl
    | simp only [ok_mk]
    | split
    | refine okOf ?_ rfl rfl rfl rfl rfl rfl rfl rfl rfl
    | dsimp only

theorem uplinkSwap_ok {κ : Kept} {s : State} (hκ : s.Ok κ) : (State.uplinkSwap s).Ok κ := by
  unfold State.uplinkSwap
  try dsimp only
  repeat' first
    | with_reducible assumption
    | with_reducible apply faultLevel_ok
    | with_reducible apply ite_ok
    | intro _
    | with_reducible refine okOf ?_ rfl rfl rfl rfl rfl rfl rfl rfl rfl
    | simp only [ok_mk]
    | split
    | refine okOf ?_ rfl rfl rfl rfl rfl rfl rfl rfl rfl
    | dsimp only

theorem discardTrains_ok {κ : Kept} {s : State} {lanes : List Nat} (hκ : s.Ok κ) : (State.discardTrains s lanes).Ok κ := by
  unfold State.discardTrains
  try dsimp only
  repeat' first
    | with_reducible assumption
    | with_reducible apply each_ok
    | with_reducible apply endTrain_ok
    | with_reducible apply ite_ok
    | intro _
    | with_reducible refine okOf ?_ rfl rfl rfl rfl rfl rfl rfl rfl rfl
    | simp only [ok_mk]
    | split
    | refine okOf ?_ rfl rfl rfl rfl rfl rfl rfl rfl rfl
    | dsimp only

theorem admitLane_ok {κ : Kept} {s : State} {plan : Bool} {n : Nat} (hκ : s.Ok κ) : (State.admitLane s plan n).Ok κ := by
  unfold State.admitLane
  try dsimp only
  repeat' first
    | with_reducible assumption
    | with_reducible apply setLN_ok
    | with_reducible apply setRouteSt_ok
    | with_reducible apply ite_ok
    | intro _
    | with_reducible refine okOf ?_ rfl rfl rfl rfl rfl rfl rfl rfl rfl
    | simp only [ok_mk]
    | split
    | refine okOf ?_ rfl rfl rfl rfl rfl rfl rfl rfl rfl
    | dsimp only

theorem descSwap_ok {κ : Kept} {s : State} (hκ : s.Ok κ) : (State.descSwap s).Ok κ := by
  unfold State.descSwap
  try dsimp only
  repeat' first
    | with_reducible assumption
    | with_reducible apply disarm_ok
    | with_reducible apply each_ok
    | with_reducible apply enterPending_ok
    | with_reducible apply pend_ok
    | with_reducible apply poolLevel_ok
    | with_reducible apply prefetchAll_ok
    | with_reducible apply setDescDyn_ok
    | with_reducible apply wakeAll_ok
    | with_reducible apply ite_ok
    | intro _
    | with_reducible refine okOf ?_ rfl rfl rfl rfl rfl rfl rfl rfl rfl
    | simp only [ok_mk]
    | split
    | refine okOf ?_ rfl rfl rfl rfl rfl rfl rfl rfl rfl
    | dsimp only

theorem aidsSwap_ok {κ : Kept} {s o : State} (hκ : s.Ok κ) : (State.aidsSwap s o).Ok κ := by
  unfold State.aidsSwap
  try dsimp only
  repeat' first
    | with_reducible assumption
    | with_reducible apply each_ok
    | with_reducible apply lanternCommit_ok
    | with_reducible apply notchLoad_ok
    | with_reducible apply setNotch_ok
    | with_reducible apply spRestart_ok
    | with_reducible apply start_ok
    | with_reducible apply foldl_ok
    | with_reducible apply foldl_ok_fst
    | with_reducible apply ite_ok
    | intro _
    | with_reducible refine okOf ?_ rfl rfl rfl rfl rfl rfl rfl rfl rfl
    | simp only [ok_mk]
    | split
    | refine okOf ?_ rfl rfl rfl rfl rfl rfl rfl rfl rfl
    | dsimp only

theorem timeSwap_ok {κ : Kept} {s o : State} (hκ : s.Ok κ) : (State.timeSwap s o).Ok κ := by
  unfold State.timeSwap
  try dsimp only
  repeat' first
    | with_reducible assumption
    | with_reducible apply domCommit_ok
    | with_reducible apply each_ok
    | with_reducible apply noteOff_ok
    | with_reducible apply phSwap_ok
    | with_reducible apply waveRestart_ok
    | with_reducible apply ite_ok
    | intro _
    | with_reducible refine okOf ?_ rfl rfl rfl rfl rfl rfl rfl rfl rfl
    | simp only [ok_mk]
    | split
    | refine okOf ?_ rfl rfl rfl rfl rfl rfl rfl rfl rfl
    | dsimp only

theorem ioSwap_ok {κ : Kept} {s o : State} (hκ : s.Ok κ) : (State.ioSwap s o).Ok κ := by
  unfold State.ioSwap
  try dsimp only
  repeat' first
    | with_reducible assumption
    | with_reducible apply acqArm_ok
    | with_reducible apply adcbClaim_ok
    | with_reducible apply applyTrips_ok
    | with_reducible apply each_ok
    | with_reducible apply idle_ok
    | with_reducible apply injOff_ok
    | with_reducible apply setConv_ok
    | with_reducible apply ite_ok
    | intro _
    | with_reducible refine okOf ?_ rfl rfl rfl rfl rfl rfl rfl rfl rfl
    | simp only [ok_mk]
    | split
    | refine okOf ?_ rfl rfl rfl rfl rfl rfl rfl rfl rfl
    | dsimp only

theorem connIdWrite_ok {κ : Kept} {s o : State} {c : Nat} (hκ : s.Ok κ) : (State.connIdWrite s o c).Ok κ := by
  unfold State.connIdWrite
  try dsimp only
  repeat' first
    | with_reducible assumption
    | with_reducible apply setConn_ok
    | with_reducible apply wrW_ok
    | with_reducible apply ite_ok
    | intro _
    | with_reducible refine okOf ?_ rfl rfl rfl rfl rfl rfl rfl rfl rfl
    | simp only [ok_mk]
    | split
    | refine okOf ?_ rfl rfl rfl rfl rfl rfl rfl rfl rfl
    | dsimp only

theorem wtSwap_ok {κ : Kept} {s o : State} (hκ : s.Ok κ) : (State.wtSwap s o).Ok κ := by
  unfold State.wtSwap
  try dsimp only
  repeat' first
    | with_reducible assumption
    | with_reducible apply connIdWrite_ok
    | with_reducible apply connSync_ok
    | with_reducible apply each_ok
    | with_reducible apply partnerCause_ok
    | with_reducible apply sdCauses_ok
    | with_reducible apply slvForget_ok
    | with_reducible apply wtCauses_ok
    | with_reducible apply wtChannels_ok
    | with_reducible apply wtRestart_ok
    | with_reducible apply ite_ok
    | intro _
    | with_reducible refine okOf ?_ rfl rfl rfl rfl rfl rfl rfl rfl rfl
    | simp only [ok_mk]
    | split
    | refine okOf ?_ rfl rfl rfl rfl rfl rfl rfl rfl rfl
    | dsimp only

theorem swapCopies_ok {κ : Kept} {o0 : State} (hκ : o0.Ok κ) (hA : κ.act = none) : (State.swapCopies o0).Ok κ := by
  unfold State.swapCopies
  try dsimp only
  repeat' first
    | with_reducible assumption
    | with_reducible apply abortMarch_ok
    | with_reducible apply admitLane_ok
    | with_reducible apply aidsSwap_ok
    | with_reducible apply applyCfg_ok
    | with_reducible apply descSwap_ok
    | with_reducible apply discardTrains_ok
    | with_reducible apply each_ok
    | with_reducible apply ioSwap_ok
    | with_reducible apply journal_ok
    | with_reducible apply jrnLevels_ok
    | with_reducible apply laneLevels_ok
    | with_reducible apply manSwap_ok
    | with_reducible apply maskModeChange_ok
    | with_reducible apply maskPinsChange_ok
    | with_reducible apply planObjects_ok
    | with_reducible apply releaseHold_ok
    | with_reducible apply setL64_ok
    | with_reducible apply setL_ok
    | with_reducible apply timeSwap_ok
    | with_reducible apply uplinkSwap_ok
    | with_reducible apply wakeEngine_ok
    | with_reducible apply wake_ok
    | with_reducible apply wtSwap_ok
    | with_reducible apply foldl_ok
    | with_reducible apply foldl_ok_fst
    | with_reducible apply ite_ok
    | intro _
    | with_reducible refine okOf ?_ rfl rfl rfl rfl rfl rfl rfl rfl rfl
    | with_reducible refine okOf_act ?_ rfl rfl rfl rfl rfl rfl rfl rfl ?_
    | simp only [ok_mk]
    | split
    | refine okOf ?_ rfl rfl rfl rfl rfl rfl rfl rfl rfl
    | dsimp only

theorem commitTick_ok {κ : Kept} {s : State} (hκ : s.Ok κ) (hA : κ.act = none) : (State.commitTick s).Ok κ := by
  unfold State.commitTick
  try dsimp only
  repeat' first
    | with_reducible assumption
    | with_reducible apply commitOpen_ok
    | with_reducible apply commitRefuse_ok
    | with_reducible apply setCommit_ok
    | with_reducible apply swapCopies_ok
    | with_reducible apply ite_ok
    | intro _
    | with_reducible refine okOf ?_ rfl rfl rfl rfl rfl rfl rfl rfl rfl
    | simp only [ok_mk]
    | split
    | refine okOf ?_ rfl rfl rfl rfl rfl rfl rfl rfl rfl
    | dsimp only

end Sys2Proof.Machine
end

