-- ==== Sys2Proof/Laws/KeepsImage.lean ====
section
/-! SUPPORT. The operations of Image.lean keep what Keeps.lean names. -/
namespace Sys2Proof.Machine
set_option linter.all false

theorem noteSlot_ok {κ : Kept} {s : State} {slot : Nat} {full : Bool} (hκ : s.Ok κ) : (State.noteSlot s slot full).Ok κ := by
  unfold State.noteSlot
  try dsimp only
  repeat' first
    | with_reducible assumption
    | with_reducible apply setLN_ok
    | with_reducible apply ite_ok
    | intro _
    | with_reducible refine okOf ?_ rfl rfl rfl rfl rfl rfl rfl rfl rfl
    | simp only [ok_mk]
    | split
    | refine okOf ?_ rfl rfl rfl rfl rfl rfl rfl rfl rfl
    | dsimp only

theorem setImg_ok {κ : Kept} {s : State} {x : ImgSt} (hκ : s.Ok κ) : (State.setImg s x).Ok κ := by
  unfold State.setImg
  try dsimp only
  repeat' first
    | with_reducible assumption
    | with_reducible apply ite_ok
    | intro _
    | with_reducible refine okOf ?_ rfl rfl rfl rfl rfl rfl rfl rfl rfl
    | simp only [ok_mk]
    | split
    | refine okOf ?_ rfl rfl rfl rfl rfl rfl rfl rfl rfl
    | dsimp only

theorem imgStatus_ok {κ : Kept} {s : State} {code : Nat} (hκ : s.Ok κ) : (State.imgStatus s code).Ok κ := by
  unfold State.imgStatus
  try dsimp only
  repeat' first
    | with_reducible assumption
    | with_reducible apply irqIf_ok
    | with_reducible apply raiseIf_ok
    | with_reducible apply setLN_ok
    | with_reducible apply ite_ok
    | intro _
    | with_reducible refine okOf ?_ rfl rfl rfl rfl rfl rfl rfl rfl rfl
    | simp only [ok_mk]
    | split
    | refine okOf ?_ rfl rfl rfl rfl rfl rfl rfl rfl rfl
    | dsimp only

theorem flashOp_ok {κ : Kept} {s : State} {o : FlashOp} (hκ : s.Ok κ) : (State.flashOp s o).Ok κ := by
  unfold State.flashOp
  try dsimp only
  repeat' first
    | with_reducible assumption
    | with_reducible apply imgStatus_ok
    | with_reducible apply setImg_ok
    | with_reducible apply ite_ok
    | intro _
    | with_reducible refine okOf ?_ rfl rfl rfl rfl rfl rfl rfl rfl rfl
    | simp only [ok_mk]
    | split
    | refine okOf ?_ rfl rfl rfl rfl rfl rfl rfl rfl rfl
    | dsimp only

theorem flushPage_ok {κ : Kept} {s : State} (hκ : s.Ok κ) : (State.flushPage s).Ok κ := by
  unfold State.flushPage
  try dsimp only
  repeat' first
    | with_reducible assumption
    | with_reducible apply flashOp_ok
    | with_reducible apply setImg_ok
    | with_reducible apply ite_ok
    | intro _
    | with_reducible refine okOf ?_ rfl rfl rfl rfl rfl rfl rfl rfl rfl
    | simp only [ok_mk]
    | split
    | refine okOf ?_ rfl rfl rfl rfl rfl rfl rfl rfl rfl
    | dsimp only

theorem imgErase_ok {κ : Kept} {slot : Nat} {s : State} (hκ : s.Ok κ) : (imgErase slot s).1.Ok κ := by
  unfold imgErase
  try dsimp only
  repeat' first
    | with_reducible assumption
    | with_reducible apply done_ok
    | with_reducible apply flashOp_ok
    | with_reducible apply imgStatus_ok
    | with_reducible apply refused6_ok
    | with_reducible apply setImg_ok
    | with_reducible apply setLN_ok
    | with_reducible apply ite_ok
    | intro _
    | with_reducible refine okOf ?_ rfl rfl rfl rfl rfl rfl rfl rfl rfl
    | simp only [ok_mk]
    | split
    | refine okOf ?_ rfl rfl rfl rfl rfl rfl rfl rfl rfl
    | dsimp only

theorem imgFinish_ok {κ : Kept} {slot : Nat} {s : State} (hκ : s.Ok κ) : (imgFinish slot s).1.Ok κ := by
  unfold imgFinish
  try dsimp only
  repeat' first
    | with_reducible assumption
    | with_reducible apply done_ok
    | with_reducible apply finish_ok
    | with_reducible apply flashOp_ok
    | with_reducible apply flushPage_ok
    | with_reducible apply imgStatus_ok
    | with_reducible apply refused6_ok
    | with_reducible apply ite_ok
    | intro _
    | with_reducible refine okOf ?_ rfl rfl rfl rfl rfl rfl rfl rfl rfl
    | simp only [ok_mk]
    | split
    | refine okOf ?_ rfl rfl rfl rfl rfl rfl rfl rfl rfl
    | dsimp only

theorem imgSave_ok {κ : Kept} {s : State} (hκ : s.Ok κ) : (imgSave s).1.Ok κ := by
  unfold imgSave
  try dsimp only
  repeat' first
    | with_reducible assumption
    | with_reducible apply done_ok
    | with_reducible apply flashOp_ok
    | with_reducible apply flushPage_ok
    | with_reducible apply refused6_ok
    | with_reducible apply ite_ok
    | intro _
    | with_reducible refine okOf ?_ rfl rfl rfl rfl rfl rfl rfl rfl rfl
    | simp only [ok_mk]
    | split
    | refine okOf ?_ rfl rfl rfl rfl rfl rfl rfl rfl rfl
    | dsimp only

theorem imgSubmit_ok {κ : Kept} {s : State} (hκ : s.Ok κ) : (imgSubmit s).1.Ok κ := by
  unfold imgSubmit
  try dsimp only
  repeat' first
    | with_reducible assumption
    | with_reducible apply done_ok
    | with_reducible apply imgStatus_ok
    | with_reducible apply refused6_ok
    | with_reducible apply ite_ok
    | intro _
    | with_reducible refine okOf ?_ rfl rfl rfl rfl rfl rfl rfl rfl rfl
    | simp only [ok_mk]
    | split
    | refine okOf ?_ rfl rfl rfl rfl rfl rfl rfl rfl rfl
    | dsimp only

theorem wrImgCtrl_ok {κ : Kept} {v : Word} {s : State} (hκ : s.Ok κ) : (wrImgCtrl v s).1.Ok κ := by
  unfold wrImgCtrl
  try dsimp only
  repeat' first
    | with_reducible assumption
    | with_reducible apply imgErase_ok
    | with_reducible apply imgFinish_ok
    | with_reducible apply imgSave_ok
    | with_reducible apply imgSubmit_ok
    | with_reducible apply ite_ok
    | intro _
    | with_reducible refine okOf ?_ rfl rfl rfl rfl rfl rfl rfl rfl rfl
    | simp only [ok_mk]
    | split
    | refine okOf ?_ rfl rfl rfl rfl rfl rfl rfl rfl rfl
    | dsimp only

theorem wrImgData_ok {κ : Kept} {v : Word} {s : State} (hκ : s.Ok κ) : (wrImgData v s).1.Ok κ := by
  unfold wrImgData
  try dsimp only
  repeat' first
    | with_reducible assumption
    | with_reducible apply done_ok
    | with_reducible apply flushPage_ok
    | with_reducible apply imgStatus_ok
    | with_reducible apply ownerOn_ok
    | with_reducible apply setImg_ok
    | with_reducible apply setLN_ok
    | with_reducible apply wrW_ok
    | with_reducible apply ite_ok
    | intro _
    | with_reducible refine okOf ?_ rfl rfl rfl rfl rfl rfl rfl rfl rfl
    | simp only [ok_mk]
    | split
    | refine okOf ?_ rfl rfl rfl rfl rfl rfl rfl rfl rfl
    | dsimp only

theorem execImgEraseA_ok {κ : Kept} {p : Path} {s : State} (hκ : s.Ok κ) : ∃ st' : State, execImgEraseA p s = .next st' ∧ st'.Ok κ := by
  refine ⟨_, rfl, ?_⟩
  try dsimp only
  repeat' first
    | with_reducible assumption
    | with_reducible apply guardWrite_ok
    | with_reducible apply imgErase_ok
    | with_reducible apply ite_ok
    | intro _
    | with_reducible refine okOf ?_ rfl rfl rfl rfl rfl rfl rfl rfl rfl
    | simp only [ok_mk]
    | split
    | refine okOf ?_ rfl rfl rfl rfl rfl rfl rfl rfl rfl
    | dsimp only

theorem execImgEraseB_ok {κ : Kept} {p : Path} {s : State} (hκ : s.Ok κ) : ∃ st' : State, execImgEraseB p s = .next st' ∧ st'.Ok κ := by
  refine ⟨_, rfl, ?_⟩
  try dsimp only
  repeat' first
    | with_reducible assumption
    | with_reducible apply guardWrite_ok
    | with_reducible apply imgErase_ok
    | with_reducible apply ite_ok
    | intro _
    | with_reducible refine okOf ?_ rfl rfl rfl rfl rfl rfl rfl rfl rfl
    | simp only [ok_mk]
    | split
    | refine okOf ?_ rfl rfl rfl rfl rfl rfl rfl rfl rfl
    | dsimp only

theorem execImgFinishA_ok {κ : Kept} {p : Path} {s : State} (hκ : s.Ok κ) : ∃ st' : State, execImgFinishA p s = .next st' ∧ st'.Ok κ := by
  refine ⟨_, rfl, ?_⟩
  try dsimp only
  repeat' first
    | with_reducible assumption
    | with_reducible apply guardWrite_ok
    | with_reducible apply imgFinish_ok
    | with_reducible apply ite_ok
    | intro _
    | with_reducible refine okOf ?_ rfl rfl rfl rfl rfl rfl rfl rfl rfl
    | simp only [ok_mk]
    | split
    | refine okOf ?_ rfl rfl rfl rfl rfl rfl rfl rfl rfl
    | dsimp only

theorem execImgFinishB_ok {κ : Kept} {p : Path} {s : State} (hκ : s.Ok κ) : ∃ st' : State, execImgFinishB p s = .next st' ∧ st'.Ok κ := by
  refine ⟨_, rfl, ?_⟩
  try dsimp only
  repeat' first
    | with_reducible assumption
    | with_reducible apply guardWrite_ok
    | with_reducible apply imgFinish_ok
    | with_reducible apply ite_ok
    | intro _
    | with_reducible refine okOf ?_ rfl rfl rfl rfl rfl rfl rfl rfl rfl
    | simp only [ok_mk]
    | split
    | refine okOf ?_ rfl rfl rfl rfl rfl rfl rfl rfl rfl
    | dsimp only

theorem execImgHostLoad_ok {κ : Kept} {p : Path} {s : State} (hκ : s.Ok κ) : ∃ st' : State, execImgHostLoad p s = .next st' ∧ st'.Ok κ := by
  refine ⟨_, rfl, ?_⟩
  try dsimp only
  repeat' first
    | with_reducible assumption
    | with_reducible apply guardWrite_ok
    | with_reducible apply imgSubmit_ok
    | with_reducible apply ite_ok
    | intro _
    | with_reducible refine okOf ?_ rfl rfl rfl rfl rfl rfl rfl rfl rfl
    | simp only [ok_mk]
    | split
    | refine okOf ?_ rfl rfl rfl rfl rfl rfl rfl rfl rfl
    | dsimp only

theorem execImgSaveActive_ok {κ : Kept} {p : Path} {s : State} (hκ : s.Ok κ) : ∃ st' : State, execImgSaveActive p s = .next st' ∧ st'.Ok κ := by
  refine ⟨_, rfl, ?_⟩
  try dsimp only
  repeat' first
    | with_reducible assumption
    | with_reducible apply guardWrite_ok
    | with_reducible apply imgSave_ok
    | with_reducible apply ite_ok
    | intro _
    | with_reducible refine okOf ?_ rfl rfl rfl rfl rfl rfl rfl rfl rfl
    | simp only [ok_mk]
    | split
    | refine okOf ?_ rfl rfl rfl rfl rfl rfl rfl rfl rfl
    | dsimp only

theorem execImgData_ok {κ : Kept} {p : Path} {v : Word} {s : State} (hκ : s.Ok κ) : ∃ st' : State, execImgData p v s = .next st' ∧ st'.Ok κ := by
  refine ⟨_, rfl, ?_⟩
  try dsimp only
  repeat' first
    | with_reducible assumption
    | with_reducible apply guardWrite_ok
    | with_reducible apply wrImgData_ok
    | with_reducible apply ite_ok
    | intro _
    | with_reducible refine okOf ?_ rfl rfl rfl rfl rfl rfl rfl rfl rfl
    | simp only [ok_mk]
    | split
    | refine okOf ?_ rfl rfl rfl rfl rfl rfl rfl rfl rfl
    | dsimp only

theorem program_ok {κ : Kept} (hF : κ.flash = none) {bs : List Byte} : ∀ {s : State} {a : Nat}, s.Ok κ → (s.program a bs).Ok κ := by
  induction bs with
  | nil => intro s a h; exact h
  | cons b bs ih =>
    intro s a h
    unfold State.program
    refine ih ?_
    split
    · exact h
    · split
      · exact wrFlash_ok h hF
      · exact wrFlash_ok (draw_ok h) hF


theorem flashDone_ok {κ : Kept} {s : State} {o : FlashOp} (hκ : s.Ok κ) (hF : κ.flash = none) : (State.flashDone s o).1.Ok κ := by
  unfold State.flashDone
  try dsimp only
  repeat' first
    | with_reducible assumption
    | with_reducible apply finish_ok
    | with_reducible apply noteSlot_ok
    | with_reducible apply program_ok
    | with_reducible apply ite_ok
    | intro _
    | with_reducible refine okOf ?_ rfl rfl rfl rfl rfl rfl rfl rfl rfl
    | with_reducible apply okOf_clear
    | with_reducible apply okOf_erase
    | simp only [ok_mk]
    | split
    | refine okOf ?_ rfl rfl rfl rfl rfl rfl rfl rfl rfl
    | dsimp only

theorem execFlashOpDone_ok {κ : Kept} {ok : Bool} {s : State} (hκ : s.Ok κ) (hF : κ.flash = none) : ∃ st' : State, execFlashOpDone ok s = .next st' ∧ st'.Ok κ := by
  refine ⟨_, rfl, ?_⟩
  try dsimp only
  repeat' first
    | with_reducible assumption
    | with_reducible apply flashDone_ok
    | with_reducible apply imgStatus_ok
    | with_reducible apply setImg_ok
    | with_reducible apply ite_ok
    | intro _
    | with_reducible refine okOf ?_ rfl rfl rfl rfl rfl rfl rfl rfl rfl
    | simp only [ok_mk]
    | split
    | refine okOf ?_ rfl rfl rfl rfl rfl rfl rfl rfl rfl
    | dsimp only

end Sys2Proof.Machine
end

