-- ==== Sys2Proof/Laws/KeepsObjects.lean ====
section
/-! SUPPORT. The operations of Objects.lean keep what Keeps.lean names. -/
namespace Sys2Proof.Machine
set_option linter.all false

theorem latchResult_ok {κ : Kept} {s : State} {p : Path} {x : ResultRow} (hκ : s.Ok κ) : (State.latchResult s p x).Ok κ := by
  unfold State.latchResult
  try dsimp only
  repeat' first
    | with_reducible assumption
    | with_reducible apply latch_ok
    | with_reducible apply ite_ok
    | intro _
    | with_reducible refine okOf ?_ rfl rfl rfl rfl rfl rfl rfl rfl rfl
    | simp only [ok_mk]
    | split
    | refine okOf ?_ rfl rfl rfl rfl rfl rfl rfl rfl rfl
    | dsimp only

theorem objRead_ok {κ : Kept} {s : State} {p : Path} {k : Nat} (hκ : s.Ok κ) : (State.objRead s p k).1.Ok κ := by
  unfold State.objRead
  try dsimp only
  repeat' first
    | with_reducible assumption
    | with_reducible apply adcDataRead_ok
    | with_reducible apply latchHigh_ok
    | with_reducible apply latchResult_ok
    | with_reducible apply latch_ok
    | with_reducible apply prbsErr_ok
    | with_reducible apply readPend_ok
    | with_reducible apply readPrbsLo_ok
    | with_reducible apply seeFaults_ok
    | with_reducible apply setWide_ok
    | with_reducible apply useHigh_ok
    | with_reducible apply ite_ok
    | intro _
    | with_reducible refine okOf ?_ rfl rfl rfl rfl rfl rfl rfl rfl rfl
    | simp only [ok_mk]
    | split
    | refine okOf ?_ rfl rfl rfl rfl rfl rfl rfl rfl rfl
    | dsimp only

theorem wrPdo_ok {κ : Kept} {k : Nat} {v : Word} {s : State} (hκ : s.Ok κ) : (wrPdo k v s).1.Ok κ := by
  unfold wrPdo
  try dsimp only
  repeat' first
    | with_reducible assumption
    | with_reducible apply done_ok
    | with_reducible apply refused6_ok
    | with_reducible apply setL_ok
    | with_reducible apply ite_ok
    | intro _
    | with_reducible refine okOf ?_ rfl rfl rfl rfl rfl rfl rfl rfl rfl
    | simp only [ok_mk]
    | split
    | refine okOf ?_ rfl rfl rfl rfl rfl rfl rfl rfl rfl
    | dsimp only

theorem eff03_ok {κ : Kept} {k : Nat} {v : Word} {s : State} (hκ : s.Ok κ) : OptOk κ (eff03 k v s) := by
  unfold eff03
  try dsimp only
  repeat' first
    | with_reducible assumption
    | with_reducible apply done_ok
    | with_reducible apply setLN_ok
    | with_reducible apply wrCommitReq_ok
    | with_reducible apply wrImgCtrl_ok
    | with_reducible apply wrImgData_ok
    | with_reducible apply wrModeReq_ok
    | with_reducible apply wrRtReq_ok
    | with_reducible apply wrSafeAck_ok
    | with_reducible apply some_ok
    | with_reducible apply none_ok
    | with_reducible apply optIte_ok
    | with_reducible apply orElse_ok
    | with_reducible apply getD_ok
    | with_reducible apply ite_ok
    | intro _
    | with_reducible refine okOf ?_ rfl rfl rfl rfl rfl rfl rfl rfl rfl
    | simp only [ok_mk]
    | split
    | refine okOf ?_ rfl rfl rfl rfl rfl rfl rfl rfl rfl
    | dsimp only

theorem eff05_ok {κ : Kept} {k : Nat} {v : Word} {s : State} (hκ : s.Ok κ) : OptOk κ (eff05 k v s) := by
  unfold eff05
  try dsimp only
  repeat' first
    | with_reducible assumption
    | with_reducible apply wrBeaconSend_ok
    | with_reducible apply wrCfgWord_ok
    | with_reducible apply wrCourierReq_ok
    | with_reducible apply wrDiscCtrl_ok
    | with_reducible apply wrHealthCmd_ok
    | with_reducible apply wrLaneCtrl_ok
    | with_reducible apply wrPrbsErr_ok
    | with_reducible apply some_ok
    | with_reducible apply none_ok
    | with_reducible apply optIte_ok
    | with_reducible apply orElse_ok
    | with_reducible apply getD_ok
    | with_reducible apply ite_ok
    | intro _
    | with_reducible refine okOf ?_ rfl rfl rfl rfl rfl rfl rfl rfl rfl
    | simp only [ok_mk]
    | split
    | refine okOf ?_ rfl rfl rfl rfl rfl rfl rfl rfl rfl
    | dsimp only

theorem eff08_ok {κ : Kept} {p : Path} {k : Nat} {v : Word} {s : State} (hκ : s.Ok κ) : OptOk κ (eff08 p k v s) := by
  unfold eff08
  try dsimp only
  repeat' first
    | with_reducible assumption
    | with_reducible apply wrArmRef_ok
    | with_reducible apply wrForceCommitAll_ok
    | with_reducible apply wrForceCtrl_ok
    | with_reducible apply wrMaskClear_ok
    | with_reducible apply some_ok
    | with_reducible apply none_ok
    | with_reducible apply optIte_ok
    | with_reducible apply orElse_ok
    | with_reducible apply getD_ok
    | with_reducible apply ite_ok
    | intro _
    | with_reducible refine okOf ?_ rfl rfl rfl rfl rfl rfl rfl rfl rfl
    | simp only [ok_mk]
    | split
    | refine okOf ?_ rfl rfl rfl rfl rfl rfl rfl rfl rfl
    | dsimp only

theorem eff11_ok {κ : Kept} {p : Path} {k : Nat} {v : Word} {s : State} (hκ : s.Ok κ) : OptOk κ (eff11 p k v s) := by
  unfold eff11
  try dsimp only
  repeat' first
    | with_reducible assumption
    | with_reducible apply clearCycWarn_ok
    | with_reducible apply done_ok
    | with_reducible apply setL_ok
    | with_reducible apply wrDelayArm_ok
    | with_reducible apply wrDelayCancel_ok
    | with_reducible apply wrDescW3_ok
    | with_reducible apply wrDescW_ok
    | with_reducible apply wrHostRelease_ok
    | with_reducible apply some_ok
    | with_reducible apply none_ok
    | with_reducible apply optIte_ok
    | with_reducible apply orElse_ok
    | with_reducible apply getD_ok
    | with_reducible apply ite_ok
    | intro _
    | with_reducible refine okOf ?_ rfl rfl rfl rfl rfl rfl rfl rfl rfl
    | simp only [ok_mk]
    | split
    | refine okOf ?_ rfl rfl rfl rfl rfl rfl rfl rfl rfl
    | dsimp only

theorem eff12_ok {κ : Kept} {k : Nat} {v : Word} {s : State} (hκ : s.Ok κ) : OptOk κ (eff12 k v s) := by
  unfold eff12
  try dsimp only
  repeat' first
    | with_reducible assumption
    | with_reducible apply wrAcqCmd_ok
    | with_reducible apply wrAdcCtrl_ok
    | with_reducible apply wrAidsSticky_ok
    | with_reducible apply wrLanternCmd_ok
    | with_reducible apply wrNotchRestart_ok
    | with_reducible apply wrPairCtrl_ok
    | with_reducible apply wrPwmForce_ok
    | with_reducible apply wrPwmSyncStart_ok
    | with_reducible apply wrPwmTiming_ok
    | with_reducible apply wrTripClear_ok
    | with_reducible apply some_ok
    | with_reducible apply none_ok
    | with_reducible apply optIte_ok
    | with_reducible apply orElse_ok
    | with_reducible apply getD_ok
    | with_reducible apply ite_ok
    | intro _
    | with_reducible refine okOf ?_ rfl rfl rfl rfl rfl rfl rfl rfl rfl
    | simp only [ok_mk]
    | split
    | refine okOf ?_ rfl rfl rfl rfl rfl rfl rfl rfl rfl
    | dsimp only

theorem eff18_ok {κ : Kept} {p : Path} {k : Nat} {v : Word} {s : State} (hκ : s.Ok κ) : OptOk κ (eff18 p k v s) := by
  unfold eff18
  try dsimp only
  repeat' first
    | with_reducible assumption
    | with_reducible apply draw_ok
    | with_reducible apply wrComplete_ok
    | with_reducible apply wrFaultAckHi_ok
    | with_reducible apply wrFaultForceHi_ok
    | with_reducible apply wrJrnPop_ok
    | with_reducible apply wrLcReq_ok
    | with_reducible apply wrMarchCtrl_ok
    | with_reducible apply wrPend_ok
    | with_reducible apply wrSwConfirm_ok
    | with_reducible apply wrSwOpen_ok
    | with_reducible apply wrSwapReq_ok
    | with_reducible apply some_ok
    | with_reducible apply none_ok
    | with_reducible apply optIte_ok
    | with_reducible apply orElse_ok
    | with_reducible apply getD_ok
    | with_reducible apply ite_ok
    | intro _
    | with_reducible refine okOf ?_ rfl rfl rfl rfl rfl rfl rfl rfl rfl
    | simp only [ok_mk]
    | split
    | refine okOf ?_ rfl rfl rfl rfl rfl rfl rfl rfl rfl
    | dsimp only

theorem wrMdioCmd_ok {κ : Kept} {v : Word} {s : State} (hκ : s.Ok κ) : (wrMdioCmd v s).1.Ok κ := by
  unfold wrMdioCmd
  try dsimp only
  repeat' first
    | with_reducible assumption
    | with_reducible apply done_ok
    | with_reducible apply refused6_ok
    | with_reducible apply setLN_ok
    | with_reducible apply ite_ok
    | intro _
    | with_reducible refine okOf ?_ rfl rfl rfl rfl rfl rfl rfl rfl rfl
    | simp only [ok_mk]
    | split
    | refine okOf ?_ rfl rfl rfl rfl rfl rfl rfl rfl rfl
    | dsimp only

theorem eff23_ok {κ : Kept} {k : Nat} {v : Word} {s : State} (hκ : s.Ok κ) : OptOk κ (eff23 k v s) := by
  unfold eff23
  try dsimp only
  repeat' first
    | with_reducible assumption
    | with_reducible apply done_ok
    | with_reducible apply setLI_ok
    | with_reducible apply wrMdioCmd_ok
    | with_reducible apply wrPdo_ok
    | with_reducible apply some_ok
    | with_reducible apply none_ok
    | with_reducible apply optIte_ok
    | with_reducible apply orElse_ok
    | with_reducible apply getD_ok
    | with_reducible apply ite_ok
    | intro _
    | with_reducible refine okOf ?_ rfl rfl rfl rfl rfl rfl rfl rfl rfl
    | simp only [ok_mk]
    | split
    | refine okOf ?_ rfl rfl rfl rfl rfl rfl rfl rfl rfl
    | dsimp only

theorem storeWide_ok {κ : Kept} {s : State} {p : Path} {k : Nat} {v : Word} {st : Bool} (hκ : s.Ok κ) : (State.storeWide s p k v st).Ok κ := by
  unfold State.storeWide
  try dsimp only
  repeat' first
    | with_reducible assumption
    | with_reducible apply dropLow_ok
    | with_reducible apply setL_ok
    | with_reducible apply setS_ok
    | with_reducible apply ite_ok
    | intro _
    | with_reducible refine okOf ?_ rfl rfl rfl rfl rfl rfl rfl rfl rfl
    | simp only [ok_mk]
    | split
    | refine okOf ?_ rfl rfl rfl rfl rfl rfl rfl rfl rfl
    | dsimp only

theorem wrPlain_ok {κ : Kept} {p : Path} {k : Nat} {v : Word} {s : State} (hκ : s.Ok κ) : (wrPlain p k v s).1.Ok κ := by
  unfold wrPlain
  try dsimp only
  repeat' first
    | with_reducible assumption
    | with_reducible apply done_ok
    | with_reducible apply holdLow_ok
    | with_reducible apply setL_ok
    | with_reducible apply setS_ok
    | with_reducible apply storeWide_ok
    | with_reducible apply ite_ok
    | intro _
    | with_reducible refine okOf ?_ rfl rfl rfl rfl rfl rfl rfl rfl rfl
    | simp only [ok_mk]
    | split
    | refine okOf ?_ rfl rfl rfl rfl rfl rfl rfl rfl rfl
    | dsimp only

theorem objEffect_ok {κ : Kept} {p : Path} {k : Nat} {w : Word} {s : State} (hκ : s.Ok κ) : (objEffect p k w s).1.Ok κ := by
  unfold objEffect
  try dsimp only
  repeat' first
    | with_reducible assumption
    | with_reducible apply eff03_ok
    | with_reducible apply eff05_ok
    | with_reducible apply eff08_ok
    | with_reducible apply eff11_ok
    | with_reducible apply eff12_ok
    | with_reducible apply eff18_ok
    | with_reducible apply eff23_ok
    | with_reducible apply wrClassK_ok
    | with_reducible apply wrPlain_ok
    | with_reducible apply some_ok
    | with_reducible apply none_ok
    | with_reducible apply optIte_ok
    | with_reducible apply orElse_ok
    | with_reducible apply getD_ok
    | with_reducible apply ite_ok
    | intro _
    | with_reducible refine okOf ?_ rfl rfl rfl rfl rfl rfl rfl rfl rfl
    | simp only [ok_mk]
    | split
    | refine okOf ?_ rfl rfl rfl rfl rfl rfl rfl rfl rfl
    | dsimp only

theorem objTry_ok {κ : Kept} {s : State} {p : Path} {k : Nat} {v : Word} (hκ : s.Ok κ) : (State.objTry s p k v).1.Ok κ := by
  unfold State.objTry
  try dsimp only
  repeat' first
    | with_reducible assumption
    | with_reducible apply objEffect_ok
    | with_reducible apply tryWrite_ok
    | with_reducible apply ite_ok
    | intro _
    | with_reducible refine okOf ?_ rfl rfl rfl rfl rfl rfl rfl rfl rfl
    | simp only [ok_mk]
    | split
    | refine okOf ?_ rfl rfl rfl rfl rfl rfl rfl rfl rfl
    | dsimp only

theorem objWrite_ok {κ : Kept} {s : State} {p : Path} {k : Nat} {v : Word} (hκ : s.Ok κ) : (State.objWrite s p k v).Ok κ := by
  unfold State.objWrite
  try dsimp only
  repeat' first
    | with_reducible assumption
    | with_reducible apply guardWrite_ok
    | with_reducible apply objEffect_ok
    | with_reducible apply ite_ok
    | intro _
    | with_reducible refine okOf ?_ rfl rfl rfl rfl rfl rfl rfl rfl rfl
    | simp only [ok_mk]
    | split
    | refine okOf ?_ rfl rfl rfl rfl rfl rfl rfl rfl rfl
    | dsimp only

theorem execRegisterWrite_ok {κ : Kept} {p : Path} {key : Nat} {v : Word} {s : State} (hκ : s.Ok κ) : ∃ st' : State, execRegisterWrite p key v s = .next st' ∧ st'.Ok κ := by
  refine ⟨_, rfl, ?_⟩
  try dsimp only
  repeat' first
    | with_reducible assumption
    | with_reducible apply objWrite_ok
    | with_reducible apply ite_ok
    | intro _
    | with_reducible refine okOf ?_ rfl rfl rfl rfl rfl rfl rfl rfl rfl
    | simp only [ok_mk]
    | split
    | refine okOf ?_ rfl rfl rfl rfl rfl rfl rfl rfl rfl
    | dsimp only

theorem domainWrite_ok {κ : Kept} {s : State} {k : Nat} {bs : List Byte} (hκ : s.Ok κ) : (State.domainWrite s k bs).1.Ok κ := by
  unfold State.domainWrite
  try dsimp only
  repeat' first
    | with_reducible assumption
    | with_reducible apply done_ok
    | with_reducible apply incL_ok
    | with_reducible apply wrKeyInstall_ok
    | with_reducible apply ite_ok
    | intro _
    | with_reducible refine okOf ?_ rfl rfl rfl rfl rfl rfl rfl rfl rfl
    | simp only [ok_mk]
    | split
    | refine okOf ?_ rfl rfl rfl rfl rfl rfl rfl rfl rfl
    | dsimp only

end Sys2Proof.Machine
end

