-- ==== Sys2Proof/Laws/KeepsBoot.lean ====
section
/-! SUPPORT. The operations of Boot.lean keep what Keeps.lean names. -/
namespace Sys2Proof.Machine
set_option linter.all false

theorem setBoot_ok {κ : Kept} {s : State} {b : BootSt} (hκ : s.Ok κ) : (State.setBoot s b).Ok κ := by
  unfold State.setBoot
  try dsimp only
  repeat' first
    | with_reducible assumption
    | with_reducible apply ite_ok
    | intro _
    | with_reducible refine okOf ?_ rfl rfl rfl rfl rfl rfl rfl rfl rfl
    | simp only [ok_mk]
    | split
    | refine okOf ?_ rfl rfl rfl rfl rfl rfl rfl rfl rfl
    | dsimp only

theorem bootStep_ok {κ : Kept} {s : State} {x : BootStep} (hκ : s.Ok κ) : (State.bootStep s x).Ok κ := by
  unfold State.bootStep
  try dsimp only
  repeat' first
    | with_reducible assumption
    | with_reducible apply setBoot_ok
    | with_reducible apply ite_ok
    | intro _
    | with_reducible refine okOf ?_ rfl rfl rfl rfl rfl rfl rfl rfl rfl
    | simp only [ok_mk]
    | split
    | refine okOf ?_ rfl rfl rfl rfl rfl rfl rfl rfl rfl
    | dsimp only

/-- After a reset the tick has not begun, WT_FAULT is left, and the active copy and the frame count are new. -/
def Kept.afterReset (κ : Kept) : Kept := { κ with ticking := false, fault := false, act := none, count := none }

theorem resetTo_ok {κ : Kept} {s : State} {low good : Bool} {cause : Nat} (h : s.Ok κ) : (s.resetTo low good cause).Ok κ.afterReset := by
  have k : (s.fuseTampers false).Ok κ := fuseTampers_ok h
  unfold State.resetTo
  generalize s.fuseTampers false = u at k
  refine ⟨twf_filter _ k.sram, k.flash, k.pending, ?_, fun _ k => by simp [State.reset] at k, fun k => by simp [Kept.afterReset] at k,
    fun k => by simp [Kept.afterReset] at k, k.flashIs, fun _ k => by simp [Kept.afterReset] at k, fun _ k => by simp [Kept.afterReset] at k⟩
  show κ.life ≤ u.lifeAfterReset.code
  unfold State.lifeAfterReset
  cases hf : u.mem.fusing with
  | none => exact k.life
  | some x => exact Nat.le_trans k.life (k.fusing x hf)

/-- What a state keeps it keeps without the promises that a reset ends. -/
theorem State.Ok.reset {κ : Kept} {s : State} (h : s.Ok κ) : s.Ok κ.afterReset :=
  ⟨h.sram, h.flash, h.pending, h.life, h.fusing, fun k => by simp [Kept.afterReset] at k, fun k => by simp [Kept.afterReset] at k,
    h.flashIs, fun _ k => by simp [Kept.afterReset] at k, fun _ k => by simp [Kept.afterReset] at k⟩


theorem execPwrgoodRise_ok {κ : Kept} {s : State} (hκ : s.Ok κ) : ∃ st' : State, execPwrgoodRise s = .next st' ∧ st'.Ok κ := by
  refine ⟨_, rfl, ?_⟩
  try dsimp only
  repeat' first
    | with_reducible assumption
    | with_reducible apply setBoot_ok
    | with_reducible apply ite_ok
    | intro _
    | with_reducible refine okOf ?_ rfl rfl rfl rfl rfl rfl rfl rfl rfl
    | simp only [ok_mk]
    | split
    | refine okOf ?_ rfl rfl rfl rfl rfl rfl rfl rfl rfl
    | dsimp only

theorem execPwrgoodFall_ok {κ : Kept} {s : State} (hκ : s.Ok κ) : ∃ st' : State, execPwrgoodFall s = .next st' ∧ st'.Ok κ.afterReset := by
  refine ⟨_, rfl, ?_⟩
  split
  · exact resetTo_ok hκ
  · exact hκ.reset


theorem execResetNAssert_ok {κ : Kept} {s : State} (hκ : s.Ok κ) : ∃ st' : State, execResetNAssert s = .next st' ∧ st'.Ok κ.afterReset := by
  refine ⟨_, rfl, ?_⟩
  split
  · exact hκ.reset
  · exact resetTo_ok hκ


theorem startBoot_ok {κ : Kept} {s : State} {sel : BitVec 2} (hκ : s.Ok κ) : (State.startBoot s sel).Ok κ.afterReset := by
  unfold State.startBoot
  try dsimp only
  repeat' first
    | with_reducible assumption
    | with_reducible apply resetTo_ok
    | with_reducible apply cause_ok
    | with_reducible apply raiseAs_ok
    | with_reducible apply resetTo_ok
    | with_reducible apply setBoot_ok
    | with_reducible apply ite_ok
    | intro _
    | with_reducible refine okOf ?_ rfl rfl rfl rfl rfl rfl rfl rfl rfl
    | simp only [ok_mk]
    | split
    | refine okOf ?_ rfl rfl rfl rfl rfl rfl rfl rfl rfl
    | dsimp only

theorem tamperAtRelease_ok {κ : Kept} {s : State} {active : BitVec 2} (hκ : s.Ok κ) : (State.tamperAtRelease s active).Ok κ := by
  unfold State.tamperAtRelease
  try dsimp only
  repeat' first
    | with_reducible assumption
    | with_reducible apply cause_ok
    | with_reducible apply each_ok
    | with_reducible apply tamperAccept_ok
    | with_reducible apply ite_ok
    | intro _
    | with_reducible refine okOf ?_ rfl rfl rfl rfl rfl rfl rfl rfl rfl
    | simp only [ok_mk]
    | split
    | refine okOf ?_ rfl rfl rfl rfl rfl rfl rfl rfl rfl
    | dsimp only

theorem execResetNRelease_ok {κ : Kept} {sel tamper : BitVec 2} {s : State} (hκ : s.Ok κ) : ∃ st' : State, execResetNRelease sel tamper s = .next st' ∧ st'.Ok κ.afterReset := by
  refine ⟨_, rfl, ?_⟩
  try dsimp only
  repeat' first
    | with_reducible assumption
    | exact State.Ok.reset ‹_›
    | with_reducible apply tamperAtRelease_ok
    | with_reducible apply startBoot_ok
    | with_reducible apply ite_ok
    | intro _
    | with_reducible refine okOf ?_ rfl rfl rfl rfl rfl rfl rfl rfl rfl
    | simp only [ok_mk]
    | split
    | refine okOf ?_ rfl rfl rfl rfl rfl rfl rfl rfl rfl
    | dsimp only

theorem execClocksLocked_ok {κ : Kept} {s : State} (hκ : s.Ok κ) : ∃ st' : State, execClocksLocked s = .next st' ∧ st'.Ok κ := by
  refine ⟨_, rfl, ?_⟩
  try dsimp only
  repeat' first
    | with_reducible assumption
    | with_reducible apply bootStep_ok
    | with_reducible apply calRequest_ok
    | with_reducible apply setLN_ok
    | with_reducible apply ite_ok
    | intro _
    | with_reducible refine okOf ?_ rfl rfl rfl rfl rfl rfl rfl rfl rfl
    | simp only [ok_mk]
    | split
    | refine okOf ?_ rfl rfl rfl rfl rfl rfl rfl rfl rfl
    | dsimp only

theorem execFuseReadDone_ok {κ : Kept} {ecc : Bool} {s : State} (hκ : s.Ok κ) : ∃ st' : State, execFuseReadDone ecc s = .next st' ∧ st'.Ok κ := by
  refine ⟨_, rfl, ?_⟩
  try dsimp only
  repeat' first
    | with_reducible assumption
    | with_reducible apply bootStep_ok
    | with_reducible apply wipe_ok
    | with_reducible apply ite_ok
    | intro _
    | with_reducible refine okOf ?_ rfl rfl rfl rfl rfl rfl rfl rfl rfl
    | simp only [ok_mk]
    | split
    | refine okOf ?_ rfl rfl rfl rfl rfl rfl rfl rfl rfl
    | dsimp only

theorem openHostLoad_ok {κ : Kept} {s : State} (hκ : s.Ok κ) : (State.openHostLoad s).Ok κ := by
  unfold State.openHostLoad
  try dsimp only
  repeat' first
    | with_reducible assumption
    | with_reducible apply each_ok
    | with_reducible apply setBoot_ok
    | with_reducible apply wakeBank_ok
    | with_reducible apply ite_ok
    | intro _
    | with_reducible refine okOf ?_ rfl rfl rfl rfl rfl rfl rfl rfl rfl
    | simp only [ok_mk]
    | split
    | refine okOf ?_ rfl rfl rfl rfl rfl rfl rfl rfl rfl
    | dsimp only

theorem afterMarch_ok {κ : Kept} {s : State} (hκ : s.Ok κ) : (State.afterMarch s).Ok κ := by
  unfold State.afterMarch
  try dsimp only
  repeat' first
    | with_reducible assumption
    | with_reducible apply bootStep_ok
    | with_reducible apply domCommit_ok
    | with_reducible apply each_ok
    | with_reducible apply openHostLoad_ok
    | with_reducible apply setBoot_ok
    | with_reducible apply ite_ok
    | intro _
    | with_reducible refine okOf ?_ rfl rfl rfl rfl rfl rfl rfl rfl rfl
    | simp only [ok_mk]
    | split
    | refine okOf ?_ rfl rfl rfl rfl rfl rfl rfl rfl rfl
    | dsimp only

theorem marchCleared_ok {κ : Kept} {s : State} (hκ : s.Ok κ) : (State.marchCleared s).Ok κ := by
  unfold State.marchCleared
  try dsimp only
  repeat' first
    | with_reducible assumption
    | with_reducible apply ite_ok
    | intro _
    | with_reducible refine okOf ?_ rfl rfl rfl rfl rfl rfl rfl rfl rfl
    | with_reducible apply okOf_clear
    | with_reducible apply okOf_erase
    | simp only [ok_mk]
    | split
    | refine okOf ?_ rfl rfl rfl rfl rfl rfl rfl rfl rfl
    | dsimp only

theorem execStartupMarchDone_ok {κ : Kept} {rows : List (Nat × Nat)} {s : State} (hκ : s.Ok κ) : ∃ st' : State, execStartupMarchDone rows s = .next st' ∧ st'.Ok κ := by
  refine ⟨_, rfl, ?_⟩
  try dsimp only
  repeat' first
    | with_reducible assumption
    | with_reducible apply afterMarch_ok
    | with_reducible apply bootStep_ok
    | with_reducible apply marchCleared_ok
    | with_reducible apply repairRow_ok
    | with_reducible apply setBoot_ok
    | with_reducible apply foldl_ok
    | with_reducible apply foldl_ok_fst
    | with_reducible apply ite_ok
    | intro _
    | with_reducible refine okOf ?_ rfl rfl rfl rfl rfl rfl rfl rfl rfl
    | simp only [ok_mk]
    | split
    | refine okOf ?_ rfl rfl rfl rfl rfl rfl rfl rfl rfl
    | dsimp only

theorem execWtSelfTestDone_ok {κ : Kept} {pass : Bool} {s : State} (hκ : s.Ok κ) : ∃ st' : State, execWtSelfTestDone pass s = .next st' ∧ st'.Ok κ := by
  refine ⟨_, rfl, ?_⟩
  try dsimp only
  repeat' first
    | with_reducible assumption
    | with_reducible apply afterMarch_ok
    | with_reducible apply bootStep_ok
    | with_reducible apply setBoot_ok
    | with_reducible apply ite_ok
    | intro _
    | with_reducible refine okOf ?_ rfl rfl rfl rfl rfl rfl rfl rfl rfl
    | simp only [ok_mk]
    | split
    | refine okOf ?_ rfl rfl rfl rfl rfl rfl rfl rfl rfl
    | dsimp only

theorem execSlotHeadersRead_ok {κ : Kept} {s : State} (hκ : s.Ok κ) : ∃ st' : State, execSlotHeadersRead s = .next st' ∧ st'.Ok κ := by
  refine ⟨_, rfl, ?_⟩
  try dsimp only
  repeat' first
    | with_reducible assumption
    | with_reducible apply bootStep_ok
    | with_reducible apply noteSlot_ok
    | with_reducible apply openHostLoad_ok
    | with_reducible apply setBoot_ok
    | with_reducible apply ite_ok
    | intro _
    | with_reducible refine okOf ?_ rfl rfl rfl rfl rfl rfl rfl rfl rfl
    | simp only [ok_mk]
    | split
    | refine okOf ?_ rfl rfl rfl rfl rfl rfl rfl rfl rfl
    | dsimp only

theorem noteBad_ok {κ : Kept} {s : State} {code : Nat} {detail : Option Nat} (hκ : s.Ok κ) : (State.noteBad s code detail).Ok κ := by
  unfold State.noteBad
  try dsimp only
  repeat' first
    | with_reducible assumption
    | with_reducible apply setBoot_ok
    | with_reducible apply ite_ok
    | intro _
    | with_reducible refine okOf ?_ rfl rfl rfl rfl rfl rfl rfl rfl rfl
    | simp only [ok_mk]
    | split
    | refine okOf ?_ rfl rfl rfl rfl rfl rfl rfl rfl rfl
    | dsimp only

theorem applyRecord_ok {κ : Kept} {s : State} {x : Nat × List Byte} (hκ : s.Ok κ) : (State.applyRecord s x).Ok κ := by
  unfold State.applyRecord
  try dsimp only
  repeat' first
    | with_reducible assumption
    | with_reducible apply domainWrite_ok
    | with_reducible apply noteBad_ok
    | with_reducible apply objEffect_ok
    | with_reducible apply stageDesc_ok
    | with_reducible apply ite_ok
    | intro _
    | with_reducible refine okOf ?_ rfl rfl rfl rfl rfl rfl rfl rfl rfl
    | simp only [ok_mk]
    | split
    | refine okOf ?_ rfl rfl rfl rfl rfl rfl rfl rfl rfl
    | dsimp only

theorem applySafety_ok {κ : Kept} {s : State} {x : Nat × List Byte} (hκ : s.Ok κ) (hA : κ.act = none) : (State.applySafety s x).Ok κ := by
  unfold State.applySafety
  try dsimp only
  repeat' first
    | with_reducible assumption
    | with_reducible apply noteBad_ok
    | with_reducible apply setA_ok
    | with_reducible apply setKS_ok
    | with_reducible apply setK_ok
    | with_reducible apply setS_ok
    | with_reducible apply ite_ok
    | intro _
    | with_reducible refine okOf ?_ rfl rfl rfl rfl rfl rfl rfl rfl rfl
    | simp only [ok_mk]
    | split
    | refine okOf ?_ rfl rfl rfl rfl rfl rfl rfl rfl rfl
    | dsimp only

theorem applyLedgerCfg_ok {κ : Kept} {n : Nat} : ∀ {s : State} {i : Nat} {bs : List Byte}, s.Ok κ → (s.applyLedgerCfg i n bs).Ok κ := by
  induction n with
  | zero => intro s i bs h; exact h
  | succ n ih =>
    intro s i bs h
    unfold State.applyLedgerCfg
    refine ih ?_
    split
    · exact noteBad_ok h
    · exact ⟨h.sram, h.flash, h.pending, h.life, h.fusing, h.ticking, h.fault, h.flashIs, h.actIs, h.countIs⟩


theorem applySection_ok {κ : Kept} {s : State} {x : Nat × List Byte} (hκ : s.Ok κ) (hA : κ.act = none) : (State.applySection s x).Ok κ := by
  unfold State.applySection
  try dsimp only
  repeat' first
    | with_reducible assumption
    | with_reducible apply applyLedgerCfg_ok
    | with_reducible apply applyRecord_ok
    | with_reducible apply applySafety_ok
    | with_reducible apply each_ok
    | with_reducible apply noteBad_ok
    | with_reducible apply wrBytes_ok
    | with_reducible apply foldl_ok
    | with_reducible apply foldl_ok_fst
    | with_reducible apply ite_ok
    | intro _
    | with_reducible refine okOf ?_ rfl rfl rfl rfl rfl rfl rfl rfl rfl
    | simp only [ok_mk]
    | split
    | refine okOf ?_ rfl rfl rfl rfl rfl rfl rfl rfl rfl
    | dsimp only

theorem dropLanes_ok {κ : Kept} {s : State} (hκ : s.Ok κ) : (State.dropLanes s).Ok κ := by
  unfold State.dropLanes
  try dsimp only
  repeat' first
    | with_reducible assumption
    | with_reducible apply ctrlAct_ok
    | with_reducible apply each_ok
    | with_reducible apply setL_ok
    | with_reducible apply setRouteSt_ok
    | with_reducible apply ite_ok
    | intro _
    | with_reducible refine okOf ?_ rfl rfl rfl rfl rfl rfl rfl rfl rfl
    | simp only [ok_mk]
    | split
    | refine okOf ?_ rfl rfl rfl rfl rfl rfl rfl rfl rfl
    | dsimp only

theorem dropCopies_ok {κ : Kept} {s : State} (hκ : s.Ok κ) (hA : κ.act = none) : (State.dropCopies s).Ok κ := by
  unfold State.dropCopies
  try dsimp only
  repeat' first
    | with_reducible assumption
    | with_reducible apply ite_ok
    | intro _
    | with_reducible refine okOf ?_ rfl rfl rfl rfl rfl rfl rfl rfl rfl
    | with_reducible refine okOf_act ?_ rfl rfl rfl rfl rfl rfl rfl rfl ?_
    | with_reducible apply okOf_clear
    | with_reducible apply okOf_erase
    | simp only [ok_mk]
    | split
    | refine okOf ?_ rfl rfl rfl rfl rfl rfl rfl rfl rfl
    | dsimp only

theorem dropConfig_ok {κ : Kept} {s : State} {p : List Byte} (hκ : s.Ok κ) (hA : κ.act = none) : (State.dropConfig s p).Ok κ := by
  unfold State.dropConfig
  try dsimp only
  repeat' first
    | with_reducible assumption
    | with_reducible apply domCommit_ok
    | with_reducible apply dropCopies_ok
    | with_reducible apply dropLanes_ok
    | with_reducible apply each_ok
    | with_reducible apply laneLevels_ok
    | with_reducible apply setL_ok
    | with_reducible apply ite_ok
    | intro _
    | with_reducible refine okOf ?_ rfl rfl rfl rfl rfl rfl rfl rfl rfl
    | simp only [ok_mk]
    | split
    | refine okOf ?_ rfl rfl rfl rfl rfl rfl rfl rfl rfl
    | dsimp only

theorem bootCfg_ok {κ : Kept} {s : State} {i : Nat} (hκ : s.Ok κ) : (State.bootCfg s i).Ok κ := by
  unfold State.bootCfg
  try dsimp only
  repeat' first
    | with_reducible assumption
    | with_reducible apply setEntry_ok
    | with_reducible apply ite_ok
    | intro _
    | with_reducible refine okOf ?_ rfl rfl rfl rfl rfl rfl rfl rfl rfl
    | simp only [ok_mk]
    | split
    | refine okOf ?_ rfl rfl rfl rfl rfl rfl rfl rfl rfl
    | dsimp only

theorem loadSections_ok {κ : Kept} {s : State} {secs : List (Nat × List Byte)} (hκ : s.Ok κ) (hA : κ.act = none) : (State.loadSections s secs).Ok κ := by
  unfold State.loadSections
  try dsimp only
  repeat' first
    | with_reducible assumption
    | with_reducible apply applySection_ok
    | with_reducible apply bootCfg_ok
    | with_reducible apply each_ok
    | with_reducible apply foldl_ok
    | with_reducible apply foldl_ok_fst
    | with_reducible apply ite_ok
    | intro _
    | with_reducible refine okOf ?_ rfl rfl rfl rfl rfl rfl rfl rfl rfl
    | with_reducible refine okOf_act ?_ rfl rfl rfl rfl rfl rfl rfl rfl ?_
    | simp only [ok_mk]
    | split
    | refine okOf ?_ rfl rfl rfl rfl rfl rfl rfl rfl rfl
    | dsimp only

theorem claimSlot_ok {κ : Kept} {s : State} {slot : Nat} (hκ : s.Ok κ) : (State.claimSlot s slot).Ok κ := by
  unfold State.claimSlot
  try dsimp only
  repeat' first
    | with_reducible assumption
    | with_reducible apply imgStatus_ok
    | with_reducible apply setImg_ok
    | with_reducible apply ite_ok
    | intro _
    | with_reducible refine okOf ?_ rfl rfl rfl rfl rfl rfl rfl rfl rfl
    | simp only [ok_mk]
    | split
    | refine okOf ?_ rfl rfl rfl rfl rfl rfl rfl rfl rfl
    | dsimp only

theorem loadImage_ok {κ : Kept} {s : State} {slot : Nat} (hκ : s.Ok κ) (hA : κ.act = none) : (State.loadImage s slot).Ok κ := by
  unfold State.loadImage
  try dsimp only
  repeat' first
    | with_reducible assumption
    | with_reducible apply bootAdvance_ok
    | with_reducible apply claimSlot_ok
    | with_reducible apply ctrlAct_ok
    | with_reducible apply domCommit_ok
    | with_reducible apply each_ok
    | with_reducible apply loadSections_ok
    | with_reducible apply noteBad_ok
    | with_reducible apply setBoot_ok
    | with_reducible apply setLN_ok
    | with_reducible apply setL_ok
    | with_reducible apply setRouteSt_ok
    | with_reducible apply ite_ok
    | intro _
    | with_reducible refine okOf ?_ rfl rfl rfl rfl rfl rfl rfl rfl rfl
    | simp only [ok_mk]
    | split
    | refine okOf ?_ rfl rfl rfl rfl rfl rfl rfl rfl rfl
    | dsimp only

theorem bootNoSlot_ok {κ : Kept} {s : State} (hκ : s.Ok κ) : (State.bootNoSlot s).Ok κ := by
  unfold State.bootNoSlot
  try dsimp only
  repeat' first
    | with_reducible assumption
    | with_reducible apply bootStep_ok
    | with_reducible apply openHostLoad_ok
    | with_reducible apply ite_ok
    | intro _
    | with_reducible refine okOf ?_ rfl rfl rfl rfl rfl rfl rfl rfl rfl
    | simp only [ok_mk]
    | split
    | refine okOf ?_ rfl rfl rfl rfl rfl rfl rfl rfl rfl
    | dsimp only

theorem fallback_ok {κ : Kept} {s : State} (hκ : s.Ok κ) : (State.fallback s).Ok κ := by
  unfold State.fallback
  try dsimp only
  repeat' first
    | with_reducible assumption
    | with_reducible apply bootNoSlot_ok
    | with_reducible apply setBoot_ok
    | with_reducible apply ite_ok
    | intro _
    | with_reducible refine okOf ?_ rfl rfl rfl rfl rfl rfl rfl rfl rfl
    | simp only [ok_mk]
    | split
    | refine okOf ?_ rfl rfl rfl rfl rfl rfl rfl rfl rfl
    | dsimp only

theorem execPayloadLoadDone_ok {κ : Kept} {s : State} (hκ : s.Ok κ) (hA : κ.act = none) : ∃ st' : State, execPayloadLoadDone s = .next st' ∧ st'.Ok κ := by
  refine ⟨_, rfl, ?_⟩
  try dsimp only
  repeat' first
    | with_reducible assumption
    | with_reducible apply bootNoSlot_ok
    | with_reducible apply fallback_ok
    | with_reducible apply imgStatus_ok
    | with_reducible apply loadImage_ok
    | with_reducible apply noteSlot_ok
    | with_reducible apply raise_ok
    | with_reducible apply setBoot_ok
    | with_reducible apply ite_ok
    | intro _
    | with_reducible refine okOf ?_ rfl rfl rfl rfl rfl rfl rfl rfl rfl
    | simp only [ok_mk]
    | split
    | refine okOf ?_ rfl rfl rfl rfl rfl rfl rfl rfl rfl
    | dsimp only

theorem execLaneWaitExpire_ok {κ : Kept} {s : State} (hκ : s.Ok κ) : ∃ st' : State, execLaneWaitExpire s = .next st' ∧ st'.Ok κ := by
  refine ⟨_, rfl, ?_⟩
  try dsimp only
  repeat' first
    | with_reducible assumption
    | with_reducible apply bootAdvance_ok
    | with_reducible apply setBoot_ok
    | with_reducible apply ite_ok
    | intro _
    | with_reducible refine okOf ?_ rfl rfl rfl rfl rfl rfl rfl rfl rfl
    | simp only [ok_mk]
    | split
    | refine okOf ?_ rfl rfl rfl rfl rfl rfl rfl rfl rfl
    | dsimp only

theorem execTimeWaitExpire_ok {κ : Kept} {s : State} (hκ : s.Ok κ) : ∃ st' : State, execTimeWaitExpire s = .next st' ∧ st'.Ok κ := by
  refine ⟨_, rfl, ?_⟩
  try dsimp only
  repeat' first
    | with_reducible assumption
    | with_reducible apply bootAdvance_ok
    | with_reducible apply setBoot_ok
    | with_reducible apply ite_ok
    | intro _
    | with_reducible refine okOf ?_ rfl rfl rfl rfl rfl rfl rfl rfl rfl
    | simp only [ok_mk]
    | split
    | refine okOf ?_ rfl rfl rfl rfl rfl rfl rfl rfl rfl
    | dsimp only

theorem acceptBoot_ok {κ : Kept} {s : State} (hκ : s.Ok κ) : (State.acceptBoot s).Ok κ := by
  unfold State.acceptBoot
  try dsimp only
  repeat' first
    | with_reducible assumption
    | with_reducible apply each_ok
    | with_reducible apply jrnLevels_ok
    | with_reducible apply laneLevels_ok
    | with_reducible apply notchLoad_ok
    | with_reducible apply planObjects_ok
    | with_reducible apply prefetchAll_ok
    | with_reducible apply revert_ok
    | with_reducible apply setBoot_ok
    | with_reducible apply setConn_ok
    | with_reducible apply setLN_ok
    | with_reducible apply setNotch_ok
    | with_reducible apply start_ok
    | with_reducible apply wrW_ok
    | with_reducible apply wtChannels_ok
    | with_reducible apply ite_ok
    | intro _
    | with_reducible refine okOf ?_ rfl rfl rfl rfl rfl rfl rfl rfl rfl
    | simp only [ok_mk]
    | split
    | refine okOf ?_ rfl rfl rfl rfl rfl rfl rfl rfl rfl
    | dsimp only

theorem execBootValidationDone_ok {κ : Kept} {s : State} (hκ : s.Ok κ) (hA : κ.act = none) : ∃ st' : State, execBootValidationDone s = .next st' ∧ st'.Ok κ := by
  refine ⟨_, rfl, ?_⟩
  try dsimp only
  repeat' first
    | with_reducible assumption
    | with_reducible apply acceptBoot_ok
    | with_reducible apply commitOpen_ok
    | with_reducible apply commitRefuse_ok
    | with_reducible apply dropConfig_ok
    | with_reducible apply fallback_ok
    | with_reducible apply setBoot_ok
    | with_reducible apply ite_ok
    | intro _
    | with_reducible refine okOf ?_ rfl rfl rfl rfl rfl rfl rfl rfl rfl
    | simp only [ok_mk]
    | split
    | refine okOf ?_ rfl rfl rfl rfl rfl rfl rfl rfl rfl
    | dsimp only

end Sys2Proof.Machine
end

