-- ==== Sys2Proof/Laws/KeepsDictPort.lean ====
section
/-! SUPPORT. The operations of DictPort.lean keep what Keeps.lean names. -/
namespace Sys2Proof.Machine
set_option linter.all false

theorem setDict_ok {κ : Kept} {s : State} {d : DictSt} (hκ : s.Ok κ) : (State.setDict s d).Ok κ := by
  unfold State.setDict
  try dsimp only
  repeat' first
    | with_reducible assumption
    | with_reducible apply ite_ok
    | intro _
    | with_reducible refine okOf ?_ rfl rfl rfl rfl rfl rfl rfl rfl rfl
    | simp only [ok_mk]
    | split
    | refine okOf ?_ rfl rfl rfl rfl rfl rfl rfl rfl rfl
    | dsimp only

theorem domStep_ok {κ : Kept} {s : State} (hκ : s.Ok κ) : (State.domStep s).Ok κ := by
  unfold State.domStep
  try dsimp only
  repeat' first
    | with_reducible assumption
    | with_reducible apply setLN_ok
    | with_reducible apply ite_ok
    | intro _
    | with_reducible refine okOf ?_ rfl rfl rfl rfl rfl rfl rfl rfl rfl
    | simp only [ok_mk]
    | split
    | refine okOf ?_ rfl rfl rfl rfl rfl rfl rfl rfl rfl
    | dsimp only

theorem domRead_ok {κ : Kept} {s : State} {k : Nat} (hκ : s.Ok κ) : (State.domRead s k).1.Ok κ := by
  unfold State.domRead
  try dsimp only
  repeat' first
    | with_reducible assumption
    | with_reducible apply domStep_ok
    | with_reducible apply setDict_ok
    | with_reducible apply setLN_ok
    | with_reducible apply ite_ok
    | intro _
    | with_reducible refine okOf ?_ rfl rfl rfl rfl rfl rfl rfl rfl rfl
    | simp only [ok_mk]
    | split
    | refine okOf ?_ rfl rfl rfl rfl rfl rfl rfl rfl rfl
    | dsimp only

theorem domWrite_ok {κ : Kept} {s : State} {k : Nat} {v : Word} (hκ : s.Ok κ) : (State.domWrite s k v).1.Ok κ := by
  unfold State.domWrite
  try dsimp only
  repeat' first
    | with_reducible assumption
    | with_reducible apply domStep_ok
    | with_reducible apply done_ok
    | with_reducible apply setDict_ok
    | with_reducible apply ite_ok
    | intro _
    | with_reducible refine okOf ?_ rfl rfl rfl rfl rfl rfl rfl rfl rfl
    | simp only [ok_mk]
    | split
    | refine okOf ?_ rfl rfl rfl rfl rfl rfl rfl rfl rfl
    | dsimp only

theorem domEnd_ok {κ : Kept} {s : State} {v : Word} (hκ : s.Ok κ) : (State.domEnd s v).1.Ok κ := by
  unfold State.domEnd
  try dsimp only
  repeat' first
    | with_reducible assumption
    | with_reducible apply domainWrite_ok
    | with_reducible apply setDict_ok
    | with_reducible apply setLN_ok
    | with_reducible apply ite_ok
    | intro _
    | with_reducible refine okOf ?_ rfl rfl rfl rfl rfl rfl rfl rfl rfl
    | simp only [ok_mk]
    | split
    | refine okOf ?_ rfl rfl rfl rfl rfl rfl rfl rfl rfl
    | dsimp only

theorem keyRead_ok {κ : Kept} {s : State} {p : Path} {k : Nat} (hκ : s.Ok κ) : (State.keyRead s p k).1.Ok κ := by
  unfold State.keyRead
  try dsimp only
  repeat' first
    | with_reducible assumption
    | with_reducible apply domRead_ok
    | with_reducible apply objRead_ok
    | with_reducible apply ite_ok
    | intro _
    | with_reducible refine okOf ?_ rfl rfl rfl rfl rfl rfl rfl rfl rfl
    | simp only [ok_mk]
    | split
    | refine okOf ?_ rfl rfl rfl rfl rfl rfl rfl rfl rfl
    | dsimp only

theorem keyWrite_ok {κ : Kept} {s : State} {p : Path} {k : Nat} {v : Word} (hκ : s.Ok κ) : (State.keyWrite s p k v).1.Ok κ := by
  unfold State.keyWrite
  try dsimp only
  repeat' first
    | with_reducible assumption
    | with_reducible apply domEnd_ok
    | with_reducible apply domWrite_ok
    | with_reducible apply objTry_ok
    | with_reducible apply ite_ok
    | intro _
    | with_reducible refine okOf ?_ rfl rfl rfl rfl rfl rfl rfl rfl rfl
    | simp only [ok_mk]
    | split
    | refine okOf ?_ rfl rfl rfl rfl rfl rfl rfl rfl rfl
    | dsimp only

theorem pathRead_ok {κ : Kept} {s : State} {p : Path} {k : Nat} (hκ : s.Ok κ) : (State.pathRead s p k).1.Ok κ := by
  unfold State.pathRead
  try dsimp only
  repeat' first
    | with_reducible assumption
    | with_reducible apply keyRead_ok
    | with_reducible apply setLN_ok
    | with_reducible apply ite_ok
    | intro _
    | with_reducible refine okOf ?_ rfl rfl rfl rfl rfl rfl rfl rfl rfl
    | simp only [ok_mk]
    | split
    | refine okOf ?_ rfl rfl rfl rfl rfl rfl rfl rfl rfl
    | dsimp only

theorem pathWrite_ok {κ : Kept} {s : State} {p : Path} {k : Nat} {v : Word} (hκ : s.Ok κ) : (State.pathWrite s p k v).1.Ok κ := by
  unfold State.pathWrite
  try dsimp only
  repeat' first
    | with_reducible assumption
    | with_reducible apply keyWrite_ok
    | with_reducible apply setLN_ok
    | with_reducible apply ite_ok
    | intro _
    | with_reducible refine okOf ?_ rfl rfl rfl rfl rfl rfl rfl rfl rfl
    | simp only [ok_mk]
    | split
    | refine okOf ?_ rfl rfl rfl rfl rfl rfl rfl rfl rfl
    | dsimp only

theorem pathPut_ok {κ : Kept} {s : State} {p : Path} {k : Nat} {v : Word} (hκ : s.Ok κ) : (State.pathPut s p k v).Ok κ := by
  unfold State.pathPut
  try dsimp only
  repeat' first
    | with_reducible assumption
    | with_reducible apply pathWrite_ok
    | with_reducible apply report_ok
    | with_reducible apply ite_ok
    | intro _
    | with_reducible refine okOf ?_ rfl rfl rfl rfl rfl rfl rfl rfl rfl
    | simp only [ok_mk]
    | split
    | refine okOf ?_ rfl rfl rfl rfl rfl rfl rfl rfl rfl
    | dsimp only

theorem pathGet_ok {κ : Kept} {s : State} {p : Path} {k : Nat} (hκ : s.Ok κ) : (State.pathGet s p k).Ok κ := by
  unfold State.pathGet
  try dsimp only
  repeat' first
    | with_reducible assumption
    | with_reducible apply pathRead_ok
    | with_reducible apply setDict_ok
    | with_reducible apply ite_ok
    | intro _
    | with_reducible refine okOf ?_ rfl rfl rfl rfl rfl rfl rfl rfl rfl
    | simp only [ok_mk]
    | split
    | refine okOf ?_ rfl rfl rfl rfl rfl rfl rfl rfl rfl
    | dsimp only

theorem execResultLatchRead_ok {κ : Kept} {p : Path} {key : Nat} {s : State} (hκ : s.Ok κ) : ∃ st' : State, execResultLatchRead p key s = .next st' ∧ st'.Ok κ := by
  refine ⟨_, rfl, ?_⟩
  try dsimp only
  repeat' first
    | with_reducible assumption
    | with_reducible apply latch_ok
    | with_reducible apply pathGet_ok
    | with_reducible apply ite_ok
    | intro _
    | with_reducible refine okOf ?_ rfl rfl rfl rfl rfl rfl rfl rfl rfl
    | simp only [ok_mk]
    | split
    | refine okOf ?_ rfl rfl rfl rfl rfl rfl rfl rfl rfl
    | dsimp only

theorem execWideLowRead_ok {κ : Kept} {p : Path} {key : Nat} {s : State} (hκ : s.Ok κ) : ∃ st' : State, execWideLowRead p key s = .next st' ∧ st'.Ok κ := by
  refine ⟨_, rfl, ?_⟩
  try dsimp only
  repeat' first
    | with_reducible assumption
    | with_reducible apply pathGet_ok
    | with_reducible apply ite_ok
    | intro _
    | with_reducible refine okOf ?_ rfl rfl rfl rfl rfl rfl rfl rfl rfl
    | simp only [ok_mk]
    | split
    | refine okOf ?_ rfl rfl rfl rfl rfl rfl rfl rfl rfl
    | dsimp only

theorem execWideHighWrite_ok {κ : Kept} {p : Path} {key : Nat} {v : Word} {s : State} (hκ : s.Ok κ) : ∃ st' : State, execWideHighWrite p key v s = .next st' ∧ st'.Ok κ := by
  refine ⟨_, rfl, ?_⟩
  try dsimp only
  repeat' first
    | with_reducible assumption
    | with_reducible apply pathPut_ok
    | with_reducible apply ite_ok
    | intro _
    | with_reducible refine okOf ?_ rfl rfl rfl rfl rfl rfl rfl rfl rfl
    | simp only [ok_mk]
    | split
    | refine okOf ?_ rfl rfl rfl rfl rfl rfl rfl rfl rfl
    | dsimp only

theorem execDomPtrWrite_ok {κ : Kept} {p : Path} {v : Word} {s : State} (hκ : s.Ok κ) : ∃ st' : State, execDomPtrWrite p v s = .next st' ∧ st'.Ok κ := by
  refine ⟨_, rfl, ?_⟩
  try dsimp only
  repeat' first
    | with_reducible assumption
    | with_reducible apply pathPut_ok
    | with_reducible apply ite_ok
    | intro _
    | with_reducible refine okOf ?_ rfl rfl rfl rfl rfl rfl rfl rfl rfl
    | simp only [ok_mk]
    | split
    | refine okOf ?_ rfl rfl rfl rfl rfl rfl rfl rfl rfl
    | dsimp only

theorem execDomainRead_ok {κ : Kept} {key : Nat} {s : State} (hκ : s.Ok κ) : ∃ st' : State, execDomainRead key s = .next st' ∧ st'.Ok κ := by
  refine ⟨_, rfl, ?_⟩
  try dsimp only
  repeat' first
    | with_reducible assumption
    | with_reducible apply pathGet_ok
    | with_reducible apply ite_ok
    | intro _
    | with_reducible refine okOf ?_ rfl rfl rfl rfl rfl rfl rfl rfl rfl
    | simp only [ok_mk]
    | split
    | refine okOf ?_ rfl rfl rfl rfl rfl rfl rfl rfl rfl
    | dsimp only

theorem execDomainWrite_ok {κ : Kept} {key : Nat} {v : Word} {s : State} (hκ : s.Ok κ) : ∃ st' : State, execDomainWrite key v s = .next st' ∧ st'.Ok κ := by
  refine ⟨_, rfl, ?_⟩
  try dsimp only
  repeat' first
    | with_reducible assumption
    | with_reducible apply pathPut_ok
    | with_reducible apply ite_ok
    | intro _
    | with_reducible refine okOf ?_ rfl rfl rfl rfl rfl rfl rfl rfl rfl
    | simp only [ok_mk]
    | split
    | refine okOf ?_ rfl rfl rfl rfl rfl rfl rfl rfl rfl
    | dsimp only

theorem execDomEnd_ok {κ : Kept} {v : Word} {s : State} (hκ : s.Ok κ) : ∃ st' : State, execDomEnd v s = .next st' ∧ st'.Ok κ := by
  refine ⟨_, rfl, ?_⟩
  try dsimp only
  repeat' first
    | with_reducible assumption
    | with_reducible apply pathPut_ok
    | with_reducible apply ite_ok
    | intro _
    | with_reducible refine okOf ?_ rfl rfl rfl rfl rfl rfl rfl rfl rfl
    | simp only [ok_mk]
    | split
    | refine okOf ?_ rfl rfl rfl rfl rfl rfl rfl rfl rfl
    | dsimp only

theorem execObjDataAccess_ok {κ : Kept} {v : Option Word} {s : State} (hκ : s.Ok κ) : ∃ st' : State, execObjDataAccess v s = .next st' ∧ st'.Ok κ := by
  refine ⟨_, rfl, ?_⟩
  try dsimp only
  repeat' first
    | with_reducible assumption
    | with_reducible apply pathGet_ok
    | with_reducible apply pathPut_ok
    | with_reducible apply ite_ok
    | intro _
    | with_reducible refine okOf ?_ rfl rfl rfl rfl rfl rfl rfl rfl rfl
    | simp only [ok_mk]
    | split
    | refine okOf ?_ rfl rfl rfl rfl rfl rfl rfl rfl rfl
    | dsimp only

theorem dictServed_ok {κ : Kept} {s : State} {e reason : Nat} (hκ : s.Ok κ) : (State.dictServed s e reason).Ok κ := by
  unfold State.dictServed
  try dsimp only
  repeat' first
    | with_reducible assumption
    | with_reducible apply incL_ok
    | with_reducible apply setDictResult_ok
    | with_reducible apply ite_ok
    | intro _
    | with_reducible refine okOf ?_ rfl rfl rfl rfl rfl rfl rfl rfl rfl
    | simp only [ok_mk]
    | split
    | refine okOf ?_ rfl rfl rfl rfl rfl rfl rfl rfl rfl
    | dsimp only

theorem execOutDictData_ok {κ : Kept} {e st : Nat} {w : BitVec 64} {s : State} (hκ : s.Ok κ) : ∃ st' : State, execOutDictData e st w s = .next st' ∧ st'.Ok κ := by
  refine ⟨_, rfl, ?_⟩
  try dsimp only
  repeat' first
    | with_reducible assumption
    | with_reducible apply dictServed_ok
    | with_reducible apply outInstr_ok
    | with_reducible apply pathWrite_ok
    | with_reducible apply ite_ok
    | intro _
    | with_reducible refine okOf ?_ rfl rfl rfl rfl rfl rfl rfl rfl rfl
    | simp only [ok_mk]
    | split
    | refine okOf ?_ rfl rfl rfl rfl rfl rfl rfl rfl rfl
    | dsimp only

theorem execInDictData_ok {κ : Kept} {e st : Nat} {w : BitVec 64} {s : State} (hκ : s.Ok κ) : ∃ st' : State, execInDictData e st w s = .next st' ∧ st'.Ok κ := by
  refine ⟨_, rfl, ?_⟩
  try dsimp only
  repeat' first
    | with_reducible assumption
    | with_reducible apply dictServed_ok
    | with_reducible apply inInstr_ok
    | with_reducible apply pathRead_ok
    | with_reducible apply ite_ok
    | intro _
    | with_reducible refine okOf ?_ rfl rfl rfl rfl rfl rfl rfl rfl rfl
    | simp only [ok_mk]
    | split
    | refine okOf ?_ rfl rfl rfl rfl rfl rfl rfl rfl rfl
    | dsimp only

end Sys2Proof.Machine
end

