-- ==== Sys2Proof/Laws/KeepsHostPort.lean ====
section
/-! SUPPORT. The operations of HostPort.lean keep what Keeps.lean names. -/
namespace Sys2Proof.Machine
set_option linter.all false

theorem windowTouch_ok {κ : Kept} {s : State} {r : Region} (hκ : s.Ok κ) : (State.windowTouch s r).Ok κ := by
  unfold State.windowTouch
  try dsimp only
  repeat' first
    | with_reducible assumption
    | with_reducible apply touchBank_ok
    | with_reducible apply ite_ok
    | intro _
    | with_reducible refine okOf ?_ rfl rfl rfl rfl rfl rfl rfl rfl rfl
    | simp only [ok_mk]
    | split
    | refine okOf ?_ rfl rfl rfl rfl rfl rfl rfl rfl rfl
    | dsimp only

theorem captureRead_ok {κ : Kept} {s : State} {r : Region} (hκ : s.Ok κ) : (State.captureRead s r).Ok κ := by
  unfold State.captureRead
  try dsimp only
  repeat' first
    | with_reducible assumption
    | with_reducible apply ledgerCapture_ok
    | with_reducible apply ite_ok
    | intro _
    | with_reducible refine okOf ?_ rfl rfl rfl rfl rfl rfl rfl rfl rfl
    | simp only [ok_mk]
    | split
    | refine okOf ?_ rfl rfl rfl rfl rfl rfl rfl rfl rfl
    | dsimp only

theorem regionWrite_ok {κ : Kept} {s : State} {r : Region} {be : BitVec 4} {v : Word} (hκ : s.Ok κ) : (State.regionWrite s r be v).Ok κ := by
  unfold State.regionWrite
  try dsimp only
  repeat' first
    | with_reducible assumption
    | with_reducible apply incL_ok
    | with_reducible apply journal_ok
    | with_reducible apply progWrite_ok
    | with_reducible apply windowTouch_ok
    | with_reducible apply wrW_ok
    | with_reducible apply ite_ok
    | intro _
    | with_reducible refine okOf ?_ rfl rfl rfl rfl rfl rfl rfl rfl rfl
    | simp only [ok_mk]
    | split
    | refine okOf ?_ rfl rfl rfl rfl rfl rfl rfl rfl rfl
    | dsimp only

theorem execTableWriteDiscard_ok {κ : Kept} {addr : Nat} {s : State} (hκ : s.Ok κ) : ∃ st' : State, execTableWriteDiscard addr s = .next st' ∧ st'.Ok κ := by
  refine ⟨_, rfl, ?_⟩
  try dsimp only
  repeat' first
    | with_reducible assumption
    | with_reducible apply hostRetire_ok
    | with_reducible apply journal_ok
    | with_reducible apply regionWrite_ok
    | with_reducible apply ite_ok
    | intro _
    | with_reducible refine okOf ?_ rfl rfl rfl rfl rfl rfl rfl rfl rfl
    | simp only [ok_mk]
    | split
    | refine okOf ?_ rfl rfl rfl rfl rfl rfl rfl rfl rfl
    | dsimp only

theorem enqueue_ok {κ : Kept} {s : State} {q : QReq} (hκ : s.Ok κ) : (State.enqueue s q).Ok κ := by
  unfold State.enqueue
  try dsimp only
  repeat' first
    | with_reducible assumption
    | with_reducible apply setDict_ok
    | with_reducible apply setLN_ok
    | with_reducible apply ite_ok
    | intro _
    | with_reducible refine okOf ?_ rfl rfl rfl rfl rfl rfl rfl rfl rfl
    | simp only [ok_mk]
    | split
    | refine okOf ?_ rfl rfl rfl rfl rfl rfl rfl rfl rfl
    | dsimp only

theorem queueFull_ok {κ : Kept} {s : State} (hκ : s.Ok κ) : (State.queueFull s).Ok κ := by
  unfold State.queueFull
  try dsimp only
  repeat' first
    | with_reducible assumption
    | with_reducible apply irqEdge_ok
    | with_reducible apply raise_ok
    | with_reducible apply ite_ok
    | intro _
    | with_reducible refine okOf ?_ rfl rfl rfl rfl rfl rfl rfl rfl rfl
    | simp only [ok_mk]
    | split
    | refine okOf ?_ rfl rfl rfl rfl rfl rfl rfl rfl rfl
    | dsimp only

theorem accessEnds_ok {κ : Kept} {s : State} {least : Nat} (hκ : s.Ok κ) : (State.accessEnds s least).Ok κ := by
  unfold State.accessEnds
  try dsimp only
  repeat' first
    | with_reducible assumption
    | with_reducible apply setLN_ok
    | with_reducible apply ite_ok
    | intro _
    | with_reducible refine okOf ?_ rfl rfl rfl rfl rfl rfl rfl rfl rfl
    | simp only [ok_mk]
    | split
    | refine okOf ?_ rfl rfl rfl rfl rfl rfl rfl rfl rfl
    | dsimp only

theorem hostAnswer_ok {κ : Kept} {s : State} {v : Word} {least : Nat} (hκ : s.Ok κ) : (State.hostAnswer s v least).Ok κ := by
  unfold State.hostAnswer
  try dsimp only
  repeat' first
    | with_reducible assumption
    | with_reducible apply accessEnds_ok
    | with_reducible apply setDict_ok
    | with_reducible apply ite_ok
    | intro _
    | with_reducible refine okOf ?_ rfl rfl rfl rfl rfl rfl rfl rfl rfl
    | simp only [ok_mk]
    | split
    | refine okOf ?_ rfl rfl rfl rfl rfl rfl rfl rfl rfl
    | dsimp only

theorem serveHost_ok {κ : Kept} {s : State} {q : QReq} (hκ : s.Ok κ) : (State.serveHost s q).Ok κ := by
  unfold State.serveHost
  try dsimp only
  repeat' first
    | with_reducible assumption
    | with_reducible apply captureRead_ok
    | with_reducible apply hostAnswer_ok
    | with_reducible apply hostRetire_ok
    | with_reducible apply pathPut_ok
    | with_reducible apply pathRead_ok
    | with_reducible apply regionWrite_ok
    | with_reducible apply windowTouch_ok
    | with_reducible apply ite_ok
    | intro _
    | with_reducible refine okOf ?_ rfl rfl rfl rfl rfl rfl rfl rfl rfl
    | simp only [ok_mk]
    | split
    | refine okOf ?_ rfl rfl rfl rfl rfl rfl rfl rfl rfl
    | dsimp only

theorem entryFreed_ok {κ : Kept} {s : State} (hκ : s.Ok κ) : (State.entryFreed s).Ok κ := by
  unfold State.entryFreed
  try dsimp only
  repeat' first
    | with_reducible assumption
    | with_reducible apply accessEnds_ok
    | with_reducible apply enqueue_ok
    | with_reducible apply serveHost_ok
    | with_reducible apply setDict_ok
    | with_reducible apply ite_ok
    | intro _
    | with_reducible refine okOf ?_ rfl rfl rfl rfl rfl rfl rfl rfl rfl
    | simp only [ok_mk]
    | split
    | refine okOf ?_ rfl rfl rfl rfl rfl rfl rfl rfl rfl
    | dsimp only

theorem hostSettle_ok {κ : Kept} {n : Nat} : ∀ {s : State}, s.Ok κ → (State.hostSettle n s).Ok κ := by
  induction n with
  | zero => intro s h; exact h
  | succ n ih =>
    intro s h
    unfold State.hostSettle
    split
    · exact h
    · split
      · exact ih (entryFreed_ok (serveHost_ok (setDict_ok h)))
      · exact h


theorem hostAdmit_ok {κ : Kept} {s : State} {q : QReq} (hκ : s.Ok κ) : (State.hostAdmit s q).Ok κ := by
  unfold State.hostAdmit
  try dsimp only
  repeat' first
    | with_reducible assumption
    | with_reducible apply accessEnds_ok
    | with_reducible apply enqueue_ok
    | with_reducible apply hostSettle_ok
    | with_reducible apply queueFull_ok
    | with_reducible apply serveHost_ok
    | with_reducible apply setDict_ok
    | with_reducible apply ite_ok
    | intro _
    | with_reducible refine okOf ?_ rfl rfl rfl rfl rfl rfl rfl rfl rfl
    | simp only [ok_mk]
    | split
    | refine okOf ?_ rfl rfl rfl rfl rfl rfl rfl rfl rfl
    | dsimp only

theorem hostReadStart_ok {κ : Kept} {s : State} {a : Nat} (hκ : s.Ok κ) : (State.hostReadStart s a).Ok κ := by
  unfold State.hostReadStart
  try dsimp only
  repeat' first
    | with_reducible assumption
    | with_reducible apply accessEnds_ok
    | with_reducible apply hostAdmit_ok
    | with_reducible apply incL_ok
    | with_reducible apply pathRead_ok
    | with_reducible apply setDict_ok
    | with_reducible apply ite_ok
    | intro _
    | with_reducible refine okOf ?_ rfl rfl rfl rfl rfl rfl rfl rfl rfl
    | simp only [ok_mk]
    | split
    | refine okOf ?_ rfl rfl rfl rfl rfl rfl rfl rfl rfl
    | dsimp only

theorem hostWriteStart_ok {κ : Kept} {s : State} {a : Nat} {be : BitVec 4} {v : Word} (hκ : s.Ok κ) : (State.hostWriteStart s a be v).Ok κ := by
  unfold State.hostWriteStart
  try dsimp only
  repeat' first
    | with_reducible assumption
    | with_reducible apply accessEnds_ok
    | with_reducible apply countClaim_ok
    | with_reducible apply domStep_ok
    | with_reducible apply hostAdmit_ok
    | with_reducible apply hostRefuse_ok
    | with_reducible apply hostRetire_ok
    | with_reducible apply ite_ok
    | intro _
    | with_reducible refine okOf ?_ rfl rfl rfl rfl rfl rfl rfl rfl rfl
    | simp only [ok_mk]
    | split
    | refine okOf ?_ rfl rfl rfl rfl rfl rfl rfl rfl rfl
    | dsimp only

theorem hostEdge_ok {κ : Kept} {s : State} (hκ : s.Ok κ) : (State.hostEdge s).Ok κ := by
  unfold State.hostEdge
  try dsimp only
  repeat' first
    | with_reducible assumption
    | with_reducible apply hclkEdge_ok
    | with_reducible apply ite_ok
    | intro _
    | with_reducible refine okOf ?_ rfl rfl rfl rfl rfl rfl rfl rfl rfl
    | simp only [ok_mk]
    | split
    | refine okOf ?_ rfl rfl rfl rfl rfl rfl rfl rfl rfl
    | dsimp only

theorem execHostAccess_ok {κ : Kept} {wr : Bool} {addr : BitVec 22} {be : BitVec 4} {v : Word} {clk : Nat} {s : State} (hκ : s.Ok κ) : ∃ st' : State, execHostAccess wr addr be v clk s = .next st' ∧ st'.Ok κ := by
  refine ⟨_, rfl, ?_⟩
  try dsimp only
  repeat' first
    | with_reducible assumption
    | with_reducible apply hostEdge_ok
    | with_reducible apply hostReadStart_ok
    | with_reducible apply hostWriteStart_ok
    | with_reducible apply setDict_ok
    | with_reducible apply ite_ok
    | intro _
    | with_reducible refine okOf ?_ rfl rfl rfl rfl rfl rfl rfl rfl rfl
    | simp only [ok_mk]
    | split
    | refine okOf ?_ rfl rfl rfl rfl rfl rfl rfl rfl rfl
    | dsimp only

theorem execHostAccessAbandon_ok {κ : Kept} {s : State} (hκ : s.Ok κ) : ∃ st' : State, execHostAccessAbandon s = .next st' ∧ st'.Ok κ := by
  refine ⟨_, rfl, ?_⟩
  try dsimp only
  repeat' first
    | with_reducible assumption
    | with_reducible apply incL_ok
    | with_reducible apply setDict_ok
    | with_reducible apply ite_ok
    | intro _
    | with_reducible refine okOf ?_ rfl rfl rfl rfl rfl rfl rfl rfl rfl
    | simp only [ok_mk]
    | split
    | refine okOf ?_ rfl rfl rfl rfl rfl rfl rfl rfl rfl
    | dsimp only

theorem execHpFenceRead_ok {κ : Kept} {clk : Nat} {s : State} (hκ : s.Ok κ) : ∃ st' : State, execHpFenceRead clk s = .next st' ∧ st'.Ok κ := by
  refine ⟨_, rfl, ?_⟩
  try dsimp only
  repeat' first
    | with_reducible assumption
    | with_reducible apply hostEdge_ok
    | with_reducible apply hostReadStart_ok
    | with_reducible apply setDict_ok
    | with_reducible apply ite_ok
    | intro _
    | with_reducible refine okOf ?_ rfl rfl rfl rfl rfl rfl rfl rfl rfl
    | simp only [ok_mk]
    | split
    | refine okOf ?_ rfl rfl rfl rfl rfl rfl rfl rfl rfl
    | dsimp only

end Sys2Proof.Machine
end

