-- ==== Sys2Proof/Laws/KeepsFieldNet.lean ====
section
/-! SUPPORT. The operations of FieldNet.lean keep what Keeps.lean names. -/
namespace Sys2Proof.Machine
set_option linter.all false

theorem sdoAnswer_ok {κ : Kept} {s : State} {r : SdoResp} (hκ : s.Ok κ) : (State.sdoAnswer s r).Ok κ := by
  unfold State.sdoAnswer
  try dsimp only
  repeat' first
    | with_reducible assumption
    | with_reducible apply incL_ok
    | with_reducible apply respond_ok
    | with_reducible apply ite_ok
    | intro _
    | with_reducible refine okOf ?_ rfl rfl rfl rfl rfl rfl rfl rfl rfl
    | simp only [ok_mk]
    | split
    | refine okOf ?_ rfl rfl rfl rfl rfl rfl rfl rfl rfl
    | dsimp only

theorem sdoStore_ok {κ : Kept} {s : State} {key : Nat} {bs : List Byte} (hκ : s.Ok κ) : (State.sdoStore s key bs).1.Ok κ := by
  unfold State.sdoStore
  try dsimp only
  repeat' first
    | with_reducible assumption
    | with_reducible apply countClaim_ok
    | with_reducible apply domainWrite_ok
    | with_reducible apply pathWrite_ok
    | with_reducible apply ite_ok
    | intro _
    | with_reducible refine okOf ?_ rfl rfl rfl rfl rfl rfl rfl rfl rfl
    | simp only [ok_mk]
    | split
    | refine okOf ?_ rfl rfl rfl rfl rfl rfl rfl rfl rfl
    | dsimp only

theorem sdoUploadServe_ok {κ : Kept} {s : State} {idx sub : Nat} (hκ : s.Ok κ) : (State.sdoUploadServe s idx sub).Ok κ := by
  unfold State.sdoUploadServe
  try dsimp only
  repeat' first
    | with_reducible assumption
    | with_reducible apply abort_ok
    | with_reducible apply incL_ok
    | with_reducible apply pathRead_ok
    | with_reducible apply sdoAnswer_ok
    | with_reducible apply setDict_ok
    | with_reducible apply ite_ok
    | intro _
    | with_reducible refine okOf ?_ rfl rfl rfl rfl rfl rfl rfl rfl rfl
    | simp only [ok_mk]
    | split
    | refine okOf ?_ rfl rfl rfl rfl rfl rfl rfl rfl rfl
    | dsimp only

theorem serveSdo_ok {κ : Kept} {s : State} {q : QReq} (hκ : s.Ok κ) : (State.serveSdo s q).Ok κ := by
  unfold State.serveSdo
  try dsimp only
  repeat' first
    | with_reducible assumption
    | with_reducible apply abort_ok
    | with_reducible apply incL_ok
    | with_reducible apply report_ok
    | with_reducible apply sdoAnswer_ok
    | with_reducible apply sdoStore_ok
    | with_reducible apply sdoUploadServe_ok
    | with_reducible apply ite_ok
    | intro _
    | with_reducible refine okOf ?_ rfl rfl rfl rfl rfl rfl rfl rfl rfl
    | simp only [ok_mk]
    | split
    | refine okOf ?_ rfl rfl rfl rfl rfl rfl rfl rfl rfl
    | dsimp only

theorem fnServed_ok {κ : Kept} {s : State} (hκ : s.Ok κ) : (State.fnServed s).Ok κ := by
  unfold State.fnServed
  try dsimp only
  repeat' first
    | with_reducible assumption
    | with_reducible apply setDict_ok
    | with_reducible apply ite_ok
    | intro _
    | with_reducible refine okOf ?_ rfl rfl rfl rfl rfl rfl rfl rfl rfl
    | simp only [ok_mk]
    | split
    | refine okOf ?_ rfl rfl rfl rfl rfl rfl rfl rfl rfl
    | dsimp only

theorem budgetWindow_ok {κ : Kept} {s : State} (hκ : s.Ok κ) : (State.budgetWindow s).Ok κ := by
  unfold State.budgetWindow
  try dsimp only
  repeat' first
    | with_reducible assumption
    | with_reducible apply setDict_ok
    | with_reducible apply ite_ok
    | intro _
    | with_reducible refine okOf ?_ rfl rfl rfl rfl rfl rfl rfl rfl rfl
    | simp only [ok_mk]
    | split
    | refine okOf ?_ rfl rfl rfl rfl rfl rfl rfl rfl rfl
    | dsimp only

theorem execDictService_ok {κ : Kept} {s : State} (hκ : s.Ok κ) : ∃ st' : State, execDictService s = .next st' ∧ st'.Ok κ := by
  refine ⟨_, rfl, ?_⟩
  try dsimp only
  repeat' first
    | with_reducible assumption
    | with_reducible apply budgetWindow_ok
    | with_reducible apply entryFreed_ok
    | with_reducible apply fnServed_ok
    | with_reducible apply hostSettle_ok
    | with_reducible apply incL_ok
    | with_reducible apply serveHost_ok
    | with_reducible apply serveSdo_ok
    | with_reducible apply setDict_ok
    | with_reducible apply ite_ok
    | intro _
    | with_reducible refine okOf ?_ rfl rfl rfl rfl rfl rfl rfl rfl rfl
    | simp only [ok_mk]
    | split
    | refine okOf ?_ rfl rfl rfl rfl rfl rfl rfl rfl rfl
    | dsimp only

theorem reply_ok {κ : Kept} {s : State} {r : SdoResp} (hκ : s.Ok κ) : (State.reply s r).Ok κ := by
  unfold State.reply
  try dsimp only
  repeat' first
    | with_reducible assumption
    | with_reducible apply respond_ok
    | with_reducible apply setDict_ok
    | with_reducible apply ite_ok
    | intro _
    | with_reducible refine okOf ?_ rfl rfl rfl rfl rfl rfl rfl rfl rfl
    | simp only [ok_mk]
    | split
    | refine okOf ?_ rfl rfl rfl rfl rfl rfl rfl rfl rfl
    | dsimp only

theorem abortReply_ok {κ : Kept} {s : State} {code : Word} (hκ : s.Ok κ) : (State.abortReply s code).Ok κ := by
  unfold State.abortReply
  try dsimp only
  repeat' first
    | with_reducible assumption
    | with_reducible apply abort_ok
    | with_reducible apply incL_ok
    | with_reducible apply reply_ok
    | with_reducible apply ite_ok
    | intro _
    | with_reducible refine okOf ?_ rfl rfl rfl rfl rfl rfl rfl rfl rfl
    | simp only [ok_mk]
    | split
    | refine okOf ?_ rfl rfl rfl rfl rfl rfl rfl rfl rfl
    | dsimp only

theorem sdoAdmit_ok {κ : Kept} {s : State} {q : QReq} (hκ : s.Ok κ) : (State.sdoAdmit s q).Ok κ := by
  unfold State.sdoAdmit
  try dsimp only
  repeat' first
    | with_reducible assumption
    | with_reducible apply abortReply_ok
    | with_reducible apply enqueue_ok
    | with_reducible apply incL_ok
    | with_reducible apply queueFull_ok
    | with_reducible apply setDict_ok
    | with_reducible apply ite_ok
    | intro _
    | with_reducible refine okOf ?_ rfl rfl rfl rfl rfl rfl rfl rfl rfl
    | simp only [ok_mk]
    | split
    | refine okOf ?_ rfl rfl rfl rfl rfl rfl rfl rfl rfl
    | dsimp only

theorem setXfer_ok {κ : Kept} {s : State} {x : Option SdoXfer} (hκ : s.Ok κ) : (State.setXfer s x).Ok κ := by
  unfold State.setXfer
  try dsimp only
  repeat' first
    | with_reducible assumption
    | with_reducible apply setDict_ok
    | with_reducible apply ite_ok
    | intro _
    | with_reducible refine okOf ?_ rfl rfl rfl rfl rfl rfl rfl rfl rfl
    | simp only [ok_mk]
    | split
    | refine okOf ?_ rfl rfl rfl rfl rfl rfl rfl rfl rfl
    | dsimp only

theorem execSdoDownloadInitiate_ok {κ : Kept} {idx : BitVec 16} {sub : BitVec 8} {expedited : Bool} {size : Nat} {bytes : List Byte} {s : State} (hκ : s.Ok κ) : ∃ st' : State, execSdoDownloadInitiate idx sub expedited size bytes s = .next st' ∧ st'.Ok κ := by
  refine ⟨_, rfl, ?_⟩
  try dsimp only
  repeat' first
    | with_reducible assumption
    | with_reducible apply reply_ok
    | with_reducible apply sdoAdmit_ok
    | with_reducible apply setXfer_ok
    | with_reducible apply ite_ok
    | intro _
    | with_reducible refine okOf ?_ rfl rfl rfl rfl rfl rfl rfl rfl rfl
    | simp only [ok_mk]
    | split
    | refine okOf ?_ rfl rfl rfl rfl rfl rfl rfl rfl rfl
    | dsimp only

theorem execSdoDownloadSegment_ok {κ : Kept} {toggle last : Bool} {bytes : List Byte} {s : State} (hκ : s.Ok κ) : ∃ st' : State, execSdoDownloadSegment toggle last bytes s = .next st' ∧ st'.Ok κ := by
  refine ⟨_, rfl, ?_⟩
  try dsimp only
  repeat' first
    | with_reducible assumption
    | with_reducible apply abortReply_ok
    | with_reducible apply reply_ok
    | with_reducible apply sdoAdmit_ok
    | with_reducible apply setXfer_ok
    | with_reducible apply ite_ok
    | intro _
    | with_reducible refine okOf ?_ rfl rfl rfl rfl rfl rfl rfl rfl rfl
    | simp only [ok_mk]
    | split
    | refine okOf ?_ rfl rfl rfl rfl rfl rfl rfl rfl rfl
    | dsimp only

theorem execSdoUploadInitiate_ok {κ : Kept} {idx : BitVec 16} {sub : BitVec 8} {s : State} (hκ : s.Ok κ) : ∃ st' : State, execSdoUploadInitiate idx sub s = .next st' ∧ st'.Ok κ := by
  refine ⟨_, rfl, ?_⟩
  try dsimp only
  repeat' first
    | with_reducible assumption
    | with_reducible apply sdoAdmit_ok
    | with_reducible apply setXfer_ok
    | with_reducible apply ite_ok
    | intro _
    | with_reducible refine okOf ?_ rfl rfl rfl rfl rfl rfl rfl rfl rfl
    | simp only [ok_mk]
    | split
    | refine okOf ?_ rfl rfl rfl rfl rfl rfl rfl rfl rfl
    | dsimp only

theorem execSdoUploadSegment_ok {κ : Kept} {toggle : Bool} {s : State} (hκ : s.Ok κ) : ∃ st' : State, execSdoUploadSegment toggle s = .next st' ∧ st'.Ok κ := by
  refine ⟨_, rfl, ?_⟩
  try dsimp only
  repeat' first
    | with_reducible assumption
    | with_reducible apply abortReply_ok
    | with_reducible apply reply_ok
    | with_reducible apply setXfer_ok
    | with_reducible apply ite_ok
    | intro _
    | with_reducible refine okOf ?_ rfl rfl rfl rfl rfl rfl rfl rfl rfl
    | simp only [ok_mk]
    | split
    | refine okOf ?_ rfl rfl rfl rfl rfl rfl rfl rfl rfl
    | dsimp only

theorem execSdoAbortReceive_ok {κ : Kept} {s : State} (hκ : s.Ok κ) : ∃ st' : State, execSdoAbortReceive s = .next st' ∧ st'.Ok κ := by
  refine ⟨_, rfl, ?_⟩
  try dsimp only
  repeat' first
    | with_reducible assumption
    | with_reducible apply setXfer_ok
    | with_reducible apply ite_ok
    | intro _
    | with_reducible refine okOf ?_ rfl rfl rfl rfl rfl rfl rfl rfl rfl
    | simp only [ok_mk]
    | split
    | refine okOf ?_ rfl rfl rfl rfl rfl rfl rfl rfl rfl
    | dsimp only

theorem execSdoUnsupported_ok {κ : Kept} {coe : Bool} {s : State} (hκ : s.Ok κ) : ∃ st' : State, execSdoUnsupported coe s = .next st' ∧ st'.Ok κ := by
  refine ⟨_, rfl, ?_⟩
  try dsimp only
  repeat' first
    | with_reducible assumption
    | with_reducible apply abortReply_ok
    | with_reducible apply reply_ok
    | with_reducible apply ite_ok
    | intro _
    | with_reducible refine okOf ?_ rfl rfl rfl rfl rfl rfl rfl rfl rfl
    | simp only [ok_mk]
    | split
    | refine okOf ?_ rfl rfl rfl rfl rfl rfl rfl rfl rfl
    | dsimp only

theorem execSdoIdleTimeout_ok {κ : Kept} {s : State} (hκ : s.Ok κ) : ∃ st' : State, execSdoIdleTimeout s = .next st' ∧ st'.Ok κ := by
  refine ⟨_, rfl, ?_⟩
  try dsimp only
  repeat' first
    | with_reducible assumption
    | with_reducible apply abortReply_ok
    | with_reducible apply setXfer_ok
    | with_reducible apply ite_ok
    | intro _
    | with_reducible refine okOf ?_ rfl rfl rfl rfl rfl rfl rfl rfl rfl
    | simp only [ok_mk]
    | split
    | refine okOf ?_ rfl rfl rfl rfl rfl rfl rfl rfl rfl
    | dsimp only

theorem alTo_ok {κ : Kept} {s : State} {x : AlState} (hκ : s.Ok κ) : (State.alTo s x).Ok κ := by
  unfold State.alTo
  try dsimp only
  repeat' first
    | with_reducible assumption
    | with_reducible apply setDict_ok
    | with_reducible apply ite_ok
    | intro _
    | with_reducible refine okOf ?_ rfl rfl rfl rfl rfl rfl rfl rfl rfl
    | simp only [ok_mk]
    | split
    | refine okOf ?_ rfl rfl rfl rfl rfl rfl rfl rfl rfl
    | dsimp only

theorem alRefuse_ok {κ : Kept} {s : State} {code : Nat} (hκ : s.Ok κ) : (State.alRefuse s code).Ok κ := by
  unfold State.alRefuse
  try dsimp only
  repeat' first
    | with_reducible assumption
    | with_reducible apply setDict_ok
    | with_reducible apply ite_ok
    | intro _
    | with_reducible refine okOf ?_ rfl rfl rfl rfl rfl rfl rfl rfl rfl
    | simp only [ok_mk]
    | split
    | refine okOf ?_ rfl rfl rfl rfl rfl rfl rfl rfl rfl
    | dsimp only

theorem execAlReqInit_ok {κ : Kept} {s : State} (hκ : s.Ok κ) : ∃ st' : State, execAlReqInit s = .next st' ∧ st'.Ok κ := by
  refine ⟨_, rfl, ?_⟩
  try dsimp only
  repeat' first
    | with_reducible assumption
    | with_reducible apply alTo_ok
    | with_reducible apply entryFreed_ok
    | with_reducible apply hostSettle_ok
    | with_reducible apply setDict_ok
    | with_reducible apply ite_ok
    | intro _
    | with_reducible refine okOf ?_ rfl rfl rfl rfl rfl rfl rfl rfl rfl
    | simp only [ok_mk]
    | split
    | refine okOf ?_ rfl rfl rfl rfl rfl rfl rfl rfl rfl
    | dsimp only

theorem execAlReqPreop_ok {κ : Kept} {s : State} (hκ : s.Ok κ) : ∃ st' : State, execAlReqPreop s = .next st' ∧ st'.Ok κ := by
  refine ⟨_, rfl, ?_⟩
  try dsimp only
  repeat' first
    | with_reducible assumption
    | with_reducible apply alTo_ok
    | with_reducible apply ite_ok
    | intro _
    | with_reducible refine okOf ?_ rfl rfl rfl rfl rfl rfl rfl rfl rfl
    | simp only [ok_mk]
    | split
    | refine okOf ?_ rfl rfl rfl rfl rfl rfl rfl rfl rfl
    | dsimp only

theorem execAlReqSafeop_ok {κ : Kept} {s : State} (hκ : s.Ok κ) : ∃ st' : State, execAlReqSafeop s = .next st' ∧ st'.Ok κ := by
  refine ⟨_, rfl, ?_⟩
  try dsimp only
  repeat' first
    | with_reducible assumption
    | with_reducible apply alRefuse_ok
    | with_reducible apply alTo_ok
    | with_reducible apply ite_ok
    | intro _
    | with_reducible refine okOf ?_ rfl rfl rfl rfl rfl rfl rfl rfl rfl
    | simp only [ok_mk]
    | split
    | refine okOf ?_ rfl rfl rfl rfl rfl rfl rfl rfl rfl
    | dsimp only

theorem execAlReqOp_ok {κ : Kept} {s : State} (hκ : s.Ok κ) : ∃ st' : State, execAlReqOp s = .next st' ∧ st'.Ok κ := by
  refine ⟨_, rfl, ?_⟩
  try dsimp only
  repeat' first
    | with_reducible assumption
    | with_reducible apply alRefuse_ok
    | with_reducible apply alTo_ok
    | with_reducible apply setDict_ok
    | with_reducible apply ite_ok
    | intro _
    | with_reducible refine okOf ?_ rfl rfl rfl rfl rfl rfl rfl rfl rfl
    | simp only [ok_mk]
    | split
    | refine okOf ?_ rfl rfl rfl rfl rfl rfl rfl rfl rfl
    | dsimp only

theorem execPdWatchdogExpire_ok {κ : Kept} {s : State} (hκ : s.Ok κ) : ∃ st' : State, execPdWatchdogExpire s = .next st' ∧ st'.Ok κ := by
  refine ⟨_, rfl, ?_⟩
  try dsimp only
  repeat' first
    | with_reducible assumption
    | with_reducible apply incL_ok
    | with_reducible apply setDict_ok
    | with_reducible apply ite_ok
    | intro _
    | with_reducible refine okOf ?_ rfl rfl rfl rfl rfl rfl rfl rfl rfl
    | simp only [ok_mk]
    | split
    | refine okOf ?_ rfl rfl rfl rfl rfl rfl rfl rfl rfl
    | dsimp only

theorem pdoApply_ok {κ : Kept} {l : List Word} : ∀ {s : State} {bs : List Byte}, s.Ok κ → (s.pdoApply l bs).Ok κ := by
  induction l with
  | nil => intro s bs h; exact h
  | cons e es ih =>
    intro s bs h
    unfold State.pdoApply
    refine ih ?_
    split <;> exact ite_ok (fun _ => h) (fun _ => pathPut_ok h)


theorem execRxpdoReceive_ok {κ : Kept} {bytes : List Byte} {s : State} (hκ : s.Ok κ) : ∃ st' : State, execRxpdoReceive bytes s = .next st' ∧ st'.Ok κ := by
  refine ⟨_, rfl, ?_⟩
  try dsimp only
  repeat' first
    | with_reducible assumption
    | with_reducible apply pdoApply_ok
    | with_reducible apply ite_ok
    | intro _
    | with_reducible refine okOf ?_ rfl rfl rfl rfl rfl rfl rfl rfl rfl
    | simp only [ok_mk]
    | split
    | refine okOf ?_ rfl rfl rfl rfl rfl rfl rfl rfl rfl
    | dsimp only

theorem pdoSample_ok {κ : Kept} {s : State} (hκ : s.Ok κ) : (State.pdoSample s).Ok κ := by
  unfold State.pdoSample
  try dsimp only
  repeat' first
    | with_reducible assumption
    | with_reducible apply adcDataRead_ok
    | with_reducible apply each_ok
    | with_reducible apply latch_ok
    | with_reducible apply setDict_ok
    | with_reducible apply foldl_ok
    | with_reducible apply foldl_ok_fst
    | with_reducible apply ite_ok
    | intro _
    | with_reducible refine okOf ?_ rfl rfl rfl rfl rfl rfl rfl rfl rfl
    | simp only [ok_mk]
    | split
    | refine okOf ?_ rfl rfl rfl rfl rfl rfl rfl rfl rfl
    | dsimp only

theorem portsFollow_ok {κ : Kept} {s : State} (hκ : s.Ok κ) : (State.portsFollow s).Ok κ := by
  unfold State.portsFollow
  try dsimp only
  repeat' first
    | with_reducible assumption
    | with_reducible apply each_ok
    | with_reducible apply incL_ok
    | with_reducible apply setDict_ok
    | with_reducible apply ite_ok
    | intro _
    | with_reducible refine okOf ?_ rfl rfl rfl rfl rfl rfl rfl rfl rfl
    | simp only [ok_mk]
    | split
    | refine okOf ?_ rfl rfl rfl rfl rfl rfl rfl rfl rfl
    | dsimp only

theorem execMdioPoll_ok {κ : Kept} {links : BitVec 4} {s : State} (hκ : s.Ok κ) : ∃ st' : State, execMdioPoll links s = .next st' ∧ st'.Ok κ := by
  refine ⟨_, rfl, ?_⟩
  try dsimp only
  repeat' first
    | with_reducible assumption
    | with_reducible apply portsFollow_ok
    | with_reducible apply setDict_ok
    | with_reducible apply ite_ok
    | intro _
    | with_reducible refine okOf ?_ rfl rfl rfl rfl rfl rfl rfl rfl rfl
    | simp only [ok_mk]
    | split
    | refine okOf ?_ rfl rfl rfl rfl rfl rfl rfl rfl rfl
    | dsimp only

theorem execSgmiiSyncChange_ok {κ : Kept} {port : Fin 4} {sync : Bool} {s : State} (hκ : s.Ok κ) : ∃ st' : State, execSgmiiSyncChange port sync s = .next st' ∧ st'.Ok κ := by
  refine ⟨_, rfl, ?_⟩
  try dsimp only
  repeat' first
    | with_reducible assumption
    | with_reducible apply portsFollow_ok
    | with_reducible apply setDict_ok
    | with_reducible apply ite_ok
    | intro _
    | with_reducible refine okOf ?_ rfl rfl rfl rfl rfl rfl rfl rfl rfl
    | simp only [ok_mk]
    | split
    | refine okOf ?_ rfl rfl rfl rfl rfl rfl rfl rfl rfl
    | dsimp only

theorem execMdioCmd_ok {κ : Kept} {p : Path} {v : Word} {s : State} (hκ : s.Ok κ) : ∃ st' : State, execMdioCmd p v s = .next st' ∧ st'.Ok κ := by
  refine ⟨_, rfl, ?_⟩
  try dsimp only
  repeat' first
    | with_reducible assumption
    | with_reducible apply pathPut_ok
    | with_reducible apply ite_ok
    | intro _
    | with_reducible refine okOf ?_ rfl rfl rfl rfl rfl rfl rfl rfl rfl
    | simp only [ok_mk]
    | split
    | refine okOf ?_ rfl rfl rfl rfl rfl rfl rfl rfl rfl
    | dsimp only

theorem execMdioFrameDone_ok {κ : Kept} {data : BitVec 16} {s : State} (hκ : s.Ok κ) : ∃ st' : State, execMdioFrameDone data s = .next st' ∧ st'.Ok κ := by
  refine ⟨_, rfl, ?_⟩
  try dsimp only
  repeat' first
    | with_reducible assumption
    | with_reducible apply setDict_ok
    | with_reducible apply setLN_ok
    | with_reducible apply ite_ok
    | intro _
    | with_reducible refine okOf ?_ rfl rfl rfl rfl rfl rfl rfl rfl rfl
    | simp only [ok_mk]
    | split
    | refine okOf ?_ rfl rfl rfl rfl rfl rfl rfl rfl rfl
    | dsimp only

end Sys2Proof.Machine
end

