-- ==== Sys2Proof/Laws/KeepsFrame.lean ====
section
/-! SUPPORT. The operations of Frame.lean keep what Keeps.lean names. -/
namespace Sys2Proof.Machine
set_option linter.all false

theorem terminateOn_ok {κ : Kept} {s : State} {e : Nat} (hκ : s.Ok κ) : (State.terminateOn s e).Ok κ := by
  unfold State.terminateOn
  try dsimp only
  repeat' first
    | with_reducible assumption
    | with_reducible apply nextOn_ok
    | with_reducible apply setEng_ok
    | with_reducible apply setEntering_ok
    | with_reducible apply taskEnd_ok
    | with_reducible apply ite_ok
    | intro _
    | with_reducible refine okOf ?_ rfl rfl rfl rfl rfl rfl rfl rfl rfl
    | simp only [ok_mk]
    | split
    | refine okOf ?_ rfl rfl rfl rfl rfl rfl rfl rfl rfl
    | dsimp only

theorem endFrame_ok {κ : Kept} {s : State} (hκ : s.Ok κ) : (State.endFrame s).Ok κ := by
  unfold State.endFrame
  try dsimp only
  repeat' first
    | with_reducible assumption
    | with_reducible apply addL_ok
    | with_reducible apply draw_ok
    | with_reducible apply dropInst_ok
    | with_reducible apply each_ok
    | with_reducible apply setLI_ok
    | with_reducible apply setSnap_ok
    | with_reducible apply terminateOn_ok
    | with_reducible apply foldl_ok
    | with_reducible apply foldl_ok_fst
    | with_reducible apply ite_ok
    | intro _
    | with_reducible refine okOf ?_ rfl rfl rfl rfl rfl rfl rfl rfl rfl
    | simp only [ok_mk]
    | split
    | refine okOf ?_ rfl rfl rfl rfl rfl rfl rfl rfl rfl
    | dsimp only

theorem publishSnap_ok {κ : Kept} {s : State} {k : Nat} (hκ : s.Ok κ) : (State.publishSnap s k).Ok κ := by
  unfold State.publishSnap
  try dsimp only
  repeat' first
    | with_reducible assumption
    | with_reducible apply incL_ok
    | with_reducible apply irqEdge_ok
    | with_reducible apply setLN_ok
    | with_reducible apply ite_ok
    | intro _
    | with_reducible refine okOf ?_ rfl rfl rfl rfl rfl rfl rfl rfl rfl
    | simp only [ok_mk]
    | split
    | refine okOf ?_ rfl rfl rfl rfl rfl rfl rfl rfl rfl
    | dsimp only

theorem setInfo_ok {κ : Kept} {s : State} {l : List (Nat × Word)} (hκ : s.Ok κ) : (State.setInfo s l).Ok κ := by
  unfold State.setInfo
  try dsimp only
  repeat' first
    | with_reducible assumption
    | with_reducible apply foldl_ok
    | with_reducible apply foldl_ok_fst
    | with_reducible apply ite_ok
    | intro _
    | with_reducible refine okOf ?_ rfl rfl rfl rfl rfl rfl rfl rfl rfl
    | simp only [ok_mk]
    | split
    | refine okOf ?_ rfl rfl rfl rfl rfl rfl rfl rfl rfl
    | dsimp only

theorem frameInfo_ok {κ : Kept} {s : State} (hκ : s.Ok κ) : (State.frameInfo s).Ok κ := by
  unfold State.frameInfo
  try dsimp only
  repeat' first
    | with_reducible assumption
    | with_reducible apply setInfo_ok
    | with_reducible apply ite_ok
    | intro _
    | with_reducible refine okOf ?_ rfl rfl rfl rfl rfl rfl rfl rfl rfl
    | simp only [ok_mk]
    | split
    | refine okOf ?_ rfl rfl rfl rfl rfl rfl rfl rfl rfl
    | dsimp only

theorem tickReleases_ok {κ : Kept} {s : State} (hκ : s.Ok κ) : (State.tickReleases s).Ok κ := by
  unfold State.tickReleases
  try dsimp only
  repeat' first
    | with_reducible assumption
    | with_reducible apply raise_ok
    | with_reducible apply releaseAll_ok
    | with_reducible apply ite_ok
    | intro _
    | with_reducible refine okOf ?_ rfl rfl rfl rfl rfl rfl rfl rfl rfl
    | simp only [ok_mk]
    | split
    | refine okOf ?_ rfl rfl rfl rfl rfl rfl rfl rfl rfl
    | dsimp only

theorem acqTick_ok {κ : Kept} {s : State} (hκ : s.Ok κ) : (State.acqTick s).Ok κ := by
  unfold State.acqTick
  try dsimp only
  repeat' first
    | with_reducible assumption
    | with_reducible apply acqHold_ok
    | with_reducible apply acqStamp_ok
    | with_reducible apply each_ok
    | with_reducible apply ite_ok
    | intro _
    | with_reducible refine okOf ?_ rfl rfl rfl rfl rfl rfl rfl rfl rfl
    | simp only [ok_mk]
    | split
    | refine okOf ?_ rfl rfl rfl rfl rfl rfl rfl rfl rfl
    | dsimp only

theorem timeAt_ok {κ : Kept} {s o : State} (hκ : s.Ok κ) : (State.timeAt s o).Ok κ := by
  unfold State.timeAt
  try dsimp only
  repeat' first
    | with_reducible assumption
    | with_reducible apply rateTick_ok
    | with_reducible apply timeLevels_ok
    | with_reducible apply timeTick_ok
    | with_reducible apply ite_ok
    | intro _
    | with_reducible refine okOf ?_ rfl rfl rfl rfl rfl rfl rfl rfl rfl
    | simp only [ok_mk]
    | split
    | refine okOf ?_ rfl rfl rfl rfl rfl rfl rfl rfl rfl
    | dsimp only

theorem nextFrame_ok {κ : Kept} {s : State} {nt : Nat × Nat} (hκ : s.Ok κ) (hC : κ.count = none) : (State.nextFrame s nt).Ok κ := by
  unfold State.nextFrame
  try dsimp only
  repeat' first
    | with_reducible assumption
    | with_reducible apply ite_ok
    | intro _
    | with_reducible refine okOf ?_ rfl rfl rfl rfl rfl rfl rfl rfl rfl
    | with_reducible refine okOf_count ?_ rfl rfl rfl rfl rfl rfl rfl rfl ?_
    | simp only [ok_mk]
    | split
    | refine okOf ?_ rfl rfl rfl rfl rfl rfl rfl rfl rfl
    | dsimp only

theorem countRun_ok {κ : Kept} {s : State} (hκ : s.Ok κ) : (State.countRun s).Ok κ := by
  unfold State.countRun
  try dsimp only
  repeat' first
    | with_reducible assumption
    | with_reducible apply setL64_ok
    | with_reducible apply ite_ok
    | intro _
    | with_reducible refine okOf ?_ rfl rfl rfl rfl rfl rfl rfl rfl rfl
    | simp only [ok_mk]
    | split
    | refine okOf ?_ rfl rfl rfl rfl rfl rfl rfl rfl rfl
    | dsimp only

theorem tickAll_ok {κ : Kept} {s : State} (hκ : s.Ok κ) (hA : κ.act = none) : (State.tickAll s).Ok κ := by
  unfold State.tickAll
  try dsimp only
  repeat' first
    | with_reducible assumption
    | with_reducible apply acqTick_ok
    | with_reducible apply adcTriggers_ok
    | with_reducible apply closeDue_ok
    | with_reducible apply commitTick_ok
    | with_reducible apply countRun_ok
    | with_reducible apply each_ok
    | with_reducible apply execReload_ok
    | with_reducible apply frameInfo_ok
    | with_reducible apply groupDownlink_ok
    | with_reducible apply groupUplink_ok
    | with_reducible apply leafSilence_ok
    | with_reducible apply ledgerTick_ok
    | with_reducible apply pairTick_ok
    | with_reducible apply pdoSample_ok
    | with_reducible apply phTick_ok
    | with_reducible apply prefetchAll_ok
    | with_reducible apply publishSnap_ok
    | with_reducible apply pwmTick_ok
    | with_reducible apply repeatCourier_ok
    | with_reducible apply spTicks_ok
    | with_reducible apply streamGone_ok
    | with_reducible apply tickReleases_ok
    | with_reducible apply timeAt_ok
    | with_reducible apply wtFrame_ok
    | with_reducible apply ite_ok
    | intro _
    | with_reducible refine okOf ?_ rfl rfl rfl rfl rfl rfl rfl rfl rfl
    | simp only [ok_mk]
    | split
    | refine okOf ?_ rfl rfl rfl rfl rfl rfl rfl rfl rfl
    | dsimp only

theorem execTick_ok {κ : Kept} {s : State} (hκ : s.Ok κ) (hA : κ.act = none) (hC : κ.count = none) : ∃ st' : State, execTick s = .next st' ∧ st'.Ok κ := by
  refine ⟨_, rfl, ?_⟩
  try dsimp only
  repeat' first
    | with_reducible assumption
    | with_reducible apply endFrame_ok
    | with_reducible apply lanternRecord_ok
    | with_reducible apply nextFrame_ok
    | with_reducible apply tickAll_ok
    | with_reducible apply toC_ok
    | with_reducible apply ite_ok
    | intro _
    | with_reducible refine okOf ?_ rfl rfl rfl rfl rfl rfl rfl rfl rfl
    | simp only [ok_mk]
    | split
    | refine okOf ?_ rfl rfl rfl rfl rfl rfl rfl rfl rfl
    | dsimp only

theorem leaveBoot_ok {κ : Kept} {s : State} (hκ : s.Ok κ) : (State.leaveBoot s).Ok κ := by
  unfold State.leaveBoot
  try dsimp only
  repeat' first
    | with_reducible assumption
    | with_reducible apply safeEntry_ok
    | with_reducible apply safeOutputs_ok
    | with_reducible apply setMode_ok
    | with_reducible apply ite_ok
    | intro _
    | with_reducible refine okOf ?_ rfl rfl rfl rfl rfl rfl rfl rfl rfl
    | simp only [ok_mk]
    | split
    | refine okOf ?_ rfl rfl rfl rfl rfl rfl rfl rfl rfl
    | dsimp only

theorem closeHostLoad_ok {κ : Kept} {s : State} (hκ : s.Ok κ) : (State.closeHostLoad s).Ok κ := by
  unfold State.closeHostLoad
  try dsimp only
  repeat' first
    | with_reducible assumption
    | with_reducible apply each_ok
    | with_reducible apply setBank_ok
    | with_reducible apply setBoot_ok
    | with_reducible apply ite_ok
    | intro _
    | with_reducible refine okOf ?_ rfl rfl rfl rfl rfl rfl rfl rfl rfl
    | with_reducible apply okOf_clear
    | with_reducible apply okOf_erase
    | simp only [ok_mk]
    | split
    | refine okOf ?_ rfl rfl rfl rfl rfl rfl rfl rfl rfl
    | dsimp only

theorem begin0_ok {κ : Kept} {s : State} (hκ : s.Ok κ) (hA : κ.act = none) : (State.begin0 s).Ok κ := by
  unfold State.begin0
  try dsimp only
  repeat' first
    | with_reducible assumption
    | with_reducible apply acqArm_ok
    | with_reducible apply adcbClaim_ok
    | with_reducible apply connSync_ok
    | with_reducible apply each_ok
    | with_reducible apply lanternArm_ok
    | with_reducible apply phRestart_ok
    | with_reducible apply phTick_ok
    | with_reducible apply pwmConfigure_ok
    | with_reducible apply tickAll_ok
    | with_reducible apply wakeEngine_ok
    | with_reducible apply wtTrips_ok
    | with_reducible apply ite_ok
    | intro _
    | with_reducible refine okOf ?_ rfl rfl rfl rfl rfl rfl rfl rfl rfl
    | simp only [ok_mk]
    | split
    | refine okOf ?_ rfl rfl rfl rfl rfl rfl rfl rfl rfl
    | dsimp only

theorem ring0_ok {κ : Kept} {s0 : State} {t : Nat} (hκ : s0.Ok κ) (hA : κ.act = none) (hC : κ.count = none) : (State.ring0 s0 t).Ok κ := by
  unfold State.ring0
  try dsimp only
  repeat' first
    | with_reducible assumption
    | with_reducible apply begin0_ok
    | with_reducible apply bootStep_ok
    | with_reducible apply closeHostLoad_ok
    | with_reducible apply done_ok
    | with_reducible apply leaveBoot_ok
    | with_reducible apply setCommit_ok
    | with_reducible apply setLN_ok
    | with_reducible apply startOffset_ok
    | with_reducible apply swapCopies_ok
    | with_reducible apply ite_ok
    | intro _
    | with_reducible refine okOf ?_ rfl rfl rfl rfl rfl rfl rfl rfl rfl
    | with_reducible refine okOf_tick ?_ rfl rfl rfl rfl rfl rfl rfl rfl ?_
    | simp only [ok_mk]
    | split
    | refine okOf ?_ rfl rfl rfl rfl rfl rfl rfl rfl rfl
    | dsimp only

theorem clockSet_ok {κ : Kept} {s : State} (hκ : s.Ok κ) : (State.clockSet s).Ok κ := by
  unfold State.clockSet
  try dsimp only
  repeat' first
    | with_reducible assumption
    | with_reducible apply setClock_ok
    | with_reducible apply ite_ok
    | intro _
    | with_reducible refine okOf ?_ rfl rfl rfl rfl rfl rfl rfl rfl rfl
    | simp only [ok_mk]
    | split
    | refine okOf ?_ rfl rfl rfl rfl rfl rfl rfl rfl rfl
    | dsimp only

theorem toS0_ok {κ : Kept} {s : State} (hκ : s.Ok κ) : (State.toS0 s).Ok κ := by
  unfold State.toS0
  try dsimp only
  repeat' first
    | with_reducible assumption
    | with_reducible apply clockSet_ok
    | with_reducible apply toC_ok
    | with_reducible apply ite_ok
    | intro _
    | with_reducible refine okOf ?_ rfl rfl rfl rfl rfl rfl rfl rfl rfl
    | simp only [ok_mk]
    | split
    | refine okOf ?_ rfl rfl rfl rfl rfl rfl rfl rfl rfl
    | dsimp only

theorem execFirstTick_ok {κ : Kept} {s : State} (hκ : s.Ok κ) (hA : κ.act = none) (hC : κ.count = none) : ∃ st' : State, execFirstTick s = .next st' ∧ st'.Ok κ := by
  refine ⟨_, rfl, ?_⟩
  try dsimp only
  repeat' first
    | with_reducible assumption
    | with_reducible apply ring0_ok
    | with_reducible apply toS0_ok
    | with_reducible apply ite_ok
    | intro _
    | with_reducible refine okOf ?_ rfl rfl rfl rfl rfl rfl rfl rfl rfl
    | simp only [ok_mk]
    | split
    | refine okOf ?_ rfl rfl rfl rfl rfl rfl rfl rfl rfl
    | dsimp only

theorem release_ok {κ : Kept} {s : State} {off : Nat} (hκ : s.Ok κ) : (State.release s off).Ok κ := by
  unfold State.release
  try dsimp only
  repeat' first
    | with_reducible assumption
    | with_reducible apply prefetchAll_ok
    | with_reducible apply setInfo_ok
    | with_reducible apply setSnap_ok
    | with_reducible apply startAll_ok
    | with_reducible apply wakeAll_ok
    | with_reducible apply ite_ok
    | intro _
    | with_reducible refine okOf ?_ rfl rfl rfl rfl rfl rfl rfl rfl rfl
    | simp only [ok_mk]
    | split
    | refine okOf ?_ rfl rfl rfl rfl rfl rfl rfl rfl rfl
    | dsimp only

theorem execFrameRelease_ok {κ : Kept} {s : State} (hκ : s.Ok κ) : ∃ st' : State, execFrameRelease s = .next st' ∧ st'.Ok κ := by
  refine ⟨_, rfl, ?_⟩
  try dsimp only
  repeat' first
    | with_reducible assumption
    | with_reducible apply release_ok
    | with_reducible apply toC_ok
    | with_reducible apply ite_ok
    | intro _
    | with_reducible refine okOf ?_ rfl rfl rfl rfl rfl rfl rfl rfl rfl
    | simp only [ok_mk]
    | split
    | refine okOf ?_ rfl rfl rfl rfl rfl rfl rfl rfl rfl
    | dsimp only

theorem closeMeas_ok {κ : Kept} {s : State} (hκ : s.Ok κ) : (State.closeMeas s).Ok κ := by
  unfold State.closeMeas
  try dsimp only
  repeat' first
    | with_reducible assumption
    | with_reducible apply each_ok
    | with_reducible apply incIf_ok
    | with_reducible apply irqIf_ok
    | with_reducible apply raise_ok
    | with_reducible apply ite_ok
    | intro _
    | with_reducible refine okOf ?_ rfl rfl rfl rfl rfl rfl rfl rfl rfl
    | simp only [ok_mk]
    | split
    | refine okOf ?_ rfl rfl rfl rfl rfl rfl rfl rfl rfl
    | dsimp only

theorem execMeasDeadline_ok {κ : Kept} {s : State} (hκ : s.Ok κ) : ∃ st' : State, execMeasDeadline s = .next st' ∧ st'.Ok κ := by
  refine ⟨_, rfl, ?_⟩
  try dsimp only
  repeat' first
    | with_reducible assumption
    | with_reducible apply closeMeas_ok
    | with_reducible apply toC_ok
    | with_reducible apply ite_ok
    | intro _
    | with_reducible refine okOf ?_ rfl rfl rfl rfl rfl rfl rfl rfl rfl
    | simp only [ok_mk]
    | split
    | refine okOf ?_ rfl rfl rfl rfl rfl rfl rfl rfl rfl
    | dsimp only

theorem startCaravan_ok {κ : Kept} {s : State} {n : Nat} (hκ : s.Ok κ) : (State.startCaravan s n).Ok κ := by
  unfold State.startCaravan
  try dsimp only
  repeat' first
    | with_reducible assumption
    | with_reducible apply incL_ok
    | with_reducible apply irqEdge_ok
    | with_reducible apply raise_ok
    | with_reducible apply start_ok
    | with_reducible apply trainOut_ok
    | with_reducible apply ite_ok
    | intro _
    | with_reducible refine okOf ?_ rfl rfl rfl rfl rfl rfl rfl rfl rfl
    | simp only [ok_mk]
    | split
    | refine okOf ?_ rfl rfl rfl rfl rfl rfl rfl rfl rfl
    | dsimp only

theorem caravanEnd_ok {κ : Kept} {s : State} (hκ : s.Ok κ) : (State.caravanEnd s).2.Ok κ := by
  unfold State.caravanEnd
  try dsimp only
  repeat' first
    | with_reducible assumption
    | with_reducible apply draw_ok
    | with_reducible apply foldl_ok
    | with_reducible apply foldl_ok_fst
    | with_reducible apply ite_ok
    | intro _
    | with_reducible refine okOf ?_ rfl rfl rfl rfl rfl rfl rfl rfl rfl
    | simp only [ok_mk]
    | split
    | refine okOf ?_ rfl rfl rfl rfl rfl rfl rfl rfl rfl
    | dsimp only

theorem arbBeat_ok {κ : Kept} {s : State} (hκ : s.Ok κ) : (State.arbBeat s).Ok κ := by
  unfold State.arbBeat
  try dsimp only
  repeat' first
    | with_reducible assumption
    | with_reducible apply ite_ok
    | intro _
    | with_reducible refine okOf ?_ rfl rfl rfl rfl rfl rfl rfl rfl rfl
    | simp only [ok_mk]
    | split
    | refine okOf ?_ rfl rfl rfl rfl rfl rfl rfl rfl rfl
    | dsimp only

theorem acqNodes_ok {κ : Kept} {s : State} (hκ : s.Ok κ) : (State.acqNodes s).Ok κ := by
  unfold State.acqNodes
  try dsimp only
  repeat' first
    | with_reducible assumption
    | with_reducible apply acqHold_ok
    | with_reducible apply each_ok
    | with_reducible apply ite_ok
    | intro _
    | with_reducible refine okOf ?_ rfl rfl rfl rfl rfl rfl rfl rfl rfl
    | simp only [ok_mk]
    | split
    | refine okOf ?_ rfl rfl rfl rfl rfl rfl rfl rfl rfl
    | dsimp only

theorem mirrorEnd_ok {κ : Kept} {s : State} (hκ : s.Ok κ) : (State.mirrorEnd s).2.Ok κ := by
  unfold State.mirrorEnd
  try dsimp only
  repeat' first
    | with_reducible assumption
    | with_reducible apply draw_ok
    | with_reducible apply ite_ok
    | intro _
    | with_reducible refine okOf ?_ rfl rfl rfl rfl rfl rfl rfl rfl rfl
    | simp only [ok_mk]
    | split
    | refine okOf ?_ rfl rfl rfl rfl rfl rfl rfl rfl rfl
    | dsimp only

theorem sendCaravans_ok {κ : Kept} {s : State} (hκ : s.Ok κ) : (State.sendCaravans s).Ok κ := by
  unfold State.sendCaravans
  try dsimp only
  repeat' first
    | with_reducible assumption
    | with_reducible apply acqNodes_ok
    | with_reducible apply arbBeat_ok
    | with_reducible apply caravanEnd_ok
    | with_reducible apply discSend_ok
    | with_reducible apply draw_ok
    | with_reducible apply each_ok
    | with_reducible apply heartbeat_ok
    | with_reducible apply lanternNodes_ok
    | with_reducible apply mirrorEnd_ok
    | with_reducible apply repeatCourier_ok
    | with_reducible apply sendPair_ok
    | with_reducible apply setSnap_ok
    | with_reducible apply startCaravan_ok
    | with_reducible apply ite_ok
    | intro _
    | with_reducible refine okOf ?_ rfl rfl rfl rfl rfl rfl rfl rfl rfl
    | simp only [ok_mk]
    | split
    | refine okOf ?_ rfl rfl rfl rfl rfl rfl rfl rfl rfl
    | dsimp only

theorem execCaravanSend_ok {κ : Kept} {s : State} (hκ : s.Ok κ) : ∃ st' : State, execCaravanSend s = .next st' ∧ st'.Ok κ := by
  refine ⟨_, rfl, ?_⟩
  try dsimp only
  repeat' first
    | with_reducible assumption
    | with_reducible apply sendCaravans_ok
    | with_reducible apply toC_ok
    | with_reducible apply ite_ok
    | intro _
    | with_reducible refine okOf ?_ rfl rfl rfl rfl rfl rfl rfl rfl rfl
    | simp only [ok_mk]
    | split
    | refine okOf ?_ rfl rfl rfl rfl rfl rfl rfl rfl rfl
    | dsimp only

theorem execHalt_ok {κ : Kept} {s : State} (hκ : s.Ok κ) : ∃ st' : State, execHalt s = .next st' ∧ st'.Ok κ := by
  refine ⟨_, rfl, ?_⟩
  try dsimp only
  repeat' first
    | with_reducible assumption
    | with_reducible apply acqHold_ok
    | with_reducible apply discPump_ok
    | with_reducible apply drainStores_ok
    | with_reducible apply each_ok
    | with_reducible apply pwmFreeze_ok
    | with_reducible apply repeatCourier_ok
    | with_reducible apply tapIr_ok
    | with_reducible apply ite_ok
    | intro _
    | with_reducible refine okOf ?_ rfl rfl rfl rfl rfl rfl rfl rfl rfl
    | simp only [ok_mk]
    | split
    | refine okOf ?_ rfl rfl rfl rfl rfl rfl rfl rfl rfl
    | dsimp only

theorem execHaltEnd_ok {κ : Kept} {s : State} (hκ : s.Ok κ) : ∃ st' : State, execHaltEnd s = .next st' ∧ st'.Ok κ := by
  refine ⟨_, rfl, ?_⟩
  try dsimp only
  repeat' first
    | with_reducible assumption
    | with_reducible apply pwmThaw_ok
    | with_reducible apply wakeAll_ok
    | with_reducible apply ite_ok
    | intro _
    | with_reducible refine okOf ?_ rfl rfl rfl rfl rfl rfl rfl rfl rfl
    | simp only [ok_mk]
    | split
    | refine okOf ?_ rfl rfl rfl rfl rfl rfl rfl rfl rfl
    | dsimp only

end Sys2Proof.Machine
end

