-- ==== Sys2Proof/Laws/KeepsIdle.lean ====
section
/-! SUPPORT. The operations of Idle.lean keep what Keeps.lean names. -/
namespace Sys2Proof.Machine
set_option linter.all false

theorem idle_ok {κ : Kept} {s : State} (hκ : s.Ok κ) : (State.idle s).Ok κ := by
  unfold State.idle
  try dsimp only
  repeat' first
    | with_reducible assumption
    | with_reducible apply budgetWindow_ok
    | with_reducible apply passNs_ok
    | with_reducible apply pdoSample_ok
    | with_reducible apply ite_ok
    | intro _
    | with_reducible refine okOf ?_ rfl rfl rfl rfl rfl rfl rfl rfl rfl
    | simp only [ok_mk]
    | split
    | refine okOf ?_ rfl rfl rfl rfl rfl rfl rfl rfl rfl
    | dsimp only

end Sys2Proof.Machine
end

