-- ==== Sys2Proof/Laws/Steps.lean ====
section
/-! SUPPORT. What a command keeps, said once for all of them. -/
namespace Sys2Proof.Machine
set_option linter.all false

/-- `κ` asks nothing of what the command may change: the active copy at the ends of a boot, at a tick, and where a march or an error reaches its banks, the frame count at a tick,
the flash at the end of a flash operation. -/
def Kept.allows (κ : Kept) (c : Instr) : Prop :=
  match c with
  | .payloadLoadDone => κ.act = none
  | .bootValidationDone => κ.act = none
  | .tick => κ.act = none ∧ κ.count = none
  | .firstTick => κ.act = none ∧ κ.count = none
  | .flashOpDone _ => κ.flash = none
  | .eccUncorrectable _ _ _ => κ.act = none
  | .marchDone _ => κ.act = none
  | _ => True

/-- What is kept of `κ` after the command. -/
def Kept.after (κ : Kept) (c : Instr) : Kept := if c.resets then κ.afterReset else κ

/-- Every command answers a next state, and the state keeps what the command does not change. -/
theorem exec_keeps {c : Instr} {s : State} {κ : Kept} (h : s.Ok κ) (hf : κ.allows c) : ∃ t, exec c s = .next t ∧ t.Ok (κ.after c) := by
  cases c with
  | pwrgoodRise => exact execPwrgoodRise_ok h
  | pwrgoodFall => exact execPwrgoodFall_ok h
  | resetNAssert => exact execResetNAssert_ok h
  | resetNRelease sel tamper => exact execResetNRelease_ok h
  | clocksLocked => exact execClocksLocked_ok h
  | fuseReadDone ecc => exact execFuseReadDone_ok h
  | startupMarchDone rows => exact execStartupMarchDone_ok h
  | wtSelfTestDone pass => exact execWtSelfTestDone_ok h
  | slotHeadersRead => exact execSlotHeadersRead_ok h
  | payloadLoadDone => exact execPayloadLoadDone_ok h hf
  | laneWaitExpire => exact execLaneWaitExpire_ok h
  | timeWaitExpire => exact execTimeWaitExpire_ok h
  | bootValidationDone => exact execBootValidationDone_ok h hf
  | firstTick => exact execFirstTick_ok h hf.1 hf.2
  | mirrorWaitExpire => exact execMirrorWaitExpire_ok h
  | tick => exact execTick_ok h hf.1 hf.2
  | frameRelease => exact execFrameRelease_ok h
  | measDeadline => exact execMeasDeadline_ok h
  | decisionCut => exact execDecisionCut_ok h
  | caravanSend => exact execCaravanSend_ok h
  | halt => exact execHalt_ok h
  | haltEnd => exact execHaltEnd_ok h
  | modeReqCharge p => exact execModeReqCharge_ok h
  | modeReqReady p => exact execModeReqReady_ok h
  | modeReqRun p => exact execModeReqRun_ok h
  | modeReqTest p => exact execModeReqTest_ok h
  | modeReqSafe p => exact execModeReqSafe_ok h
  | modeReqWithdraw p => exact execModeReqWithdraw_ok h
  | modeReqNotListed p code => exact execModeReqNotListed_ok h
  | safeAck p => exact execSafeAck_ok h
  | rtReqDc p => exact execRtReqDc_ok h
  | rtReqAc p => exact execRtReqAc_ok h
  | rtReqExit p => exact execRtReqExit_ok h
  | commitRequest p v => exact execCommitRequest_ok h
  | commitRevert p => exact execCommitRevert_ok h
  | commitValidationDone => exact execCommitValidationDone_ok h
  | commitSyncDone => exact execCommitSyncDone_ok h
  | imgEraseA p => exact execImgEraseA_ok h
  | imgEraseB p => exact execImgEraseB_ok h
  | imgFinishA p => exact execImgFinishA_ok h
  | imgFinishB p => exact execImgFinishB_ok h
  | imgHostLoad p => exact execImgHostLoad_ok h
  | imgSaveActive p => exact execImgSaveActive_ok h
  | imgData p v => exact execImgData_ok h
  | flashOpDone ok => exact execFlashOpDone_ok h hf
  | laneEnable p n => exact execLaneEnable_ok h
  | laneDisable p n => exact execLaneDisable_ok h
  | lanePrbsSet p n gen chk sel => exact execLanePrbsSet_ok h
  | laneLoopbackSet p n code => exact execLaneLoopbackSet_ok h
  | laneInjectErr p n => exact execLaneInjectErr_ok h
  | retrainFull p n => exact execRetrainFull_ok h
  | retrainFast p n => exact execRetrainFast_ok h
  | lanePolaritySet p n tx rx => exact execLanePolaritySet_ok h
  | cdrLock n => exact execCdrLock_ok h
  | eqAdaptDone n => exact execEqAdaptDone_ok h
  | blockLock n => exact execBlockLock_ok h
  | laneEnterData n => exact execLaneEnterData_ok h
  | trainExchTimeout n => exact execTrainExchTimeout_ok h
  | fastRetrainTimeout n => exact execFastRetrainTimeout_ok h
  | retrainBackoffExpire n => exact execRetrainBackoffExpire_ok h
  | losDetect n dur t => exact execLosDetect_ok h
  | blockLockLoss n t => exact execBlockLockLoss_ok h
  | hiBer n t => exact execHiBer_ok h
  | trainBlockReceive n fast run t => exact execTrainBlockReceive_ok h
  | ccBlockReceive n fill => exact execCcBlockReceive_ok h
  | unknownControlBlock n => exact execUnknownControlBlock_ok h
  | srclkLoss src t => exact execSrclkLoss_ok h
  | srclkRestore src => exact execSrclkRestore_ok h
  | prbsLock n w => exact execPrbsLock_ok h
  | prbsResync n bits errs => exact execPrbsResync_ok h
  | prbsBitsLoRead p n bits errs => exact execPrbsBitsLoRead_ok h
  | uplinkTrainReceive n header => exact execUplinkTrainReceive_ok h
  | uplinkGroupReceive n g recs crc t => exact execUplinkGroupReceive_ok h
  | uplinkTrainEnd n eot => exact execUplinkTrainEnd_ok h
  | frameCloseTimeout n => exact execFrameCloseTimeout_ok h
  | longSegmentReceive n w0 w1 w2 w3 crc t0 t3 => exact execLongSegmentReceive_ok h
  | discReplyReceive n header w0 w1 w2 w3 crc eot t0 t3 => exact execDiscReplyReceive_ok h
  | discTimeout n tag => exact execDiscTimeout_ok h
  | autoVerifyTrigger n x => exact execAutoVerifyTrigger_ok h
  | discRediscover p n => exact execDiscRediscover_ok h
  | discVerify p n => exact execDiscVerify_ok h
  | discAbort p n => exact execDiscAbort_ok h
  | upstreamCaravanReceive header groups eot t => exact execUpstreamCaravanReceive_ok h
  | upstreamDiscReqReceive header turn => exact execUpstreamDiscReqReceive_ok h
  | courierReqHold p => exact execCourierReqHold_ok h
  | courierReqReleaseHold p => exact execCourierReqReleaseHold_ok h
  | courierSend n dep => exact execCourierSend_ok h
  | beaconSend p v => exact execBeaconSend_ok h
  | beaconTransmit port t => exact execBeaconTransmit_ok h
  | beaconReceive port payload => exact execBeaconReceive_ok h
  | beaconAct e => exact execBeaconAct_ok h
  | trigInEdge rising stamp => exact execTrigInEdge_ok h
  | trigOutStart e => exact execTrigOutStart_ok h
  | trigOutEnd => exact execTrigOutEnd_ok h
  | healthRetire p => exact execHealthRetire_ok h
  | healthRestore p => exact execHealthRestore_ok h
  | healthSuspect p => exact execHealthSuspect_ok h
  | cfgWord p v => exact execCfgWord_ok h
  | ledgerW0Read x => exact execLedgerW0Read_ok h
  | forceArm p a v => exact execForceArm_ok h
  | forceDefer p a v => exact execForceDefer_ok h
  | forceClear p a => exact execForceClear_ok h
  | forceCommitAll p a => exact execForceCommitAll_ok h
  | maskClear p a => exact execMaskClear_ok h
  | gpioLevelAccept a g high te => exact execGpioLevelAccept_ok h
  | notchRestart p a => exact execNotchRestart_ok h
  | aidsStickyClear p v => exact execAidsStickyClear_ok h
  | pulseEdgeAccept n t => exact execPulseEdgeAccept_ok h
  | lanternArm p => exact execLanternArm_ok h
  | lanternTrigger p => exact execLanternTrigger_ok h
  | lanternStop p => exact execLanternStop_ok h
  | lanternDisarm p => exact execLanternDisarm_ok h
  | nop e st w => exact execNop_ok h
  | mpy e st w => exact execMpy_ok h
  | mac e st w => exact execMac_ok h
  | msu e st w => exact execMsu_ok h
  | mpy4 e st w => exact execMpy4_ok h
  | mac4 e st w => exact execMac4_ok h
  | msu4 e st w => exact execMsu4_ok h
  | clr e st w => exact execClr_ok h
  | adda e st w => exact execAdda_ok h
  | suba e st w => exact execSuba_ok h
  | asla e st w => exact execAsla_ok h
  | asra e st w => exact execAsra_ok h
  | ldacc e st w => exact execLdacc_ok h
  | rnd e st w => exact execRnd_ok h
  | nega e st w => exact execNega_ok h
  | absa e st w => exact execAbsa_ok h
  | clr4 e st w => exact execClr4_ok h
  | mov e st w => exact execMov_ok h
  | add e st w => exact execAdd_ok h
  | sub e st w => exact execSub_ok h
  | neg e st w => exact execNeg_ok h
  | abs e st w => exact execAbs_ok h
  | min e st w => exact execMin_ok h
  | max e st w => exact execMax_ok h
  | cmp e st w => exact execCmp_ok h
  | and e st w => exact execAnd_ok h
  | or e st w => exact execOr_ok h
  | xor e st w => exact execXor_ok h
  | not e st w => exact execNot_ok h
  | asli e st w => exact execAsli_ok h
  | asri e st w => exact execAsri_ok h
  | lsri e st w => exact execLsri_ok h
  | ashv e st w => exact execAshv_ok h
  | norm e st w => exact execNorm_ok h
  | mpyd e st w => exact execMpyd_ok h
  | clamp e st w => exact execClamp_ok h
  | ldi e st w => exact execLdi_ok h
  | addi e st w => exact execAddi_ok h
  | andi e st w => exact execAndi_ok h
  | ori e st w => exact execOri_ok h
  | xori e st w => exact execXori_ok h
  | cmpi e st w => exact execCmpi_ok h
  | ldai e st w => exact execLdai_ok h
  | ldmi e st w => exact execLdmi_ok h
  | ldbi e st w => exact execLdbi_ok h
  | ldli e st w => exact execLdli_ok h
  | addai e st w => exact execAddai_ok h
  | tfr e st w => exact execTfr_ok h
  | setf e st w => exact execSetf_ok h
  | clrf e st w => exact execClrf_ok h
  | bra e st w => exact execBra_ok h
  | call e st w => exact execCall_ok h
  | ret e st w => exact execRet_ok h
  | loop e st w => exact execLoop_ok h
  | loopd e st w => exact execLoopd_ok h
  | done e st t w => exact execDone_ok h
  | sync e st w => exact execSync_ok h
  | trap e st w => exact execTrap_ok h
  | bkpt e st w => exact execBkpt_ok h
  | regfileParityError e => exact execRegfileParityError_ok h
  | outArmRef e st w => exact execOutArmRef_ok h
  | outSelIdirFw e st w => exact execOutSelIdirFw_ok h
  | outRtReq e st w => exact execOutRtReq_ok h
  | outBeaconSend e st w => exact execOutBeaconSend_ok h
  | outProbe e st w => exact execOutProbe_ok h
  | outSem e st w => exact execOutSem_ok h
  | inSem e st w => exact execInSem_ok h
  | outTaskRelease e st w => exact execOutTaskRelease_ok h
  | outDictSel e st w => exact execOutDictSel_ok h
  | outDictData e st w => exact execOutDictData_ok h
  | inDictData e st w => exact execInDictData_ok h
  | inDictResult e st w => exact execInDictResult_ok h
  | inFrameCountLo e st w => exact execInFrameCountLo_ok h
  | inFrameCountHi e st w => exact execInFrameCountHi_ok h
  | inCtimeLo e st w => exact execInCtimeLo_ok h
  | inCtimeHi e st w => exact execInCtimeHi_ok h
  | inEngineId e st w => exact execInEngineId_ok h
  | inTaskId e st w => exact execInTaskId_ok h
  | inTaskCycles e st w => exact execInTaskCycles_ok h
  | inUnlistedPort e st w => exact execInUnlistedPort_ok h
  | outUnlistedPort e st w => exact execOutUnlistedPort_ok h
  | progMemWrite e x hi v => exact execProgMemWrite_ok h
  | hostRelease p v => exact execHostRelease_ok h
  | delayArm p v => exact execDelayArm_ok h
  | delayCancel p v => exact execDelayCancel_ok h
  | descW3 p v => exact execDescW3_ok h
  | taskSelectionDone e => exact execTaskSelectionDone_ok h
  | prefetchRefillDone e => exact execPrefetchRefillDone_ok h
  | contextSaveDone e => exact execContextSaveDone_ok h
  | taskLoadDone e => exact execTaskLoadDone_ok h
  | contextRestoreDone e => exact execContextRestoreDone_ok h
  | cycWarnExceed e => exact execCycWarnExceed_ok h
  | ptpSyncReceive port3 domain seq twoStep origin corr l => exact execPtpSyncReceive_ok h
  | ptpFollowUpReceive port3 domain seq origin corr => exact execPtpFollowUpReceive_ok h
  | ptpAnnounceReceive port3 domain gm rank utc flags inacc => exact execPtpAnnounceReceive_ok h
  | pdelayReqReceive port3 domain seq l tx => exact execPdelayReqReceive_ok h
  | pdelayRespReceive port3 seq t2 corr l => exact execPdelayRespReceive_ok h
  | pdelayRespFollowUpReceive port3 seq t3 corr => exact execPdelayRespFollowUpReceive_ok h
  | ptpUnsupportedReceive port3 domain => exact execPtpUnsupportedReceive_ok h
  | pdelayReqSend port3 l => exact execPdelayReqSend_ok h
  | announceTimeout d port3 => exact execAnnounceTimeout_ok h
  | offsetTimeout d => exact execOffsetTimeout_ok h
  | holdoverExpired d => exact execHoldoverExpired_ok h
  | ppsInEdge falling l => exact execPpsInEdge_ok h
  | ppsOutRise => exact execPpsOutRise_ok h
  | ppsOutFall => exact execPpsOutFall_ok h
  | phasorPublish => exact execPhasorPublish_ok h
  | waveTagWrite w => exact execWaveTagWrite_ok h
  | resultLatchRead p key => exact execResultLatchRead_ok h
  | acqArm p => exact execAcqArm_ok h
  | acqTrigger p => exact execAcqTrigger_ok h
  | acqStop p => exact execAcqStop_ok h
  | acqDisarm p => exact execAcqDisarm_ok h
  | acqBlockForm => exact execAcqBlockForm_ok h
  | acqBlockWrite => exact execAcqBlockWrite_ok h
  | adcRegStart p x cont => exact execAdcRegStart_ok h
  | adcRegStop p x => exact execAdcRegStop_ok h
  | adcCalReq p x cont => exact execAdcCalReq_ok h
  | adcPeriodicStart x => exact execAdcPeriodicStart_ok h
  | adcConversionDone x v vref => exact execAdcConversionDone_ok h
  | adcCalDone x coef => exact execAdcCalDone_ok h
  | pwmWrap p => exact execPwmWrap_ok h
  | pwmDutyMatch p => exact execPwmDutyMatch_ok h
  | deadTimeExpire p => exact execDeadTimeExpire_ok h
  | pwmTimingWrite path p v => exact execPwmTimingWrite_ok h
  | pwmForceWrite path p v => exact execPwmForceWrite_ok h
  | pairStart path p => exact execPairStart_ok h
  | pairStop path p => exact execPairStop_ok h
  | pwmSyncStart path v => exact execPwmSyncStart_ok h
  | tripInputAccept n active edge => exact execTripInputAccept_ok h
  | tripClear path v => exact execTripClear_ok h
  | swOpen p v challenge => exact execSwOpen_ok h
  | swValueWrite p key v => exact execSwValueWrite_ok h
  | swConfirm p v => exact execSwConfirm_ok h
  | swTimeout => exact execSwTimeout_ok h
  | debugPermitExpire => exact execDebugPermitExpire_ok h
  | wtChannelDisagree => exact execWtChannelDisagree_ok h
  | wtOscFault => exact execWtOscFault_ok h
  | outTestPulse chanB agree => exact execOutTestPulse_ok h
  | readbackError chanB => exact execReadbackError_ok h
  | kcopyCrcCheck good => exact execKcopyCrcCheck_ok h
  | heartbeatTimeout => exact execHeartbeatTimeout_ok h
  | wtRecordAccept stream r => exact execWtRecordAccept_ok h
  | measLostExpire stream => exact execMeasLostExpire_ok h
  | slvDiscExpire v => exact execSlvDiscExpire_ok h
  | wtPulseEdge n t => exact execWtPulseEdge_ok h
  | slsDiscExpire => exact execSlsDiscExpire_ok h
  | safetyPduReceive c en3 prp bytes => exact execSafetyPduReceive_ok h
  | sdWatchdogExpire c => exact execSdWatchdogExpire_ok h
  | sdTxSend c => exact execSdTxSend_ok h
  | pairTrainReceive a b t => exact execPairTrainReceive_ok h
  | mirrorPingSend ts => exact execMirrorPingSend_ok h
  | mirrorPingReceive sot t tx => exact execMirrorPingReceive_ok h
  | mirrorPingReplyReceive sot t => exact execMirrorPingReplyReceive_ok h
  | partnerLost => exact execPartnerLost_ok h
  | arbActChange level t => exact execArbActChange_ok h
  | swapReq p => exact execSwapReq_ok h
  | swapTimeout => exact execSwapTimeout_ok h
  | faultAck p hi => exact execFaultAck_ok h
  | faultForce p hi => exact execFaultForce_ok h
  | selfTestEDone good => exact execSelfTestEDone_ok h
  | selfTestLDone lane blocks => exact execSelfTestLDone_ok h
  | selfTestKDone engine good => exact execSelfTestKDone_ok h
  | selfTestSkip engine => exact execSelfTestSkip_ok h
  | eccCorrected bank word => exact execEccCorrected_ok h
  | eccUncorrectable bank word bits => exact execEccUncorrectable_ok h hf
  | marchRequest p v => exact execMarchRequest_ok h
  | marchDone words => exact execMarchDone_ok h hf
  | marchBgRow corr fail => exact execMarchBgRow_ok h
  | bankWakeDone b => exact execBankWakeDone_ok h
  | bankRetentionEnter b => exact execBankRetentionEnter_ok h
  | tamperAccept n => exact execTamperAccept_ok h
  | supplyOutOfRange safe => exact execSupplyOutOfRange_ok h
  | tempOutOfRange => exact execTempOutOfRange_ok h
  | keyInstall p bytes => exact execKeyInstall_ok h
  | lcReqProvision p => exact execLcReqProvision_ok h
  | lcReqDeploy p => exact execLcReqDeploy_ok h
  | lcReqReturn p => exact execLcReqReturn_ok h
  | lcReqScrap p => exact execLcReqScrap_ok h
  | lcFuseDone good primary => exact execLcFuseDone_ok h
  | complete p v => exact execComplete_ok h
  | pendWrite p g v => exact execPendWrite_ok h
  | pendRead p g => exact execPendRead_ok h
  | hclkStop => exact execHclkStop_ok h
  | hclkResume => exact execHclkResume_ok h
  | journalRecordWrite => exact execJournalRecordWrite_ok h
  | jrnPop p v => exact execJrnPop_ok h
  | hostAccess wr addr be v clk => exact execHostAccess_ok h
  | hostAccessAbandon => exact execHostAccessAbandon_ok h
  | dictService => exact execDictService_ok h
  | hpFenceRead clk => exact execHpFenceRead_ok h
  | wideLowRead p key => exact execWideLowRead_ok h
  | wideHighWrite p key v => exact execWideHighWrite_ok h
  | domPtrWrite p v => exact execDomPtrWrite_ok h
  | domainRead key => exact execDomainRead_ok h
  | domainWrite key v => exact execDomainWrite_ok h
  | domEnd v => exact execDomEnd_ok h
  | objDataAccess v => exact execObjDataAccess_ok h
  | sdoDownloadInitiate idx sub expedited size bytes => exact execSdoDownloadInitiate_ok h
  | sdoDownloadSegment toggle last bytes => exact execSdoDownloadSegment_ok h
  | sdoUploadInitiate idx sub => exact execSdoUploadInitiate_ok h
  | sdoUploadSegment toggle => exact execSdoUploadSegment_ok h
  | sdoAbortReceive => exact execSdoAbortReceive_ok h
  | sdoUnsupported coe => exact execSdoUnsupported_ok h
  | sdoIdleTimeout => exact execSdoIdleTimeout_ok h
  | alReqInit => exact execAlReqInit_ok h
  | alReqPreop => exact execAlReqPreop_ok h
  | alReqSafeop => exact execAlReqSafeop_ok h
  | alReqOp => exact execAlReqOp_ok h
  | rxpdoReceive bytes => exact execRxpdoReceive_ok h
  | pdWatchdogExpire => exact execPdWatchdogExpire_ok h
  | mdioPoll links => exact execMdioPoll_ok h
  | mdioCmd p v => exact execMdioCmd_ok h
  | mdioFrameDone data => exact execMdioFrameDone_ok h
  | tjSample t => exact execTjSample_ok h
  | powerEstimate io coreMv safeMv ppb => exact execPowerEstimate_ok h
  | pllUnlock => exact execPllUnlock_ok h
  | xtalFault ppb => exact execXtalFault_ok h
  | extest => exact execExtest_ok h
  | idcode => exact execIdcode_ok h
  | samplePreload cells => exact execSamplePreload_ok h
  | sysreset sel => exact execSysreset_ok h
  | bypass => exact execBypass_ok h
  | tapReset => exact execTapReset_ok h
  | tableWriteDiscard addr => exact execTableWriteDiscard_ok h
  | registerWrite p key v => exact execRegisterWrite_ok h
  | wtAdcbCalibrate => exact execWtAdcbCalibrate_ok h
  | slsTimeout n => exact execSlsTimeout_ok h
  | parWindowExpire c => exact execParWindowExpire_ok h
  | sgmiiSyncChange port sync => exact execSgmiiSyncChange_ok h
  | supplyMonChange mv => exact execSupplyMonChange_ok h
  | tamperRelease n => exact execTamperRelease_ok h
  | corePllRelock => exact execCorePllRelock_ok h
  | xtalRecover ppb => exact execXtalRecover_ok h
  | loopBlockReceive run => exact execLoopBlockReceive_ok h

/-- The first tick begins the ticking at frame 0 (R5). -/
theorem ring0_counts {κ : Kept} {s : State} (h : s.Ok κ) (t : Nat) :
    (s.ring0 t).frame.count = 0 ∧ (s.ring0 t).frame.ticking = true := by
  have k2 : ∀ v : State, v.Ok ⟨κ.pending, κ.life, false, false, none, none, none⟩ → v.frame.count = 0 → v.frame.ticking = true →
      v.Ok ⟨κ.pending, κ.life, true, false, none, none, some 0⟩ := fun v k e f =>
    ⟨k.sram, k.flash, k.pending, k.life, k.fusing, fun _ => f, fun x => by simp at x, fun _ x => by simp at x, fun _ x => by simp at x,
      fun y x => by simp at x; omega⟩
  have h0 : (s.swapCopies.setCommit .syncing).Ok ⟨κ.pending, κ.life, false, false, none, none, none⟩ :=
    setCommit_ok (swapCopies_ok ⟨h.sram, h.flash, h.pending, h.life, h.fusing, fun x => by simp at x, fun x => by simp at x,
      fun _ x => by simp at x, fun _ x => by simp at x, fun _ x => by simp at x⟩ rfl)
  unfold State.ring0
  generalize s.swapCopies.setCommit .syncing = u at h0
  dsimp only
  refine (fun z => ⟨z.countIs 0 rfl, z.ticking rfl⟩)
    (begin0_ok (leaveBoot_ok (closeHostLoad_ok (startOffset_ok (setLN_ok (k2 _ ?_ rfl rfl))))) rfl)
  exact ⟨h0.sram, h0.flash, h0.pending, h0.life, h0.fusing, fun x => by simp at x, fun x => by simp at x, fun _ x => by simp at x,
    fun _ x => by simp at x, fun _ x => by simp at x⟩

/-- The next frame's number is one higher (R5). -/
theorem nextFrame_counts {κ : Kept} {s : State} (h : s.Ok κ) (nt : Nat × Nat) : (s.nextFrame nt).tickAll.frame.count = s.frame.count + 1 := by
  refine (tickAll_ok (κ := ⟨κ.pending, κ.life, false, false, none, none, some (s.frame.count + 1)⟩) ?_ rfl).countIs _ rfl
  refine ⟨h.sram, h.flash, h.pending, h.life, h.fusing, fun x => by simp at x, fun x => by simp at x, fun _ x => by simp at x,
    fun _ x => by simp at x, ?_⟩
  intro y x
  simp at x
  exact x

end Sys2Proof.Machine
end

