-- ==== Sys2Proof/Tests/Slice0.lean ====
section
/-! SUPPORT. Small tests whose expected values are the spec's own (its worked cases and tables), the refusal of an ill-formed command by
each check, and for every statement that has hypotheses a state and operands that meet them. -/
open Sys2Proof Sys2Proof.Machine
set_option Elab.async false

/-! ### Ill-formed commands -/

theorem test_illformed_engine : (Instr.inSem 8 0 0).wf = false := by decide
theorem test_illformed_path : (Instr.safeAck (.cupola 8)).wf = false := by decide
theorem test_illformed_mode_code : (Instr.modeReqNotListed .host 6).wf = false := by decide
theorem test_illformed_lane : (Instr.courierSend 32 0).wf = false := by decide
theorem test_illformed_port : (Instr.beaconTransmit 35 0).wf = false := by decide
theorem test_illformed_entry : (Instr.trigOutStart 64).wf = false := by decide
theorem test_illformed_ledger : (Instr.ledgerW0Read 12288).wf = false := by decide
theorem test_illformed_arm : (Instr.maskClear .host 12).wf = false := by decide
theorem test_illformed_gpio : (Instr.gpioLevelAccept 0 4 true 0).wf = false := by decide
theorem test_illformed_domain : (Instr.ptpUnsupportedReceive false 256).wf = false := by decide
theorem test_illformed_key : (Instr.resultLatchRead .host 0x1000000).wf = false := by decide
theorem test_illformed_converter : (Instr.adcPeriodicStart 2).wf = false := by decide
theorem test_illformed_pair : (Instr.pwmWrap 16).wf = false := by decide
theorem test_illformed_trip : (Instr.tripInputAccept 4 true 0).wf = false := by decide
theorem test_illformed_stream : (Instr.measLostExpire 64).wf = false := by decide
theorem test_illformed_slv : (Instr.slvDiscExpire 4).wf = false := by decide
theorem test_illformed_pulse_input : (Instr.wtPulseEdge 2 0).wf = false := by decide
theorem test_illformed_connection : (Instr.sdTxSend 64).wf = false := by decide
theorem test_illformed_test_lane : (Instr.selfTestLDone 34 0).wf = false := by decide
theorem test_illformed_bank : (Instr.bankWakeDone 173).wf = false := by decide
theorem test_illformed_tamper : (Instr.tamperAccept 2).wf = false := by decide
theorem test_illformed_group : (Instr.pendWrite .host 32 0).wf = false := by decide
theorem test_illformed_address : (Instr.tableWriteDiscard 4194304).wf = false := by decide
theorem test_wellformed_bounds : (Instr.ledgerW0Read 12287).wf = true ∧ (Instr.pendWrite .host 31 0).wf = true ∧
    (Instr.selfTestLDone 33 0).wf = true ∧ (Instr.modeReqNotListed .host 4).wf = true := by decide

/-! ### No word spells a command -/

theorem test_no_word : decodeTableWord 64 0x0284004070045700 = none := by decide
theorem test_no_word_placed : State.reset.withFetchWord 8 1 = State.reset := rfl

/-! ### Worked cases of the spec -/

/-- 08_arm_modulation.md, one slot of monopole arm 0: X = 586,744. -/
theorem test_arm_demand : demandX 644245094 15360000 32168 = 586744 := by decide +kernel
/-- The same case: 143 cells, EDGE 1,016, no minimum pulse. -/
theorem test_arm_edge : minPulse 50 1000 (586744 / 4096) (586744 % 4096) 478 = (143, 1016, false) := by decide +kernel
/-- 10_cupola.md, encoding one quad-MAC instruction: the X move loads the pair D0:D1 circularly through A1. -/
theorem test_mac4_x : moveOf 0x40700 = ⟨2, 0, 1, 3, 0⟩ := by decide
/-- The same case: the Y move loads D2:D3 circularly through A5. -/
theorem test_mac4_y : moveOf 0x45700 = ⟨2, 2, 5, 3, 0⟩ := by decide
/-- R242: the product of −1 and −1 in Q31 is 2^63, which lies in the guard range. -/
theorem test_product : product 0x01000000 0x80000000 0x80000000 = 2 ^ 63 ∧ beyond64 (2 ^ 63) = true := by decide
/-- R244: a remainder of exactly 2^31 rounds to even. -/
theorem test_round_even : convert 0x01000000 0x80000000 = (0, false) ∧ convert 0x01000000 0x180000000 = (2, false) := by decide
/-- R244: with FM = 0 a value outside S32 takes the nearer limit. -/
theorem test_convert_limit : convert 0 (-2147483649) = (0x80000000, true) := by decide
/-- R253: in mode 0b11 the address wraps in its buffer: Bn + ((An − Bn + Mn) mod Ln). -/
theorem test_circular : Move.after ⟨1, 0, 0, 3, 0⟩ { EngRegs.reset with
    a := vset EngRegs.reset.a 0 107, m := vset EngRegs.reset.m 0 1, b := vset EngRegs.reset.b 0 100, l := vset EngRegs.reset.l 0 8 } = 100 := by
  decide +kernel
/-- R249, R243: an ADD that overflows with SATD = 1 takes the limit and sets V. -/
theorem test_add_saturates : (opAdd 0x02000000 0x7FFFFFFF 1).1 = 0x7FFFFFFF ∧ (opAdd 0 0x7FFFFFFF 1).1 = 0x80000000 := by decide

/-- 12_control_aids.md, a speed set-point on PULSE_A: five edges 3,200 ns apart in a window of 16 frames of 1,000 ns. -/
def pulsed : State :=
  let s := (((State.reset.setA Obj.TF_NS 1000).setA (Obj.SP_SRC 0) 9).setA (Obj.SP_GATE_FRAMES 0) 16)
  { s with frame := { s.frame with tickC := 100000 }
           aids := { s.aids with pulses := vset s.aids.pulses 0 [100000, 96800, 93600, 90400, 87200, 84000] } }
/-- raw = 671,088,640. -/
theorem test_pulse_raw : (pulsed.spRaw 0).1.raw = 671088640 := by decide +kernel

/-- 22_interrupts.md, a lost cut and a held cause: group 2 holds REUSED, its mask leaves bits 0 to 2 open. -/
def held : State := ((({ State.reset with irq := { State.reset.irq with hclkRuns := true } } : State).setL (Obj.MASK 2) 0xFFFFFFF8).setL Obj.SUMMARY_MASK 0xFFFFFFF8).irqEdge 2 0
/-- The next state of a command, or the state itself. -/
def after (c : Instr) (s : State) : State :=
  match exec c s with
  | .next t => t
  | _ => s
/-- The cut arrives between the read and the write of PEND_2. -/
noncomputable def cutLost : State := after (.pendWrite .host 2 0) ((after (.pendRead .host 2) held).irqEdge 2 2)
theorem test_irq_asserted : held.irqAsserted = true ∧ held.summary = 4 := by decide +kernel
/-- The write erases the cut, is counted as a race, and names path 0, group 2 and bit 2. -/
theorem test_clear_race : cutLost.pendOf 2 = 0 ∧ cutLost.nl Obj.CLEAR_RACE_CNT = 1 ∧ cutLost.nl Obj.LAST_RACE_GRP = 2 ∧
    cutLost.gl Obj.LAST_RACE_BITS = 4 ∧ cutLost.irqAsserted = false := by decide +kernel
/-- MEAS_LATE arrives masked and calls once its mask opens. -/
theorem test_masked_cause : ((cutLost.setL (Obj.MASK 2) 0xFFFFFFFA).irqEdge 2 1).irqAsserted = false ∧
    (((cutLost.setL (Obj.MASK 2) 0xFFFFFFFA).irqEdge 2 1).setL (Obj.MASK 2) 0xFFFFFFF8).irqAsserted = true := by decide +kernel

/-- 20_faults.md, repeats that do not escalate: two LANE_CRC occurrences. -/
def twoCrc : State := (State.reset.raise0 14 1 4 .l false).raise0 14 1 4 .l false
/-- The second is a repeat: the class stays C1 and OCC_CNT[14] reads 2. -/
theorem test_repeat : twoCrc.fSet 14 = true ∧ twoCrc.fEff 14 = 1 ∧ twoCrc.nl (Obj.OCC_CNT 14) = 2 := by decide +kernel
/-- SUSPECT_IN_USE raised while LANE_CRC is still set is latched at C2. -/
theorem test_escalates : (twoCrc.raise0 18 1 0 .n false).fEff 18 = 2 := by decide +kernel

/-- 04_lane_physical.md, R5: the first tick starts the frame count at 0 and the next makes it 1. -/
theorem test_reset_default_tf : State.reset.ga Obj.TF_NS = 1000 := by decide +kernel
/-- R526: the TAP's reset puts IDCODE in force, whose word is 0x19401B2D. -/
theorem test_tap_idcode : (after .tapReset State.reset).jtag.ir = .idcode ∧ (after .tapReset State.reset).jtag.dr = 0x19401B2D := by decide +kernel

/-! ### States and operands that meet the statements' hypotheses -/

/-- A device that has left BOOT: the state after reset, in CHARGE and ticking. -/
def up : State := { State.reset with mode := .charge, frame := { State.reset.frame with ticking := true, count := 5 } }

/-- Engine 0 runs an instance of descriptor 5. -/
def engineOn : State := { up with sched := { up.sched with running := vset up.sched.running 0 (some ⟨0, 5, up.desc 5, 0, 5⟩) } }
/-- Fields of format P: F1 to F4 and no moves. -/
def pWord (f1 f2 f3 : BitVec 4) (f4 : BitVec 3) : PWord := ⟨f1, f2, f3, f4, 0, 0⟩

/-- A boot whose commit is accepted. -/
def accepted : State := { State.reset with boot := { State.reset.boot with step := .validation, accepted := true } }
theorem witness_FrameCommandsComplete_1 : accepted.boot.step = .validation ∧ accepted.boot.accepted = true ∧
    accepted.boot.mirrorWait = false := by decide +kernel
theorem witness_FrameCommandsComplete_2 : up.frame.ticking = true ∧ up.frame.released = false ∧ up.frame.planStopped = false ∧ up.frame.measClosed = false ∧ up.jtagAllowed = true ∧ up.frame.halted = false ∧ up.boot.resetLow = false := by decide +kernel
theorem witness_FrameCommandsComplete_5 : ({ up with frame := { up.frame with cut := true } } : State).frame.cut = true ∧
    up.frame.sent = false ∧ ({ up with frame := { up.frame with halted := true } } : State).frame.halted = true := by decide +kernel

/-- The boot in the step `x`, out of reset. -/
def booting (x : BootStep) : State := { State.reset with boot := { State.reset.boot with
  step := x, resetLow := false, pwrgood := true, marched := false, wtTested := false, loading := 2, submitted := true } }
theorem witness_BootCommandsComplete_1 : ({ up with boot := { up.boot with pwrgood := false } } : State).boot.pwrgood = false ∧
    (booting .clocks).boot.pwrgood = true ∧ (booting .clocks).boot.resetLow = false ∧ (booting .clocks).boot.step = .clocks ∧
    ({ booting .clocks with boot := { (booting .clocks).boot with resetLow := true } } : State).boot.resetLow = true := by decide +kernel
theorem witness_BootCommandsComplete_6 : (booting .fuses).boot.step = .fuses ∧ (booting .march).boot.step = .march ∧
    (booting .lanes).boot.step = .lanes ∧ (booting .march).boot.marched = false ∧ (booting .march).boot.wtTested = false := by decide +kernel
theorem witness_BootCommandsComplete_12 : (booting .headers).boot.step = .headers ∧
    (((booting .headers).noteSlot 0 false).noteSlot 1 false).slotCandidate 0 = false ∧
    (((booting .headers).noteSlot 0 false).noteSlot 1 false).slotCandidate 1 = false := by decide +kernel
theorem witness_BootCommandsComplete_16 : (booting .validation).boot.step = .validation ∧
    (booting .validation).boot.accepted = false := by decide +kernel
/-- The header of the shortest valid image, up to its CRC. -/
def shortHeader : List Byte := [0x53394346, 0x00400003, 1, 0, 0x00090400].flatMap fun n => leBytes 4 n
/-- The shortest valid image: no section, its CRC and the marker. -/
def shortImage : List Byte := shortHeader ++ leBytes 4 (crc32 shortHeader).toNat ++ List.replicate 36 0 ++ leBytes 4 0xA5C33C5A
theorem witness_BootCommandsComplete_15 : ((booting .payload).wrBytes (acqAddr 0) shortImage).imgValid 2 true = true := by
  decide +kernel
theorem witness_BootCommandsComplete_18 : (booting .validation).bootVerdict.1 = 0 := by decide +kernel
theorem witness_BootCommandsComplete_19 : ({ booting .validation with boot := { (booting .validation).boot with bad := some (1, none) } }
    : State).bootVerdict.1 ≠ 0 := by decide +kernel
theorem witness_BootCommandsComplete_9 : ((booting .march).marchCleared.repairRow 3 7).2 = true ∧
    (((booting .march).setBank 3 { (booting .march).bank 3 with repaired := [1, 2, 3, 4] }).marchCleared.repairRow 3 7).2 = false := by
  decide +kernel
/-- A boot that reads the headers, with the shortest image in slot 0. -/
def slotWritten : State := (booting .headers).wrFlash (slotBase 0) shortImage
theorem witness_BootCommandsComplete_11 : slotWritten.boot.step = .headers ∧
    ((slotWritten.noteSlot 0 false).noteSlot 1 false).slotCandidate 0 = true := by decide +kernel

/-- A device in RUN with a request pending. -/
def running : State := { up with mode := .run, modes := { up.modes with req := some 2 } }
theorem witness_ModeRequestsComplete_1 : up.takes Obj.MODE_REQ 1 ∧ up.takes Obj.MODE_REQ 2 ∧ up.takes Obj.MODE_REQ 3 ∧
    up.takes Obj.MODE_REQ 6 ∧ up.takes Obj.MODE_REQ 7 ∧ up.mode ≠ .boot ∧ up.takes Obj.MODE_REQ 0xFF ∧ up.modes.req = none := by
  decide +kernel
theorem witness_ModeRequestsComplete_6 : running.takes Obj.MODE_REQ 0xFF ∧ running.modes.req = some 2 := by decide +kernel
theorem witness_ModeRequestsComplete_8 : up.takes Obj.MODE_REQ (BitVec.ofNat 32 0) ∧ up.takes Obj.MODE_REQ (BitVec.ofNat 32 4) ∧
    up.takes Obj.MODE_REQ (BitVec.ofNat 32 5) := by decide +kernel
theorem witness_ModeRequestsComplete_9 : up.takes Obj.SAFE_ACK 1 := by decide +kernel
theorem witness_ModeRequestsComplete_10 : running.takes Obj.RT_REQ 1 ∧ running.takes Obj.RT_REQ 2 ∧ running.takes Obj.RT_REQ 3 ∧
    running.mode = .run := by decide +kernel

/-- The value `v` passes the checks of lane 3's control register in `s`. -/
def ctrlPasses (s : State) (v : Word) : Bool :=
  decide (s.takes (Obj.LANE_CTRL 3) v) && !ctrlUnlisted 3 v && !s.ctrlRefused 3 (s.gl (Obj.LANE_CTRL 3)) v
theorem witness_LaneControlWritesComplete_1 : ctrlPasses up (w32 (setField (up.nl (Obj.LANE_CTRL 3)) 0 1 1)) = true ∧
    ctrlPasses up (w32 (setField (up.nl (Obj.LANE_CTRL 3)) 0 1 0)) = true ∧
    ctrlPasses up (w32 (setField (up.nl (Obj.LANE_CTRL 3)) 1 2 3)) = true := by decide +kernel
/-- Lane 3 enabled, out of its reset state. -/
def laneOn : State := (up.setLN (Obj.LANE_CTRL 3) 1).setLane 3 { up.lane 3 with st := .cdrAcq }
/-- Lane 3 enabled and in DATA. -/
def laneData : State := (up.setLN (Obj.LANE_CTRL 3) 1).setLane 3 { up.lane 3 with st := .data, eqValid := true }
/-- Lane 3 with the PRBS generator on. -/
def lanePrbs : State := (up.setLN (Obj.LANE_CTRL 3) 0xC1).setLane 3 { up.lane 3 with st := .prbs }
theorem witness_LaneControlWritesComplete_3 : ctrlPasses laneOn (w32 (setField (laneOn.nl (Obj.LANE_CTRL 3)) 6 4 3)) = true ∧
    ctrlPasses laneOn (w32 (setField (laneOn.nl (Obj.LANE_CTRL 3)) 10 3 1)) = true ∧
    ctrlPasses laneData (w32 (setField (laneData.nl (Obj.LANE_CTRL 3)) 4 1 1)) = true ∧
    ctrlPasses laneData (w32 (setField (laneData.nl (Obj.LANE_CTRL 3)) 3 1 1)) = true ∧
    ctrlPasses lanePrbs (w32 (setField (lanePrbs.nl (Obj.LANE_CTRL 3)) 5 1 1)) = true := by decide +kernel

/-- Lane 3 in the state `st`. -/
def laneIn (st : LaneState) : State := (up.setLN Obj.SRCLK_STATUS 3).setLane 3 { up.lane 3 with st := st, fast := true, blockLock := true, prbsLock := true }
theorem witness_LaneTrainingCommandsComplete_1 : ((laneIn .cdrAcq).lane 3).st = .cdrAcq ∧ (laneIn .cdrAcq).srcOk (srcOf 3) = true ∧
    ((laneIn .cdrAcq).lane 3).waiting = false ∧ ((laneIn .cdrAcq).lane 3).fast = true ∧ ((laneIn .cdrAcq).lane 3).training = true := by
  decide +kernel
theorem witness_LaneTrainingCommandsComplete_2 : ((laneIn .eqAdapt).lane 3).st = .eqAdapt := by decide +kernel
theorem witness_LaneTrainingCommandsComplete_3 : ((laneIn .blockAcq).lane 3).st = .blockAcq := by decide +kernel
theorem witness_LaneTrainingCommandsComplete_4 : ((laneIn .trainExch).lane 3).st = .trainExch := by decide +kernel
theorem witness_LaneTrainingCommandsComplete_8 : (((laneIn .data).toC 9).lane 3).st ≠ .disabled ∧
    (((laneIn .data).toC 9).lane 3).looping = false ∧ (laneIn .data).inData 3 = true ∧ ((laneIn .data).lane 3).blockLock = true ∧
    ((laneIn .data).toC 9).srcOk 0 = true ∧ ((laneIn .data).lane 3).prbsLock = true := by decide +kernel
theorem witness_LaneTrainingCommandsComplete_16 : ((laneIn .prbs).setLN (Obj.LANE_CTRL 3) 0x141).checking 3 = true ∧
    prbsClean (((laneIn .prbs).setLN (Obj.LANE_CTRL 3) 0x141).prbsSel 3) 0 = true := by decide +kernel
theorem witness_LaneTrainingCommandsComplete_19 : (up.setA Obj.UPLINK_EN 1).na Obj.UPLINK_EN = 1 ∧
    ((up.setLane 31 { up.lane 31 with blockLock := true }).lane 31).blockLock = true ∧ ((up.lane 31).looping = false) ∧ 64 ≤ 64 := by
  decide +kernel

/-- A device whose lane 31 is in the manifest and in DATA, with this route. -/
def onLane31 (r : Route) : State :=
  let s := (up.setLane 31 { Lane.reset with st := .data }).setRoute 31 r
  { s with routes := { s.routes with manActive := vset s.routes.manActive 31 { Manifest.empty with entries := [0x10000000], slotCount := 1 } } }
/-- A header of a kind for frame 5, with more bits, and its HCRC. -/
def header (kind : Nat) (more : Nat) : BitVec 128 :=
  let h := BitVec.ofNat 128 (0x66 + kind * 256 + 3 * 4096 + 5 * 65536 + more)
  h ||| (headerCrc h).zeroExtend 128 <<< 120
def openTrain : UpTrain := { frame := 5, count := 1, slot := 5, fillCnt := 0, long := true }
theorem witness_UplinkCommandsComplete_1 : up.frame.ticking = true ∧ (up.route 31).train = none ∧
    ({ up with frame := { up.frame with count := up.p } } : State).frame.count = (up.route 31).nextClose + up.p := by decide +kernel
theorem witness_UplinkCommandsComplete_2 : (onLane31 Route.reset).inMan 31 = true ∧ (onLane31 Route.reset).inData 31 = true ∧
    ((onLane31 Route.reset).route 31).train = none ∧ headerOk (header 2 0) 2 = true ∧ ((onLane31 Route.reset).route 31).lastSlot = none ∧
    (onLane31 Route.reset).frame.count < (onLane31 Route.reset).ownFrame (extend32 ((header 2 0).extractLsb' 16 32).toNat
      ((onLane31 Route.reset).pairFrame (onLane31 Route.reset).frame.count)) + (onLane31 Route.reset).p ∧
    (onLane31 Route.reset).ownFrame (extend32 ((header 2 0).extractLsb' 16 32).toNat
      ((onLane31 Route.reset).pairFrame (onLane31 Route.reset).frame.count)) ≤ (onLane31 Route.reset).frame.count := by decide +kernel
theorem witness_UplinkCommandsComplete_3 : (((onLane31 { Route.reset with train := some openTrain }).toC 9).route 31).train = some openTrain ∧
    crc32c ([7].flatMap fun w : Word => leBytes 4 w.toNat) ≠ 0 := by decide +kernel
theorem witness_UplinkCommandsComplete_5 : ((onLane31 { Route.reset with train := some openTrain }).route 31).train = some openTrain := by
  decide +kernel
theorem witness_UplinkCommandsComplete_6 : openTrain.long = true ∧ fld 0x01000000 31 24 = 1 ∧ fld 0x02000000 31 24 = 2 := by decide +kernel
theorem witness_UplinkCommandsComplete_8 : headerOk (header 4 0) 4 = true ∧ fld 0x02000500 31 24 = 2 ∧
    fld 0x02000500 23 8 = ((header 4 0).extractLsb' 16 16).toNat ∧
    replyEotOk (some (eotBlock 4 0 false 5)) ((header 4 0).extractLsb' 16 16).toNat = true := by decide +kernel

/-- A route in service whose one cell has been missing for 16 frames. -/
def missing : State :=
  (onLane31 { Route.reset with st := .inService, missRun := [(0, 16)] }).setA Obj.AUTO_VERIFY 1
theorem witness_DiscoveryCommandsComplete_10 : (missing.man 31).entries[0]? = some 0x10000000 ∧ missing.ga Obj.AUTO_VERIFY = 1 ∧
    missing.reachable 31 = true ∧ (missing.route 31).walk = none ∧ missing.unitMissing 31 (entPath 0x10000000) = true ∧
    ((missing.route 31).holdOff.any fun h => decide (h.path = entPath 0x10000000) && decide (missing.frame.count < h.frame + 1024)) = false := by
  decide +kernel
theorem witness_DiscoveryCommandsComplete_11 : missing.takes (Obj.DISC_CTRL 31) 1 ∧ missing.takes (Obj.DISC_CTRL 31) 2 ∧
    missing.takes (Obj.DISC_CTRL 31) 3 ∧ missing.inMan 31 = true ∧ missing.inData 31 = true ∧ missing.mode = .charge := by decide +kernel
theorem witness_DiscoveryCommandsComplete_13 : ((missing.startWalk 31 .discovering).route 31).walk.isSome = true := by decide +kernel
/-- The device as a grouped unit, and a caravan's header with its T_F. -/
def grouped : State := (missing.setA Obj.UPLINK_EN 1).setLN Obj.TF_ACTIVE_NS 1000
theorem witness_DiscoveryCommandsComplete_14 : (grouped.toC 1).upstream = true ∧ (grouped.toC 1).frame.ticking = true ∧
    headerOk (header 1 (100 * 2 ^ 90)) 1 = true ∧ (grouped.toC 1).routes.upSeen = [] ∧
    eotOk (some (eotBlock 1 0 false 5)) 1 (slotsReceived []).length false ((header 1 (100 * 2 ^ 90)).extractLsb' 16 32).toNat = true ∧
    10 * ((header 1 (100 * 2 ^ 90)).extractLsb' 90 12).toNat = (grouped.toC 1).tf := by decide +kernel
theorem witness_DiscoveryCommandsComplete_15 : headerOk (header 3 (3 * 2 ^ 48)) 3 = true ∧ (header 3 (3 * 2 ^ 48)).extractLsb' 44 2 = 0 ∧
    ((header 3 (3 * 2 ^ 48)).extractLsb' 48 8).toNat = 3 ∧
    ((header 3 (3 * 2 ^ 48)).extractLsb' 64 56).toNat % 512 + ((header 3 (3 * 2 ^ 48)).extractLsb' 64 56).toNat / 512 % 1024 ≤ 512 := by
  decide +kernel

/-- A device with lane 31 in DATA, a courier and a beacon waiting on it. -/
def lane31 : State :=
  let s := up.setLane 31 { Lane.reset with st := .data }
  { s with launch := { s.launch with
      queue := vset s.launch.queue 31 [⟨.hold, false, s.pair.epoch, 0, 0, false, none⟩]
      beacons := vset s.launch.beacons 31 [⟨5, 0, 0, 0, 3⟩], acts := [⟨5, 0, true, true, true, true⟩], trigOut := none } }
theorem witness_CourierAndBeaconCommandsComplete_1 : up.takes Obj.COURIER_REQ 2 ∧ up.takes Obj.COURIER_REQ 3 ∧ up.mode ≠ .boot ∧
    up.mode ≠ .test ∧ up.mode ≠ .safe ∧ up.mode ≠ .mirror ∧ up.pair.role ≠ .standby ∧
    (idxs 32 fun n => nbit (up.nl Obj.COURIER_LANES) n && up.inData n) = [] := by decide +kernel
theorem witness_CourierAndBeaconCommandsComplete_3 :
    vget [] lane31.launch.queue 31 = [⟨.hold, false, up.pair.epoch, 0, 0, false, none⟩] ∧ lane31.inData 31 = true := by decide +kernel
theorem witness_CourierAndBeaconCommandsComplete_4 : up.takes Obj.BEACON_SEND 63 := by decide +kernel
theorem witness_CourierAndBeaconCommandsComplete_5 : vget [] lane31.launch.beacons 31 = [⟨5, 0, 0, 0, 3⟩] ∧
    lane31.beaconPortUp 31 = true ∧ lane31.laneBusy (portLane 31) 0 = false ∧
    vget [] ({ lane31 with launch := { lane31.launch with queue := up.launch.queue } } : State).launch.queue (portLane 31) = [] := by decide +kernel
/-- A BEACON payload of event 63 by source 3, with its BCRC. -/
def beaconBits : BitVec 64 :=
  let x := BitVec.ofNat 64 (0x99 + 63 * 256 + 3 * 2 ^ 49)
  x ||| (crc8 (leBytes 7 x.toNat)).zeroExtend 64 <<< 56
theorem witness_CourierAndBeaconCommandsComplete_6 : lane31.beaconPortUp 31 = true ∧ beaconBits.extractLsb' 0 8 = 0x99 ∧ crc8 (leBytes 7 beaconBits.toNat) = beaconBits.extractLsb' 56 8 ∧
    (beaconOf beaconBits).source ≠ 127 ∧ up.launch.dup.any (Beacon.same (beaconOf beaconBits)) = false ∧
    (beaconOf beaconBits).source ≠ BitVec.ofNat 7 ((up.incL Obj.BEACON_RX_CNT).na Obj.BEACON_SRC_ID) := by decide +kernel
theorem witness_CourierAndBeaconCommandsComplete_7 : (beaconBits ^^^ 256).extractLsb' 0 8 = 0x99 ∧
    crc8 (leBytes 7 (beaconBits ^^^ 256).toNat) ≠ (beaconBits ^^^ 256).extractLsb' 56 8 := by
  decide +kernel
theorem witness_CourierAndBeaconCommandsComplete_8 : nbit ((up.setA Obj.TRIG_IN_CFG 1).na Obj.TRIG_IN_CFG) 0 = true ∧
    nbit ((up.setA Obj.TRIG_IN_CFG 1).na Obj.TRIG_IN_CFG) 1 = !true ∧
    (up.setA Obj.TRIG_IN_CFG 1).launch.trigInLast = none := by decide +kernel
theorem witness_CourierAndBeaconCommandsComplete_9 : lane31.launch.acts = [⟨5, 0, true, true, true, true⟩] ∧ lane31.launch.trigOut = none := by
  decide +kernel
theorem witness_CourierAndBeaconCommandsComplete_10 :
    ({ up with launch := { up.launch with trigOut := some 7 } } : State).launch.trigOut = some 7 := by decide +kernel

/-- A device with the last Ledger entry enabled, of a health, and named by HEALTH_CMD_INDEX. -/
def withEntry (h : Nat) : State :=
  (up.setEntry 12287 ⟨0, 0, 0xC0000000, w32 (0x20008000 + h * 2048)⟩).setLN Obj.HEALTH_CMD_INDEX 12287
theorem witness_LedgerCommandsComplete_1 : (withEntry 1).takes Obj.HEALTH_CMD 1 ∧ (withEntry 1).nl Obj.HEALTH_CMD_INDEX ≤ 12287 ∧
    ((withEntry 1).entry ((withEntry 1).nl Obj.HEALTH_CMD_INDEX)).enabled = true ∧ (withEntry 1).mode ≠ .boot ∧
    ((withEntry 1).entry ((withEntry 1).nl Obj.HEALTH_CMD_INDEX)).health ≠ 3 := by decide +kernel
theorem witness_LedgerCommandsComplete_2 : (withEntry 3).takes Obj.HEALTH_CMD 2 ∧ (withEntry 3).mode = .charge ∧
    ((withEntry 3).entry ((withEntry 3).nl Obj.HEALTH_CMD_INDEX)).enabled = true ∧
    ((withEntry 3).entry ((withEntry 3).nl Obj.HEALTH_CMD_INDEX)).status 14 = false := by decide +kernel
theorem witness_LedgerCommandsComplete_3 : (withEntry 0).takes Obj.HEALTH_CMD 3 ∧
    ((withEntry 0).entry ((withEntry 0).nl Obj.HEALTH_CMD_INDEX)).enabled = true ∧
    ((withEntry 0).entry ((withEntry 0).nl Obj.HEALTH_CMD_INDEX)).health = 0 := by decide +kernel
theorem witness_LedgerCommandsComplete_4 : up.takes Obj.CFG_WORD 0x20008000 := by decide +kernel

/-- A device in TEST; its arm 11 with a mask in mode 2 on GPIO 3. -/
def inTest : State :=
  { ((up.setA (Obj.MASK_MODE 11) 2).setA (Obj.MASK_SRC 11) 8).setArm 0 { Arm.reset with deferred := some ⟨1, 0, 0, []⟩ } with mode := .test }
theorem witness_ArmCommandsComplete_1 : inTest.takes (Obj.FORCE_CTRL 11) (2 &&& 0x7F) ∧
    inTest.checkForce 11 (inTest.pendingForce 11 (fld (2 &&& 0x7F) 2 0)) = 1 := by decide +kernel
theorem witness_ArmCommandsComplete_2 : inTest.takes (Obj.FORCE_CTRL 11) (2 &&& 0x7F ||| 0x80) ∧
    inTest.checkForce 11 (inTest.pendingForce 11 (fld (2 &&& 0x7F ||| 0x80) 2 0)) = 1 := by decide +kernel
theorem witness_ArmCommandsComplete_3 : inTest.takes (Obj.FORCE_CTRL 0) 0 ∧ inTest.checkForce 0 (inTest.pendingForce 0 0) = 1 := by
  decide +kernel
theorem witness_ArmCommandsComplete_4 : inTest.takes (Obj.FORCE_COMMIT_ALL 11) 1 ∧ (inTest.arm 0).deferred = some ⟨1, 0, 0, []⟩ ∧
    (∀ b, b < 12 → 1 ≤ b → (inTest.arm b).deferred = none) := by decide +kernel
theorem witness_ArmCommandsComplete_5 : inTest.mode ≠ .boot ∧ nbit (inTest.na (Obj.MASK_SRC 11)) 3 = true := by decide +kernel
theorem witness_ArmCommandsComplete_6 : inTest.takes (Obj.MASK_CLEAR 11) 1 ∧ inTest.na (Obj.MASK_MODE 11) = 2 ∧ inTest.maskInput 11 = false := by
  decide +kernel

/-- The fields of the spec's worked MAC4, with both its moves. -/
def mac4 : PWord := ⟨0, 8, 0, 0, 0x40700, 0x45700⟩
/-- The same moves beside an operation that writes D15 or D4. -/
def toD15 : PWord := ⟨15, 8, 0, 0, 0x40700, 0x45700⟩
/-- A word of format P with an opcode and fields. -/
def pBits (op : Nat) (x : PWord) : BitVec 64 := BitVec.ofNat 64 (op * 2 ^ 55 + x.f1.toNat * 2 ^ 51 + x.f2.toNat * 2 ^ 47
  + x.f3.toNat * 2 ^ 43 + x.f4.toNat * 2 ^ 40 + x.mx.toNat * 2 ^ 20 + x.my.toNat)
theorem witness_AccumulatorInstructionsComplete : engineOn.canIssue 0 = true ∧
    (∀ op ∈ [0, 1, 2, 3, 4, 5, 6, 8, 9, 0xA, 0xB, 0xC, 0xD, 0xF, 0x10, 0x11, 0x1F],
      opOf (pBits op mac4) = op ∧ PWord.of (pBits op mac4) = mac4 ∧
      movesFault ((engineOn.issue 0 0 (pBits op mac4)).eng 0).r (moveOf mac4.mx) (moveOf mac4.my) none = 0) ∧
    (3 : BitVec 3).toNat < 4 ∧ (12 : BitVec 4).toNat % 4 = 0 := by decide +kernel
theorem witness_DataInstructionsComplete : engineOn.canIssue 0 = true ∧
    (∀ op ∈ [0xE, 0x18, 0x19, 0x1A, 0x1B, 0x1D, 0x1E, 0x20, 0x21, 0x22, 0x23, 0x28, 0x29, 0x2A],
      opOf (pBits op toD15) = op ∧ PWord.of (pBits op toD15) = toD15 ∧
      movesFault ((engineOn.issue 0 0 (pBits op toD15)).eng 0).r (moveOf toD15.mx) (moveOf toD15.my) (some 15) = 0) := by decide +kernel
theorem witness_ShiftInstructionsComplete : engineOn.draw.2.canIssue 0 = true ∧
    (∀ op ∈ [0x1C, 0x24, 0x25, 0x26, 0x27],
      opOf (pBits op toD15) = op ∧ PWord.of (pBits op toD15) = toD15 ∧
      movesFault ((engineOn.draw.2.issue 0 0 (pBits op toD15)).eng 0).r (moveOf toD15.mx) (moveOf toD15.my) (some 15) = 0) := by decide +kernel
/-- A word of format I with an opcode, RA and an immediate. -/
def iBits (op ra imm : Nat) : BitVec 64 := BitVec.ofNat 64 (2 ^ 62 + (op - 256) * 2 ^ 56 + ra * 2 ^ 52 + imm)
theorem witness_ImmediateInstructionsComplete : engineOn.canIssue 0 = true ∧
    (∀ op ∈ [0x101, 0x102, 0x103, 0x104, 0x105, 0x106, 0x108, 0x109, 0x10A, 0x10B, 0x10C, 0x112, 0x113],
      opOf (iBits op 0 9) = op ∧ IWord.of (iBits op 0 9) = ⟨0, 0, 0, 0, 0, 9⟩) ∧
    opOf (iBits 0x110 7 0) = 0x110 ∧ fileOk (IWord.of (iBits 0x110 7 0)).fa 7 = true := by decide +kernel

/-- A word of format C with an opcode, COND, CNT and a target. -/
def cBits (op cond cnt target : Nat) : BitVec 64 := BitVec.ofNat 64 (2 ^ 63 + (op - 512) * 2 ^ 56 + cond * 2 ^ 52 + cnt * 2 ^ 32 + target)
theorem witness_ControlInstructionsComplete_0 : ∀ op ∈ [0x201, 0x202, 0x203, 0x204, 0x205, 0x20C, 0x20D, 0x20E, 0x20F],
    opOf (cBits op 0 3 9) = op ∧ CWord.of (cBits op 0 3 9) = ⟨0, 0, 3, 0, 9⟩ ∧ CWord.of (cBits op 0 0 0) = ⟨0, 0, 0, 0, 0⟩ := by decide +kernel
theorem witness_ControlInstructionsComplete_1 : engineOn.canIssue 0 = true ∧ ((engineOn.issue 0 0 (cBits 0x201 0 0 9)).eng 0).r.atEnd = false ∧
    condHolds ((engineOn.issue 0 0 (cBits 0x201 0 0 9)).eng 0).r.flg 0 = true ∧ condHolds ((engineOn.issue 0 0 (cBits 0x201 0 0 9)).eng 0).r.flg 1 = false ∧
    ((engineOn.issue 0 0 (cBits 0x201 0 0 9)).eng 0).r.rets.length < 8 ∧ loopFault 9 3 ((engineOn.issue 0 0 (cBits 0x201 0 0 9)).eng 0).r = 0 ∧
    loopFault 9 ((((engineOn.issue 0 0 (cBits 0x201 0 0 9)).eng 0).r.rd 2).toNat % 65536) ((engineOn.issue 0 0 (cBits 0x201 0 0 9)).eng 0).r = 0 ∧
    (engineOn.issue 0 0 (cBits 0x201 0 0 9)).jtagAllowed = true ∧ (engineOn.running 0).isSome = true := by decide +kernel
/-- The same with a return address on the stack, in a deployed device. -/
def engineCalled : State :=
  { (engineOn.setEng 0 { engineOn.eng 0 with r := { (engineOn.eng 0).r with rets := [7] } }) with mem := { engineOn.mem with life := .deployed } }
theorem witness_ControlInstructionsComplete_5 : engineCalled.canIssue 0 = true ∧ ((engineCalled.issue 0 0 (cBits 0x201 0 0 9)).eng 0).r.atEnd = false ∧
    ((engineCalled.issue 0 0 (cBits 0x201 0 0 9)).eng 0).r.rets = [7] ∧ condHolds ((engineCalled.issue 0 0 (cBits 0x201 0 0 9)).eng 0).r.flg 0 = true ∧
    (engineCalled.issue 0 0 (cBits 0x201 0 0 9)).jtagAllowed = false := by decide +kernel
theorem witness_ControlInstructionsComplete_9 : ((engineOn.issue 0 0 (cBits 0x201 0 0 9)).running 0).isSome = true := by decide +kernel
theorem witness_ControlInstructionsComplete_10 : ((engineOn.raiseAs 2 (engineOn.faultClass 2) 0 .k).running 0).isSome = true := by decide +kernel

/-- An IN or OUT of D3 with a port. -/
def portBits (op port : Nat) : BitVec 64 := BitVec.ofNat 64 (2 ^ 63 + (op - 512) * 2 ^ 56 + 3 * 2 ^ 48 + port * 2 ^ 32)
theorem witness_PortInstructionsComplete_0 : (∀ p ∈ [0, 11, 0x10, 0x1B, 0x20, 0x21, 0x30, 0x3F, 0x40, 0x4F, 0x60, 0x80, 0x81, 0x70],
      opOf (portBits 0x209 p) = 0x209 ∧ portOk (PortWord.of (portBits 0x209 p)) = true ∧ (PortWord.of (portBits 0x209 p)).port.toNat = p) ∧
    (∀ p ∈ [0x22, 0x23, 0x24, 0x25, 0x26, 0x27, 0x28, 0x40, 0x4F, 0x81, 0x82, 7],
      opOf (portBits 0x208 p) = 0x208 ∧ portOk (PortWord.of (portBits 0x208 p)) = true ∧ (PortWord.of (portBits 0x208 p)).port.toNat = p) := by
  decide +kernel
theorem witness_PortInstructionsComplete_1 : engineOn.canIssue 0 = true ∧ inListed 7 = false ∧ outListed 0x70 = false ∧
    ((engineOn.issue 0 0 (portBits 0x208 0x27)).running 0).isSome = true ∧
    fld (((engineOn.setA (Obj.LANTERN_PROBE 2) 0x10000000).issue 0 0 (portBits 0x209 0x32)).ga (Obj.LANTERN_PROBE 2)) 31 28 = 1 := by decide +kernel
theorem witness_PortInstructionsComplete_2 : up.mode ≠ .run ∧ up.mode ≠ .ridethrough ∧
    vget none (vset up.cup.progLatch 0 (some (progAddr 2 7, 5))) 0 = some (progAddr 2 7, 5) := by decide +kernel

/-- A device in which a commit is in the given state. -/
def committing (c : CommitState) : State := { up with commit := { up.commit with st := c } }
theorem witness_CommitCommandsComplete_1 : up.takes Obj.COMMIT_REQ 1 ∧ up.commit.st = .opened ∧ (1 : Word) ≠ 0 ∧
    (1 : Word) = up.gl Obj.COMMIT_SEQ + 1 ∧ up.takes Obj.COMMIT_REQ 2 ∧ (2 : Word) ≠ up.gl Obj.COMMIT_SEQ + 1 ∧
    up.takes Obj.COMMIT_REQ 0 := by decide +kernel
theorem witness_CommitCommandsComplete_3 : (committing .pending).takes Obj.COMMIT_REQ 1 ∧ (committing .pending).commit.st ≠ .opened := by
  decide +kernel
theorem witness_CommitCommandsComplete_5 : (committing .validating).commit.st = .validating ∧
    ((committing .validating).verdict false).1 = 0 := by decide +kernel
theorem witness_CommitCommandsComplete_7 : (committing .syncing).commit.st = .syncing := rfl

/-- A device with one descriptor, number 9, of a class: enabled, engine 0, in every mode. -/
def withDesc (cls : Nat) : State :=
  { up with sched := { up.sched with active := [(9, ⟨w32 (2147483648 + cls * 536870912 + 65536), 0xFF000000, 3, 5⟩)] } }
/-- An instance of it. -/
def inst9 : Inst := ⟨7, 9, ⟨w32 (2147483648 + 3 * 536870912 + 65536), 0xFF000000, 3, 5⟩, 0, 5⟩
/-- Engine 0 in a phase of a switch, with an instance running or not. -/
def phase (x : Option Entering) (r : Option Inst) : State :=
  { up with sched := { up.sched with entering := vset up.sched.entering 0 x, running := vset up.sched.running 0 r,
                                     slot := vset up.sched.slot 0 (some 7), refill := vset up.sched.refill 0 (some 7) } }
theorem witness_SchedulerCommandsComplete_1 : (withDesc 3).takes Obj.HOST_RELEASE 9 ∧ ((withDesc 3).desc 9).cls = 3 ∧
    ((withDesc 3).desc 9).en = true ∧ ((withDesc 3).desc 9).allows (withDesc 3).mode = true ∧ (withDesc 3).shed 9 = false ∧
    (withDesc 3).outstanding 9 ≤ ((withDesc 3).desc 9).qdepth ∧ (withDesc 3).sched.pool.length < 64 := by decide +kernel
theorem witness_SchedulerCommandsComplete_2 : (withDesc 2).takes Obj.DELAY_ARM 9 ∧ ((withDesc 2).desc (fld 9 7 0)).cls = 2 ∧
    ((withDesc 2).desc (fld 9 7 0)).en = true ∧ (withDesc 2).delayLeft (fld 9 7 0) = none ∧ (withDesc 2).sched.delays.length < 64 := by
  decide +kernel
theorem witness_SchedulerCommandsComplete_3 : ({ up with sched := { up.sched with delays := [(9, 4)] } } : State).takes Obj.DELAY_CANCEL 9 ∧
    ({ up with sched := { up.sched with delays := [(9, 4)] } } : State).delayLeft (9 : Word).toNat = some 4 := by decide +kernel
theorem witness_SchedulerCommandsComplete_4 : State.reset.takes Obj.DESC_W3 5 := by decide +kernel
theorem witness_SchedulerCommandsComplete_5 : up.engEnabled 0 = true ∧ (phase (some (.select inst9)) (some inst9)).entering 0 = some (.select inst9) ∧
    (phase (some (.select inst9)) (some inst9)).running 0 = some inst9 := by decide +kernel
theorem witness_SchedulerCommandsComplete_6 : (phase (some (.select inst9)) none).entering 0 = some (.select inst9) ∧
    (phase (some (.select inst9)) none).running 0 = none := by decide +kernel
theorem witness_SchedulerCommandsComplete_7 : vget none (phase none none).sched.refill 0 = some 7 := by decide +kernel
theorem witness_SchedulerCommandsComplete_8 : (phase (some (.save inst9)) (some inst9)).entering 0 = some (.save inst9) ∧
    (phase (some (.save inst9)) (some inst9)).running 0 = some inst9 := by decide +kernel
theorem witness_SchedulerCommandsComplete_9 : (phase (some (.load inst9)) none).entering 0 = some (.load inst9) ∧
    vget none (phase (some (.load inst9)) none).sched.slot 0 = some inst9.id := by decide +kernel
/-- Engine 0 with a saved context, or with a cycle count. -/
def engine0 (x : Engine) : State := (phase (some .restore) (some inst9)).setEng 0 x
theorem witness_SchedulerCommandsComplete_10 :
    (engine0 { Engine.reset with saved := [⟨inst9, Engine.reset.r⟩] }).entering 0 = some .restore ∧
    ((engine0 { Engine.reset with saved := [⟨inst9, Engine.reset.r⟩] }).eng 0).saved = [⟨inst9, Engine.reset.r⟩] := by decide +kernel
theorem witness_SchedulerCommandsComplete_11 :
    (engine0 { Engine.reset with r := { Engine.reset.r with cycles := 6 } }).running 0 = some inst9 ∧ inst9.words.cycWarn ≠ 0 ∧
    inst9.words.cycWarn < ((engine0 { Engine.reset with r := { Engine.reset.r with cycles := 6 } }).eng 0).r.cycles ∧
    ((engine0 { Engine.reset with r := { Engine.reset.r with cycles := 6 } }).eng 0).r.warned = false := by decide +kernel

theorem witness_AidsAndCutCommandsComplete_1 : up.takes Obj.AIDS_STICKY 5 ∧ up.takes (Obj.NOTCH_RESTART 11) 1 := by decide +kernel
theorem witness_AidsAndCutCommandsComplete_4 : up.takes Obj.LANTERN_CMD 1 ∧ up.mem.march = none ∧ up.aids.lantern.trigsAt ≠ up.frame.count ∧ up.takes Obj.LANTERN_CMD 3 ∧
    up.takes Obj.LANTERN_CMD 4 := by decide +kernel
/-- A device whose Lantern runs, with a beacon of event 63 to act on. -/
def lanternRuns : State :=
  { up with aids := { up.aids with lantern := { up.aids.lantern with st := .running } }
            launch := { up.launch with acts := [⟨63, 0, true, true, true, false⟩] } }
theorem witness_AidsAndCutCommandsComplete_5 : lanternRuns.takes Obj.LANTERN_CMD 2 ∧ lanternRuns.aids.lantern.st = .running ∧
    lanternRuns.aids.lantern.trigsAt ≠ lanternRuns.frame.count ∧ lanternRuns.frame.ticking = true := by
  decide +kernel
theorem witness_AidsAndCutCommandsComplete_8 : lanternRuns.launch.acts = [⟨63, 0, true, true, true, false⟩] ∧
    (63 : BitVec 6).toNat = (63 : Fin 64).val := by decide +kernel
theorem witness_AidsAndCutCommandsComplete_9 : up.frame.ticking = true ∧ up.frame.cut = false := by decide +kernel

/-- A device whose domain 1 follows port EN3 on PTP domain 7, in a state. -/
def ptp (x : Dom) (y : PtpPort) : State :=
  ((((up.setA (Obj.DOM_EN 1) 1).setA (Obj.PORTS 1) 3).setA (Obj.PTP_DOMAIN 1) 7).setDom 1 x).setPtp true y
def port0 : PtpPort := { reqSeq := 9, reqT1 := some 5, resp := some (9, 6, 8), meanPath := 0, reqSent := none, respSent := [] }
theorem witness_TimeCommandsComplete_1 :
    ((ptp { Dom.reset with portChosen := true, port3 := true } port0).toL 3).ptpDom true 7 = some 1 ∧
    (((ptp { Dom.reset with portChosen := true, port3 := true } port0).toL 3).dom 1).portChosen = true ∧
    (((ptp { Dom.reset with portChosen := true, port3 := true } port0).toL 3).dom 1).port3 = true := by decide +kernel
theorem witness_TimeCommandsComplete_2 : (ptp { Dom.reset with sync := some (true, 4, 5, 6), portChosen := true, port3 := true } port0).ptpDom true 7 = some 1 ∧
    ((ptp { Dom.reset with sync := some (true, 4, 5, 6), portChosen := true, port3 := true } port0).dom 1).sync = some (true, 4, 5, 6) := by decide +kernel
theorem witness_TimeCommandsComplete_3 : ((ptp Dom.reset port0).dom 1).portChosen = false ∧ ((ptp Dom.reset port0).dom 1).stepped = false ∧
    ((ptp Dom.reset port0).dom 1).keeps true 7 5 = false ∧ ((ptp Dom.reset port0).dom 1).master2 = none := by decide +kernel
theorem witness_TimeCommandsComplete_5 : ((ptp Dom.reset port0).toL 3).ptpPortOn true = true ∧
    ((ptp Dom.reset port0).toL 3).ptpDom true 7 = some 1 ∧ ((ptp Dom.reset port0).toL 3).portDom true = some 0 := by decide +kernel
theorem witness_TimeCommandsComplete_6 : (((ptp Dom.reset port0).toL 3).ptpPort true).reqT1 = some 5 := by decide +kernel
theorem witness_TimeCommandsComplete_7 : ((ptp Dom.reset port0).ptpPort true).reqT1 = some 5 ∧
    ((ptp Dom.reset port0).ptpPort true).resp = some (9, 6, 8) := by decide +kernel
theorem witness_TimeCommandsComplete_11 : ((ptp { Dom.reset with st := .holdover, wasLocked := true } port0).dom 1).st = .holdover ∧
    ((ptp { Dom.reset with st := .holdover, wasLocked := true } port0).dom 1).wasLocked = true ∧
    ((ptp { Dom.reset with st := .holdover, wasLocked := true } port0).dom 1).expired = false := by decide +kernel
theorem witness_TimeCommandsComplete_12 : nbit ((up.setA Obj.PPS_IN_CFG 1).na Obj.PPS_IN_CFG) 0 = true ∧ up.time.ppsLast = none ∧
    (up.setA Obj.PPS_IN_CFG 1).ppsMode 0 = false ∧ nbit ((up.setA Obj.PPS_IN_CFG 1).na Obj.PPS_IN_CFG) 1 = false ∧
    (((up.setA Obj.PPS_OUT_SRC 1).setA Obj.PPS_OUT_FREE 1).ppsDriven = true) ∧
    ({ up with time := { up.time with ppsOut := true } } : State).time.ppsOut = true ∧ (up.dom 1).lastOff ≠ some up.nowL := by decide +kernel

/-- Reports running, with no older settings owed. -/
def reporting : State := { up with phasor := { up.phasor with running := true, old := [], nextAt := 0 } }
theorem witness_PhasorCommandsComplete_1 : reporting.phTick = reporting ∧ reporting.phasor.old = [] ∧ reporting.phasor.running = true ∧
    reporting.phasor.win.due = [] ∧
    ({ reporting with phasor := { reporting.phasor with win := { reporting.phasor.win with due := [(7, 0)] } } } : State).phasor.win.due = [(7, 0)] ∧
    0 ≤ reporting.nowC ∧
    instantNs ((reporting.toC 60000000).phSet.instant reporting.phasor.nextAt) + (reporting.toC 60000000).phSet.latency
      ≤ (reporting.toC 60000000).time64 (reporting.toC 60000000).nowC := by decide +kernel
/-- A tag waits in wave-tag unit 3. -/
def tagged : State := up.setWave 3 { up.wave1 3 with tags := [(7, 9)] }
theorem witness_PhasorCommandsComplete_2 : (tagged.wave1 3).tags = [(7, 9)] ∧
    nbit (tagged.ga (Obj.WT_CFG 3)).toNat 28 = false := by decide +kernel

/-- Reset with the engine in PRETRIG, a block waiting or not and its bank on. -/
def acquiring (l : List AcqBlock) : State :=
  { (up.setBank 35 { up.bank 35 with pwr := .on }) with acq := { up.acq with st := .pretrig, fifo := l } }
theorem witness_AcquisitionCommandsComplete_1 : up.takes Obj.ACQ_CMD 1 ∧ up.takes Obj.ACQ_CMD 2 ∧ up.takes Obj.ACQ_CMD 4 := by
  decide +kernel
theorem witness_AcquisitionCommandsComplete_3 : (acquiring []).takes Obj.ACQ_CMD 3 ∧ (acquiring []).acq.st = .pretrig := by decide +kernel
theorem witness_AcquisitionCommandsComplete_5 : (acquiring []).acqReady (acquiring []).acqNextFrame = true ∧
    ((acquiring []).acq.fifo.map fun b => b.bytes.length).sum + (acquiring []).acqB ≤ 1024 := by decide +kernel
theorem witness_AcquisitionCommandsComplete_6 : (acquiring [⟨5, []⟩]).acq.fifo = [⟨5, []⟩] ∧
    ((acquiring [⟨5, []⟩]).bank ((acquiring [⟨5, []⟩]).acqSlotAddr (acquiring [⟨5, []⟩]).acq.wrSlot / 65536)).pwr = .on ∧
    (acquiring [⟨5, []⟩]).acq.trig = none := by decide +kernel

/-- Reset with converter 0 doing this. -/
def converting (w : AdcWork) : State := State.reset.setConv 0 { Adc.reset with work := w, regSeq := [2, 3] }
theorem witness_ConverterCommandsComplete_1 : State.reset.takes (Obj.ADC_CTRL 1) (w32 (1 + 2 * b2n true)) ∧
    (State.reset.conv 1).work = .idle ∧ (State.reset.conv 1).regRun = false := by decide +kernel
theorem witness_ConverterCommandsComplete_2 : (converting .reg).takes (Obj.ADC_CTRL 0) 4 ∧ ((converting .reg).conv 0).work = .reg := by
  decide +kernel
theorem witness_ConverterCommandsComplete_3 : State.reset.takes (Obj.ADC_CTRL 1) (w32 (8 + 2 * b2n false)) ∧
    (State.reset.conv 1).calPending = false := by decide +kernel
/-- Reset with a period on converter 0 under CONT. -/
def periodic : State := (State.reset.setConv 0 { Adc.reset with cont := true, startL := some 0 }).setA (Obj.REG_PERIOD_NS 0) 5000
theorem witness_ConverterCommandsComplete_4 : (periodic.conv 0).cont = true ∧ (periodic.conv 0).startL = some 0 ∧
    periodic.na (Obj.REG_PERIOD_NS 0) ≠ 0 ∧ (periodic.conv 0).regRun = false ∧ (periodic.conv 0).startWait = false ∧
    (periodic.conv 0).softWait = false ∧ (periodic.conv 0).work = .idle := by decide +kernel
theorem witness_ConverterCommandsComplete_5 : ((converting .reg).conv 0).work = .reg ∧
    filtEn ((converting .reg).ga (Obj.FILT_CFG 0 (((converting .reg).conv 0).regSeq.getD ((converting .reg).conv 0).regEntry 0))) = false := by
  decide +kernel
theorem witness_ConverterCommandsComplete_6 : ((converting .cal).conv 0).work = .cal := by decide +kernel
theorem witness_ConverterCommandsComplete_7 :
    ({ State.reset with adc := { State.reset.adc with claimed := true } } : State).adc.claimed = true := by decide +kernel

/-- Pair 3 running. -/
def pairRuns (x : PwmPair) : State := up.setPair 3 { x with running := true, ref := true, dtH := true, active := 0x00640032 }
theorem witness_LocalPwmCommandsComplete_1 : ((pairRuns PwmPair.reset).pwmPair 3).running = true ∧
    ((pairRuns PwmPair.reset).pwmPair 3).wrapAt = some 101 ∧
    (pairRuns PwmPair.reset).frame.halted = false ∧ ((pairRuns PwmPair.reset).pwmPair 3).ref = true ∧
    ((pairRuns PwmPair.reset).pwmPair 3).duty ≤ ((pairRuns PwmPair.reset).pwmPair 3).periodM1 ∧
    (((pairRuns PwmPair.reset).pwmPair 3).dtH || ((pairRuns PwmPair.reset).pwmPair 3).dtL) = true := by decide +kernel
theorem witness_LocalPwmCommandsComplete_4 : up.takes (Obj.PWM_TIMING 15) 0x00640032 ∧ fld 0x00640032 31 16 ≠ 0 ∧
    nbit (up.na (Obj.PAIR_CFG 15)) 4 = false := by decide +kernel
theorem witness_LocalPwmCommandsComplete_5 : up.takes (Obj.PWM_FORCE 15) 2 ∧ (2 : Word) ≠ 3 := by decide +kernel
theorem witness_LocalPwmCommandsComplete_6 : up.takes (Obj.PAIR_CTRL 15) 1 := by decide +kernel
theorem witness_LocalPwmCommandsComplete_7 : (pairRuns PwmPair.reset).takes (Obj.PAIR_CTRL 3) 2 ∧
    ((pairRuns PwmPair.reset).pwmPair 3).wrapAt ≠ none := by decide +kernel
theorem witness_LocalPwmCommandsComplete_8 : up.takes Obj.PWM_SYNC_START 0x8001 := by decide +kernel
theorem witness_LocalPwmCommandsComplete_9 : up.takes Obj.TRIP_CLEAR 15 ∧
    ((List.range 4).any fun n => nbit (15 : Word).toNat n && nbit up.pwm.level.toNat n) = false := by decide +kernel
theorem witness_LocalPwmCommandsComplete_10 : nbit (up.toC (7 + up.na (Obj.TRIP_FILT_NS 3))).pwm.level.toNat 3 = false := by decide +kernel

theorem witness_SafetyWritesComplete_5 : ({ State.reset with wt := { State.reset.wt with sw := some ⟨0, 0, 0, none, 0⟩ }, time := { State.reset.time with l := 2000000 } } : State).nowL = 2000000 ∧
    swPath (.cupola 0) = false := by decide +kernel
/-- A sequence open on the Host Port for SLS_REACT, with a value or none. -/
def opened (x : Option Word) : State := { up with wt := { up.wt with sw := some ⟨0, 0x2B3806, 0x1234, x, 0⟩ } }
theorem witness_SafetyWritesComplete_1 : up.takes Obj.SW_OPEN 0x2B3806 ∧ swPath .host = true ∧ up.wt.sw = none ∧
    isClassK (0x2B3806 : Word).toNat = true := by decide +kernel
theorem witness_SafetyWritesComplete_2 : (opened none).boot.resetLow = false ∧ (opened none).wt.sw = some ⟨0, 0x2B3806, 0x1234, none, 0⟩ ∧
    (opened none).nowL ≤ 0 + 1000000 ∧
    pathNum .host = 0 ∧ ((rowOf 0x2B3806).map fun x => (x.1.cls == .k) && x.1.ty.fits 1 && x.1.rng.ok (1 &&& w32 x.1.bits)) = some true := by
  decide +kernel
theorem witness_SafetyWritesComplete_3 : (opened (some 1)).takes Obj.SW_CONFIRM (crc32c (swBytes ⟨0, 0x2B3806, 0x1234, some 1, 0⟩ 1)) ∧
    (opened (some 1)).wt.sw = some ⟨0, 0x2B3806, 0x1234, some 1, 0⟩ ∧ (opened (some 1)).nowL ≤ 0 + 1000000 ∧ 0x2B3806 ≠ Obj.SBK_RESET ∧ 0x2B3806 ≠ Obj.TEST_PERMIT ∧
    0x2B3806 ≠ Obj.DEBUG_PERMIT := by decide +kernel

/-- A ticking device with Watchtower objects set, and a connection in a state. -/
def guarded (l : List (Nat × Word)) (c : Conn) : State :=
  (l.foldl (fun (s : State) x => s.setK x.1 x.2) { up with wt := { up.wt with slvDisc := 2, supervised := [6], lostRun := [(6, 9)] } }).setConn 5 c
theorem witness_WatchtowerEventsComplete_3 : ({ up with wt := { up.wt with outA := false, outB := false } } : State).wt.outB = false ∧ up.power.safeOut = false ∧
    nbit ((guarded [(Obj.WT_FUNC_EN, 15)] Conn.reset).nk Obj.WT_FUNC_EN) 3 = true := by decide +kernel
theorem witness_WatchtowerEventsComplete_6 : (guarded [(Obj.WT_FUNC_EN, 15)] Conn.reset).frame.ticking = true ∧
    nbit ((guarded [(Obj.WT_FUNC_EN, 15)] Conn.reset).nk Obj.WT_FUNC_EN) 0 = true ∧
    (guarded [(Obj.WT_FUNC_EN, 15)] Conn.reset).wt.hbSuspended = false := by decide +kernel
theorem witness_WatchtowerEventsComplete_8 : (guarded [(Obj.WT_FUNC_EN, 15), (Obj.SLC_STREAM 0, 6), (Obj.SLC_REACT 0, 2)] Conn.reset).streamLost 6
    = true := by decide +kernel
theorem witness_WatchtowerEventsComplete_9 : nbit (guarded [(Obj.SLV_REACT 1, 2)] Conn.reset).wt.slvDisc.toNat 1 = true ∧
    (guarded [(Obj.SLV_REACT 1, 2)] Conn.reset).nk (Obj.SLV_REACT 1) = 2 := by decide +kernel
theorem witness_WatchtowerEventsComplete_10 : State.reset.frame.ticking = false ∧ (vget ⟨none, none, 0⟩ State.reset.wt.sls 1).last = none := by
  decide +kernel
theorem witness_WatchtowerEventsComplete_11 :
    ({ up with wt := { up.wt with slsTimeout := bset up.wt.slsTimeout 1 true } } : State).slsDiffer = true := by decide +kernel
theorem witness_WatchtowerEventsComplete_12 :
    ({ guarded [(Obj.SLS_REACT, 2)] Conn.reset with wt := { up.wt with slsTimeout := 2 } } : State).slsDiffer = true ∧
    (guarded [(Obj.SLS_REACT, 2)] Conn.reset).nk Obj.SLS_REACT = 2 := by decide +kernel
theorem witness_WatchtowerEventsComplete_13 : (guarded [(Obj.CONN_CFG 5, 0x90000000)] Conn.reset).connEn 5 = true ∧
    (guarded [(Obj.CONN_CFG 5, 0x90000000)] Conn.reset).connTx 5 = false ∧
    (guarded [(Obj.CONN_CFG 5, 0x90000000)] Conn.reset).connPar 5 = false := by decide +kernel
theorem witness_WatchtowerEventsComplete_14 : (guarded [(Obj.CONN_CFG 5, 0xA0000000)] Conn.reset).connPar 5 = true ∧
    ((guarded [(Obj.CONN_CFG 5, 0xA0000000)] Conn.reset).conn 5).half = none := by decide +kernel
theorem witness_WatchtowerEventsComplete_15 : ((guarded [] { Conn.reset with half := some (true, []) }).conn 5).half.isSome = true := by
  decide +kernel
theorem witness_WatchtowerEventsComplete_16 : (guarded [(Obj.CONN_CFG 5, 0x90000000)] { Conn.reset with st := .run }).connRx1 5 = true ∧
    ((guarded [(Obj.CONN_CFG 5, 0x90000000)] { Conn.reset with st := .run }).conn 5).st = .run := by decide +kernel
theorem witness_WatchtowerEventsComplete_17 : (guarded [(Obj.CONN_CFG 5, 0xC0000000)] Conn.reset).connEn 5 = true ∧
    (guarded [(Obj.CONN_CFG 5, 0xC0000000)] Conn.reset).connTx 5 = true ∧
    ((guarded [(Obj.CONN_CFG 5, 0xC0000000)] Conn.reset).conn 5).st ≠ .failed ∧
    ((guarded [(Obj.CONN_CFG 5, 0xC0000000)] Conn.reset).conn 5).st ≠ .run := by decide +kernel
theorem witness_WatchtowerEventsComplete_7 : up.frame.ticking = true ∧ (0x30000000000000000 : BitVec 128).getLsbD 30 = false ∧
    (0x30000000000000000 : BitVec 128).getLsbD 28 = false := by decide +kernel

theorem witness_ImageCommandsComplete_1 : up.takes Obj.IMG_CTRL 1 ∧ up.takes Obj.IMG_CTRL 2 ∧ up.takes Obj.IMG_CTRL 3 ∧
    up.takes Obj.IMG_CTRL 4 ∧ up.takes Obj.IMG_CTRL 6 ∧ up.runs 0 = false ∧ up.runs 1 = false ∧ up.imgBusy = false ∧
    up.nl Obj.IMG_STATUS ≠ 7 := by decide +kernel
/-- A boot that waits for a host image. -/
def hostLoading : State := { State.reset with boot := { State.reset.boot with resetLow := false, hostLoad := true } }
theorem witness_ImageCommandsComplete_5 : hostLoading.takes Obj.IMG_CTRL 5 ∧ hostLoading.boot.hostLoad = true ∧
    hostLoading.boot.submitted = false ∧ hostLoading.takes Obj.IMG_DATA 7 ∧ hostLoading.nl Obj.IMG_OFFSET % 4 = 0 ∧
    hostLoading.nl Obj.IMG_OFFSET < 0x400000 := by decide +kernel
theorem witness_ImageCommandsComplete_8 : up.takes Obj.IMG_DATA 7 ∧ up.nl Obj.IMG_OFFSET % 4 = 0 ∧
    up.nl Obj.IMG_OFFSET < 0x400000 ∧ up.boot.hostLoad = false ∧ up.runs up.img.slot = false ∧ up.nl Obj.IMG_OFFSET ≠ 0x3C ∧
    up.img.page = [] ∧ (slotBase up.img.slot + up.nl Obj.IMG_OFFSET + 4) % 256 ≠ 0 := by decide +kernel
theorem witness_ImageCommandsComplete_9 : (up.setImg { up.img with ops := [.erase 0] }).img.ops = [.erase 0] := rfl

def withTest (c : TestCode) (r : Nat) : State :=
  { State.reset with fault := { State.reset.fault with tests := [⟨c, 3, r, 0, 0⟩] }
                     frame := { State.reset.frame with count := 70000 } }
theorem witness_FaultCommandsComplete_1 : State.reset.takes Obj.FAULT_ACK_HI 5 := by decide +kernel
theorem witness_FaultCommandsComplete_2 : State.reset.takes Obj.FAULT_FORCE_HI 5 ∧ State.reset.mode ≠ .run ∧
    State.reset.mode ≠ .ridethrough := by decide +kernel
theorem witness_FaultCommandsComplete_3 : (withTest .e 7).findTest .e (fun _ => true) = some ⟨.e, 3, 7, 0, 0⟩ := by decide +kernel
theorem witness_FaultCommandsComplete_4 : (withTest .l 7).findTest .l (fun t => t.resource == 7 &&
    decide (t.frame + 16 < (withTest .l 7).frame.count)) = some ⟨.l, 3, 7, 0, 0⟩ := by decide +kernel
theorem witness_FaultCommandsComplete_5 : ((withTest .k 7).setA Obj.ENGINE_EN 0xFF).findTest .k (fun t => t.resource == 7 &&
    ((withTest .k 7).setA Obj.ENGINE_EN 0xFF).engEnabled 7 && (((withTest .k 7).setA Obj.ENGINE_EN 0xFF).running 7).isNone)
      = some ⟨.k, 3, 7, 0, 0⟩ := by decide +kernel
theorem witness_FaultCommandsComplete_6 : (withTest .k 7).findTest .k (fun t => t.resource == 7 &&
    decide (t.frame + 65536 ≤ (withTest .k 7).frame.count)) = some ⟨.k, 3, 7, 0, 0⟩ := by decide +kernel

/-- One of a pair, in the role `r`, with the mirror link up. -/
def paired (r : Role) : State :=
  { (((up.setA Obj.PAIR_EN 1).setLane 32 { up.lane 32 with st := .data }).setLane 33 { up.lane 33 with st := .data }) with pair := { up.pair with
    role := r, partnerFlags := 4, silent := 100, swap := decide (r = .standby), pings := [(5, 40)] } }
/-- The bytes with their CRC behind them. -/
def sealTrain (bs : List Byte) : List Byte := bs ++ leBytes 4 (crc32c bs).toNat
theorem ofLeBytes_leBytes4 (w : Word) : ofLeBytes (leBytes 4 w.toNat) = w.toNat := by
  simp [leBytes, ofLeBytes]
  omega
theorem sealTrain_ok {bs : List Byte} (h : 32 ≤ bs.length) : packetOk (sealTrain bs) = true := by
  have h1 : (leBytes 4 (crc32c bs).toNat).length = 4 := by simp [leBytes]
  have h2 : (sealTrain bs).length = bs.length + 4 := by simp [sealTrain, h1]
  have h3 : (sealTrain bs).take (bs.length + 4 - 4) = bs := by simp [sealTrain]
  have h4 : pfld (sealTrain bs) (bs.length + 4 - 4) 4 = (crc32c bs).toNat := by
    simp [pfld, sealTrain, ofLeBytes_leBytes4, List.take_of_length_le, h1]
  simp only [packetOk, h2, h3, h4, w32]
  simp [h]
/-- A train of `len` bytes from a partner of the given role: its length field, zeros and the CRC. -/
def smallTrain (len role : Nat) : List Byte :=
  sealTrain ((((List.replicate (len - 4) 0).set 0x0D (BitVec.ofNat 8 role)).set 0x14 (BitVec.ofNat 8 len)).set 0x15
    (BitVec.ofNat 8 (len / 256)))
/-- A standby device in MIRROR mode, with the smallest mirror layout. -/
def mirroring : State := { (((paired .standby).setA Obj.MIR_DELTA_MAX 0).setA Obj.MIR_ROLL_BYTES 0) with mode := .mirror }
theorem witness_PairCommandsComplete_0 : packetOk (smallTrain 36 2) = true ∧ packetOk (smallTrain mirroring.mirLen 1) = true :=
  ⟨sealTrain_ok (by decide +kernel), sealTrain_ok (by decide +kernel)⟩
theorem witness_PairCommandsComplete_0b : mirrorPacket (mirrorBlocks (smallTrain 36 2) 0) (mirrorBlocks (smallTrain 36 2) 1) = smallTrain 36 2 := by
  decide +kernel
set_option maxRecDepth 20000 in
theorem witness_PairCommandsComplete_0c : mirrorPacket (mirrorBlocks (smallTrain mirroring.mirLen 1) 0)
    (mirrorBlocks (smallTrain mirroring.mirLen 1) 1) = smallTrain mirroring.mirLen 1 := by decide +kernel
theorem witness_PairCommandsComplete_0d : ((paired .active).toC 100).mirrorLanes = true ∧ ((paired .standby).toC 100).mirrorLanes = true ∧
    (mirroring.toC 100).mirrorLanes = true := by decide +kernel
theorem witness_PairCommandsComplete_3 : (mirroring.toC 100).ga Obj.PAIR_EN = 1 ∧ (mirroring.toC 100).pair.role ≠ .active ∧
    pfld (smallTrain mirroring.mirLen 1) 0x0D 1 = 1 ∧
    36 ≤ (smallTrain mirroring.mirLen 1).length := by decide +kernel
theorem witness_PairCommandsComplete_3b : ((mirroring.toC 100).heardTrain (smallTrain mirroring.mirLen 1) true).mode = .mirror ∧
    ((mirroring.toC 100).heardTrain (smallTrain mirroring.mirLen 1) true).boot.mirrorWait = false ∧
    pfld (smallTrain mirroring.mirLen 1) 0x14 2 = ((mirroring.toC 100).heardTrain (smallTrain mirroring.mirLen 1) true).mirLen ∧
    (smallTrain mirroring.mirLen 1).length = ((mirroring.toC 100).heardTrain (smallTrain mirroring.mirLen 1) true).mirLen := by
  decide +kernel
theorem witness_PairCommandsComplete_1 : ((paired .active).toC 100).ga Obj.PAIR_EN = 1 ∧ ((paired .active).toC 100).pair.role = .active ∧
    pfld (smallTrain 36 2) 0x0D 1 ≠ 1 := by decide +kernel
theorem witness_PairCommandsComplete_2 : ((paired .standby).toC 100).ga Obj.PAIR_EN = 1 ∧ ((paired .standby).toC 100).pair.role ≠ .active ∧
    ((paired .standby).toC 100).mode ≠ .mirror ∧ packetOk (mirrorPacket [] []) = false := by decide +kernel
theorem witness_PairCommandsComplete_4 : (paired .active).ga Obj.PAIR_EN = 1 ∧
    (paired .active).na Obj.MIRROR_LOSS_FRAMES ≤ (paired .active).pair.silent ∧ (paired .active).mirrorUp = true ∧
    (paired .active).pair.pings.find? (fun x => x.1 == 5) = some (5, 40) := by decide +kernel
theorem witness_PairCommandsComplete_5 : ({ up with boot := { up.boot with mirrorWait := true } } : State).boot.mirrorWait = true := rfl
theorem witness_PairCommandsComplete_8 : true ≠ ((paired .active).toC 100).pair.arbIn ∧ ((paired .active).toC 100).pair.swap = false ∧
    (paired .active).takes Obj.SWAP_REQ 1 ∧ (paired .active).pair.role = .active ∧ nbit (paired .active).pair.partnerFlags 2 = true ∧
    (paired .standby).pair.swap = true := by decide +kernel

/-- A bank in a power state, with a march of it or none. -/
def bankIs (b : Nat) (x : Pwr) (m : Option March) : State :=
  { up.setBank b { up.bank b with pwr := x } with mem := { (up.setBank b { up.bank b with pwr := x }).mem with march := m } }
/-- A device in a life-cycle state, with BOOT_SEL 0b11 at reset. -/
def inLife (l : LifeCycle) : State := { up with mem := { up.mem with life := l }, boot := { up.boot with selPins := 3 } }
theorem witness_MemoryCommandsComplete_1 : ((bankIs 172 (.waking true) none).bank 172).pwr = .waking true := by decide +kernel
theorem witness_MemoryCommandsComplete_2 : ((bankIs 3 (.waking false) none).bank 3).pwr = .waking false := by decide +kernel
theorem witness_MemoryCommandsComplete_3 : ((bankIs 162 .on none).bank 162).pwr = .on ∧ (bankIs 162 .on none).wantsRetention 162 = true := by
  decide +kernel
theorem witness_MemoryCommandsComplete_6 : up.takes Obj.MARCH_CTRL 0x900000AC ∧ nbit (0x900000AC : Word).toNat 31 = true ∧
    nbit (0x900000AC : Word).toNat 30 = false ∧ fld 0x900000AC 7 0 ≤ 172 ∧ fld 0x900000AC 29 28 ≤ 1 ∧ up.mem.march = none := by decide +kernel
theorem witness_MemoryCommandsComplete_7 : (bankIs 3 .on (some ⟨3, false, 0, 0⟩)).mem.march = some ⟨3, false, 0, 0⟩ := by decide +kernel
theorem witness_MemoryCommandsComplete_8 : ((bankIs 0 .on none).setA Obj.MARCH_BG_EN 1).ga Obj.MARCH_BG_EN = 1 ∧
    (bankIs 0 .on none).mem.bgRow + 1 < 44160 ∧ ((bankIs 0 .on none).bank ((bankIs 0 .on none).mem.bgRow / 256)).pwr ≠ .off ∧
    (bankIs 0 .on none).mem.march = none := by decide +kernel
theorem witness_MemoryCommandsComplete_9 : (inLife .provisioned).boot.resetLow = false ∧ (List.replicate 32 (7 : Byte)).length = 32 ∧
    (inLife .provisioned).keyPresent = false ∧ (inLife .provisioned).mem.life = .provisioned ∧ (inLife .provisioned).mode ≠ .run ∧
    (inLife .provisioned).mode ≠ .ridethrough ∧ (inLife .provisioned).mode ≠ .mirror := by decide +kernel
theorem witness_MemoryCommandsComplete_10 : up.boot.resetLow = false ∧ nbit up.mem.tamper.toNat 1 = false ∧
    ((({ up with mem := { up.mem with tamper := bset up.mem.tamper 1 true } } : State).incL Obj.TAMPER_CNT).raise 47).mem.fusing = none ∧
    up.power.tempOut = false := by decide +kernel
theorem witness_MemoryCommandsComplete_14 : (inLife .blank).takes Obj.LC_REQ 0x4C430001 ∧ (inLife .blank).mem.fusing = none ∧
    (inLife .blank).mem.life = .blank ∧ (inLife .blank).boot.selPins = 3 := by decide +kernel
theorem witness_MemoryCommandsComplete_15 : ((inLife .provisioned).wrW (secAddr 0x20) 1).takes Obj.LC_REQ 0x4C430002 ∧
    ((inLife .provisioned).wrW (secAddr 0x20) 1).keyPresent = true := by decide +kernel
theorem witness_MemoryCommandsComplete_16 : (inLife .deployed).takes Obj.LC_REQ 0x4C430003 ∧ (inLife .deployed).mem.life = .deployed := by
  decide +kernel
theorem witness_MemoryCommandsComplete_17 : (inLife .returned).takes Obj.LC_REQ 0x4C430004 ∧ (inLife .returned).mem.life ≠ .scrapped := by
  decide +kernel
theorem witness_MemoryCommandsComplete_18 :
    ({ up with mem := { up.mem with fusing := some .scrapped } } : State).mem.fusing = some .scrapped := by decide +kernel

/-- Reset with the FAULT bits of group 0 in service. -/
def inService : State := { State.reset with irq := { State.reset.irq with active := vset State.reset.irq.active 0 7 } }
theorem witness_AttentionCommandsComplete_1 : inService.takes Obj.COMPLETE 2 ∧ (2 : Word).toNat / 256 = 0 ∧ (2 : Word).toNat % 256 = 2 ∧
    nbit (levelMapOf 0) 2 = true ∧ nbit (vget 0 inService.irq.active 0).toNat 2 = true ∧
    nbit (vget 0 inService.irq.level 0).toNat 2 = false := by decide +kernel
/-- The same with the condition of bit 2 still there. -/
def stillOn : State := { inService with irq := { inService.irq with level := vset inService.irq.level 0 4 } }
theorem witness_AttentionCommandsComplete_1b : stillOn.takes Obj.COMPLETE 2 ∧ nbit (vget 0 stillOn.irq.active 0).toNat 2 = true ∧
    nbit (vget 0 stillOn.irq.level 0).toNat 2 = true := by decide +kernel
theorem witness_AttentionCommandsComplete_2 : State.reset.takes Obj.COMPLETE 0x2000 ∧ 32 ≤ (0x2000 : Word).toNat / 256 ∧
    State.reset.takes Obj.COMPLETE 0x20 ∧ 32 ≤ (0x20 : Word).toNat % 256 ∧
    nbit (levelMapOf ((3 : Word).toNat / 256)) ((3 : Word).toNat % 256) = false ∧
    nbit (vget 0 State.reset.irq.active ((2 : Word).toNat / 256)).toNat ((2 : Word).toNat % 256) = false := by decide +kernel
theorem witness_AttentionCommandsComplete_3 : State.reset.takes (Obj.PEND 31) 0 ∧
    vget 0 (vget (Vector.replicate 32 0) State.reset.irq.shadow 0) 31 &&& vget 0 State.reset.irq.pend 31 &&& ~~~(0 : Word) = 0 := by
  decide +kernel
/-- Reset with HCLK running. -/
def clocked : State := { State.reset with irq := { State.reset.irq with hclkRuns := true } }
theorem witness_AttentionCommandsComplete_4 : ((clocked.irqEdge 31 4).takes (Obj.PEND 31) 0) ∧
    vget 0 (vget (Vector.replicate 32 0) (clocked.irqEdge 31 4).irq.shadow 0) 31 &&& vget 0 (clocked.irqEdge 31 4).irq.pend 31
      &&& ~~~(0 : Word) ≠ 0 := by decide +kernel
theorem witness_AttentionCommandsComplete_6 : clocked.irq.hclkRuns = true := rfl
theorem witness_AttentionCommandsComplete_7 :
    ({ State.reset with irq := { State.reset.irq with hclkRuns := false } } : State).irq.hclkRuns = false := by decide +kernel

theorem witness_ObjectAccessCommandsComplete_1 : up.takes Obj.TF_NS 1000 ∧ (objEffect .mailbox Obj.TF_NS 1000 up).2 = 0 := by
  decide +kernel
theorem witness_ObjectAccessCommandsComplete_2 : up.boot.resetLow = false ∧ (resultRow 0x285001).map (·.latch) = some 0x285001 ∧
    (0x285001 : Nat) ≠ Obj.OBJ_DATA := by decide +kernel
theorem witness_ObjectAccessCommandsComplete_4 : wideLow 0x220007 = true ∧ (0x220007 : Nat) ≠ Obj.OBJ_DATA ∧ wideHigh 0x2D0006 = true ∧
    (0x2D0006 : Nat) ≠ Obj.OBJ_DATA ∧ (up.keyWrite .host 0x2D0006 0).2 = 0 := by decide +kernel
theorem witness_ObjectAccessCommandsComplete_7 : up.takes Obj.DOM_PTR 0 ∧ isDomain Obj.MAN_STAGED = true ∧
    Obj.MAN_STAGED ≠ Obj.OBJ_DATA ∧ (up.domWrite Obj.MAN_STAGED 5).2 = 0 := by decide +kernel
theorem witness_ObjectAccessCommandsComplete_10 : (16 : Word).toNat ≤ 65535 ∧
    ((up.setDict { up.dict with domOpen := true, domKey := some Obj.MAN_STAGED, domBytes := List.replicate 16 0 }).domEnd 16).2 = 0 := by
  decide +kernel
theorem witness_ObjectAccessCommandsComplete_11 : up.nl Obj.OBJ_SEL ≠ Obj.OBJ_DATA ∧
    ((up.setLN Obj.OBJ_SEL Obj.TF_NS).keyWrite .host Obj.TF_NS 1000).2 = 0 ∧ regionOf 0x200004 = some (.ledger 4) := by
  decide +kernel

theorem witness_HostAndMailboxCommandsComplete_1 : up.boot.resetLow = false ∧ up.accessOpen = false := by decide +kernel
/-- A host access that waits. -/
def hostWaits : State := up.setDict { up.dict with hostWait := some (.hostRead 0) }
/-- A host read in the queue. -/
def hostQueued : State := up.setDict { up.dict with queue := [.hostRead 0] }
theorem witness_HostAndMailboxCommandsComplete_3 : hostWaits.dict.hostWait = some (.hostRead 0) ∧ hostQueued.accessOpen = true ∧
    hostQueued.dict.hostWait = none ∧ (({ hostQueued with act := tput dfltW hostQueued.act Obj.DICT_BUDGET 8 } : State).budgetWindow).nextEntry =
      some (.hostRead 0, []) := by decide +kernel
/-- The mailbox open with the given transfer. -/
def mailboxOpen (x : Option SdoXfer) : State := up.setDict { up.dict with al := .preOp, mbxHeld := false, xfer := x }
theorem witness_HostAndMailboxCommandsComplete_7 : (mailboxOpen none).mbxOpen = true ∧ ([] : List Byte).length < 4 := by decide +kernel
theorem witness_HostAndMailboxCommandsComplete_9 : (mailboxOpen (some ⟨0x1018, 1, false, 2, [1], false⟩)).mbxOpen = true ∧
    (mailboxOpen (some ⟨0x1018, 1, false, 2, [1], false⟩)).dict.xfer = some ⟨0x1018, 1, false, 2, [1], false⟩ ∧
    (([1] : List Byte) ++ [2]).length = 2 ∧ 2 ≤ domBufBytes ∧
    (mailboxOpen (some ⟨0x1018, 1, true, 2, [1], false⟩)).dict.xfer = some ⟨0x1018, 1, true, 2, [1], false⟩ := by decide +kernel

/-- A device in the application-layer state `x`. -/
def alState (x : AlState) : State := (up.setDict { up.dict with al := x }).setA Obj.PD_WDT_MS 100
theorem witness_NetworkAndPhyCommandsComplete_4 : (alState .safeOp).boot.resetLow = false ∧ (alState .safeOp).dict.al = .safeOp ∧
    (alState .safeOp).pdoValid true = true ∧ (alState .safeOp).pdoValid false = true ∧ (alState .safeOp).dict.al ≠ .init := by
  decide +kernel
theorem witness_NetworkAndPhyCommandsComplete_5 : (alState .op).dict.al = .op ∧
    (List.replicate (((alState .op).pdoMap true).map pdoSize).sum (0 : Byte)).length = (((alState .op).pdoMap true).map pdoSize).sum ∧
    (alState .op).na Obj.PD_WDT_MS ≠ 0 := by decide +kernel
theorem witness_NetworkAndPhyCommandsComplete_9 : up.takes Obj.MDIO_CMD 0x80000000 ∧
    nbit (keepBits Obj.MDIO_CMD 0x80000000).toNat 31 = true ∧ up.dict.mdio = none := by decide +kernel
theorem witness_NetworkAndPhyCommandsComplete_10 : (up.setDict { up.dict with mdio := some (false, 0x80000000) }).dict.mdio
    = some (false, 0x80000000) ∧ nbit (0x80000000 : Word).toNat 30 = false ∧ nbit (0xC0000000 : Word).toNat 30 = true := by decide +kernel

theorem witness_PowerAndTapCommandsComplete_1 : up.boot.resetLow = false ∧ (100 : BitVec 16).toInt < (4 * up.na Obj.TJ_WARN_C : Nat) ∧
    -200 ≤ (100 : BitVec 16).toInt ∧ (100 : BitVec 16).toInt ≤ 560 ∧
    ({ up with power := { up.power with corePll := true, xtalOk := true } } : State).power.corePll = true ∧
    ({ up with boot := { up.boot with step := .done } } : State).boot.step ≠ .clocks ∧
    ({ up with boot := { up.boot with resetLow := true } } : State).boot.resetLow = true := by decide +kernel

theorem witness_StepRunsTheFrontCommand : ({ up with pending := [.bypass, .idcode] } : State).pending = [.bypass, .idcode] := rfl

theorem witness_IdleStepPassesOneNanosecond : up.pending = [] := rfl

theorem witness_InvariantKept : up.Inv ∧ step { up with pending := [.bypass] } =
    .next { up with jtag := { up.jtag with ir := .bypass, dr := 0, driving := false } } :=
  ⟨⟨⟨by decide +kernel, by decide +kernel⟩, fun x h => nomatch h⟩, rfl⟩

theorem witness_CommandsLeaveTheQueue : ({ up with pending := [.bypass, .idcode] } : State).Inv ∧
    exec .bypass up = .next { up with jtag := { up.jtag with ir := .bypass, dr := 0, driving := false } } :=
  ⟨⟨⟨by decide +kernel, by decide +kernel⟩, fun x h => nomatch h⟩, rfl⟩

theorem witness_FrameCountRisesByOneEachTick : up.Inv ∧ up.frame.ticking = true ∧ accepted.Inv ∧ accepted.boot.step = .validation ∧
    accepted.boot.accepted = true ∧ accepted.boot.mirrorWait = false ∧ Instr.bypass.resets = false :=
  ⟨⟨⟨by decide +kernel, by decide +kernel⟩, fun x h => nomatch h⟩, rfl, ⟨⟨by decide +kernel, by decide +kernel⟩, fun x h => nomatch h⟩, rfl,
    by decide +kernel, rfl, rfl⟩

theorem witness_TheTickNeverStops : up.Inv ∧ Instr.halt.resets = false ∧ up.frame.ticking = true :=
  ⟨⟨⟨by decide +kernel, by decide +kernel⟩, fun x h => nomatch h⟩, rfl, rfl⟩

theorem witness_WatchtowerFaultLastsUntilReset : ({ up with wt := { up.wt with fault := true } } : State).Inv ∧
    Instr.bypass.resets = false ∧ ({ up with wt := { up.wt with fault := true } } : State).wt.fault = true :=
  ⟨⟨⟨by decide +kernel, by decide +kernel⟩, fun x h => nomatch h⟩, rfl, rfl⟩

theorem witness_LifeCycleNeverGoesBack : ({ up with mem := { up.mem with life := .provisioned, fusing := some .deployed } } : State).Inv ∧
    LifeCycle.provisioned.code ≤ LifeCycle.deployed.code :=
  ⟨⟨⟨by decide +kernel, by decide +kernel⟩, fun x h => by cases h; decide⟩, by decide⟩

theorem witness_FlashChangesOnlyWhenAnOperationEnds : up.Inv ∧ (∀ ok, Instr.bypass ≠ .flashOpDone ok) :=
  ⟨⟨⟨by decide +kernel, by decide +kernel⟩, fun x h => nomatch h⟩, fun _ h => by cases h⟩

/-- A destructive march of a bank is under way. -/
def marched (b : Nat) : State := { up with mem := { up.mem with march := some ⟨b, true, 0, 0⟩ } }
theorem witness_ActiveCopyChangesOnlyAtACommit : up.Inv ∧ Instr.commitRevert .host ≠ .tick ∧ Instr.commitRevert .host ≠ .firstTick ∧
    Instr.commitRevert .host ≠ .payloadLoadDone ∧ Instr.commitRevert .host ≠ .bootValidationDone ∧
    (Instr.commitRevert .host).resets = false :=
  ⟨⟨⟨by decide +kernel, by decide +kernel⟩, fun x h => nomatch h⟩, by decide +kernel, by decide +kernel, by decide +kernel, by decide +kernel, rfl⟩
theorem witness_ActiveCopyChangesOnlyAtACommit_march : (marched 170).mem.march = some ⟨170, true, 0, 0⟩ ∧ 169 < 170 := ⟨rfl, by decide⟩

/-- A multiplying instruction of the given opcode, with a quad or a single accumulator, without moves. -/
def mulWord (op f4 : Nat) : BitVec 64 := pBits op ⟨0, 1, 4, BitVec.ofNat 3 f4, 0, 0⟩
theorem witness_MultiplyAccumulate : engineOn.canIssue 0 = true ∧
    (∀ op ∈ [1, 2, 3], opOf (mulWord op 2) = op ∧ PWord.of (mulWord op 2) = ⟨0, 1, 4, 2, 0, 0⟩ ∧ (PWord.of (mulWord op 2)).f4.toNat < 4) ∧
    (∀ op ∈ [4, 5, 6], opOf (mulWord op 0) = op ∧ (PWord.of (mulWord op 0)).f4 = 0 ∧ (PWord.of (mulWord op 0)).f3.toNat % 4 = 0) := by
  decide +kernel

/-- A word that stores accumulator 0 by a move, RND of A2 to D1 and LDACC of D3 to A2. -/
def storeWord (mx my : Nat) : BitVec 64 := pBits 0 ⟨0, 0, 0, 0, BitVec.ofNat 20 mx, BitVec.ofNat 20 my⟩
theorem witness_AccumulatorConversion : engineOn.canIssue 0 = true ∧
    opOf (pBits 0x0E ⟨1, 0, 0, 2, 0, 0⟩) = 0x0E ∧ PWord.of (pBits 0x0E ⟨1, 0, 0, 2, 0, 0⟩) = ⟨1, 0, 0, 2, 0, 0⟩ ∧
    opOf (pBits 0x0D ⟨0, 3, 0, 2, 0, 0⟩) = 0x0D ∧ PWord.of (pBits 0x0D ⟨0, 3, 0, 2, 0, 0⟩) = ⟨0, 3, 0, 2, 0, 0⟩ ∧
    opOf (storeWord 0xA6005 0) = 0 ∧ (PWord.of (storeWord 0xA6005 0)).mx = 0xA6005 ∧ (PWord.of (storeWord 0 0xA6005)).my = 0xA6005 ∧
    (moveOf 0xA6005).mt = 5 ∧ (moveOf 0xA6005).reg < 4 ∧ (moveOf 0xA6005).am = 0 := by decide +kernel
theorem witness_AccumulatorConversion_rnd : twf sramDefault (engineOn.issue 0 0 (pBits 0x0E ⟨1, 0, 0, 2, 0, 0⟩)).sram = true := by decide +kernel
theorem witness_AccumulatorConversion_load : twf sramDefault (engineOn.issue 0 0 (pBits 0x0D ⟨0, 3, 0, 2, 0, 0⟩)).sram = true := by
  decide +kernel
theorem witness_AccumulatorConversion_x : twf sramDefault (engineOn.issue 0 0 (storeWord 0xA6005 0)).sram = true := by decide +kernel
theorem witness_AccumulatorConversion_y : twf sramDefault (engineOn.issue 0 0 (storeWord 0 0xA6005)).sram = true := by decide +kernel
theorem witness_AccumulatorConversion_ea : (moveOf 0xA6005).ea ((engineOn.issue 0 0 (storeWord 0xA6005 0)).eng 0).r = 5 := by decide +kernel

theorem witness_SumsAndDifferences : engineOn.canIssue 0 = true ∧
    ∀ op ∈ [0x19, 0x1A, 0x1B], opOf (pBits op ⟨0, 1, 0, 0, 0, 0⟩) = op ∧ PWord.of (pBits op ⟨0, 1, 0, 0, 0, 0⟩) = ⟨0, 1, 0, 0, 0, 0⟩ := by
  decide +kernel

def maskedArm : State := let u := (up.setA (Obj.MASK_MODE 3) 2).setA (Obj.MASK_SRC 3) 1
  u.setArm 3 { u.arm 3 with gpio := 1, mask := true, latch := true }
theorem witness_MaskClear_1 : maskedArm.takes (Obj.MASK_CLEAR 3) 1 ∧ maskedArm.na (Obj.MASK_MODE 3) = 2 ∧ maskedArm.maskInput 3 = true := by
  decide +kernel
theorem witness_MaskClear_2 : up.takes (Obj.MASK_CLEAR 3) 1 ∧ up.na (Obj.MASK_MODE 3) < 2 := by decide +kernel

/-- Differs from the state after reset in a counter. -/
def counted : State := up.setL Obj.RUN_FRAMES_LO 77
theorem witness_ResetLeavesNoTrace : Instr.pwrgoodFall.resets = true ∧ up.boot.pwrgood = true ∧ up.boot.resetLow = false ∧
    (up.fuseTampers false).gl Obj.TAMPER_LOG_CNT = (counted.fuseTampers false).gl Obj.TAMPER_LOG_CNT ∧ (up.fuseTampers false).flash = (counted.fuseTampers false).flash ∧
    (up.fuseTampers false).sram = (counted.fuseTampers false).sram ∧
    up.boot = counted.boot ∧ up.gl Obj.RUN_FRAMES_LO ≠ counted.gl Obj.RUN_FRAMES_LO := by decide +kernel
theorem witness_ResetLeavesNoTrace_inv : up.Inv ∧ counted.Inv :=
  ⟨⟨⟨by decide, by decide⟩, fun x h => nomatch h⟩, ⟨⟨by decide, by decide⟩, fun x h => nomatch h⟩⟩
def heldLow : State := { up with boot := { up.boot with resetLow := true } }
theorem witness_ResetLeavesNoTrace_2 : heldLow.boot.resetLow = true ∧ heldLow.boot.pwrgood = true := ⟨rfl, rfl⟩

def validating : State := { up with commit := { up.commit with st := .validating } }
theorem witness_RefusedWrites : up.boot.resetLow = false ∧ rowOf 0xFFFFFF = none := by decide +kernel
theorem witness_RefusedWrites_ro : (rowOf Obj.RESET_CAUSE).any (fun x => x.1.acc = .ro) = true := by decide +kernel
theorem witness_RefusedWrites_domain : (rowOf 0x228402).any (fun x => x.1.acc ≠ .ro ∧ x.1.ty = .domain) = true := by decide +kernel
theorem witness_RefusedWrites_range : (rowOf Obj.TF_NS).any (fun x => x.1.acc ≠ .ro ∧ x.1.ty ≠ .domain ∧ x.1.cls = .s ∧
    x.1.rng.ok ((501 : Word) &&& w32 x.1.bits) = false ∧ x.1.ty.fits 510 = true ∧ x.1.rng.ok ((510 : Word) &&& w32 x.1.bits) = true) = true ∧
    validating.commit.st ≠ .opened := by decide +kernel
def claimed : State := { up with adc := { up.adc with claimed := true } }
theorem witness_RefusedWrites_claim : claimed.checkWrite 0x2A0201 0 = 0 ∧ claimed.claims 0x2A0201 = true := by decide +kernel

def stagedRecord : State := { up with jrn := { up.jrn with staging := [⟨7, 0x1234, false, false, true, 0x102, 6⟩], wr := 4095, count := 4095 } }
theorem witness_StoresReach : up.Inv ∧ up.mode ≠ .run ∧ up.mode ≠ .ridethrough ∧ stagedRecord.jrn.count < 4096 :=
  ⟨⟨⟨by decide, by decide⟩, fun x h => nomatch h⟩, by decide, by decide, by decide⟩

theorem witness_SummaryFollowsPending : ({ up with irq := { up.irq with hclkRuns := true } } : State).irq.hclkRuns = true ∧ ({ up with irq := { up.irq with hclkRuns := false } } : State).irq.hclkRuns = false ∧ (31 : Nat) < 32 ∧ up.takes (Obj.MASK 31) 0x1FFFFFFF ∧ up.takes (Obj.MASK 0) 0 := by
  decide +kernel

/-- Sources 3 and 40 are set, 40 is active. -/
def twoSet : State := { up with fault := { up.fault with status := 0x10000000008, active := 0x10000000000 } }
theorem witness_Acknowledge : twoSet.takes Obj.FAULT_ACK_HI 0x100 ∧ twoSet.fSet 3 = true ∧ twoSet.fSet 40 = true ∧ twoSet.fActive 40 = true ∧
    twoSet.fActive 3 = false := by decide +kernel

/-- Reset with a staged record and a full count less one. -/
def staged : State := { State.reset with jrn := { State.reset.jrn with staging := [⟨0, 0, false, false, false, 0x10, 0⟩], count := 4095 } }
theorem witness_JournalCommandsComplete_8 : staged.jrn.staging = [⟨0, 0, false, false, false, 0x10, 0⟩] ∧ staged.jrn.count < 4096 := by
  decide +kernel
theorem witness_JournalCommandsComplete_9 : staged.takes Obj.JRN_POP 4095 ∧ 0 < (4095 : Word).toNat ∧
    (4095 : Word).toNat ≤ staged.jrn.count := by decide +kernel
end

/-! The frame count (R5): 0 at the first tick, one higher at every tick, and left alone by every other command but a reset. Each
part is read off what `State.Ok` says the operations keep. -/
namespace Sys2Proof.Machine

/-- Everything that `Kept` can ask to stay, at its value in `s`. -/
def State.kept (s : State) : Kept :=
  ⟨s.pending, s.mem.life.code, s.frame.ticking, s.wt.fault, some s.flash, some s.act, some s.frame.count⟩

/-- What is kept where the flash and the active copy may change. -/
def Kept.storesFree (κ : Kept) : Kept := { κ with flash := none, act := none }

/-- A state that meets the invariant keeps its own values. -/
theorem State.Inv.ok_kept {s : State} (h : s.Inv) : s.Ok s.kept := by
  obtain ⟨⟨hsram, hflash⟩, hfusing⟩ := h
  exact ⟨hsram, hflash, rfl, Nat.le_refl _, hfusing, id, id, fun _ => Option.some.inj, fun _ => Option.some.inj, fun _ => Option.some.inj⟩

theorem State.Ok.storesFree {κ : Kept} {s : State} (h : s.Ok κ) : s.Ok κ.storesFree :=
  ⟨h.sram, h.flash, h.pending, h.life, h.fusing, h.ticking, h.fault, fun _ e => (nomatch e), fun _ e => (nomatch e), h.countIs⟩

/-- With the two stores free, only a tick may touch anything that is still asked for. -/
theorem Kept.storesFree_allows {κ : Kept} {c : Instr} (htick : c ≠ .tick) (hfirst : c ≠ .firstTick) : κ.storesFree.allows c := by
  cases c with
  | tick => exact absurd rfl htick
  | firstTick => exact absurd rfl hfirst
  | payloadLoadDone | bootValidationDone | flashOpDone | eccUncorrectable | marchDone => rfl
  | _ => trivial

theorem Kept.after_of_not_resets {κ : Kept} {c : Instr} (h : c.resets = false) : κ.after c = κ := by
  simp [Kept.after, h]

/-- The next state of a command that is neither a tick nor a reset has the frame count of the state before. -/
theorem exec_frame_count {c : Instr} {s t : State} (h : s.Inv) (htick : c ≠ .tick) (hfirst : c ≠ .firstTick) (hreset : c.resets = false)
    (he : exec c s = .next t) : t.frame.count = s.frame.count := by
  obtain ⟨u, hu, hok⟩ := exec_keeps h.ok_kept.storesFree (Kept.storesFree_allows htick hfirst)
  rw [Kept.after_of_not_resets hreset] at hok
  obtain rfl : u = t := Host.Outcome.next.inj (hu.symm.trans he)
  exact hok.countIs _ rfl

/-- What a tick does before the next frame begins keeps the count of the frame that ends. -/
theorem endFrame_frame_count {s : State} (h : s.Inv) (c : Nat) :
    ((s.toC c).lanternRecord s.frame.count).endFrame.frame.count = s.frame.count :=
  (endFrame_ok (lanternRecord_ok (toC_ok h.ok_kept))).countIs _ rfl

theorem execTick_frame_count {s t : State} (h : s.Inv) (hticks : s.frame.ticking = true) (he : execTick s = .next t) :
    t.frame.count = s.frame.count + 1 := by
  have ht : (((s.toC s.nextTick.1).lanternRecord s.frame.count).endFrame.nextFrame s.nextTick).tickAll = t := by
    simpa [execTick, hticks] using he
  rw [← ht, nextFrame_counts (endFrame_ok (lanternRecord_ok (toC_ok h.ok_kept))), endFrame_frame_count h]

theorem execFirstTick_frame {s t : State} (h : s.Inv) (hstep : s.boot.step = .validation) (hacc : s.boot.accepted = true)
    (hwait : s.boot.mirrorWait = false) (he : execFirstTick s = .next t) : t.frame.count = 0 ∧ t.frame.ticking = true := by
  have ht : s.toS0.ring0 s.s0Time = t := by simpa [execFirstTick, hstep, hacc, hwait] using he
  exact ht ▸ ring0_counts (toS0_ok h.ok_kept) _

/-- Settles O42, from what S_0, a tick and every other command do to the frame count. -/
theorem frameCountRisesByOneEachTick : Obligations.FrameCountRisesByOneEachTick := by
  refine ⟨fun s t h hstep hacc hwait he => ?_, fun s t h hticks he => ?_, fun c s t h htick hfirst hreset he => ?_⟩
  · exact execFirstTick_frame h hstep hacc hwait he
  · exact execTick_frame_count h hticks he
  · exact exec_frame_count h htick hfirst hreset he

end Sys2Proof.Machine

/-! A MASK_CLEAR write (R208): the three outcomes of its effect by mode and mask input, and O52 from them. -/
namespace Sys2Proof.Machine

/-- MASK_CLEAR that passes the checks of every write is what its effect and the path's report make of it. -/
theorem exec_maskClear_of_takes {s : State} {p : Path} {a : Nat} (h : s.takes (Obj.MASK_CLEAR a) 1) :
    exec (.maskClear p a) s = .next ((wrMaskClear a s).1.report p (Obj.MASK_CLEAR a) (wrMaskClear a s).2) :=
  congrArg _ (guardWrite_takes h p (wrMaskClear a))

theorem wrMaskClear_of_mode_ne_two {s : State} {a : Nat} (hmode : s.na (Obj.MASK_MODE a) ≠ 2) : wrMaskClear a s = (s, 0) :=
  if_pos hmode

theorem wrMaskClear_of_active {s : State} {a : Nat} (hmode : s.na (Obj.MASK_MODE a) = 2) (hactive : s.maskInput a = true) :
    wrMaskClear a s = (s.incL (Obj.MASK_CLEAR_REFUSED_CNT a), 6) := by
  simp [wrMaskClear, hmode, hactive, refused6]

/-- Settles O52, from the effect of the write: refused in mode 2 while the input is active, nothing in modes 0 and 1. -/
theorem maskClearIsRefusedWhileTheInputIsActive : Obligations.MaskClearIsRefusedWhileTheInputIsActive := by
  refine fun s p a htakes => ⟨fun hmode hactive => ⟨s.incL (Obj.MASK_CLEAR_REFUSED_CNT a), ?_, rfl, rfl⟩, fun hmode => ?_⟩
  · rw [exec_maskClear_of_takes htakes, wrMaskClear_of_active hmode hactive]
  · rw [exec_maskClear_of_takes htakes, wrMaskClear_of_mode_ne_two (Nat.ne_of_lt hmode)]

end Sys2Proof.Machine

/-! Multiply and accumulate (R242) and the conversion between an accumulator and 32 bits (R244): what an instruction without moves
leaves once it has written one accumulator, all four, or a conversion. -/
namespace Sys2Proof.Machine

/-- From `s1` to `t` the data and address registers of engine `e`, its posted stores, both memories and the other engines stay. -/
def State.KeepsAllButAccs (s1 t : State) (e : Nat) : Prop :=
  (t.eng e).r.d = (s1.eng e).r.d ∧ (t.eng e).r.a = (s1.eng e).r.a ∧ (t.eng e).r.stores = (s1.eng e).r.stores ∧
    t.sram = s1.sram ∧ t.flash = s1.flash ∧ ∀ j, j ≠ e → t.eng j = s1.eng j

/-- From `s1` to `t` accumulator `k` of engine `e` took the exact result `y`, limited, with AV and GU. -/
def State.AccWritten (s1 t : State) (e k : Nat) (y : Int) : Prop :=
  s1.KeepsAllButAccs t e ∧
    (∀ j, j < 4 → (t.eng e).r.accI j = if j = k then accLimited y else (s1.eng e).r.accI j) ∧
    nbit (t.eng e).r.flg.toNat 9 = (nbit (s1.eng e).r.flg.toNat 9 || decide (accLimited y ≠ y)) ∧
    nbit (t.eng e).r.flg.toNat 4 = beyond64 y

/-- From `s1` to `t` each accumulator `j` of engine `e` took the exact result `y j`, limited, with AV and GU. -/
def State.QuadWritten (s1 t : State) (e : Nat) (y : Nat → Int) : Prop :=
  s1.KeepsAllButAccs t e ∧
    (∀ j, j < 4 → (t.eng e).r.accI j = accLimited (y j)) ∧
    nbit (t.eng e).r.flg.toNat 9
      = (nbit (s1.eng e).r.flg.toNat 9 || (List.range 4).any fun j => decide (accLimited (y j) ≠ y j)) ∧
    nbit (t.eng e).r.flg.toNat 4 = (List.range 4).any fun j => beyond64 (y j)

/-- An instruction without moves that ends with the registers `r`, whose D and A are still those of the issue. -/
theorem finish_keepsAllButAccs {s1 : State} {e : Nat} (he : e < 8) {r : EngRegs} (hd : r.d = (s1.eng e).r.d) (ha : r.a = (s1.eng e).r.a)
    {t : State} (ht : s1.finish e { r with stores := (s1.eng e).r.stores } = t) :
    s1.KeepsAllButAccs t e ∧ (∀ j, (t.eng e).r.accI j = r.accI j) ∧ (t.eng e).r.flg = r.flg := by
  subst ht
  obtain ⟨fd, facc, fflg, fa, -, -, -, fstores⟩ := finish_regs (s := s1) he { r with stores := (s1.eng e).r.stores }
  obtain ⟨fsram, fflash, -, fother⟩ := finish_frame (s := s1) (e := e) { r with stores := (s1.eng e).r.stores }
  refine ⟨⟨fd.trans hd, fa.trans ha, fstores, fsram, fflash, fother⟩, fun j => ?_, fflg⟩
  rw [EngRegs.accI, facc, EngRegs.accI]

theorem finish_setAcc {s1 : State} {e : Nat} (he : e < 8) (k : Nat) (y : Int) :
    s1.AccWritten (s1.finish e { (s1.eng e).r.setAcc k y with stores := (s1.eng e).r.stores }) e k y := by
  obtain ⟨hd, ha, hflg, hacc⟩ := setAcc_frame (s1.eng e).r k y
  obtain ⟨hav, hgu⟩ := accFlags_bits (s1.eng e).r.flg y
  obtain ⟨hkeeps, tacc, tflg⟩ := finish_keepsAllButAccs he hd ha rfl
  exact ⟨hkeeps, fun j hj => (tacc j).trans (hacc j hj), by rw [tflg, hflg, hav], by rw [tflg, hflg, hgu]⟩

theorem finish_setQuad {s1 : State} {e : Nat} (he : e < 8) (y : Nat → Int) :
    s1.QuadWritten (s1.finish e { (s1.eng e).r.setQuad y with stores := (s1.eng e).r.stores }) e y := by
  obtain ⟨hd, ha, hflg, hacc⟩ := setQuad_frame (s1.eng e).r y
  obtain ⟨hav, hgu⟩ := quadFlags_bits (s1.eng e).r.flg ((List.range 4).map y)
  have hlist : [y 0, y 1, y 2, y 3] = (List.range 4).map y := rfl
  rw [List.any_map, Function.comp_def] at hav hgu
  rw [hlist] at hflg
  obtain ⟨hkeeps, tacc, tflg⟩ := finish_keepsAllButAccs he hd ha rfl
  exact ⟨hkeeps, fun j hj => (tacc j).trans (hacc j hj), by rw [tflg, hflg, hav], by rw [tflg, hflg, hgu]⟩

section
variable {s s1 : State} {e st op : Nat} {w : BitVec 64} {ok : Bool}

/-- A command that writes one accumulator, without moves: its word issues, meets its encoding (`ok`) and has the result `v`. -/
theorem accWritten_of_pInstr (hc : s.canIssue e = true) (h1 : s.issue e st w = s1) (hx : (PWord.of w).mx = 0) (hy : (PWord.of w).my = 0)
    {i : Instr} {k : Nat} {v : EngRegs → Int} (hi : exec i s = .next (s.pInstr e st w op ok false fun r => r.setAcc k (v r)))
    (ho : opOf w = op) (hok : ok = true) : ∃ t, exec i s = .next t ∧ s1.AccWritten t e k (v (s1.eng e).r) := by
  refine ⟨_, hi, ?_⟩
  rw [pInstr_plain hc h1 ho hx hy hok]
  exact finish_setAcc (canIssue_lt hc) k _

/-- A command that writes all four accumulators, without moves. -/
theorem quadWritten_of_pInstr (hc : s.canIssue e = true) (h1 : s.issue e st w = s1) (hx : (PWord.of w).mx = 0) (hy : (PWord.of w).my = 0)
    {i : Instr} {v : EngRegs → Nat → Int} (hi : exec i s = .next (s.pInstr e st w op ok false fun r => r.setQuad (v r)))
    (ho : opOf w = op) (hok : ok = true) : ∃ t, exec i s = .next t ∧ s1.QuadWritten t e (v (s1.eng e).r) := by
  refine ⟨_, hi, ?_⟩
  rw [pInstr_plain hc h1 ho hx hy hok]
  exact finish_setQuad (canIssue_lt hc) _

end

/-- Settles O48: the six commands write one accumulator or all four; by `product_eq` the two products are the same by definition. -/
theorem multiplyAccumulate : Obligations.MultiplyAccumulate := by
  rintro s e st w x s1 rfl hc h1 hmx hmy hf1
  refine ⟨fun hf4 => ?_, fun hf4 hf3 => ?_⟩
  · have hok : (decide ((PWord.of w).f1 = 0) && decide ((PWord.of w).f4.toNat < 4)) = true := by simp [hf1, hf4]
    refine ⟨fun ho => ?_, fun ho => ?_, fun ho => ?_⟩
    · exact accWritten_of_pInstr (i := .mpy e st w) hc h1 hmx hmy rfl ho hok
    · exact accWritten_of_pInstr (i := .mac e st w) hc h1 hmx hmy rfl ho hok
    · exact accWritten_of_pInstr (i := .msu e st w) hc h1 hmx hmy rfl ho hok
  · have hok : (decide ((PWord.of w).f1 = 0) && decide ((PWord.of w).f4 = 0) && decide ((PWord.of w).f3.toNat % 4 = 0)) = true := by
      simp [hf1, hf4, hf3]
    refine ⟨fun ho => ?_, fun ho => ?_, fun ho => ?_⟩
    · exact quadWritten_of_pInstr (i := .mpy4 e st w) hc h1 hmx hmy rfl ho hok
    · exact quadWritten_of_pInstr (i := .mac4 e st w) hc h1 hmx hmy rfl ho hok
    · exact quadWritten_of_pInstr (i := .msu4 e st w) hc h1 hmx hmy rfl ho hok

/-- From `s1` to `t` the conversion of `y` was written to D register `n` of engine `e`, and SV is set where it was limited. -/
def State.ConversionWritten (s1 t : State) (e : Nat) (n : BitVec 4) (y : Int) (v : Word) (sat : Bool) : Prop :=
  convertsTo (nbit (s1.eng e).r.flg.toNat 24) y v sat ∧ (t.eng e).r.d = vset (s1.eng e).r.d n.toNat v ∧
    (t.eng e).r.acc = (s1.eng e).r.acc ∧ t.sram = s1.sram ∧
    nbit (t.eng e).r.flg.toNat 8 = (nbit (s1.eng e).r.flg.toNat 8 || sat)

theorem finish_setConv {s1 : State} {e : Nat} (he : e < 8) (n : BitVec 4) (y : Int) :
    s1.ConversionWritten (s1.finish e { (s1.eng e).r.setConv n y with stores := (s1.eng e).r.stores }) e n y
      (convert (s1.eng e).r.flg y).1 (convert (s1.eng e).r.flg y).2 := by
  obtain ⟨fd, facc, fflg, -⟩ := finish_regs (s := s1) he { (s1.eng e).r.setConv n y with stores := (s1.eng e).r.stores }
  obtain ⟨fsram, -⟩ := finish_frame (s := s1) (e := e) { (s1.eng e).r.setConv n y with stores := (s1.eng e).r.stores }
  exact ⟨convert_convertsTo _ y, fd, facc, fsram, by rw [fflg]; exact setConv_bit8 _ n y⟩

/-- The value that LDACC loads (R244). -/
theorem accLoad_eq (f x : Word) : accLoad f x = if nbit f.toNat 24 then x.toInt * 2 ^ 32 else x.toInt := rfl

/-- RND without moves, in its encoding. -/
theorem exec_rnd_conversionWritten {s s1 : State} {e st : Nat} {w : BitVec 64} (hc : s.canIssue e = true) (h1 : s.issue e st w = s1)
    (hx : (PWord.of w).mx = 0) (hy : (PWord.of w).my = 0) (ho : opOf w = 0x0E) (hf2 : (PWord.of w).f2 = 0) (hf3 : (PWord.of w).f3 = 0)
    (hf4 : (PWord.of w).f4.toNat < 4) : ∃ t v sat, exec (.rnd e st w) s = .next t ∧
      s1.ConversionWritten t e (PWord.of w).f1 ((s1.eng e).r.accI (PWord.of w).f4.toNat) v sat := by
  have hok : (decide ((PWord.of w).f2 = 0) && decide ((PWord.of w).f3 = 0) && decide ((PWord.of w).f4.toNat < 4)) = true := by
    simp [hf2, hf3, hf4]
  have hend := pInstr_plain2 hc h1 ho hx hy hok fun r => r.setConv (PWord.of w).f1 (r.accI (PWord.of w).f4.toNat)
  exact ⟨_, _, _, congrArg Host.Outcome.next hend, finish_setConv (canIssue_lt hc) _ _⟩

/-- LDACC without moves, in its encoding. -/
theorem exec_ldacc_accWritten {s s1 : State} {e st : Nat} {w : BitVec 64} (hc : s.canIssue e = true) (h1 : s.issue e st w = s1)
    (hx : (PWord.of w).mx = 0) (hy : (PWord.of w).my = 0) (ho : opOf w = 0x0D) (hf1 : (PWord.of w).f1 = 0) (hf3 : (PWord.of w).f3 = 0)
    (hf4 : (PWord.of w).f4.toNat < 4) : ∃ t, exec (.ldacc e st w) s = .next t ∧
      s1.AccWritten t e (PWord.of w).f4.toNat (accLoad (s1.eng e).r.flg ((s1.eng e).r.rd (PWord.of w).f2)) :=
  accWritten_of_pInstr (i := .ldacc e st w) hc h1 hx hy rfl ho (by simp [hf1, hf3, hf4])

/-- Settles O49: RND and the two store moves write what `convert` answers, and a loaded value lies within the accumulator. -/
theorem accumulatorConversion : Obligations.AccumulatorConversion := by
  rintro s e st w x s1 rfl hc h1 hwf
  refine ⟨?rnd, ?storeX, ?storeY, ?ldacc⟩
  case rnd => exact fun ho hmx hmy hf2 hf3 hf4 => exec_rnd_conversionWritten hc h1 hmx hmy ho hf2 hf3 hf4
  case storeX =>
    rintro ho hf1 hf2 hf3 hf4 hmy ⟨hmt, hreg, hdisp, hea⟩
    exact accStore_x hc h1 ho rfl hwf hf1 hf2 hf3 hf4 hmy hmt hreg hdisp hea
  case storeY =>
    rintro ho hf1 hf2 hf3 hf4 hmx ⟨hmt, hreg, hdisp, hea⟩
    exact accStore_y hc h1 ho rfl hwf hf1 hf2 hf3 hf4 hmx hmt hreg hdisp hea
  case ldacc =>
    intro ho hmx hmy hf1 hf3 hf4
    obtain ⟨t, ht, ⟨hd, -, -, hsram, -⟩, hacc, -⟩ := exec_ldacc_accWritten hc h1 hmx hmy ho hf1 hf3 hf4
    rw [accLimited_accLoad, accLoad_eq] at hacc
    exact ⟨t, ht, hacc, hd, hsram⟩

end Sys2Proof.Machine

/-! ERROR_REGISTER (R499): the block that answers for it and for HIGHEST_UNACK, the values that HIGHEST_UNACK takes, and O51 from them. -/
namespace Sys2Proof.Machine

/-- A listed object that is not WO reads as the value that its block gives it. -/
theorem objPeek_of_views {s : State} {k : Nat} {r : ORow} {i j : Nat} {v : Word} (hrow : rowOf k = some (r, i, j)) (hacc : r.acc ≠ .wo)
    (hview : views.findSome? (fun f => f s k) = some v) : s.objPeek k = v := by
  simp only [State.objPeek, hrow, State.rowValue, if_neg hacc, hview]

theorem objPeek_highestUnack (s : State) : s.objPeek Obj.HIGHEST_UNACK = w32 s.highestUnack :=
  objPeek_of_views rfl (by decide) rfl

theorem objPeek_errorRegister (s : State) : s.objPeek Obj.ERROR_REGISTER = w32 (b2n (decide (s.highestUnack ≠ 0xFF))) :=
  objPeek_of_views rfl (by decide) rfl

theorem highestUnack_le (s : State) : s.highestUnack ≤ 0xFF := by
  unfold State.highestUnack
  repeat' split
  all_goals decide

/-- The word loses nothing of HIGHEST_UNACK, so it reads as 0xFF only where no class is set. -/
theorem objPeek_highestUnack_eq_0xFF_iff (s : State) : s.objPeek Obj.HIGHEST_UNACK = 0xFF ↔ s.highestUnack = 0xFF := by
  have hle := highestUnack_le s
  rw [objPeek_highestUnack]
  simp only [w32]
  bv_omega

/-- Settles O51, by the two cases of HIGHEST_UNACK that ERROR_REGISTER tells apart. -/
theorem errorRegisterFollowsHighestUnack : Obligations.ErrorRegisterFollowsHighestUnack := by
  intro s
  rw [objPeek_errorRegister]
  by_cases hnone : s.highestUnack = 0xFF
  · rw [if_pos ((objPeek_highestUnack_eq_0xFF_iff s).mpr hnone)]
    simp [hnone, b2n]
  · rw [if_neg (mt (objPeek_highestUnack_eq_0xFF_iff s).mp hnone)]
    simp [hnone, b2n]

end Sys2Proof.Machine

/-! What every command keeps, read off `exec_keeps`: the invariant and the queue (O36, O38 to O41), the tick (R21), WT_FAULT (R389), the
life-cycle state (R462), the flash (R62) and the active copy (R66, R452, R453). -/
namespace Sys2Proof.Machine

/-- A command that completes leaves the state that `exec_keeps` speaks of. -/
theorem exec_next_ok {c : Instr} {s t : State} {κ : Kept} (h : s.Ok κ) (hf : κ.allows c) (he : exec c s = .next t) : t.Ok (κ.after c) := by
  obtain ⟨u, hu, hok⟩ := exec_keeps h hf
  obtain rfl : u = t := Host.Outcome.next.inj (hu.symm.trans he)
  exact hok

/-- What every command keeps: all of `s.kept` but the two stores and the frame count. -/
def State.keptAlways (s : State) : Kept := { s.kept with flash := none, act := none, count := none }

theorem State.Inv.ok_keptAlways {s : State} (h : s.Inv) : s.Ok s.keptAlways := by
  obtain ⟨hsram, hflash, hpending, hlife, hfusing, hticking, hfault, -⟩ := h.ok_kept
  exact ⟨hsram, hflash, hpending, hlife, hfusing, hticking, hfault, fun _ e => (nomatch e), fun _ e => (nomatch e), fun _ e => (nomatch e)⟩

/-- With nothing asked of the stores and of the frame count every command is allowed. -/
theorem State.keptAlways_allows (s : State) (c : Instr) : s.keptAlways.allows c := by
  cases c with
  | tick | firstTick => exact ⟨rfl, rfl⟩
  | payloadLoadDone | bootValidationDone | flashOpDone | eccUncorrectable | marchDone => rfl
  | _ => trivial

theorem exec_ok_always {c : Instr} {s t : State} (h : s.Inv) (he : exec c s = .next t) : t.Ok (s.keptAlways.after c) :=
  exec_next_ok h.ok_keptAlways (s.keptAlways_allows c) he

theorem Kept.after_pending (κ : Kept) (c : Instr) : (κ.after c).pending = κ.pending := by
  unfold Kept.after
  split <;> rfl

theorem Kept.after_life (κ : Kept) (c : Instr) : (κ.after c).life = κ.life := by
  unfold Kept.after
  split <;> rfl

theorem Kept.after_flash (κ : Kept) (c : Instr) : (κ.after c).flash = κ.flash := by
  unfold Kept.after
  split <;> rfl

theorem State.Ok.inv {κ : Kept} {s : State} (h : s.Ok κ) : s.Inv := ⟨⟨h.sram, h.flash⟩, h.fusing⟩

theorem State.Inv.withPending {s : State} (h : s.Inv) (q : List Instr) : ({ s with pending := q } : State).Inv := h

theorem exec_inv {c : Instr} {s t : State} (h : s.Inv) (he : exec c s = .next t) : t.Inv := (exec_ok_always h he).inv

theorem exec_pending {c : Instr} {s t : State} (h : s.Inv) (he : exec c s = .next t) : t.pending = s.pending :=
  (exec_ok_always h he).pending.trans (s.keptAlways.after_pending c)

theorem idle_inv {s : State} (h : s.Inv) : s.idle.Inv := (idle_ok h.ok_kept).inv

theorem idle_pending {s : State} (h : s.Inv) : s.idle.pending = s.pending := (idle_ok h.ok_kept).pending

theorem step_of_cons {s : State} {c : Instr} {rest : List Instr} (h : s.pending = c :: rest) :
    step s = exec c { s with pending := rest } := by
  simp [step, h]

theorem step_of_nil {s : State} (h : s.pending = []) : step s = .next s.idle := by
  simp [step, h]

/-- What a step keeps, by the two cases of the queue. -/
theorem step_next {s t : State} (h : s.Inv) (he : step s = .next t) : t.Inv ∧ t.pending = s.pending.tail := by
  cases hq : s.pending with
  | nil =>
    rw [step_of_nil hq] at he
    obtain rfl := Host.Outcome.next.inj he
    exact ⟨idle_inv h, (idle_pending h).trans hq⟩
  | cons c rest =>
    rw [step_of_cons hq] at he
    exact ⟨exec_inv (h.withPending rest) he, exec_pending (h.withPending rest) he⟩

/-- Settles O36, by the definition of a step. -/
theorem stepRunsTheFrontCommand : Obligations.StepRunsTheFrontCommand := fun _ _ _ => step_of_cons

/-- Settles O38: every arm of `exec` is `.next` of a total function, so each answer is read off its arm. -/
theorem everyCommandAnswersANextState : Obligations.EveryCommandAnswersANextState := by
  intro c s
  cases c <;> exact ⟨_, rfl⟩

/-- Settles O39: nothing is listed after reset. -/
theorem resetMeetsTheInvariant : Obligations.ResetMeetsTheInvariant :=
  ⟨⟨⟨rfl, rfl⟩, fun _ h => (nomatch h)⟩, rfl⟩

/-- Settles O40, by the two cases of the queue. -/
theorem invariantKept : Obligations.InvariantKept := fun _ _ h he => (step_next h he).1

/-- Settles O41, from what one command and one step keep of the queue. -/
theorem commandsLeaveTheQueue : Obligations.CommandsLeaveTheQueue :=
  ⟨fun _ _ _ h he => exec_pending h he, fun _ _ h he => (step_next h he).2⟩

/-- Settles O43: the tick is among what every command but a reset keeps. -/
theorem theTickNeverStops : Obligations.TheTickNeverStops := by
  intro c s t h hreset htick he
  have hok := exec_ok_always h he
  rw [Kept.after_of_not_resets hreset] at hok
  exact hok.ticking htick

/-- Settles O44: WT_FAULT is among what every command but a reset keeps. -/
theorem watchtowerFaultLastsUntilReset : Obligations.WatchtowerFaultLastsUntilReset := by
  intro c s t h hreset hfault he
  have hok := exec_ok_always h he
  rw [Kept.after_of_not_resets hreset] at hok
  exact hok.fault hfault

/-- Settles O45: the code reached is a lower bound that resets keep too. -/
theorem lifeCycleNeverGoesBack : Obligations.LifeCycleNeverGoesBack := by
  intro c s t h he
  have hlife := (exec_ok_always h he).life
  rwa [Kept.after_life] at hlife

/-- What is asked where only the flash must stay among the parts that some command changes. -/
def State.keptFlash (s : State) : Kept := { s.keptAlways with flash := some s.flash }

theorem State.Inv.ok_keptFlash {s : State} (h : s.Inv) : s.Ok s.keptFlash :=
  { h.ok_keptAlways with flashIs := fun _ e => Option.some.inj e }

theorem State.keptFlash_allows (s : State) {c : Instr} (hc : ∀ ok, c ≠ .flashOpDone ok) : s.keptFlash.allows c := by
  cases c with
  | flashOpDone ok => exact absurd rfl (hc ok)
  | tick | firstTick => exact ⟨rfl, rfl⟩
  | payloadLoadDone | bootValidationDone | eccUncorrectable | marchDone => rfl
  | _ => trivial

/-- The oldest operation ends without an effect. -/
theorem execFlashOpDone_false_flash {s t : State} (h : s.Inv) (he : execFlashOpDone false s = .next t) : t.flash = s.flash := by
  obtain rfl := Host.Outcome.next.inj he
  cases s.img.ops with
  | nil => rfl
  | cons o rest => exact (imgStatus_ok (setImg_ok h.ok_kept)).flashIs _ rfl

/-- Settles O46, with the failed operation by itself since FLASH_OP_DONE is the one command allowed to change the flash. -/
theorem flashChangesOnlyWhenAnOperationEnds : Obligations.FlashChangesOnlyWhenAnOperationEnds := by
  refine ⟨fun c s t h hc he => ?_, fun s t h he => execFlashOpDone_false_flash h he⟩
  exact (exec_next_ok h.ok_keptFlash (s.keptFlash_allows hc) he).flashIs _ (Kept.after_flash _ c)

/-- What is asked where only the active copy must stay among the parts that some command changes. -/
def State.keptAct (s : State) : Kept := { s.keptAlways with act := some s.act }

theorem State.Inv.ok_keptAct {s : State} (h : s.Inv) : s.Ok s.keptAct :=
  { h.ok_keptAlways with actIs := fun _ e => Option.some.inj e }

/-- After a change of banks that leaves the active copy, what `s` asks of it still holds. -/
theorem State.Ok.keptAct_of_act {s t : State} (h : t.Ok s.keptAlways) (ha : t.act = s.act) : t.Ok s.keptAct :=
  { h with actIs := fun _ e => ha.trans (Option.some.inj e) }

/-- Banks other than 168 and 169 hold no active copy (R449). -/
theorem putCopy_act {s : State} {b k : Nat} {v : Word} (hb : b < 168 ∨ 169 < b) (hd : 168 ≤ b ∧ b ≤ 171) : (s.putCopy b k v).act = s.act := by
  unfold State.putCopy
  have hn : ¬ b < 170 := by omega
  simp only [hn, if_false]
  repeat' split
  all_goals rfl

theorem putBank_act {s : State} {b w : Nat} {v : Word} (hb : b < 168 ∨ 169 < b) : (s.putBank b w v).act = s.act := by
  unfold State.putBank
  split
  · rfl
  · split
    · next hd =>
      split
      · exact putCopy_act hb hd
      · rfl
    · rfl

theorem clearBank_act {s : State} {b : Nat} (hb : b < 168 ∨ 169 < b) : (s.clearBank b).act = s.act := by
  unfold State.clearBank
  split
  · rfl
  · split
    · generalize List.range 16384 = l
      induction l generalizing s with
      | nil => rfl
      | cons w l ih => exact ih.trans (putBank_act hb)
    · rfl

theorem execEccUncorrectable_act {s t : State} {b w : Nat} {x : Word} (h : s.Inv) (hb : b < 168 ∨ 169 < b)
    (he : execEccUncorrectable b w x s = .next t) : t.act = s.act := by
  obtain rfl := Host.Outcome.next.inj he
  have hput : (s.putBank b w x).Ok s.keptAct := (putBank_ok h.ok_keptAlways rfl).keptAct_of_act (putBank_act hb)
  exact (raiseAs_ok (setLN_ok (incL_ok hput))).actIs _ rfl

theorem execMarchDone_act {s t : State} {ws : List Nat} (h : s.Inv)
    (hm : ∀ m, s.mem.march = some m → m.destructive = true → m.bank < 168 ∨ 169 < m.bank) (he : execMarchDone ws s = .next t) :
    t.act = s.act := by
  obtain rfl := Host.Outcome.next.inj he
  cases hmarch : s.mem.march with
  | none => rfl
  | some m =>
    have hclear : (if m.destructive then s.clearBank m.bank else s).Ok s.keptAct :=
      ite_ok (fun hd => (clearBank_ok h.ok_keptAlways rfl).keptAct_of_act (clearBank_act (hm m hmarch hd))) fun _ => h.ok_keptAct
    exact (incL_ok (marchResult_ok (marchEnd_ok (each_ok hclear fun _ _ hu => marchFail_ok hu)))).actIs _ rfl

/-- Settles O47: the two reports that reach a bank by `putBank_act` and `clearBank_act`, every other command by what `exec_keeps` says. -/
theorem activeCopyChangesOnlyAtACommit : Obligations.ActiveCopyChangesOnlyAtACommit := by
  intro c s t h htick hfirst hload hvalid hreset hecc hmarch he
  by_cases hallows : s.keptAct.allows c
  · have hok := exec_next_ok h.ok_keptAct hallows he
    rw [Kept.after_of_not_resets hreset] at hok
    exact hok.actIs _ rfl
  · cases c with
    | tick => exact absurd rfl htick
    | firstTick => exact absurd rfl hfirst
    | payloadLoadDone => exact absurd rfl hload
    | bootValidationDone => exact absurd rfl hvalid
    | flashOpDone => exact absurd rfl hallows
    | eccUncorrectable b w x => exact execEccUncorrectable_act h (hecc b w x rfl) he
    | marchDone ws => exact execMarchDone_act h (fun m => hmarch ws m rfl) he
    | _ => exact absurd trivial hallows

end Sys2Proof.Machine

/-! The idle step (log entry 10): one nanosecond passes, and at whole microseconds before S_0 the dictionary's budget window and the
sample of the TxPDO follow it. Only the clocks, the dictionary controller and the converters' read flags differ. -/
namespace Sys2Proof.Machine

theorem each_adcDataRead_frame (s : State) (l : List Nat) : ∃ a, s.each l State.adcDataRead = { s with adc := a } := by
  induction l generalizing s with
  | nil => exact ⟨s.adc, rfl⟩
  | cons i l ih =>
    obtain ⟨a, ha⟩ := ih (s.adcDataRead i)
    exact ⟨a, ha⟩

theorem pdoSample_frame (s : State) : ∃ d a, s.pdoSample = { s with dict := d, adc := a } :=
  ⟨_, each_adcDataRead_frame (s.setDict _) _⟩

theorem budgetWindow_frame (s : State) : ∃ d, s.budgetWindow = { s with dict := d } := by
  unfold State.budgetWindow
  split
  · exact ⟨s.dict, rfl⟩
  · exact ⟨_, rfl⟩

theorem idle_frame (s : State) : ∃ d a, s.idle = { s.passNs 1 with dict := d, adc := a } := by
  unfold State.idle
  dsimp only
  split
  · obtain ⟨d, a, hsample⟩ := pdoSample_frame (s.passNs 1)
    obtain ⟨e, hwindow⟩ := budgetWindow_frame { s.passNs 1 with dict := d, adc := a }
    exact ⟨e, a, by rw [hsample, hwindow]⟩
  · exact ⟨s.dict, s.adc, rfl⟩

theorem passNs_one_c (s : State) : (s.passNs 1).time.c = s.time.c + rateWord (s.time.rC * 65536) := by
  simp [State.passNs, State.cWord]

/-- Settles O37, from the parts in which an idle step differs. -/
theorem idleStepPassesOneNanosecond : Obligations.IdleStepPassesOneNanosecond := by
  intro s hq
  obtain ⟨d, a, hidle⟩ := idle_frame s
  refine ⟨s.idle, step_of_nil hq, rfl, ?_⟩
  rw [hidle]
  exact ⟨rfl, passNs_one_c s, hq, rfl, rfl, rfl, rfl⟩

end Sys2Proof.Machine

/-! What the machine holds after reset (O54). -/
namespace Sys2Proof.Machine

/-- A register file with the same element everywhere. -/
theorem vget_replicate {α : Type} {n : Nat} (x : α) (i : Nat) : vget x (Vector.replicate n x) i = x := by
  simp only [vget, Vector.getElem?_replicate]
  split <;> rfl

/-- Settles O54: each store is empty or holds one element everywhere, and the rest is read off the state after reset. -/
theorem resetValues : Obligations.ResetValues := by
  refine ⟨rfl, rfl, rfl, rfl, rfl, fun k => ⟨rfl, rfl, rfl, rfl, rfl⟩, fun n _ => ?lanes, fun n _ => ?routes, fun e _ => ?engines,
    fun a _ => ?arms, rfl, rfl, rfl, rfl, fun c _ => ?conns, fun i _ => vget_replicate 0 i, rfl, rfl, rfl, rfl, rfl⟩
  case lanes =>
    have h : State.reset.lane n = Lane.reset := vget_replicate _ n
    exact h ▸ ⟨rfl, rfl⟩
  case routes =>
    have h : State.reset.route n = Route.reset := vget_replicate _ n
    exact h ▸ rfl
  case engines =>
    have h : State.reset.eng e = Engine.reset := vget_replicate _ e
    exact ⟨h ▸ rfl, vget_replicate none e⟩
  case arms =>
    have h : State.reset.arm a = Arm.reset := vget_replicate _ a
    exact h ▸ ⟨rfl, rfl, rfl⟩
  case conns =>
    have h : State.reset.conn c = Conn.reset := vget_replicate _ c
    exact h ▸ rfl

end Sys2Proof.Machine

/-! Sums and differences (R243, R261): what the three saturating operations leave, once their result is `satD` of the exact one. -/
namespace Sys2Proof.Machine

/-- From `s1` to `t` D register `n` of engine `e` took the exact result `y`, limited where SATD says so, with Z, N, C, V and DV. -/
def State.SatWritten (s1 t : State) (e : Nat) (n : BitVec 4) (y : Int) (carry : Bool) : Prop :=
  let r := (s1.eng e).r
  let satd := nbit r.flg.toNat 25
  let out := decide (y < -(2 ^ 31)) || decide (2 ^ 31 - 1 < y)
  let w : Word := BitVec.ofInt 32 (if satd && decide (y < -(2 ^ 31)) then -(2 ^ 31) else if satd && decide (2 ^ 31 - 1 < y) then 2 ^ 31 - 1 else y)
  (t.eng e).r.d = vset r.d n.toNat w ∧ (t.eng e).r.acc = r.acc ∧ (t.eng e).r.a = r.a ∧
    t.sram = s1.sram ∧ t.flash = s1.flash ∧ (∀ j, j ≠ e → t.eng j = s1.eng j) ∧
    ∀ j, j < 32 → nbit (t.eng e).r.flg.toNat j =
      if j = 0 then decide (w = 0) else if j = 1 then w.getLsbD 31 else if j = 2 then carry else if j = 3 then out
      else if j = 10 then nbit r.flg.toNat 10 || (out && satd) else nbit r.flg.toNat j

theorem finish_satD {s1 : State} {e : Nat} (he : e < 8) (n : BitVec 4) (y : Int) (c : Bool) :
    s1.SatWritten (s1.finish e { (s1.eng e).r.setRes n (satD (s1.eng e).r.flg y c) with stores := (s1.eng e).r.stores }) e n y c := by
  obtain ⟨fd, facc, fflg, fa, -⟩ :=
    finish_regs (s := s1) he { (s1.eng e).r.setRes n (satD (s1.eng e).r.flg y c) with stores := (s1.eng e).r.stores }
  obtain ⟨fsram, fflash, -, fother⟩ :=
    finish_frame (s := s1) (e := e) { (s1.eng e).r.setRes n (satD (s1.eng e).r.flg y c) with stores := (s1.eng e).r.stores }
  refine ⟨fd.trans (congrArg (vset (s1.eng e).r.d n.toNat) (satD_result _ y c)), facc, fa, fsram, fflash, fother, fun j hj => ?_⟩
  rw [fflg]
  refine (satD_flags (s1.eng e).r.flg y c hj).trans ?_
  rw [satD_result]
  rfl

theorem opNeg_eq_satD (f a : Word) : opNeg f a = satD f (-a.toInt) (decide (0 < a.toNat)) := by
  simp [opNeg, opSub]

/-- A command without moves that writes a saturating result: its word issues, meets its encoding, and its operation `f` is `satD` of
the exact result `y`. -/
theorem satWritten_of_pInstr {s s1 : State} {e st op : Nat} {w : BitVec 64} {ok : Bool} (hc : s.canIssue e = true)
    (h1 : s.issue e st w = s1) (hx : (PWord.of w).mx = 0) (hy : (PWord.of w).my = 0) {i : Instr} {n : BitVec 4} {f : EngRegs → Word × Word}
    (hi : exec i s = .next (s.pInstr e st w op ok true fun r => r.setRes n (f r))) (ho : opOf w = op) (hok : ok = true) {y : Int} {c : Bool}
    (hf : f (s1.eng e).r = satD (s1.eng e).r.flg y c) : ∃ t, exec i s = .next t ∧ s1.SatWritten t e n y c := by
  refine ⟨_, hi, ?_⟩
  rw [pInstr_plain2 hc h1 ho hx hy hok, hf]
  exact finish_satD (canIssue_lt hc) n y c

/-- Settles O50: the three results are `satD` of the sum, of the difference and of the negated operand. -/
theorem sumsAndDifferences : Obligations.SumsAndDifferences := by
  rintro s e st w x s1 rfl hc h1 hmx hmy hf4
  refine ⟨fun ho => ?add, fun ho => ?sub, fun ho hf3 => ?neg⟩
  case add => exact satWritten_of_pInstr (i := .add e st w) hc h1 hmx hmy rfl ho (by simp [hf4]) rfl
  case sub => exact satWritten_of_pInstr (i := .sub e st w) hc h1 hmx hmy rfl ho (by simp [hf4]) rfl
  case neg => exact satWritten_of_pInstr (i := .neg e st w) hc h1 hmx hmy rfl ho (by simp [hf3, hf4]) (opNeg_eq_satD _ _)

end Sys2Proof.Machine

/-! The instructions of the formats P and I (R260 to R262): a word that issues and meets its encoding does to the registers what its row
says, which is the function that its command hands to `State.pInstr` or `State.iInstr`. -/
namespace Sys2Proof.Machine

/-- A command of format P whose word issues, meets its encoding and has moves that fault nowhere. -/
theorem next_pInstr {s s1 : State} {e st op : Nat} {w : BitVec 64} {ok wr : Bool} (hc : s.canIssue e = true) (h1 : s.issue e st w = s1)
    (ho : opOf w = op) {f : EngRegs → EngRegs}
    (hm : movesFault (s1.eng e).r (moveOf (PWord.of w).mx) (moveOf (PWord.of w).my) (if wr then some (PWord.of w).f1.toNat else none) = 0)
    (hok : ok = true) :
    (.next (s.pInstr e st w op ok wr f) : Host.Outcome State Fault Refusal) = .next (s1.withMoves e (PWord.of w) f) := by
  rw [State.pInstr, issued_run hc h1 ho]
  simp [hm, hok]

/-- A command of format I whose word issues and meets its encoding. -/
theorem next_iInstr {s s1 : State} {e st op : Nat} {w : BitVec 64} {ok : Bool} (hc : s.canIssue e = true) (h1 : s.issue e st w = s1)
    (ho : opOf w = op) {f : EngRegs → EngRegs} (hok : ok = true) :
    (.next (s.iInstr e st w op ok f) : Host.Outcome State Fault Refusal) = .next (s1.finish e (f (s1.eng e).r)) := by
  rw [State.iInstr, issued_run hc h1 ho]
  simp [hok]

/-- Settles O11, by `next_pInstr` for each command. -/
theorem accumulatorInstructionsComplete : Obligations.AccumulatorInstructionsComplete := by
  rintro s e st w x s1 rfl hc h1 hm
  refine ⟨?nop, ?mpy, ?mac, ?msu, ?mpy4, ?mac4, ?msu4, ?clr, ?adda, ?suba, ?asla, ?asra, ?ldacc, ?nega, ?absa, ?clr4, ?cmp⟩
  case nop => exact fun ho hf1 hf2 hf3 hf4 => next_pInstr hc h1 ho hm (by simp [hf1, hf2, hf3, hf4])
  case mpy => exact fun ho hf1 hf4 => next_pInstr hc h1 ho hm (by simp [hf1, hf4])
  case mac => exact fun ho hf1 hf4 => next_pInstr hc h1 ho hm (by simp [hf1, hf4])
  case msu => exact fun ho hf1 hf4 => next_pInstr hc h1 ho hm (by simp [hf1, hf4])
  case mpy4 => exact fun ho hf1 hf4 hf3 => next_pInstr hc h1 ho hm (by simp [hf1, hf3, hf4])
  case mac4 => exact fun ho hf1 hf4 hf3 => next_pInstr hc h1 ho hm (by simp [hf1, hf3, hf4])
  case msu4 => exact fun ho hf1 hf4 hf3 => next_pInstr hc h1 ho hm (by simp [hf1, hf3, hf4])
  case clr => exact fun ho hf1 hf2 hf3 hf4 => next_pInstr hc h1 ho hm (by simp [hf1, hf2, hf3, hf4])
  case adda => exact fun ho hf1 hf2 hf4 hf3 => next_pInstr hc h1 ho hm (by simp [hf1, hf2, hf3, hf4])
  case suba => exact fun ho hf1 hf2 hf4 hf3 => next_pInstr hc h1 ho hm (by simp [hf1, hf2, hf3, hf4])
  case asla => exact fun ho hf1 hf3 hf4 => next_pInstr hc h1 ho hm (by simp [hf1, hf3, hf4])
  case asra => exact fun ho hf1 hf3 hf4 => next_pInstr hc h1 ho hm (by simp [hf1, hf3, hf4])
  case ldacc => exact fun ho hf1 hf3 hf4 => next_pInstr hc h1 ho hm (by simp [hf1, hf3, hf4])
  case nega => exact fun ho hf1 hf2 hf3 hf4 => next_pInstr hc h1 ho hm (by simp [hf1, hf2, hf3, hf4])
  case absa => exact fun ho hf1 hf2 hf3 hf4 => next_pInstr hc h1 ho hm (by simp [hf1, hf2, hf3, hf4])
  case clr4 => exact fun ho hf1 hf2 hf3 hf4 => next_pInstr hc h1 ho hm (by simp [hf1, hf2, hf3, hf4])
  case cmp => exact fun ho hf1 hf4 => next_pInstr hc h1 ho hm (by simp [hf1, hf4])

/-- Settles O12, by `next_pInstr` for each command. -/
theorem dataInstructionsComplete : Obligations.DataInstructionsComplete := by
  rintro s e st w x s1 rfl hc h1 hm
  refine ⟨?rnd, ?mov, ?add, ?sub, ?neg, ?min, ?max, ?and, ?or, ?xor, ?not, ?norm, ?mpyd, ?clamp⟩
  case rnd => exact fun ho hf2 hf3 hf4 => next_pInstr hc h1 ho hm (by simp [hf2, hf3, hf4])
  case mov => exact fun ho hf3 hf4 => next_pInstr hc h1 ho hm (by simp [hf3, hf4])
  case add => exact fun ho hf4 => next_pInstr hc h1 ho hm (by simp [hf4])
  case sub => exact fun ho hf4 => next_pInstr hc h1 ho hm (by simp [hf4])
  case neg => exact fun ho hf3 hf4 => next_pInstr hc h1 ho hm (by simp [hf3, hf4])
  case min => exact fun ho hf4 => next_pInstr hc h1 ho hm (by simp [hf4])
  case max => exact fun ho hf4 => next_pInstr hc h1 ho hm (by simp [hf4])
  case and => exact fun ho hf4 => next_pInstr hc h1 ho hm (by simp [hf4])
  case or => exact fun ho hf4 => next_pInstr hc h1 ho hm (by simp [hf4])
  case xor => exact fun ho hf4 => next_pInstr hc h1 ho hm (by simp [hf4])
  case not => exact fun ho hf3 hf4 => next_pInstr hc h1 ho hm (by simp [hf3, hf4])
  case norm => exact fun ho hf3 hf4 => next_pInstr hc h1 ho hm (by simp [hf3, hf4])
  case mpyd => exact fun ho hf4 => next_pInstr hc h1 ho hm (by simp [hf4])
  case clamp => exact fun ho hf4 => next_pInstr hc h1 ho hm (by simp [hf4])

/-- Settles O13, by `next_pInstr` for each command, in the state from which the free bit has been drawn. -/
theorem shiftInstructionsComplete : Obligations.ShiftInstructionsComplete := by
  rintro s e st w x b s0 s1 rfl hdraw hc h1 hm
  obtain ⟨rfl, rfl⟩ := Prod.mk.inj hdraw
  refine ⟨?abs, ?asli, ?asri, ?lsri, ?ashv⟩
  case abs => exact fun ho hf3 hf4 => next_pInstr hc h1 ho hm (by simp [hf3, hf4])
  case asli => exact fun ho hf4 => next_pInstr hc h1 ho hm (by simp [hf4])
  case asri => exact fun ho hf4 => next_pInstr hc h1 ho hm (by simp [hf4])
  case lsri => exact fun ho hf4 => next_pInstr hc h1 ho hm (by simp [hf4])
  case ashv => exact fun ho hf4 => next_pInstr hc h1 ho hm (by simp [hf4])

/-- Settles O14, by `next_iInstr` for each command. -/
theorem immediateInstructionsComplete : Obligations.ImmediateInstructionsComplete := by
  rintro s e st w x s1 rfl hc h1
  refine ⟨?ldi, ?addi, ?andi, ?ori, ?xori, ?cmpi, ?ldai, ?ldmi, ?ldbi, ?ldli, ?addai, ?tfr, ?setf, ?clrf⟩
  case ldi => exact fun ho hrb hfa hfb hun => next_iInstr hc h1 ho (by simp [hrb, hfa, hfb, hun])
  case addi => exact fun ho hrb hfa hfb hun => next_iInstr hc h1 ho (by simp [hrb, hfa, hfb, hun])
  case andi => exact fun ho hrb hfa hfb hun => next_iInstr hc h1 ho (by simp [hrb, hfa, hfb, hun])
  case ori => exact fun ho hrb hfa hfb hun => next_iInstr hc h1 ho (by simp [hrb, hfa, hfb, hun])
  case xori => exact fun ho hrb hfa hfb hun => next_iInstr hc h1 ho (by simp [hrb, hfa, hfb, hun])
  case cmpi => exact fun ho hrb hfa hfb hun => next_iInstr hc h1 ho (by simp [hrb, hfa, hfb, hun])
  case ldai => exact fun ho hrb hfa hfb hun hra => next_iInstr hc h1 ho (by simp [hrb, hfa, hfb, hun, hra])
  case ldmi => exact fun ho hrb hfa hfb hun hra => next_iInstr hc h1 ho (by simp [hrb, hfa, hfb, hun, hra])
  case ldbi => exact fun ho hrb hfa hfb hun hra => next_iInstr hc h1 ho (by simp [hrb, hfa, hfb, hun, hra])
  case ldli => exact fun ho hrb hfa hfb hun hra => next_iInstr hc h1 ho (by simp [hrb, hfa, hfb, hun, hra])
  case addai => exact fun ho hrb hfa hfb hun hra => next_iInstr hc h1 ho (by simp [hrb, hfa, hfb, hun, hra])
  case tfr => exact fun ho hun himm ha hb => next_iInstr hc h1 ho (by simp [hun, himm, ha, hb])
  case setf => exact fun ho hra hrb hfa hfb hun => next_iInstr hc h1 ho (by simp [hra, hrb, hfa, hfb, hun])
  case clrf => exact fun ho hra hrb hfa hfb hun => next_iInstr hc h1 ho (by simp [hra, hrb, hfa, hfb, hun])

end Sys2Proof.Machine

/-! The instructions of format C (R256, R257, R263) and the ports (R248, R264): the common frame of each kind, then each command as the
function that it hands to that frame. -/
namespace Sys2Proof.Machine

section
variable {s s1 : State} {e st op : Nat} {w : BitVec 64}

/-- A command of format C whose word issues and meets its encoding, outside a loop's last instruction and without a cause of its own. -/
theorem next_cInstr (hc : s.canIssue e = true) (h1 : s.issue e st w = s1) (ho : opOf w = op) (hend : (s1.eng e).r.atEnd = false)
    {ok : Bool} {cause : EngRegs → Nat} {f : State → EngRegs → State} (hok : ok = true) (hcause : cause (s1.eng e).r = 0)
    {t : State} (hf : f s1 (s1.eng e).r = t) : (.next (s.cInstr e st w op ok cause f) : Host.Outcome State Fault Refusal) = .next t := by
  rw [State.cInstr, issued_run hc h1 ho]
  simp [hok, hend, hcause, hf]

/-- A control instruction that only goes on to the next one. -/
theorem next_plainC (hc : s.canIssue e = true) (h1 : s.issue e st w = s1) (ho : opOf w = op) {ok : Bool} {f : State → State}
    (hok : ok = true) {t : State} (hf : f s1 = t) :
    (.next (s.plainC e st w op ok f) : Host.Outcome State Fault Refusal) = .next (t.finish e (t.eng e).r) := by
  rw [State.plainC, issued_run hc h1 ho]
  simp [hok, hf]

/-- An OUT to the port `p` of its command. -/
theorem next_outInstr (hc : s.canIssue e = true) (h1 : s.issue e st w = s1) (hok : portOk (PortWord.of w) = true) (ho : opOf w = 0x209)
    {p : Nat} (hp : (PortWord.of w).port.toNat = p) {has : Nat → Bool} {f : Nat → State → Word → State × Bool} (hhas : has p = true)
    {t : State} {pr : Bool} (hf : f p s1 ((s1.eng e).r.rd (PortWord.of w).dr) = (t, pr)) :
    (.next (s.outInstr e st w has f) : Host.Outcome State Fault Refusal)
      = .next (t.finish e { (t.eng e).r with flg := flgSticky (t.eng e).r.flg 11 pr }) := by
  subst hp
  rw [State.outInstr, issued_run hc h1 ho]
  simp [hok, hhas, hf]

/-- An IN from the port `p` of its command. -/
theorem next_inInstr (hc : s.canIssue e = true) (h1 : s.issue e st w = s1) (hok : portOk (PortWord.of w) = true) (ho : opOf w = 0x208)
    {p : Nat} (hp : (PortWord.of w).port.toNat = p) {has : Nat → Bool} {f : Nat → State → State × Word × Bool} (hhas : has p = true)
    {t : State} {v : Word} {pr : Bool} (hf : f p s1 = (t, v, pr)) :
    (.next (s.inInstr e st w has f) : Host.Outcome State Fault Refusal)
      = .next (t.finish e { (t.eng e).r with
          d := vset (t.eng e).r.d (PortWord.of w).dr.toNat v, flg := flgSticky (t.eng e).r.flg 11 pr }) := by
  subst hp
  rw [State.inInstr, issued_run hc h1 ho]
  simp [hok, hhas, hf]

end

/-- A parity error of the register files where a task runs: the exception of cause 12, over the engine's own error line. -/
theorem exception_parity {s : State} {e : Nat} {i : Inst} (h : s.running e = some i) : s.exception e 12 =
    let last := (s.eng e).r.pc.toNat * 65536 + i.desc * 256 + 12
    let s1 := (((s.incL (Obj.EXC_CNT e)).setLN (Obj.LAST_EXC e) last).journal (0x90 + e) (w32 last)).irqEdge 5 e
    (s1.taskEnd e).raiseAs (3 + e) (s.na Obj.EXC_CLASS) e .k := by
  simp [State.exception, h]

/-- Settles O15: `next_cInstr` or `next_plainC` for each command, with the branch that its condition takes. -/
theorem controlInstructionsComplete : Obligations.ControlInstructionsComplete := by
  refine ⟨?jumps, ?sync, ?trap, ?bkptDenied, ?bkptAllowed, ?parity⟩
  case jumps =>
    rintro s e st w x s1 rfl hc h1 hend hun
    refine ⟨?braTaken, ?braNot, ?callTaken, ?callNot, ?retTaken, ?retNot, ?loop, ?loopd, ?done⟩
    case braTaken => exact fun ho hdr hcnt hcond => next_cInstr hc h1 ho hend (by simp [hdr, hcnt, hun]) rfl (if_pos hcond)
    case braNot => exact fun ho hdr hcnt hcond => next_cInstr hc h1 ho hend (by simp [hdr, hcnt, hun]) rfl (if_neg (by simp [hcond]))
    case callTaken =>
      exact fun ho hdr hcnt hcond hroom => next_cInstr hc h1 ho hend (by simp [hdr, hcnt, hun]) (if_neg (by omega)) (if_pos hcond)
    case callNot =>
      exact fun ho hdr hcnt hcond =>
        next_cInstr hc h1 ho hend (by simp [hdr, hcnt, hun]) (if_neg (by simp [hcond])) (if_neg (by simp [hcond]))
    case retTaken =>
      exact fun t rest ho hdr hcnt htarget hcond hrets =>
        next_cInstr hc h1 ho hend (by simp [hdr, hcnt, hun, htarget]) (if_neg (by simp [hrets])) (by simp only [hcond, hrets])
    case retNot =>
      exact fun ho hdr hcnt htarget hcond =>
        next_cInstr hc h1 ho hend (by simp [hdr, hcnt, hun, htarget]) (if_neg (by simp [hcond])) (by simp only [hcond])
    case loop => exact fun ho hcond hdr hfault => next_cInstr hc h1 ho hend (by simp [hcond, hdr, hun]) hfault rfl
    case loopd => exact fun ho hcond hcnt hfault => next_cInstr hc h1 ho hend (by simp [hcond, hcnt, hun]) (by exact hfault) rfl
    case done => exact fun t i ho hx hrun => next_cInstr hc h1 ho hend (by simp [hx]) rfl (by simp only [hrun])
  case sync => exact fun s e st w s1 ho hx hc h1 => next_plainC hc h1 ho (by simp [hx]) rfl
  case trap =>
    intro s e st w cnt ho hx hc
    refine congrArg Host.Outcome.next ((issued_run hc rfl ho _).trans ?_)
    simp [hx]
  case bkptDenied => exact fun s e st w s1 ho hx hc h1 hjtag => next_plainC hc h1 ho (by simp [hx]) (if_neg (by simp [hjtag]))
  case bkptAllowed => exact fun s e st w s1 ho hx hc h1 hjtag => next_plainC hc h1 ho (by simp [hx]) (if_pos hjtag)
  case parity =>
    rintro s s0 e i rfl hrun
    exact congrArg Host.Outcome.next (exception_parity hrun)

theorem progWrite_low {s : State} (e i : Nat) (v : Word) (hrun : s.mode ≠ .run) (hride : s.mode ≠ .ridethrough) :
    s.progWrite e i false v = { s with cup := { s.cup with progLatch := vset s.cup.progLatch 0 (some (progAddr e i, v)) } } := by
  simp [State.progWrite, hrun, hride]

/-- The low half that a write of the high half stores below it: the one held for the word, or the one that stood there. -/
def State.progLow (s : State) (a : Nat) : Word :=
  match vget none s.cup.progLatch 0 with
  | some (b, w) => if b = a then w else s.rdW a
  | none => s.rdW a

theorem progWrite_high {s : State} (e i : Nat) (v : Word) (hrun : s.mode ≠ .run) (hride : s.mode ≠ .ridethrough) :
    s.progWrite e i true v =
      let t := (s.wrW (progAddr e i) (s.progLow (progAddr e i))).wrW (progAddr e i + 4) v
      { t with cup := { t.cup with progLatch := vset t.cup.progLatch 0 none } } := by
  simp only [State.progWrite, hrun, hride, or_self, if_false, if_true]
  rfl

/-- Settles O16: `next_outInstr` or `next_inInstr` for each port, and the two halves of a program word. -/
theorem portInstructionsComplete : Obligations.PortInstructionsComplete := by
  refine ⟨?ports, ?progLow, ?progHigh⟩
  case ports =>
    rintro s e st w x s1 rfl hc h1 hok
    refine ⟨?armRef, ?selIdir, ?rtReq, ?beaconSend, ?probe, ?outSem, ?inSem, ?taskRelease, ?dictSel, ?outDictData, ?inDictData,
      ?dictResult, ?frameLo, ?frameHi, ?ctimeLo, ?ctimeHi, ?engineId, ?taskId, ?taskCycles, ?inUnlisted, ?outUnlisted⟩
    case armRef => exact fun a ho hp => next_outInstr hc h1 hok ho hp (by simp) rfl
    case selIdir => exact fun a ho hp => next_outInstr hc h1 hok ho hp (by simp; omega) (by simp only [Nat.add_sub_cancel_left]; rfl)
    case rtReq => exact fun ho hp => next_outInstr hc h1 hok ho hp rfl rfl
    case beaconSend => exact fun ho hp => next_outInstr hc h1 hok ho hp rfl rfl
    case probe =>
      intro p ho hp hkind
      have hindex : (0x30 + p.val) % 16 = p.val := by omega
      exact next_outInstr hc h1 hok ho hp (decide_eq_true (by omega)) (by simp only [hindex]; exact if_pos hkind)
    case outSem =>
      intro n ho hp
      have hindex : (0x40 + n.val) % 16 = n.val := by omega
      exact next_outInstr hc h1 hok ho hp (decide_eq_true (by omega)) (by simp only [hindex])
    case inSem =>
      intro n ho hp
      have hindex : (0x40 + n.val) % 16 = n.val := by omega
      exact next_inInstr hc h1 hok ho hp (decide_eq_true (by omega)) (by simp only [hindex])
    case taskRelease => exact fun ho hp => next_outInstr hc h1 hok ho hp rfl rfl
    case dictSel => exact fun ho hp => next_outInstr hc h1 hok ho hp rfl rfl
    case outDictData => exact fun ho hp => next_outInstr hc h1 hok ho hp rfl rfl
    case inDictData => exact fun ho hp => next_inInstr hc h1 hok ho hp rfl rfl
    case dictResult => exact fun ho hp => next_inInstr hc h1 hok ho hp rfl rfl
    case frameLo => exact fun ho hp => next_inInstr hc h1 hok ho hp rfl rfl
    case frameHi => exact fun ho hp => next_inInstr hc h1 hok ho hp rfl rfl
    case ctimeLo => exact fun ho hp => next_inInstr hc h1 hok ho hp rfl rfl
    case ctimeHi => exact fun ho hp => next_inInstr hc h1 hok ho hp rfl rfl
    case engineId => exact fun ho hp => next_inInstr hc h1 hok ho hp rfl rfl
    case taskId => exact fun i ho hp hrun => next_inInstr hc h1 hok ho hp rfl (by simp [hrun])
    case taskCycles => exact fun ho hp => next_inInstr hc h1 hok ho hp rfl rfl
    case inUnlisted => exact fun ho hlisted => next_inInstr hc h1 hok ho rfl (by simp [hlisted]) rfl
    case outUnlisted => exact fun ho hlisted => next_outInstr hc h1 hok ho rfl (by simp [hlisted]) rfl
  case progLow => exact fun s e i v hrun hride => congrArg (fun t => Host.Outcome.next (State.hostRetire t)) (progWrite_low _ _ v hrun hride)
  case progHigh =>
    intro s e i v w hrun hride hheld
    have hlow : s.progLow (progAddr e.val i.toNat) = w := by simp [State.progLow, hheld]
    rw [← hlow]
    exact congrArg (fun t => Host.Outcome.next (State.hostRetire t)) (progWrite_high _ _ v hrun hride)

end Sys2Proof.Machine

/-! Reset (R528, R529): what it takes from the state before it, and what RESET_CAUSE reads as after it (O53). -/
namespace Sys2Proof.Machine

/-- The address lies in the secure bank (R449). -/
def inSecureBank (a : Nat) : Bool := decide (secAddr 0 ≤ a) && decide (a < secAddr 0x10000)

/-- All that a reset takes from the state before it, once the tamper causes accepted during a fusing have wiped. -/
structure State.ResetAlike (v w : State) : Prop where
  tamperCnt : v.gl Obj.TAMPER_LOG_CNT = w.gl Obj.TAMPER_LOG_CNT
  secure : v.sram.filter (fun c => inSecureBank c.1) = w.sram.filter fun c => inSecureBank c.1
  life : v.mem.life = w.mem.life
  fusing : v.mem.fusing = w.mem.fusing
  flash : v.flash = w.flash
  jtag : v.jtag = w.jtag
  pending : v.pending = w.pending
  free : v.free = w.free

/-- Canonical memories that read alike in the secure bank have the same entries there. -/
theorem secure_filter_congr {t u : List Host.Cell} (ht : twf sramDefault t = true) (hu : twf sramDefault u = true)
    (h : ∀ a, secAddr 0 ≤ a → a < secAddr 0x10000 → tget sramDefault t a = tget sramDefault u a) :
    t.filter (fun c => inSecureBank c.1) = u.filter fun c => inSecureBank c.1 := by
  refine twf_ext (twf_filter _ ht) (twf_filter _ hu) fun k => ?_
  rw [tget_filter _ _ ht, tget_filter _ _ hu]
  by_cases hk : inSecureBank k = true
  · obtain ⟨hlo, hhi⟩ : secAddr 0 ≤ k ∧ k < secAddr 0x10000 := by simpa [inSecureBank] using hk
    simp only [hk, if_true, h k hlo hhi]
  · simp only [hk, Bool.false_eq_true, if_false]

theorem resetTo_congr {s u : State} (h : (s.fuseTampers false).ResetAlike (u.fuseTampers false)) (low good : Bool) (cause : Nat) :
    s.resetTo low good cause = u.resetTo low good cause := by
  obtain ⟨htamper, hsecure, hlife, hfusing, hflash, hjtag, hpending, hfree⟩ := h
  unfold inSecureBank at hsecure
  simp only [State.resetTo, State.lifeAfterReset, htamper, hsecure, hlife, hfusing, hflash, hjtag, hpending, hfree]

/-- The state in which BOOT begins, before a reserved BOOT_SEL raises its fault. -/
def State.bootSampled (s : State) (sel : BitVec 2) : State :=
  let s1 := s.resetTo false true s.boot.cause
  let j := s1.jtag
  ({ s1 with jtag := if j.ir = .extest then { j with ir := .bypass, driving := false } else j } : State).setBoot { s1.boot with
    selPins := sel
    provisioning := decide (sel = 3) && (decide (s1.mem.life = .blank) || decide (s1.mem.life = .returned)) }

theorem startBoot_eq (s : State) (sel : BitVec 2) :
    s.startBoot sel = if sel = 2 then (s.bootSampled sel).raiseAs 21 1 0 .n else s.bootSampled sel := rfl

theorem startBoot_congr {s u : State} (h : (s.fuseTampers false).ResetAlike (u.fuseTampers false)) (hcause : s.boot.cause = u.boot.cause)
    (sel : BitVec 2) : s.startBoot sel = u.startBoot sel := by
  simp only [startBoot_eq, State.bootSampled, hcause, resetTo_congr h]

/-- RESET_CAUSE after a reset (R512). -/
theorem resetTo_cause (s : State) (low good : Bool) (cause : Nat) : (s.resetTo low good cause).gl Obj.RESET_CAUSE = w32 cause := by
  have hempty : twf dfltW [] = true := rfl
  have hother : Obj.RESET_CAUSE ≠ Obj.TAMPER_LOG_CNT := by decide
  show tget dfltW (tput dfltW (tput dfltW [] Obj.RESET_CAUSE (w32 cause)) Obj.TAMPER_LOG_CNT _) Obj.RESET_CAUSE = _
  rw [tget_tput (twf_tput hempty), if_neg hother, tget_tput hempty, if_pos rfl]

theorem bootSampled_cause (s : State) (sel : BitVec 2) : (s.bootSampled sel).gl Obj.RESET_CAUSE = w32 s.boot.cause :=
  resetTo_cause s false true s.boot.cause

theorem resets_cases {c : Instr} (h : c.resets = true) :
    c = .pwrgoodFall ∨ c = .resetNAssert ∨ (∃ sel tamper, c = .resetNRelease sel tamper) ∨ ∃ sel, c = .sysreset sel := by
  cases c with
  | pwrgoodFall => exact .inl rfl
  | resetNAssert => exact .inr (.inl rfl)
  | resetNRelease sel tamper => exact .inr (.inr (.inl ⟨sel, tamper, rfl⟩))
  | sysreset sel => exact .inr (.inr (.inr ⟨sel, rfl⟩))
  | _ => exact absurd h (by simp [Instr.resets])

theorem exec_pwrgoodFall {s : State} (h : s.boot.pwrgood = true) : exec .pwrgoodFall s = .next (s.resetTo true false 1) :=
  congrArg Host.Outcome.next (if_pos h)

theorem exec_resetNAssert {s : State} (h : s.boot.resetLow = false) : exec .resetNAssert s = .next (s.resetTo true true 2) :=
  congrArg Host.Outcome.next (if_neg (by simp [h]))

theorem exec_resetNRelease {s : State} (hlow : s.boot.resetLow = true) (hgood : s.boot.pwrgood = true) (sel tamper : BitVec 2) :
    exec (.resetNRelease sel tamper) s = .next ((s.startBoot sel).tamperAtRelease tamper) :=
  congrArg Host.Outcome.next (if_pos (by simp [hlow, hgood]))

theorem exec_sysreset {s : State} (h : s.boot.resetLow = false) (sel : BitVec 2) :
    exec (.sysreset sel) s = .next ((s.resetTo true true 3).startBoot sel) :=
  congrArg Host.Outcome.next (if_neg (by simp [h]))

/-- Settles O53: every reset that takes effect is made of `State.resetTo`, which takes no more than `State.ResetAlike` names. -/
theorem resetLeavesNoTrace : Obligations.ResetLeavesNoTrace := by
  refine ⟨?same, ?cause⟩
  case same =>
    rintro c s u v w hresets heff hs hu rfl rfl htamper hsec hlife hfusing hflash hjtag hlow hgood hcause hpending hfree
    have halike : (s.fuseTampers false).ResetAlike (u.fuseTampers false) :=
      ⟨htamper, secure_filter_congr (fuseTampers_ok hs.ok_kept).sram (fuseTampers_ok hu.ok_kept).sram hsec, hlife, hfusing, hflash, hjtag,
        hpending, hfree⟩
    obtain rfl | rfl | ⟨sel, tamper, rfl⟩ | ⟨sel, rfl⟩ := resets_cases hresets
    · rw [exec_pwrgoodFall heff, exec_pwrgoodFall (hgood ▸ heff), resetTo_congr halike]
    · rw [exec_resetNAssert heff, exec_resetNAssert (hlow ▸ heff), resetTo_congr halike]
    · obtain ⟨hl, hg⟩ := heff
      rw [exec_resetNRelease hl hg, exec_resetNRelease (hlow ▸ hl) (hgood ▸ hg), startBoot_congr halike hcause]
    · rw [exec_sysreset heff, exec_sysreset (hlow ▸ heff), resetTo_congr halike]
  case cause =>
    intro c s hresets heff
    obtain rfl | rfl | ⟨sel, tamper, rfl⟩ | ⟨sel, rfl⟩ := resets_cases hresets
    · exact ⟨_, exec_pwrgoodFall heff, resetTo_cause s _ _ _⟩
    · exact ⟨_, exec_resetNAssert heff, resetTo_cause s _ _ _⟩
    · exact ⟨s.bootSampled sel, exec_resetNRelease heff.1 heff.2 sel tamper, bootSampled_cause s sel⟩
    · exact ⟨(s.resetTo true true 3).bootSampled sel, exec_sysreset heff sel, bootSampled_cause _ sel⟩

end Sys2Proof.Machine

/-! The Event Journal (R474 to R477) and the host's writes of program memory (R267): O56 and O59. -/
namespace Sys2Proof.Machine

/-- A command that writes an object and passes the checks: its effect with the path's report. -/
theorem next_guardWrite {s : State} {key : Nat} {v : Word} (h : s.takes key v) {p : Path} {eff : State → WOut} {t : State} {reason : Nat}
    (he : eff s = (t, reason)) :
    (.next (s.guardWrite p key v eff) : Host.Outcome State Fault Refusal) = .next (t.report p key reason) := by
  rw [guardWrite_takes h, he]

theorem journalWrite_cons {s : State} {r : JRec} {rest : List JRec} (hq : s.jrn.staging = r :: rest) (hroom : s.jrn.count < 4096) :
    s.journalWrite = ({ s.wrBytes (bankAddr 167 (16 * s.jrn.wr)) r.bytes with
      jrn := { s.jrn with staging := rest, wr := (s.jrn.wr + 1) % 4096, count := s.jrn.count + 1 } } : State).jrnLevels := by
  simp only [State.journalWrite, hq, hroom, if_true]
  rfl

/-- A record of a lower source code goes ahead of the one record of its cycle, and the two keep the numbers in order (R475, R476). -/
theorem stageRec_ahead {s : State} {r x : JRec} (hq : s.jrn.staging = [x]) (hcycle : s.jrn.cycle = s.nowL / 2) (hone : s.jrn.inCycle = 1)
    (hcont : x.cont = false) (hlt : r.source < x.source) :
    (s.stageRec r).jrn.staging = [{ r with seq := x.seq }, { x with seq := s.jrn.seq }] := by
  have hinsert : insertRec r [x] = [r, x] := if_pos ⟨hlt, hcont⟩
  simp [State.stageRec, hq, hcycle, hone, hinsert]

theorem journalRec_of_room {s : State} {r : JRec} (h : s.jrn.staging.length < 64) : s.journalRec r = s.stageRec r := if_pos h

theorem wrJrnPop_held {s : State} {v : Word} (hpos : 0 < v.toNat) (hle : v.toNat ≤ s.jrn.count) :
    wrJrnPop v s = (({ s with jrn := { s.jrn with rd := (s.jrn.rd + v.toNat) % 4096, count := s.jrn.count - v.toNat } }).jrnLevels, 0) := by
  have hne : ¬ v.toNat = 0 := by omega
  have hroom : ¬ s.jrn.count < v.toNat := by omega
  simp [wrJrnPop, hne, hroom, done]

/-- Settles O59, from the staging of a record, the write of the oldest one and the pop. -/
theorem journalCommandsComplete : Obligations.JournalCommandsComplete := by
  refine ⟨fun s r x hq hcycle hone hcont hlt => ?stage, fun s r rest hq hroom => ?write, fun s p v htakes hpos hle => ?pop⟩
  case stage =>
    rw [journalRec_of_room (by simp [hq])]
    exact stageRec_ahead hq hcycle hone hcont hlt
  case write => exact congrArg Host.Outcome.next (journalWrite_cons hq hroom)
  case pop => exact next_guardWrite htakes (wrJrnPop_held hpos hle)

theorem progWrite_discarded {s : State} (e i : Nat) (hi : Bool) (v : Word) (h : s.mode = .run ∨ s.mode = .ridethrough) :
    s.progWrite e i hi v = s.incL Obj.PROG_WR_DISCARD_CNT := if_pos h

/-- What the high half of a program word stores: the word, over the low half held for it or standing there. -/
theorem progWrite_high_bytes {s : State} (h : s.Inv) (e i : Nat) (v : Word) (hrun : s.mode ≠ .run) (hride : s.mode ≠ .ridethrough) :
    let at0 := progAddr e i
    let t := s.progWrite e i true v
    t.rdW (at0 + 4) = v ∧ t.rdW at0 = s.progLow at0 ∧
      (∀ a, ¬ (at0 ≤ a ∧ a < at0 + 8) → tget sramDefault t.sram a = tget sramDefault s.sram a) ∧ t.flash = s.flash := by
  obtain ⟨⟨hsram, -⟩, -⟩ := h
  have hsram1 : twf sramDefault (s.wrW (progAddr e i) (s.progLow (progAddr e i))).sram = true := twf_tputs hsram
  rw [progWrite_high e i v hrun hride]
  refine ⟨rdW_wrW hsram1 _ v, ?low, fun a ha => ?other, rfl⟩
  case low => exact (rdW_wrW_other hsram1 v (Or.inl (Nat.le_refl _))).trans (rdW_wrW hsram _ _)
  case other => exact (tget_wrW_other hsram1 v (by omega)).trans (tget_wrW_other hsram _ (by omega))

theorem progLow_eq (s : State) (a : Nat) : s.progLow a =
    if (vget none s.cup.progLatch 0).map (·.1) = some a then ((vget none s.cup.progLatch 0).map (·.2)).getD 0 else s.rdW a := by
  unfold State.progLow
  cases vget none s.cup.progLatch 0 with
  | none => simp
  | some held => simp

/-- A write of a low half, or any write in RUN and RIDETHROUGH, stores nothing. -/
theorem progWrite_stores_nothing {s : State} (e i : Nat) (hi : Bool) (v : Word)
    (h : hi = false ∨ s.mode = .run ∨ s.mode = .ridethrough) :
    (s.progWrite e i hi v).sram = s.sram ∧ (s.progWrite e i hi v).flash = s.flash := by
  by_cases hmode : s.mode = .run ∨ s.mode = .ridethrough
  · rw [progWrite_discarded e i hi v hmode]
    exact ⟨rfl, rfl⟩
  · obtain ⟨hrun, hride⟩ := not_or.mp hmode
    obtain rfl : hi = false := h.resolve_right hmode
    rw [progWrite_low e i v hrun hride]
    exact ⟨rfl, rfl⟩

theorem journalWrite_mem {s : State} {r : JRec} {rest : List JRec} (hq : s.jrn.staging = r :: rest) (hroom : s.jrn.count < 4096) :
    s.journalWrite.sram = (s.wrBytes (bankAddr 167 (16 * s.jrn.wr)) r.bytes).sram ∧ s.journalWrite.flash = s.flash := by
  obtain ⟨hsram, hflash⟩ := jrnLevels_mem ({ s.wrBytes (bankAddr 167 (16 * s.jrn.wr)) r.bytes with
    jrn := { s.jrn with staging := rest, wr := (s.jrn.wr + 1) % 4096, count := s.jrn.count + 1 } } : State)
  rw [journalWrite_cons hq hroom, hsram, hflash]
  simp only [State.wrBytes_flash, and_self]

/-- The record written to the ring is read back, and every other byte stays. -/
theorem journalWrite_bytes {s : State} (h : s.Inv) {r : JRec} {rest : List JRec} (hq : s.jrn.staging = r :: rest)
    (hroom : s.jrn.count < 4096) :
    let at0 := bankAddr 167 (16 * s.jrn.wr)
    s.journalWrite.rdBytes at0 16 = r.bytes ∧
      (∀ a, ¬ (at0 ≤ a ∧ a < at0 + 16) → tget sramDefault s.journalWrite.sram a = tget sramDefault s.sram a) ∧
      s.journalWrite.flash = s.flash := by
  obtain ⟨⟨hsram, -⟩, -⟩ := h
  obtain ⟨hwrites, hflash⟩ := journalWrite_mem hq hroom
  have hbytes := rdBytes_wrBytes hsram (bankAddr 167 (16 * s.jrn.wr)) r.bytes 16 (jrec_length r)
  refine ⟨?_, fun a ha => ?_, hflash⟩
  · rwa [State.rdBytes, hwrites]
  · rw [hwrites, tget_wrBytes hsram, if_neg (by rwa [jrec_length])]

/-- Settles O56, from what the two halves of a program word and the journal's record store. -/
theorem storesReachTheirBytesOnly : Obligations.StoresReachTheirBytesOnly := by
  refine fun s h => ⟨fun e i v hrun hride => ?high, fun e i hi v hlow => ?nothing, fun r rest hq hroom => ?journal⟩
  case high =>
    obtain ⟨hword, hlow, hother, hflash⟩ := progWrite_high_bytes h e.val i.toNat v hrun hride
    exact ⟨_, rfl, hword, hlow.trans (progLow_eq s _), hother, hflash⟩
  case nothing => exact ⟨_, rfl, progWrite_stores_nothing e.val i.toNat hi v hlow⟩
  case journal => exact ⟨_, rfl, journalWrite_bytes h hq hroom⟩

end Sys2Proof.Machine

/-! The cause tree's summary and the acknowledge of fault sources (R442, R470, R473): O57 and O58. -/
namespace Sys2Proof.Machine

theorem objPeek_summary (s : State) : s.objPeek Obj.SUMMARY = s.summary := objPeek_of_views rfl (by decide) rfl

/-- IRQ_N is asserted exactly while a group that is up stands outside SUMMARY_MASK (R470, R473). -/
theorem irqAsserted_iff (s : State) : s.irqAsserted = true ↔ ∃ g, g < 32 ∧
    (s.pendOf g ||| (if s.irq.hclkRuns then 0 else vget 0 s.irq.latch g)) &&& ~~~(s.gl (Obj.MASK g)) ≠ 0 ∧
      nbit (s.gl Obj.SUMMARY_MASK).toNat g = false := by
  refine (word_outside _ _).trans (exists_congr fun g => and_congr_right fun hg => ?_)
  rw [groupsUp_bit s _ hg, decide_eq_true_iff]

/-- A group's mask is a plain object without reserved bits. -/
theorem objEffect_mask (p : Path) (v : Word) (s : State) :
    ∀ g, g < 32 → objEffect p (Obj.MASK g) v s = (s.setL (Obj.MASK g) (v &&& 0xFFFFFFFF), 0)
  | 0, _ | 1, _ | 2, _ | 3, _ | 4, _ | 5, _ | 6, _ | 7, _ | 8, _ | 9, _ | 10, _ | 11, _ | 12, _ | 13, _ | 14, _ | 15, _
    | 16, _ | 17, _ | 18, _ | 19, _ | 20, _ | 21, _ | 22, _ | 23, _ | 24, _ | 25, _ | 26, _ | 27, _ | 28, _ | 29, _ | 30, _ | 31, _ => rfl
  | g + 32, hg => absurd hg (by omega)

/-- Settles O57, from the bits of the groups that are up. -/
theorem summaryFollowsPending : Obligations.SummaryFollowsPending := by
  refine ⟨fun s g hg => ?summary, fun s hruns => ?runs, fun s hstopped => ?stopped, fun s p g v hg htakes => ?mask⟩
  case summary =>
    rw [objPeek_summary]
    exact summary_bit s hg
  case runs =>
    rw [irqAsserted_iff]
    refine exists_congr fun g => and_congr_right fun hg => ?_
    rw [objPeek_summary, summary_bit s hg, decide_eq_true_iff, hruns, if_pos rfl,
      show s.pendOf g ||| 0 = s.pendOf g from BitVec.or_zero]
  case stopped =>
    rw [irqAsserted_iff]
    refine exists_congr fun g => and_congr_right fun _ => ?_
    rw [hstopped, if_neg Bool.false_ne_true]
  case mask =>
    have heff := objEffect_mask p v s g hg
    rw [show v &&& 0xFFFFFFFF = v from BitVec.and_allOnes] at heff
    exact ⟨_, next_guardWrite htakes heff, rfl, rfl⟩

theorem contains_maskBits (lo hi : Word) {n : Nat} (hn : n < 64) :
    (maskBits lo hi).contains n = if n < 32 then nbit lo.toNat n else nbit hi.toNat (n - 32) := by
  rw [Bool.eq_iff_iff]
  simp [maskBits, idxs, hn]

/-- Settles O58, from what acknowledging a list of sources clears. -/
theorem acknowledgeClearsInactiveSources : Obligations.AcknowledgeClearsInactiveSources := by
  intro s p hi htakes lo named
  have hbounds : ∀ n ∈ maskBits lo hi, n < 64 := fun n hn => by
    simp only [maskBits, idxs, List.mem_filter, List.mem_range] at hn
    exact hn.1
  obtain ⟨hset, ⟨hactive, heff, htests, hresult, hmode, hsram, hflash, hlanes, hroutes, harms⟩, -⟩ :=
    ack_frame (pathNum p) (maskBits lo hi) s hbounds
  refine ⟨(s.faultAck (pathNum p) lo hi).dropLow p, next_guardWrite htakes rfl, fun n hn => ?sets,
    hactive, heff, htests, hresult, hmode, hsram, hflash, hlanes, hroutes, harms⟩
  case sets =>
    refine (hset n hn).trans ?_
    rw [contains_maskBits lo hi hn, Bool.or_assoc]
    rfl

end Sys2Proof.Machine

/-! Writes that fail a check (R7, R66, R368, R480): O55. -/
namespace Sys2Proof.Machine

/-- `t` has every object copy but the live ones, both memories and the state of the blocks as `s` has them. -/
def State.Untouched (s t : State) : Prop :=
  t.act = s.act ∧ t.stg = s.stg ∧ t.kAct = s.kAct ∧ t.kStg = s.kStg ∧ t.sram = s.sram ∧ t.flash = s.flash ∧ t.mode = s.mode ∧
    t.commit = s.commit ∧ t.frame = s.frame ∧ t.lanes = s.lanes ∧ t.routes = s.routes ∧ t.arms = s.arms ∧ t.sched = s.sched ∧
    t.time = s.time ∧ t.pwm = s.pwm ∧ t.wt = s.wt ∧ t.fault = s.fault ∧ t.irq = s.irq ∧ t.jrn = s.jrn ∧ t.pending = s.pending

theorem State.untouched_refl (s : State) : s.Untouched s :=
  ⟨rfl, rfl, rfl, rfl, rfl, rfl, rfl, rfl, rfl, rfl, rfl, rfl, rfl, rfl, rfl, rfl, rfl, rfl, rfl, rfl⟩

theorem untouched_incL {s t : State} (h : s.Untouched t) (k : Nat) : s.Untouched (t.incL k) := h

theorem untouched_incIf {s t : State} (h : s.Untouched t) (c : Bool) (k : Nat) : s.Untouched (t.incIf c k) := by
  cases c with
  | false => exact h
  | true => exact untouched_incL h k

theorem untouched_report {s t : State} (h : s.Untouched t) (p : Path) (key reason : Nat) : s.Untouched (t.report p key reason) := by
  unfold State.report
  cases p with
  | host => dsimp only; split <;> exact h
  | mailbox => dsimp only; split <;> exact h
  | processData => dsimp only; split <;> exact h
  | cupola e => exact h

/-- A write that fails a check is reported with its reason, the claim of ADC-B counted (R368). -/
theorem registerWrite_refused {s : State} (h : s.boot.resetLow = false) (p : Path) {key reason : Nat} {v : Word}
    (hcheck : s.checkWrite key v = reason) (hne : reason ≠ 0) :
    exec (.registerWrite p key v) s
      = .next (((s.incIf (decide (reason = 5)) Obj.STAGE_WRITE_REFUSED_CNT).countClaim key reason).report p key reason) := by
  subst hcheck
  exact congrArg Host.Outcome.next (guardWrite_refused h hne p _)

/-- A refusal that counts no staged write. -/
theorem registerWrite_refused_plain {s : State} (h : s.boot.resetLow = false) (p : Path) {key reason : Nat} {v : Word}
    (hcheck : s.checkWrite key v = reason) (hne : reason ≠ 0) (hlisted : reason ≠ 2) (hstaged : reason ≠ 5) :
    exec (.registerWrite p key v) s = .next ((s.incIf (s.claims key) Obj.CLAIM_REFUSED_CNT).report p key reason) := by
  rw [registerWrite_refused h p hcheck hne]
  simp [State.countClaim, State.incIf, hlisted, hstaged]

/-- A write that passes the checks but names an object of the claimed ADC-B (R368). -/
theorem registerWrite_claimed {s : State} (h : s.boot.resetLow = false) (p : Path) {key : Nat} {v : Word}
    (hcheck : s.checkWrite key v = 0) (hclaim : s.claims key = true) :
    exec (.registerWrite p key v) s = .next ((s.incL Obj.CLAIM_REFUSED_CNT).report p key 6) := by
  refine congrArg Host.Outcome.next ?_
  simp [State.objWrite, State.guardWrite, h, State.tryWrite, hcheck, hclaim, State.incIf, State.countClaim]

/-- What a reported refusal answers. -/
theorem refused_untouched {s u : State} {p : Path} {key reason : Nat} {v : Word}
    (he : exec (.registerWrite p key v) s = .next (u.report p key reason)) (hu : s.Untouched u) :
    ∃ t, exec (.registerWrite p key v) s = .next t ∧ t = u.report p key reason ∧ s.Untouched t :=
  ⟨_, he, rfl, untouched_report hu p key reason⟩

section
variable {s : State} {key : Nat} {v : Word} {r : ORow} {i j : Nat} (hrow : rowOf key = some (r, i, j))
include hrow

theorem checkWrite_readOnly (hro : r.acc = .ro) : s.checkWrite key v = 1 := by
  simp [State.checkWrite, hrow, hro]

theorem checkWrite_domain (hro : r.acc ≠ .ro) (hdom : r.ty = .domain) : s.checkWrite key v = 8 := by
  simp [State.checkWrite, hrow, hro, hdom]

theorem checkWrite_staged (hro : r.acc ≠ .ro) (hdom : r.ty ≠ .domain) (hs : r.cls = .s) (hopen : s.commit.st ≠ .opened) :
    s.checkWrite key v = 5 := by
  simp [State.checkWrite, hrow, hro, hdom, hs, hopen]

theorem checkWrite_value (hro : r.acc ≠ .ro) (hdom : r.ty ≠ .domain) (hk : r.cls ≠ .k) (hopen : r.cls = .s → s.commit.st = .opened)
    (hbad : r.ty.fits v = false ∨ r.rng.ok (v &&& w32 r.bits) = false) : s.checkWrite key v = 3 := by
  have hstage : ¬ (r.cls = .s ∧ s.commit.st ≠ .opened) := fun ⟨hs, hne⟩ => hne (hopen hs)
  simp only [State.checkWrite, hrow, hro, hdom, hk, hstage, if_false]
  rcases hbad with hfit | hrange
  · simp [hfit]
  · simp [hrange]

end

/-- The report of a refusal, path by path (R265, R480, R484, R502). -/
theorem report_refused (s : State) (key : Nat) {reason : Nat} (hne : reason ≠ 0) :
    s.report .host key reason = (s.incL Obj.HP_WR_REFUSE_CNT |>.setLN Obj.HP_LAST_REFUSE
      (hostReason reason * 2 ^ 24 + keyAddr key % 2 ^ 22)).setDict { s.dict with fence := s.dict.fence + 1 } ∧
    s.report .mailbox key reason = ((s.incL Obj.SDO_CNT).incL Obj.SDO_ABORT_CNT).respond (.abort (abortCode key reason)) ∧
    s.report .processData key reason = s.incL Obj.PD_REFUSE_CNT ∧
    ∀ e, s.report (.cupola e) key reason = s.setDictResult e (dictCode reason) := by
  refine ⟨?host, if_neg hne, if_neg hne, fun e => rfl⟩
  case host =>
    simp only [State.report, if_neg hne]
    rfl

/-- Settles O55, by the check that fails. -/
theorem refusedWritesChangeNothing : Obligations.RefusedWritesChangeNothing := by
  refine ⟨fun s p key v hlow => ?_, fun s key reason => report_refused s key⟩
  intro told
  have hkeep := s.untouched_refl
  refine ⟨fun hrow => ?none, fun hcheck hclaim => ?claimed, fun r i j hrow => ⟨?readOnly, ?domain, ?staged, ?value⟩⟩
  case none =>
    have hcheck : s.checkWrite key v = 2 := by simp [State.checkWrite, hrow]
    have he := registerWrite_refused hlow p hcheck (by decide)
    rw [show (s.incIf (decide (2 = 5)) Obj.STAGE_WRITE_REFUSED_CNT).countClaim key 2 = s by simp [State.countClaim, State.incIf]] at he
    exact refused_untouched he hkeep
  case claimed => exact refused_untouched (registerWrite_claimed hlow p hcheck hclaim) (untouched_incL hkeep _)
  case readOnly =>
    intro hro
    have he := registerWrite_refused_plain hlow p (checkWrite_readOnly hrow hro (v := v)) (by decide) (by decide) (by decide)
    exact refused_untouched he (untouched_incIf hkeep _ _)
  case domain =>
    intro hro hdom
    have he := registerWrite_refused_plain hlow p (checkWrite_domain hrow hro hdom (v := v)) (by decide) (by decide) (by decide)
    exact refused_untouched he (untouched_incIf hkeep _ _)
  case staged =>
    intro hro hdom hs hopen
    have he := registerWrite_refused hlow p (checkWrite_staged hrow hro hdom hs hopen (v := v)) (by decide)
    rw [show (s.incIf (decide (5 = 5)) Obj.STAGE_WRITE_REFUSED_CNT).countClaim key 5
      = (s.incL Obj.STAGE_WRITE_REFUSED_CNT).incIf (s.claims key) Obj.CLAIM_REFUSED_CNT by
        simp [State.countClaim, State.incIf, State.claims]] at he
    exact refused_untouched he (untouched_incIf (untouched_incL hkeep _) _ _)
  case value =>
    intro hro hdom hk hopen hbad
    have he := registerWrite_refused_plain hlow p (checkWrite_value hrow hro hdom hk hopen hbad) (by decide) (by decide) (by decide)
    exact refused_untouched he (untouched_incIf hkeep _ _)

end Sys2Proof.Machine

/-! The commands that move a frame on, the commands of the boot and the mode requests: O1 to O3. -/
namespace Sys2Proof.Machine

theorem next_ite_pos {c : Prop} [Decidable c] {t u : State} (h : c) :
    (.next (if c then t else u) : Host.Outcome State Fault Refusal) = .next t := by rw [if_pos h]

theorem next_ite_neg {c : Prop} [Decidable c] {t u : State} (h : ¬ c) :
    (.next (if c then t else u) : Host.Outcome State Fault Refusal) = .next u := by rw [if_neg h]

/-- Settles O1: each command's condition holds, so its instant is reached and its effect follows. -/
theorem frameCommandsComplete : Obligations.FrameCommandsComplete := by
  refine ⟨fun s hstep hacc hwait => ?firstTick, fun s htick => ?tick, fun s htick hrel hplan => ?release, fun s htick hmeas => ?meas,
    fun s htick hcut hsent hplan => ?send, fun s hjtag hhalt hlow => ?halt, fun s hhalt => ?haltEnd⟩
  case firstTick => exact next_ite_neg (by simp [hstep, hacc, hwait])
  case tick => exact next_ite_neg (by simp [htick])
  case release => exact next_ite_pos (by simp [htick, hrel, hplan])
  case meas => exact next_ite_pos (by simp [htick, hmeas])
  case send => exact next_ite_pos (by simp [htick, hcut, hsent, hplan])
  case halt => exact next_ite_neg (by simp [hjtag, hhalt, hlow])
  case haltEnd => exact next_ite_pos hhalt

/-- One failing row of the start-up march, with its spare or without one (R454). -/
theorem marchRow {s u : State} {b r : Nat} {spare : Bool} (h : s.marchCleared.repairRow b r = (u, spare)) :
    [(b, r)].foldl (fun (x : State × Bool) (row : Nat × Nat) =>
      ((x.1.repairRow row.1 row.2).1, x.2 && (x.1.repairRow row.1 row.2).2)) (s.marchCleared, true) = (u, spare) := by
  simp [h]

/-- The choice of a slot where slot A may be chosen: B only with the higher SEQ (R62). -/
theorem slotChoice (b : Bool) (m n : Nat) :
    (if true && (!b || decide (n ≤ m)) then 0 else 1) = if b = true ∧ m < n then 1 else 0 := by
  cases b with
  | false => simp
  | true => by_cases h : m < n <;> simp [h]

/-- Settles O2, by the step that waits for each command. -/
theorem bootCommandsComplete : Obligations.BootCommandsComplete := by
  refine ⟨fun s hgood => ?rise, fun s hgood => ?fall, fun s hlow => ?assert, fun s sel tamper hlow hgood => ?release,
    fun s hstep hlow => ?clocks, fun s hstep => ?fuses, fun s hstep => ?fusesEcc, fun s hstep hmarched => ?march,
    fun s b r u hrow hstep hmarched => ?repaired, fun s b r u hrow hstep hmarched => ?noSpare, fun s hstep htested => ?tested,
    fun s hstep htested => ?failed, fun s u hu hstep hA => ?slots, fun s u hu hstep hA hB => ?noSlot,
    fun s hstep hload hsub hvalid => ?payload, fun s hstep => next_ite_pos hstep, fun s hstep => next_ite_pos hstep,
    fun s hstep hacc hverdict => ?accept, fun s u hstep hacc hverdict hu => ?refuse⟩
  case rise => exact next_ite_neg (by simp [hgood])
  case fall => exact next_ite_pos hgood
  case assert => exact next_ite_neg (by simp [hlow])
  case release => exact next_ite_pos (by simp [hlow, hgood])
  case clocks => exact next_ite_pos ⟨hstep, by simp [hlow]⟩
  case fuses => exact next_ite_pos hstep
  case fusesEcc => exact next_ite_pos hstep
  case march => exact next_ite_pos ⟨hstep, by simp [hmarched]⟩
  case repaired =>
    refine (next_ite_pos ⟨hstep, by simp [hmarched]⟩).trans (congrArg Host.Outcome.next ?_)
    rw [marchRow hrow]
    rfl
  case noSpare =>
    refine (next_ite_pos ⟨hstep, by simp [hmarched]⟩).trans (congrArg Host.Outcome.next ?_)
    rw [marchRow hrow]
    rfl
  case tested => exact next_ite_pos ⟨Or.inl hstep, by simp [htested]⟩
  case failed => exact next_ite_pos ⟨Or.inl hstep, by simp [htested]⟩
  case slots =>
    subst hu
    refine (next_ite_pos hstep).trans (congrArg Host.Outcome.next ?_)
    dsimp only
    rw [hA, if_neg (by simp), slotChoice]
  case noSlot =>
    subst hu
    exact (next_ite_pos hstep).trans (next_ite_pos (by simp [hA, hB]))
  case payload =>
    refine (next_ite_neg (by simp [hstep, hsub])).trans ((next_ite_pos hload).trans (next_ite_pos hvalid))
  case accept => exact (next_ite_neg (by simp [hstep, hacc])).trans (next_ite_pos hverdict)
  case refuse =>
    subst hu
    exact (next_ite_neg (by simp [hstep, hacc])).trans (next_ite_neg hverdict)

/-- A MODE_REQ other than a withdrawal and SAFE becomes the pending request (R48). -/
theorem wrModeReq_pending {v : Word} (s : State) (hwithdraw : v ≠ 0xFF) (hsafe : v ≠ 7) :
    wrModeReq v s = ((({ s with modes := { s.modes with req := some v.toNat } }).setLN Obj.MODE_REQ_RESULT 0), 0) := by
  simp only [wrModeReq, hwithdraw, hsafe, false_and, if_false]
  rfl

theorem wrModeReq_safe {s : State} (h : s.mode ≠ .boot) :
    wrModeReq 7 s = ((((({ s with modes := { s.modes with req := none } }).safeEntry 2 false none).setLN Obj.MODE_REQ_RESULT 1).irqEdge 2 6), 0) :=
  if_pos (⟨rfl, h⟩ : (7 : Word) = 7 ∧ s.mode ≠ .boot)

theorem wrModeReq_withdraw {s : State} {c : Nat} (h : s.modes.req = some c) :
    wrModeReq 0xFF s = (((({ s with modes := { s.modes with req := none } }).setLN Obj.MODE_REQ_RESULT 9).irqEdge 2 6), 0) := by
  simp only [wrModeReq, h, Option.isSome_some, if_true]
  rfl

theorem wrModeReq_withdraw_none {s : State} (h : s.modes.req = none) : wrModeReq 0xFF s = (s, 0) := by
  simp [wrModeReq, h, done]

theorem wrRtReq_running {s : State} (h : s.mode = .run ∨ s.mode = .ridethrough) (v : Word) :
    wrRtReq v s = ({ s with modes := { s.modes with rtReq := some v.toNat } }, 0) := if_pos h

/-- Settles O3, by the code of the request. -/
theorem modeRequestsComplete : Obligations.ModeRequestsComplete := by
  refine ⟨fun s p htakes => ?charge, fun s p htakes => ?ready, fun s p htakes => ?run, fun s p htakes => ?test,
    fun s p htakes hboot => next_guardWrite htakes (wrModeReq_safe hboot),
    fun s p c htakes hreq => next_guardWrite htakes (wrModeReq_withdraw hreq),
    fun s p htakes hreq => next_guardWrite htakes (wrModeReq_withdraw_none hreq), fun s p code hcode htakes => ?notListed,
    fun s p htakes => next_guardWrite htakes rfl, fun s p htakes hmode => next_guardWrite htakes (wrRtReq_running hmode 1),
    fun s p htakes hmode => next_guardWrite htakes (wrRtReq_running hmode 2),
    fun s p htakes hmode => next_guardWrite htakes (wrRtReq_running hmode 3)⟩
  case charge => exact next_guardWrite htakes (wrModeReq_pending s (by decide) (by decide))
  case ready => exact next_guardWrite htakes (wrModeReq_pending s (by decide) (by decide))
  case run => exact next_guardWrite htakes (wrModeReq_pending s (by decide) (by decide))
  case test => exact next_guardWrite htakes (wrModeReq_pending s (by decide) (by decide))
  case notListed =>
    rcases hcode with rfl | rfl | rfl
    · exact next_guardWrite htakes (wrModeReq_pending s (by decide) (by decide))
    · exact next_guardWrite htakes (wrModeReq_pending s (by decide) (by decide))
    · exact next_guardWrite htakes (wrModeReq_pending s (by decide) (by decide))

end Sys2Proof.Machine

/-! The writes of a lane's control register and the commands of its training (R73 to R96): O4 and O5. -/
namespace Sys2Proof.Machine

/-- A write of LANE_CTRL that the lane does not refuse is kept and acted on (R84, R94). -/
theorem wrLaneCtrl_accepted {s : State} {n : Nat} {v : Word} (hlisted : ctrlUnlisted n v = false)
    (hrefused : s.ctrlRefused n (s.gl (Obj.LANE_CTRL n)) v = false) :
    wrLaneCtrl n v s = ((s.setL (Obj.LANE_CTRL n) (ctrlKeep v)).ctrlAct n (s.gl (Obj.LANE_CTRL n)) v, 0) := by
  simp [wrLaneCtrl, hlisted, hrefused, done]

/-- Settles O4: each command writes its own value, and every value that is accepted is acted on alike. -/
theorem laneControlWritesComplete : Obligations.LaneControlWritesComplete := by
  intro s p n v htakes hlisted hrefused t old
  have hwrite : (.next (s.guardWrite p (Obj.LANE_CTRL n.val) v (wrLaneCtrl n.val v)) : Host.Outcome State Fault Refusal) = .next t :=
    next_guardWrite htakes (wrLaneCtrl_accepted hlisted hrefused)
  refine ⟨fun hv => ?enable, fun hv => ?disable, fun gen chk sel hv => ?prbs, fun code hv => ?loop, fun hv => ?inject, fun hv => ?full,
    fun hv => ?fast, fun tx rx hv => ?polarity⟩
  all_goals
    subst hv
    exact hwrite

/-- The lock of a lane's clock in CDR_ACQ (R80). -/
theorem Lane.clockLocked_cdrAcq {l : Lane} (h : l.st = .cdrAcq) :
    l.clockLocked = { l with cdrLock := true, los := false, st := if l.fast then .blockAcq else .eqAdapt } := by
  simp [Lane.clockLocked, h]

/-- What a locked checker counts (R89). -/
theorem countBits_locked {s : State} {n : Nat} (h : (s.lane n).prbsLock = true) (bits errs : Nat) :
    s.countBits n bits errs = (s.setLane n { s.lane n with
      prbsBits := ((s.lane n).prbsBits + bits) % 2 ^ 64, prbsDue := true }).setLN (Obj.PRBS_ERR n)
        (min 4294967295 (s.nl (Obj.PRBS_ERR n) + errs)) := by
  simp only [State.countBits, h, Bool.true_or, if_true]
  rfl

/-- Settles O5, by the lane state in which each command acts. -/
theorem laneTrainingCommandsComplete : Obligations.LaneTrainingCommandsComplete := by
  refine ⟨fun s n hst hsrc hwait => ?cdr, fun s n hst => next_ite_pos hst, fun s n hst => next_ite_pos hst, fun s n hst => ?data,
    fun s n hst => next_ite_pos hst, fun s n hfast htrain => ?fastTimeout, fun s n => rfl, fun s n dur t hst hloop => ?los,
    fun s n t => rfl, fun s n t => rfl, fun s n fast run t hloop => ?train, fun s n fill hdata => ?compensate, fun s n hlock => ?unknown,
    fun s src t hsrc => ?loss, fun s src => rfl, fun s n w hcheck hclean => ?lock, fun s n bits errs hlock => next_ite_pos hlock,
    fun s p n bits errs hlock => ?bits, fun s run huplink hlock hloop hrun => ?looped⟩
  case cdr =>
    refine (next_ite_neg (by simp [hsrc, hwait])).trans (congrArg Host.Outcome.next ?_)
    rw [Lane.clockLocked_cdrAcq hst]
  case data => exact next_ite_neg (by simp [hst])
  case fastTimeout => exact next_ite_pos (by simp [hfast, htrain])
  case los => exact (next_ite_neg hst).trans (next_ite_neg (by simp [hloop]))
  case train =>
    have hn : n.val < 38 := by omega
    exact next_ite_neg (by simp [hn, hloop])
  case compensate => exact next_ite_neg (by simp [hdata])
  case unknown => exact next_ite_pos hlock
  case loss => exact next_ite_neg (by simp [hsrc])
  case lock => exact next_ite_pos (by simp [hcheck, hclean])
  case bits => exact congrArg (fun t : State => Host.Outcome.next (t.readPrbsLo p n.val)) (countBits_locked hlock bits errs)
  case looped => exact next_ite_pos ⟨huplink, hlock, by simp [hloop], hrun⟩

end Sys2Proof.Machine

/-! The commands of an uplink train, of discovery and of the upstream port (R107 to R141): O6 and O7. -/
namespace Sys2Proof.Machine

/-- The one frame whose last moment has come closes, no train being open (R173). -/
theorem closeDue_one {s : State} {n : Nat} (htrain : (s.route n).train = none) (hdue : s.frame.count = (s.route n).nextClose + s.p) :
    s.closeDue n = s.closeFrame n (s.route n).nextClose [] := by
  have hone : s.frame.count + 1 - s.p - (s.route n).nextClose = 1 := by omega
  simp [State.closeDue, hone, htrain]

/-- A header of a frame of the window opens its train (R107, R129). -/
theorem openTrain_first {s : State} {n : Nat} {h : BitVec 128} {j : Nat} (hlast : (s.route n).lastSlot = none)
    (hj : j = s.ownFrame (extend32 (h.extractLsb' 16 32).toNat (s.pairFrame s.frame.count))) (hlate : s.frame.count < j + s.p)
    (hearly : j ≤ s.frame.count) :
    s.openTrain n h =
      let s1 := s.setRoute n { s.route n with
        lastSlot := some j, recv := [], got := []
        train := some { frame := j, slot := (h.extractLsb' 16 32).toNat, count := (h.extractLsb' 72 10).toNat,
                        fillCnt := (h.extractLsb' 82 10).toNat, long := h.getLsbD 59 } }
      let s2 := s1.headerReport n h (s.route n).lastSlot j
      if (h.extractLsb' 72 10).toNat = slotSum (s2.man n).entries then s2 else (s2.incL (Obj.COUNT_ERR_CNT n)).raise 15 := by
  have hwindow : ¬ (j + s.p ≤ s.frame.count) ∧ ¬ (s.frame.count < j) := by omega
  subst hj
  simp only [State.openTrain, hlast, Option.any_none, hwindow.1, hwindow.2, decide_false, Bool.or_false,
    Bool.false_eq_true, if_false]

/-- Settles O6, by the train that is open and the check on what was received. -/
theorem uplinkCommandsComplete : Obligations.UplinkCommandsComplete := by
  refine ⟨fun s n htick htrain hdue => ?close, fun s n h j hman hdata htrain hheader hlast hj hlate hearly => ?openTrain,
    fun s n g recs tr t htrain => ?group, fun s n g recs tr t crc htrain hcrc => ?groupErr, fun s n tr eot htrain => ?trainEnd,
    fun s n tr w0 w1 w2 w3 t0 t3 htrain hlong hkind => ?record, fun s n tr w0 w1 w2 w3 t0 t3 htrain hlong hkind => ?disc,
    fun s n h w0 w1 w2 w3 eot t0 t3 hdata hheader hkind htag heot => ?reply⟩
  case close => exact (next_ite_pos htick).trans (congrArg Host.Outcome.next (closeDue_one htrain hdue))
  case openTrain =>
    refine (next_ite_neg (by simp [hman, hdata])).trans (congrArg Host.Outcome.next ?_)
    have hidle : (if (s.route n.val).train.isSome then (s.incL (Obj.EOT_ERR_CNT n.val)).endTrain n.val else s) = s := by simp [htrain]
    rw [hidle, if_pos hheader]
    exact openTrain_first hlast hj hlate hearly
  case group =>
    refine congrArg Host.Outcome.next ?_
    simp [htrain]
  case groupErr =>
    refine congrArg Host.Outcome.next ?_
    simp [htrain, hcrc]
  case trainEnd =>
    refine congrArg Host.Outcome.next ?_
    rw [htrain]
  case record =>
    exact (next_ite_neg (by simp [htrain, hlong])).trans ((next_ite_neg (by simp)).trans (next_ite_pos hkind))
  case disc =>
    exact (next_ite_neg (by simp [htrain, hlong])).trans ((next_ite_neg (by simp)).trans
      ((next_ite_neg (by simp [hkind])).trans (next_ite_pos hkind)))
  case reply =>
    refine (next_ite_neg (by simp [hdata, hheader])).trans ((next_ite_neg (by simp [hkind, htag])).trans (congrArg Host.Outcome.next ?_))
    rw [heot]
    rfl

/-- What the slots of a caravan leave alone. -/
theorem takeSlots_kept (s : State) (own : Nat) (slots : List (Option (BitVec 16))) :
    let r := (s.takeSlots own slots).routes
    r.upTicking = s.routes.upTicking ∧ r.upP = s.routes.upP ∧ r.upTf10 = s.routes.upTf10 ∧ r.upSeen = s.routes.upSeen ∧
      r.upLast = s.routes.upLast := by
  unfold State.takeSlots
  split
  · exact ⟨rfl, rfl, rfl, rfl, rfl⟩
  · exact ⟨rfl, rfl, rfl, rfl, rfl⟩

/-- What a correction of the leaf timer leaves alone. -/
theorem leafTimer_kept (s : State) (e : Int) (fresh : Bool) :
    let t := s.leafTimer e fresh
    t.routes.upP = s.routes.upP ∧ t.routes.upTf10 = s.routes.upTf10 ∧ t.routes.upSeen = s.routes.upSeen ∧
      t.frame.count = s.frame.count := by
  unfold State.leafTimer
  dsimp only
  split
  · exact ⟨rfl, rfl, rfl, rfl⟩
  · exact ⟨rfl, rfl, rfl, rfl⟩

/-- What a caravan of the device's own T_F leaves of the state that its header has made (R131, R132). -/
theorem caravanTaken {s : State} {e : Int} {fresh : Bool} {own : Nat} {slots : List (Option (BitVec 16))} {delta : Int} {p tf10 k : Nat}
    {seen : List Nat} (hp : s.routes.upP = p) (htf : s.routes.upTf10 = tf10) (hseen : s.routes.upSeen = seen) (hk : s.frame.count = k) :
    let s2 := s.leafTimer e fresh
    let u := ({ s2 with routes := { s2.routes with upTicking := true, upLast := some s2.frame.count, upDelta := delta } } :
      State).takeSlots own slots
    u.routes.upTicking = true ∧ u.routes.upP = p ∧ u.routes.upTf10 = tf10 ∧ u.routes.upSeen = seen ∧ u.routes.upLast = some k := by
  intro s2 u
  obtain ⟨hpTimer, htfTimer, hseenTimer, hkTimer⟩ := leafTimer_kept s e fresh
  obtain ⟨hticking, hpSlots, htfSlots, hseenSlots, hlast⟩ := takeSlots_kept
    ({ s2 with routes := { s2.routes with upTicking := true, upLast := some s2.frame.count, upDelta := delta } } : State) own slots
  exact ⟨hticking, hpSlots.trans (hpTimer.trans hp), htfSlots.trans (htfTimer.trans htf), hseenSlots.trans (hseenTimer.trans hseen),
    hlast.trans (congrArg some (hkTimer.trans hk))⟩

theorem wrDiscCtrl_discover {s : State} {n : Nat} (hman : s.inMan n = true) (hdata : s.inData n = true)
    (hmode : (decide (s.mode = .charge) || decide (s.mode = .ready) || decide (s.mode = .test) || decide (s.mode = .safe)) = true) :
    wrDiscCtrl n 1 s = (s.startWalk n .discovering, 0) := by
  simp only [wrDiscCtrl, hman, hdata, hmode, Bool.and_self, if_true, done]

theorem wrDiscCtrl_verify {s : State} {n : Nat} (hman : s.inMan n = true) (hdata : s.inData n = true) :
    wrDiscCtrl n 2 s = (s.startWalk n .verifying, 0) := by
  simp [wrDiscCtrl, hman, hdata, done]

theorem wrDiscCtrl_abort {s : State} {n : Nat} {w : Walk} (hwalk : (s.route n).walk = some w) :
    wrDiscCtrl n 3 s = ((((s.discResult n 9 0).dropWalk n).setRouteSt n .mismatch).bootAdvance, 0) := by
  simp [wrDiscCtrl, hwalk, done]

/-- Settles O7, by the state in which each command acts. -/
theorem discoveryCommandsComplete : Obligations.DiscoveryCommandsComplete := by
  refine ⟨fun s n tag => rfl, fun s n i e hentry hauto hreach hwalk hmissing hheld => ?verify,
    fun s p n htakes hman hdata hmode => ?rediscover, fun s p n htakes hman hdata => ?verifyNow, fun s p n w htakes hwalk => ?abort,
    fun s s0 h groups eot t hs0 hup htick hheader hseen heot htf => ?caravan, fun s h turn hup hheader hdest hop hfit => ?assign⟩
  case verify =>
    refine congrArg Host.Outcome.next ?_
    rw [hentry]
    exact if_pos ⟨hauto, hreach, by simp [hwalk], hmissing, hheld⟩
  case rediscover =>
    refine next_guardWrite htakes (wrDiscCtrl_discover hman hdata ?_)
    rcases hmode with h | h | h | h <;> simp [h]
  case verifyNow => exact next_guardWrite htakes (wrDiscCtrl_verify hman hdata)
  case abort => exact next_guardWrite htakes (wrDiscCtrl_abort hwalk)
  case caravan =>
    have hopen : ¬ ((!(s.toC (t / 4)).upstream || !(s.toC (t / 4)).frame.ticking || !headerOk h 1 ||
        (s.toC (t / 4)).routes.upSeen.contains (h.extractLsb' 16 32).toNat) = true) := by
      simp [← hs0, hup, htick, hheader, hseen]
    refine ⟨_, (next_ite_neg hopen).trans (next_ite_neg ?tf), ?fields⟩
    case tf => 
      rw [← hs0, heot]
      exact fun hne => hne htf
    case fields =>
      rw [← hs0, heot]
      refine caravanTaken rfl rfl ?_ rfl
      show (h.extractLsb' 16 32).toNat :: s0.routes.upSeen.filter _ = _
      rw [hseen]
      rfl
  case assign =>
    refine (next_ite_neg (by simp [hup, hheader, hdest])).trans (congrArg Host.Outcome.next ?_)
    simp only [hop]
    exact if_neg (by omega)

end Sys2Proof.Machine

/-! The commands of couriers, beacons and the trigger pins (R146 to R161): O8. -/
namespace Sys2Proof.Machine

/-- A courier that COURIER_REQ asks for (R151). -/
def State.courierOf (s : State) (kind : CourierKind) : Courier :=
  { kind := kind, wtOrigin := false, epoch := s.pair.epoch, blkSlot := 0, holdLimit := BitVec.ofNat 8 (s.na Obj.CELL_HOLD_LIMIT),
    fromReq := true, edge := none }

/-- The request is queued on its lanes in DATA, counted and answered (R151). -/
def State.requestCourier (s : State) (kind : CourierKind) (count : Nat) (l : List Nat) : State :=
  let t := ((s.forgetReq.each l fun t n => t.queueCourier (s.courierOf kind) n).incL count).setLN Obj.COURIER_REQ_RESULT 5
  ({ t with launch := { t.launch with reqLanes := BitVec.ofNat 32 ((l.map fun n => 2 ^ n).sum), reqLeft := false } } : State).courierEnd

section
variable {s : State} {l : List Nat} (hboot : s.mode ≠ .boot) (htest : s.mode ≠ .test) (hsafe : s.mode ≠ .safe) (hmirror : s.mode ≠ .mirror)
  (hstandby : s.pair.role ≠ .standby) (hl : (idxs 32 fun n => nbit (s.nl Obj.COURIER_LANES) n && s.inData n) = l)
include hboot htest hsafe hmirror hstandby hl

theorem wrCourierReq_hold : wrCourierReq 2 s = (s.requestCourier .hold Obj.HOLD_COURIER_CNT l, 0) := by
  subst hl
  exact (if_neg (by simp [hboot, htest, hsafe, hmirror])).trans (if_neg hstandby)

theorem wrCourierReq_release : wrCourierReq 3 s = (s.requestCourier .releaseHold Obj.RELEASE_COURIER_CNT l, 0) := by
  subst hl
  exact (if_neg (by simp [hboot, htest, hsafe, hmirror])).trans (if_neg hstandby)

end

/-- An edge of TRIG_IN with none before it (R159). -/
theorem trigInEdge_first {s : State} {rising : Bool} (stamp : Nat) (hon : nbit (s.na Obj.TRIG_IN_CFG) 0 = true)
    (hpol : nbit (s.na Obj.TRIG_IN_CFG) 1 = !rising) (hlast : s.launch.trigInLast = none) :
    exec (.trigInEdge rising stamp) s = .next (
      let s0 := s.toC stamp
      let s1 : State := { s0 with launch := { s0.launch with trigInLast := some stamp } }
      (s1.incL Obj.TRIG_IN_CNT).originate (s1.na Obj.TRIG_IN_EVENT)
        (4 * (stamp - s1.na Obj.TRIG_IN_FILTER_NS - s1.na Obj.TRIG_IN_COMP_NS))) := by
  have hselected : (nbit (s.na Obj.TRIG_IN_CFG) 0 && (nbit (s.na Obj.TRIG_IN_CFG) 1 != rising)) = true := by
    cases rising <;> simp [hon, hpol]
  have hlast0 : (s.toC stamp).launch.trigInLast = none := by simpa using hlast
  refine congrArg Host.Outcome.next ?_
  simp only [hselected, if_true, hlast0, Bool.false_eq_true, if_false]

/-- The one act that waits starts its pulse late (R160). -/
theorem trigOutStart_late {s : State} {a : BeaconAct} (hacts : s.launch.acts = [a]) (hpulse : a.pulse = true) (hlate : a.trigLate = true)
    (hout : s.launch.trigOut = none) :
    exec (.trigOutStart a.event.toNat) s = .next (({ s with launch := { s.launch with
      acts := liveActs [{ a with pulse := false }], trigOut := some (s.nowC + s.na Obj.TRIG_OUT_WIDTH_NS) } }.incL
        Obj.TRIG_OUT_CNT).incL Obj.TRIG_OUT_LATE_CNT) := by
  refine congrArg Host.Outcome.next ?_
  simp only [hacts, hout, List.find?_cons, hpulse, decide_true, Bool.and_self, if_true, setFirst, hlate, State.incIf, Option.getD_none,
    Nat.max_zero]

/-- Settles O8, by the state in which each command acts. -/
theorem courierAndBeaconCommandsComplete : Obligations.CourierAndBeaconCommandsComplete := by
  refine ⟨fun s p l htakes hboot htest hsafe hmirror hstandby hl => ?hold, fun s p l htakes hboot htest hsafe hmirror hstandby hl => ?release,
    fun s n dep c rest hq hdata hreq hedge => ?send, fun s p v htakes => next_guardWrite htakes rfl,
    fun s port t b rest hq hup hbusy hidle => ?transmit, fun s port x hup htype hcrc hsource hdup hown => ?receive,
    fun s port x hup htype hcrc => ?badCrc, fun s rising stamp hon hpol hlast => trigInEdge_first stamp hon hpol hlast,
    fun s a hacts hpulse hlate hout => trigOutStart_late hacts hpulse hlate hout, fun s t hout => ?trigOutEnd⟩
  case hold => exact next_guardWrite htakes (wrCourierReq_hold hboot htest hsafe hmirror hstandby hl)
  case release => exact next_guardWrite htakes (wrCourierReq_release hboot htest hsafe hmirror hstandby hl)
  case send =>
    refine congrArg Host.Outcome.next ?_
    simp only [hq, hdata, hreq, hedge, if_true, Bool.false_eq_true, if_false]
  case transmit =>
    refine congrArg Host.Outcome.next ?_
    simp only [hq, hup, hbusy, hidle, List.isEmpty_nil, Bool.not_false, Bool.and_self, if_true]
  case receive =>
    refine (next_ite_neg (by simp [hup, htype])).trans ((next_ite_neg (by simp [hcrc])).trans (congrArg Host.Outcome.next ?_))
    simp only [if_neg hsource]
    rw [if_neg (by rw [show (s.incL Obj.BEACON_RX_CNT).launch.dup = s.launch.dup from rfl, hdup]; simp)]
    exact if_neg hown
  case badCrc => exact (next_ite_neg (by simp [hup, htype])).trans (next_ite_pos hcrc)
  case trigOutEnd =>
    refine congrArg Host.Outcome.next ?_
    simp only [hout]

end Sys2Proof.Machine

/-! The Cell Ledger's commands, the force registers and the commutation-event mask (R162 to R209): O9 and O10. -/
namespace Sys2Proof.Machine

section
variable {s : State} (hindex : s.nl Obj.HEALTH_CMD_INDEX ≤ 12287) (hen : (s.entry (s.nl Obj.HEALTH_CMD_INDEX)).enabled = true)
include hindex hen

theorem not_healthTarget : ¬ (12287 < s.nl Obj.HEALTH_CMD_INDEX ∨ (s.entry (s.nl Obj.HEALTH_CMD_INDEX)).enabled = false) := by
  simp [hen]
  omega

theorem wrHealthCmd_retire (hboot : s.mode ≠ .boot) (hhealth : (s.entry (s.nl Obj.HEALTH_CMD_INDEX)).health ≠ 3) :
    wrHealthCmd 1 s = (((s.goHealth (s.nl Obj.HEALTH_CMD_INDEX) 3 10).setLN Obj.HEALTH_CMD_RESULT 1), 0) := by
  have hmode : s.healthMode 1 = true := by simp [State.healthMode, hboot]
  simp only [wrHealthCmd, if_neg (not_healthTarget hindex hen), hmode, Bool.true_eq_false, if_false, if_true, if_neg hhealth]
  rfl

theorem wrHealthCmd_restore (hmode : s.mode = .charge ∨ s.mode = .ready ∨ s.mode = .test ∨ s.mode = .safe)
    (hlock : (s.entry (s.nl Obj.HEALTH_CMD_INDEX)).status 14 = false) :
    wrHealthCmd 2 s = (((s.reinitEntry (s.nl Obj.HEALTH_CMD_INDEX) (s.entry (s.nl Obj.HEALTH_CMD_INDEX)) 11).setLN
      Obj.HEALTH_CMD_RESULT 1), 0) := by
  have hmode2 : s.healthMode 2 = true := by
    rcases hmode with h | h | h | h <;> simp [State.healthMode, h]
  have hcode : (2 : Word) ≠ 1 := by decide
  simp only [wrHealthCmd, if_neg (not_healthTarget hindex hen), hmode2, Bool.true_eq_false, hcode, if_false, if_true, hlock,
    Bool.false_eq_true]
  rfl

theorem wrHealthCmd_suspect (hboot : s.mode ≠ .boot)
    (hhealth : (s.entry (s.nl Obj.HEALTH_CMD_INDEX)).health = 0 ∨ (s.entry (s.nl Obj.HEALTH_CMD_INDEX)).health = 1) :
    wrHealthCmd 3 s = ((((s.setEntry (s.nl Obj.HEALTH_CMD_INDEX)
      ((s.entry (s.nl Obj.HEALTH_CMD_INDEX)).withHealth 2 0 12)).healthEvent (s.nl Obj.HEALTH_CMD_INDEX) true).setLN
        Obj.HEALTH_CMD_RESULT 1), 0) := by
  have hmode : s.healthMode 3 = true := by simp [State.healthMode, hboot]
  have hcode : (3 : Word) ≠ 1 ∧ (3 : Word) ≠ 2 := by decide
  simp only [wrHealthCmd, if_neg (not_healthTarget hindex hen), hmode, Bool.true_eq_false, hcode.1, hcode.2, if_false, if_pos hhealth]
  rfl

end

/-- Settles O9, by the code of the health command. -/
theorem ledgerCommandsComplete : Obligations.LedgerCommandsComplete := by
  refine ⟨fun s p htakes hindex hen hboot hhealth => ?retire, fun s p htakes hindex hen hmode hlock => ?restore,
    fun s p htakes hindex hen hboot hhealth => ?suspect, fun s p v htakes => next_guardWrite htakes rfl, fun s i hi => next_ite_pos hi⟩
  case retire => exact next_guardWrite htakes (wrHealthCmd_retire hindex hen hboot hhealth)
  case restore => exact next_guardWrite htakes (wrHealthCmd_restore hindex hen hmode hlock)
  case suspect => exact next_guardWrite htakes (wrHealthCmd_suspect hindex hen hboot hhealth)

theorem not_defer (v : Word) : nbit (v &&& 0x7F).toNat 7 = false := by
  show (v &&& 0x7F).getLsbD 7 = false
  simp

theorem defer (v : Word) : nbit (v &&& 0x7F ||| 0x80).toNat 7 = true := by
  show (v &&& 0x7F ||| 0x80).getLsbD 7 = true
  simp

theorem wrForceCtrl_arm {s : State} {a : Nat} {v : Word} (hcheck : s.checkForce a (s.pendingForce a (fld v 2 0)) = 1)
    (hnow : nbit v.toNat 7 = false) :
    wrForceCtrl a v s = ((s.setL (Obj.FORCE_CTRL a) (v &&& 0x87)).armForce a (s.pendingForce a (fld v 2 0)), 0) := by
  simp only [wrForceCtrl, hcheck, ne_eq, not_true_eq_false, if_false, hnow, Bool.false_eq_true]
  rfl

theorem wrForceCtrl_defer {s : State} {a : Nat} {v : Word} (hcheck : s.checkForce a (s.pendingForce a (fld v 2 0)) = 1)
    (hdefer : nbit v.toNat 7 = true) :
    wrForceCtrl a v s = (((s.setL (Obj.FORCE_CTRL a) (v &&& 0x87)).setArm a
      { s.arm a with deferred := some (s.pendingForce a (fld v 2 0)) }).setLN (Obj.FORCE_RESULT a) 8, 0) := by
  simp only [wrForceCtrl, hcheck, ne_eq, not_true_eq_false, if_false, hdefer, if_true]
  rfl

/-- A deferred set of an arm moves (R201). -/
def State.moveDeferred (s : State) (a : Nat) : State :=
  match (s.arm a).deferred with
  | some f => (s.setArm a { s.arm a with deferred := none }).armForce a f
  | none => s

theorem each_cons (s : State) (n : Nat) (l : List Nat) (f : State → Nat → State) : s.each (n :: l) f = (f s n).each l f := rfl

/-- Arms without a deferred set stay as they are. -/
theorem each_moveDeferred_none {s : State} : ∀ {l : List Nat}, (∀ b ∈ l, (s.arm b).deferred = none) → s.each l State.moveDeferred = s
  | [], _ => rfl
  | b :: l, h => by
    have hb : s.moveDeferred b = s := by simp only [State.moveDeferred, h b (by simp)]
    rw [each_cons, hb]
    exact each_moveDeferred_none fun c hc => h c (by simp [hc])

theorem wrForceCommitAll_eq (s : State) : wrForceCommitAll s = (s.each (List.range 12) State.moveDeferred, 0) := rfl

/-- The only deferred set is arm 0's (R201). -/
theorem wrForceCommitAll_first {s : State} {f : ForceSet} (hfirst : (s.arm 0).deferred = some f)
    (hrest : ∀ b, 1 ≤ b → b < 12 → (s.arm b).deferred = none) :
    wrForceCommitAll s = ((s.setArm 0 { s.arm 0 with deferred := none }).armForce 0 f, 0) := by
  have hmove : s.moveDeferred 0 = (s.setArm 0 { s.arm 0 with deferred := none }).armForce 0 f := by simp only [State.moveDeferred, hfirst]
  have hother : ∀ b ∈ List.range' 1 11, ((s.moveDeferred 0).arm b).deferred = none := by
    intro b hb
    obtain ⟨hpos, hlt⟩ := List.mem_range'_1.mp hb
    have hne : (0 : Nat) ≠ b := by omega
    rw [hmove]
    simp only [State.armForce, State.arm, State.setLN_arms, State.setArm_arms, vget_vset_other _ _ _ hne]
    exact hrest b hpos (by omega)
  have hrange : List.range 12 = 0 :: List.range' 1 11 := by decide
  rw [wrForceCommitAll_eq, hrange, each_cons, each_moveDeferred_none hother, hmove]

/-- Settles O10, by the check of the pending set and by the mask input. -/
theorem armCommandsComplete : Obligations.ArmCommandsComplete := by
  refine ⟨fun s p a v htakes hcheck => next_guardWrite htakes (wrForceCtrl_arm hcheck (not_defer v)),
    fun s p a v htakes hcheck => next_guardWrite htakes (wrForceCtrl_defer hcheck (defer v)), fun s p a htakes hcheck => ?clear,
    fun s p a f htakes hfirst hrest => next_guardWrite htakes (wrForceCommitAll_first hfirst hrest),
    fun s a g high active te hboot hsrc hactive => ?level, fun s p a htakes hmode hinput => ?maskClear⟩
  case clear => exact next_guardWrite htakes (wrForceCtrl_arm hcheck rfl)
  case level =>
    subst hactive
    exact next_ite_neg (by simp [hboot, hsrc])
  case maskClear =>
    refine next_guardWrite htakes ?_
    simp [wrMaskClear, hmode, hinput, done]

end Sys2Proof.Machine

/-! The commands of the commit protocol and of the Task Scheduler (R66 to R70, R271 to R288): O17 and O18. -/
namespace Sys2Proof.Machine

section
variable {s : State} {v : Word}

theorem wrCommitReq_next (hopen : s.commit.st = .opened) (hne : v ≠ 0) (hv : v = s.gl Obj.COMMIT_SEQ + 1) :
    wrCommitReq v s = (s.setCommit .validating, 0) := by
  simp only [wrCommitReq, hopen, ne_eq, not_true_eq_false, if_false, hne, if_pos hv]
  rfl

theorem wrCommitReq_otherNumber (hopen : s.commit.st = .opened) (hne : v ≠ 0) (hv : v ≠ s.gl Obj.COMMIT_SEQ + 1) :
    wrCommitReq v s = (s.commitRefuse 0x0F none, 6) := by
  simp only [wrCommitReq, hopen, ne_eq, not_true_eq_false, if_false, hne, if_neg hv]
  rfl

theorem wrCommitReq_notOpen (hopen : s.commit.st ≠ .opened) : wrCommitReq v s = (s.commitRefuse 0x0C none, 6) := if_pos hopen

theorem wrCommitReq_revert (hopen : s.commit.st = .opened) : wrCommitReq 0 s = (s.revert, 0) := by
  simp only [wrCommitReq, hopen, ne_eq, not_true_eq_false, if_false, if_true]
  rfl

end

/-- A configuration that fails a check is refused, and the state opens again (R68). -/
theorem validated_refused {s : State} (hverdict : (s.verdict false).1 ≠ 0) :
    s.validated false = ((if (s.verdict false).1 = 3 ∧ s.claimFail = true then s.incL Obj.CLAIM_REFUSED_CNT
      else s).commitRefuse (s.verdict false).1 (s.verdict false).2).commitOpen := by
  simp only [State.validated, if_neg hverdict, State.incIf, Bool.and_eq_true, decide_eq_true_eq]

/-- Settles O17, by COMMIT_STATE and the verdict. -/
theorem commitCommandsComplete : Obligations.CommitCommandsComplete := by
  refine ⟨fun s p v htakes hopen hne hv => next_guardWrite htakes (wrCommitReq_next hopen hne hv),
    fun s p v htakes hopen hne hv => next_guardWrite htakes (wrCommitReq_otherNumber hopen hne hv),
    fun s p v htakes hopen => next_guardWrite htakes (wrCommitReq_notOpen hopen),
    fun s p htakes hopen => next_guardWrite htakes (wrCommitReq_revert hopen), fun s hst hverdict => ?accepted,
    fun s hst hverdict => ?refused, fun s hst => next_ite_pos hst⟩
  case accepted => exact (next_ite_pos hst).trans (next_ite_pos hverdict)
  case refused => exact (next_ite_pos hst).trans (congrArg Host.Outcome.next (validated_refused hverdict))

section
variable {s : State}

theorem softRelease_starts {n : Nat} (hcls : (s.desc n).cls = 3) (hen : (s.desc n).en = true) (hmode : (s.desc n).allows s.mode = true)
    (hshed : s.shed n = false) (hqueue : s.outstanding n ≤ (s.desc n).qdepth) (hpool : s.sched.pool.length < 64) :
    s.softRelease n = (s.start n, 1) := by
  simp only [State.softRelease, hcls, hen, hmode, hshed, ne_eq, not_true_eq_false, Bool.not_true, Bool.false_eq_true, if_false,
    Nat.not_lt.mpr hqueue, Nat.not_le.mpr hpool]

theorem wrHostRelease_starts {v : Word} (h : s.softRelease v.toNat = (s.start v.toNat, 1)) :
    wrHostRelease v s = ((s.start v.toNat).setLN Obj.HOST_RELEASE_RESULT 1, 0) := by
  simp only [wrHostRelease, h, if_true]
  rfl

theorem delayArm_inserts {n f : Nat} (hcls : (s.desc n).cls = 2) (hen : (s.desc n).en = true) (hnone : s.delayLeft n = none)
    (hlen : s.sched.delays.length < 64) :
    s.delayArm n f = ({ s with sched := { s.sched with
      delays := delayInsert n (if f = 0 then (s.desc n).low else f) s.sched.delays } }, 1) := by
  simp only [State.delayArm, hcls, hen, hnone, ne_eq, not_true_eq_false, Bool.not_true, Bool.false_eq_true, Option.isSome_none, if_false,
    Nat.not_le.mpr hlen]

theorem wrDelayArm_inserts {v : Word} {t : State} (h : s.delayArm (fld v 7 0) (fld v 31 16) = (t, 1)) :
    wrDelayArm v s = (t.setLN Obj.DELAY_RESULT 1, 0) := by
  simp only [wrDelayArm, h, if_true]
  rfl

theorem wrDelayCancel_armed {v : Word} {n : Nat} (h : s.delayLeft v.toNat = some n) :
    wrDelayCancel v s = ((s.disarm v.toNat).setLN Obj.DELAY_RESULT 9, 0) := if_pos (by simp [h])

/-- An enabled engine goes on with what it is entering. -/
theorem gated_of_enabled {e : Nat} {x : Entering} (hen : s.engEnabled e = true) (h : s.entering e = some x) : s.gated e = some x :=
  (if_pos hen).trans h

end

/-- Settles O18, by the descriptor and by what the engine is entering. -/
theorem schedulerCommandsComplete : Obligations.SchedulerCommandsComplete := by
  refine ⟨fun s p v htakes hcls hen hmode hshed hqueue hpool => ?release, fun s p v htakes hcls hen hnone hlen => ?arm,
    fun s p v n htakes harmed => next_guardWrite htakes (wrDelayCancel_armed harmed), fun s p v htakes => next_guardWrite htakes rfl,
    fun s e i r hen hsel hrun => ?preempt, fun s e i hen hsel hrun => ?select, fun s e i hrefill => ?refill,
    fun s e i r hen hsave hrun => ?save, fun s e i hen hload hslot => ?load, fun s e c rest hen hrestore hsaved => ?restore,
    fun s e i hrun hwarn hpassed hfirst => ?warn⟩
  case release => exact next_guardWrite htakes (wrHostRelease_starts (softRelease_starts hcls hen hmode hshed hqueue hpool))
  case arm => exact next_guardWrite htakes (wrDelayArm_inserts (delayArm_inserts hcls hen hnone hlen))
  case preempt =>
    refine congrArg Host.Outcome.next ?_
    simp only [gated_of_enabled hen hsel, hrun, Option.isSome_some, if_true]
  case select =>
    refine congrArg Host.Outcome.next ?_
    simp only [gated_of_enabled hen hsel, hrun, Option.isSome_none, Bool.false_eq_true, if_false]
  case refill =>
    refine congrArg Host.Outcome.next ?_
    simp only [hrefill]
  case save =>
    refine congrArg Host.Outcome.next ?_
    simp only [gated_of_enabled hen hsave, hrun]
  case load =>
    refine congrArg Host.Outcome.next ?_
    simp only [gated_of_enabled hen hload, hslot, if_true]
  case restore =>
    refine congrArg Host.Outcome.next ?_
    simp only [gated_of_enabled hen hrestore, hsaved]
  case warn =>
    refine congrArg Host.Outcome.next ?_
    simp only [hrun, hwarn, hpassed, hfirst, ne_eq, not_false_eq_true, decide_true, Bool.not_false, Bool.and_self, if_true]
    rfl

end Sys2Proof.Machine

/-! The commands of the control-law aids, of a beacon's consumers, of the decision cut and of the time domains (R294 to R325): O19 and
O20. -/
namespace Sys2Proof.Machine

theorem abortMarch_none {s : State} (h : s.mem.march = none) (f : Nat → Bool) : s.abortMarch f = s := by
  simp [State.abortMarch, h]

/-- ARM in a frame without a trigger (R302, R304). -/
theorem lanternArm_first {s : State} (hmarch : s.mem.march = none) (htrig : s.aids.lantern.trigsAt ≠ s.frame.count) :
    s.lanternArm =
      let t : State := { s with aids := { s.aids with lantern := { s.aids.lantern with
        st := .running, wr := 0, written := 0, postLeft := 0, pre := 0, mark := none, last := none, trigs := [], ignored := 0 } } }
      (t.each [163, 164, 165, 166] State.wakeBank).setLN Obj.LANTERN_TRIG_IGN_CNT (s.nl Obj.LANTERN_TRIG_IGN_CNT) := by
  simp only [State.lanternArm, abortMarch_none hmarch, htrig, decide_false, Bool.false_eq_true, if_false, Nat.sub_zero]
  rfl

/-- The first trigger of its frame, in RUNNING (R302). -/
theorem lanternTrigger_first {s : State} (hrun : s.aids.lantern.st = .running) (htrig : s.aids.lantern.trigsAt ≠ s.frame.count)
    (htick : s.frame.ticking = true) :
    s.lanternTrigger s.frame.count = { s with aids := { s.aids with lantern := { s.aids.lantern with
      st := .post, mark := some s.frame.count, postLeft := s.na Obj.LANTERN_POST, trigsAt := s.frame.count, trigs := [s.frame.count],
      ignored := 0 } } } := by
  simp only [State.lanternTrigger, hrun, htrig, htick, decide_false, Bool.false_eq_true, if_false, if_true, List.nil_append]
  rfl

/-- Settles O19, by the code of the command and the state in which it acts. -/
theorem aidsAndCutCommandsComplete : Obligations.AidsAndCutCommandsComplete := by
  refine ⟨fun s p v t htakes hcycle => ?sticky, fun s n t => rfl, fun s p a htakes => next_guardWrite htakes rfl,
    fun s p htakes hmarch htrig => ?arm, fun s p htakes hrun htrig htick => ?trigger, fun s p htakes => next_guardWrite htakes rfl,
    fun s p htakes => next_guardWrite htakes rfl, fun s e a hacts hact hevent => ?beacon, fun s htick hcut => ?cut⟩
  case sticky =>
    subst hcycle
    exact next_guardWrite htakes rfl
  case arm => exact next_guardWrite htakes (congrArg (·, 0) (lanternArm_first hmarch htrig))
  case trigger => exact next_guardWrite htakes (congrArg (·, 0) (lanternTrigger_first hrun htrig htick))
  case beacon =>
    refine congrArg Host.Outcome.next ?_
    simp only [hacts, List.find?_cons, hact, hevent, decide_true, Bool.and_self]
  case cut => exact next_ite_neg (by simp [htick, hcut])

/-- The master that an Announce describes (R309, R320). -/
def State.announced (s : State) (d gm rank : Nat) (utc : Int) (flags : BitVec 4) (inacc : Option Nat) : Master :=
  { gmId := gm, rank := rank, utcOffset := utc, utcValid := flags.getLsbD 0, leap59 := flags.getLsbD 2, leap61 := flags.getLsbD 1,
    ptpTimescale := flags.getLsbD 3, inacc := if s.ga (Obj.PROFILE d) = 1 then inacc else none }

/-- A one-step Sync of the port in use (R313). -/
theorem ptpSync_oneStep {s : State} {port3 : Bool} {domain : Nat} (seq origin : Nat) (corr : Int) {l d : Nat}
    (hdom : (s.toL l).ptpDom port3 domain = some d) (hchosen : ((s.toL l).dom d).portChosen = true)
    (hport : ((s.toL l).dom d).port3 = port3) :
    exec (.ptpSyncReceive port3 domain seq false origin corr l) s = .next (
      let s1 := (s.toL l).incL (Obj.SYNC_RX_CNT d)
      (s1.setDom d { s1.dom d with oneStep := true, sync := none }).servo d (s1.offsetOf port3 origin corr
        (s1.domAt d ((l : Int) - s1.rxLat port3)))) := by
  refine congrArg Host.Outcome.next ?_
  have hused : ¬ ((!(((s.toL l).incL (Obj.SYNC_RX_CNT d)).dom d).portChosen ||
      (((s.toL l).incL (Obj.SYNC_RX_CNT d)).dom d).port3 != port3) = true) := by
    rw [show ((s.toL l).incL (Obj.SYNC_RX_CNT d)).dom d = (s.toL l).dom d from rfl, hchosen, hport]
    simp
  simp only [hdom, hused, if_false, Bool.not_false, Bool.false_eq_true]
  rfl

theorem ppsMode_of_act {s u : State} (h : u.act = s.act) {d : Nat} : u.ppsMode d = s.ppsMode d := by
  unfold State.ppsMode State.ga
  rw [h]

/-- Settles O20, by the domain that the port and the number name. -/
theorem timeCommandsComplete : Obligations.TimeCommandsComplete := by
  refine ⟨fun s port3 domain seq origin corr l d hdom hchosen hport => ptpSync_oneStep seq origin corr hdom hchosen hport,
    fun s port3 domain seq origin corr d ingress c hdom hsync hchosen hport => ?followUp,
    fun s domain gm rank utc flags inacc d hdom hchosen hstepped hkeeps => ?announce,
    fun s port3 domain seq l tx d hdom hon => ?pdelayReq, fun s port3 l d hdom => ?pdelaySend, fun s port3 t1 t2 corr l ht1 => ?pdelayResp,
    fun s port3 seq t1 t2 t3 t4 corr ht1 hresp => ?pdelayFollowUp, fun s port3 domain d hdom => ?unsupported,
    fun s d hoff => next_ite_neg hoff, fun s d hmaster => next_ite_pos (by simp [hmaster]), fun s d hst hlocked hexpired => ?holdover,
    fun s falling l hon hpol hlast hmode => ?pps, fun s hdriven => next_ite_pos hdriven, fun s hout => next_ite_pos hout⟩
  case followUp =>
    refine congrArg Host.Outcome.next ?_
    simp only [hdom, hsync, hchosen, hport, and_self, if_true]
  case announce =>
    refine ⟨s.announced d gm rank utc flags inacc, rfl, rfl, rfl, congrArg Host.Outcome.next ?_⟩
    simp only [hdom, hkeeps, Bool.false_eq_true, if_false, if_true, hchosen, hstepped, Bool.not_false, Bool.and_self]
    rfl
  case pdelayReq =>
    refine congrArg Host.Outcome.next ?_
    obtain ⟨d0, hport⟩ := Option.isSome_iff_exists.mp hon
    simp only [hport, hdom, Option.getD_some]
  case pdelaySend =>
    refine congrArg Host.Outcome.next ?_
    simp only [hdom]
  case pdelayResp => exact next_ite_pos ⟨by rw [ht1]; rfl, rfl⟩
  case pdelayFollowUp =>
    refine congrArg Host.Outcome.next ?_
    simp only [ht1, hresp, if_true]
  case unsupported =>
    refine congrArg Host.Outcome.next ?_
    simp only [hdom]
  case holdover =>
    refine (next_ite_neg (by simp [hst, hlocked, hexpired])).trans (congrArg Host.Outcome.next ?_)
    simp only [State.raiseIf, hst, decide_true, if_true]
  case pps =>
    have hlast0 : (s.toL l).time.ppsLast = none := hlast
    refine (next_ite_pos (by simp [hon, hpol])).trans ((next_ite_neg (by rw [hlast0]; exact Bool.false_ne_true)).trans (next_ite_neg ?_))
    rw [ppsMode_of_act (s := s) (by simp), hmode]
    simp

end Sys2Proof.Machine

/-! The commands of the phasor and wave-tag units and of the Acquisition Engine (R333 to R353): O21 and O22. -/
namespace Sys2Proof.Machine

/-- An owed report whose latency has elapsed is published first (R334). -/
theorem publishNow_due {s : State} {u at0 : Nat} {due : List (Nat × Nat)} (hdue : s.phasor.win.due = (u, at0) :: due) (hripe : at0 ≤ s.nowC) :
    s.publishNow =
      let v := s.phSet
      let s1 := s.phPublish v u (at0 - v.latency)
      { s1 with phasor := { s1.phasor with win := { v.reported (u * gridRate v.f0 / 28800) with due := due } } } := by
  have hwin : s.phSet.win.due = (u, at0) :: due := hdue
  simp only [State.publishNow, PhSet.ripe, hwin, hripe, if_true, PhSet.paid, List.drop_one, List.tail_cons]

/-- With no report owed, the next instant is published once its latency has elapsed (R334). -/
theorem publishNow_next {s : State} (hdue : s.phasor.win.due = [])
    (hripe : instantNs (s.phSet.instant s.phasor.nextAt) + s.phSet.latency ≤ s.time64 s.nowC) :
    s.publishNow =
      let v := s.phSet
      let u := v.instant s.phasor.nextAt
      let s1 := s.phPublish v u (s.convOf (instantNs u)).toNat
      { s1 with phasor := { s1.phasor with win := v.reported (u * gridRate v.f0 / 28800), nextAt := u + 1 } } := by
  have hwin : s.phSet.win.due = [] := hdue
  simp only [State.publishNow, PhSet.ripe, hwin, if_neg (Nat.not_lt.mpr hripe)]

theorem phasorPublish_running {s0 s : State} (htick : s0.phTick = s) (hold : s.phasor.old = []) (hrun : s.phasor.running = true) :
    exec .phasorPublish s0 = .next s.publishNow := by
  subst htick
  refine congrArg Host.Outcome.next ?_
  simp only [hold, List.find?_nil, hrun, if_true]

/-- Settles O21, by the reports that are owed and the tag that waits. -/
theorem phasorCommandsComplete : Obligations.PhasorCommandsComplete := by
  refine ⟨fun s0 s u at0 due htick hold hrun hdue hripe => ?owed, fun s0 s htick hold hrun hdue hripe => ?next,
    fun s w tag data rest htags hbeacon => ?tag⟩
  case owed => exact (phasorPublish_running htick hold hrun).trans (congrArg Host.Outcome.next (publishNow_due hdue hripe))
  case next => exact (phasorPublish_running htick hold hrun).trans (congrArg Host.Outcome.next (publishNow_next hdue hripe))
  case tag =>
    refine congrArg Host.Outcome.next ?_
    simp only [htags, hbeacon, Bool.false_eq_true, if_false]

theorem b2n_false : b2n false = 0 := rfl

theorem na_of_act {s u : State} (h : u.act = s.act) (k : Nat) : u.na k = s.na k := by
  unfold State.na State.ga
  rw [h]

theorem acqRowsOf_of_act {s u : State} (h : u.act = s.act) (bytes : List Byte) (c : Nat) : u.acqRowsOf bytes c = s.acqRowsOf bytes c := by
  unfold State.acqRowsOf
  rw [na_of_act h, na_of_act h]

/-- Settles O22, by the code of the command and the state of the capture. -/
theorem acquisitionCommandsComplete : Obligations.AcquisitionCommandsComplete := by
  refine ⟨fun s p htakes => next_guardWrite htakes rfl, fun s p htakes => next_guardWrite htakes rfl, fun s p htakes hst => ?stop,
    fun s p htakes => next_guardWrite htakes rfl, fun s hst hready hroom => ?form, fun s b rest hfifo hbank hst htrig => ?write⟩
  case stop => exact next_guardWrite htakes (congrArg (·, 0) (if_pos hst))
  case form =>
    refine (next_ite_pos ?_).trans (next_ite_pos hroom)
    rcases hst with h | h <;> simp [h, hready]
  case write =>
    refine congrArg Host.Outcome.next ?_
    simp only [hfifo, hbank, hst, htrig, true_or, and_self, if_true, Bool.false_eq_true, if_false, b2n_false, Nat.add_zero,
      State.wrBytes_acq]
    rw [acqRowsOf_of_act (s := s) (by simp), na_of_act (s := s) (by simp)]

end Sys2Proof.Machine

/-! The commands of the converters (R356 to R370): O23. -/
namespace Sys2Proof.Machine

/-- Of two writes of an element of a register file the second stands. -/
theorem vset_vset_same {α : Type} {n : Nat} (v : Vector α n) (i : Nat) (x y : α) : vset (vset v i x) i y = vset v i y :=
  Vector.setIfInBounds_setIfInBounds x

theorem setConv_setConv (s : State) (i : Nat) (x y : Adc) : (s.setConv i x).setConv i y = s.setConv i y := by
  simp only [State.setConv, vset_vset_same]

section
variable {s : State} {i : Nat}

theorem regStart_idle (hrun : (s.conv i).regRun = false) (hidle : (s.conv i).work = .idle) : s.regStart i = s.softStart i :=
  (if_neg (by simp [hrun])).trans (if_pos hidle)

theorem regStop_converting (hreg : (s.conv i).work = .reg) : s.regStop i = s.setConv i
    { s.conv i with cont := false, startWait := false, softWait := false, startL := none, stopping := true } := by
  refine (if_neg (by simp [hreg])).trans ?_
  have hstopping : ((s.conv i).stopping || decide ((s.conv i).work = .reg)) = true := by simp [hreg]
  rw [hstopping]

theorem calRequest_idle (hidle : (s.conv i).work = .idle) (hcal : (s.conv i).calPending = false) :
    s.calRequest i = s.setConv i { s.conv i with work := .cal } :=
  (if_neg (by simp [hidle, hcal])).trans (if_pos hidle)

/-- REG_START of an idle converter (R358). -/
theorem wrAdcCtrl_start (cont : Bool) (hidle : (s.conv i).work = .idle) (hrun : (s.conv i).regRun = false) (hi : i < 2) :
    wrAdcCtrl i (w32 (1 + 2 * b2n cont)) s = ((s.setConv i
      { (s.conv i).restartFilters (fun _ => true) with cont := cont, startL := some s.nowL }).adcBegin i, 0) := by
  have hbits : nbit (w32 (1 + 2 * b2n cont)).toNat 0 = true ∧ nbit (w32 (1 + 2 * b2n cont)).toNat 1 = cont ∧
      nbit (w32 (1 + 2 * b2n cont)).toNat 2 = false ∧ nbit (w32 (1 + 2 * b2n cont)).toNat 3 = false := by
    cases cont <;> decide
  obtain ⟨hstart, hcont, hstop, hcal⟩ := hbits
  simp only [wrAdcCtrl, hstart, hcont, hstop, hcal, Bool.and_false, Bool.false_eq_true, if_false, if_true]
  rw [regStart_idle (by simp [hi, hrun]) (by simp [hi, hidle]), State.softStart, State.conv_setConv _ _ hi, setConv_setConv]
  rfl

/-- REG_STOP during a regular conversion (R358). -/
theorem wrAdcCtrl_stop (hreg : (s.conv i).work = .reg) (hi : i < 2) :
    wrAdcCtrl i 4 s = (s.setConv i
      { s.conv i with cont := false, startWait := false, softWait := false, startL := none, stopping := true }, 0) := by
  have hbits : nbit (4 : Word).toNat 0 = false ∧ nbit (4 : Word).toNat 1 = false ∧ nbit (4 : Word).toNat 2 = true ∧
      nbit (4 : Word).toNat 3 = false := by decide
  obtain ⟨hstart, hcont, hstop, hcal⟩ := hbits
  simp only [wrAdcCtrl, hstart, hcont, hstop, hcal, Bool.false_and, Bool.false_eq_true, if_false, if_true]
  rw [regStop_converting (by simp [hi, hreg]), State.conv_setConv _ _ hi, setConv_setConv]
  rfl

/-- CAL_REQ of an idle converter (R364). -/
theorem wrAdcCtrl_calibrate (cont : Bool) (hidle : (s.conv i).work = .idle) (hcal : (s.conv i).calPending = false) (hi : i < 2) :
    wrAdcCtrl i (w32 (8 + 2 * b2n cont)) s = (s.setConv i { s.conv i with cont := cont, work := .cal }, 0) := by
  have hbits : nbit (w32 (8 + 2 * b2n cont)).toNat 0 = false ∧ nbit (w32 (8 + 2 * b2n cont)).toNat 1 = cont ∧
      nbit (w32 (8 + 2 * b2n cont)).toNat 2 = false ∧ nbit (w32 (8 + 2 * b2n cont)).toNat 3 = true := by
    cases cont <;> decide
  obtain ⟨hstart, hcont, hstop, hreq⟩ := hbits
  simp only [wrAdcCtrl, hstart, hcont, hstop, hreq, Bool.false_and, Bool.false_eq_true, if_false, if_true]
  rw [calRequest_idle (by simp [hi, hidle]) (by simp [hi, hcal]), State.conv_setConv _ _ hi, setConv_setConv]
  rfl

/-- The next periodic start of a converter without other work (R358). -/
theorem adcPeriodicStart_idle {l : Nat} (hcont : (s.conv i).cont = true) (hl : (s.conv i).startL = some l)
    (hperiod : s.na (Obj.REG_PERIOD_NS i) ≠ 0) (hown : i = 0 ∨ s.adc.claimed = false) (hrun : (s.conv i).regRun = false)
    (hstart : (s.conv i).startWait = false) (hsoft : (s.conv i).softWait = false) (hidle : (s.conv i).work = .idle) :
    exec (.adcPeriodicStart i) s = .next (
      let due := l + s.na (Obj.REG_PERIOD_NS i)
      ((s.toL due).setConv i { s.conv i with startL := some due }).adcBegin i) := by
  have hfree : (decide (i = 1) && s.adc.claimed) = false := by
    rcases hown with rfl | h
    · rfl
    · simp [h]
  refine congrArg Host.Outcome.next ?_
  simp only [hl, hcont, hperiod, hfree, hrun, hstart, hsoft, hidle, ne_eq, not_false_eq_true, decide_true, Bool.and_self, Bool.not_false,
    if_true, reduceCtorEq, decide_false, Bool.or_self, Bool.false_eq_true, if_false]

end

theorem ga_of_act {s u : State} (h : u.act = s.act) (k : Nat) : u.ga k = s.ga k := by
  unfold State.ga
  rw [h]

/-- A result of an input without a filter goes to its tap and the data register (R362, R363). -/
theorem adcRegular_unfiltered {s : State} {i input : Nat} (code : Nat) (ovr : Bool) (h : filtEn (s.ga (Obj.FILT_CFG i input)) = false) :
    s.adcRegular i input code ovr
      = (s.adcTap i input (w32 (code * 524288)) ovr).adcDeliver i (w32 (code * 524288)) input ovr false false false := by
  simp only [State.adcRegular, h, Bool.false_and, Bool.false_eq_true, if_false]

/-- Settles O23, by what the converter is at work on. -/
theorem converterCommandsComplete : Obligations.ConverterCommandsComplete := by
  refine ⟨fun s p i cont htakes hidle hrun hi => next_guardWrite htakes (wrAdcCtrl_start cont hidle hrun hi),
    fun s p i htakes hreg hi => next_guardWrite htakes (wrAdcCtrl_stop hreg hi),
    fun s p i cont htakes hidle hcal hi => next_guardWrite htakes (wrAdcCtrl_calibrate cont hidle hcal hi),
    fun s i l hcont hl hperiod hown hrun hstart hsoft hidle => adcPeriodicStart_idle hcont hl hperiod hown hrun hstart hsoft hidle,
    fun s v vref code ovr hcode hreg hfilter => ?conversion, fun s coef hcal => next_ite_pos hcal, fun s hclaimed => next_ite_pos hclaimed⟩
  case conversion =>
    refine congrArg Host.Outcome.next ?_
    simp only [hcode, hreg]
    rw [adcRegular_unfiltered code ovr (by rwa [ga_of_act (s := s) (by simp)])]
    rfl

end Sys2Proof.Machine

/-! The commands of the Local PWM pairs (R371 to R386): O24. -/
namespace Sys2Proof.Machine

section
variable {s : State} {p : Nat}

theorem wrPwmTiming_admitted {v : Word} (hperiod : fld v 31 16 ≠ 0)
    (hsync : nbit (s.na (Obj.PAIR_CFG p)) 4 = false ∨ s.tf % ((s.na (Obj.PSC p) + 1) * (fld v 31 16 + 1)) = 0) :
    wrPwmTiming p v s = (s.pairLand p false v, 0) := by
  refine (if_neg hperiod).trans (if_neg ?_)
  rcases hsync with hsync | hsync <;> simp [hsync]

theorem wrPwmForce_admitted {v : Word} (hcompl : v ≠ 3 ∨ nbit (s.na (Obj.PAIR_CFG p)) 1 = true) :
    wrPwmForce p v s = (s.pairLand p true v, 0) := by
  refine if_neg ?_
  rintro ⟨hcode, hno⟩
  rcases hcompl with h | h
  · exact h hcode
  · simp [h] at hno

theorem wrPairCtrl_start : wrPairCtrl p 1 s = (s.pairCtrl p false, 0) := rfl

theorem wrPairCtrl_stop (hwrap : (s.pwmPair p).wrapAt ≠ none) : wrPairCtrl p 2 s = (s.pairCtrl p true, 0) :=
  congrArg (·, 0) (if_pos (Option.isSome_iff_ne_none.mpr hwrap))

theorem wrTripClear_inactive {v : Word}
    (hlevel : ((List.range 4).any fun n => nbit v.toNat n && nbit s.pwm.level.toNat n) = false) :
    wrTripClear v s = (s.each (idxs 4 fun n => nbit v.toNat n) State.tripClear, 0) :=
  if_neg (by simp only [hlevel, Bool.false_eq_true, not_false_eq_true])

end

/-- Settles O24: the pairs' own commands under their guards; the writes of the pairs' registers and of TRIP_CLEAR by their effects. -/
theorem localPwmCommandsComplete : Obligations.LocalPwmCommandsComplete := by
  unfold Obligations.LocalPwmCommandsComplete
  refine ⟨fun s p w hw hh => ?wrap, fun s p hrun hh href hd => ?duty, fun s p hwait hh => ?deadTime,
    fun s path p v ht hper hs => ?timing, fun s path p v ht hc => ?force, fun s path p ht => ?start, fun s path p ht hw => ?stop,
    fun s path v ht => ?syncStart, fun s path v ht hl => ?tripClear, fun s s0 n edge hs0 hl => ?trip,
    fun s s0 n edge hs0 => ?tripOff⟩
  case wrap =>
    refine congrArg Host.Outcome.next ?_
    simp only [hw, hh, Bool.false_eq_true, if_false]
  case duty => exact next_ite_pos (by simp [hrun, hh, href, hd])
  case deadTime =>
    refine next_ite_pos ?_
    rcases hh with hh | hh <;> simp [hwait, hh]
  case timing => exact next_guardWrite ht (wrPwmTiming_admitted hper hs)
  case force => exact next_guardWrite ht (wrPwmForce_admitted hc)
  case start => exact next_guardWrite ht wrPairCtrl_start
  case stop => exact next_guardWrite ht (wrPairCtrl_stop hw)
  case syncStart => exact next_guardWrite ht rfl
  case tripClear => exact next_guardWrite ht (wrTripClear_inactive hl)
  case trip =>
    subst hs0
    exact next_ite_neg (ne_true_of_eq_false hl)
  case tripOff =>
    subst hs0
    rfl

end Sys2Proof.Machine

/-! The safety write sequence (R402, R403): O25. -/
namespace Sys2Proof.Machine

section
variable {s : State} {p : Path} {o : SwOpen}

theorem swExpire_none (hsw : s.wt.sw = none) : s.swExpire = s := by
  simp only [State.swExpire, hsw]

theorem swExpire_inTime (hsw : s.wt.sw = some o) (htime : s.nowL ≤ o.openedAt + 1000000) : s.swExpire = s := by
  simp only [State.swExpire, hsw]
  exact if_neg (Nat.not_lt.mpr htime)

theorem swExpire_late (hsw : s.wt.sw = some o) (hlate : o.openedAt + 1000000 < s.nowL) : s.swExpire = s.swClose.swEnd 6 := by
  simp only [State.swExpire, hsw]
  exact if_pos hlate

/-- Of the sequences that a path sees, the open one is its own when it has opened it. -/
theorem filter_own (hpath : swPath p = true) (hown : o.path = pathNum p) :
    ((some o).filter fun o => swPath p && decide (o.path = pathNum p)) = some o := by
  simp [hpath, hown]

theorem filter_noPath (hpath : swPath p = false) (sw : Option SwOpen) :
    (sw.filter fun o => swPath p && decide (o.path = pathNum p)) = none := by
  simp [hpath]

theorem wrSwOpen_first {v : Word} {ch : BitVec 16} (hpath : swPath p = true) (hsw : s.wt.sw = none) (hk : isClassK v.toNat = true) :
    wrSwOpen p v ch s = (({ s with wt := { s.wt with
      sw := some ⟨pathNum p, v.toNat, ch.zeroExtend 32, none, s.nowL⟩, swResult := 1 } } : State).setL Obj.SW_CHALLENGE
        (ch.zeroExtend 32), 0) := by
  simp only [wrSwOpen, swExpire_none hsw, hpath, hsw, hk, Bool.not_true, Bool.false_eq_true, if_false, if_true, Option.isSome_none]
  rfl

theorem wrSwOpen_otherPath {v : Word} {ch : BitVec 16} (hpath : swPath p = false) : wrSwOpen p v ch s = refused6 s.swExpire :=
  if_pos (by simp only [hpath, Bool.not_false])

theorem wrSwConfirm_otherPath {v : Word} (hpath : swPath p = false) : wrSwConfirm p v s = refused6 s.swExpire := by
  simp only [wrSwConfirm, filter_noPath hpath]

theorem wrClassK_held {r : ORow} {i j : Nat} {v : Word} (hsw : s.wt.sw = some o) (htime : s.nowL ≤ o.openedAt + 1000000)
    (hpath : swPath p = true) (hown : o.path = pathNum p) (hrow : rowOf o.key = some (r, i, j)) (hfits : r.ty.fits v = true)
    (hrange : r.rng.ok (v &&& w32 r.bits) = true) :
    wrClassK p o.key v s
      = ({ s with wt := { s.wt with sw := some { o with value := some (v &&& w32 r.bits) }, swResult := 2 } }, 0) := by
  simp only [wrClassK, swExpire_inTime hsw htime, hsw, hpath, hown, hrow, hfits, hrange, Bool.not_true, ne_eq, not_true_eq_false,
    decide_false, Bool.or_self, Bool.false_eq_true, Bool.and_self, if_false, if_true]
  rfl

/-- A value of an object that does not take effect at once goes into the staged copies (R402). -/
theorem swTake_staged {key : Nat} (x : Word) (hreset : key ≠ Obj.SBK_RESET) (htest : key ≠ Obj.TEST_PERMIT)
    (hdebug : key ≠ Obj.DEBUG_PERMIT) : s.swTake key x = ((s.setKS key x).setS key x, 3) :=
  (if_neg hreset).trans <| (if_neg htest).trans (if_neg hdebug)

theorem wrSwConfirm_held {x : Word} (hsw : s.wt.sw = some o) (htime : s.nowL ≤ o.openedAt + 1000000) (hpath : swPath p = true)
    (hown : o.path = pathNum p) (hvalue : o.value = some x) (hreset : o.key ≠ Obj.SBK_RESET) (htest : o.key ≠ Obj.TEST_PERMIT)
    (hdebug : o.key ≠ Obj.DEBUG_PERMIT) :
    wrSwConfirm p (crc32c (swBytes o x)) s = (((s.swClose.setKS o.key x).setS o.key x).swEnd 3, 0) := by
  simp only [wrSwConfirm, swExpire_inTime hsw htime, hsw, filter_own hpath hown, hvalue, if_true, swTake_staged x hreset htest hdebug]
  rfl

theorem isClassK_of_row {key : Nat} {r : ORow} {i j : Nat} (hrow : rowOf key = some (r, i, j)) (hk : r.cls = .k) :
    isClassK key = true := by
  simp only [isClassK, hrow, hk, decide_true]

end

/-- Settles O25: the writes of the sequence once an expired one has been closed; its timeout and the permit's expiry as they stand. -/
theorem safetyWritesComplete : Obligations.SafetyWritesComplete := by
  unfold Obligations.SafetyWritesComplete
  refine ⟨fun s p v ch ht hpath hsw hk => ?swOpen, fun s p o r i j v hlow hsw htime hpath hown hrow hcls hfits hrange => ?value,
    fun s p o x ht hsw htime hpath hown hvalue h1 h2 h3 => ?confirm, fun s o hsw => ?timeout,
    fun s p o v ch hsw hlate hpath => ⟨?lateOpen, ?lateConfirm⟩, fun s => rfl⟩
  case swOpen => exact next_guardWrite ht (wrSwOpen_first hpath hsw hk)
  case value =>
    refine congrArg Host.Outcome.next ?_
    simp only [isClassK_of_row hrow hcls, wrClassK_held hsw htime hpath hown hrow hfits hrange, hlow, Bool.false_eq_true, if_true, if_false]
  case confirm => exact next_guardWrite ht (wrSwConfirm_held hsw htime hpath hown hvalue h1 h2 h3)
  case timeout =>
    refine congrArg Host.Outcome.next ?_
    simp only [hsw]
  case lateOpen => rw [wrSwOpen_otherPath hpath, swExpire_late hsw hlate]
  case lateConfirm => rw [wrSwConfirm_otherPath hpath, swExpire_late hsw hlate]

end Sys2Proof.Machine

/-! The Watchtower's own events (R387 to R407): O26. -/
namespace Sys2Proof.Machine

section
variable {s : State} {c : Nat}

theorem nk_of_kAct {u : State} (h : u.kAct = s.kAct) (key : Nat) : u.nk key = s.nk key := by
  simp only [State.nk, State.gk, h]

/-- A test pulse of a released output whose read-back does not follow (R388). -/
theorem outTestPulse_disagree {b : Bool} (hreleased : (if b then s.wt.outB else s.wt.outA) = false) (hout : s.power.safeOut = false)
    (hen : nbit (s.nk Obj.WT_FUNC_EN) 3 = true) : exec (.outTestPulse b false) s = .next (s.wtFail (if b then 4 else 3)) := by
  refine next_ite_pos ?_
  cases b <;> simp_all

theorem outTestPulse_agree {b : Bool} : exec (.outTestPulse b true) s = .next s :=
  next_ite_neg (by simp only [Bool.not_true, Bool.and_false, Bool.false_eq_true, not_false_eq_true])

theorem slvDiscExpire_discrepant {v : Nat} (hdisc : nbit s.wt.slvDisc.toNat v = true) (hreact : s.nk (Obj.SLV_REACT v) = 2) :
    exec (.slvDiscExpire v) s
      = .next (({ s with wt := { s.wt with slvHeld := bset s.wt.slvHeld v true } } : State).cause 6 true) :=
  (next_ite_pos (by simp [hdisc, State.slvEnabled, hreact])).trans (next_ite_pos hreact)

/-- The first edge of a PULSE input before S_0 is only remembered (R394, R398). -/
theorem wtPulseEdge_first {n t : Nat} (hidle : s.frame.ticking = false) (hfirst : (vget ⟨none, none, 0⟩ s.wt.sls n).last = none) :
    exec (.wtPulseEdge n t) s = .next { s with wt := { s.wt with
      sls := vset s.wt.sls n { vget ⟨none, none, 0⟩ s.wt.sls n with last := some t },
      slsTimeout := bset s.wt.slsTimeout n false } } := by
  refine congrArg Host.Outcome.next ?_
  simp only [hfirst, Option.map_none, Option.isSome_none, hidle, Bool.not_false, Bool.true_or, Bool.false_eq_true, if_false, if_true]

theorem safetyPdu_plain {en3 : Bool} {prp : Option (BitVec 16)} {bs : List Byte} (hen : s.connEn c = true) (htx : s.connTx c = false)
    (hpar : s.connPar c = false) : exec (.safetyPduReceive c en3 prp bs) s
      = .next (if (s.prpPass c en3 prp).2 then (s.prpPass c en3 prp).1.pduHandle c bs else (s.prpPass c en3 prp).1) :=
  (next_ite_neg (by simp [hen, htx])).trans (next_ite_neg (by simp [hpar]))

theorem safetyPdu_firstHalf {en3 : Bool} {prp : Option (BitVec 16)} {bs : List Byte} (hen : s.connEn c = true)
    (htx : s.connTx c = false) (hpar : s.connPar c = true) (hhalf : (s.conn c).half = none) :
    exec (.safetyPduReceive c en3 prp bs) s = .next (s.setConn c { s.conn c with half := some (en3, bs) }) := by
  refine (next_ite_neg (by simp [hen, htx])).trans <| (next_ite_pos hpar).trans <| congrArg Host.Outcome.next ?_
  simp only [hhalf]

theorem sdWatchdogExpire_run (hrx : s.connRx1 c = true) (hrun : (s.conn c).st = .run) : exec (.sdWatchdogExpire c) s
    = .next (((s.setConn c { s.conn c with st := .failed }).incL (Obj.CONN_FAIL_CNT c)).irqEdge 11 2).sdCauses := by
  simp only [State.connRx1, Bool.and_eq_true, Bool.not_eq_true'] at hrx
  obtain ⟨⟨hen, htx⟩, hreact⟩ := hrx
  refine (next_ite_pos (by simp [hen, htx, hrun])).trans (next_ite_pos ?_)
  unfold State.connReact at hreact ⊢
  rwa [nk_of_kAct (s := s) (by simp)]

theorem sdTxSend_connect (hen : s.connEn c = true) (htx : s.connTx c = true) (htick : s.frame.ticking = true)
    (hfailed : (s.conn c).st ≠ .failed) (hrun : (s.conn c).st ≠ .run) : exec (.sdTxSend c) s = .next (
      let pdu := pduBytes 0x10 0 (s.conn c).txSeq (s.connId c) []
      let frame (lanB : Bool) := sdFrame pdu (if s.connPar c then none else some (s.wt.prpSeq, lanB))
      let t : State := { s with wt := { s.wt with prpSeq := if s.connPar c then s.wt.prpSeq else s.wt.prpSeq + 1 } }
      t.setConn c { s.conn c with
        st := .run, txSeq := ((s.conn c).txSeq + 1) % 65536, sent := pdu, frames := (frame false, frame true) }) := by
  refine (next_ite_pos (by simp [hen, htx, htick, hfailed])).trans (congrArg Host.Outcome.next ?_)
  simp only [if_neg hrun]

end

/-- Settles O26: the failures are `wtFail` with their code, and once WT_FAULT is latched it stays; the supervision's expiries under
their conditions; a PDU goes on once its twin has been looked for. -/
theorem watchtowerEventsComplete : Obligations.WatchtowerEventsComplete := by
  unfold Obligations.WatchtowerEventsComplete
  refine ⟨fun s => rfl, fun s => rfl, fun s b hr ho he => ⟨outTestPulse_disagree hr ho he, outTestPulse_agree⟩, fun s b => rfl,
    fun s => ⟨rfl, rfl⟩, fun s htick hen hsus => ?heartbeat, fun s n r htick h30 h28 => ?record, fun s n htick hlost => ?measLost,
    fun s v hd hr => slvDiscExpire_discrepant hd hr, fun s n t hi hf => wtPulseEdge_first hi hf, fun s n hdiff => ?slsTimeout,
    fun s htick hdiff hreact => ?slsDisc, fun s c en3 bs he ht hp => ?pdu, fun s c en3 q bs he ht hp => ?prp,
    fun s c en3 prp bs he ht hp hh => safetyPdu_firstHalf he ht hp hh, fun s c hh => ?parWindow,
    fun s c hrx hr => sdWatchdogExpire_run hrx hr, fun s c he ht htk hf hr => sdTxSend_connect he ht htk hf hr,
    fun s hf code => ?fault⟩
  case heartbeat => exact next_ite_pos (by simp [htick, hen, hsus])
  case record => exact next_ite_neg (by simp only [htick, h30, h28, Bool.not_true, Bool.or_self, Bool.false_eq_true, not_false_eq_true])
  case measLost => exact next_ite_pos (by simp [htick, hlost])
  case slsTimeout => exact next_ite_pos hdiff
  case slsDisc => exact (next_ite_pos (by simp [htick, hdiff, hreact])).trans (next_ite_pos hreact)
  case pdu => exact safetyPdu_plain he ht hp
  case prp =>
    refine (safetyPdu_plain he ht hp).trans (congrArg Host.Outcome.next ?_)
    by_cases htwin : s.prpTwin c en3 q = true <;> simp [State.prpPass, htwin]
  case parWindow => exact next_ite_pos hh
  case fault => exact if_pos hf

end Sys2Proof.Machine

/-! The commands of the image port (R58, R64): O27. -/
namespace Sys2Proof.Machine

section
variable {s : State}

theorem imgErase_idle {slot : Nat} (hruns : s.runs slot = false) (hbusy : s.imgBusy = false) (hover : s.nl Obj.IMG_STATUS ≠ 7) :
    imgErase slot s = ((s.setImg { s.img with slot := slot, page := [] }).flashOp (.erase slot), 0) := by
  simp only [imgErase, hruns, hbusy, hover, Bool.false_eq_true, if_false]
  rfl

theorem imgFinish_idle {slot : Nat} (hruns : s.runs slot = false) (hbusy : s.imgBusy = false) :
    imgFinish slot s = (s.flushPage.flashOp (.finish slot), 0) := by
  simp only [imgFinish, hruns, hbusy, Bool.false_eq_true, if_false]
  rfl

theorem imgSubmit_awaited (hload : s.boot.hostLoad = true) (hsub : s.boot.submitted = false) :
    imgSubmit s = (({ s with boot := { s.boot with submitted := true, loading := 2, step := .payload } } : State).imgStatus 1, 0) :=
  if_pos (by simp only [hload, hsub, Bool.not_false, Bool.and_self])

theorem imgSave_idle (hbusy : s.imgBusy = false) : imgSave s = (s.flushPage.flashOp (.save s.saveSlot), 0) :=
  if_neg (ne_true_of_eq_false hbusy)

section
variable {v : Word} (halign : s.nl Obj.IMG_OFFSET % 4 = 0) (hbound : s.nl Obj.IMG_OFFSET < 0x400000)
include halign hbound

theorem imgOffset_admitted : ¬ (s.nl Obj.IMG_OFFSET % 4 ≠ 0 ∨ 0x400000 ≤ s.nl Obj.IMG_OFFSET) := by
  omega

theorem wrImgData_hostLoad (hload : s.boot.hostLoad = true) : wrImgData v s
    = (((s.ownerOn (acqAddr (s.nl Obj.IMG_OFFSET) / 65536)).wrW (acqAddr (s.nl Obj.IMG_OFFSET)) v).setLN Obj.IMG_OFFSET
      (s.nl Obj.IMG_OFFSET + 4), 0) :=
  (if_neg (imgOffset_admitted halign hbound)).trans (if_pos hload)

/-- A word opens a page that it does not end (R64). -/
theorem wrImgData_openPage (hload : s.boot.hostLoad = false) (hbusy : s.imgBusy = false) (hruns : s.runs s.img.slot = false)
    (hmarker : s.nl Obj.IMG_OFFSET ≠ 0x3C) (hpage : s.img.page = [])
    (hend : (slotBase s.img.slot + s.nl Obj.IMG_OFFSET + 4) % 256 ≠ 0) : wrImgData v s
    = ((s.setImg { s.img with pageAddr := slotBase s.img.slot + s.nl Obj.IMG_OFFSET, page := leBytes 4 v.toNat }).setLN
      Obj.IMG_OFFSET (s.nl Obj.IMG_OFFSET + 4), 0) := by
  refine (if_neg (imgOffset_admitted halign hbound)).trans <| (if_neg (ne_true_of_eq_false hload)).trans <|
    (if_neg (ne_true_of_eq_false hbusy)).trans <| (if_neg (ne_true_of_eq_false hruns)).trans ?_
  simp only [hmarker, hpage, hend, List.isEmpty_nil, Bool.true_or, List.nil_append, if_true, if_false]
  rfl

end

/-- The last operation in progress has ended well: the service is not busy any more, and IMG_STATUS takes its outcome (R64). -/
theorem flashOpDone_last_good {o : FlashOp} (hops : s.img.ops = [o]) : exec (.flashOpDone true) s = .next (
    ((s.flashDone o).1.setImg { (s.flashDone o).1.img with ops := [] }).imgStatus (s.flashDone o).2) := by
  have hidle : ((s.flashDone o).1.setImg { (s.flashDone o).1.img with ops := [] }).imgBusy = false := rfl
  refine congrArg Host.Outcome.next ?_
  simp only [hops, hidle, Bool.and_false, Bool.false_eq_true, if_true, if_false]

theorem flashOpDone_last_failed {o : FlashOp} (hops : s.img.ops = [o]) :
    exec (.flashOpDone false) s = .next ((s.setImg { s.img with ops := [] }).imgStatus 4) := by
  refine congrArg Host.Outcome.next ?_
  simp only [hops]
  rfl

end

/-- Settles O27: the writes of IMG_CTRL and IMG_DATA by their effects; the end of a flash operation by its outcome. -/
theorem imageCommandsComplete : Obligations.ImageCommandsComplete := by
  unfold Obligations.ImageCommandsComplete
  refine ⟨fun s p ht hr hb ho => ?eraseA, fun s p ht hr hb ho => ?eraseB, fun s p ht hr hb => ?finishA, fun s p ht hr hb => ?finishB,
    fun s p ht hl hs => ?hostLoad, fun s p ht hb => ?save, fun s p v ht ha hlt hl => ?loadWord,
    fun s p v ht ha hlt hl hb hr hm hp he => ?pageWord, fun s o hops => flashOpDone_last_good hops,
    fun s o hops => flashOpDone_last_failed hops⟩
  case eraseA => exact next_guardWrite ht (imgErase_idle hr hb ho)
  case eraseB => exact next_guardWrite ht (imgErase_idle hr hb ho)
  case finishA => exact next_guardWrite ht (imgFinish_idle hr hb)
  case finishB => exact next_guardWrite ht (imgFinish_idle hr hb)
  case hostLoad => exact next_guardWrite ht (imgSubmit_awaited hl hs)
  case save => exact next_guardWrite ht (imgSave_idle hb)
  case loadWord => exact next_guardWrite ht (wrImgData_hostLoad ha hlt hl)
  case pageWord => exact next_guardWrite ht (wrImgData_openPage ha hlt hl hb hr hm hp he)

end Sys2Proof.Machine

/-! The commands of the Fault Collector (R442 to R445): O28. -/
namespace Sys2Proof.Machine

/-- Outside RUN and RIDETHROUGH a force is taken (R443). -/
theorem wrFaultForceHi_taken {s : State} {p : Path} {hi : Word} (hrun : s.mode ≠ .run) (hrt : s.mode ≠ .ridethrough) :
    wrFaultForceHi p hi s = ((s.faultForce (s.lowHeld p Obj.FAULT_FORCE_LO 0) hi).dropLow p, 0) :=
  if_neg (not_or.mpr ⟨hrun, hrt⟩)

/-- Settles O28: the two writes by their effects, the ends of the self-tests by the test that the search finds. -/
theorem faultCommandsComplete : Obligations.FaultCommandsComplete := by
  unfold Obligations.FaultCommandsComplete
  refine ⟨fun s p hi ht => ?ack, fun s p hi ht hrun hrt => ?force, fun s t good h => ?testE, fun s t lane blocks h => ?testL,
    fun s t e good h => ?testK, fun s t e h => ?skip⟩
  case ack => exact next_guardWrite ht rfl
  case force => exact next_guardWrite ht (wrFaultForceHi_taken hrun hrt)
  case testE | testL | testK | skip =>
    refine congrArg Host.Outcome.next ?_
    simp only [h]

end Sys2Proof.Machine

/-! The commands of the redundant pair (R413 to R435): O29. -/
namespace Sys2Proof.Machine

/-! ### The blocks of the Mirror Link (R417, R418) -/

section
variable {kind rest : Nat}

/-- The low 16 bits of a SOT block give its kind, whatever it carries. -/
theorem mirrorSot_low : (mirrorSot kind rest).extractLsb' 0 16 = (mirrorSot kind 0).extractLsb' 0 16 := by
  apply BitVec.eq_of_toNat_eq
  simp only [mirrorSot, BitVec.extractLsb'_toNat, BitVec.toNat_ofNat, Nat.shiftRight_zero]
  omega

theorem mirrorSot_tag (hkind : kind < 255) : ((mirrorSot kind rest).extractLsb' 16 16).toNat = rest % 65536 := by
  have htype : sotType < 256 := by decide
  simp only [mirrorSot, BitVec.extractLsb'_toNat, BitVec.toNat_ofNat, Nat.shiftRight_eq_div_pow]
  omega

theorem mirrorSot_turn (hkind : kind < 255) : ((mirrorSot kind rest).extractLsb' 32 32).toNat = rest / 65536 % 4294967296 := by
  have htype : sotType < 256 := by decide
  simp only [mirrorSot, BitVec.extractLsb'_toNat, BitVec.toNat_ofNat, Nat.shiftRight_eq_div_pow]
  omega

end

/-! ### Pair trains (R414, R415, R421, R434) -/

section
variable {s s0 : State} {a b : List (BitVec 64)} {t : Nat}

theorem heardTrain_inactive (bytes : List Byte) : s.heardTrain bytes false
    = ({ s.incL Obj.MIRROR_RX_CNT with pair := { s.pair with
        partnerFlags := pfld bytes 0x0F 1, silent := 0, heard := true
        partnerSbk := if s.accepts bytes then nbit (pfld bytes 0x0F 1) 1 else s.pair.partnerSbk } } : State).setPartnerLost false := by
  simp only [State.heardTrain, Bool.or_false, Bool.false_eq_true, if_false]

section
variable (hs0 : s.toC (t / 4) = s0) (hen : s0.ga Obj.PAIR_EN = 1) (hlanes : s0.mirrorLanes = true)
include hs0 hen hlanes

theorem pairTrain_toActive (hrole : s0.pair.role = .active) (hok : packetOk (mirrorPacket a b) = true)
    (hpartner : pfld (mirrorPacket a b) 0x0D 1 ≠ 1) :
    exec (.pairTrainReceive a b t) s = .next (s0.heardTrain (mirrorPacket a b) false) := by
  refine congrArg Host.Outcome.next ?_
  simp only [hs0, hen, hlanes, hrole, hok, hpartner, ne_eq, not_true_eq_false, Bool.true_eq_false, or_self, decide_false, Bool.false_and,
    Bool.false_eq_true, if_false, if_true]

theorem pairTrain_incorrect (hrole : s0.pair.role ≠ .active) (hmode : s0.mode ≠ .mirror) (hbad : packetOk (mirrorPacket a b) = false) :
    exec (.pairTrainReceive a b t) s = .next s0 := by
  refine congrArg Host.Outcome.next ?_
  simp only [hs0, hen, hlanes, hrole, hmode, hbad, ne_eq, not_true_eq_false, Bool.true_eq_false, or_self, Bool.not_false, if_false,
    if_true]

/-- A MIRROR device heeds the time of its ACTIVE partner and adopts the content of its train. -/
theorem pairTrain_toMirror {bytes : List Byte} {u : State} (hu : s0.heardTrain bytes true = u) (hbytes : mirrorPacket a b = bytes)
    (hrole : s0.pair.role ≠ .active) (hok : packetOk bytes = true) (hlen : 36 ≤ bytes.length) (hpartner : pfld bytes 0x0D 1 = 1)
    (hwait : u.boot.mirrorWait = false) (hmode : u.mode = .mirror) (hlayout : pfld bytes 0x14 2 = u.mirLen)
    (hbound : bytes.length = u.mirLen) : exec (.pairTrainReceive a b t) s = .next (
      let q : Int := (t : Int) - u.pair.delayQ - pfld bytes 8 4
      (u.heedPartner (pfld bytes 0 8) q t).adopt bytes (u.tickError q).2.toNat) := by
  have hactive : (decide (pfld bytes 0x0D 1 = 1) && decide (36 ≤ bytes.length)) = true := by
    simp only [hpartner, hlen, decide_true, Bool.and_self]
  have hown : ∀ q, ¬ (pfld bytes 0x14 2 ≠ (u.heedPartner (pfld bytes 0 8) q t).mirLen ∨
      bytes.length ≠ (u.heedPartner (pfld bytes 0 8) q t).mirLen) := fun _ =>
    not_or.mpr ⟨not_not_intro hlayout, not_not_intro hbound⟩
  refine congrArg Host.Outcome.next ?_
  simp only [hs0, hen, hlanes, hbytes, hrole, hok, hactive, hu, hwait, hmode, if_neg (hown _), ne_eq, not_true_eq_false,
    Bool.true_eq_false, or_self, Bool.not_true, Bool.false_eq_true, if_false, if_true]

end
end

/-! ### The Mirror Link's delay (R418) and the swap (R435) -/

section
variable {s : State}

theorem mirrorPing_answered {g t tx : Nat} (hup : s.mirrorUp = true) (hg : g < 65536) :
    exec (.mirrorPingReceive (mirrorSot 6 g) t tx) s = .next (({ s with pair := { s.pair with
      pingReply := some (mirrorSot 7 ((tx - t) % 4294967296 * 65536 + g)) } } : State).trainOut 32
        [mirrorSot 7 ((tx - t) % 4294967296 * 65536 + g), mirrorEot 0] s.nowC) := by
  have htag : ((mirrorSot 6 g).extractLsb' 16 16).toNat = g := (mirrorSot_tag (by decide)).trans (Nat.mod_eq_of_lt hg)
  refine (next_ite_pos ⟨hup, mirrorSot_low⟩).trans (congrArg Host.Outcome.next ?_)
  simp only [htag]

theorem mirrorReply_taken {tag turn t sent : Nat} (hup : s.mirrorUp = true) (htag : tag < 65536) (hturn : turn < 4294967296)
    (hping : s.pair.pings.find? (fun x => x.1 == tag) = some (tag, sent)) :
    exec (.mirrorPingReplyReceive (mirrorSot 7 (turn * 65536 + tag)) t) s = .next { s with
        pair := { s.pair with
          pings := s.pair.pings.filter fun y => y.1 != tag
          trips := ((t : Int) - sent - turn) :: s.pair.trips
          delayQ := floorDiv ((((t : Int) - sent - turn) :: s.pair.trips).sum + ((((t : Int) - sent - turn) :: s.pair.trips).length : Int)
          * s.ia Obj.ML_ASYM_Q) (2 * ((((t : Int) - sent - turn) :: s.pair.trips).length : Int)) } } := by
  have h1 : ((mirrorSot 7 (turn * 65536 + tag)).extractLsb' 16 16).toNat = tag :=
    (mirrorSot_tag (by decide)).trans (by omega)
  have h2 : ((mirrorSot 7 (turn * 65536 + tag)).extractLsb' 32 32).toNat = turn :=
    (mirrorSot_turn (by decide)).trans (by omega)
  have h3 : ¬ (s.mirrorUp = false ∨
      (mirrorSot 7 (turn * 65536 + tag)).extractLsb' 0 16 ≠ (mirrorSot 7 0).extractLsb' 0 16) := by
    simp only [hup, mirrorSot_low (rest := turn * 65536 + tag), Bool.true_eq_false, ne_eq, not_true_eq_false, or_self, not_false_eq_true]
  refine congrArg Host.Outcome.next ?_
  simp only [h1, h2, hping, if_neg h3]

theorem arbActChange_edge {u : State} {level : Bool} {t : Nat} (hu : s.toC t = u) (hlevel : level ≠ u.pair.arbIn)
    (hswap : u.pair.swap = false) : exec (.arbActChange level t) s
      = .next (({ u with pair := { u.pair with arbIn := level } } : State).incL Obj.ARB_EDGE_CNT) := by
  refine congrArg Host.Outcome.next ?_
  simp only [hu, hlevel, State.incL_pair, hswap, Bool.false_and, Bool.false_eq_true, if_false]

theorem wrSwapReq_synchronised (hrole : s.pair.role = .active) (hsync : nbit s.pair.partnerFlags 2 = true) :
    wrSwapReq s = (({ s with pair := { s.pair with swap := true } } : State).setLN Obj.SWAP_RESULT 1, 0) :=
  (if_neg (not_not_intro hrole)).trans (if_neg (by simp only [hsync, Bool.not_true, Bool.false_eq_true, not_false_eq_true]))

end

/-- Settles O29: the branches of a train's reception for an ACTIVE and for a MIRROR device, the pings by the fields of their blocks, and
the swap under its conditions. -/
theorem pairCommandsComplete : Obligations.PairCommandsComplete := by
  unfold Obligations.PairCommandsComplete
  refine ⟨fun s a b bytes t hen hl hb hr hok hp => ?active, fun s a b t hen hl hr hm hbad => pairTrain_incorrect rfl hen hl hr hm hbad,
    fun s a b bytes t u hu hen hl hb hr hok hlen hp => ?mirror, fun s hen hsil => next_ite_pos ⟨hen, hsil⟩,
    fun s hw => next_ite_pos hw, fun s ts hup => next_ite_pos hup, fun s g t tx reply hup hg hreply => ?ping,
    fun s tag turn t sent hup htag hturn hping => mirrorReply_taken hup htag hturn hping,
    fun s level t u hu hlev hsw => arbActChange_edge hu hlev hsw, fun s p ht hr hsync => ?swap, fun s hsw => next_ite_pos hsw⟩
  case active =>
    subst hb
    exact (pairTrain_toActive rfl hen hl hr hok hp).trans (congrArg Host.Outcome.next (heardTrain_inactive _))
  case mirror => exact fun hw hm hlay hbound => pairTrain_toMirror rfl hen hl hu hb hr hok hlen hp hw hm hlay hbound
  case ping =>
    subst hreply
    exact mirrorPing_answered hup hg
  case swap => exact next_guardWrite ht (wrSwapReq_synchronised hr hsync)

end Sys2Proof.Machine

/-! The commands of the banks, the secure bank and the life cycle (R449 to R467): O30. -/
namespace Sys2Proof.Machine

section
variable {s : State}

theorem eccAddr_corrected (b w : Nat) : eccAddr b w false = b * 65536 + w := by
  simp only [eccAddr, b2n_false, Nat.zero_mul, Nat.zero_add]

theorem eccAddr_uncorrectable (b w : Nat) : eccAddr b w true = 2147483648 + b * 65536 + w := by
  simp only [eccAddr, b2n, if_true, Nat.one_mul]

/-! ### Power states and marches (R450, R455, R456) -/

theorem wakeDone_fromOff {b : Nat} (h : (s.bank b).pwr = .waking true) : s.wakeDone b
    = ({ s with sram := tclear (bankAddr b 0) (bankAddr (b + 1) 0) s.sram } : State).setBank b { s.bank b with pwr := .on } := by
  simp only [State.wakeDone, h, State.clearSram]

theorem wakeDone_fromRetention {b : Nat} (h : (s.bank b).pwr = .waking false) :
    s.wakeDone b = s.setBank b { s.bank b with pwr := .on } := by
  simp only [State.wakeDone, h]

theorem marchResult_nowL (s : State) (code : Nat) : (s.marchResult code).nowL = s.nowL := by
  simp only [State.nowL, State.marchResult, State.irqEdge_time, State.setLN_time]

theorem wrMarchCtrl_start {v : Word} (hreq : nbit v.toNat 31 = true) (hdestr : nbit v.toNat 30 = false) (hbank : fld v 7 0 ≤ 172)
    (halg : fld v 29 28 ≤ 1) (hmarch : s.mem.march = none) : wrMarchCtrl v s =
      (let u := (s.setBank (fld v 7 0) { s.bank (fld v 7 0) with marchBusy := true }).marchResult 1
       ({ u with mem := { u.mem with march := some ⟨fld v 7 0, false, fld v 29 28, s.nowL⟩ } }, 0)) := by
  have hrange : ¬ (172 < fld v 7 0 ∨ 1 < fld v 29 28) := by omega
  simp only [wrMarchCtrl, hreq, hdestr, hmarch, if_neg hrange, marchResult_nowL, Bool.not_true, Bool.false_and, Option.isSome_none,
    Bool.false_eq_true, if_false]
  rfl

theorem marchDone_clean {m : March} (hmarch : s.mem.march = some m) (hkeep : m.destructive = false) :
    exec (.marchDone []) s = .next ((s.marchEnd.marchResult 2).incL Obj.MARCH_DONE_CNT) := by
  refine congrArg Host.Outcome.next ?_
  simp only [hmarch, hkeep]
  rfl

theorem bgFind_here {n r : Nat} {lap : Bool} (hr : r < bgRows) (hpwr : (s.bank (r / 256)).pwr ≠ .off) (hmarch : s.mem.march = none) :
    s.bgFind (n + 1) r lap = some (r, lap) := by
  have hheld : s.rowHeld (r / 256) (r % 256) = false := by simp only [State.rowHeld, hmarch]
  exact (if_neg (Nat.not_le.mpr hr)).trans <| (if_neg hpwr).trans <| if_neg (ne_true_of_eq_false hheld)

theorem marchBgRow_clean {corr : Nat} (hen : s.ga Obj.MARCH_BG_EN = 1) (hrow : s.mem.bgRow + 1 < bgRows)
    (hpwr : (s.bank (s.mem.bgRow / 256)).pwr ≠ .off) (hmarch : s.mem.march = none) : exec (.marchBgRow corr none) s
      = .next { s.addL Obj.ECC_CORR_CNT corr with mem := { s.mem with bgRow := s.mem.bgRow + 1 } } := by
  have hfind : s.bgFind 432 s.mem.bgRow false = some (s.mem.bgRow, false) := bgFind_here (by omega) hpwr hmarch
  have hlast : decide (s.mem.bgRow + 1 = bgRows) = false := decide_eq_false (by omega)
  refine (next_ite_pos hen).trans (congrArg Host.Outcome.next ?_)
  simp only [hfind, hlast, Nat.mod_eq_of_lt hrow, Bool.or_self]
  rfl

/-! ### The secure bank and the life cycle (R459 to R463) -/

theorem wrKeyInstall_taken {bs : List Byte} (hlen : bs.length = 32) (hkey : s.keyPresent = false)
    (hlife : s.mem.life = .provisioned ∨ s.mem.life = .deployed) (hrun : s.mode ≠ .run) (hrt : s.mode ≠ .ridethrough)
    (hmirror : s.mode ≠ .mirror) :
    wrKeyInstall bs s = ((((s.wrBytes (secAddr 0) bs).wrW (secAddr 0x20) 1).tamperLog 6).raise 47, 0) := by
  refine (if_neg (not_not_intro hlen)).trans <| (if_neg (ne_true_of_eq_false hkey)).trans <| if_neg ?_
  rintro (⟨hprov, hdep⟩ | h | h | h)
  · exact hlife.elim hprov hdep
  · exact hrun h
  · exact hrt h
  · exact hmirror h

theorem tamperAccept_idle {n : Nat} {t : State}
    (ht : (({ s with mem := { s.mem with tamper := bset s.mem.tamper n true } } : State).incL Obj.TAMPER_CNT).raise 47 = t)
    (hfusing : t.mem.fusing = none) : s.tamperAccept n = if nbit (t.na Obj.TAMPER_EN) n then t.wipe (n + 1) else t := by
  simp only [State.tamperAccept, ht, hfusing, Option.isSome_none, Bool.false_eq_true, if_false]
  cases nbit (t.na Obj.TAMPER_EN) n <;> rfl

section
variable (hrun : s.mode ≠ .run) (hrt : s.mode ≠ .ridethrough) (hmirror : s.mode ≠ .mirror)
include hrun hrt hmirror

/-- A listed transition is granted, PROVISION from BOOT_SEL 3 only and DEPLOY with a key only (R463). -/
theorem lcRequest_granted {b : LifeCycle} (hlisted : lcListed s.mem.life b = true) (hsel : b = .provisioned → s.boot.selPins = 3)
    (hkey : b = .deployed → s.keyPresent = true) : s.lcRequest (some b) = 7 := by
  refine (if_neg (by simp only [hrun, hrt, hmirror, or_self, not_false_eq_true])).trans <| (if_neg ?_).trans <| if_neg ?_
  · by_cases hb : b = .provisioned
    · simp [hlisted, hsel hb]
    · simp [hlisted, hb]
  · rintro ⟨hb, hno⟩
    exact Bool.noConfusion (hno.symm.trans (hkey hb))

theorem wrLcReq_granted {v : Word} {b : LifeCycle} (hfusing : s.mem.fusing = none) (hcode : fld v 31 16 = 0x4C43)
    (htarget : lifeOf (fld v 7 0) = some b) (hlisted : lcListed s.mem.life b = true)
    (hsel : b = .provisioned → s.boot.selPins = 3) (hkey : b = .deployed → s.keyPresent = true) :
    wrLcReq v s = ({ s.lcResult 7 with mem := { s.mem with fusing := some b } }, 0) := by
  simp only [wrLcReq, hfusing, hcode, htarget, lcRequest_granted hrun hrt hmirror hlisted hsel hkey, Option.isSome_none,
    Bool.false_eq_true, ne_eq, not_true_eq_false, if_false, if_true]
  rfl

end
end

/-- Settles O30: each command in the branch of its hypotheses; the four LC_REQ commands are the request of a listed transition. -/
theorem memoryCommandsComplete : Obligations.MemoryCommandsComplete := by
  unfold Obligations.MemoryCommandsComplete
  refine ⟨fun s b h => congrArg Host.Outcome.next (wakeDone_fromOff h), fun s b h => congrArg Host.Outcome.next (wakeDone_fromRetention h),
    fun s b hon hw => next_ite_pos ⟨hon, hw⟩, fun s b w => ?corrected, fun s b w bits => ?uncorrectable,
    fun s p v ht h31 h30 hb ha hm => ?march, fun s m hm hd => marchDone_clean hm hd,
    fun s corr hen hr hp hm => marchBgRow_clean hen hr hp hm, fun s p bs hlow hlen hk hl h1 h2 h3 => ?key,
    fun s n t hlow hn ht hf => ?tamper, fun s n => rfl, fun s safe => rfl, fun s hout => ?temp, fun s p ht hf hl hsel h1 h2 h3 => ?provision,
    fun s p ht hf hl hk h1 h2 h3 => ?deploy, fun s p ht hf hl h1 h2 h3 => ?returnToMaker, fun s p ht hf hl h1 h2 h3 => ?scrap,
    fun s t primary hf => ?fuse⟩
  case corrected =>
    refine congrArg Host.Outcome.next ?_
    rw [eccAddr_corrected]
  case uncorrectable =>
    refine congrArg Host.Outcome.next ?_
    rw [eccAddr_uncorrectable]
  case march => exact next_guardWrite ht (wrMarchCtrl_start h31 h30 hb ha hm)
  case key =>
    refine congrArg Host.Outcome.next ?_
    simp only [wrKeyInstall_taken hlen hk hl h1 h2 h3, hlow, Bool.false_eq_true, if_false]
  case tamper =>
    refine (next_ite_neg ?_).trans (congrArg Host.Outcome.next (tamperAccept_idle ht hf))
    simp only [hlow, hn, Bool.or_self, Bool.false_eq_true, not_false_eq_true]
  case temp =>
    refine congrArg Host.Outcome.next (if_pos ?_)
    simp only [hout, Bool.not_false, Bool.and_self]
  case provision =>
    exact next_guardWrite ht (wrLcReq_granted (b := .provisioned) h1 h2 h3 hf rfl rfl (by simp [lcListed, hl]) (fun _ => hsel)
      (fun h => by cases h))
  case deploy =>
    exact next_guardWrite ht (wrLcReq_granted (b := .deployed) h1 h2 h3 hf rfl rfl (by simp [lcListed, hl]) (fun h => by cases h)
      (fun _ => hk))
  case returnToMaker =>
    exact next_guardWrite ht (wrLcReq_granted (b := .returned) h1 h2 h3 hf rfl rfl (by simpa [lcListed] using hl) (fun h => by cases h)
      (fun h => by cases h))
  case scrap =>
    exact next_guardWrite ht (wrLcReq_granted (b := .scrapped) h1 h2 h3 hf rfl rfl (by simp [lcListed, hl]) (fun h => by cases h)
      (fun h => by cases h))
  case fuse =>
    refine congrArg Host.Outcome.next ?_
    simp only [hf, Bool.true_or, if_true]

end Sys2Proof.Machine

/-! The commands of the cause tree (R469 to R473): O31. -/
namespace Sys2Proof.Machine

/-- A bit that was set is set again. -/
theorem bset_bset_back {x : Word} {i : Nat} (hi : i < 32) (hx : nbit x.toNat i = true) : bset (bset x i false) i true = x := by
  refine BitVec.eq_of_getLsbD_eq fun j hj => ?_
  have hbit : nbit (bset (bset x i false) i true).toNat j = nbit x.toNat j := by
    rw [nbit_bset _ _ hi hj, nbit_bset _ _ hi hj]
    by_cases h : i = j
    · rw [if_pos h, ← h, hx]
    · rw [if_neg h, if_neg h]
  exact hbit

/-- An element of a register file written with its own value. -/
theorem vset_vget_self {α : Type} {n : Nat} (d : α) (v : Vector α n) {i : Nat} : vset v i (vget d v i) = v := by
  refine Vector.ext fun j hj => ?_
  by_cases h : i = j
  · subst h
    simp [vset, vget, hj]
  · simp [vset, h]

section
variable {s : State}

/-- A source's bits leave ACTIVE as it is, and set their group's pending word from it unseen. -/
theorem irqBits_setActive (a : Vector Word 32) (g : Nat) (bits : Word) :
    ({ s with irq := { s.irq with active := a } } : State).irqBits g bits
      = { s.irqBits g bits with irq := { (s.irqBits g bits).irq with active := a } } := by
  cases hruns : s.irq.hclkRuns <;> simp [State.irqBits, hruns]

theorem irqBits_active (g : Nat) (bits : Word) : (s.irqBits g bits).irq.active = s.irq.active := by
  cases hruns : s.irq.hclkRuns <;> simp [State.irqBits, hruns]

/-! ### COMPLETE (R469) -/

section
variable {v : Word} (hg : v.toNat / 256 < 32) (hb : v.toNat % 256 < 32) (hmap : nbit (levelMapOf (v.toNat / 256)) (v.toNat % 256) = true)
  (hactive : nbit (vget 0 s.irq.active (v.toNat / 256)).toNat (v.toNat % 256) = true)
include hg hb hmap hactive

theorem wrComplete_ended (hlevel : nbit (vget 0 s.irq.level (v.toNat / 256)).toNat (v.toNat % 256) = false) :
    wrComplete v s = ({ s with irq := { s.irq with
      active := vset s.irq.active (v.toNat / 256) (bset (vget 0 s.irq.active (v.toNat / 256)) (v.toNat % 256) false) } }, 0) := by
  simp only [wrComplete, hg, hb, hmap, hactive, hlevel, decide_true, Bool.and_self, Bool.false_eq_true, if_true, if_false]
  rfl

/-- A source whose condition holds is served anew: its ACTIVE bit, which COMPLETE cleared, is set again with the pending bit. -/
theorem wrComplete_stillOn (hlevel : nbit (vget 0 s.irq.level (v.toNat / 256)).toNat (v.toNat % 256) = true) :
    wrComplete v s = (s.irqEdge (v.toNat / 256) (v.toNat % 256), 0) := by
  have hback : vset (vset s.irq.active (v.toNat / 256) (bset (vget 0 s.irq.active (v.toNat / 256)) (v.toNat % 256) false)) (v.toNat / 256)
      (bset (bset (vget 0 s.irq.active (v.toNat / 256)) (v.toNat % 256) false) (v.toNat % 256) true)
      = (s.irqBits (v.toNat / 256) (w32 (2 ^ (v.toNat % 256)))).irq.active := by
    rw [bset_bset_back hb hactive, vset_vset_same, vset_vget_self, irqBits_active]
  simp only [wrComplete, hg, hb, hmap, hactive, hlevel, decide_true, Bool.and_self, if_true, State.irqEdge, irqBits_setActive,
    vget_vset_same _ _ _ hg, hback]
  rfl

end

theorem wrComplete_spurious {v : Word} (h : 32 ≤ v.toNat / 256 ∨ 32 ≤ v.toNat % 256 ∨
    nbit (levelMapOf (v.toNat / 256)) (v.toNat % 256) = false ∨
    nbit (vget 0 s.irq.active (v.toNat / 256)).toNat (v.toNat % 256) = false) :
    wrComplete v s = (s.incL Obj.SPURIOUS_COMPLETE_CNT, 0) := by
  refine if_neg ?_
  rcases h with h | h | h | h
  · simp [Nat.not_lt.mpr h]
  · simp [Nat.not_lt.mpr h]
  · simp only [h, Bool.and_false, Bool.false_and, Bool.false_eq_true, not_false_eq_true]
  · simp only [h, Bool.and_false, Bool.false_eq_true, not_false_eq_true]

/-! ### HCLK (R473) -/

theorem irqBits_running {t : State} (hruns : t.irq.hclkRuns = true) (g : Nat) (bits : Word) :
    (t.irqBits g bits).irq.hclkRuns = true ∧ (t.irqBits g bits).irq.latch = t.irq.latch ∧
      (t.irqBits g bits).irq.pend = vset t.irq.pend g (vget 0 t.irq.pend g ||| bits) := by
  simp [State.irqBits, hruns]

/-- The latches of the groups of a list join their pending words while HCLK runs. -/
theorem foldl_irqBits_latch (l : List Nat) (t : State) (hruns : t.irq.hclkRuns = true) (hl : ∀ g ∈ l, g < 32) :
    (l.foldl (fun s g => s.irqBits g (vget 0 s.irq.latch g)) t).irq.hclkRuns = true ∧
    ∀ k, vget 0 (l.foldl (fun s g => s.irqBits g (vget 0 s.irq.latch g)) t).irq.pend k
      = if k ∈ l then vget 0 t.irq.pend k ||| vget 0 t.irq.latch k else vget 0 t.irq.pend k := by
  induction l generalizing t with
  | nil => exact ⟨hruns, fun k => (if_neg List.not_mem_nil).symm⟩
  | cons g l ih =>
    obtain ⟨hruns', hlatch, hpend⟩ := irqBits_running hruns g (vget 0 t.irq.latch g)
    obtain ⟨hend, hall⟩ := ih _ hruns' fun x hx => hl x (List.mem_cons_of_mem _ hx)
    refine ⟨hend, fun k => (hall k).trans ?_⟩
    rw [hlatch, hpend]
    by_cases hk : k = g
    · subst hk
      rw [vget_vset_same _ _ _ (hl k List.mem_cons_self), if_pos List.mem_cons_self]
      split
      · rw [BitVec.or_assoc, BitVec.or_self]
      · rfl
    · rw [vget_vset_other _ _ _ (Ne.symm hk)]
      simp only [List.mem_cons, hk, false_or]

theorem hclkEdge_runs : s.hclkEdge.irq.hclkRuns = true :=
  (foldl_irqBits_latch _ _ rfl fun _ hg => List.mem_range.mp (List.mem_filter.mp hg).1).1

theorem hclkEdge_pend (k : Nat) : vget 0 s.hclkEdge.irq.pend k = vget 0 s.irq.pend k ||| vget 0 s.irq.latch k := by
  refine ((foldl_irqBits_latch _ _ rfl fun _ hg => List.mem_range.mp (List.mem_filter.mp hg).1).2 k).trans ?_
  split
  case isTrue => rfl
  case isFalse hk =>
    have hzero : vget 0 s.irq.latch k = 0 := by
      by_cases h32 : k < 32
      · refine Decidable.byContradiction fun hne => hk ?_
        exact List.mem_filter.mpr ⟨List.mem_range.mpr h32, decide_eq_true hne⟩
      · simp [vget, h32]
    rw [hzero]
    exact BitVec.or_zero.symm

end

/-- Settles O31: COMPLETE by what its source is doing, PEND by the bits it erases, the resume of HCLK by the fold over the latches. -/
theorem attentionCommandsComplete : Obligations.AttentionCommandsComplete := by
  unfold Obligations.AttentionCommandsComplete
  refine ⟨fun s p v g b ht hgv hbv hg hb hm ha hl => ?ended, fun s p v g b ht hgv hbv hg hb hm ha hl => ?stillOn,
    fun s p v ht h => ?spurious, fun s p g v ht h => ?pend, fun s p g v ht h => ?race, fun s p g => rfl, fun s hr => next_ite_pos hr,
    fun s hr => ⟨next_ite_neg (ne_true_of_eq_false hr), hclkEdge_runs, rfl, hclkEdge_pend⟩⟩
  case ended =>
    subst hgv hbv
    exact next_guardWrite ht (wrComplete_ended hg hb hm ha hl)
  case stillOn =>
    subst hgv hbv
    exact next_guardWrite ht (wrComplete_stillOn hg hb hm ha hl)
  case spurious => exact next_guardWrite ht (wrComplete_spurious h)
  case pend => exact next_guardWrite ht (if_pos h)
  case race => exact next_guardWrite ht (if_neg h)

end Sys2Proof.Machine

/-! The accesses to objects (R9, R486 to R488): O32. -/
namespace Sys2Proof.Machine

section
variable {s : State} {p : Path} {key : Nat} {v : Word}

/-! ### A path's access to an object that is not OBJ_DATA -/

theorem tryWrite_takes (h : s.takes key v) (eff : State → WOut) : s.tryWrite key v eff = eff s := by
  obtain ⟨_, hcheck, hclaim⟩ := h
  have hfree : s.claims key = false := hclaim
  exact if_pos (by simp only [hcheck, hfree, decide_true, Bool.not_false, Bool.and_self])

theorem report_host_retired (t : State) : t.report .host key 0 = t.hostRetire := rfl

section
variable (hlow : s.boot.resetLow = false) (hkey : key ≠ Obj.OBJ_DATA)
include hlow hkey

theorem pathGet_other (hp : p ≠ .host) : s.pathGet p key = (s.keyRead p key).1 := by
  have hread : s.pathRead p key = s.keyRead p key := if_neg hkey
  simp only [State.pathGet, hlow, hread, Bool.false_eq_true, if_false]

theorem pathGet_host : s.pathGet .host key
    = (s.keyRead .host key).1.setDict { (s.keyRead .host key).1.dict with hostData := (s.keyRead .host key).2.1 } := by
  have hread : s.pathRead .host key = s.keyRead .host key := if_neg hkey
  simp only [State.pathGet, hlow, hread, Bool.false_eq_true, if_false]

theorem pathPut_direct : s.pathPut p key v = (s.keyWrite p key v).1.report p key (s.keyWrite p key v).2 := by
  have hwrite : s.pathWrite p key v = s.keyWrite p key v := if_neg hkey
  simp only [State.pathPut, hlow, hwrite, Bool.false_eq_true, if_false]

/-- A write of the Host Port that has been taken retires (R484). -/
theorem pathPut_retired (htaken : (s.keyWrite .host key v).2 = 0) :
    s.pathPut .host key v = (s.keyWrite .host key v).1.hostRetire := by
  rw [pathPut_direct hlow hkey, htaken, report_host_retired]

end

theorem keyWrite_takes (h : s.takes key v) (hdomain : isDomain key = false) (hend : key ≠ Obj.DOM_END) :
    s.keyWrite p key v = objEffect p key v s :=
  (if_neg (ne_true_of_eq_false hdomain)).trans <| (if_neg hend).trans <| tryWrite_takes h _

theorem keyWrite_domain (hdomain : isDomain key = true) : s.keyWrite .host key v = s.domWrite key v := if_pos hdomain

theorem keyRead_domain (hdomain : isDomain key = true) : s.keyRead .host key = ((s.domRead key).1, (s.domRead key).2, 0) := by
  unfold isDomain at hdomain
  unfold State.keyRead
  split at hdomain
  case h_1 r i j hrow =>
    simp only [hrow, of_decide_eq_true hdomain, if_true]
  case h_2 => exact absurd hdomain Bool.false_ne_true

theorem keyWrite_domEnd (hv : v.toNat ≤ 65535) : s.keyWrite .host Obj.DOM_END v = s.domEnd v :=
  (if_neg (by decide)).trans <| (if_pos rfl).trans <| if_neg (Nat.not_lt.mpr hv)

/-! ### OBJ_DATA (R486) -/

section
variable (hlow : s.boot.resetLow = false) (hsel : s.nl Obj.OBJ_SEL ≠ Obj.OBJ_DATA)
include hlow hsel

theorem objData_written (htaken : (s.keyWrite .host (s.nl Obj.OBJ_SEL) v).2 = 0) : s.pathPut .host Obj.OBJ_DATA v
    = (((s.keyWrite .host (s.nl Obj.OBJ_SEL) v).1.setLN Obj.OBJ_RESULT 0).hostRetire) := by
  simp only [State.pathPut, State.pathWrite, hlow, if_neg hsel, htaken, Bool.false_eq_true, if_true, if_false]
  rfl

theorem objData_read : s.pathGet .host Obj.OBJ_DATA = (
    let o := s.keyRead .host (s.nl Obj.OBJ_SEL)
    let s1 := o.1.setLN Obj.OBJ_RESULT o.2.2
    s1.setDict { s1.dict with hostData := o.2.1 }) := by
  simp only [State.pathGet, State.pathRead, hlow, if_neg hsel, Bool.false_eq_true, if_true, if_false]

end
end

/-- Settles O32: each access is that of its path, and a write that is taken is reported or retires. -/
theorem objectAccessCommandsComplete : Obligations.ObjectAccessCommandsComplete := by
  unfold Obligations.ObjectAccessCommandsComplete
  refine ⟨fun s p key v ht he => ?register, fun s p key x hlow hp hr hk ho => ?latch, fun s key x hlow hr hk ho => ?latchHost,
    fun s p key hlow hp hw ho => ?wideLow, fun s key hlow hw ho => ?wideLowHost, fun s p key v hlow hw ho htk => ?wideHigh,
    fun s p v ht => ?domPtr, fun s key hlow hd ho => ?domRead, fun s key v hlow hd ho htk => ?domWrite, fun s v hlow hv htk => ?domEnd,
    fun s v hlow hs htk => congrArg Host.Outcome.next (objData_written hlow hs htk),
    fun s hlow hs => congrArg Host.Outcome.next (objData_read hlow hs), fun s addr off hreg => ?discard⟩
  case register => exact next_guardWrite ht (Prod.ext rfl he)
  case latch =>
    refine congrArg Host.Outcome.next ?_
    simp only [hr, if_pos hk, pathGet_other hlow ho hp]
  case latchHost =>
    refine congrArg Host.Outcome.next ?_
    simp only [hr, if_pos hk, pathGet_host hlow ho]
  case wideLow => exact (next_ite_pos hw).trans (congrArg Host.Outcome.next (pathGet_other hlow ho hp))
  case wideLowHost => exact (next_ite_pos hw).trans (congrArg Host.Outcome.next (pathGet_host hlow ho))
  case wideHigh =>
    refine (next_ite_pos hw).trans (congrArg Host.Outcome.next ?_)
    rw [pathPut_direct hlow ho, htk]
  case domPtr =>
    refine congrArg Host.Outcome.next ?_
    rw [pathPut_direct ht.1 (by decide), keyWrite_takes ht (by decide) (by decide)]
  case domRead =>
    refine (next_ite_pos hd).trans (congrArg Host.Outcome.next ?_)
    rw [pathGet_host hlow ho, keyRead_domain hd]
  case domWrite =>
    have htaken : (s.keyWrite .host key v).2 = 0 := by rwa [keyWrite_domain hd]
    refine (next_ite_pos hd).trans (congrArg Host.Outcome.next ?_)
    rw [pathPut_retired hlow ho htaken, keyWrite_domain hd]
  case domEnd =>
    have htaken : (s.keyWrite .host Obj.DOM_END v).2 = 0 := by rwa [keyWrite_domEnd hv]
    refine congrArg Host.Outcome.next ?_
    rw [pathPut_retired hlow (by decide) htaken, keyWrite_domEnd hv]
  case discard =>
    refine congrArg Host.Outcome.next ?_
    simp only [hreg]
    rfl

end Sys2Proof.Machine

/-! The commands of the Host Port and of the mailbox (R480, R482 to R492): O33. -/
namespace Sys2Proof.Machine

section
variable {s : State}

/-! ### Accesses (R482, R485) -/

section
variable (hlow : s.boot.resetLow = false) (hopen : s.accessOpen = false)
include hlow hopen

theorem access_admitted : ¬ (s.boot.resetLow || s.accessOpen) = true := by
  simp only [hlow, hopen, Bool.or_self, Bool.false_eq_true, not_false_eq_true]

theorem hostAccess_write {addr : BitVec 22} {be : BitVec 4} {v : Word} {clk : Nat} : exec (.hostAccess true addr be v clk) s = .next (
    (s.hostEdge.setDict { s.hostEdge.dict with hostStart := s.hostEdge.time.l, hostClk := clk }).hostWriteStart
      (addr.toNat / 4 * 4) be v) :=
  (next_ite_neg (access_admitted hlow hopen)).trans (next_ite_pos rfl)

theorem hostAccess_read {addr : BitVec 22} {be : BitVec 4} {v : Word} {clk : Nat} : exec (.hostAccess false addr be v clk) s = .next (
    (s.hostEdge.setDict { s.hostEdge.dict with hostStart := s.hostEdge.time.l, hostClk := clk }).hostReadStart (addr.toNat / 4 * 4)) :=
  (next_ite_neg (access_admitted hlow hopen)).trans (next_ite_neg Bool.false_ne_true)

end

/-- An access that waits is given up with its request (R485). -/
theorem hostAccessAbandon_waiting {q : QReq} (hwait : s.dict.hostWait = some q) :
    exec .hostAccessAbandon s = .next { s.incL Obj.HP_ABANDON_CNT with dict := { s.dict with hostWait := none } } := by
  have hopen : s.accessOpen = true := by simp only [State.accessOpen, hwait, Option.isSome_some, Bool.true_or]
  have hsome : (s.incL Obj.HP_ABANDON_CNT).dict.hostWait.isSome = true := by
    rw [State.incL_dict, hwait, Option.isSome_some]
  exact (next_ite_pos hopen).trans (next_ite_pos hsome)

/-- The data of a queued read that is given up is dropped (R485). -/
theorem hostAccessAbandon_queued (hopen : s.accessOpen = true) (hwait : s.dict.hostWait = none) :
    exec .hostAccessAbandon s = .next { s.incL Obj.HP_ABANDON_CNT with dict := { s.dict with abandoned := true } } := by
  have hnone : ¬ (s.incL Obj.HP_ABANDON_CNT).dict.hostWait.isSome = true := by
    rw [State.incL_dict, hwait, Option.isSome_none]
    exact Bool.false_ne_true
  exact (next_ite_pos hopen).trans (next_ite_neg hnone)

/-! ### SDO requests (R480, R492) -/

section
variable (hmbx : s.mbxOpen = true)
include hmbx

theorem mbx_notClosed : ¬ (!s.mbxOpen) = true := by
  simp only [hmbx, Bool.not_true, Bool.false_eq_true, not_false_eq_true]

theorem sdoDownloadInitiate_segmented {idx : BitVec 16} {sub : BitVec 8} {size : Nat} {bytes : List Byte} (hsize : bytes.length < size) :
    exec (.sdoDownloadInitiate idx sub false size bytes) s = .next (
      (s.setXfer (some ⟨idx.toNat, sub.toNat, false, size, bytes, false⟩)).reply (.downloadStarted idx.toNat sub.toNat)) :=
  (next_ite_neg (mbx_notClosed hmbx)).trans <| (next_ite_neg Bool.false_ne_true).trans <| next_ite_neg (Nat.not_le.mpr hsize)

section
variable {x : SdoXfer} (hxfer : s.dict.xfer = some x)
include hxfer

theorem sdoDownloadSegment_more {bytes : List Byte} (hdown : x.upload = false) (hroom : (x.bytes ++ bytes).length ≤ domBufBytes) :
    exec (.sdoDownloadSegment x.toggle false bytes) s
      = .next ((s.setXfer (some { x with bytes := x.bytes ++ bytes, toggle := !x.toggle })).reply (.segmentAck x.toggle)) := by
  refine (next_ite_neg (mbx_notClosed hmbx)).trans (congrArg Host.Outcome.next ?_)
  simp only [hxfer, hdown, if_neg (Nat.not_lt.mpr hroom), ne_eq, not_true_eq_false, Bool.false_eq_true, if_false]

theorem sdoDownloadSegment_last {bytes : List Byte} (hdown : x.upload = false) (hall : (x.bytes ++ bytes).length = x.size)
    (hroom : x.size ≤ domBufBytes) : exec (.sdoDownloadSegment x.toggle true bytes) s
      = .next ((s.setXfer none).sdoAdmit (.sdoApply x.index x.sub (x.bytes ++ bytes) x.toggle)) := by
  refine (next_ite_neg (mbx_notClosed hmbx)).trans (congrArg Host.Outcome.next ?_)
  simp only [hxfer, hdown, hall, if_neg (Nat.not_lt.mpr hroom), ne_eq, not_true_eq_false, Bool.false_eq_true, if_true, if_false]

theorem sdoUploadSegment_next (hup : x.upload = true) : exec (.sdoUploadSegment x.toggle) s = .next (
    let rest := x.bytes.drop segmentBytes
    (s.setXfer (if rest.isEmpty then none else some { x with bytes := rest, toggle := !x.toggle })).reply
      (.segment x.toggle (x.bytes.take segmentBytes) rest.isEmpty)) := by
  refine (next_ite_neg (mbx_notClosed hmbx)).trans (congrArg Host.Outcome.next ?_)
  simp only [hxfer, hup, Bool.not_true, ne_eq, not_true_eq_false, Bool.false_eq_true, if_false]

end
end
end

/-- Settles O33: an admitted access starts; the queue's next entry is served; an SDO request goes on in the branch of its transfer. -/
theorem hostAndMailboxCommandsComplete : Obligations.HostAndMailboxCommandsComplete := by
  unfold Obligations.HostAndMailboxCommandsComplete
  refine ⟨fun s addr be v clk hlow ho => hostAccess_write hlow ho, fun s addr be v clk hlow ho => hostAccess_read hlow ho,
    fun s q hw => hostAccessAbandon_waiting hw, fun s ho hw => hostAccessAbandon_queued ho hw,
    fun s clk hlow ho => next_ite_neg (access_admitted hlow ho), fun s u q rest hu hq => ?service,
    fun s idx sub size bytes hm => ?downloadInit, fun s idx sub size bytes hm hs => sdoDownloadInitiate_segmented hm hs,
    fun s x bytes hm hx hd hr => sdoDownloadSegment_more hm hx hd hr, fun s x bytes hm hx hd ha hr => sdoDownloadSegment_last hm hx hd ha hr,
    fun s idx sub hm => next_ite_pos hm, fun s x hm hx hu => sdoUploadSegment_next hm hx hu, fun s hm => next_ite_pos hm,
    fun s hm => ?blockTransfer, fun s hm => ?otherProtocol, fun s x hx => next_ite_pos (Option.isSome_of_eq_some hx)⟩
  case service =>
    refine congrArg Host.Outcome.next ?_
    simp only [hu, hq]
  case downloadInit => exact (next_ite_neg (mbx_notClosed hm)).trans (next_ite_pos rfl)
  case blockTransfer => exact (next_ite_neg (mbx_notClosed hm)).trans (next_ite_pos rfl)
  case otherProtocol => exact (next_ite_neg (mbx_notClosed hm)).trans (next_ite_neg Bool.false_ne_true)

end Sys2Proof.Machine

/-! The field network's state machine, process data and the PHYs (R492 to R497): O34. -/
namespace Sys2Proof.Machine

section
variable {s : State}

theorem alReqOp_mapped (hlow : s.boot.resetLow = false) (hal : s.dict.al = .safeOp ∨ s.dict.al = .op) (hrx : s.pdoValid true = true)
    (htx : s.pdoValid false = true) :
    exec .alReqOp s = .next { s with dict := { s.dict with al := .op, alCode := 0, pdWdt := false } } := by
  have hearly : ¬ (s.dict.al = .init ∨ s.dict.al = .preOp) := by
    rcases hal with hal | hal <;> simp [hal]
  refine congrArg Host.Outcome.next ?_
  simp only [hlow, if_neg hearly, hrx, htx, Bool.not_true, Bool.false_eq_true, if_false]
  rfl

theorem objEffect_mdioCmd (p : Path) (v : Word) : objEffect p Obj.MDIO_CMD v s = wrMdioCmd (keepBits Obj.MDIO_CMD v) s := rfl

/-- START with no frame under way begins the management frame of the word (R497). -/
theorem wrMdioCmd_start {v : Word} (hstart : nbit v.toNat 31 = true) (hidle : s.dict.mdio = none) : wrMdioCmd v s
    = (({ s with dict := { s.dict with mdio := some (false, v) } } : State).setLN Obj.MDIO_RESULT 1, 0) := by
  simp only [wrMdioCmd, hstart, hidle, Bool.not_true, Option.isSome_none, Bool.false_eq_true, if_false]
  rfl

section
variable {b : Bool} {cmd : Word} {data : BitVec 16} (hmdio : s.dict.mdio = some (b, cmd))
include hmdio

theorem mdioFrameDone_read (hread : nbit cmd.toNat 30 = false) : exec (.mdioFrameDone data) s
    = .next ((({ s with dict := { s.dict with mdio := none } } : State).setLN Obj.MDIO_RESULT 2).setLN Obj.MDIO_DATA data.toNat) := by
  refine congrArg Host.Outcome.next ?_
  simp only [hmdio, hread, Bool.false_eq_true, if_false]
  rfl

theorem mdioFrameDone_write (hwrite : nbit cmd.toNat 30 = true) : exec (.mdioFrameDone data) s
    = .next (({ s with dict := { s.dict with mdio := none } } : State).setLN Obj.MDIO_RESULT 2) := by
  refine congrArg Host.Outcome.next ?_
  simp only [hmdio, hwrite, if_true]
  rfl

end
end

/-- Settles O34: the requests out of reset in the branch of the state they come from; MDIO_CMD by its own effect. -/
theorem networkAndPhyCommandsComplete : Obligations.NetworkAndPhyCommandsComplete := by
  unfold Obligations.NetworkAndPhyCommandsComplete
  refine ⟨fun s hlow => next_ite_neg (ne_true_of_eq_false hlow), fun s hlow => next_ite_neg (ne_true_of_eq_false hlow),
    fun s hlow hal => ?safeOp, fun s hlow hal hrx htx => alReqOp_mapped hlow hal hrx htx, fun s bytes hal hlen => next_ite_pos ⟨hal, hlen⟩,
    fun s hal hwdt => next_ite_pos ⟨hal, hwdt⟩, fun s links => rfl, fun s port sync => rfl, fun s p v ht hst hm => ?mdioCmd,
    fun s b cmd data hm hr => mdioFrameDone_read hm hr, fun s b cmd data hm hw => mdioFrameDone_write hm hw⟩
  case safeOp => exact (next_ite_neg (ne_true_of_eq_false hlow)).trans (next_ite_neg hal)
  case mdioCmd =>
    refine congrArg Host.Outcome.next ?_
    rw [pathPut_direct ht.1 (by decide), keyWrite_takes ht (by decide) (by decide), objEffect_mdioCmd, wrMdioCmd_start hst hm]

end Sys2Proof.Machine

/-! The power monitors, the clocks and the test access port (R507 to R529): O35. -/
namespace Sys2Proof.Machine

section
variable {s : State}

/-- A temperature within the range of R458 wipes nothing and ends an excursion. -/
theorem tempRange_inside (out : Bool) (hout : out = false) :
    s.tempRange out = { s with power := { s.power with tempOut := false } } := by
  subst hout
  rfl

/-- A sample below TJ_WARN and within the range of R458 (R511, R512). -/
theorem tjSample_cool {t : BitVec 16} (hlow : s.boot.resetLow = false) (hcool : t.toInt < (4 * s.na Obj.TJ_WARN_C : Nat))
    (hmin : -200 ≤ t.toInt) (hmax : t.toInt ≤ 560) : exec (.tjSample t) s = .next (
      let hi := if s.power.tjSampled then max t.toInt (s.il Obj.TJ_MAX) else t.toInt
      let lo := if s.power.tjSampled then min t.toInt (s.il Obj.TJ_MIN) else t.toInt
      let s1 : State := { s with power := { s.power with tj := t.toInt, tjSampled := true, overRun := 0 } }
      let u := (((s1.setLI Obj.TJ_MAX hi).setLI Obj.TJ_MIN lo).faultLevel 39 false).faultLevel 40 (decide (tempCrit < t.toInt))
      { u with power := { u.power with tempOut := false } }) := by
  have hhot : decide (((4 * s.na Obj.TJ_WARN_C : Nat) : Int) ≤ t.toInt) = false := decide_eq_false (Int.not_le.mpr hcool)
  have hrun : decide (10000 ≤ 0) = false := rfl
  have hrange : (decide (t.toInt < -200) || decide (560 < t.toInt)) = false := by
    rw [decide_eq_false (Int.not_lt.mpr hmin), decide_eq_false (Int.not_lt.mpr hmax), Bool.or_self]
  refine (next_ite_neg (ne_true_of_eq_false hlow)).trans (congrArg Host.Outcome.next ?_)
  simp only [hhot, hrun, hrange, tempRange_inside, State.incIf, Bool.false_eq_true, if_false]

theorem clocked_notBooting (hlow : s.boot.resetLow = false) (hstep : s.boot.step ≠ .clocks) :
    ¬ (s.boot.resetLow = true ∨ s.boot.step = .clocks) := by
  simp only [hlow, hstep, Bool.false_eq_true, or_self, not_false_eq_true]

end

/-- Settles O35: the monitors' commands out of reset, and the instructions of the test access port as they stand. -/
theorem powerAndTapCommandsComplete : Obligations.PowerAndTapCommandsComplete := by
  unfold Obligations.PowerAndTapCommandsComplete
  exact ⟨fun s t hlow hc h1 h2 => tjSample_cool hlow hc h1 h2, fun s io core safe ppb hlow => next_ite_neg (ne_true_of_eq_false hlow),
    fun s mv hlow => next_ite_neg (ne_true_of_eq_false hlow), fun s hpll => next_ite_pos hpll,
    fun s hlow hstep => next_ite_neg (clocked_notBooting hlow hstep), fun s ppb hx => next_ite_pos hx,
    fun s ppb hlow hstep => next_ite_neg (clocked_notBooting hlow hstep), fun s => rfl, fun s hlow => next_ite_pos hlow, fun s => rfl,
    fun s cells => rfl, fun s sel hlow => next_ite_neg (ne_true_of_eq_false hlow), fun s => rfl⟩

end Sys2Proof.Machine
